-- ==== Sys2Proof/Word.lean ====
section
/-! DEFINITION. Sys2Proof/Word.lean: the word types, the index types of the block's parts, and a bead thread's name. -/
namespace Sys2Proof

/-- One byte of any memory (R4: multi-byte quantities are little-endian). -/
abbrev Byte := BitVec 8
/-- A CSR register's width (R6), a unit of an encode (R386) and a token ID. -/
abbrev Word := BitVec 32
/-- A register pair's width (R8), a chip-memory address, and a bead's scalar register (R368). -/
abbrev DWord := BitVec 64
/-- A 64-byte line: a bead's vector register (R368). -/
abbrev Line := BitVec 512

/-- A step domain SD0 to SD3 (R36). -/
abbrev Dom := Fin 4
/-- A ring pair (R65). -/
abbrev Ring := Fin 64
/-- A partition (R513). -/
abbrev Part := Fin 16
/-- A cluster (R14). -/
abbrev Clu := Fin 64
/-- A cluster group (R14). -/
abbrev Grp := Fin 16
/-- A flash channel (R472). -/
abbrev Chan := Fin 16
/-- A context of the dispatcher (R125): 0 to 4,095 are op contexts, 4,096 to 4,159 the 64 control contexts. -/
abbrev Ctx := Fin 4160
/-- A byte offset in the 32 MiB CSR window (R657). -/
abbrev CsrOff := BitVec 25

/-- A hardware thread of a bead (R14, R367): the cluster, the bead (32 is the spare) and the thread. -/
structure Thread where
  clu  : Fin 64
  bead : Fin 33
  thr  : Fin 4
deriving DecidableEq, Repr

end Sys2Proof
end

