-- ==== Sys2Proof/Syntax.lean ====
section
/-! DEFINITION. Sys2Proof/Syntax.lean: the commands of the block, one constructor per row of spec/opcode_table.json.
The operands are what a command carries from outside (the value written, a received frame, a measured temperature) or
which part of the block acts (a ring pair, an op context, a channel, a bead thread). -/
namespace Sys2Proof

/-- What a flash die answers at bring-up (R473, R475): its identity, its geometry, and its factory-marked blocks as (block, plane). -/
structure DieInfo where
  uid    : Nat
  onfi   : Bool
  crcOk  : Bool
  main   : Nat
  spare  : Nat
  planes : Nat
  ppb    : Nat
  bpp    : Nat
  levels : Nat
  marked : List (Nat × Nat)
deriving DecidableEq, Repr

/-- How a codeword read came out (R479, R483): the rung at which it was corrected, none when it stays uncorrected, and the
corrected 1-to-0 and 0-to-1 flips. -/
structure CwRead where
  rung : Option (Fin 5)
  down : Nat
  up   : Nat
deriving DecidableEq, Repr

/-- A journal operation on a channel: `bad` numbers, among the places in order, those where a page program ends with status fail, or the journal
pages that are uncorrectable in their first place (R487, R492, R498). -/
structure JournalRun where
  ch  : Chan
  bad : List Nat
deriving DecidableEq, Repr

/-- Who sends a register write to a member of a redundant pair (R619): software, or the primary, which forwards it. -/
inductive WriteSrc where
  | host
  | primary
deriving DecidableEq, Repr

/-- The word of a register write, with its sender. -/
structure SentWord where
  val : Word
  src : WriteSrc
deriving DecidableEq, Repr

/-- An access to the CSR window (R6): offset, size in bytes. -/
structure RegAccess where
  off  : CsrOff
  size : Nat
deriving DecidableEq, Repr

/-- Where read data goes: a line of scratch, a line of the VGS that is reloaded, a line of a call's WORK window (R385, R419, R433). -/
inductive FabDest where
  | scratch (c : Clu) (line : Fin 16384)
  | vgs (b : Fin 32) (line : Fin 24576)
  | work (t : Thread) (line : Fin 256)
deriving DecidableEq, Repr

/-- A chip-memory request of the block that the host chip answers (R430, R433, R440): its number, the AON cycle in which it entered the fabric
interface, address, bytes, whether it writes, its master code, the partition it is made for (none: the instance's own), the op and the
batch item it serves, the ring pair, and the line that read data goes to. -/
structure FabReq where
  id    : Nat
  at_   : Nat
  addr  : DWord
  len   : Nat
  write : Bool
  master : Byte
  part  : Option Part
  ctx   : Option Ctx
  item  : Option Nat
  ring  : Option Ring
  dest  : Option FabDest
deriving DecidableEq, Repr

/-- A command: one row of the table of operations and events. -/
inductive Instr where
  /-- POWER_ON_RESET (R579). PLW_POR_N low or VDD_AON below its good level resets every domain, AON included, and clears retained SRAM. -/
  | powerOnReset
  /-- HOST_WARM_RESET (R579). PLW_WARM_N low resets every domain except AON, after capturing ring positions and step times. -/
  | hostWarmReset
  /-- SOFT_RESET (R593). A write of RST_CTRL.SOFT with KEY 0xA5 requests a whole-instance SOFT reset. -/
  | softReset (v : Word)
  /-- FW_WATCHDOG_EXPIRY (R580). The unserviced 1 s firmware watchdog raises a WDOG whole-instance reset. -/
  | fwWatchdogExpiry
  /-- BOOT_SEQUENCE (R555). Release of a reset runs the boot steps: strap, fuses, slot choice, image check, composition, domain release and pairing, up to DONE. -/
  | bootSequence (strap : List (BitVec 4)) (marginal : List (Fin 256)) (tempC : BitVec 8) (media : List (List (Option DieInfo)))
  /-- BOOT_RESUME (R562). A write of CFG_BOOT_CTRL.RESUME leaves boot-halt and continues the boot. -/
  | bootResume
  /-- PAIRING_TIMEOUT (R569). With no partner or address within 1 s of step 10, both members run single and PAIR reads 3. -/
  | pairingTimeout
  /-- RECOVERY_REBUILD (R588). A recovered partition rebuilds its allocator and strands, zeroes HELD, issues new epochs and waits for its keys before NORMAL. -/
  | recoveryRebuild (p : Part)
  /-- SD_ENABLE (R39). Setting GLB_SD_CTRL.ENABLE puts the domain in WAITING, or in TIMER with a first synthetic beat when SOURCE is 1. -/
  | sdEnable (d : Dom) (v : Word)
  /-- SD_DISABLE (R52). Clearing GLB_SD_CTRL.ENABLE enters OFF and completes every uncommitted op with a point in the domain with DEADLINE_MISSED. -/
  | sdDisable (d : Dom) (v : Word)
  /-- STEP_BEAT_EDGE (R45). A rising edge on PLW_STEP_BEAT[d] is filtered as a clean beat that advances the step or as an overrun. -/
  | stepBeatEdge (d : Dom)
  /-- BEAT_STUCK_DETECT (R45). A level held at 1 for more than 1 ms sets STUCK and posts BEAT_STUCK. -/
  | beatStuckDetect (d : Dom)
  /-- BEAT_RELEASE (R45). A falling level while STUCK is 1 clears STUCK and is not a beat. -/
  | beatRelease (d : Dom)
  /-- BEAT_WATCHDOG_EXPIRY (R46). No accepted beat for the watchdog time in BEAT issues a synthetic beat, enters TIMER and posts BEAT_LOST. -/
  | beatWatchdogExpiry (d : Dom)
  /-- SYNTHETIC_BEAT (R47). In TIMER a synthetic beat is issued every measured period and advances the step. -/
  | syntheticBeat (d : Dom)
  /-- DEADLINE_REACHED (R49). When a domain reaches an op's deadline point before its commit, the op completes with DEADLINE_MISSED and leaves its residue. -/
  | deadlineReached (c : Ctx)
  /-- LOGITS_READY_POINT (R50). Reaching the phase logits-ready point of a STEP_BATCH makes its logits ready. -/
  | logitsReadyPoint (c : Ctx)
  /-- SQ_DOORBELL (R68). A write to PRT_SQ_TAIL in MEMORY mode sets the tail, or is ignored with OVERFILL and RING_ERROR when it would overfill. -/
  | sqDoorbell (r : Ring) (v : SentWord)
  /-- SQ_FETCH (R68). A completed SQ read of up to 4 entries pushes them into the intake FIFO and advances SQ_HEAD, or stops fetching with RING_ERROR cause 3. -/
  | sqFetch (r : Ring)
  /-- PUSH_WORD (R69). A write to PRT_PUSH0 to PRT_PUSH14 stores one word of the entry being assembled. -/
  | pushWord (r : Ring) (k : Fin 15) (v : SentWord)
  /-- PUSH_COMMIT (R69). A write to PRT_PUSH15 commits the entry into the intake FIFO, holding the handshake while it is full, or discards it with PUSH_DROP when disabled. -/
  | pushCommit (r : Ring) (v : SentWord)
  /-- CQ_HEAD_WRITE (R76). A write to PRT_CQ_HEAD frees completion slots, or is ignored with OVERFILL and RING_ERROR when it would overfill. -/
  | cqHeadWrite (r : Ring) (v : Word)
  /-- RING_ENABLE (R73). Setting PRT_RING_CFG.ENABLE while DRAINED zeroes the indices, empties the FIFO and latches mode, sizes and bases. -/
  | ringEnable (r : Ring) (v : Word)
  /-- RING_DISABLE (R73). Clearing PRT_RING_CFG.ENABLE stops intake and drains the ring until DRAINED sets. -/
  | ringDisable (r : Ring) (v : Word)
  /-- RING_FLUSH (R87). Writing PRT_RING_CTRL.FLUSH discards the intake FIFO at the next entry boundary, completing each entry with CANCELLED. -/
  | ringFlush (r : Ring) (v : Word)
  /-- LOGITS_READY_DOORBELL (R107). A write to PRT_LREADY makes the named STEP_BATCH's logits ready and is kept among the last 16 values. -/
  | logitsReadyDoorbell (r : Ring) (v : Word)
  /-- EVQ_ENABLE (R91). Setting PRT_EVQ_CFG.ENABLE zeroes the event ring indices, latches its size and base, and lets RESET_REPORT be posted first. -/
  | evqEnable (p : Part) (v : Word)
  /-- EVQ_HEAD_WRITE (R92). A write to PRT_EVQ_HEAD frees event slots, or is ignored with RING_ERROR cause 5 when it would overfill. -/
  | evqHeadWrite (p : Part) (v : Word)
  /-- COAL_TIMER_EXPIRY (R83). COAL_US µs after the last head write or oldest unread completion, the completion interrupt condition becomes true. -/
  | coalTimerExpiry (r : Ring)
  /-- OP_DISPATCH (R125). The dispatcher moves a FIFO head entry into an op context or control context, checks it and binds its objects, generation and keys. -/
  | opDispatch (r : Ring)
  /-- OP_READY (R129). A queued op becomes ready once its clasps, budget, strand exclusion and logits-ready conditions all hold. -/
  | opReady (c : Ctx)
  /-- COMPLETION_WRITE (R71). Once write responses return and CQ space exists, the completion is written, CQ_TAIL advances and the op context frees. -/
  | completionWrite (c : Ctx)
  /-- SESSION_OPEN (R144). Admits, takes slot and pages, copies parameters, sets the initial CP state and makes the strand descriptor live. -/
  | sessionOpen (c : Ctx)
  /-- SESSION_CLOSE (R101). Closes a resident or parked session, releasing its pages and deleting its lockets from both tiers. -/
  | sessionClose (c : Ctx)
  /-- ENCODE (R236). Encodes text into tokens and optionally packed rows, chunk descriptors, block hashes and handles, committing at the header write. -/
  | encode (c : Ctx)
  /-- ENCODE_APPEND (R252). Encodes text and appends the tokens to the strand, setting PROMPT_LEN, resetting the CP and ending the stream. -/
  | encodeAppend (c : Ctx)
  /-- DECODE (R272). Converts token IDs to UTF-8 text in one fresh stream with no strand. -/
  | decode (c : Ctx)
  /-- STEP_BATCH (R105). Steps the listed sessions of one domain for one step and writes one output batch and text batch. -/
  | stepBatch (c : Ctx)
  /-- MASK_BATCH (R315). Writes NEXT or TREE masks for the listed sessions with tags, index and header. -/
  | maskBatch (c : Ctx)
  /-- SPEC_VERIFY (R321). Masks and walks a draft tree, drawing from node rows, and commits the accepted path atomically. -/
  | specVerify (c : Ctx)
  /-- PREFILL_CHUNKS (R245). Writes chunk descriptors for given tokens or the session history. -/
  | prefillChunks (c : Ctx)
  /-- HASH_BLOCKS (R247). Computes chained keyed block hashes, and handles in handle mode, over given tokens. -/
  | hashBlocks (c : Ctx)
  /-- PARK (R455). Builds, encrypts and stores a locket of the strand in the warm park and releases the strand, or moves a warm locket cold. -/
  | park (c : Ctx)
  /-- REVIVE (R457). Reads, decrypts and checks a locket, rebuilds the strand in fresh pages and deletes every copy. -/
  | revive (c : Ctx)
  /-- LOCKET_EXPORT (R461). Writes an export image of the session under the transfer key, keeping or closing the session. -/
  | locketExport (c : Ctx)
  /-- LOCKET_IMPORT (R462). Creates a session from an export image, binding versions by digest. -/
  | locketImport (c : Ctx)
  /-- OBJECT_LOAD (R187). Decrypts and checks an object image, writes its backing, recomputes VGS placement and publishes a new version. -/
  | objectLoad (c : Ctx)
  /-- OBJECT_RETIRE (R184). Sets an object ID to RETIRING and frees versions whose references are released. -/
  | objectRetire (c : Ctx)
  /-- BUDGET_SET (R170). Writes an account's rate, burst, weights, wait policy and overdraft, setting or clipping its balance. -/
  | budgetSet (c : Ctx)
  /-- CLASP (R132). Orders later ops of its ring, strand or partition behind earlier ones, or waits for memory writes, and completes when they finish. -/
  | clasp (c : Ctx)
  /-- ABORT (R136). Stops a queued or ready target before commit with ABORTED, or marks a past-commit target OK_ABORT_LATE. -/
  | abort (c : Ctx)
  /-- CANCEL (R135). Completes a queued target with CANCELLED and reports an outcome. -/
  | cancel (c : Ctx)
  /-- ROLLBACK (R141). Cuts the history to TO_LEN and rebuilds grammar, stream and counters as they stood after that token. -/
  | rollback (c : Ctx)
  /-- QUERY (R122). Returns the state of an op, a session or the partition in its completion. -/
  | query (c : Ctx)
  /-- RUN_AHEAD (R303). After a strand commit, builds the next mask's allow and exclude lists and the penalty list on the home cluster. -/
  | runAhead (p : Part) (sid : Word)
  /-- STEP_ROW_START (R26). With logits ready and run-ahead complete, stage 3 fetches the session's row and stages 4 to 10 select and draw. -/
  | stepRowStart (c : Ctx) (item : Nat)
  /-- EXTENSION_PASS (R353). A stage needing ranks beyond those found fetches the row again and selects the next 256 allowed tokens. -/
  | extensionPass (c : Ctx) (item : Nat)
  /-- DRAW_PASS (R355). A draw beyond the first 256 ranks fetches the row again and scans pieces to find the drawn token. -/
  | drawPass (c : Ctx) (item : Nat)
  /-- STEP_COMMIT (R24). Writes the appended token, stack, hold-back, RNG and budget effects, then the commit line, then the output record. -/
  | stepCommit (c : Ctx) (item : Nat)
  /-- PAGE_STALL_DRAIN (R166). When pages free, a stalled strand copies its overflow tokens to history pages and clears OVF_COUNT and SUSP. -/
  | pageStallDrain (p : Part) (sid : Word)
  /-- RECLAIM_RUNG1 (R163). When FREE falls below LO × 256, idle strands are reclaim-parked oldest first until FREE reaches HI × 256. -/
  | reclaimRung1 (p : Part)
  /-- RECLAIM_RUNG2 (R163). When a step, append or admission needs a missing page, candidate strands are reclaim-parked until the need is met. -/
  | reclaimRung2 (p : Part) (need : Nat)
  /-- REFILL_TICK (R171). Every 1 ms each set account adds its refill to BALANCE up to BURST. -/
  | refillTick
  /-- ENCODE_UNIT_ISSUE (R226). A free encode slot takes the next unit of the partition's ready encode ops under the issue order. -/
  | encodeUnitIssue (p : Part)
  /-- ENCODE_UNIT_END (R225). A unit's segment tokens join in segment order, block hashes advance, and the op commits once all units end. -/
  | encodeUnitEnd (c : Ctx) (unit : Nat)
  /-- CALL_BUDGET_FAULT (R383). A call whose metered count exceeds CALL_CYCLES ends with a BUDGET fault. -/
  | callBudgetFault (t : Thread)
  /-- PAIR_LO_READ (R8). A read of a NAME_LO register returns bits [31:0] and latches bits [63:32]. -/
  | pairLoRead (a : RegAccess)
  /-- PAIR_HI_READ (R8). A read of NAME_HI returns and consumes the latched high half, or the current value. -/
  | pairHiRead (a : RegAccess)
  /-- PAIR_LO_WRITE (R8). A write to NAME_LO is held until the next NAME_HI write. -/
  | pairLoWrite (a : RegAccess) (v : SentWord)
  /-- PAIR_HI_WRITE (R8). A write to NAME_HI applies both halves together, or the high half alone. -/
  | pairHiWrite (a : RegAccess) (v : SentWord)
  /-- COUNTER_READ_CLEAR (R9). A read of an RC field returns its value and clears it. -/
  | counterReadClear (a : RegAccess)
  /-- OBJ_STAT_READ (R193). A read of PRT_OBJ_STAT latches PRT_OBJ_VER and PRT_OBJ_REFS. -/
  | objStatRead (p : Part)
  /-- REGISTER_WRITE (R9). A write to a register without behaviour of its own sets RW fields, clears W1C bits or sets W1S bits, with bad sizes refused. -/
  | registerWrite (off : CsrOff) (size : Nat) (v : SentWord)
  /-- BANK_OWNER_WRITE (R408). A write to CLU_BANK_OWN hands a scratch bank to a new owner directly or through a HANDOVER drain. -/
  | bankOwnerWrite (cl : Clu) (b : Fin 16) (v : Word)
  /-- BANK_DRAIN_DONE (R408). When no use or access remains in a draining bank, it is zeroed with its tags and takes its new owner. -/
  | bankDrainDone (cl : Clu) (b : Fin 16)
  /-- PATROL_SCRUB (R421). Each cluster patrols every written scratch line once per period in idle clk, correcting or poisoning lines. -/
  | patrolScrub (cl : Clu) (errs : List (Fin 16384 × Bool))
  /-- VGS_LINE_RELOAD (R419). An uncorrectable or unwritten VGS line is reloaded from the backing, decrypted and rewritten before the read completes. -/
  | vgsLineReload (b : Fin 32) (line : Fin 24576) (ok : Bool)
  /-- FABRIC_RESPONSE (R433). A read or write response is handled as OK, poison or error, and a late response is discarded. -/
  | fabricResponse (q : FabReq) (resp : BitVec 2)
  /-- FABRIC_TIMEOUT (R434). A request with no response within GLB_FAB_CFG.TMO is handled as an error response and sets TMO. -/
  | fabricTimeout (q : FabReq)
  /-- GEN_COMMIT (R520). A write of PRT_GEN_CTRL.COMMIT checks the staged configuration and makes it generation G + 1, releasing leaving resources. -/
  | genCommit (p : Part) (v : Word)
  /-- GEN_DISCARD (R516). A write of PRT_GEN_CTRL.DISCARD copies every committed mirror back into its staged register. -/
  | genDiscard (p : Part) (v : Word)
  /-- GEN_DONE (R522). When no work of earlier generations remains and every leaving resource is cleared, DONE sets and GEN_DONE is posted. -/
  | genDone (p : Part)
  /-- LOAD_ASSET (R529). SEC_KEY_CMD LOAD_ASSET holds the key material as asset key SLOT of the partition. -/
  | loadAsset (v : Word)
  /-- WITHDRAW_ASSET (R531). SEC_KEY_CMD WITHDRAW_ASSET zeroises asset key SLOT, keeping backing keys of held versions. -/
  | withdrawAsset (v : Word)
  /-- RESTORE_PARK (R537). SEC_KEY_CMD RESTORE_PARK writes a committed park key epoch into a free slot after PWR_ON. -/
  | restorePark (v : Word)
  /-- ROTATE_PARK (R535). SEC_KEY_CMD ROTATE_PARK writes epoch E + 1 into the free slot and journals its COMMIT record. -/
  | rotatePark (v : Word)
  /-- REKEY_REWRITE (R536). The re-key scrub rewrites one old-epoch locket under the current key at the set rate, clearing the old epoch at count 0. -/
  | rekeyRewrite (p : Part)
  /-- WARM_MOVE_PRESSURE (R452). When USED reaches HI_PCT of QUOTA, warm lockets move to the cold park oldest first down to LO_PCT. -/
  | warmMovePressure (p : Part)
  /-- WARM_MOVE_AGE (R452). A locket warm for AGE_S seconds is moved to the cold park. -/
  | warmMoveAge (p : Part)
  /-- STRIPE_PROGRAM (R480). A full stripe page, or one 200 µs after its first sector, is programmed by MULTI-PLANE PROGRAM. -/
  | stripeProgram (ch : Chan)
  /-- JOURNAL_PAGE_PROGRAM (R487). A full journal page, or one 200 µs after its first record, is programmed in two places and its records become durable. -/
  | journalPageProgram (j : JournalRun)
  /-- FLASH_READ_DONE (R483). A page read completes and is decoded, climbing the read-retry ladder or delivering corrected codewords. -/
  | flashReadDone (ch : Chan) (die : Fin 8) (cws : List CwRead)
  /-- FLASH_PROGRAM_DONE (R492). A page program completes with pass, or with fail that retires the block and rewrites its copies. -/
  | flashProgramDone (ch : Chan) (die : Fin 8) (bad : Option (Fin 4))
  /-- FLASH_ERASE_DONE (R492). A block erase completes with pass, or with fail that retires the block. -/
  | flashEraseDone (ch : Chan) (die : Fin 8) (ok : Bool)
  /-- DIE_TIMEOUT (R476). A die busy for more than twice its maximum time has timed out, and two timeouts in 10 s make it unusable. -/
  | dieTimeout (ch : Chan) (die : Fin 8)
  /-- ZQ_CALIBRATION (R474). Every 100 ms each channel issues ZQ CALIBRATION SHORT. -/
  | zqCalibration (ch : Chan)
  /-- TRACKER_JOURNAL (R484). Every 60 s the read-level tracker state is journalled. -/
  | trackerJournal (ch : Chan)
  /-- SCRUB_BLOCK (R496). The scrubber reads the live codewords of one block, refreshing it or marking lockets Lost. -/
  | scrubBlock (ch : Chan) (cws : List CwRead)
  /-- COLLECTION (R491). When a die's free data blocks fall below OP_PCT ÷ 4 percent, blocks with fewest valid sectors are relocated and freed. -/
  | collection (ch : Chan) (die : Fin 8)
  /-- STATIC_LEVELLING (R490). When the erase-count spread exceeds STATIC_GAP, the lowest-count block's data moves to the highest-count free block. -/
  | staticLevelling (ch : Chan) (die : Fin 8)
  /-- JOURNAL_COMPACTION (R489). Each journal is compacted in the background to stay within twice its live records. -/
  | journalCompaction (j : JournalRun)
  /-- INDEX_REBUILD (R488). After PWR_ON or an index CRC failure the cold index is rebuilt by replaying each channel's journal. -/
  | indexRebuild
  /-- CHANNEL_ONLINE (R475). A write of 1 to PRK_CH_CTRL.ONLINE runs channel bring-up. -/
  | channelOnline (ch : Chan) (v : Word) (dies : List (Option DieInfo))
  /-- CHANNEL_OFFLINE (R495). A write of 0 to PRK_CH_CTRL.ONLINE takes the channel offline, making its copies unreadable. -/
  | channelOffline (ch : Chan) (v : Word)
  /-- CHANNEL_FORMAT (R509). FORMAT with KEY 0xA5 erases an unowned online channel, builds a fresh journal and clears WORN. -/
  | channelFormat (ch : Chan) (v : Word)
  /-- UNIT_RESET_CLUSTER (R590). A bit of RST_UNIT_CLU requests a quiesced unit reset of one cluster. -/
  | unitResetCluster (cl : Clu)
  /-- UNIT_RESET_VGS (R591). A VGS bit of RST_UNIT_SYS requests a unit reset of one VGS quad. -/
  | unitResetVgs (q : Fin 4)
  /-- UNIT_RESET_PRK (R591). RST_UNIT_SYS.PRK requests a unit reset of the park controller. -/
  | unitResetPrk
  /-- UNIT_RESET_CRYPTO (R591). RST_UNIT_SYS.CRYPTO requests a unit reset of the crypto engine, keeping its keys. -/
  | unitResetCrypto
  /-- UNIT_RESET_FAB (R436). RST_UNIT_SYS.FAB requests a reset of the fabric interface, ending every master's requests. -/
  | unitResetFab
  /-- UNIT_RESET_CTRL (R591). RST_UNIT_SYS.CTRL requests a control complex reset, which acts as SOFT. -/
  | unitResetCtrl
  /-- UNIT_RESET_TAKE_EFFECT (R590). When the unit is idle or QUIESCE_US has passed, the reset ends open requests, fails ops with RESET_ABORT and clears the unit. -/
  | unitResetTakeEffect (u : BitVec 8)
  /-- DOMAIN_OFF_REQUEST (R602). Setting a bit of PWR_DOM_OFF or PWR_DOM_SYS puts the domain to sleep when allowed, or sets OFF_REJECT. -/
  | domainOffRequest (dom : Fin 73)
  /-- DOMAIN_WAKE (R603). Clearing an off bit, or a commit giving the domain to a partition, closes its switches, starts its clock and clears its memories. -/
  | domainWake (dom : Fin 73)
  /-- DOMAIN_WAKE_DONE (R603). When clearing completes the domain's isolation and reset are released and it enters service. -/
  | domainWakeDone (dom : Fin 73)
  /-- GOVERNOR_INTERVAL (R608). At each interval the slack governor measures U, S and MISSED and moves each group's point by at most one. -/
  | governorInterval
  /-- CAP_TICK (R610). Every 10 µs the cap controller compares the power estimate with PWR_CAP and lowers, gates or raises limits. -/
  | capTick
  /-- VSEG_ACK (R650). PLW_VSEG_ACK completes a voltage handshake, after which a raise switches CCLK. -/
  | vsegAck (g : Fin 17)
  /-- VSEG_ACK_TIMEOUT (R650). An ACK not arriving within 100 µs ends the raise and the group stays at its old point. -/
  | vsegAckTimeout (g : Fin 17)
  /-- THERMAL_SAMPLE (R654). Every 100 µs the sensors are sampled, starting or ending the thermal trip. -/
  | thermalSample (maxC : BitVec 8)
  /-- FUSE_TEMP_SAMPLE (R575). Every 10 ms the junction temperature is sampled, and a 40 °C change re-reads the fuses. -/
  | fuseTempSample (tempC : BitVec 8) (marginal : List (Fin 256))
  /-- FUSE_ADVANCE (R574). FUS_ARB_CTRL.ADVANCE blows anti-rollback bits up to min(SVN, 128). -/
  | fuseAdvance (v : Word)
  /-- PLACEMENT_PERIOD (R616). Every PERIOD_MS the placement loop moves idle strands from the most to the least loaded cluster. -/
  | placementPeriod (p : Part)
  /-- FLASH_PORT_READ (R564). CFG_FL_CTRL OP READ reads up to 64 bytes of configuration flash into CFG_FL_DATA. -/
  | flashPortRead (v : Word)
  /-- FLASH_PORT_PROGRAM (R564). CFG_FL_CTRL OP PROGRAM writes up to 64 bytes within one page, unless protected. -/
  | flashPortProgram (v : Word)
  /-- FLASH_PORT_ERASE_4K (R564). CFG_FL_CTRL OP ERASE_4K erases one aligned 4 KiB sector, unless protected. -/
  | flashPortErase4k (v : Word)
  /-- FLASH_PORT_ERASE_64K (R564). CFG_FL_CTRL OP ERASE_64K erases one aligned 64 KiB block, unless protected. -/
  | flashPortErase64k (v : Word)
  /-- FLASH_PORT_DONE (R560). A flash-port command completes with its result, clearing the boot record tries in the FAIL state on success. -/
  | flashPortDone (ok : Bool)
  /-- CHAIN_SEND_RESET (R568). CHN_CMD.SEND transmits a RESET frame to the destination, or is refused. -/
  | chainSendReset (v : Word)
  /-- CHAIN_REPLY_TIMEOUT (R568). A chain reply not received within 100 µs gives CMD_RESULT 3. -/
  | chainReplyTimeout
  /-- ENUM (R567). An ENUM frame gives the instance the next chain address and is forwarded with the address incremented. -/
  | enum (f : BitVec 64)
  /-- RESET (R568). A RESET frame addressed or broadcast is acknowledged and raises CHAIN_RST, or NACKed while resetting. -/
  | reset (f : BitVec 64)
  /-- ACK (R566). An ACK frame acknowledges a sent frame and sets CMD_RESULT. -/
  | ack (f : BitVec 64)
  /-- NACK (R566). A NACK frame refuses a sent frame with a reason and sets CMD_RESULT. -/
  | nack (f : BitVec 64)
  /-- PAIR_DIGEST (R569). A PAIR_DIGEST frame carries one word of the partner's digest for comparison at pairing. -/
  | pairDigest (f : BitVec 64)
  /-- BAD_FRAME (R566). A frame with bad CRC or SYNC is dropped and counted in CHN_ERR_CNT. -/
  | badFrame (f : BitVec 64)
  /-- HEARTBEAT_SEND (R633). Every 1 ms each pair member sends a HEARTBEAT frame. -/
  | heartbeatSend
  /-- HEARTBEAT (R633). A received HEARTBEAT frame resets the missed-heartbeat count. -/
  | heartbeat (f : BitVec 64)
  /-- HEARTBEAT_MISS (R633). HB_MISS missing heartbeats set PARTNER_LOST, making the primary the survivor or holding the secondary. -/
  | heartbeatMiss
  /-- TOKEN_LO (R634). A TOKEN_LO frame carries the low half of the partner's pair token. -/
  | tokenLo (f : BitVec 64)
  /-- TOKEN_HI (R634). A TOKEN_HI frame carries the high half of the partner's pair token. -/
  | tokenHi (f : BitVec 64)
  /-- MISMATCH (R637). A MISMATCH frame reports the partner's mismatching part. -/
  | mismatch (f : BitVec 64)
  /-- COMPARE_RECORD (R622). A partner's compare record is matched against the own digest, committing the part or replaying it on mismatch. -/
  | compareRecord (rec : BitVec 512)
  /-- COMPARE_TIMEOUT (R623). A partner record missing for CMP_US µs makes the part a mismatch. -/
  | compareTimeout
  /-- SELFTEST (R629). A received SELFTEST frame gives the partner's result, deciding which member is isolated. -/
  | selftest (f : BitVec 64)
  /-- SELFTEST_TIMEOUT (R629). With no SELFTEST frame within 4 ms of the hold, the secondary is isolated. -/
  | selftestTimeout
  /-- ISOLATE (R630). An ISOLATE frame tells the survivor that the sender enters PAIR_ISO. -/
  | isolate (f : BitVec 64)
  /-- ISOLATE_ACK (R630). An ISOLATE_ACK frame lets the member to be isolated enter PAIR_ISO. -/
  | isolateAck (f : BitVec 64)
  /-- ISOLATE_ACK_TIMEOUT (R630). With no ISOLATE_ACK within 100 µs the member enters PAIR_ISO anyway. -/
  | isolateAckTimeout
  /-- TAP_RESET (R668). PLW_TRST_N resets the TAP, selecting IDCODE. -/
  | tapReset
  /-- BYPASS (R668). IR 0xFF selects the 1-bit bypass register. -/
  | bypass
  /-- IDCODE (R668). IR 0x01 selects the 32-bit IDCODE register. -/
  | idcode
  /-- CSR_ACC (R671). IR 0x10 and Update-DR start a debug CSR read or write, subject to debug being open and unlock bits. -/
  | csrAcc (dr : BitVec 64)
  /-- CSR_ACC_DONE (R671). A debug CSR access completes and its result is captured at Capture-DR. -/
  | csrAccDone
  /-- DBG_STATUS (R668). IR 0x11 returns the debug status register. -/
  | dbgStatus
  /-- TRACE_ENABLE (R662). Setting LPE_TRACE_CTRL.ENABLE zeroes the write pointer and FULL and latches size and base. -/
  | traceEnable (v : Word)
  /-- TRACE_RECORD_WRITE (R659). A queued trace record is written to its slot, or dropped when the queue or a STOP buffer is full. -/
  | traceRecordWrite
  /-- MARKER (R665). A write to LPE_MARK queues a MARKER trace record. -/
  | marker (v : Word)
  /-- CNT_RUN (R667). LPE_CNT_CTRL.RUN starts or stops all eight counters. -/
  | cntRun (v : Word)
  /-- CNT_CLEAR (R667). LPE_CNT_CTRL.CLEAR zeroes all eight counters before any RUN in the same write. -/
  | cntClear (v : Word)
  /-- ADD (R376). Bead ALU add of xA and xB into xD. -/
  | add (t : Thread) (d : BitVec 5) (a : BitVec 5) (b : BitVec 5)
  /-- SUB (R376). Bead ALU subtract. -/
  | sub (t : Thread) (d : BitVec 5) (a : BitVec 5) (b : BitVec 5)
  /-- AND (R376). Bead ALU bitwise and. -/
  | and (t : Thread) (d : BitVec 5) (a : BitVec 5) (b : BitVec 5)
  /-- OR (R376). Bead ALU bitwise or. -/
  | or (t : Thread) (d : BitVec 5) (a : BitVec 5) (b : BitVec 5)
  /-- XOR (R376). Bead ALU bitwise exclusive or. -/
  | xor (t : Thread) (d : BitVec 5) (a : BitVec 5) (b : BitVec 5)
  /-- SHL (R376). Bead ALU shift left. -/
  | shl (t : Thread) (d : BitVec 5) (a : BitVec 5) (b : BitVec 5)
  /-- SHR (R376). Bead ALU logical shift right. -/
  | shr (t : Thread) (d : BitVec 5) (a : BitVec 5) (b : BitVec 5)
  /-- SAR (R376). Bead ALU arithmetic shift right. -/
  | sar (t : Thread) (d : BitVec 5) (a : BitVec 5) (b : BitVec 5)
  /-- MUL (R376). Bead ALU multiply. -/
  | mul (t : Thread) (d : BitVec 5) (a : BitVec 5) (b : BitVec 5)
  /-- MULHU (R376). Bead ALU unsigned multiply high. -/
  | mulhu (t : Thread) (d : BitVec 5) (a : BitVec 5) (b : BitVec 5)
  /-- DIVU (R370). Bead ALU unsigned divide, all ones on division by zero. -/
  | divu (t : Thread) (d : BitVec 5) (a : BitVec 5) (b : BitVec 5)
  /-- REMU (R370). Bead ALU unsigned remainder, the dividend on division by zero. -/
  | remu (t : Thread) (d : BitVec 5) (a : BitVec 5) (b : BitVec 5)
  /-- MINS (R376). Bead ALU signed minimum. -/
  | mins (t : Thread) (d : BitVec 5) (a : BitVec 5) (b : BitVec 5)
  /-- MAXS (R376). Bead ALU signed maximum. -/
  | maxs (t : Thread) (d : BitVec 5) (a : BitVec 5) (b : BitVec 5)
  /-- MINU (R376). Bead ALU unsigned minimum. -/
  | minu (t : Thread) (d : BitVec 5) (a : BitVec 5) (b : BitVec 5)
  /-- MAXU (R376). Bead ALU unsigned maximum. -/
  | maxu (t : Thread) (d : BitVec 5) (a : BitVec 5) (b : BitVec 5)
  /-- SEQ (R376). Bead ALU set if equal. -/
  | seq (t : Thread) (d : BitVec 5) (a : BitVec 5) (b : BitVec 5)
  /-- SLT (R376). Bead ALU set if less than, signed. -/
  | slt (t : Thread) (d : BitVec 5) (a : BitVec 5) (b : BitVec 5)
  /-- SLTU (R376). Bead ALU set if less than, unsigned. -/
  | sltu (t : Thread) (d : BitVec 5) (a : BitVec 5) (b : BitVec 5)
  /-- POPC (R376). Bead ALU population count of xA. -/
  | popc (t : Thread) (d : BitVec 5) (a : BitVec 5)
  /-- CLZ (R376). Bead ALU count leading zeros of xA. -/
  | clz (t : Thread) (d : BitVec 5) (a : BitVec 5)
  /-- CTZ (R376). Bead ALU count trailing zeros of xA. -/
  | ctz (t : Thread) (d : BitVec 5) (a : BitVec 5)
  /-- ADDI (R376). Bead add of a sign-extended immediate. -/
  | addi (t : Thread) (d : BitVec 5) (a : BitVec 5) (imm : BitVec 16)
  /-- ANDI (R376). Bead and with a zero-extended immediate. -/
  | andi (t : Thread) (d : BitVec 5) (a : BitVec 5) (imm : BitVec 16)
  /-- ORI (R376). Bead or with a zero-extended immediate. -/
  | ori (t : Thread) (d : BitVec 5) (a : BitVec 5) (imm : BitVec 16)
  /-- XORI (R376). Bead exclusive or with a zero-extended immediate. -/
  | xori (t : Thread) (d : BitVec 5) (a : BitVec 5) (imm : BitVec 16)
  /-- SHLI (R376). Bead shift left by an immediate. -/
  | shli (t : Thread) (d : BitVec 5) (a : BitVec 5) (imm : BitVec 16)
  /-- SHRI (R376). Bead logical shift right by an immediate. -/
  | shri (t : Thread) (d : BitVec 5) (a : BitVec 5) (imm : BitVec 16)
  /-- SARI (R376). Bead arithmetic shift right by an immediate. -/
  | sari (t : Thread) (d : BitVec 5) (a : BitVec 5) (imm : BitVec 16)
  /-- SLTI (R376). Bead set if less than a sign-extended immediate. -/
  | slti (t : Thread) (d : BitVec 5) (a : BitVec 5) (imm : BitVec 16)
  /-- LUI (R376). Bead load of IMM21 × 2^11 into xD. -/
  | lui (t : Thread) (d : BitVec 5) (imm : BitVec 21)
  /-- FADD (R370). Bead scalar FP32 add. -/
  | fadd (t : Thread) (d : BitVec 5) (a : BitVec 5) (b : BitVec 5)
  /-- FSUB (R370). Bead scalar FP32 subtract. -/
  | fsub (t : Thread) (d : BitVec 5) (a : BitVec 5) (b : BitVec 5)
  /-- FMUL (R370). Bead scalar FP32 multiply. -/
  | fmul (t : Thread) (d : BitVec 5) (a : BitVec 5) (b : BitVec 5)
  /-- FDIV (R370). Bead scalar FP32 divide. -/
  | fdiv (t : Thread) (d : BitVec 5) (a : BitVec 5) (b : BitVec 5)
  /-- FMIN (R370). Bead scalar FP32 minimum with NaN propagation. -/
  | fmin (t : Thread) (d : BitVec 5) (a : BitVec 5) (b : BitVec 5)
  /-- FMAX (R370). Bead scalar FP32 maximum with NaN propagation. -/
  | fmax (t : Thread) (d : BitVec 5) (a : BitVec 5) (b : BitVec 5)
  /-- FLT (R376). Bead scalar FP32 less-than compare. -/
  | flt (t : Thread) (d : BitVec 5) (a : BitVec 5) (b : BitVec 5)
  /-- FEQ (R376). Bead scalar FP32 equal compare. -/
  | feq (t : Thread) (d : BitVec 5) (a : BitVec 5) (b : BitVec 5)
  /-- FCVTIF (R376). Bead integer to FP32 conversion. -/
  | fcvtif (t : Thread) (d : BitVec 5) (a : BitVec 5)
  /-- FCVTFI (R370). Bead FP32 to integer conversion, truncating and saturating. -/
  | fcvtfi (t : Thread) (d : BitVec 5) (a : BitVec 5)
  /-- LDB (R376). Bead zero-extending byte load through a window. -/
  | ldb (t : Thread) (d : BitVec 5) (a : BitVec 5) (imm : BitVec 16)
  /-- LDH (R376). Bead zero-extending halfword load. -/
  | ldh (t : Thread) (d : BitVec 5) (a : BitVec 5) (imm : BitVec 16)
  /-- LDW (R376). Bead zero-extending word load. -/
  | ldw (t : Thread) (d : BitVec 5) (a : BitVec 5) (imm : BitVec 16)
  /-- LDD (R376). Bead doubleword load. -/
  | ldd (t : Thread) (d : BitVec 5) (a : BitVec 5) (imm : BitVec 16)
  /-- STB (R376). Bead byte store of xD. -/
  | stb (t : Thread) (d : BitVec 5) (a : BitVec 5) (imm : BitVec 16)
  /-- STH (R376). Bead halfword store of xD. -/
  | sth (t : Thread) (d : BitVec 5) (a : BitVec 5) (imm : BitVec 16)
  /-- STW (R376). Bead word store of xD. -/
  | stw (t : Thread) (d : BitVec 5) (a : BitVec 5) (imm : BitVec 16)
  /-- STD (R376). Bead doubleword store of xD. -/
  | std (t : Thread) (d : BitVec 5) (a : BitVec 5) (imm : BitVec 16)
  /-- BEQ (R376). Bead branch if xA equals xB. -/
  | beq (t : Thread) (a : BitVec 5) (b : BitVec 5) (off : BitVec 16)
  /-- BNE (R376). Bead branch if xA differs from xB. -/
  | bne (t : Thread) (a : BitVec 5) (b : BitVec 5) (off : BitVec 16)
  /-- BLT (R376). Bead branch if less than, signed. -/
  | blt (t : Thread) (a : BitVec 5) (b : BitVec 5) (off : BitVec 16)
  /-- BGE (R376). Bead branch if greater or equal, signed. -/
  | bge (t : Thread) (a : BitVec 5) (b : BitVec 5) (off : BitVec 16)
  /-- BLTU (R376). Bead branch if less than, unsigned. -/
  | bltu (t : Thread) (a : BitVec 5) (b : BitVec 5) (off : BitVec 16)
  /-- BGEU (R376). Bead branch if greater or equal, unsigned. -/
  | bgeu (t : Thread) (a : BitVec 5) (b : BitVec 5) (off : BitVec 16)
  /-- JAL (R376). Bead jump by a signed offset, writing the return address. -/
  | jal (t : Thread) (d : BitVec 5) (imm : BitVec 21)
  /-- JR (R392). Bead jump to xA, checked against CODE when it runs. -/
  | jr (t : Thread) (d : BitVec 5) (a : BitVec 5)
  /-- VADDW (R376). Bead vector word-lane add under a mask. -/
  | vaddw (t : Thread) (vd : BitVec 4) (va : BitVec 4) (vb : BitVec 4) (k : BitVec 3)
  /-- VSUBW (R376). Bead vector word-lane subtract. -/
  | vsubw (t : Thread) (vd : BitVec 4) (va : BitVec 4) (vb : BitVec 4) (k : BitVec 3)
  /-- VAND (R376). Bead vector bitwise and. -/
  | vand (t : Thread) (vd : BitVec 4) (va : BitVec 4) (vb : BitVec 4) (k : BitVec 3)
  /-- VOR (R376). Bead vector bitwise or. -/
  | vor (t : Thread) (vd : BitVec 4) (va : BitVec 4) (vb : BitVec 4) (k : BitVec 3)
  /-- VXOR (R376). Bead vector bitwise exclusive or. -/
  | vxor (t : Thread) (vd : BitVec 4) (va : BitVec 4) (vb : BitVec 4) (k : BitVec 3)
  /-- VSHLW (R376). Bead vector word-lane shift left. -/
  | vshlw (t : Thread) (vd : BitVec 4) (va : BitVec 4) (vb : BitVec 4) (k : BitVec 3)
  /-- VSHRW (R376). Bead vector word-lane shift right. -/
  | vshrw (t : Thread) (vd : BitVec 4) (va : BitVec 4) (vb : BitVec 4) (k : BitVec 3)
  /-- VMINUW (R376). Bead vector unsigned word minimum. -/
  | vminuw (t : Thread) (vd : BitVec 4) (va : BitVec 4) (vb : BitVec 4) (k : BitVec 3)
  /-- VMAXUW (R376). Bead vector unsigned word maximum. -/
  | vmaxuw (t : Thread) (vd : BitVec 4) (va : BitVec 4) (vb : BitVec 4) (k : BitVec 3)
  /-- VFADD (R376). Bead vector FP32 add. -/
  | vfadd (t : Thread) (vd : BitVec 4) (va : BitVec 4) (vb : BitVec 4) (k : BitVec 3)
  /-- VFSUB (R376). Bead vector FP32 subtract. -/
  | vfsub (t : Thread) (vd : BitVec 4) (va : BitVec 4) (vb : BitVec 4) (k : BitVec 3)
  /-- VFMUL (R376). Bead vector FP32 multiply. -/
  | vfmul (t : Thread) (vd : BitVec 4) (va : BitVec 4) (vb : BitVec 4) (k : BitVec 3)
  /-- VFMIN (R370). Bead vector FP32 minimum with NaN propagation. -/
  | vfmin (t : Thread) (vd : BitVec 4) (va : BitVec 4) (vb : BitVec 4) (k : BitVec 3)
  /-- VFMAX (R370). Bead vector FP32 maximum with NaN propagation. -/
  | vfmax (t : Thread) (vd : BitVec 4) (va : BitVec 4) (vb : BitVec 4) (k : BitVec 3)
  /-- VCVTIF (R376). Bead vector integer to FP32 conversion. -/
  | vcvtif (t : Thread) (vd : BitVec 4) (va : BitVec 4) (k : BitVec 3)
  /-- VCVTFI (R376). Bead vector FP32 to integer conversion. -/
  | vcvtfi (t : Thread) (vd : BitVec 4) (va : BitVec 4) (k : BitVec 3)
  /-- VMOV (R376). Bead vector move under a mask. -/
  | vmov (t : Thread) (vd : BitVec 4) (va : BitVec 4) (k : BitVec 3)
  /-- VBCAST (R376). Bead copy of lane 0 of vA to every lane. -/
  | vbcast (t : Thread) (vd : BitVec 4) (va : BitVec 4) (k : BitVec 3)
  /-- VPERMW (R376). Bead word-lane permute of vA by the lanes of vB. -/
  | vpermw (t : Thread) (vd : BitVec 4) (va : BitVec 4) (vb : BitVec 4) (k : BitVec 3)
  /-- VFLT (R376). Bead vector FP32 less-than compare into a mask register. -/
  | vflt (t : Thread) (kd : BitVec 3) (va : BitVec 4) (vb : BitVec 4) (k : BitVec 3)
  /-- VFLE (R376). Bead vector FP32 less-or-equal compare. -/
  | vfle (t : Thread) (kd : BitVec 3) (va : BitVec 4) (vb : BitVec 4) (k : BitVec 3)
  /-- VFEQ (R376). Bead vector FP32 equal compare. -/
  | vfeq (t : Thread) (kd : BitVec 3) (va : BitVec 4) (vb : BitVec 4) (k : BitVec 3)
  /-- VILT (R376). Bead vector signed less-than compare. -/
  | vilt (t : Thread) (kd : BitVec 3) (va : BitVec 4) (vb : BitVec 4) (k : BitVec 3)
  /-- VILTU (R376). Bead vector unsigned less-than compare. -/
  | viltu (t : Thread) (kd : BitVec 3) (va : BitVec 4) (vb : BitVec 4) (k : BitVec 3)
  /-- VIEQ (R376). Bead vector word equal compare. -/
  | vieq (t : Thread) (kd : BitVec 3) (va : BitVec 4) (vb : BitVec 4) (k : BitVec 3)
  /-- VBEQ (R376). Bead vector byte-lane equal compare. -/
  | vbeq (t : Thread) (kd : BitVec 3) (va : BitVec 4) (vb : BitVec 4) (k : BitVec 3)
  /-- VLD (R376). Bead 64-byte vector load at xA + IMM16 × 64. -/
  | vld (t : Thread) (vd : BitVec 4) (a : BitVec 5) (imm : BitVec 16)
  /-- VST (R376). Bead 64-byte vector store. -/
  | vst (t : Thread) (vd : BitVec 4) (a : BitVec 5) (imm : BitVec 16)
  /-- TSTEP (R379). TRIE unit step from a node by one byte. -/
  | tstep (t : Thread) (d : BitVec 5) (a : BitVec 5) (b : BitVec 5)
  /-- TTOK (R379). TRIE unit read of a node's token if live. -/
  | ttok (t : Thread) (d : BitVec 5) (a : BitVec 5)
  /-- TROOT (R379). TRIE unit offset of root 0 or 1. -/
  | troot (t : Thread) (d : BitVec 5) (a : BitVec 5)
  /-- DSTEP (R379). TRIE unit DFA step under the DFA base. -/
  | dstep (t : Thread) (d : BitVec 5) (a : BitVec 5) (b : BitVec 5)
  /-- TBASE (R378). TRIE unit change of the trie base. -/
  | tbase (t : Thread) (a : BitVec 5)
  /-- DBASE (R378). TRIE unit change of the DFA base. -/
  | dbase (t : Thread) (a : BitVec 5)
  /-- MPROBE (R379). MRANK unit lookup of the merge rule for a token pair. -/
  | mprobe (t : Thread) (d : BitVec 5) (a : BitVec 5) (b : BitVec 5)
  /-- MHASH (R381). MRANK unit merge hash of a token pair. -/
  | mhash (t : Thread) (d : BitVec 5) (a : BitVec 5) (b : BitVec 5)
  /-- UDEC (R382). UTF unit decode of one UTF-8 sequence. -/
  | udec (t : Thread) (d : BitVec 5) (a : BitVec 5) (b : BitVec 5)
  /-- UNORM (R379). UTF unit read of a code point's NORM record. -/
  | unorm (t : Thread) (d : BitVec 5) (a : BitVec 5)
  /-- UCLASS (R379). UTF unit class of a unit under the DFA base. -/
  | uclass (t : Thread) (d : BitVec 5) (a : BitVec 5)
  /-- UENC (R379). UTF unit encode of a code point as UTF-8. -/
  | uenc (t : Thread) (d : BitVec 5) (a : BitVec 5)
  /-- HCOMP (R379). HASH unit unkeyed BLAKE3 compression. -/
  | hcomp (t : Thread) (vd : BitVec 4) (va : BitVec 4) (vb : BitVec 4)
  /-- BAND (R379). BSET unit 512-bit and. -/
  | band (t : Thread) (vd : BitVec 4) (va : BitVec 4) (vb : BitVec 4)
  /-- BOR (R379). BSET unit 512-bit or. -/
  | bor (t : Thread) (vd : BitVec 4) (va : BitVec 4) (vb : BitVec 4)
  /-- BANDN (R379). BSET unit 512-bit and-not. -/
  | bandn (t : Thread) (vd : BitVec 4) (va : BitVec 4) (vb : BitVec 4)
  /-- BXOR (R379). BSET unit 512-bit exclusive or. -/
  | bxor (t : Thread) (vd : BitVec 4) (va : BitVec 4) (vb : BitVec 4)
  /-- BPOP (R379). BSET unit count of set bits. -/
  | bpop (t : Thread) (d : BitVec 5) (va : BitVec 4)
  /-- BFFS (R379). BSET unit index of the lowest set bit. -/
  | bffs (t : Thread) (d : BitVec 5) (va : BitVec 4)
  /-- BSEL (R379). BSET unit index of set bit number xB. -/
  | bsel (t : Thread) (d : BitVec 5) (va : BitVec 4) (b : BitVec 5)
  /-- BRUN (R379). BSET unit run of set bits from xA to xB − 1. -/
  | brun (t : Thread) (vd : BitVec 4) (a : BitVec 5) (b : BitVec 5)
  /-- CMAXK (R379). CMP unit first lane in the (value, token) key order. -/
  | cmaxk (t : Thread) (d : BitVec 5) (va : BitVec 4) (vb : BitVec 4)
  /-- CMINU (R379). CMP unit least unsigned word lane. -/
  | cminu (t : Thread) (d : BitVec 5) (va : BitVec 4)
  /-- CGEF (R379). CMP unit FP32 greater-or-equal lane mask. -/
  | cgef (t : Thread) (kd : BitVec 3) (va : BitVec 4) (vb : BitVec 4)
  /-- CEQU (R379). CMP unit unsigned word equality lane mask. -/
  | cequ (t : Thread) (kd : BitVec 3) (va : BitVec 4) (vb : BitVec 4)
  /-- GET (R385). DMA GET into WORK through channel 3, returning a tag. -/
  | get (t : Thread) (d : BitVec 5) (a : BitVec 5) (b : BitVec 5)
  /-- WAIT (R385). DMA WAIT until the GET of a tag has completed. -/
  | wait (t : Thread) (a : BitVec 5)
  /-- NOP (R376). Bead no operation. -/
  | nop (t : Thread)
  /-- EXIT (R386). Bead exit of the call with a code checked against the role contract. -/
  | exit (t : Thread) (code : BitVec 5)
  /-- TRAP (R394). Bead trap ending the call with a TRAP fault. -/
  | trap (t : Thread) (code : BitVec 5)
  /-- RNG (R388). Bead Philox draw into vD for a hook draw index. -/
  | rng (t : Thread) (vd : BitVec 4) (a : BitVec 5)
  /-- FENCE (R377). Bead wait for every earlier load, store and DMA of the thread. -/
  | fence (t : Thread)
  /-- VFILL (R376). Bead fill of every lane of vD from xA. -/
  | vfill (t : Thread) (vd : BitVec 4) (a : BitVec 5)
  /-- VEXT (R376). Bead extract of one lane of vA into xD. -/
  | vext (t : Thread) (d : BitVec 5) (va : BitVec 4) (b : BitVec 5)
  /-- KFROMX (R376). Bead move of an x register into a mask register. -/
  | kfromx (t : Thread) (kd : BitVec 3) (a : BitVec 5)
  /-- KTOX (R376). Bead move of a mask register into an x register. -/
  | ktox (t : Thread) (d : BitVec 5) (ka : BitVec 3)
  /-- KAND (R376). Bead and of mask registers. -/
  | kand (t : Thread) (kd : BitVec 3) (ka : BitVec 3) (kb : BitVec 3)
  /-- KOR (R376). Bead or of mask registers. -/
  | kor (t : Thread) (kd : BitVec 3) (ka : BitVec 3) (kb : BitVec 3)
  /-- KANDN (R376). Bead and-not of mask registers. -/
  | kandn (t : Thread) (kd : BitVec 3) (ka : BitVec 3) (kb : BitVec 3)
  /-- BEAT_LEVEL_FALL (R45). A falling level on PLW_STEP_BEAT[d] while STUCK is 0 updates LEVEL and ends the stuck measurement started by the last edge. -/
  | beatLevelFall (d : Dom)
  /-- VSEG_ACK_LOWERED (R650). The power manager lowers PLW_VSEG_ACK[s], completing phase 4 of the handshake so a new request may start. -/
  | vsegAckLowered (g : Fin 17)
  /-- FUSE_BLOW_DONE (R574). Blowing of an anti-rollback counter bit completes, advancing the count, until BUSY clears at the target. -/
  | fuseBlowDone
  /-- RESERVED_FRAME_TYPE (R566). A chain frame with good SYNC and CRC but a reserved TYPE is forwarded, or answered with NACK reason 2 UNKNOWN when addressed to the instance. -/
  | reservedFrameType (f : BitVec 64)
  /-- BAD_KEY_COMMAND (R541). A write to SEC_KEY_CMD with an undefined OP sets SEC_KEY_STAT.RESULT to 5 and has no other effect. -/
  | badKeyCommand (v : Word)
  /-- FLASH_PORT_BAD_OP (R565). A write to CFG_FL_CTRL with an undefined OP sets CFG_FL_STAT.RESULT to 2 and runs no command. -/
  | flashPortBadOp (v : Word)
  /-- ILLEGAL_INSTRUCTION (R394). A bead thread reaches a program counter with no decoded instruction and the call ends with an ILLEGAL fault. -/
  | illegalInstruction (t : Thread)
  /-- GET_COMPLETE (R385). A DMA GET finishes writing its data into WORK and frees its tag, releasing a waiting WAIT or fifth GET. -/
  | getComplete (t : Thread) (tag : Fin 4)
deriving DecidableEq, Repr

end Sys2Proof
end

