-- ==== Sys2Proof/Config.lean ====
section
/-! DEFINITION. Sys2Proof/Config.lean: the values the spec leaves open. Each is a constant with no body, applied to the
free-value counter of State or to the operands it may depend on; a statement that mentions one holds for every value of it. -/
namespace Sys2Proof

/-- A fresh byte the spec does not state (DESIGN CHOICE, log entry 2): applied to `State.freeCtr`. -/
opaque Config.freeByte : Nat → Byte
/-- A fresh number the spec does not state, used below a bound the spec gives (DESIGN CHOICE, log entry 2). -/
opaque Config.freeNat : Nat → Nat
/-- What the spec does not state inside a bead program's call, which depends on the call's inputs only (R359, R369; DESIGN CHOICE, log entry 2):
applied to the entry registers and the seed, the program's and the call's bytes, and the number of such values taken in the call. -/
opaque Config.freeCall : List Nat → List (List Byte) → Nat → Nat
/-- VALUE of a decision record, which the firmware codes (R622): kind, partition and number, and its reading back (DESIGN CHOICE, log entry 47). -/
opaque Config.decisionCode : Nat → Nat → BitVec 64 → BitVec 64
opaque Config.decisionKind : BitVec 64 → Nat
opaque Config.decisionPart : BitVec 64 → Nat
opaque Config.decisionArg : BitVec 64 → BitVec 64
/-- The key that keys a stored locket's TAG, and the XTS key of its body, derived from the 512-bit park key (R450): the spec does not give the
derivation (DESIGN CHOICE, log entry 16). -/
opaque Config.parkTagKey : BitVec 512 → BitVec 256
opaque Config.parkBodyKey : BitVec 512 → BitVec 512
/-- The key that encrypts a version's backing image, from the asset key with the partition, object ID and version as context (R219): the spec does
not give the derivation (DESIGN CHOICE, log entry 16). -/
opaque Config.backingKey : BitVec 256 → Nat → Nat → Nat → BitVec 512
/-- In which direction a read-level offset moves when 1-to-0 flips are the fewer (R484): the dies' own, true for up (DESIGN CHOICE, log entry 37). -/
opaque Config.fewerDown : Bool
/-- Byte `i` of a 4 KiB part of the cold index, from the locket IDs and locations of its copies: the spec gives neither the layout of the 32-byte
entries nor their CRC's (R488; DESIGN CHOICE, log entry 37). -/
opaque Config.indexByte : List (BitVec 64 × BitVec 64) → Nat → BitVec 8
/-- The part's voltage trim in mV by voltage segment, from the sixteen words 0xC0 to 0xCF of the fuse array (R571, R606): the spec does not
give its coding (DESIGN CHOICE, log entry 27). -/
opaque Config.trim : List (BitVec 32) → Nat → Int

end Sys2Proof
end

