-- ==== Sys2Proof/Machine/Regs.lean ====
section
/-! DEFINITION. Sys2Proof/Machine/Regs.lean: the register map of the CSR window (R6 to R10, R657), written from the register
tables of spec/: for each register its byte offset, its reset value, and which bits are RW, W1C, W1S, RC and WO. A register
that exists once per partition, ring pair, cluster, domain, channel or group is one row with its strides and counts. -/
namespace Sys2Proof.Machine
open Sys2Proof

/-- One register (or one half of a register pair) of the map. -/
structure RegRow where
  /-- 0: a register of its own; 1: the LO half of a pair; 2: the HI half (R8). -/
  half : Nat
  base : Nat
  s1 : Nat
  n1 : Nat
  s2 : Nat
  n2 : Nat
  rst : Nat
  rw : Nat
  w1c : Nat
  w1s : Nat
  rc : Nat
  wo : Nat
deriving DecidableEq, Repr

/-- GLB_ID (R18, 01_block_and_dataflow.md): BLOCK [31:16] RO; STEPPING [15:8] RO. -/
abbrev rGlbId : Nat := 0x0
/-- GLB_CAPS (R19, 01_block_and_dataflow.md): CLUSTERS_OK [22:16] RO; SPARES_USED [14:8] RO. -/
abbrev rGlbCaps : Nat := 0x4
/-- GLB_CLU_MAP pair, LO half at this offset and HI four above (R20, 01_block_and_dataflow.md): IN_SERVICE [63:0] RO. -/
abbrev rGlbCluMap : Nat := 0x8
/-- GLB_TEMP (R655, 19_boundary_signals_debug.md): TRIP [31] RO; TRIPPED [30] W1C; TRIP_IRQ_EN [29] RW; MAX_C [15:8] RO; TRIP_C [7:0] RW. -/
abbrev rGlbTemp : Nat := 0x10
/-- GLB_SD_CTRL (R54, 02_step_clock.md): ENABLE [31] RW; SOURCE [30] RW; AVG [29:28] RW; RA_PHASE [23:12] RW. -/
abbrev rGlbSdCtrl (i : Nat) : Nat := 0x100 + 0x40 * i
/-- GLB_SD_STATUS (R55, 02_step_clock.md): STATE [31:30] RO; LEVEL [29] RO; STUCK [28] RO. -/
abbrev rGlbSdStatus (i : Nat) : Nat := 0x104 + 0x40 * i
/-- GLB_SD_MINSPACE (R56, 02_step_clock.md): SPACE [19:0] RW. -/
abbrev rGlbSdMinspace (i : Nat) : Nat := 0x108 + 0x40 * i
/-- GLB_SD_WDOG (R57, 02_step_clock.md): TIME [19:0] RW. -/
abbrev rGlbSdWdog (i : Nat) : Nat := 0x10C + 0x40 * i
/-- GLB_SD_PERIOD_INIT (R58, 02_step_clock.md): CYCLES [31:0] RW. -/
abbrev rGlbSdPeriodInit (i : Nat) : Nat := 0x110 + 0x40 * i
/-- GLB_SD_PERIOD (R59, 02_step_clock.md): CYCLES [31:0] RO. -/
abbrev rGlbSdPeriod (i : Nat) : Nat := 0x114 + 0x40 * i
/-- GLB_SD_TIME pair, LO half at this offset and HI four above (R60, 02_step_clock.md): PHASE [63:52] RO; STEP [39:0] RO. -/
abbrev rGlbSdTime (i : Nat) : Nat := 0x118 + 0x40 * i
/-- GLB_SD_PRESET pair, LO half at this offset and HI four above (R61, 02_step_clock.md): STEP [39:0] RW. -/
abbrev rGlbSdPreset (i : Nat) : Nat := 0x120 + 0x40 * i
/-- GLB_SD_OVERRUN (R62, 02_step_clock.md): COUNT [31:0] RC. -/
abbrev rGlbSdOverrun (i : Nat) : Nat := 0x128 + 0x40 * i
/-- GLB_SD_EVT (R63, 02_step_clock.md): RESUMED [15:12] W1C; LOST [11:8] W1C; STUCK [7:4] W1C; OVERRUN [3:0] W1C. -/
abbrev rGlbSdEvt : Nat := 0x200
/-- GLB_SD_EVT_EN (R63, 02_step_clock.md): RESUMED [15:12] RW; LOST [11:8] RW; STUCK [7:4] RW; OVERRUN [3:0] RW. -/
abbrev rGlbSdEvtEn : Nat := 0x204
/-- PRT_SQ_TAIL (R74, 03_rings_and_clasps.md): INDEX [31:0] RW. -/
abbrev rPrtSqTail (i : Nat) : Nat := 0x200000 + 0x1000 * i
/-- PRT_SQ_HEAD (R75, 03_rings_and_clasps.md): INDEX [31:0] RO. -/
abbrev rPrtSqHead (i : Nat) : Nat := 0x200004 + 0x1000 * i
/-- PRT_CQ_HEAD (R76, 03_rings_and_clasps.md): INDEX [31:0] RW. -/
abbrev rPrtCqHead (i : Nat) : Nat := 0x200008 + 0x1000 * i
/-- PRT_CQ_TAIL (R77, 03_rings_and_clasps.md): INDEX [31:0] RO. -/
abbrev rPrtCqTail (i : Nat) : Nat := 0x20000C + 0x1000 * i
/-- PRT_SQ_BASE pair, LO half at this offset and HI four above (R78, 03_rings_and_clasps.md): ADDR [63:12] RW. -/
abbrev rPrtSqBase (i : Nat) : Nat := 0x200010 + 0x1000 * i
/-- PRT_CQ_BASE pair, LO half at this offset and HI four above (R78, 03_rings_and_clasps.md): ADDR [63:12] RW. -/
abbrev rPrtCqBase (i : Nat) : Nat := 0x200018 + 0x1000 * i
/-- PRT_RING_CFG (R79, 03_rings_and_clasps.md): ENABLE [31] RW; MODE [30] RW; SQ_SIZE [27:24] RW; CQ_SIZE [23:20] RW; HIWM [19:14] RW; LOWM [13:8] RW; IRQ_EN [0] RW. -/
abbrev rPrtRingCfg (i : Nat) : Nat := 0x200020 + 0x1000 * i
/-- PRT_RING_CTRL (R80, 03_rings_and_clasps.md): FLUSH [0] WO. -/
abbrev rPrtRingCtrl (i : Nat) : Nat := 0x200024 + 0x1000 * i
/-- PRT_RING_STATUS (R81, 03_rings_and_clasps.md): OWNER [31:28] RO; OWNED [27] RO; XOFF [26] RO; DRAINED [25] RO; OVERFILL [24] W1C; CQ_STALL [23] RO; PUSH_DROP [22] W1C; DEPTH [5:0] RO. -/
abbrev rPrtRingStatus (i : Nat) : Nat := 0x200028 + 0x1000 * i
/-- PRT_RING_IRQ (R82, 03_rings_and_clasps.md): COAL_US [31:24] RW; THRESH [15:0] RW. -/
abbrev rPrtRingIrq (i : Nat) : Nat := 0x20002C + 0x1000 * i
/-- PRT_LREADY (R84, 03_rings_and_clasps.md): INDEX [31:0] WO. -/
abbrev rPrtLready (i : Nat) : Nat := 0x200030 + 0x1000 * i
/-- PRT_PUSH (R85, 03_rings_and_clasps.md): WORD [31:0] WO. -/
abbrev rPrtPush (i : Nat) (j : Nat) : Nat := 0x200800 + 0x1000 * i + 0x4 * j
/-- PRT_EVQ_BASE pair, LO half at this offset and HI four above (R90, 03_rings_and_clasps.md): ADDR [63:12] RW. -/
abbrev rPrtEvqBase (i : Nat) : Nat := 0x100100 + 0x10000 * i
/-- PRT_EVQ_CFG (R91, 03_rings_and_clasps.md): ENABLE [31] RW; IRQ_EN [30] RW; PENDING [29] RO; SIZE [27:24] RW. -/
abbrev rPrtEvqCfg (i : Nat) : Nat := 0x100108 + 0x10000 * i
/-- PRT_EVQ_HEAD (R92, 03_rings_and_clasps.md): INDEX [31:0] RW. -/
abbrev rPrtEvqHead (i : Nat) : Nat := 0x10010C + 0x10000 * i
/-- PRT_EVQ_TAIL (R92, 03_rings_and_clasps.md): INDEX [31:0] RO. -/
abbrev rPrtEvqTail (i : Nat) : Nat := 0x100110 + 0x10000 * i
/-- PRT_EVQ_LOST (R92, 03_rings_and_clasps.md): COUNT [31:0] RC. -/
abbrev rPrtEvqLost (i : Nat) : Nat := 0x100114 + 0x10000 * i
/-- PRT_OPCTX_CFG (R126, 03_rings_and_clasps.md): QUOTA [28:16] RW; GUARANTEE [12:0] RW. -/
abbrev rPrtOpctxCfg (i : Nat) : Nat := 0x100118 + 0x10000 * i
/-- PRT_OPCTX_USE (R127, 03_rings_and_clasps.md): PEAK [28:16] RC; IN_USE [12:0] RO. -/
abbrev rPrtOpctxUse (i : Nat) : Nat := 0x10011C + 0x10000 * i
/-- PRT_IRQ_RINGS pair, LO half at this offset and HI four above (R93, 03_rings_and_clasps.md): COND [63:0] RO. -/
abbrev rPrtIrqRings (i : Nat) : Nat := 0x100120 + 0x10000 * i
/-- PRT_POOL_BASE pair, LO half at this offset and HI four above (R158, 04_strands_and_budgets.md): ADDR [63:12] RW. -/
abbrev rPrtPoolBase (i : Nat) : Nat := 0x100200 + 0x10000 * i
/-- PRT_STRAND_BASE pair, LO half at this offset and HI four above (R158, 04_strands_and_budgets.md): ADDR [63:12] RW. -/
abbrev rPrtStrandBase (i : Nat) : Nat := 0x100218 + 0x10000 * i
/-- PRT_ACCT_BASE pair, LO half at this offset and HI four above (R158, 04_strands_and_budgets.md): ADDR [63:12] RW. -/
abbrev rPrtAcctBase (i : Nat) : Nat := 0x100228 + 0x10000 * i
/-- PRT_POOL_CFG (R159, 04_strands_and_budgets.md): PAGES [25:0] RW. -/
abbrev rPrtPoolCfg (i : Nat) : Nat := 0x100208 + 0x10000 * i
/-- PRT_POOL_STAT (R160, 04_strands_and_budgets.md): STALL [31] RO; FREE [25:0] RO. -/
abbrev rPrtPoolStat (i : Nat) : Nat := 0x10020C + 0x10000 * i
/-- PRT_RECLAIM (R161, 04_strands_and_budgets.md): IDLE_MIN [31:24] RW; HI [23:12] RW; LO [11:0] RW. -/
abbrev rPrtReclaim (i : Nat) : Nat := 0x100210 + 0x10000 * i
/-- PRT_STRAND_CFG (R162, 04_strands_and_budgets.md): SLOTS [18:0] RW. -/
abbrev rPrtStrandCfg (i : Nat) : Nat := 0x100220 + 0x10000 * i
/-- PRT_STRAND_USE (R162, 04_strands_and_budgets.md): RESIDENT [18:0] RO. -/
abbrev rPrtStrandUse (i : Nat) : Nat := 0x100224 + 0x10000 * i
/-- PRT_ADMIT_CFG (R176, 04_strands_and_budgets.md): LOAD_PCT [31:24] RW; RETRY [23:16] RW; PAGE_RESERVE [15:0] RW. -/
abbrev rPrtAdmitCfg (i : Nat) : Nat := 0x100230 + 0x10000 * i
/-- PRT_ADMIT_STAT (R177, 04_strands_and_budgets.md): DENIED [31:8] RC; LAST_REASON [2:0] RO. -/
abbrev rPrtAdmitStat (i : Nat) : Nat := 0x100234 + 0x10000 * i
/-- PRT_OBJ_BASE pair, LO half at this offset and HI four above (R189, 05_vocabularies.md): ADDR [63:12] RW. -/
abbrev rPrtObjBase (i : Nat) : Nat := 0x100300 + 0x10000 * i
/-- PRT_OBJ_CFG (R190, 05_vocabularies.md): SIZE [23:0] RW. -/
abbrev rPrtObjCfg (i : Nat) : Nat := 0x100308 + 0x10000 * i
/-- PRT_OBJ_USE (R190, 05_vocabularies.md): USED [23:0] RO. -/
abbrev rPrtObjUse (i : Nat) : Nat := 0x10030C + 0x10000 * i
/-- PRT_OBJ_VER (R194, 05_vocabularies.md): LIVE [31:0] RO. -/
abbrev rPrtObjVer (i : Nat) : Nat := 0x10031C + 0x10000 * i
/-- PRT_OBJ_REFS (R194, 05_vocabularies.md): COUNT [31:0] RO. -/
abbrev rPrtObjRefs (i : Nat) : Nat := 0x100320 + 0x10000 * i
/-- PRT_OBJ_QUOTA (R191, 05_vocabularies.md): SETS [25:17] RW; OVERLAYS [16:8] RW; VOCABS [6:0] RW. -/
abbrev rPrtObjQuota (i : Nat) : Nat := 0x100310 + 0x10000 * i
/-- PRT_OBJ_SEL (R192, 05_vocabularies.md): ID [31:0] RW. -/
abbrev rPrtObjSel (i : Nat) : Nat := 0x100314 + 0x10000 * i
/-- PRT_OBJ_STAT (R193, 05_vocabularies.md): STATE [31:30] RO; LOAD_PENDING [29] RO; KIND [27:24] RO; HELD [23:16] RO. -/
abbrev rPrtObjStat (i : Nat) : Nat := 0x100318 + 0x10000 * i
/-- VGS_BANK_USE (R221, 05_vocabularies.md): OWNED [31] RO; OWNER [30:27] RO; LINES [14:0] RO. -/
abbrev rVgsBankUse (i : Nat) : Nat := 0x800000 + 0x4 * i
/-- PRT_VGS_MISS pair, LO half at this offset and HI four above (R222, 05_vocabularies.md): LINES [63:0] RO. -/
abbrev rPrtVgsMiss (i : Nat) : Nat := 0x100328 + 0x10000 * i
/-- PRT_ENC_CFG (R228, 06_encode_and_pack.md): BEAD_PCT [6:0] RW. -/
abbrev rPrtEncCfg (i : Nat) : Nat := 0x100340 + 0x10000 * i
/-- PRT_PACK_CFG (R241, 06_encode_and_pack.md): ROW_TOKENS [17:0] RW. -/
abbrev rPrtPackCfg (i : Nat) : Nat := 0x100344 + 0x10000 * i
/-- PRT_PACK_PAD (R242, 06_encode_and_pack.md): TOKEN [21:0] RW. -/
abbrev rPrtPackPad (i : Nat) : Nat := 0x100348 + 0x10000 * i
/-- PRT_PREFIX_CFG (R249, 06_encode_and_pack.md): HANDLE_MODE [31] RW. -/
abbrev rPrtPrefixCfg (i : Nat) : Nat := 0x10034C + 0x10000 * i
/-- PRT_PREFIX_TABLE (R249, 06_encode_and_pack.md): ID [31:0] RW. -/
abbrev rPrtPrefixTable (i : Nat) : Nat := 0x100350 + 0x10000 * i
/-- PRT_ENC_BYTES pair, LO half at this offset and HI four above (R254, 06_encode_and_pack.md): BYTES [63:0] RO. -/
abbrev rPrtEncBytes (i : Nat) : Nat := 0x100358 + 0x10000 * i
/-- PRT_ENC_FORCED (R255, 06_encode_and_pack.md): COUNT [31:0] RC. -/
abbrev rPrtEncForced (i : Nat) : Nat := 0x100360 + 0x10000 * i
/-- PRT_CP_QUOTA (R296, 08_constraint_programs.md): CPS [12:0] RW. -/
abbrev rPrtCpQuota (i : Nat) : Nat := 0x100400 + 0x10000 * i
/-- PRT_CP_CERT_MAX (R297, 08_constraint_programs.md): CYCLES [31:0] RW. -/
abbrev rPrtCpCertMax (i : Nat) : Nat := 0x100404 + 0x10000 * i
/-- PRT_CP_DEAD (R298, 08_constraint_programs.md): COUNT [31:0] RC. -/
abbrev rPrtCpDead (i : Nat) : Nat := 0x100408 + 0x10000 * i
/-- PRT_CP_OVF (R298, 08_constraint_programs.md): COUNT [31:0] RC. -/
abbrev rPrtCpOvf (i : Nat) : Nat := 0x10040C + 0x10000 * i
/-- PRT_CP_OVERRUN (R298, 08_constraint_programs.md): COUNT [31:0] RC. -/
abbrev rPrtCpOverrun (i : Nat) : Nat := 0x100410 + 0x10000 * i
/-- PRT_CP_MISMATCH (R298, 08_constraint_programs.md): COUNT [31:0] RC. -/
abbrev rPrtCpMismatch (i : Nat) : Nat := 0x100414 + 0x10000 * i
/-- PRT_MASK_EPOCH pair, LO half at this offset and HI four above (R310, 09_masks_and_speculation.md): LAST [63:0] RO. -/
abbrev rPrtMaskEpoch (i : Nat) : Nat := 0x100420 + 0x10000 * i
/-- PRT_RA_LATE (R326, 09_masks_and_speculation.md): COUNT [31:0] RC. -/
abbrev rPrtRaLate (i : Nat) : Nat := 0x100428 + 0x10000 * i
/-- PRT_RA_COLD (R326, 09_masks_and_speculation.md): COUNT [31:0] RC. -/
abbrev rPrtRaCold (i : Nat) : Nat := 0x10042C + 0x10000 * i
/-- PRT_SPEC_ACC pair, LO half at this offset and HI four above (R327, 09_masks_and_speculation.md): COUNT [63:0] RO. -/
abbrev rPrtSpecAcc (i : Nat) : Nat := 0x100430 + 0x10000 * i
/-- PRT_SPEC_DRAFT pair, LO half at this offset and HI four above (R327, 09_masks_and_speculation.md): COUNT [63:0] RO. -/
abbrev rPrtSpecDraft (i : Nat) : Nat := 0x100438 + 0x10000 * i
/-- PRT_RA_CFG (R307, 09_masks_and_speculation.md): BANKS [19:16] RW. -/
abbrev rPrtRaCfg (i : Nat) : Nat := 0x100440 + 0x10000 * i
/-- PRT_SMP_CFG (R364, 10_logits_selection_sampling.md): MAX_PASSES [7:0] RW. -/
abbrev rPrtSmpCfg (i : Nat) : Nat := 0x100500 + 0x10000 * i
/-- PRT_SMP_NAN (R365, 10_logits_selection_sampling.md): COUNT [31:0] RC. -/
abbrev rPrtSmpNan (i : Nat) : Nat := 0x100504 + 0x10000 * i
/-- PRT_SMP_XPASS (R365, 10_logits_selection_sampling.md): COUNT [31:0] RC. -/
abbrev rPrtSmpXpass (i : Nat) : Nat := 0x100508 + 0x10000 * i
/-- PRT_SMP_DPASS (R365, 10_logits_selection_sampling.md): COUNT [31:0] RC. -/
abbrev rPrtSmpDpass (i : Nat) : Nat := 0x10050C + 0x10000 * i
/-- PRT_SMP_LIMIT (R365, 10_logits_selection_sampling.md): COUNT [31:0] RC. -/
abbrev rPrtSmpLimit (i : Nat) : Nat := 0x100510 + 0x10000 * i
/-- PRT_BEAD_QUOTA (R396, 11_bead_programming.md): PROGS [10:0] RW. -/
abbrev rPrtBeadQuota (i : Nat) : Nat := 0x100600 + 0x10000 * i
/-- PRT_BEAD_CALL_MAX (R397, 11_bead_programming.md): CYCLES [31:0] RW. -/
abbrev rPrtBeadCallMax (i : Nat) : Nat := 0x100604 + 0x10000 * i
/-- PRT_BEAD_FAULT (R398, 11_bead_programming.md): VALID [31] W1C; ROLE [30:28] RO; CAUSE [27:24] RO; CODE [23:19] RO; STATUS [15:8] RO. -/
abbrev rPrtBeadFault (i : Nat) : Nat := 0x100608 + 0x10000 * i
/-- PRT_BEAD_FAULT_PC (R399, 11_bead_programming.md): PC [31:0] RO. -/
abbrev rPrtBeadFaultPc (i : Nat) : Nat := 0x10060C + 0x10000 * i
/-- PRT_BEAD_FAULT_ADDR pair, LO half at this offset and HI four above (R399, 11_bead_programming.md): ADDR [63:0] RO. -/
abbrev rPrtBeadFaultAddr (i : Nat) : Nat := 0x100610 + 0x10000 * i
/-- PRT_BEAD_FAULT_PROG (R400, 11_bead_programming.md): ID [31:0] RO. -/
abbrev rPrtBeadFaultProg (i : Nat) : Nat := 0x100618 + 0x10000 * i
/-- PRT_BEAD_FAULT_CNT (R400, 11_bead_programming.md): COUNT [31:0] RC. -/
abbrev rPrtBeadFaultCnt (i : Nat) : Nat := 0x10061C + 0x10000 * i
/-- PRT_TOKPROG_MATCH (R401, 11_bead_programming.md): ID [31:0] RW. -/
abbrev rPrtTokprogMatch (i : Nat) (j : Nat) : Nat := 0x100620 + 0x10000 * i + 0x10 * j
/-- PRT_TOKPROG_PRETOK (R401, 11_bead_programming.md): ID [31:0] RW. -/
abbrev rPrtTokprogPretok (i : Nat) (j : Nat) : Nat := 0x100624 + 0x10000 * i + 0x10 * j
/-- PRT_TOKPROG_MODEL (R401, 11_bead_programming.md): ID [31:0] RW. -/
abbrev rPrtTokprogModel (i : Nat) (j : Nat) : Nat := 0x100628 + 0x10000 * i + 0x10 * j
/-- CLU_BANK_OWN (R407, 12_on_chip_memory_and_fabric.md): OWNER [4:0] RW. -/
abbrev rCluBankOwn (i : Nat) (j : Nat) : Nat := 0x400000 + 0x10000 * i + 0x4 * j
/-- CLU_STAT (R410, 12_on_chip_memory_and_fabric.md): OWN_REJECT [31] W1C; DRAINING [15:0] RO. -/
abbrev rCluStat (i : Nat) : Nat := 0x400040 + 0x10000 * i
/-- CLU_UNINIT_CNT (R422, 12_on_chip_memory_and_fabric.md): COUNT [31:0] RC. -/
abbrev rCluUninitCnt (i : Nat) : Nat := 0x400044 + 0x10000 * i
/-- CLU_ECC_CE_CNT (R422, 12_on_chip_memory_and_fabric.md): COUNT [31:0] RC. -/
abbrev rCluEccCeCnt (i : Nat) : Nat := 0x40004C + 0x10000 * i
/-- CLU_ECC_UE_CNT (R422, 12_on_chip_memory_and_fabric.md): COUNT [31:0] RC. -/
abbrev rCluEccUeCnt (i : Nat) : Nat := 0x400050 + 0x10000 * i
/-- CLU_STARVE_CNT (R422, 12_on_chip_memory_and_fabric.md): COUNT [31:0] RC. -/
abbrev rCluStarveCnt (i : Nat) : Nat := 0x40005C + 0x10000 * i
/-- CLU_UNINIT_LAST (R423, 12_on_chip_memory_and_fabric.md): VALID [31] W1C; PARTITION [27:24] RO; BANK [23:20] RO; LINE [19:10] RO. -/
abbrev rCluUninitLast (i : Nat) : Nat := 0x400048 + 0x10000 * i
/-- CLU_ECC_LAST (R424, 12_on_chip_memory_and_fabric.md): VALID [31] W1C; UE [30] RO; PATROL [29] RO; BANK [23:20] RO; LINE [19:10] RO. -/
abbrev rCluEccLast (i : Nat) : Nat := 0x400054 + 0x10000 * i
/-- CLU_PATROL (R425, 12_on_chip_memory_and_fabric.md): PERIOD_MS [15:0] RW. -/
abbrev rCluPatrol (i : Nat) : Nat := 0x400058 + 0x10000 * i
/-- VGS_ECC_CE_CNT (R426, 12_on_chip_memory_and_fabric.md): COUNT [31:0] RC. -/
abbrev rVgsEccCeCnt : Nat := 0x800080
/-- VGS_ECC_UE_CNT (R426, 12_on_chip_memory_and_fabric.md): COUNT [31:0] RC. -/
abbrev rVgsEccUeCnt : Nat := 0x800084
/-- VGS_RELOAD_FAIL (R426, 12_on_chip_memory_and_fabric.md): COUNT [31:0] RC. -/
abbrev rVgsReloadFail : Nat := 0x800088
/-- VGS_ECC_LAST (R427, 12_on_chip_memory_and_fabric.md): VALID [31] W1C; FAIL [30] RO; UNWRITTEN [29] RO; BANK [24:20] RO; LINE [19:5] RO. -/
abbrev rVgsEccLast : Nat := 0x80008C
/-- PRT_MEM_CFG (R428, 12_on_chip_memory_and_fabric.md): STRICT [31] RW. -/
abbrev rPrtMemCfg (i : Nat) : Nat := 0x100700 + 0x10000 * i
/-- PRT_UNINIT_CNT (R429, 12_on_chip_memory_and_fabric.md): COUNT [31:0] RC. -/
abbrev rPrtUninitCnt (i : Nat) : Nat := 0x100704 + 0x10000 * i
/-- PRT_POISON_CNT (R429, 12_on_chip_memory_and_fabric.md): COUNT [31:0] RC. -/
abbrev rPrtPoisonCnt (i : Nat) : Nat := 0x100708 + 0x10000 * i
/-- GLB_FAB_CFG (R437, 12_on_chip_memory_and_fabric.md): TMO [15:0] RW. -/
abbrev rGlbFabCfg : Nat := 0x300
/-- GLB_FAB_SID_INST (R438, 12_on_chip_memory_and_fabric.md): SID [15:0] RW. -/
abbrev rGlbFabSidInst : Nat := 0x304
/-- GLB_FAB_SID (R438, 12_on_chip_memory_and_fabric.md): SID [15:0] RW. -/
abbrev rGlbFabSid (i : Nat) : Nat := 0x340 + 0x4 * i
/-- GLB_FAB_ERR (R439, 12_on_chip_memory_and_fabric.md): TMO [3] W1C; WR_ERR [2] W1C; RD_ERR [1] W1C; RD_POISON [0] W1C. -/
abbrev rGlbFabErr : Nat := 0x308
/-- GLB_FAB_ERR_EN (R439, 12_on_chip_memory_and_fabric.md): TMO [3] RW; WR_ERR [2] RW; RD_ERR [1] RW; RD_POISON [0] RW. -/
abbrev rGlbFabErrEn : Nat := 0x30C
/-- GLB_FAB_ERR_ADDR pair, LO half at this offset and HI four above (R440, 12_on_chip_memory_and_fabric.md): ADDR [63:0] RO. -/
abbrev rGlbFabErrAddr : Nat := 0x310
/-- GLB_FAB_ERR_SRC (R440, 12_on_chip_memory_and_fabric.md): INST [31] RO; PARTITION [27:24] RO; MASTER [23:16] RO; SID [15:0] RO. -/
abbrev rGlbFabErrSrc : Nat := 0x318
/-- GLB_FAB_LATE (R441, 12_on_chip_memory_and_fabric.md): COUNT [31:0] RC. -/
abbrev rGlbFabLate : Nat := 0x31C
/-- PRK_WARM_BASE pair, LO half at this offset and HI four above (R464, 13_lockets_park_revive.md): ADDR [63:21] RW. -/
abbrev rPrkWarmBase : Nat := 0x900000
/-- PRK_WARM_CFG (R465, 13_lockets_park_revive.md): SIZE_GIB [6:0] RW. -/
abbrev rPrkWarmCfg : Nat := 0x900008
/-- PRT_PARK_CFG (R466, 13_lockets_park_revive.md): WARM_ONLY [31] RW; AGE_S [27:16] RW; HI_PCT [15:8] RW; LO_PCT [7:0] RW. -/
abbrev rPrtParkCfg (i : Nat) : Nat := 0x100800 + 0x10000 * i
/-- PRT_PARK_WARM (R467, 13_lockets_park_revive.md): QUOTA [20:0] RW. -/
abbrev rPrtParkWarm (i : Nat) : Nat := 0x100804 + 0x10000 * i
/-- PRT_PARK_WARM_USE (R467, 13_lockets_park_revive.md): USED [20:0] RO. -/
abbrev rPrtParkWarmUse (i : Nat) : Nat := 0x100808 + 0x10000 * i
/-- PRT_PARK_NWARM (R468, 13_lockets_park_revive.md): COUNT [31:0] RO. -/
abbrev rPrtParkNwarm (i : Nat) : Nat := 0x10080C + 0x10000 * i
/-- PRT_PARK_NCOLD (R468, 13_lockets_park_revive.md): COUNT [31:0] RO. -/
abbrev rPrtParkNcold (i : Nat) : Nat := 0x100810 + 0x10000 * i
/-- PRT_PARK_GEN pair, LO half at this offset and HI four above (R469, 13_lockets_park_revive.md): LAST [63:0] RO. -/
abbrev rPrtParkGen (i : Nat) : Nat := 0x100814 + 0x10000 * i
/-- PRT_PARK_LOST (R470, 13_lockets_park_revive.md): COUNT [31:0] RC. -/
abbrev rPrtParkLost (i : Nat) : Nat := 0x10081C + 0x10000 * i
/-- PRT_PARK_REPAIR (R470, 13_lockets_park_revive.md): COUNT [31:0] RC. -/
abbrev rPrtParkRepair (i : Nat) : Nat := 0x100820 + 0x10000 * i
/-- PRK_INDEX_BASE pair, LO half at this offset and HI four above (R502, 14_park_media.md): ADDR [63:21] RW. -/
abbrev rPrkIndexBase : Nat := 0x900010
/-- PRK_INDEX_CFG (R503, 14_park_media.md): SIZE_GIB [5:0] RW. -/
abbrev rPrkIndexCfg : Nat := 0x900018
/-- PRK_STAT (R503, 14_park_media.md): READY [31] RO; RECOVERING [30] RO; ONLINE [15:0] RO. -/
abbrev rPrkStat : Nat := 0x90001C
/-- PRK_SCRUB (R504, 14_park_media.md): REFRESH_BITS [23:16] RW; PERIOD_DAYS [7:0] RW. -/
abbrev rPrkScrub : Nat := 0x900020
/-- PRK_WEAR (R504, 14_park_media.md): STATIC_GAP [15:0] RW. -/
abbrev rPrkWear : Nat := 0x900024
/-- PRK_CH_STAT (R505, 14_park_media.md): PRESENT [31] RO; ONLINE [30] RO; WORN [29] RO; OWNED [28] RO; OWNER [27:24] RO; DIES_BAD [15:8] RO; DIES [7:0] RO. -/
abbrev rPrkChStat (i : Nat) : Nat := 0x901000 + 0x100 * i
/-- PRK_CH_GOOD (R506, 14_park_media.md): BLOCKS [20:0] RO. -/
abbrev rPrkChGood (i : Nat) : Nat := 0x901004 + 0x100 * i
/-- PRK_CH_SPARE (R506, 14_park_media.md): BP [31:18] RO; BLOCKS [17:0] RO. -/
abbrev rPrkChSpare (i : Nat) : Nat := 0x901008 + 0x100 * i
/-- PRK_CH_PE (R506, 14_park_media.md): MAX [31:16] RO; MIN [15:0] RO. -/
abbrev rPrkChPe (i : Nat) : Nat := 0x90100C + 0x100 * i
/-- PRK_CH_RL_FORCE (R507, 14_park_media.md): ENABLE [31] RW; DIE_MASK [23:16] RW; OFFSET [7:0] RW. -/
abbrev rPrkChRlForce (i : Nat) : Nat := 0x901010 + 0x100 * i
/-- PRK_CH_RL_BOUND (R507, 14_park_media.md): MAX [15:8] RW; MIN [7:0] RW. -/
abbrev rPrkChRlBound (i : Nat) : Nat := 0x901014 + 0x100 * i
/-- PRK_CH_RETRY_CNT (R508, 14_park_media.md): COUNT [31:0] RC. -/
abbrev rPrkChRetryCnt (i : Nat) : Nat := 0x901018 + 0x100 * i
/-- PRK_CH_UE_CNT (R508, 14_park_media.md): COUNT [31:0] RC. -/
abbrev rPrkChUeCnt (i : Nat) : Nat := 0x90101C + 0x100 * i
/-- PRK_CH_CTRL (R509, 14_park_media.md): KEY [31:24] WO; ONLINE [1] RW; FORMAT [0] WO. -/
abbrev rPrkChCtrl (i : Nat) : Nat := 0x901020 + 0x100 * i
/-- PRT_MEDIA_CFG (R510, 14_park_media.md): RO_FORCE [31] RW. -/
abbrev rPrtMediaCfg (i : Nat) : Nat := 0x100900 + 0x10000 * i
/-- PRT_MEDIA_STAT (R510, 14_park_media.md): READ_ONLY [31] RO; WORN [30] RO; FULL [29] RO; SPARE_BP [13:0] RO. -/
abbrev rPrtMediaStat (i : Nat) : Nat := 0x100904 + 0x10000 * i
/-- PRT_COLD_CAP (R511, 14_park_media.md): MIB [31:0] RO. -/
abbrev rPrtColdCap (i : Nat) : Nat := 0x100908 + 0x10000 * i
/-- PRT_COLD_USE (R511, 14_park_media.md): MIB [31:0] RO. -/
abbrev rPrtColdUse (i : Nat) : Nat := 0x10090C + 0x10000 * i
/-- PRT_GEN_CTRL (R517, 15_partitions_and_keys.md): COMMIT [31] WO; DISCARD [30] WO. -/
abbrev rPrtGenCtrl (i : Nat) : Nat := 0x10F000 + 0x10000 * i
/-- PRT_GEN_STAT (R518, 15_partitions_and_keys.md): CLEARING [31] RO; CONFLICT [30] W1C; CAUSE [27:24] RO. -/
abbrev rPrtGenStat (i : Nat) : Nat := 0x10F004 + 0x10000 * i
/-- PRT_GEN_CUR (R518, 15_partitions_and_keys.md): GEN [31:0] RO. -/
abbrev rPrtGenCur (i : Nat) : Nat := 0x10F008 + 0x10000 * i
/-- PRT_GEN_DONE (R518, 15_partitions_and_keys.md): DONE [31] RO. -/
abbrev rPrtGenDone (i : Nat) : Nat := 0x10F00C + 0x10000 * i
/-- PRT_CFG_CTRL (R519, 15_partitions_and_keys.md): ENABLE [31] RW; TENANT [15:0] RW. -/
abbrev rPrtCfgCtrl (i : Nat) : Nat := 0x10F010 + 0x10000 * i
/-- PRT_CFG_GROUPS (R519, 15_partitions_and_keys.md): GROUPS [15:0] RW. -/
abbrev rPrtCfgGroups (i : Nat) : Nat := 0x10F014 + 0x10000 * i
/-- PRT_CFG_VGS (R519, 15_partitions_and_keys.md): PAIRS [15:0] RW. -/
abbrev rPrtCfgVgs (i : Nat) : Nat := 0x10F018 + 0x10000 * i
/-- PRT_CFG_CHANNELS (R519, 15_partitions_and_keys.md): CHANNELS [15:0] RW. -/
abbrev rPrtCfgChannels (i : Nat) : Nat := 0x10F01C + 0x10000 * i
/-- PRT_CFG_RINGS pair, LO half at this offset and HI four above (R519, 15_partitions_and_keys.md): RINGS [63:0] RW. -/
abbrev rPrtCfgRings (i : Nat) : Nat := 0x10F020 + 0x10000 * i
/-- PRT_CFG_MEM_BASE pair, LO half at this offset and HI four above (R519, 15_partitions_and_keys.md): ADDR [63:16] RW; WR [1] RW; EN [0] RW. -/
abbrev rPrtCfgMemBase (i : Nat) (j : Nat) : Nat := 0x10F040 + 0x10000 * i + 0x10 * j
/-- PRT_CFG_MEM_SIZE (R519, 15_partitions_and_keys.md): UNITS [31:0] RW. -/
abbrev rPrtCfgMemSize (i : Nat) (j : Nat) : Nat := 0x10F048 + 0x10000 * i + 0x10 * j
/-- PRT_CFG_CTRL_MIR (R516, 15_partitions_and_keys.md): ENABLE [31] RO; TENANT [15:0] RO. -/
abbrev rPrtCfgCtrlMir (i : Nat) : Nat := 0x10F110 + 0x10000 * i
/-- PRT_CFG_GROUPS_MIR (R516, 15_partitions_and_keys.md): GROUPS [15:0] RO. -/
abbrev rPrtCfgGroupsMir (i : Nat) : Nat := 0x10F114 + 0x10000 * i
/-- PRT_CFG_VGS_MIR (R516, 15_partitions_and_keys.md): PAIRS [15:0] RO. -/
abbrev rPrtCfgVgsMir (i : Nat) : Nat := 0x10F118 + 0x10000 * i
/-- PRT_CFG_CHANNELS_MIR (R516, 15_partitions_and_keys.md): CHANNELS [15:0] RO. -/
abbrev rPrtCfgChannelsMir (i : Nat) : Nat := 0x10F11C + 0x10000 * i
/-- PRT_CFG_RINGS_MIR pair, LO half at this offset and HI four above (R516, 15_partitions_and_keys.md): RINGS [63:0] RO. -/
abbrev rPrtCfgRingsMir (i : Nat) : Nat := 0x10F120 + 0x10000 * i
/-- PRT_CFG_MEM_BASE_MIR pair, LO half at this offset and HI four above (R516, 15_partitions_and_keys.md): ADDR [63:16] RO; WR [1] RO; EN [0] RO. -/
abbrev rPrtCfgMemBaseMir (i : Nat) (j : Nat) : Nat := 0x10F140 + 0x10000 * i + 0x10 * j
/-- PRT_CFG_MEM_SIZE_MIR (R516, 15_partitions_and_keys.md): UNITS [31:0] RO. -/
abbrev rPrtCfgMemSizeMir (i : Nat) (j : Nat) : Nat := 0x10F148 + 0x10000 * i + 0x10 * j
/-- SEC_MEAS (R528, 15_partitions_and_keys.md): VALUE [31:0] RO. -/
abbrev rSecMeas (i : Nat) : Nat := 0xA00000 + 0x4 * i
/-- SEC_KEY_IN (R540, 15_partitions_and_keys.md): WORD [31:0] WO. -/
abbrev rSecKeyIn (i : Nat) : Nat := 0xA00040 + 0x4 * i
/-- SEC_KEY_EPOCH (R540, 15_partitions_and_keys.md): EPOCH [31:0] RW. -/
abbrev rSecKeyEpoch : Nat := 0xA00084
/-- SEC_KEY_CMD (R541, 15_partitions_and_keys.md): OP [31:28] WO; PARTITION [27:24] WO; SLOT [23] WO. -/
abbrev rSecKeyCmd : Nat := 0xA00080
/-- SEC_KEY_STAT (R541, 15_partitions_and_keys.md): BUSY [31] RO; RESULT [23:16] RO. -/
abbrev rSecKeyStat : Nat := 0xA00088
/-- SEC_PRT_KEYS (R542, 15_partitions_and_keys.md): AK0 [31] RO; AK1 [30] RO; CUR [29] RO; A_VALID [28] RO; B_VALID [27] RO; REKEY [26] RO; RESTORE [25] RO. -/
abbrev rSecPrtKeys (i : Nat) : Nat := 0xA00100 + 0x20 * i
/-- SEC_PRT_EPOCH_A (R543, 15_partitions_and_keys.md): EPOCH [31:0] RO. -/
abbrev rSecPrtEpochA (i : Nat) : Nat := 0xA00104 + 0x20 * i
/-- SEC_PRT_EPOCH_B (R543, 15_partitions_and_keys.md): EPOCH [31:0] RO. -/
abbrev rSecPrtEpochB (i : Nat) : Nat := 0xA00108 + 0x20 * i
/-- SEC_PRT_COUNT_A (R543, 15_partitions_and_keys.md): COUNT [31:0] RO. -/
abbrev rSecPrtCountA (i : Nat) : Nat := 0xA0010C + 0x20 * i
/-- SEC_PRT_COUNT_B (R543, 15_partitions_and_keys.md): COUNT [31:0] RO. -/
abbrev rSecPrtCountB (i : Nat) : Nat := 0xA00110 + 0x20 * i
/-- SEC_PRT_REKEY (R543, 15_partitions_and_keys.md): RATE [15:0] RW. -/
abbrev rSecPrtRekey (i : Nat) : Nat := 0xA00114 + 0x20 * i
/-- SEC_DBG_UNLOCK (R672, 19_boundary_signals_debug.md): PARTS [15:0] RW. -/
abbrev rSecDbgUnlock : Nat := 0xA00300
/-- SEC_DBG_STAT (R672, 19_boundary_signals_debug.md): OPEN [31] RO; DENIED [15:0] RC. -/
abbrev rSecDbgStat : Nat := 0xA00304
/-- CFG_BOOT_STAT (R561, 16_boot_chain_firmware.md): DONE [31] RO; HALTED [30] RO; FAIL [29] RO; SLOT [28] RO; FORCED [27] RO; FALLBACK [26] RO; PAIR [25:24] RO; RESULT [23:16] RO; TRIES_A [15:12] RO; TRIES_B [11:8] RO; STRAP [3:0] RO. -/
abbrev rCfgBootStat : Nat := 0x400
/-- CFG_BOOT_CTRL (R562, 16_boot_chain_firmware.md): RESUME [31] WO. -/
abbrev rCfgBootCtrl : Nat := 0x404
/-- CFG_STRAP (R562, 16_boot_chain_firmware.md): MARGINAL [31] RO; AGREE [27:24] RO; CODE [3:0] RO. -/
abbrev rCfgStrap : Nat := 0x408
/-- CFG_FW_VER (R562, 16_boot_chain_firmware.md): VERSION [31:0] RO. -/
abbrev rCfgFwVer : Nat := 0x40C
/-- CFG_FW_SVN (R562, 16_boot_chain_firmware.md): OTHER [31:16] RO; SVN [15:0] RO. -/
abbrev rCfgFwSvn : Nat := 0x410
/-- CFG_SET_STAT (R563, 16_boot_chain_firmware.md): FACTORY [31] RO; COPY [30] RO; SFMT [23:16] RO; APPLIED [15:0] RO. -/
abbrev rCfgSetStat : Nat := 0x414
/-- CFG_SET_SEQ (R563, 16_boot_chain_firmware.md): SEQ [31:0] RO. -/
abbrev rCfgSetSeq : Nat := 0x418
/-- CFG_OVL_SKIP (R563, 16_boot_chain_firmware.md): SKIPPED [15:0] RO. -/
abbrev rCfgOvlSkip : Nat := 0x41C
/-- CFG_FL_ADDR (R565, 16_boot_chain_firmware.md): ADDR [27:0] RW. -/
abbrev rCfgFlAddr : Nat := 0x440
/-- CFG_FL_CTRL (R565, 16_boot_chain_firmware.md): OP [31:28] WO; KEY [27:24] WO; LEN [6:0] WO. -/
abbrev rCfgFlCtrl : Nat := 0x444
/-- CFG_FL_STAT (R565, 16_boot_chain_firmware.md): BUSY [31] RO; RESULT [23:16] RO. -/
abbrev rCfgFlStat : Nat := 0x448
/-- CFG_FL_DATA (R565, 16_boot_chain_firmware.md): DATA [31:0] RW. -/
abbrev rCfgFlData (i : Nat) : Nat := 0x480 + 0x4 * i
/-- CHN_STAT (R570, 16_boot_chain_firmware.md): VALID [31] RO; MOVED [30] W1C; OVERFLOW [29] RO; PARTNER_VALID [28] RO; ADDR [27:24] RO; PARTNER [23:20] RO; CMD_RESULT [18:16] RO. -/
abbrev rChnStat : Nat := 0x500
/-- CHN_CMD (R570, 16_boot_chain_firmware.md): SEND [31] WO; DEST [27:24] WO; TYPE [23:16] WO. -/
abbrev rChnCmd : Nat := 0x504
/-- CHN_ERR_CNT (R570, 16_boot_chain_firmware.md): COUNT [31:0] RC. -/
abbrev rChnErrCnt : Nat := 0x508
/-- FUS_STAT (R576, 16_boot_chain_firmware.md): READ_DONE [31] RO; KEY_VALID [30] RO; DEBUG_LOCK [29] RO; EXCURSION [28] W1C; MARGINAL [20:12] RO. -/
abbrev rFusStat : Nat := 0x600
/-- FUS_ARB (R576, 16_boot_chain_firmware.md): COUNT [7:0] RO. -/
abbrev rFusArb : Nat := 0x604
/-- FUS_ARB_CTRL (R576, 16_boot_chain_firmware.md): ADVANCE [31] WO; BUSY [30] RO. -/
abbrev rFusArbCtrl : Nat := 0x608
/-- FUS_DIFF_CNT (R576, 16_boot_chain_firmware.md): COUNT [31:0] RC. -/
abbrev rFusDiffCnt : Nat := 0x60C
/-- FUS_TEMP (R576, 16_boot_chain_firmware.md): LAST_C [7:0] RO. -/
abbrev rFusTemp : Nat := 0x610
/-- FUS_MARG (R577, 16_boot_chain_firmware.md): MARG [31:0] RO. -/
abbrev rFusMarg (i : Nat) : Nat := 0x620 + 0x4 * i
/-- FUS_WORD (R577, 16_boot_chain_firmware.md): VALUE [31:0] RO. -/
abbrev rFusWord (i : Nat) : Nat := 0xC00 + 0x4 * i
/-- RST_CTRL (R593, 17_reset_power_adaptive.md): KEY [31:24] WO; SOFT [0] WO. -/
abbrev rRstCtrl : Nat := 0x1000
/-- RST_CAUSE (R594, 17_reset_power_adaptive.md): LAST [31:28] RO; RECOVERED [27] RO; SEEN [6:0] W1C. -/
abbrev rRstCause : Nat := 0x1004
/-- RST_CFG (R595, 17_reset_power_adaptive.md): NO_RECOVER [31] RW; QUIESCE_US [15:0] RW. -/
abbrev rRstCfg : Nat := 0x1008
/-- RST_UNIT_CLU pair, LO half at this offset and HI four above (R596, 17_reset_power_adaptive.md): CLU [63:0] W1S. -/
abbrev rRstUnitClu : Nat := 0x1010
/-- RST_UNIT_SYS (R597, 17_reset_power_adaptive.md): CTRL [11] W1S; FAB [10] W1S; CRYPTO [9] W1S; PRK [8] W1S; VGS [3:0] W1S. -/
abbrev rRstUnitSys : Nat := 0x1018
/-- RST_UNIT_STAT (R598, 17_reset_power_adaptive.md): TIMED_OUT [31] W1C; VALID [30] RO; LAST_UNIT [7:0] RO. -/
abbrev rRstUnitStat : Nat := 0x101C
/-- RST_TMO_CNT (R598, 17_reset_power_adaptive.md): COUNT [31:0] RC. -/
abbrev rRstTmoCnt : Nat := 0x1020
/-- RST_DATA_BASE pair, LO half at this offset and HI four above (R599, 17_reset_power_adaptive.md): ADDR [63:26] RW. -/
abbrev rRstDataBase : Nat := 0x1028
/-- RST_DATA_CFG (R599, 17_reset_power_adaptive.md): SIZE [7:0] RW. -/
abbrev rRstDataCfg : Nat := 0x1030
/-- RST_BKP (R585, 17_reset_power_adaptive.md): VALUE [31:0] RW. -/
abbrev rRstBkp (i : Nat) : Nat := 0x1040 + 0x4 * i
/-- PRT_RECOVER (R600, 17_reset_power_adaptive.md): STATE [31:30] RO. -/
abbrev rPrtRecover (i : Nat) : Nat := 0x100A0C + 0x10000 * i
/-- PWR_CAP (R612, 17_reset_power_adaptive.md): WATTS [7:0] RW. -/
abbrev rPwrCap : Nat := 0x1100
/-- PWR_STAT (R612, 17_reset_power_adaptive.md): CAP_ACTIVE [31] RO; BELOW_FLOOR [30] RO; GATE [29:28] RO; OFF_REJECT [27] W1C; EST [15:0] RO. -/
abbrev rPwrStat : Nat := 0x1104
/-- PWR_GOV_CFG (R613, 17_reset_power_adaptive.md): UTIL_HI [31:24] RW; UTIL_LO [23:16] RW; RISK_N [15:12] RW; INTERVAL_US [11:0] RW. -/
abbrev rPwrGovCfg : Nat := 0x1108
/-- PWR_GOV_SLACK (R613, 17_reset_power_adaptive.md): SLACK_HI [27:16] RW; SLACK_LO [11:0] RW. -/
abbrev rPwrGovSlack : Nat := 0x110C
/-- PWR_DOM_OFF pair, LO half at this offset and HI four above (R604, 17_reset_power_adaptive.md): OFF [63:0] RW. -/
abbrev rPwrDomOff : Nat := 0x1110
/-- PWR_DOM_SYS (R605, 17_reset_power_adaptive.md): FAB_OFF [6] RW; CRYPTO_OFF [5] RW; PRK_OFF [4] RW; VGS_OFF [3:0] RW. -/
abbrev rPwrDomSys : Nat := 0x1118
/-- PWR_DOM_STAT pair, LO half at this offset and HI four above (R604, 17_reset_power_adaptive.md): ON [63:0] RO. -/
abbrev rPwrDomStat : Nat := 0x1120
/-- PWR_DOM_SYS_STAT (R605, 17_reset_power_adaptive.md): CTRL [7] RO; FAB [6] RO; CRYPTO [5] RO; PRK [4] RO; VGS [3:0] RO. -/
abbrev rPwrDomSysStat : Nat := 0x1128
/-- PWR_GRP_BOUND (R614, 17_reset_power_adaptive.md): PIN [31] RW; CEIL [19:16] RW; FLOOR [11:8] RW. -/
abbrev rPwrGrpBound (i : Nat) : Nat := 0x1200 + 0x10 * i
/-- PWR_GRP_STAT (R615, 17_reset_power_adaptive.md): RISK [31] RO; BELOW_FLOOR [30] RO; CAPPED [29] RO; MISSED [28] RO; CAP_LIMIT [27:24] RO; POINT [23:20] RO; UTIL [19:13] RO; SLACK [11:0] RO. -/
abbrev rPwrGrpStat (i : Nat) : Nat := 0x1204 + 0x10 * i
/-- PWR_GRP_CNT (R615, 17_reset_power_adaptive.md): UP [31:16] RC; DOWN [15:0] RC. -/
abbrev rPwrGrpCnt (i : Nat) : Nat := 0x1208 + 0x10 * i
/-- PRT_PLACE (R617, 17_reset_power_adaptive.md): ENABLE [31] RW; MOVES [27:16] RW; IMB_PCT [15:8] RW; PERIOD_MS [7:0] RW. -/
abbrev rPrtPlace (i : Nat) : Nat := 0x100A00 + 0x10000 * i
/-- PRT_PLACE_PIN (R617, 17_reset_power_adaptive.md): GROUPS [15:0] RW. -/
abbrev rPrtPlacePin (i : Nat) : Nat := 0x100A04 + 0x10000 * i
/-- PRT_PLACE_CNT (R617, 17_reset_power_adaptive.md): COUNT [31:0] RC. -/
abbrev rPrtPlaceCnt (i : Nat) : Nat := 0x100A08 + 0x10000 * i
/-- GLB_PAIR_CFG (R638, 18_pairing_and_faults.md): CMP_US [31:16] RW; HB_MISS [15:8] RW. -/
abbrev rGlbPairCfg : Nat := 0x1300
/-- GLB_PAIR_STAT (R639, 18_pairing_and_faults.md): ROLE [31:30] RO; ISOLATED [29] RO; PARTNER_LOST [28] RO; HOLD [27] RO; SELFTEST [26:25] RO. -/
abbrev rGlbPairStat : Nat := 0x1304
/-- GLB_PAIR_PEER pair, LO half at this offset and HI four above (R640, 18_pairing_and_faults.md): ADDR [63:25] RW. -/
abbrev rGlbPairPeer : Nat := 0x1308
/-- GLB_PAIR_MBOX pair, LO half at this offset and HI four above (R640, 18_pairing_and_faults.md): ADDR [63:16] RW. -/
abbrev rGlbPairMbox : Nat := 0x1310
/-- GLB_PAIR_PRIV pair, LO half at this offset and HI four above (R640, 18_pairing_and_faults.md): OFFSET [63:16] RW. -/
abbrev rGlbPairPriv : Nat := 0x1318
/-- GLB_PAIR_TOKEN pair, LO half at this offset and HI four above (R640, 18_pairing_and_faults.md): TOKEN [63:0] RO. -/
abbrev rGlbPairToken : Nat := 0x1328
/-- GLB_PAIR_CMP_CNT (R641, 18_pairing_and_faults.md): COUNT [31:0] RC. -/
abbrev rGlbPairCmpCnt : Nat := 0x1320
/-- GLB_PAIR_REPLAY_CNT (R641, 18_pairing_and_faults.md): COUNT [31:0] RC. -/
abbrev rGlbPairReplayCnt : Nat := 0x1324
/-- GLB_FLT_CFG0 (R642, 18_pairing_and_faults.md): ISOLATE [31] RW; LIMIT [30:24] RW; WINDOW_MS [23:0] RW. -/
abbrev rGlbFltCfg0 : Nat := 0x1340
/-- GLB_FLT_CFG1 (R642, 18_pairing_and_faults.md): ISOLATE [31] RW; LIMIT [30:24] RW; WINDOW_MS [23:0] RW. -/
abbrev rGlbFltCfg1 : Nat := 0x1344
/-- GLB_FLT_CFG2 (R642, 18_pairing_and_faults.md): ISOLATE [31] RW; LIMIT [30:24] RW; WINDOW_MS [23:0] RW. -/
abbrev rGlbFltCfg2 : Nat := 0x1348
/-- GLB_FLT_CFG3 (R642, 18_pairing_and_faults.md): ISOLATE [31] RW; LIMIT [30:24] RW; WINDOW_MS [23:0] RW. -/
abbrev rGlbFltCfg3 : Nat := 0x134C
/-- GLB_FLT_CFG4 (R642, 18_pairing_and_faults.md): ISOLATE [31] RW; LIMIT [30:24] RW; WINDOW_MS [23:0] RW. -/
abbrev rGlbFltCfg4 : Nat := 0x1350
/-- GLB_FLT_CFG5 (R642, 18_pairing_and_faults.md): ISOLATE [31] RW; LIMIT [30:24] RW; WINDOW_MS [23:0] RW. -/
abbrev rGlbFltCfg5 : Nat := 0x1354
/-- GLB_FLT_CFG6 (R642, 18_pairing_and_faults.md): ISOLATE [31] RW; LIMIT [30:24] RW; WINDOW_MS [23:0] RW. -/
abbrev rGlbFltCfg6 : Nat := 0x1358
/-- GLB_FLT_STAT (R643, 18_pairing_and_faults.md): LASTING [7:0] W1C. -/
abbrev rGlbFltStat : Nat := 0x1360
/-- GLB_FLT_EN (R643, 18_pairing_and_faults.md): EN [7:0] RW. -/
abbrev rGlbFltEn : Nat := 0x1364
/-- GLB_FLT_LAST (R643, 18_pairing_and_faults.md): VALID [31] W1C; COUNTER [26:24] RO; UNIT [15:0] RO. -/
abbrev rGlbFltLast : Nat := 0x1368
/-- LPE_TRACE_CTRL (R662, 19_boundary_signals_debug.md): ENABLE [31] RW; MODE [30] RW; IRQ_EN [29] RW. -/
abbrev rLpeTraceCtrl : Nat := 0xB00000
/-- LPE_TRACE_CFG (R663, 19_boundary_signals_debug.md): PARTS [31:16] RW; SIZE_LOG2 [4:0] RW. -/
abbrev rLpeTraceCfg : Nat := 0xB00004
/-- LPE_TRACE_CLASS (R663, 19_boundary_signals_debug.md): CODES [31:0] RW. -/
abbrev rLpeTraceClass : Nat := 0xB00010
/-- LPE_TRACE_BASE pair, LO half at this offset and HI four above (R664, 19_boundary_signals_debug.md): ADDR [63:16] RW. -/
abbrev rLpeTraceBase : Nat := 0xB00008
/-- LPE_TRACE_WPTR (R665, 19_boundary_signals_debug.md): COUNT [31:0] RO. -/
abbrev rLpeTraceWptr : Nat := 0xB00014
/-- LPE_TRACE_DROP (R665, 19_boundary_signals_debug.md): COUNT [31:0] RC. -/
abbrev rLpeTraceDrop : Nat := 0xB00018
/-- LPE_TRACE_STAT (R665, 19_boundary_signals_debug.md): FULL [31] RO; WM [30] W1C. -/
abbrev rLpeTraceStat : Nat := 0xB0001C
/-- LPE_TRACE_WM (R665, 19_boundary_signals_debug.md): RECORDS [31:0] RW. -/
abbrev rLpeTraceWm : Nat := 0xB00020
/-- LPE_MARK (R665, 19_boundary_signals_debug.md): VALUE [31:0] WO. -/
abbrev rLpeMark : Nat := 0xB00024
/-- LPE_TIME pair, LO half at this offset and HI four above (R666, 19_boundary_signals_debug.md): CYCLES [63:0] RO. -/
abbrev rLpeTime : Nat := 0xB00028
/-- LPE_CNT_CTRL (R667, 19_boundary_signals_debug.md): RUN [31] RW; CLEAR [30] WO. -/
abbrev rLpeCntCtrl : Nat := 0xB00040
/-- LPE_CNT_SEL (R667, 19_boundary_signals_debug.md): EVENT [31:24] RW; PFILT [23] RW; PARTITION [22:19] RW; GFILT [18] RW; GROUP [17:14] RW. -/
abbrev rLpeCntSel (i : Nat) : Nat := 0xB00080 + 0x10 * i
/-- LPE_CNT pair, LO half at this offset and HI four above (R667, 19_boundary_signals_debug.md): COUNT [63:0] RO. -/
abbrev rLpeCnt (i : Nat) : Nat := 0xB00088 + 0x10 * i

/-- Part 0 of the register map. -/
def regRows0 : List RegRow :=
  [⟨0, 0x0, 0x0, 1, 0x0, 1, 0x504CB000, 0, 0, 0, 0, 0⟩,
   ⟨0, 0x4, 0x0, 1, 0x0, 1, 0, 0, 0, 0, 0, 0⟩,
   ⟨1, 0x8, 0x0, 1, 0x0, 1, 0, 0, 0, 0, 0, 0⟩,
   ⟨2, 0xC, 0x0, 1, 0x0, 1, 0, 0, 0, 0, 0, 0⟩,
   ⟨0, 0x10, 0x0, 1, 0x0, 1, 0x20000073, 0x200000FF, 0x40000000, 0, 0, 0⟩,
   ⟨0, 0x100, 0x40, 4, 0x0, 1, 0, 0xF0FFF000, 0, 0, 0, 0⟩,
   ⟨0, 0x104, 0x40, 4, 0x0, 1, 0, 0, 0, 0, 0, 0⟩,
   ⟨0, 0x108, 0x40, 4, 0x0, 1, 0x7D0, 0xFFFFF, 0, 0, 0, 0⟩,
   ⟨0, 0x10C, 0x40, 4, 0x0, 1, 0x7A120, 0xFFFFF, 0, 0, 0, 0⟩,
   ⟨0, 0x110, 0x40, 4, 0x0, 1, 0x1E8480, 0xFFFFFFFF, 0, 0, 0, 0⟩,
   ⟨0, 0x114, 0x40, 4, 0x0, 1, 0x1E8480, 0, 0, 0, 0, 0⟩,
   ⟨1, 0x118, 0x40, 4, 0x0, 1, 0, 0, 0, 0, 0, 0⟩,
   ⟨2, 0x11C, 0x40, 4, 0x0, 1, 0, 0, 0, 0, 0, 0⟩,
   ⟨1, 0x120, 0x40, 4, 0x0, 1, 0, 0xFFFFFFFF, 0, 0, 0, 0⟩,
   ⟨2, 0x124, 0x40, 4, 0x0, 1, 0, 0xFF, 0, 0, 0, 0⟩,
   ⟨0, 0x128, 0x40, 4, 0x0, 1, 0, 0, 0, 0, 0xFFFFFFFF, 0⟩,
   ⟨0, 0x200, 0x0, 1, 0x0, 1, 0, 0, 0xFFFF, 0, 0, 0⟩,
   ⟨0, 0x204, 0x0, 1, 0x0, 1, 0, 0xFFFF, 0, 0, 0, 0⟩,
   ⟨0, 0x200000, 0x1000, 64, 0x0, 1, 0, 0xFFFFFFFF, 0, 0, 0, 0⟩,
   ⟨0, 0x200004, 0x1000, 64, 0x0, 1, 0, 0, 0, 0, 0, 0⟩]

/-- Part 1 of the register map. -/
def regRows1 : List RegRow :=
  [⟨0, 0x200008, 0x1000, 64, 0x0, 1, 0, 0xFFFFFFFF, 0, 0, 0, 0⟩,
   ⟨0, 0x20000C, 0x1000, 64, 0x0, 1, 0, 0, 0, 0, 0, 0⟩,
   ⟨1, 0x200010, 0x1000, 64, 0x0, 1, 0, 0xFFFFF000, 0, 0, 0, 0⟩,
   ⟨2, 0x200014, 0x1000, 64, 0x0, 1, 0, 0xFFFFFFFF, 0, 0, 0, 0⟩,
   ⟨1, 0x200018, 0x1000, 64, 0x0, 1, 0, 0xFFFFF000, 0, 0, 0, 0⟩,
   ⟨2, 0x20001C, 0x1000, 64, 0x0, 1, 0, 0xFFFFFFFF, 0, 0, 0, 0⟩,
   ⟨0, 0x200020, 0x1000, 64, 0x0, 1, 0x60800, 0xCFFFFF01, 0, 0, 0, 0⟩,
   ⟨0, 0x200024, 0x1000, 64, 0x0, 1, 0, 0, 0, 0, 0, 0x1⟩,
   ⟨0, 0x200028, 0x1000, 64, 0x0, 1, 0x2000000, 0, 0x1400000, 0, 0, 0⟩,
   ⟨0, 0x20002C, 0x1000, 64, 0x0, 1, 0x1, 0xFF00FFFF, 0, 0, 0, 0⟩,
   ⟨0, 0x200030, 0x1000, 64, 0x0, 1, 0, 0, 0, 0, 0, 0xFFFFFFFF⟩,
   ⟨0, 0x200800, 0x1000, 64, 0x4, 16, 0, 0, 0, 0, 0, 0xFFFFFFFF⟩,
   ⟨1, 0x100100, 0x10000, 16, 0x0, 1, 0, 0xFFFFF000, 0, 0, 0, 0⟩,
   ⟨2, 0x100104, 0x10000, 16, 0x0, 1, 0, 0xFFFFFFFF, 0, 0, 0, 0⟩,
   ⟨0, 0x100108, 0x10000, 16, 0x0, 1, 0, 0xCF000000, 0, 0, 0, 0⟩,
   ⟨0, 0x10010C, 0x10000, 16, 0x0, 1, 0, 0xFFFFFFFF, 0, 0, 0, 0⟩,
   ⟨0, 0x100110, 0x10000, 16, 0x0, 1, 0, 0, 0, 0, 0, 0⟩,
   ⟨0, 0x100114, 0x10000, 16, 0x0, 1, 0, 0, 0, 0, 0xFFFFFFFF, 0⟩,
   ⟨0, 0x100118, 0x10000, 16, 0x0, 1, 0x1000000, 0x1FFF1FFF, 0, 0, 0, 0⟩,
   ⟨0, 0x10011C, 0x10000, 16, 0x0, 1, 0, 0, 0, 0, 0x1FFF0000, 0⟩]

/-- Part 2 of the register map. -/
def regRows2 : List RegRow :=
  [⟨1, 0x100120, 0x10000, 16, 0x0, 1, 0, 0, 0, 0, 0, 0⟩,
   ⟨2, 0x100124, 0x10000, 16, 0x0, 1, 0, 0, 0, 0, 0, 0⟩,
   ⟨1, 0x100200, 0x10000, 16, 0x0, 1, 0, 0xFFFFF000, 0, 0, 0, 0⟩,
   ⟨2, 0x100204, 0x10000, 16, 0x0, 1, 0, 0xFFFFFFFF, 0, 0, 0, 0⟩,
   ⟨1, 0x100218, 0x10000, 16, 0x0, 1, 0, 0xFFFFF000, 0, 0, 0, 0⟩,
   ⟨2, 0x10021C, 0x10000, 16, 0x0, 1, 0, 0xFFFFFFFF, 0, 0, 0, 0⟩,
   ⟨1, 0x100228, 0x10000, 16, 0x0, 1, 0, 0xFFFFF000, 0, 0, 0, 0⟩,
   ⟨2, 0x10022C, 0x10000, 16, 0x0, 1, 0, 0xFFFFFFFF, 0, 0, 0, 0⟩,
   ⟨0, 0x100208, 0x10000, 16, 0x0, 1, 0, 0x3FFFFFF, 0, 0, 0, 0⟩,
   ⟨0, 0x10020C, 0x10000, 16, 0x0, 1, 0, 0, 0, 0, 0, 0⟩,
   ⟨0, 0x100210, 0x10000, 16, 0x0, 1, 0x4010004, 0xFFFFFFFF, 0, 0, 0, 0⟩,
   ⟨0, 0x100220, 0x10000, 16, 0x0, 1, 0, 0x7FFFF, 0, 0, 0, 0⟩,
   ⟨0, 0x100224, 0x10000, 16, 0x0, 1, 0, 0, 0, 0, 0, 0⟩,
   ⟨0, 0x100230, 0x10000, 16, 0x0, 1, 0x4B100040, 0xFFFFFFFF, 0, 0, 0, 0⟩,
   ⟨0, 0x100234, 0x10000, 16, 0x0, 1, 0, 0, 0, 0, 0xFFFFFF00, 0⟩,
   ⟨1, 0x100300, 0x10000, 16, 0x0, 1, 0, 0xFFFFF000, 0, 0, 0, 0⟩,
   ⟨2, 0x100304, 0x10000, 16, 0x0, 1, 0, 0xFFFFFFFF, 0, 0, 0, 0⟩,
   ⟨0, 0x100308, 0x10000, 16, 0x0, 1, 0, 0xFFFFFF, 0, 0, 0, 0⟩,
   ⟨0, 0x10030C, 0x10000, 16, 0x0, 1, 0, 0, 0, 0, 0, 0⟩,
   ⟨0, 0x10031C, 0x10000, 16, 0x0, 1, 0, 0, 0, 0, 0, 0⟩]

/-- Part 3 of the register map. -/
def regRows3 : List RegRow :=
  [⟨0, 0x100320, 0x10000, 16, 0x0, 1, 0, 0, 0, 0, 0, 0⟩,
   ⟨0, 0x100310, 0x10000, 16, 0x0, 1, 0, 0x3FFFF7F, 0, 0, 0, 0⟩,
   ⟨0, 0x100314, 0x10000, 16, 0x0, 1, 0, 0xFFFFFFFF, 0, 0, 0, 0⟩,
   ⟨0, 0x100318, 0x10000, 16, 0x0, 1, 0, 0, 0, 0, 0, 0⟩,
   ⟨0, 0x800000, 0x4, 32, 0x0, 1, 0, 0, 0, 0, 0, 0⟩,
   ⟨1, 0x100328, 0x10000, 16, 0x0, 1, 0, 0, 0, 0, 0, 0⟩,
   ⟨2, 0x10032C, 0x10000, 16, 0x0, 1, 0, 0, 0, 0, 0, 0⟩,
   ⟨0, 0x100340, 0x10000, 16, 0x0, 1, 0x64, 0x7F, 0, 0, 0, 0⟩,
   ⟨0, 0x100344, 0x10000, 16, 0x0, 1, 0x1000, 0x3FFFF, 0, 0, 0, 0⟩,
   ⟨0, 0x100348, 0x10000, 16, 0x0, 1, 0, 0x3FFFFF, 0, 0, 0, 0⟩,
   ⟨0, 0x10034C, 0x10000, 16, 0x0, 1, 0, 0x80000000, 0, 0, 0, 0⟩,
   ⟨0, 0x100350, 0x10000, 16, 0x0, 1, 0, 0xFFFFFFFF, 0, 0, 0, 0⟩,
   ⟨1, 0x100358, 0x10000, 16, 0x0, 1, 0, 0, 0, 0, 0, 0⟩,
   ⟨2, 0x10035C, 0x10000, 16, 0x0, 1, 0, 0, 0, 0, 0, 0⟩,
   ⟨0, 0x100360, 0x10000, 16, 0x0, 1, 0, 0, 0, 0, 0xFFFFFFFF, 0⟩,
   ⟨0, 0x100400, 0x10000, 16, 0x0, 1, 0, 0x1FFF, 0, 0, 0, 0⟩,
   ⟨0, 0x100404, 0x10000, 16, 0x0, 1, 0xFFFFFFFF, 0xFFFFFFFF, 0, 0, 0, 0⟩,
   ⟨0, 0x100408, 0x10000, 16, 0x0, 1, 0, 0, 0, 0, 0xFFFFFFFF, 0⟩,
   ⟨0, 0x10040C, 0x10000, 16, 0x0, 1, 0, 0, 0, 0, 0xFFFFFFFF, 0⟩,
   ⟨0, 0x100410, 0x10000, 16, 0x0, 1, 0, 0, 0, 0, 0xFFFFFFFF, 0⟩]

/-- Part 4 of the register map. -/
def regRows4 : List RegRow :=
  [⟨0, 0x100414, 0x10000, 16, 0x0, 1, 0, 0, 0, 0, 0xFFFFFFFF, 0⟩,
   ⟨1, 0x100420, 0x10000, 16, 0x0, 1, 0, 0, 0, 0, 0, 0⟩,
   ⟨2, 0x100424, 0x10000, 16, 0x0, 1, 0, 0, 0, 0, 0, 0⟩,
   ⟨0, 0x100428, 0x10000, 16, 0x0, 1, 0, 0, 0, 0, 0xFFFFFFFF, 0⟩,
   ⟨0, 0x10042C, 0x10000, 16, 0x0, 1, 0, 0, 0, 0, 0xFFFFFFFF, 0⟩,
   ⟨1, 0x100430, 0x10000, 16, 0x0, 1, 0, 0, 0, 0, 0, 0⟩,
   ⟨2, 0x100434, 0x10000, 16, 0x0, 1, 0, 0, 0, 0, 0, 0⟩,
   ⟨1, 0x100438, 0x10000, 16, 0x0, 1, 0, 0, 0, 0, 0, 0⟩,
   ⟨2, 0x10043C, 0x10000, 16, 0x0, 1, 0, 0, 0, 0, 0, 0⟩,
   ⟨0, 0x100440, 0x10000, 16, 0x0, 1, 0x40000, 0xF0000, 0, 0, 0, 0⟩,
   ⟨0, 0x100500, 0x10000, 16, 0x0, 1, 0, 0xFF, 0, 0, 0, 0⟩,
   ⟨0, 0x100504, 0x10000, 16, 0x0, 1, 0, 0, 0, 0, 0xFFFFFFFF, 0⟩,
   ⟨0, 0x100508, 0x10000, 16, 0x0, 1, 0, 0, 0, 0, 0xFFFFFFFF, 0⟩,
   ⟨0, 0x10050C, 0x10000, 16, 0x0, 1, 0, 0, 0, 0, 0xFFFFFFFF, 0⟩,
   ⟨0, 0x100510, 0x10000, 16, 0x0, 1, 0, 0, 0, 0, 0xFFFFFFFF, 0⟩,
   ⟨0, 0x100600, 0x10000, 16, 0x0, 1, 0, 0x7FF, 0, 0, 0, 0⟩,
   ⟨0, 0x100604, 0x10000, 16, 0x0, 1, 0x100000, 0xFFFFFFFF, 0, 0, 0, 0⟩,
   ⟨0, 0x100608, 0x10000, 16, 0x0, 1, 0, 0, 0x80000000, 0, 0, 0⟩,
   ⟨0, 0x10060C, 0x10000, 16, 0x0, 1, 0, 0, 0, 0, 0, 0⟩,
   ⟨1, 0x100610, 0x10000, 16, 0x0, 1, 0, 0, 0, 0, 0, 0⟩]

/-- Part 5 of the register map. -/
def regRows5 : List RegRow :=
  [⟨2, 0x100614, 0x10000, 16, 0x0, 1, 0, 0, 0, 0, 0, 0⟩,
   ⟨0, 0x100618, 0x10000, 16, 0x0, 1, 0, 0, 0, 0, 0, 0⟩,
   ⟨0, 0x10061C, 0x10000, 16, 0x0, 1, 0, 0, 0, 0, 0xFFFFFFFF, 0⟩,
   ⟨0, 0x100620, 0x10000, 16, 0x10, 4, 0, 0xFFFFFFFF, 0, 0, 0, 0⟩,
   ⟨0, 0x100624, 0x10000, 16, 0x10, 4, 0, 0xFFFFFFFF, 0, 0, 0, 0⟩,
   ⟨0, 0x100628, 0x10000, 16, 0x10, 4, 0, 0xFFFFFFFF, 0, 0, 0, 0⟩,
   ⟨0, 0x400000, 0x10000, 64, 0x4, 16, 0x10, 0x1F, 0, 0, 0, 0⟩,
   ⟨0, 0x400040, 0x10000, 64, 0x0, 1, 0, 0, 0x80000000, 0, 0, 0⟩,
   ⟨0, 0x400044, 0x10000, 64, 0x0, 1, 0, 0, 0, 0, 0xFFFFFFFF, 0⟩,
   ⟨0, 0x40004C, 0x10000, 64, 0x0, 1, 0, 0, 0, 0, 0xFFFFFFFF, 0⟩,
   ⟨0, 0x400050, 0x10000, 64, 0x0, 1, 0, 0, 0, 0, 0xFFFFFFFF, 0⟩,
   ⟨0, 0x40005C, 0x10000, 64, 0x0, 1, 0, 0, 0, 0, 0xFFFFFFFF, 0⟩,
   ⟨0, 0x400048, 0x10000, 64, 0x0, 1, 0, 0, 0x80000000, 0, 0, 0⟩,
   ⟨0, 0x400054, 0x10000, 64, 0x0, 1, 0, 0, 0x80000000, 0, 0, 0⟩,
   ⟨0, 0x400058, 0x10000, 64, 0x0, 1, 0x3E8, 0xFFFF, 0, 0, 0, 0⟩,
   ⟨0, 0x800080, 0x0, 1, 0x0, 1, 0, 0, 0, 0, 0xFFFFFFFF, 0⟩,
   ⟨0, 0x800084, 0x0, 1, 0x0, 1, 0, 0, 0, 0, 0xFFFFFFFF, 0⟩,
   ⟨0, 0x800088, 0x0, 1, 0x0, 1, 0, 0, 0, 0, 0xFFFFFFFF, 0⟩,
   ⟨0, 0x80008C, 0x0, 1, 0x0, 1, 0, 0, 0x80000000, 0, 0, 0⟩,
   ⟨0, 0x100700, 0x10000, 16, 0x0, 1, 0, 0x80000000, 0, 0, 0, 0⟩]

/-- Part 6 of the register map. -/
def regRows6 : List RegRow :=
  [⟨0, 0x100704, 0x10000, 16, 0x0, 1, 0, 0, 0, 0, 0xFFFFFFFF, 0⟩,
   ⟨0, 0x100708, 0x10000, 16, 0x0, 1, 0, 0, 0, 0, 0xFFFFFFFF, 0⟩,
   ⟨0, 0x300, 0x0, 1, 0x0, 1, 0x3E8, 0xFFFF, 0, 0, 0, 0⟩,
   ⟨0, 0x304, 0x0, 1, 0x0, 1, 0, 0xFFFF, 0, 0, 0, 0⟩,
   ⟨0, 0x340, 0x4, 16, 0x0, 1, 0, 0xFFFF, 0, 0, 0, 0⟩,
   ⟨0, 0x308, 0x0, 1, 0x0, 1, 0, 0, 0xF, 0, 0, 0⟩,
   ⟨0, 0x30C, 0x0, 1, 0x0, 1, 0, 0xF, 0, 0, 0, 0⟩,
   ⟨1, 0x310, 0x0, 1, 0x0, 1, 0, 0, 0, 0, 0, 0⟩,
   ⟨2, 0x314, 0x0, 1, 0x0, 1, 0, 0, 0, 0, 0, 0⟩,
   ⟨0, 0x318, 0x0, 1, 0x0, 1, 0, 0, 0, 0, 0, 0⟩,
   ⟨0, 0x31C, 0x0, 1, 0x0, 1, 0, 0, 0, 0, 0xFFFFFFFF, 0⟩,
   ⟨1, 0x900000, 0x0, 1, 0x0, 1, 0, 0xFFE00000, 0, 0, 0, 0⟩,
   ⟨2, 0x900004, 0x0, 1, 0x0, 1, 0, 0xFFFFFFFF, 0, 0, 0, 0⟩,
   ⟨0, 0x900008, 0x0, 1, 0x0, 1, 0, 0x7F, 0, 0, 0, 0⟩,
   ⟨0, 0x100800, 0x10000, 16, 0x0, 1, 0x3C5A4B, 0x8FFFFFFF, 0, 0, 0, 0⟩,
   ⟨0, 0x100804, 0x10000, 16, 0x0, 1, 0, 0x1FFFFF, 0, 0, 0, 0⟩,
   ⟨0, 0x100808, 0x10000, 16, 0x0, 1, 0, 0, 0, 0, 0, 0⟩,
   ⟨0, 0x10080C, 0x10000, 16, 0x0, 1, 0, 0, 0, 0, 0, 0⟩,
   ⟨0, 0x100810, 0x10000, 16, 0x0, 1, 0, 0, 0, 0, 0, 0⟩,
   ⟨1, 0x100814, 0x10000, 16, 0x0, 1, 0, 0, 0, 0, 0, 0⟩]

/-- Part 7 of the register map. -/
def regRows7 : List RegRow :=
  [⟨2, 0x100818, 0x10000, 16, 0x0, 1, 0, 0, 0, 0, 0, 0⟩,
   ⟨0, 0x10081C, 0x10000, 16, 0x0, 1, 0, 0, 0, 0, 0xFFFFFFFF, 0⟩,
   ⟨0, 0x100820, 0x10000, 16, 0x0, 1, 0, 0, 0, 0, 0xFFFFFFFF, 0⟩,
   ⟨1, 0x900010, 0x0, 1, 0x0, 1, 0, 0xFFE00000, 0, 0, 0, 0⟩,
   ⟨2, 0x900014, 0x0, 1, 0x0, 1, 0, 0xFFFFFFFF, 0, 0, 0, 0⟩,
   ⟨0, 0x900018, 0x0, 1, 0x0, 1, 0, 0x3F, 0, 0, 0, 0⟩,
   ⟨0, 0x90001C, 0x0, 1, 0x0, 1, 0, 0, 0, 0, 0, 0⟩,
   ⟨0, 0x900020, 0x0, 1, 0x0, 1, 0x3A0007, 0xFF00FF, 0, 0, 0, 0⟩,
   ⟨0, 0x900024, 0x0, 1, 0x0, 1, 0xC8, 0xFFFF, 0, 0, 0, 0⟩,
   ⟨0, 0x901000, 0x100, 16, 0x0, 1, 0, 0, 0, 0, 0, 0⟩,
   ⟨0, 0x901004, 0x100, 16, 0x0, 1, 0, 0, 0, 0, 0, 0⟩,
   ⟨0, 0x901008, 0x100, 16, 0x0, 1, 0, 0, 0, 0, 0, 0⟩,
   ⟨0, 0x90100C, 0x100, 16, 0x0, 1, 0, 0, 0, 0, 0, 0⟩,
   ⟨0, 0x901010, 0x100, 16, 0x0, 1, 0, 0x80FF00FF, 0, 0, 0, 0⟩,
   ⟨0, 0x901014, 0x100, 16, 0x0, 1, 0x7F80, 0xFFFF, 0, 0, 0, 0⟩,
   ⟨0, 0x901018, 0x100, 16, 0x0, 1, 0, 0, 0, 0, 0xFFFFFFFF, 0⟩,
   ⟨0, 0x90101C, 0x100, 16, 0x0, 1, 0, 0, 0, 0, 0xFFFFFFFF, 0⟩,
   ⟨0, 0x901020, 0x100, 16, 0x0, 1, 0x2, 0x2, 0, 0, 0, 0xFF000001⟩,
   ⟨0, 0x100900, 0x10000, 16, 0x0, 1, 0, 0x80000000, 0, 0, 0, 0⟩,
   ⟨0, 0x100904, 0x10000, 16, 0x0, 1, 0, 0, 0, 0, 0, 0⟩]

/-- Part 8 of the register map. -/
def regRows8 : List RegRow :=
  [⟨0, 0x100908, 0x10000, 16, 0x0, 1, 0, 0, 0, 0, 0, 0⟩,
   ⟨0, 0x10090C, 0x10000, 16, 0x0, 1, 0, 0, 0, 0, 0, 0⟩,
   ⟨0, 0x10F000, 0x10000, 16, 0x0, 1, 0, 0, 0, 0, 0, 0xC0000000⟩,
   ⟨0, 0x10F004, 0x10000, 16, 0x0, 1, 0, 0, 0x40000000, 0, 0, 0⟩,
   ⟨0, 0x10F008, 0x10000, 16, 0x0, 1, 0, 0, 0, 0, 0, 0⟩,
   ⟨0, 0x10F00C, 0x10000, 16, 0x0, 1, 0x80000000, 0, 0, 0, 0, 0⟩,
   ⟨0, 0x10F010, 0x10000, 16, 0x0, 1, 0, 0x8000FFFF, 0, 0, 0, 0⟩,
   ⟨0, 0x10F014, 0x10000, 16, 0x0, 1, 0, 0xFFFF, 0, 0, 0, 0⟩,
   ⟨0, 0x10F018, 0x10000, 16, 0x0, 1, 0, 0xFFFF, 0, 0, 0, 0⟩,
   ⟨0, 0x10F01C, 0x10000, 16, 0x0, 1, 0, 0xFFFF, 0, 0, 0, 0⟩,
   ⟨1, 0x10F020, 0x10000, 16, 0x0, 1, 0, 0xFFFFFFFF, 0, 0, 0, 0⟩,
   ⟨2, 0x10F024, 0x10000, 16, 0x0, 1, 0, 0xFFFFFFFF, 0, 0, 0, 0⟩,
   ⟨1, 0x10F040, 0x10000, 16, 0x10, 8, 0, 0xFFFF0003, 0, 0, 0, 0⟩,
   ⟨2, 0x10F044, 0x10000, 16, 0x10, 8, 0, 0xFFFFFFFF, 0, 0, 0, 0⟩,
   ⟨0, 0x10F048, 0x10000, 16, 0x10, 8, 0, 0xFFFFFFFF, 0, 0, 0, 0⟩,
   ⟨0, 0x10F110, 0x10000, 16, 0x0, 1, 0, 0, 0, 0, 0, 0⟩,
   ⟨0, 0x10F114, 0x10000, 16, 0x0, 1, 0, 0, 0, 0, 0, 0⟩,
   ⟨0, 0x10F118, 0x10000, 16, 0x0, 1, 0, 0, 0, 0, 0, 0⟩,
   ⟨0, 0x10F11C, 0x10000, 16, 0x0, 1, 0, 0, 0, 0, 0, 0⟩,
   ⟨1, 0x10F120, 0x10000, 16, 0x0, 1, 0, 0, 0, 0, 0, 0⟩]

/-- Part 9 of the register map. -/
def regRows9 : List RegRow :=
  [⟨2, 0x10F124, 0x10000, 16, 0x0, 1, 0, 0, 0, 0, 0, 0⟩,
   ⟨1, 0x10F140, 0x10000, 16, 0x10, 8, 0, 0, 0, 0, 0, 0⟩,
   ⟨2, 0x10F144, 0x10000, 16, 0x10, 8, 0, 0, 0, 0, 0, 0⟩,
   ⟨0, 0x10F148, 0x10000, 16, 0x10, 8, 0, 0, 0, 0, 0, 0⟩,
   ⟨0, 0xA00000, 0x4, 8, 0x0, 1, 0, 0, 0, 0, 0, 0⟩,
   ⟨0, 0xA00040, 0x4, 16, 0x0, 1, 0, 0, 0, 0, 0, 0xFFFFFFFF⟩,
   ⟨0, 0xA00084, 0x0, 1, 0x0, 1, 0, 0xFFFFFFFF, 0, 0, 0, 0⟩,
   ⟨0, 0xA00080, 0x0, 1, 0x0, 1, 0, 0, 0, 0, 0, 0xFF800000⟩,
   ⟨0, 0xA00088, 0x0, 1, 0x0, 1, 0, 0, 0, 0, 0, 0⟩,
   ⟨0, 0xA00100, 0x20, 16, 0x0, 1, 0, 0, 0, 0, 0, 0⟩,
   ⟨0, 0xA00104, 0x20, 16, 0x0, 1, 0, 0, 0, 0, 0, 0⟩,
   ⟨0, 0xA00108, 0x20, 16, 0x0, 1, 0, 0, 0, 0, 0, 0⟩,
   ⟨0, 0xA0010C, 0x20, 16, 0x0, 1, 0, 0, 0, 0, 0, 0⟩,
   ⟨0, 0xA00110, 0x20, 16, 0x0, 1, 0, 0, 0, 0, 0, 0⟩,
   ⟨0, 0xA00114, 0x20, 16, 0x0, 1, 0x2710, 0xFFFF, 0, 0, 0, 0⟩,
   ⟨0, 0xA00300, 0x0, 1, 0x0, 1, 0, 0xFFFF, 0, 0, 0, 0⟩,
   ⟨0, 0xA00304, 0x0, 1, 0x0, 1, 0, 0, 0, 0, 0xFFFF, 0⟩,
   ⟨0, 0x400, 0x0, 1, 0x0, 1, 0, 0, 0, 0, 0, 0⟩,
   ⟨0, 0x404, 0x0, 1, 0x0, 1, 0, 0, 0, 0, 0, 0x80000000⟩,
   ⟨0, 0x408, 0x0, 1, 0x0, 1, 0, 0, 0, 0, 0, 0⟩]

/-- Part 10 of the register map. -/
def regRows10 : List RegRow :=
  [⟨0, 0x40C, 0x0, 1, 0x0, 1, 0, 0, 0, 0, 0, 0⟩,
   ⟨0, 0x410, 0x0, 1, 0x0, 1, 0xFFFF0000, 0, 0, 0, 0, 0⟩,
   ⟨0, 0x414, 0x0, 1, 0x0, 1, 0, 0, 0, 0, 0, 0⟩,
   ⟨0, 0x418, 0x0, 1, 0x0, 1, 0, 0, 0, 0, 0, 0⟩,
   ⟨0, 0x41C, 0x0, 1, 0x0, 1, 0, 0, 0, 0, 0, 0⟩,
   ⟨0, 0x440, 0x0, 1, 0x0, 1, 0, 0xFFFFFFF, 0, 0, 0, 0⟩,
   ⟨0, 0x444, 0x0, 1, 0x0, 1, 0, 0, 0, 0, 0, 0xFF00007F⟩,
   ⟨0, 0x448, 0x0, 1, 0x0, 1, 0, 0, 0, 0, 0, 0⟩,
   ⟨0, 0x480, 0x4, 16, 0x0, 1, 0, 0xFFFFFFFF, 0, 0, 0, 0⟩,
   ⟨0, 0x500, 0x0, 1, 0x0, 1, 0, 0, 0x40000000, 0, 0, 0⟩,
   ⟨0, 0x504, 0x0, 1, 0x0, 1, 0, 0, 0, 0, 0, 0x8FFF0000⟩,
   ⟨0, 0x508, 0x0, 1, 0x0, 1, 0, 0, 0, 0, 0xFFFFFFFF, 0⟩,
   ⟨0, 0x600, 0x0, 1, 0x0, 1, 0, 0, 0x10000000, 0, 0, 0⟩,
   ⟨0, 0x604, 0x0, 1, 0x0, 1, 0, 0, 0, 0, 0, 0⟩,
   ⟨0, 0x608, 0x0, 1, 0x0, 1, 0, 0, 0, 0, 0, 0x80000000⟩,
   ⟨0, 0x60C, 0x0, 1, 0x0, 1, 0, 0, 0, 0, 0xFFFFFFFF, 0⟩,
   ⟨0, 0x610, 0x0, 1, 0x0, 1, 0, 0, 0, 0, 0, 0⟩,
   ⟨0, 0x620, 0x4, 8, 0x0, 1, 0, 0, 0, 0, 0, 0⟩,
   ⟨0, 0xC00, 0x4, 256, 0x0, 1, 0, 0, 0, 0, 0, 0⟩,
   ⟨0, 0x1000, 0x0, 1, 0x0, 1, 0, 0, 0, 0, 0, 0xFF000001⟩]

/-- Part 11 of the register map. -/
def regRows11 : List RegRow :=
  [⟨0, 0x1004, 0x0, 1, 0x0, 1, 0x10000001, 0, 0x7F, 0, 0, 0⟩,
   ⟨0, 0x1008, 0x0, 1, 0x0, 1, 0x64, 0x8000FFFF, 0, 0, 0, 0⟩,
   ⟨1, 0x1010, 0x0, 1, 0x0, 1, 0, 0, 0, 0xFFFFFFFF, 0, 0⟩,
   ⟨2, 0x1014, 0x0, 1, 0x0, 1, 0, 0, 0, 0xFFFFFFFF, 0, 0⟩,
   ⟨0, 0x1018, 0x0, 1, 0x0, 1, 0, 0, 0, 0xF0F, 0, 0⟩,
   ⟨0, 0x101C, 0x0, 1, 0x0, 1, 0, 0, 0x80000000, 0, 0, 0⟩,
   ⟨0, 0x1020, 0x0, 1, 0x0, 1, 0, 0, 0, 0, 0xFFFFFFFF, 0⟩,
   ⟨1, 0x1028, 0x0, 1, 0x0, 1, 0, 0xFC000000, 0, 0, 0, 0⟩,
   ⟨2, 0x102C, 0x0, 1, 0x0, 1, 0, 0xFFFFFFFF, 0, 0, 0, 0⟩,
   ⟨0, 0x1030, 0x0, 1, 0x0, 1, 0, 0xFF, 0, 0, 0, 0⟩,
   ⟨0, 0x1040, 0x4, 16, 0x0, 1, 0, 0xFFFFFFFF, 0, 0, 0, 0⟩,
   ⟨0, 0x100A0C, 0x10000, 16, 0x0, 1, 0, 0, 0, 0, 0, 0⟩,
   ⟨0, 0x1100, 0x0, 1, 0x0, 1, 0x78, 0xFF, 0, 0, 0, 0⟩,
   ⟨0, 0x1104, 0x0, 1, 0x0, 1, 0, 0, 0x8000000, 0, 0, 0⟩,
   ⟨0, 0x1108, 0x0, 1, 0x0, 1, 0x553243E8, 0xFFFFFFFF, 0, 0, 0, 0⟩,
   ⟨0, 0x110C, 0x0, 1, 0x0, 1, 0x2000040, 0xFFF0FFF, 0, 0, 0, 0⟩,
   ⟨1, 0x1110, 0x0, 1, 0x0, 1, 0, 0xFFFFFFFF, 0, 0, 0, 0⟩,
   ⟨2, 0x1114, 0x0, 1, 0x0, 1, 0, 0xFFFFFFFF, 0, 0, 0, 0⟩,
   ⟨0, 0x1118, 0x0, 1, 0x0, 1, 0, 0x7F, 0, 0, 0, 0⟩,
   ⟨1, 0x1120, 0x0, 1, 0x0, 1, 0, 0, 0, 0, 0, 0⟩]

/-- Part 12 of the register map. -/
def regRows12 : List RegRow :=
  [⟨2, 0x1124, 0x0, 1, 0x0, 1, 0, 0, 0, 0, 0, 0⟩,
   ⟨0, 0x1128, 0x0, 1, 0x0, 1, 0, 0, 0, 0, 0, 0⟩,
   ⟨0, 0x1200, 0x10, 16, 0x0, 1, 0x80000, 0x800F0F00, 0, 0, 0, 0⟩,
   ⟨0, 0x1204, 0x10, 16, 0x0, 1, 0xC000FFF, 0, 0, 0, 0, 0⟩,
   ⟨0, 0x1208, 0x10, 16, 0x0, 1, 0, 0, 0, 0, 0xFFFFFFFF, 0⟩,
   ⟨0, 0x100A00, 0x10000, 16, 0x0, 1, 0x8100140A, 0x8FFFFFFF, 0, 0, 0, 0⟩,
   ⟨0, 0x100A04, 0x10000, 16, 0x0, 1, 0, 0xFFFF, 0, 0, 0, 0⟩,
   ⟨0, 0x100A08, 0x10000, 16, 0x0, 1, 0, 0, 0, 0, 0xFFFFFFFF, 0⟩,
   ⟨0, 0x1300, 0x0, 1, 0x0, 1, 0x1F40A00, 0xFFFFFF00, 0, 0, 0, 0⟩,
   ⟨0, 0x1304, 0x0, 1, 0x0, 1, 0, 0, 0, 0, 0, 0⟩,
   ⟨1, 0x1308, 0x0, 1, 0x0, 1, 0, 0xFE000000, 0, 0, 0, 0⟩,
   ⟨2, 0x130C, 0x0, 1, 0x0, 1, 0, 0xFFFFFFFF, 0, 0, 0, 0⟩,
   ⟨1, 0x1310, 0x0, 1, 0x0, 1, 0, 0xFFFF0000, 0, 0, 0, 0⟩,
   ⟨2, 0x1314, 0x0, 1, 0x0, 1, 0, 0xFFFFFFFF, 0, 0, 0, 0⟩,
   ⟨1, 0x1318, 0x0, 1, 0x0, 1, 0, 0xFFFF0000, 0, 0, 0, 0⟩,
   ⟨2, 0x131C, 0x0, 1, 0x0, 1, 0, 0xFFFFFFFF, 0, 0, 0, 0⟩,
   ⟨1, 0x1328, 0x0, 1, 0x0, 1, 0, 0, 0, 0, 0, 0⟩,
   ⟨2, 0x132C, 0x0, 1, 0x0, 1, 0, 0, 0, 0, 0, 0⟩,
   ⟨0, 0x1320, 0x0, 1, 0x0, 1, 0, 0, 0, 0, 0xFFFFFFFF, 0⟩,
   ⟨0, 0x1324, 0x0, 1, 0x0, 1, 0, 0, 0, 0, 0xFFFFFFFF, 0⟩]

/-- Part 13 of the register map. -/
def regRows13 : List RegRow :=
  [⟨0, 0x1340, 0x0, 1, 0x0, 1, 0x820003E8, 0xFFFFFFFF, 0, 0, 0, 0⟩,
   ⟨0, 0x1344, 0x0, 1, 0x0, 1, 0x83002710, 0xFFFFFFFF, 0, 0, 0, 0⟩,
   ⟨0, 0x1348, 0x0, 1, 0x0, 1, 0x83002710, 0xFFFFFFFF, 0, 0, 0, 0⟩,
   ⟨0, 0x134C, 0x0, 1, 0x0, 1, 0x82002710, 0xFFFFFFFF, 0, 0, 0, 0⟩,
   ⟨0, 0x1350, 0x0, 1, 0x0, 1, 0x810003E8, 0xFFFFFFFF, 0, 0, 0, 0⟩,
   ⟨0, 0x1354, 0x0, 1, 0x0, 1, 0x830003E8, 0xFFFFFFFF, 0, 0, 0, 0⟩,
   ⟨0, 0x1358, 0x0, 1, 0x0, 1, 0x810003E8, 0xFFFFFFFF, 0, 0, 0, 0⟩,
   ⟨0, 0x1360, 0x0, 1, 0x0, 1, 0, 0, 0xFF, 0, 0, 0⟩,
   ⟨0, 0x1364, 0x0, 1, 0x0, 1, 0xFF, 0xFF, 0, 0, 0, 0⟩,
   ⟨0, 0x1368, 0x0, 1, 0x0, 1, 0, 0, 0x80000000, 0, 0, 0⟩,
   ⟨0, 0xB00000, 0x0, 1, 0x0, 1, 0, 0xE0000000, 0, 0, 0, 0⟩,
   ⟨0, 0xB00004, 0x0, 1, 0x0, 1, 0x10, 0xFFFF001F, 0, 0, 0, 0⟩,
   ⟨0, 0xB00010, 0x0, 1, 0x0, 1, 0, 0xFFFFFFFF, 0, 0, 0, 0⟩,
   ⟨1, 0xB00008, 0x0, 1, 0x0, 1, 0, 0xFFFF0000, 0, 0, 0, 0⟩,
   ⟨2, 0xB0000C, 0x0, 1, 0x0, 1, 0, 0xFFFFFFFF, 0, 0, 0, 0⟩,
   ⟨0, 0xB00014, 0x0, 1, 0x0, 1, 0, 0, 0, 0, 0, 0⟩,
   ⟨0, 0xB00018, 0x0, 1, 0x0, 1, 0, 0, 0, 0, 0xFFFFFFFF, 0⟩,
   ⟨0, 0xB0001C, 0x0, 1, 0x0, 1, 0, 0, 0x40000000, 0, 0, 0⟩,
   ⟨0, 0xB00020, 0x0, 1, 0x0, 1, 0, 0xFFFFFFFF, 0, 0, 0, 0⟩,
   ⟨0, 0xB00024, 0x0, 1, 0x0, 1, 0, 0, 0, 0, 0, 0xFFFFFFFF⟩]

/-- Part 14 of the register map. -/
def regRows14 : List RegRow :=
  [⟨1, 0xB00028, 0x0, 1, 0x0, 1, 0, 0, 0, 0, 0, 0⟩,
   ⟨2, 0xB0002C, 0x0, 1, 0x0, 1, 0, 0, 0, 0, 0, 0⟩,
   ⟨0, 0xB00040, 0x0, 1, 0x0, 1, 0, 0x80000000, 0, 0, 0, 0x40000000⟩,
   ⟨0, 0xB00080, 0x10, 8, 0x0, 1, 0, 0xFFFFC000, 0, 0, 0, 0⟩,
   ⟨1, 0xB00088, 0x10, 8, 0x0, 1, 0, 0, 0, 0, 0, 0⟩,
   ⟨2, 0xB0008C, 0x10, 8, 0x0, 1, 0, 0, 0, 0, 0, 0⟩]

/-- The whole register map. -/
def regRows : List RegRow :=
  regRows0 ++ regRows1 ++ regRows2 ++ regRows3 ++ regRows4 ++ regRows5 ++ regRows6 ++ regRows7 ++ regRows8 ++ regRows9 ++ regRows10 ++ regRows11 ++ regRows12 ++ regRows13 ++ regRows14

/-- Does the row hold the register at byte offset `off`? -/
def RegRow.at (r : RegRow) (off : Nat) : Bool :=
  if off < r.base then false
  else
    let d := off - r.base
    let i := if r.n1 ≤ 1 then 0 else d / r.s1
    let d1 := d - i * r.s1
    let j := if r.n2 ≤ 1 then 0 else d1 / r.s2
    i < r.n1 && j < r.n2 && d1 == j * r.s2

/-- The row of the register at `off`, none where no chapter names one (R6, R657). -/
def regRow? (off : Nat) : Option RegRow := regRows.find? (fun r => r.at off)

/-- The value of the register at `off` after PWR_ON (R10); a strap or fuse value reads 0 until boot loads it. -/
def regReset (off : Nat) : Word :=
  match regRow? off with
  | some r => BitVec.ofNat 32 r.rst
  | none => 0#32

/-- Bits [lo+len-1:lo] of a register or of any word. -/
def fld {w : Nat} (v : BitVec w) (lo len : Nat) : Nat := (v.toNat >>> lo) % 2 ^ len
/-- Bit `i`. -/
def bit {w : Nat} (v : BitVec w) (i : Nat) : Bool := v.getLsbD i
/-- Replace bits [lo+len-1:lo] by the low bits of `x`. -/
def setFld {w : Nat} (v : BitVec w) (lo len x : Nat) : BitVec w :=
  let m : BitVec w := BitVec.ofNat w ((2 ^ len - 1) <<< lo)
  (v &&& ~~~m) ||| (BitVec.ofNat w ((x % 2 ^ len) <<< lo))

end Sys2Proof.Machine
end

