-- ==== Sys2Proof/Machine/State.lean ====
section
/-! DEFINITION. Sys2Proof/Machine/State.lean: everything the spec gives the block, as plain data, with the queue of waiting
commands; the reasons a step can stop; and the block right after PWR_ON. -/
namespace Sys2Proof.Machine
open Sys2Proof

/-- The four states of a step domain (R38). -/
inductive SdState where
  | off
  | waiting
  | beat
  | timer
deriving DecidableEq, Repr

/-- MINSPACE.SPACE, WDOG.TIME and AVG as they stood before the writes of one AON cycle (R46, R48). -/
structure SdOld where
  /-- The AON cycle of the writes. -/
  cycle : Nat
  space : Nat
  wdog  : Nat
  avg   : Nat
deriving DecidableEq, Repr

/-- A step domain (R36 to R47). Its control, period and preset registers are in the register file. -/
structure StepDomain where
  /-- STATE (R38). -/
  st : SdState := .off
  /-- SOURCE as it was when ENABLE was set (R54): the internal step timer only. -/
  timerOnly : Bool := false
  /-- The step number (R39). -/
  step : BitVec 40 := 0#40
  /-- AON cycle of the beat that started the current step (R40). -/
  beatAt : Nat := 0
  /-- The period in force for the current step (R40). -/
  p : Word := 0x001E8480#32
  /-- The phase held while the domain is OFF (R38). -/
  heldPhase : Nat := 0
  /-- The last accepted beat was a real one with no passage through OFF or WAITING since (R41). -/
  realLast : Bool := false
  /-- Measured intervals since ENABLE was last set, newest first, at most 16 (R41). -/
  intervals : List Word := []
  /-- Synchronised level of the beat input (R55). -/
  level : Bool := false
  /-- STUCK (R45). -/
  stuck : Bool := false
  /-- AON cycle of the edge that began the running stuck measurement (R45, R676). -/
  riseAt : Option Nat := none
  /-- What the last written cycle's edges are still filtered with (R48). -/
  old : Option SdOld := none
deriving DecidableEq, Repr

/-- An entry in an intake FIFO: its submission index and its 64 bytes (R70, R94). -/
structure FifoEntry where
  index : Word
  bytes : List Byte
deriving DecidableEq, Repr

/-- A completion written and not yet read: its index, its slot's address, the op's TAG, and what the slot held before (R71). -/
structure CqWrite where
  index : Word
  addr  : Nat
  tag   : DWord
  old   : List Byte
deriving DecidableEq, Repr

/-- A ring pair (R65 to R88). Its indices, bases and configuration are in the register file. -/
structure RingPair where
  /-- The intake FIFO, oldest entry first (R86). -/
  fifo : List FifoEntry := []
  /-- The PUSH entry being assembled, word by word (R69); words not written are zero. -/
  push : Vector Word 16 := Vector.replicate 16 0#32
  /-- PRT_PUSH15 writes whose handshake is held because the FIFO is full, oldest first (R69). -/
  pushHeld : List Word := []
  /-- MODE, SQ_SIZE, CQ_SIZE and both bases as they were when ENABLE was last set (R73). -/
  mode   : Bool := false
  sqSize : Nat := 0
  cqSize : Nat := 0
  sqBase : DWord := 0#64
  cqBase : DWord := 0#64
  /-- SQ fetching stopped by a failed read until the next tail write (R68). -/
  fetchStopped : Bool := false
  /-- The last 16 values written to PRT_LREADY, newest first (R84). -/
  lready : List Word := []
  /-- Flushed entries whose CANCELLED completion waits for CQ space (R87). -/
  cancelled : List FifoEntry := []
  /-- A completion waits for CQ space (R71). -/
  cqStall : Bool := false
  /-- XOFF (R86). -/
  xoff : Bool := false
  /-- AON cycle of the last write to PRT_CQ_HEAD (R83). -/
  headAt : Nat := 0
  /-- AON cycles at which the unread completions were written, oldest first (R83). -/
  unread : List Nat := []
  /-- The unread completions with what a failed write leaves in their slots (R71). -/
  written : List CqWrite := []
  /-- A COAL_TIMER_EXPIRY has come for the oldest unread completion (R83). -/
  coalDue : Bool := false
deriving DecidableEq, Repr

/-- A version of an object that something holds: object ID and version number (R181 to R183). -/
structure Bound where
  id  : Word
  ver : Nat
deriving DecidableEq, Repr

/-- The four states of an op (section on abort and cancel of 03): a complete op holds no context. -/
inductive OpState where
  | queued
  | ready
  | past
deriving DecidableEq, Repr

/-- A step item of a STEP_BATCH as the op carries it (R106, R107), with how far its step has come. -/
inductive ItemPhase where
  | waiting
  | drawn
  | done
deriving DecidableEq, Repr

/-- One entry of the selection (R339): a token and the FP32 bits of its value. -/
structure Cand where
  tok : Nat
  val : Word
deriving DecidableEq, Repr

/-- What a step's selection has found so far (R346 to R353). -/
structure Samp where
  /-- Row maximum m and row sum S_all at TOPK (R347). -/
  m     : Word
  sAll  : Word
  /-- LSE_REST of a candidate list, −∞ for a row (R334). -/
  lse   : Word
  /-- Allowed tokens, after R346. -/
  count : Nat
  /-- Ranks found, in key order, with their values at TOPK. -/
  ranks : List Cand
  /-- Entries of the list (R348). -/
  listLen : Nat
  /-- Extension passes run (R353). -/
  passes : Nat := 0
  inf    : Bool := false
  allneg : Bool := false
  isCand : Bool := false
  hook   : Bool := false
  /-- Tokens counted under R340. -/
  nans   : Nat := 0
  /-- The passes have ended at MAX_PASSES, and a list-domain TEMP met +∞ (R346, R353). -/
  limit  : Bool := false
  listInf : Bool := false
deriving DecidableEq, Repr

/-- A draw and what the record reports of it (R358 to R361). -/
structure Drawn where
  tok      : Nat
  logprob  : Word
  full     : Word
  alts     : List Cand
  /-- FLAGS without COMMITTED, and FLAGS2. -/
  flags    : Nat
  flags2   : Nat
  nans     : Nat
  /-- Row fetches (R357). -/
  fetches  : Nat
deriving DecidableEq, Repr

/-- A run-ahead result (R302): which tokens the next step allows, and the penalty list. -/
structure RunAhead where
  epoch   : DWord := 0#64
  /-- Offset of the class-mask record used, or the marker of R302. -/
  record  : Word := 0#32
  allow   : List Nat := []
  exclude : List Nat := []
  /-- A stack overflow cut the set (R291). -/
  ovf     : Bool := false
  penalty : List (Nat × Nat) := []
  /-- The status the next step fails with, when a check program faulted (R395). -/
  fault   : Option (BitVec 8) := none
  /-- Check units counted (R294). -/
  units   : Nat := 0
  /-- Bytes the result takes in the run-ahead area: a free value, since the spec gives no layout (R305, DESIGN CHOICE, log entry 2). -/
  size    : Nat := 0
deriving DecidableEq, Repr

/-- An item of a STEP_BATCH or of a MASK_BATCH. -/
structure BatchItem where
  session : Word := 0#32
  bytes   : List Byte := []
  phase   : ItemPhase := .waiting
  status  : BitVec 8 := 0#8
  /-- Units reserved in the account at readiness (R172). -/
  held    : Nat := 0
  /-- The reservation has been taken, in this account (R172). -/
  reserved : Bool := false
  acct   : Nat := 0
  /-- Clusters beside the home one that take a share of the step's split row (R22). -/
  shares : List Clu := []
  /-- The step has begun and holds strand exclusion (R130). -/
  begun   : Bool := false
  /-- The item is a replayed part of a pair (R624). -/
  replayed : Bool := false
  samp    : Option Samp := none
  /-- The run-ahead result the step uses, and the check units the step has counted (R295). -/
  ra      : Option RunAhead := none
  units   : Nat := 0
  /-- A draw pass is needed for this target (R355). -/
  draw    : Bool := false
  drawn   : Option Drawn := none
  /-- Masks written and slots given, and the first slot's offset (R312). -/
  done    : Nat := 0
  slots   : Nat := 0
  offset  : Nat := 0
  /-- Bytes of a mask slot as laid out (R312). -/
  slotSz  : Nat := 0
deriving DecidableEq, Repr

/-- A unit of text with where it came from: a code point or a raw byte (R386), its input offset and input width. -/
structure TU where
  u : Nat
  off : Nat
  w : Nat
deriving DecidableEq, Repr

/-- How an encode unit stands (R226). -/
inductive UnitSt where
  | waiting
  | running (t : Thread)
  | ended
deriving DecidableEq, Repr

/-- An encode segment and its unit (R223, R226): input extent, pieces (special token, or units of text, with the input start of each),
and its tokens once tokenised, each with its input start and whether it is a special match. -/
structure EncSeg where
  start  : Nat
  stop   : Nat
  pieces : List (Option Nat × Nat × List TU)
  st     : UnitSt := .waiting
  toks   : List (Nat × Nat × Bool) := []
  dropped : Nat := 0
  /-- The status of a MODEL program's fault in the unit (R395). -/
  fault  : Option (BitVec 8) := none
  /-- Forced cuts that follow one of its pieces (R224). -/
  forced : Nat := 0
deriving DecidableEq, Repr

/-- A chip-memory range of a partition (R519): first byte, bytes, writable. -/
structure MemRange where
  base : Nat
  size : Nat
  wr   : Bool
deriving DecidableEq, Repr

/-- A park key slot (R533). -/
structure KeySlot where
  epoch : Word
  key   : BitVec 512
  /-- The slot's CRC-32C over both, as it stands in the retained SRAM. -/
  crc   : Word
deriving DecidableEq, Repr

/-- What the program calls of an op or a run-ahead keep from its dispatch or start: strict mode and chip-memory ranges (R415, R521). -/
structure CallMode where
  strict : Bool := false
  rng    : List MemRange := []
deriving DecidableEq, Repr

/-- What a PARK takes at its readiness: warm-only mode, RO_FORCE and the current park key (R466, R510, R535). -/
structure ParkTerms where
  warmOnly : Bool := false
  roForce  : Bool := false
  key      : Option KeySlot := none
deriving DecidableEq, Repr

/-- A context of the dispatcher (R125): an op in flight. -/
structure OpCtx where
  id     : Ctx
  part   : Part
  ring   : Ring
  index  : Word
  entry  : List Byte
  /-- Order of dispatch over the whole block (R132). -/
  seq    : Nat
  /-- Permission generation bound at dispatch, and its chip-memory ranges (R521). -/
  gen    : Word := 0#32
  rng    : List MemRange := []
  st     : OpState := .queued
  /-- The entry passed its dispatch checks: what the op names is bound, and an object's load or retire is in flight for it. -/
  bound  : Bool := false
  /-- The final status, once decided (R13). -/
  status : Option (BitVec 8) := none
  res0   : DWord := 0#64
  res1   : Word := 0#32
  res2   : Word := 0#32
  /-- The logits of a STEP_BATCH are ready (R50, R107). -/
  logits : Bool := false
  /-- A pair replay took place (R625). -/
  replayed : Bool := false
  /-- AON cycle in which a program's fault ended the op (R402). -/
  faultAt : Option Nat := none
  /-- An ABORT found the op past its commit point (R136). -/
  abortLate : Bool := false
  /-- An ABORT waits for the media read of the op to end (R139). -/
  aborting : Bool := false
  /-- BUDGET_WAIT has been posted (R173). -/
  waitPosted : Bool := false
  /-- Units reserved by a SPEC_VERIFY, and the account (R172). -/
  held   : Nat := 0
  heldAcct : Nat := 0
  /-- Registers read at dispatch: PRT_MEM_CFG.STRICT (R415), PRT_SMP_CFG.MAX_PASSES (R364), PRT_PACK_CFG and PRT_PACK_PAD
  (R242). -/
  strict : Bool := false
  maxPasses : Nat := 0
  packRow : Nat := 0
  packPad : Nat := 0
  /-- The prefix handle table bound in handle mode (R249), and the asset key bound at dispatch (R246, R530, R531). -/
  table  : Option Bound := none
  akey   : Option (BitVec 256) := none
  /-- Versions the op holds (R183). -/
  binds  : List Bound := []
  /-- PRETOK and MODEL programs bound at dispatch (R389). -/
  pretok : Option Bound := none
  model  : Option Bound := none
  items  : List BatchItem := []
  /-- Pool pages the op has taken and not yet given to a strand (R167, R174). -/
  pages  : List Nat := []
  /-- Encode units of the op (R225, R226): its segments, those issued with the order number of the issue, those ended. -/
  segs   : Option (List EncSeg) := none
  /-- Forced cuts (R224). -/
  forced : Nat := 0
  /-- Status of a PRETOK program's fault, which struck the last segment (R395). -/
  encFault : Option (BitVec 8) := none
  /-- Order number of the op's last unit issue, 0 when it has had none (R226). -/
  lastUnit : Nat := 0
  /-- Cluster groups that the op's encode units ran on (R226, R608). -/
  ranOn  : List (Fin 16) := []
  /-- Clusters beside the home one that take shares of a SPEC_VERIFY's split rows (R22). -/
  shares : List Clu := []
  /-- A read of a cold copy for the op is in flight; what it gave: a readable copy's number (R458, R483). -/
  reading : Bool := false
  readOk : Option (Option Nat) := none
  /-- The history that a PREFILL_CHUNKS of the session's own takes (R245), and what a PARK reads (R466, R510, R535), as they were at
  readiness. -/
  hist   : Option (List Nat) := none
  terms  : ParkTerms := {}
  /-- Warm copies that the op's reads have found unreadable (R459). -/
  badWarm : List Nat := []
  /-- Cold copies that they have found unreadable (R453, R459). -/
  badCold : List Nat := []
  /-- Strand slot reserved at admission (R174). -/
  slot   : Option Nat := none
  /-- The parameter block, bias list and stop strings as SESSION_OPEN read them at dispatch (R151). -/
  params : List Byte := []
  bias   : List (Nat × Word) := []
  stops  : List (List Byte) := []
deriving DecidableEq, Repr

/-- A budget account (R169, R171). -/
structure Account where
  num : Nat
  balance : Int := 0
  rate : Nat := 0
  burst : Nat := 0
  wPrompt : Nat := 0
  wGen : Nat := 0
  wait : Bool := false
  set : Bool := false
  overdraft : Nat := 0
  held : Nat := 0
  rem : Nat := 0
deriving DecidableEq, Repr

/-- A section of an object (R179): its type, its placement priority and its bytes. -/
structure Sect where
  typ   : Nat
  prio  : Nat
  bytes : List Byte
deriving DecidableEq, Repr

/-- A held version of an object (R178 to R188). -/
structure ObjVersion where
  part  : Part
  id    : Word
  ver   : Nat
  kind  : Nat
  keySel : Nat
  /-- Bytes 0 to 127 of the plaintext (R178). -/
  hdr   : List Byte
  /-- Bytes 8 to 23 of the plaintext (R178). -/
  digest : BitVec 128
  sects : List Sect
  /-- The 64 KiB units of the backing region that hold the backing image, in order (R679). -/
  backUnits : List Nat := []
  /-- Bytes that an overlay set's resolved tables take in the backing (R214, R679). -/
  tabBytes : Nat := 0
  /-- The version is the live one of its ID (R181). -/
  live  : Bool
  /-- Versions this one holds: base vocabulary, overlays, check program, bound version (R183). -/
  binds : List Bound := []
  /-- The tokens that are live under the version, bit t for token t: the live bitset of R301. -/
  liveBits : Nat := 0
  /-- Placed sections: section number, VGS bank, first line in the bank, lines (R220). -/
  placed : List (Nat × Nat × Nat × Nat) := []
deriving DecidableEq, Repr

/-- An object ID that is not FREE, beside its versions (R181, R184, R185). -/
structure ObjId where
  part : Part
  id   : Word
  retiring : Bool := false
  /-- A load of the ID is in flight (dispatched, not complete). -/
  loading  : Bool := false
  /-- A retire of the ID is in flight. -/
  retireInFlight : Bool := false
  /-- The next version number. -/
  next : Nat := 1
  kind : Nat := 0
deriving DecidableEq, Repr

/-- A grammar stack frame (R285). -/
structure Frame where
  origin : Word
  ret    : Word
deriving DecidableEq, Repr

/-- The text stream of a strand (R257). -/
structure Stream where
  /-- No token has contributed a byte and no special token has been handled (R257). -/
  fresh : Bool := true
  consumed : Nat := 0
  started  : Bool := false
  stopped  : Bool := false
  /-- Bytes of an unfinished UTF-8 sequence (R259). -/
  utfPend  : List Byte := []
  /-- Text not yet released (R263). -/
  held     : List Byte := []
  /-- Tokens whose text is held, with the point of the oldest (R264 to R267). -/
  heldTokens : Nat := 0
  oldStep  : BitVec 40 := 0#40
  oldPhase : Nat := 0
deriving DecidableEq, Repr

/-- A resident strand (R146, R147, R153). The same content stands in the strand table and the pages of the pool. -/
structure Strand where
  part    : Part
  session : Word
  slot    : Nat
  domain  : Dom
  home    : Clu
  account : Nat
  vocab   : Bound
  cp      : Option Bound := none
  ovl     : Option Bound := none
  hook    : Option Bound := none
  paramsAddr : DWord := 0#64
  /-- The parameter block copy, the bias list and the stop strings (R144, R151). -/
  params  : List Byte := []
  bias    : List (Nat × Word) := []
  stops   : List (List Byte) := []
  /-- The token history, oldest first (R153, R154). -/
  hist    : List Nat := []
  promptLen : Nat := 0
  steps   : BitVec 40 := 0#40
  side    : Bool := false
  susp    : Bool := false
  cpState : Nat := 0
  /-- The grammar stack, bottom frame first. -/
  stack   : List Frame := []
  stackLow : Nat := 0
  stream  : Stream := {}
  /-- LAST_STEP: the point of the last commit (R146). -/
  lastStep : DWord := 0#64
  charged : Nat := 0
  ovfCount : Nat := 0
  ovfHead : Nat := 0
  gen     : DWord := 0#64
  /-- ID of the locket from which the strand was last revived (R122), 0 when none. -/
  lastLocket : DWord := 0#64
  /-- Pool pages (R153). -/
  dirPage  : Nat := 0
  sidePage : Nat := 0
  biasPages : List Nat := []
  stackPages : List Nat := []
  histPages : List Nat := []
  /-- Pages taken for a step and not yet used (R168). -/
  sparePages : List Nat := []
  /-- The mask epoch (R308). -/
  epoch   : DWord := 0#64
  /-- The run-ahead result for the next step (R302). -/
  ra      : Option RunAhead := none
  /-- A commit has posted run-ahead, which has not run (R26, R306). -/
  raDue   : Bool := false
deriving DecidableEq, Repr

/-- Where a cold copy of a locket lies, or is being written (R480, R486). -/
structure ColdCopy where
  /-- Copy 0 or 1 of a pinned locket. -/
  copy  : Nat
  chan  : Chan
  die   : Fin 8
  block : Nat
  page  : Nat
  plane : Nat
  sector : Nat
  /-- Sectors of the copy. -/
  count : Nat
  /-- Pages not yet programmed with status pass. -/
  todo  : List Nat
  /-- The copy is a relocation of a durable one (R491): its record is a MOVE. -/
  moved : Bool := false
  /-- The copy replaces an unreadable one (R453). -/
  repair : Bool := false
  /-- The journal records the copy as durable (R487). -/
  durable : Bool := false
deriving DecidableEq, Repr

/-- The locket of a parked session (R443 to R453). -/
structure Locket where
  part    : Part
  session : Word
  id      : DWord
  gen     : DWord
  /-- KEY_EPOCH. -/
  epoch   : Word
  /-- The stored locket: header and encrypted body (R445, R450). -/
  image   : List Byte
  /-- The body in plain text (R446), which exists outside the crypto engine only as `image`. -/
  body    : List Byte
  /-- PAGES (R445). -/
  pages   : Nat
  /-- Versions the locket holds (R183). -/
  binds   : List Bound
  pinned  : Bool := false
  /-- Chip-memory addresses of the warm copies, in copy order (R451, R452). -/
  warm    : List Nat := []
  cold    : List ColdCopy := []
  /-- A move to the cold park is under way (R452). -/
  moving  : Bool := false
  lost    : Bool := false
  /-- The stored locket under a newer key epoch whose cold copies are being written, and that epoch (R536). -/
  rekey   : Option (List Byte × Word) := none
  /-- The session reads Absent until its epoch is restored (R537). -/
  waiting : Bool := false
  /-- AON cycle of the park's commit, and its order among them (R452). -/
  parkedAt : Nat := 0
  seq     : Nat := 0
  /-- The session's step domain and history length. -/
  domain : Dom := 0
  histLen : Nat := 0
deriving DecidableEq, Repr

/-- The last event written to a partition's event ring: its slot's address, and what the slot held before (R89). -/
structure EvqWrite where
  addr : Nat
  old  : List Byte
deriving DecidableEq, Repr

/-- What a partition holds beside its registers. -/
structure PartState where
  accts : List Account := []
  /-- Pool pages in use, in rising order (R152). -/
  used  : List Nat := []
  /-- Sessions in page stall, in order of entry (R166). -/
  stall : List Word := []
  /-- Sessions whose reclaim park is in flight and waits for moves to free room in the warm share (R163, R455). -/
  reclaims : List Word := []
  /-- Last generation issued (R443). -/
  gen   : DWord := 0#64
  /-- Last mask epoch issued (R308, R309). -/
  epoch : DWord := 0#64
  /-- Order number of the last unit issue (R226, R680). -/
  encNext : Nat := 0
  /-- The reset report is still to be posted to this partition's event ring (R636). -/
  reportDue : Bool := false
  /-- STATE of PRT_RECOVER (R588). -/
  recover : Nat := 0
  /-- Resources that the last commit took from the partition (R522): group g as g, VGS pair k as 0x10 + k, channel c as 0x20 + c, ring pair
  r as 0x40 + r. -/
  leaving : List Nat := []
  /-- Lockets whose move, re-key rewrite or relocation bound the generation before the last commit, and reclaim parks that did (R521). -/
  oldWork : List DWord := []
  oldReclaims : List Word := []
  /-- Chip-memory areas, as first byte and bytes, that the clearing of R526 still has to zero. -/
  toClear : List (Nat × Nat) := []
  /-- Units of the backing region that a load has written since the partition was enabled: its used part (R219, R526). -/
  backEver : List Nat := []
  /-- Asset keys 0 and 1 (R529). -/
  ak : Vector (Option (BitVec 256)) 2 := Vector.replicate 2 none
  /-- Park key slots A and B, the selector (true names slot B) with its own CRC, and the epoch of a rotation that waits for its COMMIT record
  (R533, R535). -/
  slotA : Option KeySlot := none
  slotB : Option KeySlot := none
  sel   : Option Bool := none
  selCrc : Word := 0#32
  rotating : Option Word := none
  /-- Next order number of a park commit (R452). -/
  parkSeq : Nat := 0
  /-- AON cycle of the last rewrite of the re-key scrub (R536). -/
  rekeyAt : Nat := 0
  /-- The event written last, whose write may still fail (R89). -/
  evqLast : Option EvqWrite := none
  /-- WORN (R493), and the partition's MEDIA_READ_ONLY event has been posted. -/
  worn  : Bool := false
deriving DecidableEq, Repr

/-- How a bead thread stands (R383 to R395). -/
inductive ThreadSt where
  | idle
  | running
  /-- At a WAIT or FENCE, or at a GET with four outstanding: the tag waited for, if one. -/
  | waiting (tag : Option (Fin 4))
  | exited (code : BitVec 5)
  | faulted (cause : Nat)
deriving DecidableEq, Repr

/-- A GET that has not completed (R385): destination offset in WORK, source thread address, bytes. -/
structure GetOp where
  tag : Fin 4
  dst : Nat
  src : Nat
  len : Nat
deriving DecidableEq, Repr

/-- A part of the CALL window (R387): offset, length, and whether the program may write it. -/
structure CallPart where
  off : Nat
  len : Nat
  wr  : Bool
deriving DecidableEq, Repr

/-- What an encode unit's thread works on (R386): the pieces whose MODEL calls are still to be made, in units, and the tokens
of those made; tokens lie below the op's effective size (R388). -/
structure UnitJob where
  ctx  : Ctx
  unit : Nat
  size : Nat := 0
  left : List (List Nat) := []
  toks : List (List Nat) := []
deriving DecidableEq, Repr

/-- A hardware thread of a bead: its registers (R368), its call's windows (R371) and its metering (R383). -/
structure BeadThread where
  st   : ThreadSt := .idle
  x    : Vector DWord 32 := Vector.replicate 32 0#64
  v    : Vector Line 16 := Vector.replicate 16 0#512
  k    : Vector DWord 8 := Vector.replicate 8 0#64
  pc   : Nat := 0
  count : Nat := 0
  part : Part := 0
  prog : Option Bound := none
  /-- Strict mode of the call (R415), and the chip-memory ranges of the generation that its work binds (R521). -/
  strict : Bool := false
  rng  : List MemRange := []
  trieBase : Option Nat := none
  dfaBase  : Option Nat := none
  local4k : List Host.Cell := []
  callMem : List Host.Cell := []
  parts   : List CallPart := []
  work    : List Host.Cell := []
  /-- WORK lines written since entry, and WORK lines that are poisoned (R373, R418). -/
  workTags : List Nat := []
  poison   : List Nat := []
  gets : List GetOp := []
  /-- Reads of unwritten WORK lines so far (R414). -/
  uninit : Nat := 0
  /-- Lines of unplaced sections read so far by loads and GETs, and instructions that walked a table of one (R220, R222). -/
  miss  : Nat := 0
  walks : Nat := 0
  /-- Philox key of the session (R354). -/
  seed : DWord := 0#64
  /-- The model's own: the call's inputs, and the number of free values the call has taken (DESIGN CHOICE, log entry 2). -/
  inArgs : List Nat := []
  inMem  : List (List Byte) := []
  fc   : Nat := 0
  job  : Option UnitJob := none
deriving DecidableEq, Repr

/-- A cluster's scratch (R403 to R424): written tags and poison marks by line of 64 bytes. What the lines hold stands with what uses them: a
call's WORK window with its thread, a run-ahead result with its strand (DESIGN CHOICE, log entry 32). -/
structure Scratch where
  tags   : List Nat := []
  poison : List Nat := []
  /-- Banks in HANDOVER: bank and new owner code (R408). -/
  hand   : List (Nat × Nat) := []
deriving DecidableEq, Repr

/-- The VGS (R220, R416): written tags, as runs of lines (line 24,576 × bank + line, lines), and poison marks. A line holds the bytes that
placement put there. -/
structure Vgs where
  tags  : List (Nat × Nat) := []
  /-- Lines whose reload failed (R419). -/
  poison : List Nat := []
deriving DecidableEq, Repr

/-- What a block of a flash die serves as (R481, R490 to R493). -/
inductive BlockSt where
  | journal
  | spare
  | free
  /-- A data block of a stripe: open or closed. -/
  | data
  | retired
  /-- On a die that took no part in the channel's last format. -/
  | out
deriving DecidableEq, Repr

/-- One flash block: its number and plane, its erase count, the AON cycle of its first program, and scrub passes in a row that found
an uncorrectable codeword (R492). -/
structure FlashBlock where
  num   : Nat
  plane : Nat
  st    : BlockSt
  pe    : Nat := 0
  at_   : Nat := 0
  badScrubs : Nat := 0
  /-- Why a retired block was retired, as its RETIRE record says (R486). -/
  cause : Nat := 0
  /-- Pages programmed so far of a journal block (R487). -/
  used  : Nat := 0
deriving DecidableEq, Repr

/-- A sector waiting for, or standing in, a stripe page: locket ID, copy, index within the copy, 512 bytes, and the AON cycle of its arrival
(R478, R480). -/
structure Sector where
  lid  : DWord
  copy : Nat
  idx  : Nat
  data : List Byte
  came : Nat := 0
deriving DecidableEq, Repr

/-- A codeword (R478): 4,096 payload bytes, 32 bytes of metadata, 480 bytes of LDPC parity. -/
structure Codeword where
  payload : List Byte
  mdata   : List Byte
  parity  : List Byte := []
deriving DecidableEq, Repr

/-- A programmed page of one plane: four codewords (R478). -/
structure FlashPage where
  block : Nat
  page  : Nat
  plane : Nat
  at_   : Nat
  words : List Codeword
deriving DecidableEq, Repr

/-- An open stripe of a die (R480): block number, planes it covers, next page, and the sectors that wait. `reloc` tells the relocation stripe from the stripe of moves. -/
structure Stripe where
  die    : Fin 8
  reloc  : Bool
  block  : Nat
  planes : List Nat
  page   : Nat := 0
  buf    : List Sector := []
deriving DecidableEq, Repr

/-- What a read took from the channel's registers and the tracker when it was issued (R483 to R485): the offset of rung 0, whether it is forced,
and the bounds of the tracker. -/
structure ReadLv where
  off    : Int := 0
  forced : Bool := false
  lo     : Int := -128
  hi     : Int := 127
deriving DecidableEq, Repr

/-- An array operation in flight on a die. -/
inductive FlashJob where
  /-- A multi-plane page program (R480). -/
  | program (block : Nat) (planes : List Nat) (page : Nat) (sects : List Sector)
  | erase (block plane : Nat)
  /-- A read of a locket's copy at a rung of the ladder (R483), with the codewords that still fail. -/
  | read (part : Part) (session : Word) (copy : ColdCopy) (rung : Nat) (left : List Nat) (lv : ReadLv)
deriving DecidableEq, Repr

/-- One age bin of the tracker (R484): offset, and the codewords and flips counted since it was last examined. -/
structure AgeBin where
  off   : Int := 0
  words : Nat := 0
  down  : Nat := 0
  up    : Nat := 0
deriving DecidableEq, Repr

/-- A flash die (R472 to R476, R483, R484). -/
structure FlashDie where
  /-- What answers on the chip enable: the part outside, kept through every reset. -/
  info    : Option DieInfo := none
  /-- The identity that the channel's journal records (R475). -/
  uid     : Option Nat := none
  usable  : Bool := false
  blocks  : List FlashBlock := []
  pages   : List FlashPage := []
  jobs    : List FlashJob := []
  /-- Suspensions so far of the program or erase that is under way (R482). -/
  susp    : Nat := 0
  /-- Retry sets by most recent success (R483). -/
  ranks   : List Nat := []
  bins    : Vector AgeBin 4 := Vector.replicate 4 {}
  /-- AON cycle of the last time-out (R495). -/
  timeoutAt : Option Nat := none
  /-- Collection runs (R491). -/
  collecting : Bool := false
  /-- The tracker offsets of the age bins as last journalled (R484). -/
  savedOff : List Int := []
  /-- Codes of the commands last issued to the die, in order (R474). -/
  cmds   : List Nat := []
  /-- What SET FEATURES has set: the timing mode, ODT, and the read-level offsets, one page read after the other (R474, R475, R483). -/
  mode   : Option Nat := none
  odt    : Bool := false
  levels : List (List Int) := []
  /-- AON cycle at which the operation under way began (R476). -/
  busyAt : Nat := 0
deriving DecidableEq, Repr

/-- A journal record (R486), and the AON cycle at which it came to its page (R487). -/
structure JRecord where
  typ   : Nat
  copy  : Nat := 0
  part  : Part := 0
  count : Nat := 0
  seq   : Nat := 0
  id    : DWord := 0#64
  loc   : DWord := 0#64
  came  : Nat := 0
deriving DecidableEq, Repr

/-- A page of the journal reserve: die, block number, plane, page. -/
structure FlashPlace where
  die   : Fin 8
  block : Nat
  plane : Nat
  page  : Nat
deriving DecidableEq, Repr

/-- A flash channel (R472 to R511). -/
structure FlashChan where
  online  : Bool := false
  /-- ONLINE as software last wrote it (R509). -/
  wantOn  : Bool := true
  worn    : Bool := false
  dies    : Vector FlashDie 8 := Vector.replicate 8 {}
  /-- The journal holds a format: good blocks at format, and the owner of the latest STATE record (R481, R524). -/
  formatted : Bool := false
  good    : Nat := 0
  owner   : Option Part := none
  /-- Durable records, the two places of each journal page that holds them, and the records that wait for a journal page (R487). -/
  journal : List JRecord := []
  jpages  : List (FlashPlace × FlashPlace) := []
  jbuf    : List JRecord := []
  jseq    : Nat := 0
  /-- Program sequence number (R478). -/
  pseq    : Nat := 0
  stripes : List Stripe := []
  /-- Next block the scrubber reads: die, block, plane (R496). -/
  scrub   : Nat := 0
  /-- AON cycle of the last block the scrubber read (R496). -/
  scrubAt : Nat := 0
  /-- AON cycles of the last ZQ calibration and tracker journal (R474, R484). -/
  zqAt    : Nat := 0
  trackAt : Nat := 0
  /-- The channel is being erased for a new owner (R501). -/
  erasing : Bool := false
  /-- The partitions whose WORN this channel's BP has set (R493). -/
  wornOf  : List Part := []
deriving DecidableEq, Repr

/-- The media profile (R476), as the configuration image carries it. -/
structure MediaProfile where
  ratedPe : Nat := 0
  timing  : Nat := 0
  trMax   : Nat := 0
  tprogMax : Nat := 0
  tbersMax : Nat := 0
  suspP   : Nat := 0
  suspE   : Nat := 0
  resume  : Nat := 0
  tsuspMax : Nat := 0
  rlFeature : Nat := 0
  levels  : Nat := 0
  retry   : List (List Int) := []
  softDelta : Nat := 0
  retainDays : Nat := 0
  sparePct : Nat := 7
  opPct   : Nat := 12
deriving DecidableEq, Repr

/-- A ring pair's position as captured (R584, R636). -/
structure RingCap where
  sqHead : Word := 0#32
  sqTail : Word := 0#32
  cqHead : Word := 0#32
  cqTail : Word := 0#32
  owner  : Option Part := none
  enabled : Bool := false
deriving DecidableEq, Repr

/-- The capture area of the retained SRAM (R581, R584). -/
structure Capture where
  source : Nat := 0
  /-- Whole-instance resets so far. -/
  count  : Nat := 0
  sdTime : Vector DWord 4 := Vector.replicate 4 0#64
  rings  : Vector RingCap 64 := Vector.replicate 64 {}
  /-- HEAD and TAIL of each partition's event ring. -/
  evqs   : Vector (Word × Word) 16 := Vector.replicate 16 (0#32, 0#32)
deriving DecidableEq, Repr

/-- The boot record (R556). -/
structure BootRecord where
  magic : Word := 0x52424C50#32
  triesA : Nat := 0
  triesB : Nat := 0
  incSlot : Bool := false
  incValid : Bool := false
  result : Nat := 0
  incSeq : Nat := 0
  incCrc : Nat := 0
  crc : Word := 0#32
deriving DecidableEq, Repr

/-- How far the boot has come (R555, R560). -/
inductive BootPhase where
  /-- Held in reset: the next BOOT_SEQUENCE releases it. -/
  | held
  /-- Step 8: boot-halt. -/
  | halted
  /-- Step 10: a pair role looks for its partner. -/
  | pairing
  | failed
  | done
deriving DecidableEq, Repr

/-- The boot in progress (R551 to R569). -/
structure Boot where
  phase : BootPhase := .held
  /-- What the dies on the channels answer at bring-up (R475). -/
  media : List (List (Option DieInfo)) := []
  /-- REG_INIT writes in force, and the composed media profile. -/
  init  : List (Nat × Word) := []
  prof  : MediaProfile := {}
  /-- The composed digest XOR the measurement (R566). -/
  digest : List Byte := []
  /-- PAIR_DIGEST words and TOKEN halves received from the partner at pairing (R569, R634). -/
  words : List (Nat × Word) := []
  toks  : List (Nat × Word) := []
  /-- AON cycle of step 10, and the partner's address once one is found. -/
  pairAt : Nat := 0
  peer  : Option Nat := none
deriving DecidableEq, Repr

/-- A part that waits for its partner's compare record (R622): the command that commits it, with the op's context. -/
structure CmpPart where
  cmd   : Instr
  ring  : Ring
  index : Word
  part  : Nat
  /-- Own status and digest. -/
  status : BitVec 8
  digest : BitVec 128
  /-- AON cycle at which the own record was written, and mismatches of the part in a row (R623, R625). -/
  at_   : Nat
  /-- The op's place in the order of dispatch (`OpCtx.seq`). -/
  seq   : Nat := 0
  /-- The mask epoch and the locket generation that the primary assigned to the part, 0 for none (R621, R622). -/
  epoch : DWord := 0#64
  gen   : DWord := 0#64
  /-- A part that fails with this status instead of the command's commit (R626). -/
  fail  : Option (BitVec 8) := none
  /-- The partner's digest has come and is equal: the commit waits for the command's other parts only. -/
  ok    : Bool := false
  bad   : Nat := 0
  /-- The own mismatch of this round has been told to the partner, whose MISMATCH frame for it is still to come (R637). -/
  told  : Bool := false
deriving DecidableEq, Repr

/-- A decision of the primary as the secondary has received it (R621): what kind it is of (`State.tellOp`), its partition or op, its value. -/
structure Decision where
  kind  : Nat
  part  : Part := 0
  arg   : DWord := 0#64
  ring  : Ring := 0
  index : Word := 0#32
deriving DecidableEq, Repr

/-- What a pair member keeps beside its registers (R621 to R634). -/
structure PairSt where
  /-- Own record sequence number (R622). -/
  seq   : Nat := 0
  parts : List CmpPart := []
  /-- Decisions received and not yet applied, oldest first, and digest records of parts that this member has not reached, newest first. -/
  given : List Decision := []
  early : List (BitVec 512) := []
  /-- AON cycle of the last heartbeat heard (R633). -/
  hbAt  : Nat := 0
  /-- AON cycle at which commits were held for the self-test (R629). -/
  holdAt : Nat := 0
  /-- AON cycle at which ISOLATE was sent and ISOLATE_ACK is waited for (R630). -/
  isoAt : Option Nat := none
deriving DecidableEq, Repr

/-- A voltage segment's handshake (R649, R650). -/
structure VSeg where
  req  : Bool := false
  ack  : Bool := false
  /-- PLW_VSEG_CODE, and the code last acknowledged. -/
  code : Nat := 150
  held : Nat := 150
  reqAt : Nat := 0
  /-- The point a raise goes to once acknowledged (R606). -/
  want : Option Nat := none
deriving DecidableEq, Repr

/-- A cluster group's governor (R608, R611): S and MISSED of the running interval, and the intervals counted for RISK. -/
structure GrpCtl where
  slack : Option Nat := none
  missed : Bool := false
  hot   : Nat := 0
  cool  : Nat := 0
deriving DecidableEq, Repr

/-- What the boot ROM leaves the configuration flash in (R545, R555, R648): the mode of the device, the commands sent before SFDP is read in
this boot, and the AON time from which SFDP may be read. -/
structure CfgSpi where
  /-- The device is out of its power-on state: in 1-4-4 mode or with 4-byte addresses. -/
  quad   : Bool := false
  sent   : List Byte := []
  sfdpAt : Nat := 0
deriving DecidableEq, Repr

/-- A flash-port command in progress (R564): OP, address, LEN, data. -/
structure PortCmd where
  op   : Nat
  addr : Nat
  len  : Nat
  data : List Byte
deriving DecidableEq, Repr

/-- A queued trace record (R659, R660): its TIME and CODE, and its 32 bytes. -/
structure TraceRec where
  time : Nat
  code : Nat
  bytes : List Byte
deriving DecidableEq, Repr

/-- What a CSR access returned last; the model's own field (R6). -/
structure CsrResp where
  value : Word := 0#32
  error : Bool := false
deriving DecidableEq, Repr

/-- The whole block. -/
structure State where
  /-- Commands waiting, first in first out: the model's own queue. -/
  pending : List Instr := []
  /-- Counter applied to the free values of Config: the model's own field (DESIGN CHOICE, log entry 2). -/
  freeCtr : Nat := 0
  /-- AON_CLK cycles since PWR_ON (R666), and those counted before it, which the ages on the park media go on from (R484, R497; DESIGN CHOICE,
  log entry 37). -/
  time : Nat := 0
  aonBefore : Nat := 0
  /-- Result of the last CSR read or refused access: the model's own field. -/
  resp : CsrResp := {}
  /-- Chip memory (R4, R430), by byte address. -/
  mem : List Host.Cell := []
  /-- The registers that differ from their reset values, by offset in the CSR window (R6, R10). -/
  regs : List (Nat × Word) := []
  /-- Read latches and write holds of the register pairs, by offset of the LO half (R8). -/
  pairLatch : List (Nat × Word) := []
  pairHold : List (Nat × Word) := []
  sd : Vector StepDomain 4 := Vector.replicate 4 {}
  rings : Vector RingPair 64 := Vector.replicate 64 {}
  ctxs : List OpCtx := []
  /-- Next dispatch number (R132). -/
  nextSeq : Nat := 0
  parts : Vector PartState 16 := Vector.replicate 16 {}
  objIds : List ObjId := []
  objs : List ObjVersion := []
  strands : List Strand := []
  lockets : List Locket := []
  threads : List (Thread × BeadThread) := []
  scratch : Vector Scratch 64 := Vector.replicate 64 {}
  vgs : Vgs := {}
  /-- Instruction memories (R371, R403): a bead, named by its thread 0, with a line of a program's CODE that it holds. -/
  imem : List (Thread × Bound × Nat) := []
  /-- Control SRAM (R403, R548): its bytes from address 0; the rest is zero. -/
  ctrlSram : List Byte := []
  /-- Requests that timed out and whose response has not come (R434). -/
  fabLate : List Nat := []
  /-- AON cycle of each master's last reset with open requests (R435, R436): its code; 0x100 for all; 0x200 + q for the VGS fill of quad q. -/
  fabCut : List (Nat × Nat) := []
  /-- Writes to stream identifier registers: AON cycle, offset, the value before (R431). -/
  sidLog : List (Nat × Nat × Word) := []
  /-- Chip-memory address of the last reset report record (R636). -/
  reportAddr : DWord := 0#64
  chans : Vector FlashChan 16 := Vector.replicate 16 {}
  profile : MediaProfile := {}
  /-- The cold index is valid, and the bytes of its region as the park controller last wrote them, with their address (R488). -/
  indexOk : Bool := false
  indexAt : Nat := 0
  indexImg : List Byte := []
  /-- AON cycle of the last refill tick (R171). -/
  refillAt : Nat := 0
  /-- The ring number dispatched last (R128). -/
  lastRing : Nat := 63
  /-- Retained SRAM (R584): the capture, the boot record, the configuration snapshot as register offsets and values, and the events of
  the fault windows as counter, unit and time (R627). -/
  capture : Capture := {}
  bootRec : BootRecord := {}
  snap  : List (Nat × Word) := []
  snapOk : Bool := false
  faults : List (Nat × Nat × Nat) := []
  boot  : Boot := {}
  /-- The configuration flash (R545, R546): outside the block's resets; a byte not listed is erased. -/
  flash : List Host.Cell := []
  spi   : CfgSpi := {}
  port  : Option PortCmd := none
  /-- The fuse array as blown (R571): words not listed are unblown. -/
  fuses : List (Nat × Word) := []
  /-- Frames put on CHN_OUT since the last cycle of AON_CLK, oldest first (R566); the model's own field. -/
  chnOut : List DWord := []
  /-- Writes that this cycle's register writes forward to the partner, oldest first, as (chip address, value) (R619). -/
  peerOut : List (Nat × Word) := []
  /-- AON cycle in which a periodic event last came, by its number (`State.periodDue`). -/
  lastAt : List (Nat × Nat) := []
  /-- An ENUM frame that came while the instance was resetting (R578). -/
  enumHeld : Option DWord := none
  /-- Compare records that this cycle writes into the partner's mailbox, oldest first (R622). -/
  mailOut : List (BitVec 512) := []
  /-- The AON cycle of the last writes of the registers that a decision of the same cycle reads, and what they held before it (R471, R512,
  R618). -/
  wrAt  : Nat := 0
  wrOld : List (Nat × Word) := []
  /-- AON cycle at which a RESET frame of CHN_CMD was sent, and its DEST, while its reply is awaited (R568). -/
  chnWait : Option (Nat × Nat) := none
  /-- AON cycle at which the firmware last serviced its watchdog (R580). -/
  wdogAt : Nat := 0
  pair  : PairSt := {}
  /-- Bytes of chip memory written since a commit began to be tried out, newest first, while its digest is computed (R622); between commands
  none; the model's own field. -/
  wlog  : Option (List Host.Cell) := none
  vseg  : Vector VSeg 17 := Vector.replicate 17 {}
  grp   : Vector GrpCtl 16 := Vector.replicate 16 {}
  /-- Power estimates of the last ten cap ticks in units of 0.1 W, newest first, and the AON cycle of the last raise of a limit
  (R610). -/
  ests  : List Nat := []
  raisedAt : Nat := 0
  /-- AON cycle since which every sensor has read below TRIP_C − 10 °C (R654). -/
  coolAt : Option Nat := none
  /-- Power domains in wake, and those in sleep that wait for accesses in flight (R603). -/
  waking : List (Fin 73) := []
  sleeping : List (Fin 73) := []
  /-- Off requests (false) and gains by a commit (true) of the AON cycle in which the last one came, with that cycle (R618). -/
  domLog : List (Nat × Bool × Fin 73) := []
  /-- Unit resets requested, by LAST_UNIT code, with the AON cycle of the request (R590). -/
  units : List (Nat × Nat) := []
  /-- The loupe (R658 to R662): queued records, and the buffer base and slots latched when ENABLE was set. -/
  trace : List TraceRec := []
  traceBase : Nat := 0
  traceSlots : Nat := 2048
  /-- The TAP (R668, R671): the instruction register, the data register last captured, the result of the last CSR access, and a CSR
  access that runs. -/
  tapIr : Byte := 0x01#8
  tapDr : DWord := 0#64
  tapRes : DWord := 0#64
  access : Option DWord := none
  /-- The AON cycle in which that access was started (R673). -/
  accessAt : Nat := 0
deriving DecidableEq, Repr

/-- Why the block stops: no command of this model stops it. -/
inductive Fault where
  /-- Raised by no command; the block has no state from which the spec gives no successor. Safe. -/
  | none
deriving DecidableEq, Repr

/-- Why a command is refused. -/
inductive Refusal where
  /-- Raised by a command whose meaning is not written yet. Safe: nothing is claimed of it. -/
  | notModelled (mnemonic : String)
deriving DecidableEq, Repr

/-- The block right after PWR_ON (R10, R579): no command waiting, every register at its reset value. -/
def State.reset : State := {}

end Sys2Proof.Machine
end

