-- ==== Sys2Proof/Machine/Ops.lean ====
section
/-! DEFINITION. Sys2Proof/Machine/Ops.lean: the named operations every command uses: memories, registers, chip-memory
ranges, free values, step points, events, contexts and strands. -/
namespace Sys2Proof.Machine
open Sys2Proof

/-! ### Sorting -/

/-- Insert before the first element that `le` puts at or after it. -/
def insertBy {α : Type} (le : α → α → Bool) (a : α) : List α → List α
  | [] => [a]
  | b :: l => if le a b then a :: b :: l else b :: insertBy le a l
/-- Sort by `le`; elements that it does not tell apart keep their order. -/
def sortBy {α : Type} (le : α → α → Bool) (l : List α) : List α := l.foldr (insertBy le) []

/-- Insert into a list in rising order. -/
def natInsert : List Nat → Nat → List Nat
  | [], a => [a]
  | b :: t, a => if a == b then b :: t else if a < b then a :: b :: t else b :: natInsert t a

/-! ### Sparse memories in one canonical form -/

/-- The byte at `a`; an unlisted address reads `d`. -/
def cellGet (d : Byte) : List Host.Cell → Nat → Byte
  | [], _ => d
  | (k, b) :: t, a => if k == a then b else cellGet d t a

/-- Write one byte, keeping addresses rising and no entry equal to `d`. -/
def cellSet (d : Byte) : List Host.Cell → Nat → Byte → List Host.Cell
  | [], a, v => if v == d then [] else [(a, v)]
  | (k, b) :: t, a, v =>
    if k == a then (if v == d then t else (k, v) :: t)
    else if a < k then (if v == d then (k, b) :: t else (a, v) :: (k, b) :: t)
    else (k, b) :: cellSet d t a v

/-- The canonical form: addresses strictly rising from `lo`, no entry equal to `d`. -/
def cellWf (d : Byte) : Nat → List Host.Cell → Bool
  | _, [] => true
  | lo, (k, b) :: t => lo ≤ k && b != d && cellWf d (k + 1) t

/-- `n` bytes from `a`. -/
def cellRead (d : Byte) (m : List Host.Cell) (a n : Nat) : List Byte :=
  (List.range n).map (fun i => cellGet d m (a + i))

/-- Bytes written from `a` upward. -/
def cellWrite (d : Byte) : List Host.Cell → Nat → List Byte → List Host.Cell
  | m, _, [] => m
  | m, a, b :: bs => cellWrite d (cellSet d m a b) (a + 1) bs

/-- Little-endian number of a byte list (R4). -/
def leNat : List Byte → Nat
  | [] => 0
  | b :: bs => b.toNat + 256 * leNat bs

/-- Little-endian bytes of a number (R4). -/
def leBytes : Nat → Nat → List Byte
  | 0, _ => []
  | n + 1, v => BitVec.ofNat 8 (v % 256) :: leBytes n (v / 256)

/-- `n` bytes of a list from offset `o`, little-endian; bytes past the end count zero. -/
def leAt (bs : List Byte) (o n : Nat) : Nat := leNat ((bs.drop o).take n)

/-- Bits [lo + len − 1 : lo] of a number. -/
def nf (n lo len : Nat) : Nat := (n >>> lo) % 2 ^ len

/-! ### Address ranges an entry names (R95) -/

/-- OPCODE (R94). -/
def eOp (e : List Byte) : Nat := leAt e 0 1
/-- Whole blocks of HASH_BLOCKS (R248). -/
def hashBlockLen (code : Nat) : Nat := 16 * 2 ^ (code % 4)
/-- The ranges that the entry's own fields give: first byte, bytes, written. Ranges whose length a structure in memory gives are checked
where it is read. -/
def entryRanges (handle : Bool) (e : List Byte) : List (Nat × Nat × Bool) :=
  let w := fun (o : Nat) => leAt e o 4
  let d := fun (o : Nat) => leAt e o 8
  match eOp e with
  | 0x01 => [(d 40, 256, false)]
  | 0x03 => [(d 24, w 32, false), (d 40, w 48, true)]
  | 0x04 => [(d 24, w 32, false)]
  | 0x05 => [(d 24, 4 * w 32, false), (d 40, w 48, true)]
  | 0x06 => [(d 24, 32 * w 32, false), (d 48, 64 + 192 * w 32, true)] ++
      if d 56 == 0 then [] else [(d 56, 64 + 2048 * w 32, true)]
  | 0x07 => [(d 24, 32 * w 32, false), (d 40, max (w 48) (64 + (16 * w 32 + 63) / 64 * 64), true)]
  | 0x08 => [(d 24, 64 + 16 * leAt e 32 1, false), (d 48, 128, true)] ++
      if d 56 == 0 then [] else [(d 56, 64 + 2048 * leAt e 32 1, true)]
  | 0x09 => (if d 24 == 0 then [] else [(d 24, 4 * w 32, false)]) ++ [(d 40, w 48, true)]
  | 0x0A => [(d 24, 4 * w 32, false), (d 56, (if handle then 24 else 16) * (w 32 / hashBlockLen (leAt e 36 1)), true)]
  | 0x0D => [(d 24, w 32, true)]
  | 0x0E => [(d 24, w 32, false)]
  | 0x0F => [(d 32, w 40, false)]
  | 0x12 => if leAt e 24 1 == 3 then [(d 32, d 40, false)] else []
  | _ => []

/-! ### Chip memory -/

/-- What a byte of chip memory that nothing has written reads as (DESIGN CHOICE, log entry 3). -/
abbrev memDefault : Byte := 0#8

/-- The canonical form of chip memory. -/
def State.memWf (s : State) : Bool := cellWf memDefault 0 s.mem

/-- One byte of chip memory; addresses have 64 bits. -/
def State.rd8 (s : State) (a : Nat) : Byte := cellGet memDefault s.mem (a % 2 ^ 64)
/-- `n` bytes of chip memory. -/
def State.rdBytes (s : State) (a n : Nat) : List Byte := (List.range n).map (fun i => s.rd8 (a + i))
/-- A little-endian number of `n` bytes. -/
def State.rdLE (s : State) (a n : Nat) : Nat := leNat (s.rdBytes a n)
/-- Write one byte of chip memory. -/
def State.wr8 (s : State) (a : Nat) (b : Byte) : State :=
  { s with mem := cellSet memDefault s.mem (a % 2 ^ 64) b, wlog := s.wlog.map (List.cons (a % 2 ^ 64, b)) }
/-- Write bytes of chip memory from `a` upward. -/
def State.wrBytes : State → Nat → List Byte → State
  | s, _, [] => s
  | s, a, b :: bs => State.wrBytes (s.wr8 a b) (a + 1) bs
/-- Write a little-endian number of `n` bytes. -/
def State.wrLE (s : State) (a n v : Nat) : State := s.wrBytes a (leBytes n v)

/-! ### Registers -/

/-- Look a key up in an association list. -/
def assocGet {α : Type} (d : α) : List (Nat × α) → Nat → α
  | [], _ => d
  | (k, v) :: t, a => if k == a then v else assocGet d t a

/-- Set a key of a list sorted by key, dropping an entry equal to the default. -/
def assocSet {α : Type} [BEq α] (d : α) : List (Nat × α) → Nat → α → List (Nat × α)
  | [], a, v => if v == d then [] else [(a, v)]
  | (k, w) :: t, a, v =>
    if k == a then (if v == d then t else (k, v) :: t)
    else if a < k then (if v == d then (k, w) :: t else (a, v) :: (k, w) :: t)
    else (k, w) :: assocSet d t a v

/-- Remove a key. -/
def assocDel {α : Type} : List (Nat × α) → Nat → List (Nat × α)
  | [], _ => []
  | (k, w) :: t, a => if k == a then t else (k, w) :: assocDel t a

/-- A periodic event is due once its period of `n` AON cycles has passed since it last came. Events are numbered: 0 the cap tick, 1 the
governor's interval, 2 the temperature sample, 3 the fuse temperature sample, 4 the heartbeat, 0x10 + p the placement period of partition p,
0x20 + c the patrol of cluster c (R421, R575, R608, R610, R616, R633, R654). -/
def State.periodDue (s : State) (k n : Nat) : Bool := assocGet 0 s.lastAt k + n ≤ s.time
/-- It comes now. -/
def State.periodMark (s : State) (k : Nat) : State := { s with lastAt := assocSet 0 s.lastAt k s.time }

/-- Find a key. -/
def assocFind {α : Type} : List (Nat × α) → Nat → Option α
  | [], _ => none
  | (k, v) :: t, a => if k == a then some v else assocFind t a

/-- The value held in the register at `off`. -/
def State.reg (s : State) (off : Nat) : Word := assocGet (regReset off) s.regs off
/-- Set the register at `off`; its reset value is not listed. -/
def State.setReg (s : State) (off : Nat) (v : Word) : State :=
  { s with regs := assocSet (regReset off) s.regs off v }
/-- A field of a register, by its lowest bit and its length. -/
def State.rf (s : State) (off lo len : Nat) : Nat := fld (s.reg off) lo len
/-- One bit of a register. -/
def State.rb (s : State) (off i : Nat) : Bool := bit (s.reg off) i
/-- Set a field of a register. -/
def State.setRf (s : State) (off lo len x : Nat) : State := s.setReg off (setFld (s.reg off) lo len x)
/-- Set a bit of a register. -/
def State.setRb (s : State) (off i : Nat) (b : Bool) : State := s.setRf off i 1 (if b then 1 else 0)
/-- The value of a register pair whose LO half is at `off` (R8). -/
def State.reg64 (s : State) (off : Nat) : DWord := (s.reg (off + 4)) ++ (s.reg off)
/-- Set both halves of a pair. -/
def State.setReg64 (s : State) (off : Nat) (v : DWord) : State :=
  (s.setReg off (v.truncate 32)).setReg (off + 4) ((v >>> 32).truncate 32)
/-- Add `n` to a count field, saturating. -/
def State.bumpBy (s : State) (off lo len n : Nat) : State :=
  s.setRf off lo len (min (s.rf off lo len + n) (2 ^ len - 1))
/-- Add one to a 32-bit count, saturating at 0xFFFF_FFFF. -/
def State.bump (s : State) (off : Nat) : State := s.bumpBy off 0 32 1
/-- The state in which a decision sees the registers that this cycle's writes have changed: as they were before (R471, R512, R618). -/
def State.cycleStart (s : State) : State :=
  if s.wrAt == s.time then s.wrOld.foldl (fun s x => s.setReg x.1 x.2) s else s

/-- Add to a 64-bit count that wraps. -/
def State.bump64 (s : State) (off n : Nat) : State := s.setReg64 off (s.reg64 off + BitVec.ofNat 64 n)

/-! ### Free values -/

/-- A fresh number the spec does not state, below `n`. -/
def State.freeBelow (s : State) (n : Nat) : Nat × State :=
  (Config.freeNat s.freeCtr % n, { s with freeCtr := s.freeCtr + 1 })

/-- `n` fresh bytes the spec does not state. -/
def State.freeBytes (s : State) (n : Nat) : List Byte × State :=
  ((List.range n).map (fun i => Config.freeByte (s.freeCtr + i)), { s with freeCtr := s.freeCtr + n })

/-- Contents of an output area that the spec calls invalid: free bytes (DESIGN CHOICE, log entry 2). -/
def State.spoil (s : State) (a n : Nat) : State :=
  let (l, s) := s.freeBytes n
  s.wrBytes a l

/-- The output areas of an op are invalid as a whole (R124, R435, R589, R590). -/
def State.spoilOut (s : State) (x : OpCtx) : State :=
  ((entryRanges x.table.isSome x.entry).filter (fun r => r.2.2)).foldl (fun s r => s.spoil r.1 r.2.1) s

/-! ### Step points (R40, R43) -/

/-- Update one element of a vector. -/
def vset {α : Type} {n : Nat} (v : Vector α n) (i : Fin n) (f : α → α) : Vector α n := v.set i (f v[i])

/-- Phase of a domain now (R40). -/
def State.phase (s : State) (d : Dom) : Nat :=
  let x := s.sd[d]
  match x.st with
  | .off => x.heldPhase
  | .waiting => 0
  | _ => min 4095 ((s.time - x.beatAt) * 4096 / x.p.toNat)

/-- The current point of a domain as GLB_SD_TIME lays it out (R60). -/
def State.point (s : State) (d : Dom) : DWord :=
  BitVec.ofNat 64 (s.phase d * 2 ^ 52 + (s.sd[d]).step.toNat)

/-- Step of a point in GLB_SD_TIME layout. -/
def ptStep (p : DWord) : Nat := fld p 0 40
/-- Phase of such a point. -/
def ptPhase (p : DWord) : Nat := fld p 52 12

/-- Has a domain reached a point (R43)? A point of the current step is reached when its phase is. In WAITING the current
point is not yet reached; an OFF domain evaluates none (R38). -/
def State.reached (s : State) (d : Dom) (p : DWord) : Bool :=
  let now := (s.sd[d]).step.toNat
  let back := (now + 2 ^ 40 - ptStep p) % 2 ^ 40
  match (s.sd[d]).st with
  | .off => false
  | .waiting => 1 ≤ back && back ≤ 2 ^ 39
  | _ => if back == 0 then ptPhase p ≤ s.phase d else back ≤ 2 ^ 39

/-- Steps from the current step of a domain to a point's, by the serial arithmetic of R43: negative for a past step. -/
def State.stepsTo (s : State) (d : Dom) (p : DWord) : Int :=
  let k : Nat := (ptStep p + 2 ^ 40 - (s.sd[d]).step.toNat) % 2 ^ 40
  if k < 2 ^ 39 then (k : Int) else (k : Int) - 2 ^ 40

/-- AON cycles, scaled by 4,096, until a point of a domain (R43). -/
def State.timeTo (s : State) (d : Dom) (p : DWord) : Int :=
  (s.stepsTo d p * 4096 + (ptPhase p : Int) - (s.phase d : Int)) * ((s.sd[d]).p.toNat : Int)

/-- What orders ready work (R51, R128): the time to its deadline, PRIO, dispatch number. -/
structure WorkKey where
  due  : Option Int
  prio : Nat
  seq  : Nat
deriving DecidableEq, Repr

/-- Earliest deadline first, work without one last (R51); across domains by the time to the deadline (DEDUCED, log entry 9). -/
def dueFirst (a b : Option Int) : Option Bool :=
  match a, b with
  | some x, some y => if x == y then none else some (x < y)
  | some _, none => some true
  | none, some _ => some false
  | none, none => none

/-- Does work `a` come before work `b` (R51, R128)? -/
def WorkKey.before (a b : WorkKey) : Bool :=
  (dueFirst a.due b.due).getD (if a.prio != b.prio then b.prio < a.prio else a.seq < b.seq)

/-- Age of a point in phase ticks of its domain, in the serial arithmetic of R43: that of a point in the future is negative (R675). -/
def State.age (s : State) (d : Dom) (p : DWord) : Int :=
  let n : Nat := ((s.sd[d]).step.toNat * 4096 + s.phase d + 2 ^ 52 - (ptStep p * 4096 + ptPhase p)) % 2 ^ 52
  if n < 2 ^ 51 then n else (n : Int) - 2 ^ 52

/-! ### Chip-memory ranges (R519) -/

/-- The ranges that a partition's committed configuration gives. -/
def State.ranges (s : State) (p : Part) : List MemRange :=
  (List.range 8).filterMap (fun r =>
    let b := s.reg64 (rPrtCfgMemBaseMir p r)
    if bit b 0 then some ⟨fld b 16 48 * 65536, (s.reg (rPrtCfgMemSizeMir p r)).toNat * 65536, bit b 1⟩ else none)

/-- Walk upward from `a` through ranges until `stop`; `n` bounds the number of ranges used. -/
def coverFrom (rs : List MemRange) (stop : Nat) : Nat → Nat → Bool
  | 0, a => stop ≤ a
  | n + 1, a =>
    if stop ≤ a then true
    else
      match rs.find? (fun r => r.base ≤ a && a < r.base + r.size) with
      | some r => coverFrom rs stop n (r.base + r.size)
      | none => false

/-- Every byte of [a, a + len) lies in some range; for a write, in some range that may be written (R519). -/
def rangesCover (rs : List MemRange) (a len : Nat) (wr : Bool) : Bool :=
  let rs := if wr then rs.filter (·.wr) else rs
  coverFrom rs (a + len) (rs.length + 1) a

/-- May an op reach [a, a + len) under the ranges of the generation it binds (R521)? -/
def OpCtx.memOk (x : OpCtx) (a len : Nat) (wr : Bool) : Bool := rangesCover x.rng a len wr

/-- The mode of an op's program calls. -/
def OpCtx.mode (x : OpCtx) : CallMode := ⟨x.strict, x.rng⟩
/-- May partition `p` reach [a, a + len)? -/
def State.memOk (s : State) (p : Part) (a len : Nat) (wr : Bool) : Bool := rangesCover (s.ranges p) a len wr

/-- Offset of the member's private structures (R620): GLB_PAIR_PRIV.OFFSET in a member that booted as the pair's secondary. -/
def State.priv (s : State) : Nat := if s.rf rCfgBootStat 24 2 == 2 then fld (s.reg64 rGlbPairPriv) 16 48 * 65536 else 0

/-- The warm park and the cold index (R451, R488, R620). -/
def State.warmArea (s : State) : Nat × Nat := (fld (s.reg64 rPrkWarmBase) 21 43 <<< 21 + s.priv, min 64 (s.rf rPrkWarmCfg 0 7) <<< 30)
def State.indexArea (s : State) : Nat × Nat := (fld (s.reg64 rPrkIndexBase) 21 43 <<< 21 + s.priv, min 32 (s.rf rPrkIndexCfg 0 6) <<< 30)

/-- This member's private structures (R620): of each partition the page pool, the strand table, the account table and the backing region; the
warm park, the cold index and the instance data region; and the trace buffer (R658). -/
def State.privAreas (s : State) : List (Nat × Nat) :=
  (List.finRange 16).flatMap (fun p =>
    [(fld (s.reg64 (rPrtPoolBase p)) 12 52 * 4096 + s.priv, 4096 * s.rf (rPrtPoolCfg p) 0 26),
     (fld (s.reg64 (rPrtStrandBase p)) 12 52 * 4096 + s.priv, 256 * s.rf (rPrtStrandCfg p) 0 19),
     (fld (s.reg64 (rPrtAcctBase p)) 12 52 * 4096 + s.priv, 131072),
     (fld (s.reg64 (rPrtObjBase p)) 12 52 * 4096 + s.priv, 65536 * s.rf (rPrtObjCfg p) 0 24)]) ++
  [s.warmArea, s.indexArea, (fld (s.reg64 rRstDataBase) 26 38 <<< 26 + s.priv, 2 ^ 26),
   (s.traceBase + s.priv, 32 * s.traceSlots)]
/-- An address of this member's private structures. -/
def State.isPriv (s : State) (a : Nat) : Bool := s.privAreas.any (fun x => x.1 ≤ a && a < x.1 + x.2)

/-- What a secondary leaves in chip memory of a command that led from `s`: its private structures as written, and its mailbox; every other byte is
shared, and only the writer writes it (R620, R622). -/
def State.ownWrites (t s : State) : State :=
  if s.rf rGlbPairStat 30 2 != 2 || t.rf rGlbPairStat 30 2 != 2 || t.mem == s.mem then t
  else
    let box := fld (t.reg64 rGlbPairMbox) 16 48 * 65536
    let own := fun (c : Host.Cell) => t.isPriv c.1 || (box ≤ c.1 && c.1 < box + 65536)
    { t with mem := (t.mem.filter own).foldl (fun m c => cellSet memDefault m c.1 c.2) (s.mem.filter (fun c => !own c)) }

/-- A unit reset with this LAST_UNIT code is requested: the unit quiesces, and no new work is placed on it (R590, R598). -/
def State.quiet (s : State) (u : Nat) : Bool := s.units.any (fun x => x.1 == u)

/-! ### Ownership -/

/-- Is the partition enabled (R514)? -/
def State.enabled (s : State) (p : Part) : Bool := s.rb (rPrtCfgCtrlMir p) 31

/-- The partition that owns a ring pair, by the committed configurations (R65). -/
def State.ringOwner (s : State) (r : Ring) : Option Part :=
  (List.finRange 16).find? (fun p => s.enabled p && bit (s.reg64 (rPrtCfgRingsMir p)) r)

/-- The partition that owns a cluster group. -/
def State.groupOwner (s : State) (g : Grp) : Option Part :=
  (List.finRange 16).find? (fun p => s.enabled p && s.rb (rPrtCfgGroupsMir p) g)

/-- The partition that owns a flash channel. -/
def State.chanOwner (s : State) (c : Chan) : Option Part :=
  (List.finRange 16).find? (fun p => s.enabled p && s.rb (rPrtCfgChannelsMir p) c)

/-- The partition that owns a VGS bank (two banks per pair). -/
def State.vgsOwner (s : State) (b : Nat) : Option Part :=
  (List.finRange 16).find? (fun p => s.enabled p && s.rb (rPrtCfgVgsMir p) (b / 2))

/-! ### Events (R89, R98) -/

/-- No session concerned (R98). -/
abbrev noSession : Word := 0xFFFFFFFF#32

/-- Number of slots of a ring whose SIZE field is `z`: 13 to 15 act as 12 (R79, R91). -/
def ringSlots (z : Nat) : Nat := 2 ^ (min z 12 + 4)

/-- The PHASE bit of index `i` in a ring whose SIZE field is `z` (R71). -/
def ringPhase (z : Nat) (i : Word) : Nat := if (i.toNat >>> (min z 12 + 4)) % 2 == 0 then 1 else 0

/-- The 32 bytes of an event entry (R98). -/
def eventBytes (code phase : Nat) (d : Dom) (ring : Option Ring) (session : Word) (id time detail : DWord) : List Byte :=
  leBytes 1 code ++ leBytes 1 (phase * 128 + d * 32) ++
  leBytes 1 (match ring with | some r => 128 + r.val | none => 0) ++ leBytes 1 0 ++
  leBytes 4 session.toNat ++ leBytes 8 id.toNat ++ leBytes 8 time.toNat ++ leBytes 8 detail.toNat

/-- Update a partition's own state. -/
def State.partUpd (s : State) (p : Part) (f : PartState → PartState) : State := { s with parts := vset s.parts p f }

/-- Post an event entry to the event ring of `p` (R89): lost when the ring is disabled, full, or its slot lies outside the
partition's ranges. -/
def State.post (s : State) (p : Part) (code : Nat) (d : Dom) (ring : Option Ring) (session : Word) (id detail : DWord) :
    State :=
  let z := s.rf (rPrtEvqCfg p) 24 4
  let head := s.reg (rPrtEvqHead p)
  let tail := s.reg (rPrtEvqTail p)
  let slot := fld (s.reg64 (rPrtEvqBase p)) 12 52 * 4096 + 32 * (tail.toNat % ringSlots z)
  if !s.rb (rPrtEvqCfg p) 31 || (tail - head).toNat ≥ ringSlots z || !s.memOk p slot 32 true then
    s.bump (rPrtEvqLost p)
  else
    ((s.wrBytes slot (eventBytes code (ringPhase z tail) d ring session id (s.point d) detail)).setReg
      (rPrtEvqTail p) (tail + 1#32)).partUpd p (fun x => { x with evqLast := some ⟨slot, s.rdBytes slot 32⟩ })

/-- The write of an event ended with an error response or timed out (R89): the event is lost, and EVQ_TAIL does not advance for it. A
write is answered before the next event is written (DESIGN CHOICE, log entry 8). -/
def State.evqWriteFailed (s : State) (p : Part) (a : Nat) : State :=
  match (s.parts[p]).evqLast with
  | some w =>
    if w.addr != a then s
    else
      (((s.wrBytes a w.old).setReg (rPrtEvqTail p) (s.reg (rPrtEvqTail p) - 1#32)).bump (rPrtEvqLost p)).partUpd p
        (fun x => { x with evqLast := none })
  | none => s

/-- Post an event to every partition (R99, the events marked "all"). -/
def State.postAll (s : State) (code : Nat) (detail : DWord) : State :=
  (List.finRange 16).foldl (fun s p => s.post p code 0 none noSession 0#64 detail) s

/-- Post RING_ERROR (R99). -/
def State.ringError (s : State) (r : Ring) (cause : Nat) (id hi : Nat) : State :=
  match s.ringOwner r with
  | some p => s.post p 0x0A 0 (some r) noSession (BitVec.ofNat 64 id) (BitVec.ofNat 64 (hi * 2 ^ 32 + cause))
  | none => s

/-! ### Ring pairs, contexts, strands -/

/-- Update a ring pair. -/
def State.ringUpd (s : State) (r : Ring) (f : RingPair → RingPair) : State := { s with rings := vset s.rings r f }
/-- Update a step domain. -/
def State.sdUpd (s : State) (d : Dom) (f : StepDomain → StepDomain) : State := { s with sd := vset s.sd d f }
/-- The op in a context. -/
def State.ctx? (s : State) (c : Ctx) : Option OpCtx := s.ctxs.find? (fun x => x.id == c)
/-- Replace the op in its context. -/
def State.ctxUpd (s : State) (c : Ctx) (f : OpCtx → OpCtx) : State :=
  { s with ctxs := s.ctxs.map (fun x => if x.id == c then f x else x) }
/-- Free a context. -/
def State.ctxFree (s : State) (c : Ctx) : State := { s with ctxs := s.ctxs.filter (fun x => x.id != c) }

/-- The strand of a session. -/
def State.strand? (s : State) (p : Part) (sid : Word) : Option Strand :=
  s.strands.find? (fun x => x.part == p && x.session == sid)
/-- Update a session's strand. -/
def State.strandUpd (s : State) (p : Part) (sid : Word) (f : Strand → Strand) : State :=
  { s with strands := s.strands.map (fun x => if x.part == p && x.session == sid then f x else x) }
/-- Remove a session's strand. -/
def State.strandDel (s : State) (p : Part) (sid : Word) : State :=
  { s with strands := s.strands.filter (fun x => !(x.part == p && x.session == sid)) }
/-- The locket of a parked session. -/
def State.locket? (s : State) (p : Part) (sid : Word) : Option Locket :=
  s.lockets.find? (fun x => x.part == p && x.session == sid)

/-- A command answers the next state. -/
abbrev next (s : State) : Host.Outcome State Fault Refusal := .next s

end Sys2Proof.Machine
end

