-- ==== Sys2Proof/Machine/Observe.lean ====
section
/-! DEFINITION. Sys2Proof/Machine/Observe.lean: when a command of the running instance takes effect (R555, R632), and what the loupe and
the slack governor see of it (R608, R658 to R667). -/
namespace Sys2Proof.Machine
open Sys2Proof

/-- The instance runs: DONE is set, and PAIR_ISO does not hold it (R555, R632). -/
def State.running (s : State) : Bool := s.rb rCfgBootStat 31 && !s.rb rGlbPairStat 29

/-! ### Trace records (R659 to R661) -/

/-- The 32 bytes of a trace record (R660). -/
def traceBytes (time code : Nat) (part : Option Part) (session index : Word) (ring : Option Ring) (status a0 a1 : Nat) : List Byte :=
  leBytes 6 time ++ leBytes 1 code ++ leBytes 1 (match part with | some p => p.val * 16 + 8 | none => 0) ++
  leBytes 4 session.toNat ++ leBytes 4 index.toNat ++ leBytes 1 (match ring with | some r => 128 + r.val | none => 0) ++
  leBytes 1 status ++ leBytes 2 0 ++ leBytes 4 a0 ++ leBytes 8 a1

/-- Insert a record in order of TIME, and of CODE for equal TIME (R659). -/
def traceInsert (r : TraceRec) : List TraceRec → List TraceRec
  | [] => [r]
  | x :: l => if x.time < r.time || (x.time == r.time && x.code ≤ r.code) then x :: traceInsert r l else r :: x :: l

/-- Is a record of this code and partition admitted (R661)? -/
def State.traceOn (s : State) (code : Nat) (part : Option Part) : Bool :=
  s.rb rLpeTraceCtrl 31 && s.rb rLpeTraceClass code && (match part with | some p => s.rb rLpeTraceCfg (16 + p) | none => true)

/-- Queue a record; one that finds 1,024 queued is dropped and counted (R659). -/
def State.trace' (s : State) (code : Nat) (part : Option Part) (session index : Word) (ring : Option Ring) (status a0 a1 : Nat) : State :=
  if !s.traceOn code part then s
  else if 1024 ≤ s.trace.length then s.bump rLpeTraceDrop
  else { s with trace := traceInsert ⟨s.time, code, traceBytes s.time code part session index ring status a0 a1⟩ s.trace }

/-! ### Event counters (R667) -/

/-- Which events pass the partition filter and the group filter. -/
def pFiltEvents : List Nat := [3, 4, 5, 6, 7, 8, 9, 10, 12, 13, 14, 15, 16, 17, 18, 19, 20]
def gFiltEvents : List Nat := [2, 5, 6, 9, 10, 11, 13, 19]

/-- Does counter `n` count events `ev` of this partition and group? A group not given passes. -/
def State.counts (s : State) (n ev : Nat) (part : Option Part) (grp : Option Grp) : Bool :=
  let o := rLpeCntSel n
  s.rb rLpeCntCtrl 31 && s.rf o 24 8 == ev &&
  (!s.rb o 23 || !pFiltEvents.contains ev || part.map (·.val) == some (s.rf o 19 4)) &&
  (!s.rb o 18 || !gFiltEvents.contains ev || grp.map (·.val) == some (s.rf o 14 4))

/-- Count `k` events. -/
def State.count (s : State) (ev : Nat) (part : Option Part) (grp : Option Grp) (k : Nat) : State :=
  (List.range 8).foldl (fun s n => if s.counts n ev part grp then s.bump64 (rLpeCnt n) k else s) s

/-- Count one event of a partition that concerns several groups: once, under a filter that names one of them. -/
def State.countIn (s : State) (ev : Nat) (p : Part) (gs : List Grp) : State :=
  (List.range 8).foldl (fun s n =>
    if s.counts n ev (some p) none || gs.any (fun g => s.counts n ev (some p) (some g)) then s.bump64 (rLpeCnt n) 1 else s) s

/-- Count events whose number the spec leaves to the hardware's timing: free values below `m` (DESIGN CHOICE, log entry 2). -/
def State.countFree (s : State) (ev m : Nat) : State :=
  (List.range 8).foldl (fun s n =>
    if s.rb rLpeCntCtrl 31 && s.rf (rLpeCntSel n) 24 8 == ev then
      let (k, s) := s.freeBelow m
      s.bump64 (rLpeCnt n) k
    else s) s

/-! ### The governor's view (R608) -/

/-- The cluster group of a cluster. -/
def cluGrp (c : Clu) : Grp := ⟨c.val / 4, by omega⟩

/-- Clusters in service that a partition owns. -/
def State.ownClusters (s : State) (p : Part) : List Clu :=
  (List.finRange 64).filter (fun c => bit (s.reg64 rGlbCluMap) c && s.groupOwner (cluGrp c) == some p)

/-- A bead of a cluster carries work: an active one that the fuses of the boot do not mark defective, and the spare, bead 32, where it replaces
one (R16, R571). -/
def State.beadOn (s : State) (c : Clu) (b : Fin 33) : Bool :=
  let map := s.reg (rFusWord (0x40 + 2 * c.val))
  if b.val < 32 then !bit map b.val else map != 0#32

/-- Clusters that a vocabulary of `n` tokens needs (R22). -/
def clustersFor (n : Nat) : Nat := (n + 1048575) / 1048576

/-- Update a group's governor. -/
def State.grpUpd (s : State) (g : Grp) (f : GrpCtl → GrpCtl) : State := { s with grp := vset s.grp g f }

/-- Least slack seen in the interval. -/
def GrpCtl.see (x : GrpCtl) (n : Nat) : GrpCtl := { x with slack := some (match x.slack with | some m => min m n | none => n) }

/-- The home group of a session's strand. -/
def State.homeGrp (s : State) (p : Part) (sid : Word) : Option Grp := (s.strand? p sid).map (fun t => cluGrp t.home)

/-- The group that an op's work ran on where neither its shares nor its units say so: its session's home group, else one of the partition's
groups, a free value choosing (DESIGN CHOICE, log entry 2). -/
def State.workGrp (s : State) (p : Part) (sid : Word) : Option Grp × State :=
  match s.homeGrp p sid with
  | some g => (some g, s)
  | none =>
    let gs := (List.finRange 16).filter (fun g => s.groupOwner g == some p)
    let (k, s) := s.freeBelow (max 1 gs.length)
    (gs[k]?, s)

/-- The groups that the work of an op, or of one of its items, ran on (R22, R226, R608): the home group and those of a split row's shares; those of
the encode units. -/
def State.workGrps (s : State) (x : OpCtx) (sid : Word) (i : Option BatchItem) : List Grp × State :=
  let shares := match i with | some i => i.shares.map cluGrp | none => x.shares.map cluGrp
  if x.ranOn.isEmpty then
    let (g, s) := s.workGrp x.part sid
    ((g.toList ++ shares).eraseDups, s)
  else (x.ranOn.eraseDups, s)

/-- Slack of a deadline point now, in phase ticks of its domain: deadline less now, modulo 2^52 as points run (R43, R608); 0 for a point that is
past. -/
def State.slackOf (s : State) (d : Dom) (dl : DWord) : Nat :=
  let n := (2 ^ 52 + ptStep dl * 4096 + ptPhase dl - ((s.sd[d]).step.toNat * 4096 + s.phase d)) % 2 ^ 52
  if n < 2 ^ 51 then n else 0

/-- A step waited for its run-ahead (R306, R608, R661, R667). -/
def State.raLateSeen (s : State) (t : Strand) : State :=
  let g := cluGrp t.home
  ((s.grpUpd g (fun x => x.see 0)).count 0x0D (some t.part) (some g) 1).trace' 7 (some t.part) t.session 0#32 none 0 t.home.val
    (s.point t.domain).toNat

/-! ### What a command did -/

/-- Statuses with which a part has committed (R140, R362). -/
def committedStatus (st : BitVec 8) : Bool := st == 0x00#8 || st == 0x01#8 || st == 0x05#8 || st == 0x15#8

/-- Fields of an entry that a record needs. -/
def xOp (x : OpCtx) : Nat := leAt x.entry 0 1
def xDom (x : OpCtx) : Dom := ⟨nf (leAt x.entry 1 1) 5 2 % 4, Nat.mod_lt _ (by decide)⟩
def xSession (x : OpCtx) : Word := BitVec.ofNat 32 (leAt x.entry 4 4)
def xDl (x : OpCtx) : Option DWord := if (leAt x.entry 1 1).testBit 7 then some (BitVec.ofNat 64 (leAt x.entry 16 8)) else none

/-- One part of an op has committed (R608, R661, R667). -/
def State.sawCommit (s : State) (x : OpCtx) (sid : Word) (part : Nat) (st : BitVec 8) (i : Option BatchItem) : State :=
  let s := s.trace' 3 (some x.part) sid x.index (some x.ring) st.toNat part (s.point (xDom x)).toNat
  let s := if xOp x == 0x06 then s.count 5 (some x.part) (s.homeGrp x.part sid) 1 else s
  match xDl x with
  | none => s
  | some dl =>
    let (gs, s) := s.workGrps x sid i
    gs.foldl (fun s g => s.grpUpd g (fun y => y.see (s.slackOf (xDom x) dl))) s

/-- A final status or record of DEADLINE_MISSED (R608, R661, R667). -/
def State.sawMiss (s : State) (x : OpCtx) (sid : Word) (i : Option BatchItem) : State :=
  let s := s.trace' 6 (some x.part) sid x.index (some x.ring) 0x04 (xOp x) (((xDl x).map (·.toNat)).getD 0)
  let (gs, s) := s.workGrps x sid i
  let s := s.countIn 0x13 x.part gs
  gs.foldl (fun s g => s.grpUpd g (fun y => { y with missed := true })) s

/-- How one op changed from `x` to `y`. -/
def State.sawOp (s : State) (x y : OpCtx) : State :=
  let s := if x.st == .queued && y.st == .ready then
      s.trace' 2 (some y.part) (xSession y) y.index (some y.ring) 0 (xOp y) (s.point (xDom y)).toNat
    else s
  let s := (y.items.zipIdx.zip x.items).foldl (fun s q =>
      let j := q.1.1
      if j.phase == .done && q.2.phase != .done then
        if committedStatus j.status then s.sawCommit y j.session q.1.2 j.status (some j)
        else if j.status == 0x04#8 then s.sawMiss y j.session (some j) else s
      else s) s
  let s := if x.st == .ready && y.st == .past && y.items.isEmpty && ((y.status.map committedStatus).getD true) then
      s.sawCommit y (xSession y) 0 (y.status.getD 0#8) none
    else s
  if x.status.isNone && y.status == some 0x04#8 then s.sawMiss y (xSession y) none
  else if x.status.isNone && y.status == some 0x0A#8 && [0x01, 0x0C, 0x0E].contains (xOp y) then
    (s.count 0x14 (some y.part) none 1).trace' 0xD (some y.part) (xSession y) y.index (some y.ring) 0x0A
      (s.rf (rPrtAdmitStat y.part) 0 4) (s.point (xDom y)).toNat
  else s

/-- A newly dispatched op. -/
def State.sawDispatch (s : State) (y : OpCtx) : State :=
  ((s.count 3 (some y.part) none 1).trace' 1 (some y.part) (xSession y) y.index (some y.ring) 0 (xOp y) (s.point (xDom y)).toNat).sawOp
    { y with st := .queued, status := none } y

/-- A completed op. -/
def State.sawComplete (s : State) (x : OpCtx) : State :=
  (s.count 4 (some x.part) none 1).trace' 4 (some x.part) (xSession x) x.index (some x.ring) ((x.status.getD 0#8).toNat) (xOp x)
    (s.point (xDom x)).toNat

/-- A step domain accepted a beat. -/
def State.sawBeat (s : State) (d : Dom) : State := s.trace' 5 none 0xFFFFFFFF#32 0#32 none 0 d.val (s.point d).toNat

/-- The counter that reports the rise of the encode input bytes. -/
def State.sawBytes (s s0 : State) (p : Part) : State :=
  let d := (s.reg64 (rPrtEncBytes p) - s0.reg64 (rPrtEncBytes p)).toNat
  if d == 0 then s
  else
    let (g, s) := s.workGrp p 0xFFFFFFFF#32
    s.count 6 (some p) g d

/-- Lockets that left the warm tier for the cold one. -/
def State.sawMoves (s s0 : State) : State :=
  (s0.lockets.filter (fun l => !l.warm.isEmpty && s.lockets.any (fun k =>
    k.part == l.part && k.session == l.session && k.id == l.id && k.warm.isEmpty))).foldl
    (fun s l => s.trace' 0xC (some l.part) l.session 0#32 none 0 0 l.id.toNat) s

/-- A partition has a section with no place in the VGS (R220). -/
def State.anyUnplaced (s : State) (p : Part) : Bool :=
  s.objs.any (fun v => v.part == p && (List.range v.sects.length).any (fun i => !v.placed.any (fun x => x.1 == i)))
/-- Lines of a partition's objects read from the backing (R220, R222, R667). -/
def State.missLines (s : State) (p : Part) (k : Nat) : State := (s.bump64 (rPrtVgsMiss p) k).count 0x0C (some p) none k
/-- Lines of unplaced sections that Pliow's own work read in a command that carried an op or a strand of the partition on: a free number (R220,
R222; DESIGN CHOICE, log entry 2). What bead programs load is counted as they load it. -/
def State.sawMisses (s s0 : State) (p : Part) : State :=
  if s.anyUnplaced p && (s.ctxs.any (fun x => x.part == p && !s0.ctxs.contains x) ||
      s.strands.any (fun t => t.part == p && !s0.strands.contains t)) then
    let (k, s) := s.freeBelow (2 ^ 20)
    s.missLines p k
  else s

/-- All that is seen of a command that led from `s0` to `s`. -/
def State.observe (s s0 : State) : State :=
  let s := (List.finRange 4).foldl (fun s d =>
    if (s.sd[d]).step != (s0.sd[d]).step || ((s.sd[d]).st != (s0.sd[d]).st && (s0.sd[d]).st == .waiting) then s.sawBeat d else s) s
  let s := s.ctxs.foldl (fun s y =>
    match s0.ctxs.find? (fun x => x.seq == y.seq) with
    | some x => if x == y then s else s.sawOp x y
    | none => s.sawDispatch y) s
  let s := s0.ctxs.foldl (fun s x => if s.ctxs.any (fun y => y.seq == x.seq) then s else s.sawComplete x) s
  let s := (List.finRange 16).foldl (fun s p => s.sawMisses s0 p) s
  if s.regs == s0.regs && s.lockets == s0.lockets then s
  else ((List.finRange 16).foldl (fun s p => s.sawBytes s0 p) s).sawMoves s0

/-- A command of the running instance: its effect, and what is seen of it; held in reset, in boot or in PAIR_ISO the block takes no such
command (R555, R560, R632). A secondary leaves no shared write (R620). -/
def run (f : State → State) (s : State) : Host.Outcome State Fault Refusal :=
  if s.running then next (((f s).ownWrites s).observe s) else next s

/-- A command of the AON domain: it takes effect always, and is seen while the instance runs. -/
def runAon (f : State → State) (s : State) : Host.Outcome State Fault Refusal :=
  if s.running then next (((f s).ownWrites s).observe s) else next (f s)

end Sys2Proof.Machine
end

