-- ==== Sys2Proof/Machine/Resets.lean ====
section
/-! DEFINITION. Sys2Proof/Machine/Resets.lean: chain frames, what each reset source keeps and clears, the whole-instance resets, PAIR_ISO,
and the fault windows (R566, R579 to R592, R627 to R634). -/
namespace Sys2Proof.Machine
open Sys2Proof

/-! ### Chain frames (R566) -/

/-- One byte of CRC-8, polynomial 0x07, most significant bit first (DEDUCED, log entry 24). -/
def crc8Byte (c b : Byte) : Byte :=
  (List.range 8).foldl (fun c _ => (c <<< 1) ^^^ (if c.getLsbD 7 then 0x07#8 else 0#8)) (c ^^^ b)
/-- CRC-8 of bits [55:8] of a frame, taken as its bytes 1 to 6. -/
def frameCrc (f : DWord) : Byte := (((leBytes 8 f.toNat).drop 1).take 6).foldl crc8Byte 0#8
/-- Fields of a frame. -/
def fDest (f : DWord) : Nat := fld f 8 4
def fSrc (f : DWord) : Nat := fld f 12 4
def fType (f : DWord) : Nat := fld f 16 8
def fPay (f : DWord) : Nat := fld f 24 32
/-- SYNC and CRC are good. -/
def frameOk (f : DWord) : Bool := fld f 0 8 == 0xD5 && fld f 56 8 == (frameCrc f).toNat
/-- Build a frame. -/
def mkFrame (dest src typ pay : Nat) : DWord :=
  let f : DWord := BitVec.ofNat 64 (0xD5 + dest * 2 ^ 8 + src * 2 ^ 12 + typ * 2 ^ 16 + (pay % 2 ^ 32) * 2 ^ 24)
  setFld f 56 8 (frameCrc f).toNat

/-- The instance's chain address, 15 when it holds none. -/
def State.chnAddr (s : State) : Nat := if s.rb rChnStat 31 then s.rf rChnStat 24 4 else 15
/-- Put frames on CHN_OUT. -/
def State.send (s : State) (l : List DWord) : State := { s with chnOut := l }
/-- Send a frame of the instance's own. -/
def State.sendTo (s : State) (dest typ pay : Nat) : State := { s with chnOut := s.chnOut ++ [mkFrame dest s.chnAddr typ pay] }

/-! ### The pair's roles (R639) -/

/-- ROLE of GLB_PAIR_STAT: 0 single, 1 primary, 2 secondary, 3 survivor. -/
def State.role (s : State) : Nat := s.rf rGlbPairStat 30 2
/-- A member of a formed pair. -/
def State.paired (s : State) : Bool := s.role == 1 || s.role == 2
/-- The partner's chain address. -/
def State.partner (s : State) : Nat := s.rf rChnStat 20 4
/-- Registers that are open before DONE (R555). -/
def bootOpen (off : Nat) : Bool :=
  off == rGlbId || off == rGlbCaps || (0x400 ≤ off && off < 0x700) || (0xC00 ≤ off && off < 0x1000)
/-- Registers that are open under PAIR_ISO (R632). -/
def isoOpen (off : Nat) : Bool :=
  bootOpen off || (0x1000 ≤ off && off < 0x1100) || (0x1300 ≤ off && off < 0x1340)

/-- Registers whose writes each member of a pair takes from software itself: GLB_PAIR_, RST_, CHN_, CFG_, FUS_ and SEC_ (R619). -/
def ownWrite (off : Nat) : Bool := isoOpen off || (0xA00000 ≤ off && off < 0xA10000)
/-- A primary forwards a write that it accepts to the secondary's CSR window at GLB_PAIR_PEER (R619). -/
def State.forwardWrite (s : State) (off : Nat) (v : Word) : State :=
  if s.role == 1 && !ownWrite off then { s with peerOut := s.peerOut ++ [((s.reg64 rGlbPairPeer).toNat + off, v)] } else s
/-- A secondary ignores a write of software outside the list of R619. -/
def State.ignores (s : State) (src : WriteSrc) (off : Nat) : Bool := s.role == 2 && src == .host && !ownWrite off
/-- The write of one register while the instance runs: a primary forwards it before it acts. -/
def runWrite (off : Nat) (v : Word) (f : State → State) (s : State) : Host.Outcome State Fault Refusal :=
  run (fun s => f (s.forwardWrite off v)) s

/-- Send a frame to the partner. -/
def State.sendPartner (s : State) (typ pay : Nat) : State := s.sendTo s.partner typ pay

/-! ### What a reset keeps (R583) -/

/-- Registers held in the AON domain or kept by it: RST_, GLB_SD_, the chain port's, the pair token, the power domains requested off, and
the strap and fuse values in force until the boot reads them again (R54 to R63, R555, R582 to R599, R632, R640, R647). -/
def keptReg (off : Nat) : Bool :=
  (rRstBkp 0 ≤ off && off ≤ rRstBkp 15) || off == rRstCause || off == rRstCfg || off == rRstDataBase || off == rRstDataBase + 4 ||
  off == rRstDataCfg || (0x100 ≤ off && off ≤ rGlbSdEvtEn) || off == rChnStat || off == rChnErrCnt ||
  off == rGlbPairToken || off == rGlbPairToken + 4 || off == rPwrDomOff || off == rPwrDomOff + 4 || off == rPwrDomSys || off == rCfgStrap || off == rGlbCaps || off == rGlbCluMap || off == rGlbCluMap + 4 ||
  off == rCfgBootStat || off == rFusStat || off == rFusArb || (rFusMarg 0 ≤ off && off < rFusMarg 8) || (rFusWord 0 ≤ off && off < rFusWord 256)
/-- What is kept of a register: STRAP of CFG_BOOT_STAT, DEBUG_LOCK of FUS_STAT, all of the others. -/
def keptVal (off : Nat) (v : Word) : Word :=
  if off == rCfgBootStat then v &&& 0xF#32 else if off == rFusStat then v &&& 0x20000000#32 else v

/-- A die after the park controller was reset: array operations end, and the tracker starts from its journalled offsets (R484, R486). -/
def FlashDie.restart (d : FlashDie) : FlashDie :=
  { d with usable := false, jobs := [], susp := 0, ranks := [], timeoutAt := none, collecting := false
           bins := Vector.ofFn (fun (i : Fin 4) => { off := d.savedOff.getD i 0 }) }
/-- A channel after the park controller was reset: what had not reached the media is gone (R487, R489). -/
def FlashChan.restart (x : FlashChan) : FlashChan :=
  { x with online := false, wantOn := true, dies := x.dies.map FlashDie.restart, jbuf := [], stripes := [], erasing := false, scrub := 0 }

/-- A locket after a reset of the park controller: copies without a durable record are freed (R489); a move stays under way and begins again at
its step 1 (R454). -/
def Locket.restart (l : Locket) : Locket := { l with cold := l.cold.filter (·.durable), rekey := none }

/-- Everything but the AON domain is reset (R581 to R583): ops, threads and on-chip memories are gone; what chip memory and the retained
SRAM hold stays. -/
def State.wipe (s : State) : State :=
  { s with
    regs := ((s.regs.filter (fun x => keptReg x.1)).map (fun x => (x.1, keptVal x.1 x.2))).filter (fun x => x.2 != regReset x.1)
    pairLatch := [], pairHold := []
    rings := Vector.replicate 64 {}
    ctxs := []
    parts := s.parts.map (fun x => { x with
      stall := [], encNext := 0, reportDue := false, recover := 0, ak := Vector.replicate 2 none })
    objIds := (s.objIds.filter (fun o => s.objs.any (fun v => v.part == o.part && v.id == o.id))).map (fun o =>
      { o with loading := false, retireInFlight := false })
    objs := s.objs.map (fun v => { v with placed := [] })
    strands := s.strands.map (fun t => { t with ra := none, raDue := false, sparePages := [] })
    lockets := s.lockets.map Locket.restart
    threads := [], scratch := Vector.replicate 64 {}, vgs := {}, imem := [], ctrlSram := [], fabLate := [], fabCut := [(0x100, s.time)], sidLog := []
    chans := s.chans.map FlashChan.restart
    boot := {}
    port := none, chnWait := none, pair := {}
    vseg := Vector.replicate 17 {}, grp := Vector.replicate 16 {}, ests := [], raisedAt := 0, coolAt := none, waking := [], sleeping := [], domLog := [], lastAt := []
    units := [], trace := [], traceBase := 0, traceSlots := 2048, access := none, accessAt := 0, lastRing := 63 }

/-- CHN_STAT keeps the address and its flags; the partner is recorded anew at pairing. -/
def State.keepAddress (s : State) : State := s.setReg rChnStat (setFld (setFld (setFld (s.reg rChnStat) 28 1 0) 20 4 0) 16 3 0)

/-- The capture of R581. -/
def State.captured (s : State) (source : Nat) : Capture :=
  { source := source
    count := s.capture.count + 1
    sdTime := Vector.ofFn (fun d => s.point d)
    rings := Vector.ofFn (fun r => { sqHead := s.reg (rPrtSqHead r), sqTail := s.reg (rPrtSqTail r), cqHead := s.reg (rPrtCqHead r)
                                     cqTail := s.reg (rPrtCqTail r), owner := s.ringOwner r, enabled := s.rb (rPrtRingCfg r) 31 })
    evqs := Vector.ofFn (fun p => (s.reg (rPrtEvqHead p), s.reg (rPrtEvqTail p))) }

/-- RST_CAUSE after a reset of source `k` (R594). -/
def State.setCause (s : State) (k : Nat) : State := (s.setRf rRstCause 28 4 k).setRb rRstCause (k - 1) true

/-- A whole-instance reset of source `k`, 2 to 5 (R579, R581, R589, R634): capture, a RESET frame to a partner that is not lost, and the reset, which
ends every op and leaves its output invalid; the boot follows with BOOT_SEQUENCE. -/
def State.wholeReset (s : State) (k : Nat) : State :=
  let s := if s.role == 2 then s else s.ctxs.foldl State.spoilOut s
  let s := if s.paired && !s.rb rGlbPairStat 28 then s.sendPartner 0x02 0 else s
  (({ s with capture := s.captured k }.wipe).keepAddress).setCause k

/-- A die across PWR_ON: what the media hold. -/
def FlashDie.cold (d : FlashDie) : FlashDie := d.restart
/-- PWR_ON (R579, R583): the whole block at its reset values; what lies outside it stays: chip memory, the configuration flash, the blown
fuses and the flash media with their journals (DEDUCED, log entry 25). -/
def State.powerOn (s : State) : State :=
  { State.reset with
    pending := s.pending, freeCtr := s.freeCtr, mem := s.mem, flash := s.flash, fuses := s.fuses
    chans := s.chans.map FlashChan.restart, aonBefore := s.aonBefore + s.time }

/-- Enter PAIR_ISO (R579, R592, R630): held in reset until a source of codes 1 to 5. -/
def State.enterIso (s : State) : State := ((s.wipe.keepAddress).setCause 6).setRb rGlbPairStat 29 true

/-! ### Isolation (R629, R630, R633) -/

/-- This member is to be isolated: it sends ISOLATE and waits for the acknowledgement. -/
def State.isolateSelf (s : State) : State :=
  if s.pair.isoAt.isSome then s
  else
    let me := if s.role == 1 then 0 else 1
    let s := s.sendPartner 0x41 me
    { s with pair := { s.pair with isoAt := some s.time } }

/-- This member survives (R630): ROLE 3, a new pair token (a free value), HOLD cleared, PAIR_ISOLATED posted with the member isolated. -/
def State.survive (s : State) (gone : Nat) : State :=
  let (t, s) := s.freeBelow (2 ^ 64)
  let s := s.setReg64 rGlbPairToken (BitVec.ofNat 64 t)
  let s := ((s.setRf rGlbPairStat 30 2 3).setRb rGlbPairStat 27 false)
  let s : State := { s with pair := { s.pair with given := [], early := [] } }
  s.postAll 0x10 (BitVec.ofNat 64 gone)

/-! ### Fault windows (R627, R628) -/

/-- Configuration of a fault counter: ISOLATE, LIMIT and WINDOW in AON cycles; counter 7 is fixed at one event. -/
def State.faultCfg (s : State) (n : Nat) : Bool × Nat × Nat :=
  if n == 7 then (true, 1, 0)
  else
    let o := rGlbFltCfg0 + 4 * n
    (s.rb o 31, s.rf o 24 7, s.rf o 0 24 * 100000)

/-- Commits are held and the self-test runs (R629): its result is the hardware's, a free value (DESIGN CHOICE, log entry 2), and goes to the partner in a
SELFTEST frame. -/
def State.startHold (s : State) : State :=
  if s.rb rGlbPairStat 27 then s
  else
    let s := { s.setRb rGlbPairStat 27 true with pair := { s.pair with holdAt := s.time } }
    let (k, s) := s.freeBelow 2
    let (c, s) := s.freeBelow 256
    (s.setRf rGlbPairStat 25 2 (2 - k)).sendPartner 0x46 (if k == 1 then 1 + 0xFF * 2 ^ 8 else c * 2 ^ 8)

/-- What a lasting fault brings (R628). -/
def State.faultLasting (s : State) (n unit : Nat) : State :=
  let (iso, _, _) := s.faultCfg n
  let s := s.setRb rGlbFltStat n true
  let s := if s.rb rGlbFltLast 31 then s
    else s.setReg rGlbFltLast (BitVec.ofNat 32 (2 ^ 31 + n * 2 ^ 24 + unit % 2 ^ 16))
  let s := s.postAll 0x0F (BitVec.ofNat 64 n)
  let s := s.trace' 0xA none 0xFFFFFFFF#32 0#32 none 0 n unit
  if s.paired then
    if !iso then s
    else if n == 0 then s.startHold
    else if n == 7 then (if s.role == 2 then s.isolateSelf else s)
    else s.isolateSelf
  else if n == 6 then s.wholeReset 5
  else s

/-- Events of a counter's unit within its window (R627). -/
def State.faultCount (s : State) (n unit window : Nat) : Nat :=
  (s.faults.filter (fun x => x.1 == n && x.2.1 == unit && s.time < x.2.2 + window)).length
/-- A unit's fault is lasting (R627). -/
def State.faultLasts (s : State) (n unit : Nat) : Bool :=
  let (_, limit, window) := s.faultCfg n
  limit != 0 && limit ≤ s.faultCount n unit window
/-- One event of a fault counter that is not disabled (R627, R628, R644): events that leave the window go first; the fault becomes lasting when this event
reaches LIMIT, and not again with each event that finds it lasting (DEDUCED, log entry 47). -/
def State.faultEvent (s : State) (n unit : Nat) : State :=
  let (_, limit, window) := s.faultCfg n
  if limit == 0 then s
  else
    let was := s.faultCount n unit window
    let old := s.faults.filter (fun x => x.1 != n || s.time < x.2.2 + window)
    let t := { s with faults := old ++ [(n, unit, s.time)] }
    if was < limit && limit ≤ was + 1 then t.faultLasting n unit else t
/-- A write of GLB_FLT_CFG that puts LIMIT or WINDOW_MS so that a unit's events now reach the limit makes its fault lasting (R627, R642; DEDUCED, log
entry 47). -/
def State.faultCfgWrite (s : State) (n : Nat) (plain : State → State) : State :=
  let us := ((s.faults.filter (fun x => x.1 == n)).map (fun x => x.2.1)).eraseDups
  let t := plain s
  (us.filter (fun u => !s.faultLasts n u && t.faultLasts n u)).foldl (fun t u => t.faultLasting n u) t

/-- A mismatch that is lasting whatever the limit (R625). -/
def State.lastingMismatch (s : State) : State := s.faultLasting 0 0

/-! ### Meanings -/

/-- This is the cycle of a PWR_ON, which any other source of the cycle yields to (R618). -/
def State.poweredNow (s : State) : Bool := s.time == 0 && s.rf rRstCause 28 4 == 1
/-- HOST_WARM_RESET, source 2. -/
def hostWarmReset (s : State) : State := if s.poweredNow then s else s.wholeReset 2
/-- SOFT_RESET (R593, R560, R632): KEY 0xA5 and SOFT; it acts from DONE on, in the FAIL state and under PAIR_ISO. -/
def softReset (v : Word) (s : State) : State :=
  if fld v 24 8 == 0xA5 && bit v 0 && (s.rb rCfgBootStat 31 || s.rb rCfgBootStat 29 || s.rb rGlbPairStat 29) then s.wholeReset 5 else s
/-- FW_WATCHDOG_EXPIRY (R580, R618): a period of 1 s has passed without service; the watchdog is stopped before DONE and in the FAIL state. -/
def fwWatchdogExpiry (s : State) : State := if s.running && s.wdogAt + 100000000 ≤ s.time then s.wholeReset 4 else s

/-- POWER_ON_RESET. -/
def execPowerOnReset (s : State) : Host.Outcome State Fault Refusal := next s.powerOn
/-- HOST_WARM_RESET. -/
def execHostWarmReset (s : State) : Host.Outcome State Fault Refusal := next (hostWarmReset s)
/-- SOFT_RESET. -/
def execSoftReset (v : Word) (s : State) : Host.Outcome State Fault Refusal := next (softReset v s)
/-- FW_WATCHDOG_EXPIRY. -/
def execFwWatchdogExpiry (s : State) : Host.Outcome State Fault Refusal := next (fwWatchdogExpiry s)

end Sys2Proof.Machine
end

