-- ==== Sys2Proof/Machine/Chain.lean ====
section
/-! DEFINITION. Sys2Proof/Machine/Chain.lean: the management chain (R566 to R570, R632, R635). -/
namespace Sys2Proof.Machine
open Sys2Proof

/-- A frame addressed to this instance alone. -/
def State.forMe (s : State) (f : DWord) : Bool := s.rb rChnStat 31 && fDest f == s.rf rChnStat 24 4
/-- Frame types that are not reserved (R566, R637). -/
def knownType (t : Nat) : Bool := t == 0x01 || t == 0x02 || (0x10 ≤ t && t ≤ 0x17) || t == 0x20 || t == 0x21 || (0x40 ≤ t && t ≤ 0x46)
/-- The instance is in a reset, or held by PAIR_ISO. -/
def State.resetting (s : State) : Bool := s.boot.phase == .held

/-- A frame dropped for its SYNC or CRC (R566). -/
def State.dropFrame (s : State) : State := s.bump rChnErrCnt

/-- Forward a frame that is not addressed only to this instance (R566). -/
def State.forward (s : State) (f : DWord) : State := if s.forMe f then s else { s with chnOut := s.chnOut ++ [f] }

/-- Answer a frame. -/
def State.ackTo (s : State) (f : DWord) : State := s.sendTo (fSrc f) 0x20 (fType f)
def State.nackTo (s : State) (f : DWord) (why : Nat) : State := s.sendTo (fSrc f) 0x21 why

/-- Receive a frame of one of the types that `typ` admits: a bad frame is dropped and counted; other frames are forwarded where they must
be, and acted on when they are for this instance. While it resets or is held by PAIR_ISO the instance answers every frame addressed to it
with NACK, reason 1 (R632, R635). -/
def State.recv (s : State) (f : DWord) (typ : Nat → Bool) (act : State → State) : State :=
  if !frameOk f then s.dropFrame
  else if !typ (fType f) then s
  else
    let s := s.forward f
    if s.forMe f then (if s.resetting then s.nackTo f 1 else act s)
    else if s.rb rChnStat 31 && fDest f == 15 && !s.resetting then act s
    else s

/-- The instance takes the next address of an ENUM frame and passes on the one after it; from 8 on it takes none (R567). -/
def State.takeAddress (s : State) (f : DWord) : State :=
  let n := fPay f % 16
  if 8 ≤ n then
    { (s.setRb rChnStat 29 true).setRb rChnStat 31 false with chnOut := s.chnOut ++ [f] }
  else
    let moved := s.rb rChnStat 31 && s.rf rChnStat 24 4 != n
    let s := if moved then s.setRb rChnStat 30 true else s
    let s := ((s.setRb rChnStat 31 true).setRb rChnStat 29 false).setRf rChnStat 24 4 n
    { s with chnOut := s.chnOut ++ [mkFrame (fDest f) (fSrc f) 0x01 (fPay f + 1)] }

/-- ENUM (R567, R578, R632): one that is resetting keeps the frame for the end of the reset; one held by PAIR_ISO forwards frames. -/
def enumFrame (f : DWord) (s : State) : State :=
  if !frameOk f then s.dropFrame
  else if fType f != 0x01 then s
  else if s.resetting && !s.rb rGlbPairStat 29 then { s with enumHeld := some f }
  else s.takeAddress f

/-- The reset has ended: an ENUM that came meanwhile is taken (R578). -/
def State.enumAfter (s : State) : State :=
  match s.enumHeld with
  | some f => State.takeAddress { s with enumHeld := none } f
  | none => s

/-- RESET (R568, R630, R632): acknowledged, then CHAIN_RST; an instance that is resetting answers NACK instead. Under PAIR_ISO the answer is
NACK, and the reset ends the hold. -/
def resetFrame (f : DWord) (s : State) : State :=
  if !frameOk f then s.dropFrame
  else if fType f != 0x02 then s
  else
    let s := s.forward f
    if !(s.forMe f || (s.rb rChnStat 31 && fDest f == 15)) then s
    else if s.rb rGlbPairStat 29 then (s.nackTo f 1).wholeReset 3
    else if s.resetting then s.nackTo f 1
    else (s.ackTo f).wholeReset 3

/-- The frame comes from an instance that the RESET sent was addressed to (R568): any of them for a broadcast. -/
def State.awaited (s : State) (f : DWord) : Bool :=
  match s.chnWait with | some (_, d) => d == 15 || d == fSrc f | none => false

/-- ACK (R568): the RESET frame sent is acknowledged. -/
def ackFrame (f : DWord) (s : State) : State :=
  s.recv f (· == 0x20) (fun s =>
    if s.awaited f && fPay f % 256 == 0x02 then { s.setRf rChnStat 16 3 1 with chnWait := none } else s)

/-- BAD_FRAME (R566). -/
def badFrame (f : DWord) (s : State) : State := if frameOk f then s else s.dropFrame

/-- RESERVED_FRAME_TYPE (R566): forwarded, or answered with NACK reason 2 when addressed to the instance. -/
def reservedFrameType (f : DWord) (s : State) : State :=
  s.recv f (fun t => !knownType t) (fun s => if s.forMe f then s.nackTo f 2 else s)

/-- CHAIN_SEND_RESET (R568, R570). -/
def chainSendReset (v : Word) (s : State) : State :=
  if !bit v 31 then s
  else if fld v 16 8 != 0x02 || fld v 24 4 == 0xE then s.setRf rChnStat 16 3 4
  else { s.sendTo (fld v 24 4) 0x02 0 with chnWait := some (s.time, fld v 24 4) }

/-- CHAIN_REPLY_TIMEOUT (R568): no reply within 100 µs. -/
def chainReplyTimeout (s : State) : State :=
  match s.chnWait with
  | some (t, _) => if t + 10000 ≤ s.time then { s.setRf rChnStat 16 3 3 with chnWait := none } else s
  | none => s

/-- ENUM. -/
def execEnum (f : DWord) (s : State) : Host.Outcome State Fault Refusal := next (enumFrame f s)
/-- RESET. -/
def execReset (f : DWord) (s : State) : Host.Outcome State Fault Refusal := next (resetFrame f s)
/-- ACK. -/
def execAck (f : DWord) (s : State) : Host.Outcome State Fault Refusal := next (ackFrame f s)
/-- BAD_FRAME. -/
def execBadFrame (f : DWord) (s : State) : Host.Outcome State Fault Refusal := next (badFrame f s)
/-- RESERVED_FRAME_TYPE. -/
def execReservedFrameType (f : DWord) (s : State) : Host.Outcome State Fault Refusal := next (reservedFrameType f s)
/-- CHAIN_SEND_RESET. -/
def execChainSendReset (v : Word) (s : State) : Host.Outcome State Fault Refusal := next (chainSendReset v s)
/-- CHAIN_REPLY_TIMEOUT. -/
def execChainReplyTimeout (s : State) : Host.Outcome State Fault Refusal := next (chainReplyTimeout s)

end Sys2Proof.Machine
end

