-- ==== Sys2Proof/Machine/Aes.lean ====
section
/-! DEFINITION. Sys2Proof/Machine/Aes.lean: AES-256, AES-256-GCM and AES-256-XTS with ciphertext stealing, as the crypto
engine uses them (R14, R219, R450, R532). -/
namespace Sys2Proof.Machine
open Sys2Proof

/-- The S-box, entry i in bits [8i+7:8i]. -/
def aesSboxN : Nat := 0x16BB54B00F2D99416842E6BF0D89A18CDF2855CEE9871E9B948ED9691198F8E19E1DC186B95735610EF6034866B53E708A8BBD4B1F74DDE8C6B4A61C2E2578BA08AE7A65EAF4566CA94ED58D6D37C8E779E4959162ACD3C25C2406490A3A32E0DB0B5EDE14B8EE4688902A22DC4F816073195D643D7EA7C41744975FEC130CCDD2F3FF1021DAB6BCF5389D928F40A351A89F3C507F02F94585334D43FBAAEFD0CF584C4A39BECB6A5BB1FC20ED00D153842FE329B3D63B52A05A6E1B1A2C830975B227EBE28012079A059618C323C7041531D871F1E5A534CCF73F362693FDB7C072A49CAFA2D4ADF04759FA7DC982CA76ABD7FE2B670130C56F6BF27B777C63
/-- The inverse S-box. -/
def aesInvSboxN : Nat := 0x7D0C2155631469E126D677BA7E042B17619953833CBBEBC8B0F52AAE4D3BE0A0EF9CC9939F7AE52D0D4AB519A97F51605FEC8027591012B131C7078833A8DD1FF45ACD78FEC0DB9A2079D2C64B3E56FC1BBE18AA0E62B76F89C5291D711AF1476EDF751CE837F9E28535ADE72274AC9673E6B4F0CECFF297EADC674F4111913A6B8A130103BDAFC1020F3FCA8F1E2CD00645B3B80558E4F70AD3BC8C00ABD890849D8DA75746155EDAB9EDFD5048706C92B6655DCC5CA4D41698688664F6F87225D18B6D49A25B76B224D92866A12E084EC3FA420B954CEE3D23C2A632947B54CBE9DEC444438E3487FF2F9B8239E37CFBD7F3819EA340BF38A53630D56A0952
/-- S-box look-up. -/
def aesSub (b : Byte) : Byte := BitVec.ofNat 8 (aesSboxN >>> (8 * b.toNat))
/-- Inverse S-box look-up. -/
def aesInvSub (b : Byte) : Byte := BitVec.ofNat 8 (aesInvSboxN >>> (8 * b.toNat))

/-- Multiplication by x in GF(2^8). -/
def gfX (b : Byte) : Byte := (b <<< 1) ^^^ (if b.getLsbD 7 then 0x1B#8 else 0#8)
/-- Multiplication in GF(2^8) by a small constant. -/
def gfMul (k : Nat) (b : Byte) : Byte :=
  let b2 := gfX b
  let b4 := gfX b2
  let b8 := gfX b4
  (if k % 2 == 1 then b else 0#8) ^^^ (if (k / 2) % 2 == 1 then b2 else 0#8) ^^^
  (if (k / 4) % 2 == 1 then b4 else 0#8) ^^^ (if (k / 8) % 2 == 1 then b8 else 0#8)

/-- Exclusive or of byte lists. -/
def xorBytes (a b : List Byte) : List Byte := List.zipWith (· ^^^ ·) a b

/-- The next key-schedule words: `n` words still to make, the words so far newest first. -/
def aesExpand : Nat → Nat → List (List Byte) → List (List Byte)
  | 0, _, ws => ws
  | n + 1, i, ws =>
    let t := ws.headD []
    let t := if i % 8 == 0 then
        xorBytes ((t.drop 1 ++ t.take 1).map aesSub) [BitVec.ofNat 8 (2 ^ (i / 8 - 1)), 0#8, 0#8, 0#8]
      else if i % 8 == 4 then t.map aesSub else t
    aesExpand n (i + 1) (xorBytes (ws.getD 7 []) t :: ws)

/-- The 15 round keys of a 32-byte key. -/
def aesKeys (key : List Byte) : List (List Byte) :=
  let ws := (aesExpand 52 8 ((List.range 8).map (fun i => (key.drop (4 * i)).take 4)).reverse).reverse
  (List.range 15).map (fun r => (ws.drop (4 * r)).take 4 |>.flatten)

/-- ShiftRows on a column-major block. -/
def aesShift (b : List Byte) : List Byte := (List.range 16).map (fun i => b.getD ((i + 4 * (i % 4)) % 16) 0#8)
/-- Inverse ShiftRows. -/
def aesInvShift (b : List Byte) : List Byte := (List.range 16).map (fun i => b.getD ((i + 12 * (i % 4)) % 16) 0#8)
/-- MixColumns with the first row of its matrix. -/
def aesMix (row : List Nat) (b : List Byte) : List Byte :=
  (List.range 16).map (fun i =>
    (List.range 4).foldl (fun acc j => acc ^^^ gfMul (row.getD ((j + 4 - i % 4) % 4) 0) (b.getD (i / 4 * 4 + j) 0#8)) 0#8)

/-- Encrypt one block. -/
def aesEnc (key b : List Byte) : List Byte :=
  let ks := aesKeys key
  let b := xorBytes b (ks.headD [])
  let b := ((ks.drop 1).take 13).foldl (fun b k => xorBytes (aesMix [2, 3, 1, 1] (aesShift (b.map aesSub))) k) b
  xorBytes (aesShift (b.map aesSub)) (ks.getD 14 [])

/-- Decrypt one block. -/
def aesDec (key b : List Byte) : List Byte :=
  let ks := (aesKeys key).reverse
  let b := xorBytes b (ks.headD [])
  let b := ((ks.drop 1).take 13).foldl
    (fun b k => aesMix [14, 11, 13, 9] (xorBytes ((aesInvShift b).map aesInvSub) k)) b
  xorBytes ((aesInvShift b).map aesInvSub) (ks.getD 14 [])

/-- Big-endian number of a byte list. -/
def beNat (bs : List Byte) : Nat := bs.foldl (fun a b => a * 256 + b.toNat) 0
/-- Big-endian bytes. -/
def beBytes (n v : Nat) : List Byte := (leBytes n v).reverse

/-- One step of the GHASH product: `n` bits of `x` left, most significant first. -/
def ghashMulAux (x : Nat) : Nat → Nat → Nat → Nat
  | 0, _, z => z
  | n + 1, v, z =>
    let z := if x.testBit n then z ^^^ v else z
    ghashMulAux x n (if v.testBit 0 then (v >>> 1) ^^^ (0xE1 <<< 120) else v >>> 1) z
/-- The GHASH product of two 128-bit numbers. -/
def ghashMul (x h : Nat) : Nat := ghashMulAux x 128 h 0

/-- Cut into 16-byte blocks, the last zero padded. -/
def blocks16 (bs : List Byte) : List (List Byte) :=
  (List.range ((bs.length + 15) / 16)).map (fun i =>
    let b := (bs.drop (16 * i)).take 16
    b ++ List.replicate (16 - b.length) 0#8)

/-- GHASH of additional data and ciphertext. -/
def ghash (h : Nat) (aad ct : List Byte) : Nat :=
  (blocks16 aad ++ blocks16 ct ++ [beBytes 8 (8 * aad.length) ++ beBytes 8 (8 * ct.length)]).foldl
    (fun y b => ghashMul (y ^^^ beNat b) h) 0

/-- The counter-mode keystream applied to data, from counter block `j` + 1, with a 12-byte IV. -/
def gcmCtr (key iv data : List Byte) : List Byte :=
  xorBytes data ((List.range ((data.length + 15) / 16)).flatMap (fun i => aesEnc key (iv ++ beBytes 4 (i + 2))))

/-- The tag of AES-256-GCM with a 12-byte IV. -/
def gcmTag (key iv aad ct : List Byte) : List Byte :=
  let h := beNat (aesEnc key (List.replicate 16 0#8))
  xorBytes (beBytes 16 (ghash h aad ct)) (aesEnc key (iv ++ beBytes 4 1))

/-- Encrypt: ciphertext and tag. -/
def gcmEnc (key iv aad pt : List Byte) : List Byte × List Byte :=
  let ct := gcmCtr key iv pt
  (ct, gcmTag key iv aad ct)

/-- Decrypt, none when the tag does not match. -/
def gcmDec (key iv aad ct tag : List Byte) : Option (List Byte) :=
  if gcmTag key iv aad ct == tag then some (gcmCtr key iv ct) else none

/-- Multiply an XTS tweak by x, bytes little-endian. -/
def xtsNext (t : List Byte) : List Byte :=
  let n := 2 * leNat t
  leBytes 16 (if n < 2 ^ 128 then n else (n - 2 ^ 128) ^^^ 0x87)

/-- One XTS block with direction `f`. -/
def xtsBlk (f : List Byte → List Byte) (t b : List Byte) : List Byte := xorBytes (f (xorBytes b t)) t

/-- XTS encryption of a data unit of at least 16 bytes under a first tweak; a partial last block steals (IEEE 1619). -/
def xtsEncAux (k1 : List Byte) : Nat → List Byte → List Byte → List Byte
  | 0, _, _ => []
  | n + 1, t, d =>
    if d.length < 32 && d.length != 16 then
      let c := xtsBlk (aesEnc k1) t (d.take 16)
      let r := d.length - 16
      xtsBlk (aesEnc k1) (xtsNext t) (d.drop 16 ++ c.drop r) ++ c.take r
    else if d.length == 16 then xtsBlk (aesEnc k1) t d
    else xtsBlk (aesEnc k1) t (d.take 16) ++ xtsEncAux k1 n (xtsNext t) (d.drop 16)

/-- XTS decryption. -/
def xtsDecAux (k1 : List Byte) : Nat → List Byte → List Byte → List Byte
  | 0, _, _ => []
  | n + 1, t, d =>
    if d.length < 32 && d.length != 16 then
      let c := xtsBlk (aesDec k1) (xtsNext t) (d.take 16)
      let r := d.length - 16
      xtsBlk (aesDec k1) t (d.drop 16 ++ c.drop r) ++ c.take r
    else if d.length == 16 then xtsBlk (aesDec k1) t d
    else xtsBlk (aesDec k1) t (d.take 16) ++ xtsDecAux k1 n (xtsNext t) (d.drop 16)

/-- AES-256-XTS with a 64-byte key (data key, then tweak key) and the data-unit number as a 128-bit tweak. -/
def xtsEnc (key : List Byte) (unit : Nat) (d : List Byte) : List Byte :=
  xtsEncAux (key.take 32) (d.length / 16 + 1) (aesEnc (key.drop 32) (leBytes 16 unit)) d
/-- Its inverse. -/
def xtsDec (key : List Byte) (unit : Nat) (d : List Byte) : List Byte :=
  xtsDecAux (key.take 32) (d.length / 16 + 1) (aesEnc (key.drop 32) (leBytes 16 unit)) d

/-- One byte of CRC-32C (reflected polynomial 0x82F6_3B78). -/
def crc32cByte (c : Word) (b : Byte) : Word :=
  (List.range 8).foldl (fun c _ => (c >>> 1) ^^^ (if c.getLsbD 0 then 0x82F63B78#32 else 0#32)) (c ^^^ b.zeroExtend 32)
/-- CRC-32C of a byte list. -/
def crc32c (bs : List Byte) : Word := ~~~(bs.foldl crc32cByte 0xFFFFFFFF#32)

end Sys2Proof.Machine
end

