-- ==== Sys2Proof/Machine/FlashPort.lean ====
section
/-! DEFINITION. Sys2Proof/Machine/FlashPort.lean: the configuration flash and its port (R545, R546, R560, R564, R565). -/
namespace Sys2Proof.Machine
open Sys2Proof

/-- What an erased byte of the configuration flash reads as (DESIGN CHOICE, log entry 26). -/
abbrev flashErased : Byte := 0xFF#8
/-- Bytes of the configuration flash. -/
def State.flashRead (s : State) (a n : Nat) : List Byte := cellRead flashErased s.flash a n
/-- A page program clears bits (DESIGN CHOICE, log entry 26). -/
def flashProg : List Host.Cell → Nat → List Byte → List Host.Cell
  | m, _, [] => m
  | m, a, b :: l => flashProg (cellSet flashErased m a (cellGet flashErased m a &&& b)) (a + 1) l
/-- An erase. -/
def State.flashErase (s : State) (a n : Nat) : State :=
  { s with flash := s.flash.filter (fun x => !(a ≤ x.1 && x.1 < a + n)) }

/-- Set RESULT of CFG_FL_STAT. -/
def State.flResult (s : State) (r : Nat) : State := s.setRf rCfgFlStat 16 8 r

/-- CFG_CS_N after DONE and in the FAIL state (R648). -/
def State.cfgCsN (s : State) : Bool := s.port.isNone

/-- The JESD216 soft-reset sequence, each command in 1-1-1 mode, and the wait of 100 µs (R648): the device starts from its power-on state. -/
def State.spiReset (s : State) : State := { s with spi := ⟨false, [0x66#8, 0x99#8], s.time + 10000⟩ }
/-- The boot ROM has read SFDP and switches the device to 1-4-4 mode (R555 step 3). -/
def State.spiQuad (s : State) : State := { s with spi := { s.spi with quad := true } }

/-- The port is available: from DONE on, and in the FAIL state (R564). -/
def State.portOpen (s : State) : Bool := s.rb rCfgBootStat 31 || s.rb rCfgBootStat 29

/-- Does [a, a + n) touch a protected part of the flash (R546, R560, R564)? The running slot is protected while a slot runs. -/
def State.flProtected (s : State) (a n : Nat) : Bool :=
  a < 0x20000 || 0x2000000 < a + n ||
  (s.rb rCfgBootStat 31 &&
    (let b := if s.rb rCfgBootStat 28 then 0x1800000 else 0x1000000
     a < b + 0x800000 && b < a + n))

/-- Bytes that a command acts on, none when its length or alignment is bad. -/
def portLen (op addr len : Nat) : Option Nat :=
  match op with
  | 1 => if 1 ≤ len && len ≤ 64 then some len else none
  | 2 => if 1 ≤ len && len ≤ 64 && addr % 256 + len ≤ 256 then some len else none
  | 3 => if addr % 0x1000 == 0 then some 0x1000 else none
  | 4 => if addr % 0x10000 == 0 then some 0x10000 else none
  | _ => none

/-- A write of CFG_FL_CTRL with one of the four commands (R564, R565). -/
def State.portStart (s : State) (op : Nat) (v : Word) : State :=
  if fld v 28 4 != op then s
  else if s.rb rCfgFlStat 31 then s.flResult 4
  else if !s.portOpen then s.flResult 5
  else
    let a := s.rf rCfgFlAddr 0 28
    match portLen op a (fld v 0 7) with
    | none => s.flResult 2
    | some n =>
      if (op != 1 && (fld v 24 4 != 0xA || s.flProtected a n)) || 0x2000000 < a + n then s.flResult 1
      else
        { s.setRb rCfgFlStat 31 true with
          port := some { op := op, addr := a, len := n
                         data := ((List.range 16).flatMap (fun k => leBytes 4 (s.reg (rCfgFlData k)).toNat)).take n } }

/-- The effect of a command on the flash and on CFG_FL_DATA, of which a read writes LEN bytes. -/
def State.portEffect (s : State) (p : PortCmd) : State :=
  match p.op with
  | 1 =>
    let old := (List.range 16).flatMap (fun k => leBytes 4 (s.reg (rCfgFlData k)).toNat)
    let b := s.flashRead p.addr p.len ++ old.drop p.len
    (List.range 16).foldl (fun s k => s.setReg (rCfgFlData k) (BitVec.ofNat 32 (leAt b (4 * k) 4))) s
  | 2 => { s with flash := flashProg s.flash p.addr p.data }
  | _ => s.flashErase p.addr p.len

/-- What a program or an erase that failed leaves in the bytes it was to change: free bytes (DESIGN CHOICE, log entry 2). -/
def State.portBroken (s : State) (p : PortCmd) : State :=
  if p.op == 1 then s
  else
    let (l, s) := s.freeBytes p.len
    { s with flash := (l.zipIdx p.addr).foldl (fun m x => cellSet flashErased m x.2 x.1) s.flash }

/-- Bytes 0 to 27 of the boot record (R556). -/
def BootRecord.head (r : BootRecord) : List Byte :=
  leBytes 4 r.magic.toNat ++ leBytes 1 r.triesA ++ leBytes 1 r.triesB ++
  leBytes 1 ((if r.incSlot then 2 else 0) + if r.incValid then 1 else 0) ++ leBytes 1 r.result ++ leBytes 4 r.incSeq ++ leBytes 4 r.incCrc ++ leBytes 12 0
/-- The record with the CRC that belongs to it, and the record as the boot ROM takes it: all zero with a valid MAGIC unless MAGIC and CRC match. -/
def BootRecord.sealed (r : BootRecord) : BootRecord := { r with crc := crc32c r.head }
def BootRecord.checked (r : BootRecord) : BootRecord := if r.magic == 0x52424C50#32 && r.crc == crc32c r.head then r else {}
/-- Write the boot record. -/
def State.setRec (s : State) (r : BootRecord) : State := { s with bootRec := r.sealed }

/-- FLASH_PORT_DONE (R560, R565): in the FAIL state the first program or erase that succeeds gives each slot its attempts again. -/
def flashPortDone (ok : Bool) (s : State) : State :=
  match s.port with
  | none => s
  | some p =>
    let s := { (s.setRb rCfgFlStat 31 false).flResult (if ok then 0 else 3) with port := none }
    if !ok then s.portBroken p
    else
      let s := s.portEffect p
      if s.rb rCfgBootStat 29 && p.op != 1 then
        let s := s.setRec { s.bootRec.checked with triesA := 0, triesB := 0, incValid := false }
        (s.setRf rCfgBootStat 12 4 0).setRf rCfgBootStat 8 4 0
      else s

/-- FLASH_PORT_BAD_OP (R565). -/
def flashPortBadOp (v : Word) (s : State) : State :=
  if 1 ≤ fld v 28 4 && fld v 28 4 ≤ 4 then s
  else if s.rb rCfgFlStat 31 then s.flResult 4
  else if !s.portOpen then s.flResult 5
  else s.flResult 2

/-- FLASH_PORT_READ. -/
def execFlashPortRead (v : Word) (s : State) : Host.Outcome State Fault Refusal := next (s.portStart 1 v)
/-- FLASH_PORT_PROGRAM. -/
def execFlashPortProgram (v : Word) (s : State) : Host.Outcome State Fault Refusal := next (s.portStart 2 v)
/-- FLASH_PORT_ERASE_4K. -/
def execFlashPortErase4k (v : Word) (s : State) : Host.Outcome State Fault Refusal := next (s.portStart 3 v)
/-- FLASH_PORT_ERASE_64K. -/
def execFlashPortErase64k (v : Word) (s : State) : Host.Outcome State Fault Refusal := next (s.portStart 4 v)
/-- FLASH_PORT_DONE. -/
def execFlashPortDone (ok : Bool) (s : State) : Host.Outcome State Fault Refusal := next (flashPortDone ok s)
/-- FLASH_PORT_BAD_OP. -/
def execFlashPortBadOp (v : Word) (s : State) : Host.Outcome State Fault Refusal := next (flashPortBadOp v s)

end Sys2Proof.Machine
end

