-- ==== Sys2Proof/Machine/Fuse.lean ====
section
/-! DEFINITION. Sys2Proof/Machine/Fuse.lean: the fuse array, its resolution, the anti-rollback counter, and what clusters are in service
(R16, R571 to R577). -/
namespace Sys2Proof.Machine
open Sys2Proof

/-- A word of the array as blown, which is its read at the normal margin. -/
def State.fuse (s : State) (i : Nat) : Word := assocGet 0#32 s.fuses i

/-- The reads at the tight margin of the marginal words, which differ: in which bits the hardware decides, a free value (DESIGN CHOICE, log entry
2). -/
def State.tightReads (s : State) (marginal : List (Fin 256)) : List (Nat × Word) × State :=
  marginal.foldl (fun x (i : Fin 256) =>
    let (k, s) := x.2.freeBelow (2 ^ 32 - 1)
    (x.1 ++ [(i.val, s.fuse i.val ^^^ BitVec.ofNat 32 (k + 1))], s)) ([], s)

/-- Both reads of word `i`. -/
def State.reads (s : State) (tight : List (Nat × Word)) (i : Nat) : Word × Word :=
  (s.fuse i, (assocFind tight i).getD (s.fuse i))

/-- One bit of the security block from three copies' reads (R571): the majority of the stable reads, none when undecided. -/
def secBit (cs : List (Word × Word)) (b : Nat) : Option Bool :=
  let st := (cs.filter (fun c => bit c.1 b == bit c.2 b)).map (fun c => bit c.1 b)
  let ones := (st.filter (· == true)).length
  let zeros := (st.filter (· == false)).length
  if zeros < ones then some true else if ones < zeros then some false else none

/-- Reads of the three copies of word `j` of the security block. -/
def State.secReads (s : State) (tight : List (Nat × Word)) (j : Nat) : List (Word × Word) :=
  [s.reads tight (0x04 + j), s.reads tight (0x12 + j), s.reads tight (0x20 + j)]

/-- A word from its bits. -/
def wordOf (f : Nat → Bool) : Word := BitVec.ofNat 32 (((List.range 32).map (fun b => if f b then 2 ^ b else 0)).sum)

/-- A resolved security word: an undecided bit takes the restrictive value (1 in LOCK). -/
def State.secWord (s : State) (tight : List (Nat × Word)) (j : Nat) : Word :=
  wordOf (fun b => (secBit (s.secReads tight j) b).getD (j == 12))

/-- Is every bit of the key hash decided (R571)? -/
def State.hashDecided (s : State) (tight : List (Nat × Word)) : Bool :=
  (List.range 12).all (fun j => (List.range 32).all (fun b => (secBit (s.secReads tight j) b).isSome))

/-- The resolved value of word `i` (R571). -/
def State.resolve (s : State) (tight : List (Nat × Word)) (i : Nat) : Word :=
  let (n, t) := s.reads tight i
  if i < 0x04 then n ||| t
  else if i < 0x2E then s.secWord tight ((i - 4) % 14)
  else if i < 0x30 then n
  else if i < 0x40 then t
  else if i < 0xC0 then n ||| t
  else if i < 0xD0 then t
  else n

/-- The anti-rollback count (R573). -/
def arbCount (w : Nat → Word) : Nat :=
  (List.range 128).foldl (fun m b => if bit (w (b / 32)) (b % 32) then b + 1 else m) 0

/-- Defective beads of a cluster by its two map words: defective active beads, and a defective spare (R571, R572). -/
def beadDefects (lo hi : Word) : Nat × Bool := (((List.range 32).filter (fun b => bit lo b)).length, bit hi 0)
/-- A cluster is in service (R16, R572). -/
def cluOk (lo hi : Word) : Bool :=
  let (n, sp) := beadDefects lo hi
  n == 0 || (n == 1 && !sp)
/-- A cluster uses its spare. -/
def cluSpare (lo hi : Word) : Bool := beadDefects lo hi == (1, false)

/-- Record which words were marginal at the last read (R572, R576, R577). -/
def State.setMarginal (s : State) (marginal : List (Fin 256)) : State :=
  let s := (List.range 8).foldl (fun s k =>
    s.setReg (rFusMarg k) (wordOf (fun b => marginal.any (fun i => i.val == 32 * k + b)))) s
  s.setRf rFusStat 12 9 (marginal.eraseDups).length

/-- Step 2 of the boot (R555): the fuses are read and resolved, and the clusters in service follow (R19, R20). -/
def State.readFuses (s : State) (marginal : List (Fin 256)) (tempC : BitVec 8) : State :=
  let (tight, s) := s.tightReads marginal
  let w := fun i => s.resolve tight i
  let s := (List.range 256).foldl (fun t i => t.setReg (rFusWord i) (w i)) s
  let s := s.setMarginal marginal
  let s := ((s.setRb rFusStat 31 true).setRb rFusStat 30 (s.hashDecided tight)).setRb rFusStat 29 (bit (w 0x10) 0)
  let s := (s.setRf rFusArb 0 8 (arbCount w)).setRf rFusTemp 0 8 tempC.toNat
  let ok := (List.range 64).filter (fun c => cluOk (w (0x40 + 2 * c)) (w (0x41 + 2 * c)))
  let sp := (List.range 64).filter (fun c => cluSpare (w (0x40 + 2 * c)) (w (0x41 + 2 * c)))
  ((s.setRf rGlbCaps 16 7 ok.length).setRf rGlbCaps 8 7 sp.length).setReg64 rGlbCluMap
    (BitVec.ofNat 64 ((ok.map (fun c => 2 ^ c)).sum))

/-- A resolved word in force. -/
def State.fusWord (s : State) (i : Nat) : Word := s.reg (rFusWord i)
/-- LOCK in force (R571). -/
def State.lock (s : State) (i : Nat) : Bool := bit (s.fusWord 0x10) i

/-- A LOCK bit that becomes 1 takes effect at once (R575, R672): debug closes, and the debug unlocks clear. -/
def State.setLock (s : State) (v : Word) : State :=
  if v == s.fusWord 0x10 then s
  else
    let s := [0x10, 0x1E, 0x2C].foldl (fun s i => s.setReg (rFusWord i) v) s
    (s.setRb rFusStat 29 (bit v 0)).setRf rSecDbgUnlock 0 16 0

/-- The count that ADVANCE aims at (R574). -/
def State.arbTarget (s : State) : Nat := min (s.rf rCfgFwSvn 0 16) 128

/-- The next counter bit is blown, and the count advances; BUSY clears at the target (R574). -/
def State.blowBit (s : State) : State :=
  if !s.rb rFusArbCtrl 30 then s
  else
    let n := s.rf rFusArb 0 8
    let set := fun (w : Word) => w ||| BitVec.ofNat 32 (2 ^ (n % 32))
    let s := { s with fuses := assocSet 0#32 s.fuses (n / 32) (set (s.fuse (n / 32))) }
    let s := (s.setReg (rFusWord (n / 32)) (set (s.fusWord (n / 32)))).setRf rFusArb 0 8 (n + 1)
    if s.arbTarget ≤ n + 1 then s.setRb rFusArbCtrl 30 false else s
/-- An advance under way completes, before a re-read (R578); it blows at most `n` bits. -/
def State.blowAll (s : State) : Nat → State
  | 0 => s
  | n + 1 => s.blowBit.blowAll n

/-- The control core's firmware runs before DONE: in a boot-halt, or while a pair role looks for its partner (R555, R575). -/
def State.firmwareUp (s : State) : Bool := s.boot.phase == .halted || s.boot.phase == .pairing

/-- FUSE_TEMP_SAMPLE (R575, R578): every 10 ms; a difference of 40 °C or more from the last read re-reads every word; restrictive changes of
security words take effect at once. -/
def fuseTempSample (tempC : BitVec 8) (marginal : List (Fin 256)) (s : State) : State :=
  if !s.periodDue 3 1000000 then s
  else
  let s := s.periodMark 3
  let last := (BitVec.ofNat 8 (s.rf rFusTemp 0 8)).toInt
  let d := tempC.toInt - last
  if -40 < d && d < 40 then s
  else
    let (tight, s) := (s.blowAll 128).tightReads marginal
    let w := fun i => s.resolve tight i
    let n := ((List.range 256).filter (fun i => w i != s.fusWord i)).length
    let s := s.bumpBy rFusDiffCnt 0 32 n
    let s := if n == 0 then s else s.setRb rFusStat 28 true
    let ctr := fun i => s.fusWord i ||| w i
    let s := if s.rf rFusArb 0 8 < arbCount ctr then
        ((List.range 4).foldl (fun t i => t.setReg (rFusWord i) (ctr i)) s).setRf rFusArb 0 8 (arbCount ctr)
      else s
    let s := s.setLock (s.fusWord 0x10 ||| w 0x10)
    (s.setMarginal marginal).setRf rFusTemp 0 8 tempC.toNat

/-- FUSE_ADVANCE (R574, R576). -/
def fuseAdvance (v : Word) (s : State) : State :=
  if bit v 31 && s.rb rCfgBootStat 31 && !s.rb rFusArbCtrl 30 && s.rf rFusArb 0 8 < s.arbTarget then s.setRb rFusArbCtrl 30 true else s

/-- FUSE_BLOW_DONE (R574). -/
def fuseBlowDone (s : State) : State := s.blowBit

/-- FUSE_TEMP_SAMPLE. -/
def execFuseTempSample (tempC : BitVec 8) (marginal : List (Fin 256)) (s : State) : Host.Outcome State Fault Refusal :=
  if s.running then run (fuseTempSample tempC marginal) s else next (if s.firmwareUp then fuseTempSample tempC marginal s else s)
/-- FUSE_ADVANCE. -/
def execFuseAdvance (v : Word) (s : State) : Host.Outcome State Fault Refusal := next (fuseAdvance v s)
/-- FUSE_BLOW_DONE. -/
def execFuseBlowDone (s : State) : Host.Outcome State Fault Refusal := next (fuseBlowDone s)

end Sys2Proof.Machine
end

