-- ==== Sys2Proof/Machine/Blake3.lean ====
section
/-! DEFINITION. Sys2Proof/Machine/Blake3.lean: BLAKE3 on 32-bit words: the compression function (HCOMP, R379), the hash, the
keyed hash and key derivation (R178, R246, R622). -/
namespace Sys2Proof.Machine
open Sys2Proof

/-- The initial chaining words. -/
def b3Iv : List Word :=
  [0x6A09E667#32, 0xBB67AE85#32, 0x3C6EF372#32, 0xA54FF53A#32, 0x510E527F#32, 0x9B05688C#32, 0x1F83D9AB#32, 0x5BE0CD19#32]

/-- The message permutation. -/
def b3Perm : List Nat := [2, 6, 3, 10, 7, 0, 4, 13, 1, 11, 12, 5, 9, 14, 15, 8]

/-- One quarter round on words a, b, c, d of the state with message words x and y. -/
def b3G (v : Array Word) (a b c d : Nat) (x y : Word) : Array Word :=
  let g := fun i => v.getD i 0#32
  let va := g a + g b + x
  let vd := (g d ^^^ va).rotateRight 16
  let vc := g c + vd
  let vb := (g b ^^^ vc).rotateRight 12
  let va := va + vb + y
  let vd := (vd ^^^ va).rotateRight 8
  let vc := vc + vd
  let vb := (vb ^^^ vc).rotateRight 7
  (((v.setIfInBounds a va).setIfInBounds b vb).setIfInBounds c vc).setIfInBounds d vd

/-- One round: four columns, then four diagonals. -/
def b3Round (v : Array Word) (m : Array Word) : Array Word :=
  let w := fun i => m.getD i 0#32
  let v := b3G v 0 4 8 12 (w 0) (w 1)
  let v := b3G v 1 5 9 13 (w 2) (w 3)
  let v := b3G v 2 6 10 14 (w 4) (w 5)
  let v := b3G v 3 7 11 15 (w 6) (w 7)
  let v := b3G v 0 5 10 15 (w 8) (w 9)
  let v := b3G v 1 6 11 12 (w 10) (w 11)
  let v := b3G v 2 7 8 13 (w 12) (w 13)
  b3G v 3 4 9 14 (w 14) (w 15)

/-- Seven rounds with the permuted message. -/
def b3Rounds : Nat → Array Word → Array Word → Array Word
  | 0, v, _ => v
  | n + 1, v, m => b3Rounds n (b3Round v m) ((b3Perm.map (fun i => m.getD i 0#32)).toArray)

/-- The compression function: 16 output words from the chaining value, the block, the counter, its length and the flags. -/
def b3Compress (cv : List Word) (block : List Word) (lo hi len flags : Word) : List Word :=
  let v := (cv.take 8 ++ b3Iv.take 4 ++ [lo, hi, len, flags]).toArray
  let r := b3Rounds 7 v block.toArray
  (List.range 16).map (fun i =>
    if i < 8 then r.getD i 0#32 ^^^ r.getD (i + 8) 0#32 else r.getD i 0#32 ^^^ cv.getD (i - 8) 0#32)

/-- The 16 words of a block, zero padded. -/
def b3Words (bs : List Byte) : List Word := (List.range 16).map (fun i => BitVec.ofNat 32 (leAt bs (4 * i) 4))

/-- Cut a byte list into pieces of `n` bytes, at least one piece; `fuel` bounds the pieces. -/
def cutBytes (n : Nat) : Nat → List Byte → List (List Byte)
  | 0, _ => []
  | fuel + 1, bs => if bs.length ≤ n then [bs] else bs.take n :: cutBytes n fuel (bs.drop n)

/-- A node waiting for its final flags: what to compress. -/
structure B3Out where
  cv    : List Word
  block : List Word
  ctr   : Nat
  len   : Nat
  flags : Nat

/-- The chaining value of a node. -/
def B3Out.chain (o : B3Out) : List Word :=
  (b3Compress o.cv o.block (BitVec.ofNat 32 o.ctr) (BitVec.ofNat 32 (o.ctr / 2 ^ 32)) (BitVec.ofNat 32 o.len)
    (BitVec.ofNat 32 o.flags)).take 8

/-- A chunk of at most 1,024 bytes: its blocks in order, the first flagged CHUNK_START (1), the last CHUNK_END (2). -/
def b3Blocks (flags ctr : Nat) : Bool → List Word → List (List Byte) → B3Out
  | first, cv, [] => ⟨cv, [], ctr, 0, flags + 2 + if first then 1 else 0⟩
  | first, cv, [b] => ⟨cv, b3Words b, ctr, b.length, flags + 2 + if first then 1 else 0⟩
  | first, cv, b :: bs =>
    b3Blocks flags ctr false (B3Out.chain ⟨cv, b3Words b, ctr, b.length, flags + if first then 1 else 0⟩) bs

/-- A chunk. -/
def b3Chunk (key : List Word) (flags ctr : Nat) (bs : List Byte) : B3Out :=
  b3Blocks flags ctr true key (cutBytes 64 17 bs)

/-- A parent of two chaining values (flag PARENT, 4). -/
def b3Parent (key : List Word) (flags : Nat) (l r : List Word) : B3Out := ⟨key, l ++ r, 0, 64, flags + 4⟩

/-- The largest power of two below `n`, for n at least 2. -/
def b3Left (n : Nat) : Nat := 2 ^ (Nat.log2 (n - 1))

/-- The tree over chunks; the left part holds the largest power of two below the number of chunks. -/
def b3Tree (key : List Word) (flags : Nat) : Nat → Nat → List (List Byte) → B3Out
  | 0, ctr, cs => b3Chunk key flags ctr (cs.headD [])
  | fuel + 1, ctr, cs =>
    if cs.length ≤ 1 then b3Chunk key flags ctr (cs.headD [])
    else
      let k := b3Left cs.length
      b3Parent key flags (b3Tree key flags fuel ctr (cs.take k)).chain (b3Tree key flags fuel (ctr + k) (cs.drop k)).chain

/-- The 32-byte hash of a message under a key and mode flags (flag ROOT, 8). -/
def b3Root (key : List Word) (flags : Nat) (bs : List Byte) : List Byte :=
  let o := b3Tree key flags 64 0 (cutBytes 1024 (bs.length / 1024 + 1) bs)
  ((b3Compress o.cv o.block 0#32 0#32 (BitVec.ofNat 32 o.len) (BitVec.ofNat 32 (o.flags + 8))).take 8).flatMap
    (fun w => leBytes 4 w.toNat)

/-- The first `n` bytes, at most 64, of the root output in extended form. -/
def blake3Xof (key : List Word) (flags : Nat) (bs : List Byte) (n : Nat) : List Byte :=
  let o := b3Tree key flags 64 0 (cutBytes 1024 (bs.length / 1024 + 1) bs)
  (((b3Compress o.cv o.block 0#32 0#32 (BitVec.ofNat 32 o.len) (BitVec.ofNat 32 (o.flags + 8)))).flatMap
    (fun w => leBytes 4 w.toNat)).take n

/-- The unkeyed hash. -/
def blake3 (bs : List Byte) : List Byte := b3Root b3Iv 0 bs
/-- Eight key words of 32 bytes. -/
def b3KeyWords (k : List Byte) : List Word := (List.range 8).map (fun i => BitVec.ofNat 32 (leAt k (4 * i) 4))
/-- The keyed hash (flag 16). -/
def blake3Keyed (key bs : List Byte) : List Byte := b3Root (b3KeyWords key) 16 bs
/-- Key derivation: the context string (flag 32), then the key material (flag 64). -/
def blake3Derive (context : String) (material : List Byte) : List Byte :=
  b3Root (b3KeyWords (b3Root b3Iv 32 (context.toList.map (fun c => BitVec.ofNat 8 c.toNat)))) 64 material

end Sys2Proof.Machine
end

