-- ==== Sys2Proof/Machine/Fp32.lean ====
section
/-! DEFINITION. Sys2Proof/Machine/Fp32.lean: IEEE 754 binary32 arithmetic with round-to-nearest-even, subnormals kept and
every NaN result 0x7FC0_0000 (R336, R370). Each operation is computed exactly on integers and rounded once. -/
namespace Sys2Proof.Machine
open Sys2Proof

/-- The one NaN result (R370). -/
abbrev fpNaN : Word := 0x7FC00000#32
/-- +∞. -/
abbrev fpInf : Word := 0x7F800000#32
/-- −∞. -/
abbrev fpNegInf : Word := 0xFF800000#32

/-- The exponent field. -/
def fpExp (b : Word) : Nat := (b.toNat >>> 23) % 256
/-- The fraction field. -/
def fpFrac (b : Word) : Nat := b.toNat % 2 ^ 23
/-- The sign bit. -/
def fpSign (b : Word) : Bool := b.getLsbD 31
/-- Is the value a NaN? -/
def fpIsNaN (b : Word) : Bool := fpExp b == 255 && fpFrac b != 0
/-- Is the value +∞ or −∞? -/
def fpIsInf (b : Word) : Bool := fpExp b == 255 && fpFrac b == 0
/-- Is the value +0 or −0? -/
def fpIsZero (b : Word) : Bool := b.toNat % 2 ^ 31 == 0
/-- The integer significand of a finite value. -/
def fpMant (b : Word) : Nat := if fpExp b == 0 then fpFrac b else 2 ^ 23 + fpFrac b
/-- The exponent of the significand's unit: a finite value is ± fpMant · 2 ^ fpUnit. -/
def fpUnit (b : Word) : Int := if fpExp b == 0 then -149 else (fpExp b : Int) - 150
/-- The signed significand. -/
def fpInt (b : Word) : Int := if fpSign b then -(fpMant b : Int) else (fpMant b : Int)

/-- ±0. -/
def fpZero (neg : Bool) : Word := if neg then 0x80000000#32 else 0#32
/-- ±∞. -/
def fpInfS (neg : Bool) : Word := if neg then fpNegInf else fpInf

/-- Assemble a sign, a significand below 2 ^ 24 and the exponent of its unit; an exponent too large gives ∞. -/
def fpPack (neg : Bool) (q : Nat) (u : Int) : Word :=
  let (q, u) := if q == 2 ^ 24 then (2 ^ 23, u + 1) else (q, u)
  if u > 104 then fpInfS neg
  else
    let mag := if q < 2 ^ 23 then q else ((u + 150).toNat) * 2 ^ 23 + (q - 2 ^ 23)
    BitVec.ofNat 32 (mag + if neg then 2 ^ 31 else 0)

/-- Round m · 2 ^ e to nearest, ties to even; `sticky` says that a positive part below one unit of `m` was dropped, which a
caller may say only when `m` has at least 26 bits. -/
def fpRound (neg : Bool) (m : Nat) (e : Int) (sticky : Bool) : Word :=
  if m == 0 then fpZero neg
  else
    let len : Int := (Nat.log2 m + 1 : Nat)
    let u := max (e + len - 24) (-149)
    let sh := u - e
    if sh ≤ 0 then fpPack neg (m <<< (-sh).toNat) u
    else
      let k := sh.toNat
      let q := m >>> k
      let r := m % 2 ^ k
      let half := 2 ^ (k - 1)
      let up := r > half || (r == half && (sticky || q % 2 == 1))
      fpPack neg (if up then q + 1 else q) u

/-- Round a signed integer times 2 ^ e; an exact zero is +0. -/
def fpRoundInt (n : Int) (e : Int) : Word := fpRound (n < 0) n.natAbs e false

/-- Addition. -/
def fpAdd (a b : Word) : Word :=
  if fpIsNaN a || fpIsNaN b then fpNaN
  else if fpIsInf a then (if fpIsInf b && fpSign a != fpSign b then fpNaN else a)
  else if fpIsInf b then b
  else
    let e := min (fpUnit a) (fpUnit b)
    let n := fpInt a * 2 ^ (fpUnit a - e).toNat + fpInt b * 2 ^ (fpUnit b - e).toNat
    if n == 0 then fpZero (fpSign a && fpSign b) else fpRoundInt n e

/-- Negation of the sign bit. -/
def fpNeg (a : Word) : Word := a ^^^ 0x80000000#32

/-- Subtraction. -/
def fpSub (a b : Word) : Word := if fpIsNaN b then fpNaN else fpAdd a (fpNeg b)

/-- Multiplication. -/
def fpMul (a b : Word) : Word :=
  let neg := fpSign a != fpSign b
  if fpIsNaN a || fpIsNaN b then fpNaN
  else if fpIsInf a || fpIsInf b then (if fpIsZero a || fpIsZero b then fpNaN else fpInfS neg)
  else fpRound neg (fpMant a * fpMant b) (fpUnit a + fpUnit b) false

/-- Division. -/
def fpDiv (a b : Word) : Word :=
  let neg := fpSign a != fpSign b
  if fpIsNaN a || fpIsNaN b then fpNaN
  else if fpIsInf a then (if fpIsInf b then fpNaN else fpInfS neg)
  else if fpIsInf b then fpZero neg
  else if fpIsZero b then (if fpIsZero a then fpNaN else fpInfS neg)
  else
    let n := fpMant a <<< 64
    fpRound neg (n / fpMant b) (fpUnit a - fpUnit b - 64) (n % fpMant b != 0)

/-- Fused multiply-add a · b + c, rounded once. -/
def fpFma (a b c : Word) : Word :=
  if fpIsNaN a || fpIsNaN b || fpIsNaN c then fpNaN
  else if fpIsInf a || fpIsInf b then
    if fpIsZero a || fpIsZero b then fpNaN
    else
      let neg := fpSign a != fpSign b
      if fpIsInf c && fpSign c != neg then fpNaN else fpInfS neg
  else if fpIsInf c then c
  else
    let eab := fpUnit a + fpUnit b
    let e := min eab (fpUnit c)
    let n := fpInt a * fpInt b * 2 ^ (eab - e).toNat + fpInt c * 2 ^ (fpUnit c - e).toNat
    if n == 0 then fpZero ((fpSign a != fpSign b) && fpSign c) else fpRoundInt n e

/-- A key that orders the non-NaN values, −0 and +0 alike. -/
def fpKey (a : Word) : Int :=
  let m : Int := (a.toNat % 2 ^ 31 : Nat)
  if fpSign a then -m else m

/-- a < b; false with a NaN. -/
def fpLt (a b : Word) : Bool := !fpIsNaN a && !fpIsNaN b && fpKey a < fpKey b
/-- a ≤ b; false with a NaN. -/
def fpLe (a b : Word) : Bool := !fpIsNaN a && !fpIsNaN b && fpKey a ≤ fpKey b
/-- a = b as values; false with a NaN. -/
def fpEq (a b : Word) : Bool := !fpIsNaN a && !fpIsNaN b && fpKey a == fpKey b

/-- Minimum: NaN when either is NaN, the first operand when they are equal (R370). -/
def fpMin (a b : Word) : Word :=
  if fpIsNaN a || fpIsNaN b then fpNaN else if fpLt b a then b else a
/-- Maximum, under the same rule. -/
def fpMax (a b : Word) : Word :=
  if fpIsNaN a || fpIsNaN b then fpNaN else if fpLt a b then b else a

/-- Signed 32-bit integer to FP32. -/
def fpOfInt (a : Word) : Word := fpRoundInt a.toInt 0

/-- FP32 to signed 32-bit integer: toward zero, saturating, NaN to 0 (R370). -/
def fpToInt (a : Word) : Word :=
  if fpIsNaN a then 0#32
  else if fpIsInf a then (if fpSign a then 0x80000000#32 else 0x7FFFFFFF#32)
  else
    let u := fpUnit a
    let m : Nat := if u ≥ 0 then fpMant a <<< u.toNat else fpMant a >>> (-u).toNat
    if fpSign a then (if m ≥ 2 ^ 31 then 0x80000000#32 else BitVec.ofInt 32 (-(m : Int)))
    else (if m ≥ 2 ^ 31 then 0x7FFFFFFF#32 else BitVec.ofNat 32 m)

end Sys2Proof.Machine
end

