-- ==== Sys2Proof/Machine/Pages.lean ====
section
/-! DEFINITION. Sys2Proof/Machine/Pages.lean: the page pool, page stall, and the image of a strand in the strand table and
the pool (R146 to R168). -/
namespace Sys2Proof.Machine
open Sys2Proof

/-- Pages of the pool (R159). -/
def State.poolPages (s : State) (p : Part) : Nat := s.rf (rPrtPoolCfg p) 0 26
/-- FREE: pages that no strand, op or reservation holds (R160, R174). -/
def State.freePages (s : State) (p : Part) : Nat := s.poolPages p - (s.parts[p]).used.length
/-- Chip-memory address of pool page `i` (R152). -/
def State.pageAddr (s : State) (p : Part) (i : Nat) : Nat := fld (s.reg64 (rPrtPoolBase p)) 12 52 * 4096 + s.priv + 4096 * i
/-- The pool lies within the partition's ranges (R157). -/
def State.poolOk (s : State) (p : Part) : Bool := s.memOk p (s.pageAddr p 0) (4096 * s.poolPages p) true
/-- Chip-memory address of a strand's descriptor (R146, R158). -/
def State.descAddr (s : State) (p : Part) (slot : Nat) : Nat :=
  fld (s.reg64 (rPrtStrandBase p)) 12 52 * 4096 + s.priv + 256 * slot
/-- The strand table lies within the partition's ranges (R157). -/
def State.tableOk (s : State) (p : Part) : Bool :=
  s.memOk p (s.descAddr p 0) (256 * s.rf (rPrtStrandCfg p) 0 19) true

/-- Take one free page. Which free page is taken the spec leaves to the allocator: a free value chooses (DESIGN CHOICE, log entry 2). -/
def State.takePage (s : State) (p : Part) : Option (Nat × State) :=
  if s.freePages p == 0 then none
  else
    let n := s.poolPages p
    let used := (s.parts[p]).used
    let (k, s) := s.freeBelow n
    match (List.range (used.length + 1)).find? (fun i => !used.contains ((k + i) % n)) with
    | some i =>
      let pg := (k + i) % n
      some (pg, s.partUpd p (fun x => { x with used := natInsert x.used pg }))
    | none => none

/-- Take `n` free pages, or none at all. -/
def State.takePages (s : State) (p : Part) : Nat → Option (List Nat × State)
  | 0 => some ([], s)
  | n + 1 =>
    match s.takePage p with
    | none => none
    | some (a, s1) =>
      match s1.takePages p n with
      | none => none
      | some (l, s2) => some (a :: l, s2)

/-- Return pages to the pool. -/
def State.freePageList (s : State) (p : Part) (l : List Nat) : State :=
  s.partUpd p (fun x => { x with used := x.used.filter (fun i => !l.contains i) })

/-- Every page a strand holds (R153, R168). -/
def Strand.pages (t : Strand) : List Nat :=
  [t.dirPage, t.sidePage] ++ t.biasPages ++ t.stackPages ++ t.histPages ++ t.sparePages

/-- Pages a strand in page stall needs (R166): history pages for the whole history, and the second pair of stack pages when it was SUSPended
for them (R164: a full ring is the other cause) or its depth has passed 512. -/
def Strand.drainNeed (t : Strand) : Nat × Nat :=
  ((t.hist.length + 1023) / 1024 - t.histPages.length,
   if t.cp.isSome && t.stackPages.length == 2 && (512 < t.stack.length || (t.susp && t.ovfCount != 64)) then 2 else 0)

/-- Those of them that it does not hold yet. -/
def Strand.lacks (t : Strand) : Nat := t.drainNeed.1 + t.drainNeed.2 - t.sparePages.length

/-- Pages that strands in page stall still need, of those that entered it before `sid` (R166, R168). -/
def State.stallNeed (s : State) (p : Part) (sid : Word) : Nat :=
  ((s.parts[p]).stall.takeWhile (· != sid)).map (fun k =>
    match s.strands.find? (fun t => t.part == p && t.session == k) with | some t => t.lacks | none => 0) |>.sum

/-! ### Page stall (R165) -/

/-- A strand holds its partition in page stall. -/
def Strand.stalled (t : Strand) : Bool := t.susp || t.ovfCount != 0

/-- Re-evaluate page stall after a strand changed: order of entry kept, PAGE_STALL on entering, PAGE_CLEAR on leaving. -/
def State.evalStall (s : State) (p : Part) : State :=
  let old := (s.parts[p]).stall
  let isSt := fun sid => s.strands.any (fun t => t.part == p && t.session == sid && t.stalled)
  let fresh := (s.strands.filter (fun t => t.part == p && t.stalled && !old.contains t.session)).map (·.session)
  let new := old.filter isSt ++ fresh
  let s := s.partUpd p (fun x => { x with stall := new })
  let free := BitVec.ofNat 64 (s.freePages p)
  if old.isEmpty && !new.isEmpty then s.post p 0x06 0 none noSession 0#64 free
  else if !old.isEmpty && new.isEmpty then s.post p 0x07 0 none noSession 0#64 free
  else s

/-- PRT_POOL_STAT as it reads (R160). -/
def State.poolStat (s : State) (p : Part) : Word :=
  BitVec.ofNat 32 ((if (s.parts[p]).stall.isEmpty then 0 else 2 ^ 31) + s.freePages p % 2 ^ 26)

/-- RESIDENT (R162). -/
def State.resident (s : State) (p : Part) : Nat := (s.strands.filter (fun t => t.part == p)).length

/-! ### The strand's image (R146 to R148, R153, R154) -/

/-- The value that stands for no page (R147). -/
abbrev noPage : Nat := 0xFFFFFFFF

/-- The hold-back slot of a stream: nothing when fresh, else the state header and the unreleased bytes (R257). -/
def Stream.hold (x : Stream) : List Byte :=
  if x.fresh then []
  else
    leBytes 4 x.consumed ++ leBytes 5 x.oldStep.toNat ++ leBytes 2 x.oldPhase ++
      leBytes 1 ((if x.started then 128 else 0) + (if x.stopped then 64 else 0) + x.utfPend.length) ++
      leBytes 2 x.heldTokens ++ leBytes 2 0 ++ x.held ++ x.utfPend

/-- The commit line (R146). -/
def Strand.line0 (t : Strand) : List Byte :=
  leBytes 5 t.steps.toNat ++ leBytes 1 ((if t.side then 128 else 0) + if t.susp then 64 else 0) ++ leBytes 2 0 ++
  leBytes 4 t.hist.length ++ leBytes 4 t.promptLen ++ leBytes 3 t.cpState ++ leBytes 1 0 ++
  leBytes 2 t.stack.length ++ leBytes 2 t.stream.hold.length ++ leBytes 8 t.lastStep.toNat ++ leBytes 8 t.charged ++
  leBytes 1 t.ovfCount ++ leBytes 1 t.ovfHead ++ leBytes 2 t.stackLow ++ leBytes 4 0 ++ leBytes 8 t.gen.toNat ++ leBytes 8 0

/-- Bytes 64 to 127 of the descriptor (R147). -/
def Strand.line1 (t : Strand) : List Byte :=
  leBytes 4 t.session.toNat ++ leBytes 1 (t.domain.val * 16 + t.part.val) ++ leBytes 1 t.home.val ++
  leBytes 2 t.account ++ leBytes 4 t.vocab.id.toNat ++ leBytes 4 (match t.cp with | some b => b.id.toNat | none => 0) ++
  leBytes 4 (match t.ovl with | some b => b.id.toNat | none => 0) ++ leBytes 4 0 ++ leBytes 8 t.paramsAddr.toNat ++
  leBytes 32 0

/-- Page `i` of a list of pages, or no page. -/
def pageAt (l : List Nat) (i : Nat) : Nat := l.getD i noPage

/-- Bytes 128 to 255 of the descriptor (R147). -/
def Strand.line2 (t : Strand) : List Byte :=
  leBytes 4 t.dirPage ++ leBytes 4 t.sidePage ++ leBytes 4 (pageAt t.biasPages 0) ++ leBytes 4 (pageAt t.biasPages 1) ++
  leBytes 4 (pageAt t.stackPages 0) ++ leBytes 4 (pageAt t.stackPages 2) ++ leBytes 4 (pageAt t.stackPages 1) ++
  leBytes 4 (pageAt t.stackPages 3) ++ leBytes 96 0

/-- Write the commit line: the single 64-byte write of R24. -/
def State.writeCommitLine (s : State) (t : Strand) : State := s.wrBytes (s.descAddr t.part t.slot) t.line0

/-- A stack frame's 8 bytes (R285). -/
def frameBytes (f : Frame) : List Byte := leBytes 4 f.ret.toNat ++ leBytes 4 f.origin.toNat

/-- Pad a byte list with zeros to `n` bytes. -/
def padTo (n : Nat) (l : List Byte) : List Byte := l ++ List.replicate (n - l.length) 0#8

/-- Write one token of the history into its page (R153). -/
def State.writeToken (s : State) (t : Strand) (k : Nat) : State :=
  match t.histPages[k / 1024]? with
  | some pg => s.wrLE (s.pageAddr t.part pg + 4 * (k % 1024)) 4 (t.hist.getD k 0)
  | none => s

/-- Write what a strand keeps in the pool: directory, history, hold-back, overflow ring, parameters, stop strings, bias list
and stack frames (R153, R154). The slot written is the one SIDE names. A stop string is filled up with zeros (DESIGN CHOICE, log entry 48). -/
def State.writePages (s : State) (t : Strand) : State :=
  let p := t.part
  let inPages := t.hist.length - t.ovfCount
  let s := s.wrBytes (s.pageAddr p t.dirPage) ((List.range 1024).flatMap (fun i => leBytes 4 (pageAt t.histPages i)))
  let s := (List.range inPages).foldl (fun s k => s.writeToken t k) s
  let side := s.pageAddr p t.sidePage
  let s := s.wrBytes (side + if t.side then 1024 else 0) t.stream.hold
  let s := (List.range t.ovfCount).foldl (fun s j =>
    let k := inPages + j
    s.wrLE (side + 2048 + 8 * ((t.ovfHead + j) % 64)) 8 (t.hist.getD k 0 + k * 2 ^ 32)) s
  let s := s.wrBytes (side + 2560) t.params
  let s := s.wrBytes (side + 2816) (t.stops.flatMap (fun b => leBytes 8 b.length ++ padTo 64 b))
  let s := (List.range t.bias.length).foldl (fun s i =>
    match t.biasPages[i / 512]?, t.bias[i]? with
    | some pg, some (tok, v) => s.wrBytes (s.pageAddr p pg + 8 * (i % 512)) (leBytes 4 tok ++ leBytes 4 v.toNat)
    | _, _ => s) s
  (List.range t.stack.length).foldl (fun s i =>
    match t.stackPages[2 * (i / 512) + if t.side then 1 else 0]?, t.stack[i]? with
    | some pg, some f => s.wrBytes (s.pageAddr p pg + 8 * (i % 512)) (frameBytes f)
    | _, _ => s) s

/-- Put a changed strand in place and write its image: pages first, then lines 1 to 3, then the commit line (R24, R148). -/
def State.commitStrand (s : State) (t : Strand) : State :=
  let s := s.strandUpd t.part t.session (fun _ => t)
  let s := s.writePages t
  let s := s.wrBytes (s.descAddr t.part t.slot + 64) (t.line1 ++ t.line2)
  (s.writeCommitLine t).evalStall t.part

end Sys2Proof.Machine
end

