-- ==== Sys2Proof/Machine/Objects.lean ====
section
/-! DEFINITION. Sys2Proof/Machine/Objects.lean: object IDs, versions and reference counts, retiring, and the object registers
(R181 to R194). -/
namespace Sys2Proof.Machine
open Sys2Proof

/-- The record of an object ID that is not FREE. -/
def State.objId? (s : State) (p : Part) (id : Word) : Option ObjId :=
  s.objIds.find? (fun o => o.part == p && o.id == id)
/-- Held versions of an ID. -/
def State.versions (s : State) (p : Part) (id : Word) : List ObjVersion :=
  s.objs.filter (fun v => v.part == p && v.id == id)
/-- A held version. -/
def State.version? (s : State) (p : Part) (b : Bound) : Option ObjVersion :=
  s.objs.find? (fun v => v.part == p && v.id == b.id && v.ver == b.ver)
/-- The live version of an ID: none while it is RETIRING (R184). -/
def State.live? (s : State) (p : Part) (id : Word) : Option ObjVersion :=
  match s.objId? p id with
  | some o => if o.retiring then none else s.objs.find? (fun v => v.part == p && v.id == id && v.live)
  | none => none

/-- The state code of an ID (R181): 0 FREE, 1 LOADING, 2 LIVE, 3 RETIRING. -/
def State.objState (s : State) (p : Part) (id : Word) : Nat :=
  match s.objId? p id with
  | none => 0
  | some o => if o.retiring then 3 else if (s.live? p id).isSome then 2 else if o.loading then 1 else 0

/-- Occurrences of a version in a list of held versions. -/
def countBound (b : Bound) (l : List Bound) : Nat := (l.filter (· == b)).length

/-- The versions an op holds (R182, R183, R249, R389). -/
def OpCtx.holds (c : OpCtx) : List Bound := c.binds ++ c.pretok.toList ++ c.model.toList ++ c.table.toList
/-- The versions a resident strand holds (R183, R390). -/
def Strand.holds (t : Strand) : List Bound := [t.vocab] ++ t.cp.toList ++ t.ovl.toList ++ t.hook.toList

/-- The reference count of a version (R183): ops in flight, resident strands, lockets, and versions bound to it. -/
def State.refs (s : State) (p : Part) (b : Bound) : Nat :=
  (s.ctxs.map (fun c => if c.part == p then countBound b c.holds else 0)).sum +
  (s.strands.map (fun t => if t.part == p then countBound b t.holds else 0)).sum +
  (s.lockets.map (fun l => if l.part == p then countBound b l.binds else 0)).sum +
  (s.objs.map (fun v => if v.part == p then countBound b v.binds else 0)).sum

/-- Name of a version. -/
def ObjVersion.bound (v : ObjVersion) : Bound := ⟨v.id, v.ver⟩

/-- A version that is no longer live and that nothing refers to. -/
def State.dead (s : State) (v : ObjVersion) : Bool :=
  !(v.live && !(match s.objId? v.part v.id with | some o => o.retiring | none => false)) && s.refs v.part v.bound == 0

/-- An ID that holds no version and has no load in flight is FREE (R181); the record of a retire in flight stays until it completes (R185). -/
def State.dropId (s : State) (p : Part) (id : Word) : State :=
  if (s.versions p id).isEmpty then
    { s with objIds := s.objIds.filterMap (fun o =>
        if o.part == p && o.id == id && !o.loading then
          (if o.retireInFlight then some { part := p, id := id, retireInFlight := true } else none)
        else some o) }
  else s

/-- Free one version (R183): OBJECT_FREED is posted; an ID without versions returns to FREE. -/
def State.freeVersion (s : State) (v : ObjVersion) : State :=
  (({ s with objs := s.objs.filter (fun w => !(w.part == v.part && w.id == v.id && w.ver == v.ver)) }).post v.part 0x0E 0
    none noSession (v.id.zeroExtend 64) (BitVec.ofNat 64 v.ver)).dropId v.part v.id

/-- Free every dead version, the oldest publication first, which orders their events (DESIGN CHOICE, log entry 49); freeing one may release another, so
at most `n` rounds. -/
def State.collectN : Nat → State → State
  | 0, s => s
  | n + 1, s =>
    match s.objs.find? s.dead with
    | some v => State.collectN n (s.freeVersion v)
    | none => s
/-- Free every version that is no longer live and has no reference left (R183). -/
def State.collect (s : State) : State := State.collectN s.objs.length s

/-! ### Backing units (R186, R189, R679) -/

/-- Units of the backing region. -/
def State.backSize (s : State) (p : Part) : Nat := s.rf (rPrtObjCfg p) 0 24
/-- Units in use by held versions. -/
def State.backUsed (s : State) (p : Part) : List Nat :=
  (s.objs.filter (fun v => v.part == p)).flatMap (·.backUnits)
/-- Chip-memory address of a unit. -/
def State.backAddr (s : State) (p : Part) (u : Nat) : Nat := fld (s.reg64 (rPrtObjBase p)) 12 52 * 4096 + s.priv + 65536 * u
/-- The backing region lies within the partition's ranges (R189). -/
def State.backOk (s : State) (p : Part) : Bool := s.memOk p (s.backAddr p 0) (65536 * s.backSize p) true

/-- `k` free units, from a free-value starting point; none when fewer are free. -/
def State.takeUnits (s : State) (p : Part) (k : Nat) : Option (List Nat × State) :=
  let n := s.backSize p
  let used := s.backUsed p
  if n - used.length < k then none
  else
    let (st, s) := s.freeBelow n
    some ((((List.range n).map (fun i => (st + i) % n)).filter (fun u => !used.contains u)).take k, s)

/-- Units a byte count needs. -/
def unitsFor (n : Nat) : Nat := (n + 65535) / 65536

/-! ### Naming an object (R185) -/

/-- Status codes of R12 used by many ops. -/
abbrev stOk : BitVec 8 := 0x00#8
abbrev stOkAbortLate : BitVec 8 := 0x01#8
abbrev stAborted : BitVec 8 := 0x03#8
abbrev stDeadline : BitVec 8 := 0x04#8
abbrev stNoPageStalled : BitVec 8 := 0x05#8
abbrev stNoPageSusp : BitVec 8 := 0x06#8
abbrev stGrammarDead : BitVec 8 := 0x07#8
abbrev stStackOvf : BitVec 8 := 0x08#8
abbrev stBudget : BitVec 8 := 0x09#8
abbrev stAdmitDenied : BitVec 8 := 0x0A#8
abbrev stSessionLost : BitVec 8 := 0x0C#8
abbrev stNotResident : BitVec 8 := 0x0D#8
abbrev stUninit : BitVec 8 := 0x0E#8
abbrev stPoison : BitVec 8 := 0x0F#8
abbrev stResetAbort : BitVec 8 := 0x10#8
abbrev stPermDenied : BitVec 8 := 0x11#8
abbrev stBadEntry : BitVec 8 := 0x12#8
abbrev stObjectBusy : BitVec 8 := 0x13#8
abbrev stMediaWorn : BitVec 8 := 0x14#8
abbrev stReplayed : BitVec 8 := 0x15#8
abbrev stKeyUnavail : BitVec 8 := 0x16#8
abbrev stSpecDiscarded : BitVec 8 := 0x17#8

/-- The newest held version of an ID with a kind and a digest. -/
def State.newestHeld (s : State) (p : Part) (id : Word) (kind : Nat) (dig : BitVec 128) : Option ObjVersion :=
  ((s.versions p id).filter (fun v => v.kind == kind && v.digest == dig)).foldl (fun best v =>
    match best with
    | none => some v
    | some b => if b.ver < v.ver then some v else best) none

/-- What is wrong with naming an object of a kind (R185), in the order of its table; none when it may be bound. -/
def State.nameFault (s : State) (p : Part) (id : Word) (kind : Nat) : Option (BitVec 8) :=
  match s.objId? p id with
  | none => some stPermDenied
  | some o =>
    if s.objState p id == 0 then some stPermDenied
    else if o.kind != kind then some stBadEntry
    else if s.objState p id == 1 || s.objState p id == 3 then some stObjectBusy
    else none

/-- What is wrong with loading an ID (R185). -/
def State.loadFault (s : State) (p : Part) (id : Word) (kind : Nat) : Option (BitVec 8) :=
  match s.objId? p id with
  | none => none
  | some o =>
    if o.loading || o.retiring || o.retireInFlight || s.objState p id == 1 then some stObjectBusy
    else if o.kind != kind then some stBadEntry
    else none

/-- What is wrong with retiring an ID (R185). -/
def State.retireFault (s : State) (p : Part) (id : Word) : Option (BitVec 8) :=
  match s.objId? p id with
  | none => some stPermDenied
  | some o =>
    if s.objState p id == 0 then some stPermDenied
    else if o.loading || o.retireInFlight || o.retiring || s.objState p id == 1 then some stObjectBusy else none

/-- Update the record of an ID. -/
def State.objIdUpd (s : State) (p : Part) (id : Word) (f : ObjId → ObjId) : State :=
  { s with objIds := s.objIds.map (fun o => if o.part == p && o.id == id then f o else o) }

/-! ### Registers (R193, R194) -/

/-- Versions held, a load in progress included. -/
def State.heldCount (s : State) (p : Part) (id : Word) : Nat :=
  (s.versions p id).length + (match s.objId? p id with | some o => if o.loading then 1 else 0 | none => 0)

/-- PRT_OBJ_STAT of the selected ID (R193). -/
def State.objStat (s : State) (p : Part) : Word :=
  let id := s.reg (rPrtObjSel p)
  let st := s.objState p id
  let pend := match s.objId? p id with | some o => st == 2 && o.loading | none => false
  let kind := match s.objId? p id with | some o => o.kind | none => 0
  BitVec.ofNat 32 (st * 2 ^ 30 + (if pend then 2 ^ 29 else 0) + kind * 2 ^ 24 + min 255 (s.heldCount p id) * 2 ^ 16)

/-- OBJ_STAT_READ (R193): the read value, with PRT_OBJ_VER and PRT_OBJ_REFS latched. -/
def objStatRead (p : Part) (s : State) : State :=
  let id := s.reg (rPrtObjSel p)
  let v := match s.live? p id with | some v => v.ver | none => 0
  let n := ((s.versions p id).map (fun v => s.refs p v.bound)).sum
  let r := s.objStat p
  { ((s.setReg (rPrtObjVer p) (BitVec.ofNat 32 v)).setReg (rPrtObjRefs p) (BitVec.ofNat 32 (min n (2 ^ 32 - 1)))) with
    resp := ⟨r, false⟩ }

/-- OBJ_STAT_READ. -/
def execObjStatRead (p : Part) (s : State) : Host.Outcome State Fault Refusal := run (objStatRead p) s

/-! ### The object envelope (R178, R179) -/

/-- An entry of the section table. -/
structure SectEntry where
  typ  : Nat
  prio : Nat
  off  : Nat
  len  : Nat
deriving DecidableEq, Repr

/-- The section table of a plaintext. -/
def sectTable (pt : List Byte) : List SectEntry :=
  let n := leAt pt 2 2
  let o := leAt pt 24 4
  (List.range n).map (fun i =>
    let e := o + 16 * i
    ⟨leAt pt e 2, leAt pt (e + 2) 1, leAt pt (e + 4) 4, leAt pt (e + 8) 4⟩)

/-- Are the bytes [a, b) of a list all zero? -/
def zeroBytes (bs : List Byte) (a b : Nat) : Bool := ((bs.drop a).take (b - a)).all (· == 0#8)

/-- No two sections overlap. -/
def sectsDisjoint : List SectEntry → Bool
  | [] => true
  | e :: t => t.all (fun f => e.off + e.len ≤ f.off || f.off + f.len ≤ e.off) && sectsDisjoint t

/-- The digest of a plaintext: the first 16 bytes of its hash with bytes 8 to 23 zero (R178). -/
def objDigest (pt : List Byte) : List Byte := (blake3 (pt.take 8 ++ List.replicate 16 0#8 ++ pt.drop 24)).take 16

/-- Does a plaintext meet the envelope rules for a kind (R178, R179, R180)? -/
def envelopeOk (kind : Nat) (pt : List Byte) : Bool :=
  let n := leAt pt 2 2
  let len := leAt pt 4 4
  let so := leAt pt 24 4
  let es := sectTable pt
  128 ≤ pt.length && leAt pt 0 1 == kind && leAt pt 1 1 == 1 && n ≤ 32 && len == pt.length && len ≤ 2 ^ 30 &&
  so % 64 == 0 && 128 ≤ so && so + 16 * n ≤ len && zeroBytes pt 28 32 && (pt.drop 8).take 16 == objDigest pt &&
  es.all (fun e => e.prio < 4 && e.off % 64 == 0 && 1 ≤ e.len && so + 16 * n ≤ e.off && e.off + e.len ≤ len) &&
  (List.range n).all (fun i => zeroBytes pt (so + 16 * i + 3) (so + 16 * i + 4) &&
    zeroBytes pt (so + 16 * i + 12) (so + 16 * i + 16)) &&
  sectsDisjoint es

/-- The sections of a plaintext. -/
def objSects (pt : List Byte) : List Sect :=
  (sectTable pt).map (fun e => ⟨e.typ, e.prio, (pt.drop e.off).take e.len⟩)

/-- The first section of a type. -/
def sect? (l : List Sect) (typ : Nat) : Option (List Byte) := (l.find? (fun x => x.typ == typ)).map (·.bytes)
/-- The bytes of the first section of a type, empty when absent. -/
def sectOf (l : List Sect) (typ : Nat) : List Byte := (sect? l typ).getD []
/-- Sections of a type. -/
def sectsOf (l : List Sect) (typ : Nat) : List (List Byte) := (l.filter (fun x => x.typ == typ)).map (·.bytes)

end Sys2Proof.Machine
end

