-- ==== Sys2Proof/Machine/Vocab.lean ====
section
/-! DEFINITION. Sys2Proof/Machine/Vocab.lean: UTF-8 subparts, vocabulary sections, the load checks of vocabularies, overlays and
overlay sets, and the effective vocabulary that an op or a session uses (R195 to R218, R380, R381). -/
namespace Sys2Proof.Machine
open Sys2Proof

/-! ### UTF-8 (RFC 3629; R206, R259, R382) -/

/-- What stands at the front of a byte list. -/
inductive Utf where
  /-- A well-formed sequence: its code point and length. -/
  | ok (cp len : Nat)
  /-- A maximal ill-formed subpart: its length. -/
  | ill (len : Nat)
  /-- A proper prefix of a well-formed sequence, which the list's end cuts: its length. -/
  | part (len : Nat)
deriving DecidableEq, Repr

/-- First-continuation-byte bounds and sequence length of a lead byte. -/
def utfLead (b : Nat) : Option (Nat × Nat × Nat) :=
  if 0xC2 ≤ b && b ≤ 0xDF then some (2, 0x80, 0xBF)
  else if b == 0xE0 then some (3, 0xA0, 0xBF)
  else if b == 0xED then some (3, 0x80, 0x9F)
  else if 0xE1 ≤ b && b ≤ 0xEF then some (3, 0x80, 0xBF)
  else if b == 0xF0 then some (4, 0x90, 0xBF)
  else if 0xF1 ≤ b && b ≤ 0xF3 then some (4, 0x80, 0xBF)
  else if b == 0xF4 then some (4, 0x80, 0x8F)
  else none

/-- Read continuation bytes: `k` already read, `n` in the whole sequence, `lo` to `hi` allowed next. -/
def utfCont (n : Nat) : Nat → Nat → Nat → Nat → Nat → List Byte → Utf
  | 0, k, acc, _, _, _ => .ok acc k
  | f + 1, k, acc, lo, hi, bs =>
    if k == n then .ok acc n
    else
      match bs with
      | [] => .part k
      | b :: t =>
        if lo ≤ b.toNat && b.toNat ≤ hi then utfCont n f (k + 1) (acc * 64 + b.toNat % 64) 0x80 0xBF t
        else .ill k

/-- The front of a byte list that is not empty. -/
def utfFront : List Byte → Utf
  | [] => .part 0
  | b :: t =>
    if b.toNat < 0x80 then .ok b.toNat 1
    else
      match utfLead b.toNat with
      | none => .ill 1
      | some (n, lo, hi) => utfCont n 4 1 (b.toNat % 2 ^ (7 - n)) lo hi t

/-- The UTF-8 bytes of a code point. -/
def utfEnc (c : Nat) : List Byte :=
  if c < 0x80 then leBytes 1 c
  else if c < 0x800 then leBytes 1 (0xC0 + c / 64) ++ leBytes 1 (0x80 + c % 64)
  else if c < 0x10000 then
    leBytes 1 (0xE0 + c / 4096) ++ leBytes 1 (0x80 + c / 64 % 64) ++ leBytes 1 (0x80 + c % 64)
  else
    leBytes 1 (0xF0 + c / 262144) ++ leBytes 1 (0x80 + c / 4096 % 64) ++ leBytes 1 (0x80 + c / 64 % 64) ++
      leBytes 1 (0x80 + c % 64)

/-- Is a byte list a run of whole well-formed sequences? -/
def utfWhole : Nat → List Byte → Bool
  | 0, bs => bs.isEmpty
  | f + 1, bs =>
    match bs with
    | [] => true
    | _ =>
      match utfFront bs with
      | .ok _ n => utfWhole f (bs.drop n)
      | _ => false

/-! ### Sections (R196 to R199, R211, R380) -/

/-- No token, no offset: all ones. -/
abbrev none32 : Nat := 0xFFFFFFFF

/-- Section types (R197); `0x0100` is the model's own: the presence bitset of an overlay set's tokens. -/
abbrev secStrings : Nat := 1
abbrev secAttr : Nat := 2
abbrev secByteMap : Nat := 3
abbrev secMerges : Nat := 4
abbrev secScores : Nat := 5
abbrev secTrie : Nat := 6
abbrev secNorm : Nat := 7
abbrev secCmap : Nat := 8
abbrev secPretok : Nat := 9
abbrev secSpecials : Nat := 10
abbrev secPresent : Nat := 0x100

/-- String of token `t` in a STRINGS section. -/
def strAt (sec : List Byte) (t : Nat) : List Byte :=
  let a := leAt sec (4 * t) 4
  (sec.drop a).take (leAt sec (4 * t + 4) 4 - a)

/-- ATTR word of token `t`. -/
def attrAt (sec : List Byte) (t : Nat) : Nat := leAt sec (4 * t) 4
/-- Bits of an ATTR word (R198). -/
def atSpecial (a : Nat) : Bool := a.testBit 31
def atControl (a : Nat) : Bool := a.testBit 30
def atByte (a : Nat) : Bool := a.testBit 29
def atCont (a : Nat) : Bool := a.testBit 28
def atMark (a : Nat) : Bool := a.testBit 27
def atUnused (a : Nat) : Bool := a.testBit 26

/-- A merge rule (R199). -/
structure MergeRule where
  left : Nat
  right : Nat
  rank : Nat
  result : Nat
deriving DecidableEq, Repr

/-- The 16 bytes of slot `i` of a MERGES section. -/
def mergeSlot (sec : List Byte) (i : Nat) : MergeRule :=
  let o := 64 + 16 * i
  ⟨leAt sec o 4, leAt sec (o + 4) 4, leAt sec (o + 8) 4, leAt sec (o + 12) 4⟩
/-- SLOTS of a MERGES section. -/
def mergeSlots (sec : List Byte) : Nat := leAt sec 0 4
/-- The full slots of a MERGES section. -/
def mergeRules (sec : List Byte) : List MergeRule :=
  ((List.range (mergeSlots sec)).map (mergeSlot sec)).filter (fun r => r.left != none32)

/-- The merge hash (R381), before the mask. -/
def mergeHash (l r : Word) : Word :=
  let x := l * 0x9E3779B1#32
  let y := r * 0x85EBCA77#32
  let h := x ^^^ (y.rotateLeft 13)
  let h := h ^^^ (h >>> 16)
  let h := h * 0x2C1B3C6D#32
  h ^^^ (h >>> 15)
/-- The slot at which probing begins. -/
def mergeStart (l r slots : Nat) : Nat := (mergeHash (BitVec.ofNat 32 l) (BitVec.ofNat 32 r)).toNat % slots

/-- Probe a MERGES section for a pair (R199): up to `n` slots from slot `i`. -/
def mergeProbe (sec : List Byte) (l r : Nat) : Nat → Nat → Option MergeRule
  | 0, _ => none
  | n + 1, i =>
    let m := mergeSlot sec (i % mergeSlots sec)
    if m.left == none32 then none
    else if m.left == l && m.right == r then some m
    else mergeProbe sec l r n (i + 1)
/-- The rule for a pair. -/
def mergeFind (sec : List Byte) (l r : Nat) : Option MergeRule :=
  if mergeSlots sec == 0 then none else mergeProbe sec l r (mergeSlots sec) (mergeStart l r (mergeSlots sec))

/-- A SPECIALS entry (R211). -/
structure SpecialEntry where
  token : Nat
  role : Nat
  flags : Nat
deriving DecidableEq, Repr
/-- The entries of a SPECIALS section. -/
def specialEntries (sec : List Byte) (n : Nat) : List SpecialEntry :=
  (List.range n).map (fun i => ⟨leAt sec (8 * i) 4, leAt sec (8 * i + 4) 1, leAt sec (8 * i + 5) 1⟩)

/-- Root `r` of a TRIE section. -/
def trieRoot (sec : List Byte) (r : Nat) : Nat := if r < 2 then leAt sec (4 * r) 4 else none32
/-- TOKEN of a trie node. -/
def trieTok (sec : List Byte) (o : Nat) : Nat := leAt sec o 4
/-- Children of a node: label and offset (R380). -/
def trieKids (sec : List Byte) (o : Nat) : List (Nat × Nat) :=
  let w := leAt sec (o + 4) 2
  let c := leAt sec (o + 8) 4
  if w.testBit 15 then
    ((List.range 256).map (fun b => (b, leAt sec (c + 4 * b) 4))).filter (fun x => x.2 != none32)
  else (List.range (w % 512)).map (fun i => (leAt sec (c + 8 * i) 1, leAt sec (c + 8 * i + 4) 4))
/-- The child of a node reached by a byte (TSTEP). -/
def trieStep (sec : List Byte) (o b : Nat) : Option Nat :=
  ((trieKids sec o).find? (fun x => x.1 == b)).map (·.2)

/-- Is a node well placed and well formed (R380)? -/
def trieNodeOk (sec : List Byte) (o : Nat) : Bool :=
  let w := leAt sec (o + 4) 2
  let c := leAt sec (o + 8) 4
  let n := w % 512
  o % 16 == 0 && 64 ≤ o && o + 16 ≤ sec.length && w / 512 % 64 == 0 && n ≤ 256 && zeroBytes sec (o + 6) (o + 8) &&
  zeroBytes sec (o + 12) (o + 16) && c % 8 == 0 &&
  (if w.testBit 15 then c + 1024 ≤ sec.length && (trieKids sec o).length == n
   else
    c + 8 * n ≤ sec.length &&
    (List.range n).all (fun i => zeroBytes sec (c + 8 * i + 1) (c + 8 * i + 4)) &&
    (List.range (n - 1)).all (fun i => leAt sec (c + 8 * i) 1 < leAt sec (c + 8 * i + 8) 1))

/-- Walk the nodes below the offsets in `todo`, each with its path: every node reached once, or none when a node is reached
twice, is misplaced, or more than `fuel` nodes are reached. -/
def trieWalk (sec : List Byte) :
    Nat → List (Nat × List Byte) → List (Nat × List Byte) → Option (List (Nat × List Byte))
  | _, [], seen => some seen
  | 0, _ :: _, _ => none
  | f + 1, (o, path) :: todo, seen =>
    if !trieNodeOk sec o || seen.any (fun x => x.1 == o) then none
    else
      trieWalk sec f (((trieKids sec o).map (fun k => (k.2, path ++ leBytes 1 k.1))) ++ todo) ((o, path) :: seen)

/-- The offsets of the nodes below a root, root included. -/
def trieNodes (sec : List Byte) (r : Nat) : Option (List Nat) :=
  if trieRoot sec r == none32 then some []
  else (trieWalk sec (sec.length / 16 + 1) [(trieRoot sec r, [])] []).map (fun l => l.map (·.1))

/-- The (path, token) pairs below a root; none when the root's nodes are no tree (R380). -/
def triePaths (sec : List Byte) (r : Nat) : Option (List (List Byte × Nat)) :=
  if trieRoot sec r == none32 then some []
  else
    (trieWalk sec (sec.length / 16 + 1) [(trieRoot sec r, [])] []).map (fun l =>
      (l.map (fun x => (x.2, trieTok sec x.1))).filter (fun x => x.2 != none32))

/-- No element twice. -/
def distinct {α : Type} [BEq α] : List α → Bool
  | [] => true
  | a :: t => !t.contains a && distinct t

/-- Does a TRIE section meet R380, and does each path spell its token's string? -/
def trieOk (sec strings : List Byte) (v : Nat) : Bool :=
  64 ≤ sec.length && zeroBytes sec 12 64 && trieRoot sec 0 != none32 &&
  (List.range 2).all (fun r =>
    match triePaths sec r with
    | none => false
    | some l => distinct (l.map (·.2)) && l.all (fun x => x.2 < v && x.1 == strAt strings x.2)) &&
  leAt sec 8 4 == (((List.range 2).flatMap (fun r => (trieNodes sec r).getD [])).eraseDups).length

/-! ### Normalisation tables and custom maps (R203 to R205) -/

/-- The NORM record of a code point. -/
def normRec (sec : List Byte) (c : Nat) : Nat :=
  leAt sec (64 + 8704 + 8 * (256 * leAt sec (64 + 2 * (c / 256)) 2 + c % 256)) 8
/-- Code points of the expansion array. -/
def normExp (sec : List Byte) (i n : Nat) : List Nat :=
  (List.range n).map (fun k => leAt sec (leAt sec 0 4 + 4 * (i + k)) 4)
/-- A code point that is no surrogate and is in range. -/
def isScalar (c : Nat) : Bool := c ≤ 0x10FFFF && !(0xD800 ≤ c && c ≤ 0xDFFF)

/-- A Hangul syllable, which Pliow decomposes without table entries (R202). -/
def hangulSyl (c : Nat) : Bool := 0xAC00 ≤ c && c < 0xAC00 + 11172
/-- Does one NORM record meet R203? A decomposition is stored fully decomposed: no code point of a canonical one decomposes canonically, none of a
compatibility one at all (DEDUCED, log entry 14). -/
def normRecOk (sec : List Byte) (c : Nat) : Bool :=
  let r := normRec sec c
  let cap := (sec.length - leAt sec 0 4) / 4
  let low := nf r 5 21
  let full := fun (c : Nat) => c > 0x10FFFF || !hangulSyl c && (let t := nf (normRec sec c) 54 2; t != 1 && (nf r 54 2 != 2 || t != 2))
  let points := fun (i n : Nat) => (List.range n).all (fun k => leAt sec (leAt sec 0 4 + 4 * (i + k)) 4 ≤ 0x10FFFF)
  nf r 54 2 ≤ 2 && nf r 49 5 ≤ 18 && nf r 26 2 == 0 && nf r 0 2 == 0 && nf r 30 2 ≤ 2 && nf r 28 2 ≤ 2 &&
  (nf r 54 2 == 0 || (nf r 32 17 + nf r 49 5 ≤ cap && points (nf r 32 17) (nf r 49 5) && (normExp sec (nf r 32 17) (nf r 49 5)).all full)) &&
  (nf r 30 2 != 1 || low ≤ 0x10FFFF) &&
  (nf r 30 2 != 2 || (2 ≤ nf low 17 4 && nf low 17 4 ≤ 3 && nf low 0 17 + nf low 17 4 ≤ cap && points (nf low 0 17) (nf low 17 4)))

/-- An entry of the composition table: first, second, composite. -/
def normComp (sec : List Byte) (i : Nat) : Nat × Nat × Nat :=
  let o := leAt sec 4 4 + 12 * i
  (leAt sec o 4, leAt sec (o + 4) 4, leAt sec (o + 8) 4)

/-- The end of the record arrays of a NORM section. -/
def normArrays (sec : List Byte) : Nat :=
  64 + 8704 + 2048 * ((List.range 4352).foldl (fun m b => max m (leAt sec (64 + 2 * b) 2 + 1)) 0)
/-- Does a NORM section meet R203? -/
def normOk (sec : List Byte) : Bool :=
  let n := leAt sec 8 4
  64 + 8704 ≤ sec.length && normArrays sec ≤ leAt sec 0 4 && normArrays sec ≤ leAt sec 4 4 && zeroBytes sec 12 64 && leAt sec 0 4 ≤ sec.length && leAt sec 4 4 + 12 * n ≤ sec.length &&
  (List.range 0x110000).all (normRecOk sec) &&
  (List.range n).all (fun i => (normComp sec i).1 ≤ 0x10FFFF && (normComp sec i).2.1 ≤ 0x10FFFF && (normComp sec i).2.2 ≤ 0x10FFFF) &&
  (List.range (n - 1)).all (fun i =>
    let a := normComp sec i
    let b := normComp sec (i + 1)
    a.1 < b.1 || (a.1 == b.1 && a.2.1 < b.2.1))

/-- A CMAP entry (R204). -/
structure CmapEntry where
  src : Nat
  phase : Nat
  repl : List Nat
deriving DecidableEq, Repr
/-- Entry `i` of a CMAP section. -/
def cmapEntry (sec : List Byte) (i : Nat) : CmapEntry :=
  let o := 24 * i
  ⟨leAt sec o 4, leAt sec (o + 4) 1, (List.range (leAt sec (o + 5) 1)).map (fun k => leAt sec (o + 8 + 4 * k) 4)⟩
/-- The entries of a CMAP section. -/
def cmapEntries (sec : List Byte) : List CmapEntry := (List.range (sec.length / 24)).map (cmapEntry sec)
/-- Does a CMAP section meet R204 and R205? -/
def cmapOk (sec : List Byte) : Bool :=
  let n := sec.length / 24
  sec.length % 24 == 0 && 1 ≤ n && n ≤ 65536 &&
  (List.range n).all (fun i =>
    let o := 24 * i
    let e := cmapEntry sec i
    isScalar e.src && e.phase ≤ 1 && e.repl.length ≤ 4 && zeroBytes sec (o + 6) (o + 8) && e.repl.all isScalar &&
      zeroBytes sec (o + 8 + 4 * e.repl.length) (o + 24)) &&
  (List.range (n - 1)).all (fun i =>
    let a := cmapEntry sec i
    let b := cmapEntry sec (i + 1)
    a.phase < b.phase || (a.phase == b.phase && a.src < b.src))

/-! ### Pre-tokeniser automata (R208 to R210) -/

/-- Classes, states and lookahead sets of a PRETOK section. -/
def dfaClasses (sec : List Byte) : Nat := leAt sec 2 2
def dfaStates (sec : List Byte) : Nat := leAt sec 4 2
def dfaSets (sec : List Byte) : Nat := leAt sec 6 2
/-- Bit that marks a unit as a raw byte (R386). -/
abbrev rawUnit : Nat := 0x80000000
/-- Class of a unit: a code point, or a raw byte. -/
def dfaClass (sec : List Byte) (u : Nat) : Nat :=
  if rawUnit ≤ u then leAt sec 1 1
  else leAt sec (leAt sec 12 4 + 256 * leAt sec (leAt sec 8 4 + 2 * (u / 256)) 2 + u % 256) 1
/-- Next state; 0xFFFF is DEAD. -/
def dfaNext (sec : List Byte) (st cls : Nat) : Nat := leAt sec (leAt sec 16 4 + 2 * (st * dfaClasses sec + cls)) 2
/-- Attribute word of a state. -/
def dfaAttr (sec : List Byte) (st : Nat) : Nat := leAt sec (leAt sec 20 4 + 2 * st) 2
/-- Is class `c` in lookahead set `k`? -/
def dfaInSet (sec : List Byte) (k c : Nat) : Bool := (leAt sec (leAt sec 24 4 + 32 * k) 32).testBit c
/-- Does a state accept before a lookahead class, `none` for end of piece (R210)? -/
def dfaAccepts (sec : List Byte) (st : Nat) (la : Option Nat) : Bool :=
  let a := dfaAttr sec st
  match nf a 14 2, la with
  | 1, _ => true
  | 2, some c => dfaInSet sec (a % 256) c
  | 3, none => true
  | 3, some c => !dfaInSet sec (a % 256) c
  | _, _ => false

/-- Does a PRETOK section meet R209 and R210? -/
def pretokOk (sec : List Byte) : Bool :=
  let cs := dfaClasses sec
  let ns := dfaStates sec
  let ls := dfaSets sec
  let blocks := (List.range 4352).map (fun b => leAt sec (leAt sec 8 4 + 2 * b) 2)
  32 ≤ sec.length && leAt sec 0 1 ≤ 2 && 1 ≤ cs && cs ≤ 256 && 1 ≤ ns && ls ≤ 256 && zeroBytes sec 28 32 &&
  leAt sec 1 1 < cs && leAt sec 8 4 + 8704 ≤ sec.length && leAt sec 16 4 + 2 * ns * cs ≤ sec.length &&
  leAt sec 20 4 + 2 * ns ≤ sec.length && leAt sec 24 4 + 32 * ls ≤ sec.length &&
  blocks.all (fun b => leAt sec 12 4 + 256 * (b + 1) ≤ sec.length &&
    (List.range 256).all (fun i => leAt sec (leAt sec 12 4 + 256 * b + i) 1 < cs)) &&
  (List.range (ns * cs)).all (fun i =>
    let x := leAt sec (leAt sec 16 4 + 2 * i) 2
    x < ns || x == 0xFFFF) &&
  (List.range ns).all (fun st =>
    let a := dfaAttr sec st
    nf a 8 6 == 0 && (nf a 14 2 < 2 || a % 256 < ls)) &&
  nf (dfaAttr sec 0) 14 2 == 0

/-! ### Header of a vocabulary (R195) and its load checks (R196 to R200, R678) -/

def hMODEL (h : List Byte) : Nat := leAt h 32 1
def hFlag (h : List Byte) (i : Nat) : Bool := (leAt h 33 1).testBit i
def hINVALID (h : List Byte) : Bool := leAt h 34 1 == 1
def hV (h : List Byte) : Nat := leAt h 36 4
def hUNK (h : List Byte) : Nat := leAt h 40 4
def hBYTEBASE (h : List Byte) : Nat := leAt h 44 4
def hSPECIALS (h : List Byte) : Nat := leAt h 48 2
def hWPMAX (h : List Byte) : Nat := leAt h 60 2
def hUNKPEN (h : List Byte) : Word := BitVec.ofNat 32 (leAt h 64 4)
def hMERGES (h : List Byte) : Nat := leAt h 68 4

/-- A finite FP32 value that is at most 0. -/
def fpNonPos (w : Word) : Bool := !fpIsNaN w && !fpIsInf w && fpLe w 0#32

/-- The kind header of a vocabulary (R195, R206, R678). -/
def vocabHdrOk (h : List Byte) : Bool :=
  let m := hMODEL h
  1 ≤ m && m ≤ 4 && !(hFlag h 0 && hFlag h 1) && leAt h 34 1 ≤ 1 && (!hINVALID h || m ≤ 2) && leAt h 35 1 ≤ 4 &&
  1 ≤ hV h && hV h ≤ 4194304 && (hUNK h == none32 || hUNK h < hV h) &&
  (hBYTEBASE h == none32 || hBYTEBASE h + 255 < hV h) && (m != 2 || hBYTEBASE h != none32) &&
  (m < 3 || hUNK h != none32) && hSPECIALS h ≤ 1024 && zeroBytes h 51 52 && zeroBytes h 62 64 && hMERGES h ≤ 4194304 &&
  zeroBytes h 74 128 &&
  (m != 4 || (leAt h 50 1 ≤ 8 && zeroBytes h (52 + leAt h 50 1) 60 && 1 ≤ hWPMAX h && hWPMAX h ≤ 1024)) &&
  (m != 3 || fpNonPos (hUNKPEN h))

/-- Section types a model requires (R196). -/
def modelSects : Nat → List Nat
  | 1 => [secStrings, secAttr, secByteMap, secMerges]
  | 2 => [secStrings, secAttr, secTrie, secMerges]
  | 3 => [secStrings, secAttr, secTrie, secScores]
  | _ => [secStrings, secAttr, secTrie]

/-- Conditional section types whose condition holds (R196). -/
def condSects (h : List Byte) : List Nat :=
  (if hFlag h 0 || hFlag h 1 || hFlag h 2 || hFlag h 3 || hFlag h 4 then [secNorm] else []) ++
  (if hFlag h 7 then [secCmap] else []) ++ (if hSPECIALS h == 0 then [] else [secSpecials]) ++
  (if leAt h 35 1 == 0 then [] else [secPretok])

/-- The sections present are those R196 allows. -/
def sectSetOk (h : List Byte) (ss : List Sect) : Bool :=
  let req := modelSects (hMODEL h) ++ condSects h
  let types := ss.map (·.typ)
  req.all types.contains && distinct (types.filter (· != secPretok)) &&
  (types.filter (· == secPretok)).length == leAt h 35 1 &&
  types.all (fun t => (req ++ [secNorm, secCmap, secSpecials]).contains t)

/-- STRINGS and ATTR (R198), and the byte tokens of R200. -/
def stringsOk (h : List Byte) (ss : List Sect) : Bool :=
  let v := hV h
  let str := sectOf ss secStrings
  let att := sectOf ss secAttr
  4 * (v + 1) ≤ str.length && 4 * v ≤ att.length && 4 * (v + 1) ≤ leAt str 0 4 && leAt str (4 * v) 4 ≤ str.length &&
  (List.range v).all (fun t =>
    let a := leAt str (4 * t) 4
    let b := leAt str (4 * t + 4) 4
    let w := attrAt att t
    a ≤ b && b ≤ a + 255 && (a != b || atControl w) && nf w 8 18 == 0 && (atByte w || nf w 0 8 == 0) &&
      !(atByte w && atSpecial w)) &&
  (hBYTEBASE h == none32 || (List.range 256).all (fun b =>
    let w := attrAt att (hBYTEBASE h + b)
    atByte w && nf w 0 8 == b))

/-- MERGES (R199). -/
def mergesOk (v count : Nat) (sec : List Byte) : Bool :=
  let n := mergeSlots sec
  let rs := mergeRules sec
  64 + 16 * n ≤ sec.length && zeroBytes sec 4 64 && n.isPowerOfTwo && 8 * count ≤ 7 * n && rs.length == count &&
  rs.all (fun r => r.left < v && r.right < v && r.result < v && r.rank < count) && distinct (rs.map (·.rank)) &&
  distinct (rs.map (fun r => (r.left, r.right))) && rs.all (fun r => mergeFind sec r.left r.right == some r)

/-- SPECIALS (R211). -/
def specialsOk (h : List Byte) (ss : List Sect) : Bool :=
  let n := hSPECIALS h
  let sec := sectOf ss secSpecials
  let str := sectOf ss secStrings
  let att := sectOf ss secAttr
  let es := specialEntries sec n
  8 * n ≤ sec.length &&
  (List.range n).all (fun i => zeroBytes sec (8 * i + 6) (8 * i + 8)) &&
  es.all (fun e => e.token < hV h && atSpecial (attrAt att e.token) && e.role ≤ 9 && e.flags < 8 &&
    (!e.flags.testBit 0 || strAt str e.token != [])) &&
  distinct (es.map (·.token)) &&
  ((List.range (hV h)).filter (fun t => atSpecial (attrAt att t))).length == n &&
  distinct ((es.filter (fun e => e.flags.testBit 0)).map (fun e => strAt str e.token))

/-- Every rule that a vocabulary load checks beyond the envelope (R195 to R200, R203 to R206, R209 to R211, R380). -/
def vocabOk (h : List Byte) (ss : List Sect) : Bool :=
  let m := hMODEL h
  let v := hV h
  let cond := condSects h
  vocabHdrOk h && sectSetOk h ss && stringsOk h ss && specialsOk h ss &&
  (m != 1 || (let b := sectOf ss secByteMap
    let l := (List.range 256).map (fun i => leAt b (4 * i) 4)
    1024 ≤ b.length && l.all (· < v) && distinct l)) &&
  (2 < m || mergesOk v (hMERGES h) (sectOf ss secMerges)) &&
  (m == 1 || trieOk (sectOf ss secTrie) (sectOf ss secStrings) v) &&
  (m != 2 || (match triePaths (sectOf ss secTrie) 0 with
    | some l => l.all (fun x => utfWhole x.1.length x.1)
    | none => false)) &&
  (m != 3 || (let b := sectOf ss secScores
    4 * v ≤ b.length && (List.range v).all (fun t => fpNonPos (BitVec.ofNat 32 (leAt b (4 * t) 4))))) &&
  (!cond.contains secNorm || normOk (sectOf ss secNorm)) && (!cond.contains secCmap || cmapOk (sectOf ss secCmap)) &&
  (sectsOf ss secPretok).all pretokOk

/-- A bitset as a number. -/
def bitsOf (n : Nat) (f : Nat → Bool) : Nat := (List.range n).foldl (fun a t => if f t then a ||| 2 ^ t else a) 0

/-- The live bitset of a vocabulary (R301). -/
def vocabLive (h : List Byte) (ss : List Sect) : Nat :=
  bitsOf (hV h) (fun t => !atUnused (attrAt (sectOf ss secAttr) t))

/-! ### Overlays (R213) -/

/-- An overlay entry. -/
structure OvlEntry where
  token : Nat
  op : Nat
  role : Nat
  sflags : Nat
  len : Nat
  a : Nat
  b : Nat
  c : Nat
deriving DecidableEq, Repr

/-- Entries of an overlay. -/
def ovlEntries (h : List Byte) (ss : List Sect) : List OvlEntry :=
  let s := sectOf ss 0x20
  (List.range (leAt h 52 4)).map (fun i =>
    let o := 24 * i
    ⟨leAt s o 4, leAt s (o + 4) 1, leAt s (o + 5) 1, leAt s (o + 6) 1, leAt s (o + 7) 1, leAt s (o + 8) 4,
      leAt s (o + 12) 4, leAt s (o + 16) 4⟩)

/-- String of an ADD or REPLACE entry. -/
def ovlString (ss : List Sect) (e : OvlEntry) : List Byte := ((sectOf ss 0x21).drop e.a).take e.len

/-- Does an overlay meet R213? `model` is the model of the base version. -/
def overlayOk (model : Nat) (h : List Byte) (ss : List Sect) : Bool :=
  let n := leAt h 52 4
  let es := ovlEntries h ss
  let sec := sectOf ss 0x20
  let heap := sectOf ss 0x21
  let isStr := fun (e : OvlEntry) => e.op == 1 || e.op == 2
  1 ≤ n && n ≤ 65536 && zeroBytes h 56 128 && 24 * n ≤ sec.length &&
  (ss.map (·.typ)).all (fun t => t == 0x20 || t == 0x21) && distinct (ss.map (·.typ)) &&
  (List.range n).all (fun i => zeroBytes sec (24 * i + 20) (24 * i + 24)) &&
  es.all (fun e => e.token < 4194304 && 1 ≤ e.op && e.op ≤ 4 && e.sflags < 8 &&
    (e.op != 4 || (e.a < 4194304 && e.b < 4194304)) &&
    (!isStr e || (e.a + e.len ≤ heap.length && nf e.c 8 18 == 0 && (atByte e.c || nf e.c 0 8 == 0) &&
      !(atByte e.c && atSpecial e.c) && (e.len != 0 || atControl e.c) &&
      (!atSpecial e.c || (e.role ≤ 9 && (!e.sflags.testBit 0 || e.len != 0))) &&
      (if model == 3 then fpNonPos (BitVec.ofNat 32 e.b) else e.b == 0)))) &&
  distinct ((es.filter (fun e => e.op != 4)).map (·.token)) &&
  distinct ((es.filter (fun e => e.op == 4)).map (fun e => (e.a, e.b)))

/-! ### Overlay sets (R214 to R217) -/

/-- What a token is under a set. -/
inductive TokState where
  | absent
  | disabled
  | live (str : List Byte) (attr : Nat) (score : Nat) (role : Nat) (sflags : Nat) (source : Nat)
deriving DecidableEq, Repr

/-- What is built from a base and the overlays applied so far. -/
structure Resolving where
  size : Nat
  /-- Tokens that overlays decide, newest first. -/
  over_ : List (Nat × TokState)
  rules : List MergeRule
deriving DecidableEq, Repr

/-- The base's own entry for a token. -/
def baseTok (h : List Byte) (ss : List Sect) (t : Nat) : TokState :=
  if t < hV h then
    let sp := (specialEntries (sectOf ss secSpecials) (hSPECIALS h)).find? (fun e => e.token == t)
    .live (strAt (sectOf ss secStrings) t) (attrAt (sectOf ss secAttr) t) (leAt (sectOf ss secScores) (4 * t) 4)
      (match sp with | some e => e.role | none => 0) (match sp with | some e => e.flags | none => 0) 0
  else .absent

/-- The entry for a token so far (R215). -/
def Resolving.tok (r : Resolving) (h : List Byte) (ss : List Sect) (t : Nat) : TokState :=
  match assocFind r.over_ t with
  | some x => x
  | none => baseTok h ss t

/-- Apply overlay number `k` (from 1) on a base `h`, `ss` (R215, R217); none when a rule of R217 is broken. -/
def resolveOne (h : List Byte) (ss : List Sect) (r : Resolving) (k : Nat) (oh : List Byte) (os : List Sect) :
    Option Resolving :=
  let es := ovlEntries oh os
  let ok := es.all (fun e =>
    match e.op with
    | 1 => r.tok h ss e.token == .absent
    | 2 => r.tok h ss e.token != .absent
    | 3 => r.tok h ss e.token != .absent
    | _ => true)
  let toks := es.foldl (fun (l : List (Nat × TokState)) e =>
    match e.op with
    | 1 => (e.token, .live (ovlString os e) e.c e.b (if atSpecial e.c then e.role else 0) e.sflags k) :: l
    | 2 => (e.token, .live (ovlString os e) e.c e.b (if atSpecial e.c then e.role else 0) e.sflags k) :: l
    | 3 => (e.token, .disabled) :: l
    | _ => l) r.over_
  let adds := (es.filter (fun e => e.op == 1)).map (fun e => e.token + 1)
  let ms := (es.filter (fun e => e.op == 4)).map (fun e => MergeRule.mk e.a e.b e.c e.token)
  let rules := r.rules.filter (fun x => !ms.any (fun m => m.left == x.left && m.right == x.right)) ++ ms
  let r' : Resolving := ⟨adds.foldl max r.size, toks, rules⟩
  if ok && ms.all (fun m => r'.tok h ss m.left != .absent && r'.tok h ss m.right != .absent) then some r' else none

/-- Apply overlays in order. -/
def resolveAll (h : List Byte) (ss : List Sect) : Nat → List ObjVersion → Resolving → Option Resolving
  | _, [], r => some r
  | k, o :: t, r =>
    match resolveOne h ss r k o.hdr o.sects with
    | some r => resolveAll h ss (k + 1) t r
    | none => none

/-- Is a token live under the set for encode and stage 5: present, not disabled, UNUSED clear (R215, R198)? -/
def TokState.isLive : TokState → Bool
  | .live _ a _ _ _ _ => !atUnused a
  | _ => false

/-- A node of a trie under construction: path, token or none. -/
def trieKidsOf (paths : List (List Byte × Nat)) (p : List Byte) : List Byte :=
  ((List.range 256).map (fun b => BitVec.ofNat 8 b)).filter (fun b =>
    paths.any (fun x => (p ++ [b]).isPrefixOf x.1))

/-- Every prefix of every path, shorter ones first, each once; the root's empty path is among them. -/
def triePrefixes (paths : List (List Byte × Nat)) : List (List Byte) :=
  let all := [] :: paths.flatMap (fun x => (List.range (x.1.length)).map (fun i => x.1.take (i + 1)))
  (List.range 256).flatMap (fun n => (all.filter (fun p => p.length == n)).eraseDups)

/-- Bytes of the nodes of one root, first node at offset `o`, its child arrays after them (DESIGN CHOICE, log entry 12). -/
def trieBuild (paths : List (List Byte × Nat)) (o : Nat) : List Byte × Nat :=
  let ps := triePrefixes paths
  let n := ps.length
  let kidsAt := fun (i : Nat) => o + 16 * n + 8 * (((ps.take i).map (fun p => (trieKidsOf paths p).length)).sum)
  let nodes := (List.range n).flatMap (fun i =>
    let p := ps.getD i []
    leBytes 4 (((paths.find? (fun x => x.1 == p)).map (·.2)).getD none32) ++
      leBytes 2 (trieKidsOf paths p).length ++ leBytes 2 0 ++ leBytes 4 (kidsAt i) ++ leBytes 4 0)
  let kids := ps.flatMap (fun p => (trieKidsOf paths p).flatMap (fun b =>
    leBytes 1 b.toNat ++ leBytes 3 0 ++ leBytes 4 (o + 16 * (ps.idxOf (p ++ [b])))))
  let body := nodes ++ kids
  (padTo ((body.length + 15) / 16 * 16) body, n)

/-- A TRIE section from the (path, token) pairs of its two roots (R380). -/
def trieSection (r0 r1 : List (List Byte × Nat)) : List Byte :=
  let (b0, n0) := trieBuild r0 64
  let (b1, n1) := if r1.isEmpty then ([], 0) else trieBuild r1 (64 + b0.length)
  leBytes 4 64 ++ leBytes 4 (if r1.isEmpty then none32 else 64 + b0.length) ++ leBytes 4 (n0 + n1) ++ leBytes 52 0 ++
    b0 ++ b1

/-- Insert a rule at the first empty slot of its probe sequence. -/
def slotInsert (slots : Nat) (l : List (Nat × MergeRule)) (r : MergeRule) : List (Nat × MergeRule) :=
  let h := mergeStart r.left r.right slots
  match (List.range slots).find? (fun i => (assocFind l ((h + i) % slots)).isNone) with
  | some i => ((h + i) % slots, r) :: l
  | none => l

/-- A MERGES section holding rules (R199), in the smallest table R199 allows (DESIGN CHOICE, log entry 12). -/
def mergeSection (rules : List MergeRule) : List Byte :=
  let slots := 2 ^ Nat.clog 2 ((8 * rules.length + 6) / 7)
  let l := rules.foldl (slotInsert slots) []
  leBytes 4 slots ++ leBytes 60 0 ++ (List.range slots).flatMap (fun i =>
    match assocFind l i with
    | some r => leBytes 4 r.left ++ leBytes 4 r.right ++ leBytes 4 r.rank ++ leBytes 4 r.result
    | none => leBytes 4 none32 ++ leBytes 12 0)

/-- The paths of root `root` under a set: the base's paths whose token no overlay decides, then the live tokens of overlays, a
higher-numbered source displacing a lower one of the same string (R215), and of one overlay's two the higher token ID (DESIGN CHOICE, log entry
48). Special tokens of overlays stay out (R212). -/
def setPaths (h : List Byte) (ss : List Sect) (r : Resolving) (root : Nat) : List (List Byte × Nat) :=
  let base := ((triePaths (sectOf ss secTrie) root).getD []).filter (fun x => (assocFind r.over_ x.2).isNone)
  let mine := (((r.over_.map (·.1)).eraseDups).filterMap (fun t =>
    match r.tok h ss t with
    | .live str a _ _ _ k =>
      if !atSpecial a && !atUnused a && str != [] && ((hMODEL h == 4 && atCont a) == (root == 1)) then some (k, str, t)
      else none
    | _ => none))
  let best := mine.filter (fun x => !mine.any (fun y => y.2.1 == x.2.1 && (x.1 < y.1 || (x.1 == y.1 && x.2.2 < y.2.2))))
  base.filter (fun x => !best.any (fun y => y.2.1 == x.1)) ++ best.map (fun x => x.2)

/-- The resolved tables of a set as sections (R214): the tables of R197's layouts over the effective size, and the presence
bitset. -/
def resolvedSects (h : List Byte) (ss : List Sect) (r : Resolving) : List Sect :=
  let toks := (List.range r.size).map (r.tok h ss)
  let strs := toks.map (fun x => match x with | .live s _ _ _ _ _ => s | _ => [])
  let offs := (List.range (r.size + 1)).map (fun i => 4 * (r.size + 1) + ((strs.take i).map List.length).sum)
  let sps := sortBy (fun a b => b.1 ≤ a.1) ((List.range r.size).filterMap (fun t =>
    match r.tok h ss t with
    | .live _ a _ role fl k => if atSpecial a then some (k, t, role, fl) else none
    | _ => none))
  let sect := fun typ b => Sect.mk typ 1 b
  [sect secStrings (offs.flatMap (leBytes 4) ++ strs.flatMap id),
   sect secAttr (toks.flatMap (fun x => leBytes 4 (match x with | .live _ a _ _ _ _ => a | _ => 0))),
   sect secMerges (mergeSection r.rules),
   sect secScores (toks.flatMap (fun x => leBytes 4 (match x with | .live _ _ v _ _ _ => v | _ => 0))),
   sect secTrie (trieSection (setPaths h ss r 0) (setPaths h ss r 1)),
   sect secSpecials (sps.flatMap (fun x => leBytes 4 x.2.1 ++ leBytes 1 x.2.2.1 ++ leBytes 1 x.2.2.2 ++ leBytes 2 0)),
   sect secPresent (leBytes ((r.size + 7) / 8) (bitsOf r.size (fun t =>
     match r.tok h ss t with | .live _ _ _ _ _ _ => true | _ => false)))]

/-- The kind header of an overlay set (R214). -/
def setHdrOk (h : List Byte) : Bool :=
  let n := leAt h 52 1
  leAt h 2 2 == 0 && 1 ≤ n && n ≤ 16 && zeroBytes h 53 56 && zeroBytes h (56 + 4 * n) 120 && zeroBytes h 120 128

/-- Build a set from its base and overlays (R215, R217). -/
def resolveSet (base : ObjVersion) (ovls : List ObjVersion) : Option Resolving :=
  match resolveAll base.hdr base.sects 1 ovls ⟨hV base.hdr, [], mergeRules (sectOf base.sects secMerges)⟩ with
  | some r => if r.size ≤ 4194304 && distinct (r.rules.map (·.rank)) then some r else none
  | none => none

/-! ### The effective vocabulary -/

/-- What encode, decode, steps and beads read: a base version, with the resolved tables of a set in front when one is bound. -/
structure Voc where
  hdr : List Byte
  sects : List Sect
  /-- The base version's own sections. -/
  base : List Sect
  /-- The effective size (R215): V without a set. -/
  size : Nat
  liveBits : Nat
  /-- DIGEST of the set, or of the vocabulary (R247). -/
  digest : BitVec 128
deriving DecidableEq, Repr

/-- The vocabulary an op or a session is bound to. -/
def State.voc (s : State) (p : Part) (vocab : Bound) (ovl : Option Bound) : Option Voc :=
  match s.version? p vocab with
  | none => none
  | some v =>
    match ovl with
    | none => some ⟨v.hdr, v.sects, v.sects, hV v.hdr, v.liveBits, v.digest⟩
    | some o =>
      match s.version? p o with
      | none => none
      | some w => some ⟨v.hdr, w.sects ++ v.sects, v.sects, (sectOf w.sects secAttr).length / 4, w.liveBits, w.digest⟩

/-- Is the token live (R230)? -/
def Voc.live (v : Voc) (t : Nat) : Bool := t < v.size && v.liveBits.testBit t
/-- Is the token neither absent nor disabled (R215)? -/
def Voc.present (v : Voc) (t : Nat) : Bool :=
  t < v.size && (match sect? v.sects secPresent with | some b => (leAt b (t / 8) 1).testBit (t % 8) | none => true)
/-- String of a token. -/
def Voc.str (v : Voc) (t : Nat) : List Byte := strAt (sectOf v.sects secStrings) t
/-- ATTR word of a token. -/
def Voc.attr (v : Voc) (t : Nat) : Nat := attrAt (sectOf v.sects secAttr) t
/-- SPECIALS entries in force, the highest-numbered source first. -/
def Voc.specials (v : Voc) : List SpecialEntry :=
  let b := sectOf v.sects secSpecials
  specialEntries b (if (sect? v.sects secPresent).isSome then b.length / 8 else hSPECIALS v.hdr)
/-- Role of a token: 0 when it is no special token. -/
def Voc.role (v : Voc) (t : Nat) : Nat := ((v.specials.find? (fun e => e.token == t)).map (·.role)).getD 0
/-- The rule for a pair that applies: its result is live (R215, R230). -/
def Voc.merge (v : Voc) (l r : Nat) : Option MergeRule :=
  match mergeFind (sectOf v.sects secMerges) l r with
  | some m => if v.live m.result then some m else none
  | none => none
/-- Live matches at the front of a byte string below a trie node, longest first: (bytes, token). -/
def trieMatches (v : Voc) (sec : List Byte) : Nat → Nat → List Byte → List (Nat × Nat) → List (Nat × Nat)
  | o, k, bs, acc =>
    let t := trieTok sec o
    let acc := if k != 0 && t != none32 && v.live t then (k, t) :: acc else acc
    match bs with
    | [] => acc
    | b :: rest =>
      match trieStep sec o b.toNat with
      | some o' => trieMatches v sec o' (k + 1) rest acc
      | none => acc
/-- Live matches of root `r` at the front of a byte string, longest first. -/
def Voc.prefixes (v : Voc) (r : Nat) (bs : List Byte) : List (Nat × Nat) :=
  let sec := sectOf v.sects secTrie
  let o := trieRoot sec r
  if o == none32 then [] else trieMatches v sec o 0 bs []

end Sys2Proof.Machine
end

