-- ==== Sys2Proof/Machine/Text.lean ====
section
/-! DEFINITION. Sys2Proof/Machine/Text.lean: from input bytes to tokens: special matches, normalisation, pre-tokeniser stages,
forced cuts, the four tokeniser models, and segments (R201 to R212, R223 to R234). -/
namespace Sys2Proof.Machine
open Sys2Proof

/-- Is the unit a raw byte (R206)? -/
def TU.raw (x : TU) : Bool := rawUnit ≤ x.u
/-- UTF-8 bytes of a unit; a raw byte is itself. -/
def unitBytes (u : Nat) : List Byte := if rawUnit ≤ u then leBytes 1 (u - rawUnit) else utfEnc u

/-! ### Special-token matches (R212) -/

/-- An item of the input: a special token with its extent, or a span of bytes. -/
inductive Item where
  | special (tok off stop : Nat)
  | span (off : Nat) (bs : List Byte)
deriving DecidableEq, Repr

/-- White space for matching (R212). -/
def isMatchWs (b : Byte) : Bool := b == 9#8 || b == 10#8 || b == 13#8 || b == 32#8

/-- The longest MATCH entry whose string begins here; of equal strings the highest-numbered source, and of one overlay's two the lower token ID
(DESIGN CHOICE, log entry 48). -/
def Voc.specialHere (v : Voc) (bs : List Byte) : Option (SpecialEntry × Nat) :=
  (v.specials.filter (fun e => e.flags.testBit 0 && v.live e.token)).foldl (fun best e =>
    let t := v.str e.token
    if t != [] && t.isPrefixOf bs && (match best with | some (_, n) => n < t.length | none => true) then some (e, t.length)
    else best) none

/-- Scan for special tokens: `acc` holds the current span, newest byte first, `skip` says whether white space at its front is
still absorbed by a match before it (RSTRIP), whose item stands at the head of `out`. -/
def scanSpecials (v : Voc) : Nat → Nat → List Byte → List Byte → Bool → List Item → List Item
  | 0, _, _, _, _, out => out.reverse
  | f + 1, pos, bs, acc, skip, out =>
    let close := fun (acc : List Byte) (out : List Item) =>
      if acc.isEmpty then out else .span (pos - acc.length) acc.reverse :: out
    match bs with
    | [] => (close acc out).reverse
    | b :: rest =>
      match v.specialHere bs with
      | some (e, n) =>
        let ws := if e.flags.testBit 1 then (acc.takeWhile isMatchWs).length else 0
        let keep := acc.drop ws
        let out := if keep.isEmpty then out else .span (pos - acc.length) keep.reverse :: out
        scanSpecials v f (pos + n) (bs.drop n) [] (e.flags.testBit 2) (.special e.token (pos - ws) (pos + n) :: out)
      | none =>
        if skip && isMatchWs b then
          let out := match out with
            | .special t o _ :: l => .special t o (pos + 1) :: l
            | l => l
          scanSpecials v f (pos + 1) rest [] true out
        else scanSpecials v f (pos + 1) rest (b :: acc) false out

/-- The items of an input text. -/
def Voc.items (v : Voc) (specials : Bool) (bs : List Byte) : List Item :=
  if specials then scanSpecials v (bs.length + 1) 0 bs [] false []
  else if bs.isEmpty then [] else [.span 0 bs]

/-! ### Normalisation (R201 to R206) -/

/-- Stage 1: code points, with ill-formed subparts replaced or kept as raw bytes (R206). -/
def utfUnits (keep : Bool) : Nat → Nat → List Byte → List TU
  | 0, _, _ => []
  | f + 1, pos, bs =>
    match bs with
    | [] => []
    | _ =>
      let bad := fun (n : Nat) =>
        (if keep then (bs.take n).mapIdx (fun i b => TU.mk (rawUnit + b.toNat) (pos + i) 1) else [⟨0xFFFD, pos, n⟩]) ++
          utfUnits keep f (pos + n) (bs.drop n)
      match utfFront bs with
      | .ok c n => ⟨c, pos, n⟩ :: utfUnits keep f (pos + n) (bs.drop n)
      | .ill n => bad n
      | .part n => bad n

/-- Fields of a NORM record (R203). -/
def nrCcc (r : Nat) : Nat := nf r 56 8
def nrDtype (r : Nat) : Nat := nf r 54 2

/-- Stage 2, CLEAN. -/
def stClean (n : List Byte) (l : List TU) : List TU :=
  l.filterMap (fun x =>
    if x.raw then some x
    else
      let r := normRec n x.u
      if x.u == 0 || x.u == 0xFFFD || r.testBit 2 then none
      else if r.testBit 3 then some { x with u := 0x20 } else some x)

/-- A custom-map stage (R205). -/
def stCmap (c : List Byte) (ph : Nat) (l : List TU) : List TU :=
  let es := (cmapEntries c).filter (fun e => e.phase == ph)
  l.flatMap (fun x =>
    match if x.raw then none else es.find? (fun e => e.src == x.u) with
    | some e => e.repl.map (fun u => { x with u := u })
    | none => [x])

/-- Hangul syllables decompose algorithmically. -/
def hangulDec (c : Nat) : Option (List Nat) :=
  if 0xAC00 ≤ c && c < 0xAC00 + 11172 then
    let i := c - 0xAC00
    let t := i % 28
    some ([0x1100 + i / 588, 0x1161 + i % 588 / 28] ++ if t == 0 then [] else [0x11A7 + t])
  else none

/-- Decomposition of one code point by a single lookup, of the types allowed. -/
def decOne (n : List Byte) (types : List Nat) (c : Nat) : List Nat :=
  match hangulDec c with
  | some l => l
  | none =>
    let r := normRec n c
    if types.contains (nrDtype r) then normExp n (nf r 32 17) (nf r 49 5) else [c]

/-- Full decomposition: canonical, or with compatibility decompositions too (DEDUCED, log entry 13). -/
def decFull (n : List Byte) (compat : Bool) (c : Nat) : List Nat :=
  if compat then (decOne n [1] c).flatMap (decOne n [2]) else decOne n [1] c

/-- Combining class of a unit; a raw byte is 0. -/
def tuCcc (n : List Byte) (x : TU) : Nat := if x.raw then 0 else nrCcc (normRec n x.u)

/-- Put one unit behind the units it must follow in canonical order; the list is newest first. -/
def orderInsert (n : List Byte) (x : TU) : List TU → List TU
  | [] => [x]
  | y :: t => if tuCcc n x != 0 && tuCcc n x < tuCcc n y then y :: orderInsert n x t else x :: y :: t

/-- Canonical order. -/
def canonOrder (n : List Byte) (l : List TU) : List TU := (l.foldl (fun acc x => orderInsert n x acc) []).reverse

/-- Decompose and order. -/
def decompose (n : List Byte) (compat : Bool) (l : List TU) : List TU :=
  canonOrder n (l.flatMap (fun x => if x.raw then [x] else (decFull n compat x.u).map (fun u => { x with u := u })))

/-- The composite of two code points: Hangul algorithmically, others from the composition table. -/
def composePair (n : List Byte) (a b : Nat) : Option Nat :=
  if 0x1100 ≤ a && a < 0x1113 && 0x1161 ≤ b && b < 0x1176 then some (0xAC00 + ((a - 0x1100) * 21 + (b - 0x1161)) * 28)
  else if 0xAC00 ≤ a && a < 0xAC00 + 11172 && (a - 0xAC00) % 28 == 0 && 0x11A8 ≤ b && b < 0x11C3 then
    some (a + (b - 0x11A7))
  else
    (((List.range (leAt n 8 4)).map (normComp n)).find? (fun e => e.1 == a && e.2.1 == b)).map (fun e => e.2.2)

/-- The unit a composition yields: it spans the input of both (DEDUCED, log entry 14). -/
def joinTU (a b : TU) (u : Nat) : TU :=
  let lo := min a.off b.off
  ⟨u, lo, max (a.off + a.w) (b.off + b.w) - lo⟩

/-- Canonical composition: `st` the last starter, `mid` the units since it, newest first. -/
def composeAux (n : List Byte) : Option TU → List TU → List TU → List TU
  | st, mid, [] => (match st with | some s => [s] | none => []) ++ mid.reverse
  | st, mid, x :: t =>
    let c := tuCcc n x
    let fit := match st, mid with
      | some s, [] => if s.raw || x.raw then none else (composePair n s.u x.u).map (joinTU s x)
      | some s, m :: _ =>
        if s.raw || x.raw || c ≤ tuCcc n m then none else (composePair n s.u x.u).map (joinTU s x)
      | none, _ => none
    match fit with
    | some y => composeAux n (some y) mid t
    | none =>
      if c == 0 then
        (match st with | some s => [s] | none => []) ++ mid.reverse ++ composeAux n (some x) [] t
      else composeAux n st (x :: mid) t

/-- NFC, or NFKC with `compat` (R201 stage 5). -/
def stNfc (n : List Byte) (compat : Bool) (l : List TU) : List TU := composeAux n none [] (decompose n compat l)

/-- STRIP_ACCENTS (R201 stage 4). -/
def stStrip (n : List Byte) (l : List TU) : List TU :=
  (decompose n false l).filter (fun x => x.raw || !(normRec n x.u).testBit 4)

/-- LOWER (R201 stage 6). -/
def stLower (n : List Byte) (l : List TU) : List TU :=
  l.flatMap (fun x =>
    if x.raw then [x]
    else
      let r := normRec n x.u
      let low := nf r 5 21
      match nf r 30 2 with
      | 1 => [{ x with u := low }]
      | 2 => (normExp n (nf low 0 17) (nf low 17 4)).map (fun u => { x with u := u })
      | _ => [x])

/-- The stages of R201 on one span at input offset `off`. -/
def Voc.normalise (v : Voc) (off : Nat) (bs : List Byte) : List TU :=
  let h := v.hdr
  let n := sectOf v.sects secNorm
  let c := sectOf v.sects secCmap
  let l := utfUnits (hINVALID h) bs.length off bs
  let l := if hFlag h 4 then stClean n l else l
  let l := if hFlag h 7 then stCmap c 0 l else l
  let l := if hFlag h 3 then stStrip n l else l
  let l := if hFlag h 0 then stNfc n false l else if hFlag h 1 then stNfc n true l else l
  let l := if hFlag h 2 then stLower n l else l
  let l := if hFlag h 7 then stCmap c 1 l else l
  let l := if hFlag h 5 then l.map (fun x => if x.u == 0x20 then { x with u := 0x2581 } else x) else l
  match l with
  | [] => []
  | x :: t => if hFlag h 6 && x.u != 0x2581 then ⟨0x2581, off, 0⟩ :: x :: t else x :: t

/-! ### Pre-tokeniser stages (R208) -/

/-- One run of the DFA: from a state, `i` units read, the last accepted end so far. -/
def dfaRun (sec : List Byte) : Nat → Nat → Option Nat → List TU → Option Nat
  | _, _, last, [] => last
  | st, i, last, x :: t =>
    let st := dfaNext sec st (dfaClass sec x.u)
    if st == 0xFFFF then last
    else
      let la := match t with | [] => none | y :: _ => some (dfaClass sec y.u)
      dfaRun sec st (i + 1) (if dfaAccepts sec st la then some (i + 1) else last) t

/-- Matches and maximal gap runs of a piece, in order: (is a match, units). -/
def dfaSplit (sec : List Byte) : Nat → List TU → List TU → List (Bool × List TU)
  | 0, gap, _ => if gap.isEmpty then [] else [(false, gap.reverse)]
  | f + 1, gap, l =>
    let g := if gap.isEmpty then [] else [(false, gap.reverse)]
    match l with
    | [] => g
    | x :: t =>
      match dfaRun sec 0 0 none l with
      | none => dfaSplit sec f (x :: gap) t
      | some n => g ++ (true, l.take n) :: dfaSplit sec f [] (l.drop n)

/-- A stage on one piece, by its MODE. -/
def pretokStage (sec : List Byte) (l : List TU) : List (List TU) :=
  let parts := dfaSplit sec l.length [] l
  match leAt sec 0 1 with
  | 1 => (parts.filter (fun x => !x.1)).map (·.2)
  | 2 => (parts.filter (fun x => x.1)).map (·.2)
  | _ => parts.map (·.2)

/-- All stages, in section-table order. -/
def Voc.pretok (v : Voc) (l : List TU) : List (List TU) :=
  (sectsOf v.sects secPretok).foldl (fun ps sec => ps.flatMap (pretokStage sec)) (if l.isEmpty then [] else [l])

/-! ### Pieces, forced cuts and segments (R223, R224) -/

/-- A piece: a special token, or units of text; its input extent. -/
structure Piece where
  start : Nat
  stop : Nat
  special : Option Nat
  units : List TU
  /-- Bytes of its normalised text. -/
  norm : Nat
  /-- A forced cut follows it (R224). -/
  cut : Bool
deriving DecidableEq, Repr

/-- Normalised length of units in bytes: a raw byte counts 1. -/
def unitsLen (l : List Nat) : Nat := (l.map (fun u => (unitBytes u).length)).sum

/-- Extent of units: offset of the first, end of the last. -/
def tuExtent (l : List TU) : Nat × Nat :=
  match l.head?, l.getLast? with
  | some a, some b => (a.off, b.off + b.w)
  | _, _ => (0, 0)

/-- Do units meet both limits of R223? -/
def fitsSegment (l : List TU) : Bool :=
  let e := tuExtent l
  e.2 - e.1 ≤ 8192 && unitsLen (l.map (·.u)) ≤ 16384

/-- Where a piece that is too long is cut (R224). -/
def cutAt (l : List TU) : Nat :=
  let ok := (List.range l.length).filter (fun p => p != 0 && fitsSegment (l.take p))
  let at_ := fun (p : Nat) => ((l[p]?).map (·.u)).getD 0
  match (ok.filter (fun p => at_ p == 0x2581 || at_ p == 0x20 || at_ p == 0x0A)).getLast? with
  | some p => p
  | none => (ok.getLast?).getD 1

/-- Cut a piece until every part fits; with the number of cuts. -/
def forcedCuts : Nat → List TU → List (List TU) × Nat
  | 0, l => ([l], 0)
  | f + 1, l =>
    if l.isEmpty then ([], 0)
    else if fitsSegment l then ([l], 0)
    else
      let p := cutAt l
      let (rest, n) := forcedCuts f (l.drop p)
      (l.take p :: rest, n + 1)

/-- A text piece. -/
def mkPiece (cut : Bool) (l : List TU) : Piece :=
  let e := tuExtent l
  ⟨e.1, e.2, none, l, unitsLen (l.map (·.u)), cut⟩

/-- Segments from pieces in text order (R223): `cur` is the open segment, newest piece first. -/
def segments : List Piece → List Piece → List (List Piece)
  | cur, [] => if cur.isEmpty then [] else [cur.reverse]
  | cur, p :: t =>
    match cur.getLast? with
    | none => segments [p] t
    | some a =>
      if p.stop - a.start ≤ 8192 && (cur.map (·.norm)).sum + p.norm ≤ 16384 then segments (p :: cur) t
      else cur.reverse :: segments [p] t

/-! ### Tokeniser models (R230 to R234) -/

/-- The best applicable merge of adjacent symbols: the lowest rank, the leftmost of equal ones. -/
def bestMerge (v : Voc) : Nat → List Nat → Option (MergeRule × Nat) → Option (MergeRule × Nat)
  | i, a :: b :: t, best =>
    let best := match v.merge a b with
      | some m => (match best with
        | some (m0, _) => if m.rank < m0.rank then some (m, i) else best
        | none => some (m, i))
      | none => best
    bestMerge v (i + 1) (b :: t) best
  | _, _, best => best

/-- A token that a model emits, and the byte of the piece's UTF-8 at which it begins. -/
abbrev TokAt := Nat × Nat

/-- The merge loop (R231) on symbols, each with the byte at which it begins. -/
def mergeLoop (v : Voc) : Nat → List TokAt → List TokAt
  | 0, l => l
  | f + 1, l =>
    match bestMerge v 0 (l.map (·.1)) none with
    | none => l
    | some (m, i) => mergeLoop v f (l.take i ++ (m.result, (l.getD i (0, 0)).2) :: l.drop (i + 2))

/-- Symbols with the bytes at which they begin, from each one's length in bytes. -/
def symsAt : Nat → List (Nat × Nat) → List TokAt
  | _, [] => []
  | at_, (t, n) :: l => (t, at_) :: symsAt (at_ + n) l

/-- Model 0x01 (R231). -/
def tokBytes (v : Voc) (us : List Nat) : List TokAt :=
  let map := sectOf v.sects secByteMap
  let sym := (us.flatMap unitBytes).map (fun b => (leAt map (4 * b.toNat) 4, 1))
  mergeLoop v sym.length (symsAt 0 sym)

/-- The live root 0 match of exactly these bytes. -/
def exactMatch (v : Voc) (bs : List Byte) : Option Nat :=
  ((v.prefixes 0 bs).find? (fun x => x.1 == bs.length)).map (·.2)

/-- Model 0x02 (R232). -/
def tokChars (v : Voc) (us : List Nat) : List TokAt :=
  let bytes := fun (u : Nat) => (unitBytes u).map (fun b => (hBYTEBASE v.hdr + b.toNat, 1))
  let sym := us.flatMap (fun u =>
    if rawUnit ≤ u then bytes u
    else match exactMatch v (unitBytes u) with
      | some t => [(t, (unitBytes u).length)]
      | none => bytes u)
  mergeLoop v sym.length (symsAt 0 sym)

/-- An edge of the unigram lattice: where it begins, and its token (none: the unknown code point). -/
structure Edge where
  best : Word
  src : Nat
  tok : Option Nat
deriving DecidableEq, Repr

/-- Whole code points in a prefix of `n` bytes of the bytes of units. -/
def unitsIn (us : List Nat) (n : Nat) : Option Nat :=
  (List.range (us.length + 1)).find? (fun k => unitsLen (us.take k) == n)

/-- Relax one edge (R233). -/
def relax (tab : List (Option Edge)) (j : Nat) (e : Edge) : List (Option Edge) :=
  tab.modify j (fun old => match old with
    | some o => if fpLt o.best e.best then some e else old
    | none => if fpLt fpNegInf e.best then some e else none)

/-- Score of a token (R233). -/
def Voc.score (v : Voc) (t : Nat) : Word := BitVec.ofNat 32 (leAt (sectOf v.sects secScores) (4 * t) 4)

/-- Visit position `i` of the lattice (R233). A match that ends inside a code point gives no edge (DESIGN CHOICE, log entry 49). -/
def unigramAt (v : Voc) (us : List Nat) (tab : List (Option Edge)) (i : Nat) : List (Option Edge) :=
  match (tab[i]?).join with
  | none => tab
  | some e =>
    let rest := us.drop i
    let ms := (v.prefixes 0 (rest.flatMap unitBytes)).filterMap (fun m =>
      (unitsIn rest m.1).map (fun k => (k, m.2)))
    let tab := ms.foldl (fun tab m => relax tab (i + m.1) ⟨fpAdd e.best (v.score m.2), i, some m.2⟩) tab
    if ms.any (fun m => m.1 == 1) then tab
    else relax tab (i + 1) ⟨fpAdd e.best (hUNKPEN v.hdr), i, none⟩

/-- Backtrack from position `j`: (token or unknown, first unit), in text order. -/
def unigramBack (tab : List (Option Edge)) : Nat → Nat → List (Option Nat × Nat) → List (Option Nat × Nat)
  | 0, _, acc => acc
  | f + 1, j, acc =>
    if j == 0 then acc
    else match (tab[j]?).join with
      | some e => unigramBack tab f e.src ((e.tok, e.src) :: acc)
      | none => acc

/-- Collapse adjacent UNK_ID (R233); `last` is the token before. -/
def collapse (unk : Nat) : Nat → List TokAt → List TokAt
  | _, [] => []
  | last, a :: t => if a.1 == unk && last == unk then collapse unk a.1 t else a :: collapse unk a.1 t

/-- Model 0x03 (R233). -/
def tokUnigram (v : Voc) (us : List Nat) : List TokAt :=
  let n := us.length
  let tab := (some ⟨0#32, 0, none⟩ : Option Edge) :: List.replicate n none
  let tab := (List.range n).foldl (unigramAt v us) tab
  let path := unigramBack tab n n []
  let base := hBYTEBASE v.hdr
  collapse (hUNK v.hdr) (hUNK v.hdr + 1) (path.flatMap (fun x =>
    let at_ := unitsLen (us.take x.2)
    match x.1 with
    | some t => [(t, at_)]
    | none =>
      if base == none32 then [(hUNK v.hdr, at_)]
      else (unitBytes (us.getD x.2 0)).mapIdx (fun i b => (base + b.toNat, at_ + i))))

/-- The greedy loop of R234; none: the whole piece is one UNK_ID. A match that ends inside a code point is not taken (DESIGN CHOICE, log
entry 49). -/
def wordPiece (v : Voc) : Nat → Nat → List Byte → List (Nat × Nat) → Option (List (Nat × Nat))
  | 0, _, bs, out => if bs.isEmpty then some out.reverse else none
  | f + 1, root, bs, out =>
    match bs with
    | [] => some out.reverse
    | _ =>
      match (v.prefixes root bs).find? (fun m => utfWhole m.1 (bs.take m.1)) with
      | some (n, t) => wordPiece v f 1 (bs.drop n) ((t, n) :: out)
      | none => none

/-- Model 0x04 (R234). -/
def tokWord (v : Voc) (us : List Nat) : List TokAt :=
  if hWPMAX v.hdr < us.length then [(hUNK v.hdr, 0)]
  else match wordPiece v (us.length + 1) 0 (us.flatMap unitBytes) [] with
    | some l => symsAt 0 l
    | none => [(hUNK v.hdr, 0)]

/-- The model of the vocabulary on one piece. -/
def Voc.model (v : Voc) (us : List Nat) : List TokAt :=
  match hMODEL v.hdr with
  | 1 => tokBytes v us
  | 2 => tokChars v us
  | 3 => tokUnigram v us
  | _ => tokWord v us

/-- R230 on what a model emits: tokens kept, and how many were dropped. -/
def Voc.keepLive (v : Voc) (l : List TokAt) : List TokAt × Nat :=
  let unk := hUNK v.hdr
  let ok := unk != none32 && v.live unk
  let out := l.filterMap (fun t => if v.live t.1 then some t else if ok then some (unk, t.2) else none)
  (out, l.length - out.length)

/-- Input offset of the byte `k` of a piece's UTF-8; inside a unit that normalisation changed, the unit's own. -/
def inputAt : List TU → Nat → Nat
  | [], _ => 0
  | u :: l, k =>
    let n := (unitBytes u.u).length
    if k < n || l.isEmpty then u.off + (if u.w == n then k else 0) else inputAt l (k - n)
/-- What a MODEL program emits, each token taken to begin where the strings of those before it end (DEDUCED, log entry 13). -/
def Voc.progToks (v : Voc) (l : List Nat) : List TokAt := symsAt 0 (l.map (fun t => (t, (v.str t).length)))

end Sys2Proof.Machine
end

