-- ==== Sys2Proof/Machine/Stream.lean ====
section
/-! DEFINITION. Sys2Proof/Machine/Stream.lean: the text stream of a strand: token bytes, UTF-8 assembly, special tokens, stop
strings, release, and the rebuild of a rollback (R257 to R272, R677). -/
namespace Sys2Proof.Machine
open Sys2Proof

/-- The bytes of U+FFFD. -/
abbrev fffd : List Byte := [0xEF#8, 0xBF#8, 0xBD#8]
/-- The bytes of U+2581. -/
abbrev markBytes : List Byte := [0xE2#8, 0x96#8, 0x81#8]

/-- Replace every U+2581 by a space. -/
def unmark : Nat → List Byte → List Byte
  | 0, l => l
  | f + 1, l =>
    match l with
    | [] => []
    | b :: t => if markBytes.isPrefixOf l then 0x20#8 :: unmark f (l.drop 3) else b :: unmark f t

/-- Token bytes of a token that is no special token (R258). -/
def Voc.tokenBytes (v : Voc) (started : Bool) (t : Nat) : List Byte :=
  if !v.present t then fffd
  else
    let a := v.attr t
    if atControl a then []
    else if atByte a then leBytes 1 (a % 256)
    else
      let s := v.str t
      let s := if hFlag v.hdr 6 && !started && atMark a && markBytes.isPrefixOf s then s.drop 3 else s
      let s := if hFlag v.hdr 5 || hFlag v.hdr 6 then unmark s.length s else s
      if hMODEL v.hdr == 4 && !atCont a && started then 0x20#8 :: s else s

/-- Is the token handled as a special token (R258 orders 1 and 2)? -/
def Voc.isSpecial (v : Voc) (t : Nat) : Bool := v.present t && atSpecial (v.attr t)

/-- A byte of text with the number of the token that supplied it. -/
abbrev OByte := Byte × Nat

/-- Assemble bytes into stream text (R259): the text and the raw bytes that stay pending. A U+FFFD belongs to the token of the
first byte it stands for. -/
def assemble : Nat → List OByte → List OByte × List OByte
  | 0, l => ([], l)
  | f + 1, l =>
    match l with
    | [] => ([], [])
    | x :: _ =>
      match utfFront (l.map (·.1)) with
      | .ok _ n =>
        let (a, p) := assemble f (l.drop n)
        (l.take n ++ a, p)
      | .ill n =>
        let (a, p) := assemble f (l.drop n)
        (fffd.map (fun b => (b, x.2)) ++ a, p)
      | .part _ => ([], l)

/-- Pending raw bytes as text: one U+FFFD for the ill-formed subpart they are (R260, R272). -/
def flushPend (l : List OByte) : List OByte :=
  match l with
  | [] => []
  | x :: _ => fffd.map (fun b => (b, x.2))

/-- The first match of a stop string in `txt` that ends after byte `from_`: (end, start, index) (R261). -/
def stopMatch (stops : List (List Byte)) (txt : List Byte) (from_ : Nat) : Option (Nat × Nat × Nat) :=
  (List.range (txt.length - from_)).findSome? (fun i =>
    let e := from_ + i + 1
    ((stops.zipIdx).find? (fun s => s.1 != [] && s.1.length ≤ e && s.1 == (txt.take e).drop (e - s.1.length))).map
      (fun s => (e, e - s.1.length, s.2)))

/-- Length of the stop prefix of `txt` (R261). -/
def stopPrefix (stops : List (List Byte)) (txt : List Byte) : Nat :=
  (((List.range (min 63 txt.length + 1)).filter (fun n => n != 0 &&
    stops.any (fun s => n < s.length && s.take n == txt.drop (txt.length - n)))).getLast?).getD 0

/-- Unicode White_Space (R677). -/
def isWs (c : Nat) : Bool :=
  (9 ≤ c && c ≤ 13) || c == 0x20 || c == 0x85 || c == 0xA0 || c == 0x1680 || (0x2000 ≤ c && c ≤ 0x200A) || c == 0x2028 ||
  c == 0x2029 || c == 0x202F || c == 0x205F || c == 0x3000

/-- Boundaries of R264 in a text: the end of each code point with (is phrase, is word). -/
def boundaries : Nat → Nat → Option Nat → List Byte → List (Nat × Bool × Bool)
  | 0, _, _, _ => []
  | f + 1, pos, prev, l =>
    match l with
    | [] => []
    | _ =>
      match utfFront l with
      | .ok c n =>
        let punct := match prev with
          | some q => [0x2E, 0x21, 0x3F, 0x3B, 0x3A, 0x2C].contains q
          | none => false
        let ph := c == 0x0A || (isWs c && punct) || [0x3001, 0x3002, 0xFF01, 0xFF0C, 0xFF1A, 0xFF1B, 0xFF1F].contains c
        let wd := ph || c == 0x09 || c == 0x20 || c == 0x3000
        (pos + n, ph, wd) :: boundaries f (pos + n) (some c) (l.drop n)
      | _ => []

/-- What the stream of a session needs from its parameter block (R150). -/
structure StreamCfg where
  stops : List (List Byte) := []
  speech : Bool := false
  flushTokens : Nat := 0
  flushPhase : Nat := 0
  skipSpecial : Bool := false
deriving DecidableEq, Repr

/-- What a commit reports of the stream (R269). -/
structure SlotRes where
  text : List Byte := []
  forced : Bool := false
  suppressed : Bool := false
  stop : Bool := false
  stopIdx : Nat := 0xFF
deriving DecidableEq, Repr

/-- HELD_TOKENS after release (R267). -/
def heldAfter (old rest rel : Nat) : Nat := if rest == 0 then 0 else if rel == 0 then min 65535 (old + 1) else 1

/-- Steps from step `b` to step `a`, by the serial arithmetic of R43. -/
def stepDiff (a b : Nat) : Int :=
  let k : Nat := (a + 2 ^ 40 - b) % 2 ^ 40
  if k ≤ 2 ^ 39 then (k : Int) else (k : Int) - 2 ^ 40

/-- How much of R to release when SPEECH is 1, and whether by force (R264, R265). `keep` counts the unreleased bytes that are
not part of R. -/
def speechRelease (c : StreamCfg) (x : Stream) (step phase : Nat) (r : List Byte) (keep : Nat) : Nat × Bool :=
  let bs := boundaries r.length 0 none r
  let ph := (((bs.filter (fun b => b.2.1)).getLast?).map (·.1)).getD 0
  let wd := (((bs.filter (fun b => b.2.2)).getLast?).map (·.1)).getD 0
  let tok := c.flushTokens != 0 && c.flushTokens ≤ heldAfter x.heldTokens (r.length - ph) ph
  let pha := c.flushPhase != 0 && x.heldTokens != 0 &&
    ((c.flushPhase : Int) ≤ stepDiff step x.oldStep.toNat * 4096 + (phase : Int) - (x.oldPhase : Int))
  let cap := 1008 < r.length - ph + keep
  if tok || pha || cap then
    let n := if ph < wd then wd else r.length
    let more := (bs.filter (fun b => n < b.1)).map (·.1)
    (if r.length - n + keep ≤ 1008 then n
     else ((more.find? (fun e => r.length - e + keep ≤ 1008)).getD r.length), true)
  else (ph, false)

/-- One commit of a token through the stream at point (step, phase) (R268). -/
def streamCommit (v : Voc) (c : StreamCfg) (x : Stream) (step phase t : Nat) : Stream × SlotRes :=
  if x.stopped then (x, { suppressed := true })
  else if v.isSpecial t then
    let s := if !c.skipSpecial && !atControl (v.attr t) then v.str t else []
    let out := x.held ++ (flushPend (x.utfPend.map (fun b => (b, 0)))).map (·.1) ++ s
    let x : Stream := { x with fresh := false, started := x.started || s != [], consumed := (x.consumed + out.length) % 2 ^ 32,
                               held := [], utfPend := [] }
    if v.role t == 2 then ({ x with stopped := true }, { text := out, stop := true, stopIdx := 0x10 })
    else ({ x with heldTokens := 0 }, { text := out })
  else
    let b := v.tokenBytes x.started t
    let raw := (x.utfPend ++ b).map (fun y => (y, 0))
    let (txt, pend) := assemble (raw.length + 1) raw
    let all := x.held ++ txt.map (·.1)
    let x : Stream := { x with fresh := x.fresh && b == [], started := x.started || b != [] }
    match stopMatch c.stops all x.held.length with
    | some (_, st, k) =>
      ({ x with consumed := (x.consumed + all.length) % 2 ^ 32, held := [], utfPend := [], stopped := true },
       { text := all.take st, stop := true, stopIdx := k })
    | none =>
      let sp := stopPrefix c.stops all
      let r := all.take (all.length - sp)
      let (n, forced) := if c.speech then speechRelease c x step phase r (sp + pend.length) else (r.length, false)
      let rest := r.length - n
      ({ x with
          consumed := (x.consumed + n) % 2 ^ 32
          held := all.drop n
          utfPend := pend.map (·.1)
          heldTokens := heldAfter x.heldTokens rest n
          oldStep := if rest != 0 && (n != 0 || x.heldTokens == 0) then BitVec.ofNat 40 step else x.oldStep
          oldPhase := if rest != 0 && (n != 0 || x.heldTokens == 0) then phase else x.oldPhase },
       { text := all.take n, forced := forced })

/-- The state of a rebuild (R271): the stream text and pending bytes, each byte with its token's number. -/
structure Rebuild where
  text : List OByte := []
  pend : List OByte := []
  /-- Where matching begins: after the last special token's text. -/
  win : Nat := 0
  started : Bool := false
  stopped : Bool := false
  fresh : Bool := true
deriving DecidableEq, Repr

/-- One token of a rebuild (R258 to R261). -/
def rebuildTok (v : Voc) (c : StreamCfg) (r : Rebuild) (t k : Nat) : Rebuild :=
  if r.stopped then r
  else if v.isSpecial t then
    let s := if !c.skipSpecial && !atControl (v.attr t) then v.str t else []
    let text := r.text ++ flushPend r.pend ++ s.map (fun b => (b, k))
    { r with text := text, pend := [], win := text.length, started := r.started || s != [], fresh := false,
             stopped := v.role t == 2 }
  else
    let b := v.tokenBytes r.started t
    let raw := r.pend ++ b.map (fun y => (y, k))
    let (txt, pend) := assemble (raw.length + 1) raw
    let all := r.text ++ txt
    let r : Rebuild := { r with started := r.started || b != [], fresh := r.fresh && b == [] }
    match stopMatch c.stops ((all.drop r.win).map (·.1)) (r.text.length - r.win) with
    | some _ => { r with text := all, pend := [], stopped := true }
    | none => { r with text := all, pend := pend }

/-- The stream that ROLLBACK leaves: rebuilt from the kept tokens after the prompt, at the ROLLBACK's commit point (R271). -/
def streamRebuild (v : Voc) (c : StreamCfg) (x : Stream) (toks : List Nat) (step phase : Nat) : Stream :=
  let r := (toks.zipIdx).foldl (fun r tk => rebuildTok v c r tk.1 tk.2) ({} : Rebuild)
  let cons := min x.consumed r.text.length
  let sp := stopPrefix c.stops ((r.text.drop (max r.win cons)).map (·.1))
  let rel := (r.text.take (r.text.length - sp)).drop cons
  { fresh := r.fresh, consumed := cons, started := r.started, stopped := r.stopped
    utfPend := if r.stopped then [] else r.pend.map (·.1)
    held := if r.stopped then [] else (r.text.drop cons).map (·.1)
    heldTokens := if r.stopped then 0 else min 65535 ((rel.map (·.2)).eraseDups).length
    oldStep := BitVec.ofNat 40 step, oldPhase := phase }

/-- DECODE's conversion (R272): the whole text of a token list, in one fresh stream. -/
def decodeText (v : Voc) (skip : Bool) (toks : List Nat) : List Byte :=
  let fin := toks.foldl (fun (st : List Byte × List Byte × Bool) t =>
    let (out, pend, started) := st
    if v.isSpecial t then
      let s := if !skip && !atControl (v.attr t) then v.str t else []
      (out ++ (flushPend (pend.map (fun b => (b, 0)))).map (·.1) ++ s, [], started || s != [])
    else
      let b := v.tokenBytes started t
      let raw := (pend ++ b).map (fun y => (y, 0))
      let (txt, p) := assemble (raw.length + 1) raw
      (out ++ txt.map (·.1), p.map (·.1), started || b != [])) ([], [], false)
  fin.1 ++ (flushPend (fin.2.1.map (fun b => (b, 0)))).map (·.1)

/-- The stream configuration of a parameter block with stop strings (R150). -/
def streamCfg (params : List Byte) (stops : List (List Byte)) : StreamCfg :=
  { stops := stops, speech := (leAt params 48 1).testBit 3, flushTokens := leAt params 74 2,
    flushPhase := leAt params 76 2, skipSpecial := (leAt params 48 1).testBit 0 }

/-- The 16 header bytes and the text of a slot (R269, R270): `committed` false for a failed item, whose HELD is 0 (DESIGN CHOICE, log
entry 49). -/
def slotBytes (session : Word) (index : Nat) (committed : Bool) (x : Stream) (r : SlotRes) : List Byte :=
  leBytes 4 session.toNat ++ leBytes 4 index ++ leBytes 2 r.text.length ++
  leBytes 1 ((if committed then 1 else 0) + (if r.stop then 2 else 0) + (if r.suppressed then 4 else 0) +
    (if r.forced then 8 else 0) + (if committed && (x.held != [] || x.utfPend != []) then 16 else 0)) ++
  leBytes 1 r.stopIdx ++ leBytes 2 x.hold.length ++ leBytes 2 0 ++ r.text

/-- The header of a text batch (R269). -/
def textHeader (tag : Nat) (step : Nat) (count part dom : Nat) : List Byte :=
  leBytes 8 tag ++ leBytes 8 step ++ leBytes 4 count ++ leBytes 4 2048 ++ leBytes 1 part ++ leBytes 1 dom ++ leBytes 38 0

end Sys2Proof.Machine
end

