-- ==== Sys2Proof/Machine/Lockets.lean ====
section
/-! DEFINITION. Sys2Proof/Machine/Lockets.lean: the locket as bytes: header, body, history coding, and the export image under the
transfer key (R445 to R450). -/
namespace Sys2Proof.Machine
open Sys2Proof

/-! ### History coding (R449) -/

/-- LEB128; five groups hold 32 bits. -/
def leb128 : Nat → Nat → List Byte
  | 0, _ => []
  | f + 1, v => if v < 128 then [BitVec.ofNat 8 v] else BitVec.ofNat 8 (v % 128 + 128) :: leb128 f (v / 128)

/-- Read one LEB128 number of at most `n` bytes: value and the rest. -/
def unleb128 : Nat → List Byte → Option (Nat × List Byte)
  | 0, _ => none
  | _, [] => none
  | f + 1, b :: l =>
    if b.toNat < 128 then some (b.toNat, l)
    else (unleb128 f l).map (fun x => (b.toNat - 128 + 128 * x.1, x.2))

/-- zigzag of a signed 32-bit difference. -/
def zigzag (d : Word) : Word := (d <<< 1) ^^^ d.sshiftRight 31
/-- Its inverse. -/
def unzigzag (z : Word) : Word := (z >>> 1) ^^^ (0#32 - (z &&& 1#32))

/-- MODE 1 payload and the last token. -/
def codeDelta : Nat → List Nat → List Byte
  | _, [] => []
  | prev, t :: l => leb128 5 (zigzag (BitVec.ofNat 32 t - BitVec.ofNat 32 prev)).toNat ++ codeDelta t l

/-- Tokens packed `w` bits each, little-endian. -/
def packBits (w : Nat) : List Nat → Nat
  | [] => 0
  | t :: l => t % 2 ^ w + 2 ^ w * packBits w l

/-- One block: header and payload; ties go to the lower MODE. -/
def codeBlock (w prev : Nat) (toks : List Nat) : List Byte :=
  let m0 := toks.flatMap (leb128 5)
  let m1 := codeDelta prev toks
  let n2 := (w * toks.length + 7) / 8
  if m0.length ≤ m1.length && m0.length ≤ n2 then leBytes 4 m0.length ++ m0
  else if m1.length ≤ n2 then leBytes 4 (2 ^ 30 + m1.length) ++ m1
  else leBytes 4 (2 ^ 31 + n2) ++ leBytes n2 (packBits w toks)

/-- The coded history: blocks of 1,024 tokens; `n` bounds the blocks. -/
def codeHistory (w : Nat) : Nat → Nat → List Nat → List Byte
  | 0, _, _ => []
  | n + 1, prev, toks =>
    if toks.isEmpty then []
    else codeBlock w prev (toks.take 1024) ++ codeHistory w n ((toks.take 1024).getLastD 0) (toks.drop 1024)

/-- `n` MODE 0 tokens filling a payload exactly. -/
def decodeLeb : Nat → List Byte → Option (List Nat)
  | 0, l => if l.isEmpty then some [] else none
  | n + 1, l =>
    match unleb128 5 l with
    | some (t, l) => (decodeLeb n l).map (t :: ·)
    | none => none

/-- Undo MODE 1 differences. -/
def undelta : Word → List Nat → List Nat
  | _, [] => []
  | prev, z :: l =>
    let t := prev + unzigzag (BitVec.ofNat 32 z)
    t.toNat :: undelta t l

/-- Decode `n` tokens of blocks; the rest of the bytes after them. `f` bounds the blocks. -/
def decodeHistory (w : Nat) : Nat → Nat → Nat → List Byte → Option (List Nat × List Byte)
  | 0, n, _, l => if n == 0 then some ([], l) else none
  | f + 1, n, prev, l =>
    if n == 0 then some ([], l)
    else
      let h := leAt l 0 4
      let bytes := h % 2 ^ 16
      let k := min n 1024
      let pay := (l.drop 4).take bytes
      if l.length < 4 + bytes || nf h 16 14 != 0 then none
      else
        let toks := match h / 2 ^ 30 with
          | 0 => decodeLeb k pay
          | 1 => (decodeLeb k pay).map (undelta (BitVec.ofNat 32 prev))
          | 2 => if bytes == (w * k + 7) / 8 then some ((List.range k).map (fun i => nf (leNat pay) (w * i) w)) else none
          | _ => none
        match toks with
        | none => none
        | some ts =>
          (decodeHistory w f (n - k) (ts.getLastD 0) (l.drop (4 + bytes))).map (fun x => (ts ++ x.1, x.2))

/-- ⌈log2 v⌉, at least 1 (R447). -/
def bitsFor (v : Nat) : Nat := if v ≤ 2 then 1 else Nat.log2 (v - 1) + 1

/-! ### Body (R446 to R448) -/

/-- Round up to a multiple of 64. -/
def up64 (n : Nat) : Nat := (n + 63) / 64 * 64
/-- Pad a part with zeros to a multiple of 64. -/
def pad64 (l : List Byte) : List Byte := padTo (up64 l.length) l

/-- An entry of the binding record (R448). -/
def bindBytes (s : State) (p : Part) : Option Bound → List Byte
  | none => leBytes 24 0
  | some b =>
    leBytes 4 b.id.toNat ++ leBytes 4 b.ver ++
      leBytes 16 (match s.version? p b with | some v => v.digest.toNat | none => 0)

/-- VEFF of a strand's binding. -/
def State.veff (s : State) (t : Strand) : Nat := match s.voc t.part t.vocab t.ovl with | some v => v.size | none => 0

/-- The strand record (R447). -/
def strandRecord (t : Strand) (veff : Nat) : List Byte :=
  leBytes 5 t.steps.toNat ++ leBytes 3 0 ++ leBytes 4 t.hist.length ++ leBytes 4 t.promptLen ++ leBytes 3 t.cpState ++
  leBytes 1 t.domain.val ++ leBytes 2 t.stack.length ++ leBytes 2 t.stream.hold.length ++ leBytes 8 t.lastStep.toNat ++
  leBytes 8 t.charged ++ leBytes 8 t.epoch.toNat ++ leBytes 2 t.account ++ leBytes 1 (bitsFor veff) ++ leBytes 1 0 ++
  leBytes 4 veff ++ leBytes 8 0

/-- Bytes of a bias list and of stop strings (R150). -/
def biasBytes (l : List (Nat × Word)) : List Byte := l.flatMap (fun x => leBytes 4 x.1 ++ leBytes 4 x.2.toNat)
def stopBytes (l : List (List Byte)) : List Byte := l.flatMap (fun b => leBytes 8 b.length ++ padTo 64 b)

/-- The body of a strand (R446). -/
def State.locketBody (s : State) (t : Strand) : List Byte :=
  let veff := s.veff t
  strandRecord t veff ++
  padTo 128 (bindBytes s t.part (some t.vocab) ++ bindBytes s t.part t.ovl ++ bindBytes s t.part t.cp ++
    bindBytes s t.part t.hook) ++
  padTo 256 t.params ++ pad64 (biasBytes t.bias) ++ pad64 (stopBytes t.stops) ++ pad64 t.stream.hold ++
  pad64 (t.stack.flatMap frameBytes) ++ pad64 (codeHistory (bitsFor veff) (t.hist.length / 1024 + 1) 0 t.hist)

/-- Pages a strand takes at admission (R174): 2, its bias pages, its stack pages, its history pages. -/
def admitPages (bias : Nat) (cp : Bool) (depth hist : Nat) : Nat :=
  2 + (bias + 511) / 512 + (if cp then (if 512 < depth then 4 else 2) else 0) + (hist + 1023) / 1024

/-- A locket header (R445). -/
def locketHeader (isExport pinned : Bool) (len : Nat) (id gen : DWord) (session : Word) (p : Part) (epoch : Word) (pages : Nat)
    (tag : List Byte) : List Byte :=
  leBytes 1 1 ++ leBytes 1 ((if isExport then 2 else 0) + if pinned then 1 else 0) ++ leBytes 2 0 ++ leBytes 4 len ++
  leBytes 8 id.toNat ++ leBytes 8 gen.toNat ++ leBytes 4 session.toNat ++ leBytes 1 p.val ++ leBytes 3 0 ++
  leBytes 4 epoch.toNat ++ leBytes 4 pages ++ tag ++ leBytes 8 0

/-- Locket ID of a generation (R443). -/
def locketId (p : Part) (g : DWord) : DWord := BitVec.ofNat 64 (p.val * 2 ^ 60 + fld g 0 60)

/-- Generation of a locket ID. -/
def locketGen (id : DWord) : DWord := BitVec.ofNat 64 (fld id 0 60)

/-! ### Transfer key and export images (R450) -/

/-- The transfer key of an asset key 1. -/
def transferKey (ak : BitVec 256) : List Byte := blake3Derive "Rhoram Pliow transfer v1" (leBytes 32 ak.toNat)

/-- The body key of an image: derived from the transfer key with TAG as context (DEDUCED, log entry 15). -/
def imageKey (tk tag : List Byte) : List Byte :=
  let ctx := b3Root b3Iv 32 tag
  blake3Xof (b3KeyWords ctx) 64 tk 64

/-- Data units of 4 KiB under XTS, the tweak of each `step` above that of the one before. -/
def xtsUnits (f : List Byte → Nat → List Byte → List Byte) (key : List Byte) (step : Nat) : Nat → Nat → List Byte → List Byte
  | 0, _, _ => []
  | n + 1, i, l => if l.isEmpty then [] else f key i (l.take 4096) ++ xtsUnits f key step n (i + step) (l.drop 4096)

/-- The export image of a body. -/
def exportImage (ak : BitVec 256) (hdr : List Byte → List Byte) (body : List Byte) : List Byte :=
  let tk := transferKey ak
  let tag := (blake3Keyed tk (hdr (leBytes 16 0) ++ body)).take 16
  hdr tag ++ xtsUnits xtsEnc (imageKey tk tag) 1 (body.length / 4096 + 1) 0 body

/-- The body of an image whose TAG matches. -/
def openImage (ak : BitVec 256) (img : List Byte) : Option (List Byte) :=
  let tk := transferKey ak
  let tag := (img.drop 40).take 16
  let enc := img.drop 64
  let body := xtsUnits xtsDec (imageKey tk tag) 1 (enc.length / 4096 + 1) 0 enc
  if (blake3Keyed tk (img.take 40 ++ leBytes 16 0 ++ (img.drop 56).take 8 ++ body)).take 16 == tag then some body else none

/-! ### Stored lockets under a park key (R450) -/

/-- TAG of a stored locket, from its header with TAG zero and its body. -/
def parkTag (key : BitVec 512) (hdr body : List Byte) : List Byte :=
  (blake3Keyed (leBytes 32 (Config.parkTagKey key).toNat) (hdr ++ body)).take 16
/-- A body under the park key: the tweak is GEN in its low half and the data unit's index in its high half. -/
def parkUnits (f : List Byte → Nat → List Byte → List Byte) (key : BitVec 512) (gen : DWord) (l : List Byte) : List Byte :=
  xtsUnits f (leBytes 64 (Config.parkBodyKey key).toNat) (2 ^ 64) (l.length / 4096 + 1) gen.toNat l
/-- The stored locket of a body. -/
def sealLocket (key : BitVec 512) (gen : DWord) (hdr : List Byte → List Byte) (body : List Byte) : List Byte :=
  hdr (parkTag key (hdr (leBytes 16 0)) body) ++ parkUnits xtsEnc key gen body
/-- The body of a stored locket whose TAG matches. -/
def openLocket (key : BitVec 512) (img : List Byte) : Option (List Byte) :=
  let body := parkUnits xtsDec key (BitVec.ofNat 64 (leAt img 16 8)) (img.drop 64)
  if parkTag key (img.take 40 ++ leBytes 16 0 ++ (img.drop 56).take 8) body == (img.drop 40).take 16 then some body else none

/-! ### Reading a body -/

/-- A body's content. -/
structure LocketBody where
  steps : Nat
  histLen : Nat
  promptLen : Nat
  cpState : Nat
  domain : Nat
  depth : Nat
  hold : List Byte
  lastStep : Nat
  charged : Nat
  epoch : Nat
  account : Nat
  veff : Nat
  /-- Binding entries: ID, version, digest. -/
  binds : List (Word × Nat × Nat)
  params : List Byte
  bias : List (Nat × Word)
  stops : List (List Byte)
  stack : List Frame
  hist : List Nat
deriving DecidableEq, Repr

/-- Read a body; none when it breaks R446 to R449. -/
def parseBody (b : List Byte) : Option LocketBody :=
  let histLen := leAt b 8 4
  let depth := leAt b 20 2
  let holdLen := leAt b 22 2
  let w := leAt b 50 1
  let veff := leAt b 52 4
  let params := (b.drop 192).take 256
  let nBias := leAt params 50 2
  let nStop := leAt params 72 1
  let o1 := 448
  let o2 := o1 + up64 (8 * nBias)
  let o3 := o2 + up64 (72 * nStop)
  let o4 := o3 + up64 holdLen
  let o5 := o4 + up64 (8 * depth)
  let rest := b.drop o5
  match decodeHistory w (histLen / 1024 + 1) histLen 0 rest with
  | none => none
  | some (hist, tail) =>
    let bind := fun (i : Nat) => (BitVec.ofNat 32 (leAt b (64 + 24 * i) 4), leAt b (68 + 24 * i) 4, leAt b (72 + 24 * i) 16)
    let ok := o5 ≤ b.length && b.length % 64 == 0 && tail.length < 64 && tail.all (· == 0#8) &&
      zeroBytes b 5 8 && leAt b 19 1 < 4 && depth ≤ 1024 && holdLen ≤ 1024 && leAt b 48 2 < 4096 && zeroBytes b 51 52 &&
      (codeHistory w (histLen / 1024 + 1) 0 hist).isPrefixOf rest && zeroBytes b 56 64 && zeroBytes b 160 192 && w == bitsFor veff && hist.all (· < veff) && histLen ≤ 1048576 &&
      leAt b 12 4 ≤ histLen && nBias ≤ 1024 && nStop ≤ 16 && (holdLen == 0 || 16 ≤ holdLen) &&
      zeroBytes b (o1 + 8 * nBias) o2 && zeroBytes b (o2 + 72 * nStop) o3 && zeroBytes b (o3 + holdLen) o4 &&
      zeroBytes b (o4 + 8 * depth) o5
    if ok then
      some { steps := leAt b 0 5, histLen := histLen, promptLen := leAt b 12 4, cpState := leAt b 16 3, domain := leAt b 19 1
             depth := depth, hold := (b.drop o3).take holdLen, lastStep := leAt b 24 8, charged := leAt b 32 8
             epoch := leAt b 40 8, account := leAt b 48 2, veff := veff, binds := (List.range 4).map bind, params := params
             bias := (List.range nBias).map (fun i => (leAt b (o1 + 8 * i) 4, BitVec.ofNat 32 (leAt b (o1 + 8 * i + 4) 4)))
             stops := (List.range nStop).map (fun i => (b.drop (o2 + 72 * i + 8)).take (leAt b (o2 + 72 * i) 4))
             stack := (List.range depth).map (fun i =>
               ⟨BitVec.ofNat 32 (leAt b (o4 + 8 * i + 4) 4), BitVec.ofNat 32 (leAt b (o4 + 8 * i) 4)⟩)
             hist := hist }
    else none

/-- The stream that a hold-back slot gives back (R257). -/
def Stream.ofHold (h : List Byte) : Stream :=
  if h.isEmpty then {}
  else
    let f := leAt h 11 1
    let body := h.drop 16
    let n := f % 64
    { fresh := false, consumed := leAt h 0 4, started := f.testBit 7, stopped := f.testBit 6
      utfPend := body.drop (body.length - n), held := body.take (body.length - n)
      heldTokens := leAt h 12 2, oldStep := BitVec.ofNat 40 (leAt h 4 5), oldPhase := leAt h 9 2 }

end Sys2Proof.Machine
end

