-- ==== Sys2Proof/Machine/Media.lean ====
section
/-! DEFINITION. Sys2Proof/Machine/Media.lean: the park media: journals, stripes, copies, reads, retirement, and what a durable record
brings about (R443, R444, R451 to R454, R473 to R512). -/
namespace Sys2Proof.Machine
open Sys2Proof

/-- AON cycles in 200 µs, 1 s and 1 day. -/
abbrev aon200us : Nat := 20000
abbrev aonSec : Nat := 100000000
abbrev aonDay : Nat := 86400 * aonSec

/-- Update a channel, or a die. -/
def State.chanUpd (s : State) (c : Chan) (f : FlashChan → FlashChan) : State := { s with chans := vset s.chans c f }
def State.dieUpd (s : State) (c : Chan) (d : Fin 8) (f : FlashDie → FlashDie) : State :=
  s.chanUpd c (fun x => { x with dies := vset x.dies d f })

/-- AON cycles counted for the park media: those before the last PWR_ON go on (DESIGN CHOICE, log entry 37). -/
def State.mtime (s : State) : Nat := s.aonBefore + s.time

/-- The online channels a partition owns. -/
def State.onlineOf (s : State) (p : Part) : List Chan :=
  (List.finRange 16).filter (fun c => s.chanOwner c == some p && (s.chans[c]).online && !(s.chans[c]).erasing)

/-! ### Commands to a die (R474) -/

/-- Codes of a command on `n` planes: all but the last in its multi-plane form. -/
def planeCodes (first multi last : Nat) : Nat → List Nat
  | 0 => []
  | 1 => [first, last]
  | n + 1 => first :: multi :: planeCodes first multi last n

/-- Codes of an operation, to the status read that ends it: reads set the read-level offsets first and fetch the codewords last. -/
def FlashJob.codes : FlashJob → List Nat
  | .program _ planes _ _ => planeCodes 0x80 0x11 0x10 planes.length ++ [if 1 < planes.length then 0x78 else 0x70]
  | .erase .. => [0x60, 0xD0, 0x70]
  | .read _ _ _ rung _ _ => (List.replicate (if rung == 4 then 2 else 1) [0xEF, 0x00, 0x30, 0x70, 0x06, 0xE0]).flatten

/-- The operation at the head of a die's queue begins. -/
def FlashDie.begin (d : FlashDie) (now : Nat) : FlashDie :=
  match d.jobs with
  | [] => d
  | j :: _ => { d with cmds := j.codes, busyAt := now }

/-- Queue operations on a die; an idle die begins the first. -/
def State.addJobs (s : State) (c : Chan) (d : Fin 8) (js : List FlashJob) : State :=
  s.dieUpd c d (fun x =>
    let y := { x with jobs := x.jobs ++ js }
    if x.jobs.isEmpty then y.begin s.mtime else y)

/-- An operation has ended, and `rest` is what is left to do. -/
def State.endJob (s : State) (c : Chan) (d : Fin 8) (rest : List FlashJob) (susp : Nat) : State :=
  s.dieUpd c d (fun x => ({ x with jobs := rest, susp := susp } : FlashDie).begin s.mtime)

/-! ### The journal (R486, R487) -/

/-- Append a record to a channel's journal page. -/
def State.jAppend (s : State) (c : Chan) (r : JRecord) : State :=
  s.chanUpd c (fun x => { x with jbuf := x.jbuf ++ [{ r with seq := x.jseq + 1, came := s.mtime }], jseq := x.jseq + 1 })

/-- Append a record that concerns a partition as a whole to the journal of each of its online channels. -/
def State.jAppendAll (s : State) (p : Part) (r : JRecord) : State :=
  (s.onlineOf p).foldl (fun s c => s.jAppend c { r with part := p }) s

/-- The 32 bytes of a record (R486). -/
def JRecord.bytes (r : JRecord) : List Byte :=
  let b := leBytes 1 r.typ ++ leBytes 1 (r.copy * 16 + r.part.val) ++ leBytes 2 r.count ++ leBytes 8 r.seq ++
    leBytes 8 r.id.toNat ++ leBytes 8 r.loc.toNat
  b ++ leBytes 4 (crc32c b).toNat

/-- LOC of a copy's first sector. -/
def ColdCopy.loc (k : ColdCopy) : DWord :=
  BitVec.ofNat 64 (k.die.val * 2 ^ 48 + k.block * 2 ^ 32 + k.page * 2 ^ 20 + k.plane * 2 ^ 18 + k.sector * 2 ^ 13)

/-- Metadata of a codeword whose first sector is `x` (R478). -/
def codewordMeta (x : Option Sector) (seq : Nat) (payload : List Byte) : List Byte :=
  let b := leBytes 8 ((x.map (·.lid.toNat)).getD 0) ++ leBytes 2 ((x.map (·.idx)).getD 0) ++
    leBytes 1 ((x.map (·.copy)).getD 0) ++ leBytes 1 0 ++ leBytes 8 seq ++ leBytes 8 0
  b ++ leBytes 4 (crc32c (payload ++ b)).toNat

/-- The next value that the primary has assigned of a partition's generations (kind 3) or mask epochs (kind 4), for a member of a pair: the oldest one
that is not used yet (R309, R443, R621). -/
def State.assigned (s : State) (kind : Nat) (p : Part) : Option Decision :=
  if s.rf rGlbPairStat 30 2 == 1 || s.rf rGlbPairStat 30 2 == 2 then s.pair.given.find? (fun d => d.kind == kind && d.part == p) else none
/-- A decision is used up. -/
def State.spend (s : State) (d : Decision) : State := { s with pair := { s.pair with given := s.pair.given.erase d } }

/-- A partition's generation counter rises to `g`, past `n` multiples of 2^20 (R444). -/
def State.raiseGen (s : State) (p : Part) (g : DWord) (past : Bool) : State :=
  let s := s.partUpd p (fun x => { x with gen := g })
  if past then s.jAppendAll p { typ := 5, id := BitVec.ofNat 64 ((g.toNat / 2 ^ 20 + 1) * 2 ^ 20) } else s
/-- So its mask epoch counter (R309). -/
def State.raiseEpoch (s : State) (p : Part) (g : DWord) (past : Bool) : State :=
  let s := s.partUpd p (fun x => { x with epoch := g })
  if past then s.jAppendAll p { typ := 0xB, id := BitVec.ofNat 64 ((g.toNat / 2 ^ 20 + 1) * 2 ^ 20) } else s

/-- Next generation of a partition (R443, R444): the counter's next value, or the one that the primary assigned; a counter never falls. -/
def State.nextGen (s : State) (p : Part) : DWord × State :=
  let n := (s.parts[p]).gen
  match s.assigned 3 p with
  | none => (n + 1#64, s.raiseGen p (n + 1#64) ((n + 1#64).toNat % 2 ^ 20 == 0))
  | some d =>
    (d.arg, if n < d.arg then (s.spend d).raiseGen p d.arg (n.toNat / 2 ^ 20 < d.arg.toNat / 2 ^ 20) else s.spend d)

/-- Next mask epoch of a partition (R308, R309), in the same way. -/
def State.nextEpoch (s : State) (p : Part) : DWord × State :=
  let n := (s.parts[p]).epoch
  match s.assigned 4 p with
  | none => (n + 1#64, s.raiseEpoch p (n + 1#64) ((n + 1#64).toNat % 2 ^ 20 == 0))
  | some d =>
    (d.arg, if n < d.arg then (s.spend d).raiseEpoch p d.arg (n.toNat / 2 ^ 20 < d.arg.toNat / 2 ^ 20) else s.spend d)

/-! ### Capacity (R481, R492, R493, R511) -/

/-- Pages per block of a die. -/
def FlashDie.ppb (d : FlashDie) : Nat := match d.info with | some i => i.ppb | none => 0
/-- Blocks in a state. -/
def FlashDie.count (d : FlashDie) (f : FlashBlock → Bool) : Nat := (d.blocks.filter f).length
/-- Is the block a data block? -/
def FlashBlock.isData (b : FlashBlock) : Bool := b.st == .free || b.st == .data

/-- User capacity of a channel in bytes (R481): blocks of a die that took no part in the format are none of its data blocks. -/
def FlashChan.userCap (x : FlashChan) (op : Nat) : Nat :=
  (x.dies.toList.map (fun d => d.count FlashBlock.isData * d.ppb * 16384)).sum * (100 - op) / 100

/-- Spare blocks, and BP (R492, R506). -/
def FlashChan.spares (x : FlashChan) : Nat := (x.dies.toList.map (fun d => d.count (fun b => b.st == .spare))).sum
def FlashChan.bp (x : FlashChan) : Nat := if x.good == 0 then 0 else x.spares * 10000 / x.good

/-- Sectors in use on a channel by live copies. -/
def State.chanSectors (s : State) (c : Chan) : Nat :=
  (s.lockets.map (fun l => ((l.cold.filter (fun k => k.chan == c)).map (·.count)).sum)).sum
/-- Sectors of a partition's live copies. -/
def State.partSectors (s : State) (p : Part) : Nat :=
  ((s.lockets.filter (fun l => l.part == p)).map (fun l => (l.cold.map (·.count)).sum)).sum
/-- User capacity of a partition's online channels in bytes. -/
def State.coldCap (s : State) (p : Part) : Nat :=
  ((s.onlineOf p).map (fun c => (s.chans[c]).userCap s.profile.opPct)).sum

/-- Entries of 32 bytes in the cold index, and its capacity (R488, R502, R503). -/
def State.indexUsed (s : State) : Nat := (s.lockets.map (fun l => l.cold.length)).sum
def State.indexCap (s : State) : Nat := min 32 (s.rf rPrkIndexCfg 0 6) * 2 ^ 30 / 32

/-- FULL (R497, R488); a partition without an online channel has no cold park that could be full, which gives R510's reset value 0 (DEDUCED, log
entry 37). -/
def State.coldFull (s : State) (p : Part) : Bool :=
  !(s.onlineOf p).isEmpty && (s.coldCap p ≤ s.partSectors p * 512 || s.indexCap ≤ s.indexUsed)

/-- Media read-only (R493, R494). -/
def State.mediaRO (s : State) (p : Part) : Bool := s.rb (rPrtMediaCfg p) 31 || (s.parts[p]).worn
/-- Warm-only park (R466). -/
def State.warmOnly (s : State) (p : Part) : Bool := s.rb (rPrtParkCfg p) 31

/-! ### Placing a copy (R480) -/

/-- Cut an image into sectors that arrive at `now`. -/
def imageSectors (now : Nat) (lid : DWord) (copy : Nat) : Nat → Nat → List Byte → List Sector
  | 0, _, _ => []
  | n + 1, i, l => ⟨lid, copy, i, padTo 512 (l.take 512), now⟩ :: imageSectors now lid copy n (i + 1) (l.drop 512)

/-- The free block that the next stripe of a die opens in: lowest erase count, then lowest number (R490). -/
def FlashDie.nextBlock (d : FlashDie) : Option FlashBlock :=
  (d.blocks.filter (fun b => b.st == .free)).foldl (fun m b =>
    match m with
    | none => some b
    | some a => if b.pe < a.pe || (b.pe == a.pe && b.num < a.num) then some b else some a) none

/-- Sectors in one page of a stripe. -/
def Stripe.cap (t : Stripe) : Nat := 32 * t.planes.length

/-- Set the state of a stripe's blocks. -/
def State.setBlocks (s : State) (c : Chan) (d : Fin 8) (num : Nat) (planes : List Nat) (st : BlockSt) : State :=
  s.dieUpd c d (fun x => { x with blocks := x.blocks.map (fun b =>
    if b.num == num && planes.contains b.plane then { b with st := st } else b) })

/-- An open stripe with room for `n` sectors; a stripe without room closes and another opens. -/
def State.stripeFor (s : State) (c : Chan) (d : Fin 8) (reloc : Bool) (n : Nat) : Option (Stripe × State) :=
  let x := s.chans[c]
  let die := x.dies[d]
  let mine := fun (t : Stripe) => t.die == d && t.reloc == reloc
  match x.stripes.find? mine with
  | some t =>
    if t.page * t.cap + t.buf.length + n ≤ die.ppb * t.cap then some (t, s)
    else none
  | none =>
    match die.nextBlock with
    | none => none
    | some b =>
      let planes := sortBy (· ≤ ·) ((die.blocks.filter (fun y => y.num == b.num && y.st == .free)).map (·.plane))
      some (⟨d, reloc, b.num, planes, 0, []⟩, s.setBlocks c d b.num planes .data)

/-- Close a stripe whose rest is too small: what waits in it is padded and programmed, no more is placed there. -/
def State.closeStripe (s : State) (c : Chan) (d : Fin 8) (reloc : Bool) : State :=
  let x := s.chans[c]
  match x.stripes.find? (fun t => t.die == d && t.reloc == reloc) with
  | none => s
  | some t =>
    let s := s.chanUpd c (fun x => { x with stripes := x.stripes.filter (fun t => !(t.die == d && t.reloc == reloc)) })
    if t.buf.isEmpty then s
    else s.addJobs c d ((List.range ((t.buf.length + t.cap - 1) / t.cap)).map (fun i =>
      .program t.block t.planes (t.page + i) ((t.buf.drop (i * t.cap)).take t.cap)))

/-- Put a copy's sectors into a stripe of a die; none when the die has no room. -/
def State.placeOn (s : State) (c : Chan) (d : Fin 8) (reloc : Bool) (lid : DWord) (copy : Nat) (img : List Byte) :
    Option (ColdCopy × State) :=
  let n := (img.length + 511) / 512
  let got := match s.stripeFor c d reloc n with
    | some r => some r
    | none => (s.closeStripe c d reloc).stripeFor c d reloc n
  match got with
  | none => none
  | some (t, s) =>
    let pos := t.page * t.cap + t.buf.length
    let t' := { t with buf := t.buf ++ imageSectors s.mtime lid copy n 0 img }
    let first := pos / t.cap
    let last := (pos + n - 1) / t.cap
    let k : ColdCopy := { copy := copy, chan := c, die := d, block := t.block, page := first
                          plane := t.planes.getD (pos % t.cap / 32) 0, sector := pos % 32, count := n
                          todo := (List.range (last - first + 1)).map (fun i => first + i), moved := reloc }
    some (k, s.chanUpd c (fun x => { x with stripes := x.stripes.filter (fun y => !(y.die == d && y.reloc == reloc)) ++ [t'] }))

/-- Dies of a channel that are in use. -/
def FlashChan.usable (x : FlashChan) : List (Fin 8) := (List.finRange 8).filter (fun d => (x.dies[d]).usable)

/-- Put a copy on a channel, on a die that a free value chooses among those allowed (DESIGN CHOICE, log entry 2). -/
def State.placeChan (s : State) (c : Chan) (avoid : List (Fin 8)) (reloc : Bool) (lid : DWord) (copy : Nat) (img : List Byte) :
    Option (ColdCopy × State) :=
  let all := (s.chans[c]).usable
  let ds := all.filter (fun d => !avoid.contains d)
  let ds := if ds.isEmpty then all else ds
  if ds.isEmpty then none
  else
    let (k, s) := s.freeBelow ds.length
    (List.range ds.length).findSome? (fun i =>
      match ds[(k + i) % ds.length]? with
      | some d => s.placeOn c d reloc lid copy img
      | none => none)

/-- The channel with the most free user space, the lowest numbered of equals (DESIGN CHOICE, log entry 17). -/
def State.bestChan (s : State) (cs : List Chan) : Option Chan :=
  cs.foldl (fun (m : Option Chan) c =>
    let sp := fun (c : Chan) => ((s.chans[c]).userCap s.profile.opPct : Int) - (s.chanSectors c * 512 : Nat)
    match m with
    | none => some c
    | some b => if sp b < sp c then some c else some b) none

/-- Place every copy of a locket in the cold park (R453, R480). -/
def State.placeLocket (s : State) (l : Locket) : Option (List ColdCopy × State) :=
  let cs := s.onlineOf l.part
  match s.bestChan cs with
  | none => none
  | some c =>
    match s.placeChan c [] false l.id 0 l.image with
    | none => none
    | some (a, s) =>
      if !l.pinned then some ([a], s)
      else
        let other := cs.filter (· != c)
        match (match s.bestChan other with
          | some c2 => s.placeChan c2 [] false l.id 1 l.image
          | none => s.placeChan c [a.die] false l.id 1 l.image) with
        | none => none
        | some (b, s) => some ([a, b], s)

/-! ### Lockets in the two tiers -/

/-- Update a session's locket. -/
def State.locketUpd (s : State) (p : Part) (sid : Word) (f : Locket → Locket) : State :=
  { s with lockets := s.lockets.map (fun l => if l.part == p && l.session == sid then f l else l) }

/-- Copies a locket has in a tier. -/
def Locket.copies (l : Locket) : Nat := if l.pinned then 2 else 1

/-- May a warm locket move to the cold park (R452), as the modes, the media and the ops stand? -/
def State.mayMove (s : State) (l : Locket) : Bool :=
  !l.warm.isEmpty && !l.moving && !l.lost && !s.cycleStart.warmOnly l.part && !s.cycleStart.mediaRO l.part &&
  !s.coldFull l.part &&
  !(s.onlineOf l.part).isEmpty &&
  !s.ctxs.any (fun x => x.part == l.part && x.st == .ready && leAt x.entry 4 4 == l.session.toNat &&
    [0x02, 0x0C, 0x0D].contains (leAt x.entry 0 1))
/-- No new move starts while the park controller quiesces (R590). -/
def State.canMove (s : State) (l : Locket) : Bool := !s.quiet 0x48 && s.mayMove l

/-- Step 1 of a move (R452): the copies go into stripes. -/
def State.startMove (s : State) (l : Locket) : State :=
  match s.placeLocket l with
  | none => s
  | some (cold, s) => s.locketUpd l.part l.session (fun x => { x with moving := true, cold := cold })

/-- Append DEL records for a locket's cold copies, on each channel that holds one. -/
def State.delRecords (s : State) (l : Locket) : State :=
  ((l.cold.map (·.chan)).eraseDups).foldl (fun s c => s.jAppend c { typ := 2, part := l.part, id := l.id }) s

/-- Complete the PARKs that wait for a session's move (R455, R456). -/
def State.parksDone (s : State) (p : Part) (sid : Word) : State :=
  { s with ctxs := s.ctxs.map (fun x =>
      if x.part == p && x.st == .past && x.status.isNone && leAt x.entry 0 1 == 0x0B && leAt x.entry 4 4 == sid.toNat then
        { x with status := some stOk } else x) }

/-- A copy has its PUT or MOVE record, durable or still waiting for its journal page. -/
def State.recorded (s : State) (l : Locket) (k : ColdCopy) : Bool :=
  k.durable || ((s.chans[k.chan]).jbuf).any (fun r => (r.typ == 1 || r.typ == 3) && r.id == l.id && r.copy == k.copy && r.loc == k.loc)

/-- A move stops (R452, R471): what it wrote is discarded, the locket stays warm, and a PARK that waits for it completes (R455). -/
def State.stopMove (s : State) (l : Locket) : State :=
  ((s.delRecords { l with cold := l.cold.filter (s.recorded l) }).locketUpd l.part l.session (fun x =>
    { x with moving := false, cold := [] })).parksDone l.part l.session

/-- Moves that a reset has interrupted begin again at step 1 of R452, with the park controller as it comes out of that reset; one that cannot
leaves its locket warm (R454, R455). -/
def State.restartMoves (s : State) : State :=
  (s.lockets.filter (·.moving)).foldl (fun s l =>
    let s := s.delRecords l
    let l := { l with moving := false, cold := [] }
    let s := s.locketUpd l.part l.session (fun _ => l)
    if s.mayMove l then
      match s.placeLocket l with
      | some (cold, s) => s.locketUpd l.part l.session (fun x => { x with moving := true, cold := cold })
      | none => s.parksDone l.part l.session
    else s.parksDone l.part l.session) s

/-- Delete a locket with every copy (R458, R101, R471): waiting sectors become padding, and what a move has written is discarded. -/
def State.dropLocket (s : State) (l : Locket) : State :=
  let s := s.delRecords l
  let s := { s with lockets := s.lockets.filter (fun x => !(x.part == l.part && x.session == l.session)) }
  (s.parksDone l.part l.session).collect

/-- Committed epochs of a partition with their check values (R534): a live COMMIT and no CLEAR on any of its channels. -/
def State.committed (s : State) (p : Part) : List (Nat × DWord) :=
  let rs := (s.onlineOf p).flatMap (fun c => (s.chans[c]).journal.filter (fun r => r.typ == 6 && r.part == p))
  let clear := (rs.filter (fun r => fld r.id 62 2 == 2)).map (fun r => fld r.id 0 32)
  (((rs.filter (fun r => fld r.id 62 2 == 1)).map (fun r => (fld r.id 0 32, r.loc))).filter (fun x => !clear.contains x.1)).eraseDups
/-- The highest committed epoch, 0 when there is none. -/
def State.topEpoch (s : State) (p : Part) : Nat := ((s.committed p).map (·.1)).foldl max 0

/-- Bytes of a partition's warm copies, and USED (R467). -/
def State.warmBytes (s : State) (p : Part) : Nat :=
  ((s.lockets.filter (fun l => l.part == p)).map (fun l => l.warm.length * l.image.length)).sum
def State.warmUsed (s : State) (p : Part) : Nat := (s.warmBytes p + 65535) / 65536
/-- Sessions Warm parked and Cold parked (R142, R468). -/
def Locket.isWarm (l : Locket) : Bool := !l.warm.isEmpty
def State.nWarm (s : State) (p : Part) : Nat := (s.lockets.filter (fun l => l.part == p && l.isWarm)).length
def State.nCold (s : State) (p : Part) : Nat := (s.lockets.filter (fun l => l.part == p && !l.isWarm && !l.waiting)).length

/-- Chip-memory extents of all warm copies. -/
def State.warmExtents (s : State) : List (Nat × Nat) := s.lockets.flatMap (fun l => l.warm.map (fun a => (a, a + l.image.length)))

/-- An address for a warm copy of `n` bytes in the warm park (R451, R464, R465): one of the places where it fits, a free value choosing
(DESIGN CHOICE, log entry 2). -/
def State.warmAlloc (s : State) (taken : List (Nat × Nat)) (n : Nat) : Option (Nat × State) :=
  let base := s.warmArea.1
  let stop := base + s.warmArea.2
  let ex := s.warmExtents ++ taken
  let cand := (base :: ex.map (·.2)).filter (fun a =>
    base ≤ a && a + n ≤ stop && ex.all (fun e => a + n ≤ e.1 || e.2 ≤ a))
  let (k, s') := s.freeBelow (max 1 cand.length)
  (cand[k]?).map (fun a => (a, s'))

/-- Does the warm share have room for `n` bytes (R455, R467)? -/
def State.warmRoom (s : State) (p : Part) (n : Nat) : Bool := s.warmBytes p + n ≤ s.rf (rPrtParkWarm p) 0 21 * 65536

/-- A warm copy is readable while chip memory holds it as written (R459, DESIGN CHOICE, log entry 16). -/
def State.warmReadable (s : State) (l : Locket) (a : Nat) : Bool := s.rdBytes a l.image.length == l.image

/-- Mark a locket Lost (R459, R498): `tier` 0 warm, 1 cold; the cold tier writes a LOST record. -/
def State.markLost (s : State) (l : Locket) (tier : Nat) : State :=
  if l.lost then s
  else
    let s := s.locketUpd l.part l.session (fun x => { x with lost := true, moving := false })
    let s := if tier == 1 then
        ((l.cold.map (·.chan)).eraseDups).foldl (fun s c => s.jAppend c { typ := 4, part := l.part, id := l.id }) s
      else s
    let s := s.parksDone l.part l.session
    (s.bump (rPrtParkLost l.part)).post l.part 0x05 l.domain none l.session l.id (BitVec.ofNat 64 tier)

/-! ### Durable records -/

/-- Key check value of 64 key bytes (R533). -/
def keyCheck (k : BitVec 512) : DWord :=
  BitVec.ofNat 64 (leNat ((blake3 (("Rhoram Pliow KCV v1".toList.map (fun c => BitVec.ofNat 8 c.toNat)) ++ leBytes 64 k.toNat)).take 8))

/-- CRC-32C of a slot, over its epoch and its key (R533), and a slot written with it. -/
def slotCrc (e : Word) (k : BitVec 512) : Word := crc32c (leBytes 4 e.toNat ++ leBytes 64 k.toNat)
def KeySlot.of (e : Word) (k : BitVec 512) : KeySlot := ⟨e, k, slotCrc e k⟩
/-- The slot's CRC matches. -/
def KeySlot.crcOk (k : KeySlot) : Bool := k.crc == slotCrc k.epoch k.key
/-- Slot A or B; one whose CRC fails reads as empty (R420, R533). -/
def PartState.keySlot (x : PartState) (b : Bool) : Option KeySlot := (if b then x.slotB else x.slotA).filter KeySlot.crcOk

/-- The selector word, and its CRC (R533). Its coding the spec does not give: 0 for none, 1 for slot A, 2 for slot B (DESIGN CHOICE, log entry
38). -/
def selWord (x : Option Bool) : Nat := match x with | none => 0 | some false => 1 | some true => 2
def selCrcOf (x : Option Bool) : Word := crc32c (leBytes 4 (selWord x))
/-- What the selector names; one whose CRC fails names no slot. -/
def PartState.selNow (x : PartState) : Option Bool := if x.selCrc == selCrcOf x.sel then x.sel else none
/-- Write the selector. -/
def PartState.setSel (x : PartState) (v : Option Bool) : PartState := { x with sel := v, selCrc := selCrcOf v }

/-- The current slot of a partition, and the old one: the other slot, unless a rotation still waits in it (R533, R535). -/
def PartState.curSlot (x : PartState) : Option KeySlot :=
  match x.selNow with | some b => x.keySlot b | none => none
def PartState.oldSlot (x : PartState) : Option KeySlot :=
  match (match x.selNow with | some b => x.keySlot (!b) | none => none) with
  | some k => if x.rotating == some k.epoch then none else some k
  | none => none

/-- A slot holds the epoch. -/
def slotIs (k : Option KeySlot) (e : Nat) : Bool := match k with | some k => k.epoch.toNat == e | none => false
/-- The highest committed epoch is current as soon as it is held (R537). -/
def State.setCurrent (s : State) (p : Part) : State :=
  let e := s.topEpoch p
  s.partUpd p (fun x => x.setSel (if slotIs x.slotA e then some false else if slotIs x.slotB e then some true else none))

/-- The slot whose key a PARK takes: the current one, while no higher epoch is committed (R537). -/
def State.parkKey (s : State) (p : Part) : Option KeySlot :=
  ((s.parts[p]).curSlot).filter (fun k => s.topEpoch p ≤ k.epoch.toNat)
/-- The keys that a partition's slots hold. -/
def PartState.keys (x : PartState) : List KeySlot := (x.keySlot false).toList ++ (x.keySlot true).toList
/-- The partition holds the key of an epoch. -/
def State.epochHeld (s : State) (p : Part) (e : Word) : Bool := ((s.parts[p]).keys).any (fun k => k.epoch == e)

/-- Step 2 and 3 of a move (R452): every copy durable, the session becomes Cold parked and the warm copies are freed. -/
def State.moveDurable (s : State) (l : Locket) : State :=
  if l.moving && l.cold.length == l.copies && l.cold.all (·.durable) then
    (s.locketUpd l.part l.session (fun x => { x with moving := false, warm := [] })).parksDone l.part l.session
  else s

/-- Once every copy of a re-keyed cold locket is durable, the locket is the new one (R536). -/
def State.rekeyDurable (s : State) (l : Locket) : State :=
  match l.rekey with
  | some (img, e) =>
    if l.cold.length == l.copies && l.cold.all (·.durable) then
      s.locketUpd l.part l.session (fun x => { x with image := img, epoch := e, rekey := none })
    else s
  | none => s

/-- Copies in the order of their numbers. -/
def sortCopies (l : List ColdCopy) : List ColdCopy := sortBy (fun a b => a.copy ≤ b.copy) l

/-- A PUT or MOVE is durable: the copy counts, and what it replaces is freed (R487, R491); a rewritten copy of a pinned locket is counted
(R470). -/
def State.copyDurable (s : State) (r : JRecord) : State :=
  match s.lockets.find? (fun l => l.part == r.part && l.id == r.id) with
  | none => s
  | some l =>
    let here := fun (k : ColdCopy) => k.copy == r.copy && k.loc == r.loc && !k.durable
    if l.cold.any here then
      let s := if l.cold.any (fun k => here k && k.repair) then s.bump (rPrtParkRepair l.part) else s
      let cold := sortCopies ((l.cold.filter (fun k => here k || k.copy != r.copy)).map (fun k =>
        if here k then { k with durable := true, moved := false, repair := false } else k))
      let s := s.locketUpd l.part l.session (fun x => { x with cold := cold })
      (s.moveDurable { l with cold := cold }).rekeyDurable { l with cold := cold }
    else s

/-- Clear BUSY and set RESULT of SEC_KEY_STAT. -/
def State.keyResult (s : State) (r : Nat) : State := (s.setRf rSecKeyStat 31 1 0).setRf rSecKeyStat 16 8 r

/-- A KEY_EPOCH record is durable (R535, R536): COMMIT moves the selector, CLEAR zeroes the old slot and posts KEY_EPOCH. -/
def State.epochDurable (s : State) (r : JRecord) : State :=
  let e : Word := r.id.truncate 32
  let x := s.parts[r.part]
  if fld r.id 62 2 == 1 then
    if x.rotating == some e then
      let inB := match x.slotB with | some k => k.epoch == e | none => false
      (s.partUpd r.part (fun x => { x.setSel (some inB) with rotating := none })).keyResult 0
    else s
  else if fld r.id 62 2 == 2 then
    match x.oldSlot with
    | some k =>
      if k.epoch == e then
        let s := s.partUpd r.part (fun x => if x.selNow == some true then { x with slotA := none } else { x with slotB := none })
        s.post r.part 0x0D 0 none noSession 0#64 (BitVec.ofNat 64 e.toNat)
      else s
    | none => s
  else s

/-- What a record brings about when it becomes durable. -/
def State.recordDurable (s : State) (c : Chan) (r : JRecord) : State :=
  let s := s.chanUpd c (fun x => { x with journal := x.journal ++ [r] })
  match r.typ with
  | 1 => s.copyDurable r
  | 3 => s.copyDurable r
  | 6 => s.epochDurable r
  | 9 => s.chanUpd c (fun x => { x with owner := some r.part })
  | 0xA => s.dieUpd c ⟨fld r.id 0 3, by have h : fld r.id 0 3 < 2 ^ 3 := Nat.mod_lt _ (by decide); omega⟩ (fun x => { x with
      savedOff := (List.range 4).map (fun i => (BitVec.ofNat 8 (fld r.loc (8 * i) 8)).toInt) })
  | _ => s

/-- A journal page is due: it is full, or its first record came 200 µs ago (R487). -/
def State.pageDue (s : State) (c : Chan) : Bool :=
  let x := s.chans[c]
  x.online && !s.quiet 0x48 &&
  (match x.jbuf with
   | [] => false
   | r :: _ => 512 ≤ x.jbuf.length || r.came + aon200us ≤ s.mtime)

/-! ### Retirement and wear (R492, R493) -/

/-- A copy whose data program has been issued: its sectors no longer wait all in an open stripe. -/
def State.issued (s : State) (k : ColdCopy) : Bool :=
  !((s.chans[k.chan]).stripes.any (fun t => t.die == k.die && t.block == k.block && t.page ≤ k.page))

/-- Media read-only begins: every move of the partition stops (R471, R455), but where a falling BP is the reason (`all` false) a move whose
data program is in flight completes (R512). -/
def State.stopMoves (s : State) (p : Part) (all : Bool) : State :=
  (s.lockets.filter (fun l => l.part == p && l.moving && (all || !l.cold.any s.issued))).foldl State.stopMove s

/-- After spare blocks were used: WORN of the channel and of its owner, with one event. -/
def State.checkWorn (s : State) (c : Chan) : State :=
  let x := s.chans[c]
  if x.formatted && x.bp < 200 then
    let s := s.chanUpd c (fun x => { x with worn := true })
    match s.chanOwner c with
    | some p =>
      if !x.online then s
      else
      let s := s.chanUpd c (fun x => { x with wornOf := if x.wornOf.contains p then x.wornOf else x.wornOf ++ [p] })
      if !(s.parts[p]).worn then
        let s := s.partUpd p (fun y => { y with worn := true })
        let s := s.jAppendAll p { typ := 9, id := BitVec.ofNat 64 (1 + p.val * 16) }
        (s.stopMoves p false).post p 0x09 0 none noSession 0#64 (BitVec.ofNat 64 x.bp)
      else s
    | none => s
  else s

/-- The journal reserve has at least 4 good blocks; a channel never formatted has none to count (R495). -/
def FlashChan.journalOk (x : FlashChan) : Bool :=
  !x.formatted || 4 ≤ (x.dies.toList.map (fun d => d.count (fun b => b.st == .journal))).sum

/-- Retire a block (R492), replacing a data block from the spare pool; `cause` as in the RETIRE record. -/
def State.retire (s : State) (c : Chan) (d : Fin 8) (num plane cause : Nat) : State :=
  let x := (s.chans[c]).dies[d]
  match x.blocks.find? (fun b => b.num == num && b.plane == plane && b.st != .retired) with
  | none => s
  | some b =>
    let s := (s.setBlocks c d num [plane] .retired).dieUpd c d (fun x => { x with blocks := x.blocks.map (fun y =>
      if y.num == num && y.plane == plane then { y with cause := cause } else y) })
    let s := s.jAppend c { typ := 7, id := BitVec.ofNat 64 cause,
                           loc := BitVec.ofNat 64 (d.val * 2 ^ 48 + num * 2 ^ 32 + plane * 2 ^ 18) }
    let s := if b.isData then
        match ((s.chans[c]).dies[d]).blocks.find? (fun y => y.st == .spare) with
        | some y => s.setBlocks c d y.num [y.plane] .free
        | none =>
          match (List.finRange 8).findSome? (fun e =>
            (((s.chans[c]).dies[e]).blocks.find? (fun y => y.st == .spare)).map (fun y => (e, y))) with
          | some (e, y) => s.setBlocks c e y.num [y.plane] .free
          | none => s
      else s
    s.checkWorn c

/-! ### Journal pages (R487) -/

/-- Journal pages that can be programmed next: one for each good journal block with room, in order of die, block and plane (DESIGN CHOICE, log
entry 37). -/
def FlashChan.jFree (x : FlashChan) : List FlashPlace :=
  (List.finRange 8).flatMap (fun d =>
    let y := x.dies[d]
    if y.usable then (y.blocks.filter (fun b => b.st == .journal && b.used < y.ppb)).map (fun b => ⟨d, b.num, b.plane, b.used⟩) else [])

/-- The first place of a list that passes, and those before it that fail. -/
def firstPass (bad : List Nat) : List (FlashPlace × Nat) → List FlashPlace × Option FlashPlace
  | [] => ([], none)
  | (x, i) :: l =>
    if bad.contains i then
      let (f, r) := firstPass bad l
      (x :: f, r)
    else ([], some x)

/-- A second place beside the first: on another die, else on another plane of its die, else in another block (R487). -/
def besidePlace (a : FlashPlace) (l : List (FlashPlace × Nat)) : List (FlashPlace × Nat) :=
  let die := l.filter (fun x => x.1.die != a.die)
  let plane := l.filter (fun x => x.1.plane != a.plane)
  if !die.isEmpty then die
  else if !plane.isEmpty then plane
  else l.filter (fun x => x.1 != a)

/-- The two places that a journal page goes to, and the places that fail before them. -/
def FlashChan.jPlaces (x : FlashChan) (bad : List Nat) : List FlashPlace × Option (FlashPlace × FlashPlace) :=
  match firstPass bad x.jFree.zipIdx with
  | (f, none) => (f, none)
  | (f, some a) =>
    let (g, b) := firstPass bad (besidePlace a (x.jFree.zipIdx.filter (fun y => !f.contains y.1)))
    ((f ++ g).eraseDups, b.map (fun b => (a, b)))

/-- A page of a journal block has been programmed. -/
def State.jUsed (s : State) (c : Chan) (a : FlashPlace) : State :=
  s.dieUpd c a.die (fun x => { x with
    cmds := [0x80, 0x10, 0x70]
    blocks := x.blocks.map (fun b => if b.num == a.block && b.plane == a.plane then { b with used := b.used + 1 } else b) })

/-- Program a journal page: places with status fail are retired, and the two that pass hold the page. -/
def State.jProgram (s : State) (c : Chan) (bad : List Nat) : Option State × State :=
  let (f, got) := (s.chans[c]).jPlaces bad
  let s := f.foldl (fun s a => s.retire c a.die a.block a.plane 2) s
  match got with
  | none => (none, s)
  | some (a, b) =>
    let s := ((s.jUsed c a).jUsed c b).chanUpd c (fun x => { x with jpages := x.jpages ++ [(a, b)] })
    (some s, s)

/-- JOURNAL_PAGE_PROGRAM (R487): a journal page that is due is programmed in two places, and its records are durable. -/
def journalPageProgram (j : JournalRun) (s : State) : State :=
  if s.pageDue j.ch then
    let recs := ((s.chans[j.ch]).jbuf).take 512
    match s.jProgram j.ch j.bad with
    | (some s, _) =>
      recs.foldl (fun s r => s.recordDurable j.ch r) (s.chanUpd j.ch (fun x => { x with jbuf := x.jbuf.drop 512 }))
    | (none, s) => s
  else s

/-- Write a journal anew: these records, in pages of 512. -/
def State.jRewrite (s : State) (c : Chan) (l : List JRecord) : State :=
  let s := s.chanUpd c (fun x => { x with journal := l, jpages := [] })
  (List.range ((l.length + 511) / 512)).foldl (fun s _ => (s.jProgram c []).2) s

/-! ### Programs (R478, R480, R492) -/

/-- Write a page of each plane of a stripe; the parity bytes, whose code the spec does not give, are free (DESIGN CHOICE, log entry 2). -/
def State.writeStripePage (s : State) (c : Chan) (d : Fin 8) (block : Nat) (planes : List Nat) (page : Nat) (sects : List Sector) :
    State :=
  let seq := (s.chans[c]).pseq + 1
  let (par, s) := s.freeBytes (1920 * planes.length)
  let word := fun (pi w : Nat) =>
    let ss := (sects.drop (32 * pi + 8 * w)).take 8
    let pay := padTo 4096 (ss.flatMap (·.data))
    (⟨pay, codewordMeta ss.head? seq pay, (par.drop (1920 * pi + 480 * w)).take 480⟩ : Codeword)
  let pages := planes.zipIdx.map (fun x => (⟨block, page, x.1, s.mtime, (List.range 4).map (word x.2)⟩ : FlashPage))
  (s.chanUpd c (fun x => { x with pseq := seq })).dieUpd c d (fun x => { x with
    pages := x.pages.filter (fun g => !(g.block == block && g.page == page)) ++ pages
    blocks := x.blocks.map (fun b => if b.num == block && planes.contains b.plane && page == 0 then { b with at_ := s.mtime } else b) })

/-- A page of a block has programmed: copies with nothing left to program get their PUT or MOVE record. -/
def State.pageDone (s : State) (c : Chan) (d : Fin 8) (block page : Nat) : State :=
  s.lockets.foldl (fun s l =>
    l.cold.foldl (fun s k =>
      if k.chan == c && k.die == d && k.block == block && k.todo.contains page then
        let k' := { k with todo := k.todo.filter (· != page) }
        let s := s.locketUpd l.part l.session (fun x => { x with cold := x.cold.map (fun y => if y == k then k' else y) })
        if k'.todo.isEmpty && !k.durable then
          s.jAppend c { typ := if k.moved then 3 else 1, copy := k.copy, part := l.part, count := k.count, id := l.id, loc := k.loc }
        else s
      else s) s) s

/-- A place for a rewritten copy of a locket (R453): its own channel, or, where the twin lies there, another online channel of the partition; on
the twin's channel, where there is no other, another die. -/
def State.placeFor (s : State) (l : Locket) (k : ColdCopy) (reloc : Bool) (img : List Byte) : Option (ColdCopy × State) :=
  let twins := l.cold.filter (fun y => y.copy != k.copy)
  let cs := s.onlineOf l.part
  let apart := cs.filter (fun c => !twins.any (fun y => y.chan == c))
  let cs := if apart.isEmpty then cs else apart
  match (if cs.contains k.chan then some k.chan else s.bestChan cs) with
  | some c => s.placeChan c ((twins.filter (fun y => y.chan == c)).map (·.die)) reloc l.id k.copy img
  | none => none

/-- Rewrite a copy that is not durable elsewhere (R492), else it is given up. -/
def State.rewriteCopy (s : State) (l : Locket) (k : ColdCopy) : State :=
  let img := match l.rekey with | some (i, _) => if k.moved then i else l.image | none => l.image
  match s.placeFor l k k.moved img with
  | some (n, s) => s.locketUpd l.part l.session (fun x => { x with cold := x.cold.map (fun y =>
      if y == k then { n with moved := k.moved, repair := k.repair } else y) })
  | none =>
    (s.locketUpd l.part l.session (fun x => { x with moving := false, rekey := none, cold := x.cold.filter (· != k) })).parksDone
      l.part l.session

/-- A page program fails in one plane: its block is retired, and the copies with sectors there or still to come there are rewritten. -/
def State.pageFailed (s : State) (c : Chan) (d : Fin 8) (block page plane : Nat) : State :=
  let s := s.retire c d block plane 2
  let s := s.chanUpd c (fun x => { x with stripes := x.stripes.filter (fun t => !(t.die == d && t.block == block)) })
  let s := s.dieUpd c d (fun x => { x with jobs := x.jobs.filter (fun j =>
    match j with | .program b _ _ _ => b != block | _ => true) })
  s.lockets.foldl (fun s l =>
    (l.cold.filter (fun k => k.chan == c && k.die == d && k.block == block && k.todo.any (fun g => page ≤ g))).foldl
      (fun s k => s.rewriteCopy l k) s) s

/-- The first job of a kind on a die, and the jobs without it. -/
def takeJob (f : FlashJob → Bool) : List FlashJob → Option (FlashJob × List FlashJob)
  | [] => none
  | j :: t => if f j then some (j, t) else (takeJob f t).map (fun x => (x.1, j :: x.2))

/-- A stripe page is due: it is full, or its first sector came 200 µs ago (R480). -/
def State.stripeDue (s : State) (t : Stripe) : Bool :=
  match t.buf with
  | [] => false
  | x :: _ => t.cap ≤ t.buf.length || x.came + aon200us ≤ s.mtime

/-- STRIPE_PROGRAM (R480): the first stripe page that is due is issued to its die. -/
def stripeProgram (c : Chan) (s : State) : State :=
  let x := s.chans[c]
  if s.quiet 0x48 then s
  else
  match x.stripes.find? s.stripeDue with
  | none => s
  | some t =>
    let t' := { t with page := t.page + 1, buf := t.buf.drop t.cap }
    let keep := t'.page < (x.dies[t.die]).ppb
    let s := s.chanUpd c (fun x => { x with stripes := x.stripes.flatMap (fun y =>
      if y.die == t.die && y.reloc == t.reloc then (if keep then [t'] else []) else [y]) })
    s.addJobs c t.die [.program t.block t.planes t.page (t.buf.take t.cap)]

/-- FLASH_PROGRAM_DONE (R492). -/
def flashProgramDone (c : Chan) (d : Fin 8) (bad : Option (Fin 4)) (s : State) : State :=
  match takeJob (fun j => match j with | .program .. => true | _ => false) ((s.chans[c]).dies[d]).jobs with
  | some (.program block planes page sects, rest) =>
    let s := s.endJob c d rest 0
    match bad with
    | none => (s.writeStripePage c d block planes page sects).pageDone c d block page
    | some pl => s.pageFailed c d block page pl.val
  | _ => s

/-- FLASH_ERASE_DONE (R492): the block is free, with one erase more; a failed one, or one at its rated count, is retired. -/
def flashEraseDone (c : Chan) (d : Fin 8) (ok : Bool) (s : State) : State :=
  match takeJob (fun j => match j with | .erase .. => true | _ => false) ((s.chans[c]).dies[d]).jobs with
  | some (.erase num plane, rest) =>
    let s := s.endJob c d rest 0
    if !ok then s.retire c d num plane 3
    else
      let s := s.dieUpd c d (fun x => { x with
        pages := x.pages.filter (fun g => !(g.block == num && g.plane == plane))
        blocks := x.blocks.map (fun b => if b.num == num && b.plane == plane then
          { b with pe := b.pe + 1, st := if b.st == .data then .free else b.st, badScrubs := 0 } else b) })
      let s := s.jAppend c { typ := 8, id := BitVec.ofNat 64 num, loc := 1#64 }
      if ((s.chans[c]).dies[d]).blocks.any (fun b => b.num == num && b.plane == plane && s.profile.ratedPe ≤ b.pe &&
          s.profile.ratedPe != 0) then s.retire c d num plane 5
      else s
  | _ => s

/-! ### Reading (R482 to R485, R459) -/

/-- Sectors of a copy as the media hold them. -/
def State.readSectors (s : State) (k : ColdCopy) (planes : List Nat) : List Byte :=
  let die := (s.chans[k.chan]).dies[k.die]
  let cap := 32 * planes.length
  let pos := k.page * cap + (planes.findIdx (· == k.plane)) * 32 + k.sector
  (List.range k.count).flatMap (fun i =>
    let q := pos + i
    match die.pages.find? (fun g => g.block == k.block && g.page == q / cap && g.plane == planes.getD (q % cap / 32) 0) with
    | some g => (((g.words.getD (q % 32 / 8) ⟨[], [], []⟩).payload).drop (512 * (q % 8))).take 512
    | none => [])

/-- The CRC of a codeword matches (R478). -/
def Codeword.crcOk (w : Codeword) : Bool := crc32c (w.payload ++ w.mdata.take 28) == BitVec.ofNat 32 (leAt w.mdata 28 4)
/-- The CRC of the `i`-th codeword of a copy matches; where no page is programmed there is none to check. -/
def State.cwGood (s : State) (k : ColdCopy) (planes : List Nat) (i : Nat) : Bool :=
  let q := (k.page * planes.length + planes.findIdx (· == k.plane)) * 4 + k.sector / 8 + i
  let n := 4 * planes.length
  match ((s.chans[k.chan]).dies[k.die]).pages.find? (fun g =>
    g.block == k.block && g.page == q / n && g.plane == planes.getD (q % n / 4) 0) with
  | some g => (match g.words[q % 4]? with | some w => w.crcOk | none => true)
  | none => true

/-- Planes that a block number's stripe covers: those with a programmed page of it. -/
def State.stripePlanes (s : State) (k : ColdCopy) : List Nat :=
  sortBy (· ≤ ·) (((((s.chans[k.chan]).dies[k.die]).pages.filter (fun g => g.block == k.block)).map (·.plane)).eraseDups)

/-- Codewords of a copy. -/
def ColdCopy.codewords (k : ColdCopy) : Nat := (k.sector % 8 + k.count + 7) / 8

/-- A copy can be read at all: its channel online and its die usable (R495). -/
def State.copyReach (s : State) (k : ColdCopy) : Bool := (s.chans[k.chan]).online && ((s.chans[k.chan]).dies[k.die]).usable

/-- The image that a readable cold copy delivers (R459). -/
def State.coldImage (s : State) (l : Locket) (k : ColdCopy) : Option (List Byte) :=
  let b := (s.readSectors k (s.stripePlanes k)).take l.image.length
  let new := match l.rekey with | some (img, _) => b == img | none => false
  if s.copyReach k && (b == l.image || new) then some b else none

/-- Age bin of a program age (R484). -/
def ageBin (age : Nat) : Fin 4 :=
  if age < aonDay then 0 else if age < 7 * aonDay then 1 else if age ≤ 30 * aonDay then 2 else 3

/-- Program age of a copy's block (R484): since its first program. -/
def State.ageOf (s : State) (c : Chan) (d : Fin 8) (num : Nat) : Nat :=
  s.mtime - ((((s.chans[c]).dies[d]).pages.find? (fun g => g.block == num)).map (·.at_)).getD s.mtime

/-- A signed byte of a register field. -/
def State.rfInt (s : State) (o lo : Nat) : Int := (BitVec.ofNat 8 (s.rf o lo 8)).toInt

/-- What a read of a die takes when it is issued, from the registers as the cycle began (R484, R485, R507, R512): the offset of rung 0 is the forced
one, as written, or the tracker's. -/
def State.readLv (s : State) (c : Chan) (d : Fin 8) (bin : Fin 4) : ReadLv :=
  let o := s.cycleStart
  let forced := o.rb (rPrkChRlForce c) 31 && o.rb (rPrkChRlForce c) (16 + d)
  let hi := o.rfInt (rPrkChRlBound c) 8
  { off := if forced then o.rfInt (rPrkChRlForce c) 0 else (((s.chans[c]).dies[d]).bins[bin]).off
    forced := forced, lo := min (o.rfInt (rPrkChRlBound c) 0) hi, hi := hi }

/-- Clamp a tracker offset to PRK_CH_RL_BOUND (R484). -/
def ReadLv.clamp (v : ReadLv) (x : Int) : Int := max v.lo (min v.hi x)

/-- The retry sets of a die in order: most recent success first, then those never yet successful in profile order (R483). -/
def State.retryOrder (s : State) (x : FlashDie) : List Nat :=
  x.ranks ++ (List.range s.profile.retry.length).filter (fun i => !x.ranks.contains i)

/-- The read-level offsets of a hard rung: rung 0's offset, and the retry set's on top (R483). -/
def State.rungLevels (s : State) (x : FlashDie) (v : ReadLv) (rung : Nat) : List Int :=
  let set := if rung == 0 then [] else match (s.retryOrder x)[rung - 1]? with | some i => s.profile.retry.getD i [] | none => []
  (List.range s.profile.levels).map (fun i => v.off + set.getD i 0)
/-- Each offset is clamped before SET FEATURES applies it (R483). -/
def clampLevels (l : List Int) : List Int := l.map (fun x => max (-127) (min 127 x))

/-- SET FEATURES of a rung's page reads (R474, R483): one for a hard rung; two for rung 4, SOFT_DELTA below and above the levels of the hard rung that
left the fewest unsatisfied checks, which the decoder knows: a free value (DESIGN CHOICE, log entry 2). -/
def State.setLevels (s : State) (c : Chan) (d : Fin 8) (v : ReadLv) (rung : Nat) : State :=
  let x := (s.chans[c]).dies[d]
  if rung < 4 then s.dieUpd c d (fun y => { y with levels := [clampLevels (s.rungLevels x v rung)] })
  else
    let (best, s) := s.freeBelow 4
    let l := s.rungLevels x v best
    let δ : Int := s.profile.softDelta
    s.dieUpd c d (fun y => { y with levels := [clampLevels (l.map (· - δ)), clampLevels (l.map (· + δ))] })

/-- The rung at which a codeword is corrected, if at one: a hard decision corrects every codeword with at most 96 bit errors (R479). -/
def cwGot (w : CwRead) : Option Nat :=
  match w.rung with
  | some r => some r.val
  | none => if w.down + w.up ≤ 96 then some 0 else none

/-- The tracker counts a codeword decoded at rung 0 (R484): the offset moves toward the direction with fewer errors, up or down as the dies have
it. -/
def State.track (s : State) (c : Chan) (d : Fin 8) (v : ReadLv) (bin : Fin 4) (w : CwRead) : State :=
  if v.forced then s
  else
    let b := ((s.chans[c]).dies[d]).bins[bin]
    let b := { b with words := b.words + 1, down := b.down + w.down, up := b.up + w.up }
    let diff := if b.down < b.up then b.up - b.down else b.down - b.up
    let b := if b.words < 64 then b
      else if max 8 ((b.down + b.up) / 8) < diff then
        { off := v.clamp (b.off + (if decide (b.down < b.up) == Config.fewerDown then 1 else -1)) }
      else { off := b.off }
    s.dieUpd c d (fun x => { x with bins := x.bins.set bin b })

/-- A retry set succeeds at rung 1 to 3: it moves to the front, and the bin's offset to the midpoint (R483, R484). -/
def State.retrySuccess (s : State) (c : Chan) (d : Fin 8) (v : ReadLv) (bin : Fin 4) (rung : Nat) : State :=
  let x := (s.chans[c]).dies[d]
  match (s.retryOrder x)[rung - 1]? with
  | none => s
  | some i =>
    let set := s.profile.retry.getD i []
    let n : Int := max 1 set.length
    let mid := Int.tdiv (x.bins[bin].off * n + set.sum) (2 * n)
    s.dieUpd c d (fun x => { x with
      ranks := i :: x.ranks.filter (· != i)
      bins := if v.forced then x.bins else vset x.bins bin (fun b => { b with off := v.clamp mid }) })

/-- Issue a read of a copy at rung 0 (R482, R483). -/
def State.issueRead (s : State) (l : Locket) (k : ColdCopy) : State :=
  let v := s.readLv k.chan k.die (ageBin (s.ageOf k.chan k.die k.block))
  (s.addJobs k.chan k.die [.read l.part l.session k 0 (List.range k.codewords) v]).setLevels k.chan k.die v 0

/-- The ops that wait for a read of a session's cold copy get its outcome. -/
def State.readDelivered (s : State) (p : Part) (sid : Word) (copy : Option Nat) : State :=
  { s with ctxs := s.ctxs.map (fun x =>
      if x.part == p && x.reading && leAt x.entry 4 4 == sid.toNat then { x with reading := false, readOk := some copy } else x) }

/-- An op that reads the session's cold copy is being aborted: it stops when the read under way ends (R139). -/
def State.readAborting (s : State) (l : Locket) : Bool :=
  s.ctxs.any (fun x => x.part == l.part && x.reading && x.aborting && leAt x.entry 4 4 == l.session.toNat)
/-- Copies that the reads of the waiting op have found unreadable. -/
def State.coldTried (s : State) (l : Locket) : List Nat :=
  s.ctxs.flatMap (fun x => if x.part == l.part && x.reading && leAt x.entry 4 4 == l.session.toNat then x.badCold else [])
/-- The cold copy to read next (R453, R458): the lowest-numbered one that can be reached and is not among those found unreadable. -/
def State.coldNext (s : State) (l : Locket) (tried : List Nat) : Option ColdCopy :=
  (sortCopies (l.cold.filter (fun k => k.durable && s.copyReach k && !tried.contains k.copy))).head?
/-- A copy stays unreadable: the other copy of a pinned locket is read instead, else the waiting op learns that none is readable. -/
def State.readFailed (s : State) (l : Locket) (copy : Nat) : State :=
  if s.readAborting l then s.readDelivered l.part l.session none
  else
  let s := { s with ctxs := s.ctxs.map (fun (x : OpCtx) =>
      if x.part == l.part && x.reading && leAt x.entry 4 4 == l.session.toNat then { x with badCold := x.badCold ++ [copy] } else x) }
  match s.coldNext l (copy :: s.coldTried l) with
  | some k => s.issueRead l k
  | none => s.readDelivered l.part l.session none

/-- A pinned copy is rewritten from its twin in the same tier (R453). -/
def State.repairTwin (s : State) (l : Locket) (k : ColdCopy) : State :=
  if l.rekey.isSome || l.cold.any (fun y => y.copy == k.copy && !y.durable) then s
  else
    match s.placeFor l k true l.image with
    | some (n, s) => s.locketUpd l.part l.session (fun x => { x with cold := x.cold ++ [{ n with moved := true, repair := true }] })
    | none => s

/-- The program or erase that a die is busy with when its first read in flight is served, if one (R482). -/
def FlashDie.busyOp (d : FlashDie) : Option FlashJob :=
  (d.jobs.takeWhile (fun j => match j with | .read .. => false | _ => true)).head?
/-- The read has to wait: for the rebuild of the cold index (R488), or for the end of that operation where the profile names no command to
suspend it, or it has been suspended 8 times. -/
def State.readWaits (s : State) (d : FlashDie) : Bool :=
  if !s.indexOk then true
  else
  match d.busyOp with
  | none => false
  | some j => (match j with | .program .. => s.profile.suspP == 0 | _ => s.profile.suspE == 0) || 8 ≤ d.susp

/-- A program or erase that the read suspended resumes with the profile's commands (R474, R482). -/
def State.resumed (s : State) (c : Chan) (d : Fin 8) (j : Option FlashJob) : State :=
  match j with
  | none => s
  | some j =>
    let cmd := match j with | .program .. => s.profile.suspP | _ => s.profile.suspE
    s.dieUpd c d (fun x => { x with cmds := [cmd, 0xEF, 0x00, 0x30, 0x70, 0x06, 0xE0, s.profile.resume] })

/-- FLASH_READ_DONE (R482, R483): the first read in flight on the die ends a rung; codewords that still fail climb to the next. It reads the
sectors it was issued for, which stay until it ends (R491, R512). -/
def flashReadDone (c : Chan) (d : Fin 8) (cws : List CwRead) (s : State) : State :=
  let die := (s.chans[c]).dies[d]
  match takeJob (fun j => match j with | .read .. => true | _ => false) die.jobs with
  | some (.read p sid k rung left v, rest) =>
    if s.readWaits die then s
    else
    let copy := k.copy
    let susp := die.susp + if die.busyOp.isSome then 1 else 0
    let s := (s.endJob c d rest susp).resumed c d die.busyOp
    match s.lockets.find? (fun l => l.part == p && l.session == sid) with
    | none => s
    | some l =>
      let bin := ageBin (s.ageOf c d k.block)
      let planes := s.stripePlanes k
      let res := left.zipIdx.map (fun x => (x.1, cws.getD x.2 ⟨some 0, 0, 0⟩))
      let good := fun (x : Nat × CwRead) => (cwGot x.2).isSome && s.cwGood k planes x.1
      let fails := (res.filter (fun x => !good x)).map (·.1)
      let s := if rung == 0 then res.foldl (fun s x => if good x then s.track c d v bin x.2 else s) s else s
      let s := if fails.isEmpty && 1 ≤ rung && rung ≤ 3 then s.retrySuccess c d v bin rung else s
      if fails.isEmpty then
        let s := if 1 ≤ rung then (s.bump (rPrkChRetryCnt c)).count 0x11 (some p) none 1 else s
        match s.coldImage l k with
        | some _ =>
          let tried := s.coldTried l
          let s := l.cold.foldl (fun s b => if b.copy != copy && tried.contains b.copy && b.durable then s.repairTwin l b else s) s
          s.readDelivered p sid (some copy)
        | none => s.readFailed l copy
      else if rung < 4 then (s.addJobs c d [.read p sid k (rung + 1) fails v]).setLevels c d v (rung + 1)
      else
        (((s.bump (rPrkChRetryCnt c)).count 0x11 (some p) none 1).bumpBy (rPrkChUeCnt c) 0 32 fails.length).readFailed l copy
  | _ => s

/-! ### Background reads (R482, R483) -/

/-- Codewords that hold sectors of a copy: plane, page, codeword. -/
def State.copyCws (s : State) (k : ColdCopy) : List (Nat × Nat × Nat) :=
  let planes := s.stripePlanes k
  let cap := 32 * planes.length
  let pos := k.page * cap + (planes.findIdx (· == k.plane)) * 32 + k.sector
  ((List.range k.count).map (fun i => let q := pos + i; (planes.getD (q % cap / 32) 0, q / cap, q % 32 / 8))).eraseDups

/-- Page reads of the ladder when the last codeword of the page is corrected at this rung, if at one (R483). -/
def pageReads : Option Nat → Nat
  | some r => if r < 4 then r + 1 else 6
  | none => 6

/-- What a background read leaves (R483, R484, R508): the tracker, the retry order, the levels last set, and the counts of page reads and of the
copies that needed rung 1 or higher. -/
def State.ladder (s : State) (c : Chan) (d : Fin 8) (v : ReadLv) (bin : Fin 4) (cws : List CwRead) (copies reads : Nat) : State :=
  let s := cws.foldl (fun s w => if (cwGot w) == some 0 then s.track c d v bin w else s) s
  let top := (cws.map (fun w => (cwGot w).getD 4)).foldl max 0
  let bad := (cws.filter (fun w => (cwGot w).isNone)).length
  let s := s.setLevels c d v top
  let s := if 1 ≤ top && top ≤ 3 then s.retrySuccess c d v bin top else s
  let s := (s.bumpBy (rPrkChRetryCnt c) 0 32 copies).bumpBy (rPrkChUeCnt c) 0 32 bad
  (s.count 0x11 (s.chanOwner c) none copies).count 0x0E (s.chanOwner c) none reads

/-- What a background read of `n` codewords gives: free values (DESIGN CHOICE, log entry 2). -/
def State.freeCws (s : State) : Nat → List CwRead × State
  | 0 => ([], s)
  | n + 1 =>
    let (r, s) := s.freeBelow 6
    let (a, s) := s.freeBelow 36865
    let (b, s) := s.freeBelow (36865 - a)
    let (l, s) := s.freeCws n
    (⟨if h : r < 5 then some ⟨r, h⟩ else none, a, b⟩ :: l, s)

/-- A background read of a copy climbs the ladder (R483): is every codeword corrected? -/
def State.bgRead (s : State) (k : ColdCopy) : Bool × State :=
  let (cws, s) := s.freeCws k.codewords
  let bin := ageBin (s.ageOf k.chan k.die k.block)
  let high := cws.any (fun w => (cwGot w) != some 0)
  let pages := ((s.copyCws k).map (fun w => (w.1, w.2.1))).eraseDups.length
  let top := if cws.any (fun w => (cwGot w).isNone) then none else some ((cws.map (fun w => (cwGot w).getD 4)).foldl max 0)
  (cws.all (fun w => (cwGot w).isSome), s.ladder k.chan k.die (s.readLv k.chan k.die bin) bin cws (if high then 1 else 0) (pages * pageReads top))

end Sys2Proof.Machine
end

