-- ==== Sys2Proof/Machine/Operands.lean ====
section
/-! DEFINITION. Sys2Proof/Machine/Operands.lean: the fields of a submission entry, and the checks on the entry's own fields
(R94, R95, R100 to R121). -/
namespace Sys2Proof.Machine
open Sys2Proof

/-! ### Common header (R94) -/

def eDlValid (e : List Byte) : Bool := (leAt e 1 1).testBit 7
def eDom (e : List Byte) : Dom := ⟨nf (leAt e 1 1) 5 2 % 4, Nat.mod_lt _ (by decide)⟩
def ePrio (e : List Byte) : Nat := nf (leAt e 1 1) 3 2
def eSession (e : List Byte) : Word := BitVec.ofNat 32 (leAt e 4 4)
def eTag (e : List Byte) : Nat := leAt e 8 8
def eDeadline (e : List Byte) : DWord := BitVec.ofNat 64 (leAt e 16 8)

/-! ### Op codes (R11) -/

abbrev opSESSION_OPEN : Nat := 0x01
abbrev opSESSION_CLOSE : Nat := 0x02
abbrev opENCODE : Nat := 0x03
abbrev opENCODE_APPEND : Nat := 0x04
abbrev opDECODE : Nat := 0x05
abbrev opSTEP_BATCH : Nat := 0x06
abbrev opMASK_BATCH : Nat := 0x07
abbrev opSPEC_VERIFY : Nat := 0x08
abbrev opPREFILL : Nat := 0x09
abbrev opHASH_BLOCKS : Nat := 0x0A
abbrev opPARK : Nat := 0x0B
abbrev opREVIVE : Nat := 0x0C
abbrev opEXPORT : Nat := 0x0D
abbrev opIMPORT : Nat := 0x0E
abbrev opOBJECT_LOAD : Nat := 0x0F
abbrev opOBJECT_RETIRE : Nat := 0x10
abbrev opBUDGET_SET : Nat := 0x11
abbrev opCLASP : Nat := 0x12
abbrev opABORT : Nat := 0x13
abbrev opCANCEL : Nat := 0x14
abbrev opROLLBACK : Nat := 0x15
abbrev opQUERY : Nat := 0x16

/-- ABORT, CANCEL and QUERY take a control context (R125). -/
def isControl (op : Nat) : Bool := op == opABORT || op == opCANCEL || op == opQUERY

/-! ### Reserved bits (R95): the bytes and bits that each op's tables list -/

/-- The listed fields of an op: offset, bytes, and the bits listed in them. -/
def opFields (op : Nat) : List (Nat × Nat) :=
  let b := 0xFF
  let w := 0xFFFFFFFF
  let d := 0xFFFFFFFFFFFFFFFF
  match op with
  | 0x01 => [(24, w), (28, w), (32, 0xFFF), (36, w), (40, d)]
  | 0x03 => [(24, d), (32, w), (36, w), (40, d), (48, w), (52, 0x0F), (53, 0x03), (56, w), (60, w)]
  | 0x04 => [(24, d), (32, w), (36, 1)]
  | 0x05 => [(24, d), (32, w), (36, w), (40, d), (48, w), (52, 1), (56, w)]
  | 0x06 => [(24, d), (32, w), (36, 0xC0), (40, 0xFFF000FFFFFFFFFF), (48, d), (56, d)]
  | 0x07 => [(24, d), (32, w), (36, 1), (40, d), (48, w)]
  | 0x08 => [(24, d), (32, b), (33, 0xF0), (40, d), (48, d), (56, d)]
  | 0x09 => [(24, d), (32, w), (36, w), (40, d), (48, w)]
  | 0x0A => [(24, d), (32, w), (36, 3), (37, 1), (40, d), (48, d), (56, d)]
  | 0x0B => [(24, 3)]
  | 0x0C => [(24, d), (32, d)]
  | 0x0D => [(24, d), (32, w), (36, 1)]
  | 0x0E => [(24, d), (32, w)]
  | 0x0F => [(24, w), (28, 0x0F), (29, 1), (32, d), (40, w)]
  | 0x10 => [(24, w)]
  | 0x11 => [(24, 0xFFF), (28, w), (32, w), (36, 0xFFFF), (38, 0xFFFF), (40, 1), (41, b)]
  | 0x12 => [(24, 3), (32, d), (40, d)]
  | 0x13 => [(24, 0x3F), (25, 1), (28, w), (32, d)]
  | 0x14 => [(24, 0x3F), (25, 1), (28, w), (32, d)]
  | 0x15 => [(24, w)]
  | 0x16 => [(24, 0x0F), (25, 0x3F), (28, w)]
  | _ => []

/-- Every listed bit of an entry as a number of 64 bytes. -/
def entryMask (op : Nat) : Nat :=
  let head := [(0, 0xFF), (1, 0xF8), (4, 0xFFFFFFFF), (8, 0xFFFFFFFFFFFFFFFF), (16, 0xFFF000FFFFFFFFFF)]
  ((head ++ opFields op).map (fun x => x.2 * 2 ^ (8 * x.1))).sum

/-! ### Fields that name sessions -/

/-- Does the entry name a session in its SESSION field (R94)? -/
def namesSession (e : List Byte) : Bool :=
  let op := eOp e
  [0x01, 0x02, 0x04, 0x08, 0x0B, 0x0C, 0x0D, 0x0E, 0x15].contains op || (op == opPREFILL && leAt e 24 8 == 0) ||
  (op == opCLASP && leAt e 24 1 == 1) || (op == opQUERY && leAt e 24 1 == 1)

/-! ### Limits of an op's own fields (R95) -/

/-- Is the field's limit met, op by op? -/
def opLimitsOk (e : List Byte) : Bool :=
  let w := fun (o : Nat) => leAt e o 4
  let d := fun (o : Nat) => leAt e o 8
  match eOp e with
  | 0x01 => d 40 % 64 == 0
  | 0x03 => 1 ≤ w 32 && d 40 % 64 == 0 && 64 ≤ w 48 && (!(leAt e 52 1).testBit 2 || 1 ≤ w 60)
  | 0x04 => 1 ≤ w 32
  | 0x05 => 1 ≤ w 32 && w 32 ≤ 1048576
  | 0x06 => 1 ≤ w 32 && w 32 ≤ 65536 && leAt e 36 1 / 64 != 3 && (leAt e 36 1 / 64 == 1 || d 40 / 2 ^ 52 == 0) &&
      d 56 % 64 == 0
  | 0x07 => 1 ≤ w 32 && w 32 ≤ 65536 && d 40 % 64 == 0
  | 0x08 => d 24 % 64 == 0 && 1 ≤ leAt e 32 1 && leAt e 32 1 ≤ 64 && leAt e 33 1 / 16 ≤ 9 && d 48 % 64 == 0 && d 56 % 64 == 0
  | 0x09 => (d 24 == 0 || (1 ≤ w 32 && w 32 ≤ 1048576)) && 1 ≤ w 36 && d 40 % 64 == 0 && 64 ≤ w 48
  | 0x0A => 1 ≤ w 32 && w 32 ≤ 1048576 && d 56 % 16 == 0
  | 0x0D => 1 ≤ w 32 && w 32 ≤ 4194304
  | 0x0E => 1 ≤ w 32 && w 32 ≤ 4194304
  | 0x0F => 1 ≤ w 24 && w 24 ≤ 0xFFFFFFFE && 1 ≤ leAt e 28 1 && leAt e 28 1 ≤ 6
  | 0x12 => if leAt e 24 1 == 3 then 1 ≤ d 40 else d 32 == 0 && d 40 == 0
  | 0x16 => leAt e 24 1 ≤ 2
  | _ => true

/-- BAD_ENTRY for the entry's own fields (R95, R674 order 1). -/
def entryBad (e : List Byte) : Bool :=
  let op := eOp e
  op == 0 || 0x16 < op || leNat e &&& entryMask op != leNat e ||
  (!eDlValid e && eDeadline e != 0#64) ||
  (eDlValid e && (op == opCLASP || isControl op)) ||
  (if namesSession e then eSession e == noSession else eSession e != 0#32) ||
  !opLimitsOk e

/-! ### Sessions an entry is on -/

/-- Sessions that a batch's items name, in item order (R106, R311). -/
def State.itemSessions (s : State) (e : List Byte) : List Word :=
  if eOp e == opSTEP_BATCH || eOp e == opMASK_BATCH then
    (List.range (leAt e 32 4)).map (fun i => BitVec.ofNat 32 (s.rdLE (leAt e 24 8 + 32 * i) 4))
  else []

/-- Sessions that a dispatched op is on: the one its entry names, and those of its items. -/
def OpCtx.sessions (c : OpCtx) : List Word :=
  (if namesSession c.entry then [eSession c.entry] else []) ++ c.items.map (·.session)

/-- Ops that change the strand their entry names, and hold its exclusion while they run (R129, R130, R143). -/
def isStrandOp (e : List Byte) : Bool :=
  [0x01, 0x02, 0x04, 0x08, 0x0B, 0x0C, 0x0D, 0x0E, 0x15].contains (eOp e)

/-- Does a context hold exclusion on a session of its partition: a strand op that runs, or a step that has begun? -/
def OpCtx.excludes (c : OpCtx) (sid : Word) : Bool :=
  (c.st == .ready && isStrandOp c.entry && eSession c.entry == sid) ||
  c.items.any (fun i => eOp c.entry == opSTEP_BATCH && i.session == sid && i.begun && i.phase != .done)

/-- Does another context than `c`, or a reclaim park in flight (R163), hold exclusion on the session? -/
def State.excluded (s : State) (p : Part) (sid : Word) (c : Option Ctx) : Bool :=
  s.ctxs.any (fun x => x.part == p && some x.id != c && x.excludes sid) || (s.parts[p]).reclaims.contains sid

/-- Time to an op's deadline (R51). -/
def State.due (s : State) (x : OpCtx) : Option Int :=
  if eDlValid x.entry then some (s.timeTo (eDom x.entry) (eDeadline x.entry)) else none

end Sys2Proof.Machine
end

