-- ==== Sys2Proof/Machine/Gate.lean ====
section
/-! DEFINITION. Sys2Proof/Machine/Gate.lean: the compare of a redundant pair at each commit point: a member's commands that commit a part
wait for the partner's record (R621 to R626, R629, R631). -/
namespace Sys2Proof.Machine
open Sys2Proof

/-- Update what the member keeps for its pair. -/
def State.pairUpd (s : State) (f : PairSt → PairSt) : State := { s with pair := f s.pair }

/-! ### Records (R622) -/

/-- The fields of a compare record but SEQ (R622). -/
structure CmpRec where
  index  : Word := 0#32
  ring   : Ring := 0
  kind   : Nat
  status : BitVec 8 := 0#8
  part   : Nat := 0
  digest : BitVec 128 := 0#128
  epoch  : DWord := 0#64
  gen    : DWord := 0#64
  value  : DWord := 0#64

/-- A record goes into the partner's mailbox under the next SEQ (R622). -/
def State.mail (s : State) (r : CmpRec) : State :=
  let n := s.pair.seq + 1
  let v := leBytes 4 r.index.toNat ++ leBytes 1 r.ring.val ++ leBytes 1 r.kind ++ leBytes 1 r.status.toNat ++ leBytes 1 0 ++
    leBytes 4 r.part ++ leBytes 4 0 ++ leBytes 16 r.digest.toNat ++ leBytes 8 r.epoch.toNat ++ leBytes 8 r.gen.toNat ++
    leBytes 8 r.value.toNat ++ leBytes 8 n
  { s with mailOut := s.mailOut ++ [BitVec.ofNat 512 (leNat v)], pair := { s.pair with seq := n } }

/-- Fields of a digest record. -/
def recPart (r : BitVec 512) (q : CmpPart) : Bool :=
  fld r 0 32 == q.index.toNat && fld r 32 8 == q.ring.val && fld r 64 32 == q.part
def recStatus (r : BitVec 512) : BitVec 8 := BitVec.ofNat 8 (fld r 48 8)
def recDigest (r : BitVec 512) : BitVec 128 := BitVec.ofNat 128 (fld r 128 128)

/-! ### Decisions of the primary (R53, R621) -/

/-- The primary carries a decision to the secondary: of the op of a ring pair and index 1 a deadline point and 2 a logits-ready point reached, 5 its
dispatch, with the context and what was decided there, 7 its readiness, with the status of an op that ended at it; of a partition 3 a locket
generation, 4 a mask epoch, 8 a reclaim candidate; 6 a refill tick. -/
def State.tellOp (s : State) (kind : Nat) (p : Part) (v : DWord) (ring : Ring) (index : Word) : State :=
  if s.role == 1 then s.mail { kind := 2, ring := ring, index := index, value := Config.decisionCode kind p.val v } else s
/-- The same, of a partition. -/
def State.tell (s : State) (kind : Nat) (p : Part) (v : DWord) : State := s.tellOp kind p v 0 0#32

/-- The decision about an op. -/
def Decision.of (kind : Nat) (r : Ring) (index : Word) (d : Decision) : Bool := d.kind == kind && d.ring == r && d.index == index
/-- Has such a decision come? -/
def State.told (s : State) (kind : Nat) (r : Ring) (index : Word) : Bool := s.pair.given.any (Decision.of kind r index)

/-- A dispatch from the ring's FIFO, which has given the newest context, is carried, with the decisions on its points (R53); `s` is the state before
it. -/
def State.tellDispatch (t s : State) : State :=
  match t.ctxs.getLast? with
  | some x =>
    if t.ctxs.length == s.ctxs.length + 1 then
      t.tellOp 5 x.part (BitVec.ofNat 64 (x.id.val + (if x.status == some stDeadline then 2 ^ 16 else 0) +
        (if x.logits then 2 ^ 17 else 0))) x.ring x.index
    else t
  | none => t
/-- So is an op that is no longer queued, with the result of its admission; `s` is the state before. -/
def State.tellReady (t s : State) (c : Ctx) : State :=
  match s.ctx? c, t.ctx? c with
  | some x, some y =>
    if x.st == .queued && y.st != .queued then
      t.tellOp 7 x.part (match y.status with | some st => BitVec.ofNat 64 (0x100 + st.toNat) | none => 0#64) x.ring x.index
    else t
  | _, _ => t

/-- The dispatch that a secondary is to make next. -/
def State.toldDispatch (s : State) : Option Decision := s.pair.given.find? (fun d => d.kind == 5)
/-- The readiness that a secondary is to bring about next: that of an op which has ended otherwise is passed over. -/
def State.toldReady (s : State) : Option Decision :=
  s.pair.given.find? (fun d => d.kind == 7 &&
    (match s.ctxs.find? (fun x => x.ring == d.ring && x.index == d.index) with
     | some x => x.st == .queued
     | none => s.told 5 d.ring d.index))

/-! ### The parts of a command -/

/-- The parts that a command ends, going from `s` to `t`, each with its op and its status: the items of a STEP_BATCH, the masks of a MASK_BATCH, which
commit together (DESIGN CHOICE, log entry 47), or an op as a whole. -/
def endedParts (s t : State) : List (OpCtx × Nat × BitVec 8) :=
  s.ctxs.flatMap (fun x =>
    if x.st == .past then []
    else
      match t.ctxs.find? (fun y => y.seq == x.seq) with
      | none => []
      | some y =>
        if eOp x.entry == opSTEP_BATCH then
          (y.items.zipIdx.zip x.items).filterMap (fun q =>
            if q.1.1.phase == .done && q.2.phase != .done then some (x, q.1.2, q.1.1.status) else none)
        else if x.st == .ready && y.st == .past then
          let masks := if eOp x.entry == opMASK_BATCH then y.items.flatMap (fun i => List.replicate i.slots i.status) else []
          if masks.isEmpty then [(x, 0, y.status.getD 0#8)] else masks.zipIdx.map (fun m => (x, m.2, m.1))
        else [])

/-- The output area of a part of a batch: an item's record and text slot, a mask's slot. -/
def OpCtx.partAreas (x : OpCtx) (k : Nat) : List (Nat × Nat) :=
  if eOp x.entry == opSTEP_BATCH then
    (leAt x.entry 48 8 + 64 + 192 * k, 192) :: (if leAt x.entry 56 8 == 0 then [] else [(leAt x.entry 56 8 + 64 + 2048 * k, 2048)])
  else if eOp x.entry == opMASK_BATCH then
    ((x.items.flatMap (fun i => (List.range i.slots).map (fun j => (leAt x.entry 40 8 + i.offset + j * i.slotSz, i.slotSz))))[k]?).toList
  else []
/-- An address in one of some areas. -/
def inAreas (l : List (Nat × Nat)) (a : Nat) : Bool := l.any (fun r => r.1 ≤ a && a < r.1 + r.2)

/-- Logged bytes, oldest first, as writes: bytes that follow each other upward are one write (DESIGN CHOICE, log entry 47). -/
def writesOf : List Host.Cell → List (Nat × List Byte)
  | [] => []
  | c :: l =>
    match writesOf l with
    | (a, bs) :: r => if c.1 + 1 == a then (c.1, c.2 :: bs) :: r else (c.1, [c.2]) :: (a, bs) :: r
    | [] => [(c.1, [c.2])]

/-- The commit digest (R622): BLAKE3 over the final status and every write, in issue order, its address before its bytes; a private address is taken
relative to the private offset. -/
def State.commitDigest (s : State) (st : BitVec 8) (log : List Host.Cell) : BitVec 128 :=
  let rel := fun (a : Nat) => if s.isPriv a then a - s.priv else a
  BitVec.ofNat 128 (leNat ((blake3 (leBytes 1 st.toNat ++
    (writesOf log).flatMap (fun w => leBytes 8 (rel w.1) ++ w.2))).take 16))

/-- The parts of a command, or of a failure with a status, as this member would commit them: `f` is the commit. A part's digest is over the writes to
its own output area, and the first one's over those to no part's area (DESIGN CHOICE, log entry 47). A primary assigns the mask epoch and the
locket generation that the commit takes (R621). -/
def State.newParts (s : State) (cmd : Instr) (fail : Option (BitVec 8)) (f : State → State) : List CmpPart :=
  let t := f { s with wlog := some [] }
  let log := (t.wlog.getD []).reverse
  let ends := endedParts s t
  ends.zipIdx.map (fun e =>
    let x := e.1.1
    let others := ((ends.zipIdx.filter (fun d => d.2 != e.2)).flatMap (fun d => d.1.1.partAreas d.1.2.1))
    let mine := log.filter (fun c => inAreas (x.partAreas e.1.2.1) c.1 || (e.2 == 0 && !inAreas others c.1))
    let own := fun (g : PartState → DWord) =>
      if s.role == 1 && e.2 == 0 && g t.parts[x.part] != g s.parts[x.part] then g s.parts[x.part] + 1#64 else 0#64
    { cmd := cmd, ring := x.ring, index := x.index, part := e.1.2.1, status := e.1.2.2, digest := s.commitDigest e.1.2.2 mine
      at_ := s.time, seq := x.seq, epoch := own (·.epoch), gen := own (·.gen), fail := fail })

/-- The parts that one commit commits. -/
def CmpPart.joins (q y : CmpPart) : Bool := y.cmd == q.cmd && y.fail == q.fail && y.seq == q.seq
/-- The same part. -/
def CmpPart.same (q y : CmpPart) : Bool := y.seq == q.seq && y.part == q.part

/-- A part waits while its op and its item have not ended otherwise. -/
def State.partLive (s : State) (q : CmpPart) : Bool :=
  match s.ctxs.find? (fun x => x.seq == q.seq) with
  | none => false
  | some x => x.st != .past &&
    (eOp x.entry != opSTEP_BATCH || (match x.items[q.part]? with | some i => i.phase != .done | none => false))
/-- The parts that wait. -/
def State.liveParts (s : State) : List CmpPart := s.pair.parts.filter s.partLive

/-- The values assigned to parts are the next ones that their commit takes (R309, R443). -/
def State.give (s : State) (l : List CmpPart) : State :=
  let of := fun (q : CmpPart) =>
    match s.ctxs.find? (fun x => x.seq == q.seq) with
    | none => []
    | some x => (if q.epoch == 0#64 then [] else [({ kind := 4, part := x.part, arg := q.epoch } : Decision)]) ++
        (if q.gen == 0#64 then [] else [{ kind := 3, part := x.part, arg := q.gen }])
  s.pairUpd (fun x => { x with given := l.flatMap of ++ x.given })
/-- A commit with those values; one that it did not take stays unused. -/
def State.withGiven (s : State) (l : List CmpPart) (f : State → State) : State :=
  let s' := s.give l
  let vals := s'.pair.given.take (s'.pair.given.length - s.pair.given.length)
  (f s').pairUpd (fun x => { x with given := x.given.filter (fun d => !vals.contains d) })

/-- A part is marked as replayed, and its op with it (R624). -/
def State.markReplayed (s : State) (q : CmpPart) : State :=
  { s with ctxs := s.ctxs.map (fun x =>
      if x.ring == q.ring && x.index == q.index then
        { x with replayed := true, items := x.items.zipIdx.map (fun y => if y.2 == q.part then { y.1 with replayed := true } else y.1) }
      else x) }

/-- The own record of a part is written (R622): a secondary assigns no epoch and no generation. -/
def State.mailPart (s : State) (q : CmpPart) : State :=
  s.mail { index := q.index, ring := q.ring, kind := 1, status := q.status, part := q.part, digest := q.digest
           epoch := if s.role == 1 then q.epoch else 0#64, gen := if s.role == 1 then q.gen else 0#64 }

/-! ### Mismatch and replay (R623 to R626) -/

/-- The event of a mismatch: counter 0; a part that is MEM_POISON in one member only counts in that member's scratch or bead counter, of a
unit that a free value names (DESIGN CHOICE, log entry 2). -/
def State.mismatchEvent (s : State) (poisonOne mine : Bool) : State :=
  if !poisonOne then s.faultEvent 0 0
  else if !mine then s
  else
    let (k, s) := s.freeBelow 2
    let (u, s) := s.freeBelow (if k == 0 then 1024 else 2112)
    s.faultEvent (if k == 0 then 1 else 3) u

/-- The work of a part that failed runs again from its start. -/
def State.restartPart (s : State) (q : CmpPart) : State :=
  { s with ctxs := s.ctxs.map (fun x =>
      if x.seq == q.seq && eOp x.entry == opSTEP_BATCH then
        { x with items := x.items.modify q.part (fun i => { i with phase := .waiting, begun := false, samp := none, ra := none, drawn := none
                                                                   draw := false, units := 0, shares := [] }) }
      else x) }

/-- A mismatch of a waiting part: its work is discarded and rerun from its inputs, by `f`; a new record is written, and the partner is told when this
member found it. -/
def State.partMismatch (s : State) (q : CmpPart) (f : State → State) (poisonOne mine tell : Bool) : State :=
  let s := ((s.bump rGlbPairCmpCnt).bump rGlbPairReplayCnt).markReplayed q
  let s := s.mail { index := q.index, ring := q.ring, kind := 3, part := q.part }
  let again := if q.fail.isSome then none
    else (s.newParts q.cmd none (fun s => s.withGiven (s.pair.parts.filter q.joins) f)).find? q.same
  let s := match again with
    | some n =>
      let n := { n with epoch := q.epoch, gen := q.gen, bad := q.bad + 1, told := tell }
      (s.pairUpd (fun x => { x with parts := x.parts.map (fun y => if y == q then n else y) })).mailPart n
    | none => (s.restartPart q).pairUpd (fun x => { x with parts := x.parts.filter (· != q) })
  let s := s.trace' 0xB ((s.ctxs.find? (fun x => x.ring == q.ring && x.index == q.index)).map (·.part)) noSession q.index (some q.ring) 0
    q.part 0
  let s := if tell then s.sendPartner 0x45 q.index.toNat else s
  let s := s.mismatchEvent poisonOne mine
  if 4 ≤ q.bad + 1 then s.lastingMismatch else s

/-- A REVIVE of which one member finds every copy unreadable (R460): that member takes a flash uncorrectable fault. -/
def State.reviveLost (s : State) (q : CmpPart) : State :=
  match (s.ctxs.find? (fun x => x.ring == q.ring && x.index == q.index)).bind (fun x => s.locket? x.part (eSession x.entry)) with
  | some l =>
    match l.cold.head? with
    | some k => s.faultEvent 4 (k.chan.val * 8 + k.die.val)
    | none => let (u, s) := s.freeBelow 128; s.faultEvent 4 u
  | none => s

/-- Once every part of a commit has compared equal, the commit is made. -/
def State.commitIfOk (s : State) (q : CmpPart) (f : State → State) : State :=
  let l := s.pair.parts.filter q.joins
  if l.all (·.ok) then (s.pairUpd (fun x => { x with parts := x.parts.filter (fun y => !q.joins y) })).withGiven l f else s

/-- The partner's record of a waiting part has come (R622, R624, R626): with equal digests the part may commit. -/
def State.compareWith (s : State) (q : CmpPart) (r : BitVec 512) (f : State → State) : State :=
  if recDigest r == q.digest then
    (s.pairUpd (fun x => { x with parts := x.parts.map (fun y => if y == q then { q with ok := true } else y) })).commitIfOk q f
  else
    let revive := match q.cmd with | .revive _ => true | _ => false
    if revive && (recStatus r == stSessionLost) != (q.status == stSessionLost) then
      (if q.status == stSessionLost then s.reviveLost q else s)
    else s.partMismatch q f ((recStatus r == stPoison) != (q.status == stPoison)) (q.status == stPoison) true

/-- A secondary whose commit takes a mask epoch or a locket generation waits for the primary's record, which assigns it (R309, R443, R621). -/
def State.awaitsValues (s : State) (f : State → State) (l : List CmpPart) : Bool :=
  let t := f s
  s.role == 2 && (t.parts.map (·.epoch) != s.parts.map (·.epoch) || t.parts.map (·.gen) != s.parts.map (·.gen)) &&
  !l.any (fun q => s.pair.early.any (fun r => recPart r q))

/-- The parts with the values that the primary's records assign to them, where those have come to a secondary. -/
def State.earlyValues (s : State) (l : List CmpPart) : List CmpPart :=
  if s.role != 2 then l
  else l.map (fun q =>
    match s.pair.early.find? (fun r => recPart r q) with
    | some r => { q with epoch := BitVec.ofNat 64 (fld r 256 64), gen := BitVec.ofNat 64 (fld r 320 64) }
    | none => q)

/-- The own compare records are written, and the parts wait for the partner's (R622); one that has come before is compared at once. A primary's counters
rise when it assigns a value. -/
def State.queueParts (s : State) (cmd : Instr) (fail : Option (BitVec 8)) (f : State → State) : State :=
  let l := s.earlyValues (s.newParts cmd fail f)
  if s.awaitsValues f l then s
  else
  let ps := if s.role != 2 then l
    else ((s.newParts cmd fail (fun s => s.withGiven l f)).zip l).map (fun q => { q.1 with epoch := q.2.epoch, gen := q.2.gen })
  let s := s.pairUpd (fun x => { x with parts := x.parts.filter s.partLive ++ ps })
  let s := ps.foldl (fun s q =>
    let s := match s.ctxs.find? (fun x => x.seq == q.seq) with
      | some x =>
        let s := if q.epoch == 0#64 then s else (s.nextEpoch x.part).2
        if q.gen == 0#64 then s else (s.nextGen x.part).2
      | none => s
    s.mailPart q) s
  ps.foldl (fun s q =>
    match s.pair.early.find? (fun r => recPart r q) with
    | some r => (s.pairUpd (fun x => { x with early := x.early.filter (fun r => !recPart r q) })).compareWith q r f
    | none => s) s

/-- A command that may commit parts. A single member applies it. A member of a pair applies it at once where it ends no part; parts that it
would end wait for the compare, and every commit is held during the self-test. A survivor completes the parts that waited, as replayed
ones (R631). -/
def gated (cmd : Instr) (f : State → State) (s : State) : State :=
  if !s.paired then
    match s.pair.parts.filter (fun p => p.cmd == cmd && p.fail.isNone) with
    | [] => f s
    | l => f (l.foldl State.markReplayed (s.pairUpd (fun x => { x with parts := x.parts.filter (fun y => !l.contains y) })))
  else
    match endedParts s (f s) with
    | [] => f s
    | l =>
      if s.rb rGlbPairStat 27 || l.any (fun e => s.liveParts.any (fun q => q.seq == e.1.seq && q.part == e.2.1)) then s
      else s.queueParts cmd none f

/-- A failure of work with a status, in one member of a pair: the parts that it ends wait for the compare in the same way (R626). `cmd` only names them. -/
def failGated (cmd : Instr) (st : BitVec 8) (f : State → State) (s : State) : State :=
  if !s.paired then f s
  else
    match endedParts s (f s) with
    | [] => f s
    | l =>
      if s.rb rGlbPairStat 27 || l.any (fun e => s.liveParts.any (fun q => q.seq == e.1.seq && q.part == e.2.1)) then s
      else s.queueParts cmd (some st) f

end Sys2Proof.Machine
end

