-- ==== Sys2Proof/Machine/Cp.lean ====
section
/-! DEFINITION. Sys2Proof/Machine/Cp.lean: constraint programs: the object checks, configurations and walks, end tokens and the
allowed set (R276 to R295). -/
namespace Sys2Proof.Machine
open Sys2Proof

/-! ### The object (R276 to R280) -/

def cBINDID (h : List Byte) : Word := BitVec.ofNat 32 (leAt h 32 4)
def cBINDDIGEST (h : List Byte) : BitVec 128 := BitVec.ofNat 128 (leAt h 36 16)
def cENDCOUNT (h : List Byte) : Nat := leAt h 53 1
def cSTATES (h : List Byte) : Nat := leAt h 56 4
def cINITIAL (h : List Byte) : Nat := leAt h 60 4
def cVEFF (h : List Byte) : Nat := leAt h 64 4
def cCERT (h : List Byte) : Nat := leAt h 68 4
def cUNITS (h : List Byte) : Nat := leAt h 72 4
def cCHECKID (h : List Byte) : Word := BitVec.ofNat 32 (leAt h 80 4)
def cCHECKDIGEST (h : List Byte) : BitVec 128 := BitVec.ofNat 128 (leAt h 84 16)

abbrev secStates : Nat := 0x40
abbrev secTrans : Nat := 0x41
abbrev secSpecial : Nat := 0x42
abbrev secMasks : Nat := 0x43
abbrev secEnd : Nat := 0x44

/-- A state record (R278). -/
structure CpState where
  transIdx : Nat
  maskOff : Nat
  specIdx : Nat
  flags : Nat
  specCount : Nat
  grow : Nat
deriving DecidableEq, Repr

/-- The record of state `q`. -/
def cpState (ss : List Sect) (q : Nat) : CpState :=
  let b := ((sectOf ss secStates).drop (16 * q)).take 16
  ⟨leAt b 0 4, leAt b 4 4, leAt b 8 4, leAt b 12 2, leAt b 14 1, leAt b 15 1⟩
def CpState.final (s : CpState) : Bool := s.flags.testBit 15
def CpState.accept (s : CpState) : Bool := s.flags.testBit 14
def CpState.check (s : CpState) : Bool := s.flags.testBit 13
def CpState.transCount (s : CpState) : Nat := s.flags % 512

/-- A transition or special edge (R279). -/
structure CpEdge where
  lo : Nat
  hi : Nat
  kind : Nat
  target : Nat
  retA : Nat
  last : Nat
deriving DecidableEq, Repr

/-- Entry `i` of TRANS or SPECIAL. -/
def cpEdge (sec : List Byte) (i : Nat) : CpEdge :=
  let b := (sec.drop (16 * i)).take 16
  ⟨leAt b 0 1, leAt b 1 1, leAt b 2 1, leAt b 4 4, leAt b 8 4, leAt b 12 4⟩

/-- The transitions of a state. -/
def cpTrans (ss : List Sect) (s : CpState) : List CpEdge :=
  (List.range s.transCount).map (fun i => cpEdge (sectOf ss secTrans) (s.transIdx + i))
/-- The special edges of a state. -/
def cpSpecs (ss : List Sect) (s : CpState) : List CpEdge :=
  (List.range s.specCount).map (fun i => cpEdge (sectOf ss secSpecial) (s.specIdx + i))
/-- The END tokens. -/
def cpEnds (h : List Byte) (ss : List Sect) : List Nat :=
  (List.range (cENDCOUNT h)).map (fun i => leAt (sectOf ss secEnd) (4 * i) 4)

/-- The classes that `runs` run words from byte `o` of MASKS give (R280); none when a word breaks the rules. -/
def maskRuns (sec : List Byte) : Nat → Nat → Option (List Nat)
  | 0, _ => some []
  | n + 1, o =>
    let w := leAt sec o 4
    let len := w % 2 ^ 22 + 1
    if sec.length < o + 4 || nf w 22 8 != 0 then none
    else if nf w 30 2 == 3 then
      let k := (len + 15) / 16
      let lits := leAt sec (o + 4) (4 * k)
      let cls := (List.range len).map (fun i => nf lits (2 * i) 2)
      if sec.length < o + 4 + 4 * k || cls.contains 3 || 2 ^ (2 * len) ≤ lits then none
      else (maskRuns sec n (o + 4 + 4 * k)).map (cls ++ ·)
    else (maskRuns sec n (o + 4)).map (List.replicate len (nf w 30 2) ++ ·)

/-- The classes of the record at `o`: 0 REJ, 1 ACC, 2 CD. -/
def maskClasses (sec : List Byte) (o : Nat) : List Nat := (maskRuns sec (leAt sec o 4) (o + 16)).getD []

/-- Does the record at `o` meet R280 for `veff` tokens? -/
def maskOk (sec : List Byte) (veff o : Nat) : Bool :=
  let runs := leAt sec o 4
  o % 4 == 0 && o + 16 ≤ sec.length && 1 ≤ runs && runs ≤ veff && zeroBytes sec (o + 12) (o + 16) &&
  (match maskRuns sec runs (o + 16) with
   | some l => l.length == veff && (l.filter (· == 2)).length == leAt sec (o + 4) 4 &&
      (l.filter (· == 1)).length == leAt sec (o + 8) 4
   | none => false)

/-- Does an edge meet R279? `special` for a special edge. -/
def edgeOk (sec : List Byte) (states i : Nat) (special : Bool) : Bool :=
  let e := cpEdge sec i
  zeroBytes sec (16 * i + 3) (16 * i + 4) && e.target < states && (if e.kind == 0 then e.retA == 0 else e.retA < states) &&
  (if special then e.lo == 0 && e.hi == 0 && e.kind ≤ 1
   else e.lo ≤ e.hi && e.kind ≤ 2 && (if e.kind == 2 then e.last < states else e.last == 0))

/-- Does state `q` meet R278, and R279 on the order of its edges? -/
def stateOk (h : List Byte) (ss : List Sect) (q : Nat) : Bool :=
  let s := cpState ss q
  let tr := sectOf ss secTrans
  let sp := sectOf ss secSpecial
  let ts := cpTrans ss s
  let es := cpSpecs ss s
  nf s.flags 9 4 == 0 && s.transCount ≤ 256 && (cCHECKID h != 0#32 || !s.check) &&
  16 * (s.transIdx + s.transCount) ≤ tr.length && 16 * (s.specIdx + s.specCount) ≤ sp.length &&
  (List.range (ts.length - 1)).all (fun i =>
    match ts[i]?, ts[i + 1]? with | some a, some b => a.hi < b.lo | _, _ => true) &&
  (List.range (es.length - 1)).all (fun i =>
    match es[i]?, es[i + 1]? with | some a, some b => a.last < b.last | _, _ => true) &&
  maskOk (sectOf ss secMasks) (cVEFF h) s.maskOff

/-- Does every entry of TRANS and SPECIAL meet R279 and R281, whether or not a state's range covers it? -/
def edgesOk (v : Voc) (h : List Byte) (ss : List Sect) : Bool :=
  let tr := sectOf ss secTrans
  let sp := sectOf ss secSpecial
  tr.length % 16 == 0 && sp.length % 16 == 0 &&
  (List.range (tr.length / 16)).all (fun i => edgeOk tr (cSTATES h) i false) &&
  (List.range (sp.length / 16)).all (fun i =>
    let e := cpEdge sp i
    edgeOk sp (cSTATES h) i true && v.live e.last && atSpecial (v.attr e.last) && !(cpEnds h ss).contains e.last)

/-- Does a CP meet R276 to R281 under its bound version `v`? -/
def cpOk (v : Voc) (h : List Byte) (ss : List Sect) : Bool :=
  let n := cSTATES h
  let types := ss.map (·.typ)
  let ends := cpEnds h ss
  let offs := ((List.range n).map (fun q => (cpState ss q).maskOff))
  leAt h 52 1 ≤ 1 && cENDCOUNT h ≤ 8 && zeroBytes h 55 56 && 1 ≤ n && n ≤ 16777215 && cINITIAL h < n &&
  1 ≤ cVEFF h && cVEFF h ≤ 4194304 && cVEFF h == v.size && 1000 ≤ cCERT h && 1 ≤ cUNITS h && zeroBytes h 100 128 &&
  (cCHECKID h != 0#32 || cCHECKDIGEST h == 0#128) && distinct types &&
  types.all (fun t => secStates ≤ t && t ≤ secEnd) && types.contains secStates && types.contains secMasks &&
  (cENDCOUNT h == 0 || types.contains secEnd) && 16 * n == (sectOf ss secStates).length &&
  4 * cENDCOUNT h == (sectOf ss secEnd).length && edgesOk v h ss && ends.all v.live && distinct ends &&
  (List.range n).all (stateOk h ss) &&
  leAt h 76 4 == (offs.map (fun o => leAt (sectOf ss secMasks) (o + 4) 4)).foldl max 0

/-! ### Configurations and the walk (R285 to R288) -/

/-- CP_STATE of the terminal configuration (R289). -/
abbrev cpTerminal : Nat := 0xFFFFFF

/-- A bound CP with its vocabulary. -/
structure CpEnv where
  voc : Voc
  hdr : List Byte
  sects : List Sect
  ends : List Nat
deriving DecidableEq, Repr

/-- A walk in progress or ended: state, stack with the top first, lowest depth reached, symbols consumed and pops. -/
structure Walk where
  q : Nat
  stk : List Frame
  low : Nat
  syms : Nat := 0
  pops : Nat := 0
deriving DecidableEq, Repr

/-- How a walk ends. -/
inductive WalkEnd where
  | ok
  | reject
  | overflow
deriving DecidableEq, Repr

/-- A grammar symbol (R286). -/
inductive Sym where
  | byte (b : Nat)
  | special (t : Nat)
deriving DecidableEq, Repr

/-- Grammar symbols of a token that is live and no END token (R286 orders 3 to 6). -/
def grammarSyms (v : Voc) (t : Nat) : List Sym :=
  let a := v.attr t
  if atSpecial a then [.special t]
  else if atControl a then []
  else if atByte a then [.byte (a % 256)]
  else
    let s := v.str t
    let rec unm : Nat → List Byte → List Byte
      | 0, l => l
      | f + 1, l =>
        match l with
        | [] => []
        | b :: r => if [0xE2#8, 0x96#8, 0x81#8].isPrefixOf l then 0x20#8 :: unm f (l.drop 3) else b :: unm f r
    let s := if hFlag v.hdr 5 || hFlag v.hdr 6 then unm s.length s else s
    let s := if hMODEL v.hdr == 4 && !atCont a then 0x20#8 :: s else s
    s.map (fun b => .byte b.toNat)

/-- The edge of a state for a symbol. -/
def cpMatch (ss : List Sect) (s : CpState) : Sym → Option CpEdge
  | .byte b => (cpTrans ss s).find? (fun e => e.lo ≤ b && b ≤ e.hi)
  | .special t => (cpSpecs ss s).find? (fun e => e.last == t)

/-- The walk of one symbol (R287); pushed frames carry `org` (R288). The fuel bounds the pops by the depth. -/
def walkSymbol (ss : List Sect) (org : Word) (sym : Sym) : Nat → Walk → Walk × WalkEnd
  | 0, w => (w, .reject)
  | f + 1, w =>
    let s := cpState ss w.q
    match cpMatch ss s sym with
    | some e =>
      let push := fun (r : Nat) (k : List Frame) => (⟨org, BitVec.ofNat 32 r⟩ : Frame) :: k
      let done := fun (k : List Frame) => ({ w with q := e.target, stk := k, syms := w.syms + 1 }, WalkEnd.ok)
      match e.kind with
      | 0 => done w.stk
      | 1 => if w.stk.length == 1024 then (w, .overflow) else done (push e.retA w.stk)
      | _ => if 1023 ≤ w.stk.length then (w, .overflow) else done (push e.last (push e.retA w.stk))
    | none =>
      match w.stk with
      | [] => (w, .reject)
      | fr :: rest =>
        if s.final then
          walkSymbol ss org sym f { w with q := fr.ret.toNat % 2 ^ 24, stk := rest, low := min w.low rest.length,
                                           pops := w.pops + 1 }
        else (w, .reject)

/-- The walk of symbols in order. -/
def walkSyms (ss : List Sect) (org : Word) : List Sym → Walk → Walk × WalkEnd
  | [], w => (w, .ok)
  | x :: t, w =>
    match walkSymbol ss org x (w.stk.length + 1) w with
    | (w', .ok) => walkSyms ss org t w'
    | r => r

/-- accept_end (R289): the answer and the pops made. -/
def acceptEnd (ss : List Sect) : Nat → Nat → List Frame → Nat → Bool × Nat
  | 0, _, _, n => (false, n)
  | f + 1, q, stk, n =>
    let s := cpState ss q
    if s.accept && stk.isEmpty then (true, n)
    else
      match stk with
      | [] => (false, n)
      | fr :: rest => if s.final then acceptEnd ss f (fr.ret.toNat % 2 ^ 24) rest (n + 1) else (false, n)

/-- A configuration: state and stack, top first. -/
structure CpConfig where
  q : Nat
  stk : List Frame
deriving DecidableEq, Repr

/-- The initial configuration (R274). -/
def CpEnv.initial (c : CpEnv) : CpConfig := ⟨cINITIAL c.hdr, []⟩

/-- The walk of a token that is no END token from a configuration (R287). -/
def CpEnv.walkToken (c : CpEnv) (g : CpConfig) (org t : Nat) : Walk × WalkEnd :=
  walkSyms c.sects (BitVec.ofNat 32 org) (grammarSyms c.voc t) ⟨g.q, g.stk, g.stk.length, 0, 0⟩

/-- The configuration after a committed token, and the lowest depth (R289, R292); none when the walk fails. -/
def CpEnv.commit (c : CpEnv) (g : CpConfig) (org t : Nat) : Option (CpConfig × Nat) :=
  if c.ends.contains t then some (⟨cpTerminal, []⟩, 0)
  else if g.q == cpTerminal then none
  else
    match c.walkToken g org t with
    | (w, .ok) => some (⟨w.q, w.stk⟩, w.low)
    | _ => none

/-- Check units of a commit walk, however it ends (R294). -/
def CpEnv.walkCost (c : CpEnv) (g : CpConfig) (org t : Nat) : Nat :=
  if c.ends.contains t || g.q == cpTerminal then 1
  else
    let (w, _) := c.walkToken g org t
    1 + w.syms + w.pops

/-- The configuration a rollback rebuilds from tokens (R293): the first token has history index `org`. -/
def CpEnv.rebuild (c : CpEnv) : CpConfig → Nat → List Nat → CpConfig
  | g, _, [] => g
  | g, org, t :: l =>
    match c.commit g org t with
    | some (g', _) => c.rebuild g' (org + 1) l
    | none => c.rebuild g (org + 1) l

/-! ### The allowed set (R290) -/

/-- What the custom check of a CP answers for a token (R287, R395). -/
inductive CheckRes where
  | allow
  | reject
  | fault (status : BitVec 8)
deriving DecidableEq, Repr

/-- A mask: offset of its class record, the two lists, whether an OVERFLOW excluded a live token, check units, and the status
of a fault of the check program. -/
structure MaskRes where
  record : Nat
  allow : List Nat := []
  exclude : List Nat := []
  ovf : Bool := false
  units : Nat := 0
  fault : Option (BitVec 8) := none
deriving DecidableEq, Repr

/-- Marker of a mask that has no class record (terminal configuration). -/
abbrev noRecord : Nat := 0xFFFFFFFF
/-- Marker of a mask that allows every live token. -/
abbrev allRecord : Nat := 0xFFFFFFFE

/-- Walk one CD token, or an ACC token under the depth rule: `acc` says which list a failure or success goes to. The check
program answers through `chk`, which may change the state of the block. -/
def maskToken {σ : Type} (c : CpEnv) (g : CpConfig) (org : Nat) (chk : σ → Nat → CpConfig → CheckRes × σ) (cost : Nat)
    (isAcc : Bool) (m : MaskRes) (s : σ) (t : Nat) : MaskRes × σ :=
  let (w, e) := c.walkToken g org t
  let m := { m with units := m.units + 1 + w.syms + w.pops }
  let no := fun (m : MaskRes) => if isAcc then { m with exclude := m.exclude ++ [t] } else m
  match e with
  | .overflow => ({ no m with ovf := true }, s)
  | .reject => (no m, s)
  | .ok =>
    let yes := if isAcc then m else { m with allow := m.allow ++ [t] }
    if (cpState c.sects g.q).check then
      match chk s t g with
      | (.allow, s) => ({ yes with units := yes.units + cost }, s)
      | (.reject, s) => ({ no m with units := m.units + cost }, s)
      | (.fault st, s) => ({ no m with units := m.units + cost, fault := m.fault.or (some st) }, s)
    else (yes, s)

/-- The mask of a configuration (R290, R302). `cost` is the check program's call budget (R294). -/
def CpEnv.mask {σ : Type} (c : CpEnv) (g : CpConfig) (org : Nat) (chk : σ → Nat → CpConfig → CheckRes × σ) (cost : Nat)
    (s : σ) : MaskRes × σ :=
  let ends := c.ends.filter c.voc.live
  if g.q == cpTerminal then ({ record := noRecord, allow := sortBy (· ≤ ·) ends }, s)
  else
    let st := cpState c.sects g.q
    let cls := maskClasses (sectOf c.sects secMasks) st.maskOff
    let (fin, pops) := acceptEnd c.sects (g.stk.length + 1) g.q g.stk 0
    let deep := 1024 < g.stk.length + 2 * st.grow
    let m : MaskRes := { record := st.maskOff, units := ends.length * (1 + pops) }
    (cls.zipIdx).foldl (fun (r : MaskRes × σ) x =>
      let (k, t) := x
      if !c.voc.live t then r
      else if ends.contains t then
        if fin then ({ r.1 with allow := r.1.allow ++ [t] }, r.2) else r
      else if k == 2 then maskToken c g org chk cost false r.1 r.2 t
      else if k == 1 && deep then maskToken c g org chk cost true r.1 r.2 t
      else r) (m, s)

/-- The tokens a mask allows, ascending (R302): ACC tokens less the exclude list, plus the allow list, among live ones. The class of an END
token has no effect (R289). -/
def maskAllowed (v : Voc) (masks : List Byte) (ends : List Nat) (m : MaskRes) : List Nat :=
  let cls := if m.record == noRecord || m.record == allRecord then [] else maskClasses masks m.record
  (List.range v.size).filter (fun t =>
    v.live t && (m.record == allRecord || m.allow.contains t || (cls.getD t 0 == 1 && !ends.contains t && !m.exclude.contains t)))

/-- Status of a step whose allowed set is empty (R291). -/
def emptyStatus (m : MaskRes) : BitVec 8 := if m.ovf then stStackOvf else stGrammarDead

end Sys2Proof.Machine
end

