-- ==== Sys2Proof/Machine/Scratch.lean ====
section
/-! DEFINITION. Sys2Proof/Machine/Scratch.lean: power domains in service, bank ownership, and which clusters take new work of a partition
(R407 to R413, R601). -/
namespace Sys2Proof.Machine
open Sys2Proof

/-! ### Domains in service (R601 to R605) -/

/-- Place of a domain's bit in the PWR_DOM_STAT registers: offset and bit; none for AON. -/
def domBit (d : Fin 73) : Option (Nat × Nat) :=
  if d.val < 64 then some (rPwrDomStat + 4 * (d.val / 32), d.val % 32)
  else if d.val < 68 then some (rPwrDomSysStat, d.val - 64)
  else
    match d.val with
    | 68 => some (rPwrDomSysStat, 7)
    | 69 => some (rPwrDomSysStat, 4)
    | 70 => some (rPwrDomSysStat, 5)
    | 71 => some (rPwrDomSysStat, 6)
    | _ => none
/-- In service. -/
def State.domOn (s : State) (d : Fin 73) : Bool := match domBit d with | some (o, i) => s.rb o i | none => true
/-- Is the cluster in service (R604)? -/
def State.cluOn (s : State) (c : Clu) : Bool := bit (s.reg64 rPwrDomStat) c
/-- Is the quad of a VGS bank in service? -/
def State.bankOn (s : State) (b : Nat) : Bool := s.rb rPwrDomSysStat (b / 8)

/-! ### Scratch banks (R407 to R409) -/

/-- Update a cluster's scratch. -/
def State.scrUpd (s : State) (c : Clu) (f : Scratch → Scratch) : State := { s with scratch := vset s.scratch c f }
/-- OWNER of a bank: a partition, 0x10 FREE, 0x1F HANDOVER. -/
def State.bankOwner (s : State) (c : Clu) (b : Nat) : Nat := s.rf (rCluBankOwn c b) 0 5
/-- Banks of a cluster that a partition owns. -/
def State.banksOf (s : State) (p : Part) (c : Clu) : Nat := ((List.range 16).filter (fun b => s.bankOwner c b == p.val)).length

/-- PRT_RA_CFG.BANKS as it acts, 1 to 8 (R307). -/
def State.raBanks (s : State) (p : Part) : Nat := max 1 (min 8 (s.rf (rPrtRaCfg p) 16 4))
/-- Does a cluster take new work of a partition: in service, its group the partition's, not quiescing, with PRT_RA_CFG.BANKS + 2 banks of the
partition's (R307, R409, R590)? -/
def State.takes (s : State) (p : Part) (c : Clu) : Bool :=
  bit (s.reg64 rGlbCluMap) c && s.groupOwner (cluGrp c) == some p && s.cluOn c && !s.quiet c.val &&
  s.raBanks p + 2 ≤ s.banksOf p c
/-- The clusters that take new work of a partition. -/
def State.workClusters (s : State) (p : Part) : List Clu := (List.finRange 64).filter (s.takes p)

/-! ### Written tags and poison marks of scratch lines (R413, R418) -/

/-- A line is written: its tag sets, and a write of all 64 bytes clears its poison mark. -/
def Scratch.write (x : Scratch) (line : Nat) (full : Bool) : Scratch :=
  { x with tags := natInsert x.tags line, poison := if full then x.poison.filter (· != line) else x.poison }
/-- A line is poisoned. -/
def Scratch.mark (x : Scratch) (line : Nat) : Scratch := { x with poison := natInsert x.poison line }

/-- Latch CLU_ECC_LAST (R424). -/
def State.eccLast (s : State) (c : Clu) (ue patrol : Bool) (line : Nat) : State :=
  if s.rb (rCluEccLast c) 31 then s
  else s.setReg (rCluEccLast c) (BitVec.ofNat 32 (2 ^ 31 + (if ue then 2 ^ 30 else 0) + (if patrol then 2 ^ 29 else 0) +
    line / 1024 * 2 ^ 20 + line % 1024 * 2 ^ 10))

/-- An error in a written line of scratch: a corrected one is counted, an uncorrectable one poisons the line (R417, R418, R421, R422). -/
def State.scratchError (s : State) (c : Clu) (line : Nat) (ue patrol : Bool) : State :=
  if ue then ((s.bump (rCluEccUeCnt c)).eccLast c true patrol line).scrUpd c (Scratch.mark · line)
  else ((s.bump (rCluEccCeCnt c)).eccLast c false patrol line).faultEvent 1 (c.val * 16 + line / 1024)

/-! ### The VGS (R220, R413, R416) -/

/-- Lines of a VGS bank (R221). -/
abbrev bankLines : Nat := 24576
/-- Has a VGS line been written: its tag is set? Tags are kept as runs of lines. -/
def Vgs.tagged (v : Vgs) (k : Nat) : Bool := v.tags.any (fun r => r.1 ≤ k && k < r.1 + r.2)
/-- A run of lines is written. -/
def Vgs.tag (v : Vgs) (k n : Nat) : Vgs := if v.tags.contains (k, n) then v else { v with tags := v.tags ++ [(k, n)] }
/-- A section with a piece in one of the banks that `hit` names is read from the backing as a whole (R220, R412, R522, R591). -/
def ObjVersion.unplace (v : ObjVersion) (hit : Nat → Bool) : ObjVersion :=
  { v with placed := v.placed.filter (fun x => !v.placed.any (fun y => y.1 == x.1 && hit y.2.1)) }
/-- The VGS without the content of the banks that `mine` names. -/
def Vgs.clear (v : Vgs) (mine : Nat → Bool) : Vgs :=
  { tags := v.tags.filter (fun r => !mine (r.1 / bankLines)), poison := v.poison.filter (fun k => !mine (k / bankLines)) }

end Sys2Proof.Machine
end

