-- ==== Sys2Proof/Machine/Sig.lean ====
section
/-! DEFINITION. Sys2Proof/Machine/Sig.lean: SHA-384 and ECDSA P-384 verification, as the boot ROM checks a firmware image
(R548), and the Philox-4x32-10 generator (R354). -/
namespace Sys2Proof.Machine
open Sys2Proof

/-- Round constants 0 to 15 of SHA-512. -/
def shaK0 : List DWord :=
  [0x428A2F98D728AE22#64, 0x7137449123EF65CD#64, 0xB5C0FBCFEC4D3B2F#64, 0xE9B5DBA58189DBBC#64, 0x3956C25BF348B538#64, 0x59F111F1B605D019#64, 0x923F82A4AF194F9B#64, 0xAB1C5ED5DA6D8118#64, 0xD807AA98A3030242#64, 0x12835B0145706FBE#64, 0x243185BE4EE4B28C#64, 0x550C7DC3D5FFB4E2#64, 0x72BE5D74F27B896F#64, 0x80DEB1FE3B1696B1#64, 0x9BDC06A725C71235#64, 0xC19BF174CF692694#64]
/-- Round constants 16 to 31 of SHA-512. -/
def shaK1 : List DWord :=
  [0xE49B69C19EF14AD2#64, 0xEFBE4786384F25E3#64, 0x0FC19DC68B8CD5B5#64, 0x240CA1CC77AC9C65#64, 0x2DE92C6F592B0275#64, 0x4A7484AA6EA6E483#64, 0x5CB0A9DCBD41FBD4#64, 0x76F988DA831153B5#64, 0x983E5152EE66DFAB#64, 0xA831C66D2DB43210#64, 0xB00327C898FB213F#64, 0xBF597FC7BEEF0EE4#64, 0xC6E00BF33DA88FC2#64, 0xD5A79147930AA725#64, 0x06CA6351E003826F#64, 0x142929670A0E6E70#64]
/-- Round constants 32 to 47 of SHA-512. -/
def shaK2 : List DWord :=
  [0x27B70A8546D22FFC#64, 0x2E1B21385C26C926#64, 0x4D2C6DFC5AC42AED#64, 0x53380D139D95B3DF#64, 0x650A73548BAF63DE#64, 0x766A0ABB3C77B2A8#64, 0x81C2C92E47EDAEE6#64, 0x92722C851482353B#64, 0xA2BFE8A14CF10364#64, 0xA81A664BBC423001#64, 0xC24B8B70D0F89791#64, 0xC76C51A30654BE30#64, 0xD192E819D6EF5218#64, 0xD69906245565A910#64, 0xF40E35855771202A#64, 0x106AA07032BBD1B8#64]
/-- Round constants 48 to 63 of SHA-512. -/
def shaK3 : List DWord :=
  [0x19A4C116B8D2D0C8#64, 0x1E376C085141AB53#64, 0x2748774CDF8EEB99#64, 0x34B0BCB5E19B48A8#64, 0x391C0CB3C5C95A63#64, 0x4ED8AA4AE3418ACB#64, 0x5B9CCA4F7763E373#64, 0x682E6FF3D6B2B8A3#64, 0x748F82EE5DEFB2FC#64, 0x78A5636F43172F60#64, 0x84C87814A1F0AB72#64, 0x8CC702081A6439EC#64, 0x90BEFFFA23631E28#64, 0xA4506CEBDE82BDE9#64, 0xBEF9A3F7B2C67915#64, 0xC67178F2E372532B#64]
/-- Round constants 64 to 79 of SHA-512. -/
def shaK4 : List DWord :=
  [0xCA273ECEEA26619C#64, 0xD186B8C721C0C207#64, 0xEADA7DD6CDE0EB1E#64, 0xF57D4F7FEE6ED178#64, 0x06F067AA72176FBA#64, 0x0A637DC5A2C898A6#64, 0x113F9804BEF90DAE#64, 0x1B710B35131C471B#64, 0x28DB77F523047D84#64, 0x32CAAB7B40C72493#64, 0x3C9EBE0A15C9BEBC#64, 0x431D67C49C100D4C#64, 0x4CC5D4BECB3E42B6#64, 0x597F299CFC657E2A#64, 0x5FCB6FAB3AD6FAEC#64, 0x6C44198C4A475817#64]
/-- The round constants. -/
def shaK : List DWord := shaK0 ++ shaK1 ++ shaK2 ++ shaK3 ++ shaK4
/-- The initial hash words of SHA-384. -/
def sha384Iv : List DWord :=
  [0xCBBB9D5DC1059ED8#64, 0x629A292A367CD507#64, 0x9159015A3070DD17#64, 0x152FECD8F70E5939#64, 0x67332667FFC00B31#64, 0x8EB44A8768581511#64, 0xDB0C2E0D64F98FA7#64, 0x47B5481DBEFA4FA4#64]

/-- The message schedule: `n` words still to make, newest first. -/
def shaSched : Nat → List DWord → List DWord
  | 0, ws => ws
  | n + 1, ws =>
    let a := ws.getD 14 0#64
    let b := ws.getD 1 0#64
    let s0 := a.rotateRight 1 ^^^ a.rotateRight 8 ^^^ (a >>> 7)
    let s1 := b.rotateRight 19 ^^^ b.rotateRight 61 ^^^ (b >>> 6)
    shaSched n ((ws.getD 15 0#64 + s0 + ws.getD 6 0#64 + s1) :: ws)

/-- One round on the working words a to h. -/
def shaRound (v : List DWord) (kw : DWord × DWord) : List DWord :=
  match v with
  | [a, b, c, d, e, f, g, h] =>
    let s1 := e.rotateRight 14 ^^^ e.rotateRight 18 ^^^ e.rotateRight 41
    let ch := (e &&& f) ^^^ (~~~e &&& g)
    let t1 := h + s1 + ch + kw.1 + kw.2
    let s0 := a.rotateRight 28 ^^^ a.rotateRight 34 ^^^ a.rotateRight 39
    let mj := (a &&& b) ^^^ (a &&& c) ^^^ (b &&& c)
    [t1 + s0 + mj, a, b, c, d + t1, e, f, g]
  | _ => v

/-- One block of 128 bytes. -/
def shaBlock (h : List DWord) (b : List Byte) : List DWord :=
  let w := (shaSched 64 ((List.range 16).map (fun i => BitVec.ofNat 64 (beNat ((b.drop (8 * i)).take 8)))).reverse).reverse
  List.zipWith (· + ·) h ((shaK.zip w).foldl shaRound h)

/-- SHA-384 of a byte list. -/
def sha384 (bs : List Byte) : List Byte :=
  let z := (239 - bs.length % 128) % 128
  let m := bs ++ [0x80#8] ++ List.replicate z 0#8 ++ beBytes 16 (8 * bs.length)
  let h := (List.range (m.length / 128)).foldl (fun h i => shaBlock h ((m.drop (128 * i)).take 128)) sha384Iv
  (h.take 6).flatMap (fun w => beBytes 8 w.toNat)

/-- The field prime, the group order, the coefficient b and the base point of P-384. -/
def p384P : Nat := 0xFFFFFFFFFFFFFFFFFFFFFFFFFFFFFFFFFFFFFFFFFFFFFFFFFFFFFFFFFFFFFFFEFFFFFFFF0000000000000000FFFFFFFF
def p384N : Nat := 0xFFFFFFFFFFFFFFFFFFFFFFFFFFFFFFFFFFFFFFFFFFFFFFFFC7634D81F4372DDF581A0DB248B0A77AECEC196ACCC52973
def p384B : Nat := 0xB3312FA7E23EE7E4988E056BE3F82D19181D9C6EFE8141120314088F5013875AC656398D8A2ED19D2A85C8EDD3EC2AEF
def p384G : Nat × Nat := (0xAA87CA22BE8B05378EB1C71EF320AD746E1D3B628BA79B9859F741E082542A385502F25DBF55296C3A545E3872760AB7, 0x3617DE4A96262C6F5D9E98BF9292DC29F8F41DBD289A147CE9DA3113B5F0B8C00A60B1CE1D7E819D7A431D7C90EA0E5F)

/-- b ^ e mod m by `n` squarings. -/
def powModAux (m : Nat) : Nat → Nat → Nat → Nat → Nat
  | 0, _, _, acc => acc
  | n + 1, b, e, acc => powModAux m n (b * b % m) (e / 2) (if e % 2 == 1 then acc * b % m else acc)
/-- b ^ e mod m for 384-bit exponents. -/
def powMod (m b e : Nat) : Nat := powModAux m 384 (b % m) e 1
/-- Inverse modulo a prime. -/
def invMod (m a : Nat) : Nat := powMod m a (m - 2)

/-- A point in Jacobian coordinates; z = 0 is the point at infinity. -/
structure JPoint where
  x : Nat
  y : Nat
  z : Nat

/-- a − b in the field. -/
def fSub (a b : Nat) : Nat := (a + p384P - b % p384P) % p384P

/-- Doubling (the coefficient a is −3). -/
def jDouble (q : JPoint) : JPoint :=
  if q.z == 0 || q.y == 0 then ⟨1, 1, 0⟩
  else
    let zz := q.z * q.z % p384P
    let m := 3 * fSub q.x zz * ((q.x + zz) % p384P) % p384P
    let yy := q.y * q.y % p384P
    let s := 4 * q.x * yy % p384P
    let x := fSub (m * m) (2 * s)
    ⟨x, fSub (m * fSub s x) (8 * yy * yy), 2 * q.y * q.z % p384P⟩

/-- Addition. -/
def jAdd (a b : JPoint) : JPoint :=
  if a.z == 0 then b else if b.z == 0 then a
  else
    let z1 := a.z * a.z % p384P
    let z2 := b.z * b.z % p384P
    let u1 := a.x * z2 % p384P
    let u2 := b.x * z1 % p384P
    let s1 := a.y * z2 % p384P * b.z % p384P
    let s2 := b.y * z1 % p384P * a.z % p384P
    if u1 == u2 then (if s1 == s2 then jDouble a else ⟨1, 1, 0⟩)
    else
      let h := fSub u2 u1
      let r := fSub s2 s1
      let hh := h * h % p384P
      let hhh := h * hh % p384P
      let v := u1 * hh % p384P
      let x := fSub (fSub (r * r) hhh) (2 * v)
      ⟨x, fSub (r * fSub v x) (s1 * hhh), h * a.z % p384P * b.z % p384P⟩

/-- Scalar multiplication, `n` bits of `k`. -/
def jMul : Nat → Nat → JPoint → JPoint → JPoint
  | 0, _, _, acc => acc
  | n + 1, k, q, acc => jMul n (k / 2) (jDouble q) (if k % 2 == 1 then jAdd acc q else acc)

/-- Verify an ECDSA P-384 signature (r, s) of a message under the public key (x, y). -/
def ecdsaVerify (x y r s : Nat) (msg : List Byte) : Bool :=
  let onCurve := x < p384P && y < p384P && y * y % p384P == fSub (x * x * x + p384B) (3 * x)
  if !onCurve || r == 0 || p384N ≤ r || s == 0 || p384N ≤ s then false
  else
    let e := beNat (sha384 msg)
    let w := invMod p384N s
    let q := jAdd (jMul 384 (e * w % p384N) ⟨p384G.1, p384G.2, 1⟩ ⟨1, 1, 0⟩) (jMul 384 (r * w % p384N) ⟨x, y, 1⟩ ⟨1, 1, 0⟩)
    if q.z == 0 then false
    else
      let zi := invMod p384P q.z
      (q.x * (zi * zi % p384P) % p384P) % p384N == r

/-- One Philox-4x32 round. -/
def philoxRound (k0 k1 : Nat) (c : List Nat) : List Nat :=
  let p0 := 0xD2511F53 * c.getD 0 0
  let p1 := 0xCD9E8D57 * c.getD 2 0
  [(p1 / 2 ^ 32) ^^^ c.getD 1 0 ^^^ k0, p1 % 2 ^ 32, (p0 / 2 ^ 32) ^^^ c.getD 3 0 ^^^ k1, p0 % 2 ^ 32]

/-- Philox-4x32 rounds with the key bumped between them. -/
def philoxRounds : Nat → Nat → Nat → List Nat → List Nat
  | 0, _, _, c => c
  | n + 1, k0, k1, c =>
    philoxRounds n ((k0 + 0x9E3779B9) % 2 ^ 32) ((k1 + 0xBB67AE85) % 2 ^ 32) (philoxRound k0 k1 c)

/-- Philox-4x32-10 of a counter of four words under a 64-bit key (R354). -/
def philox (key : DWord) (c : List Nat) : List Nat := philoxRounds 10 (fld key 0 32) (fld key 32 32) c

end Sys2Proof.Machine
end

