-- ==== Sys2Proof/Machine/BeadMem.lean ====
section
/-! DEFINITION. Sys2Proof/Machine/BeadMem.lean: what a bead thread's call sees: program objects, registers, windows, metering and
the faults of a call (R368 to R374, R383, R385, R391 to R395). -/
namespace Sys2Proof.Machine
open Sys2Proof

/-! ### Program objects (R391) -/

def bROLE (h : List Byte) : Nat := leAt h 32 1
/-- Slices per piece. -/
def bSPLIT (h : List Byte) : Nat := 2 ^ leAt h 33 1
def bENTRY (h : List Byte) : Nat := leAt h 36 4
def bCYCLES (h : List Byte) : Nat := leAt h 40 4
def bUNITS (h : List Byte) : Nat := leAt h 44 4
def bWORK (h : List Byte) : Nat := leAt h 48 4
def bBINDID (h : List Byte) : Word := BitVec.ofNat 32 (leAt h 52 4)
def bBINDDIGEST (h : List Byte) : BitVec 128 := BitVec.ofNat 128 (leAt h 56 16)

abbrev secCode : Nat := 0x50
abbrev secData : Nat := 0x51

/-- What a call's program and binding give it. -/
structure BEnv where
  id     : Word
  hdr    : List Byte
  code   : List Byte
  data   : List Byte
  voc    : Option Voc
  /-- An overlay set is bound. -/
  set    : Bool
deriving DecidableEq, Repr

/-- The environment of a bound program version. -/
def State.benv (s : State) (p : Part) (b : Bound) : Option BEnv :=
  (s.version? p b).map (fun v =>
    let set := (leAt v.hdr 72 1).testBit 0
    let voc := match v.binds.head? with
      | none => none
      | some x =>
        if set then
          match s.version? p x with
          | some w => (w.binds.head?).bind (fun base => s.voc p base (some x))
          | none => none
        else s.voc p x none
    ⟨v.id, v.hdr, sectOf v.sects secCode, sectOf v.sects secData, voc, set⟩)

/-! ### Registers (R368) -/

/-- A scalar register; x0 reads as 0. -/
def BeadThread.rx (t : BeadThread) (r : BitVec 5) : DWord := if r == 0#5 then 0#64 else t.x[r.toFin]
/-- Write a scalar register; x0 ignores writes. -/
def BeadThread.wx (t : BeadThread) (r : BitVec 5) (w : DWord) : BeadThread :=
  if r == 0#5 then t else { t with x := t.x.set r.toFin w }
/-- A vector register. -/
def BeadThread.rv (t : BeadThread) (r : BitVec 4) : Line := t.v[r.toFin]
/-- Write a vector register. -/
def BeadThread.wv (t : BeadThread) (r : BitVec 4) (w : Line) : BeadThread := { t with v := t.v.set r.toFin w }
/-- A mask register; k0 reads as all ones. -/
def BeadThread.rk (t : BeadThread) (r : BitVec 3) : DWord := if r == 0#3 then BitVec.allOnes 64 else t.k[r.toFin]
/-- Write a mask register; k0 ignores writes. -/
def BeadThread.wk (t : BeadThread) (r : BitVec 3) (w : DWord) : BeadThread :=
  if r == 0#3 then t else { t with k := t.k.set r.toFin w }
/-- A fresh number the spec does not state: equal inputs of a call give equal ones (R369). -/
def BeadThread.free (t : BeadThread) : Nat × BeadThread :=
  (Config.freeCall (t.seed.toNat :: t.inArgs) t.inMem t.fc, { t with fc := t.fc + 1 })

/-- Word lane `i` of a line. -/
def lane (l : Line) (i : Nat) : Word := l.extractLsb' (32 * i) 32
/-- A line from its word lanes. -/
def ofLanes (f : Nat → Word) : Line := (List.range 16).foldl (fun a i => a ||| ((f i).zeroExtend 512 <<< (32 * i))) 0#512

/-! ### Faults (R394) -/

abbrev bfILLEGAL : Nat := 1
abbrev bfALIGN : Nat := 2
abbrev bfWINDOW : Nat := 3
abbrev bfBUDGET : Nat := 4
abbrev bfTRAP : Nat := 5
abbrev bfCONTRACT : Nat := 6
abbrev bfUNINIT : Nat := 7
abbrev bfPOISON : Nat := 8

/-- The status a fault gives the op. -/
def faultStatus : Nat → BitVec 8
  | 3 => stPermDenied
  | 4 => stDeadline
  | 7 => stUninit
  | 8 => stPoison
  | _ => stBadEntry

/-- A fault: its cause, EXIT or TRAP code, and thread address. -/
structure BFault where
  cause : Nat
  code : Nat := 0
  addr : DWord := 0#64
deriving DecidableEq, Repr

/-- How an instruction ends. -/
inductive BRes where
  | ok (t : BeadThread) (cost : Nat)
  | fault (f : BFault)
  | exit (t : BeadThread) (code : BitVec 5)
  /-- It waits for a GET: one with this tag, or any. -/
  | stall (tag : Option (Fin 4))
deriving DecidableEq, Repr

/-! ### Windows (R371) -/

/-- A window, with the offset of an address in it. -/
inductive Win where
  | loc (o : Nat)
  | call (o : Nat) (part : CallPart)
  | work (o : Nat)
  | obj (o : Nat)
  | voc (bytes : List Byte) (o : Nat)
  | mem (a : Nat)
deriving DecidableEq, Repr

/-- The bytes of VOCAB window section `typ`, from offset `o` of its 4 GiB: the bytes and the offset in them. -/
def vocabWin (e : BEnv) (typ o : Nat) : Option (List Byte × Nat) :=
  match e.voc with
  | none => none
  | some v =>
    if typ == 0xF then
      (if e.set then
        (if o < 2 ^ 31 then some (sectOf v.sects secMerges, o) else some (sectOf v.sects secTrie, o - 2 ^ 31))
       else none)
    else (sect? v.base typ).map (fun b => (b, o))

/-- May the call read [a, a + n) of chip memory, under the ranges that its work binds (R521)? -/
def BeadThread.memOk (t : BeadThread) (a n : Nat) : Bool := rangesCover t.rng a n false

/-- The window that holds all of [a, a + n); none: a WINDOW fault. `wr` for a write. -/
def findWin (e : BEnv) (t : BeadThread) (a : DWord) (n : Nat) (wr : Bool) : Option Win :=
  let x := a.toNat
  if a.getLsbD 63 then
    (if !wr && t.memOk (x % 2 ^ 63) n then some (.mem (x % 2 ^ 63)) else none)
  else if x + n ≤ 0x1000 then some (.loc x)
  else if 0x01000000 ≤ x && x < 0x02000000 then
    let o := x - 0x01000000
    match t.parts.find? (fun p => p.off ≤ o && o + n ≤ p.off + p.len) with
    | some p => if wr && !p.wr then none else some (.call o p)
    | none => none
  else if 0x02000000 ≤ x && x + n ≤ 0x02000000 + bWORK e.hdr then some (.work (x - 0x02000000))
  else if wr then none
  else if 0x10000000 ≤ x && x + n ≤ 0x10000000 + e.data.length then some (.obj (x - 0x10000000))
  else if 0x200000000 ≤ x then
    let y := x - 0x200000000
    match vocabWin e (y / 2 ^ 32) (y % 2 ^ 32) with
    | some (b, o) => if o + n ≤ b.length then some (.voc b o) else none
    | none => none
  else none

/-! ### Where the lines of OBJ and VOCAB lie (R220, R371, R419) -/

/-- The VGS line that holds line `k` of a section whose placed pieces are given; none: the section is not placed. -/
def placedLine : List (Nat × Nat × Nat × Nat) → Nat → Option Nat
  | [], _ => none
  | (_, b, l, n) :: r, k => if k < n then some (b * bankLines + l + k) else placedLine r (k - n)
/-- The placed pieces of a section of a version, in order. -/
def ObjVersion.pieces (v : ObjVersion) (sect : Nat) : List (Nat × Nat × Nat × Nat) := v.placed.filter (fun x => x.1 == sect)

/-- The version and section that an address of OBJ or VOCAB lies in, and the offset there. -/
def State.winSect (s : State) (e : BEnv) (t : BeadThread) (a : Nat) : Option (ObjVersion × Nat × Nat) :=
  let at_ := fun (w : ObjVersion) (typ o : Nat) => (w.sects.findIdx? (fun x => x.typ == typ)).map (fun i => (w, i, o))
  (t.prog.bind (s.version? t.part)).bind (fun v =>
    if 0x10000000 ≤ a && a < 0x200000000 then at_ v secData (a - 0x10000000)
    else if 0x200000000 ≤ a && a < 2 ^ 63 then
      let typ := (a - 0x200000000) / 2 ^ 32
      let o := (a - 0x200000000) % 2 ^ 32
      (v.binds.head?.bind (s.version? t.part)).bind (fun w =>
        if typ == 0xF then
          (if !e.set then none else if o < 2 ^ 31 then at_ w secMerges o else at_ w secTrie (o - 2 ^ 31))
        else (if e.set then w.binds.head?.bind (s.version? t.part) else some w).bind (fun b => at_ b typ o))
    else none)

/-- Lines of [a, a + n) of OBJ or VOCAB that a read takes from the backing, because the section is not placed. -/
def State.linesMissed (s : State) (e : BEnv) (t : BeadThread) (a n : Nat) : Nat :=
  match s.winSect e t a with
  | some (v, i, o) => if (v.pieces i).isEmpty then (o + n + 63) / 64 - o / 64 else 0
  | none => 0
/-- The line of OBJ or VOCAB at an address is a poisoned VGS line. -/
def State.linePoisoned (s : State) (e : BEnv) (t : BeadThread) (a : Nat) : Bool :=
  match s.winSect e t a with
  | some (v, i, o) => (match placedLine (v.pieces i) (o / 64) with | some l => s.vgs.poison.contains l | none => false)
  | none => false
/-- The section at an address of OBJ or VOCAB holds a poisoned VGS line. -/
def State.sectPoisoned (s : State) (e : BEnv) (t : BeadThread) (a : Nat) : Bool :=
  match s.winSect e t a with
  | some (v, i, _) => (v.pieces i).any (fun x => (List.range x.2.2.2).any (fun k => s.vgs.poison.contains (x.2.1 * bankLines + x.2.2.1 + k)))
  | none => false

/-- Lines of WORK that [o, o + n) touches. -/
def linesOf (o n : Nat) : List Nat := (List.range ((o + n + 63) / 64 - o / 64)).map (fun i => o / 64 + i)

/-- The bytes [a, a + n) that a GET brings, from OBJ, VOCAB or MEM. -/
def winBytes (s : State) (e : BEnv) (w : Win) (n : Nat) : List Byte :=
  match w with
  | .obj o => (e.data.drop o).take n
  | .voc b o => (b.drop o).take n
  | .mem a => s.rdBytes a n
  | _ => []

/-- Write bytes into WORK, with their written tags and poison marks (R373, R413, R418). -/
def BeadThread.putWork (t : BeadThread) (o : Nat) (bs : List Byte) : BeadThread :=
  let ls := linesOf o bs.length
  { t with
    work := cellWrite 0#8 t.work o bs
    workTags := ls.foldl natInsert t.workTags
    poison := t.poison.filter (fun l => !(o ≤ 64 * l && 64 * l + 64 ≤ o + bs.length)) }

/-- Bytes of WORK as a GET in flight leaves them to be read: old or new, a free value choosing (R385). -/
def BeadThread.getsOver (s : State) (e : BEnv) (t : BeadThread) (o n : Nat) : BeadThread × List Byte :=
  let old := cellRead 0#8 t.work o n
  t.gets.foldl (fun (r : BeadThread × List Byte) g =>
    if g.dst < o + n && o < g.dst + g.len then
      match findWin e t (BitVec.ofNat 64 g.src) g.len false with
      | some w =>
        let (k, t') := r.1.free
        if k % 2 == 0 then r
        else
          let new := winBytes s e w g.len
          (t', r.2.mapIdx (fun i b => if g.dst ≤ o + i && o + i < g.dst + g.len then new.getD (o + i - g.dst) 0#8 else b))
      | none => r
    else r) (t, old)

/-- A load from OBJ or VOCAB: a poisoned VGS line is a POISON fault (R394, R419), a line of an unplaced section a read of the backing (R220). -/
def bLine (s : State) (e : BEnv) (t : BeadThread) (a : DWord) (n : Nat) (bs : List Byte) : Except BFault (List Byte × BeadThread × Nat) :=
  if s.linePoisoned e t a.toNat then .error ⟨bfPOISON, 0, a⟩
  else .ok (bs, { t with miss := t.miss + s.linesMissed e t a.toNat n }, 8)

/-- A load of `n` bytes: the bytes, with the count it adds (R371, R373, R383, R414, R418). The window is looked up first, then
the alignment to `n` is checked. -/
def bLoad (s : State) (e : BEnv) (t : BeadThread) (a : DWord) (n : Nat) : Except BFault (List Byte × BeadThread × Nat) :=
  match findWin e t a n false with
  | none => .error ⟨bfWINDOW, 0, a⟩
  | some w =>
    if a.toNat % n != 0 then .error ⟨bfALIGN, 0, a⟩
    else
      match w with
      | .loc o => .ok (cellRead 0#8 t.local4k o n, t, 0)
      | .call o _ => .ok (cellRead 0#8 t.callMem o n, t, 0)
      | .work o =>
        let l := o / 64
        if t.poison.contains l then .error ⟨bfPOISON, 0, a⟩
        else
          let ovr := t.gets.any (fun g => g.dst < o + n && o < g.dst + g.len)
          if !t.workTags.contains l && !ovr then
            (if t.strict then .error ⟨bfUNINIT, 0, a⟩
             else .ok (List.replicate n 0#8, { t with uninit := t.uninit + 1 }, 0))
          else
            let (t, bs) := t.getsOver s e o n
            .ok (bs, t, 0)
      | .obj _ => bLine s e t a n (winBytes s e w n)
      | .voc _ _ => bLine s e t a n (winBytes s e w n)
      | .mem _ => .ok (winBytes s e w n, t, 32)

/-- A store of bytes. -/
def bStore (e : BEnv) (t : BeadThread) (a : DWord) (bs : List Byte) : Except BFault BeadThread :=
  match findWin e t a bs.length true with
  | none => .error ⟨bfWINDOW, 0, a⟩
  | some w =>
    if a.toNat % bs.length != 0 then .error ⟨bfALIGN, 0, a⟩
    else
      match w with
      | .loc o => .ok { t with local4k := cellWrite 0#8 t.local4k o bs }
      | .call o _ => .ok { t with callMem := cellWrite 0#8 t.callMem o bs }
      | .work o => .ok (t.putWork o bs)
      | _ => .error ⟨bfWINDOW, 0, a⟩

/-- The bytes from a trie or DFA base to the end of its section: a base lies in OBJ or VOCAB (R378). -/
def baseBytes (e : BEnv) (t : BeadThread) (a : Nat) : Option (List Byte) :=
  match findWin e t (BitVec.ofNat 64 a) 1 false with
  | some (.obj o) => some (e.data.drop o)
  | some (.voc b o) => some (b.drop o)
  | _ => none

/-- The trie base at a call's entry (R378). -/
def entryTrie (e : BEnv) : Option Nat :=
  match e.voc with
  | none => none
  | some v => if e.set then some (0x200000000 + 0xF * 2 ^ 32 + 2 ^ 31)
    else if (sect? v.base secTrie).isSome then some (0x200000000 + secTrie * 2 ^ 32) else none

/-! ### Undefined words and unused fields (R375, R376, R379, R392) -/

/-- The fields of an instruction word that its operation uses, as a bit mask, MAJOR and FN included; none for an undefined MAJOR
or FN. A field used in part counts whole (DEDUCED, log entry 22). -/
def wordBits (w : Word) : Option Nat :=
  let maj := fld w 26 6
  let fn := fld w 0 11
  let top := 0xFC000000
  let d := 0x03E00000
  let a := 0x001F0000
  let b := 0x0000F800
  let fnm := 0x7FF
  let v4 := 0x03C00000 + 0x003C0000
  let kk := 0x3800
  match maj with
  | 0x01 => if fn ≤ 18 then some (top + d + a + b + fnm) else if fn ≤ 21 then some (top + d + a + fnm) else none
  | 0x0A | 0x1E => some (top + d + 0x1FFFFF)
  | 0x0B => if fn ≤ 7 then some (top + d + a + b + fnm) else if fn ≤ 9 then some (top + d + a + fnm) else none
  | 0x1F => if fn == 0 then some (top + d + a + fnm) else none
  | 0x20 =>
    if fn ≤ 13 || fn == 18 then some (top + v4 + 0x3C000 + kk + fnm)
    else if fn ≤ 17 then some (top + v4 + kk + fnm) else none
  | 0x21 => if fn ≤ 6 then some (top + 0x01C00000 + 0x003C0000 + 0x3C000 + kk + fnm) else none
  | 0x22 | 0x23 => some 0xFFFFFFFF
  | 0x24 =>
    let x := top + fnm
    match fld w 8 3, fld w 0 8 with
    | 0, 0 | 0, 3 | 1, 0 | 1, 1 | 2, 0 => some (x + d + a + b)
    | 0, 1 | 0, 2 | 2, 1 | 2, 2 | 2, 3 => some (x + d + a)
    | 0, 4 | 0, 5 => some (x + a)
    | 3, 0 | 4, 0 | 4, 1 | 4, 2 | 4, 3 => some (x + d + a + b)
    | 4, 4 | 4, 5 | 5, 1 => some (x + d + a)
    | 4, 6 => some (x + d + a + b)
    | 4, 7 => some (x + d + a + b)
    | 5, 0 => some (x + d + a + b)
    | 5, 2 | 5, 3 => some (x + d + a + b)
    | _, _ => none
  | 0x25 => if fn == 0 then some (top + d + a + b + fnm) else if fn == 1 then some (top + a + fnm) else none
  | 0x3F =>
    let x := top + fnm
    match fn with
    | 0 | 4 => some x
    | 1 | 2 => some (x + b)
    | 3 | 5 => some (x + d + a)
    | 6 => some (x + d + a + b)
    | 7 => some (x + d + a)
    | 8 => some (x + d + a)
    | 9 | 10 | 11 => some (x + d + a + b)
    | _ => none
  | _ =>
    if 2 ≤ maj && maj ≤ 9 || 0x10 ≤ maj && maj ≤ 0x1D then some 0xFFFFFFFF else none

/-- A word that a program may hold: defined, and the fields its operation does not use are zero. -/
def wordOk (w : Word) : Bool :=
  match wordBits w with
  | none => false
  | some m => (w &&& ~~~(BitVec.ofNat 32 m)) == 0#32

/-- Signed value of a field. -/
def sgn (len x : Nat) : Int := (BitVec.ofNat len x).toInt

/-- The target of a J-format word or a JAL at byte offset `pc`. -/
def jumpTarget (w : Word) (pc : Nat) : Option Int :=
  let maj := fld w 26 6
  if 0x18 ≤ maj && maj ≤ 0x1D then some ((pc : Int) + 4 * sgn 16 (fld w 0 16))
  else if maj == 0x1E then some ((pc : Int) + 4 * sgn 21 (fld w 0 21))
  else none

/-- The word of CODE at byte offset `pc`. -/
def codeWord (code : List Byte) (pc : Nat) : Word := BitVec.ofNat 32 (leAt code pc 4)

/-- Does a bead program object meet R391 and R392, the binding apart? -/
def beadOk (h : List Byte) (ss : List Sect) : Bool :=
  let role := bROLE h
  let code := sectOf ss secCode
  let n := code.length
  let types := ss.map (·.typ)
  let noBind := bBINDID h == 0#32
  1 ≤ role && role ≤ 4 && leAt h 33 1 ≤ 3 && (role == 3 || leAt h 33 1 == 0) && zeroBytes h 34 36 &&
  bENTRY h % 4 == 0 && 64 ≤ bCYCLES h && bCYCLES h ≤ 1048576 && (if role == 4 then 1 ≤ bUNITS h else bUNITS h == 0) &&
  bWORK h ≤ 16384 && bWORK h % 64 == 0 && (role == 3 || !noBind) && (!noBind || bBINDDIGEST h == 0#128) &&
  leAt h 72 1 ≤ 1 && zeroBytes h 73 128 && distinct types && types.all (fun t => t == secCode || t == secData) &&
  types.contains secCode && 4 ≤ n && n ≤ 65536 && n % 4 == 0 && (sectOf ss secData).length ≤ 16777216 && bENTRY h < n &&
  (List.range (n / 4)).all (fun i =>
    let w := codeWord code (4 * i)
    wordOk w && (match jumpTarget w (4 * i) with | some x => 0 ≤ x && x < n | none => true) &&
      (role == 3 || !(fld w 26 6 == 0x3F && fld w 0 11 == 3)))

end Sys2Proof.Machine
end

