-- ==== Sys2Proof/Machine/BeadOps.lean ====
section
/-! DEFINITION. Sys2Proof/Machine/BeadOps.lean: what each bead instruction does to its thread, by class and FN, and the decoder of
instruction words (R368 to R382, R385, R388). -/
namespace Sys2Proof.Machine
open Sys2Proof

/-- An instruction's effect on its thread, in the state of the block. -/
abbrev BOp := State → BEnv → BeadThread → BRes

/-- Retire: the program counter moves on, the count grows by 1 and `more` (R383). -/
def bDone (t : BeadThread) (more : Nat := 0) : BRes := .ok { t with pc := t.pc + 4 } (1 + more)

/-- 1 or 0. -/
def flag64 (b : Bool) : DWord := if b then 1#64 else 0#64

/-! ### Scalar integer and floating point (R370, R376) -/

/-- Set bits of a number below 2 ^ n. -/
def popCount (n : Nat) (x : Nat) : Nat := ((List.range n).filter (fun i => x.testBit i)).length

/-- ALU operation by FN. -/
def aluFn (fn : Nat) (a b : DWord) : DWord :=
  match fn with
  | 0 => a + b
  | 1 => a - b
  | 2 => a &&& b
  | 3 => a ||| b
  | 4 => a ^^^ b
  | 5 => a <<< fld b 0 6
  | 6 => a >>> fld b 0 6
  | 7 => a.sshiftRight (fld b 0 6)
  | 8 => a * b
  | 9 => BitVec.ofNat 64 (a.toNat * b.toNat / 2 ^ 64)
  | 10 => if b == 0#64 then BitVec.allOnes 64 else BitVec.ofNat 64 (a.toNat / b.toNat)
  | 11 => if b == 0#64 then a else BitVec.ofNat 64 (a.toNat % b.toNat)
  | 12 => if b.slt a then b else a
  | 13 => if a.slt b then b else a
  | 14 => if b.ult a then b else a
  | 15 => if a.ult b then b else a
  | 16 => flag64 (a == b)
  | 17 => flag64 (a.slt b)
  | 18 => flag64 (a.ult b)
  | 19 => BitVec.ofNat 64 (popCount 64 a.toNat)
  | 20 => BitVec.ofNat 64 (if a == 0#64 then 64 else 63 - Nat.log2 a.toNat)
  | _ => BitVec.ofNat 64 (((List.range 64).find? (fun i => a.getLsbD i)).getD 64)

/-- An ALU instruction. -/
def bAlu (fn : Nat) (d a b : BitVec 5) : BOp := fun _ _ t => bDone (t.wx d (aluFn fn (t.rx a) (t.rx b)))

/-- Immediate operation by MAJOR, 0x02 to 0x09. -/
def aluiFn (maj : Nat) (a : DWord) (imm : BitVec 16) : DWord :=
  match maj with
  | 2 => a + imm.signExtend 64
  | 3 => a &&& imm.zeroExtend 64
  | 4 => a ||| imm.zeroExtend 64
  | 5 => a ^^^ imm.zeroExtend 64
  | 6 => a <<< fld imm 0 6
  | 7 => a >>> fld imm 0 6
  | 8 => a.sshiftRight (fld imm 0 6)
  | _ => flag64 (a.slt (imm.signExtend 64))

/-- An immediate instruction. -/
def bAlui (maj : Nat) (d a : BitVec 5) (imm : BitVec 16) : BOp := fun _ _ t => bDone (t.wx d (aluiFn maj (t.rx a) imm))

/-- LUI: bits [63:32] of the result are zero. -/
def bLui (d : BitVec 5) (imm : BitVec 21) : BOp := fun _ _ t =>
  bDone (t.wx d ((BitVec.ofNat 32 (imm.toNat * 2048)).zeroExtend 64))

/-- FPU operation by FN, on bits [31:0]. -/
def fpuFn (fn : Nat) (a b : Word) : Word :=
  match fn with
  | 0 => fpAdd a b
  | 1 => fpSub a b
  | 2 => fpMul a b
  | 3 => fpDiv a b
  | 4 => fpMin a b
  | 5 => fpMax a b
  | 6 => if fpLt a b then 1#32 else 0#32
  | 7 => if fpEq a b then 1#32 else 0#32
  | 8 => fpOfInt a
  | _ => fpToInt a

/-- An FPU instruction: bits [63:32] of the result are zero (DEDUCED, log entry 22). -/
def bFpu (fn : Nat) (d a b : BitVec 5) : BOp := fun _ _ t =>
  bDone (t.wx d ((fpuFn fn ((t.rx a).truncate 32) ((t.rx b).truncate 32)).zeroExtend 64))

/-! ### Loads, stores, branches and jumps -/

/-- Effective address: xA plus the signed offset. -/
def bAddr (t : BeadThread) (a : BitVec 5) (imm : BitVec 16) (scale : Nat) : DWord :=
  t.rx a + imm.signExtend 64 * BitVec.ofNat 64 scale

/-- A load of 2 ^ `k` bytes, zero-extending. -/
def bLd (k : Nat) (d a : BitVec 5) (imm : BitVec 16) : BOp := fun s e t =>
  match bLoad s e t (bAddr t a imm 1) (2 ^ k) with
  | .error f => .fault f
  | .ok (bs, t, c) => bDone (t.wx d (BitVec.ofNat 64 (leNat bs))) c

/-- A store of the low 2 ^ `k` bytes of xD. -/
def bSt (k : Nat) (d a : BitVec 5) (imm : BitVec 16) : BOp := fun _ e t =>
  match bStore e t (bAddr t a imm 1) (leBytes (2 ^ k) (t.rx d).toNat) with
  | .error f => .fault f
  | .ok t => bDone t

/-- VLD. -/
def bVld (vd : BitVec 4) (a : BitVec 5) (imm : BitVec 16) : BOp := fun s e t =>
  match bLoad s e t (bAddr t a imm 64) 64 with
  | .error f => .fault f
  | .ok (bs, t, c) => bDone (t.wv vd (BitVec.ofNat 512 (leNat bs))) c

/-- VST. -/
def bVst (vd : BitVec 4) (a : BitVec 5) (imm : BitVec 16) : BOp := fun _ e t =>
  match bStore e t (bAddr t a imm 64) (leBytes 64 (t.rv vd).toNat) with
  | .error f => .fault f
  | .ok t => bDone t

/-- Move the program counter by a signed number of instructions. -/
def bJump (t : BeadThread) (by_ : Int) : BRes := .ok { t with pc := ((t.pc : Int) + 4 * by_).toNat } 1

/-- Branch condition by MAJOR, 0x18 to 0x1D. -/
def branchFn (maj : Nat) (a b : DWord) : Bool :=
  match maj with
  | 0x18 => a == b
  | 0x19 => a != b
  | 0x1A => a.slt b
  | 0x1B => !a.slt b
  | 0x1C => a.ult b
  | _ => !a.ult b

/-- A branch. -/
def bBranch (maj : Nat) (a b : BitVec 5) (off : BitVec 16) : BOp := fun _ _ t =>
  if branchFn maj (t.rx a) (t.rx b) then bJump t off.toInt else bDone t

/-- JAL. -/
def bJal (d : BitVec 5) (imm : BitVec 21) : BOp := fun _ _ t => bJump (t.wx d (BitVec.ofNat 64 (t.pc + 4))) imm.toInt

/-- JR (R392): a target outside CODE is a WINDOW fault, one not a multiple of 4 an ALIGN fault. -/
def bJr (d a : BitVec 5) : BOp := fun _ e t =>
  let x := t.rx a
  if e.code.length ≤ x.toNat then .fault ⟨bfWINDOW, 0, x⟩
  else if x.toNat % 4 != 0 then .fault ⟨bfALIGN, 0, x⟩
  else .ok { t.wx d (BitVec.ofNat 64 (t.pc + 4)) with pc := x.toNat } 1

/-! ### Vectors (R376) -/

/-- Word-lane operation by FN of MAJOR 0x20, of lane `i`. -/
def valuFn (fn i : Nat) (a b : Line) : Word :=
  let x := lane a i
  let y := lane b i
  match fn with
  | 0 => x + y
  | 1 => x - y
  | 2 => x &&& y
  | 3 => x ||| y
  | 4 => x ^^^ y
  | 5 => x <<< fld y 0 5
  | 6 => x >>> fld y 0 5
  | 7 => if y.ult x then y else x
  | 8 => if x.ult y then y else x
  | 9 => fpAdd x y
  | 10 => fpSub x y
  | 11 => fpMul x y
  | 12 => fpMin x y
  | 13 => fpMax x y
  | 14 => fpOfInt x
  | 15 => fpToInt x
  | 16 => x
  | 17 => lane a 0
  | _ => lane a (y.toNat % 16)

/-- A vector ALU instruction: lanes whose bit in kK is 0 keep the old value of vD. -/
def bValu (fn : Nat) (vd va vb : BitVec 4) (k : BitVec 3) : BOp := fun _ _ t =>
  let m := t.rk k
  bDone (t.wv vd (ofLanes (fun i => if m.getLsbD i then valuFn fn i (t.rv va) (t.rv vb) else lane (t.rv vd) i)))

/-- Lane comparison by FN of MAJOR 0x21. -/
def vcmpFn (fn : Nat) (x y : Word) : Bool :=
  match fn with
  | 0 => fpLt x y
  | 1 => fpLe x y
  | 2 => fpEq x y
  | 3 => x.slt y
  | 4 => x.ult y
  | _ => x == y

/-- Bits of a mask from a function. -/
def maskOf (n : Nat) (f : Nat → Bool) : DWord := BitVec.ofNat 64 (bitsOf n f)

/-- A vector comparison: lanes whose bit in kK is 0 keep the old bit of kD (DEDUCED, log entry 22). -/
def bVcmp (fn : Nat) (kd : BitVec 3) (va vb : BitVec 4) (k : BitVec 3) : BOp := fun _ _ t =>
  let m := t.rk k
  let a := t.rv va
  let b := t.rv vb
  let old := t.rk kd
  bDone (t.wk kd (if fn == 6 then
      maskOf 64 (fun i => if m.getLsbD i then a.extractLsb' (8 * i) 8 == b.extractLsb' (8 * i) 8 else old.getLsbD i)
    else maskOf 16 (fun i => if m.getLsbD i then vcmpFn fn (lane a i) (lane b i) else old.getLsbD i)))

/-! ### Special function units (R378 to R382) -/

/-- An instruction that walks a table of the section at address `a` of OBJ or VOCAB: how many lines it reads the spec does not say; where one of the
section's VGS lines is poisoned, a free value says whether the walk meets it (R220, R394, R419; DESIGN CHOICE, log entry 2). -/
def bTable (s : State) (e : BEnv) (t : BeadThread) (a : Nat) (k : BeadThread → BRes) : BRes :=
  let go := fun (t : BeadThread) => k { t with walks := t.walks + min 1 (s.linesMissed e t a 1) }
  if s.sectPoisoned e t a then
    let (c, t) := t.free
    if c % 2 == 0 then go t else .fault ⟨bfPOISON, 0, BitVec.ofNat 64 a⟩
  else go t
/-- Address of a section of the VOCAB window. -/
def vocabAddr (typ : Nat) : Nat := 0x200000000 + typ * 2 ^ 32

/-- A result in xD that all ones marks as absent. -/
def orOnes (x : Option Nat) : DWord := match x with | some n => BitVec.ofNat 64 n | none => BitVec.allOnes 64

/-- The trie section from the trie base on; none: a WINDOW fault (R378). -/
def trieBytes (e : BEnv) (t : BeadThread) : Option (List Byte) :=
  match t.trieBase with
  | some a => baseBytes e t a
  | none => none

/-- Is the node at `o`, with its child array, inside the section? -/
def nodeInside (b : List Byte) (o : Nat) : Bool :=
  o + 16 ≤ b.length &&
  (let w := leAt b (o + 4) 2
   leAt b (o + 8) 4 + (if w.testBit 15 then 1024 else 8 * (w % 512)) ≤ b.length)

/-- TSTEP. -/
def bTstep (d a b : BitVec 5) : BOp := fun s e t =>
  match e.voc, trieBytes e t with
  | some _, some sec =>
    let o := (t.rx a).toNat
    if nodeInside sec o then
      bTable s e t (t.trieBase.getD 0 + o) (fun t => bDone (t.wx d (orOnes (trieStep sec o ((t.rx b).toNat % 256)))) 8)
    else .fault ⟨bfWINDOW, 0, BitVec.ofNat 64 (t.trieBase.getD 0 + o)⟩
  | _, _ => .fault ⟨bfWINDOW, 0, BitVec.ofNat 64 (t.trieBase.getD 0)⟩

/-- TTOK. -/
def bTtok (d a : BitVec 5) : BOp := fun s e t =>
  match e.voc, trieBytes e t with
  | some v, some sec =>
    let o := (t.rx a).toNat
    if o + 16 ≤ sec.length then
      let k := trieTok sec o
      bTable s e t (t.trieBase.getD 0 + o) (fun t => bDone (t.wx d (BitVec.ofNat 64 (if k != none32 && v.live k then k else none32))))
    else .fault ⟨bfWINDOW, 0, BitVec.ofNat 64 (t.trieBase.getD 0 + o)⟩
  | _, _ => .fault ⟨bfWINDOW, 0, BitVec.ofNat 64 (t.trieBase.getD 0)⟩

/-- TROOT: roots other than 0 and 1 do not exist. -/
def bTroot (d a : BitVec 5) : BOp := fun s e t =>
  match trieBytes e t with
  | some sec =>
    let r := trieRoot sec (t.rx a).toNat
    bTable s e t (t.trieBase.getD 0) (fun t => bDone (t.wx d (if r == none32 then BitVec.allOnes 64 else BitVec.ofNat 64 r)))
  | none => .fault ⟨bfWINDOW, 0, BitVec.ofNat 64 (t.trieBase.getD 0)⟩

/-- DSTEP: next state, with its attribute word in bits [31:16]; a DEAD state has none, and a free value stands there. -/
def bDstep (d a b : BitVec 5) : BOp := fun s e t =>
  match t.dfaBase.bind (baseBytes e t) with
  | none => .fault ⟨bfWINDOW, 0, BitVec.ofNat 64 (t.dfaBase.getD 0)⟩
  | some sec =>
    let st := (t.rx a).toNat
    let u := (t.rx b).toNat % 2 ^ 32
    let c := dfaClass sec u
    let o := leAt sec 16 4 + 2 * (st * dfaClasses sec + c)
    if o + 2 ≤ sec.length && (rawUnit ≤ u || u < 0x110000) then
      let n := leAt sec o 2
      let (k, t) := t.free
      bTable s e t (t.dfaBase.getD 0) (fun t => bDone (t.wx d (BitVec.ofNat 64 (n + 65536 * (if n == 0xFFFF then k % 65536 else dfaAttr sec n)))))
    else .fault ⟨bfWINDOW, 0, BitVec.ofNat 64 (t.dfaBase.getD 0 + o)⟩

/-- TBASE: the new trie base must lie in OBJ or VOCAB. -/
def bTbase (a : BitVec 5) : BOp := fun _ e t =>
  match baseBytes e t (t.rx a).toNat with
  | some _ => bDone { t with trieBase := some (t.rx a).toNat }
  | none => .fault ⟨bfWINDOW, 0, t.rx a⟩

/-- DBASE. -/
def bDbase (a : BitVec 5) : BOp := fun _ e t =>
  match baseBytes e t (t.rx a).toNat with
  | some _ => bDone { t with dfaBase := some (t.rx a).toNat }
  | none => .fault ⟨bfWINDOW, 0, t.rx a⟩

/-- MPROBE. -/
def bMprobe (d a b : BitVec 5) : BOp := fun s e t =>
  match e.voc with
  | none => .fault ⟨bfWINDOW, 0, 0#64⟩
  | some v =>
    let r := v.merge (t.rx a).toNat (t.rx b).toNat
    bTable s e t (vocabAddr (if e.set then 0xF else secMerges)) (fun t => bDone (t.wx d (orOnes (r.map (fun m => m.rank * 2 ^ 32 + m.result)))) 8)

/-- MHASH. -/
def bMhash (d a b : BitVec 5) : BOp := fun _ _ t =>
  bDone (t.wx d ((mergeHash ((t.rx a).truncate 32) ((t.rx b).truncate 32)).zeroExtend 64))

/-- UDEC (R382): fewer than 1 or more than 8 bytes give a free value. -/
def bUdec (d a b : BitVec 5) : BOp := fun _ _ t =>
  let n := (t.rx b).toNat
  if 1 ≤ n && n ≤ 8 then
    bDone (t.wx d (BitVec.ofNat 64 (match utfFront (leBytes n (t.rx a).toNat) with
      | .ok c l => c + l * 2 ^ 32
      | .ill l => 0xFFFD + l * 2 ^ 32 + 2 ^ 40
      | .part l => l * 2 ^ 32 + 2 ^ 41)))
  else
    let (k, t) := t.free
    bDone (t.wx d (BitVec.ofNat 64 k))

/-- UNORM: a number that is no code point gives a free value; a vocabulary without NORM has no record to read. -/
def bUnorm (d a : BitVec 5) : BOp := fun s e t =>
  match e.voc.bind (fun v => sect? v.base secNorm) with
  | none => .fault ⟨bfWINDOW, 0, BitVec.ofNat 64 (vocabAddr secNorm)⟩
  | some n =>
    let c := (t.rx a).toNat
    if c < 0x110000 then bTable s e t (vocabAddr secNorm) (fun t => bDone (t.wx d (BitVec.ofNat 64 (normRec n c))))
    else
      let (k, t) := t.free
      bDone (t.wx d (BitVec.ofNat 64 k))

/-- UCLASS: a raw-byte unit gives CLASS_RAW. -/
def bUclass (d a : BitVec 5) : BOp := fun s e t =>
  match t.dfaBase.bind (baseBytes e t) with
  | none => .fault ⟨bfWINDOW, 0, BitVec.ofNat 64 (t.dfaBase.getD 0)⟩
  | some sec =>
    let u := (t.rx a).toNat % 2 ^ 32
    if rawUnit ≤ u || u < 0x110000 then bTable s e t (t.dfaBase.getD 0) (fun t => bDone (t.wx d (BitVec.ofNat 64 (dfaClass sec u))))
    else .fault ⟨bfWINDOW, 0, BitVec.ofNat 64 (t.dfaBase.getD 0)⟩

/-- UENC: a number that is no Unicode scalar value gives a free value. -/
def bUenc (d a : BitVec 5) : BOp := fun _ _ t =>
  let c := (t.rx a).toNat
  if isScalar c then
    let bs := utfEnc c
    bDone (t.wx d (BitVec.ofNat 64 (leNat bs + bs.length * 2 ^ 60)))
  else
    let (k, t) := t.free
    bDone (t.wx d (BitVec.ofNat 64 k))

/-- HCOMP. -/
def bHcomp (vd va vb : BitVec 4) : BOp := fun _ _ t =>
  let a := t.rv va
  let b := t.rv vb
  let r := b3Compress ((List.range 8).map (lane a)) ((List.range 16).map (lane b)) (lane a 8) (lane a 9) (lane a 10) (lane a 11)
  bDone (t.wv vd (ofLanes (fun i => r.getD i 0#32))) 6

/-- BSET operations on whole lines by FN, 0 to 3. -/
def bsetFn (fn : Nat) (a b : Line) : Line :=
  match fn with
  | 0 => a &&& b
  | 1 => a ||| b
  | 2 => a &&& ~~~b
  | _ => a ^^^ b

/-- BAND, BOR, BANDN, BXOR. -/
def bBset (fn : Nat) (vd va vb : BitVec 4) : BOp := fun _ _ t => bDone (t.wv vd (bsetFn fn (t.rv va) (t.rv vb)))

/-- Indices of the set bits of a line, ascending. -/
def setBits (a : Line) : List Nat := (List.range 512).filter (fun i => a.getLsbD i)

/-- BPOP. -/
def bBpop (d : BitVec 5) (va : BitVec 4) : BOp := fun _ _ t => bDone (t.wx d (BitVec.ofNat 64 (setBits (t.rv va)).length))
/-- BFFS. -/
def bBffs (d : BitVec 5) (va : BitVec 4) : BOp := fun _ _ t =>
  bDone (t.wx d (BitVec.ofNat 64 ((setBits (t.rv va)).headD 512)))
/-- BSEL. -/
def bBsel (d : BitVec 5) (va : BitVec 4) (b : BitVec 5) : BOp := fun _ _ t =>
  bDone (t.wx d (BitVec.ofNat 64 ((setBits (t.rv va)).getD (t.rx b).toNat 512)))

/-- BRUN: outside 0 ≤ xA ≤ xB ≤ 512 the line is a free value. -/
def bBrun (vd : BitVec 4) (a b : BitVec 5) : BOp := fun _ _ t =>
  let lo := (t.rx a).toNat
  let hi := (t.rx b).toNat
  if lo ≤ hi && hi ≤ 512 then bDone (t.wv vd (BitVec.ofNat 512 (2 ^ hi - 2 ^ lo)))
  else
    let (k, t) := t.free
    bDone (t.wv vd (BitVec.ofNat 512 k))

/-- CMAXK: the first lane in key order, a NaN lane as −∞. -/
def bCmaxk (d : BitVec 5) (va vb : BitVec 4) : BOp := fun _ _ t =>
  let key := fun (i : Nat) =>
    let x := lane (t.rv va) i
    Cand.mk (lane (t.rv vb) i).toNat (if fpIsNaN x then fpNegInf else x)
  let best := (List.range 16).foldl (fun m i =>
    let a := key i
    let b := key m
    if fpLt b.val a.val || (fpEq a.val b.val && a.tok < b.tok) then i else m) 0
  bDone (t.wx d ((lane (t.rv vb) best) ++ (lane (t.rv va) best)))

/-- CMINU. -/
def bCminu (d : BitVec 5) (va : BitVec 4) : BOp := fun _ _ t =>
  bDone (t.wx d (BitVec.ofNat 64 (((List.range 16).map (fun i => (lane (t.rv va) i).toNat)).foldl min none32)))

/-- CGEF and CEQU. -/
def bCmp (eq : Bool) (kd : BitVec 3) (va vb : BitVec 4) : BOp := fun _ _ t =>
  bDone (t.wk kd (maskOf 16 (fun i =>
    let x := lane (t.rv va) i
    let y := lane (t.rv vb) i
    if eq then x == y else fpLe y x)))

/-! ### DMA and system operations (R376, R385, R388) -/

/-- WORK lines that data of a GET reach from poisoned VGS lines (R418, R419). -/
def State.getPoison (s : State) (e : BEnv) (t : BeadThread) (g : GetOp) : List Nat :=
  (List.range g.len).filterMap (fun i => if s.linePoisoned e t (g.src + i) then some ((g.dst + i) / 64) else none)
/-- Finish one GET: its data reach WORK, poisoned where a line read was, and its tag frees. -/
def BeadThread.finishGet (s : State) (e : BEnv) (t : BeadThread) (tag : Fin 4) : BeadThread :=
  match t.gets.find? (fun g => g.tag == tag) with
  | none => t
  | some g =>
    let bs := match findWin e t (BitVec.ofNat 64 g.src) g.len false with
      | some w => winBytes s e w g.len
      | none => []
    let u := t.putWork g.dst bs
    { u with
      gets := t.gets.filter (fun h => h.tag != tag), miss := t.miss + s.linesMissed e t g.src g.len
      poison := (s.getPoison e t g).foldl natInsert u.poison }

/-- GET: a free tag, chosen by a free value, goes to xD; a length outside the range is a WINDOW fault (DEDUCED, log entry 22). -/
def bGet (d a b : BitVec 5) : BOp := fun _ e t =>
  let n := (t.rx d).toNat
  let dst := t.rx a
  let src := t.rx b
  if n == 0 || n % 64 != 0 || 16384 < n then .fault ⟨bfWINDOW, 0, dst⟩
  else
    match findWin e t dst n true, findWin e t src n false with
    | some (.work o), some w =>
      match w with
      | .obj _ | .voc _ _ | .mem _ =>
        if 4 ≤ t.gets.length then .stall none
        else
          let freeTags := (List.finRange 4).filter (fun g => !t.gets.any (fun h => h.tag == g))
          let (k, t) := t.free
          let tag := freeTags.getD (k % freeTags.length) 0
          bDone (({ t with gets := t.gets ++ [GetOp.mk tag o src.toNat n] } : BeadThread).wx d (BitVec.ofNat 64 tag.val)) (n / 64)
      | _ => .fault ⟨bfWINDOW, 0, src⟩
    | some (.work _), none => .fault ⟨bfWINDOW, 0, src⟩
    | _, _ => .fault ⟨bfWINDOW, 0, dst⟩

/-- WAIT: until the GET of the tag in xA has completed. -/
def bWait (a : BitVec 5) : BOp := fun _ _ t =>
  match t.gets.find? (fun g => g.tag.val == (t.rx a).toNat) with
  | some g => .stall (some g.tag)
  | none => bDone t

/-- FENCE: until every earlier load, store and DMA of the thread has completed. -/
def bFence : BOp := fun _ _ t => if t.gets.isEmpty then bDone t else .stall none

/-- NOP. -/
def bNop : BOp := fun _ _ t => bDone t
/-- EXIT. -/
def bExit (code : BitVec 5) : BOp := fun _ _ t => .exit t code
/-- TRAP. -/
def bTrap (code : BitVec 5) : BOp := fun _ _ _ => .fault ⟨bfTRAP, code.toNat, 0#64⟩

/-- RNG (R354, R388): only a hook may ask, with a draw index of 1 to 65,535; the counter comes from x6, x7 and the index. -/
def bRng (vd : BitVec 4) (a : BitVec 5) : BOp := fun _ e t =>
  let n := (t.rx a).toNat
  if bROLE e.hdr != 3 || n == 0 || 65535 < n then .fault ⟨bfCONTRACT, 0, 0#64⟩
  else
    let st := t.rx 6#5
    let r := philox t.seed [fld st 0 32, n * 65536 + (t.rx 7#5).toNat % 256 * 256 + fld st 32 8, 0, 0]
    bDone (t.wv vd (ofLanes (fun i => if i < 4 then BitVec.ofNat 32 (r.getD i 0) else 0#32)))

/-- VFILL. -/
def bVfill (vd : BitVec 4) (a : BitVec 5) : BOp := fun _ _ t => bDone (t.wv vd (ofLanes (fun _ => (t.rx a).truncate 32)))
/-- VEXT. -/
def bVext (d : BitVec 5) (va : BitVec 4) (b : BitVec 5) : BOp := fun _ _ t =>
  bDone (t.wx d ((lane (t.rv va) ((t.rx b).toNat % 16)).zeroExtend 64))
/-- KFROMX. -/
def bKfromx (kd : BitVec 3) (a : BitVec 5) : BOp := fun _ _ t => bDone (t.wk kd (t.rx a))
/-- KTOX. -/
def bKtox (d : BitVec 5) (ka : BitVec 3) : BOp := fun _ _ t => bDone (t.wx d (t.rk ka))
/-- KAND, KOR, KANDN, by FN 9 to 11. -/
def bKop (fn : Nat) (kd ka kb : BitVec 3) : BOp := fun _ _ t =>
  let a := t.rk ka
  let b := t.rk kb
  bDone (t.wk kd (match fn with | 9 => a &&& b | 10 => a ||| b | _ => a &&& ~~~b))

/-! ### The decoder (R375, R376, R379) -/

/-- The instruction of a UNIT word. -/
def decodeUnit (unit fn : Nat) (d a b : BitVec 5) : Option BOp :=
  let v := fun (x : BitVec 5) => x.truncate 4
  let k := fun (x : BitVec 5) => x.truncate 3
  match unit, fn with
  | 0, 0 => some (bTstep d a b)
  | 0, 1 => some (bTtok d a)
  | 0, 2 => some (bTroot d a)
  | 0, 3 => some (bDstep d a b)
  | 0, 4 => some (bTbase a)
  | 0, 5 => some (bDbase a)
  | 1, 0 => some (bMprobe d a b)
  | 1, 1 => some (bMhash d a b)
  | 2, 0 => some (bUdec d a b)
  | 2, 1 => some (bUnorm d a)
  | 2, 2 => some (bUclass d a)
  | 2, 3 => some (bUenc d a)
  | 3, 0 => some (bHcomp (v d) (v a) (v b))
  | 4, 4 => some (bBpop d (v a))
  | 4, 5 => some (bBffs d (v a))
  | 4, 6 => some (bBsel d (v a) b)
  | 4, 7 => some (bBrun (v d) a b)
  | 4, n => if n < 4 then some (bBset n (v d) (v a) (v b)) else none
  | 5, 0 => some (bCmaxk d (v a) (v b))
  | 5, 1 => some (bCminu d (v a))
  | 5, 2 => some (bCmp false (k d) (v a) (v b))
  | 5, 3 => some (bCmp true (k d) (v a) (v b))
  | _, _ => none

/-- The instruction of a SYS word. -/
def decodeSys (fn : Nat) (d a b : BitVec 5) : Option BOp :=
  let v := fun (x : BitVec 5) => x.truncate 4
  let k := fun (x : BitVec 5) => x.truncate 3
  match fn with
  | 0 => some bNop
  | 1 => some (bExit b)
  | 2 => some (bTrap b)
  | 3 => some (bRng (v d) a)
  | 4 => some bFence
  | 5 => some (bVfill (v d) a)
  | 6 => some (bVext d (v a) b)
  | 7 => some (bKfromx (k d) a)
  | 8 => some (bKtox d (k a))
  | n => if n ≤ 11 then some (bKop n (k d) (k a) (k b)) else none

/-- The instruction an instruction word holds; none: ILLEGAL (R394). -/
def beadDecode (w : Word) : Option BOp :=
  if !wordOk w then none
  else
    let maj := fld w 26 6
    let d := w.extractLsb' 21 5
    let a := w.extractLsb' 16 5
    let b := w.extractLsb' 11 5
    let imm := w.extractLsb' 0 16
    let fn := fld w 0 11
    let vd := w.extractLsb' 22 4
    let va := w.extractLsb' 18 4
    let vb := w.extractLsb' 14 4
    let k := w.extractLsb' 11 3
    match maj with
    | 0x01 => some (bAlu fn d a b)
    | 0x0A => some (bLui d (w.extractLsb' 0 21))
    | 0x0B => some (bFpu fn d a b)
    | 0x1E => some (bJal d (w.extractLsb' 0 21))
    | 0x1F => some (bJr d a)
    | 0x20 => some (bValu fn vd va vb k)
    | 0x21 => some (bVcmp fn (vd.truncate 3) va vb k)
    | 0x22 => some (bVld (d.truncate 4) a imm)
    | 0x23 => some (bVst (d.truncate 4) a imm)
    | 0x24 => decodeUnit (fld w 8 3) (fld w 0 8) d a b
    | 0x25 => some (if fn == 0 then bGet d a b else bWait a)
    | 0x3F => decodeSys fn d a b
    | m =>
      if 2 ≤ m && m ≤ 9 then some (bAlui m d a imm)
      else if 0x10 ≤ m && m ≤ 0x13 then some (bLd (m - 0x10) d a imm)
      else if 0x14 ≤ m && m ≤ 0x17 then some (bSt (m - 0x14) d a imm)
      else if 0x18 ≤ m && m ≤ 0x1D then some (bBranch m d a imm)
      else none

end Sys2Proof.Machine
end

