-- ==== Sys2Proof/Machine/BeadCall.lean ====
section
/-! DEFINITION. Sys2Proof/Machine/BeadCall.lean: calls of bead programs: one instruction on a thread, a whole call, the four role
contracts, and what a fault latches (R383 to R395, R398 to R400). -/
namespace Sys2Proof.Machine
open Sys2Proof

/-! ### Latching a fault (R398 to R400) and what a call leaves in counters (R414, R418) -/

/-- Count reads of unwritten scratch lines in a cluster (R414). Which line of scratch holds a line of WORK the spec leaves open:
the bank and line latched are free values. -/
def State.noteUninit (s : State) (p : Part) (c : Clu) (n : Nat) : State :=
  if n == 0 then s
  else
    let s := (s.bumpBy (rPrtUninitCnt p) 0 32 n).bumpBy (rCluUninitCnt c) 0 32 n
    if s.rb (rCluUninitLast c) 31 then s
    else
      let (k, s) := s.freeBelow 16384
      s.setReg (rCluUninitLast c) (BitVec.ofNat 32 (2 ^ 31 + p.val * 2 ^ 24 + k * 1024))

/-- Count a fault, and latch it when no earlier one is latched (R398 to R400); the read behind an UNINIT fault counts as an
uninitialised read of the cluster (R414), that behind a POISON fault as a poisoned one (R429). -/
def State.latchFault (s : State) (p : Part) (c : Clu) (e : BEnv) (f : BFault) (pc : Nat) : State :=
  let s := s.bump (rPrtBeadFaultCnt p)
  let s := if f.cause == bfPOISON then s.bump (rPrtPoisonCnt p) else s
  let s := if f.cause == bfUNINIT then s.noteUninit p c 1 else s
  if s.rb (rPrtBeadFault p) 31 then s
  else
    let v := 2 ^ 31 + bROLE e.hdr % 8 * 2 ^ 28 + f.cause * 2 ^ 24 + f.code * 2 ^ 19 + (faultStatus f.cause).toNat * 256
    (((s.setReg (rPrtBeadFault p) (BitVec.ofNat 32 v)).setReg (rPrtBeadFaultPc p) (BitVec.ofNat 32 pc)).setReg64
      (rPrtBeadFaultAddr p) f.addr).setReg (rPrtBeadFaultProg p) e.id

/-- Lines of unplaced sections that a program read, of the loads and GETs and, a free number, of the instructions that walked tables (R220, R222;
DESIGN CHOICE, log entry 2). -/
def State.noteMiss (s : State) (p : Part) (miss walks : Nat) : State :=
  let s := if miss == 0 then s else s.missLines p miss
  if walks == 0 then s
  else
    let (k, s) := s.freeBelow (2 ^ 20)
    s.missLines p (walks + k)

/-- What the block keeps of a call that has ended: its uninitialised reads, and its reads of the backing. -/
def State.endCall (s : State) (c : Clu) (t : BeadThread) : State := (s.noteUninit t.part c t.uninit).noteMiss t.part t.miss t.walks

/-! ### One instruction, and a whole call -/

/-- How a call ends. -/
inductive CallEnd where
  | exit (code : BitVec 5)
  | fault (f : BFault)
deriving DecidableEq, Repr

/-- Apply the metering of R383 to what an instruction did. -/
def metered (e : BEnv) (t : BeadThread) : BRes → BRes
  | .ok t' c => if bCYCLES e.hdr < t.count + c then .fault ⟨bfBUDGET, 0, 0#64⟩ else .ok { t' with count := t.count + c } c
  | .exit t' k => if bCYCLES e.hdr < t.count + 1 then .fault ⟨bfBUDGET, 0, 0#64⟩ else .exit { t' with count := t.count + 1 } k
  | r => r

/-- The instruction at the program counter, metered. -/
def beadFetch (s : State) (e : BEnv) (t : BeadThread) : BRes :=
  if e.code.length ≤ t.pc then .fault ⟨bfILLEGAL, 0, 0#64⟩
  else
    match beadDecode (codeWord e.code t.pc) with
    | none => .fault ⟨bfILLEGAL, 0, 0#64⟩
    | some op => metered e t (op s e t)

/-- Run a call to its end. A stall completes the GET waited for; which of several a free value chooses. The fuel is enough for
every metered call: each turn retires an instruction or completes a GET. -/
def runCall (s : State) (e : BEnv) : Nat → BeadThread → CallEnd × BeadThread
  | 0, t => (.fault ⟨bfBUDGET, 0, 0#64⟩, t)
  | n + 1, t =>
    match beadFetch s e t with
    | .ok t _ => runCall s e n t
    | .exit t k => (.exit k, t)
    | .fault f => (.fault f, t)
    | .stall tag =>
      let (k, t') := t.free
      let g := match tag with
        | some g => g
        | none => ((t.gets[k % t.gets.length]?).map (·.tag)).getD 0
      runCall s e n (t'.finishGet s e g)

/-- Fuel for a call. -/
def callFuel (e : BEnv) : Nat := 2 * bCYCLES e.hdr + 8

/-! ### Entry (R386, R387) -/

abbrev callBase : Nat := 0x01000000

/-- A thread at the entry of a call. `args` gives the entry registers, `mem` the parts of the CALL window with their contents. -/
def callThread (p : Part) (prog : Bound) (e : BEnv) (mode : CallMode) (args : List (Nat × Nat))
    (mem : List (CallPart × List Byte)) : BeadThread :=
  { st := .running
    x := args.foldl (fun x a => if h : a.1 < 32 then x.set a.1 (BitVec.ofNat 64 a.2) else x) (Vector.replicate 32 0#64)
    pc := bENTRY e.hdr, part := p, prog := some prog, strict := mode.strict, rng := mode.rng, trieBase := entryTrie e
    callMem := mem.foldl (fun m x => cellWrite 0#8 m x.1.off x.2) [], parts := mem.map (·.1)
    inArgs := args.flatMap (fun a => [a.1, a.2]), inMem := [e.hdr, e.code, e.data] ++ mem.map (·.2) }

/-- Bytes of 32-bit words. -/
def wordsBytes (l : List Nat) : List Byte := l.flatMap (leBytes 4)
/-- Word `i` of a part of the CALL window. -/
def callWord (t : BeadThread) (o i : Nat) : Nat := leNat (cellRead 0#8 t.callMem (o + 4 * i) 4)

/-- A CONTRACT fault at an exit. -/
def contractFault (code : BitVec 5) : BFault := ⟨bfCONTRACT, code.toNat, 0#64⟩

/-! ### PRETOK (R386, R388) -/

/-- Cut units at ends: (dropped, units). -/
def cutEnds {α : Type} (us : List α) : Nat → List Nat → List (Bool × List α)
  | _, [] => []
  | a, w :: t =>
    let b := w % 2 ^ 15
    (w.testBit 31, (us.drop a).take (b - a)) :: cutEnds us b t

/-- Are PRETOK's entries as R386 wants them? -/
def endsOk (n : Nat) (l : List Nat) : Bool :=
  let es := l.map (· % 2 ^ 15)
  l.all (fun w => nf w 15 16 == 0) && (es.getLast? == some n) && es.head?.getD 0 != 0 &&
  (List.range (es.length - 1)).all (fun i => es.getD i 0 < es.getD (i + 1) 0)

/-- One PRETOK call on a piece: the sub-pieces kept, or the fault and where it struck. -/
def pretokCall (s : State) (p : Part) (c : Clu) (prog : Bound) (e : BEnv) (mode : CallMode) (us : List TU) :
    Option (BitVec 8) × List (List TU) × State :=
  let n := us.length
  let t := callThread p prog e mode
    [(2, callBase), (3, n), (4, callBase + 0x100000), (5, n)]
    [(⟨0, 4 * n, false⟩, wordsBytes (us.map (·.u))), (⟨0x100000, 4 * n, true⟩, [])]
  let (r, t) := runCall s e (callFuel e) t
  let s := s.endCall c t
  let bad := fun (f : BFault) => (some (faultStatus f.cause), ([] : List (List TU)), s.latchFault p c e f t.pc)
  match r with
  | .fault f => bad f
  | .exit k =>
    let m := (t.rx 1#5).toNat
    let l := (List.range (min m n)).map (callWord t 0x100000)
    if k == 0#5 && m ≤ n && endsOk n l then (none, ((cutEnds us 0 l).filter (fun x => !x.1)).map (·.2), s)
    else bad (contractFault k)

/-! ### MODEL (R386, R388) -/

/-- The thread at the entry of a MODEL call on a piece. -/
def modelThread (p : Part) (prog : Bound) (e : BEnv) (mode : CallMode) (us : List Nat) : BeadThread :=
  let n := us.length
  let cap := 4 * n + 16
  callThread p prog e mode
    [(2, callBase), (3, n), (4, callBase + 0x100000), (5, cap)]
    [(⟨0, 4 * n, false⟩, wordsBytes us), (⟨0x100000, 4 * cap, true⟩, [])]

/-- The tokens a MODEL call's exit gives; none: a CONTRACT fault. `size` is the effective size of the op's vocabulary, `n` the piece's unit count. -/
def modelExit (size n : Nat) (t : BeadThread) (code : BitVec 5) : Option (List Nat) :=
  let m := (t.rx 1#5).toNat
  if code == 0#5 && m ≤ 4 * n + 16 then
    let l := (List.range m).map (callWord t 0x100000)
    if l.all (· < size) then some l else none
  else none

/-! ### CHECK (R386) -/

/-- One CHECK call on a token in a configuration; `len` is the history length, `node` the tree node. -/
def checkCall (p : Part) (c : Clu) (prog : Bound) (mode : CallMode) (len node : Nat) (s : State) (tok : Nat) (g : CpConfig) :
    CheckRes × State :=
  match s.benv p prog with
  | none => (.fault stBadEntry, s)
  | some e =>
    let fr := g.stk.take 16
    let t := callThread p prog e mode
      [(2, tok), (3, g.q), (4, g.stk.length), (5, callBase), (6, len), (7, node)]
      [(⟨0, 8 * fr.length, false⟩, fr.flatMap frameBytes)]
    let (r, t) := runCall s e (callFuel e) t
    let s := s.endCall c t
    match r with
    | .fault f => (.fault (faultStatus f.cause), s.latchFault p c e f t.pc)
    | .exit k =>
      if k == 0#5 then (.reject, s)
      else if k == 1#5 then (.allow, s)
      else (.fault (faultStatus bfCONTRACT), s.latchFault p c e (contractFault k) t.pc)

/-! ### HOOK (R343, R386 to R388) -/

/-- What the hook calls of one draw share. -/
structure HookArgs where
  part : Part
  clu  : Clu
  prog : Bound
  mode : CallMode
  seed : DWord
  veff : Nat
  steps : Nat
  node : Nat
  penalty : List (Nat × Nat)
  recent : List Nat
deriving DecidableEq, Repr

/-- One slice: first token `a`, `l` positions, the allowed values in it. -/
def hookSlice (h : HookArgs) (e : BEnv) (s : State) (j a l : Nat) (vals : List Cand) :
    Option (BitVec 8) × List Cand × State :=
  let mine := vals.filter (fun c => a ≤ c.tok && c.tok < a + l)
  let val := fun (i : Nat) => ((mine.find? (fun c => c.tok == a + i)).map (·.val)).getD fpNegInf
  let bits := leBytes (l / 8) (bitsOf l (fun i => mine.any (fun c => c.tok == a + i)))
  let t := callThread h.part h.prog e h.mode
    [(2, callBase), (3, min l (h.veff - a)), (4, a), (5, callBase + 0x10000), (6, h.steps), (7, h.node),
     (8, callBase + 0x80000), (9, h.penalty.length), (10, callBase + 0x20000), (11, h.recent.length), (13, j)]
    [(⟨0, 4 * l, true⟩, (List.range l).flatMap (fun i => leBytes 4 (val i).toNat)),
     (⟨0x10000, l / 8, false⟩, bits),
     (⟨0x20000, 4 * h.recent.length, false⟩, wordsBytes h.recent),
     (⟨0x80000, 8 * h.penalty.length, false⟩, h.penalty.flatMap (fun x => leBytes 4 x.1 ++ leBytes 4 x.2))]
  let (r, t) := runCall s e (callFuel e) { t with seed := h.seed }
  let s := s.endCall h.clu t
  match r with
  | .fault f => (some (faultStatus f.cause), [], s.latchFault h.part h.clu e f t.pc)
  | .exit k =>
    if k == 0#5 then (none, mine.map (fun c => { c with val := BitVec.ofNat 32 (callWord t 0 (c.tok - a)) }), s)
    else (some (faultStatus bfCONTRACT), [], s.latchFault h.part h.clu e (contractFault k) t.pc)

/-- The slices of a piece whose first token lies below VEFF, in order; the first fault ends them. -/
def hookSlices (h : HookArgs) (e : BEnv) (j l : Nat) (vals : List Cand) :
    List Nat → List Cand → State → Option (BitVec 8) × List Cand × State
  | [], acc, s => (none, acc, s)
  | i :: t, acc, s =>
    let a := 8192 * j + i * l
    if h.veff ≤ a then (none, acc, s)
    else
      match hookSlice h e s j a l vals with
      | (none, out, s) => hookSlices h e j l vals t (acc ++ out) s
      | x => x

/-- The hook on one piece, as the row stages call it (R343). -/
def hookPiece (h : HookArgs) (s : State) (j : Nat) (vals : List Cand) : Option (BitVec 8) × List Cand × State :=
  match s.benv h.part h.prog with
  | none => (some stBadEntry, [], s)
  | some e => hookSlices h e j (8192 / bSPLIT e.hdr) vals (List.range (bSPLIT e.hdr)) [] s

/-! ### Threads that stand between commands -/

/-- The thread of a name; one that is not listed is idle. -/
def State.thread (s : State) (n : Thread) : BeadThread := ((s.threads.find? (fun x => x.1 == n)).map (·.2)).getD {}
/-- Put a thread back; an idle one is not listed. -/
def State.setThread (s : State) (n : Thread) (t : BeadThread) : State :=
  let rest := s.threads.filter (fun x => x.1 != n)
  { s with threads := if t == {} then rest else (n, t) :: rest }

/-- A fault ends a thread's call (R394): details latched, the thread faulted. -/
def State.threadFault (s : State) (n : Thread) (t : BeadThread) (e : BEnv) (f : BFault) : State :=
  (((s.endCall n.clu t).latchFault t.part n.clu e f t.pc).setThread n { t with st := .faulted f.cause, gets := [] })

/-- An exit of a MODEL call on an encode unit's thread: its tokens are kept, and the next piece's call begins (R386). -/
def State.threadExit (s : State) (n : Thread) (t : BeadThread) (e : BEnv) (k : BitVec 5) : State :=
  match t.job, t.prog with
  | some j, some b =>
    match j.left with
    | [] => s.setThread n { t with st := .exited k }
    | us :: rest =>
      match modelExit j.size us.length t k with
      | none => s.threadFault n t e (contractFault k)
      | some l =>
        let s := s.endCall n.clu t
        let job := { j with left := rest, toks := j.toks ++ [l] }
        match rest with
        | [] => s.setThread n { t with st := .exited k, job := some job, gets := [] }
        | us' :: _ => s.setThread n { modelThread t.part b e ⟨t.strict, t.rng⟩ us' with job := some job }
  | _, _ => s.setThread n { t with st := .exited k, gets := [] }

/-- Is the thread inside a call: running, or at an instruction that waits? -/
def BeadThread.inCall (t : BeadThread) : Bool := match t.st with | .running | .waiting _ => true | _ => false

/-- What an instruction's result makes of its thread; its reads of unwritten lines, and those of the backing, count at once (R222, R414). -/
def State.threadRes (s : State) (n : Thread) (t : BeadThread) (e : BEnv) : BRes → State
  | .ok t' _ => ((s.noteUninit t.part n.clu (t'.uninit - t.uninit)).noteMiss t.part (t'.miss - t.miss) (t'.walks - t.walks)).setThread n
      { t' with st := .running, uninit := t.uninit, miss := t.miss, walks := t.walks }
  | .fault f => s.threadFault n t e f
  | .exit t' k => s.threadExit n t' e k
  | .stall g => s.setThread n { t with st := .waiting g }

/-- One instruction on a named thread; a thread that is in no call executes nothing. -/
def beadRun (n : Thread) (op : BOp) (s : State) : State :=
  let t := s.thread n
  if t.inCall then
    match t.prog.bind (s.benv t.part) with
    | some e => s.threadRes n t e (metered e t (op s e t))
    | none => s
  else s

/-- CALL_BUDGET_FAULT (R383): the thread's next instruction would take the count above CALL_CYCLES. -/
def callBudgetFault (n : Thread) (s : State) : State :=
  let t := s.thread n
  if t.inCall then
    match t.prog.bind (s.benv t.part) with
    | some e =>
      match beadFetch s e t with
      | .fault f => if f.cause == bfBUDGET then s.threadFault n t e f else s
      | _ => s
    | none => s
  else s

/-- ILLEGAL_INSTRUCTION (R394): no decoded instruction at the thread's program counter. -/
def illegalInstruction (n : Thread) (s : State) : State :=
  let t := s.thread n
  if t.inCall then
    match t.prog.bind (s.benv t.part) with
    | some e =>
      match beadFetch s e t with
      | .fault f => if f.cause == bfILLEGAL then s.threadFault n t e f else s
      | _ => s
    | none => s
  else s

/-- GET_COMPLETE (R385): data in WORK, the tag free, a thread that waits for it released. -/
def getComplete (n : Thread) (tag : Fin 4) (s : State) : State :=
  let t := s.thread n
  match t.prog.bind (s.benv t.part) with
  | some e =>
    if t.gets.any (fun g => g.tag == tag) then
      let t' := t.finishGet s e tag
      let s := s.noteMiss t.part (t'.miss - t.miss) 0
      let t := { t' with miss := t.miss }
      let free := match t.st with
        | .waiting (some g) => g == tag
        | .waiting none => true
        | _ => false
      s.setThread n (if free then { t with st := .running } else t)
    else s
  | none => s

/-- Run an encode unit's thread to the end of its last MODEL call (R386); `n` bounds the calls. -/
def finishThread (name : Thread) : Nat → State → State
  | 0, s => s
  | k + 1, s =>
    let t := s.thread name
    if t.inCall then
      match t.prog.bind (s.benv t.part) with
      | none => s
      | some e =>
        match runCall s e (callFuel e) t with
        | (.fault f, t) => s.threadFault name t e f
        | (.exit c, t) => finishThread name k (s.threadExit name t e c)
    else s

end Sys2Proof.Machine
end

