-- ==== Sys2Proof/Machine/Budget.lean ====
section
/-! DEFINITION. Sys2Proof/Machine/Budget.lean: budget accounts, refill, reservation and charge (R169 to R173). -/
namespace Sys2Proof.Machine
open Sys2Proof

/-- Account `n` of a partition; one that BUDGET_SET has not written is unmetered (R170). -/
def State.acct (s : State) (p : Part) (n : Nat) : Account :=
  match (s.parts[p]).accts.find? (fun a => a.num == n) with
  | some a => a
  | none => { num := n }

/-- Chip-memory address of an account record (R158, R169). -/
def State.acctAddr (s : State) (p : Part) (n : Nat) : Nat := fld (s.reg64 (rPrtAcctBase p)) 12 52 * 4096 + s.priv + 32 * n

/-- The 32 bytes of an account record (R169). -/
def acctBytes (a : Account) : List Byte :=
  leBytes 8 (BitVec.ofInt 64 a.balance).toNat ++ leBytes 4 a.rate ++ leBytes 4 a.burst ++ leBytes 2 a.wPrompt ++
  leBytes 2 a.wGen ++ leBytes 1 ((if a.set then 2 else 0) + if a.wait then 1 else 0) ++ leBytes 1 a.overdraft ++
  leBytes 2 0 ++ leBytes 8 a.held

/-- Put an account into a list sorted by number. -/
def acctInsert : List Account → Account → List Account
  | [], a => [a]
  | b :: t, a => if b.num == a.num then a :: t else if a.num < b.num then a :: b :: t else b :: acctInsert t a

/-- Store an account, and its record in the account table where that lies within the partition's ranges (R169). -/
def State.setAcct (s : State) (p : Part) (a : Account) : State :=
  let s := s.partUpd p (fun x => { x with accts := acctInsert x.accts a })
  if s.memOk p (s.acctAddr p a.num) 32 true then s.wrBytes (s.acctAddr p a.num) (acctBytes a) else s

/-- One refill of an account (R171). -/
def Account.refill (a : Account) : Account :=
  if a.set then
    let sum := a.rate * 256 + a.rem
    let b := a.balance + (sum / 1000 : Nat)
    if (a.burst : Int) * 256 < b then { a with balance := (a.burst : Int) * 256, rem := 0 }
    else { a with balance := b, rem := sum % 1000 }
  else a

/-- A refill tick falls in this cycle and has not been taken (R171): a nonzero multiple of 100,000 cycles. A secondary takes the primary's
tick when it comes. -/
def State.refillDue (s : State) : Bool :=
  if s.rf rGlbPairStat 30 2 == 2 then s.pair.given.any (fun d => d.kind == 6)
  else s.time != 0 && s.time % 100000 == 0 && s.refillAt != s.time

/-- A secondary has used the oldest tick that the primary told. -/
def State.useTick (s : State) : State :=
  if s.rf rGlbPairStat 30 2 != 2 then s
  else match s.pair.given.find? (fun d => d.kind == 6) with | some d => s.spend d | none => s

/-- REFILL_TICK (R171): every account of every partition whose SET is 1. -/
def refillTick (s : State) : State :=
  if !s.refillDue then s
  else
    (List.finRange 16).foldl (fun s p => (s.parts[p]).accts.foldl (fun s a => s.setAcct p a.refill) s)
      { s.useTick with refillAt := s.time }

/-- A step or SPEC_VERIFY may become ready (R170, R172). -/
def Account.admitsStep (a : Account) : Bool := !a.set || -256 * (a.overdraft : Int) < a.balance - (a.held : Int)

/-- An ENCODE_APPEND may become ready (R170, R173). -/
def Account.admitsAppend (a : Account) : Bool := !a.set || 256 ≤ a.balance - (a.held : Int)

/-- Tokens a waiting ENCODE_APPEND needs (R173). -/
def Account.needed (a : Account) : Nat := ((256 - (a.balance - (a.held : Int)) + 255) / 256).toNat

/-- Reserve units (R172). -/
def State.reserve (s : State) (p : Part) (n units : Nat) : State :=
  let a := s.acct p n
  if a.set then s.setAcct p { a with held := a.held + units } else s

/-- Remove a reservation (R172). -/
def State.unreserve (s : State) (p : Part) (n units : Nat) : State :=
  let a := s.acct p n
  if a.set then s.setAcct p { a with held := a.held - units } else s

/-- Charge units to an account (R172, R173); an unmetered account's BALANCE stays 0 (R170). -/
def State.charge (s : State) (p : Part) (n units : Nat) : State :=
  let a := s.acct p n
  if a.set then s.setAcct p { a with balance := a.balance - (units : Int) } else s

/-- What BUDGET_SET makes of an account (R170): the first write fills it, a later one clips the balance. -/
def Account.budgetSet (a : Account) (rate burst wPrompt wGen : Nat) (wait : Bool) (odraft : Nat) : Account :=
  let full : Int := (burst : Int) * 256
  { a with
    rate := rate, burst := burst, wPrompt := wPrompt, wGen := wGen, wait := wait, overdraft := odraft, set := true
    balance := if a.set then min a.balance full else full
    rem := if a.set then a.rem else 0 }

/-- REFILL_TICK. -/
def execRefillTick (s : State) : Host.Outcome State Fault Refusal :=
  run (fun s => if s.refillDue then (refillTick s).tell 6 0 0#64 else refillTick s) s

end Sys2Proof.Machine
end

