-- ==== Sys2Proof/Machine/Park.lean ====
section
/-! DEFINITION. Sys2Proof/Machine/Park.lean: storing a strand as a locket, the reclaim ladder, page-stall drains, and admission
(R163 to R168, R174 to R177, R455, R675). -/
namespace Sys2Proof.Machine
open Sys2Proof

/-! ### Storing a locket (R455) -/

/-- How a park ends. -/
inductive ParkRes where
  | fail (st : BitVec 8)
  /-- The warm share lacks room, but lockets can move. -/
  | wait
  | done (id : DWord) (len : Nat) (s : State)
  deriving DecidableEq, Repr

/-- Addresses for `n` copies of `len` bytes. -/
def State.warmPlaces (s : State) (len : Nat) : Nat → List (Nat × Nat) → Option (List Nat × State)
  | 0, taken => some (taken.map (·.1), s)
  | n + 1, taken =>
    match s.warmAlloc taken len with
    | some (a, s) => s.warmPlaces len n (taken ++ [(a, a + len)])
    | none => none

/-- Add a locket to the parked sessions. -/
def State.addLocket (s : State) (l : Locket) : State := { s with lockets := s.lockets ++ [l] }

/-- The stored locket of a body under a park key. -/
def sealBody (k : KeySlot) (pinned : Bool) (id gen : DWord) (sid : Word) (p : Part) (pages : Nat) (body : List Byte) : List Byte :=
  sealLocket k.key gen (locketHeader false pinned (64 + body.length) id gen sid p k.epoch pages) body

/-- Remove a strand with its slot and pages (R156). -/
def State.releaseStrand (s : State) (t : Strand) : State :=
  ((s.strandDel t.part t.session).freePageList t.part t.pages).evalStall t.part

/-- What a park that becomes ready now takes (R466, R510, R535). -/
def State.parkTerms (s : State) (p : Part) : ParkTerms := ⟨s.warmOnly p, s.rb (rPrtMediaCfg p) 31, s.parkKey p⟩

/-- The first conditions of R455 on a partition: warm-only, media read-only, park key; else the key. -/
def State.parkFault (s : State) (p : Part) (cold : Bool) (x : ParkTerms) : Except (BitVec 8) KeySlot :=
  if cold && x.warmOnly then .error stBadEntry
  else if (x.roForce || (s.parts[p]).worn) && !x.warmOnly then .error stMediaWorn
  else match x.key with | none => .error stKeyUnavail | some k => .ok k

/-- Pages of a strand at admission. -/
def Strand.admitPages (t : Strand) : Nat := Machine.admitPages t.bias.length t.cp.isSome t.stack.length t.hist.length

/-- Store a resident strand as a warm locket (R455): the strand must hold exclusion or be idle. -/
def State.storePark (s : State) (t : Strand) (pin cold : Bool) (x : ParkTerms) : ParkRes :=
  let p := t.part
  match s.parkFault p cold x with
  | .error st => .fail st
  | .ok key =>
    let body := s.locketBody t
    let len := 64 + body.length
    let n := if pin then 2 else 1
    let full := if s.lockets.any (fun l => l.part == p && (l.moving || s.canMove l)) then ParkRes.wait else .fail stAdmitDenied
    if !s.warmRoom p (n * len) then full
    else
      match s.warmPlaces len n [] with
      | none => full
      | some (addrs, s) =>
        let (g, s) := s.nextGen p
        let id := locketId p g
        let img := sealBody key pin id g t.session p t.admitPages body
        let s := addrs.foldl (fun s a => s.wrBytes a img) s
        let x : Locket := { part := p, session := t.session, id := id, gen := g, epoch := key.epoch, image := img, body := body
                            pages := t.admitPages, binds := t.holds, pinned := pin, warm := addrs, parkedAt := s.time
                            seq := (s.parts[p]).parkSeq, domain := t.domain, histLen := t.hist.length }
        let s := s.partUpd p (fun y => { y with parkSeq := y.parkSeq + 1 })
        .done id len ((s.addLocket x).releaseStrand t)

/-! ### The reclaim ladder (R163, R675) -/

/-- An op of the partition on a session is queued, ready or in flight. -/
def State.opOn (s : State) (p : Part) (sid : Word) : Bool := s.ctxs.any (fun c => c.part == p && c.sessions.contains sid)

/-- A strand is idle with the given IDLE_MIN. -/
def State.idle (s : State) (t : Strand) (steps : Nat) : Bool :=
  !s.opOn t.part t.session &&
  steps ≤ ((s.sd[t.domain]).step.toNat + 2 ^ 40 - ptStep t.lastStep) % 2 ^ 40 &&
  !(leAt t.params 48 1).testBit 5 && !t.susp && t.ovfCount == 0 && !(s.parts[t.part]).reclaims.contains t.session

/-- Greatest age first, equal ages by ascending session (R675). -/
def State.olderFirst (s : State) (l : List Strand) : List Strand :=
  sortBy (fun a b =>
    let x := s.age a.domain a.lastStep
    let y := s.age b.domain b.lastStep
    y < x || (x == y && a.session.toNat ≤ b.session.toNat)) l

/-- Candidates of the ladder in order; of a secondary those that the primary has told and that it has not taken yet (R621). -/
def State.candidates (s : State) (p : Part) (steps : Nat) : List Strand :=
  if s.role == 2 then
    (s.pair.given.filter (fun d => d.kind == 8 && d.part == p)).filterMap (fun d => s.strand? p (BitVec.ofNat 32 d.arg.toNat))
  else s.olderFirst (s.strands.filter (fun t => t.part == p && s.idle t steps))

/-- Pages that reclaim parks in flight will return (R174). -/
def State.comingPages (s : State) (p : Part) : Nat :=
  ((s.parts[p]).reclaims.map (fun sid => match s.strand? p sid with | some t => t.pages.length | none => 0)).sum

/-- A secondary has taken the candidate. -/
def State.useCandidate (s : State) (t : Strand) : State :=
  if s.role != 2 then s
  else
    match s.pair.given.find? (fun d => d.kind == 8 && d.part == t.part && BitVec.ofNat 32 d.arg.toNat == t.session) with
    | some d => s.spend d
    | none => s

/-- Park candidates in order until `stop` holds. One whose park fails is skipped; one whose park has to wait for moves stays in flight and
holds strand exclusion (R163, R455). -/
def reclaimWalk (stop : State → Bool) : List Strand → State → State
  | [], s => s
  | t :: l, s =>
    if stop s then s
    else
      let s := s.useCandidate t
      match s.storePark t false false (s.parkTerms t.part) with
      | .done id _ s => reclaimWalk stop l ((s.tell 3 t.part (locketGen id)).tell 8 t.part (t.session.zeroExtend 64))
      | .wait => reclaimWalk stop l (s.partUpd t.part (fun x => { x with reclaims := x.reclaims ++ [t.session] }))
      | .fail _ => reclaimWalk stop l s

/-- Reclaim parks in flight go on: those that find room now end, those that fail now are given up. -/
def State.retryReclaims (s : State) (p : Part) : State :=
  (s.parts[p]).reclaims.foldl (fun s sid =>
    let out := fun (s : State) => s.partUpd p (fun x => { x with reclaims := x.reclaims.filter (· != sid) })
    match s.strand? p sid with
    | none => out s
    | some t =>
      match s.storePark t false false (s.parkTerms p) with
      | .done id _ s => out (s.tell 3 p (locketGen id))
      | .wait => s
      | .fail _ => out s) s

/-- Reclaim parks that wait for moves go on as moves end (R163, R455). -/
def State.retryAll (s : State) : State := (List.finRange 16).foldl State.retryReclaims s

/-- LO and HI of PRT_RECLAIM in pages, and IDLE_MIN (R161). -/
def State.reclaimHi (s : State) (p : Part) : Nat := s.rf (rPrtReclaim p) 12 12 * 256
def State.reclaimLo (s : State) (p : Part) : Nat := min (s.rf (rPrtReclaim p) 0 12 * 256) (s.reclaimHi p)
def State.idleMin (s : State) (p : Part) : Nat := s.rf (rPrtReclaim p) 24 8

/-- RECLAIM_RUNG1: FREE below LO starts a walk that stops at HI. Pages that parks in flight will return count. -/
def reclaimRung1 (p : Part) (s : State) : State :=
  let s := s.retryReclaims p
  if s.freePages p < s.reclaimLo p then
    reclaimWalk (fun s => s.reclaimHi p ≤ s.freePages p + s.comingPages p) (s.candidates p (s.idleMin p)) s
  else s

/-- Rung 2: `need` free pages are wanted, for a strand, which is no candidate then (DEDUCED, log entry 11), or for an admission. -/
def reclaimFor (p : Part) (need : Nat) (but : Option Word) (s : State) : State :=
  let met := fun (s : State) => need ≤ s.freePages p + s.comingPages p
  let cands := fun (s : State) (steps : Nat) => (s.candidates p steps).filter (fun t => some t.session != but)
  let s := s.retryReclaims p
  let s := reclaimWalk met (cands s (s.idleMin p)) s
  if met s then s else reclaimWalk met (cands s 0) s

/-- RECLAIM_RUNG2: `need` free pages are wanted. -/
def reclaimRung2 (p : Part) (need : Nat) (s : State) : State := reclaimFor p need none s

/-! ### Draining strands in page stall (R166) -/

/-- The overflow tokens of a strand that holds the pages it needs move to history pages, and OVF_COUNT and SUSP clear. -/
def Strand.drained (t : Strand) : Strand :=
  let (h, k) := t.drainNeed
  { t with
    histPages := t.histPages ++ t.sparePages.take h
    stackPages := t.stackPages ++ (t.sparePages.drop h).take k
    sparePages := t.sparePages.drop (h + k)
    ovfCount := 0
    susp := false }

/-- PAGE_STALL_DRAIN (R166): the strand takes the pages it needs, once every strand that entered the stall before it holds its own, and
keeps them; under strand exclusion it then drains. -/
def pageStallDrain (p : Part) (sid : Word) (s : State) : State :=
  match s.strand? p sid with
  | none => s
  | some t =>
    if !t.stalled || s.stallNeed p sid != 0 then s
    else
      match s.takePages p t.lacks with
      | none => s
      | some (new, s) =>
        let t := { t with sparePages := t.sparePages ++ new }
        if s.excluded p sid none then s.strandUpd p sid (fun _ => t) else s.commitStrand t.drained

/-! ### Admission (R174 to R177) -/

/-- Cluster groups of a partition. -/
def State.ownGroups (s : State) (p : Part) : List Grp := (List.finRange 16).filter (fun g => s.groupOwner g == some p)
/-- FLOOR of a group: at most 12, and at most CEIL (R607, R614). -/
def State.grpCeil (s : State) (g : Grp) : Nat := min 12 (s.rf (rPwrGrpBound g) 16 4)
def State.grpFloor (s : State) (g : Grp) : Nat := min (min 12 (s.rf (rPwrGrpBound g) 8 4)) (s.grpCeil g)
/-- Frequency of a point in units of 100 MHz (R606). -/
def pointUnits (i : Nat) : Nat := 8 + i
/-- The lowest CCLK floor of a partition's groups, in units of 100 MHz. -/
def State.floorUnits (s : State) (p : Part) : Nat :=
  match (s.ownGroups p).map (fun g => pointUnits (s.grpFloor g)) with
  | [] => 0
  | a :: l => l.foldl min a

/-- cost(s) of R175. -/
def State.stepCost (s : State) (p : Part) (cp hook : Option Bound) (veff : Nat) : Nat :=
  (match cp.bind (s.version? p) with | some v => cCERT v.hdr | none => 0) +
  (match hook.bind (s.version? p) with
   | some v => bCYCLES v.hdr * bSPLIT v.hdr * ((veff + 8191) / 8192)
   | none => 0) + 4000
/-- Cost of a resident strand. -/
def State.strandCost (s : State) (t : Strand) : Nat := s.stepCost t.part t.cp t.hook (s.veff t)

/-- Does the projected load stay within the limit (R175)? LOAD_PCT is held within 1 to 100 (R176). -/
def State.loadOk (s : State) (p : Part) (d : Dom) (cost : Nat) : Bool :=
  let load := ((s.strands.filter (fun t => t.part == p && t.domain == d)).map s.strandCost).sum
  let beads := 32 * (s.ownClusters p).length
  let pct := max 1 (min 100 (s.rf (rPrtAdmitCfg p) 24 8))
  (load + cost) * 100 ≤ beads * s.floorUnits p * (s.reg (rGlbSdPeriod d)).toNat * pct

/-- Strand slots of a partition in use: resident strands and reservations (R174). -/
def State.slotsUsed (s : State) (p : Part) : List Nat :=
  (s.strands.filter (fun t => t.part == p)).map (·.slot) ++
  s.ctxs.filterMap (fun c => if c.part == p then c.slot else none)

/-- A refusal: the reason, counted (R177), and the hint. -/
structure Denied where
  reason : Nat
  hint : Nat

/-- The first check of R174 that fails, after rung 2. -/
def State.admitCheck (s : State) (p : Part) (d : Dom) (pages cost : Nat) : Option Denied :=
  let retry := s.rf (rPrtAdmitCfg p) 16 8
  let need := pages + s.rf (rPrtAdmitCfg p) 0 16
  if !(s.parts[p]).stall.isEmpty then some ⟨1, retry⟩
  else if s.freePages p < need then some ⟨2, if need ≤ s.freePages p + s.comingPages p then 1 else retry⟩
  else if s.rf (rPrtStrandCfg p) 0 19 ≤ (s.slotsUsed p).length ||
      262144 ≤ ((List.finRange 16).map (fun q => (s.slotsUsed q).length)).sum then some ⟨3, retry⟩
  else if !s.loadOk p d cost then some ⟨4, retry⟩
  else if (s.ownGroups p).any (fun g => s.rb (rPwrGrpStat g) 31) then some ⟨5, retry⟩
  else if (s.sd[d]).st == .off then some ⟨6, 0⟩
  else none

/-- A free strand slot; which one a free value chooses (DESIGN CHOICE, log entry 2). -/
def State.takeSlot (s : State) (p : Part) : Nat × State :=
  let n := s.rf (rPrtStrandCfg p) 0 19
  let used := s.slotsUsed p
  let (k, s) := s.freeBelow (max 1 n)
  ((((List.range n).map (fun i => (k + i) % n)).find? (fun i => !used.contains i)).getD 0, s)

/-- What admission answers. -/
inductive Admission where
  | denied (hint : Nat) (s : State)
  /-- Slot and pages reserved. -/
  | ok (slot : Nat) (pages : List Nat) (s : State)

/-- Count a refusal (R177): DENIED is 24 bits and saturates; LAST_REASON. -/
def State.countDenied (s : State) (p : Part) (reason : Nat) : State :=
  (s.bumpBy (rPrtAdmitStat p) 8 24 1).setRf (rPrtAdmitStat p) 0 3 reason

/-- ADMISSION (R174). When pages are short, rung 2 is walked first: a park that finds room ends at once, and one that waits for moves is
still in flight at the decision (DEDUCED, log entry 33). -/
def State.admitSession (s : State) (p : Part) (d : Dom) (pages cost : Nat) : Admission :=
  let need := pages + s.rf (rPrtAdmitCfg p) 0 16
  let s := if (s.parts[p]).stall.isEmpty && s.freePages p < need then reclaimFor p need none s else s
  match s.admitCheck p d pages cost with
  | some x => .denied x.hint (s.countDenied p x.reason)
  | none =>
    let (slot, s) := s.takeSlot p
    match s.takePages p pages with
    | some (l, s) => .ok slot l s
    | none => .denied (s.rf (rPrtAdmitCfg p) 16 8) (s.countDenied p 2)

/-- A home cluster for a new strand, or the cluster of a PRETOK program's calls: one that takes new work goes before one that does not (R409, R590,
R602); which one of the partition's the spec leaves open (DESIGN CHOICE, log entry 2). -/
def State.pickHome (s : State) (p : Part) : Clu × State :=
  let cs := if (s.workClusters p).isEmpty then s.ownClusters p else s.workClusters p
  let (k, s) := s.freeBelow (max 1 cs.length)
  ((cs[k]?).getD 0, s)

/-- Share an admitted session's pages out: directory, side, bias, stack, history (R153). -/
def Strand.givePages (t : Strand) (l : List Nat) : Strand :=
  let nb := (t.bias.length + 511) / 512
  let ns := if t.cp.isSome then (if 512 < t.stack.length then 4 else 2) else 0
  { t with
    dirPage := l.getD 0 0, sidePage := l.getD 1 0
    biasPages := (l.drop 2).take nb
    stackPages := (l.drop (2 + nb)).take ns
    histPages := (l.drop (2 + nb + ns)).take ((t.hist.length + 1023) / 1024)
    sparePages := l.drop (2 + nb + ns + (t.hist.length + 1023) / 1024) }

/-- RECLAIM_RUNG1. -/
def execReclaimRung1 (p : Part) (s : State) : Host.Outcome State Fault Refusal := run (reclaimRung1 p) s
/-- RECLAIM_RUNG2. -/
def execReclaimRung2 (p : Part) (need : Nat) (s : State) : Host.Outcome State Fault Refusal := run (reclaimRung2 p need) s
/-- PAGE_STALL_DRAIN. -/
def execPageStallDrain (p : Part) (sid : Word) (s : State) : Host.Outcome State Fault Refusal := run (pageStallDrain p sid) s

end Sys2Proof.Machine
end

