-- ==== Sys2Proof/Machine/Sample.lean ====
section
/-! DEFINITION. Sys2Proof/Machine/Sample.lean: stages 3 to 10 of a step: row formats, the recipe, exponential and logarithm,
selection, cuts, the draw, log-probabilities and the output record (R329 to R362). -/
namespace Sys2Proof.Machine
open Sys2Proof

/-! ### exp_p and ln_p (R337, R338) -/

/-- Round to an integer, ties to even; for finite values. -/
def fpRoundHalfEven (a : Word) : Int :=
  let u := fpUnit a
  let m := fpMant a
  let n : Nat := if 0 ≤ u then m <<< u.toNat
    else
      let k := (-u).toNat
      let q := m >>> k
      let r := m % 2 ^ k
      if 2 * r > 2 ^ k || (2 * r == 2 ^ k && q % 2 == 1) then q + 1 else q
  if fpSign a then -(n : Int) else n

/-- C[6] to C[0]. -/
def expC : List Word :=
  [0x39218489#32, 0x3AAEC3FF#32, 0x3C1D955B#32, 0x3D635847#32, 0x3E75FDF0#32, 0x3F317218#32, 0x3F800000#32]

/-- exp_p (R337). -/
def expP (x : Word) : Word :=
  if x == fpNegInf then 0#32
  else if x == fpInf then fpInf
  else if fpIsNaN x then fpNaN
  else
    let y := fpMul x 0x3FB8AA3B#32
    if fpLt y 0xC3160000#32 then 0#32
    else if fpLt 0x43000000#32 y then fpInf
    else
      let n := fpRoundHalfEven y
      let f := fpSub y (fpRoundInt n 0)
      let p := match expC with
        | c :: t => t.foldl (fun p c => fpAdd (fpMul p f) c) c
        | [] => 0#32
      fpRound false (fpMant p) (fpUnit p + n) false

/-- ln_p (R338), for arguments that are not negative. -/
def lnP (s : Word) : Word :=
  if fpIsZero s then fpNegInf
  else if s == fpInf then fpInf
  else
    let m := fpMant s
    let k := Nat.log2 m
    let e : Int := fpUnit s + k
    let a := fpRound false m (-(k : Int)) false
    let one := 0x3F800000#32
    let (a, e) := if fpLe 0x3FC00000#32 a then (fpMul a 0x3F000000#32, e + 1) else (a, e)
    let t := fpDiv (fpSub a one) (fpAdd a one)
    let t2 := fpMul t t
    let q := [0x3E124925#32, 0x3E4CCCCD#32, 0x3EAAAAAB#32, one].foldl (fun q d => fpAdd (fpMul q t2) d) 0x3DE38E39#32
    fpAdd (fpMul (fpRoundInt e 0) 0x3F317218#32) (fpMul 0x40000000#32 (fpMul t q))

/-! ### Row input (R331 to R334) -/

/-- A small binary float of `eb` exponent bits, `mb` fraction bits and a bias, all finite, times 2 ^ `sh`. -/
def smallFloat (eb mb bias : Nat) (x : Nat) (sh : Int) : Word :=
  let f := x % 2 ^ mb
  let e := nf x mb eb
  let neg := x.testBit (eb + mb)
  if e == 0 then fpRound neg f (1 - (bias : Int) - mb + sh) false
  else fpRound neg (2 ^ mb + f) ((e : Int) - bias - mb + sh) false

/-- Widen a float with infinities and NaN in its top exponent. -/
def widen (eb mb bias x : Nat) : Word :=
  if nf x mb eb == 2 ^ eb - 1 then (if x % 2 ^ mb == 0 then fpInfS (x.testBit (eb + mb)) else fpNaN)
  else smallFloat eb mb bias x 0

/-- Bytes that hold the elements of `n` tokens, scales apart (R331, R332). -/
def rowBytes (fmt n : Nat) : Nat :=
  let b := (n + 31) / 32
  match fmt with
  | 0 => 4 * n
  | 1 | 2 | 9 => 2 * n
  | 5 | 6 => 24 * b
  | 7 => 16 * b
  | _ => n

/-- Value of token `t` of the row at `a` (R332, R333). -/
def State.rowValue (s : State) (fmt : Nat) (aux : Word) (a t : Nat) : Word :=
  let mx := fun (eb mb bias x : Nat) =>
    let sc := s.rdLE (a + aux.toNat + t / 32) 1
    if sc == 0xFF then fpNaN else smallFloat eb mb bias x ((sc : Int) - 127)
  let six := nf (s.rdLE (a + 3 * (t / 4)) 3) (6 * (t % 4)) 6
  match fmt with
  | 0 => BitVec.ofNat 32 (s.rdLE (a + 4 * t) 4)
  | 1 => BitVec.ofNat 32 (s.rdLE (a + 2 * t) 2 * 65536)
  | 2 => widen 5 10 15 (s.rdLE (a + 2 * t) 2)
  | 3 =>
    let x := s.rdLE (a + t) 1
    if x % 128 == 127 then fpNaN else smallFloat 4 3 7 x 0
  | 4 => widen 5 2 15 (s.rdLE (a + t) 1)
  | 5 => mx 3 2 3 six
  | 6 => mx 2 3 1 six
  | 7 => mx 2 1 1 (nf (s.rdLE (a + t / 2) 1) (4 * (t % 2)) 4)
  | 8 => fpMul (fpRoundInt (BitVec.ofNat 8 (s.rdLE (a + t) 1)).toInt 0) aux
  | _ => fpMul (fpRoundInt (BitVec.ofNat 16 (s.rdLE (a + 2 * t) 2)).toInt 0) aux

/-- FMT, CAND and AUX are valid for `n` tokens (R331 to R335). -/
def rowFormOk (fmt : Nat) (cand : Bool) (aux : Word) (n : Nat) : Bool :=
  if cand then fmt == 0 && 1 ≤ aux.toNat && aux.toNat ≤ 65536
  else if fmt ≤ 4 then aux == 0#32
  else if fmt ≤ 7 then aux.toNat % 64 == 0 && rowBytes fmt n ≤ aux.toNat
  else if fmt ≤ 9 then !fpIsNaN aux && !fpIsInf aux && fpLt 0#32 aux
  else false

/-- Every byte a row, its scales or a candidate list takes may be read (R331, R335). -/
def rowInRange (rng : List MemRange) (fmt : Nat) (cand : Bool) (aux : Word) (a n : Nat) : Bool :=
  if cand then rangesCover rng a (64 + 8 * aux.toNat) false
  else rangesCover rng a (rowBytes fmt n) false &&
    (!(5 ≤ fmt && fmt ≤ 7) || rangesCover rng (a + aux.toNat) ((n + 31) / 32) false)

/-- The candidates of a list at `a` (R334). -/
def State.candList (s : State) (aux : Word) (a : Nat) : List Cand :=
  (List.range aux.toNat).map (fun i =>
    ⟨s.rdLE (a + 64 + 8 * i) 4, BitVec.ofNat 32 (s.rdLE (a + 68 + 8 * i) 4)⟩)

/-! ### The session's sampling parameters (R150, R329, R330, R341, R344, R345) -/

/-- Recipe stages. -/
abbrev stPENALTY : Nat := 1
abbrev stBIAS : Nat := 2
abbrev stHOOK : Nat := 3
abbrev stTEMP : Nat := 4
abbrev stTOPK : Nat := 5
abbrev stTOPP : Nat := 6
abbrev stMINP : Nat := 7
abbrev stDRAW : Nat := 8

def pSEED (b : List Byte) : DWord := BitVec.ofNat 64 (leAt b 0 8)
def pFp (b : List Byte) (o : Nat) : Word := BitVec.ofNat 32 (leAt b o 4)
def pTEMP (b : List Byte) : Word := pFp b 8
def pTOPP (b : List Byte) : Word := pFp b 12
def pMINP (b : List Byte) : Word := pFp b 16
def pTOPK (b : List Byte) : Nat := leAt b 20 4
def pREP (b : List Byte) : Word := pFp b 24
def pFREQ (b : List Byte) : Word := pFp b 28
def pPRES (b : List Byte) : Word := pFp b 32
def pWINDOW (b : List Byte) : Nat := leAt b 36 4
def pFlag (b : List Byte) (i : Nat) : Bool := (leAt b 48 1).testBit i
def pNALTS (b : List Byte) : Nat := leAt b 49 1
def pHOOKID (b : List Byte) : Word := BitVec.ofNat 32 (leAt b 52 4)
def pHOOK (b : List Byte) : Bool := pFlag b 4
def pSPEC (b : List Byte) : Bool := pFlag b 2

/-- 1.0 ÷ x. -/
def fpInv (x : Word) : Word := fpDiv 0x3F800000#32 x
/-- The codes of RECIPE before its end. -/
def recipeCodes (b : List Byte) : List Nat := ((List.range 8).map (fun i => leAt b (40 + i) 1)).takeWhile (· != 0)
/-- The recipe (R329). -/
def recipe (b : List Byte) : List Nat :=
  if leAt b 40 8 == 0 then
    [stPENALTY, stBIAS] ++ (if pHOOK b then [stHOOK] else []) ++ [stTEMP, stTOPK, stTOPP, stMINP, stDRAW]
  else recipeCodes b
/-- Stages before TOPK. -/
def rowStagesOf (b : List Byte) : List Nat := (recipe b).takeWhile (· != stTOPK)
/-- Stages after TOPK. -/
def listStagesOf (b : List Byte) : List Nat := ((recipe b).dropWhile (· != stTOPK)).drop 1

/-- Times a stage appears. -/
def stageCount (l : List Nat) (x : Nat) : Nat := (l.filter (· == x)).length

/-- Does RECIPE meet R329 and R330? -/
def recipeOk (b : List Byte) : Bool :=
  if leAt b 40 8 == 0 then true
  else
    let l := recipeCodes b
    let row := l.takeWhile (· != stTOPK)
    let lst := (l.dropWhile (· != stTOPK)).drop 1
    let pre := if lst.contains stTEMP then lst.takeWhile (· != stTEMP) else lst
    let post := (lst.dropWhile (· != stTEMP)).drop 1
    (List.range 8).all (fun i => i < l.length || leAt b (40 + i) 1 == 0) && l.all (· ≤ 8) &&
    stageCount l stTOPK == 1 && stageCount l stDRAW == 1 && l.getLast? == some stDRAW &&
    stageCount l stPENALTY ≤ 1 && stageCount l stBIAS ≤ 1 && stageCount l stHOOK == (if pHOOK b then 1 else 0) &&
    [stPENALTY, stBIAS, stHOOK].all (fun x => stageCount lst x == 0) &&
    stageCount row stTEMP ≤ 1 && stageCount lst stTEMP ≤ 1 &&
    [stTOPP, stMINP].all (fun x => stageCount row x == 0 && stageCount pre x ≤ 1 && stageCount post x ≤ 1)

/-- Is a value finite? -/
def fpFinite (x : Word) : Bool := !fpIsNaN x && !fpIsInf x

/-- Are the fields of a parameter block within R150 and R345 for an effective size? The bias list and stop strings are checked
where they are read. -/
def paramsOk (b : List Byte) (veff : Nat) : Bool :=
  let t := pTEMP b
  let one := 0x3F800000#32
  (fpIsZero t || (fpFinite t && fpLt 0#32 t && fpFinite (fpInv t))) &&
  fpLt 0#32 (pTOPP b) && fpLe (pTOPP b) one && fpLe 0#32 (pMINP b) && fpLt (pMINP b) one && pTOPK b ≤ veff &&
  fpFinite (pREP b) && fpLt 0#32 (pREP b) && fpFinite (fpInv (pREP b)) && fpFinite (pFREQ b) && fpFinite (pPRES b) &&
  pWINDOW b ≤ 1048576 && recipeOk b && leAt b 48 1 < 64 && pNALTS b ≤ 20 && leAt b 50 2 ≤ 1024 && leAt b 72 1 ≤ 16 &&
  zeroBytes b 73 74 && leAt b 76 2 < 4096 && zeroBytes b 78 256

/-! ### Row-domain stages (R340 to R344) -/

/-- Values of the allowed tokens in ascending token order, and the tokens NaN has turned to −∞. -/
structure RowVals where
  vals : List Cand
  nan  : List Nat := []
deriving DecidableEq, Repr

/-- R340: NaN becomes −∞ and counts once. -/
def RowVals.fixNaN (r : RowVals) : RowVals :=
  { vals := r.vals.map (fun c => if fpIsNaN c.val then { c with val := fpNegInf } else c)
    nan := r.nan ++ ((r.vals.filter (fun c => fpIsNaN c.val && !r.nan.contains c.tok)).map (·.tok)) }

/-- Apply a function to every value. -/
def RowVals.mapVals (r : RowVals) (f : Cand → Word) : RowVals :=
  RowVals.fixNaN { r with vals := r.vals.map (fun c => { c with val := f c }) }

/-- The penalty list: counts of the distinct tokens in the last `w` of a history, ascending (R341). -/
def penaltyList (w : Nat) (hist : List Nat) : List (Nat × Nat) :=
  let l := sortBy (· ≤ ·) (hist.drop (hist.length - w))
  l.foldr (fun t acc => match acc with
    | (u, n) :: rest => if u == t then (u, n + 1) :: rest else (t, 1) :: (u, n) :: rest
    | [] => [(t, 1)]) []

/-- PENALTY (R341). -/
def stagePenalty (b : List Byte) (pen : List (Nat × Nat)) (r : RowVals) : RowVals :=
  if pWINDOW b == 0 then r
  else
    let cnt := fun (t : Nat) => ((pen.find? (fun x => x.1 == t)).map (·.2)).getD 0
    let inv := fpInv (pREP b)
    let r := r.mapVals (fun c =>
      if cnt c.tok == 0 then c.val
      else if fpLe 0#32 c.val then fpMul c.val inv else fpMul c.val (pREP b))
    let r := r.mapVals (fun c =>
      if cnt c.tok == 0 then c.val else fpSub c.val (fpMul (fpRoundInt (cnt c.tok) 0) (pFREQ b)))
    r.mapVals (fun c => if cnt c.tok == 0 then c.val else fpSub c.val (pPRES b))

/-- BIAS (R342). -/
def stageBias (bias : List (Nat × Word)) (r : RowVals) : RowVals :=
  bias.foldl (fun r e => r.mapVals (fun c => if c.tok == e.1 then fpAdd c.val e.2 else c.val)) r

/-- Tokens of piece `j`. -/
def pieceOf (j : Nat) (l : List Cand) : List Cand := l.filter (fun c => c.tok / 8192 == j)

/-- HOOK (R343): piece by piece; the first fault ends it. -/
def stageHook {σ : Type} (hk : σ → Nat → List Cand → Option (BitVec 8) × List Cand × σ) :
    List Nat → RowVals → σ → Option (BitVec 8) × RowVals × σ
  | [], r, s => (none, r, s)
  | j :: t, r, s =>
    match hk s j (pieceOf j r.vals) with
    | (some st, _, s) => (some st, r, s)
    | (none, l, s) =>
      stageHook hk t (RowVals.fixNaN { r with vals := r.vals.map (fun c =>
        if c.tok / 8192 == j then (l.find? (fun d => d.tok == c.tok)).getD c else c) }) s

/-- The stages before TOPK in recipe order. -/
def rowStages {σ : Type} (hk : σ → Nat → List Cand → Option (BitVec 8) × List Cand × σ) (b : List Byte)
    (pen : List (Nat × Nat)) (bias : List (Nat × Word)) (veff : Nat) :
    List Nat → RowVals → σ → Option (BitVec 8) × RowVals × σ
  | [], r, s => (none, r, s)
  | c :: t, r, s =>
    if c == stHOOK then
      match stageHook hk (List.range ((veff + 8191) / 8192)) r s with
      | (none, r, s) => rowStages hk b pen bias veff t r s
      | x => x
    else
      let r := if c == stPENALTY then stagePenalty b pen r
        else if c == stBIAS then stageBias bias r
        else if fpIsZero (pTEMP b) then r else r.mapVals (fun c => fpMul c.val (fpInv (pTEMP b)))
      rowStages hk b pen bias veff t r s

/-! ### Selection (R346 to R349) -/

/-- Key order (R339). -/
def candBefore (a b : Cand) : Bool := fpLt b.val a.val || (fpEq a.val b.val && a.tok < b.tok)

/-- combine (R347). -/
def combine (a b : Word × Word) : Word × Word :=
  if fpIsZero a.2 then b
  else if fpIsZero b.2 then a
  else
    let m := fpMax a.1 b.1
    (m, fpAdd (fpMul a.2 (expP (fpSub a.1 m))) (fpMul b.2 (expP (fpSub b.1 m))))

/-- The root over the positions [lo, lo + 2 ^ bits) (R347). -/
def sumTree : Nat → Nat → List Cand → Word × Word
  | 0, _, l =>
    match l with
    | c :: _ => if fpFinite c.val then (c.val, 0x3F800000#32) else (fpNegInf, 0#32)
    | [] => (fpNegInf, 0#32)
  | n + 1, lo, l =>
    if l.isEmpty then (fpNegInf, 0#32)
    else
      let mid := lo + 2 ^ n
      combine (sumTree n lo (l.filter (fun c => c.tok < mid))) (sumTree n mid (l.filter (fun c => mid ≤ c.tok)))

/-- R346 on the values that enter TOPK: the values, INF, ALLNEG. -/
def topkCases (l : List Cand) : List Cand × Bool × Bool :=
  if l.any (fun c => c.val == fpInf) then
    ((l.filter (fun c => c.val == fpInf)).map (fun c => { c with val := 0#32 }), true, false)
  else if l.all (fun c => !fpFinite c.val) then (l.map (fun c => { c with val := 0#32 }), false, true)
  else (l, false, false)

/-- The list width k_s (R348). -/
def listWidth (b : List Byte) : Nat := if 1 ≤ pTOPK b && pTOPK b ≤ 256 then pTOPK b else 256

/-- TOPK: what it forms from the row's values (R346 to R349). -/
def formSamp (b : List Byte) (r : RowVals) (lse : Word) (isCand hook : Bool) : Samp :=
  let (l, inf, neg) := topkCases r.vals
  let (m, sAll) := sumTree 22 0 l
  let ranks := (sortBy candBefore l).take (listWidth b)
  { m := m, sAll := sAll, lse := lse, count := l.length, ranks := ranks, listLen := ranks.length, inf := inf, allneg := neg,
    isCand := isCand, hook := hook, nans := r.nan.length }

/-- cum(j) over ranks (R349). -/
def cumTo (ranks : List Cand) (m : Word) (j : Nat) : Word :=
  (ranks.take (j + 1)).foldl (fun acc c => fpAdd acc (expP (fpSub c.val m))) 0#32

/-! ### Cuts and the draw (R350 to R356) -/

/-- The list domain in progress: ranks found, whether more exist, m, J and S_cur. -/
structure Cut where
  ranks : List Cand
  m : Word
  j : Nat
  sCur : Word
  limit : Bool := false
  inf : Bool := false
deriving DecidableEq, Repr

/-- Which ranks must be found next (R353): none found yet beyond the end. -/
inductive CutRes where
  | need
  | ok (c : Cut)
deriving DecidableEq, Repr

/-- A stage needs a rank that is not found: another pass, or the limit. -/
def Cut.stop (c : Cut) (atLimit : Bool) : CutRes :=
  if atLimit then
    let j := c.ranks.length - 1
    .ok { c with j := j, sCur := cumTo c.ranks c.m j, limit := true }
  else .need

/-- TOPP (R351). -/
def cutTopp (b : List Byte) (c : Cut) (atLimit : Bool) : CutRes :=
  if fpLe 0x3F800000#32 (pTOPP b) then .ok c
  else
    let target := fpMul (pTOPP b) c.sCur
    match (List.range (min (c.j + 1) c.ranks.length)).find? (fun r => fpLe target (cumTo c.ranks c.m r)) with
    | some r => .ok { c with j := r, sCur := cumTo c.ranks c.m r }
    | none => if c.j < c.ranks.length then .ok c else c.stop atLimit

/-- MINP (R352). -/
def cutMinp (b : List Byte) (c : Cut) (atLimit : Bool) : CutRes :=
  if fpIsZero (pMINP b) then .ok c
  else
    match (c.ranks.take (c.j + 1)).findIdx? (fun x => fpLt (expP (fpSub x.val c.m)) (pMINP b)) with
    | some r => .ok { c with j := r - 1, sCur := cumTo c.ranks c.m (r - 1) }
    | none => if c.j < c.ranks.length then .ok { c with sCur := cumTo c.ranks c.m c.j } else c.stop atLimit

/-- TEMP after TOPK (R350, R346). -/
def cutTemp (b : List Byte) (c : Cut) : Cut :=
  if fpIsZero (pTEMP b) then c
  else
    let kept := (c.ranks.take (min c.j 255 + 1)).map (fun x => { x with val := fpMul x.val (fpInv (pTEMP b)) })
    let infs := kept.filter (fun x => x.val == fpInf)
    let kept := if infs.isEmpty then kept else infs.map (fun x => { x with val := 0#32 })
    let m := (kept.head?.map (·.val)).getD fpNegInf
    { c with ranks := kept, m := m, j := kept.length - 1, sCur := cumTo kept m (kept.length - 1),
             inf := c.inf || !infs.isEmpty }

/-- Is the draw greedy (R356)? -/
def isGreedy (b : List Byte) : Bool := pFlag b 1 || fpIsZero (pTEMP b)

/-- The stages between TOPK and DRAW. -/
def cutStages (b : List Byte) (atLimit : Bool) : List Nat → Cut → CutRes
  | [], c => .ok c
  | x :: t, c =>
    if x == stTEMP then cutStages b atLimit t (cutTemp b c)
    else if isGreedy b then cutStages b atLimit t c
    else
      match (if x == stTOPP then cutTopp b c atLimit else if x == stMINP then cutMinp b c atLimit else .ok c) with
      | .need => .need
      | .ok c => cutStages b atLimit t c

/-- The kept bound and current sum at TOPK (R349), then every stage before DRAW. -/
def runCuts (b : List Byte) (s : Samp) (atLimit : Bool) : CutRes :=
  let k := pTOPK b
  let c : Cut := ⟨s.ranks, s.m, s.count - 1, s.sAll, false, s.inf⟩
  let st := if isGreedy b then CutRes.ok { c with j := 0, sCur := 0x3F800000#32 }
    else if 1 ≤ k && k < s.count then
      (if k ≤ s.ranks.length then .ok { c with j := k - 1, sCur := cumTo s.ranks s.m (k - 1) } else c.stop atLimit)
    else .ok c
  match st with
  | .need => .need
  | .ok c => cutStages b atLimit (listStagesOf b) c

/-- The random number u of a draw (R354): step count and node. -/
def drawU (b : List Byte) (steps : BitVec 40) (node : Nat) : Word :=
  let x := philox (pSEED b) [fld steps 0 32, node * 256 + fld steps 32 8, 0, 0]
  fpMul (fpRoundInt ((x.headD 0) / 256) 0) 0x33800000#32

/-- The record's content for a chosen token (R358, R361): its value at DRAW and at TOPK. -/
def mkDrawn (b : List Byte) (s : Samp) (c : Cut) (tok : Nat) (v vK : Word) (fallback dpass : Bool) : Drawn :=
  let rem := s.isCand && s.lse != fpNegInf
  let sFull := if rem then fpAdd s.sAll (expP (fpSub s.lse s.m)) else s.sAll
  let lnF := lnP sFull
  let full := fun (x : Word) => fpSub (fpSub x s.m) lnF
  let sCur := if isGreedy b then 0x3F800000#32 else c.sCur
  { tok := tok, logprob := fpSub (fpSub v c.m) (lnP sCur), full := full vK
    alts := ((s.ranks.take s.listLen).take (pNALTS b)).map (fun x => ⟨x.tok, full x.val⟩)
    flags := (if isGreedy b then 2 else 0) + (if c.inf then 4 else 0) + (if s.allneg then 8 else 0) +
      (if s.isCand then 16 else 0) + (if s.hook then 32 else 0) + (if s.passes == 0 then 0 else 64) +
      (if dpass then 128 else 0)
    flags2 := (if fallback then 1 else 0) + (if c.limit then 2 else 0) + (if rem then 4 else 0)
    nans := s.nans, fetches := 1 + s.passes + (if dpass then 1 else 0) }

/-- Value at TOPK of a rank. -/
def Samp.valOf (s : Samp) (t : Nat) : Word := ((s.ranks.find? (fun x => x.tok == t)).map (·.val)).getD fpNegInf

/-- What DRAW does with the ranks it has (R355, R356): a token, or none when a draw pass must run. -/
def drawList (b : List Byte) (s : Samp) (c : Cut) (u : Word) : Option Drawn :=
  let pick := fun (x : Cand) fb => mkDrawn b s c x.tok x.val (s.valOf x.tok) fb false
  if isGreedy b then c.ranks.head?.map (fun x => pick x false)
  else
    let target := fpMul u c.sCur
    match (List.range (min c.j 255 + 1)).find? (fun r => fpLt target (cumTo c.ranks c.m r)) with
    | some r => c.ranks[r]?.map (fun x => pick x false)
    | none => if c.j ≤ 255 then c.ranks[c.j]?.map (fun x => pick x true) else none

/-- Scan one piece in ascending token order (R355). -/
def scanPiece (m target : Word) : Word → List Cand → Word × Option Cand
  | acc, [] => (acc, none)
  | acc, c :: t =>
    let acc := fpAdd acc (expP (fpSub c.val m))
    if fpLt target acc then (acc, some c) else scanPiece m target acc t

/-- The pieces in ascending order (R355). -/
def scanPieces (m target : Word) (others : List Cand) : List Nat → Word → Option Cand
  | [], _ => none
  | j :: t, acc =>
    let l := pieceOf j others
    let (mj, sj) := sumTree 13 (8192 * j) l
    let q := if fpIsZero sj then 0#32 else fpMul sj (expP (fpSub mj m))
    if fpLt target (fpAdd acc q) then
      match scanPiece m target acc l with
      | (_, some c) => some c
      | (acc, none) => scanPieces m target others t acc
    else scanPieces m target others t (fpAdd acc q)

/-- The draw pass (R355) over the values of a fresh fetch. -/
def drawPass (b : List Byte) (s : Samp) (c : Cut) (u : Word) (vals : List Cand) : Drawn :=
  let first := (c.ranks.take 256).map (·.tok)
  let kept := if c.j + 1 == s.count then vals else
    let l := (c.ranks.take (c.j + 1)).map (·.tok)
    vals.filter (fun x => l.contains x.tok)
  let others := kept.filter (fun x => !first.contains x.tok)
  let target := fpMul u c.sCur
  match scanPieces c.m target others (List.range 512) (cumTo c.ranks c.m 255) with
  | some x => mkDrawn b s c x.tok x.val x.val false true
  | none =>
    match others.getLast? with
    | some x => mkDrawn b s c x.tok x.val x.val true true
    | none => mkDrawn b s c 0 fpNegInf fpNegInf true true

/-- An extension pass (R353): the next 256 allowed tokens after the last rank found, from the values of a fresh fetch. -/
def Samp.extend (s : Samp) (vals : List Cand) : Samp :=
  let have_ := s.ranks.map (·.tok)
  let more := (sortBy candBefore (vals.filter (fun x => !have_.contains x.tok))).take 256
  { s with ranks := s.ranks ++ more, passes := s.passes + 1 }

/-- Selection and draw carried to the end on one set of values (R325): for a tree node. `n` bounds the passes. -/
def drawAll (b : List Byte) (maxPasses : Nat) (u : Word) (vals : List Cand) : Nat → Samp → Samp × Option Drawn
  | 0, s => (s, none)
  | n + 1, s =>
    match runCuts b s (maxPasses != 0 && maxPasses ≤ s.passes) with
    | .need => drawAll b maxPasses u vals n (s.extend vals)
    | .ok c =>
      match drawList b s c u with
      | some d => (s, some d)
      | none => (s, some (drawPass b s c u vals))

/-! ### The output record (R360, R361) -/

/-- The 192 bytes of a record: `index` none32 when no token is delivered; a step that did not commit delivers none, and its record
carries FLAGS, PASSES and NAN_COUNT as far as reached. -/
def recordBytes (session : Word) (status : BitVec 8) (committed : Bool) (d : Drawn) (index node : Nat) : List Byte :=
  let on := fun (n : Nat) => if committed then n else 0
  leBytes 4 session.toNat ++ leBytes 1 status.toNat ++ leBytes 1 (d.flags + on 1) ++ leBytes 1 (on d.alts.length) ++
  leBytes 1 d.flags2 ++ leBytes 4 (if committed then d.tok else none32) ++ leBytes 4 (on d.logprob.toNat) ++
  leBytes 4 (on d.full.toNat) ++ leBytes 4 d.nans ++ leBytes 4 index ++ leBytes 2 (min d.fetches 65535) ++ leBytes 1 node ++
  leBytes 1 0 ++ padTo 160 (if committed then d.alts.flatMap (fun a => leBytes 4 a.tok ++ leBytes 4 a.val.toNat) else [])

end Sys2Proof.Machine
end

