-- ==== Sys2Proof/Machine/RunAhead.lean ====
section
/-! DEFINITION. Sys2Proof/Machine/RunAhead.lean: masks of a strand's configurations, the run-ahead result and its area, and the pages
a step takes in advance (R26, R163, R300 to R307). -/
namespace Sys2Proof.Machine
open Sys2Proof

/-! ### Masks -/

/-- The bound CP of a strand with the vocabulary it steps under. -/
def State.cpEnv (s : State) (t : Strand) : Option CpEnv :=
  match t.cp.bind (s.version? t.part), s.voc t.part t.vocab t.ovl with
  | some v, some voc => some ⟨voc, v.hdr, v.sects, cpEnds v.hdr v.sects⟩
  | _, _ => none

/-- The check program of a strand's CP: the version the CP holds (R183). -/
def State.cpCheck (s : State) (t : Strand) : Option Bound :=
  match t.cp.bind (s.version? t.part) with
  | some v => if cCHECKID v.hdr == 0#32 then none else v.binds.find? (fun b => b.id == cCHECKID v.hdr)
  | none => none

/-- A strand's configuration, top frame first. -/
def Strand.config (t : Strand) : CpConfig := ⟨t.cpState, t.stack.reverse⟩

/-- The mask of a configuration of a strand whose history has `len` tokens, at tree node `node` (R300). -/
def State.buildMask (s : State) (t : Strand) (mode : CallMode) (g : CpConfig) (len node : Nat) : MaskRes × State :=
  match s.cpEnv t with
  | none => ({ record := allRecord }, s)
  | some c =>
    match s.cpCheck t with
    | none => c.mask g len (fun s _ _ => (.allow, s)) 0 s
    | some prog =>
      let cost := match s.version? t.part prog with | some v => bUNITS v.hdr | none => 0
      c.mask g len (fun s tok g => checkCall t.part t.home prog mode len node s tok g) cost s

/-- Bytes of the MASKS section of a strand's CP. -/
def State.masksOf (s : State) (t : Strand) : List Byte :=
  match t.cp.bind (s.version? t.part) with | some v => sectOf v.sects secMasks | none => []

/-- The END tokens of a strand's CP. -/
def State.endsOf (s : State) (t : Strand) : List Nat :=
  match t.cp.bind (s.version? t.part) with | some v => cpEnds v.hdr v.sects | none => []

/-- The tokens a mask of a strand allows, ascending. -/
def State.allowed (s : State) (t : Strand) (m : MaskRes) : List Nat :=
  match s.voc t.part t.vocab t.ovl with
  | some v => maskAllowed v (s.masksOf t) (s.endsOf t) m
  | none => []

/-- CERT_UNITS of a strand's CP (R295). -/
def State.certUnits (s : State) (t : Strand) : Option Nat := (t.cp.bind (s.version? t.part)).map (fun v => cUNITS v.hdr)

/-- Count an overrun of the certificate (R295). -/
def State.countOverrun (s : State) (t : Strand) (units : Nat) : State :=
  match s.certUnits t with
  | some c => if c < units then s.bump (rPrtCpOverrun t.part) else s
  | none => s

/-- Count a step that fails for an empty allowed set (R291). -/
def State.countEmpty (s : State) (p : Part) (st : BitVec 8) : State :=
  if st == stStackOvf then s.bump (rPrtCpOvf p) else s.bump (rPrtCpDead p)

/-! ### Pages a step needs (R163, R168) -/

/-- Take `n` pages for a strand's step or append, after rung 2 of the ladder; what strands that entered page stall before it still need goes to
them (R163, R166 to R168). The parks of a walk stand whether or not they meet the need. -/
def State.stepPages (s : State) (p : Part) (sid : Word) (n : Nat) : Option (List Nat) × State :=
  if n == 0 then (some [], s)
  else
    let need := n + s.stallNeed p sid
    let s := if s.freePages p < need then reclaimFor p need (some sid) s else s
    if s.freePages p < n + s.stallNeed p sid then (none, s)
    else
      match s.takePages p n with
      | some (l, s) => (some l, s)
      | none => (none, s)

/-- The next token of a strand needs a history page that the strand does not hold. -/
def Strand.needsHist (t : Strand) : Bool :=
  t.ovfCount == 0 && t.hist.length % 1024 == 0 && t.hist.length < 1048576 && t.sparePages.isEmpty

/-! ### The run-ahead result (R302, R305) -/

/-- The result as a mask. -/
def RunAhead.mask (r : RunAhead) : MaskRes :=
  { record := r.record.toNat, allow := r.allow, exclude := r.exclude, ovf := r.ovf, units := r.units, fault := r.fault }

/-- Build a strand's run-ahead result (R303): its mask, its penalty list. -/
def State.makeRa (s : State) (t : Strand) (mode : CallMode) : RunAhead × State :=
  let (m, s) := s.buildMask t mode t.config t.hist.length 0
  let (k, s) := s.freeBelow (2 ^ 30)
  ({ epoch := t.epoch, record := BitVec.ofNat 32 m.record, allow := m.allow, exclude := m.exclude, ovf := m.ovf
     penalty := penaltyList (pWINDOW t.params) t.hist, fault := m.fault, units := m.units, size := k }, s)

/-- Bytes of a cluster's run-ahead area (R307). -/
def State.raArea (s : State) (p : Part) : Nat := s.raBanks p * 65536

/-- A strand with a batch item or a verification queued or ready. -/
def State.raPinned (s : State) (t : Strand) : Bool :=
  s.ctxs.any (fun c => c.part == t.part && c.st != .past && c.sessions.contains t.session &&
    [opSTEP_BATCH, opMASK_BATCH, opSPEC_VERIFY].contains (eOp c.entry))

/-- Results held on a cluster for a partition, in bytes. -/
def State.raUsed (s : State) (p : Part) (c : Clu) : Nat :=
  ((s.strands.filter (fun t => t.part == p && t.home == c)).map (fun t => match t.ra with | some r => r.size | none => 0)).sum

/-- Drop a strand's result. -/
def State.dropRa (s : State) (t : Strand) : State := s.strandUpd t.part t.session (fun x => { x with ra := none })

/-- Evict results in order until `need` bytes fit (R305). -/
def evictRa (p : Part) (c : Clu) (need : Nat) : List Strand → State → State
  | [], s => s
  | t :: l, s =>
    if s.raUsed p c + need ≤ s.raArea p then s else evictRa p c need l (s.dropRa t)

/-- Strands whose results may be evicted from a cluster, oldest first. -/
def State.evictable (s : State) (p : Part) (c : Clu) : List Strand :=
  s.olderFirst (s.strands.filter (fun t => t.part == p && t.home == c && t.ra.isSome && !s.raPinned t))

/-- Store a result in its cluster's area; a result that finds no room is not held. -/
def State.storeRa (s : State) (t : Strand) (r : RunAhead) : State :=
  let s := evictRa t.part t.home r.size (s.evictable t.part t.home) s
  if s.raUsed t.part t.home + r.size ≤ s.raArea t.part then
    s.strandUpd t.part t.session (fun x => { x with ra := some r, raDue := false })
  else s.strandUpd t.part t.session (fun x => { x with raDue := false })

/-- Take the second stack pages of a strand whose depth is above 512 and that does not hold them, as after a ROLLBACK (R153, R163); the
committed frames go into the page of the slot in force. -/
def State.raStackPages (s : State) (p : Part) (sid : Word) : State :=
  match s.strand? p sid with
  | some t =>
    if t.cp.isSome && 512 < t.stack.length && t.stackPages.length == 2 then
      match s.stepPages p sid 2 with
      | (some l, s) => s.commitStrand { t with stackPages := t.stackPages ++ l }
      | (none, s) => s
    else s
  | none => s

/-- Take the history page that the strand's next token needs (R163); it stays with the strand. -/
def State.raHistPage (s : State) (p : Part) (sid : Word) : State :=
  match s.strand? p sid with
  | some t =>
    if t.needsHist then
      match s.stepPages p sid 1 with
      | (some l, s) => s.strandUpd p sid (fun x => { x with sparePages := x.sparePages ++ l })
      | (none, s) => s
    else s
  | none => s
/-- Take the pages that the strand's next step needs during its run-ahead (R163). A strand whose reclaim park is in flight takes none. -/
def State.raPages (s : State) (p : Part) (sid : Word) : State :=
  if (s.parts[p]).reclaims.contains sid then s else (s.raStackPages p sid).raHistPage p sid

/-- A STEP_BATCH item of the session that was dispatched under an earlier generation has not ended: its step runs on the old home (R521, R544). -/
def State.oldStep (s : State) (p : Part) (sid : Word) : Bool :=
  s.ctxs.any (fun x => x.part == p && x.gen != s.reg (rPrtGenCur p) && eOp x.entry == opSTEP_BATCH &&
    x.items.any (fun i => i.session == sid && i.phase != .done))

/-- A strand whose group has left its partition goes to a cluster that the partition keeps, a free value choosing (DESIGN CHOICE, log entry 2), once no other
op than `c` holds it: its run-ahead result is discarded (R522, R544). One that takes work goes before one that does not (R409). -/
def State.rehomeFor (s : State) (c : Option Ctx) (t : Strand) : State :=
  if s.groupOwner (cluGrp t.home) == some t.part || s.excluded t.part t.session c || s.oldStep t.part t.session then s
  else
    let cs := if (s.workClusters t.part).isEmpty then s.ownClusters t.part else s.workClusters t.part
    let (k, s) := s.freeBelow (max 1 cs.length)
    match cs[k]? with
    | none => s
    | some c =>
      let u := { t with home := c, ra := none, raDue := false }
      (s.strandUpd t.part t.session (fun _ => u)).wrBytes (s.descAddr t.part t.slot + 64) u.line1
/-- The strand of a session that no op holds, rehomed when that is due. -/
def State.rehomeDue (s : State) (t : Strand) : State := s.rehomeFor none t
/-- The strand of a session, rehomed first when that is due. -/
def State.rehomeSession (s : State) (p : Part) (sid : Word) (c : Option Ctx) : State :=
  match s.strand? p sid with | some t => s.rehomeFor c t | none => s
/-- Does the home cluster of a session's strand take new work (R409)? -/
def State.homeTakes (s : State) (p : Part) (sid : Word) : Bool := match s.strand? p sid with | some t => s.takes p t.home | none => true

/-! ### The order of ready work on a cluster (R51, R128) -/

/-- The step of an item of a ready batch may start: nothing of its session runs, and its home cluster takes new work, or is to change. -/
def State.stepStarts (s : State) (x : OpCtx) (i : BatchItem) : Bool :=
  eOp x.entry == opSTEP_BATCH && x.st == .ready && i.phase == .waiting && !i.begun && !s.excluded x.part i.session (some x.id) &&
  !x.items.any (fun y => y.session == i.session && y.begun) &&
  (match s.strand? x.part i.session with | some t => s.takes x.part t.home || s.groupOwner (cluGrp t.home) != some x.part | none => true)

/-- Key of an op's work, and of a strand's run-ahead, whose deadline is (n + 1, RA_PHASE) with n the step last committed (R51). -/
def State.opKey (s : State) (x : OpCtx) : WorkKey := ⟨s.due x, ePrio x.entry, x.seq⟩
def State.raKey (s : State) (t : Strand) : WorkKey :=
  ⟨some (s.timeTo t.domain (BitVec.ofNat 64 ((ptStep t.lastStep + 1) % 2 ^ 40 + s.rf (rGlbSdCtrl t.domain) 12 12 * 2 ^ 52))), 0, s.nextSeq⟩

/-- A ready op whose work is one command: a MASK_BATCH or SPEC_VERIFY on the home clusters of its strands, a DECODE, PREFILL_CHUNKS or
HASH_BLOCKS on any of the partition's. A part that waits for a pair's compare has done its work. -/
def State.wholeOp (s : State) (x : OpCtx) (ops : List Nat) : Bool :=
  x.st == .ready && ops.contains (eOp x.entry) && !s.pair.parts.any (fun q => q.ring == x.ring && q.index == x.index)
/-- The op has work for a strand homed on the cluster. -/
def State.homedOn (s : State) (x : OpCtx) (c : Clu) : Bool :=
  x.sessions.any (fun sid => match s.strand? x.part sid with | some u => u.home == c | none => false)

/-- Ready work of other sessions and ops on the home cluster of a strand that comes before work with this key: steps that can start,
run-aheads, MASK_BATCH and SPEC_VERIFY ops. The order is kept among the work of one cluster (DEDUCED, log entry 9). -/
def State.workBefore (s : State) (t : Strand) (k : WorkKey) : Bool :=
  let other := fun (p : Part) (sid : Word) => p != t.part || sid != t.session
  s.ctxs.any (fun x => (s.opKey x).before k && x.items.any (fun i => s.stepStarts x i && other x.part i.session &&
    (match s.strand? x.part i.session with | some u => u.home == t.home | none => false))) ||
  s.strands.any (fun u => u.home == t.home && u.raDue && u.ra.isNone && other u.part u.session && (s.raKey u).before k) ||
  s.ctxs.any (fun x => (s.opKey x).before k && s.wholeOp x [opMASK_BATCH, opSPEC_VERIFY] && s.homedOn x t.home)
/-- Ready work that comes before an op whose work is one command (R51, R128): on the home cluster of one of its strands; for an op placed on any
cluster, the partition's other ops of that kind. -/
def State.opBefore (s : State) (x : OpCtx) : Bool :=
  if [opMASK_BATCH, opSPEC_VERIFY].contains (eOp x.entry) then
    x.sessions.any (fun sid => match s.strand? x.part sid with | some t => s.workBefore t (s.opKey x) | none => false)
  else
    let ops := [opDECODE, opPREFILL, opHASH_BLOCKS]
    ops.contains (eOp x.entry) && s.ctxs.any (fun y => y.part == x.part && (s.opKey y).before (s.opKey x) && s.wholeOp y ops)

/-- A strand's run-ahead may run now: its home cluster takes new work, and no ready work there comes before it (R51, R409). -/
def State.raMayRun (s : State) (t : Strand) : Bool := s.takes t.part t.home && !s.workBefore t (s.raKey t)

/-- RUN_AHEAD (R303): after a commit of the strand, or as a cold run-ahead for a strand that an op is on (R305). -/
def runAhead (p : Part) (sid : Word) (s : State) : State :=
  let s := s.rehomeSession p sid none
  match s.strand? p sid with
  | none => s
  | some t =>
    if t.ra.isSome || !(t.raDue || s.raPinned t) || !s.raMayRun t then s
    else
      let s := if t.raDue then s else s.bump (rPrtRaCold p)
      let s := s.raPages p sid
      let (r, s) := s.makeRa t ⟨s.rb (rPrtMemCfg p) 31, s.ranges p⟩
      s.storeRa t r

/-- The result a step, verification or mask uses (R26, R305): the stored one, or one computed now. A step that has to wait counts in
PRT_RA_LATE (R306), and a result that had been evicted in PRT_RA_COLD. -/
def State.useRa (s : State) (t : Strand) (mode : CallMode) (step : Bool) : RunAhead × State :=
  match t.ra with
  | some r => (r, s)
  | none =>
    let s := if step then (s.bump (rPrtRaLate t.part)).raLateSeen t else s
    let s := if t.raDue then s else s.bump (rPrtRaCold t.part)
    let s := if step then s.raPages t.part t.session else s
    s.makeRa t mode

/-- RUN_AHEAD. -/
def execRunAhead (p : Part) (sid : Word) (s : State) : Host.Outcome State Fault Refusal := run (runAhead p sid) s

end Sys2Proof.Machine
end

