-- ==== Sys2Proof/Machine/Steps.lean ====
section
/-! DEFINITION. Sys2Proof/Machine/Steps.lean: one step of a session: the row and its draw, stage 11, the output record and the
text slot, and the batch that holds the steps (R21 to R26, R105 to R107, R123, R124, R164, R172, R292, R335, R353 to R362). -/
namespace Sys2Proof.Machine
open Sys2Proof

/-! ### The row and its values -/

/-- Where a draw's row lies. -/
structure RowSrc where
  fmt  : Nat
  cand : Bool
  aux  : Word
  addr : Nat
deriving DecidableEq, Repr

/-- What a draw works on: the strand, the row, the tokens of the mask, the history with the node's path, the penalty list. -/
structure DrawArgs where
  t      : Strand
  row    : RowSrc
  mask   : List Nat
  mode   : CallMode
  steps  : BitVec 40
  node   : Nat
  hist   : List Nat
  pen    : List (Nat × Nat)
deriving DecidableEq, Repr

/-- The faults of a row's address, format and ranges (R107, R335). -/
def rowFault (rng : List MemRange) (row : RowSrc) (veff : Nat) : Option (BitVec 8) :=
  if row.addr % 64 != 0 || !rowFormOk row.fmt row.cand row.aux veff then some stBadEntry
  else if !rowInRange rng row.fmt row.cand row.aux row.addr veff then some stPermDenied
  else none

/-- The faults of a candidate list (R335). -/
def State.candFault (s : State) (a : DrawArgs) (veff : Nat) : Bool :=
  let l := s.candList a.row.aux a.row.addr
  let lse := BitVec.ofNat 32 (s.rdLE a.row.addr 4)
  l.any (fun c => veff ≤ c.tok) || !distinct (l.map (·.tok)) || fpIsNaN lse || lse == fpInf ||
  !l.any (fun c => a.mask.contains c.tok)

/-- The values that enter stage 6: the allowed tokens in ascending order. -/
def State.rawVals (s : State) (a : DrawArgs) : List Cand :=
  if a.row.cand then
    sortBy (fun x y => x.tok ≤ y.tok) ((s.candList a.row.aux a.row.addr).filter (fun c => a.mask.contains c.tok))
  else a.mask.map (fun t => ⟨t, s.rowValue a.row.fmt a.row.aux a.row.addr t⟩)

/-- The arguments of a draw's hook calls. -/
def DrawArgs.hook (a : DrawArgs) (veff : Nat) : HookArgs :=
  { part := a.t.part, clu := a.t.home, prog := a.t.hook.getD ⟨0#32, 0⟩, mode := a.mode, seed := pSEED a.t.params
    veff := veff, steps := a.steps.toNat, node := a.node, penalty := a.pen
    recent := a.hist.drop (a.hist.length - min 64 a.hist.length) }

/-- Stages 3 to 8 of a draw: the row's values as they enter TOPK, or the status of a hook's fault. -/
def State.rowVals (s : State) (a : DrawArgs) : Option (BitVec 8) × RowVals × State :=
  let veff := s.veff a.t
  rowStages (hookPiece (a.hook veff)) a.t.params a.pen a.t.bias veff (rowStagesOf a.t.params)
    (RowVals.fixNaN { vals := s.rawVals a }) s

/-- LSE_REST of a candidate list. -/
def State.lseRest (s : State) (row : RowSrc) : Word := if row.cand then BitVec.ofNat 32 (s.rdLE row.addr 4) else fpNegInf

/-- First selection on a row (R346 to R349); counts NaN tokens (R365). -/
def State.firstSamp (s : State) (a : DrawArgs) : Except (BitVec 8 × State) (Samp × RowVals × State) :=
  if a.row.cand && s.candFault a (s.veff a.t) then .error (stBadEntry, s)
  else
    match s.rowVals a with
    | (some st, r, s) => .error (st, s.bumpBy (rPrtSmpNan a.t.part) 0 32 r.nan.length)
    | (none, r, s) =>
      let m := formSamp a.t.params r (s.lseRest a.row) a.row.cand (a.t.hook.isSome && pHOOK a.t.params)
      .ok (m, r, s.bumpBy (rPrtSmpNan a.t.part) 0 32 m.nans)

/-- Has the extension limit been reached (R353, R364)? -/
def atLimit (maxPasses : Nat) (m : Samp) : Bool := maxPasses != 0 && maxPasses ≤ m.passes

/-- Carry a draw to its end, every pass counted and run over a fresh fetch (R322, R343, R353, R355): for a tree node. `n` bounds the passes. -/
def State.drawWhole (a : DrawArgs) (maxPasses : Nat) : Nat → Samp → State → Except (BitVec 8 × State) (Drawn × State)
  | 0, _, s => .error (stBadEntry, s)
  | n + 1, m, s =>
    let p := a.t.part
    match runCuts a.t.params m (atLimit maxPasses m) with
    | .need =>
      match (s.bump (rPrtSmpXpass p)).rowVals a with
      | (some st, _, s) => .error (st, s)
      | (none, v, s) => State.drawWhole a maxPasses n (m.extend (topkCases v.vals).1) s
    | .ok c =>
      let s := if c.limit then s.bump (rPrtSmpLimit p) else s
      let u := drawU a.t.params a.steps a.node
      match drawList a.t.params m c u with
      | some d => .ok (d, s)
      | none =>
        match (s.bump (rPrtSmpDpass p)).rowVals a with
        | (some st, _, s) => .error (st, s)
        | (none, v, s) => .ok (Machine.drawPass a.t.params m c u (topkCases v.vals).1, s)

/-! ### Stage 11 (R292, R164, R268) -/

/-- What stage 11 makes of a token. -/
inductive ApplyRes where
  /-- The commit walk rejected an allowed token (R292). -/
  | mismatch
  /-- Stack pages are missing (R164). -/
  | noStack (s : State)
  /-- The overflow ring is full (R164). -/
  | ringFull (s : State)
  | ok (t : Strand) (low : Nat) (r : SlotRes) (stalled : Bool) (s : State)

/-- The grammar walk of a committed token (R292): configuration and lowest depth. -/
def State.walkCommit (s : State) (t : Strand) (x : Nat) : Option (CpConfig × Nat) :=
  match s.cpEnv t with
  | none => some (t.config, t.stackLow)
  | some c => c.commit t.config t.hist.length x
/-- Check units of that walk (R294). -/
def State.walkCost (s : State) (t : Strand) (x : Nat) : Nat :=
  match s.cpEnv t with
  | none => 0
  | some c => c.walkCost t.config t.hist.length x

/-- Pages for frames 512 to 1,023 when a depth first needs them. -/
def State.stackRoom (s : State) (t : Strand) (depth : Nat) : Option Strand × State :=
  if 512 < depth && t.stackPages.length == 2 then
    let own := t.sparePages.take 2
    match s.stepPages t.part t.session (2 - own.length) with
    | (some l, s) => (some { t with stackPages := t.stackPages ++ own ++ l, sparePages := t.sparePages.drop 2 }, s)
    | (none, s) => (none, s)
  else (some t, s)

/-- The place of the appended token: a history page, or the overflow ring (R153, R164); true for the ring. -/
def State.histRoom (s : State) (t : Strand) : Option (Strand × Bool) × State :=
  let ring := if t.ovfCount < 64 then
      some ({ t with ovfCount := t.ovfCount + 1, susp := t.susp || t.ovfCount + 1 == 64 }, true)
    else none
  if t.ovfCount != 0 then (ring, s)
  else if t.hist.length % 1024 != 0 then (some (t, false), s)
  else
    match t.sparePages with
    | pg :: rest => (some ({ t with histPages := t.histPages ++ [pg], sparePages := rest }, false), s)
    | [] =>
      match s.stepPages t.part t.session 1 with
      | (some l, s) => (some ({ t with histPages := t.histPages ++ l }, false), s)
      | (none, s) => (ring, s)

/-- Append one token to a strand (R24, R268, R292, R323) at a point; the commit line is written by the caller. -/
def State.applyToken (s : State) (t : Strand) (voc : Voc) (step phase x : Nat) : ApplyRes :=
  match s.walkCommit t x with
  | none => .mismatch
  | some (g, low) =>
    match s.stackRoom t g.stk.length with
    | (none, s) => .noStack s
    | (some t, s) =>
      match s.histRoom t with
      | (none, s) => .ringFull s
      | (some (t, ring), s) =>
        let (st, r) := streamCommit voc (streamCfg t.params t.stops) t.stream step phase x
        .ok { t with hist := t.hist ++ [x], steps := t.steps + 1#40, cpState := g.q, stack := g.stk.reverse, stream := st }
          low r ring s

/-- Seal a commit (R24, R26, R146, R172, R308): side slot, LAST_STEP, charge, a new epoch, run-ahead to come. -/
def State.sealCommit (s : State) (t : Strand) (units : Nat) : State :=
  let (e, s) := s.nextEpoch t.part
  let s := s.charge t.part t.account units
  s.commitStrand { t with side := !t.side, lastStep := s.point t.domain, charged := t.charged + units, epoch := e,
                          ra := none, raDue := true }

/-- Seal a commit of `n` generated tokens. -/
def State.sealStep (s : State) (t : Strand) (n : Nat) : State := s.sealCommit t (n * (s.acct t.part t.account).wGen)

/-- Set SUSP on a strand, which is otherwise unchanged (R164): the epoch stays. -/
def State.suspend (s : State) (t : Strand) : State := s.commitStrand { t with susp := true }

/-! ### Items of a STEP_BATCH -/

/-- Fields of a step item (R106). -/
def BatchItem.row (i : BatchItem) : RowSrc :=
  ⟨leAt i.bytes 4 1 / 16, (leAt i.bytes 4 1).testBit 3, BitVec.ofNat 32 (leAt i.bytes 12 4), leAt i.bytes 16 8⟩
def BatchItem.expLen (i : BatchItem) : Nat := leAt i.bytes 8 4
/-- Reserved bits of a step item are zero. -/
def BatchItem.stepClean (i : BatchItem) : Bool := leAt i.bytes 4 1 % 8 == 0 && zeroBytes i.bytes 5 8 && zeroBytes i.bytes 24 32

/-- Update item `k` of a context. -/
def State.itemUpd (s : State) (c : Ctx) (k : Nat) (f : BatchItem → BatchItem) : State :=
  s.ctxUpd c (fun x => { x with items := x.items.modify k f })

/-- A program's fault ends an op in this cycle (R402). -/
def State.markFault (s : State) (c : Ctx) : State := s.ctxUpd c (fun y => { y with faultAt := some s.time })

/-- Did an item's step commit? -/
def BatchItem.committed (i : BatchItem) : Bool :=
  i.phase == .done && i.drawn.isSome && [stOk, stNoPageStalled, stReplayed].contains i.status

/-- What a record without a token carries of a step that ended in a pass: FLAGS, NAN_COUNT and PASSES as far as reached (R360 to R362). -/
def noToken (flags flags2 nans fetches : Nat) : Drawn :=
  { tok := none32, logprob := 0#32, full := 0#32, alts := [], flags := flags, flags2 := flags2, nans := nans, fetches := fetches }
/-- FLAGS and FLAGS2 of a step between two passes (R361). -/
def Samp.flags (m : Samp) : Nat :=
  (if m.inf || m.listInf then 4 else 0) + (if m.allneg then 8 else 0) + (if m.isCand then 16 else 0) + (if m.hook then 32 else 0) +
    if m.passes == 0 then 0 else 64
def Samp.flags2 (m : Samp) : Nat := if m.limit then 2 else 0
/-- What has been reached of an item's step that delivers no token. -/
def BatchItem.reached (i : BatchItem) : Drawn :=
  match i.drawn, i.samp with
  | some d, _ => d
  | none, some m => noToken m.flags m.flags2 m.nans (1 + m.passes)
  | none, none => noToken (if i.row.cand then 16 else 0) 0 0 0
/-- A first fetch that ended in a fault: a candidate check, or the hook's. -/
def State.firstFault (s : State) (a : DrawArgs) : Drawn :=
  if a.row.cand && s.candFault a (s.veff a.t) then noToken 16 0 0 1
  else noToken ((if a.row.cand then 16 else 0) + 32) 0 (s.rowVals a).2.1.nan.length 1

/-- End an item's step without a token (R362, R270): the reservation goes, record and slot are written, exclusion ends. Without a resident strand the
slot's HOLD_LEN is 0 (DESIGN CHOICE, log entry 49). -/
def State.failItem (s : State) (x : OpCtx) (k : Nat) (i : BatchItem) (st : BitVec 8) : State :=
  let out := leAt x.entry 48 8
  let txt := leAt x.entry 56 8
  let t? := s.strand? x.part i.session
  let s := if i.reserved then s.unreserve x.part i.acct i.held else s
  let s := match t? with | some t => s.countOverrun t i.units | none => s
  let s := s.wrBytes (out + 64 + 192 * k) (recordBytes i.session st false i.reached none32 0)
  let s := if txt == 0 then s
    else s.wrBytes (txt + 64 + 2048 * k)
      (slotBytes i.session none32 false (match t? with | some t => t.stream | none => {}) {})
  s.itemUpd x.id k (fun y => { y with phase := .done, status := st, begun := false, reserved := false, drawn := none })

/-- The faults of R107 and R155, then SUSP (R164); nonzero reserved bits of the item give BAD_ENTRY (DESIGN CHOICE, log entry 48). -/
def State.itemFault (s : State) (x : OpCtx) (k : Nat) (i : BatchItem) : Option (BitVec 8) :=
  match s.strand? x.part i.session with
  | none => some stNotResident
  | some t =>
    if t.domain != eDom x.entry || (x.items.take k).any (fun y => y.session == i.session) || !i.stepClean ||
        (i.expLen != none32 && i.expLen != t.hist.length) then some stBadEntry
    else
      match rowFault x.rng i.row (s.veff t) with
      | some st => some st
      | none =>
        if t.hist.length == 1048576 then some stBadEntry
        else if t.susp then some stNoPageSusp
        else none

/-- The draw arguments of an item. -/
def State.itemArgs (s : State) (x : OpCtx) (i : BatchItem) (t : Strand) (r : RunAhead) : DrawArgs :=
  { t := t, row := i.row, mask := s.allowed t r.mask, mode := x.mode, steps := t.steps, node := 0, hist := t.hist
    pen := r.penalty }

/-- Run the cuts and the draw on what is found so far (R353 to R356): drawn, or another pass is needed. -/
def State.decide (s : State) (x : OpCtx) (k : Nat) (t : Strand) (m : Samp) : State :=
  match runCuts t.params m (atLimit x.maxPasses m) with
  | .need => s.itemUpd x.id k (fun y => { y with samp := some m, draw := false })
  | .ok c =>
    let s := if c.limit then s.bump (rPrtSmpLimit x.part) else s
    let m := { m with limit := c.limit, listInf := c.inf }
    match drawList t.params m c (drawU t.params t.steps 0) with
    | some d => s.itemUpd x.id k (fun y => { y with samp := some m, drawn := some d, phase := .drawn })
    | none => s.itemUpd x.id k (fun y => { y with samp := some m, draw := true })

/-- Reserve for a step (R172): false when the account does not cover it. -/
def State.reserveItem (s : State) (x : OpCtx) (k : Nat) (i : BatchItem) (t : Strand) : Option State :=
  if i.reserved then some s
  else
    let a := s.acct x.part t.account
    if a.admitsStep then
      some ((s.reserve x.part t.account a.wGen).itemUpd x.id k (fun y => { y with
        reserved := true, acct := t.account, held := if a.set then a.wGen else 0 }))
    else none

/-- Clusters beside the home one that take a share of a split row (R22), each one that takes new work; which, a free value chooses (DESIGN
CHOICE, log entry 2). A candidate list is the home cluster's alone (R334). None when too few are at hand. -/
def State.pickShares (s : State) (t : Strand) (row : RowSrc) : Option (List Clu × State) :=
  let n := if row.cand then 0 else clustersFor (s.veff t) - 1
  let cs := (s.workClusters t.part).filter (fun c => c != t.home)
  if n == 0 then some ([], s)
  else if cs.length < n then none
  else
    let (k, s) := s.freeBelow cs.length
    some ((List.range n).filterMap (fun i => cs[(k + i) % cs.length]?), s)

/-- STEP_ROW_START (R26): the step of item `k` takes exclusion and runs stages 1 to 10 on its first row fetch. It starts in the order of ready
work (R51). -/
def stepRowStart (c : Ctx) (k : Nat) (s : State) : State :=
  match s.ctx? c with
  | none => s
  | some x =>
    match x.items[k]? with
    | none => s
    | some i =>
      if !s.stepStarts x i || (match s.strand? x.part i.session with | some t => s.workBefore t (s.opKey x) | none => false) then s
      else
        let s := s.rehomeSession x.part i.session (some c)
        match s.itemFault x k i, s.strand? x.part i.session with
        | some st, _ => s.failItem x k i st
        | none, none => s
        | none, some t =>
          match s.reserveItem x k i t with
          | none => s.failItem x k i stBudget
          | some s1 =>
            match (if s.takes x.part t.home then s1.pickShares t i.row else none) with
            | none => s
            | some (shares, s) =>
            let s := s.itemUpd c k (fun y => { y with begun := true, shares := shares })
            let i := (((s.ctx? c).bind (fun x => x.items[k]?))).getD i
            let (r, s) := s.useRa t ⟨s.rb (rPrtMemCfg x.part) 31, s.ranges x.part⟩ true
            let t := (s.strand? x.part i.session).getD t
            let a := s.itemArgs x i t r
            match r.fault with
            | some st => (s.dropRa t).failItem x k { i with units := r.units } st
            | none =>
              if a.mask.isEmpty then
                let st := emptyStatus r.mask
                (s.countEmpty x.part st).failItem x k { i with units := r.units } st
              else
                let s := s.itemUpd c k (fun y => { y with ra := some r, units := r.units })
                match s.firstSamp a with
                | .error (st, s) => s.failItem x k { i with drawn := some (s.firstFault a), units := r.units } st
                | .ok (m, _, s) => s.decide x k t m

/-- The item of a context whose step waits for another pass, with its strand. -/
def State.passItem (s : State) (c : Ctx) (k : Nat) : Option (OpCtx × BatchItem × Strand × Samp × RunAhead) :=
  match s.ctx? c with
  | none => none
  | some x =>
    match x.items[k]? with
    | none => none
    | some i =>
      match s.strand? x.part i.session, i.samp, i.ra with
      | some t, some m, some r => if x.st == .ready && i.begun && i.phase == .waiting then some (x, i, t, m, r) else none
      | _, _, _ => none

/-- EXTENSION_PASS (R353): the next 256 allowed tokens from a fresh fetch. -/
def extensionPass (c : Ctx) (k : Nat) (s : State) : State :=
  match s.passItem c k with
  | none => s
  | some (x, i, t, m, r) =>
    if i.draw then s
    else
      match s.rowVals (s.itemArgs x i t r) with
      | (some st, _, s) =>
        (s.bump (rPrtSmpXpass x.part)).failItem x k { i with drawn := some (noToken (m.flags + (if m.passes == 0 then 64 else 0))
          m.flags2 m.nans (2 + m.passes)) } st
      | (none, v, s) =>
        let (l, _, _) := topkCases v.vals
        (s.bump (rPrtSmpXpass x.part)).decide x k t (m.extend l)

/-- DRAW_PASS (R355): the draw decided over a fresh fetch. -/
def stepDrawPass (c : Ctx) (k : Nat) (s : State) : State :=
  match s.passItem c k with
  | none => s
  | some (x, i, t, m, r) =>
    if !i.draw then s
    else
      match s.rowVals (s.itemArgs x i t r), runCuts t.params m (atLimit x.maxPasses m) with
      | (some st, _, s), _ =>
        (s.bump (rPrtSmpDpass x.part)).failItem x k { i with drawn := some (noToken (m.flags + 128) m.flags2 m.nans (2 + m.passes)) } st
      | (none, v, s), .ok cut =>
        let (l, _, _) := topkCases v.vals
        let d := Machine.drawPass t.params m cut (drawU t.params t.steps 0) l
        (s.bump (rPrtSmpDpass x.part)).itemUpd c k (fun y => { y with drawn := some d, phase := .drawn })
      | (none, _, s), .need => s

/-- STEP_COMMIT (R24): stage 11 of item `k`, then its record and its text slot. -/
def stepCommit (c : Ctx) (k : Nat) (s : State) : State :=
  match s.ctx? c with
  | none => s
  | some x =>
    match x.items[k]? with
    | none => s
    | some i =>
      match i.drawn, s.strand? x.part i.session with
      | some d, some t =>
        if x.st != .ready || i.phase != .drawn then s
        else
          match s.voc x.part t.vocab t.ovl with
          | none => s
          | some voc =>
            let i := { i with units := i.units + s.walkCost t d.tok }
            match s.applyToken t voc (s.sd[t.domain]).step.toNat (s.phase t.domain) d.tok with
            | .mismatch => (s.bump (rPrtCpMismatch x.part)).failItem x k i stGrammarDead
            | .noStack s => (s.suspend t).failItem x k i stNoPageSusp
            | .ringFull s => (s.suspend t).failItem x k i stNoPageSusp
            | .ok t' low r stalled s =>
              let s := s.countOverrun t i.units
              let s := (s.unreserve x.part i.acct i.held).sealStep { t' with stackLow := low } 1
              let st := if stalled then stNoPageStalled else if i.replayed then stReplayed else stOk
              let s := s.wrBytes (leAt x.entry 48 8 + 64 + 192 * k)
                (recordBytes i.session st true d t.hist.length 0)
              let txt := leAt x.entry 56 8
              let s := if txt == 0 then s
                else s.wrBytes (txt + 64 + 2048 * k) (slotBytes i.session t.hist.length true t'.stream r)
              s.itemUpd c k (fun y => { y with phase := .done, status := st, begun := false, reserved := false })
      | _, _ => s

/-- Sessions of a batch whose step committed. -/
def OpCtx.committed (x : OpCtx) : Nat := (x.items.filter BatchItem.committed).length

/-- The header of an output batch (R123). -/
def State.batchHeader (s : State) (x : OpCtx) (st : BitVec 8) : List Byte :=
  let e := x.entry
  leBytes 8 (s.point (eDom e)).toNat ++ leBytes 8 (eTag e) ++ leBytes 4 x.items.length ++ leBytes 4 x.committed ++
  leBytes 1 st.toNat ++ leBytes 1 (eDom e).val ++ leBytes 1 x.part.val ++ leBytes 1 0 ++ leBytes 4 192 ++
  leBytes 8 (leAt e 40 5) ++ leBytes 24 0

/-- End a batch: text header, header, status (R123, R124, R269, R270). -/
def State.endBatch (s : State) (x : OpCtx) (st : BitVec 8) : State :=
  let e := x.entry
  let txt := leAt e 56 8
  let s := if txt == 0 then s
    else s.wrBytes txt (textHeader (eTag e) (leAt e 40 5) x.items.length x.part.val (eDom e).val)
  let s := s.wrBytes (leAt e 48 8) (s.batchHeader x st)
  s.ctxUpd x.id (fun y => { y with
    st := .past, status := some st, res0 := BitVec.ofNat 64 (leAt e 40 5), res1 := BitVec.ofNat 32 x.items.length
    res2 := BitVec.ofNat 32 x.committed })

/-- STEP_BATCH (R105): once every item's step has committed or failed, the batch ends. -/
def stepBatch (c : Ctx) (s : State) : State :=
  match s.ctx? c with
  | some x =>
    if eOp x.entry == opSTEP_BATCH && x.st == .ready && x.items.all (fun i => i.phase == .done) then
      s.endBatch x (if x.replayed then stReplayed else stOk)
    else s
  | none => s

/-- STEP_ROW_START. -/
def execStepRowStart (c : Ctx) (item : Nat) (s : State) : Host.Outcome State Fault Refusal :=
  run (gated (.stepRowStart c item) (stepRowStart c item)) s
/-- EXTENSION_PASS. -/
def execExtensionPass (c : Ctx) (item : Nat) (s : State) : Host.Outcome State Fault Refusal :=
  run (gated (.extensionPass c item) (extensionPass c item)) s
/-- DRAW_PASS. -/
def execDrawPass (c : Ctx) (item : Nat) (s : State) : Host.Outcome State Fault Refusal :=
  run (gated (.drawPass c item) (stepDrawPass c item)) s
/-- STEP_COMMIT. -/
def execStepCommit (c : Ctx) (item : Nat) (s : State) : Host.Outcome State Fault Refusal := run (gated (.stepCommit c item) (stepCommit c item)) s
/-- STEP_BATCH. -/
def execStepBatch (c : Ctx) (s : State) : Host.Outcome State Fault Refusal := run (stepBatch c) s

end Sys2Proof.Machine
end

