-- ==== Sys2Proof/Machine/Masks.lean ====
section
/-! DEFINITION. Sys2Proof/Machine/Masks.lean: draft trees, exported masks and verification (R308 to R327). -/
namespace Sys2Proof.Machine
open Sys2Proof

/-! ### Draft trees (R318, R319) -/

/-- A node entry. -/
structure TNode where
  tok    : Nat
  parent : Nat
  cand   : Bool
  aux    : Word
  rowOff : Nat
  /-- Its reserved bits are zero. -/
  clean  : Bool
deriving DecidableEq, Repr

/-- A draft tree as it lies in memory. -/
structure DTree where
  expLen : Nat
  nodes  : Nat
  check  : Bool
  epoch  : Nat
  clean  : Bool
  list   : List TNode
deriving DecidableEq, Repr

/-- Read the tree of `n` nodes at `a` (R318). -/
def State.readTree (s : State) (a n : Nat) : DTree :=
  let h := s.rdBytes a 64
  { expLen := leAt h 0 4, nodes := leAt h 4 1, check := (leAt h 5 1).testBit 7, epoch := leAt h 8 8
    clean := leAt h 4 1 < 128 && leAt h 5 1 % 128 == 0 && zeroBytes h 6 8 && zeroBytes h 16 64
    list := (List.range n).map (fun i =>
      let b := s.rdBytes (a + 64 + 16 * i) 16
      ⟨leAt b 0 4, leAt b 4 1, (leAt b 5 1).testBit 3, BitVec.ofNat 32 (leAt b 8 4), leAt b 12 4,
       (leAt b 5 1 == 0 || leAt b 5 1 == 8) && zeroBytes b 6 8⟩) }

/-- Level of each node: 1 for the root. -/
def DTree.levels (t : DTree) : List Nat :=
  t.list.foldl (fun ls x => ls ++ [if ls.isEmpty then 1 else ls.getD x.parent 0 + 1]) []
/-- Level of node `i`. -/
def DTree.level (t : DTree) (i : Nat) : Nat := t.levels.getD i 0
/-- D, the greatest level. -/
def DTree.depth (t : DTree) : Nat := t.levels.foldl max 0

/-- The conditions of R319 that do not concern rows. -/
def DTree.shapeOk (t : DTree) (n veff : Nat) : Bool :=
  t.clean && t.nodes == n && 1 ≤ n && n ≤ 64 &&
  (t.list.zipIdx).all (fun (x, i) =>
    x.clean && if i == 0 then x.tok == 0 && x.parent == 255 else x.parent < i && x.tok < veff) &&
  t.levels.all (· ≤ 16) && distinct ((t.list.drop 1).map (fun x => x.parent * 2 ^ 32 + x.tok))

/-- The conditions of R319 on a verification's rows. -/
def DTree.rowsOk (t : DTree) (fmt veff : Nat) : Bool :=
  t.list.all (fun x => x.rowOff % 64 == 0 && rowFormOk fmt x.cand x.aux veff)

/-- Nodes in level order (R320). -/
def DTree.order (t : DTree) : List Nat :=
  (List.range 16).flatMap (fun l => (List.range t.list.length).filter (fun i => t.level i == l + 1))

/-! ### Forked configurations and their masks (R320) -/

/-- A reachable node's configuration, its mask, and the tokens of the mask. -/
structure NodeMask where
  cfg  : CpConfig
  res  : MaskRes
  toks : List Nat
deriving DecidableEq, Repr

/-- A configuration after the walk of one more token at history index `org`. -/
def State.forkTok (s : State) (t : Strand) (g : CpConfig) (org x : Nat) : Option CpConfig :=
  match s.cpEnv t with
  | none => some g
  | some c => (c.commit g org x).map (·.1)

/-- Node masks found so far. -/
abbrev NodeMasks := List (Nat × NodeMask)

/-- Fork one node, in level order; a node that is not reachable, or whose token the walk rejects, gets no mask. -/
def State.forkNode (t : Strand) (tree : DTree) (mode : CallMode) (r : NodeMasks × State) (i : Nat) : NodeMasks × State :=
  let (ms, s) := r
  if i == 0 then r
  else
    match tree.list[i]? with
    | none => r
    | some x =>
      match assocFind ms x.parent with
      | none => r
      | some m =>
        if !m.toks.contains x.tok then r
        else
          let len := t.hist.length + tree.level i - 1
          match s.forkTok t m.cfg (len - 1) x.tok with
          | none => r
          | some g =>
            let (res, s) := s.buildMask t mode g len i
            (ms ++ [(i, ⟨g, res, s.allowed t res⟩)], s.countOverrun t res.units)

/-- The masks of every reachable node of a tree; node 0 takes the strand's run-ahead result. -/
def State.forkTree (s : State) (t : Strand) (tree : DTree) (mode : CallMode) : NodeMasks × State :=
  let (r, s) := s.useRa t mode false
  let s := s.countOverrun t r.units
  tree.order.foldl (State.forkNode t tree mode) ([(0, ⟨t.config, r.mask, s.allowed t r.mask⟩)], s)

/-! ### Exported masks (R312 to R316) -/

/-- Fields of a mask item (R311). -/
def BatchItem.isTree (i : BatchItem) : Bool := (leAt i.bytes 4 1).testBit 0
def BatchItem.epochCheck (i : BatchItem) : Bool := (leAt i.bytes 4 1).testBit 7
def BatchItem.mNodes (i : BatchItem) : Nat := leAt i.bytes 5 1
def BatchItem.mExpEpoch (i : BatchItem) : Nat := leAt i.bytes 16 8
def BatchItem.mTree (i : BatchItem) : Nat := leAt i.bytes 24 8
/-- Masks an item asks for; 0 when its own fields break R311. -/
def BatchItem.masks (i : BatchItem) : Nat :=
  if nf (leAt i.bytes 4 1) 1 6 != 0 || !zeroBytes i.bytes 6 8 || !zeroBytes i.bytes 12 16 then 0
  else if i.isTree then (if 1 ≤ i.mNodes && i.mNodes ≤ 64 && i.mTree % 64 == 0 then i.mNodes else 0)
  else if i.mNodes == 0 && i.mTree == 0 then 1
  else 0

/-- Bytes of a bitset (R312). -/
def bitsetLen (veff : Nat) : Nat := (veff + 511) / 512 * 64
/-- Offset of the first slot: after the header and the index. -/
def maskBase (count : Nat) : Nat := 64 + up64 (16 * count)

/-- Lay out the slots of a MASK_BATCH at dispatch (R312). -/
def State.layoutMasks (s : State) (p : Part) (limit : Nat) : Nat → List BatchItem → List BatchItem
  | _, [] => []
  | off, i :: l =>
    let n := i.masks
    match s.strand? p i.session with
    | none => i :: s.layoutMasks p limit off l
    | some t =>
      let sz := 64 + bitsetLen (s.veff t)
      if n == 0 || limit < off + n * sz then i :: s.layoutMasks p limit off l
      else { i with slots := n, offset := off, slotSz := sz } :: s.layoutMasks p limit (off + n * sz) l

/-- END_OFF (R312). -/
def OpCtx.maskEnd (x : OpCtx) : Nat :=
  x.items.foldl (fun e i => if i.slots == 0 then e else max e (i.offset + i.slots * i.slotSz)) (maskBase x.items.length)
/-- Mask tags written. -/
def OpCtx.masksDone (x : OpCtx) : Nat := (x.items.map (·.done)).sum

/-- Ascending, disjoint and maximal intervals of an ascending token list (R314). -/
def intervals : List Nat → List (Nat × Nat)
  | [] => []
  | a :: l =>
    match intervals l with
    | [] => [(a, a)]
    | (b, c) :: r => if a + 1 == b then (a, c) :: r else (a, a) :: (b, c) :: r

/-- A body, and whether it is an interval list, with its number of intervals (R314). -/
def maskBody (form : Bool) (veff : Nat) (toks : List Nat) : List Byte × Bool × Nat :=
  let iv := intervals toks
  if form && 8 * iv.length ≤ bitsetLen veff then
    (iv.flatMap (fun x => leBytes 4 x.1 ++ leBytes 4 x.2), true, iv.length)
  else (leBytes (bitsetLen veff) (toks.map (fun t => 2 ^ t)).sum, false, 0)

/-- The 64 bytes of a mask tag (R313). -/
def maskTag (t : Strand) (veff level node : Nat) (list terminal ovf : Bool) (status : BitVec 8) (allowed ivs len cpState depth : Nat) :
    List Byte :=
  leBytes 4 t.session.toNat ++ leBytes 1 node ++
  leBytes 1 ((if list then 128 else 0) + (if terminal then 64 else 0) + if ovf then 32 else 0) ++ leBytes 1 status.toNat ++
  leBytes 1 0 ++ leBytes 8 (t.steps + BitVec.ofNat 40 (level - 1)).toNat ++ leBytes 8 t.epoch.toNat ++
  leBytes 4 (t.hist.length + level - 1) ++ leBytes 4 veff ++ leBytes 4 allowed ++ leBytes 4 ivs ++ leBytes 4 len ++
  leBytes 3 cpState ++ leBytes 1 0 ++ leBytes 2 depth ++ leBytes 14 0

/-- Write one mask slot at `a`: the body, then the tag (R313). A node without a configuration has only its tag; what its form
reads as, and with a CP its state and depth, is free (R320, DESIGN CHOICE, log entry 2). -/
def State.writeMask (s : State) (t : Strand) (a : Nat) (form : Bool) (level node : Nat) (m : Option NodeMask) : State :=
  let veff := s.veff t
  match m with
  | none =>
    let (f, s) := s.freeBelow 2
    let (q, s) := s.freeBelow (if t.cp.isSome then 2 ^ 24 else 1)
    let (d, s) := s.freeBelow (if t.cp.isSome then 2 ^ 11 else 1)
    s.wrBytes a (maskTag t veff level node (f == 1) false false stSpecDiscarded 0 0 0 q d)
  | some m =>
    let (body, list, ivs) := maskBody form veff m.toks
    let st := if m.toks.isEmpty then emptyStatus m.res else stOk
    let s := s.wrBytes (a + 64) body
    s.wrBytes a (maskTag t veff level node list (t.cp.isSome && m.cfg.q == cpTerminal) m.res.ovf st m.toks.length ivs body.length
      (if t.cp.isSome then m.cfg.q else 0) m.cfg.stk.length)

/-- The conditions of R315 that need no tree. -/
def State.maskItemFault (s : State) (x : OpCtx) (i : BatchItem) (t : Strand) : Option (BitVec 8) :=
  let exp := leAt i.bytes 8 4
  if i.slots == 0 || i.slotSz != 64 + bitsetLen (s.veff t) || (exp != none32 && exp != t.hist.length) ||
      (i.epochCheck && i.mExpEpoch != t.epoch.toNat) || (i.isTree && !pSPEC t.params) then some stBadEntry
  else if i.isTree && !x.memOk i.mTree (64 + 16 * i.mNodes) false then some stPermDenied
  else if i.isTree && !(s.readTree i.mTree i.mNodes).shapeOk i.mNodes (s.veff t) then some stBadEntry
  else none

/-- Write an item's masks in node order; a fault of the check program ends the item (R395): status, tags written. -/
def writeMasks (t : Strand) (tree : DTree) (base sz : Nat) (form : Bool) (ms : NodeMasks) :
    List Nat → Nat → State → BitVec 8 × Nat × State
  | [], n, s => (stOk, n, s)
  | i :: l, n, s =>
    match (assocFind ms i).bind (·.res.fault) with
    | some st => (st, n, s)
    | none =>
      writeMasks t tree base sz form ms l (n + 1)
        (s.writeMask t (base + i * sz) form (if i == 0 then 1 else tree.level i) i (assocFind ms i))

/-- One item of a MASK_BATCH, on its snapshot (R315), as far as `lim` tags: an item cut short does not end. -/
def State.maskItem (s : State) (x : OpCtx) (k : Nat) (i : BatchItem) (lim : Nat) : State :=
  let fin := fun (s : State) (st : BitVec 8) (n : Nat) =>
    s.itemUpd x.id k (fun y => { y with phase := .done, status := st, done := n })
  match s.strand? x.part i.session with
  | none => fin s stNotResident 0
  | some t =>
    match s.maskItemFault x i t with
    | some st => fin s st 0
    | none =>
      let base := leAt x.entry 40 8 + i.offset
      let form := (leAt x.entry 36 1).testBit 0
      let tree := s.readTree i.mTree i.mNodes
      let (ms, s) :=
        if i.isTree then s.forkTree t tree x.mode
        else
          let (r, s) := s.useRa t x.mode false
          (([(0, ⟨t.config, r.mask, s.allowed t r.mask⟩)] : NodeMasks), s)
      let (st, n, s) := writeMasks t tree base i.slotSz form ms (List.range (min i.slots lim)) 0 s
      if st == stOk && lim < i.slots then s.itemUpd x.id k (fun y => { y with done := n }) else fin s st n

/-- The items of a MASK_BATCH that have not ended, as far as `lim` tags in all: in item order, which R315 leaves open (DESIGN CHOICE, log entry 49). -/
def State.maskItems (s : State) (x : OpCtx) (lim : Nat) : State :=
  ((x.items.zipIdx).foldl (fun (r : Nat × State) (i, k) =>
    if i.phase == .done then r
    else
      let s := r.2.maskItem x k i r.1
      let n := ((s.ctx? x.id).bind (fun y => y.items[k]?)).map (·.done) |>.getD 0
      (r.1 - n, s)) (lim, s)).2

/-- End a MASK_BATCH with a status: index, header, results (R312, R316). An item that did not end carries the status. -/
def State.endMasks (s : State) (x : OpCtx) (st : BitVec 8) : State :=
  let e := x.entry
  let out := leAt e 40 8
  let idx := x.items.flatMap (fun i =>
    leBytes 4 i.offset ++ leBytes 1 i.slots ++ leBytes 1 i.done ++
      leBytes 1 (if i.phase == .done then i.status else st).toNat ++ leBytes 9 0)
  let hdr := leBytes 8 (eTag e) ++ leBytes 4 x.items.length ++ leBytes 4 x.masksDone ++ leBytes 4 x.maskEnd ++
    leBytes 1 st.toNat ++ leBytes 1 (leAt e 36 1 % 2) ++ leBytes 1 x.part.val ++ leBytes 41 0
  ((s.wrBytes (out + 64) idx).wrBytes out hdr).ctxUpd x.id (fun y => { y with
    st := .past, status := some st, res0 := BitVec.ofNat 64 x.maskEnd, res1 := BitVec.ofNat 32 x.masksDone })

/-- MASK_BATCH (R108), in the order of ready work (R51). -/
def maskBatch (c : Ctx) (s : State) : State :=
  match s.ctx? c with
  | some x =>
    if eOp x.entry == opMASK_BATCH && x.st == .ready && !s.opBefore x then
      let s := s.maskItems x (x.items.map (·.slots)).sum
      match s.ctx? c with
      | some x => s.endMasks x stOk
      | none => s
    else s
  | none => s

/-! ### SPEC_VERIFY (R321 to R325) -/

/-- One accepted node as committed: node, draw, history index, in the ring, the stream after it, its text. -/
structure SpecOut where
  node   : Nat
  draw   : Drawn
  index  : Nat
  ring   : Bool
  stream : Stream
  slot   : SlotRes
deriving DecidableEq, Repr

/-- The 128 bytes of a verification's header (R324). -/
def specHeader (x : OpCtx) (steps acc : Nat) (st : BitVec 8) (depth epoch len : Nat) (nodes : List (BitVec 8)) : List Byte :=
  leBytes 8 (eTag x.entry) ++ leBytes 8 steps ++ leBytes 4 acc ++ leBytes 1 st.toNat ++ leBytes 1 depth ++
  leBytes 1 x.part.val ++ leBytes 1 0 ++ leBytes 8 epoch ++ leBytes 4 len ++ leBytes 28 0 ++ padTo 64 nodes

/-- Write the text batch's header; a verification has no batch step, so STEP is free (R270, DESIGN CHOICE, log entry 2). DOMAIN is the entry's (DESIGN
CHOICE, log entry 49). -/
def State.specText (s : State) (x : OpCtx) (count : Nat) : State :=
  let txt := leAt x.entry 56 8
  if txt == 0 then s
  else
    let (n, s) := s.freeBelow (2 ^ 40)
    s.wrBytes txt (textHeader (eTag x.entry) n count x.part.val (eDom x.entry).val)

/-- A verification that commits nothing (R324): header, status. Without a strand its STEP and HIST_LEN are free, and so is the DEPTH of
a malformed tree (DESIGN CHOICE, log entry 2). -/
def State.specFail (s : State) (x : OpCtx) (tree : DTree) (st : BitVec 8) : State :=
  let n := leAt x.entry 32 1
  let (f1, s) := s.freeBelow (2 ^ 40)
  let (f2, s) := s.freeBelow (2 ^ 32)
  let (f3, s) := s.freeBelow 32
  let t? := s.strand? x.part (eSession x.entry)
  let (steps, len) := match t? with | some t => (t.steps.toNat, t.hist.length) | none => (f1, f2)
  let depth := if tree.levels.all (fun l => 1 ≤ l && l ≤ 16) then tree.depth else f3
  let s := s.unreserve x.part x.heldAcct x.held
  let s := s.specText x 0
  (s.wrBytes (leAt x.entry 48 8) (specHeader x steps 0 st depth 0 len (List.replicate n stSpecDiscarded))).ctxUpd x.id
    (fun y => { y with st := .past, status := some st, held := 0 })

/-- The checks of R321 on a resident strand, but for the mask's. -/
def State.specFault (s : State) (x : OpCtx) (t : Strand) (tree : DTree) : Option (BitVec 8) :=
  let e := x.entry
  let n := leAt e 32 1
  let veff := s.veff t
  if !pSPEC t.params || !tree.shapeOk n veff || !tree.rowsOk (leAt e 33 1 / 16) veff ||
      (tree.expLen != none32 && tree.expLen != t.hist.length) || (tree.check && tree.epoch != t.epoch.toNat) ||
      t.hist.length == 1048576 then some stBadEntry
  else if !x.memOk (leAt e 48 8) (128 + 192 * tree.depth) true then some stPermDenied
  else if t.susp then some stNoPageSusp
  else none

/-- Row of a node (R318). -/
def specRow (x : OpCtx) (n : TNode) : RowSrc := ⟨leAt x.entry 33 1 / 16, n.cand, n.aux, leAt x.entry 40 8 + n.rowOff⟩

/-- The walk of R322: the path, and the node with an empty mask that it reached. -/
def State.specWalk (x : OpCtx) (t : Strand) (tree : DTree) (ms : NodeMasks) :
    Nat → Nat → List (Nat × Drawn) → State → Except (BitVec 8 × State) (List (Nat × Drawn) × Option (Nat × BitVec 8) × State)
  | 0, _, path, s => .ok (path, none, s)
  | f + 1, cur, path, s =>
    match assocFind ms cur, tree.list[cur]? with
    | some m, some n =>
      if m.toks.isEmpty then .ok (path, some (cur, emptyStatus m.res), s)
      else
        let hist := t.hist ++ path.map (·.2.tok)
        let a : DrawArgs :=
          { t := t, row := specRow x n, mask := m.toks, mode := x.mode, steps := t.steps + BitVec.ofNat 40 path.length
            node := cur, hist := hist, pen := penaltyList (pWINDOW t.params) hist }
        match rowFault x.rng a.row (s.veff t) with
        | some st => .error (st, s)
        | none =>
          match s.firstSamp a with
          | .error (st, u) => .error (st, if a.row.cand && s.candFault a (s.veff a.t) then u else u.markFault x.id)
          | .ok (sm, _, s) =>
            match State.drawWhole a x.maxPasses 16400 sm s with
            | .error (st, s) => .error (st, s.markFault x.id)
            | .ok (d, s) =>
              let path := path ++ [(cur, d)]
              match (List.range tree.list.length).find? (fun i =>
                i != 0 && (match tree.list[i]? with | some y => y.parent == cur && y.tok == d.tok | none => false)) with
              | some c => State.specWalk x t tree ms f c path s
              | none => .ok (path, none, s)
    | _, _ => .ok (path, none, s)

/-- Why a path was cut. -/
inductive SpecCut where
  | none
  | cap
  | mismatch
  | noStack
  | ring
deriving DecidableEq, Repr

/-- Check units of the nodes' masks. -/
def NodeMasks.units (ms : NodeMasks) (i : Nat) : Nat := match assocFind ms i with | some m => m.res.units | none => 0

/-- The commit walk of an accepted node takes the node's count past the certificate, which its mask had not passed (R295, R320). -/
def State.walkOverrun (s : State) (t : Strand) (mask walk : Nat) : State :=
  match s.certUnits t with
  | some c => if mask ≤ c && c < mask + walk then s.bump (rPrtCpOverrun t.part) else s
  | none => s

/-- Apply the path's tokens as step commits would (R323), until one does not fit. -/
def State.specApply (voc : Voc) (units : Nat → Nat) (step phase : Nat) :
    List (Nat × Drawn) → Strand → Nat → List SpecOut → State → Strand × Nat × List SpecOut × SpecCut × State
  | [], t, low, out, s => (t, low, out, .none, s)
  | (node, d) :: l, t, low, out, s =>
    if t.hist.length == 1048576 then (t, low, out, .cap, s)
    else
      let s := s.walkOverrun t (units node) (s.walkCost t d.tok)
      match s.applyToken t voc step phase d.tok with
      | .mismatch => (t, low, out, .mismatch, s)
      | .noStack s => (t, low, out, .noStack, s)
      | .ringFull s => (t, low, out, .ring, s)
      | .ok t' lo r ring s =>
        State.specApply voc units step phase l t' (min low lo) (out ++ [⟨node, d, t.hist.length, ring, t'.stream, r⟩]) s

/-- Write the records and text slots of the accepted nodes (R324, R270). -/
def State.specRecords (s : State) (x : OpCtx) (sid : Word) (out : List SpecOut) : State :=
  let txt := leAt x.entry 56 8
  (out.zipIdx).foldl (fun s (o, j) =>
    let st := if o.ring then stNoPageStalled else if x.replayed then stReplayed else stOk
    let s := s.wrBytes (leAt x.entry 48 8 + 128 + 192 * j) (recordBytes sid st true o.draw o.index o.node)
    if txt == 0 then s else s.wrBytes (txt + 64 + 2048 * j) (slotBytes sid o.index true o.stream o.slot)) s

/-- Commit a walk (R323, R324), cut where a token does not fit. A path cut by the cap of the history ends with BAD_ENTRY beside the tokens it
commits (R155). -/
def State.specCommit (s : State) (x : OpCtx) (t : Strand) (tree : DTree) (ms : NodeMasks) (path : List (Nat × Drawn))
    (dead : Option (Nat × BitVec 8)) : State :=
  match s.voc x.part t.vocab t.ovl with
  | none => s
  | some voc =>
    let (t', low, out, cut, s) :=
      State.specApply voc ms.units (s.sd[t.domain]).step.toNat (s.phase t.domain) path t t.stack.length [] s
    let s := if cut == .mismatch then s.bump (rPrtCpMismatch x.part) else s
    let susp := cut == .noStack || cut == .ring
    if out.isEmpty then
      if susp then (s.suspend t).specFail x tree stNoPageSusp
      else s.specFail x tree stGrammarDead
    else
      let n := out.length
      let s := (s.unreserve x.part x.heldAcct x.held).sealStep { t' with stackLow := low, susp := t'.susp || susp } n
      let s := s.bump64 (rPrtSpecAcc x.part) n
      let s := (s.specRecords x t.session out).specText x n
      let fin := if cut == .cap then stBadEntry else if x.replayed then stReplayed else stOk
      let epoch := match s.strand? x.part t.session with | some y => y.epoch.toNat | none => 0
      let nodes := (List.range tree.list.length).map (fun i =>
        if out.any (fun o => o.node == i) then stOk
        else if cut != .none then stSpecDiscarded
        else match dead with | some (k, st) => if k == i then st else stSpecDiscarded | none => stSpecDiscarded)
      (s.wrBytes (leAt x.entry 48 8) (specHeader x t.steps.toNat n fin tree.depth epoch t'.hist.length nodes)).ctxUpd x.id
        (fun y => { y with st := .past, status := some fin, held := 0, res0 := BitVec.ofNat 64 t'.hist.length
                           res1 := BitVec.ofNat 32 n })

/-- Clusters beside the home one for the split rows of a verification's tree (R22): none are needed where every node has a candidate list. -/
def State.specShares (s : State) (x : OpCtx) (tree : DTree) : Option (List Clu × State) :=
  match s.strand? x.part (eSession x.entry) with
  | some t => s.pickShares t ⟨0, tree.list.all (·.cand), 0#32, 0⟩
  | none => some ([], s)

/-- SPEC_VERIFY (R109, R321): its checks, its walk and its commit, in the order of ready work (R51). It waits while too few clusters are at hand
for its split rows (R22). -/
def specVerify (c : Ctx) (s : State) : State :=
  match s.ctx? c with
  | none => s
  | some x =>
    if eOp x.entry != opSPEC_VERIFY || x.st != .ready || s.opBefore x then s
    else
    match s.specShares x (s.readTree (leAt x.entry 24 8) (leAt x.entry 32 1)) with
    | none => s
    | some (shares, s) =>
      let s := s.ctxUpd c (fun y => { y with shares := shares })
      let n := leAt x.entry 32 1
      let tree := s.readTree (leAt x.entry 24 8) n
      let s := s.bump64 (rPrtSpecDraft x.part) (n - 1)
      match s.strand? x.part (eSession x.entry) with
      | none => s.specFail x tree stNotResident
      | some t =>
        match s.specFault x t tree with
        | some st => s.specFail x tree st
        | none =>
          let (ms, s) := s.forkTree t tree x.mode
          match assocFind ms 0 with
          | none => s
          | some m0 =>
            match (ms.map (·.2.res.fault)).find? (·.isSome) with
            | some f => (s.markFault c).specFail x tree (f.getD stBadEntry)
            | none =>
              if m0.toks.isEmpty then (s.countEmpty x.part (emptyStatus m0.res)).specFail x tree (emptyStatus m0.res)
              else
                match State.specWalk x t tree ms 17 0 [] s with
                | .error (st, s) => s.specFail x tree st
                | .ok (path, dead, s) => s.specCommit x t tree ms path dead

/-- MASK_BATCH. -/
def execMaskBatch (c : Ctx) (s : State) : Host.Outcome State Fault Refusal := run (gated (.maskBatch c) (maskBatch c)) s
/-- SPEC_VERIFY. -/
def execSpecVerify (c : Ctx) (s : State) : Host.Outcome State Fault Refusal := run (gated (.specVerify c) (specVerify c)) s

end Sys2Proof.Machine
end

