-- ==== Sys2Proof/Machine/Encode.lean ====
section
/-! DEFINITION. Sys2Proof/Machine/Encode.lean: encode units, ENCODE and its outputs, ENCODE_APPEND, DECODE, prefill chunks and
block hashes (R145, R167, R223 to R256, R272). -/
namespace Sys2Proof.Machine
open Sys2Proof

/-! ### Segments (R223 to R225, R389) -/

/-- The vocabulary an encode op works under: its own, or its strand's. -/
def State.encVoc (s : State) (x : OpCtx) : Option Voc :=
  if eOp x.entry == opENCODE_APPEND then
    (s.strand? x.part (eSession x.entry)).bind (fun t => s.voc x.part t.vocab t.ovl)
  else
    match x.binds with
    | [] => none
    | v :: l => s.voc x.part v l.head?
/-- Its effective size. -/
def State.encSize (s : State) (x : OpCtx) : Nat := match s.encVoc x with | some v => v.size | none => 0

/-- Pieces formed so far, newest first, forced cuts so far, and a PRETOK program's fault with the part it struck. -/
structure Forming where
  done   : List Piece
  forced : Nat
  bad    : Option (BitVec 8 × Piece)
  s      : State

/-- One part of a piece after R224, through the PRETOK program when one is bound (R388, R389). -/
def formPart (x : OpCtx) (clu : Clu) (pt : Option (Bound × BEnv)) (f : Forming) (part : List TU × Bool) : Forming :=
  match f.bad, pt with
  | some _, _ => f
  | none, none => { f with done := mkPiece part.2 part.1 :: f.done }
  | none, some (b, e) =>
    match pretokCall f.s x.part clu b e x.mode part.1 with
    | (some st, _, s) => { f with bad := some (st, mkPiece false part.1), s := s }
    | (none, subs, s) =>
      let ps := subs.mapIdx (fun i l => mkPiece (part.2 && i + 1 == subs.length) l)
      { f with done := ps.reverse ++ f.done, s := s }

/-- Mark every part but the last as followed by a cut. -/
def markCuts : List (List TU) → List (List TU × Bool)
  | [] => []
  | [a] => [(a, false)]
  | a :: t => (a, true) :: markCuts t

/-- One item of the input. -/
def formItem (x : OpCtx) (v : Voc) (clu : Clu) (pt : Option (Bound × BEnv)) (f : Forming) : Item → Forming
  | .special tok off stop =>
    if f.bad.isSome then f else { f with done := ⟨off, stop, some tok, [], (v.str tok).length, false⟩ :: f.done }
  | .span off bs =>
    (v.pretok (v.normalise off bs)).foldl (fun f piece =>
      if f.bad.isSome then f
      else
        let (parts, n) := forcedCuts piece.length piece
        (markCuts parts).foldl (formPart x clu pt) { f with forced := f.forced + n }) f

/-- A segment of pieces. -/
def toSeg (l : List Piece) : EncSeg :=
  { start := (l.head?.map (·.start)).getD 0, stop := (l.getLast?.map (·.stop)).getD 0
    pieces := l.map (fun p => (p.special, p.start, p.units)), forced := (l.filter (·.cut)).length }

/-- Form the pieces of an encode op's text, through its PRETOK program where one is bound. -/
def State.formText (s : State) (x : OpCtx) (v : Voc) : Forming :=
  let (clu, s) := s.pickHome x.part
  let pt := match x.pretok with | some b => (s.benv x.part b).map (fun e => (b, e)) | none => none
  let app := eOp x.entry == opENCODE_APPEND
  let specials := if app then (leAt x.entry 36 1).testBit 0 else (leAt x.entry 52 1).testBit 0
  (v.items specials (s.rdBytes (leAt x.entry 24 8) (leAt x.entry 32 4))).foldl (formItem x v clu pt) ⟨[], 0, none, s⟩
/-- The segments of what was formed. After a fault of the PRETOK program the last segment is the one it struck. -/
def Forming.segs (f : Forming) : List EncSeg :=
  (segments [] (f.done.reverse ++ match f.bad with | some (_, p) => [p] | none => [])).map toSeg
/-- Form an encode op's segments at its readiness. -/
def State.formSegs (s : State) (x : OpCtx) : State :=
  match s.encVoc x with
  | none => s
  | some v =>
    let f := s.formText x v
    (f.s.bumpBy (rPrtEncForced x.part) 0 32 f.forced).ctxUpd x.id (fun y => { y with
      segs := some f.segs, forced := f.forced, encFault := f.bad.map (·.1) })

/-! ### Encode slots and units (R226, R680) -/

/-- Encode slots of a partition. -/
def State.encSlots (s : State) (p : Part) : Nat :=
  max 1 (32 * (s.ownClusters p).length * max 1 (min 100 (s.rf (rPrtEncCfg p) 0 7)) / 100)

/-- Threads that carry a unit of an op. -/
def OpCtx.unitThreads (x : OpCtx) : List Thread :=
  (x.segs.getD []).filterMap (fun g => match g.st with | .running t => some t | _ => none)

/-- Threads that carry a unit of a partition. -/
def State.unitThreads (s : State) (p : Part) : List Thread :=
  (s.ctxs.filter (fun x => x.part == p)).flatMap OpCtx.unitThreads

/-- The lowest segment that a MODEL program's fault has struck (R395). -/
def OpCtx.faultSeg (x : OpCtx) : Option Nat := (x.segs.getD []).findIdx? (fun g => g.fault.isSome)

/-- The next unit an op would issue: its first waiting segment; one that a fault struck, or that comes after one, is never issued. -/
def OpCtx.nextUnit (x : OpCtx) : Option Nat :=
  let l := x.segs.getD []
  let n := min (if x.encFault.isSome then l.length - 1 else l.length) (x.faultSeg.getD l.length)
  if x.st != .ready then none else ((l.take n).findIdx? (fun g => g.st == .waiting))

/-- Does op `a` come before op `b` under R226? -/
def State.unitBefore (s : State) (a b : OpCtx) : Bool :=
  let tie :=
    if ePrio a.entry != ePrio b.entry then ePrio b.entry < ePrio a.entry
    else if a.lastUnit != b.lastUnit then a.lastUnit < b.lastUnit
    else a.seq < b.seq
  (dueFirst (s.due a) (s.due b)).getD tie

/-- The op that the next free slot of a partition serves. -/
def State.unitOp (s : State) (p : Part) : Option OpCtx :=
  (s.ctxs.filter (fun x => x.part == p && x.nextUnit.isSome)).foldl (fun best x =>
    match best with
    | none => some x
    | some b => if s.unitBefore x b then some x else best) none

/-- Beads of a partition that carry no unit: cluster and bead. -/
def State.freeBeads (s : State) (p : Part) : List (Clu × Fin 33) :=
  let busy := (s.unitThreads p).map (fun t => (t.clu, t.bead))
  ((s.workClusters p).flatMap (fun c => (List.finRange 33).map (fun b => (c, b)))).filter
    (fun x => s.beadOn x.1 x.2 && !busy.contains x)

/-- Text pieces of a segment, in units. -/
def EncSeg.texts (g : EncSeg) : List (List Nat) := (g.pieces.filter (fun p => p.1.isNone)).map (fun p => p.2.2.map (·.u))

/-- ENCODE_UNIT_ISSUE (R226): a free slot takes the next unit, on a bead and a thread that a free value picks (DESIGN CHOICE, log entry 2). -/
def encodeUnitIssue (p : Part) (s : State) : State :=
  if s.encSlots p ≤ (s.unitThreads p).length then s
  else
    match s.unitOp p with
    | none => s
    | some x =>
      let beads := s.freeBeads p
      let (k, s) := s.freeBelow (max 1 beads.length)
      let (th, s) := s.freeBelow 4
      match beads[k]?, x.nextUnit with
      | some (c, b), some u =>
        let name : Thread := ⟨c, b, ⟨th % 4, Nat.mod_lt _ (by decide)⟩⟩
        let order := (s.parts[p]).encNext + 1
        let s := s.partUpd p (fun y => { y with encNext := order })
        let s := s.ctxUpd x.id (fun y => { y with
          lastUnit := order, ranOn := y.ranOn ++ [cluGrp c], segs := y.segs.map (fun l => l.modify u (fun g => { g with st := .running name })) })
        match x.model.bind (fun b => (s.benv p b).map (fun e => (b, e))), (x.segs.getD [])[u]?.map EncSeg.texts with
        | some (b, e), some (t :: l) =>
          s.setThread name { modelThread p b e x.mode t with job := some { ctx := x.id, unit := u, size := s.encSize x, left := t :: l } }
        | _, _ => s
      | _, _ => s

/-- Tokens of a segment's pieces with the input start of each, and those dropped (R230): `mods` are the MODEL program's results. A special match starts
where the white space that it absorbs starts (DESIGN CHOICE, log entry 49). -/
def segTokens (v : Voc) (prog : Bool) : List (Option Nat × Nat × List TU) → List (List Nat) → List (Nat × Nat × Bool) × Nat
  | [], _ => ([], 0)
  | (some t, st, _) :: l, mods =>
    let (r, d) := segTokens v prog l mods
    ((t, st, true) :: r, d)
  | (none, _, us) :: l, mods =>
    let (toks, d) := v.keepLive (if prog then v.progToks (mods.headD []) else v.model (us.map (·.u)))
    let (r, d') := segTokens v prog l mods.tail
    (toks.map (fun t => (t.1, inputAt us t.2, false)) ++ r, d + d')

/-- Free the threads of an op's running units. -/
def State.freeUnits (s : State) (x : OpCtx) : State := x.unitThreads.foldl (fun s t => s.setThread t {}) s

/-! ### ENCODE output (R235 to R237) -/

/-- Segments of the kept run: ended from segment 0, tokens within `room` bytes; and whether the fit ended the run. -/
def keptRun (room : Nat) : List EncSeg → List EncSeg × Bool
  | [] => ([], false)
  | g :: l =>
    if g.st != .ended || g.fault.isSome then ([], false)
    else if room < 4 * g.toks.length then ([], true)
    else
      let (r, f) := keptRun (room - 4 * g.toks.length) l
      (g :: r, f)

/-- The 64 bytes of an ENCODE header. -/
def encHeader (toks bytes segs total forced dropped packOff rows seqs chunkOff chunks hashOff blocks handleOff flags block : Nat) :
    List Byte :=
  leBytes 4 toks ++ leBytes 4 bytes ++ leBytes 4 segs ++ leBytes 4 total ++ leBytes 4 forced ++ leBytes 4 dropped ++
  leBytes 4 packOff ++ leBytes 4 rows ++ leBytes 4 seqs ++ leBytes 4 chunkOff ++ leBytes 4 chunks ++ leBytes 4 hashOff ++
  leBytes 4 blocks ++ leBytes 4 handleOff ++ leBytes 1 flags ++ leBytes 1 block ++ leBytes 6 0

/-- The segments of an encode op's text, formed at its readiness or, for an op that has not begun, as they would be (R223, R235); and whether a
PRETOK program's fault cut them short. -/
def State.opSegs (s : State) (x : OpCtx) : List EncSeg × Bool :=
  match x.segs, s.encVoc x with
  | some l, _ => (l, x.encFault.isSome)
  | none, some v => let f := s.formText x v; (f.segs, f.bad.isSome)
  | none, none => ([], false)

/-- End an ENCODE without its whole output (R237): the kept run's tokens and a header with COMPLETE 0; `noFit` tells that the output did not
fit. An op that had not begun has the segments of its text, none of them tokenised. After a PRETOK program's fault the number of segments in the
text is not known: SEG_TOTAL is free (DESIGN CHOICE, log entry 2). -/
def State.encodeFail (s : State) (x : OpCtx) (st : BitVec 8) (noFit : Bool) : State :=
  let e := x.entry
  let out := leAt e 40 8
  let (l, cut) := s.opSegs x
  let (kept, full) := keptRun (leAt e 48 4 - 64) l
  let (f, s) := s.freeBelow (2 ^ 32)
  let total := if cut then f else l.length
  let toks := kept.flatMap (fun g => g.toks.map (·.1))
  let bytes := match l[kept.length]? with | some g => g.start | none => leAt e 32 4
  let hdr := encHeader toks.length bytes kept.length total (kept.map (·.forced)).sum (kept.map (·.dropped)).sum 0 0 0 0 0 0 0 0
    (if full || noFit then 2 else 0) (leAt e 53 1 % 4)
  let s := s.spoil (out + 64 + 4 * toks.length) (leAt e 48 4 - 64 - 4 * toks.length)
  (((s.freeUnits x).wrBytes (out + 64) (toks.flatMap (leBytes 4))).wrBytes out hdr).ctxUpd x.id (fun y => { y with
    st := .past, status := some st, res0 := BitVec.ofNat 64 bytes, res1 := BitVec.ofNat 32 toks.length
    res2 := BitVec.ofNat 32 kept.length, segs := none })

/-- End an ENCODE_APPEND that appends nothing (R140, R167). -/
def State.appendFail (s : State) (x : OpCtx) (st : BitVec 8) : State :=
  let hint := if st == stAdmitDenied then s.rf (rPrtAdmitCfg x.part) 16 8 else 0
  ((s.freeUnits x).freePageList x.part x.pages).ctxUpd x.id (fun y => { y with
    st := .past, status := some st, res2 := BitVec.ofNat 32 hint, pages := [], segs := none })

/-- End an encode op of either kind without success. -/
def State.encEnd (s : State) (x : OpCtx) (st : BitVec 8) : State :=
  if eOp x.entry == opENCODE then s.encodeFail x st false else s.appendFail x st

/-- A running unit ends (R226, R254, R395): its segment is tokenised, or its program's fault strikes it. -/
def State.endUnit (c : Ctx) (s : State) (unit : Nat) : State :=
  match s.ctx? c with
  | none => s
  | some x =>
    match (x.segs.getD [])[unit]?, s.encVoc x with
    | some g, some v =>
      match g.st with
      | .running name =>
        let prog := x.model.isSome && !g.texts.isEmpty
        let s := if prog then finishThread name (g.texts.length + 1) s else s
        let th := s.thread name
        match th.st with
        | .faulted cause =>
          (s.setThread name {}).ctxUpd c (fun y => { y with
            segs := y.segs.map (fun l => l.modify unit (fun g => { g with st := .ended, fault := some (faultStatus cause) })) })
        | _ =>
          let mods := match th.job with | some j => j.toks | none => []
          let (toks, d) := segTokens v prog g.pieces mods
          ((s.setThread name {}).bump64 (rPrtEncBytes x.part) (g.stop - g.start)).ctxUpd c (fun y => { y with
            segs := y.segs.map (fun l => l.modify unit (fun g => { g with st := .ended, toks := toks, dropped := d })) })
      | _ => s
    | _, _ => s

/-- A MODEL program's fault ends the op with every running unit (R395, R680): units before the one it struck are run to their ends at once, since
the fault of the lowest piece decides; those after it are dropped. -/
def State.unitFault (s : State) (c : Ctx) : State :=
  match (s.ctx? c).bind OpCtx.faultSeg with
  | none => s
  | some u =>
    let s := (List.range u).foldl (State.endUnit c) s
    match s.ctx? c with
    | none => s
    | some x =>
      let st := ((x.faultSeg.bind (fun u => (x.segs.getD [])[u]?)).bind (·.fault)).getD stBadEntry
      (s.markFault c).encEnd x st

/-- ENCODE_UNIT_END (R226, R254, R395, R680). -/
def encodeUnitEnd (c : Ctx) (unit : Nat) (s : State) : State := (s.endUnit c unit).unitFault c

/-- Tokens that an ENCODE_APPEND will append (R252), as its units will find them: each segment is tokenised at once in a state that is given
up. -/
def State.appendLen (s : State) (x : OpCtx) : Nat :=
  match s.encVoc x with
  | none => 0
  | some v =>
    let prog := x.model.bind (fun b => (s.benv x.part b).map (fun e => (b, e)))
    ((x.segs.getD []).map (fun g =>
      let name : Thread := ⟨0, 0, 0⟩
      let mods := match prog, g.texts with
        | some (b, e), t :: l =>
          let u := s.setThread name
            { modelThread x.part b e x.mode t with job := some { ctx := x.id, unit := 0, size := v.size, left := t :: l } }
          match ((finishThread name (l.length + 2) u).thread name).job with | some j => j.toks | none => []
        | _, _ => []
      (segTokens v (x.model.isSome && !g.texts.isEmpty) g.pieces mods).1.length)).sum
/-- History pages that a strand of `len` tokens needs beside those it holds. -/
def Strand.appendPages (t : Strand) (len : Nat) : Nat := (len + 1023) / 1024 - t.histPages.length - t.sparePages.length

/-- An ENCODE_APPEND takes at its readiness every page that its tokens and the new stack need, which is empty (R167, R252); without them it fails
with ADMIT_DENIED. After a PRETOK program's fault it appends nothing and takes none. -/
def State.takeAppendPages (s : State) (x : OpCtx) (t : Strand) : State :=
  if x.encFault.isSome then s
  else
    match s.stepPages x.part t.session (t.appendPages (t.hist.length + s.appendLen x)) with
    | (some l, s) => s.ctxUpd x.id (fun y => { y with pages := l })
    | (none, s) => s.appendFail x stAdmitDenied

/-! ### Packed rows (R238 to R240) -/

/-- A sequence: index of its first token, its tokens, input offset of the first. -/
structure PackSeq where
  first : Nat
  toks  : List Nat
  src   : Nat
deriving DecidableEq, Repr

/-- Cut the tokens into sequences at BOS matches (R238). `k` is the index of the next token, `cur` the open sequence, newest first. -/
def packSeqs (v : Voc) (cutBos : Bool) : Nat → List (Nat × Nat) → List (Nat × Nat × Bool) → List PackSeq
  | k, cur, [] => if cur.isEmpty then [] else
      [⟨k - cur.length, cur.reverse.map (·.1), (cur.getLast?.map (·.2)).getD 0⟩]
  | k, cur, (t, st, sp) :: l =>
    if cutBos && sp && v.role t == 1 && !cur.isEmpty then
      ⟨k - cur.length, cur.reverse.map (·.1), (cur.getLast?.map (·.2)).getD 0⟩ :: packSeqs v cutBos (k + 1) [(t, st)] l
    else packSeqs v cutBos (k + 1) ((t, st) :: cur) l

/-- A cell of the rows: token, fragment number, position. -/
abbrev PackCell := Nat × Nat × Nat

/-- The packed rows so far, row-major, fragments in the current row, and the sequence table. -/
structure Packing where
  cells : List PackCell := []
  frags : Nat := 0
  table : List (List Byte) := []

/-- Pad the current row (R239). -/
def Packing.pad (k : Packing) (l pad : Nat) : Packing :=
  let col := k.cells.length % l
  if col == 0 then k else { k with cells := k.cells ++ List.replicate (l - col) (pad, 0, 0), frags := 0 }

/-- Place one sequence (R239). -/
def Packing.place (l pad : Nat) (k : Packing) (q : PackSeq) : Packing :=
  let col := k.cells.length % l
  let n := q.toks.length
  let k := if col != 0 && (l < col + n || k.frags == 65535) then k.pad l pad else k
  let at_ := k.cells.length
  let col := at_ % l
  let frag := if col == 0 then 1 else k.frags + 1
  let cells := q.toks.mapIdx (fun i t => (t, (if at_ / l == (at_ + i) / l then frag else 1), i))
  { cells := k.cells ++ cells
    frags := if (at_ + n) % l == 0 then 0 else if at_ / l == (at_ + n) / l then frag else 1
    table := k.table ++ [leBytes 4 q.first ++ leBytes 4 n ++ leBytes 4 (at_ / l) ++ leBytes 4 col ++ leBytes 2 frag ++ leBytes 2 0 ++
      leBytes 4 q.src ++ leBytes 8 0] }

/-- Pad a byte list to a multiple of 64. -/
def packArea (k : Packing) : List Byte :=
  pad64 (k.table.flatMap id) ++ k.cells.flatMap (fun c => leBytes 4 c.1) ++ pad64 (k.cells.flatMap (fun c => leBytes 2 c.2.1)) ++
  k.cells.flatMap (fun c => leBytes 4 c.2.2)

/-! ### Prefill chunks (R243, R244) -/

/-- The descriptors for `n` tokens at address `a` under budget `b`. -/
def chunkDescs (a n b : Nat) : List (List Byte) :=
  (List.range ((n + b - 1) / b)).map (fun i =>
    let cnt := min n ((i + 1) * b) - i * b
    leBytes 4 (i * b) ++ leBytes 4 cnt ++ leBytes 4 i ++ leBytes 1 (if n ≤ (i + 1) * b then 1 else 0) ++ leBytes 3 0 ++
      leBytes 8 (a + 4 * (i * b)) ++ leBytes 8 0)

/-! ### Block hashes (R246 to R251) -/

/-- The partition's prefix key from asset key 0 (R246). -/
def prefixKey (k : BitVec 256) : List Byte := blake3Derive "Rhoram Pliow prefix v1" (leBytes 32 k.toNat)

/-- The chain of block hashes over whole blocks (R247). -/
def hashChain (key : List Byte) (n : Nat) : Nat → List Byte → List Nat → List (List Byte)
  | 0, _, _ => []
  | f + 1, h, toks =>
    if toks.length < n then []
    else
      let h' := (blake3Keyed key (h ++ leBytes 4 n ++ (toks.take n).flatMap (leBytes 4))).take 16
      h' :: hashChain key n f h' (toks.drop n)

/-- Hashes of a token list with block code `code`. -/
def blockHashes (k : BitVec 256) (code : Nat) (root : List Byte) (toks : List Nat) : List (List Byte) :=
  hashChain (prefixKey k) (hashBlockLen code) toks.length root toks

/-- The first `slots` BY_HASH entries of a prefix handle table (R250). -/
def handleEntries (sec : List Byte) (slots : Nat) : List (List Byte) := (List.range slots).map (fun i => (sec.drop (32 * i)).take 32)

/-- The handle of a block's hash, 0 when there is none (R251). -/
def State.handleOf (s : State) (p : Part) (tab : Option Bound) (code : Nat) (h : List Byte) : Nat :=
  match tab.bind (s.version? p) with
  | none => 0
  | some v =>
    match (handleEntries (sectOf v.sects 0x30) (leAt v.hdr 36 4)).find? (fun b => leAt b 16 8 != 0 && b.take 16 == h && leAt b 24 1 % 4 == code) with
    | some b => leAt b 16 8
    | none => 0

/-- The hash of a handle (R251). -/
def State.hashOfHandle (s : State) (p : Part) (tab : Option Bound) (handle : Nat) : Option (List Byte) :=
  match tab.bind (s.version? p) with
  | none => none
  | some v =>
    if handle == 0 then none
    else ((handleEntries (sectOf v.sects 0x30) (leAt v.hdr 36 4)).find? (fun b => leAt b 16 8 == handle)).map (·.take 16)

/-- ENCODE (R235, R236): once every unit has ended, the areas, then the header, which is the commit point. An area that is asked for has its place
also when it is empty (DESIGN CHOICE, log entry 49). -/
def encode (c : Ctx) (s : State) : State :=
  match s.ctx? c with
  | none => s
  | some x =>
    let e := x.entry
    match x.segs, s.encVoc x with
    | some l, some v =>
      let need := if x.encFault.isSome then l.length - 1 else l.length
      if eOp e != opENCODE || x.st != .ready || (l.take need).any (fun g => g.st != .ended) then s
      else
        match x.encFault with
        | some st => (s.markFault c).encodeFail x st false
        | none =>
          let out := leAt e 40 8
          let flag := fun i => (leAt e 52 1).testBit i
          let all := l.flatMap (·.toks)
          let toks := all.map (·.1)
          let n := toks.length
          let o := up64 (64 + 4 * n)
          let pk := ((packSeqs v (flag 0) 0 [] all).foldl (Packing.place x.packRow x.packPad) {}).pad x.packRow x.packPad
          let pkB := if flag 1 then packArea pk else []
          let o2 := if flag 1 then up64 (o + pkB.length) else o
          let ch := if flag 2 then chunkDescs (out + 64) n (leAt e 60 4) else []
          let o3 := if flag 2 then up64 (o2 + 32 * ch.length) else o2
          let hs := match x.akey with
            | some k => if flag 3 then blockHashes k (leAt e 53 1 % 4) (leBytes 16 v.digest.toNat) toks else []
            | none => []
          let o4 := if flag 3 then up64 (o3 + 16 * hs.length) else o3
          let hnd := flag 3 && x.table.isSome
          let hd := if hnd then hs.map (fun h => leBytes 8 (s.handleOf x.part x.table (leAt e 53 1 % 4) h)) else []
          let stop := if hnd then o4 + 8 * hd.length else if flag 3 then o3 + 16 * hs.length
            else if flag 2 then o2 + 32 * ch.length else if flag 1 then o + pkB.length else 64 + 4 * n
          if leAt e 48 4 < stop then s.encodeFail x stAborted true
          else
            let s := s.wrBytes (out + 64) (toks.flatMap (leBytes 4))
            let s := if flag 1 then s.wrBytes (out + o) pkB else s
            let s := if flag 2 then s.wrBytes (out + o2) (ch.flatMap id) else s
            let s := if flag 3 then s.wrBytes (out + o3) (hs.flatMap id) else s
            let s := if hnd then s.wrBytes (out + o4) (hd.flatMap id) else s
            let hdr := encHeader n (leAt e 32 4) l.length l.length x.forced (l.map (·.dropped)).sum
              (if flag 1 then o else 0) (if flag 1 then pk.cells.length / max 1 x.packRow else 0)
              (if flag 1 then pk.table.length else 0) (if flag 2 then o2 else 0) ch.length (if flag 3 then o3 else 0) hs.length
              (if hnd then o4 else 0) 1 (leAt e 53 1 % 4)
            (s.wrBytes out hdr).ctxUpd c (fun y => { y with
              st := .past, status := some stOk, res0 := BitVec.ofNat 64 (leAt e 32 4), res1 := BitVec.ofNat 32 n
              res2 := BitVec.ofNat 32 l.length, segs := none })
    | _, _ => s

/-! ### ENCODE_APPEND (R145, R252) -/

/-- The CP's initial state, 0 without a CP (R147). -/
def State.cpInitial (s : State) (p : Part) (cp : Option Bound) : Nat :=
  match cp.bind (s.version? p) with | some v => cINITIAL v.hdr | none => 0

/-- ENCODE_APPEND: once every unit has ended, a PRETOK program's fault, the length check, the commit (R252, R395). Pages that it lacks still, since a
program's free values made other tokens than at its readiness, it takes now. -/
def encodeAppend (c : Ctx) (s : State) : State :=
  match s.ctx? c with
  | none => s
  | some x =>
    match x.segs, s.strand? x.part (eSession x.entry) with
    | some l, some t =>
      let need := if x.encFault.isSome then l.length - 1 else l.length
      if eOp x.entry != opENCODE_APPEND || x.st != .ready || (l.take need).any (fun g => g.st != .ended) then s
      else
      match x.encFault with
      | some st => (s.markFault c).appendFail x st
      | none =>
        let toks := l.flatMap (fun g => g.toks.map (·.1))
        let len := t.hist.length + toks.length
        let h := (len + 1023) / 1024 - t.histPages.length
        if 1048576 < len then s.appendFail x stBadEntry
        else
        match s.stepPages x.part t.session (t.appendPages len - x.pages.length) with
        | (none, s) => s.appendFail x stAdmitDenied
        | (some new, s) =>
            let all := t.sparePages ++ x.pages ++ new
            let units := toks.length * (s.acct x.part t.account).wPrompt
            let t := { t with
              hist := t.hist ++ toks, promptLen := len, cpState := s.cpInitial x.part t.cp, stack := [], stackLow := 0
              stream := {}, histPages := t.histPages ++ all.take h, sparePages := all.drop h }
            (s.sealCommit t units).ctxUpd c (fun y => { y with
              st := .past, status := some stOk, res0 := BitVec.ofNat 64 len, res1 := BitVec.ofNat 32 toks.length, segs := none
              pages := [] })
    | _, _ => s

/-! ### DECODE, PREFILL_CHUNKS, HASH_BLOCKS -/

/-- Tokens of an array. -/
def State.rdToks (s : State) (a n : Nat) : List Nat := (List.range n).map (fun i => s.rdLE (a + 4 * i) 4)

/-- DECODE (R272). -/
def decode (c : Ctx) (s : State) : State :=
  match s.ctx? c with
  | none => s
  | some x =>
    let e := x.entry
    match s.encVoc x with
    | none => s
    | some v =>
      if eOp e != opDECODE || x.st != .ready || s.opBefore x then s
      else
        let txt := decodeText v ((leAt e 52 1).testBit 0) (s.rdToks (leAt e 24 8) (leAt e 32 4))
        if leAt e 48 4 < txt.length then
          (s.spoil (leAt e 40 8) (leAt e 48 4)).ctxUpd c (fun y => { y with st := .past, status := some stAborted })
        else
          (s.wrBytes (leAt e 40 8) txt).ctxUpd c (fun y => { y with
            st := .past, status := some stOk, res0 := BitVec.ofNat 64 txt.length, res1 := BitVec.ofNat 32 (leAt e 32 4) })

/-- Write `k` of an op's prefill descriptors with the header (R245). -/
def State.prefillOut (s : State) (x : OpCtx) (descs : List (List Byte)) (n copyOff : Nat) (st : BitVec 8) (bytes : Nat) : State :=
  let out := leAt x.entry 40 8
  ((s.wrBytes (out + 64) (descs.flatMap id)).wrBytes out
    (leBytes 4 descs.length ++ leBytes 4 n ++ leBytes 4 copyOff ++ leBytes 52 0)).ctxUpd x.id (fun y => { y with
      st := .past, status := some st, res0 := BitVec.ofNat 64 bytes, res1 := BitVec.ofNat 32 descs.length })

/-- The op takes its session's own history (R245). -/
def OpCtx.ownHist (x : OpCtx) : Bool := leAt x.entry 24 8 == 0
/-- The descriptors of a PREFILL_CHUNKS, its token count, and the offset of the token copy (R243 to R245). -/
def OpCtx.prefillDescs (x : OpCtx) : List (List Byte) × Nat × Nat :=
  let e := x.entry
  let b := leAt e 36 4
  let n := if x.ownHist then (x.hist.getD []).length else leAt e 32 4
  let copy := if x.ownHist then up64 (64 + 32 * ((n + b - 1) / b)) else 0
  (chunkDescs (if x.ownHist then leAt e 40 8 + copy else leAt e 24 8) n b, n, copy)

/-- PREFILL_CHUNKS (R243 to R245): the history as it was when the op became ready. -/
def prefillChunks (c : Ctx) (s : State) : State :=
  match s.ctx? c with
  | none => s
  | some x =>
    let e := x.entry
    if eOp e != opPREFILL || x.st != .ready || s.opBefore x then s
    else if x.ownHist && x.hist.isNone then s.ctxUpd c (fun y => { y with st := .past, status := some stNotResident })
    else
      let out := leAt e 40 8
      let room := leAt e 48 4
      let (descs, n, copy) := x.prefillDescs
      let bytes := if x.ownHist then copy + 4 * n else 64 + 32 * descs.length
      if room < bytes then
        let fit := descs.take ((room - 64) / 32)
        (s.spoil out room).prefillOut x fit n 0 stAborted (64 + 32 * fit.length)
      else
        let s := if x.ownHist then s.wrBytes (out + copy) ((x.hist.getD []).flatMap (leBytes 4)) else s
        s.prefillOut x descs n copy stOk bytes

/-- The root of a HASH_BLOCKS chain (R247, R251). -/
def State.hashRoot (s : State) (x : OpCtx) : Option (List Byte) :=
  let e := x.entry
  let parent := (e.drop 40).take 16
  if !(leAt e 37 1).testBit 0 then some (List.replicate 16 0#8)
  else if x.table.isSome && leAt parent 8 8 == 0 then s.hashOfHandle x.part x.table (leAt parent 0 8)
  else some parent

/-- The hashes of a HASH_BLOCKS op (R247, R251). -/
def State.opHashes (s : State) (x : OpCtx) : Option (List (List Byte)) :=
  let e := x.entry
  match x.akey, s.hashRoot x with
  | some k, some root => some (blockHashes k (leAt e 36 1 % 4) root (s.rdToks (leAt e 24 8) (leAt e 32 4)))
  | _, _ => none

/-- HASH_BLOCKS (R247, R248, R251). -/
def hashBlocks (c : Ctx) (s : State) : State :=
  match s.ctx? c with
  | none => s
  | some x =>
    let e := x.entry
    match s.opHashes x with
    | some hs =>
      if eOp e != opHASH_BLOCKS || x.st != .ready || s.opBefore x then s
      else
        let code := leAt e 36 1 % 4
        let out := leAt e 56 8
        let s := s.wrBytes out (hs.flatMap id)
        let s := if x.table.isSome then
            s.wrBytes (out + 16 * hs.length) (hs.flatMap (fun h => leBytes 8 (s.handleOf x.part x.table code h)))
          else s
        s.ctxUpd c (fun y => { y with st := .past, status := some stOk, res1 := BitVec.ofNat 32 hs.length })
    | none => s

/-- ENCODE_UNIT_ISSUE. -/
def execEncodeUnitIssue (p : Part) (s : State) : Host.Outcome State Fault Refusal := run (encodeUnitIssue p) s
/-- ENCODE_UNIT_END. -/
def execEncodeUnitEnd (c : Ctx) (unit : Nat) (s : State) : Host.Outcome State Fault Refusal := run (encodeUnitEnd c unit) s
/-- ENCODE. -/
def execEncode (c : Ctx) (s : State) : Host.Outcome State Fault Refusal := run (gated (.encode c) (encode c)) s
/-- ENCODE_APPEND. -/
def execEncodeAppend (c : Ctx) (s : State) : Host.Outcome State Fault Refusal := run (gated (.encodeAppend c) (encodeAppend c)) s
/-- DECODE. -/
def execDecode (c : Ctx) (s : State) : Host.Outcome State Fault Refusal := run (gated (.decode c) (decode c)) s
/-- PREFILL_CHUNKS. -/
def execPrefillChunks (c : Ctx) (s : State) : Host.Outcome State Fault Refusal := run (gated (.prefillChunks c) (prefillChunks c)) s
/-- HASH_BLOCKS. -/
def execHashBlocks (c : Ctx) (s : State) : Host.Outcome State Fault Refusal := run (gated (.hashBlocks c) (hashBlocks c)) s

end Sys2Proof.Machine
end

