-- ==== Sys2Proof/Machine/ObjLoad.lean ====
section
/-! DEFINITION. Sys2Proof/Machine/ObjLoad.lean: loading and retiring objects, and their placement in the VGS (R180, R184, R186,
R187, R213 to R222, R250, R281 to R284, R391 to R393, R531, R532, R679). -/
namespace Sys2Proof.Machine
open Sys2Proof

/-! ### Prefix handle tables (R250) -/

/-- Is slot `i` reached by linear probing from `home`: every slot before it is full? -/
def probed (full : Nat → Bool) (n home i : Nat) : Bool := (List.range ((i + n - home % n) % n)).all (fun k => full ((home + k) % n))

/-- The rules of a prefix handle table (R250). A section of another type, or of a type twice, fails it; a section longer than its SLOTS entries passes
(DESIGN CHOICE, log entry 49). -/
def handleTableOk (h : List Byte) (ss : List Sect) : Bool :=
  let count := leAt h 32 4
  let n := leAt h 36 4
  let a := sectOf ss 0x30
  let b := sectOf ss 0x31
  let es := handleEntries a n
  let full := fun i => leAt (es.getD i []) 16 8 != 0
  let fulls := (List.range n).filter full
  let idx := fun i => leAt b (4 * i) 4
  let used := (List.range n).filter (fun i => idx i != none32)
  1 ≤ count && count ≤ 16777216 && n.isPowerOfTwo && 8 * count ≤ 7 * n && zeroBytes h 40 128 &&
  (ss.map (·.typ)).all (fun t => t == 0x30 || t == 0x31) && distinct (ss.map (·.typ)) && 32 * n ≤ a.length && 4 * n ≤ b.length &&
  es.all (fun e => leAt e 24 1 < 4 && zeroBytes e 25 32) && fulls.length == count &&
  distinct (fulls.map (fun i => leAt (es.getD i []) 0 16)) && distinct (fulls.map (fun i => leAt (es.getD i []) 16 8)) &&
  fulls.all (fun i => probed full n (leAt (es.getD i []) 0 4) i) &&
  used.all (fun i => idx i < n && full (idx i) && probed (fun j => idx j != none32) n (leAt (es.getD (idx i) []) 16 4) i) &&
  used.length == count && distinct (used.map idx)

/-! ### What a load binds and checks (R180, R213, R214, R281, R282, R392) -/

/-- The effective vocabulary of a held vocabulary or set version. -/
def State.vocOf (s : State) (p : Part) (v : ObjVersion) : Option Voc :=
  if v.kind == 3 then (v.binds.head?).bind (fun b => s.voc p b (some v.bound)) else s.voc p v.bound none

/-- What a load publishes: sections, versions it holds, live bits, bytes beside the plaintext, or the status of its failure. -/
inductive LoadRes where
  | fail (st : BitVec 8)
  | ok (sects : List Sect) (binds : List Bound) (live : Nat) (bitset tables : Nat)

/-- The kind's own checks (step 3 of R187), and step 5 for a set. -/
def State.loadKind (s : State) (p : Part) (kind : Nat) (h : List Byte) (ss : List Sect) : LoadRes × State :=
  let bad := LoadRes.fail stBadEntry
  let dig := fun o => BitVec.ofNat 128 (leAt h o 16)
  let id := fun o => BitVec.ofNat 32 (leAt h o 4)
  match kind with
  | 1 => (if vocabOk h ss then .ok ss [] (vocabLive h ss) ((hV h + 7) / 8) 0 else bad, s)
  | 2 =>
    match s.newestHeld p (id 32) 1 (dig 36) with
    | some b => (if overlayOk (hMODEL b.hdr) h ss then .ok ss [b.bound] 0 0 0 else bad, s)
    | none => (bad, s)
  | 3 =>
    let ovls := (List.range (leAt h 52 1)).filterMap (fun i => s.live? p (id (56 + 4 * i)))
    match s.newestHeld p (id 32) 1 (dig 36) with
    | none => (bad, s)
    | some b =>
      if !setHdrOk h || ovls.length != leAt h 52 1 || !ovls.all (fun o => o.kind == 2 &&
          (match o.binds.head? with
           | some x => x.id == b.id && (match s.version? p x with | some y => y.digest == b.digest | none => false)
           | none => false)) then (bad, s)
      else
        match resolveSet b ovls with
        | none => (bad, s)
        | some r =>
          let (k, s) := s.freeBelow (2 ^ 32)
          let live := bitsOf r.size (fun t => (r.tok b.hdr b.sects t).isLive)
          let bits := (r.size + 7) / 8
          (.ok (resolvedSects b.hdr b.sects r) (b.bound :: ovls.map (·.bound)) live bits k, s)
  | 4 =>
    match s.newestHeld p (cBINDID h) (if leAt h 52 1 == 0 then 1 else 3) (cBINDDIGEST h) with
    | none => (bad, s)
    | some b =>
      match s.vocOf p b with
      | none => (bad, s)
      | some v =>
        if !cpOk v h ss then (bad, s)
        else
          let chk := s.newestHeld p (cCHECKID h) 5 (cCHECKDIGEST h)
          let fin := fun l => if (s.reg (rPrtCpCertMax p)).toNat < cCERT h then LoadRes.fail stPermDenied else .ok ss l 0 0 0
          if cCHECKID h == 0#32 then (fin [b.bound], s)
          else
            match chk with
            | some c => (if bROLE c.hdr == 4 && bBINDDIGEST c.hdr == cBINDDIGEST h then fin [b.bound, c.bound] else bad, s)
            | none => (bad, s)
  | 5 =>
    if !beadOk h ss then (bad, s)
    else
      let fin := fun l => if (s.reg (rPrtBeadCallMax p)).toNat < bCYCLES h then LoadRes.fail stPermDenied else .ok ss l 0 0 0
      if bBINDID h == 0#32 then (fin [], s)
      else
        match s.newestHeld p (bBINDID h) (if leAt h 72 1 == 0 then 1 else 3) (bBINDDIGEST h) with
        | some b => (fin [b.bound], s)
        | none => (bad, s)
  | _ => (if handleTableOk h ss then .ok ss [] 0 0 0 else bad, s)

/-- Versions the instance holds at most of a kind, over all partitions (R186, R284, R393); none for a prefix handle table. -/
def instanceCap : Nat → Option Nat
  | 1 => some 64
  | 2 => some 256
  | 3 => some 256
  | 4 => some 4096
  | 5 => some 1024
  | _ => none

/-- Versions a partition may hold of a kind, and the instance (R186, R284, R393); a prefix handle table has no limit. -/
def State.quotaOk (s : State) (p : Part) (kind : Nat) : Bool :=
  let n := (s.objs.filter (fun v => v.part == p && v.kind == kind)).length
  (match instanceCap kind with | some m => (s.objs.filter (fun v => v.kind == kind)).length < m | none => true) &&
  match kind with
  | 1 => n < s.rf (rPrtObjQuota p) 0 7
  | 2 => n < s.rf (rPrtObjQuota p) 8 9
  | 3 => n < s.rf (rPrtObjQuota p) 17 9
  | 4 => n < s.rf (rPrtCpQuota p) 0 13
  | 5 => n < s.rf (rPrtBeadQuota p) 0 11
  | _ => true

/-! ### Placement (R220) -/

/-- A version is active: live, held by a strand or an op, or held by an active version. `n` bounds the chain of references. -/
def State.active (s : State) (p : Part) : Nat → ObjVersion → Bool
  | n, v =>
    (v.live && s.objState p v.id == 2) ||
    s.strands.any (fun t => t.part == p && t.holds.contains v.bound) ||
    s.ctxs.any (fun c => c.part == p && c.holds.contains v.bound) ||
    match n with
    | 0 => false
    | k + 1 => s.objs.any (fun w => w.part == p && w.binds.contains v.bound && State.active s p k w)

/-- The first class: live, or referred to by a live object. -/
def State.firstClass (s : State) (p : Part) (v : ObjVersion) : Bool :=
  (v.live && s.objState p v.id == 2) ||
  s.objs.any (fun w => w.part == p && w.live && s.objState p w.id == 2 && w.binds.contains v.bound)

/-- Sections of a version with the live bitset after its PRIO 0 sections (R301): section number, PRIO, bytes. -/
def ObjVersion.placeable (v : ObjVersion) : List (Nat × Nat × Nat) :=
  v.sects.mapIdx (fun i x => (i, x.prio, x.bytes.length)) ++
  (if v.kind == 1 then [(v.sects.length, 0, (hV v.hdr + 7) / 8)]
   else if v.kind == 3 then [(v.sects.length, 0, ((sectOf v.sects secAttr).length / 4 + 7) / 8)] else [])

/-- Lay `n` lines from position `at_` of a list of banks: bank, first line, lines. -/
def layLines (banks : List Nat) : Nat → Nat → Nat → List (Nat × Nat × Nat)
  | 0, _, _ => []
  | f + 1, at_, n =>
    match banks[at_ / bankLines]? with
    | some b =>
      let l := at_ % bankLines
      let k := min n (bankLines - l)
      if n == 0 then [] else (b, l, k) :: layLines banks f (at_ + k) (n - k)
    | none => []

/-- A section waiting for placement: its version and its order keys. -/
structure PlaceItem where
  second : Bool
  prio : Nat
  id   : Nat
  sect : Nat
  ver  : Nat
  lines : Nat
deriving DecidableEq, Repr

/-- The order of R220, and older versions of one ID last (DESIGN CHOICE, log entry 23). -/
def PlaceItem.le (a b : PlaceItem) : Bool :=
  let key := fun (x : PlaceItem) => [if x.second then 1 else 0, x.prio, x.id, x.sect, 2 ^ 32 - x.ver]
  decide (key a ≤ key b)

/-- Recompute a partition's placement (R220), in banks of quads that are on (R412), and write every line it places (R416). Banks are filled
in rising order (DESIGN CHOICE, log entry 23). -/
def State.replace (s : State) (p : Part) : State :=
  let banks := (List.range 32).filter (fun b => s.vgsOwner b == some p && s.bankOn b && !s.quiet (0x40 + b / 8))
  let vs := s.objs.filter (fun v => v.part == p && s.active p s.objs.length v)
  let items := sortBy PlaceItem.le (vs.flatMap (fun v => v.placeable.map (fun (i, pr, n) =>
    PlaceItem.mk (!s.firstClass p v) pr v.id.toNat i v.ver ((n + 63) / 64))))
  let cap := banks.length * bankLines
  let placed := (items.foldl (fun (acc : Nat × List (PlaceItem × List (Nat × Nat × Nat))) x =>
    if acc.1 + x.lines ≤ cap then (acc.1 + x.lines, acc.2 ++ [(x, layLines banks 33 acc.1 x.lines)]) else acc) (0, [])).2
  { s with
    objs := s.objs.map (fun v =>
      if v.part == p then
        { v with placed := placed.flatMap (fun (x, l) =>
            if x.id == v.id.toNat && x.ver == v.ver then l.map (fun (b, a, n) => (x.sect, b, a, n)) else []) }
      else v)
    vgs := (placed.flatMap (·.2)).foldl (fun v x => v.tag (x.1 * bankLines + x.2.1) x.2.2) s.vgs }

/-- LINES of a VGS bank (R221). -/
def State.bankUse (s : State) (b : Nat) : Nat :=
  ((s.objs.flatMap (·.placed)).map (fun (_, k, _, n) => if k == b then n else 0)).sum

/-! ### OBJECT_LOAD (R187) -/

/-- End a load without a new version. -/
def State.loadEnd (s : State) (x : OpCtx) (st : BitVec 8) : State :=
  let id := BitVec.ofNat 32 (leAt x.entry 24 4)
  ((s.objIdUpd x.part id (fun o => { o with loading := false })).dropId x.part id).ctxUpd x.id
    (fun y => { y with st := .past, status := some st })

/-- The plaintext of an object image (R532), none when the header or the tag is wrong. -/
def openObject (key : BitVec 256) (kind : Nat) (img : List Byte) : Option (List Byte) :=
  let h := img.take 64
  if img.length < 64 || leAt h 0 1 != 1 || leAt h 1 1 != kind || !zeroBytes h 2 4 || leAt h 4 4 < 128 || 2 ^ 30 < leAt h 4 4 ||
      img.length != 64 + leAt h 4 4 || !zeroBytes h 20 32 || !zeroBytes h 48 64 then none
  else
    gcmDec (leBytes 32 key.toNat) ((h.drop 8).take 12) (h.take 32 ++ List.replicate 16 0#8 ++ h.drop 48) (img.drop 64)
      ((h.drop 32).take 16)

/-- Unit `i` of a backing image as it is stored: its sixteen data units of 4 KiB under AES-256-XTS, with the data-unit index within the image as
the tweak (R219). -/
def backUnit (key : BitVec 512) (img : List Byte) (i : Nat) : List Byte :=
  (List.range 16).flatMap (fun j => xtsEnc (leBytes 64 key.toNat) (16 * i + j) ((img.drop (65536 * i + 4096 * j)).take 4096))
/-- Write a version's backing image: its plaintext, then the live bitset, then free bytes that stand for the resolved tables, whose layout there the
spec does not give, and for the rest of the last unit (R219, R679; DESIGN CHOICE, log entry 2). -/
def State.writeBacking (s : State) (p : Part) (key : BitVec 512) (units : List Nat) (img : List Byte) : State :=
  let (pad, s) := s.freeBytes (65536 * units.length - img.length)
  let s := s.partUpd p (fun x => { x with backEver := x.backEver ++ units.filter (fun u => !x.backEver.contains u) })
  units.zipIdx.foldl (fun s u => s.wrBytes (s.backAddr p u.1) (backUnit key (img ++ pad) u.2)) s

/-- Publish a version (step 7), after its placement (step 6). -/
def State.publish (s : State) (x : OpCtx) (v : ObjVersion) : State :=
  let p := x.part
  let old := s.objs.map (fun w => if w.part == p && w.id == v.id then { w with live := false } else w)
  let s := { s with objs := old ++ [v] }
  let s := s.objIdUpd p v.id (fun o => { o with loading := false, next := o.next + 1, kind := v.kind })
  ((s.replace p).collect).ctxUpd x.id (fun y => { y with st := .past, status := some stOk, res0 := BitVec.ofNat 64 v.ver })

/-- OBJECT_LOAD: steps 1 to 7 of R187. -/
def objectLoad (c : Ctx) (s : State) : State :=
  match s.ctx? c with
  | none => s
  | some x =>
    let e := x.entry
    let p := x.part
    let id := BitVec.ofNat 32 (leAt e 24 4)
    let kind := leAt e 28 1
    if eOp e != opOBJECT_LOAD || x.st != .ready then s
    else
      let img := s.rdBytes (leAt e 32 8) (leAt e 40 4)
      let room := s.backSize p - (s.backUsed p).length
      match x.akey, s.objId? p id with
      | some key, some o =>
        if !s.quotaOk p kind || room < unitsFor (leAt img 4 4) then s.loadEnd x stPermDenied
        else
          match openObject key kind img with
          | none => s.loadEnd x stBadEntry
          | some pt =>
            if !envelopeOk kind pt then s.loadEnd x stBadEntry
            else
              let h := pt.take 128
              match s.loadKind p kind h (objSects pt) with
              | (.fail st, s) => s.loadEnd x st
              | (.ok ss binds live bitset tables, s) =>
                match s.takeUnits p (unitsFor (pt.length + bitset + tables)) with
                | none => s.loadEnd x stPermDenied
                | some (units, s) =>
                  let bits := (List.range bitset).map (fun i => BitVec.ofNat 8 (live / 2 ^ (8 * i)))
                  (s.writeBacking p (Config.backingKey key p.val id.toNat o.next) units (pt ++ bits)).publish x
                    { part := p, id := id, ver := o.next, kind := kind, keySel := leAt e 29 1 % 2, hdr := h
                      digest := BitVec.ofNat 128 (leAt h 8 16), sects := ss, backUnits := units, tabBytes := tables
                      live := true, binds := binds, liveBits := live }
      | _, _ => s

/-- OBJECT_RETIRE (R184). -/
def objectRetire (c : Ctx) (s : State) : State :=
  match s.ctx? c with
  | none => s
  | some x =>
    if eOp x.entry != opOBJECT_RETIRE || x.st != .ready then s
    else
      let id := BitVec.ofNat 32 (leAt x.entry 24 4)
      let s := (s.objIdUpd x.part id (fun o => { o with retiring := true })).collect
      let n := ((s.versions x.part id).map (fun v => s.refs x.part v.bound)).sum
      s.ctxUpd c (fun y => { y with st := .past, status := some stOk, res1 := BitVec.ofNat 32 (min n (2 ^ 32 - 1)) })

/-- OBJECT_LOAD. -/
def execObjectLoad (c : Ctx) (s : State) : Host.Outcome State Fault Refusal := run (gated (.objectLoad c) (objectLoad c)) s
/-- OBJECT_RETIRE. -/
def execObjectRetire (c : Ctx) (s : State) : Host.Outcome State Fault Refusal := run (gated (.objectRetire c) (objectRetire c)) s

end Sys2Proof.Machine
end

