-- ==== Sys2Proof/Machine/Rings.lean ====
section
/-! DEFINITION. Sys2Proof/Machine/Rings.lean: ring pairs, the intake FIFO, the event ring and their doorbells
(03_rings_and_clasps.md, R65 to R93). -/
namespace Sys2Proof.Machine
open Sys2Proof

/-- Capacity of an intake FIFO (R86). -/
abbrev fifoMax : Nat := 32

/-- Slots of the submission ring and of the completion ring, by the sizes read when ENABLE was last set (R73, R79). -/
def State.sqSlots (s : State) (r : Ring) : Nat := ringSlots (s.rings[r]).sqSize
def State.cqSlots (s : State) (r : Ring) : Nat := ringSlots (s.rings[r]).cqSize

/-- SQ and CQ occupancy (R67). -/
def State.sqOcc (s : State) (r : Ring) : Nat := (s.reg (rPrtSqTail r) - s.reg (rPrtSqHead r)).toNat
def State.cqOcc (s : State) (r : Ring) : Nat := (s.reg (rPrtCqTail r) - s.reg (rPrtCqHead r)).toNat

/-- ENABLE of a ring pair that a partition owns (R65, R79). -/
def State.ringOn (s : State) (r : Ring) : Bool := s.rb (rPrtRingCfg r) 31 && (s.ringOwner r).isSome

/-- DRAINED (R73, R81): FIFO empty, no completion of a flushed entry waiting, and no op of the ring in a context. -/
def State.drained (s : State) (r : Ring) : Bool :=
  (s.rings[r]).fifo.isEmpty && (s.rings[r]).cancelled.isEmpty && !s.ctxs.any (fun c => c.ring == r)

/-- MODE: true for PUSH (R79). While the ring is enabled or drains, it is the mode read when ENABLE was set (R73). On a ring that is off
and drained it is the register's, which the spec leaves open (DESIGN CHOICE, log entry 8). -/
def State.pushMode (s : State) (r : Ring) : Bool :=
  if s.rb (rPrtRingCfg r) 31 || !s.drained r then (s.rings[r]).mode else s.rb (rPrtRingCfg r) 30

/-- The watermarks in force (R79). -/
def State.hiwm (s : State) (r : Ring) : Nat := max 1 (min 32 (s.rf (rPrtRingCfg r) 14 6))
def State.lowm (s : State) (r : Ring) : Nat := min (s.rf (rPrtRingCfg r) 8 6) (s.hiwm r - 1)

/-- Evaluate the watermarks after the FIFO depth may have changed (R86). -/
def State.evalXoff (s : State) (r : Ring) : State :=
  let hi := s.hiwm r
  let lo := s.lowm r
  s.ringUpd r (fun x => { x with
    xoff := if hi ≤ x.fifo.length then true else if x.fifo.length ≤ lo then false else x.xoff })

/-- PLW_FC_XOFF of a partition: the OR of XOFF over its enabled ring pairs (R86). -/
def State.fcXoff (s : State) (p : Part) : Bool :=
  (List.finRange 64).any (fun r => s.ringOwner r == some p && s.rb (rPrtRingCfg r) 31 && (s.rings[r]).xoff)

/-! ### Submission -/

/-- SQ_DOORBELL (R67, R68, R74). -/
def sqDoorbell (r : Ring) (v : Word) (s : State) : State :=
  if !s.ringOn r || s.pushMode r then s
  else if s.sqSlots r < (v - s.reg (rPrtSqHead r)).toNat then
    (s.setRb (rPrtRingStatus r) 24 true).ringError r 1 0 0
  else (s.setReg (rPrtSqTail r) v).ringUpd r (fun x => { x with fetchStopped := false })

/-- Chip-memory address of SQ index `i` (R67, R73, R78). -/
def State.sqAddr (s : State) (r : Ring) (i : Word) : Nat :=
  fld (s.rings[r]).sqBase 12 52 * 4096 + 64 * (i.toNat % s.sqSlots r)

/-- Stop SQ fetching after a failed read (R68): RING_ERROR with cause 3. -/
def State.sqFail (s : State) (r : Ring) : State :=
  (s.ringUpd r (fun x => { x with fetchStopped := true })).ringError r 3 0 (s.reg (rPrtSqHead r)).toNat

/-- Read one SQ entry into the FIFO, if fetching is on, an entry waits and the FIFO has space (R68). -/
def State.sqFetch1 (s : State) (r : Ring) : State :=
  let x := s.rings[r]
  let head := s.reg (rPrtSqHead r)
  if !s.ringOn r || s.pushMode r || x.fetchStopped || fifoMax ≤ x.fifo.length || s.sqOcc r == 0 then s
  else
    match s.ringOwner r with
    | none => s
    | some p =>
      let a := s.sqAddr r head
      if s.memOk p a 64 false then
        (s.ringUpd r (fun x => { x with fifo := x.fifo ++ [⟨head, s.rdBytes a 64⟩] })).setReg (rPrtSqHead r) (head + 1#32)
      else s.sqFail r

/-- SQ_FETCH (R68): a read of up to 4 entries. -/
def sqFetch (r : Ring) (s : State) : State :=
  ((((s.sqFetch1 r).sqFetch1 r).sqFetch1 r).sqFetch1 r).evalXoff r

/-- PUSH_WORD (R69): word `k` of the entry being assembled, which while a PRT_PUSH15 write is held is the held entry: it commits when the
write completes (DEDUCED, log entry 8). -/
def pushWord (r : Ring) (k : Fin 15) (v : Word) (s : State) : State :=
  if s.pushMode r then s.ringUpd r (fun x => { x with push := x.push.set k.val v (by omega) }) else s

/-- The 64 bytes of the assembled entry with its last word (R69). -/
def pushBytes (x : RingPair) (v : Word) : List Byte :=
  ((x.push.set 15 v).toList).flatMap (fun w => leBytes 4 w.toNat)

/-- The assembled words start again at zero. -/
def RingPair.clearPush (x : RingPair) : RingPair := { x with push := Vector.replicate 16 0#32 }

/-- Enter the assembled entry into the FIFO (R69): SQ_TAIL and SQ_HEAD move together. -/
def State.pushEnter (s : State) (r : Ring) (v : Word) : State :=
  let i := s.reg (rPrtSqTail r)
  let s := s.ringUpd r (fun x =>
    RingPair.clearPush { x with fifo := x.fifo ++ [FifoEntry.mk i (pushBytes x v)] })
  (s.setReg (rPrtSqTail r) (i + 1#32)).setReg (rPrtSqHead r) (s.reg (rPrtSqHead r) + 1#32)

/-- PUSH_COMMIT (R69, R73): the entry enters the FIFO; a full FIFO holds the write; a disabled ring discards it and sets PUSH_DROP (R81). So
does an enabled ring pair that no partition owns, of which the spec says only that it takes no entries (R65; DESIGN CHOICE, log entry 8). -/
def pushCommit (r : Ring) (v : Word) (s : State) : State :=
  if !s.pushMode r then s
  else if !s.ringOn r then
    (s.ringUpd r RingPair.clearPush).setRb (rPrtRingStatus r) 22 true
  else if !(s.rings[r]).pushHeld.isEmpty || fifoMax ≤ (s.rings[r]).fifo.length then
    s.ringUpd r (fun x => { x with pushHeld := x.pushHeld ++ [v] })
  else (s.pushEnter r v).evalXoff r

/-- The oldest held PRT_PUSH15 write enters. -/
def State.pushNext (s : State) (r : Ring) : State :=
  match (s.rings[r]).pushHeld with
  | v :: l => (s.ringUpd r (fun x => { x with pushHeld := l })).pushEnter r v
  | [] => s

/-- After a FIFO slot frees, the oldest held PRT_PUSH15 write enters (R69, R88). -/
def State.pushResume (s : State) (r : Ring) : State :=
  if (s.rings[r]).fifo.length < fifoMax then s.pushNext r else s

/-- Held PRT_PUSH15 writes enter while there are free slots; `n` bounds them. -/
def State.pushDrain (s : State) (r : Ring) : Nat → State
  | 0 => s
  | n + 1 => (s.pushResume r).pushDrain r n

/-! ### Completions -/

/-- The 32 bytes of a completion (R96). -/
def completionBytes (status : BitVec 8) (entry : List Byte) (phase : Nat) (index : Word) (res0 : DWord)
    (res1 res2 : Word) : List Byte :=
  leBytes 1 status.toNat ++ entry.take 1 ++ leBytes 1 (phase * 128) ++ leBytes 1 0 ++ leBytes 4 index.toNat ++
  (entry.drop 8).take 8 ++ leBytes 8 res0.toNat ++ leBytes 4 res1.toNat ++ leBytes 4 res2.toNat

/-- Is there no free completion slot (R71)? -/
def State.cqFull (s : State) (r : Ring) : Bool := s.cqSlots r ≤ s.cqOcc r

/-- Chip-memory address of CQ index `i` (R67, R73, R78). -/
def State.cqAddr (s : State) (r : Ring) (i : Word) : Nat :=
  fld (s.rings[r]).cqBase 12 52 * 4096 + 32 * (i.toNat % s.cqSlots r)

/-- Write a completion to slot CQ_TAIL (R71); a slot outside the partition's ranges is used up and reported by RING_ERROR
with cause 4. The CQ is not full. What the slot held is kept until software has read it, for a write that fails (`cqWriteFailed`). -/
def State.putCompletion (s : State) (rng : List MemRange) (r : Ring) (status : BitVec 8) (entry : List Byte) (index : Word)
    (res0 : DWord) (res1 res2 : Word) : State :=
  let tail := s.reg (rPrtCqTail r)
  let a := s.cqAddr r tail
  let ph := ringPhase (s.rings[r]).cqSize tail
  let ok := rangesCover rng a 32 true
  let s1 := if ok then s.wrBytes a (completionBytes status entry ph index res0 res1 res2) else s
  let w : List CqWrite := if ok then [⟨tail, a, BitVec.ofNat 64 (leAt entry 8 8), s.rdBytes a 32⟩] else []
  let s2 := (s1.setReg (rPrtCqTail r) (tail + 1#32)).ringUpd r (fun x => { x with
    unread := x.unread ++ [s.time], written := x.written ++ w })
  if ok then s2 else s2.ringError r 4 (leAt entry 8 8) tail.toNat

/-- The write of a completion ended with an error response or timed out (R71, R433): the slot keeps its earlier contents, and RING_ERROR
with cause 4 names the op's TAG and the index. -/
def State.cqWriteFailed (s : State) (r : Ring) (a : Nat) : State :=
  match (s.rings[r]).written.find? (fun w => w.addr == a) with
  | some w =>
    ((s.wrBytes a w.old).ringUpd r (fun x => { x with written := x.written.filter (· != w) })).ringError r 4 w.tag.toNat w.index.toNat
  | none => s

/-- The stall of a completion that finds the CQ full (R71): CQ_STALL, and one CQ_FULL event for each stall. -/
def State.cqStalled (s : State) (p : Part) (r : Ring) : State :=
  if (s.rings[r]).cqStall then s
  else
    (s.ringUpd r (fun x => { x with cqStall := true })).post p 0x0B 0 (some r) noSession 0#64
      (BitVec.ofNat 64 (s.cqOcc r))

/-- CANCELLED (R12). -/
abbrev stCancelled : BitVec 8 := 0x02#8

/-- Write the CANCELLED completions of flushed entries while the CQ has space (R71, R87); `n` bounds them. -/
def State.drainCancelled (s : State) (p : Part) (r : Ring) : Nat → State
  | 0 => s
  | n + 1 =>
    match (s.rings[r]).cancelled with
    | [] => s
    | e :: rest =>
      if s.cqFull r then s.cqStalled p r
      else
        ((s.putCompletion (s.ranges p) r stCancelled e.bytes e.index 0#64 0#32 0#32).ringUpd r
          (fun x => { x with cancelled := rest })).drainCancelled p r n

/-- CQ_HEAD_WRITE (R67, R76, R83). -/
def cqHeadWrite (r : Ring) (v : Word) (s : State) : State :=
  let occ := (s.reg (rPrtCqTail r) - v).toNat
  if s.cqSlots r < occ then (s.setRb (rPrtRingStatus r) 24 true).ringError r 2 0 0
  else
    let s := (s.setReg (rPrtCqHead r) v).ringUpd r (fun x => { x with
      headAt := s.time
      unread := x.unread.drop (x.unread.length - occ)
      written := x.written.filter (fun w => (w.index - v).toNat < occ)
      coalDue := false
      cqStall := x.cqStall && s.cqSlots r ≤ occ })
    match s.ringOwner r with
    | some p => s.drainCancelled p r (s.rings[r]).cancelled.length
    | none => s

/-! ### Enabling, draining, flushing -/

/-- The fields of PRT_RING_CFG that a write changes: HIWM, LOWM and IRQ_EN always, MODE and the sizes while ENABLE is 0. -/
def State.ringFields (s : State) (r : Ring) (v : Word) : State :=
  let s1 := ((s.setRf (rPrtRingCfg r) 14 6 (fld v 14 6)).setRf (rPrtRingCfg r) 8 6 (fld v 8 6)).setRf (rPrtRingCfg r) 0 1
    (fld v 0 1)
  if s.rb (rPrtRingCfg r) 31 then s1
  else ((s1.setRf (rPrtRingCfg r) 30 1 (fld v 30 1)).setRf (rPrtRingCfg r) 24 4 (fld v 24 4)).setRf (rPrtRingCfg r) 20 4
    (fld v 20 4)

/-- RING_ENABLE (R73, R79): ENABLE written 1 while it is 0; it stays 0 while the ring is not drained. -/
def ringEnable (r : Ring) (v : Word) (s : State) : State :=
  if !bit v 31 || s.rb (rPrtRingCfg r) 31 then s
  else
    let s1 := s.ringFields r v
    if s.drained r then
      ((((((s1.setRb (rPrtRingCfg r) 31 true).setReg (rPrtSqHead r) 0#32).setReg (rPrtSqTail r) 0#32).setReg
        (rPrtCqHead r) 0#32).setReg (rPrtCqTail r) 0#32).ringUpd r (fun x => { x with
          fifo := [], fetchStopped := false, cqStall := false, headAt := s.time, unread := [], written := [], coalDue := false
          mode := bit v 30, sqSize := fld v 24 4, cqSize := fld v 20 4, sqBase := s.reg64 (rPrtSqBase r)
          cqBase := s.reg64 (rPrtCqBase r) })).evalXoff r
    else s1.evalXoff r

/-- RING_DISABLE (R73, R79): ENABLE written 0 while it is 1; held PUSH writes complete and their entries are discarded. The watermarks are
evaluated after any write of PRT_RING_CFG, since HIWM and LOWM may have changed: R86 names only a change of the depth (DESIGN CHOICE, log
entry 8). -/
def ringDisable (r : Ring) (v : Word) (s : State) : State :=
  if bit v 31 || !s.rb (rPrtRingCfg r) 31 then s
  else
    let held := !(s.rings[r]).pushHeld.isEmpty
    let s := ((s.ringFields r v).setRb (rPrtRingCfg r) 31 false).evalXoff r
    if held then
      (s.ringUpd r (fun x => { x.clearPush with pushHeld := [] })).setRb (rPrtRingStatus r) 22 true
    else s

/-- RING_FLUSH (R87): a held PUSH write, the oldest, enters first; every FIFO entry is discarded and completes with CANCELLED; in MEMORY
mode the entries still in the ring are skipped. -/
def ringFlush (r : Ring) (v : Word) (s : State) : State :=
  if !bit v 0 then s
  else
    let s := s.pushNext r
    let s := s.ringUpd r (fun x => { x with cancelled := x.cancelled ++ x.fifo, fifo := [] })
    let s := if s.pushMode r then s else s.setReg (rPrtSqHead r) (s.reg (rPrtSqTail r))
    let s := (s.pushDrain r (s.rings[r]).pushHeld.length).evalXoff r
    match s.ringOwner r with
    | some p => s.drainCancelled p r (s.rings[r]).cancelled.length
    | none => s

/-! ### Logits-ready doorbell -/

/-- The logits-ready source of a STEP_BATCH entry (R105). -/
def lrSrc (e : List Byte) : Nat := leAt e 36 1 / 64

/-- LOGITS_READY_DOORBELL (R84, R107): the batch named has its logits ready, and the value is kept among the last 16. -/
def logitsReadyDoorbell (r : Ring) (v : Word) (s : State) : State :=
  let s := s.ringUpd r (fun x => { x with lready := (v :: x.lready).take 16 })
  { s with ctxs := s.ctxs.map (fun c =>
      if c.ring == r && c.index == v && leAt c.entry 0 1 == 0x06 && lrSrc c.entry == 0 then { c with logits := true } else c) }

/-! ### Event ring -/

/-- Post the reset report to a partition whose event ring has just been enabled (R636). -/
def State.postReport (s : State) (p : Part) : State :=
  if (s.parts[p]).reportDue then
    (s.post p 0x11 0 none noSession 0#64 s.reportAddr).partUpd p (fun x => { x with reportDue := false })
  else s

/-- EVQ_ENABLE (R91): ENABLE written 1 while it is 0 sets both indices to 0 and latches SIZE. -/
def evqEnable (p : Part) (v : Word) (s : State) : State :=
  if !bit v 31 || s.rb (rPrtEvqCfg p) 31 then s
  else
    (((((s.setRf (rPrtEvqCfg p) 24 4 (fld v 24 4)).setRf (rPrtEvqCfg p) 30 2 (fld v 30 2)).setReg (rPrtEvqHead p) 0#32).setReg
      (rPrtEvqTail p) 0#32).partUpd p (fun x => { x with evqLast := none })).postReport p

/-- A write of PRT_EVQ_CFG that does not set ENABLE (R91): SIZE holds while ENABLE was 1. -/
def State.evqCfg (s : State) (p : Part) (v : Word) : State :=
  let s1 := if s.rb (rPrtEvqCfg p) 31 then s else s.setRf (rPrtEvqCfg p) 24 4 (fld v 24 4)
  s1.setRf (rPrtEvqCfg p) 30 2 (fld v 30 2)

/-- Event ring occupancy. -/
def State.evqOcc (s : State) (p : Part) : Nat := (s.reg (rPrtEvqTail p) - s.reg (rPrtEvqHead p)).toNat

/-- EVQ_HEAD_WRITE (R92). While ENABLE is 0 the SIZE field as it stands says which N judges (DESIGN CHOICE, log entry 8). -/
def evqHeadWrite (p : Part) (v : Word) (s : State) : State :=
  if ringSlots (s.rf (rPrtEvqCfg p) 24 4) < (s.reg (rPrtEvqTail p) - v).toNat then
    s.post p 0x0A 0 none noSession 0#64 5#64
  else s.setReg (rPrtEvqHead p) v

/-- COAL_US µs, as the register stands, have passed since the later of the last head write and the oldest unread completion (R83). -/
def State.coalPassed (s : State) (r : Ring) : Bool :=
  match (s.rings[r]).unread with
  | [] => false
  | t :: _ => max (s.rings[r]).headAt t + s.rf (rPrtRingIrq r) 24 8 * 100 ≤ s.time

/-- COAL_TIMER_EXPIRY (R83): COAL_US µs since the later of the last head write and the oldest unread completion. -/
def coalTimerExpiry (r : Ring) (s : State) : State :=
  if s.rf (rPrtRingIrq r) 24 8 != 0 && s.coalPassed r then s.ringUpd r (fun x => { x with coalDue := true }) else s

/-! ### Interrupt conditions and status (R81, R83, R93) -/

/-- The completion interrupt condition (R83). -/
def State.ringIrq (s : State) (r : Ring) : Bool :=
  s.rb (rPrtRingCfg r) 0 &&
    (max 1 (s.rf (rPrtRingIrq r) 0 16) ≤ s.cqOcc r ||
     (1 ≤ s.cqOcc r && s.rf (rPrtRingIrq r) 24 8 != 0 && (s.rings[r]).coalDue && s.coalPassed r))

/-- PRT_IRQ_RINGS of a partition (R93). -/
def State.irqRings (s : State) (p : Part) : DWord :=
  BitVec.ofNat 64 (((List.finRange 64).map (fun r =>
    if s.ringOwner r == some p && s.ringIrq r then 2 ^ r.val else 0)).sum)

/-- PLW_IRQ of a partition (R83, R93). -/
def State.irqPart (s : State) (p : Part) : Bool :=
  s.irqRings p != 0#64 || (s.rb (rPrtEvqCfg p) 30 && 1 ≤ s.evqOcc p)

/-- PRT_RING_STATUS as it reads (R81). -/
def State.ringStatus (s : State) (r : Ring) : Word :=
  let own := match s.ringOwner r with | some p => p.val * 2 ^ 28 + 2 ^ 27 | none => 0
  let x := s.rings[r]
  BitVec.ofNat 32 (own + (if x.xoff then 2 ^ 26 else 0) + (if s.drained r then 2 ^ 25 else 0) +
    s.rf (rPrtRingStatus r) 24 1 * 2 ^ 24 + (if x.cqStall then 2 ^ 23 else 0) +
    s.rf (rPrtRingStatus r) 22 1 * 2 ^ 22 + x.fifo.length % 64)

/-! ### Meanings -/

/-- A write of a doorbell page that brings an entry: a secondary takes forwarded ones only (R619). -/
def doorbell (v : SentWord) (off : Nat) (f : State → State) (s : State) : Host.Outcome State Fault Refusal :=
  if s.ignores v.src off then next s else runWrite off v.val f s

/-- SQ_DOORBELL. -/
def execSqDoorbell (r : Ring) (v : SentWord) (s : State) : Host.Outcome State Fault Refusal :=
  doorbell v (rPrtSqTail r) (sqDoorbell r v.val) s
/-- SQ_FETCH. -/
def execSqFetch (r : Ring) (s : State) : Host.Outcome State Fault Refusal := run (sqFetch r) s
/-- PUSH_WORD. -/
def execPushWord (r : Ring) (k : Fin 15) (v : SentWord) (s : State) : Host.Outcome State Fault Refusal :=
  doorbell v (rPrtPush r k) (pushWord r k v.val) s
/-- PUSH_COMMIT. -/
def execPushCommit (r : Ring) (v : SentWord) (s : State) : Host.Outcome State Fault Refusal :=
  doorbell v (rPrtPush r 15) (pushCommit r v.val) s
/-- CQ_HEAD_WRITE. -/
def execCqHeadWrite (r : Ring) (v : Word) (s : State) : Host.Outcome State Fault Refusal := runWrite (rPrtCqHead r) v (cqHeadWrite r v) s
/-- RING_ENABLE. -/
def execRingEnable (r : Ring) (v : Word) (s : State) : Host.Outcome State Fault Refusal := runWrite (rPrtRingCfg r) v (ringEnable r v) s
/-- RING_DISABLE. -/
def execRingDisable (r : Ring) (v : Word) (s : State) : Host.Outcome State Fault Refusal := runWrite (rPrtRingCfg r) v (ringDisable r v) s
/-- RING_FLUSH. -/
def execRingFlush (r : Ring) (v : Word) (s : State) : Host.Outcome State Fault Refusal := runWrite (rPrtRingCtrl r) v (ringFlush r v) s
/-- LOGITS_READY_DOORBELL. -/
def execLogitsReadyDoorbell (r : Ring) (v : Word) (s : State) : Host.Outcome State Fault Refusal :=
  runWrite (rPrtLready r) v (logitsReadyDoorbell r v) s
/-- EVQ_ENABLE. -/
def execEvqEnable (p : Part) (v : Word) (s : State) : Host.Outcome State Fault Refusal := runWrite (rPrtEvqCfg p) v (evqEnable p v) s
/-- EVQ_HEAD_WRITE. -/
def execEvqHeadWrite (p : Part) (v : Word) (s : State) : Host.Outcome State Fault Refusal := runWrite (rPrtEvqHead p) v (evqHeadWrite p v) s
/-- COAL_TIMER_EXPIRY. -/
def execCoalTimerExpiry (r : Ring) (s : State) : Host.Outcome State Fault Refusal := run (coalTimerExpiry r) s

end Sys2Proof.Machine
end

