-- ==== Sys2Proof/Machine/Dispatcher.lean ====
section
/-! DEFINITION. Sys2Proof/Machine/Dispatcher.lean: from the intake FIFO to readiness and to the completion: contexts, dispatch checks
and bindings, readiness, clasps, QUERY (R11 to R13, R49 to R52, R71, R72, R95, R122, R125 to R133, R172, R173, R182 to R185, R218,
R242, R283, R389, R390, R530, R674). -/
namespace Sys2Proof.Machine
open Sys2Proof

/-! ### Contexts (R125 to R128) -/

/-- IN_USE of a partition. -/
def State.inUse (s : State) (p : Part) : Nat := (s.ctxs.filter (fun c => c.part == p && c.id.val < 4096)).length
/-- QUOTA and GUARANTEE (R126). -/
def State.ctxQuota (s : State) (p : Part) : Nat := min 4096 (s.rf (rPrtOpctxCfg p) 16 13)
def State.ctxGuarantee (s : State) (p : Part) : Nat := s.rf (rPrtOpctxCfg p) 0 13
/-- Unused guarantees of the other partitions. -/
def State.otherGuarantees (s : State) (p : Part) : Nat :=
  (((List.finRange 16).filter (· != p)).map (fun q => s.ctxGuarantee q - s.inUse q)).sum

/-- May an entry with this opcode take a context (R125, R128)? -/
def State.ctxAvail (s : State) (p : Part) (op : Nat) : Bool :=
  let ctl := (s.ctxs.filter (fun c => 4096 ≤ c.id.val)).length
  if isControl op then ctl < 64
  else
    s.inUse p < s.ctxQuota p &&
      (s.inUse p < s.ctxGuarantee p || s.otherGuarantees p < 4096 - (s.ctxs.length - ctl))

/-- The lowest free context for an opcode. -/
def State.freeCtx (s : State) (op : Nat) : Option Ctx :=
  let base := if isControl op then 4096 else 0
  match (List.range (s.ctxs.length + 1)).find? (fun i => !s.ctxs.any (fun c => c.id.val == base + i)) with
  | some i => if h : base + i < 4160 then some ⟨base + i, h⟩ else none
  | none => none

/-- A RING clasp of a ring pair has no final status yet (R132). -/
def State.ringClasped (s : State) (r : Ring) : Bool :=
  s.ctxs.any (fun c => c.ring == r && eOp c.entry == opCLASP && leAt c.entry 24 1 % 4 == 0 && c.status.isNone)

/-- Priority of a ring's head entry when that can be dispatched: not while its partition recovers (R588). -/
def State.headPrio (s : State) (r : Ring) : Option Nat :=
  match (s.rings[r]).fifo, s.ringOwner r with
  | f :: _, some p => if (s.parts[p]).recover == 0 && !s.ringClasped r && s.ctxAvail p (eOp f.bytes) then some (ePrio f.bytes) else none
  | _, _ => none

/-- The ring the dispatcher serves next (R128): highest PRIO, ties by round-robin on ring number. -/
def State.dispatchNext (s : State) : Option Ring :=
  let order := (List.range 64).map (fun i => (⟨(s.lastRing + 1 + i) % 64, Nat.mod_lt _ (by decide)⟩ : Ring))
  (order.foldl (fun (best : Option (Ring × Nat)) r =>
    match s.headPrio r, best with
    | some k, some b => if b.2 < k then some (r, k) else some b
    | some k, none => some (r, k)
    | none, b => b) none).map (·.1)

/-! ### Dispatch checks (R674) -/

/-- An op that takes block hashes under the prefix key (R246). -/
def takesHashes (e : List Byte) : Bool := (eOp e == opENCODE && (leAt e 52 1).testBit 3) || eOp e == opHASH_BLOCKS
/-- An op in handle mode (R249). -/
def State.handleMode (s : State) (p : Part) (e : List Byte) : Bool := takesHashes e && s.rb (rPrtPrefixCfg p) 31

/-- An op that reads or writes strands (R157). -/
def usesPool (e : List Byte) : Bool :=
  isStrandOp e || eOp e == opSTEP_BATCH || eOp e == opMASK_BATCH || (eOp e == opPREFILL && leAt e 24 8 == 0)

/-- The ring pair that ABORT, CANCEL and QUERY name (R119, R121). -/
def tgtRing (e : List Byte) : Ring := ⟨leAt e 25 1 % 64, Nat.mod_lt _ (by decide)⟩
/-- ABORT and CANCEL carry TGT_RING in byte 24. -/
def abortRing (e : List Byte) : Ring := ⟨leAt e 24 1 % 64, Nat.mod_lt _ (by decide)⟩

/-- The parameter block that a SESSION_OPEN reads (R150). -/
def State.openParams (s : State) (e : List Byte) : List Byte := if eOp e == opSESSION_OPEN then s.rdBytes (leAt e 40 8) 256 else []

/-- The body of the image that a LOCKET_IMPORT in flight reads, and the vocabulary and set versions that it names. -/
def State.importView (s : State) (x : OpCtx) : Option (Nat × Option (Bound × Option Bound)) :=
  let img := s.rdBytes (leAt x.entry 24 8) (leAt (s.rdBytes (leAt x.entry 24 8) 64) 4 4)
  ((x.akey.bind (fun k => openImage k img)).bind parseBody).map (fun b =>
    let of := fun (i kind : Nat) => (b.binds[i]?).bind (fun y => (s.newestHeld x.part y.1 kind (BitVec.ofNat 128 y.2.2)).map ObjVersion.bound)
    (b.account, (of 0 1).map (fun v => (v, of 1 3))))

/-- The account of a session, and the versions of vocabulary and overlay set that it works under (R157, R389): its strand's, else those of a
SESSION_OPEN in flight for it, of its locket, which a REVIVE in flight may bring back before the op is ready, or of the image of a LOCKET_IMPORT
in flight. -/
def State.sessView (s : State) (p : Part) (sid : Word) : Option (Nat × Option (Bound × Option Bound)) :=
  let kinds := fun (l : List Bound) =>
    let of := fun (k : Nat) => l.find? (fun b => (s.version? p b).any (fun v => v.kind == k))
    (of 1).map (fun b => (b, of 3))
  let inFlight := fun (op : Nat) => s.ctxs.find? (fun x => x.part == p && eOp x.entry == op && x.bound && x.st != .past && eSession x.entry == sid)
  match s.strand? p sid with
  | some t => some (t.account, some (t.vocab, t.ovl))
  | none =>
    match inFlight opSESSION_OPEN, s.locket? p sid, inFlight opIMPORT with
    | some x, _, _ => some (leAt x.entry 32 2 % 4096, kinds x.binds)
    | none, some l, _ => some (leAt l.body 48 2, kinds l.binds)
    | none, none, some x => s.importView x
    | none, none, none => none

/-- An op uses the account table when a session it is on, resident or on its way to be, has a metered account (R157, R169). -/
def State.usesAccts (s : State) (p : Part) (e : List Byte) : Bool :=
  let on := fun (sid : Word) => match s.sessView p sid with
    | some v => (s.acct p v.1).set
    | none => false
  if eOp e == opENCODE_APPEND || eOp e == opSPEC_VERIFY then on (eSession e)
  else eOp e == opSTEP_BATCH && (List.range (leAt e 32 4)).any (fun i => on (BitVec.ofNat 32 (s.rdLE (leAt e 24 8 + 32 * i) 4)))

/-- PERM_DENIED at dispatch but for object names (R95, R157, R158, R189, R519). -/
def State.permBad (s : State) (p : Part) (e : List Byte) (params : List Byte) : Bool :=
  let op := eOp e
  ((op == opABORT || op == opCANCEL) && s.ringOwner (abortRing e) != some p) ||
  (op == opQUERY && leAt e 24 1 == 0 && s.ringOwner (tgtRing e) != some p) ||
  !(entryRanges (s.handleMode p e) e).all (fun x => s.memOk p x.1 x.2.1 x.2.2) ||
  (usesPool e && !(s.poolOk p && s.tableOk p)) ||
  ((op == opBUDGET_SET || s.usesAccts p e) && !s.memOk p (s.acctAddr p 0) 131072 true) ||
  (op == opOBJECT_LOAD && !s.backOk p) ||
  (op == opSESSION_OPEN && !(s.memOk p (leAt params 56 8) (8 * leAt params 50 2) false &&
    s.memOk p (leAt params 64 8) (72 * leAt params 72 1) false))

/-- PRETOK and MODEL programs of the partition's token-program table for a vocabulary and set (R389). -/
def State.tokProg (s : State) (p : Part) (vocab ovl : Word) : Word × Word :=
  let key := if ovl == 0#32 then vocab else ovl
  match (List.range 4).find? (fun i => s.reg (rPrtTokprogMatch p i) == key) with
  | some i => (s.reg (rPrtTokprogPretok p i), s.reg (rPrtTokprogModel p i))
  | none => (0#32, 0#32)

/-- A 32-bit field of an entry. -/
def eWord (e : List Byte) (o : Nat) : Word := BitVec.ofNat 32 (leAt e o 4)

/-- What an op names: vocabulary, set, CP, hook, PRETOK, MODEL, handle table; 0 where it names none. -/
structure Names where
  voc : Word := 0#32
  ovl : Word := 0#32
  cp  : Word := 0#32
  hook : Option Word := none
  pretok : Word := 0#32
  model : Word := 0#32
  table : Option Word := none
  /-- The op names a vocabulary itself. -/
  own : Bool := true

/-- The objects an entry names (R100 to R113, R249, R389, R390). -/
def State.names (s : State) (p : Part) (e : List Byte) (params : List Byte) : Names :=
  let tab := if s.handleMode p e then some (s.reg (rPrtPrefixTable p)) else none
  match eOp e with
  | 0x01 => { voc := eWord e 24, cp := eWord e 28, ovl := eWord e 36, hook := if pHOOK params then some (pHOOKID params) else none }
  | 0x03 =>
    let (a, b) := s.tokProg p (eWord e 36) (eWord e 56)
    { voc := eWord e 36, ovl := eWord e 56, pretok := a, model := b, table := tab }
  | 0x04 =>
    match (s.sessView p (eSession e)).bind (·.2) with
    | some (v, o) =>
      let o := match o with | some b => b.id | none => 0#32
      let (a, b) := s.tokProg p v.id o
      { own := false, voc := v.id, ovl := o, pretok := a, model := b }
    | none => { own := false }
  | 0x05 => { voc := eWord e 36, ovl := eWord e 56 }
  | _ => { own := false, table := tab }

/-- The named IDs with the kinds their fields require. -/
def Names.list (n : Names) : List (Word × Nat) :=
  let opt := fun (w : Word) (k : Nat) => if w == 0#32 then [] else [(w, k)]
  (if n.own then (n.voc, 1) :: opt n.ovl 3 else []) ++ opt n.cp 4 ++ (match n.hook with | some h => [(h, 5)] | none => []) ++
  opt n.pretok 5 ++ opt n.model 5 ++ (match n.table with | some t => [(t, 6)] | none => [])

/-- The states of named IDs (R185), in the order of its table. -/
def State.namesFault (s : State) (p : Part) (l : List (Word × Nat)) : Option (BitVec 8) :=
  let fs := l.map (fun x => s.nameFault p x.1 x.2)
  if fs.contains (some stPermDenied) then some stPermDenied
  else if fs.contains (some stBadEntry) then some stBadEntry
  else if fs.contains (some stObjectBusy) then some stObjectBusy
  else none

/-- The object states of R185 for an entry. -/
def State.objFault (s : State) (p : Part) (e : List Byte) (n : Names) : Option (BitVec 8) :=
  match s.namesFault p n.list with
  | some st => some st
  | none =>
    if eOp e == opOBJECT_LOAD then s.loadFault p (eWord e 24) (leAt e 28 1)
    else if eOp e == opOBJECT_RETIRE then s.retireFault p (eWord e 24)
    else none

/-- The versions an op binds. -/
structure Binding where
  voc : Option ObjVersion := none
  ovl : Option ObjVersion := none
  cp  : Option ObjVersion := none
  hook : Option ObjVersion := none
  pretok : Option ObjVersion := none
  model : Option ObjVersion := none
  table : Option ObjVersion := none

/-- Bind the live versions, and for a set the base version that it binds (R182, R218); an ENCODE_APPEND works under its strand's. -/
def State.bindings (s : State) (p : Part) (e : List Byte) (n : Names) : Binding :=
  let live := fun (w : Word) => if w == 0#32 then none else s.live? p w
  let ovl := live n.ovl
  let voc := match ovl with
    | some o => (o.binds.head?).bind (s.version? p)
    | none => s.live? p n.voc
  let t? := if n.own then none else (s.sessView p (eSession e)).bind (·.2)
  { voc := match t? with | some t => s.version? p t.1 | none => if n.own then voc else none
    ovl := match t? with | some t => t.2.bind (s.version? p) | none => if n.own then ovl else none
    cp := live n.cp, hook := n.hook.bind (s.live? p), pretok := live n.pretok, model := live n.model
    table := n.table.bind (s.live? p) }

/-- A program's ROLE and binding fit (R389, R390). -/
def Binding.progOk (b : Binding) (role : Nat) : Option ObjVersion → Bool
  | none => true
  | some v =>
    bROLE v.hdr == role &&
      (bBINDID v.hdr == 0#32 ||
        (match (if leAt v.hdr 72 1 == 0 then b.voc else b.ovl) with | some x => x.digest == bBINDDIGEST v.hdr | none => false))

/-- A CP's binding fits (R283). -/
def Binding.cpFits (b : Binding) : Bool :=
  match b.cp with
  | none => true
  | some v =>
    let fits := fun (x : Option ObjVersion) => match x with | some y => y.digest == cBINDDIGEST v.hdr | none => false
    if leAt v.hdr 52 1 == 0 then b.ovl.isNone && fits b.voc else fits b.ovl

/-- The bias list and the stop strings that a parameter block names (R150). -/
def State.openBias (s : State) (b : List Byte) : List (Nat × Word) :=
  (List.range (leAt b 50 2)).map (fun i =>
    (s.rdLE (leAt b 56 8 + 8 * i) 4, BitVec.ofNat 32 (s.rdLE (leAt b 56 8 + 8 * i + 4) 4)))
def State.openStops (s : State) (b : List Byte) : List (List Byte) :=
  (List.range (leAt b 72 1)).map (fun i =>
    s.rdBytes (leAt b 64 8 + 72 * i + 8) (min 64 (s.rdLE (leAt b 64 8 + 72 * i) 4)))

/-- Bias entries within their limits (R345): a token below the effective size, a bias finite or −∞. -/
def State.biasOk (s : State) (b : List Byte) (veff : Nat) : Bool :=
  (s.openBias b).all (fun e => e.1 < veff && (fpFinite e.2 || e.2 == fpNegInf))

/-- Stop-string entries within their limits (R150). -/
def State.stopsOk (s : State) (b : List Byte) : Bool :=
  (List.range (leAt b 72 1)).all (fun i =>
    let a := leAt b 64 8 + 72 * i
    1 ≤ s.rdLE a 4 && s.rdLE a 4 ≤ 64 && s.rdLE (a + 4) 4 == 0)

/-- BAD_ENTRY of what an op binds and reads at dispatch (R150, R218, R242, R251, R283, R389, R390). -/
def State.bindBad (s : State) (p : Part) (e params : List Byte) (n : Names) (b : Binding) : Bool :=
  let size := match b.voc with
    | some v => (match s.voc p v.bound (b.ovl.map (·.bound)) with | some x => x.size | none => 0)
    | none => 0
  let row := s.rf (rPrtPackCfg p) 0 18
  (n.own && (match b.ovl with | some o => eWord o.hdr 32 != n.voc | none => false)) ||
  !b.cpFits || !b.progOk 3 b.hook || !b.progOk 1 b.pretok || !b.progOk 2 b.model ||
  (eOp e == opSESSION_OPEN && !(paramsOk params size && s.biasOk params size && s.stopsOk params)) ||
  (eOp e == opENCODE && (leAt e 52 1).testBit 1 &&
    (row % 16 != 0 || row < 16 || 262128 < row || size ≤ s.rf (rPrtPackPad p) 0 22)) ||
  (eOp e == opHASH_BLOCKS && (leAt e 37 1).testBit 0 && n.table.isSome && leAt e 48 8 == 0 &&
    (s.hashOfHandle p (b.table.map (·.bound)) (leAt e 40 8)).isNone)

/-- The asset key that an op needs at dispatch (R246, R530). -/
def keyNeeded (e : List Byte) : Option (Fin 2) :=
  let op := eOp e
  if op == opOBJECT_LOAD then some (if (leAt e 29 1).testBit 0 then 1 else 0)
  else if takesHashes e then some 0
  else if op == opEXPORT || op == opIMPORT then some 1
  else none

/-- A deadline already reached, or a point in a domain that is OFF (R49, R52). A logits-ready point already reached is no such miss: R50 has
the logits ready then, beside the fifth item of R674 (DEDUCED, log entry 10). For a secondary the primary decides so (R53). -/
def State.deadlineBad (s : State) (e : List Byte) : Bool :=
  let d := eDom e
  let off := (s.sd[d]).st == .off
  s.role != 2 && ((eDlValid e && (off || s.reached d (eDeadline e))) || (eOp e == opSTEP_BATCH && lrSrc e == 1 && off))

/-- The first dispatch check that an entry fails (R674). The BAD_ENTRY checks on what the op binds and on its parameter block (R150, R218,
R242, R251, R283, R389) have no place in that order: the model makes them after the object states and before the keys (DESIGN CHOICE,
log entry 10). -/
def State.dispatchFault (s : State) (p : Part) (e params : List Byte) (n : Names) (b : Binding) : Option (BitVec 8) :=
  if entryBad e then some stBadEntry
  else if s.permBad p e params then some stPermDenied
  else
    match s.objFault p e n with
    | some st => some st
    | none =>
      if s.bindBad p e params n b then some stBadEntry
      else if (match keyNeeded e with | some k => ((s.parts[p]).ak[k]).isNone | none => false) then some stKeyUnavail
      else if s.deadlineBad e then some stDeadline
      else none

/-! ### OP_DISPATCH -/

/-- The item list that a batch entry names. -/
def State.listItems (s : State) (e : List Byte) : List BatchItem :=
  (List.range (leAt e 32 4)).map (fun i =>
    let b := s.rdBytes (leAt e 24 8 + 32 * i) 32
    { session := eWord b 0, bytes := b })
/-- Items of a batch as read at dispatch (R106, R311). -/
def State.readItems (s : State) (p : Part) (e : List Byte) : List BatchItem :=
  if eOp e == opSTEP_BATCH then s.listItems e
  else if eOp e == opMASK_BATCH then s.layoutMasks p (leAt e 48 4) (maskBase (leAt e 32 4)) (s.listItems e)
  else []

/-- Are the logits of a STEP_BATCH ready at dispatch (R50, R105, R107)? -/
def State.logitsAtDispatch (s : State) (r : Ring) (index : Word) (e : List Byte) : Bool :=
  match lrSrc e with
  | 0 => (s.rings[r]).lready.contains index
  | 1 => s.role != 2 && s.reached (eDom e) (BitVec.ofNat 64 (leAt e 40 8))
  | _ => true

/-- What an op that passes its checks binds; PRT_SMP_CFG as it stood when the cycle began (R366). -/
def State.bindOp (s : State) (x : OpCtx) (params : List Byte) (b : Binding) : OpCtx :=
  let e := x.entry
  let p := x.part
  let bd : Option ObjVersion → List Bound := fun v => (v.map ObjVersion.bound).toList
  let open_ := eOp e == opSESSION_OPEN
  let app := eOp e == opENCODE_APPEND
  { x with
    bound := true
    binds := if app then [] else bd b.voc ++ bd b.ovl ++ bd b.cp ++ bd b.hook
    pretok := b.pretok.map (·.bound), model := b.model.map (·.bound), table := b.table.map (·.bound)
    strict := s.rb (rPrtMemCfg p) 31, maxPasses := s.cycleStart.rf (rPrtSmpCfg p) 0 8
    packRow := s.rf (rPrtPackCfg p) 0 18, packPad := s.rf (rPrtPackPad p) 0 22
    akey := (keyNeeded e).bind (fun k => (s.parts[p]).ak[k])
    items := s.readItems p e
    logits := eOp e == opSTEP_BATCH && s.logitsAtDispatch x.ring x.index e
    params := if open_ then params else []
    bias := if open_ then s.openBias params else []
    stops := if open_ then s.openStops params else [] }

/-- A load or retire is in flight from dispatch (R185). -/
def State.markObject (s : State) (p : Part) (e : List Byte) : State :=
  let id := eWord e 24
  if eOp e == opOBJECT_LOAD then
    match s.objId? p id with
    | some _ => s.objIdUpd p id (fun o => { o with loading := true })
    | none => { s with objIds := s.objIds ++ [{ part := p, id := id, loading := true, kind := leAt e 28 1 }] }
  else if eOp e == opOBJECT_RETIRE then s.objIdUpd p id (fun o => { o with retireInFlight := true })
  else s

/-- The head entry of a ring's FIFO moves into context `c` and is checked; `late` and `ready` are what a primary decided of its points (R53). -/
def State.dispatchTo (s : State) (r : Ring) (c : Ctx) (late ready : Bool) : State :=
  match (s.rings[r]).fifo, s.ringOwner r with
  | f :: rest, some p =>
    let e := f.bytes
    let s := ((s.ringUpd r (fun x => { x with fifo := rest })).pushResume r).evalXoff r
    let params := s.openParams e
    let n := s.names p e params
    let b := s.bindings p e n
    let x : OpCtx := { id := c, part := p, ring := r, index := f.index, entry := e, seq := s.nextSeq
                       gen := s.reg (rPrtGenCur p), rng := s.ranges p }
    let (x, s) := match s.dispatchFault p e params n b, late with
      | some st, _ => ({ x with st := .past, status := some st }, s)
      | none, true => ({ x with st := .past, status := some stDeadline }, s)
      | none, false =>
        let y := s.bindOp x params b
        ({ y with logits := y.logits || ready }, s.markObject p e)
    let s : State := { s with ctxs := s.ctxs ++ [x], nextSeq := s.nextSeq + 1, lastRing := r.val }
    s.setRf (rPrtOpctxUse p) 16 13 (max (s.rf (rPrtOpctxUse p) 16 13) (s.inUse p))
  | _, _ => s

/-- What the primary told of an op's dispatch has been used. -/
def State.dispatched (s : State) (r : Ring) (index : Word) : State :=
  s.pairUpd (fun x => { x with given := x.given.filter (fun d => !([1, 2, 5].contains d.kind && d.ring == r && d.index == index)) })

/-- OP_DISPATCH (R125): the head entry of the ring the dispatcher serves moves into a context and is checked. A secondary makes the primary's
dispatches, in their order and into the same contexts (R621). -/
def opDispatch (r : Ring) (s : State) : State :=
  match (s.rings[r]).fifo with
  | [] => s
  | f :: _ =>
    if s.role == 2 then
      match s.toldDispatch with
      | none => s
      | some d =>
        let c : Ctx := ⟨fld d.arg 0 16 % 4160, Nat.mod_lt _ (by decide)⟩
        if d.ring != r || d.index != f.index || (s.ctx? c).isSome then s
        else (s.dispatchTo r c (bit d.arg 16 || s.told 1 r f.index) (bit d.arg 17 || s.told 2 r f.index)).dispatched r f.index
    else if s.dispatchNext != some r then s
    else
      match s.freeCtx (eOp f.bytes) with
      | none => s
      | some c => s.dispatchTo r c false false

/-! ### OP_READY (R129, R132, R172, R173) -/

/-- The op has its final status. -/
def OpCtx.final (x : OpCtx) : Bool := x.status.isSome

/-- Does an unfinished clasp `c` hold op `x` (R132, R133)? -/
def OpCtx.holdsBack (c x : OpCtx) : Bool :=
  eOp c.entry == opCLASP && c.part == x.part && c.seq < x.seq && !c.final && !isControl (eOp x.entry) &&
    (leAt c.entry 24 1 % 4 == 2 || (leAt c.entry 24 1 % 4 == 1 && x.sessions.contains (eSession c.entry)))
/-- A clasp holds the op. -/
def State.clasped (s : State) (x : OpCtx) : Bool := s.ctxs.any (fun c => c.holdsBack x)

/-- Another op holds exclusion on the strand that the op changes. -/
def State.exclWaits (s : State) (x : OpCtx) : Bool := isStrandOp x.entry && s.excluded x.part (eSession x.entry) (some x.id)

/-- Another ENCODE_APPEND, dispatched earlier, waits for the account of an ENCODE_APPEND (R173). -/
def State.appendBehind (s : State) (x : OpCtx) (t : Strand) : Bool :=
  s.ctxs.any (fun y => y.part == x.part && eOp y.entry == opENCODE_APPEND && y.st == .queued && y.waitPosted && y.seq < x.seq &&
    (match s.strand? y.part (eSession y.entry) with | some u => u.account == t.account | none => false))

/-- An ENCODE_APPEND waits for its account (R173). -/
def State.appendWaits (s : State) (x : OpCtx) (t : Strand) : Bool :=
  !(s.acct x.part t.account).admitsAppend || s.appendBehind x t

/-- Budget holds the op back. -/
def State.budgetWaits (s : State) (x : OpCtx) : Bool :=
  eOp x.entry == opENCODE_APPEND &&
    (match s.strand? x.part (eSession x.entry) with | some t => s.appendWaits x t | none => false)

/-- Readiness of an ENCODE_APPEND (R167, R173, R252, R253). -/
def State.appendReady (s : State) (x : OpCtx) : State :=
  match s.strand? x.part (eSession x.entry) with
  | none => s.appendFail x stNotResident
  | some t =>
    let a := s.acct x.part t.account
    if !a.admitsAppend then
      if !a.wait then s.appendFail x stBudget
      else if x.waitPosted then s
      else
        (s.post x.part 0x01 (eDom x.entry) (some x.ring) t.session (BitVec.ofNat 64 (eTag x.entry))
          (BitVec.ofNat 64 (a.needed * 2 ^ 32 + t.account))).ctxUpd x.id (fun y => { y with waitPosted := true })
    else if s.appendBehind x t then s
    else if t.stalled then s.appendFail x stAdmitDenied
    else
      let s := (s.ctxUpd x.id (fun y => { y with st := .ready })).formSegs x
      match s.ctx? x.id with
      | some y => s.takeAppendPages y t
      | none => s

/-- Readiness of a SPEC_VERIFY (R172): the reservation of its tree's depth; refused, it completes without waiting. -/
def State.specReady (s : State) (x : OpCtx) : State :=
  let tree := s.readTree (leAt x.entry 24 8) (leAt x.entry 32 1)
  match s.strand? x.part (eSession x.entry) with
  | none => s.ctxUpd x.id (fun y => { y with st := .ready })
  | some t =>
    let a := s.acct x.part t.account
    if !a.admitsStep then s.specFail x tree stBudget
    else
      let ok := tree.shapeOk (leAt x.entry 32 1) (s.veff t)
      let n := if a.set && ok then a.wGen * tree.depth else 0
      (s.reserve x.part t.account n).ctxUpd x.id (fun y => { y with st := .ready, held := n, heldAcct := t.account })

/-- Reserve for the items of a STEP_BATCH in item order (R172). -/
def State.reserveItems (s : State) (c : Ctx) : Nat → State
  | 0 => s
  | n + 1 =>
    let s := s.reserveItems c n
    match s.ctx? c with
    | none => s
    | some x =>
      match x.items[n]? with
      | none => s
      | some i =>
        if i.phase == .done then s
        else
        match s.itemFault x n i, s.strand? x.part i.session with
        | none, some t => (match s.reserveItem x n i t with | some s => s | none => s.failItem x n i stBudget)
        | _, _ => s

/-- Ops whose work runs on beads of a cluster: the home cluster of each session, or any of the partition's. -/
def homeOp (op : Nat) : Bool := op == opMASK_BATCH || op == opSPEC_VERIFY || op == opENCODE_APPEND
def anyCluOp (op : Nat) : Bool := op == opENCODE || op == opDECODE || op == opPREFILL || op == opHASH_BLOCKS

/-- A unit that the op's work needs quiesces for a unit reset (R590): the fabric interface, for an op that stores or fetches lockets the
park controller, for one that encrypts the crypto engine, and the home clusters of its strands. No cluster takes work of the partition
where the op's would be placed (R409). The items of a STEP_BATCH wait one by one. -/
def State.quiescing (s : State) (x : OpCtx) : Bool :=
  let op := eOp x.entry
  let locket := op == opPARK || op == opREVIVE || op == opEXPORT || op == opIMPORT
  s.quiet 0x4A || (locket && (s.quiet 0x48 || s.quiet 0x49)) || ((op == opOBJECT_LOAD || takesHashes x.entry) && s.quiet 0x49) ||
  (op != opSTEP_BATCH && x.sessions.any (fun sid =>
    match s.strand? x.part sid with | some t => s.quiet t.home.val | none => false)) ||
  (homeOp op && x.sessions.any (fun sid =>
    match s.strand? x.part sid with
    | some t => s.groupOwner (cluGrp t.home) == some x.part && !s.takes x.part t.home
    | none => false)) ||
  (anyCluOp op && (s.workClusters x.part).isEmpty)

/-- Nothing but its account holds a queued op (R129). -/
def State.unheld (s : State) (x : OpCtx) : Bool :=
  x.st == .queued && !s.clasped x && !s.exclWaits x && !s.quiescing x && (eOp x.entry != opSTEP_BATCH || x.logits)

/-- Accounts in which an op reserves at readiness (R172). -/
def State.reservesIn (s : State) (x : OpCtx) : List Nat :=
  if eOp x.entry == opSTEP_BATCH || eOp x.entry == opSPEC_VERIFY then
    x.sessions.filterMap (fun sid => (s.strand? x.part sid).map (·.account))
  else []

/-- An op dispatched earlier that can become ready now reserves in one of the op's accounts first (R172). -/
def State.reserveWaits (s : State) (x : OpCtx) : Bool :=
  s.ctxs.any (fun y => y.part == x.part && y.seq < x.seq && s.unheld y && (s.reservesIn y).any (fun a => (s.reservesIn x).contains a))

/-- Give an op its final status with no effect of its own. -/
def State.endWith (s : State) (x : OpCtx) (st : BitVec 8) : State :=
  s.ctxUpd x.id (fun y => { y with st := .past, status := some st })

/-- What its readiness makes of an op. -/
def State.makeReady (s : State) (x : OpCtx) : State :=
      let c := x.id
      let s := if homeOp (eOp x.entry) then x.sessions.foldl (fun s sid => s.rehomeSession x.part sid (some c)) s else s
      match eOp x.entry with
      | 0x03 => (s.ctxUpd c (fun y => { y with st := .ready })).formSegs x
      | 0x04 => s.appendReady x
      | 0x06 =>
        if !x.logits then s
        else (s.ctxUpd c (fun y => { y with st := .ready })).reserveItems c x.items.length
      | 0x08 => s.specReady x
      | 0x09 => s.ctxUpd c (fun y => { y with st := .ready, hist := (s.strand? x.part (eSession x.entry)).map (·.hist) })
      | 0x0B => s.ctxUpd c (fun y => { y with st := .ready, terms := s.parkTerms x.part })
      | 0x02 | 0x0C | 0x0D =>
        let s := s.ctxUpd c (fun y => { y with st := .ready })
        match s.locket? x.part (eSession x.entry) with
        | some l => if l.moving then s.stopMove l else s
        | none => s
      | _ => s.ctxUpd c (fun y => { y with st := .ready })

/-- OP_READY (R129): the op is no longer queued once nothing holds it. A secondary's ops become ready in the order of the primary's, with the results of
its admissions (R621). -/
def opReady (c : Ctx) (s : State) : State :=
  match s.ctx? c with
  | none => s
  | some x =>
    if x.st != .queued || s.clasped x || s.exclWaits x then s
    else if s.role == 2 then
      match s.toldReady with
      | none => s
      | some d =>
        if d.ring != x.ring || d.index != x.index then s
        else if bit d.arg 8 then (s.spend d).endWith x (BitVec.ofNat 8 d.arg.toNat)
        else (s.spend d).makeReady x
    else if s.quiescing x || s.reserveWaits x then s
    else s.makeReady x

/-! ### COMPLETION_WRITE (R71, R72) -/

/-- What an op in flight did to the state of an object ID ends with it (R185). -/
def State.unmarkObject (s : State) (x : OpCtx) : State :=
  if x.bound && eOp x.entry == opOBJECT_RETIRE then
    (s.objIdUpd x.part (eWord x.entry 24) (fun o => { o with retireInFlight := false })).dropId x.part (eWord x.entry 24)
  else s

/-- COMPLETION_WRITE: the completion goes to the CQ, OK as REPLAYED after a replay (R625) or OK_ABORT_LATE after a late ABORT (R136), the context frees, and what the op held is released (R183). -/
def completionWrite (c : Ctx) (s : State) : State :=
  match s.ctx? c with
  | none => s
  | some x =>
    match x.status with
    | none => s
    | some st =>
      if x.st != .past then s
      else if s.cqFull x.ring then s.cqStalled x.part x.ring
      else
        let st := if st == stOk then (if x.replayed then stReplayed else if x.abortLate then stOkAbortLate else st) else st
        (((s.putCompletion x.rng x.ring st x.entry x.index x.res0 x.res1 x.res2).ctxFree c).unmarkObject x).collect

/-! ### CLASP and QUERY -/

/-- A clasp's earlier ops have their final status (R132). -/
def State.claspDone (s : State) (x : OpCtx) : Bool :=
  match leAt x.entry 24 1 % 4 with
  | 0 => s.ctxs.all (fun y => !(y.ring == x.ring && y.seq < x.seq) || y.final)
  | 1 => s.ctxs.all (fun y => !(y.part == x.part && y.seq < x.seq && !isControl (eOp y.entry) &&
      y.sessions.contains (eSession x.entry)) || y.final)
  | 2 => s.ctxs.all (fun y => !(y.part == x.part && y.seq < x.seq && !isControl (eOp y.entry)) || y.final)
  | _ => true

/-- CLASP (R132): every write is in chip memory when it is issued, so a MEMORY clasp completes at once. -/
def clasp (c : Ctx) (s : State) : State :=
  match s.ctx? c with
  | some x => if eOp x.entry == opCLASP && x.st == .ready && s.claspDone x then s.endWith x stOk else s
  | none => s

/-- The op of a partition that a control entry names by ring pair and index. -/
def State.target (s : State) (p : Part) (r : Ring) (i : Word) : Option OpCtx :=
  s.ctxs.find? (fun y => y.part == p && y.ring == r && y.index == i)

/-- What a queued op waits for (R122). -/
def State.queuedOn (s : State) (y : OpCtx) : Nat :=
  (if s.clasped y then 1 else 0) + (if s.budgetWaits y then 2 else 0) +
  (if eOp y.entry == opSTEP_BATCH && !y.logits then 4 else 0) + (if s.exclWaits y then 8 else 0)

/-- The answer of a QUERY (R122). The open sessions of the partition are its resident, warm and cold ones: whether a parked session counts as
open here is left open (DEDUCED, log entry 10). -/
def State.queryAnswer (s : State) (x : OpCtx) : DWord × Word × Word :=
  let e := x.entry
  let p := x.part
  match leAt e 24 1 with
  | 0 =>
    match s.target p (tgtRing e) (eWord e 28) with
    | none => (0#64, 0#32, 0#32)
    | some y =>
      match y.st with
      | .queued => (0#64, 1#32, BitVec.ofNat 32 (s.queuedOn y))
      | .ready => (0#64, 2#32, 0#32)
      | .past => (0#64, 3#32, 0#32)
  | 1 =>
    match s.strand? p (eSession e), s.locket? p (eSession e) with
    | some t, _ => (t.lastLocket, BitVec.ofNat 32 t.hist.length, BitVec.ofNat 32 (1 + if t.susp then 4 else 0))
    | none, some l =>
      if l.waiting then (0#64, 0#32, 0#32)
      else (l.id, BitVec.ofNat 32 l.histLen, BitVec.ofNat 32 ((if l.isWarm then 2 else 3) + if l.lost then 8 else 0))
    | none, none => (0#64, 0#32, 0#32)
  | _ =>
    (BitVec.ofNat 64 (s.resident p + s.nWarm p + s.nCold p), BitVec.ofNat 32 (s.ctxQuota p - s.inUse p),
     BitVec.ofNat 32 (min (s.freePages p) (2 ^ 32 - 1)))

/-- QUERY. -/
def query (c : Ctx) (s : State) : State :=
  match s.ctx? c with
  | some x =>
    if eOp x.entry == opQUERY && x.st == .ready then
      let (a, b, d) := s.queryAnswer x
      s.ctxUpd c (fun y => { y with st := .past, status := some stOk, res0 := a, res1 := b, res2 := d })
    else s
  | none => s

/-- OP_DISPATCH. -/
def execOpDispatch (r : Ring) (s : State) : Host.Outcome State Fault Refusal := 
  run (fun s => (opDispatch r s).tellDispatch s) s
/-- OP_READY. -/
def execOpReady (c : Ctx) (s : State) : Host.Outcome State Fault Refusal := 
  run (fun s => (opReady c s).tellReady s c) s
/-- COMPLETION_WRITE. -/
def execCompletionWrite (c : Ctx) (s : State) : Host.Outcome State Fault Refusal := run (completionWrite c) s
/-- CLASP. -/
def execClasp (c : Ctx) (s : State) : Host.Outcome State Fault Refusal := run (gated (.clasp c) (clasp c)) s
/-- QUERY. -/
def execQuery (c : Ctx) (s : State) : Host.Outcome State Fault Refusal := run (query c) s

end Sys2Proof.Machine
end

