-- ==== Sys2Proof/Machine/Sessions.lean ====
section
/-! DEFINITION. Sys2Proof/Machine/Sessions.lean: SESSION_OPEN, SESSION_CLOSE, ROLLBACK and BUDGET_SET (R101, R141, R143, R144, R156,
R170, R271, R293). -/
namespace Sys2Proof.Machine
open Sys2Proof

/-- A ready op with the given opcode in a context. -/
def State.readyOp (s : State) (c : Ctx) (op : Nat) : Option OpCtx :=
  match s.ctx? c with
  | some x => if eOp x.entry == op && x.st == .ready then some x else none
  | none => none

/-- An op past its commit point with status OK and its results. -/
def State.endOk (s : State) (c : Ctx) (r0 : DWord) (r1 : Word) : State :=
  s.ctxUpd c (fun y => { y with st := .past, status := some stOk, res0 := r0, res1 := r1 })

/-- An op that admission refused (R174). -/
def State.endDenied (s : State) (c : Ctx) (hint : Nat) : State :=
  s.ctxUpd c (fun y => { y with st := .past, status := some stAdmitDenied, res2 := BitVec.ofNat 32 hint })

/-- The bound versions of a SESSION_OPEN by role: vocabulary, set, CP, hook. -/
def OpCtx.openBinds (x : OpCtx) : Option Bound × Option Bound × Option Bound × Option Bound :=
  let l := x.binds.drop 1
  let nOvl := if eWord x.entry 36 == 0#32 then 0 else 1
  let nCp := if eWord x.entry 28 == 0#32 then 0 else 1
  (x.binds.head?, if nOvl == 1 then l.head? else none, if nCp == 1 then l[nOvl]? else none,
   if pHOOK x.params then l[nOvl + nCp]? else none)

/-- Why SESSION_OPEN cannot take its ID (R143). -/
def State.idTaken (s : State) (p : Part) (sid : Word) : Option (BitVec 8) :=
  match s.strand? p sid, s.locket? p sid with
  | some _, _ => some stBadEntry
  | none, some l => some (if l.waiting then stKeyUnavail else stBadEntry)
  | none, none => none

/-- Make a new strand resident: home cluster and first side slot are free values (DESIGN CHOICE, log entry 2). -/
def State.enterStrand (s : State) (t : Strand) (pages : List Nat) : Strand × State :=
  let (home, s) := s.pickHome t.part
  let (side, s) := s.freeBelow 2
  let t := Strand.givePages { t with home := home, side := side == 1 } pages
  (t, { s with strands := s.strands ++ [t] })

/-- SESSION_OPEN (R143, R144). -/
def sessionOpen (c : Ctx) (s : State) : State :=
  match s.readyOp c opSESSION_OPEN with
  | none => s
  | some x =>
    let p := x.part
    let sid := eSession x.entry
    match s.idTaken p sid, x.openBinds with
    | some st, _ => s.endWith x st
    | none, (some vocab, ovl, cp, hook) =>
      let veff := match s.voc p vocab ovl with | some v => v.size | none => 0
      match s.admitSession p (eDom x.entry) (admitPages x.bias.length cp.isSome 0 0) (s.stepCost p cp hook veff) with
      | .denied hint s => s.endDenied c hint
      | .ok slot pages s =>
        let t : Strand := { part := p, session := sid, slot := slot, domain := eDom x.entry, home := 0
                            account := leAt x.entry 32 2 % 4096, vocab := vocab, cp := cp, ovl := ovl, hook := hook
                            paramsAddr := BitVec.ofNat 64 (leAt x.entry 40 8), params := x.params, bias := x.bias, stops := x.stops
                            cpState := s.cpInitial p cp }
        let (t, s) := s.enterStrand t pages
        (s.sealCommit t 0).endOk c 0#64 0#32
    | none, (none, _) => s

/-- SESSION_CLOSE (R101): a resident strand goes with its pages, a parked session with its lockets. -/
def sessionClose (c : Ctx) (s : State) : State :=
  match s.readyOp c opSESSION_CLOSE with
  | none => s
  | some x =>
    let p := x.part
    let sid := eSession x.entry
    match s.strand? p sid, s.locket? p sid with
    | some t, _ => ((s.releaseStrand t).collect).endOk c 0#64 0#32
    | none, some l => (s.dropLocket l).endOk c 0#64 0#32
    | none, none => s.endWith x stBadEntry

/-- The strand that ROLLBACK to `n` leaves, but for its point and epoch (R141, R156, R271, R293); STACK_LOW, which R146
defines for committed steps, reads 0 (DESIGN CHOICE, log entry 48). -/
def State.rolledBack (s : State) (t : Strand) (voc : Voc) (n : Nat) : Strand :=
  let toks := (t.hist.take n).drop t.promptLen
  let g := match s.cpEnv t with
    | some e => e.rebuild e.initial t.promptLen toks
    | none => t.config
  let inPages := t.hist.length - t.ovfCount
  let ovf := n - inPages
  let keep := (n + 1023) / 1024
  let need := if t.cp.isNone then 0 else if 512 < g.stk.length then 4 else 2
  { t with
    hist := t.hist.take n
    steps := t.steps - BitVec.ofNat 40 (t.hist.length - n)
    cpState := g.q, stack := g.stk.reverse, stackLow := 0
    stream := streamRebuild voc (streamCfg t.params t.stops) t.stream toks (s.sd[t.domain]).step.toNat (s.phase t.domain)
    histPages := t.histPages.take keep, sparePages := if t.stalled then t.sparePages else []
    ovfCount := ovf
    susp := t.susp && !(ovf < 64 && need ≤ t.stackPages.length) }

/-- ROLLBACK (R141): the run-ahead for the next step is recomputed before it completes, so it waits until that can run. Pages that a drain took
stay with the strand (R166). -/
def rollback (c : Ctx) (s : State) : State :=
  match s.readyOp c opROLLBACK with
  | none => s
  | some x =>
    let p := x.part
    let n := leAt x.entry 24 4
    match s.strand? p (eSession x.entry) with
    | none => s.endWith x stNotResident
    | some t =>
      if t.hist.length < n || n < t.promptLen then s.endWith x stBadEntry
      else
        match s.voc p t.vocab t.ovl with
        | none => s
        | some voc =>
          let u := s.freePageList p (t.histPages.drop ((n + 1023) / 1024) ++ if t.stalled then [] else t.sparePages)
          let u := (u.sealCommit (s.rolledBack t voc n) 0).rehomeSession p t.session none
          match u.strand? p t.session with
          | some w => if u.raMayRun w then (runAhead p t.session u).endOk c (BitVec.ofNat 64 n) 0#32 else s
          | none => s

/-- BUDGET_SET (R117, R170): RESULT1 is the balance in whole tokens, rounded down. -/
def opBudgetSet (c : Ctx) (s : State) : State :=
  match s.readyOp c opBUDGET_SET with
  | none => s
  | some x =>
    let e := x.entry
    let a := (s.acct x.part (leAt e 24 2 % 4096)).budgetSet (leAt e 28 4) (leAt e 32 4) (leAt e 36 2) (leAt e 38 2)
      ((leAt e 40 1).testBit 0) (leAt e 41 1)
    (s.setAcct x.part a).endOk c 0#64 (BitVec.ofInt 32 (a.balance / 256))

/-- SESSION_OPEN. -/
def execSessionOpen (c : Ctx) (s : State) : Host.Outcome State Fault Refusal := run (gated (.sessionOpen c) (sessionOpen c)) s
/-- SESSION_CLOSE. -/
def execSessionClose (c : Ctx) (s : State) : Host.Outcome State Fault Refusal := run (gated (.sessionClose c) (sessionClose c)) s
/-- ROLLBACK. -/
def execRollback (c : Ctx) (s : State) : Host.Outcome State Fault Refusal := run (gated (.rollback c) (rollback c)) s
/-- BUDGET_SET. -/
def execBudgetSet (c : Ctx) (s : State) : Host.Outcome State Fault Refusal := run (gated (.budgetSet c) (opBudgetSet c)) s

end Sys2Proof.Machine
end

