-- ==== Sys2Proof/Machine/Transfer.lean ====
section
/-! DEFINITION. Sys2Proof/Machine/Transfer.lean: PARK, REVIVE, LOCKET_EXPORT and LOCKET_IMPORT, moves to the cold park, and the
re-key scrub (R451 to R462, R471, R536). -/
namespace Sys2Proof.Machine
open Sys2Proof

/-! ### PARK (R455, R456) -/

/-- An op past its commit point whose final status is still to come. -/
def State.pastCommit (s : State) (c : Ctx) (r0 : DWord) (r1 : Word) : State :=
  s.ctxUpd c (fun y => { y with st := .past, res0 := r0, res1 := r1 })

/-- PARK's move to the cold park: the op waits for step 2 of R452; a move that cannot proceed leaves the locket warm with OK. -/
def State.parkCold (s : State) (c : Ctx) (p : Part) (sid : Word) : State :=
  match s.locket? p sid with
  | none => s
  | some l =>
    let r1 := BitVec.ofNat 32 l.image.length
    let s := if s.canMove l then s.startMove l else s
    match s.locket? p sid with
    | some l => if l.moving then s.pastCommit c l.id r1 else s.endOk c l.id r1
    | none => s

/-- PARK addressed to a session that is not resident (R455, R456). -/
def State.parkParked (s : State) (x : OpCtx) (pin cold : Bool) : State :=
  let p := x.part
  match s.locket? p (eSession x.entry) with
  | none => s.endWith x stNotResident
  | some l =>
    if l.waiting || !cold then s.endWith x stNotResident
    else if x.terms.warmOnly || pin then s.endWith x stBadEntry
    else if l.lost then s.endWith x stSessionLost
    else if !l.isWarm then s.endOk x.id l.id (BitVec.ofNat 32 l.image.length)
    else if x.terms.roForce || (s.parts[p]).worn then s.endWith x stMediaWorn
    else s.parkCold x.id p l.session

/-- PARK. While the warm share lacks room and lockets can move, it stays ready. -/
def park (c : Ctx) (s : State) : State :=
  match s.readyOp c opPARK with
  | none => s
  | some x =>
    let pin := (leAt x.entry 24 1).testBit 0
    let cold := (leAt x.entry 24 1).testBit 1
    match s.strand? x.part (eSession x.entry) with
    | none => s.parkParked x pin cold
    | some t =>
      match s.storePark t pin cold x.terms with
      | .fail st => if st == stAdmitDenied then s.endDenied c (s.rf (rPrtAdmitCfg x.part) 16 8) else s.endWith x st
      | .wait => s
      | .done id len s => if cold then s.parkCold c x.part t.session else s.endOk c id (BitVec.ofNat 32 len)

/-! ### Moves to the cold park (R452) -/

/-- Bytes that a partition's moves under way will free. -/
def State.movingBytes (s : State) (p : Part) : Nat :=
  ((s.lockets.filter (fun l => l.part == p && l.moving)).map (fun l => l.warm.length * l.image.length)).sum

/-- Warm lockets of a partition that can move, in order of park commit. -/
def State.movable (s : State) (p : Part) : List Locket :=
  sortBy (fun a b => a.seq ≤ b.seq) (s.lockets.filter (fun l => l.part == p && s.canMove l))

/-- Start moves in order until `stop` holds. -/
def moveWalk (stop : State → Bool) : List Locket → State → State
  | [], s => s
  | l :: r, s => if stop s then s else moveWalk stop r (if s.canMove l then s.startMove l else s)

/-- HI_PCT and LO_PCT of PRT_PARK_CFG (R466). -/
def State.moveHi (s : State) (p : Part) : Nat := min 100 (s.rf (rPrtParkCfg p) 8 8)
def State.moveLo (s : State) (p : Part) : Nat := min (s.rf (rPrtParkCfg p) 0 8) (s.moveHi p - 1)

/-- A PARK of the partition waits for room in the warm share (R455). -/
def State.parkWaits (s : State) (p : Part) : Bool :=
  s.ctxs.any (fun x => x.part == p && eOp x.entry == opPARK && x.st == .ready &&
    (match s.strand? p (eSession x.entry) with
     | some t => !s.warmRoom p ((if (leAt x.entry 24 1).testBit 0 then 2 else 1) * (64 + (s.locketBody t).length))
     | none => false))

/-- WARM_MOVE_PRESSURE (R452): oldest first until what stays is at most LO_PCT percent of QUOTA. -/
def warmMovePressure (p : Part) (s : State) : State :=
  let q := s.rf (rPrtParkWarm p) 0 21
  let o := s.cycleStart
  if s.warmUsed p * 100 < q * o.moveHi p && !s.parkWaits p then s
  else
    moveWalk (fun s => (s.warmBytes p - s.movingBytes p + 65535) / 65536 * 100 ≤ q * o.moveLo p) (s.movable p) s

/-- WARM_MOVE_AGE (R452): each locket that has been warm for AGE_S seconds. -/
def warmMoveAge (p : Part) (s : State) : State :=
  let age := s.cycleStart.rf (rPrtParkCfg p) 16 12
  if age == 0 then s
  else moveWalk (fun _ => false) ((s.movable p).filter (fun l => l.parkedAt + age * aonSec ≤ s.time)) s

/-! ### Reading a locket (R458, R459) -/

/-- A locket's read: not decided yet, no copy readable in a tier, or readable. -/
inductive LocketRead where
  | waits (s : State)
  | lost (tier : Nat)
  | good (s : State)

/-- The warm copies of a locket that an op can read (R459): those that no read of the op has found unreadable. -/
def State.goodWarm (s : State) (x : OpCtx) (l : Locket) : List Nat :=
  l.warm.filter (fun a => s.warmReadable l a && !x.badWarm.contains a)
/-- Rewrite the unreadable warm copies of a pinned locket from a good one (R453). -/
def State.repairWarm (s : State) (x : OpCtx) (l : Locket) : State :=
  (l.warm.filter (fun a => !(s.goodWarm x l).contains a)).foldl (fun s a => (s.wrBytes a l.image).bump (rPrtParkRepair l.part)) s

/-- Read a copy for an op: a warm one when one exists, else a cold one, whose flash read is issued first. -/
def State.readLocket (s : State) (x : OpCtx) (l : Locket) : LocketRead :=
  let cold := s.coldNext l x.badCold
  let issue := fun (k : ColdCopy) =>
    LocketRead.waits ((s.issueRead l k).ctxUpd x.id (fun y => { y with reading := true, readOk := none }))
  if !(s.goodWarm x l).isEmpty then .good (s.repairWarm x l)
  else
    match x.readOk with
    | some (some _) => .good s
    | some none => .lost (if l.isWarm then 0 else 1)
    | none =>
      if x.reading then .waits s
      else
        match cold with
        | some k => issue k
        | none => .lost (if l.isWarm then 0 else 1)

/-! ### REVIVE (R457, R458) -/

/-- The versions that a body's binding record names, by role: vocabulary, set, CP, hook. -/
def LocketBody.bound (b : LocketBody) (i : Nat) : Option Bound :=
  match b.binds[i]? with
  | some (id, ver, _) => if id == 0#32 then none else some ⟨id, ver⟩
  | none => none

/-- A strand rebuilt from a body with given versions; pages, home and slot come with its binding. PARAMS_ADDR is not in the body: a
free value (DESIGN CHOICE, log entry 2). -/
def rebuiltStrand (p : Part) (sid : Word) (slot : Nat) (b : LocketBody) (vocab : Bound) (ovl cp hook : Option Bound) (addr : DWord) :
    Strand :=
  { part := p, session := sid, slot := slot, domain := ⟨b.domain % 4, Nat.mod_lt _ (by decide)⟩, home := 0, account := b.account
    vocab := vocab, cp := cp, ovl := ovl, hook := hook, paramsAddr := addr, params := b.params, bias := b.bias, stops := b.stops
    hist := b.hist, promptLen := b.promptLen, steps := BitVec.ofNat 40 b.steps, cpState := b.cpState, stack := b.stack
    stream := Stream.ofHold b.hold, lastStep := BitVec.ofNat 64 b.lastStep, charged := b.charged }

/-- Bind a rebuilt strand (R458, R462): pages, a new mask epoch, the commit, run-ahead to come. -/
def State.bindStrand (s : State) (t : Strand) (pages : List Nat) : State :=
  let (t, s) := s.enterStrand t pages
  let (e, s) := s.nextEpoch t.part
  s.commitStrand { t with epoch := e, raDue := true }

/-- The conditions of R457 before admission. -/
def State.reviveFault (s : State) (x : OpCtx) : Except (BitVec 8) (Locket × LocketBody × Bound) :=
  let p := x.part
  match s.strand? p (eSession x.entry), s.locket? p (eSession x.entry) with
  | some _, _ => .error stBadEntry
  | none, none => .error stBadEntry
  | none, some l =>
    if l.waiting then .error stKeyUnavail
    else if l.lost then .error stSessionLost
    else if (leAt x.entry 24 8 != 0 && leAt x.entry 24 8 != l.id.toNat) || (leAt x.entry 32 8 != 0 && leAt x.entry 32 8 != l.gen.toNat) then
      .error stBadEntry
    else if !s.epochHeld p l.epoch then .error stKeyUnavail
    else
      match parseBody l.body with
      | none => .error stSessionLost
      | some b =>
        let held := (List.range 4).all (fun i => match b.bound i with | some v => (s.version? p v).isSome | none => true)
        match b.bound 0 with
        | some v => if held then .ok (l, b, v) else .error stPermDenied
        | none => .error stPermDenied

/-- Return what admission reserved for an op (R174). -/
def State.unadmit (s : State) (x : OpCtx) : State :=
  (s.freePageList x.part x.pages).ctxUpd x.id (fun y => { y with pages := [], slot := none })

/-- The read and the commit of a REVIVE that holds its slot and pages. -/
def State.reviveRead (s : State) (x : OpCtx) (l : Locket) (b : LocketBody) (v : Bound) (slot : Nat) : State :=
  match s.readLocket x l with
  | .waits s => s
  | .lost tier => ((s.unadmit x).markLost l tier).endWith x stSessionLost
  | .good s =>
    let (addr, s) := s.freeBelow (2 ^ 64)
    let t := { rebuiltStrand l.part l.session slot b v (b.bound 1) (b.bound 2) (b.bound 3) (BitVec.ofNat 64 addr) with
      gen := l.gen, lastLocket := l.id }
    let s := s.ctxUpd x.id (fun y => { y with pages := [], slot := none })
    ((s.bindStrand t x.pages).dropLocket l).endOk x.id l.gen (BitVec.ofNat 32 t.hist.length)

/-- REVIVE: its conditions and admission once, then the read, which for a cold copy takes until the flash answers. -/
def revive (c : Ctx) (s : State) : State :=
  match s.readyOp c opREVIVE with
  | none => s
  | some x =>
    if x.aborting then (if x.reading then s else (s.unadmit x).endWith x stAborted)
    else
    match s.reviveFault x with
    | .error st => (s.unadmit x).endWith x st
    | .ok (l, b, v) =>
      match x.slot with
      | some slot => s.reviveRead x l b v slot
      | none =>
        let veff := match s.voc x.part v (b.bound 1) with | some v => v.size | none => 0
        match s.admitSession x.part l.domain l.pages (s.stepCost x.part (b.bound 2) (b.bound 3) veff) with
        | .denied hint s => s.endDenied c hint
        | .ok slot pages s =>
          let s := s.ctxUpd c (fun y => { y with slot := some slot, pages := pages })
          s.reviveRead { x with slot := some slot, pages := pages } l b v slot

/-! ### LOCKET_EXPORT (R461) -/

/-- Write an export image, or fail for want of room; `close` makes the session Absent. -/
def State.exportTo (s : State) (x : OpCtx) (key : BitVec 256) (body : List Byte) (pages : Nat) (close : State → State) : State :=
  let p := x.part
  let (g, s) := s.nextGen p
  let id := locketId p g
  let len := 64 + body.length
  let img := exportImage key (locketHeader true false len id g (eSession x.entry) p 0#32 pages) body
  if leAt x.entry 32 4 < len then (s.spoil (leAt x.entry 24 8) (leAt x.entry 32 4)).endWith x stAborted
  else
    let s := s.wrBytes (leAt x.entry 24 8) img
    (if (leAt x.entry 36 1).testBit 0 then s else close s).endOk x.id id (BitVec.ofNat 32 len)

/-- LOCKET_EXPORT. -/
def locketExport (c : Ctx) (s : State) : State :=
  match s.readyOp c opEXPORT with
  | none => s
  | some x =>
    if x.aborting then (if x.reading then s else (s.spoil (leAt x.entry 24 8) (leAt x.entry 32 4)).endWith x stAborted)
    else
    match s.strand? x.part (eSession x.entry), s.locket? x.part (eSession x.entry), x.akey with
    | some t, _, some key => s.exportTo x key (s.locketBody t) t.admitPages (fun s => (s.releaseStrand t).collect)
    | none, some l, some key =>
      if l.waiting then s.endWith x stKeyUnavail
      else if l.lost then s.endWith x stSessionLost
      else
        match s.readLocket x l with
        | .waits s => s
        | .lost tier => (s.markLost l tier).endWith x stSessionLost
        | .good s => s.exportTo x key l.body l.pages (fun s => s.dropLocket l)
    | none, none, _ => s.endWith x stBadEntry
    | _, _, none => s

/-! ### LOCKET_IMPORT (R462) -/

/-- The newest held versions that a body's binding record names by digest, after the states of R185. -/
def State.importBinds (s : State) (p : Part) (b : LocketBody) : Except (BitVec 8) (List (Option Bound)) :=
  let roles := [(0, 1), (1, 3), (2, 4), (3, 5)]
  let ids := roles.filterMap (fun r =>
    match b.binds[r.1]? with | some (id, _, _) => if id == 0#32 && r.1 != 0 then none else some (id, r.2) | none => none)
  match s.namesFault p ids with
  | some st => .error st
  | none =>
    let got := roles.map (fun r =>
      match b.binds[r.1]? with
      | some (id, _, dig) => if id == 0#32 then (true, none) else
          match s.newestHeld p id r.2 (BitVec.ofNat 128 dig) with
          | some v => (true, some v.bound)
          | none => (false, none)
      | none => (true, none))
    if got.all (·.1) then .ok (got.map (·.2)) else .error stBadEntry

/-- LOCKET_IMPORT. -/
def locketImport (c : Ctx) (s : State) : State :=
  match s.readyOp c opIMPORT with
  | none => s
  | some x =>
    let p := x.part
    let sid := eSession x.entry
    let hdr := s.rdBytes (leAt x.entry 24 8) (min 64 (leAt x.entry 32 4))
    let len := leAt hdr 4 4
    match s.idTaken p sid, x.akey with
    | some st, _ => s.endWith x st
    | none, none => s
    | none, some key =>
      if leAt hdr 0 1 != 1 || !(leAt hdr 1 1).testBit 1 || leAt x.entry 32 4 < len || len < 512 || len % 64 != 0 then
        s.endWith x stBadEntry
      else
        match (openImage key (s.rdBytes (leAt x.entry 24 8) len)).bind parseBody with
        | none => s.endWith x stBadEntry
        | some b =>
          match s.importBinds p b with
          | .error st => s.endWith x st
          | .ok l =>
            match (l.getD 0 none) with
            | none => s.endWith x stBadEntry
            | some v =>
              let ovl := l.getD 1 none
              let cp := l.getD 2 none
              let hook := l.getD 3 none
              let d := eDom x.entry
              let veff := match s.voc p v ovl with | some v => v.size | none => 0
              match s.admitSession p d (leAt hdr 36 4) (s.stepCost p cp hook veff) with
              | .denied hint s => s.endDenied c hint
              | .ok slot pages s =>
                let (addr, s) := s.freeBelow (2 ^ 64)
                let t := rebuiltStrand p sid slot b v ovl cp hook (BitVec.ofNat 64 addr)
                let t := { t with
                  domain := d, gen := BitVec.ofNat 64 (leAt hdr 16 8), lastStep := s.point d
                  stream := if t.stream.fresh then t.stream else
                    { t.stream with oldStep := (s.sd[d]).step, oldPhase := s.phase d } }
                (s.bindStrand t pages).endOk c t.gen (BitVec.ofNat 32 t.hist.length)

/-! ### The re-key scrub (R536) -/

/-- Lockets stored under an epoch, Lost ones included (R543). -/
def State.epochCount (s : State) (p : Part) (e : Word) : Nat := (s.lockets.filter (fun l => l.part == p && l.epoch == e)).length

/-- Has the CLEAR record of an epoch been appended and is not durable yet? -/
def State.clearPending (s : State) (p : Part) (e : Word) : Bool :=
  (s.onlineOf p).any (fun c => ((s.chans[c]).jbuf).any (fun r => r.typ == 6 && r.part == p && r.id == BitVec.ofNat 64 (2 ^ 63 + e.toNat)))

/-- May the scrub rewrite a locket now? -/
def State.canRekey (s : State) (l : Locket) (e : Word) : Bool :=
  l.epoch == e && !l.lost && !l.waiting && !l.moving && l.rekey.isNone && !s.excluded l.part l.session none &&
  (l.isWarm || (!s.mediaRO l.part && l.cold.all (·.durable)))

/-- The re-key scrub reads the stored copies of a cold locket, lowest-numbered first, until one is readable: an unreadable one before it is repaired
from it (R453, R459). -/
def State.rekeyRead (l : Locket) : List ColdCopy → List ColdCopy → State → Bool × State
  | [], _, s => (false, s)
  | k :: ks, bad, s =>
    let (ok, s) := if s.copyReach k then s.bgRead k else (false, s)
    if ok && (s.coldImage l k).isSome then (true, bad.foldl (fun s b => s.repairTwin l b) s)
    else State.rekeyRead l ks (bad ++ [k]) s

/-- Rewrite one locket under the current epoch, from a stored copy that is readable; a locket none of whose copies is readable is marked Lost
(R459, R536; DEDUCED, log entry 38). None when there is no room for the new copies. -/
def State.rekeyOne (s : State) (l : Locket) (cur : KeySlot) : Option State :=
  let img := sealBody cur l.pinned l.id l.gen l.session l.part l.pages l.body
  let s := s.partUpd l.part (fun x => { x with rekeyAt := s.time })
  let parsed := (parseBody l.body).isSome
  if l.isWarm then
    if !parsed || !l.warm.any (s.warmReadable l) then some (s.markLost l 0)
    else
    match s.warmPlaces img.length l.warm.length [] with
    | some (addrs, s) =>
      let s := addrs.foldl (fun s a => s.wrBytes a img) s
      some (s.locketUpd l.part l.session (fun x => { x with image := img, epoch := cur.epoch, warm := addrs }))
    | none => none
  else
    let (ok, s) := State.rekeyRead l (sortCopies l.cold) [] s
    if !parsed || !ok then some (s.markLost l 1)
    else
    match l.cold.foldl (fun (acc : Option (List ColdCopy × State)) k =>
      match acc with
      | some (ks, s) => (s.placeFor l k true img).map (fun r => (ks ++ [{ r.1 with moved := true }], r.2))
      | none => none) (some ([], s)) with
    | some (ks, s) => some (s.locketUpd l.part l.session (fun x => { x with rekey := some (img, cur.epoch), cold := x.cold ++ ks }))
    | none => none

/-- The re-key scrub may rewrite a locket now: at most RATE a second (R536, R543). -/
def State.rekeyDue (s : State) (p : Part) : Bool :=
  let n := s.rf (rSecPrtRekey p) 0 16
  n != 0 && (s.parts[p]).rekeyAt + (aonSec + n - 1) / n ≤ s.time

/-- REKEY_REWRITE (R536): one locket of the old epoch is rewritten when RATE lets it; when none is left, the CLEAR record is written,
whatever RATE holds. -/
def rekeyRewrite (p : Part) (s : State) : State :=
  match (s.parts[p]).oldSlot, (s.parts[p]).curSlot with
  | some old, some cur =>
    let s := if s.rekeyDue p then
        ((s.lockets.filter (fun l => l.part == p && s.canRekey l old.epoch)).findSome? (fun l => s.rekeyOne l cur)).getD s
      else s
    if s.epochCount p old.epoch == 0 && !s.clearPending p old.epoch then
      s.jAppendAll p { typ := 6, id := BitVec.ofNat 64 (2 ^ 63 + old.epoch.toNat) }
    else s
  | _, _ => s

/-- PARK. -/
def execPark (c : Ctx) (s : State) : Host.Outcome State Fault Refusal := run (gated (.park c) (park c)) s
/-- REVIVE. -/
def execRevive (c : Ctx) (s : State) : Host.Outcome State Fault Refusal := run (gated (.revive c) (revive c)) s
/-- LOCKET_EXPORT. -/
def execLocketExport (c : Ctx) (s : State) : Host.Outcome State Fault Refusal := run (gated (.locketExport c) (locketExport c)) s
/-- LOCKET_IMPORT. -/
def execLocketImport (c : Ctx) (s : State) : Host.Outcome State Fault Refusal := run (gated (.locketImport c) (locketImport c)) s
/-- WARM_MOVE_PRESSURE. -/
def execWarmMovePressure (p : Part) (s : State) : Host.Outcome State Fault Refusal := run (warmMovePressure p) s
/-- WARM_MOVE_AGE. -/
def execWarmMoveAge (p : Part) (s : State) : Host.Outcome State Fault Refusal := run (warmMoveAge p) s
/-- REKEY_REWRITE. -/
def execRekeyRewrite (p : Part) (s : State) : Host.Outcome State Fault Refusal := run (rekeyRewrite p) s

end Sys2Proof.Machine
end

