-- ==== Sys2Proof/Machine/MediaOps.lean ====
section
/-! DEFINITION. Sys2Proof/Machine/MediaOps.lean: channel bring-up, offline and format, die time-outs, scrub, collection, levelling,
compaction and the rebuild of the cold index (R472 to R512). -/
namespace Sys2Proof.Machine
open Sys2Proof

/-! ### Copies that cannot be read (R495, R498, R453) -/

/-- An op has already read a good copy of the locket (R471, R512). -/
def State.goodRead (s : State) (l : Locket) : Bool :=
  s.ctxs.any (fun x => x.part == l.part && eSession x.entry == l.session &&
    (match x.readOk with | some (some _) => true | _ => false))

/-- A durable copy is unreadable: its twin repairs it, else the locket is Lost. A paired member's partner may hold it intact: then the
fault window decides (R499). A copy under way is rewritten elsewhere (R492). -/
def State.loseCopy (s : State) (l : Locket) (k : ColdCopy) : State :=
  if !k.durable then s.rewriteCopy l k
  else if l.cold.any (fun y => y.copy != k.copy && y.durable && s.copyReach y) then s.repairTwin l k
  else if l.isWarm || s.paired || s.goodRead l then s
  else s.markLost l 1

/-- Every copy on a die, one after the other. -/
def State.loseDie (s : State) (c : Chan) (d : Fin 8) : State :=
  s.lockets.foldl (fun s l => (l.cold.filter (fun k => k.chan == c && k.die == d)).foldl (fun s k =>
    match s.locket? l.part l.session with
    | some l => s.loseCopy l k
    | none => s) s) s

/-- The work of a die that cannot be reached ends: its operations and stripes go, the copies there are unreadable, and reads that run there end
so. -/
def State.endDie (s : State) (c : Chan) (d : Fin 8) : State :=
  let jobs := ((s.chans[c]).dies[d]).jobs
  let s := s.dieUpd c d (fun x => { x with jobs := [], susp := 0 })
  let s := s.chanUpd c (fun x => { x with stripes := x.stripes.filter (fun t => t.die != d) })
  let s := s.loseDie c d
  jobs.foldl (fun s j =>
    match j with
    | .read p sid k .. => (match s.locket? p sid with | some l => s.readFailed l k.copy | none => s)
    | _ => s) s

/-- A die is no longer used; a channel with no usable die is offline (R495). -/
def State.dieGone (s : State) (c : Chan) (d : Fin 8) : State :=
  let s := s.dieUpd c d (fun x => { x with usable := false })
  (s.chanUpd c (fun x => { x with online := x.online && !x.usable.isEmpty })).endDie c d

/-- The channel goes offline (R495): nothing on it can be reached, and its dies are none the worse. -/
def State.goOffline (s : State) (c : Chan) : State :=
  (List.finRange 8).foldl (fun s d => s.endDie c d) (s.chanUpd c (fun x => { x with online := false }))
/-- A channel whose journal reserve has fewer than 4 good blocks goes offline (R495). -/
def State.checkJournal (s : State) (c : Chan) : State :=
  if (s.chans[c]).online && !(s.chans[c]).journalOk then s.goOffline c else s

/-- Twice the maximum time of an operation, in AON cycles (R476). -/
def State.busyLimit (s : State) (j : FlashJob) : Nat :=
  200 * (match j with | .program .. => s.profile.tprogMax | .erase .. => s.profile.tbersMax | .read .. => s.profile.trMax)

/-- DIE_TIMEOUT (R474, R476, R495): a die busy for more than twice its maximum has timed out. Twice within 10 s it is unusable; once, it is reset,
set up again, and its operation issued again. -/
def dieTimeout (c : Chan) (d : Fin 8) (s : State) : State :=
  let x := (s.chans[c]).dies[d]
  match x.jobs with
  | [] => s
  | j :: _ =>
    if !x.usable || s.mtime ≤ x.busyAt + s.busyLimit j then s
    else
      let again : Bool := match x.timeoutAt with | some t => s.mtime ≤ t + 10 * aonSec | none => false
      if again then s.dieGone c d
      else s.dieUpd c d (fun y => { y with timeoutAt := some s.mtime, cmds := [0xFF, 0xEF] ++ j.codes, busyAt := s.mtime, susp := 0 })

/-! ### Bring-up, offline, format (R473, R475, R481, R495, R501, R509) -/

/-- The geometry of a die lies within R473, and its ID and parameter page were read well. -/
def dieFits (x : DieInfo) : Bool :=
  x.onfi && x.crcOk && x.main == 16384 && 2048 ≤ x.spare && (x.planes == 1 || x.planes == 2 || x.planes == 4) &&
  256 ≤ x.ppb && x.ppb ≤ 4096 && 1 ≤ x.bpp && x.bpp ≤ 65536 && 1 ≤ x.levels && x.levels ≤ 15

/-- The die on a chip enable answers as the journal knows it. -/
def FlashDie.answers (d : FlashDie) : Bool :=
  match d.info with
  | some i => dieFits i && (match d.uid with | some u => u == i.uid | none => true)
  | none => false

/-- Bring-up of a die (R474, R475) with what answers on its chip enable: RESET and READ ID, READ PARAMETER PAGE and READ UNIQUE ID of a die that
answers, and for one that is used ZQ CALIBRATION LONG, the profile's timing mode, and ODT. -/
def FlashDie.bringUp (d : FlashDie) (timing : Nat) (info : Option DieInfo) : FlashDie :=
  let y := { d with info := info, timeoutAt := none }
  if y.answers then { y with usable := true, cmds := [0xFF, 0x90, 0xEC, 0xED, 0xF9, 0xEF, 0xEF], mode := some timing, odt := true }
  else { y with usable := false, cmds := if info.isSome then [0xFF, 0x90, 0xEC, 0xED] else [0xFF, 0x90], mode := none, odt := false }

/-- Channel bring-up (R475) with what the dies answer. -/
def State.bringUp (s : State) (c : Chan) (dies : List (Option DieInfo)) : State :=
  let s := s.chanUpd c (fun x => { x with
    dies := Vector.ofFn (fun (d : Fin 8) => (x.dies[d]).bringUp s.profile.timing (dies.getD d none))
    zqAt := s.mtime, wantOn := true })
  let s := s.chanUpd c (fun x => { x with online := x.journalOk && !x.usable.isEmpty })
  (List.finRange 8).foldl (fun s d => if ((s.chans[c]).dies[d]).usable && (s.chans[c]).online then s else s.endDie c d) s

/-- Software takes the channel offline. -/
def State.takeOffline (s : State) (c : Chan) : State := (s.chanUpd c (fun x => { x with wantOn := false })).goOffline c

/-- CHANNEL_OFFLINE (R495, R509). -/
def channelOffline (c : Chan) (v : Word) (s : State) : State :=
  if bit v 1 then s else (s.setRb (rPrkChCtrl c) 1 false).takeOffline c

/-- A block that has been erased (R490, R492): one erase more, and retired at its rated count. -/
def FlashBlock.erased (b : FlashBlock) (rated : Nat) : FlashBlock :=
  let x := { b with pe := b.pe + 1, badScrubs := 0, used := 0 }
  if rated != 0 && rated ≤ x.pe then { x with st := .retired, cause := 5 } else x

/-- A block after a format: factory-marked and retired ones stay retired. -/
def blockFor (i : DieInfo) (rated : Nat) (old : List FlashBlock) (num plane : Nat) : FlashBlock :=
  match old.find? (fun b => b.num == num && b.plane == plane) with
  | some b =>
    if b.st == .retired then b
    else if i.marked.contains (num, plane) then { b with st := .retired, cause := 1 }
    else ({ b with st := .free } : FlashBlock).erased rated
  | none =>
    if i.marked.contains (num, plane) then { num := num, plane := plane, st := .retired, cause := 1 } else { num := num, plane := plane, st := .free }

/-- All blocks of a usable die after a format; the blocks of another die take no part in it. -/
def FlashDie.fresh (d : FlashDie) (rated : Nat) : List FlashBlock :=
  match d.usable, d.info with
  | true, some i => (List.range i.bpp).flatMap (fun n => (List.range i.planes).map (fun pl => blockFor i rated d.blocks n pl))
  | _, _ => d.blocks.map (fun b => if b.st == .retired then b else { b with st := .out })

/-- Share out good blocks in order: `j` journal blocks, then `k` spares, the rest data; what is left of the counts goes to the next die. -/
def shareBlocks : Nat → Nat → List FlashBlock → List FlashBlock × Nat × Nat
  | j, k, [] => ([], j, k)
  | j, k, b :: l =>
    if b.st != .free then
      let (r, j, k) := shareBlocks j k l
      (b :: r, j, k)
    else
      match j, k with
      | j + 1, k =>
        let (r, j, k) := shareBlocks j k l
        ({ b with st := .journal } :: r, j, k)
      | 0, k + 1 =>
        let (r, j, k) := shareBlocks 0 k l
        ({ b with st := .spare } :: r, j, k)
      | 0, 0 => (b :: l, 0, 0)

/-- Share out over the dies of a channel. -/
def shareDies : Nat → Nat → List FlashDie → List FlashDie
  | _, _, [] => []
  | j, k, d :: l =>
    let (b, j, k) := shareBlocks j k d.blocks
    { d with blocks := b } :: shareDies j k l

/-- LOC of a TRACK record: the four offsets as signed bytes. -/
def FlashDie.trackLoc (d : FlashDie) : DWord :=
  BitVec.ofNat 64 (leNat (d.bins.toList.map (fun b => BitVec.ofInt 8 b.off)))

/-- Number of a block on its channel, as WEAR records count them: by die, plane and block (DESIGN CHOICE, log entry 37). -/
def wearNum (d : Fin 8) (plane num : Nat) : Nat := (d.val * 4 + plane) * 65536 + num
/-- WEAR records that carry the erase counts of eight blocks from `first` on: as many as their 8-bit increments take. -/
def wearRecords (first : Nat) (pes : List Nat) : List JRecord :=
  (List.range ((pes.foldl max 0 + 254) / 255)).map (fun i =>
    { typ := 8, id := BitVec.ofNat 64 first, loc := BitVec.ofNat 64 (leNat (pes.map (fun n => BitVec.ofNat 8 (min 255 (n - 255 * i))))) })
/-- WEAR records of one plane of a die. -/
def FlashDie.wear (x : FlashDie) (d : Fin 8) (plane : Nat) : List JRecord :=
  let pe := fun (n : Nat) => ((x.blocks.find? (fun b => b.num == n && b.plane == plane)).map (·.pe)).getD 0
  let top := ((x.blocks.filter (fun b => b.plane == plane)).map (·.num + 1)).foldl max 0
  (List.range ((top + 7) / 8)).flatMap (fun g => wearRecords (wearNum d plane (8 * g)) ((List.range 8).map (fun i => pe (8 * g + i))))

/-- Records of a fresh journal (R481, R486, R501): retirements with their cause, erase counts, tracker offsets and WORN, numbered on from the
channel's sequence number. The identities of its dies stand beside them in the model. -/
def freshJournal (x : FlashChan) : List JRecord :=
  let l := (List.finRange 8).flatMap (fun d =>
    let y := x.dies[d]
    ((y.blocks.filter (fun b => b.st == .retired)).map (fun b =>
      ({ typ := 7, id := BitVec.ofNat 64 b.cause, loc := BitVec.ofNat 64 (d.val * 2 ^ 48 + b.num * 2 ^ 32 + b.plane * 2 ^ 18) } : JRecord))) ++
    (List.range 4).flatMap (y.wear d) ++
    (if y.usable then [({ typ := 0xA, id := BitVec.ofNat 64 d.val, loc := y.trackLoc } : JRecord)] else []))
  let l := l ++ (if x.worn then [({ typ := 9, id := 1#64 } : JRecord)] else [])
  l.zipIdx.map (fun r => { r.1 with seq := x.jseq + 1 + r.2 })

/-- A channel begins a fresh journal. -/
def State.startJournal (s : State) (c : Chan) : State :=
  let l := freshJournal (s.chans[c])
  let s := s.chanUpd c (fun x => { x with
    jbuf := [], jseq := x.jseq + l.length, dies := x.dies.map (fun (d : FlashDie) => { d with savedOff := d.bins.toList.map (·.off) }) })
  (s.jRewrite c l).checkJournal c

/-- No channel holds the partition's WORN any more: it clears, and STATE records say so (R493; DEDUCED, log entry 37). -/
def State.clearWorn (s : State) (p : Part) : State :=
  if (List.finRange 16).any (fun d => (s.chans[d]).wornOf.contains p) then s
  else (s.partUpd p (fun y => { y with worn := false })).jAppendAll p { typ := 9, id := BitVec.ofNat 64 (p.val * 16) }

/-- Format a channel (R481, R509): journal reserve, spare pool and data blocks anew on the dies in use; WORN clears. -/
def State.format (s : State) (c : Chan) : State :=
  let x := s.chans[c]
  let ds := x.dies.toList.map (fun d => { d with blocks := d.fresh s.profile.ratedPe, pages := [], jobs := []
                                                 uid := if d.usable then d.info.map (·.uid) else d.uid, collecting := false })
  let good := (ds.map (fun d => d.count (fun b => b.st == .free))).sum
  let ds := shareDies ((good + 99) / 100) ((s.profile.sparePct * good + 99) / 100) ds
  let s := s.chanUpd c (fun y => { y with
    dies := Vector.ofFn (fun (d : Fin 8) => ds.getD d {}), formatted := true, good := good, worn := false, wornOf := [], owner := none
    stripes := [], erasing := false })
  x.wornOf.foldl State.clearWorn (s.startJournal c)

/-- CHANNEL_FORMAT (R509): ignored without the key, and while the channel is owned or offline. -/
def channelFormat (c : Chan) (v : Word) (s : State) : State :=
  if fld v 24 8 == 0xA5 && bit v 0 && (s.chanOwner c).isNone && (s.chans[c]).online then s.format c else s

/-- A block after the erase of its channel: one that reaches its rated count keeps its place until it is retired. -/
def FlashBlock.wiped (b : FlashBlock) : FlashBlock :=
  if b.st == .retired || b.st == .out then b
  else { b with pe := b.pe + 1, badScrubs := 0, used := 0, st := if b.st == .data then .free else b.st }

/-- Erase a channel for a new owner (R501): its fresh journal keeps identities, erase counts, retirements, tracker offsets and WORN. Blocks at their
rated count are retired (R492); those of a die that is not used cannot be erased and hold nothing until the next format. -/
def State.eraseChan (s : State) (c : Chan) : State :=
  let s := s.chanUpd c (fun x => { x with
    dies := x.dies.map (fun (d : FlashDie) => { d with
      pages := [], jobs := []
      blocks := if d.usable then d.blocks.map FlashBlock.wiped else d.blocks.map (fun b => if b.st == .retired then b else { b with st := .out }) })
    owner := none, stripes := [], erasing := false })
  let full := (List.finRange 8).flatMap (fun d => (((s.chans[c]).dies[d]).blocks.filter (fun b =>
    b.st != .retired && b.st != .out && s.profile.ratedPe != 0 && s.profile.ratedPe ≤ b.pe)).map (fun b => (d, b.num, b.plane)))
  (full.foldl (fun s b => s.retire c b.1 b.2.1 b.2.2 5) s).startJournal c

/-! ### Calibration and tracker journal (R474, R484) -/

/-- ZQ_CALIBRATION: ZQ CALIBRATION SHORT on an online channel, every 100 ms. -/
def zqCalibration (c : Chan) (s : State) : State :=
  if (s.chans[c]).online && (s.chans[c]).zqAt + aonSec / 10 ≤ s.mtime then
    s.chanUpd c (fun x => { x with zqAt := s.mtime, dies := x.dies.map (fun (d : FlashDie) => if d.usable then { d with cmds := [0xD9] } else d) })
  else s

/-- TRACKER_JOURNAL: every 60 s a TRACK record for each die in use. -/
def trackerJournal (c : Chan) (s : State) : State :=
  let x := s.chans[c]
  if !x.online || s.mtime < x.trackAt + 60 * aonSec then s
  else
    x.usable.foldl (fun s d => s.jAppend c { typ := 0xA, id := BitVec.ofNat 64 d.val, loc := (x.dies[d]).trackLoc })
      (s.chanUpd c (fun x => { x with trackAt := s.mtime }))

/-! ### Relocation (R491) -/

/-- Durable copies on a die's block number, with their lockets. -/
def State.copiesIn (s : State) (c : Chan) (d : Fin 8) (num : Nat) : List (Locket × ColdCopy) :=
  s.lockets.flatMap (fun l => (l.cold.filter (fun k => k.chan == c && k.die == d && k.block == num)).map (fun k => (l, k)))

/-- Valid sectors of a block number: those of the copies of lockets that are not Lost. -/
def State.validIn (s : State) (c : Chan) (d : Fin 8) (num : Nat) : Nat :=
  (((s.copiesIn c d num).filter (fun x => !x.1.lost)).map (fun x => x.2.count)).sum

/-- Relocate the valid data of a block: each durable copy is written again in a relocation stripe, of the die that static levelling names; its
MOVE frees the old one. The data is read first, or has been read by the scrub that names the codewords it found uncorrectable (`read`); an
unreadable copy is not moved (R483, R498). -/
def State.relocateBlock (s : State) (c : Chan) (d : Fin 8) (num : Nat) (onto : Option (Fin 8)) (read : Option (List (Nat × Nat × Nat))) : State :=
  (s.copiesIn c d num).foldl (fun s x =>
    let (l, k) := x
    if !k.durable || l.lost || l.rekey.isSome || l.cold.any (fun y => y.copy == k.copy && !y.durable) then s
    else
      let (ok, s) := match read with | none => s.bgRead k | some bad => (!(s.copyCws k).any bad.contains, s)
      if !ok then (if read.isNone then s.loseCopy l k else s)
      else
      let twin := fun (e : Fin 8) => l.cold.any (fun y => y.copy != k.copy && y.chan == c && y.die == e)
      match (match onto with
        | some e => if twin e then s.placeFor l k true l.image else s.placeOn c e true l.id k.copy l.image
        | none => s.placeFor l k true l.image) with
      | some (n, s) => s.locketUpd l.part l.session (fun x => { x with cold := x.cold ++ [{ n with moved := true }] })
      | none => s) s

/-- Block numbers of a die that hold closed data stripes: not open, with no program, erase or read to come. -/
def FlashChan.closedNums (x : FlashChan) (d : Fin 8) : List Nat :=
  let y := x.dies[d]
  (((y.blocks.filter (fun b => b.st == .data)).map (·.num)).eraseDups).filter (fun n =>
    !x.stripes.any (fun t => t.die == d && t.block == n) &&
    !y.jobs.any (fun j => match j with | .program b .. => b == n | .erase b _ => b == n | .read _ _ k .. => k.block == n))

/-- Erase count of a block number. -/
def FlashDie.peOf (d : FlashDie) (num : Nat) : Nat := ((d.blocks.filter (fun b => b.num == num && b.st == .data)).map (·.pe)).foldl max 0

/-- COLLECTION (R491): below OP_PCT ÷ 4 percent free it runs until OP_PCT ÷ 2 percent; the block with fewest valid sectors first, ties to the
lowest erase count, is relocated, or erased once nothing valid is left in it. Its background reads wait for a die that has nothing else to do (R482). -/
def collection (c : Chan) (d : Fin 8) (s : State) : State :=
  let x := s.chans[c]
  let y := x.dies[d]
  let data := y.count FlashBlock.isData
  let free := y.count (fun b => b.st == .free)
  let on := if free * 400 < data * s.profile.opPct then true
    else if data * s.profile.opPct ≤ free * 200 then false else y.collecting
  let s := s.dieUpd c d (fun z => { z with collecting := on })
  if !on || s.quiet 0x48 || !x.online || !y.usable then s
  else
    let best := (x.closedNums d).foldl (fun (m : Option Nat) n =>
      match m with
      | none => some n
      | some a =>
        if s.validIn c d n < s.validIn c d a || (s.validIn c d n == s.validIn c d a && y.peOf n < y.peOf a) then some n else some a) none
    match best with
    | none => s
    | some n =>
      if s.validIn c d n == 0 then s.addJobs c d ((y.blocks.filter (fun b => b.num == n && b.st == .data)).map (fun b => .erase n b.plane))
      else if y.jobs.isEmpty then s.relocateBlock c d n none none
      else s

/-- STATIC_LEVELLING (R490, R493, R504): the valid data of the channel's lowest-count block, which lies on die `d`, goes into the highest-count
free block of the channel; its background reads wait for a die that has nothing else to do (R482). A channel on its way to another owner is left
alone (R500). -/
def staticLevelling (c : Chan) (d : Fin 8) (s : State) : State :=
  let x := s.chans[c]
  let worn := match s.chanOwner c with | some p => (s.parts[p]).worn | none => false
  let pes := x.dies.toList.flatMap (fun y => (y.blocks.filter FlashBlock.isData).map (·.pe))
  let hi := pes.foldl max 0
  let lo := pes.foldl min hi
  let gap := max 1 (s.rf rPrkWear 0 16)
  if worn || s.quiet 0x48 || !x.online || x.erasing || !(x.dies[d]).usable || !(x.dies[d]).jobs.isEmpty || hi - lo ≤ gap then s
  else
    let y := x.dies[d]
    match (y.blocks.filter (fun b => b.st == .data && b.pe == lo && (x.closedNums d).contains b.num)).head?,
        (x.usable.flatMap (fun e => ((x.dies[e]).blocks.filter (fun b => b.st == .free)).map (fun b => (e, b)))).foldl
          (fun (m : Option (Fin 8 × FlashBlock)) b => match m with | none => some b | some a => if a.2.pe < b.2.pe then some b else some a)
          none with
    | some b, some (e, f) =>
      let s := s.closeStripe c e true
      let planes := sortBy (· ≤ ·) (((x.dies[e]).blocks.filter (fun z => z.num == f.num && z.st == .free)).map (·.plane))
      let s := s.setBlocks c e f.num planes .data
      let s := s.chanUpd c (fun x => { x with stripes := x.stripes ++ [⟨e, true, f.num, planes, 0, []⟩] })
      s.relocateBlock c d b.num (some e) none
    | _, _ => s

/-! ### Scrub (R496 to R498) -/

/-- A block's place in the scrub order. -/
def scrubKey (d : Fin 8) (num plane : Nat) : Nat := (d.val * 2 ^ 17 + num) * 4 + plane

/-- Codewords of live copies on a channel: die, block, plane, page, codeword. -/
def State.liveCws (s : State) (c : Chan) : List (Fin 8 × Nat × Nat × Nat × Nat) :=
  (s.lockets.flatMap (fun l => (l.cold.filter (fun k => k.chan == c && k.durable && s.copyReach k)).flatMap (fun k =>
    (s.copyCws k).map (fun w => (k.die, k.block, w.1, w.2.1, w.2.2))))).eraseDups

/-- The block that the scrubber reads next: die, number, plane. -/
def State.scrubNext (s : State) (c : Chan) : Option (Fin 8 × Nat × Nat) :=
  let bs := ((s.liveCws c).map (fun w => (w.1, w.2.1, w.2.2.1))).eraseDups
  let low := fun (l : List (Fin 8 × Nat × Nat)) => l.foldl (fun (m : Option (Fin 8 × Nat × Nat)) b =>
    match m with
    | none => some b
    | some a => if scrubKey b.1 b.2.1 b.2.2 < scrubKey a.1 a.2.1 a.2.2 then some b else some a) none
  match low (bs.filter (fun b => (s.chans[c]).scrub ≤ scrubKey b.1 b.2.1 b.2.2)) with
  | some b => some b
  | none => low bs

/-- A codeword is uncorrectable in the scrub (R498): one event of counter 4, and every copy with a sector in it is unreadable. -/
def State.scrubBad (s : State) (c : Chan) (d : Fin 8) (num plane page w : Nat) : State :=
  let s := s.faultEvent 4 (c.val * 8 + d.val)
  (s.copiesIn c d num).foldl (fun s x =>
    if x.2.durable && (s.copyCws x.2).contains (plane, page, w) then
      match s.locket? x.1.part x.1.session with
      | some l => s.loseCopy l x.2
      | none => s
    else s) s

/-- AON cycles between two blocks of a channel's scrub: the period spread evenly over its blocks with live copies. -/
def State.scrubGap (s : State) (c : Chan) : Nat :=
  s.rf rPrkScrub 0 8 * aonDay / max 1 (((s.liveCws c).map (fun w => (w.1, w.2.1, w.2.2.1))).eraseDups).length

/-- SCRUB_BLOCK: every codeword of live copies in one block is read, in order of page and codeword, with the outcomes given. These background reads
wait for a die that has nothing else to do (R482). -/
def scrubBlock (c : Chan) (cws : List CwRead) (s : State) : State :=
  if s.rf rPrkScrub 0 8 == 0 || s.quiet 0x48 || !(s.chans[c]).online || s.mtime < (s.chans[c]).scrubAt + s.scrubGap c then s
  else
    match s.scrubNext c with
    | none => s
    | some (d, num, plane) =>
      if !((s.chans[c]).dies[d]).jobs.isEmpty then s
      else
      let ws := sortBy (fun a b => a.1 < b.1 || (a.1 == b.1 && a.2 ≤ b.2))
        (((s.liveCws c).filter (fun w => w.1 == d && w.2.1 == num && w.2.2.1 == plane)).map (fun w => w.2.2.2))
      let res := ws.zipIdx.map (fun x => (x.1, cws.getD x.2 ⟨some 0, 0, 0⟩))
      let prog := ((((s.chans[c]).dies[d]).blocks.find? (fun b => b.num == num && b.plane == plane)).map (·.at_)).getD s.mtime
      let bin := ageBin (s.mtime - prog)
      let v := s.readLv c d bin
      let s := s.chanUpd c (fun x => { x with scrub := scrubKey d num plane + 1, scrubAt := s.mtime })
      let high := (res.filter (fun x => (cwGot x.2) != some 0)).map (fun x => (plane, x.1.1, x.1.2))
      let copies := ((s.copiesIn c d num).filter (fun x => x.2.durable && (s.copyCws x.2).any high.contains)).length
      let pages := (res.map (fun x => x.1.1)).eraseDups
      let reads := (pages.map (fun g => ((res.filter (fun x => x.1.1 == g)).map (fun x => pageReads (cwGot x.2))).foldl max 0)).sum
      let s := s.ladder c d v bin (res.map (·.2)) copies reads
      let bad := (res.filter (fun x => (cwGot x.2).isNone)).map (·.1)
      let limit := max 1 (min 96 (s.rf rPrkScrub 16 8))
      let fresh := !high.isEmpty || res.any (fun x => (cwGot x.2) == some 0 && limit ≤ x.2.down + x.2.up) ||
        s.profile.retainDays * aonDay < s.mtime - prog
      let s := bad.foldl (fun s w => s.scrubBad c d num plane w.1 w.2) s
      let s := s.dieUpd c d (fun x => { x with blocks := x.blocks.map (fun b =>
        if b.num == num && b.plane == plane then { b with badScrubs := if bad.isEmpty then 0 else b.badScrubs + 1 } else b) })
      let twice := ((s.chans[c]).dies[d]).blocks.any (fun b => b.num == num && b.plane == plane && 2 ≤ b.badScrubs)
      let s := if fresh || twice then s.relocateBlock c d num none (some (bad.map (fun w => (plane, w.1, w.2)))) else s
      if twice then s.retire c d num plane 4 else s

/-! ### Journal compaction and the rebuild of the index (R486 to R489) -/

/-- Is a record still live, given the records after it? -/
def JRecord.live (r : JRecord) (after : List JRecord) : Bool :=
  match r.typ with
  | 1 | 3 => !after.any (fun q => ((q.typ == 1 || q.typ == 3) && q.id == r.id && q.copy == r.copy) || (q.typ == 2 && q.id == r.id))
  | 2 => false
  | 4 => !after.any (fun q => (q.typ == 2 || q.typ == 4) && q.id == r.id)
  | 5 => !after.any (fun q => q.typ == 5 && q.part == r.part && r.id.toNat ≤ q.id.toNat)
  | 0xB => !after.any (fun q => q.typ == 0xB && q.part == r.part && r.id.toNat ≤ q.id.toNat)
  | 6 => fld r.id 62 2 == 1 && !after.any (fun q => q.typ == 6 && q.part == r.part && fld q.id 62 2 == 2 && fld q.id 0 32 == fld r.id 0 32)
  | 9 => !after.any (fun q => q.typ == 9)
  | 0xA => !after.any (fun q => q.typ == 0xA && q.id == r.id)
  | _ => true

/-- The live records of a journal, in order. -/
def liveRecords : List JRecord → List JRecord
  | [] => []
  | r :: l => if r.live l then r :: liveRecords l else liveRecords l

/-- Erase a channel's journal blocks that hold pages (R489, R492). -/
def State.jErase (s : State) (c : Chan) : State :=
  let s := s.chanUpd c (fun x => { x with
    dies := x.dies.map (fun (d : FlashDie) => { d with
      blocks := d.blocks.map (fun b => if b.st == .journal && b.used != 0 then { b with pe := b.pe + 1, used := 0 } else b) }) })
  let full := (List.finRange 8).flatMap (fun d => (((s.chans[c]).dies[d]).blocks.filter (fun b =>
    b.st == .journal && s.profile.ratedPe != 0 && s.profile.ratedPe ≤ b.pe)).map (fun b => (d, b.num, b.plane)))
  full.foldl (fun s b => s.retire c b.1 b.2.1 b.2.2 5) s

/-- A journal page that is uncorrectable in its first place is read from its second, and rewritten in two places (R498). -/
def State.jRepair (s : State) (c : Chan) (i : Nat) : State :=
  if (s.chans[c]).jpages.length ≤ i then s
  else
    match s.jProgram c [] with
    | (some s, _) => s.chanUpd c (fun x => { x with jpages := (x.jpages.dropLast).set i (x.jpages.getLastD (x.jpages.getD i (⟨0, 0, 0, 0⟩, ⟨0, 0, 0, 0⟩))) })
    | (none, s) => s

/-- JOURNAL_COMPACTION (R489): a journal longer than twice its live records, or with no page left to program, is written anew with those records;
reading it finds the pages named uncorrectable in their first place. -/
def journalCompaction (j : JournalRun) (s : State) : State :=
  let c := j.ch
  let x := s.chans[c]
  let l := liveRecords x.journal
  if !x.online then s
  else if 2 * l.length < x.journal.length || (l.length < x.journal.length && (x.jPlaces []).2.isNone) then ((s.jErase c).jRewrite c l).checkJournal c
  else j.bad.foldl (fun s i => s.jRepair c i) s

/-- The copy that a PUT or MOVE record locates. -/
def JRecord.toCopy (r : JRecord) (c : Chan) : ColdCopy :=
  { copy := r.copy, chan := c, die := ⟨fld r.loc 48 3, by have h : fld r.loc 48 3 < 2 ^ 3 := Nat.mod_lt _ (by decide); omega⟩
    block := fld r.loc 32 16, page := fld r.loc 20 12, plane := fld r.loc 18 2, sector := fld r.loc 13 5, count := r.count
    todo := [], durable := true }

/-- The plain body of a stored image, which the crypto engine opens under the key of its epoch (R450). -/
def State.bodyOf (s : State) (p : Part) (img : List Byte) : List Byte :=
  match ((s.parts[p]).keys).find? (fun k => k.epoch.toNat == leAt img 32 4) with
  | some k => (openLocket k.key img).getD []
  | none => []

/-- A locket found on the media, with what its body gives once its epoch's key is held (R488, R537). -/
def Locket.opened (s : State) (l : Locket) : Locket :=
  let body := s.bodyOf l.part l.image
  match parseBody body with
  | none => { l with body := body }
  | some b =>
    { l with
      body := body, domain := ⟨b.domain % 4, Nat.mod_lt _ (by decide)⟩, histLen := b.histLen
      binds := (b.binds.filter (fun x => (match s.version? l.part ⟨x.1, x.2.1⟩ with
        | some v => v.digest.toNat == x.2.2 | none => false))).map (fun x => Bound.mk x.1 x.2.1) }

/-- The locket that a reachable copy holds, from its header on the media. -/
def State.readHeader (s : State) (r : JRecord) (k : ColdCopy) : Option Locket :=
  let raw := s.readSectors k (s.stripePlanes k)
  let img := raw.take (leAt raw 4 4)
  if !s.copyReach k || leAt img 8 8 != r.id.toNat then none
  else
    let epoch := BitVec.ofNat 32 (leAt img 32 4)
    some (Locket.opened s {
      part := r.part, session := BitVec.ofNat 32 (leAt img 24 4), id := r.id, gen := BitVec.ofNat 64 (leAt img 16 8), epoch := epoch
      image := img, body := [], pages := leAt img 36 4, binds := [], pinned := (leAt img 1 1).testBit 0, cold := [k]
      waiting := !s.epochHeld r.part epoch })

/-- Take one live PUT or MOVE record of a partition into the cold index. The locket's header stands on the media; of a locket none of whose copies can
be reached the record gives the ID, and so the generation, alone: session and key epoch are free values (R475, R524; DESIGN CHOICE, log entry 37),
until a copy that can be read joins. -/
def State.replayPut (s : State) (c : Chan) (r : JRecord) : State :=
  let k := r.toCopy c
  match s.lockets.find? (fun l => l.part == r.part && l.id == r.id) with
  | some l =>
    let cold := if l.cold.any (fun y => y.copy == k.copy && y.durable) then l.cold else sortCopies (l.cold ++ [k])
    match (if l.image.isEmpty then s.readHeader r k else none) with
    | some n => { s with lockets := s.lockets.map (fun x => if x.part == l.part && x.id == l.id then { n with cold := cold, lost := l.lost } else x) }
    | none => s.locketUpd l.part l.session (fun x => { x with cold := cold })
  | none =>
    match s.readHeader r k with
    | some n => { s with lockets := s.lockets ++ [n] }
    | none =>
      let (sid, s) := s.freeBelow (2 ^ 32)
      let (e, s) := s.freeBelow (2 ^ 32)
      let epoch := BitVec.ofNat 32 e
      { s with lockets := s.lockets ++ [{
          part := r.part, session := BitVec.ofNat 32 sid, id := r.id, gen := locketGen r.id, epoch := epoch, image := [], body := [], pages := 0
          binds := [], cold := [k], waiting := !s.epochHeld r.part epoch }] }

/-- Copies of a partition that its index holds and that cannot be reached are unreadable (R475, R495). -/
def State.loseUnreached (s : State) (p : Part) : State :=
  s.lockets.foldl (fun s l =>
    if l.part != p then s
    else (l.cold.filter (fun k => k.durable && !s.copyReach k)).foldl (fun s k =>
      match s.locket? p l.session with
      | some l => s.loseCopy l k
      | none => s) s) s

/-- Replay a channel's journal for its owner (R488, R489, R524): copies and Lost marks. Records that wait for their page count after a reset that
kept them. What the index then holds and cannot be reached is unreadable. -/
def State.replayChan (s : State) (c : Chan) (p : Part) : State :=
  let l := (liveRecords ((s.chans[c]).journal ++ ((s.chans[c]).jbuf.filter (fun r => r.typ != 1 && r.typ != 3)))).filter (fun r => r.part == p)
  let s := l.foldl (fun s r => if r.typ == 1 || r.typ == 3 then s.replayPut c r else s) s
  l.foldl (fun s r => if r.typ == 4 then
      { s with lockets := s.lockets.map (fun k => if k.part == p && k.id == r.id then { k with lost := true } else k) } else s) s

/-- Journal recovery of a channel at bring-up after PWR_ON (R475, R487), and where it joins the partition that it names (R524): the counters
resume at the highest value reserved (R309, R444), and WORN holds (R493). -/
def State.resumeCounters (s : State) (c : Chan) : State :=
  (List.finRange 16).foldl (fun s p =>
    let l := (liveRecords (s.chans[c]).journal).filter (fun r => r.part == p)
    let top := fun (t : Nat) => (l.filter (fun r => r.typ == t)).foldl (fun m r => max m r.id.toNat) 0
    s.partUpd p (fun x => { x with
      gen := BitVec.ofNat 64 (max x.gen.toNat (top 5)), epoch := BitVec.ofNat 64 (max x.epoch.toNat (top 0xB))
      worn := x.worn || ((s.chans[c]).owner == some p && l.any (fun r => r.typ == 9 && bit r.id 0)) })) s

/-- INDEX_REBUILD (R488): after PWR_ON, every owned channel's journal is replayed; copies on missing dies are then unreadable. -/
def indexRebuild (s : State) : State :=
  if s.indexOk then s
  else
    let s := (List.finRange 16).foldl (fun s c =>
      match s.chanOwner c with | some p => s.replayChan c p | none => s) s
    (List.finRange 16).foldl State.loseUnreached { s with indexOk := true }

/-- A channel brought online holds reservations that its partition's counters do not know of: after PWR_ON any, later those beyond their own
next multiple (R309, R444; DEDUCED, log entry 35). -/
def State.newReserve (s : State) (c : Chan) (p : Part) : Bool :=
  let x := s.parts[p]
  let beyond := fun (t : Nat) (n : DWord) =>
    (liveRecords (s.chans[c]).journal).any (fun r => r.part == p && r.typ == t && (n.toNat / 2 ^ 20 + 1) * 2 ^ 20 < r.id.toNat)
  (x.gen == 0#64 && x.epoch == 0#64) || beyond 5 x.gen || beyond 0xB x.epoch

/-- CHANNEL_ONLINE (R475, R509): bring-up, and recovery of the journal, whose copies join the index once it stands. -/
def channelOnline (c : Chan) (v : Word) (dies : List (Option DieInfo)) (s : State) : State :=
  if !bit v 1 then s
  else
    let s := (s.setRb (rPrkChCtrl c) 1 true).bringUp c dies
    match s.chanOwner c with
    | some p =>
      let s := if s.newReserve c p then s.resumeCounters c else s
      if s.indexOk && (s.chans[c]).online then (s.replayChan c p).loseUnreached p else s
    | none => s

/-- DIE_TIMEOUT. -/
def execDieTimeout (c : Chan) (d : Fin 8) (s : State) : Host.Outcome State Fault Refusal := run (dieTimeout c d) s
/-- CHANNEL_ONLINE. -/
def execChannelOnline (c : Chan) (v : Word) (dies : List (Option DieInfo)) (s : State) : Host.Outcome State Fault Refusal :=
  runWrite (rPrkChCtrl c) v (channelOnline c v dies) s
/-- CHANNEL_OFFLINE. -/
def execChannelOffline (c : Chan) (v : Word) (s : State) : Host.Outcome State Fault Refusal := runWrite (rPrkChCtrl c) v (channelOffline c v) s
/-- CHANNEL_FORMAT. -/
def execChannelFormat (c : Chan) (v : Word) (s : State) : Host.Outcome State Fault Refusal := runWrite (rPrkChCtrl c) v (channelFormat c v) s
/-- ZQ_CALIBRATION. -/
def execZqCalibration (c : Chan) (s : State) : Host.Outcome State Fault Refusal := run (zqCalibration c) s
/-- TRACKER_JOURNAL. -/
def execTrackerJournal (c : Chan) (s : State) : Host.Outcome State Fault Refusal := run (trackerJournal c) s
/-- SCRUB_BLOCK. -/
def execScrubBlock (c : Chan) (cws : List CwRead) (s : State) : Host.Outcome State Fault Refusal := run (scrubBlock c cws) s
/-- COLLECTION. -/
def execCollection (c : Chan) (d : Fin 8) (s : State) : Host.Outcome State Fault Refusal := run (collection c d) s
/-- STATIC_LEVELLING. -/
def execStaticLevelling (c : Chan) (d : Fin 8) (s : State) : Host.Outcome State Fault Refusal := run (staticLevelling c d) s
/-- JOURNAL_COMPACTION. -/
def execJournalCompaction (j : JournalRun) (s : State) : Host.Outcome State Fault Refusal := run (journalCompaction j) s
/-- INDEX_REBUILD. -/
def execIndexRebuild (s : State) : Host.Outcome State Fault Refusal := run indexRebuild s

/-- The partition that a channel's events concern. -/
def State.countChan (s : State) (c : Chan) (ev : Nat) : State := s.count ev (s.chanOwner c) none 1

/-- Count an array operation that a command ends, when one was in flight. -/
def chanOp (c : Chan) (d : Fin 8) (ev : Nat) (f : State → State) (s : State) : State :=
  let t := f s
  if ((t.chans[c]).dies[d]).jobs == ((s.chans[c]).dies[d]).jobs then t else t.countChan c ev

/-- STRIPE_PROGRAM. -/
def execStripeProgram (c : Chan) (s : State) : Host.Outcome State Fault Refusal := run (stripeProgram c) s
/-- JOURNAL_PAGE_PROGRAM. -/
def execJournalPageProgram (j : JournalRun) (s : State) : Host.Outcome State Fault Refusal :=
  run (fun s => if s.pageDue j.ch then ((journalPageProgram j s).checkJournal j.ch).retryAll.count 0x0F (s.chanOwner j.ch) none (2 + j.bad.length) else s) s
/-- FLASH_READ_DONE. -/
def execFlashReadDone (c : Chan) (d : Fin 8) (cws : List CwRead) (s : State) : Host.Outcome State Fault Refusal :=
  run (chanOp c d 0x0E (flashReadDone c d cws)) s
/-- FLASH_PROGRAM_DONE. -/
def execFlashProgramDone (c : Chan) (d : Fin 8) (bad : Option (Fin 4)) (s : State) : Host.Outcome State Fault Refusal :=
  run (chanOp c d 0x0F (flashProgramDone c d bad)) s
/-- FLASH_ERASE_DONE. -/
def execFlashEraseDone (c : Chan) (d : Fin 8) (ok : Bool) (s : State) : Host.Outcome State Fault Refusal :=
  run (chanOp c d 0x10 (flashEraseDone c d ok)) s

end Sys2Proof.Machine
end

