-- ==== Sys2Proof/Machine/StepClock.lean ====
section
/-! DEFINITION. Sys2Proof/Machine/StepClock.lean: step domains, the beat filter and the period (02_step_clock.md). -/
namespace Sys2Proof.Machine
open Sys2Proof

/-- The beat spacing as written: SPACE, at least 100 cycles (R56). -/
def State.minSpace (s : State) (d : Dom) : Nat := max (s.rf (rGlbSdMinspace d) 0 20) 100

/-- A step-domain setting as edges and the watchdog see it: what was written in this AON cycle applies from the next (R46, R48). -/
def State.sdNow (s : State) (d : Dom) (was : SdOld → Nat) (now : Nat) : Nat :=
  match (s.sd[d]).old with
  | some o => if o.cycle == s.time then was o else now
  | none => now

/-- The beat spacing, the watchdog time and AVG in force in this cycle. -/
def State.spaceNow (s : State) (d : Dom) : Nat := max (s.sdNow d SdOld.space (s.rf (rGlbSdMinspace d) 0 20)) 100
def State.wdogNow (s : State) (d : Dom) : Nat := s.sdNow d SdOld.wdog (s.rf (rGlbSdWdog d) 0 20)
def State.avgNow (s : State) (d : Dom) : Nat := s.sdNow d SdOld.avg (s.rf (rGlbSdCtrl d) 28 2)

/-- Before a write of MINSPACE, WDOG or AVG: the values of this cycle, once in it. -/
def State.sdKeep (s : State) (d : Dom) : State :=
  s.sdUpd d (fun x => { x with old := some ⟨s.time, s.sdNow d SdOld.space (s.rf (rGlbSdMinspace d) 0 20), s.wdogNow d, s.avgNow d⟩ })

/-- The watchdog time in AON cycles (R46); 0 disables it. -/
def State.wdogCycles (s : State) (d : Dom) : Nat :=
  let t := s.wdogNow d
  if t == 0 then 0 else max (t * 100) (2 * (s.reg (rGlbSdPeriod d)).toNat)

/-- Bit of a beat event of domain `d` in GLB_SD_EVT: group 0 OVERRUN, 1 STUCK, 2 LOST, 3 RESUMED (R63). -/
def State.sdEvt (s : State) (d : Dom) (group : Nat) : State := s.setRb rGlbSdEvt (4 * group + d) true

/-- Has partition `p` an open session bound to domain `d`, resident or parked (R64)? One whose key epoch is not restored is absent (R537). -/
def State.hasSession (s : State) (p : Part) (d : Dom) : Bool :=
  s.strands.any (fun x => x.part == p && x.domain == d) || s.lockets.any (fun x => x.part == p && x.domain == d && !x.waiting)

/-- Post a beat event to every partition with an open session bound to the domain (R64). -/
def State.postBeat (s : State) (d : Dom) (code : Nat) : State :=
  (List.finRange 16).foldl
    (fun s p => if s.hasSession p d then s.post p code d none noSession 0#64 0#64 else s) s

/-- The period that measured intervals give under AVG (R41); newest first. -/
def avgPeriod (avg : Nat) (iv : List Word) : Word :=
  let n := match avg with | 1 => 4 | 2 => 16 | _ => 1
  let l := iv.take n
  BitVec.ofNat 32 ((l.map (·.toNat)).sum / l.length)

/-- Accept a synthetic beat (R39, R47): the step advances, the phase restarts, no interval is measured. -/
def State.synthBeat (s : State) (d : Dom) : State :=
  let p := s.reg (rGlbSdPeriod d)
  s.sdUpd d (fun x => { x with st := .timer, step := x.step + 1#40, beatAt := s.time, p := p, realLast := false })

/-- The period register after a real beat: a measured interval sets it (R41). -/
def State.measure (s : State) (d : Dom) : State :=
  let x := s.sd[d]
  if x.realLast then
    let iv := (BitVec.ofNat 32 (min (s.time - x.beatAt) (2 ^ 32 - 1)) :: x.intervals).take 16
    (s.sdUpd d (fun x => { x with intervals := iv })).setReg (rGlbSdPeriod d) (avgPeriod (s.avgNow d) iv)
  else s

/-- Accept a real beat (R39, R45): from WAITING it starts the preset step; a measured interval sets the period first. -/
def State.realBeat (s : State) (d : Dom) : State :=
  let s := s.measure d
  let p := s.reg (rGlbSdPeriod d)
  s.sdUpd d (fun x => { x with
    st := .beat
    step := if x.st == .waiting then x.step else x.step + 1#40
    beatAt := s.time
    p := p
    realLast := true })

/-- An overrun (R45): merged into the last beat, counted and posted. -/
def State.overrun (s : State) (d : Dom) : State := (s.bump (rGlbSdOverrun d)).sdEvt d 0

/-- The rising edge of the synchronised level: the level is 1 and the stuck measurement starts (R45). -/
def State.riseLevel (s : State) (d : Dom) : State :=
  s.sdUpd d (fun x => { x with
    level := true
    riseAt := if x.st == .off || x.timerOnly then none else some s.time })

/-- Filter a rising edge in a domain driven by the beat input (R45, R48). -/
def State.filterEdge (s : State) (d : Dom) : State :=
  let x := s.sd[d]
  let e := s.time - x.beatAt
  match x.st with
  | .off => s
  | .waiting => s.realBeat d
  | .beat => if s.spaceNow d ≤ e then s.realBeat d else s.overrun d
  | .timer =>
    if (s.reg (rGlbSdPeriod d)).toNat ≤ e then (s.synthBeat d).overrun d
    else if s.spaceNow d ≤ e then ((s.realBeat d).sdEvt d 3).postBeat d 0x04
    else s.overrun d

/-- STEP_BEAT_EDGE (R37, R45): a rising edge on the beat input; with the level already 1 there is no edge. -/
def stepBeatEdge (d : Dom) (s : State) : State :=
  let x := s.sd[d]
  if x.level then s
  else if x.timerOnly then s.riseLevel d
  else (s.filterEdge d).riseLevel d

/-- BEAT_STUCK_DETECT (R45): the level has been 1 for more than 100,000 cycles after an edge. -/
def beatStuckDetect (d : Dom) (s : State) : State :=
  let x := s.sd[d]
  match x.riseAt with
  | some t =>
    if x.level && !x.stuck && 100000 < s.time - t then
      ((s.sdUpd d (fun x => { x with stuck := true, riseAt := none })).sdEvt d 1).postBeat d 0x03
    else s
  | none => s

/-- The level falls (R45). -/
def State.fallLevel (s : State) (d : Dom) : State :=
  s.sdUpd d (fun x => { x with level := false, stuck := false, riseAt := none })

/-- BEAT_RELEASE (R45): the level falls while STUCK is 1. -/
def beatRelease (d : Dom) (s : State) : State := if (s.sd[d]).stuck then s.fallLevel d else s

/-- BEAT_LEVEL_FALL (R45): the level falls while STUCK is 0. -/
def beatLevelFall (d : Dom) (s : State) : State := if (s.sd[d]).stuck then s else s.fallLevel d

/-- BEAT_WATCHDOG_EXPIRY (R45, R46): in BEAT, the time since the last accepted beat has reached the watchdog time. -/
def beatWatchdogExpiry (d : Dom) (s : State) : State :=
  let x := s.sd[d]
  let w := s.wdogCycles d
  if x.st == .beat && w != 0 && w ≤ s.time - x.beatAt then
    ((s.synthBeat d).sdEvt d 2).postBeat d 0x02
  else s

/-- SYNTHETIC_BEAT (R47): in TIMER, the measured period has passed. -/
def syntheticBeat (d : Dom) (s : State) : State :=
  let x := s.sd[d]
  if x.st == .timer && (s.reg (rGlbSdPeriod d)).toNat ≤ s.time - x.beatAt then s.synthBeat d else s

/-- The writable fields of GLB_SD_CTRL but ENABLE; SOURCE holds while ENABLE is 1 (R54). -/
def State.sdCtrlFields (s : State) (d : Dom) (v : Word) : State :=
  let s := ((s.sdKeep d).setRf (rGlbSdCtrl d) 28 2 (fld v 28 2)).setRf (rGlbSdCtrl d) 12 12 (fld v 12 12)
  if s.rb (rGlbSdCtrl d) 31 then s else s.setRb (rGlbSdCtrl d) 30 (bit v 30)

/-- Leave OFF (R38, R39, R41, R58): the preset step, the initial period, and WAITING or TIMER by SOURCE. -/
def State.sdStart (s : State) (d : Dom) : State :=
  let src := s.rb (rGlbSdCtrl d) 30
  let per := BitVec.ofNat 32 (max (s.reg (rGlbSdPeriodInit d)).toNat (s.minSpace d))
  let s := s.setReg (rGlbSdPeriod d) per
  let preset := fld (s.reg64 (rGlbSdPreset d)) 0 40
  s.sdUpd d (fun x => { x with
    st := if src then .timer else .waiting
    timerOnly := src
    step := BitVec.ofNat 40 preset
    beatAt := s.time
    p := per
    realLast := false
    intervals := []
    stuck := false
    riseAt := none })

/-- SD_ENABLE (R38, R39): a write of GLB_SD_CTRL with ENABLE 1 while ENABLE is 0. -/
def sdEnable (d : Dom) (v : Word) (s : State) : State :=
  if bit v 31 && !s.rb (rGlbSdCtrl d) 31 then
    ((s.sdCtrlFields d v).setRb (rGlbSdCtrl d) 31 true).sdStart d
  else s

/-- Enter OFF (R38, R676): step and phase held, STUCK and any stuck measurement ended. -/
def State.sdStop (s : State) (d : Dom) : State :=
  let ph := s.phase d
  (s.setRb (rGlbSdCtrl d) 31 false).sdUpd d (fun x => { x with
    st := .off, heldPhase := ph, stuck := false, riseAt := none, realLast := false, timerOnly := false })

/-- GLB_SD_STATUS as it reads (R55). -/
def State.sdStatus (s : State) (d : Dom) : Word :=
  let x := s.sd[d]
  let st := match x.st with | .off => 0 | .waiting => 1 | .beat => 2 | .timer => 3
  BitVec.ofNat 32 (st * 2 ^ 30 + (if x.level then 2 ^ 29 else 0) + if x.stuck then 2 ^ 28 else 0)

/-- STEP_BEAT_EDGE. -/
def execStepBeatEdge (d : Dom) (s : State) : Host.Outcome State Fault Refusal := runAon (stepBeatEdge d) s
/-- BEAT_STUCK_DETECT. -/
def execBeatStuckDetect (d : Dom) (s : State) : Host.Outcome State Fault Refusal := runAon (beatStuckDetect d) s
/-- BEAT_RELEASE. -/
def execBeatRelease (d : Dom) (s : State) : Host.Outcome State Fault Refusal := runAon (beatRelease d) s
/-- BEAT_LEVEL_FALL. -/
def execBeatLevelFall (d : Dom) (s : State) : Host.Outcome State Fault Refusal := runAon (beatLevelFall d) s
/-- BEAT_WATCHDOG_EXPIRY. -/
def execBeatWatchdogExpiry (d : Dom) (s : State) : Host.Outcome State Fault Refusal := runAon (beatWatchdogExpiry d) s
/-- SYNTHETIC_BEAT. -/
def execSyntheticBeat (d : Dom) (s : State) : Host.Outcome State Fault Refusal := runAon (syntheticBeat d) s
/-- SD_ENABLE. -/
def execSdEnable (d : Dom) (v : Word) (s : State) : Host.Outcome State Fault Refusal := runWrite (rGlbSdCtrl d) v (sdEnable d v) s

end Sys2Proof.Machine
end

