-- ==== Sys2Proof/Machine/OpLife.lean ====
section
/-! DEFINITION. Sys2Proof/Machine/OpLife.lean: how an op ends before its commit point, and the events that end it: abort, cancel, a
deadline, a domain that stops (R49 to R52, R135 to R140). -/
namespace Sys2Proof.Machine
open Sys2Proof

/-- Fail every item of a batch that has not ended. -/
def State.failItems (s : State) (x : OpCtx) (st : BitVec 8) : State :=
  x.items.zipIdx.foldl (fun s i => if i.1.phase == .done then s else s.failItem x i.2 i.1 st) s

/-- Every part of a batch is past its commit point, though the batch has not ended (R138). -/
def OpCtx.pastParts (x : OpCtx) : Bool :=
  (eOp x.entry == opSTEP_BATCH && x.items.all BatchItem.committed) ||
  (eOp x.entry == opMASK_BATCH && x.items.all (fun i => i.phase == .done && i.status == stOk))

/-- Offset of the STATUS byte in the output header of an op (R123, R312, R324). -/
def statusByte (e : List Byte) : Option Nat :=
  if eOp e == opSTEP_BATCH then some (leAt e 48 8 + 24)
  else if eOp e == opMASK_BATCH then some (leAt e 40 8 + 20)
  else if eOp e == opSPEC_VERIFY then some (leAt e 48 8 + 20)
  else none

/-- A late ABORT turns OK into OK_ABORT_LATE, in the output header too: its STATUS equals the completion's (R123, R136). -/
def State.lateHeader (s : State) (x : OpCtx) : State :=
  if x.status == some stOk && !x.replayed then
    match statusByte x.entry with
    | some a => s.wr8 a stOkAbortLate
    | none => s
  else s

/-- How many of at most `n` parts a ready op that is stopped has done: a free value (R140, DESIGN CHOICE, log entry 2). -/
def State.partsDone (s : State) (x : OpCtx) (n : Nat) : Nat × State := if x.st == .ready then s.freeBelow (n + 1) else (0, s)

/-- Slots of the tags that a MASK_BATCH has not written are invalid (R316). -/
def State.spoilSlots (s : State) (x : OpCtx) : State :=
  x.items.foldl (fun s i =>
    if i.slots == 0 then s
    else s.spoil (leAt x.entry 40 8 + i.offset + i.done * i.slotSz) ((i.slots - i.done) * i.slotSz)) s

/-- A MASK_BATCH stops with a status: the tags written until then stand (R138, R316). -/
def State.stopMasks (s : State) (x : OpCtx) (st : BitVec 8) : State :=
  let (n, s) := s.partsDone x (x.items.map (·.slots)).sum
  let s := if x.st == .ready then s.maskItems x n else s
  match s.ctx? x.id with
  | some y =>
    let late := st == stAborted && x.st == .ready && y.items.all (fun i => i.phase == .done)
    (s.spoilSlots y).endMasks y (if late then (if x.replayed then stReplayed else stOkAbortLate) else st)
  | none => s

/-- End an op with a status other than success, leaving the residue of R140; the rest of its output area is invalid. -/
def State.opFail (s : State) (x : OpCtx) (st : BitVec 8) : State :=
  let e := x.entry
  let op := eOp e
  if op == opENCODE || op == opENCODE_APPEND then s.encEnd x st
  else if op == opSTEP_BATCH then
    let s := s.failItems x st
    match s.ctx? x.id with
    | some y => s.endBatch y (if st == stAborted && x.pastParts then (if x.replayed then stReplayed else stOkAbortLate) else st)
    | none => s
  else if op == opMASK_BATCH then
    s.stopMasks x st
  else if op == opSPEC_VERIFY then s.specFail x (s.readTree (leAt e 24 8) (leAt e 32 1)) st
  else if op == opOBJECT_LOAD then s.loadEnd x st
  else if op == opREVIVE || op == opSESSION_OPEN || op == opIMPORT then (s.unadmit x).endWith x st
  else if op == opPREFILL then
    let (d, total, _) := x.prefillDescs
    let (n, s) := s.partsDone x (min d.length ((leAt e 48 4 - 64) / 32))
    (s.spoil (leAt e 40 8) (leAt e 48 4)).prefillOut x (d.take n) total 0 st (64 + 32 * n)
  else if op == opHASH_BLOCKS then
    let hs := (s.opHashes x).getD []
    let (n, s) := s.partsDone x hs.length
    let s := s.spoilOut x
    (s.wrBytes (leAt e 56 8) ((hs.take n).flatMap id)).ctxUpd x.id (fun y => { y with
      st := .past, status := some st, res1 := BitVec.ofNat 32 n })
  else if op == opDECODE || op == opEXPORT then
    (s.spoilOut x).endWith x st
  else s.endWith x st

/-- End a queued op that has no effects at all: what its dispatch had set in flight is undone (R135, R136). -/
def State.opDrop (s : State) (x : OpCtx) (st : BitVec 8) : State :=
  if eOp x.entry == opOBJECT_LOAD then s.loadEnd x st else s.endWith x st

/-! ### ABORT and CANCEL -/

/-- The status that ends an encode op: that of the lowest fault already raised, which an ABORT does not replace (R402). -/
def State.abortStatus (s : State) (x : OpCtx) : BitVec 8 :=
  let of := fun (g : EncSeg) =>
    match g.fault, g.st with
    | some st, _ => some st
    | none, .running n => (match (s.thread n).st with | .faulted cause => some (faultStatus cause) | _ => none)
    | none, _ => none
  match (x.segs.getD []).findSome? of, x.encFault with
  | some st, _ => st
  | none, some st => st
  | none, none => stAborted

/-- The target that an ABORT or CANCEL names, if TAG_CHECK allows it (R119). A control op that fails TAG_CHECK counts as not found, outcome 3,
where R135 lists both outcomes (DESIGN CHOICE, log entry 10). -/
def State.ctlTarget (s : State) (x : OpCtx) : Option OpCtx :=
  let e := x.entry
  match s.target x.part (abortRing e) (eWord e 28) with
  | some y => if (leAt e 25 1).testBit 0 && eTag y.entry != leAt e 32 8 then none else some y
  | none => none

/-- CANCEL (R135). -/
def cancel (c : Ctx) (s : State) : State :=
  match s.readyOp c opCANCEL with
  | none => s
  | some x =>
    match s.ctlTarget x with
    | none => s.endOk c 0#64 3#32
    | some y =>
      if isControl (eOp y.entry) then s.endOk c 0#64 2#32
      else if y.st == .queued then (s.opDrop y stCancelled).endOk c 0#64 0#32
      else s.endOk c 0#64 1#32

/-- ABORT (R136, R138). A target that a program's fault ended in the same cycle keeps the fault's status with outcome 0 (R402). A target that waits on a park-media read stops when the read ends (R139). -/
def abort (c : Ctx) (s : State) : State :=
  match s.readyOp c opABORT with
  | none => s
  | some x =>
    match s.ctlTarget x with
    | none => s.endOk c 0#64 3#32
    | some y =>
      if isControl (eOp y.entry) then s.endOk c 0#64 2#32
      else
        match y.st with
        | .queued => (s.opDrop y stAborted).endOk c 0#64 0#32
        | .ready =>
          if y.reading then (s.ctxUpd y.id (fun z => { z with aborting := true })).endOk c 0#64 0#32
          else
          let s := s.opFail y (s.abortStatus y)
          let late := ((s.ctx? y.id).bind (·.status)).any (fun st => st == stOkAbortLate || st == stReplayed)
          s.endOk c 0#64 (if late then 1#32 else 0#32)
        | .past =>
          if y.faultAt == some s.time then s.endOk c 0#64 0#32
          else ((s.ctxUpd y.id (fun z => { z with abortLate := true })).lateHeader y).endOk c 0#64 1#32

/-! ### Deadlines and logits-ready points -/

/-- An op misses its deadline (R49): a STEP_BATCH whose logits are ready fails the steps that have not committed, which does not change the
batch's status (R124), and ends with them; any other op ends. -/
def State.missDeadline (s : State) (x : OpCtx) : State :=
  if eOp x.entry == opSTEP_BATCH && x.logits then
    let s := s.failItems x stDeadline
    match s.ctx? x.id with
    | some y => s.endBatch y (if x.replayed then stReplayed else stOk)
    | none => s
  else s.opFail x stDeadline
/-- The step domain of an op's point stops (R52): the op completes with DEADLINE_MISSED. A STEP_BATCH with logits some of whose items have ended is
no batch in which every record carries DEADLINE_MISSED, and keeps its status (R124; DEDUCED, log entry 10). -/
def State.stopPoint (s : State) (x : OpCtx) : State :=
  if x.items.any (fun i => i.phase == .done) then s.missDeadline x else s.opFail x stDeadline

/-- DEADLINE_REACHED (R49): the op has not committed and its domain has reached the point. In a pair the primary decides so and tells the
secondary (R53). -/
def deadlineReached (c : Ctx) (s : State) : State :=
  match s.ctx? c with
  | some x =>
    if x.st != .past && eDlValid x.entry && s.reached (eDom x.entry) (eDeadline x.entry) && s.role != 2 then
      (s.tellOp 1 x.part 0#64 x.ring x.index).missDeadline x
    else s
  | none => s

/-- LOGITS_READY_POINT (R50, R53): the phase logits-ready point of a STEP_BATCH is reached. -/
def logitsReadyPoint (c : Ctx) (s : State) : State :=
  match s.ctx? c with
  | some x =>
    if eOp x.entry == opSTEP_BATCH && lrSrc x.entry == 1 && s.reached (eDom x.entry) (BitVec.ofNat 64 (leAt x.entry 40 8)) &&
        s.role != 2 then
      (s.tellOp 2 x.part 0#64 x.ring x.index).ctxUpd c (fun y => { y with logits := true })
    else s
  | none => s

/-- An op not yet committed has a point in the domain (R52). -/
def OpCtx.pointIn (x : OpCtx) (d : Dom) : Bool :=
  x.st != .past && eDom x.entry == d && (eDlValid x.entry || (eOp x.entry == opSTEP_BATCH && lrSrc x.entry == 1))

/-- SD_DISABLE (R52, R54): a write of GLB_SD_CTRL with ENABLE 0. -/
def sdDisable (d : Dom) (v : Word) (s : State) : State :=
  if bit v 31 then s
  else
    let on := s.rb (rGlbSdCtrl d) 31
    let s := s.sdCtrlFields d v
    if on then
      let s := (s.ctxs.filter (fun x => x.pointIn d)).foldl (fun s x => s.stopPoint x) s
      s.sdStop d
    else s

/-- ABORT. -/
def execAbort (c : Ctx) (s : State) : Host.Outcome State Fault Refusal := run (abort c) s
/-- CANCEL. -/
def execCancel (c : Ctx) (s : State) : Host.Outcome State Fault Refusal := run (cancel c) s
/-- DEADLINE_REACHED. -/
def execDeadlineReached (c : Ctx) (s : State) : Host.Outcome State Fault Refusal := run (deadlineReached c) s
/-- LOGITS_READY_POINT. -/
def execLogitsReadyPoint (c : Ctx) (s : State) : Host.Outcome State Fault Refusal := run (logitsReadyPoint c) s
/-- SD_DISABLE. -/
def execSdDisable (d : Dom) (v : Word) (s : State) : Host.Outcome State Fault Refusal := runWrite (rGlbSdCtrl d) v (sdDisable d v) s

end Sys2Proof.Machine
end

