-- ==== Sys2Proof/Machine/OnChip.lean ====
section
/-! DEFINITION. Sys2Proof/Machine/OnChip.lean: scratch bank ownership, patrol and reload of lines, and the fabric interface
(R407 to R442). -/
namespace Sys2Proof.Machine
open Sys2Proof

/-- The op holds a thread of the cluster, or has a step begun for a strand homed there, or a share of a split row there (R22). -/
def State.usesCluster (s : State) (x : OpCtx) (c : Clu) : Bool :=
  x.unitThreads.any (fun t => t.clu == c) ||
  (eOp x.entry == opSTEP_BATCH && x.items.any (fun i => i.begun && i.phase != .done &&
    (i.shares.contains c || (match s.strand? x.part i.session with | some t => t.home == c | none => false))))

/-! ### Bank ownership (R407, R408) -/

/-- Lines of a bank. -/
def inBank (b line : Nat) : Bool := line / 1024 == b

/-- A bank with zero data and no tags or marks. -/
def Scratch.clearBank (x : Scratch) (b : Nat) : Scratch :=
  { x with tags := x.tags.filter (fun l => !inBank b l), poison := x.poison.filter (fun l => !inBank b l) }

/-- Run-ahead results held in a bank are evicted, but for those of strands with an op queued or ready (R305, R408). Which results lie in it the
spec leaves to the allocator: free values choose (DESIGN CHOICE, log entry 2). -/
def State.evictBank (s : State) (c : Clu) (p : Nat) : State :=
  (s.strands.filter (fun t => t.part.val == p && t.home == c && t.ra.isSome && !s.raPinned t)).foldl (fun s t =>
    let (k, s) := s.freeBelow 2
    if k == 0 then s.dropRa t else s) s

/-- A bank in use starts to drain towards `x`, or takes `x` at once when it is FREE (steps 3 and 4). -/
def State.handBank (s : State) (c : Clu) (b x : Nat) : State :=
  let own := s.bankOwner c b
  if own == 0x10 then s.setRf (rCluBankOwn c b) 0 5 x
  else if own == 0x1F then s.scrUpd c (fun y => { y with hand := y.hand.map (fun h => if h.1 == b then (b, x) else h) })
  else
    ((s.setRf (rCluBankOwn c b) 0 5 0x1F).scrUpd c (fun y => { y with hand := y.hand ++ [(b, x)] })).evictBank c own

/-- BANK_OWNER_WRITE (R408). -/
def bankOwnerWrite (c : Clu) (b : Fin 16) (v : Word) (s : State) : State :=
  let x := fld v 0 5
  let own := s.bankOwner c b
  if 0x10 < x || x == own || (s.scratch[c]).hand.contains (b.val, x) then s
  else if x != 0x10 && (s.groupOwner (cluGrp c)).map (·.val) != some x then s.setRb (rCluStat c) 31 true
  else s.handBank c b x

/-- The strands homed on a cluster that hold a run-ahead result though their partition owns no bank there any more. -/
def State.banklessRa (s : State) (c : Clu) : List Strand :=
  s.strands.filter (fun t => t.home == c && t.ra.isSome && s.banksOf t.part c == 0)

/-- BANK_DRAIN_DONE (R408): no use or access is left in a draining bank; it is cleared and takes its new owner. Of a partition's last bank the
results of strands with an op queued or ready are a use that is left (R305), and every other result goes with it. -/
def bankDrainDone (c : Clu) (b : Fin 16) (s : State) : State :=
  match (s.scratch[c]).hand.find? (fun h => h.1 == b.val) with
  | some (_, x) =>
    if (s.banklessRa c).any s.raPinned then s
    else
      (((s.banklessRa c).foldl State.dropRa s).scrUpd c (fun y =>
        { y.clearBank b with hand := y.hand.filter (fun h => h.1 != b.val) })).setRf (rCluBankOwn c b) 0 5 x
  | none => s

/-- DRAINING of CLU_STAT (R410). -/
def State.cluStat (s : State) (c : Clu) : Word :=
  BitVec.ofNat 32 (s.rf (rCluStat c) 31 1 * 2 ^ 31 + (((s.scratch[c]).hand.map (fun h => 2 ^ (h.1 % 16))).eraseDups).sum)

/-! ### Readers of on-chip memory (R414, R418) -/

/-- Work that may read a line of on-chip memory: a program call, a session's step, another op, a strand's run-ahead. -/
inductive Reader where
  | thread (n : Thread)
  | item (c : Ctx) (k : Nat)
  | op (c : Ctx)
  | ahead (p : Part) (sid : Word)
deriving DecidableEq, Repr

/-- The work under way: in cluster `c`, or for partition `p` in any cluster. -/
def State.readers (s : State) (p? : Option Part) (c? : Option Clu) : List (Part × Reader) :=
  let at_ := fun (c : Clu) => c? == none || c? == some c
  let of := fun (p : Part) => p? == none || p? == some p
  let home := fun (p : Part) (sid : Word) => match s.strand? p sid with | some t => at_ t.home | none => false
  (s.threads.filter (fun t => t.2.inCall && at_ t.1.clu && of t.2.part)).map (fun t => (t.2.part, Reader.thread t.1)) ++
  (s.ctxs.filter (fun x => x.st == .ready && of x.part && !isControl (eOp x.entry))).flatMap (fun x =>
    if eOp x.entry == opSTEP_BATCH then
      (x.items.zipIdx.filter (fun i => i.1.begun && i.1.phase != .done &&
        (home x.part i.1.session || i.1.shares.any at_))).map (fun i => (x.part, Reader.item x.id i.2))
    else if eOp x.entry == opSPEC_VERIFY then (if home x.part (eSession x.entry) then [(x.part, Reader.op x.id)] else [])
    else if (s.ownClusters x.part).any at_ then [(x.part, Reader.op x.id)]
    else []) ++
  (s.strands.filter (fun t => t.raDue && at_ t.home && of t.part)).map (fun t => (t.part, Reader.ahead t.part t.session))

/-- One of the work under way, which a free value picks, or none (DESIGN CHOICE, log entry 32). -/
def State.pickReader (s : State) (l : List (Part × Reader)) : Option (Part × Reader) × State :=
  let (k, s) := s.freeBelow (l.length + 1)
  (l[k]?, s)

/-- An op, or one item of a STEP_BATCH, fails with a status; in a pair the compare comes first (R626). -/
def State.failPart (s : State) (x : OpCtx) (k : Option (Nat × BatchItem)) (st : BitVec 8) : State :=
  failGated (match k with | some (k, _) => .stepCommit x.id k | none => .completionWrite x.id) st (fun s => match k with | some (k, i) => s.failItem x k i st | none => s.opFail x st) s

/-- The read fails the work that makes it (R414, R418): the program call faults, at a thread address that is a free value (R399; DESIGN CHOICE, log
entry 32), the session's step or the op fails with the status, the strand's next step fails with it. What fails with MEM_POISON is counted (R429). -/
def State.consume (s : State) (r : Part × Reader) (st : BitVec 8) : State :=
  let s := if st == stPoison && !(match r.2 with | .thread _ => true | _ => false) then s.bump (rPrtPoisonCnt r.1) else s
  match r.2 with
  | .thread n =>
    let t := s.thread n
    match t.prog.bind (s.benv t.part) with
    | some e =>
      let (a, s) := s.freeBelow (2 ^ 64)
      s.threadFault n t e ⟨bfPOISON, 0, BitVec.ofNat 64 a⟩
    | none => s
  | .item c k =>
    match (s.ctx? c).bind (fun x => (x.items[k]?).map (fun i => (x, i))) with
    | some (x, i) => s.failPart x (some (k, i)) st
    | none => s
  | .op c => match s.ctx? c with | some x => s.failPart x none st | none => s
  | .ahead p sid => s.strandUpd p sid (fun t => { t with ra := some { epoch := t.epoch, fault := some st }, raDue := false })

/-- A line of a running call's WORK window is poisoned: its loads fault until a store covers it (R418). Which line, a free value says. -/
def State.poisonWork (s : State) (n : Thread) : State :=
  let t := s.thread n
  match t.prog.bind (s.benv t.part) with
  | some e =>
    let (k, s) := s.freeBelow (max 1 (bWORK e.hdr / 64))
    if bWORK e.hdr == 0 then s else s.setThread n { t with workTags := natInsert t.workTags k, poison := natInsert t.poison k }
  | none => s

/-- A poisoned line is read (R418): a call meets it in its WORK window, other work fails. -/
def State.poisonRead (s : State) (r : Part × Reader) : State :=
  match r.2 with
  | .thread n => s.poisonWork n
  | _ => s.consume r stPoison

/-! ### Errors in the on-chip memories (R417 to R421) -/

/-- A scratch line with an error found by the patrol, which reads written lines: `ue` tells an uncorrectable one. -/
def State.patrolLine (s : State) (c : Clu) (line : Nat) (ue : Bool) : State :=
  if (s.scratch[c]).tags.contains line then s.scratchError c line ue true else s

/-- PATROL_SCRUB (R421): every PERIOD_MS, the errors found in the cluster's written lines. -/
def patrolScrub (c : Clu) (errs : List (Fin 16384 × Bool)) (s : State) : State :=
  let n := s.rf (rCluPatrol c) 0 16
  if n == 0 || !s.cluOn c || !s.periodDue (0x20 + c.val) (n * 100000) then s
  else errs.foldl (fun s e => s.patrolLine c e.1 e.2) (s.periodMark (0x20 + c.val))

/-- The version whose section placement put at a VGS line (R220). -/
def State.vgsOwnerOf (s : State) (b line : Nat) : Option ObjVersion :=
  s.objs.find? (fun v => v.placed.any (fun x => x.2.1 == b && x.2.2.1 ≤ line && line < x.2.2.1 + x.2.2.2))

/-- Plaintext of the line that placement put at a VGS line (R220). -/
def State.vgsLine (s : State) (b line : Nat) : List Byte :=
  (s.objs.findSome? (fun v => v.placed.findSome? (fun x =>
    let (i, k, a, n) := x
    if k == b && a ≤ line && line < a + n then
      let before := ((v.placed.takeWhile (· != x)).filter (fun y => y.1 == i)).map (fun y => y.2.2.2)
      (v.sects[i]?).map (fun g => padTo 64 ((g.bytes.drop (64 * (before.sum + line - a))).take 64))
    else none))).getD (List.replicate 64 0#8)

/-- VGS_LINE_RELOAD (R411, R416, R419): a quad out of service takes no access; the 64 bytes are read from the
backing (R222), and the reload succeeds, or the backing read failed: the line is poisoned, and its reader gets poison. A reload of
a line that is poisoned tries again. -/
def vgsLineReload (b : Fin 32) (line : Fin 24576) (ok : Bool) (s : State) : State :=
  if !s.bankOn b then s
  else
  let k := b.val * bankLines + line.val
  let unwritten := !s.vgs.tagged k
  let s := s.bump rVgsEccUeCnt
  let s := match s.vgsOwnerOf b line with | some w => s.missLines w.part 1 | none => s
  let s := if ok then s else s.bump rVgsReloadFail
  let s := if s.rb rVgsEccLast 31 then s
    else s.setReg rVgsEccLast (BitVec.ofNat 32 (2 ^ 31 + (if ok then 0 else 2 ^ 30) + (if unwritten then 2 ^ 29 else 0) +
      b.val * 2 ^ 20 + line.val * 2 ^ 5))
  let v := if unwritten then s.vgs.tag k 1 else s.vgs
  if ok then { s with vgs := { v with poison := v.poison.filter (· != k) } }
  else
    let s := { s with vgs := { v with poison := natInsert v.poison k } }
    match s.vgsOwnerOf b line with
    | none => s
    | some w =>
      match s.pickReader (s.readers (some w.part) none) with
      | (some r, s) => s.consume r stPoison
      | (none, s) => s

/-! ### The fabric interface (R430 to R441) -/

/-- The register that names a request's stream (R431). -/
def sidReg (q : FabReq) : Nat := match q.part with | some p => rGlbFabSid p | none => rGlbFabSidInst
/-- Stream identifier that a request carries (R431): what the register held when the request entered the fabric interface, before a write in that
cycle (R442). -/
def State.fabSid (s : State) (q : FabReq) : Nat :=
  match s.sidLog.find? (fun w => w.2.1 == sidReg q && q.at_ ≤ w.1) with
  | some w => fld w.2.2 0 16
  | none => s.rf (sidReg q) 0 16

/-- Set a bit of GLB_FAB_ERR; the first error is latched (R439, R440). -/
def State.fabErr (s : State) (q : FabReq) (i : Nat) : State :=
  let s := if s.rf rGlbFabErr 0 4 != 0 then s
    else (s.setReg64 rGlbFabErrAddr q.addr).setReg rGlbFabErrSrc (BitVec.ofNat 32 (
      (match q.part with | some p => p.val * 2 ^ 24 | none => 2 ^ 31) + q.master.toNat * 2 ^ 16 + s.fabSid q))
  s.setRb rGlbFabErr i true

/-- What a request serves and a failure would end: an op that has not committed, or an item of a STEP_BATCH that has not ended. -/
def State.served (s : State) (q : FabReq) : Option (OpCtx × Option (Nat × BatchItem)) :=
  match q.ctx.bind s.ctx? with
  | none => none
  | some x =>
    if x.st == .past then none
    else if eOp x.entry != opSTEP_BATCH then some (x, none)
    else
      match q.item.bind (fun k => (x.items[k]?).map (fun i => (k, i))) with
      | some (k, i) => if i.phase == .done then none else some (x, some (k, i))
      | none => some (x, none)
/-- It fails with a status. -/
def State.failServed (s : State) (y : OpCtx × Option (Nat × BatchItem)) (st : BitVec 8) : State := s.failPart y.1 y.2 st

/-- A read of the ring engine for a ring failed (R68). -/
def ringFetch (q : FabReq) : Option Ring := if q.master == 0x45#8 && !q.write then q.ring else none

/-- A VGS line whose backing read failed is not reloaded (R419). -/
def State.fillFailed (s : State) (q : FabReq) : State :=
  match q.dest with
  | some (.vgs b l) => vgsLineReload b l false s
  | _ => s

/-- The read of a warm copy for a REVIVE or LOCKET_EXPORT (R458, R461), and the copy that it reads. -/
def State.warmRead (s : State) (q : FabReq) (x : OpCtx) : Option Nat :=
  if q.write || !(q.master == 0x41#8 || q.master == 0x42#8) || !(eOp x.entry == opREVIVE || eOp x.entry == opEXPORT) then none
  else (s.locket? x.part (eSession x.entry)).bind (fun l => (s.goodWarm x l).head?)
/-- A request fails what it serves; a failed read of a warm copy makes that copy unreadable instead (R459). -/
def State.failRequest (s : State) (q : FabReq) (st : BitVec 8) : State :=
  match s.served q with
  | none => s
  | some y =>
    match s.warmRead q y.1 with
    | some a => s.ctxUpd y.1.id (fun z => { z with badWarm := z.badWarm ++ [a] })
    | none => (if st == stPoison then s.bump (rPrtPoisonCnt y.1.part) else s).failServed y st

/-- An error response, or a timeout (R433): the op fails with PERM_DENIED, a reload fails; a ring fetch posts RING_ERROR cause 3, a
completion write cause 4 with the op's TAG and the lost index; an event write that failed is lost (R71, R89, R99). -/
def State.fabFail (s : State) (q : FabReq) : State :=
  let s := (s.failRequest q stPermDenied).fillFailed q
  if q.master != 0x45#8 then s
  else
    match q.ring, q.part with
    | some r, _ => if q.write then s.cqWriteFailed r q.addr.toNat else s.sqFail r
    | none, some p => if q.write then s.evqWriteFailed p q.addr.toNat else s
    | none, none => s

/-- Poisoned read data (R418, R419, R433): the destination line is written and poisoned, and what consumes it fails; a ring fetch stops (R68). -/
def State.fabPoison (s : State) (q : FabReq) : State :=
  let s := match q.dest with
    | some (.scratch c l) => s.scrUpd c (fun y => (y.write l false).mark l)
    | some (.work n l) => s.setThread n { (s.thread n) with
        workTags := natInsert (s.thread n).workTags l, poison := natInsert (s.thread n).poison l }
    | _ => s.fillFailed q
  match ringFetch q with
  | some r => s.sqFail r
  | none => s.failRequest q stPoison

/-- Read data (R413, R418): a whole line of scratch is written clean. -/
def State.fabData (s : State) (q : FabReq) : State :=
  match q.dest with
  | some (.scratch c l) => if q.write then s else s.scrUpd c (fun y => y.write l (64 ≤ q.len))
  | _ => s

/-- The request's master was reset after the request had entered: its response is awaited and dropped (R435, R436). -/
def State.fabDropped (s : State) (q : FabReq) : Bool :=
  s.fabCut.any (fun c => q.at_ ≤ c.2 && (c.1 == 0x100 || c.1 == q.master.toNat ||
    (match q.dest with | some (.vgs b _) => c.1 == 0x200 + b.val / 8 | _ => false)))
/-- AON cycle in which a request times out (R434, R437): values of TMO below 10 act as 10. -/
def State.fabDue (s : State) (q : FabReq) : Nat := q.at_ + max 10 (s.rf rGlbFabCfg 0 16) * 100

/-- A write of the ring engine is a completion's or an event's, whose slot keeps its earlier contents when the write fails (R71, R89). -/
def fabSlotWrite (q : FabReq) : Bool := q.master == 0x45#8 && q.write
/-- A request has had no response in time (R434, R627): handled as an error response; the bytes of a timed-out write are undefined, but for a
completion's or an event's slot (R71, R89; DEDUCED, log entry 19). -/
def State.fabExpire (s : State) (q : FabReq) : State :=
  let s := ((s.fabErr q (if q.write then 2 else 1)).setRb rGlbFabErr 3 true).fabFail q
  let s := if q.write && !fabSlotWrite q then s.spoil q.addr.toNat q.len else s
  ({ s with fabLate := natInsert s.fabLate q.id }).faultEvent 5 q.master.toNat
/-- A late response is discarded and counted (R434). -/
def State.fabDiscard (s : State) (q : FabReq) : State :=
  ({ s with fabLate := s.fabLate.filter (· != q.id) }).bump rGlbFabLate

/-- A response that comes while a reset of the fabric interface waits for it: it is discarded, and the op with the access fails with RESET_ABORT,
its output invalid (R435, R436). -/
def State.fabEnded (s : State) (q : FabReq) : State :=
  match s.served q with
  | some y => (s.opFail y.1 stResetAbort).spoilOut y.1
  | none => s

/-- FABRIC_RESPONSE (R433, R434): 0 OK, 1 poison, other values error. A response in the cycle in which TMO expires is accepted (R442). -/
def fabricResponse (q : FabReq) (resp : BitVec 2) (s : State) : State :=
  if s.fabDropped q then s
  else if s.quiet 0x4A then s.fabEnded q
  else if s.fabLate.contains q.id then s.fabDiscard q
  else if s.fabDue q < s.time then (s.fabExpire q).fabDiscard q
  else if resp == 0#2 then s.fabData q
  else if resp == 1#2 then (if q.write then s else (s.fabErr q 0).fabPoison q)
  else (s.fabErr q (if q.write then 2 else 1)).fabFail q

/-- FABRIC_TIMEOUT (R434). -/
def fabricTimeout (q : FabReq) (s : State) : State :=
  if s.fabDropped q || s.quiet 0x4A || s.fabLate.contains q.id || s.time < s.fabDue q then s else s.fabExpire q

/-- BANK_OWNER_WRITE. -/
def execBankOwnerWrite (c : Clu) (b : Fin 16) (v : Word) (s : State) : Host.Outcome State Fault Refusal := runWrite (rCluBankOwn c b) v (bankOwnerWrite c b v) s
/-- BANK_DRAIN_DONE. -/
def execBankDrainDone (c : Clu) (b : Fin 16) (s : State) : Host.Outcome State Fault Refusal := run (bankDrainDone c b) s
/-- PATROL_SCRUB. -/
def execPatrolScrub (c : Clu) (errs : List (Fin 16384 × Bool)) (s : State) : Host.Outcome State Fault Refusal := run (patrolScrub c errs) s
/-- VGS_LINE_RELOAD. -/
def execVgsLineReload (b : Fin 32) (line : Fin 24576) (ok : Bool) (s : State) : Host.Outcome State Fault Refusal :=
  run (vgsLineReload b line ok) s
/-- FABRIC_RESPONSE. -/
def execFabricResponse (q : FabReq) (resp : BitVec 2) (s : State) : Host.Outcome State Fault Refusal := run (fabricResponse q resp) s
/-- FABRIC_TIMEOUT. -/
def execFabricTimeout (q : FabReq) (s : State) : Host.Outcome State Fault Refusal := run (fabricTimeout q) s

end Sys2Proof.Machine
end

