-- ==== Sys2Proof/Machine/Power.lean ====
section
/-! DEFINITION. Sys2Proof/Machine/Power.lean: power domains, operating points, the slack governor, the power cap, the thermal trip and the
placement loop (R601 to R618, R649, R650, R654, R675). -/
namespace Sys2Proof.Machine
open Sys2Proof

/-! ### Voltage segments and operating points (R606, R649, R650) -/

/-- VDD_CORE of a point in mV, before trim. -/
def pointMv : List Nat := [600, 615, 630, 650, 670, 690, 710, 730, 750, 785, 820, 860, 900]
/-- Trim of a segment in mV, from the fuse words. -/
def State.trim (s : State) (seg : Nat) : Int := Config.trim ((List.range 16).map (fun i => s.reg (rFusWord (0xC0 + i)))) seg
/-- Code of a voltage in mV: the nearest multiple of 5 mV. -/
def codeOf (mv : Int) : Nat := ((mv * 2 + 5) / 10).toNat
/-- Code of a point on a group segment, held within 0.60 to 0.90 V. -/
def State.pointCode (s : State) (g : Grp) (i : Nat) : Nat := max 120 (min 180 (codeOf (pointMv.getD i 900 + s.trim g)))
/-- Code of the common segment. -/
def State.commonCode (s : State) : Nat := codeOf (750 + s.trim 16)

/-- The segment of a group. -/
def segOf (g : Grp) : Fin 17 := ⟨g.val, by omega⟩
/-- Update a segment. -/
def State.vsegUpd (s : State) (g : Fin 17) (f : VSeg → VSeg) : State := { s with vseg := vset s.vseg g f }
/-- The handshake is at rest: REQ and ACK are low. -/
def VSeg.rest (v : VSeg) : Bool := !v.req && !v.ack

/-- Raise REQ with a code (step 1 of R650); `want` is the point that the acknowledgement lets the group take. -/
def State.vsegRequest (s : State) (g : Grp) (code : Nat) (want : Option Nat) : State :=
  s.vsegUpd (segOf g) (fun v => { v with req := true, code := code, reqAt := s.time, want := want })

/-- POINT, CAP_LIMIT, and the bounds of R607. -/
def State.grpPoint (s : State) (g : Grp) : Nat := s.rf (rPwrGrpStat g) 20 4
def State.capLimit (s : State) (g : Grp) : Nat := s.rf (rPwrGrpStat g) 24 4
def State.grpHi (s : State) (g : Grp) : Nat := min (s.grpCeil g) (s.capLimit g)
def State.grpLo (s : State) (g : Grp) : Nat := min (s.grpFloor g) (s.grpHi g)
def State.grpPin (s : State) (g : Grp) : Bool := s.rb (rPwrGrpBound g) 31

/-- A powered group: one of its clusters is in service. -/
def State.grpOn (s : State) (g : Grp) : Bool := (List.finRange 64).any (fun c => cluGrp c == g && s.cluOn c)

/-- RISK sets (R611): one DEADLINE_RISK event to the owner. -/
def State.setRisk (s : State) (g : Grp) : State :=
  if s.rb (rPwrGrpStat g) 31 then s
  else
    let s := (s.setRb (rPwrGrpStat g) 31 true).grpUpd g (fun x => { x with cool := 0 })
    match s.groupOwner g with
    | some p => s.post p 0x08 0 none noSession 0#64 (BitVec.ofNat 64 g.val)
    | none => s
/-- RISK clears. -/
def State.clearRisk (s : State) (g : Grp) : State :=
  (s.setRb (rPwrGrpStat g) 31 false).grpUpd g (fun x => { x with hot := 0, cool := 0 })

/-- CAPPED and BELOW_FLOOR of a group, and CAP_ACTIVE and BELOW_FLOOR of the instance, after a limit, a bound or a point changed (R607,
R612, R615). A group runs below its floor when its cap limit is below it; RISK follows. -/
def State.grpEval (s : State) (g : Grp) : State :=
  let was := s.rb (rPwrGrpStat g) 30
  let now := s.grpOn g && s.capLimit g < s.grpFloor g && s.grpPoint g < s.grpFloor g
  let s := (s.setRb (rPwrGrpStat g) 30 now).setRb (rPwrGrpStat g) 29 (s.capLimit g < s.grpCeil g)
  let s := (s.setRb rPwrStat 31 (s.rf rPwrStat 28 2 != 0 || (List.finRange 16).any (fun k => s.rb (rPwrGrpStat k) 29))).setRb rPwrStat 30
    ((List.finRange 16).any (fun k => s.rb (rPwrGrpStat k) 30))
  if now && !was then s.setRisk g else s

/-- The point changes to `i`, counted and traced (R606, R615, R661). -/
def State.movePoint (s : State) (g : Grp) (i : Nat) : State :=
  let up := s.grpPoint g < i
  let s := s.setRf (rPwrGrpStat g) 20 4 i
  let s := if up then s.bumpBy (rPwrGrpCnt g) 16 16 1 else s.bumpBy (rPwrGrpCnt g) 0 16 1
  (s.trace' 8 none noSession 0#32 none 0 (g.val * 16 + i) 0).grpEval g

/-- After a lowering, the lower voltage is requested once the handshake is at rest. -/
def State.vsegFollow (s : State) (g : Grp) : State :=
  let v := s.vseg[segOf g]
  let code := s.pointCode g (s.grpPoint g)
  if v.rest && s.grpOn g && code != v.held then s.vsegRequest g code none else s

/-- Lower to `i` one point at a time, then request the voltage; `n` bounds the points. -/
def State.lowerTo (s : State) (g : Grp) (i : Nat) : Nat → State
  | 0 => s
  | n + 1 => if i < s.grpPoint g then (s.movePoint g (s.grpPoint g - 1)).lowerTo g i n else s

/-- Raise by one point: the voltage is requested first. -/
def State.raiseOne (s : State) (g : Grp) : State :=
  if (s.vseg[segOf g]).rest then s.vsegRequest g (s.pointCode g (s.grpPoint g + 1)) (some (s.grpPoint g + 1)) else s

/-- Bring a powered group within its bounds after one of them changed: down at once, up step by step. -/
def State.settle (s : State) (g : Grp) : State :=
  let s := s.grpEval g
  if !s.grpOn g then s
  else
    let top := if s.grpPin g then s.grpLo g else s.grpHi g
    let s := (s.lowerTo g top 16).vsegFollow g
    if s.grpPoint g < s.grpLo g then s.raiseOne g else s

/-- VSEG_ACK (R606, R650): the voltage stands, REQ is lowered, and a raise that is still within bounds takes effect. -/
def vsegAck (g : Fin 17) (s : State) : State :=
  let v := s.vseg[g]
  if !v.req || v.ack then s
  else
    let s := s.vsegUpd g (fun v => { v with req := false, ack := true, held := v.code })
    if h : g.val < 16 then
      let k : Grp := ⟨g.val, h⟩
      match v.want with
      | some i =>
        if s.grpOn k then
          let s := s.vsegUpd g (fun v => { v with want := none })
          if i ≤ s.grpHi k && i == s.grpPoint k + 1 then s.movePoint k i else s
        else s
      | none => s
    else s

/-- The first cluster of a group that is off needs the voltage of point 8 within the group's bounds (R650), as soon as the handshake is at rest. -/
def State.grpVolt (s : State) (g : Grp) : State :=
  if s.grpOn g || (s.vseg[segOf g]).want.isSome || !(s.vseg[segOf g]).rest then s
  else
    let i := max (s.grpLo g) (min 8 (s.grpHi g))
    s.vsegRequest g (s.pointCode g i) (some i)
/-- A cluster of the group wakes. -/
def State.grpWakes (s : State) (g : Grp) : Bool := s.waking.any (fun d => d.val < 64 && d.val / 4 == g.val)

/-- VSEG_ACK_LOWERED (R650): the handshake is over; a group still outside its bounds, or at another voltage than its point's, goes on; one that is off
and has a cluster in wake requests its voltage. -/
def vsegAckLowered (g : Fin 17) (s : State) : State :=
  if !(s.vseg[g]).ack then s
  else
    let s := s.vsegUpd g (fun v => { v with ack := false })
    if h : g.val < 16 then
      let k : Grp := ⟨g.val, h⟩
      if !s.grpOn k then (if s.grpWakes k then s.grpVolt k else s)
      else if s.grpPoint k < s.grpLo k then s.raiseOne k
      else s.vsegFollow k
    else s

/-- VSEG_ACK_TIMEOUT (R606, R650): no ACK within 100 µs of REQ: REQ is lowered, the segment returns to the previous code; the governor asks
again at its next interval, for a group that wakes too. -/
def vsegAckTimeout (g : Fin 17) (s : State) : State :=
  let v := s.vseg[g]
  if !v.req || v.ack || s.time < v.reqAt + 10000 then s
  else
    s.vsegUpd g (fun v => { v with req := false, code := v.held, want := none })

/-! ### Power domains (R601 to R605) -/

/-- Place of its request bit; none for the control complex and AON. -/
def offBit (d : Fin 73) : Option (Nat × Nat) :=
  if d.val == 68 || d.val == 72 then none
  else (domBit d).map (fun x => if d.val < 64 then (x.1 - rPwrDomStat + rPwrDomOff, x.2) else (rPwrDomSys, x.2))
/-- Put a domain in or out of service. -/
def State.setDom (s : State) (d : Fin 73) (on : Bool) : State := match domBit d with | some (o, i) => s.setRb o i on | none => s
/-- Requested off. -/
def State.offAsked (s : State) (d : Fin 73) : Bool := match offBit d with | some (o, i) => s.rb o i | none => false

/-- Some partition is enabled. -/
def State.anyEnabled (s : State) : Bool := (List.finRange 16).any s.enabled

/-- A domain may be off (R601). -/
def State.mayOff (s : State) (d : Fin 73) : Bool :=
  if h : d.val < 64 then (s.groupOwner (cluGrp ⟨d.val, h⟩)).isNone
  else if d.val < 68 then (List.range 8).all (fun k => (s.vgsOwner (8 * (d.val - 64) + k)).isNone)
  else if d.val == 68 || d.val == 72 then false
  else !s.anyEnabled

/-- A domain that has no cluster in service can never be on (R16). -/
def State.domExists (s : State) (d : Fin 73) : Bool := 64 ≤ d.val || bit (s.reg64 rGlbCluMap) d.val

/-- Registers in [a, b) at their Reset values, but those that `keep` names. -/
def State.resetRegs (s : State) (a b : Nat) (keep : Nat → Bool) : State :=
  { s with regs := s.regs.filter (fun x => !(a ≤ x.1 && x.1 < b) || keep x.1) }

/-- A cluster without content: memories, threads, run-ahead results and registers but CLU_BANK_OWN (R411, R412, R591). -/
def State.clearCluster (s : State) (c : Clu) : State :=
  let s := s.scrUpd c (fun x => { x with tags := [], poison := [] })
  let s : State := { s with
    imem := s.imem.filter (fun l => l.1.clu != c)
    threads := s.threads.filter (fun t => t.1.clu != c)
    strands := s.strands.map (fun t => if t.home == c then { t with ra := none, raDue := false } else t) }
  s.resetRegs (rCluStat c) (rCluBankOwn c 0 + 0x10000) (fun _ => false)

/-- The sections placed in a VGS quad are read from the backing until the next placement (R412, R591). -/
def State.unplaceQuad (s : State) (q : Nat) : State :=
  { s with objs := s.objs.map (fun v => v.unplace (fun b => b / 8 == q)) }
/-- A VGS quad without content (R412, R591). -/
def State.clearQuad (s : State) (q : Nat) : State := { s.unplaceQuad q with vgs := s.vgs.clear (fun b => b / 8 == q) }

/-- The park controller without content (R489, R591). -/
def State.clearPark (s : State) : State :=
  { s with chans := s.chans.map FlashChan.restart, lockets := s.lockets.map Locket.restart }
/-- Each channel is brought up again (R475, R591). -/
def State.bringUpAll (s : State) : State :=
  (List.finRange 16).foldl (fun s c => s.bringUp c ((s.chans[c]).dies.toList.map (·.info))) s

/-- A group whose clusters are all off has no point and no request (R602, R650). -/
def State.grpDown (s : State) (g : Grp) : State :=
  if s.grpOn g then s
  else ((s.setRf (rPwrGrpStat g) 20 4 0).vsegUpd (segOf g) (fun v => { v with req := false, want := none })).grpEval g

/-- A domain goes off: none of its content survives (R603). -/
def State.sleep (s : State) (d : Fin 73) : State :=
  let s := s.setDom d false
  if h : d.val < 64 then (s.clearCluster ⟨d.val, h⟩).grpDown (cluGrp ⟨d.val, h⟩)
  else if d.val < 68 then s.clearQuad (d.val - 64)
  else
    match d.val with
    | 69 => { (s.clearPark.resetRegs 0x900000 0x902000 (fun _ => false)) with indexOk := false }
    | 70 => { (s.resetRegs (rSecKeyIn 0) (rSecKeyStat + 4) (fun _ => false)) with
              parts := s.parts.map (fun x => { x with ak := Vector.replicate 2 none }) }
    | 71 => { (s.resetRegs rGlbFabCfg (rGlbFabSid 16) (fun _ => false)) with fabLate := [] }
    | _ => s

/-- An access to or from the domain is in flight (step 2 of a sleep in R603): an op has work in the cluster. Nothing else that works on a
domain outlasts the commands of this model (DEDUCED, log entry 32). -/
def State.domBusy (s : State) (d : Fin 73) : Bool :=
  if h : d.val < 64 then s.ctxs.any (fun x => x.st == .ready && s.usesCluster x ⟨d.val, h⟩) else false
/-- A sleep at its step 1 (R603): no work is placed on the domain, and it goes off once nothing is in flight there. -/
def State.sleepWaits (s : State) (d : Fin 73) : State := { s with sleeping := s.sleeping.filter (· != d) ++ [d] }
/-- The sleeps whose last access has ended go on. -/
def State.sleepDue (s : State) : State :=
  (s.sleeping.filter (fun d => !s.domBusy d)).foldl (fun s d => ({ s with sleeping := s.sleeping.filter (· != d) } : State).sleep d) s

/-- An off request or a gain of this cycle is noted. -/
def State.noteDom (s : State) (gain : Bool) (d : Fin 73) : State :=
  { s with domLog := s.domLog.filter (fun x => x.1 == s.time) ++ [(s.time, gain, d)] }

/-- DOMAIN_OFF_REQUEST (R601, R602): the request bit is set; the domain goes off when it may at the time of the write, else OFF_REJECT. A commit of
the same cycle that gives the domain to a partition wins: the bit clears (R618). -/
def domainOffRequest (d : Fin 73) (s : State) : State :=
  match offBit d with
  | none => s
  | some (o, i) =>
    let s := s.noteDom false d
    if s.domLog.contains (s.time, true, d) then (s.setRb o i false).setRb rPwrStat 27 true
    else
    let s := s.setRb o i true
    if s.mayOff d then
      let s := { s with waking := s.waking.filter (· != d) }
      if !s.domOn d then s else if s.domBusy d then s.sleepWaits d else s.sleep d
    else if s.domExists d then s.setRb rPwrStat 27 true
    else s

/-- DOMAIN_WAKE (R602, R603): the request bit is cleared, and the domain wakes. -/
def domainWake (d : Fin 73) (s : State) : State :=
  let s := match offBit d with | some (o, i) => s.setRb o i false | none => s
  let s := { s with sleeping := s.sleeping.filter (· != d) }
  if (offBit d).isNone || s.domOn d || !s.domExists d || s.waking.contains d then s
  else
    let s := { s with waking := s.waking ++ [d] }
    if h : d.val < 64 then s.grpVolt (cluGrp ⟨d.val, h⟩) else s

/-- The voltage of a group that wakes is acknowledged. -/
def State.voltReady (s : State) (g : Grp) : Bool :=
  s.grpOn g ||
    (match (s.vseg[segOf g]).want with
     | some i => !(s.vseg[segOf g]).req && (s.vseg[segOf g]).held == s.pointCode g i
     | none => false)

/-- The first cluster of a group in service gives the group its point. -/
def State.grpUp (s : State) (g : Grp) : State :=
  match (s.vseg[segOf g]).want with
  | some i => if s.grpOn g then s else (s.setRf (rPwrGrpStat g) 20 4 i).vsegUpd (segOf g) (fun v => { v with want := none })
  | none => s

/-- DOMAIN_WAKE_DONE (R411, R603): memories cleared, registers at their Reset values, in service. -/
def domainWakeDone (d : Fin 73) (s : State) : State :=
  if !s.waking.contains d then s
  else if h : d.val < 64 then
    let c : Clu := ⟨d.val, h⟩
    if !s.voltReady (cluGrp c) then s
    else ((({ (s.grpUp (cluGrp c)) with waking := s.waking.filter (· != d) } : State).clearCluster c).setDom d true).settle (cluGrp c)
  else
    let s := ({ s with waking := s.waking.filter (· != d) } : State).setDom d true
    if d.val == 69 then s.bringUpAll.restartMoves else if d.val < 68 then s.clearQuad (d.val - 64) else s

/-! ### The slack governor (R608, R611) -/

/-- One interval of a group's governor, under the bounds and configuration that the cycle began with (R618): U is a free value, since the beads' cycles are not part of the model (DESIGN CHOICE, log entry 2). -/
def State.govern (s : State) (g : Grp) : State :=
  if !s.grpOn g then (if s.grpWakes g then s.grpVolt g else s)
  else
    let x := s.grp[g]
    let o := s.cycleStart
    let (u, s) := s.freeBelow 101
    let hi := o.grpHi g
    let lo := o.grpLo g
    let cur := s.grpPoint g
    let raise := (match x.slack with | some n => n < s.rf rPwrGovSlack 0 12 | none => false) || o.rf rPwrGovCfg 24 8 ≤ u || x.missed
    let lower := (match x.slack with | some n => s.rf rPwrGovSlack 16 12 ≤ n | none => true) && u ≤ o.rf rPwrGovCfg 16 8
    let hot := if raise && cur == hi && hi < 12 then x.hot + 1 else 0
    let cool := if !raise && !s.rb (rPwrGrpStat g) 30 then x.cool + 1 else 0
    let s := s.grpUpd g (fun _ => { hot := hot, cool := cool })
    let s := ((s.setRb (rPwrGrpStat g) 28 x.missed).setRf (rPwrGrpStat g) 13 7 u).setRf (rPwrGrpStat g) 0 12
      (min 4095 (x.slack.getD 4095))
    let s := if max 1 (o.rf rPwrGovCfg 12 4) ≤ hot then s.setRisk g else s
    let s := if s.rb (rPwrGrpStat g) 31 && 16 ≤ cool then s.clearRisk g else s
    let want := if raise then cur + 1 else if lower then cur - 1 else cur
    let target := if o.grpPin g then lo else max lo (min want hi)
    if cur < target then s.raiseOne g
    else if target < cur then (s.movePoint g (cur - 1)).vsegFollow g
    else s.vsegFollow g

/-- GOVERNOR_INTERVAL (R608, R613): at the end of each interval of INTERVAL_US. -/
def governorInterval (s : State) : State :=
  if !s.periodDue 1 (max 100 (s.cycleStart.rf rPwrGovCfg 0 12) * 100) then s
  else (List.finRange 16).foldl State.govern (s.periodMark 1)

/-! ### The power cap (R610) and the thermal trip (R654) -/

/-- WATTS in force. -/
def State.watts (s : State) : Nat := max 40 (min 120 (s.rf rPwrCap 0 8))
/-- lower(g). -/
def State.capLower (s : State) (g : Grp) : Nat :=
  if (List.finRange 16).any (fun k => s.grpOn k && s.grpFloor k < s.grpPoint k) then s.grpFloor g else 0
/-- Set a cap limit; a lowered one takes effect in the same tick. -/
def State.setLimit (s : State) (g : Grp) (i : Nat) : State := (s.setRf (rPwrGrpStat g) 24 4 i).settle g
/-- Set GATE. -/
def State.setGate (s : State) (n : Nat) : State := (s.setRf rPwrStat 28 2 n).grpEval 0

/-- Is `a` chosen before `b` by pick()? Highest point, then largest S, then lowest U; the caller goes by ascending index. -/
def State.picksBefore (s : State) (a b : Grp) : Bool :=
  let f := fun (g : Grp) => (s.grpPoint g, s.rf (rPwrGrpStat g) 0 12, s.rf (rPwrGrpStat g) 13 7)
  let x := f a
  let y := f b
  y.1 < x.1 || (x.1 == y.1 && (y.2.1 < x.2.1 || (x.2.1 == y.2.1 && x.2.2 < y.2.2)))
/-- The best element of a list by an order, the earliest of equals. -/
def firstBest {α : Type} (before : α → α → Bool) (l : List α) : Option α :=
  l.foldl (fun m x => match m with | none => some x | some y => if before x y then some x else some y) none

/-- CAP_TICK (R610, R654), every 10 µs: the estimate is a free value in units of 0.1 W (DESIGN CHOICE, log entry 2). -/
def capTick (s : State) : State :=
  if !s.periodDue 0 1000 then s
  else
  let (e, s) := (s.periodMark 0).freeBelow 65536
  let es := (e :: s.ests).take 10
  let s := ({ s with ests := es } : State).setRf rPwrStat 0 16 (es.sum / es.length)
  let w := s.watts
  if s.rb rGlbTemp 31 then ((List.finRange 16).foldl (fun s g => s.setLimit g 0) s).setGate 3
  else if 105 * w < 10 * e then
    let gs := (List.finRange 16).filter (fun g => s.grpOn g && s.capLower g < s.grpPoint g)
    gs.foldl (fun s g => s.setLimit g (s.grpPoint g - 1)) s
  else if 97 * w < 10 * e then
    match firstBest s.picksBefore ((List.finRange 16).filter (fun g => s.grpOn g && s.capLower g < s.grpPoint g)) with
    | some g => s.setLimit g (s.grpPoint g - 1)
    | none => s.setGate (min 3 (s.rf rPwrStat 28 2 + 1))
  else if 10 * es.sum < 92 * w * es.length && s.raisedAt + 10000 ≤ s.time then
    let r := { s with raisedAt := s.time }
    if s.rf rPwrStat 28 2 != 0 then r.setGate (s.rf rPwrStat 28 2 - 1)
    else
      match firstBest (fun a b => s.capLimit a < s.capLimit b) ((List.finRange 16).filter (fun g => s.capLimit g < s.grpCeil g)) with
      | some g => r.setLimit g (s.capLimit g + 1)
      | none => s
  else s

/-- TRIP_C in force (R655). -/
def State.tripC (s : State) : Int := max 106 (min 125 (s.rf rGlbTemp 0 8 : Int))

/-- THERMAL_SAMPLE (R654), every 100 µs: the hottest sensor, signed; the trip ends after 10 ms below TRIP_C − 10 °C. -/
def thermalSample (maxC : BitVec 8) (s : State) : State :=
  if !s.periodDue 2 10000 then s
  else
  let t := maxC.toInt
  let s := (s.periodMark 2).setRf rGlbTemp 8 8 maxC.toNat
  if s.tripC ≤ t then
    let s := if s.rb rGlbTemp 31 then s else (s.setRb rGlbTemp 31 true).setRb rGlbTemp 30 true
    { s with coolAt := none }
  else if t < s.tripC - 10 then
    match s.coolAt with
    | none => { s with coolAt := some s.time }
    | some a => if a + 1000000 ≤ s.time then s.setRb rGlbTemp 31 false else s
  else { s with coolAt := none }

/-! ### The placement loop (R616, R675) -/

/-- Clusters that the placement loop balances. -/
def State.placeClusters (s : State) (p : Part) : List Clu :=
  (s.ownClusters p).filter (fun c => s.cluOn c && !s.rb (rPrtPlacePin p) (cluGrp c))
/-- load(c). -/
def State.cluLoad (s : State) (p : Part) (c : Clu) : Nat :=
  ((s.strands.filter (fun t => t.part == p && t.home == c)).map s.strandCost).sum

/-- A strand moves to another home (R147, R305): its run-ahead result goes along when it fits there. -/
def State.rehome (s : State) (t : Strand) (c : Clu) : State :=
  let ra := match t.ra with
    | some r => if s.raUsed t.part c + r.size ≤ s.raArea t.part then some r else none
    | none => none
  let u := { t with home := c, ra := ra }
  (s.strandUpd t.part t.session (fun _ => u)).wrBytes (s.descAddr t.part t.slot + 64) u.line1

/-- Moves of one period; `n` bounds them. -/
def State.placeMoves (s : State) (p : Part) (cs : List Clu) : Nat → State
  | 0 => s
  | n + 1 =>
    let total := (cs.map (s.cluLoad p)).sum
    match firstBest (fun a b => s.cluLoad p b < s.cluLoad p a) cs, firstBest (fun a b => s.cluLoad p a < s.cluLoad p b) cs with
    | some h, some l =>
      if s.cluLoad p h * 100 * cs.length ≤ total * (100 + s.rf (rPrtPlace p) 8 8) then s
      else
        match ((s.candidates p (s.idleMin p)).filter (fun t => t.home == h)).head? with
        | none => s
        | some t =>
          if s.cluLoad p h ≤ s.cluLoad p l + s.strandCost t then s
          else ((s.rehome t l).bump (rPrtPlaceCnt p)).placeMoves p cs n
    | _, _ => s

/-- PLACEMENT_PERIOD (R616, R617): every PERIOD_MS. -/
def placementPeriod (p : Part) (s : State) : State :=
  if !s.periodDue (0x10 + p.val) (max 1 (s.rf (rPrtPlace p) 0 8) * 100000) then s
  else
    let s := s.periodMark (0x10 + p.val)
    if s.enabled p && s.rb (rPrtPlace p) 31 then s.placeMoves p (s.placeClusters p) (s.rf (rPrtPlace p) 16 12) else s

/-- A primary forwards what the write of a request bit puts in its register (R602, R619): PWR_DOM_OFF as a pair, or PWR_DOM_SYS. -/
def State.forwardDom (s : State) (d : Fin 73) (on : Bool) : State :=
  match offBit d with
  | none => s
  | some (o, i) =>
    if d.val < 64 then
      let v := setFld (s.reg64 rPwrDomOff) d.val 1 (if on then 1 else 0)
      (s.forwardWrite rPwrDomOff (v.setWidth 32)).forwardWrite (rPwrDomOff + 4) ((v >>> 32).setWidth 32)
    else s.forwardWrite o (setFld (s.reg o) i 1 (if on then 1 else 0))

/-- VSEG_ACK. -/
def execVsegAck (g : Fin 17) (s : State) : Host.Outcome State Fault Refusal := run (vsegAck g) s
/-- VSEG_ACK_LOWERED. -/
def execVsegAckLowered (g : Fin 17) (s : State) : Host.Outcome State Fault Refusal := run (vsegAckLowered g) s
/-- VSEG_ACK_TIMEOUT. -/
def execVsegAckTimeout (g : Fin 17) (s : State) : Host.Outcome State Fault Refusal := run (vsegAckTimeout g) s
/-- DOMAIN_OFF_REQUEST. -/
def execDomainOffRequest (dom : Fin 73) (s : State) : Host.Outcome State Fault Refusal := 
  run (fun s => domainOffRequest dom (s.forwardDom dom true)) s
/-- DOMAIN_WAKE. -/
def execDomainWake (dom : Fin 73) (s : State) : Host.Outcome State Fault Refusal := 
  run (fun s => domainWake dom (s.forwardDom dom false)) s
/-- DOMAIN_WAKE_DONE. -/
def execDomainWakeDone (dom : Fin 73) (s : State) : Host.Outcome State Fault Refusal := run (domainWakeDone dom) s
/-- GOVERNOR_INTERVAL. -/
def execGovernorInterval (s : State) : Host.Outcome State Fault Refusal := run governorInterval s
/-- CAP_TICK. -/
def execCapTick (s : State) : Host.Outcome State Fault Refusal := run capTick s
/-- THERMAL_SAMPLE. -/
def execThermalSample (maxC : BitVec 8) (s : State) : Host.Outcome State Fault Refusal := run (thermalSample maxC) s
/-- PLACEMENT_PERIOD. -/
def execPlacementPeriod (p : Part) (s : State) : Host.Outcome State Fault Refusal := run (placementPeriod p) s

end Sys2Proof.Machine
end

