-- ==== Sys2Proof/Machine/Partition.lean ====
section
/-! DEFINITION. Sys2Proof/Machine/Partition.lean: staged configurations, commits, what leaves and joins a partition, and the clearing of a
tenant's state (R513 to R527, R587 snapshot, R681). -/
namespace Sys2Proof.Machine
open Sys2Proof

/-- What a partition owns: masks of groups, VGS pairs, channels and ring pairs. -/
structure Owned where
  groups : Nat := 0
  pairs  : Nat := 0
  chans  : Nat := 0
  rings  : Nat := 0
deriving DecidableEq, Repr

/-- The resources of one mask set, numbered as in PartState.leaving. -/
def Owned.list (o : Owned) : List Nat :=
  (List.range 16).filter (fun i => o.groups.testBit i) ++
  ((List.range 16).filter (fun i => o.pairs.testBit i)).map (0x10 + ·) ++
  ((List.range 16).filter (fun i => o.chans.testBit i)).map (0x20 + ·) ++
  ((List.range 64).filter (fun i => o.rings.testBit i)).map (0x40 + ·)

/-- What the committed configuration owns, and what the staged one would. A partition that is not enabled owns nothing (R514, R525). -/
def State.owned (s : State) (p : Part) : Owned :=
  if s.enabled p then
    { groups := s.rf (rPrtCfgGroupsMir p) 0 16, pairs := s.rf (rPrtCfgVgsMir p) 0 16, chans := s.rf (rPrtCfgChannelsMir p) 0 16
      rings := (s.reg64 (rPrtCfgRingsMir p)).toNat }
  else {}
def State.stagedOn (s : State) (p : Part) : Bool := s.rb (rPrtCfgCtrl p) 31
def State.staged (s : State) (p : Part) : Owned :=
  if s.stagedOn p then
    { groups := s.rf (rPrtCfgGroups p) 0 16, pairs := s.rf (rPrtCfgVgs p) 0 16, chans := s.rf (rPrtCfgChannels p) 0 16
      rings := (s.reg64 (rPrtCfgRings p)).toNat }
  else {}

/-- Joining, leaving and staying resources of a commit. -/
def State.joining (s : State) (p : Part) : List Nat := (s.staged p).list.filter (fun i => !(s.owned p).list.contains i)
def State.leavingOf (s : State) (p : Part) : List Nat := (s.owned p).list.filter (fun i => !(s.staged p).list.contains i)
def State.staying (s : State) (p : Part) : List Nat := (s.staged p).list.filter (fun i => (s.owned p).list.contains i)

/-- Channels, groups and rings of such a list. -/
def chansIn (l : List Nat) : List Chan := (List.finRange 16).filter (fun c => l.contains (0x20 + c.val))
def groupsIn (l : List Nat) : List Grp := (List.finRange 16).filter (fun g => l.contains g.val)
def ringsIn (l : List Nat) : List Ring := (List.finRange 64).filter (fun r => l.contains (0x40 + r.val))

/-- PRT_GEN_DONE.DONE. -/
def State.genDoneBit (s : State) (p : Part) : Bool := s.rb (rPrtGenDone p) 31

/-! ### The rules of R520 -/

/-- TAKEN: owned by another partition, or released by one whose DONE is 0. -/
def State.takenBad (s : State) (p : Part) : Bool :=
  ((List.finRange 16).filter (· != p)).any (fun q => (s.joining p).any (fun i =>
    (s.owned q).list.contains i || (!s.genDoneBit q && (s.parts[q]).leaving.contains i)))

/-- RINGS. -/
def State.ringsBad (s : State) (p : Part) : Bool :=
  16 < ((List.range 64).filter (fun r => bit (s.reg64 (rPrtCfgRings p)) r)).length ||
  (ringsIn (s.leavingOf p)).any (fun r => s.rb (rPrtRingCfg r) 31)

/-- EMPTY. -/
def State.emptyBad (s : State) (p : Part) : Bool :=
  let o := s.staged p
  s.stagedOn p && (o.groups == 0 || o.pairs == 0 || o.chans == 0)

/-- Clusters that the sessions of a partition need. -/
def State.clustersNeeded (s : State) (p : Part) : Nat :=
  let size := fun (v : Bound) (o : Option Bound) => match s.voc p v o with | some x => clustersFor x.size | none => 0
  let res := (s.strands.filter (fun t => t.part == p)).map (fun t => size t.vocab t.ovl)
  let par := (s.lockets.filter (fun l => l.part == p && !l.waiting && !l.lost)).map (fun l =>
    match parseBody l.body with | some b => clustersFor b.veff | none => 0)
  (res ++ par).foldl max 0

/-- SESSIONS. -/
def State.sessionsBad (s : State) (p : Part) : Bool :=
  (s.enabled p && !s.stagedOn p &&
    (s.strands.any (fun t => t.part == p) || s.lockets.any (fun l => l.part == p && !l.waiting) || s.objIds.any (fun o => o.part == p && s.objState p o.id != 0))) ||
  (s.stagedOn p &&
    ((List.finRange 64).filter (fun (c : Clu) => bit (s.reg64 rGlbCluMap) c && (groupsIn (s.staged p).list).contains (cluGrp c))).length
      < s.clustersNeeded p)

/-- Live copies on some channels. -/
def State.copiesOn (s : State) (cs : List Chan) : List (Locket × ColdCopy) :=
  s.lockets.flatMap (fun l => (l.cold.filter (fun k => cs.contains k.chan)).map (fun k => (l, k)))

/-- CHANNEL. -/
def State.channelBad (s : State) (p : Part) : Bool :=
  let leave := s.copiesOn (chansIn (s.leavingOf p))
  let room := ((chansIn (s.staying p)).map (fun c => (s.chans[c]).userCap s.profile.opPct - s.chanSectors c * 512)).sum
  !leave.isEmpty && (s.mediaRO p || room < (leave.map (fun x => x.2.count * 512)).sum)

/-- EN ranges of a configuration as base and bytes; `off` is 0 for the staged one, 0x100 for the mirrors. -/
def State.cfgRanges (s : State) (p : Part) (off : Nat) : List (Nat × Nat) :=
  (List.range 8).filterMap (fun r =>
    let b := s.reg64 (rPrtCfgMemBase p r + off)
    let n := (s.reg (rPrtCfgMemSize p r + off)).toNat
    if bit b 0 && n != 0 then some (fld b 16 48 * 65536, n * 65536) else none)
/-- Do two areas overlap? An empty one overlaps none. -/
def areasMeet (a b : Nat × Nat) : Bool := 0 < a.2 && 0 < b.2 && a.1 < b.1 + b.2 && b.1 < a.1 + a.2

/-- OVERLAP. -/
def State.overlapBad (s : State) (p : Part) : Bool :=
  let others := ((List.finRange 16).filter (fun q => q != p && s.enabled q)).flatMap (fun q => s.cfgRanges q 0x100)
  (s.cfgRanges p 0).any (fun a => 2 ^ 64 < a.1 + a.2 || others.any (areasMeet a) || areasMeet a s.warmArea || areasMeet a s.indexArea)

/-- The channel's journal holds live copies. -/
def FlashChan.hasCopies (x : FlashChan) : Bool := (liveRecords x.journal).any (fun r => r.typ == 1 || r.typ == 3)
/-- FOREIGN. -/
def State.foreignBad (s : State) (p : Part) : Bool :=
  (chansIn (s.joining p)).any (fun c =>
    (match (s.chans[c]).owner with | some q => q != p | none => false) && (s.chans[c]).hasCopies)

/-- The first rule of R520 that a commit fails. -/
def State.commitFault (s : State) (p : Part) : Option Nat :=
  if !s.genDoneBit p then some 1
  else if s.takenBad p then some 2
  else if s.ringsBad p then some 3
  else if s.emptyBad p then some 4
  else if s.sessionsBad p then some 5
  else if s.channelBad p then some 6
  else if s.overlapBad p then some 7
  else if s.foreignBad p then some 8
  else none

/-! ### The snapshot (R587) -/

/-- Registers that the partition configuration snapshot holds: configuration pages, bases and frozen registers, ring and event ring bases
and configuration, quotas, stream identifiers. -/
def snapReg (o : Nat) : Bool :=
  let w := o % 0x10000
  let r := o % 0x1000
  (rGlbFabSid 0 ≤ o && o < rGlbFabSid 16) || o == rPrkWarmBase || o == rPrkWarmBase + 4 || o == rPrkWarmCfg || o == rPrkIndexBase ||
  o == rPrkIndexBase + 4 || o == rPrkIndexCfg ||
  (0x100000 ≤ o && o < 0x200000 &&
    ([0x100, 0x104, 0x108, 0x118, 0x200, 0x204, 0x208, 0x218, 0x21C, 0x220, 0x228, 0x22C, 0x300, 0x304, 0x308, 0x310, 0x400, 0x600, 0x804,
      0xF008].contains w || (0xF110 ≤ w && w < 0xF200))) ||
  (0x200000 ≤ o && o < 0x240000 && [0x10, 0x14, 0x18, 0x1C, 0x20, 0x2C].contains r)

/-- The snapshot is written at each accepted commit. -/
def State.snapshot (s : State) : State := { s with snap := s.regs.filter (fun x => snapReg x.1), snapOk := true }

/-! ### An accepted commit (R522, R524, R526, R602, R681) -/

/-- Copy the staged registers to their mirrors, or back. -/
def State.copyPage (s : State) (p : Part) (src dst : Nat) : State :=
  (List.range 60).foldl (fun s i =>
    let a := 0x10F010 + 0x10000 * p.val + 4 * i
    if (regRow? (a + src)).isSome then s.setReg (a + dst) (s.reg (a + src)) else s) s

/-- Write zeros over an area of chip memory. -/
def State.zeroArea (s : State) (a n : Nat) : State := { s with mem := s.mem.filter (fun x => !(a ≤ x.1 && x.1 < a + n)) }

/-- The areas that a tenant change clears, under the ranges that were in force (R526): page pool, strand table, account table, and the used part of
the backing region: the units that loads have written since the enabling. -/
def State.tenantAreas (s : State) (p : Part) : List (Nat × Nat) :=
  (if s.poolOk p then [(s.pageAddr p 0, 4096 * s.poolPages p)] else []) ++
  (if s.tableOk p then [(s.descAddr p 0, 256 * s.rf (rPrtStrandCfg p) 0 19)] else []) ++
  (if s.memOk p (s.acctAddr p 0) 131072 true then [(s.acctAddr p 0, 131072)] else []) ++
  (if s.backOk p then ((s.parts[p]).backEver.filter (· < s.backSize p)).map (fun u => (s.backAddr p u, 65536)) else [])

/-- A group leaves: its clusters' banks go to FREE, its RISK clears (R522, R611). -/
def State.groupLeaves (s : State) (g : Grp) : State :=
  let s := ((List.finRange 64).filter (fun c => cluGrp c == g)).foldl (fun s c =>
    (List.range 16).foldl (fun s b => if s.bankOwner c b == 0x10 then s else s.handBank c b 0x10) s) s
  s.clearRisk g

/-- Sections placed in the banks that leave are read from the backing. -/
def State.pairsLeave (s : State) (l : List Nat) : State :=
  { s with objs := s.objs.map (fun v => v.unplace (fun b => l.contains (0x10 + b / 2))) }

/-- Relocate the copies of leaving channels to the partition's remaining ones (R522). -/
def State.evacuate (s : State) (p : Part) (cs : List Chan) : State :=
  (s.copiesOn cs).foldl (fun s x =>
    let (l, k) := x
    if l.part != p || !k.durable || l.rekey.isSome || l.cold.any (fun y => y.copy == k.copy && !y.durable) then s
    else
      match s.placeFor l k true l.image with
      | some (n, s) => s.locketUpd l.part l.session (fun y => { y with cold := y.cold ++ [{ n with moved := true }] })
      | none => s) s

/-- A STATE record naming the owner. -/
def State.stateRecord (s : State) (c : Chan) (p : Part) : State :=
  s.jAppend c { typ := 9, part := p, id := BitVec.ofNat 64 ((if (s.chans[c]).worn then 1 else 0) + p.val * 16) }

/-- A channel joins (R524): fresh at once; its own with its contents, its reservations raising the partition's counters; another's empty one
after an erase. -/
def State.chanJoins (s : State) (p : Part) (c : Chan) : State :=
  match (s.chans[c]).owner with
  | none => s.stateRecord c p
  | some q => if q == p then (((s.resumeCounters c).replayChan c p).stateRecord c p) else s.chanUpd c (fun x => { x with erasing := true })

/-- What channels bring with them once they have joined (R493, R524, R537): copies that cannot be reached are unreadable, the highest committed epoch is
current where it is held, and a worn channel makes its partition WORN, as its BP lies below 200 (DEDUCED, log entry 37). -/
def State.joined (s : State) (p : Part) (cs : List Chan) : State :=
  if cs.isEmpty then s
  else
    let s := s.loseUnreached p
    let x := s.parts[p]
    let s := if slotIs x.slotA (s.topEpoch p) || slotIs x.slotB (s.topEpoch p) then s.setCurrent p else s
    cs.foldl State.checkWorn s

/-- A commit gives the domain to a partition: an off request of the same cycle, which has cleared its bit, also sets OFF_REJECT (R618). -/
def State.gainDom (s : State) (d : Fin 73) : State :=
  let s := if s.domLog.contains (s.time, false, d) then s.setRb rPwrStat 27 true else s
  s.noteDom true d
/-- The domains that a partition gains are woken (R602): clusters of its groups and quads of its pairs. -/
def State.wakeFor (s : State) (l : List Nat) : State :=
  (List.finRange 73).foldl (fun s d =>
    let mine := if d.val < 64 then l.contains (d.val / 4)
      else if d.val < 68 then (List.range 4).any (fun k => l.contains (0x10 + 4 * (d.val - 64) + k)) else 69 ≤ d.val && d.val < 72
    let s := if mine && (s.offAsked d || !s.domOn d) then domainWake d s else s
    if mine then s.gainDom d else s) s

/-- Reservations of the counters at an enabling whose count stands at a multiple of 2^20 (R309, R444). -/
def State.reserveAtEnable (s : State) (p : Part) : State :=
  let x := s.parts[p]
  let s := if x.gen.toNat % 2 ^ 20 == 0 then s.jAppendAll p { typ := 5, id := x.gen + 0x100000#64 } else s
  if x.epoch.toNat % 2 ^ 20 == 0 then s.jAppendAll p { typ := 0xB, id := x.epoch + 0x100000#64 } else s

/-- A key command of the partition that still runs ends, with nothing installed (R681). -/
def State.endKeyCommand (s : State) (p : Part) : State :=
  if (s.parts[p]).rotating.isSome then (s.partUpd p (fun x => { x with rotating := none })).keyResult 1 else s

/-- A locket of which a move, a re-key rewrite or a relocation is under way. -/
def Locket.worked (l : Locket) : Bool := l.moving || l.rekey.isSome || l.cold.any (fun k => !k.durable)

/-- Counters of a partition at their PWR_ON values when it is enabled (R523). -/
def State.freshCounters (s : State) (p : Part) : State :=
  [rPrtEvqLost p, rPrtVgsMiss p, rPrtVgsMiss p + 4, rPrtEncBytes p, rPrtEncBytes p + 4, rPrtEncForced p, rPrtCpDead p, rPrtCpOvf p, rPrtCpOverrun p,
   rPrtCpMismatch p, rPrtRaLate p, rPrtRaCold p, rPrtSpecAcc p, rPrtSpecAcc p + 4, rPrtSpecDraft p, rPrtSpecDraft p + 4, rPrtSmpNan p, rPrtSmpXpass p,
   rPrtSmpDpass p, rPrtSmpLimit p, rPrtBeadFaultCnt p, rPrtUninitCnt p, rPrtPoisonCnt p, rPrtParkLost p, rPrtParkRepair p, rPrtPlaceCnt p,
   rPrtAdmitStat p].foldl (fun s o => s.setReg o (regReset o)) s

/-- The commit of a new generation. -/
def State.acceptCommit (s : State) (p : Part) : State :=
  let join := s.joining p
  let leave := s.leavingOf p
  let off := s.enabled p && !s.stagedOn p
  let on := !s.enabled p && s.stagedOn p
  let areas := s.tenantAreas p
  let s := s.copyPage p 0 0x100
  let s := (s.setReg (rPrtGenCur p) (s.reg (rPrtGenCur p) + 1#32)).setRb (rPrtGenDone p) 31 false
  let s := s.partUpd p (fun x => { x with
    leaving := leave, toClear := if off then areas else []
    oldWork := (s.lockets.filter (fun l => l.part == p && l.worked)).map (·.id), oldReclaims := x.reclaims })
  let s := (groupsIn leave).foldl State.groupLeaves s
  let s := s.pairsLeave leave
  let s := (s.strands.filter (fun t => t.part == p)).foldl State.rehomeDue s
  let s := (chansIn leave).foldl (fun s c => s.chanUpd c (fun x => { x with erasing := true })) s
  let s := s.evacuate p (chansIn leave)
  let s := if s.enabled p then s.wakeFor join else s
  let s := ((chansIn join).foldl (fun s c => s.chanJoins p c) s).joined p (chansIn join)
  let s := if on then (s.freshCounters p).reserveAtEnable p else s
  let s := if off then ((s.setRb (rPrtGenStat p) 31 true).endKeyCommand p).setRb rSecDbgUnlock p.val false else s
  s.snapshot

/-- GEN_COMMIT (R517, R520). -/
def genCommit (p : Part) (v : Word) (s : State) : State :=
  if !bit v 31 then s
  else
    let s := match s.commitFault p with
      | some k => (s.setRb (rPrtGenStat p) 30 true).setRf (rPrtGenStat p) 24 4 k
      | none => s.acceptCommit p
    if bit v 30 then s.copyPage p 0x100 0 else s

/-- GEN_DISCARD (R516). -/
def genDiscard (p : Part) (v : Word) (s : State) : State := if bit v 30 && !bit v 31 then s.copyPage p 0x100 0 else s

/-! ### GEN_DONE (R522, R526) -/

/-- A leaving group is clear: its banks are drained and no unit reset of its clusters runs (R408, R618). -/
def State.groupClear (s : State) (p : Part) (g : Grp) : Bool :=
  ((List.finRange 64).filter (fun c => cluGrp c == g)).all (fun c =>
    !s.quiet c.val && (List.range 16).all (fun b => s.bankOwner c b != p.val && s.bankOwner c b != 0x1F))

/-- Everything that DONE waits for (R521, R522): ops, moves, rewrites, relocations and reclaim parks of earlier generations, banks, copies.
The open requests of the fabric interface are the command's own condition (DESIGN CHOICE, log entry 32). -/
def State.genQuiet (s : State) (p : Part) : Bool :=
  !s.ctxs.any (fun x => x.part == p && x.gen != s.reg (rPrtGenCur p)) &&
  !s.lockets.any (fun l => l.part == p && l.worked && (s.parts[p]).oldWork.contains l.id) &&
  !(s.parts[p]).reclaims.any (fun sid => (s.parts[p]).oldReclaims.contains sid) &&
  (groupsIn (s.parts[p]).leaving).all (s.groupClear p) &&
  !(s.copiesOn (chansIn (s.parts[p]).leaving)).any (fun x => x.1.part == p)

/-- A leaving VGS pair holds nothing. -/
def State.clearPair (s : State) (k : Nat) : State := { s with vgs := s.vgs.clear (fun b => b / 2 == k) }

/-- The clearing of a tenant's state (R526). -/
def State.clearTenant (s : State) (p : Part) : State :=
  let s := (s.parts[p]).toClear.foldl (fun s a => s.zeroArea a.1 a.2) s
  let s := s.partUpd p (fun x => { gen := x.gen, epoch := x.epoch })
  let w := 0x100000 + 0x10000 * p.val
  (s.resetRegs w (w + 0xF000) (fun _ => false)).setRb (rPrtGenStat p) 31 false

/-- GEN_DONE: with nothing left under older generations, released resources are cleared and DONE sets; while copies remain on a leaving
channel they are relocated first. -/
def genDone (p : Part) (s : State) : State :=
  if s.genDoneBit p then s
  else
    let leave := (s.parts[p]).leaving
    let s := s.evacuate p (chansIn leave)
    if !s.genQuiet p then s
    else
      let s := (s.strands.filter (fun t => t.part == p)).foldl State.rehomeDue s
      let s := ((List.range 16).filter (fun k => leave.contains (0x10 + k))).foldl State.clearPair s
      let s := (chansIn leave).foldl State.eraseChan s
      let s := (chansIn (s.owned p).list).foldl (fun s c =>
        if (s.chans[c]).erasing then ((s.eraseChan c).stateRecord c p).checkWorn c else s) s
      let s := s.partUpd p (fun x => { x with leaving := [], oldWork := [], oldReclaims := [] })
      let s := s.post p 0x0C 0 none noSession 0#64 (BitVec.ofNat 64 (s.reg (rPrtGenCur p)).toNat)
      (if s.rb (rPrtGenStat p) 31 then s.clearTenant p else s).setRb (rPrtGenDone p) 31 true

/-- GEN_COMMIT. -/
def execGenCommit (p : Part) (v : Word) (s : State) : Host.Outcome State Fault Refusal := runWrite (rPrtGenCtrl p) v (genCommit p v) s
/-- GEN_DISCARD. -/
def execGenDiscard (p : Part) (v : Word) (s : State) : Host.Outcome State Fault Refusal := runWrite (rPrtGenCtrl p) v (genDiscard p v) s
/-- GEN_DONE. -/
def execGenDone (p : Part) (s : State) : Host.Outcome State Fault Refusal := run (genDone p) s

end Sys2Proof.Machine
end

