-- ==== Sys2Proof/Machine/Keys.lean ====
section
/-! DEFINITION. Sys2Proof/Machine/Keys.lean: key commands: asset keys, park key epochs, their restoration (R529 to R541, R588). -/
namespace Sys2Proof.Machine
open Sys2Proof

/-- Key material of SEC_KEY_IN: `n` words, word k holding bytes 4k to 4k + 3. -/
def State.keyIn (s : State) (n : Nat) : Nat := leNat ((List.range n).flatMap (fun k => leBytes 4 (s.reg (rSecKeyIn k)).toNat))
/-- SEC_KEY_IN is zeroised. -/
def State.zeroKeyIn (s : State) : State := (List.range 16).foldl (fun s k => s.setReg (rSecKeyIn k) 0#32) s

/-- PARTITION and SLOT of SEC_KEY_CMD. -/
def keyPart (v : Word) : Part := ⟨fld v 24 4, by have h : fld v 24 4 < 2 ^ 4 := Nat.mod_lt _ (by decide); omega⟩
def keySlot (v : Word) : Fin 2 := ⟨fld v 23 1, by have h : fld v 23 1 < 2 ^ 1 := Nat.mod_lt _ (by decide); omega⟩

/-- In a formed pair, slots that differ from the partner's raise a key slot mismatch (R538): what the partner holds is outside this member,
so a free value tells whether they differ (DESIGN CHOICE, log entry 2). -/
def State.slotCompare (s : State) : State :=
  if !s.paired then s
  else
    let (k, s) := s.freeBelow 2
    if k == 1 then s.faultEvent 7 0 else s

/-- A write of SEC_KEY_CMD whose OP is `op` (R529, R541): ignored while BUSY; a partition that is not enabled gives result 1; afterwards
SEC_KEY_IN is zeroised. -/
def State.keyCommand (s : State) (op : Nat) (v : Word) (f : State → State) : State :=
  if fld v 28 4 != op || s.rb rSecKeyStat 31 then s
  else if !s.enabled (keyPart v) then (s.keyResult 1).zeroKeyIn
  else (f s).zeroKeyIn.slotCompare

/-- KEYS ends once every asset key under which a held version was loaded is held (R588). -/
def State.keysHeld (s : State) (p : Part) : Bool :=
  (s.objs.filter (fun v => v.part == p)).all (fun v => ((s.parts[p]).ak.toList.getD v.keySel none).isSome)
def State.leaveKeys (s : State) (p : Part) : State :=
  if (s.parts[p]).recover == 2 && s.keysHeld p then s.partUpd p (fun x => { x with recover := 0 }) else s

/-- LOAD_ASSET. -/
def loadAsset (v : Word) (s : State) : State :=
  s.keyCommand 1 v (fun s =>
    let p := keyPart v
    ((s.partUpd p (fun x => { x with ak := x.ak.set (keySlot v) (some (BitVec.ofNat 256 (s.keyIn 8))) })).keyResult 0).leaveKeys p)

/-- WITHDRAW_ASSET. -/
def withdrawAsset (v : Word) (s : State) : State :=
  s.keyCommand 2 v (fun s => (s.partUpd (keyPart v) (fun x => { x with ak := x.ak.set (keySlot v) none })).keyResult 0)

/-- A CLEAR of the epoch is durable. -/
def State.cleared (s : State) (p : Part) (e : Nat) : Bool :=
  (s.onlineOf p).any (fun c => (s.chans[c]).journal.any (fun r => r.typ == 6 && r.part == p && fld r.id 62 2 == 2 && fld r.id 0 32 == e))


/-- RESTORE_PARK (R537). -/
def restorePark (v : Word) (s : State) : State :=
  s.keyCommand 3 v (fun s =>
    let p := keyPart v
    let k := BitVec.ofNat 512 (s.keyIn 16)
    let e := s.reg rSecKeyEpoch
    let x := s.parts[p]
    if !(s.committed p).contains (e.toNat, keyCheck k) then s.keyResult 2
    else
      let has := fun (y : Option KeySlot) => match y with | some z => z.epoch == e && keyCheck z.key == keyCheck k | none => false
      if has x.slotA || has x.slotB then s.keyResult 0
      else if x.slotA.isSome && x.slotB.isSome then s.keyResult 3
      else
        let new := KeySlot.of e k
        let s := s.partUpd p (fun x => if x.slotA.isNone then { x with slotA := some new } else { x with slotB := some new })
        let s := { s.setCurrent p with
          lockets := s.lockets.map (fun (l : Locket) =>
            if l.part == p && l.epoch == e && l.waiting then Locket.opened (s.setCurrent p) { l with waiting := false } else l) }
        s.keyResult 0)

/-- ROTATE_PARK (R535): steps 1 to 3; the selector moves when the COMMIT is durable. -/
def rotatePark (v : Word) (s : State) : State :=
  s.keyCommand 4 v (fun s =>
    let p := keyPart v
    let x := s.parts[p]
    let other := match x.selNow with | some true => x.slotA.isSome | some false => x.slotB.isSome | none => x.slotA.isSome || x.slotB.isSome
    if other then s.keyResult 3
    else if (s.onlineOf p).isEmpty then s.keyResult 4
    else
      let e := max (match x.curSlot with | some k => k.epoch.toNat | none => 0) (s.topEpoch p) + 1
      let k := BitVec.ofNat 512 (s.keyIn 16)
      let new := KeySlot.of (BitVec.ofNat 32 e) k
      let s := s.partUpd p (fun x => { x with
        slotA := if x.slotA.isNone then some new else x.slotA
        slotB := if x.slotA.isNone then x.slotB else some new
        rotating := some (BitVec.ofNat 32 e) })
      (s.setRb rSecKeyStat 31 true).jAppendAll p { typ := 6, id := BitVec.ofNat 64 (2 ^ 62 + e), loc := keyCheck k })

/-- BAD_KEY_COMMAND (R541). -/
def badKeyCommand (v : Word) (s : State) : State :=
  if (1 ≤ fld v 28 4 && fld v 28 4 ≤ 4) || s.rb rSecKeyStat 31 then s else (s.keyResult 5).zeroKeyIn

/-- Recovery of the key slots after a reset other than PWR_ON (R537): the selector names the highest epoch that is valid and committed with its
check value; the other slot stays when it is valid and committed too, and is zeroed otherwise. -/
def State.recoverSlots (s : State) (p : Part) : State :=
  let good := fun (y : Option KeySlot) => match y with
    | some z => z.crcOk && (s.committed p).contains (z.epoch.toNat, keyCheck z.key)
    | none => false
  let x := s.parts[p]
  let a := if good x.slotA then x.slotA else none
  let b := if good x.slotB then x.slotB else none
  let ep := fun (y : Option KeySlot) => match y with | some z => z.epoch.toNat | none => 0
  let gone := (x.slotA.toList ++ x.slotB.toList).filter (fun k => s.cleared p k.epoch.toNat)
  let s := gone.foldl (fun s k => s.post p 0x0D 0 none noSession 0#64 (BitVec.ofNat 64 k.epoch.toNat)) s
  s.partUpd p (fun x => { x.setSel (if a.isNone && b.isNone then none else some (ep a < ep b)) with slotA := a, slotB := b, rotating := none })

/-- LOAD_ASSET. -/
def execLoadAsset (v : Word) (s : State) : Host.Outcome State Fault Refusal := run (loadAsset v) s
/-- WITHDRAW_ASSET. -/
def execWithdrawAsset (v : Word) (s : State) : Host.Outcome State Fault Refusal := run (withdrawAsset v) s
/-- RESTORE_PARK. -/
def execRestorePark (v : Word) (s : State) : Host.Outcome State Fault Refusal := run (restorePark v) s
/-- ROTATE_PARK. -/
def execRotatePark (v : Word) (s : State) : Host.Outcome State Fault Refusal := run (rotatePark v) s
/-- BAD_KEY_COMMAND. -/
def execBadKeyCommand (v : Word) (s : State) : Host.Outcome State Fault Refusal := run (badKeyCommand v) s

end Sys2Proof.Machine
end

