-- ==== Sys2Proof/Machine/Loupe.lean ====
section
/-! DEFINITION. Sys2Proof/Machine/Loupe.lean: the trace ring and the event counters of the loupe (R658 to R667). -/
namespace Sys2Proof.Machine
open Sys2Proof

/-- A write of LPE_TRACE_CTRL (R662): ENABLE going to 1 zeroes LPE_TRACE_WPTR and FULL and latches the buffer; records still queued from an
earlier run are discarded (DEDUCED, log entry 28). -/
def traceEnable (v : Word) (s : State) : State :=
  let was := s.rb rLpeTraceCtrl 31
  let s := s.setRf rLpeTraceCtrl 29 3 (fld v 29 3)
  if bit v 31 && !was then
    { (s.setReg rLpeTraceWptr 0#32).setRb rLpeTraceStat 31 false with
      trace := []
      traceBase := fld (s.reg64 rLpeTraceBase) 16 48 * 65536
      traceSlots := 2 ^ (max 16 (min 30 (s.rf rLpeTraceCfg 0 5))) / 32 }
  else s

/-- STOP mode with the buffer full (R659, R662). -/
def State.traceStopped (s : State) : Bool := s.rb rLpeTraceCtrl 30 && s.traceSlots ≤ (s.reg rLpeTraceWptr).toNat

/-- WM sets each time COUNT becomes a nonzero multiple of RECORDS (R665). -/
def State.traceMark (s : State) : State :=
  let n := (s.reg rLpeTraceWptr).toNat
  let k := (s.reg rLpeTraceWm).toNat
  if k != 0 && n != 0 && n % k == 0 then s.setRb rLpeTraceStat 30 true else s

/-- TRACE_RECORD_WRITE (R658, R659): the oldest queued record goes to its slot, or is dropped in STOP mode with the buffer full. -/
def traceRecordWrite (s : State) : State :=
  match s.trace with
  | [] => s
  | r :: l =>
    let s := { s with trace := l }
    if s.traceStopped then (s.setRb rLpeTraceStat 31 true).bump rLpeTraceDrop
    else
      let n := (s.reg rLpeTraceWptr).toNat
      let s := (s.wrBytes (s.traceBase + s.priv + 32 * (n % s.traceSlots)) r.bytes).setReg rLpeTraceWptr (BitVec.ofNat 32 (n + 1))
      let s := if s.traceStopped then s.setRb rLpeTraceStat 31 true else s
      s.traceMark

/-- MARKER (R661, R665): a record with PVALID 0 and the value written. -/
def marker (v : Word) (s : State) : State := s.trace' 0xE none noSession 0#32 none 0 v.toNat 0

/-- Zero the eight counters. -/
def State.zeroCounters (s : State) : State := (List.range 8).foldl (fun s n => s.setReg64 (rLpeCnt n) 0#64) s
/-- CNT_CLEAR (R667, R673): the clear comes before RUN. -/
def cntClear (v : Word) (s : State) : State :=
  (if bit v 30 then s.zeroCounters else s).setRb rLpeCntCtrl 31 (bit v 31)
/-- CNT_RUN (R667): a write of LPE_CNT_CTRL. -/
def cntRun (v : Word) (s : State) : State := cntClear v s

/-- TRACE_ENABLE. -/
def execTraceEnable (v : Word) (s : State) : Host.Outcome State Fault Refusal := runWrite rLpeTraceCtrl v (traceEnable v) s
/-- TRACE_RECORD_WRITE. -/
def execTraceRecordWrite (s : State) : Host.Outcome State Fault Refusal := run traceRecordWrite s
/-- MARKER. -/
def execMarker (v : Word) (s : State) : Host.Outcome State Fault Refusal := runWrite rLpeMark v (marker v) s
/-- CNT_RUN. -/
def execCntRun (v : Word) (s : State) : Host.Outcome State Fault Refusal := runWrite rLpeCntCtrl v (cntRun v) s
/-- CNT_CLEAR. -/
def execCntClear (v : Word) (s : State) : Host.Outcome State Fault Refusal := runWrite rLpeCntCtrl v (cntClear v) s

end Sys2Proof.Machine
end

