-- ==== Sys2Proof/Machine/UnitReset.lean ====
section
/-! DEFINITION. Sys2Proof/Machine/UnitReset.lean: unit resets: request, quiesce and effect (R435, R436, R590 to R598, R618). -/
namespace Sys2Proof.Machine
open Sys2Proof

/-- Place of a unit's request bit, by LAST_UNIT code (R596, R597). -/
def unitBit (u : Nat) : Nat × Nat :=
  if u < 64 then (rRstUnitClu + 4 * (u / 32), u % 32)
  else if u < 0x44 then (rRstUnitSys, u - 0x40)
  else (rRstUnitSys, u - 0x40)
/-- The power domain of a unit. -/
def unitDom (u : Nat) : Fin 73 := ⟨(if u < 64 then u else if u < 0x44 then u else u - 0x48 + 69) % 73, Nat.mod_lt _ (by decide)⟩

/-- A write of 1 to a request bit (R590, R591): a bit already 1 stays; the reset of a cluster or VGS quad whose domain is off clears at
once; the sections placed in a quad that quiesces switch to the backing first. -/
def State.unitRequest (s : State) (u : Nat) : State :=
  if s.quiet u then s
  else if u < 0x44 && !s.domOn (unitDom u) then s
  else
    let s := if 0x40 ≤ u && u < 0x44 then s.unplaceQuad (u - 0x40) else s
    { s.setRb (unitBit u).1 (unitBit u).2 true with units := s.units ++ [(u, s.time)] }

/-- The last unit reset is noted (R594, R598). -/
def State.noteUnit (s : State) (u : Nat) : State :=
  ((s.setRb rRstUnitStat 30 true).setRf rRstUnitStat 0 8 u).setRb rRstCause 6 true
/-- UNIT_RESET_CTRL (R579, R591, R594, R598): acts as SOFT, and is noted as a unit reset of the control complex. -/
def unitResetCtrl (s : State) : State := (s.wholeReset 5).noteUnit 0x4B

/-! ### The effect (R590, R591) -/

/-- The op waits for a foreground read. -/
def State.usesPark (x : OpCtx) : Bool := x.reading

/-- Ready ops among those that `may` names which a free value finds with an access at the unit: the model's commands are whole, and what the
units hold between them is not part of it (DESIGN CHOICE, log entry 2). -/
def State.freeUsers (s : State) (may : OpCtx → Bool) : List OpCtx × State :=
  (s.ctxs.filter (fun x => x.st == .ready && may x)).foldl (fun (acc : List OpCtx × State) x =>
    let (k, s) := acc.2.freeBelow 2
    if k == 1 then (acc.1 ++ [x], s) else (acc.1, s)) ([], s)

/-- The op may have work in the cluster that its commands do not show: a MASK_BATCH, SPEC_VERIFY or ENCODE_APPEND of a strand homed there; an
op that is placed on any of the partition's clusters; the output of an ENCODE. -/
def State.mayUseCluster (s : State) (x : OpCtx) (c : Clu) : Bool :=
  let op := eOp x.entry
  (homeOp op && x.sessions.any (fun sid => match s.strand? x.part sid with | some t => t.home == c | none => false)) ||
  (anyCluOp op && s.groupOwner (cluGrp c) == some x.part)
/-- A version of the op's partition has a section in the VGS quad, which the op's work may read. -/
def State.mayReadQuad (s : State) (x : OpCtx) (q : Nat) : Bool :=
  s.objs.any (fun v => v.part == x.part && v.placed.any (fun y => y.2.1 / 8 == q))

/-- Ops that still have work or an access in the unit. -/
def State.unitUsers (s : State) (u : Nat) : List OpCtx × State :=
  let open_ := s.ctxs.filter (fun x => x.st == .ready)
  if h : u < 64 then
    let c : Clu := ⟨u, h⟩
    let (l, s) := s.freeUsers (fun x => !s.usesCluster x c && s.mayUseCluster x c)
    (open_.filter (fun x => s.usesCluster x c) ++ l, s)
  else if u < 0x44 then s.freeUsers (fun x => s.mayReadQuad x (u - 0x40))
  else if u == 0x48 then (open_.filter State.usesPark, s)
  else if u == 0x49 || u == 0x4A then s.freeUsers (fun _ => true)
  else ([], s)

/-- Is the unit otherwise idle? Array operations keep the park controller busy. -/
def State.unitIdle (s : State) (u : Nat) : Bool :=
  u != 0x48 || s.chans.toList.all (fun c => c.dies.toList.all (fun d => d.jobs.isEmpty))

/-- An op with work in the unit fails with RESET_ABORT, and its output is invalid (R590). -/
def State.unitAbort (s : State) (x : OpCtx) : State := (s.opFail x stResetAbort).spoilOut x

/-- The unit at its Reset values; the park controller keeps its regions, the fabric interface its stream identifiers, the crypto engine its
keys (R583, R591). -/
def State.unitClear (s : State) (u : Nat) : State :=
  if h : u < 64 then s.clearCluster ⟨u, h⟩
  else if u < 0x44 then s.clearQuad (u - 0x40)
  else if u == 0x48 then (s.clearPark.resetRegs rPrkStat 0x902000 (fun _ => false)).bringUpAll.restartMoves
  else if u == 0x4A then
    { (s.resetRegs rGlbFabCfg (rGlbFabSid 16) (fun o => o == rGlbFabSidInst || (rGlbFabSid 0 ≤ o && o < rGlbFabSid 16))) with fabLate := [] }
  else if u == 0x49 then (s.resetRegs (rSecKeyIn 0) rSecKeyStat (fun _ => false)).setRf rSecKeyStat 16 8 0
  else s

/-- The unit's open requests end (R435, R436): its masters' codes, as `State.fabCut` keeps them. -/
def unitMaster (u : Nat) : Nat :=
  if u < 64 then u else if u < 0x44 then 0x200 + (u - 0x40) else if u == 0x48 then 0x41 else if u == 0x49 then 0x42 else 0x100
def State.cutMaster (s : State) (u : Nat) : State :=
  { s with fabCut := (s.fabCut.filter (fun c => c.1 != unitMaster u)) ++ [(unitMaster u, s.time)] }

/-- UNIT_RESET_TAKE_EFFECT (R590, R594, R598): the unit is idle, or its quiesce has timed out. The fabric interface waits for its responses, of which
a free value says whether one is outstanding, or for TMO (R436). -/
def unitResetTakeEffect (u : BitVec 8) (s : State) : State :=
  match s.units.find? (fun x => x.1 == u.toNat) with
  | none => s
  | some (n, at_) =>
    let q := s.rf rRstCfg 0 16
    let late := if n == 0x4A then at_ + max 10 (s.rf rGlbFabCfg 0 16) * 100 ≤ s.time else at_ + q * 100 ≤ s.time
    let (xs, s) := s.unitUsers n
    let busy := !xs.isEmpty || !s.unitIdle n
    if busy && !late then s
    else
      let s := xs.foldl (fun s x => match s.ctx? x.id with | some y => if y.st == .ready then s.unitAbort y else s | none => s) s
      let s := (s.unitClear n).cutMaster n
      let s := if busy && n != 0x4A && q != 0 then (s.setRb rRstUnitStat 31 true).bump rRstTmoCnt else s
      let s := s.noteUnit n
      let s := { s.setRb (unitBit n).1 (unitBit n).2 false with units := s.units.filter (fun x => x.1 != n) }
      s.trace' 9 none noSession 0#32 none 0 n 0

/-- UNIT_RESET_CLUSTER. -/
def execUnitResetCluster (c : Clu) (s : State) : Host.Outcome State Fault Refusal := run (State.unitRequest · c.val) s
/-- UNIT_RESET_VGS. -/
def execUnitResetVgs (q : Fin 4) (s : State) : Host.Outcome State Fault Refusal := run (State.unitRequest · (0x40 + q.val)) s
/-- UNIT_RESET_PRK. -/
def execUnitResetPrk (s : State) : Host.Outcome State Fault Refusal := run (State.unitRequest · 0x48) s
/-- UNIT_RESET_CRYPTO. -/
def execUnitResetCrypto (s : State) : Host.Outcome State Fault Refusal := run (State.unitRequest · 0x49) s
/-- UNIT_RESET_FAB. -/
def execUnitResetFab (s : State) : Host.Outcome State Fault Refusal := run (State.unitRequest · 0x4A) s
/-- UNIT_RESET_CTRL. -/
def execUnitResetCtrl (s : State) : Host.Outcome State Fault Refusal := run unitResetCtrl s
/-- UNIT_RESET_TAKE_EFFECT. -/
def execUnitResetTakeEffect (u : BitVec 8) (s : State) : Host.Outcome State Fault Refusal := run (unitResetTakeEffect u) s

end Sys2Proof.Machine
end

