-- ==== Sys2Proof/Machine/Csr.lean ====
section
/-! DEFINITION. Sys2Proof/Machine/Csr.lean: reads and writes of the CSR window (R6 to R10, R555, R632, R657), with what each register shows
and what a write of it does. -/
namespace Sys2Proof.Machine
open Sys2Proof

/-! ### Which unit an offset belongs to -/

/-- Numbers as indices. -/
def asPart (k : Nat) : Part := ⟨k % 16, Nat.mod_lt _ (by decide)⟩
def asRing (k : Nat) : Ring := ⟨k % 64, Nat.mod_lt _ (by decide)⟩
def asClu (k : Nat) : Clu := ⟨k % 64, Nat.mod_lt _ (by decide)⟩
def asDom (k : Nat) : Dom := ⟨k % 4, Nat.mod_lt _ (by decide)⟩
def asPdom (k : Nat) : Fin 73 := ⟨k % 73, Nat.mod_lt _ (by decide)⟩

/-- The windows of R657. -/
inductive CsrWin where
  | global
  | part (p : Part) (w : Nat)
  | ring (r : Ring) (w : Nat)
  | clu (c : Clu) (w : Nat)
  | vgs
  | prk
  | sec
  | lpe
  | none
deriving DecidableEq, Repr

/-- The window of an offset (R657). -/
def csrWin (off : Nat) : CsrWin :=
  if off < 0x100000 then .global
  else if off < 0x200000 then .part (asPart ((off - 0x100000) / 0x10000)) (off % 0x10000)
  else if off < 0x240000 then .ring (asRing ((off - 0x200000) / 0x1000)) (off % 0x1000)
  else if off < 0x400000 then .none
  else if off < 0x800000 then .clu (asClu ((off - 0x400000) / 0x10000)) (off % 0x10000)
  else if off < 0x810000 then .vgs
  else if 0x900000 ≤ off && off < 0x910000 then .prk
  else if 0xA00000 ≤ off && off < 0xA10000 then .sec
  else if 0xB00000 ≤ off && off < 0xB10000 then .lpe
  else .none

/-- The register answers now. Before DONE in the FAIL state RST_CTRL takes the SOFT reset that R560 asks for. -/
def State.csrOpen (s : State) (off : Nat) : Bool :=
  if s.rb rGlbPairStat 29 then isoOpen off
  else s.rb rCfgBootStat 31 || bootOpen off || (off == rRstCtrl && s.rb rCfgBootStat 29)

/-- A CLU_ register other than CLU_BANK_OWN of a cluster whose domain is off (R412). -/
def State.cluDark (s : State) (off : Nat) : Bool :=
  match csrWin off with
  | .clu c w => 0x40 ≤ w && !s.cluOn c
  | _ => false

/-! ### What registers show -/

/-- Debug is open (R669). -/
def State.debugOpen (s : State) : Bool :=
  (s.rf rCfgStrap 0 4 == 0xD || s.rf rCfgStrap 0 4 == 0xE) && !s.rb rCfgStrap 31 && !s.rb rFusStat 29

/-- One half of a 64-bit value. -/
def half64 (v : DWord) (hi : Bool) : Word := if hi then (v >>> 32).truncate 32 else v.truncate 32

/-- PRT_RECOVER (R600): STATE of R588 in bits 31:30, zero below; read only. -/
def State.prtRecover (s : State) (p : Part) : Word := BitVec.ofNat 32 ((s.parts[p]).recover % 4 * 2 ^ 30)

/-- Partition-window registers whose value is computed. -/
def State.viewPart (s : State) (p : Part) (w : Nat) : Option Word :=
  match w with
  | 0x108 => some (setFld (s.reg (rPrtEvqCfg p)) 29 1 (if 1 ≤ s.evqOcc p then 1 else 0))
  | 0x11C => some (setFld (s.reg (rPrtOpctxUse p)) 0 13 (s.inUse p))
  | 0x120 => some (half64 (s.irqRings p) false)
  | 0x124 => some (half64 (s.irqRings p) true)
  | 0x20C => some (s.poolStat p)
  | 0x224 => some (BitVec.ofNat 32 (s.resident p))
  | 0x30C => some (BitVec.ofNat 32 (s.backUsed p).length)
  | 0x318 => some (s.objStat p)
  | 0x420 => some (half64 (s.parts[p]).epoch false)
  | 0x424 => some (half64 (s.parts[p]).epoch true)
  | 0x808 => some (BitVec.ofNat 32 (s.warmUsed p))
  | 0x80C => some (BitVec.ofNat 32 (s.nWarm p))
  | 0x810 => some (BitVec.ofNat 32 (s.nCold p))
  | 0x814 => some (half64 (s.parts[p]).gen false)
  | 0x818 => some (half64 (s.parts[p]).gen true)
  | 0x904 =>
    let low := ((s.onlineOf p).map (fun c => (s.chans[c]).bp)).foldl min 16383
    some (BitVec.ofNat 32 ((if s.mediaRO p then 2 ^ 31 else 0) + (if (s.parts[p]).worn then 2 ^ 30 else 0) +
      (if s.coldFull p then 2 ^ 29 else 0) + (if (s.onlineOf p).isEmpty then 0 else low)))
  | 0x908 => some (BitVec.ofNat 32 (s.coldCap p / 2 ^ 20))
  | 0x90C => some (BitVec.ofNat 32 ((s.partSectors p * 512 + 2 ^ 20 - 1) / 2 ^ 20))
  | 0xA0C => some (s.prtRecover p)
  | _ => none


/-- Channel registers of the park controller (R505, R506). -/
def State.viewChan (s : State) (c : Chan) (w : Nat) : Option Word :=
  let x := s.chans[c]
  let ds := x.dies.toList
  match w with
  | 0x00 =>
    let own := match s.chanOwner c with | some p => 2 ^ 28 + p.val * 2 ^ 24 | none => 0
    some (BitVec.ofNat 32 ((if ds.any (·.info.isSome) then 2 ^ 31 else 0) + (if x.online then 2 ^ 30 else 0) +
      (if x.worn then 2 ^ 29 else 0) + own +
      bitsOf 8 (fun d => match ds[d]? with | some y => y.info.isSome && !y.usable | none => false) * 2 ^ 8 +
      bitsOf 8 (fun d => match ds[d]? with | some y => x.online && y.usable | none => false)))
  | 0x04 => some (BitVec.ofNat 32 x.good)
  | 0x08 => some (BitVec.ofNat 32 (x.bp % 2 ^ 14 * 2 ^ 18 + x.spares % 2 ^ 18))
  | 0x0C =>
    let pes := (ds.flatMap (fun d => d.blocks.filter FlashBlock.isData)).map (·.pe)
    some (BitVec.ofNat 32 (match pes with
      | [] => 0
      | a :: l => min 65535 (l.foldl max a) * 2 ^ 16 + min 65535 (l.foldl min a)))
  | _ => none

/-- Security-window registers (R542, R543, R672). -/
def State.viewSec (s : State) (off : Nat) : Option Word :=
  if off == rSecDbgStat then some (setFld (s.reg off) 31 1 (if s.debugOpen then 1 else 0))
  else if 0xA00100 ≤ off && off < 0xA00300 then
    let p := asPart ((off - 0xA00100) / 0x20)
    let x := s.parts[p]
    let ep := fun (k : Option KeySlot) => match k with | some k => k.epoch | none => 0#32
    let n := fun (k : Option KeySlot) => match k with
      | some k => BitVec.ofNat 32 (s.lockets.filter (fun l => l.part == p && l.epoch == k.epoch)).length
      | none => 0#32
    let b := fun (c : Bool) (i : Nat) => if c then 2 ^ i else 0
    match off % 0x20 with
    | 0x00 =>
      let held := fun (e : Nat) => slotIs x.slotA e || slotIs x.slotB e
      some (BitVec.ofNat 32 (b ((x.ak.toList.getD 0 none).isSome) 31 + b ((x.ak.toList.getD 1 none).isSome) 30 + b (x.selNow == some true) 29 +
        b x.slotA.isSome 28 + b x.slotB.isSome 27 + b x.oldSlot.isSome 26 + b ((s.committed p).any (fun e => !held e.1)) 25))
    | 0x04 => some (ep x.slotA)
    | 0x08 => some (ep x.slotB)
    | 0x0C => some (n x.slotA)
    | 0x10 => some (n x.slotB)
    | _ => none
  else none

/-- Global-window registers (R55, R60). -/
def State.viewGlobal (s : State) (off : Nat) : Option Word :=
  if 0x100 ≤ off && off < 0x200 then
    let d := asDom ((off - 0x100) / 0x40)
    match off % 0x40 with
    | 0x04 => some (s.sdStatus d)
    | 0x18 => some (half64 (s.point d) false)
    | 0x1C => some (half64 (s.point d) true)
    | _ => none
  else none

/-- What the register at `off` shows at this moment. -/
def State.view (s : State) (off : Nat) : Word :=
  let v : Option Word :=
    match csrWin off with
    | .global => s.viewGlobal off
    | .part p w => s.viewPart p w
    | .ring r w => if w == 0x28 then some (s.ringStatus r) else none
    | .clu c w => if w == 0x40 then some (s.cluStat c) else none
    | .vgs =>
      if off < 0x800080 then
        let b := (off - 0x800000) / 4
        some (BitVec.ofNat 32 ((match s.vgsOwner b with | some p => 2 ^ 31 + p.val * 2 ^ 27 | none => 0) + s.bankUse b))
      else none
    | .prk =>
      if !s.domOn 69 then none
      else if off == rPrkStat then
        some (BitVec.ofNat 32 ((if s.indexOk then 2 ^ 31 else 2 ^ 30) + bitsOf 16 (fun c => (s.chans[asPart c]).online)))
      else if 0x901000 ≤ off && off < 0x902000 then s.viewChan (asPart ((off - 0x901000) / 0x100)) (off % 0x100)
      else none
    | .sec => s.viewSec off
    | .lpe =>
      if off == rLpeTime then some (half64 (BitVec.ofNat 64 s.time) false)
      else if off == rLpeTime + 4 then some (half64 (BitVec.ofNat 64 s.time) true)
      else none
    | .none => none
  v.getD (s.reg off)

/-! ### Reads (R6, R8, R9) -/

/-- Put a key into a list sorted by key. -/
def assocPut {α : Type} : List (Nat × α) → Nat → α → List (Nat × α)
  | [], a, v => [(a, v)]
  | (k, w) :: t, a, v => if k == a then (k, v) :: t else if a < k then (a, v) :: (k, w) :: t else (k, w) :: assocPut t a v

/-- The answer to a CSR access. -/
def State.answer (s : State) (v : Word) : State := { s with resp := ⟨v, false⟩ }
/-- A fabric error response, without any other effect (R6). -/
def State.refuse (s : State) : State := { s with resp := ⟨0#32, true⟩ }

/-- Clear the RC fields of a register that was read; PEAK starts again from the contexts in use (R127). -/
def State.readClear (s : State) (r : RegRow) (off : Nat) : State :=
  match csrWin off with
  | .part p 0x11C => s.setReg off (setFld (s.reg off) 16 13 (s.inUse p))
  | _ => if r.rc == 0 then s else s.setReg off (s.reg off &&& ~~~(BitVec.ofNat 32 r.rc))

/-- An aligned 32-bit read of the CSR window: the answer is in `resp`. -/
def csrRead (off : Nat) (s : State) : State :=
  if off % 4 != 0 then s.refuse
  else if !s.csrOpen off || s.cluDark off then s.answer 0#32
  else
    match regRow? off with
    | none => s.answer 0#32
    | some r =>
      if r.half == 1 then { s with pairLatch := assocPut s.pairLatch off (s.view (off + 4)), resp := ⟨s.view off, false⟩ }
      else if r.half == 2 then
        match assocFind s.pairLatch (off - 4) with
        | some h => { s with pairLatch := assocDel s.pairLatch (off - 4), resp := ⟨h, false⟩ }
        | none => s.answer (s.view off)
      else
        match csrWin off with
        | .part p 0x318 => objStatRead p s
        | _ => (s.readClear r off).answer (s.view off &&& ~~~(BitVec.ofNat 32 r.wo))

/-! ### Writes (R6 to R9) -/

/-- The partition has a resident or parked session (R157). -/
def State.hasStrands (s : State) (p : Part) : Bool :=
  s.strands.any (fun t => t.part == p) || s.lockets.any (fun l => l.part == p && !l.waiting)

/-- A write of the register is ignored now (R73, R91, R157, R189, R464, R502, R527, R599, R640). -/
def State.frozen (s : State) (off : Nat) : Bool :=
  match csrWin off with
  | .part p w =>
    if w == 0x100 || w == 0x104 then s.rb (rPrtEvqCfg p) 31
    else if [0x200, 0x204, 0x208, 0x218, 0x21C, 0x220].contains w then s.hasStrands p
    else if [0x300, 0x304, 0x308].contains w then s.objIds.any (fun o => o.part == p && s.objState p o.id != 0)
    else false
  | .ring r w => 0x10 ≤ w && w < 0x20 && s.rb (rPrtRingCfg r) 31
  | .prk =>
    if [0x900000, 0x900004, 0x900008].contains off then s.lockets.any Locket.isWarm
    else if [0x900010, 0x900014, 0x900018].contains off then s.lockets.any (fun l => !l.cold.isEmpty)
    else false
  | .global =>
    if 0x1028 ≤ off && off ≤ 0x1030 then s.anyEnabled
    else if 0x1308 ≤ off && off < 0x1320 then s.role != 0
    else if 0x340 ≤ off && off < 0x380 then
      let p := asPart ((off - 0x340) / 4)
      s.enabled p || !s.genDoneBit p
    else false
  | _ => false

/-- A stream identifier register. -/
def isSid (off : Nat) : Bool := off == rGlbFabSidInst || (rGlbFabSid 0 ≤ off && off < rGlbFabSid 16)
/-- What a write of a stream identifier register leaves behind for requests that entered before it (R431); requests older than the longest TMO
no longer matter. -/
def State.sidNote (s : State) (off : Nat) : State :=
  if isSid off then
    { s with sidLog := (s.sidLog.filter (fun w => s.time ≤ w.1 + 6553500)) ++ [(s.time, off, s.reg off)] }
  else s

/-- Registers that a decision of the cycle of their write reads as before (R366, R471, R512, R618): PRT_SMP_CFG, PRT_PARK_CFG, PRT_MEDIA_CFG,
PRK_CH_RL_FORCE, PRK_CH_RL_BOUND, PWR_GRP_BOUND, PWR_GOV_CFG. -/
def isTimed (off : Nat) : Bool :=
  match csrWin off with
  | .part _ w => w == 0x500 || w == 0x800 || w == 0x900
  | .prk => 0x901000 ≤ off && (off % 0x100 == 0x10 || off % 0x100 == 0x14)
  | .global => (0x1200 ≤ off && off < 0x1300 && off % 0x10 == 0) || off == rPwrGovCfg
  | _ => false
/-- Keep what such a register held before the writes of this cycle. -/
def State.noteOld (s : State) (off : Nat) : State :=
  if !isTimed off then s
  else if s.wrAt != s.time then { s with wrAt := s.time, wrOld := [(off, s.reg off)] }
  else if s.wrOld.any (fun x => x.1 == off) then s
  else { s with wrOld := s.wrOld ++ [(off, s.reg off)] }

/-- A register without behaviour of its own: RW fields take the value, W1C bits written 1 clear (R7, R9). -/
def State.plainWrite (s : State) (r : RegRow) (off : Nat) (v : Word) : State :=
  let rw := BitVec.ofNat 32 r.rw
  ((s.sidNote off).noteOld off).setReg off (((s.reg off &&& ~~~rw) ||| (v &&& rw)) &&& ~~~(v &&& BitVec.ofNat 32 r.w1c))

/-- A plain write by offset. -/
def State.plain (s : State) (off : Nat) (v : Word) : State :=
  match regRow? off with
  | some r => s.plainWrite r off v
  | none => s

/-- Sum of a number over the other partitions. -/
def State.others (p : Part) (f : Part → Nat) : Nat := (((List.finRange 16).filter (· != p)).map f).sum

/-- A write of PRT_RING_CFG (R73, R79). -/
def ringCfgWrite (r : Ring) (v : Word) (s : State) : State :=
  if bit v 31 && !s.rb (rPrtRingCfg r) 31 then ringEnable r v s
  else if !bit v 31 && s.rb (rPrtRingCfg r) 31 then ringDisable r v s
  else (s.ringFields r v).evalXoff r

/-- A write of GLB_SD_CTRL (R54). -/
def sdCtrlWrite (d : Dom) (v : Word) (s : State) : State :=
  if !bit v 31 then sdDisable d v s
  else if s.rb (rGlbSdCtrl d) 31 then s.sdCtrlFields d v
  else sdEnable d v s

/-- Shrinking the run-ahead area evicts results (R307). -/
def State.raShrink (s : State) (p : Part) : State :=
  (List.finRange 64).foldl (fun s c => evictRa p c 0 (s.evictable p c) s) s

/-- A write in a partition window. -/
def State.writePart (s : State) (p : Part) (w off : Nat) (v : Word) : State :=
  match w with
  | 0x108 => if bit v 31 && !s.rb off 31 then evqEnable p v s else s.evqCfg p v
  | 0x10C => evqHeadWrite p v s
  | 0x118 =>
    let g := min (fld v 0 13) (min (min 4096 (fld v 16 13)) (4096 - State.others p (fun q => s.rf (rPrtOpctxCfg q) 0 13)))
    s.plain off (setFld v 0 13 g)
  | 0x220 => s.plain off (BitVec.ofNat 32 (min (fld v 0 19) (262144 - State.others p (fun q => s.rf (rPrtStrandCfg q) 0 19))))
  | 0x310 =>
    let clip := fun (lo n m : Nat) (v : Word) => setFld v lo n (min (fld v lo n) (m - State.others p (fun q => s.rf (rPrtObjQuota q) lo n)))
    s.plain off (clip 17 9 256 (clip 8 9 256 (clip 0 7 64 v)))
  | 0x400 => s.plain off (BitVec.ofNat 32 (min (fld v 0 13) (4096 - State.others p (fun q => s.rf (rPrtCpQuota q) 0 13))))
  | 0x440 => (s.plain off v).raShrink p
  | 0x600 => s.plain off (BitVec.ofNat 32 (min (fld v 0 11) (1024 - State.others p (fun q => s.rf (rPrtBeadQuota q) 0 11))))
  | 0x804 =>
    s.plain off (BitVec.ofNat 32 (min (fld v 0 21)
      (min 64 (s.rf rPrkWarmCfg 0 7) * 16384 - State.others p (fun q => s.rf (rPrtParkWarm q) 0 21))))
  | 0x900 =>
    let was := s.mediaRO p
    let s := s.plain off v
    if !was && s.mediaRO p then s.stopMoves p true else s
  | 0xF000 => if bit v 31 then genCommit p v s else genDiscard p v s
  | _ => s.plain off v

/-- A write in a doorbell page (R67 to R88). -/
def State.writeRing (s : State) (r : Ring) (w off : Nat) (v : Word) : State :=
  if w == 0x00 then sqDoorbell r v s
  else if w == 0x08 then cqHeadWrite r v s
  else if w == 0x20 then ringCfgWrite r v s
  else if w == 0x24 then ringFlush r v s
  else if w == 0x30 then logitsReadyDoorbell r v s
  else if w == 0x83C then pushCommit r v s
  else if h : 0x800 ≤ w ∧ w < 0x83C then pushWord r ⟨(w - 0x800) / 4, by omega⟩ v s
  else s.plain off v

/-- A write of PRK_CH_CTRL (R509): ONLINE first, then FORMAT. -/
def prkChCtrl (c : Chan) (v : Word) (s : State) : State :=
  channelFormat c v (if bit v 1 then channelOnline c v ((s.chans[c]).dies.toList.map (·.info)) s else channelOffline c v s)

/-- A write of SEC_KEY_CMD (R529, R541). -/
def secKeyCmd (v : Word) (s : State) : State :=
  match fld v 28 4 with
  | 1 => loadAsset v s
  | 2 => withdrawAsset v s
  | 3 => restorePark v s
  | 4 => rotatePark v s
  | _ => badKeyCommand v s

/-- A write of CFG_FL_CTRL (R565). -/
def flCtrl (v : Word) (s : State) : State :=
  if 1 ≤ fld v 28 4 && fld v 28 4 ≤ 4 then s.portStart (fld v 28 4) v else flashPortBadOp v s

/-- W1S bits of RST_UNIT_SYS (R597); the control complex last, since it resets the whole instance. -/
def unitSysWrite (v : Word) (s : State) : State :=
  let s := [0, 1, 2, 3, 8, 9, 10].foldl (fun s i => if bit v i then s.unitRequest (0x40 + i) else s) s
  if bit v 11 then unitResetCtrl s else s

/-- Request bits of power domains (R602, R604, R605): 1 requests off, 0 wakes. -/
def domBits (v : Word) (dom : Nat → Nat) (is : List Nat) (s : State) : State :=
  is.foldl (fun s i =>
    let d := asPdom (dom i)
    if bit v i then domainOffRequest d s else if s.offAsked d then domainWake d s else s) s

/-- A write in the global window. -/
def State.writeGlobal (s : State) (off : Nat) (v : Word) : State :=
  if 0x100 ≤ off && off < 0x200 && off % 0x40 == 0 then sdCtrlWrite (asDom ((off - 0x100) / 0x40)) v s
  else if 0x100 ≤ off && off < 0x200 && (off % 0x40 == 0x08 || off % 0x40 == 0x0C) then
    (s.sdKeep (asDom ((off - 0x100) / 0x40))).plain off v
  else if off == rCfgFlCtrl then flCtrl v s
  else if off == rChnCmd then chainSendReset v s
  else if off == rFusArbCtrl then fuseAdvance v s
  else if off == rRstCtrl then softReset v s
  else if off == rRstUnitSys then unitSysWrite v s
  else if off == rPwrDomSys then
    domBits v (fun i => 64 + i) [0, 1, 2, 3] (domBits v (fun i => 65 + i) [4, 5, 6] s)
  else if 0x1200 ≤ off && off < 0x1300 && off % 0x10 == 0 then (s.plain off v).settle (asPart ((off - 0x1200) / 0x10))
  else if rGlbFltCfg0 ≤ off && off < rGlbFltCfg0 + 28 then s.faultCfgWrite ((off - rGlbFltCfg0) / 4) (fun s => s.plain off v)
  else s.plain off v

/-- One half of a pair written (R8). -/
def State.writeHalf (s : State) (off : Nat) (v : Word) : State :=
  if off == rRstUnitClu || off == rRstUnitClu + 4 then
    (List.range 32).foldl (fun s i => if bit v i then s.unitRequest ((off - rRstUnitClu) * 8 + i) else s) s
  else if off == rPwrDomOff || off == rPwrDomOff + 4 then domBits v (fun i => (off - rPwrDomOff) * 8 + i) (List.range 32) s
  else s.plain off v

/-- A write of a pair's HI half: with a held LO half both apply, else the high half alone. -/
def State.writePair (s : State) (off : Nat) (v : Word) : State :=
  let lo := assocFind s.pairHold (off - 4)
  let s := { s with pairHold := assocDel s.pairHold (off - 4) }
  if s.frozen off then s
  else
    match lo with
    | some l => (s.writeHalf (off - 4) l).writeHalf off v
    | none => s.writeHalf off v

/-- A write of a 32-bit register. -/
def State.writeOne (s : State) (off : Nat) (v : Word) : State :=
  match csrWin off with
  | .part p w => s.writePart p w off v
  | .ring r w => s.writeRing r w off v
  | .clu c w => if h : w < 0x40 then bankOwnerWrite c ⟨w / 4, by omega⟩ v s else s.plain off v
  | .prk => if 0x901000 ≤ off && off % 0x100 == 0x20 then prkChCtrl (asPart ((off - 0x901000) / 0x100)) v s else s.plain off v
  | .sec =>
    if off == rSecKeyCmd then secKeyCmd v s
    else if rSecKeyIn 0 ≤ off && off < rSecKeyIn 16 then s.setReg off v
    else s.plain off v
  | .lpe =>
    if off == rLpeTraceCtrl then traceEnable v s
    else if off == rLpeMark then marker v s
    else if off == rLpeCntCtrl then cntClear v s
    else s.plain off v
  | .global => s.writeGlobal off v
  | _ => s.plain off v

/-- What a write does once the register answers. -/
def State.regWrite (s : State) (off : Nat) (v : Word) : State :=
  match regRow? off with
  | none => s
  | some r =>
    if r.half == 1 then if s.frozen off then s else { s with pairHold := assocPut s.pairHold off v }
    else if r.half == 2 then s.writePair off v
    else if s.frozen off then s
    else s.writeOne off v

/-- A 32-bit write of the CSR window; `resume` is what a write of CFG_BOOT_CTRL does (R562). -/
def csrWriteWith (resume : Word → State → State) (off : Nat) (v : Word) (s : State) : State :=
  if off % 4 != 0 then s.refuse
  else if !s.csrOpen off || s.cluDark off then s
  else if (regRow? off).isNone then s
  else if off == rCfgBootCtrl then resume v s
  else (s.forwardWrite off v).regWrite off v

end Sys2Proof.Machine
end

