-- ==== Sys2Proof/Machine/Boot.lean ====
section
/-! DEFINITION. Sys2Proof/Machine/Boot.lean: the boot: strap, fuses, image, slot choice, composition, recovery, pairing (R545 to R569, R582,
R587, R588, R634, R636). -/
namespace Sys2Proof.Machine
open Sys2Proof

/-- Update the boot in progress. -/
def State.bootUpd (s : State) (f : Boot → Boot) : State := { s with boot := f s.boot }

/-! ### Strap (R554) -/

/-- The code that most of the conversions gave, and how many did. -/
def strapVote (l : List (BitVec 4)) : Nat × Nat :=
  (List.range 16).foldl (fun m k =>
    let n := (l.filter (fun c => c.toNat == k)).length
    if m.2 < n then (k, n) else m) (0, 0)

/-- Step 1 at PWR_ON and HOST_WARM: the conversions decide CODE, AGREE and MARGINAL. -/
def State.convertStrap (s : State) (l : List (BitVec 4)) : State :=
  let (k, n) := strapVote (l.take 8)
  let good := 6 ≤ n
  let s := (s.setRf rCfgStrap 0 4 (if good then k else 0)).setRf rCfgStrap 24 4 n
  s.setRb rCfgStrap 31 (n < 8)

/-- What the code in force selects, under the LOCK word: slot, overlay set, pair role (1 primary, 2 secondary), boot-halt. -/
def State.strapSlot (s : State) : Option Bool :=
  if s.lock 1 then none
  else
    match s.rf rCfgStrap 0 4 with
    | 0x8 | 0xA | 0xB | 0xE => some false
    | 0x9 => some true
    | _ => none
def State.strapSet (s : State) : Nat := ([0, 1, 2, 3, 0, 0, 1, 1] : List Nat).getD (s.rf rCfgStrap 0 4) 0
def State.strapRole (s : State) : Nat :=
  match s.rf rCfgStrap 0 4 with
  | 0x4 | 0x6 | 0xA => 1
  | 0x5 | 0x7 | 0xB => 2
  | _ => 0
def State.strapHalt (s : State) : Bool := (s.rf rCfgStrap 0 4 == 0xC || s.rf rCfgStrap 0 4 == 0xE) && !s.lock 2

/-! ### Slots (R548) -/

/-- A field of the flash. -/
def State.flLE (s : State) (a n : Nat) : Nat := leNat (s.flashRead a n)
/-- First byte of a slot: A false, B true. -/
def slotBase (b : Bool) : Nat := if b then 0x1800000 else 0x1000000
/-- The header is well formed: MAGIC, and LENGTH and LOAD_LEN within their limits. -/
def State.slotFormed (s : State) (b : Bool) : Bool :=
  let a := slotBase b
  let len := s.flLE (a + 4) 4
  let load := s.flLE (a + 8) 4
  s.flLE a 4 == 0x57464C50 && 4096 ≤ load && load ≤ 1835008 && 256 + load ≤ len && len ≤ 8388608
/-- Bytes 0 to LENGTH − 1 of a slot. -/
def State.slotImage (s : State) (b : Bool) : List Byte := s.flashRead (slotBase b) (s.flLE (slotBase b + 4) 4)
def State.slotSvn (s : State) (b : Bool) : Nat := s.flLE (slotBase b + 12) 2
/-- The key hash in the fuses. -/
def State.keyHash (s : State) : List Byte := (List.range 12).flatMap (fun j => leBytes 4 (s.fusWord (4 + j)).toNat)
/-- Why a slot is not valid (R548, R559, R571). -/
def State.slotFault (s : State) (b : Bool) : Option Nat :=
  if !s.rb rFusStat 30 then some 0x08
  else if !s.slotFormed b then some 0x04
  else
    let img := s.slotImage b
    let key := (img.drop 160).take 96
    if sha384 key != s.keyHash ||
        !ecdsaVerify (leAt key 0 48) (leAt key 48 48) (leAt img 64 48) (leAt img 112 48) (img.take 64 ++ img.drop 160) then some 0x02
    else if s.slotSvn b < s.rf rFusArb 0 8 then some 0x03
    else none

/-! ### The boot record (R556) -/

def BootRecord.tries (r : BootRecord) (b : Bool) : Nat := if b then r.triesB else r.triesA
def BootRecord.setTries (r : BootRecord) (b : Bool) (n : Nat) : BootRecord := if b then { r with triesB := n } else { r with triesA := n }
/-- One more boot of a slot begun. -/
def BootRecord.try (r : BootRecord) (b : Bool) : BootRecord := r.setTries b (min 255 (r.tries b + 1))

/-- What R557 decides. -/
structure SlotChoice where
  slot : Bool
  fail : Option Nat
  rec_ : BootRecord
deriving DecidableEq, Repr

/-- The boot ROM's choice of a slot (R557): `p` the preferred slot, `mark` whether the incompatibility mark applies. -/
def State.chooseSlot (s : State) (forced : Option Bool) (p mark : Bool) : SlotChoice :=
  let r := s.bootRec.checked
  match forced with
  | some b => ⟨b, s.slotFault b, match s.slotFault b with | some k => { r.try b with result := k } | none => r.try b⟩
  | none =>
    let b := if (mark && r.incSlot == p) || 3 ≤ r.tries p then !p else p
    if 3 ≤ r.tries b then ⟨b, some 0x07, { r with result := 0x07 }⟩
    else
      let r := r.try b
      match s.slotFault b with
      | none => ⟨b, none, r⟩
      | some k =>
        let r := { r with result := k }
        let t := !b
        if (s.slotFault t).isSome then ⟨b, some k, r⟩
        else if 3 ≤ r.tries t then ⟨b, some 0x07, { r with result := 0x07 }⟩
        else ⟨t, none, r.try t⟩

/-! ### Configuration blocks (R549 to R551) -/

/-- A record: key, value, and its bytes as stored. -/
structure CfgRecord where
  key : Nat
  val : List Byte
  raw : List Byte
deriving DecidableEq, Repr

/-- Records of a block's body; `n` bounds them. A record that runs past the end stops the list (DEDUCED, log entry 30). -/
def cfgRecords : Nat → List Byte → List CfgRecord
  | 0, _ => []
  | n + 1, l =>
    let k := leAt l 2 2
    let m := 4 + (k + 3) / 4 * 4
    if l.length < m || 1020 < k || l.length < 4 then []
    else ⟨leAt l 0 2, (l.drop 4).take k, l.take m⟩ :: cfgRecords n (l.drop m)

/-- A configuration block as it stands in the flash. -/
structure CfgBlock where
  base  : Nat
  fmt   : Nat
  bits  : Nat
  seq   : Nat
  crc   : Nat
  magic : Bool
  valid : Bool
  recs  : List CfgRecord
deriving DecidableEq, Repr

/-- Read the block of a region. -/
def State.cfgBlock (s : State) (base size magic : Nat) : CfgBlock :=
  let h := s.flashRead base 64
  let len := leAt h 12 4
  let m := leAt h 0 4 == magic
  let fits := 64 ≤ len && len ≤ size
  let body := if m && fits then s.flashRead (base + 64) (len - 64) else []
  let ok := m && fits && (crc32c body).toNat == leAt h 16 4 && (crc32c (h.take 60)).toNat == leAt h 60 4
  ⟨base, leAt h 4 1, leAt h 5 1, leAt h 8 4, leAt h 16 4, m, ok, if ok then cfgRecords len body else []⟩

def State.baseBlock (s : State) : CfgBlock := s.cfgBlock 0x40000 0x40000 0x46434C50
def State.overlay (s : State) (i : Nat) : CfgBlock := s.cfgBlock (0x80000 + 0x10000 * i) 0x10000 0x564F4C50
def State.settingsCopy (s : State) (i : Nat) : CfgBlock := s.cfgBlock (0x20000 + 0x10000 * i) 0x10000 0x54534C50
def State.factory (s : State) : CfgBlock := s.cfgBlock 0x10000 0x10000 0x44464C50

/-- The settings in force: a copy with its number, or the factory defaults (R551). -/
def State.settings (s : State) : Option (CfgBlock × Option Nat) :=
  let a := s.settingsCopy 0
  let b := s.settingsCopy 1
  if a.valid && (!b.valid || b.seq ≤ a.seq) then some (a, some 0)
  else if b.valid then some (b, some 1)
  else if s.factory.valid then some (s.factory, none)
  else none

/-- The overlays that apply, in ascending index. -/
def State.applied (s : State) : List Nat := (List.range 16).filter (fun i => (s.overlay i).valid && (s.overlay i).bits.testBit s.strapSet)
/-- The overlays skipped for a bad CRC. -/
def State.skipped (s : State) : List Nat := (List.range 16).filter (fun i => (s.overlay i).magic && !(s.overlay i).valid)

/-- A record joins the records in force: it replaces those of its key, but REG_INIT records add up. -/
def addRecord (l : List CfgRecord) (r : CfgRecord) : List CfgRecord :=
  if r.key == 0x0100 then l ++ [r] else l.filter (fun x => x.key != r.key) ++ [r]
/-- Sort by key, keeping order. -/
def insertRecord (l : List CfgRecord) (r : CfgRecord) : List CfgRecord :=
  l.filter (fun x => x.key ≤ r.key) ++ r :: l.filter (fun x => r.key < x.key)
/-- The composed records, sorted by key and then by order. -/
def composed (blocks : List CfgBlock) : List CfgRecord := ((blocks.flatMap (·.recs)).foldl addRecord []).foldl insertRecord []

/-- REG_INIT pairs. -/
def regInits (l : List CfgRecord) : List (Nat × Word) :=
  ((l.filter (fun r => r.key == 0x0100)).flatMap (fun r => cutBytes 8 r.val.length r.val)).filterMap (fun b =>
    if b.length == 8 then some (leAt b 0 4, BitVec.ofNat 32 (leAt b 4 4)) else none)
/-- REG_INIT may name GLB_, CLU_, VGS_, PRK_ and LPE_ registers (R550). -/
def initOk (off : Nat) : Bool :=
  match csrWin off with
  | .global => off < 0x400 || 0x1300 ≤ off
  | .clu _ _ | .vgs | .prk | .lpe => true
  | _ => false

/-- Value of a profile record, cut into equal parts where a row holds several fields (PRESUMED, log entry 29). -/
def profPart (l : List CfgRecord) (key parts i d : Nat) : Nat :=
  match l.find? (fun r => r.key == key) with
  | some r => let w := r.val.length / parts; leAt r.val (w * i) w
  | none => d
/-- The media profile of the composed records (R476, R550). -/
def composeProfile (l : List CfgRecord) : MediaProfile :=
  let lv := profPart l 7 1 0 0
  let sets := match l.find? (fun r => r.key == 8) with | some r => cutBytes lv r.val.length r.val | none => []
  { ratedPe := profPart l 1 1 0 0, timing := profPart l 2 1 0 0
    trMax := profPart l 3 3 0 0, tprogMax := profPart l 3 3 1 0, tbersMax := profPart l 3 3 2 0
    suspP := profPart l 4 3 0 0, suspE := profPart l 4 3 1 0, resume := profPart l 4 3 2 0
    tsuspMax := profPart l 5 1 0 0, rlFeature := profPart l 6 1 0 0, levels := lv
    retry := sets.map (fun x => x.map BitVec.toInt), softDelta := profPart l 9 1 0 0, retainDays := profPart l 10 1 0 0
    sparePct := profPart l 11 1 0 7, opPct := profPart l 12 1 0 12 }

/-! ### Ends of a boot -/

/-- Tries and last result as CFG_BOOT_STAT shows them. -/
def State.showRecord (s : State) : State :=
  ((s.setRf rCfgBootStat 12 4 (min 15 s.bootRec.triesA)).setRf rCfgBootStat 8 4 (min 15 s.bootRec.triesB)).setRf rCfgBootStat 16 8
    s.bootRec.result
/-- The FAIL state (R560). -/
def State.bootFail (s : State) (k : Nat) : State :=
  let s := s.setRec { s.bootRec.checked with result := k }
  (s.showRecord.setRb rCfgBootStat 29 true).bootUpd (fun b => { b with phase := .failed })

/-- The reset report record (R636). -/
def State.reportBytes (s : State) : List Byte :=
  let c := s.capture
  leBytes 4 0x52524C50 ++ leBytes 1 (c.source % 8) ++ leBytes 1 1 ++ leBytes 2 0 ++ leBytes 4 c.count ++ leBytes 4 0 ++
  c.sdTime.toList.flatMap (fun t => leBytes 8 t.toNat) ++ leBytes 16 0 ++
  c.rings.toList.flatMap (fun r =>
    leBytes 4 r.sqHead.toNat ++ leBytes 4 r.sqTail.toNat ++ leBytes 4 r.cqTail.toNat ++
    leBytes 1 (match r.owner with | some p => 128 + p.val | none => 0) ++ leBytes 1 (if r.enabled then 1 else 0) ++ leBytes 2 0) ++
  c.evqs.toList.flatMap (fun e => leBytes 4 e.1.toNat ++ leBytes 4 e.2.toNat ++ leBytes 8 0)

/-- The writer writes the record, and its event waits for each event ring. -/
def State.report (s : State) : State :=
  if !s.rb rRstCause 27 || s.role == 2 then s
  else
    let a := fld (s.reg64 rRstDataBase) 26 38 * 2 ^ 26 + 0x1000 * (s.capture.count % 16)
    { s.wrBytes a s.reportBytes with
      reportAddr := BitVec.ofNat 64 a
      parts := s.parts.map (fun x => { x with reportDue := true }) }

/-- Step 11: DONE sets, the slot's boot counter is cleared, and the firmware watchdog runs (R580). -/
def State.bootDone (s : State) : State :=
  let s := { s.setRec (s.bootRec.checked.setTries (s.rb rCfgBootStat 28) 0) with wdogAt := s.time }
  ((s.showRecord.setRb rCfgBootStat 31 true).bootUpd (fun b => { b with phase := .done })).report

/-! ### Recovery (R587) -/

/-- A partition whose tenant clearing or release was cut short goes on with it. -/
def State.resumeRelease (s : State) (p : Part) : State :=
  let x := s.parts[p]
  if x.leaving.isEmpty && x.toClear.isEmpty then s
  else
    let s := s.setRb (rPrtGenDone p) 31 false
    let s := if x.toClear.isEmpty then s else s.setRb (rPrtGenStat p) 31 true
    (chansIn x.leaving).foldl (fun s c => s.chanUpd c (fun y => { y with erasing := true })) s

/-- Partitions recovered: the snapshot's registers come back, with ring pairs and event rings not enabled. -/
def State.recoverAll (s : State) : State :=
  let s := s.snap.foldl (fun s x => s.setReg x.1 x.2) s
  let s := (List.finRange 64).foldl (fun s r => s.setRb (rPrtRingCfg r) 31 false) s
  let s := (List.finRange 16).foldl (fun s p =>
    let s := (s.setRb (rPrtEvqCfg p) 31 false).copyPage p 0x100 0
    let s := (s.partUpd p (fun x => { x with recover := if s.enabled p then 1 else 0 })).recoverSlots p
    s.resumeRelease p) s
  (s.setRb rRstCause 27 true).collect

/-- Registers that a reset keeps and that a reset without recovery gives their PWR_ON values after all: step domains, reset configuration, requested
power domains, pair token, CHN_ERR_CNT. -/
def forgotten (o : Nat) : Bool :=
  (0x100 ≤ o && o < rGlbSdEvtEn + 4) || o == rRstCfg || o == rRstDataBase || o == rRstDataBase + 4 || o == rRstDataCfg || o == rPwrDomOff ||
  o == rPwrDomOff + 4 || o == rPwrDomSys || o == rGlbPairToken || o == rGlbPairToken + 4 || o == rChnErrCnt

/-- Not recovered: as after PWR_ON, but for the boot record, backup registers, chain address and the two kinds of counters; RST_CAUSE tells of it. -/
def State.forgetAll (s : State) : State :=
  let s := { s with
    parts := s.parts.map (fun (x : PartState) => { gen := x.gen, epoch := x.epoch })
    objIds := [], objs := [], strands := [], lockets := [], indexOk := false
    snap := [], snapOk := false, faults := [], capture := {}
    sd := Vector.replicate 4 {}
    regs := s.regs.filter (fun x => !forgotten x.1) }
  s.setRb rRstCause 27 false

/-- Can the partitions be recovered (R587)? The instance data region fails its check when the host chip did not keep chip memory over a
HOST_WARM: a free value tells (DESIGN CHOICE, log entry 2). What cannot be recovered is forgotten before the firmware sets anything up. -/
def State.recoverable (s : State) : Bool × State :=
  let k := s.rf rRstCause 28 4
  if k == 1 then (false, s.setRb rRstCause 27 false)
  else
    let (lost, s) := if k == 2 then s.freeBelow 2 else (0, s)
    if !s.rb rRstCfg 31 && s.snapOk && s.rf rRstDataCfg 0 8 != 0 && lost == 0 then (true, s) else (false, s.forgetAll)

/-! ### Steps 9 to 11 -/

/-- Domains are released but those requested off (R582); groups take point 8 within their bounds (R650), and the segments stand at its
voltage. -/
def State.bootDomains (s : State) : State :=
  let off := s.reg64 rPwrDomOff
  let s := s.setReg64 rPwrDomStat (s.reg64 rGlbCluMap &&& ~~~off)
  let sys := s.rf rPwrDomSys 0 7
  let s := s.setReg rPwrDomSysStat (BitVec.ofNat 32 (2 ^ 7 + (127 - sys)))
  let s := s.vsegUpd 16 (fun v => { v with code := s.commonCode, held := s.commonCode })
  (List.finRange 16).foldl (fun s g =>
    if s.grpOn g then
      let i := max (s.grpLo g) (min 8 (s.grpHi g))
      let c := s.pointCode g i
      ((s.setRf (rPwrGrpStat g) 20 4 i).vsegUpd (segOf g) (fun v => { v with code := c, held := c })).grpEval g
    else s) s

/-- Channels are brought up, or only their dies noted when the park controller stays off (R475). -/
def State.bootChannels (s : State) : State :=
  (List.finRange 16).foldl (fun (s : State) (c : Chan) =>
    let l := s.boot.media.getD c.val []
    if s.domOn 69 then s.bringUp c l
    else s.chanUpd c (fun x => { x with dies := Vector.ofFn (fun (d : Fin 8) => { (x.dies[d]) with info := l.getD d none }) })) s

/-- What follows the channels' bring-up: after a reset other than PWR_ON moves begin again (R454); after PWR_ON no partition is enabled yet, and
the counters resume when one is (R310, R444, R524). -/
def State.resumePark (s : State) : State := if s.rf rRstCause 28 4 == 1 then s else s.restartMoves

/-- This member's part of R634: it recovers a session, or holds a cold copy. -/
def State.holdsSessions (s : State) : Bool :=
  !s.strands.isEmpty || s.lockets.any Locket.isWarm || s.chans.toList.any FlashChan.hasCopies

/-- Words 0 to 7 of the composed digest XOR the measurement (R566). -/
def State.pairWord (s : State) (k : Nat) : Nat := leAt s.boot.digest (4 * k) 4
/-- Send the eight PAIR_DIGEST words. -/
def State.sendDigest (s : State) (to_ : Nat) : State := (List.range 8).foldl (fun s k => s.sendTo to_ (0x10 + k) (s.pairWord k)) s

/-- A secondary turns to the nearest primary candidate below address `a` (R569). -/
def State.trySecondary (s : State) (a : Nat) : State :=
  if a == 0 then s.bootUpd (fun b => { b with peer := none, words := [], toks := [] })
  else (s.bootUpd (fun b => { b with peer := some (a - 1), words := [], toks := [] })).sendDigest (a - 1)
/-- A secondary without a candidate starts its search; it starts again while the time lasts (DESIGN CHOICE, log entry 31). -/
def State.pairSearch (s : State) : State :=
  if s.boot.phase == .pairing && s.strapRole == 2 && s.boot.peer.isNone && s.rb rChnStat 31 then s.trySecondary (s.rf rChnStat 24 4) else s

/-- Pairing ends without a partner: both run single, PAIR reads 3 (R569). -/
def State.pairNone (s : State) : State := (s.setRf rCfgBootStat 24 2 3).bootDone

/-- A pair forms (R569, R634): PAIR, the partner, ROLE; a new pair takes a new token, a free value (DESIGN CHOICE, log entry 2). -/
def State.pairForm (s : State) (peer : Nat) (same : Bool) : State :=
  let k := s.strapRole
  let (t, s) := s.freeBelow (2 ^ 64)
  let s := if same && s.reg64 rGlbPairToken != 0#64 then s else s.setReg64 rGlbPairToken (BitVec.ofNat 64 t)
  let s := ((s.setRf rCfgBootStat 24 2 k).setRb rChnStat 28 true).setRf rChnStat 20 4 peer
  let s := { s.setRf rGlbPairStat 30 2 k with pair := { hbAt := s.time } }
  s.bootDone

/-- Step 9 and on: domains, REG_INIT, profile, channels, recovery, then pairing or DONE. -/
def State.bootFinish (s : State) : State :=
  let (kept, s) := s.recoverable
  let s := s.bootDomains
  let s := s.boot.init.foldl (fun s x => if x.1 % 4 == 0 && initOk x.1 then s.regWrite x.1 x.2 else s) s
  let s := { s with profile := s.boot.prof }
  let s := s.bootChannels
  let s := (if kept then s.recoverAll else s).resumePark
  if s.strapRole == 0 then s.bootDone
  else (s.bootUpd (fun b => { b with phase := .pairing, pairAt := s.time })).pairSearch

/-! ### The boot sequence -/

/-- Steps 5 and 7: the slot's LOAD stands in control SRAM from address 0 (R548), and its firmware checks the formats and composes the configuration (R551, R552, R558). -/
def State.bootFirmware (s : State) (b : Bool) (set : CfgBlock) (copy : Option Nat) (mark : Bool) : State :=
  let base := s.baseBlock
  let a := slotBase b
  let s := { s with ctrlSram := s.flashRead (a + 256) (s.flLE (a + 8) 4) }
  let ovl := s.applied
  let blocks := base :: ovl.map s.overlay
  let seq := if copy.isSome then set.seq else 0
  let s := ((s.setReg rCfgFwVer (BitVec.ofNat 32 (s.flLE (a + 20) 4))).setRf rCfgFwSvn 0 16 (s.slotSvn b)).setRf rCfgFwSvn 16 16
    (if s.slotFormed (!b) then s.slotSvn (!b) else 0xFFFF)
  let s := ((s.setRb rCfgSetStat 31 copy.isNone).setRf rCfgSetStat 30 1 (copy.getD 0)).setRf rCfgSetStat 16 8 set.fmt
  let s := ((s.setRf rCfgSetStat 0 16 (bitsOf 16 ovl.contains)).setReg rCfgSetSeq (BitVec.ofNat 32 seq)).setRf rCfgOvlSkip 0 16
    (bitsOf 16 s.skipped.contains)
  if !base.valid then s.bootFail 0x0A
  else
    -- Which critical keys the firmware knows is the firmware's: a free value for each (R550, DESIGN CHOICE, log entry 2).
    let strange := fun (s : State) (l : List CfgBlock) =>
      ((l.flatMap (·.recs)).filter (fun r => 0x8000 ≤ r.key)).foldl (fun (x : Bool × State) _ =>
        let (k, s) := x.2.freeBelow 2
        (x.1 || k == 1, s)) (false, s)
    let inside := fun (f lo hi : Nat) => lo ≤ f && f ≤ hi
    let (x, s) := strange s [set]
    let (y, s) := strange s blocks
    let setBad := x || !inside set.fmt (s.flLE (a + 14) 1) (s.flLE (a + 15) 1)
    let cfgBad := y || blocks.any (fun k => !inside k.fmt (s.flLE (a + 16) 1) (s.flLE (a + 17) 1))
    if setBad || cfgBad then
      let k := if setBad then 0x05 else 0x06
      let other := mark && s.bootRec.checked.incSlot != b
      let s := s.setRec { s.bootRec.checked with incSlot := b, incValid := true, incSeq := seq, incCrc := base.crc, result := k }
      if other then s.bootFail k else s.wholeReset 5
    else
      let recs := composed (blocks ++ [set])
      let dig := blake3 (recs.flatMap (·.raw))
      let meas := blake3 (s.slotImage b ++ dig ++ leBytes 1 (s.rf rCfgStrap 0 4))
      let s := (List.range 8).foldl (fun s k => s.setReg (rSecMeas k) (BitVec.ofNat 32 (leAt meas (4 * k) 4))) s
      let s := s.bootUpd (fun t => { t with
        init := regInits recs, prof := composeProfile recs, digest := List.zipWith (· ^^^ ·) dig meas })
      if s.strapHalt then (s.setRb rCfgBootStat 30 true).bootUpd (fun t => { t with phase := .halted })
      else s.bootFinish

/-- The boot header is as R547 has it. -/
def State.headerOk (s : State) : Bool :=
  let h := s.flashRead 0 64
  leAt h 0 4 == 0x42494C50 && leAt h 4 1 == 1 && leAt h 5 7 == 0 && leAt h 28 32 == 0 && (crc32c (h.take 60)).toNat == leAt h 60 4

/-- BOOT_SEQUENCE: from the release of the reset to DONE, to boot-halt, to pairing or to FAIL. -/
def bootSequence (strap : List (BitVec 4)) (marginal : List (Fin 256)) (tempC : BitVec 8) (media : List (List (Option DieInfo)))
    (s : State) : State :=
  if s.boot.phase != .held || s.rb rGlbPairStat 29 then s
  else
    let s := if s.rf rRstCause 28 4 ≤ 2 then s.convertStrap strap else s
    let s := s.enumAfter
    let s := (s.setRf rCfgBootStat 0 4 (s.rf rCfgStrap 0 4)).bootUpd (fun b => { b with media := media })
    let s := s.readFuses marginal tempC
    let s := ((s.setRb rPwrDomSysStat 7 true).setRb rPwrDomSysStat 6 (!s.rb rPwrDomSys 6)).spiReset.spiQuad
    if s.rf rCfgStrap 0 4 == 0xF then s.bootFail 0x09
    else if !s.headerOk then s.bootFail 0x01
    else
      match s.settings with
      | none => s.bootFail 0x0A
      | some (set, copy) =>
        let p := set.bits.testBit 0
        let seq := if copy.isSome then set.seq else 0
        let r := s.bootRec.checked
        let mark := r.incValid && r.incSeq == seq && r.incCrc == s.baseBlock.crc
        let f := s.strapSlot
        let c := s.chooseSlot f p mark
        let s := s.setRec c.rec_
        let s := ((s.showRecord.setRb rCfgBootStat 28 c.slot).setRb rCfgBootStat 27 f.isSome).setRb rCfgBootStat 26 (c.slot != p)
        match c.fail with
        | some k => s.bootFail k
        | none => s.bootFirmware c.slot set copy mark

/-- A write of CFG_BOOT_CTRL (R562). -/
def bootCtrl (v : Word) (s : State) : State :=
  if bit v 31 && s.boot.phase == .halted then (s.setRb rCfgBootStat 30 false).bootFinish else s
/-- BOOT_RESUME. -/
def bootResume (s : State) : State := bootCtrl 0x80000000#32 s

/-- PAIRING_TIMEOUT (R569): 1 s after step 10. -/
def pairingTimeout (s : State) : State :=
  if s.boot.phase == .pairing && s.boot.pairAt + 100000000 ≤ s.time then s.pairNone else s

/-! ### Frames of the pairing (R566, R569, R634) -/

/-- All eight words have come, and they are this instance's own. -/
def State.digestIn (s : State) : Bool := (List.range 8).all (fun k => (assocFind s.boot.words k).isSome)
def State.digestSame (s : State) : Bool :=
  (List.range 8).all (fun k => (assocFind s.boot.words k).map (·.toNat) == some (s.pairWord k))

/-- Both halves of the partner's token have come, after equal digests: R634 decides; what the partner holds is a free value (DESIGN CHOICE, log entry 2). -/
def State.pairDecide (s : State) : State :=
  match s.boot.peer, assocFind s.boot.toks 0, assocFind s.boot.toks 1 with
  | some peer, some lo, some hi =>
    if !s.digestIn then s
    else
      let same := hi ++ lo == s.reg64 rGlbPairToken
      let (k, s) := s.freeBelow 2
      if same || (!s.holdsSessions && k == 0) then s.pairForm peer same else s.pairNone
  | _, _, _ => s

/-- Send the own pair token in its two halves. -/
def State.sendToken (s : State) (to_ : Nat) : State :=
  (s.sendTo to_ 0x43 (fld (s.reg64 rGlbPairToken) 0 32)).sendTo to_ 0x44 (fld (s.reg64 rGlbPairToken) 32 32)

/-- PAIR_DIGEST: word k from the other member; a primary takes the first secondary that asks, and answers with its own words. -/
def pairDigest (f : DWord) (s : State) : State :=
  s.recv f (fun t => 0x10 ≤ t && t ≤ 0x17) (fun s =>
    if s.boot.phase != .pairing || s.strapRole == 0 then s.nackTo f 2
    else if s.boot.peer.isNone && s.strapRole == 2 then s.nackTo f 2
    else if (match s.boot.peer with | some a => a != fSrc f | none => false) then s.nackTo f 3
    else
      let s := if s.boot.peer.isNone then (s.bootUpd (fun b => { b with peer := some (fSrc f) })).sendDigest (fSrc f) else s
      let s := s.bootUpd (fun b => { b with words := assocPut b.words (fType f - 0x10) (BitVec.ofNat 32 (fPay f)) })
      if !s.digestIn then s
      else if !s.digestSame then s.pairNone
      else (s.sendToken (fSrc f)).pairDecide)

/-- A half of the partner's token. -/
def tokenHalf (typ i : Nat) (f : DWord) (s : State) : State :=
  s.recv f (· == typ) (fun s =>
    if s.boot.phase == .pairing && s.boot.peer == some (fSrc f) then
      (s.bootUpd (fun b => { b with toks := assocPut b.toks i (BitVec.ofNat 32 (fPay f)) })).pairDecide
    else s)

/-- NACK: the answer to a RESET frame sent (R568); from the partner with reason 1, a heartbeat (R633); at pairing, the candidate is none. -/
def nackFrame (f : DWord) (s : State) : State :=
  s.recv f (· == 0x21) (fun s =>
    let s := if s.awaited f then { s.setRf rChnStat 16 3 2 with chnWait := none } else s
    let s := if s.paired && fSrc f == s.partner && fPay f % 256 == 1 then { s with pair := { s.pair with hbAt := s.time } } else s
    if s.boot.phase == .pairing && s.strapRole == 2 && s.boot.peer == some (fSrc f) then s.trySecondary (fSrc f) else s)

/-! ### REBUILD (R588) -/

/-- A strand of a recovered partition takes a new mask epoch and has no run-ahead result. -/
def State.rebuildStrand (s : State) (t : Strand) : State :=
  let (e, s) := s.nextEpoch t.part
  (s.tell 4 t.part e).strandUpd t.part t.session (fun x => { x with epoch := e, ra := none, raDue := false, sparePages := [] })
/-- An account: HELD is 0, and charges of the last millisecond may be missing, a free amount within its burst (DESIGN CHOICE, log entry 2). -/
def State.rebuildAcct (s : State) (p : Part) (a : Account) : State :=
  let (k, s) := s.freeBelow (256 * a.burst + 1)
  s.setAcct p { a with held := 0, balance := min (a.balance + k) (max a.balance (256 * a.burst)) }
/-- The tokens by which the partner's copy of a strand is ahead: what the partner holds is outside this member, so they are free values (R634;
DESIGN CHOICE, log entry 2). -/
def State.partnerTokens (s : State) (t : Strand) (vocab : Nat) : List Nat × State :=
  let (n, s) := s.freeBelow (1048577 - t.hist.length)
  (List.range n).foldl (fun x _ => let (k, s) := x.2.freeBelow vocab; (x.1 ++ [k], s)) ([], s)
/-- One of them is applied as a commit would (R24, R634), its epoch the primary's. -/
def State.catchUpToken (s : State) (p : Part) (sid : Word) (voc : Voc) (tok : Nat) : State :=
  match s.strand? p sid with
  | none => s
  | some t =>
    match s.applyToken t voc (s.sd[t.domain]).step.toNat (s.phase t.domain) tok with
    | .ok t' low _ _ s =>
      let s := s.sealStep { t' with stackLow := low } 1
      s.tell 4 p (s.parts[p]).epoch
    | _ => s
/-- A strand of a pair that has formed again catches up with the partner's copy (R634). -/
def State.catchUp (s : State) (t : Strand) : State :=
  if !s.paired then s
  else
    match s.voc t.part t.vocab t.ovl with
    | none => s
    | some voc =>
      let (l, s) := s.partnerTokens t voc.size
      l.foldl (fun s tok => s.catchUpToken t.part t.session voc tok) s

/-- RECOVERY_REBUILD. A secondary waits for the epochs that the primary assigns (R309). -/
def recoveryRebuild (p : Part) (s : State) : State :=
  if (s.parts[p]).recover != 1 || (s.role == 2 &&
      (s.pair.given.filter (fun d => d.kind == 4 && d.part == p)).length < (s.strands.filter (fun t => t.part == p)).length) then s
  else
    let mine := s.strands.filter (fun t => t.part == p)
    let s := mine.foldl State.rebuildStrand s
    let s := s.partUpd p (fun x => { x with used := (mine.flatMap (fun t => { t with sparePages := [] }.pages)).foldl natInsert [] })
    let s := (s.parts[p]).accts.foldl (fun s a => s.rebuildAcct p a) s
    let s := mine.foldl State.catchUp s
    ((s.partUpd p (fun x => { x with recover := 2 })).evalStall p).leaveKeys p

/-- BOOT_SEQUENCE. -/
def execBootSequence (strap : List (BitVec 4)) (marginal : List (Fin 256)) (tempC : BitVec 8) (media : List (List (Option DieInfo)))
    (s : State) : Host.Outcome State Fault Refusal := next (bootSequence strap marginal tempC media s)
/-- BOOT_RESUME. -/
def execBootResume (s : State) : Host.Outcome State Fault Refusal := next (bootResume s)
/-- PAIRING_TIMEOUT. -/
def execPairingTimeout (s : State) : Host.Outcome State Fault Refusal := next (pairingTimeout s)
/-- RECOVERY_REBUILD. -/
def execRecoveryRebuild (p : Part) (s : State) : Host.Outcome State Fault Refusal := run (recoveryRebuild p) s
/-- NACK. -/
def execNack (f : DWord) (s : State) : Host.Outcome State Fault Refusal := next (nackFrame f s)
/-- PAIR_DIGEST. -/
def execPairDigest (f : DWord) (s : State) : Host.Outcome State Fault Refusal := next (pairDigest f s)
/-- TOKEN_LO. -/
def execTokenLo (f : DWord) (s : State) : Host.Outcome State Fault Refusal := next (tokenHalf 0x43 0 f s)
/-- TOKEN_HI. -/
def execTokenHi (f : DWord) (s : State) : Host.Outcome State Fault Refusal := next (tokenHalf 0x44 1 f s)

end Sys2Proof.Machine
end

