-- ==== Sys2Proof/Machine/Access.lean ====
section
/-! DEFINITION. Sys2Proof/Machine/Access.lean: the register commands (R6, R8, R9). -/
namespace Sys2Proof.Machine
open Sys2Proof

/-- An aligned 32-bit write of the CSR window. -/
def csrWrite (off : Nat) (v : Word) (s : State) : State := csrWriteWith bootCtrl off v s

/-- A write access to the CSR window (R6, R9, R619): another size than 4 bytes gets an error response and has no effect. -/
def registerWrite (off : CsrOff) (size : Nat) (v : Word) (src : WriteSrc) (s : State) : State :=
  if size != 4 then s.refuse
  else if off.toNat % 4 == 0 && s.ignores src off.toNat then s
  else csrWrite off.toNat v s

/-- A read access to the CSR window (R6). -/
def registerRead (off : CsrOff) (size : Nat) (s : State) : State :=
  if size != 4 then s.refuse else csrRead off.toNat s

/-- PAIR_LO_READ. -/
def execPairLoRead (a : RegAccess) (s : State) : Host.Outcome State Fault Refusal := next (registerRead a.off a.size s)
/-- PAIR_HI_READ. -/
def execPairHiRead (a : RegAccess) (s : State) : Host.Outcome State Fault Refusal := next (registerRead a.off a.size s)
/-- PAIR_LO_WRITE. -/
def execPairLoWrite (a : RegAccess) (v : SentWord) (s : State) : Host.Outcome State Fault Refusal :=
  runAon (registerWrite a.off a.size v.val v.src) s
/-- PAIR_HI_WRITE. -/
def execPairHiWrite (a : RegAccess) (v : SentWord) (s : State) : Host.Outcome State Fault Refusal :=
  runAon (registerWrite a.off a.size v.val v.src) s
/-- COUNTER_READ_CLEAR. -/
def execCounterReadClear (a : RegAccess) (s : State) : Host.Outcome State Fault Refusal := next (registerRead a.off a.size s)
/-- REGISTER_WRITE. -/
def execRegisterWrite (off : CsrOff) (size : Nat) (v : SentWord) (s : State) : Host.Outcome State Fault Refusal :=
  runAon (registerWrite off size v.val v.src) s

end Sys2Proof.Machine
end

