-- ==== Sys2Proof/Machine/BeadExec.lean ====
section
/-! DEFINITION. Sys2Proof/Machine/BeadExec.lean: the bead instructions and the events of a bead thread as commands, one meaning each. -/
namespace Sys2Proof.Machine
open Sys2Proof

/-- ADD (R376). -/
def execAdd (t : Thread) (d : BitVec 5) (a : BitVec 5) (b : BitVec 5) (s : State) : Host.Outcome State Fault Refusal :=
  next (beadRun t (bAlu 0 d a b) s)

/-- SUB (R376). -/
def execSub (t : Thread) (d : BitVec 5) (a : BitVec 5) (b : BitVec 5) (s : State) : Host.Outcome State Fault Refusal :=
  next (beadRun t (bAlu 1 d a b) s)

/-- AND (R376). -/
def execAnd (t : Thread) (d : BitVec 5) (a : BitVec 5) (b : BitVec 5) (s : State) : Host.Outcome State Fault Refusal :=
  next (beadRun t (bAlu 2 d a b) s)

/-- OR (R376). -/
def execOr (t : Thread) (d : BitVec 5) (a : BitVec 5) (b : BitVec 5) (s : State) : Host.Outcome State Fault Refusal :=
  next (beadRun t (bAlu 3 d a b) s)

/-- XOR (R376). -/
def execXor (t : Thread) (d : BitVec 5) (a : BitVec 5) (b : BitVec 5) (s : State) : Host.Outcome State Fault Refusal :=
  next (beadRun t (bAlu 4 d a b) s)

/-- SHL (R376). -/
def execShl (t : Thread) (d : BitVec 5) (a : BitVec 5) (b : BitVec 5) (s : State) : Host.Outcome State Fault Refusal :=
  next (beadRun t (bAlu 5 d a b) s)

/-- SHR (R376). -/
def execShr (t : Thread) (d : BitVec 5) (a : BitVec 5) (b : BitVec 5) (s : State) : Host.Outcome State Fault Refusal :=
  next (beadRun t (bAlu 6 d a b) s)

/-- SAR (R376). -/
def execSar (t : Thread) (d : BitVec 5) (a : BitVec 5) (b : BitVec 5) (s : State) : Host.Outcome State Fault Refusal :=
  next (beadRun t (bAlu 7 d a b) s)

/-- MUL (R376). -/
def execMul (t : Thread) (d : BitVec 5) (a : BitVec 5) (b : BitVec 5) (s : State) : Host.Outcome State Fault Refusal :=
  next (beadRun t (bAlu 8 d a b) s)

/-- MULHU (R376). -/
def execMulhu (t : Thread) (d : BitVec 5) (a : BitVec 5) (b : BitVec 5) (s : State) : Host.Outcome State Fault Refusal :=
  next (beadRun t (bAlu 9 d a b) s)

/-- DIVU (R370). -/
def execDivu (t : Thread) (d : BitVec 5) (a : BitVec 5) (b : BitVec 5) (s : State) : Host.Outcome State Fault Refusal :=
  next (beadRun t (bAlu 10 d a b) s)

/-- REMU (R370). -/
def execRemu (t : Thread) (d : BitVec 5) (a : BitVec 5) (b : BitVec 5) (s : State) : Host.Outcome State Fault Refusal :=
  next (beadRun t (bAlu 11 d a b) s)

/-- MINS (R376). -/
def execMins (t : Thread) (d : BitVec 5) (a : BitVec 5) (b : BitVec 5) (s : State) : Host.Outcome State Fault Refusal :=
  next (beadRun t (bAlu 12 d a b) s)

/-- MAXS (R376). -/
def execMaxs (t : Thread) (d : BitVec 5) (a : BitVec 5) (b : BitVec 5) (s : State) : Host.Outcome State Fault Refusal :=
  next (beadRun t (bAlu 13 d a b) s)

/-- MINU (R376). -/
def execMinu (t : Thread) (d : BitVec 5) (a : BitVec 5) (b : BitVec 5) (s : State) : Host.Outcome State Fault Refusal :=
  next (beadRun t (bAlu 14 d a b) s)

/-- MAXU (R376). -/
def execMaxu (t : Thread) (d : BitVec 5) (a : BitVec 5) (b : BitVec 5) (s : State) : Host.Outcome State Fault Refusal :=
  next (beadRun t (bAlu 15 d a b) s)

/-- SEQ (R376). -/
def execSeq (t : Thread) (d : BitVec 5) (a : BitVec 5) (b : BitVec 5) (s : State) : Host.Outcome State Fault Refusal :=
  next (beadRun t (bAlu 16 d a b) s)

/-- SLT (R376). -/
def execSlt (t : Thread) (d : BitVec 5) (a : BitVec 5) (b : BitVec 5) (s : State) : Host.Outcome State Fault Refusal :=
  next (beadRun t (bAlu 17 d a b) s)

/-- SLTU (R376). -/
def execSltu (t : Thread) (d : BitVec 5) (a : BitVec 5) (b : BitVec 5) (s : State) : Host.Outcome State Fault Refusal :=
  next (beadRun t (bAlu 18 d a b) s)

/-- POPC (R376). -/
def execPopc (t : Thread) (d : BitVec 5) (a : BitVec 5) (s : State) : Host.Outcome State Fault Refusal :=
  next (beadRun t (bAlu 19 d a 0#5) s)

/-- CLZ (R376). -/
def execClz (t : Thread) (d : BitVec 5) (a : BitVec 5) (s : State) : Host.Outcome State Fault Refusal :=
  next (beadRun t (bAlu 20 d a 0#5) s)

/-- CTZ (R376). -/
def execCtz (t : Thread) (d : BitVec 5) (a : BitVec 5) (s : State) : Host.Outcome State Fault Refusal :=
  next (beadRun t (bAlu 21 d a 0#5) s)

/-- ADDI (R376). -/
def execAddi (t : Thread) (d : BitVec 5) (a : BitVec 5) (imm : BitVec 16) (s : State) : Host.Outcome State Fault Refusal :=
  next (beadRun t (bAlui 2 d a imm) s)

/-- ANDI (R376). -/
def execAndi (t : Thread) (d : BitVec 5) (a : BitVec 5) (imm : BitVec 16) (s : State) : Host.Outcome State Fault Refusal :=
  next (beadRun t (bAlui 3 d a imm) s)

/-- ORI (R376). -/
def execOri (t : Thread) (d : BitVec 5) (a : BitVec 5) (imm : BitVec 16) (s : State) : Host.Outcome State Fault Refusal :=
  next (beadRun t (bAlui 4 d a imm) s)

/-- XORI (R376). -/
def execXori (t : Thread) (d : BitVec 5) (a : BitVec 5) (imm : BitVec 16) (s : State) : Host.Outcome State Fault Refusal :=
  next (beadRun t (bAlui 5 d a imm) s)

/-- SHLI (R376). -/
def execShli (t : Thread) (d : BitVec 5) (a : BitVec 5) (imm : BitVec 16) (s : State) : Host.Outcome State Fault Refusal :=
  next (beadRun t (bAlui 6 d a imm) s)

/-- SHRI (R376). -/
def execShri (t : Thread) (d : BitVec 5) (a : BitVec 5) (imm : BitVec 16) (s : State) : Host.Outcome State Fault Refusal :=
  next (beadRun t (bAlui 7 d a imm) s)

/-- SARI (R376). -/
def execSari (t : Thread) (d : BitVec 5) (a : BitVec 5) (imm : BitVec 16) (s : State) : Host.Outcome State Fault Refusal :=
  next (beadRun t (bAlui 8 d a imm) s)

/-- SLTI (R376). -/
def execSlti (t : Thread) (d : BitVec 5) (a : BitVec 5) (imm : BitVec 16) (s : State) : Host.Outcome State Fault Refusal :=
  next (beadRun t (bAlui 9 d a imm) s)

/-- LUI (R376). -/
def execLui (t : Thread) (d : BitVec 5) (imm : BitVec 21) (s : State) : Host.Outcome State Fault Refusal :=
  next (beadRun t (bLui d imm) s)

/-- FADD (R370). -/
def execFadd (t : Thread) (d : BitVec 5) (a : BitVec 5) (b : BitVec 5) (s : State) : Host.Outcome State Fault Refusal :=
  next (beadRun t (bFpu 0 d a b) s)

/-- FSUB (R370). -/
def execFsub (t : Thread) (d : BitVec 5) (a : BitVec 5) (b : BitVec 5) (s : State) : Host.Outcome State Fault Refusal :=
  next (beadRun t (bFpu 1 d a b) s)

/-- FMUL (R370). -/
def execFmul (t : Thread) (d : BitVec 5) (a : BitVec 5) (b : BitVec 5) (s : State) : Host.Outcome State Fault Refusal :=
  next (beadRun t (bFpu 2 d a b) s)

/-- FDIV (R370). -/
def execFdiv (t : Thread) (d : BitVec 5) (a : BitVec 5) (b : BitVec 5) (s : State) : Host.Outcome State Fault Refusal :=
  next (beadRun t (bFpu 3 d a b) s)

/-- FMIN (R370). -/
def execFmin (t : Thread) (d : BitVec 5) (a : BitVec 5) (b : BitVec 5) (s : State) : Host.Outcome State Fault Refusal :=
  next (beadRun t (bFpu 4 d a b) s)

/-- FMAX (R370). -/
def execFmax (t : Thread) (d : BitVec 5) (a : BitVec 5) (b : BitVec 5) (s : State) : Host.Outcome State Fault Refusal :=
  next (beadRun t (bFpu 5 d a b) s)

/-- FLT (R376). -/
def execFlt (t : Thread) (d : BitVec 5) (a : BitVec 5) (b : BitVec 5) (s : State) : Host.Outcome State Fault Refusal :=
  next (beadRun t (bFpu 6 d a b) s)

/-- FEQ (R376). -/
def execFeq (t : Thread) (d : BitVec 5) (a : BitVec 5) (b : BitVec 5) (s : State) : Host.Outcome State Fault Refusal :=
  next (beadRun t (bFpu 7 d a b) s)

/-- FCVTIF (R376). -/
def execFcvtif (t : Thread) (d : BitVec 5) (a : BitVec 5) (s : State) : Host.Outcome State Fault Refusal :=
  next (beadRun t (bFpu 8 d a 0#5) s)

/-- FCVTFI (R370). -/
def execFcvtfi (t : Thread) (d : BitVec 5) (a : BitVec 5) (s : State) : Host.Outcome State Fault Refusal :=
  next (beadRun t (bFpu 9 d a 0#5) s)

/-- LDB (R376). -/
def execLdb (t : Thread) (d : BitVec 5) (a : BitVec 5) (imm : BitVec 16) (s : State) : Host.Outcome State Fault Refusal :=
  next (beadRun t (bLd 0 d a imm) s)

/-- LDH (R376). -/
def execLdh (t : Thread) (d : BitVec 5) (a : BitVec 5) (imm : BitVec 16) (s : State) : Host.Outcome State Fault Refusal :=
  next (beadRun t (bLd 1 d a imm) s)

/-- LDW (R376). -/
def execLdw (t : Thread) (d : BitVec 5) (a : BitVec 5) (imm : BitVec 16) (s : State) : Host.Outcome State Fault Refusal :=
  next (beadRun t (bLd 2 d a imm) s)

/-- LDD (R376). -/
def execLdd (t : Thread) (d : BitVec 5) (a : BitVec 5) (imm : BitVec 16) (s : State) : Host.Outcome State Fault Refusal :=
  next (beadRun t (bLd 3 d a imm) s)

/-- STB (R376). -/
def execStb (t : Thread) (d : BitVec 5) (a : BitVec 5) (imm : BitVec 16) (s : State) : Host.Outcome State Fault Refusal :=
  next (beadRun t (bSt 0 d a imm) s)

/-- STH (R376). -/
def execSth (t : Thread) (d : BitVec 5) (a : BitVec 5) (imm : BitVec 16) (s : State) : Host.Outcome State Fault Refusal :=
  next (beadRun t (bSt 1 d a imm) s)

/-- STW (R376). -/
def execStw (t : Thread) (d : BitVec 5) (a : BitVec 5) (imm : BitVec 16) (s : State) : Host.Outcome State Fault Refusal :=
  next (beadRun t (bSt 2 d a imm) s)

/-- STD (R376). -/
def execStd (t : Thread) (d : BitVec 5) (a : BitVec 5) (imm : BitVec 16) (s : State) : Host.Outcome State Fault Refusal :=
  next (beadRun t (bSt 3 d a imm) s)

/-- BEQ (R376). -/
def execBeq (t : Thread) (a : BitVec 5) (b : BitVec 5) (off : BitVec 16) (s : State) : Host.Outcome State Fault Refusal :=
  next (beadRun t (bBranch 0x18 a b off) s)

/-- BNE (R376). -/
def execBne (t : Thread) (a : BitVec 5) (b : BitVec 5) (off : BitVec 16) (s : State) : Host.Outcome State Fault Refusal :=
  next (beadRun t (bBranch 0x19 a b off) s)

/-- BLT (R376). -/
def execBlt (t : Thread) (a : BitVec 5) (b : BitVec 5) (off : BitVec 16) (s : State) : Host.Outcome State Fault Refusal :=
  next (beadRun t (bBranch 0x1A a b off) s)

/-- BGE (R376). -/
def execBge (t : Thread) (a : BitVec 5) (b : BitVec 5) (off : BitVec 16) (s : State) : Host.Outcome State Fault Refusal :=
  next (beadRun t (bBranch 0x1B a b off) s)

/-- BLTU (R376). -/
def execBltu (t : Thread) (a : BitVec 5) (b : BitVec 5) (off : BitVec 16) (s : State) : Host.Outcome State Fault Refusal :=
  next (beadRun t (bBranch 0x1C a b off) s)

/-- BGEU (R376). -/
def execBgeu (t : Thread) (a : BitVec 5) (b : BitVec 5) (off : BitVec 16) (s : State) : Host.Outcome State Fault Refusal :=
  next (beadRun t (bBranch 0x1D a b off) s)

/-- JAL (R376). -/
def execJal (t : Thread) (d : BitVec 5) (imm : BitVec 21) (s : State) : Host.Outcome State Fault Refusal :=
  next (beadRun t (bJal d imm) s)

/-- JR (R392). -/
def execJr (t : Thread) (d : BitVec 5) (a : BitVec 5) (s : State) : Host.Outcome State Fault Refusal :=
  next (beadRun t (bJr d a) s)

/-- VADDW (R376). -/
def execVaddw (t : Thread) (vd : BitVec 4) (va : BitVec 4) (vb : BitVec 4) (k : BitVec 3) (s : State) : Host.Outcome State Fault Refusal :=
  next (beadRun t (bValu 0 vd va vb k) s)

/-- VSUBW (R376). -/
def execVsubw (t : Thread) (vd : BitVec 4) (va : BitVec 4) (vb : BitVec 4) (k : BitVec 3) (s : State) : Host.Outcome State Fault Refusal :=
  next (beadRun t (bValu 1 vd va vb k) s)

/-- VAND (R376). -/
def execVand (t : Thread) (vd : BitVec 4) (va : BitVec 4) (vb : BitVec 4) (k : BitVec 3) (s : State) : Host.Outcome State Fault Refusal :=
  next (beadRun t (bValu 2 vd va vb k) s)

/-- VOR (R376). -/
def execVor (t : Thread) (vd : BitVec 4) (va : BitVec 4) (vb : BitVec 4) (k : BitVec 3) (s : State) : Host.Outcome State Fault Refusal :=
  next (beadRun t (bValu 3 vd va vb k) s)

/-- VXOR (R376). -/
def execVxor (t : Thread) (vd : BitVec 4) (va : BitVec 4) (vb : BitVec 4) (k : BitVec 3) (s : State) : Host.Outcome State Fault Refusal :=
  next (beadRun t (bValu 4 vd va vb k) s)

/-- VSHLW (R376). -/
def execVshlw (t : Thread) (vd : BitVec 4) (va : BitVec 4) (vb : BitVec 4) (k : BitVec 3) (s : State) : Host.Outcome State Fault Refusal :=
  next (beadRun t (bValu 5 vd va vb k) s)

/-- VSHRW (R376). -/
def execVshrw (t : Thread) (vd : BitVec 4) (va : BitVec 4) (vb : BitVec 4) (k : BitVec 3) (s : State) : Host.Outcome State Fault Refusal :=
  next (beadRun t (bValu 6 vd va vb k) s)

/-- VMINUW (R376). -/
def execVminuw (t : Thread) (vd : BitVec 4) (va : BitVec 4) (vb : BitVec 4) (k : BitVec 3) (s : State) : Host.Outcome State Fault Refusal :=
  next (beadRun t (bValu 7 vd va vb k) s)

/-- VMAXUW (R376). -/
def execVmaxuw (t : Thread) (vd : BitVec 4) (va : BitVec 4) (vb : BitVec 4) (k : BitVec 3) (s : State) : Host.Outcome State Fault Refusal :=
  next (beadRun t (bValu 8 vd va vb k) s)

/-- VFADD (R376). -/
def execVfadd (t : Thread) (vd : BitVec 4) (va : BitVec 4) (vb : BitVec 4) (k : BitVec 3) (s : State) : Host.Outcome State Fault Refusal :=
  next (beadRun t (bValu 9 vd va vb k) s)

/-- VFSUB (R376). -/
def execVfsub (t : Thread) (vd : BitVec 4) (va : BitVec 4) (vb : BitVec 4) (k : BitVec 3) (s : State) : Host.Outcome State Fault Refusal :=
  next (beadRun t (bValu 10 vd va vb k) s)

/-- VFMUL (R376). -/
def execVfmul (t : Thread) (vd : BitVec 4) (va : BitVec 4) (vb : BitVec 4) (k : BitVec 3) (s : State) : Host.Outcome State Fault Refusal :=
  next (beadRun t (bValu 11 vd va vb k) s)

/-- VFMIN (R370). -/
def execVfmin (t : Thread) (vd : BitVec 4) (va : BitVec 4) (vb : BitVec 4) (k : BitVec 3) (s : State) : Host.Outcome State Fault Refusal :=
  next (beadRun t (bValu 12 vd va vb k) s)

/-- VFMAX (R370). -/
def execVfmax (t : Thread) (vd : BitVec 4) (va : BitVec 4) (vb : BitVec 4) (k : BitVec 3) (s : State) : Host.Outcome State Fault Refusal :=
  next (beadRun t (bValu 13 vd va vb k) s)

/-- VCVTIF (R376). -/
def execVcvtif (t : Thread) (vd : BitVec 4) (va : BitVec 4) (k : BitVec 3) (s : State) : Host.Outcome State Fault Refusal :=
  next (beadRun t (bValu 14 vd va 0#4 k) s)

/-- VCVTFI (R376). -/
def execVcvtfi (t : Thread) (vd : BitVec 4) (va : BitVec 4) (k : BitVec 3) (s : State) : Host.Outcome State Fault Refusal :=
  next (beadRun t (bValu 15 vd va 0#4 k) s)

/-- VMOV (R376). -/
def execVmov (t : Thread) (vd : BitVec 4) (va : BitVec 4) (k : BitVec 3) (s : State) : Host.Outcome State Fault Refusal :=
  next (beadRun t (bValu 16 vd va 0#4 k) s)

/-- VBCAST (R376). -/
def execVbcast (t : Thread) (vd : BitVec 4) (va : BitVec 4) (k : BitVec 3) (s : State) : Host.Outcome State Fault Refusal :=
  next (beadRun t (bValu 17 vd va 0#4 k) s)

/-- VPERMW (R376). -/
def execVpermw (t : Thread) (vd : BitVec 4) (va : BitVec 4) (vb : BitVec 4) (k : BitVec 3) (s : State) : Host.Outcome State Fault Refusal :=
  next (beadRun t (bValu 18 vd va vb k) s)

/-- VFLT (R376). -/
def execVflt (t : Thread) (kd : BitVec 3) (va : BitVec 4) (vb : BitVec 4) (k : BitVec 3) (s : State) : Host.Outcome State Fault Refusal :=
  next (beadRun t (bVcmp 0 kd va vb k) s)

/-- VFLE (R376). -/
def execVfle (t : Thread) (kd : BitVec 3) (va : BitVec 4) (vb : BitVec 4) (k : BitVec 3) (s : State) : Host.Outcome State Fault Refusal :=
  next (beadRun t (bVcmp 1 kd va vb k) s)

/-- VFEQ (R376). -/
def execVfeq (t : Thread) (kd : BitVec 3) (va : BitVec 4) (vb : BitVec 4) (k : BitVec 3) (s : State) : Host.Outcome State Fault Refusal :=
  next (beadRun t (bVcmp 2 kd va vb k) s)

/-- VILT (R376). -/
def execVilt (t : Thread) (kd : BitVec 3) (va : BitVec 4) (vb : BitVec 4) (k : BitVec 3) (s : State) : Host.Outcome State Fault Refusal :=
  next (beadRun t (bVcmp 3 kd va vb k) s)

/-- VILTU (R376). -/
def execViltu (t : Thread) (kd : BitVec 3) (va : BitVec 4) (vb : BitVec 4) (k : BitVec 3) (s : State) : Host.Outcome State Fault Refusal :=
  next (beadRun t (bVcmp 4 kd va vb k) s)

/-- VIEQ (R376). -/
def execVieq (t : Thread) (kd : BitVec 3) (va : BitVec 4) (vb : BitVec 4) (k : BitVec 3) (s : State) : Host.Outcome State Fault Refusal :=
  next (beadRun t (bVcmp 5 kd va vb k) s)

/-- VBEQ (R376). -/
def execVbeq (t : Thread) (kd : BitVec 3) (va : BitVec 4) (vb : BitVec 4) (k : BitVec 3) (s : State) : Host.Outcome State Fault Refusal :=
  next (beadRun t (bVcmp 6 kd va vb k) s)

/-- VLD (R376). -/
def execVld (t : Thread) (vd : BitVec 4) (a : BitVec 5) (imm : BitVec 16) (s : State) : Host.Outcome State Fault Refusal :=
  next (beadRun t (bVld vd a imm) s)

/-- VST (R376). -/
def execVst (t : Thread) (vd : BitVec 4) (a : BitVec 5) (imm : BitVec 16) (s : State) : Host.Outcome State Fault Refusal :=
  next (beadRun t (bVst vd a imm) s)

/-- TSTEP (R379). -/
def execTstep (t : Thread) (d : BitVec 5) (a : BitVec 5) (b : BitVec 5) (s : State) : Host.Outcome State Fault Refusal :=
  next (beadRun t (bTstep d a b) s)

/-- TTOK (R379). -/
def execTtok (t : Thread) (d : BitVec 5) (a : BitVec 5) (s : State) : Host.Outcome State Fault Refusal :=
  next (beadRun t (bTtok d a) s)

/-- TROOT (R379). -/
def execTroot (t : Thread) (d : BitVec 5) (a : BitVec 5) (s : State) : Host.Outcome State Fault Refusal :=
  next (beadRun t (bTroot d a) s)

/-- DSTEP (R379). -/
def execDstep (t : Thread) (d : BitVec 5) (a : BitVec 5) (b : BitVec 5) (s : State) : Host.Outcome State Fault Refusal :=
  next (beadRun t (bDstep d a b) s)

/-- TBASE (R378). -/
def execTbase (t : Thread) (a : BitVec 5) (s : State) : Host.Outcome State Fault Refusal :=
  next (beadRun t (bTbase a) s)

/-- DBASE (R378). -/
def execDbase (t : Thread) (a : BitVec 5) (s : State) : Host.Outcome State Fault Refusal :=
  next (beadRun t (bDbase a) s)

/-- MPROBE (R379). -/
def execMprobe (t : Thread) (d : BitVec 5) (a : BitVec 5) (b : BitVec 5) (s : State) : Host.Outcome State Fault Refusal :=
  next (beadRun t (bMprobe d a b) s)

/-- MHASH (R381). -/
def execMhash (t : Thread) (d : BitVec 5) (a : BitVec 5) (b : BitVec 5) (s : State) : Host.Outcome State Fault Refusal :=
  next (beadRun t (bMhash d a b) s)

/-- UDEC (R382). -/
def execUdec (t : Thread) (d : BitVec 5) (a : BitVec 5) (b : BitVec 5) (s : State) : Host.Outcome State Fault Refusal :=
  next (beadRun t (bUdec d a b) s)

/-- UNORM (R379). -/
def execUnorm (t : Thread) (d : BitVec 5) (a : BitVec 5) (s : State) : Host.Outcome State Fault Refusal :=
  next (beadRun t (bUnorm d a) s)

/-- UCLASS (R379). -/
def execUclass (t : Thread) (d : BitVec 5) (a : BitVec 5) (s : State) : Host.Outcome State Fault Refusal :=
  next (beadRun t (bUclass d a) s)

/-- UENC (R379). -/
def execUenc (t : Thread) (d : BitVec 5) (a : BitVec 5) (s : State) : Host.Outcome State Fault Refusal :=
  next (beadRun t (bUenc d a) s)

/-- HCOMP (R379). -/
def execHcomp (t : Thread) (vd : BitVec 4) (va : BitVec 4) (vb : BitVec 4) (s : State) : Host.Outcome State Fault Refusal :=
  next (beadRun t (bHcomp vd va vb) s)

/-- BAND (R379). -/
def execBand (t : Thread) (vd : BitVec 4) (va : BitVec 4) (vb : BitVec 4) (s : State) : Host.Outcome State Fault Refusal :=
  next (beadRun t (bBset 0 vd va vb) s)

/-- BOR (R379). -/
def execBor (t : Thread) (vd : BitVec 4) (va : BitVec 4) (vb : BitVec 4) (s : State) : Host.Outcome State Fault Refusal :=
  next (beadRun t (bBset 1 vd va vb) s)

/-- BANDN (R379). -/
def execBandn (t : Thread) (vd : BitVec 4) (va : BitVec 4) (vb : BitVec 4) (s : State) : Host.Outcome State Fault Refusal :=
  next (beadRun t (bBset 2 vd va vb) s)

/-- BXOR (R379). -/
def execBxor (t : Thread) (vd : BitVec 4) (va : BitVec 4) (vb : BitVec 4) (s : State) : Host.Outcome State Fault Refusal :=
  next (beadRun t (bBset 3 vd va vb) s)

/-- BPOP (R379). -/
def execBpop (t : Thread) (d : BitVec 5) (va : BitVec 4) (s : State) : Host.Outcome State Fault Refusal :=
  next (beadRun t (bBpop d va) s)

/-- BFFS (R379). -/
def execBffs (t : Thread) (d : BitVec 5) (va : BitVec 4) (s : State) : Host.Outcome State Fault Refusal :=
  next (beadRun t (bBffs d va) s)

/-- BSEL (R379). -/
def execBsel (t : Thread) (d : BitVec 5) (va : BitVec 4) (b : BitVec 5) (s : State) : Host.Outcome State Fault Refusal :=
  next (beadRun t (bBsel d va b) s)

/-- BRUN (R379). -/
def execBrun (t : Thread) (vd : BitVec 4) (a : BitVec 5) (b : BitVec 5) (s : State) : Host.Outcome State Fault Refusal :=
  next (beadRun t (bBrun vd a b) s)

/-- CMAXK (R379). -/
def execCmaxk (t : Thread) (d : BitVec 5) (va : BitVec 4) (vb : BitVec 4) (s : State) : Host.Outcome State Fault Refusal :=
  next (beadRun t (bCmaxk d va vb) s)

/-- CMINU (R379). -/
def execCminu (t : Thread) (d : BitVec 5) (va : BitVec 4) (s : State) : Host.Outcome State Fault Refusal :=
  next (beadRun t (bCminu d va) s)

/-- CGEF (R379). -/
def execCgef (t : Thread) (kd : BitVec 3) (va : BitVec 4) (vb : BitVec 4) (s : State) : Host.Outcome State Fault Refusal :=
  next (beadRun t (bCmp false kd va vb) s)

/-- CEQU (R379). -/
def execCequ (t : Thread) (kd : BitVec 3) (va : BitVec 4) (vb : BitVec 4) (s : State) : Host.Outcome State Fault Refusal :=
  next (beadRun t (bCmp true kd va vb) s)

/-- GET (R385). -/
def execGet (t : Thread) (d : BitVec 5) (a : BitVec 5) (b : BitVec 5) (s : State) : Host.Outcome State Fault Refusal :=
  next (beadRun t (bGet d a b) s)

/-- WAIT (R385). -/
def execWait (t : Thread) (a : BitVec 5) (s : State) : Host.Outcome State Fault Refusal :=
  next (beadRun t (bWait a) s)

/-- NOP (R376). -/
def execNop (t : Thread) (s : State) : Host.Outcome State Fault Refusal :=
  next (beadRun t (bNop) s)

/-- EXIT (R386). -/
def execExit (t : Thread) (code : BitVec 5) (s : State) : Host.Outcome State Fault Refusal :=
  next (beadRun t (bExit code) s)

/-- TRAP (R394). -/
def execTrap (t : Thread) (code : BitVec 5) (s : State) : Host.Outcome State Fault Refusal :=
  next (beadRun t (bTrap code) s)

/-- RNG (R388). -/
def execRng (t : Thread) (vd : BitVec 4) (a : BitVec 5) (s : State) : Host.Outcome State Fault Refusal :=
  next (beadRun t (bRng vd a) s)

/-- FENCE (R377). -/
def execFence (t : Thread) (s : State) : Host.Outcome State Fault Refusal :=
  next (beadRun t (bFence) s)

/-- VFILL (R376). -/
def execVfill (t : Thread) (vd : BitVec 4) (a : BitVec 5) (s : State) : Host.Outcome State Fault Refusal :=
  next (beadRun t (bVfill vd a) s)

/-- VEXT (R376). -/
def execVext (t : Thread) (d : BitVec 5) (va : BitVec 4) (b : BitVec 5) (s : State) : Host.Outcome State Fault Refusal :=
  next (beadRun t (bVext d va b) s)

/-- KFROMX (R376). -/
def execKfromx (t : Thread) (kd : BitVec 3) (a : BitVec 5) (s : State) : Host.Outcome State Fault Refusal :=
  next (beadRun t (bKfromx kd a) s)

/-- KTOX (R376). -/
def execKtox (t : Thread) (d : BitVec 5) (ka : BitVec 3) (s : State) : Host.Outcome State Fault Refusal :=
  next (beadRun t (bKtox d ka) s)

/-- KAND (R376). -/
def execKand (t : Thread) (kd : BitVec 3) (ka : BitVec 3) (kb : BitVec 3) (s : State) : Host.Outcome State Fault Refusal :=
  next (beadRun t (bKop 9 kd ka kb) s)

/-- KOR (R376). -/
def execKor (t : Thread) (kd : BitVec 3) (ka : BitVec 3) (kb : BitVec 3) (s : State) : Host.Outcome State Fault Refusal :=
  next (beadRun t (bKop 10 kd ka kb) s)

/-- KANDN (R376). -/
def execKandn (t : Thread) (kd : BitVec 3) (ka : BitVec 3) (kb : BitVec 3) (s : State) : Host.Outcome State Fault Refusal :=
  next (beadRun t (bKop 11 kd ka kb) s)

/-- CALL_BUDGET_FAULT (R383). -/
def execCallBudgetFault (t : Thread) (s : State) : Host.Outcome State Fault Refusal := next (callBudgetFault t s)

/-- ILLEGAL_INSTRUCTION (R394). -/
def execIllegalInstruction (t : Thread) (s : State) : Host.Outcome State Fault Refusal := next (illegalInstruction t s)

/-- GET_COMPLETE (R385). -/
def execGetComplete (t : Thread) (tag : Fin 4) (s : State) : Host.Outcome State Fault Refusal := next (getComplete t tag s)

end Sys2Proof.Machine
end

