-- ==== Sys2Proof/Machine/Debug.lean ====
section
/-! DEFINITION. Sys2Proof/Machine/Debug.lean: the TAP and debug access to registers (R668 to R673). -/
namespace Sys2Proof.Machine
open Sys2Proof

/-- The TAP selects an instruction and captures its data register. -/
def State.tap (s : State) (ir : Byte) (dr : DWord) : State := { s with tapIr := ir, tapDr := dr }

/-- TAP_RESET: Test-Logic-Reset selects IDCODE. -/
def tapReset (s : State) : State := { s with tapIr := 0x01#8 }
/-- BYPASS: one bit, captured 0. -/
def tapBypass (s : State) : State := s.tap 0xFF#8 0#64
/-- The device code. -/
def State.idcodeVal (s : State) : Nat := 2 * 2 ^ 28 + 0x504C * 2 ^ 12 + fld (s.fusWord 0x3F) 0 11 * 2 + 1
/-- IDCODE. -/
def tapIdcode (s : State) : State := s.tap 0x01#8 (BitVec.ofNat 64 s.idcodeVal)
/-- The value of DBG_STATUS. -/
def State.dbgVal (s : State) : Nat :=
  (if s.debugOpen then 2 ^ 31 else 0) + (if s.rf rCfgStrap 0 4 == 0xD || s.rf rCfgStrap 0 4 == 0xE then 2 ^ 30 else 0) +
  (if s.rb rFusStat 29 then 2 ^ 29 else 0) + s.role * 2 ^ 27 + s.rf rSecDbgUnlock 0 16
/-- DBG_STATUS. -/
def tapDbgStatus (s : State) : State := s.tap 0x11#8 (BitVec.ofNat 64 s.dbgVal)

/-- Debug is unlocked for a partition. -/
def State.unlocked (s : State) (p : Part) : Bool := s.rb rSecDbgUnlock p
/-- R670: may a debug access reach the offset? -/
def State.dbgAllowed (s : State) (off : Nat) (write : Bool) : Bool :=
  let pairOk := !(s.paired && write) || csrWin off == .lpe
  let winOk := match csrWin off with
    | .global | .vgs | .prk | .lpe => true
    | .part p _ => s.unlocked p
    | .ring r _ => match s.ringOwner r with | some p => s.unlocked p | none => false
    | .clu c _ => match s.groupOwner (cluGrp c) with | some p => s.unlocked p | none => true
    | .sec =>
      !write && (off < rSecMeas 8 || off == rSecKeyStat || off == rSecDbgStat || (rSecPrtKeys 0 ≤ off && off < rSecPrtKeys 16))
    | .none => false
  pairOk && winOk

/-- Fields of the CSR_ACC data register (R671); bits [33:32] are zero. -/
def accWrite (dr : DWord) : Bool := bit dr 57
def accOff (dr : DWord) : Nat := fld dr 34 23 * 4
def accData (dr : DWord) : Word := BitVec.ofNat 32 (fld dr 0 32)
/-- The register as captured: status, and the access's fields with its data. -/
def accResult (status : Nat) (dr : DWord) (data : Word) : DWord :=
  BitVec.ofNat 64 (status * 2 ^ 58 + (if accWrite dr then 2 ^ 57 else 0) + accOff dr * 2 ^ 32 + data.toNat)

/-- A debug access is denied (R670, R672). -/
def State.denyAccess (s : State) (dr : DWord) : State :=
  { s.bumpBy rSecDbgStat 0 16 1 with tapRes := accResult 2 dr (accData dr), access := none }
/-- An access is decided by what stands when the cycle of its start ends (R673): it is denied when the cycle has taken what allowed it. -/
def State.accessDecided (s : State) : State :=
  match s.access with
  | some dr => if s.accessAt == s.time && !s.dbgAllowed (accOff dr) (accWrite dr) then s.denyAccess dr else s
  | none => s

/-- CSR_ACC: Capture-DR loads the result of the last access, then Update-DR starts the next unless one still runs. -/
def csrAcc (dr : DWord) (s : State) : State :=
  let s := s.tap 0x10#8 (match s.access with | some a => accResult 1 a (accData a) | none => s.tapRes)
  if s.access.isSome then s
  else if !s.debugOpen then { s with tapRes := accResult 3 dr (accData dr) }
  else if !s.dbgAllowed (accOff dr) (accWrite dr) then s.denyAccess dr
  else { s with access := some dr, accessAt := s.time }

/-- CSR_ACC_DONE: the access acts as a software access at this moment. -/
def csrAccDone (s : State) : State :=
  let s := s.accessDecided
  match s.access with
  | none => s
  | some dr =>
    let s := { s with access := none }
    if accWrite dr then { csrWrite (accOff dr) (accData dr) s with tapRes := accResult 0 dr (accData dr) }
    else
      let r := s.resp
      let t := csrRead (accOff dr) s
      { t with tapRes := accResult 0 dr t.resp.value, resp := r }

/-- TAP_RESET. -/
def execTapReset (s : State) : Host.Outcome State Fault Refusal := next (tapReset s)
/-- BYPASS. -/
def execBypass (s : State) : Host.Outcome State Fault Refusal := next (tapBypass s)
/-- IDCODE. -/
def execIdcode (s : State) : Host.Outcome State Fault Refusal := next (tapIdcode s)
/-- DBG_STATUS. -/
def execDbgStatus (s : State) : Host.Outcome State Fault Refusal := next (tapDbgStatus s)
/-- CSR_ACC. -/
def execCsrAcc (dr : DWord) (s : State) : Host.Outcome State Fault Refusal := next (csrAcc dr s)
/-- CSR_ACC_DONE. -/
def execCsrAccDone (s : State) : Host.Outcome State Fault Refusal := runAon csrAccDone s

end Sys2Proof.Machine
end

