-- ==== Sys2Proof/Machine/Pair.lean ====
section
/-! DEFINITION. Sys2Proof/Machine/Pair.lean: a formed pair at work: compare, mismatch and replay, heartbeats, self-test and isolation
(R621 to R633, R637). -/
namespace Sys2Proof.Machine
open Sys2Proof

/-- Apply a command that commits a part. -/
def State.applyCmd (s : State) : Instr → State
  | .clasp c => clasp c s
  | .encode c => encode c s
  | .encodeAppend c => encodeAppend c s
  | .decode c => decode c s
  | .prefillChunks c => prefillChunks c s
  | .hashBlocks c => hashBlocks c s
  | .maskBatch c => maskBatch c s
  | .specVerify c => specVerify c s
  | .objectLoad c => objectLoad c s
  | .objectRetire c => objectRetire c s
  | .sessionOpen c => sessionOpen c s
  | .sessionClose c => sessionClose c s
  | .rollback c => rollback c s
  | .budgetSet c => opBudgetSet c s
  | .stepRowStart c k => stepRowStart c k s
  | .extensionPass c k => extensionPass c k s
  | .drawPass c k => stepDrawPass c k s
  | .stepCommit c k => stepCommit c k s
  | .park c => park c s
  | .revive c => revive c s
  | .locketExport c => locketExport c s
  | .locketImport c => locketImport c s
  | _ => s

/-! ### Compare, mismatch and decisions (R621 to R626) -/

/-- The secondary adopts a decision of the primary (R53, R309, R443, R621): a point reached by an op in a context takes effect; every other decision
waits until this member comes to what it decides. -/
def State.adoptDecision (s : State) (r : BitVec 512) : State :=
  if s.role != 2 then s
  else
    let v := BitVec.ofNat 64 (fld r 384 64)
    let d : Decision := { kind := Config.decisionKind v, part := ⟨Config.decisionPart v % 16, Nat.mod_lt _ (by decide)⟩, arg := Config.decisionArg v
                          ring := ⟨fld r 32 8 % 64, Nat.mod_lt _ (by decide)⟩, index := BitVec.ofNat 32 (fld r 0 32) }
    match d.kind, s.ctxs.find? (fun x => x.ring == d.ring && x.index == d.index) with
    | 1, some x => if x.st != .past then s.missDeadline x else s
    | 2, some x => s.ctxUpd x.id (fun y => { y with logits := true })
    | _, _ => s.pairUpd (fun x => { x with given := x.given ++ [d] })

/-- The op or the item of a digest record has ended in this member. -/
def State.recOver (s : State) (r : BitVec 512) : Bool :=
  match s.ctxs.find? (fun x => fld r 0 32 == x.index.toNat && fld r 32 8 == x.ring.val) with
  | none => false
  | some x => x.st == .past ||
    (eOp x.entry == opSTEP_BATCH && (match x.items[fld r 64 32]? with | some i => i.phase == .done | none => true))
/-- A digest record of a part that this member has not reached is kept: the newest of each part, 1,024 at most (R622). -/
def State.keepEarly (s : State) (r : BitVec 512) : State :=
  if s.recOver r then s
  else s.pairUpd (fun x => { x with
    early := (r :: x.early.filter (fun y => fld y 0 40 != fld r 0 40 || fld y 64 32 != fld r 64 32)).take 1024 })

/-- The record lies in this member's mailbox, a ring of 1,024 records (R622, R640): at its SEQ (DEDUCED, log entry 47). -/
def State.mailIn (s : State) (r : BitVec 512) : State :=
  s.wrLE (fld (s.reg64 rGlbPairMbox) 16 48 * 65536 + 64 * (fld r 448 64 % 1024)) 64 r.toNat

/-- The commit of a waiting part: its command's, or the failure of its work. -/
def State.commitPart (s : State) (q : CmpPart) : State :=
  match q.fail with
  | none => s.applyCmd q.cmd
  | some st =>
    match s.ctxs.find? (fun x => x.seq == q.seq) with
    | none => s
    | some x =>
      match q.cmd, x.items[q.part]? with
      | .stepCommit _ _, some i => s.failItem x q.part i st
      | .stepCommit _ _, none => s
      | _, _ => s.opFail x st

/-- COMPARE_RECORD (R621, R622, R624, R626, R629): equal digests commit the part. -/
def compareRecord (r : BitVec 512) (s : State) : State :=
  if !s.paired then s
  else
  let s := s.mailIn r
  if fld r 40 8 == 2 then s.adoptDecision r
  else if s.rb rGlbPairStat 27 || fld r 40 8 != 1 then s
  else
    match s.liveParts.find? (recPart r) with
    | none => s.keepEarly r
    | some q => s.compareWith q r (fun s => s.commitPart q)

/-- CMP_US in AON cycles. -/
def State.cmpWait (s : State) : Nat := max 10 (s.rf rGlbPairCfg 16 16) * 100

/-- COMPARE_TIMEOUT (R623). -/
def compareTimeout (s : State) : State :=
  if !s.paired || s.rb rGlbPairStat 27 then s
  else
    match s.liveParts.find? (fun q => !q.ok && q.at_ + s.cmpWait ≤ s.time) with
    | some q => s.partMismatch q (fun s => s.commitPart q) false false true
    | none => s

/-- A frame of the pair from the partner. -/
def State.fromPartner (s : State) (f : DWord) (typ : Nat) (act : State → State) : State :=
  s.recv f (· == typ) (fun s => if s.paired && s.forMe f && fSrc f == s.partner then act s else s)

/-- MISMATCH (R637): the partner's finding of a mismatch that this member has told already is the same one. -/
def mismatchFrame (f : DWord) (s : State) : State :=
  s.fromPartner f 0x45 (fun s =>
    if s.rb rGlbPairStat 27 then s
    else
      match s.liveParts.find? (fun q => q.index.toNat == fPay f) with
      | none => s
      | some q =>
        if q.told then s.pairUpd (fun x => { x with parts := x.parts.map (fun y => if y == q then { y with told := false } else y) })
        else s.partMismatch q (fun s => s.commitPart q) false false false)

/-! ### Heartbeats (R633) -/

/-- HEARTBEAT_SEND: every 1 ms. -/
def heartbeatSend (s : State) : State :=
  if s.paired && s.periodDue 4 100000 then (s.periodMark 4).sendPartner 0x40 s.pair.seq else s
/-- HEARTBEAT. -/
def heartbeat (f : DWord) (s : State) : State := s.fromPartner f 0x40 (fun s => s.pairUpd (fun x => { x with hbAt := s.time }))
/-- HEARTBEAT_MISS: HB_MISS heartbeats of 1 ms each are missing. -/
def heartbeatMiss (s : State) : State :=
  if !s.paired || s.time < s.pair.hbAt + max 1 (s.rf rGlbPairCfg 8 8) * 100000 then s
  else if s.role == 1 then (s.setRb rGlbPairStat 28 true).survive 1
  else (s.setRb rGlbPairStat 28 true).enterIso.setRb rGlbPairStat 28 true

/-! ### Self-test and isolation (R629, R630) -/

/-- SELFTEST: the partner's result decides, with the own one, who is isolated: the primary only when it alone fails. -/
def selftest (f : DWord) (s : State) : State :=
  s.fromPartner f 0x46 (fun s =>
    let s := s.startHold
    let own := s.rf rGlbPairStat 25 2 == 1
    let his := fPay f % 2 == 1
    let prim := if s.role == 1 then own else his
    let sec := if s.role == 1 then his else own
    if (if !prim && sec then s.role == 1 else s.role == 2) then s.isolateSelf else s)

/-- SELFTEST_TIMEOUT: no result within 4 ms of the hold: the secondary is isolated. -/
def selftestTimeout (s : State) : State :=
  if !s.paired || !s.rb rGlbPairStat 27 || s.time < s.pair.holdAt + 400000 then s
  else if s.role == 2 then s.isolateSelf
  else s.survive 1

/-- ISOLATE: the partner is being isolated; this member acknowledges and survives. -/
def isolate (f : DWord) (s : State) : State :=
  s.fromPartner f 0x41 (fun s =>
    let gone := fPay f % 2
    if gone == s.role - 1 then s else (s.sendPartner 0x42 0).survive gone)

/-- ISOLATE_ACK. -/
def isolateAck (f : DWord) (s : State) : State :=
  s.fromPartner f 0x42 (fun s => if s.pair.isoAt.isSome then s.enterIso else s)
/-- ISOLATE_ACK_TIMEOUT: 100 µs after ISOLATE. -/
def isolateAckTimeout (s : State) : State :=
  match s.pair.isoAt with
  | some t => if t + 10000 ≤ s.time then s.enterIso else s
  | none => s

/-- HEARTBEAT_SEND. -/
def execHeartbeatSend (s : State) : Host.Outcome State Fault Refusal := run heartbeatSend s
/-- HEARTBEAT. -/
def execHeartbeat (f : DWord) (s : State) : Host.Outcome State Fault Refusal := runAon (heartbeat f) s
/-- HEARTBEAT_MISS. -/
def execHeartbeatMiss (s : State) : Host.Outcome State Fault Refusal := run heartbeatMiss s
/-- MISMATCH. -/
def execMismatch (f : DWord) (s : State) : Host.Outcome State Fault Refusal := runAon (mismatchFrame f) s
/-- COMPARE_RECORD. -/
def execCompareRecord (r : BitVec 512) (s : State) : Host.Outcome State Fault Refusal := run (compareRecord r) s
/-- COMPARE_TIMEOUT. -/
def execCompareTimeout (s : State) : Host.Outcome State Fault Refusal := run compareTimeout s
/-- SELFTEST. -/
def execSelftest (f : DWord) (s : State) : Host.Outcome State Fault Refusal := runAon (selftest f) s
/-- SELFTEST_TIMEOUT. -/
def execSelftestTimeout (s : State) : Host.Outcome State Fault Refusal := run selftestTimeout s
/-- ISOLATE. -/
def execIsolate (f : DWord) (s : State) : Host.Outcome State Fault Refusal := runAon (isolate f) s
/-- ISOLATE_ACK. -/
def execIsolateAck (f : DWord) (s : State) : Host.Outcome State Fault Refusal := runAon (isolateAck f) s
/-- ISOLATE_ACK_TIMEOUT. -/
def execIsolateAckTimeout (s : State) : Host.Outcome State Fault Refusal := run isolateAckTimeout s

end Sys2Proof.Machine
end

