-- ==== Sys2Proof/Machine/Dispatch.lean ====
section
/-! DEFINITION. Sys2Proof/Machine/Dispatch.lean: one arm per command, each a direct call of the command's meaning. -/
namespace Sys2Proof.Machine
open Sys2Proof

/-- The effect of a command on everything but the queue. -/
def exec (i : Instr) (s : State) : Host.Outcome State Fault Refusal :=
  match i with
  | .powerOnReset => Sys2Proof.Machine.execPowerOnReset s
  | .hostWarmReset => Sys2Proof.Machine.execHostWarmReset s
  | .softReset v => Sys2Proof.Machine.execSoftReset v s
  | .fwWatchdogExpiry => Sys2Proof.Machine.execFwWatchdogExpiry s
  | .bootSequence strap marginal tempC media => Sys2Proof.Machine.execBootSequence strap marginal tempC media s
  | .bootResume => Sys2Proof.Machine.execBootResume s
  | .pairingTimeout => Sys2Proof.Machine.execPairingTimeout s
  | .recoveryRebuild p => Sys2Proof.Machine.execRecoveryRebuild p s
  | .sdEnable d v => Sys2Proof.Machine.execSdEnable d v s
  | .sdDisable d v => Sys2Proof.Machine.execSdDisable d v s
  | .stepBeatEdge d => Sys2Proof.Machine.execStepBeatEdge d s
  | .beatStuckDetect d => Sys2Proof.Machine.execBeatStuckDetect d s
  | .beatRelease d => Sys2Proof.Machine.execBeatRelease d s
  | .beatWatchdogExpiry d => Sys2Proof.Machine.execBeatWatchdogExpiry d s
  | .syntheticBeat d => Sys2Proof.Machine.execSyntheticBeat d s
  | .deadlineReached c => Sys2Proof.Machine.execDeadlineReached c s
  | .logitsReadyPoint c => Sys2Proof.Machine.execLogitsReadyPoint c s
  | .sqDoorbell r v => Sys2Proof.Machine.execSqDoorbell r v s
  | .sqFetch r => Sys2Proof.Machine.execSqFetch r s
  | .pushWord r k v => Sys2Proof.Machine.execPushWord r k v s
  | .pushCommit r v => Sys2Proof.Machine.execPushCommit r v s
  | .cqHeadWrite r v => Sys2Proof.Machine.execCqHeadWrite r v s
  | .ringEnable r v => Sys2Proof.Machine.execRingEnable r v s
  | .ringDisable r v => Sys2Proof.Machine.execRingDisable r v s
  | .ringFlush r v => Sys2Proof.Machine.execRingFlush r v s
  | .logitsReadyDoorbell r v => Sys2Proof.Machine.execLogitsReadyDoorbell r v s
  | .evqEnable p v => Sys2Proof.Machine.execEvqEnable p v s
  | .evqHeadWrite p v => Sys2Proof.Machine.execEvqHeadWrite p v s
  | .coalTimerExpiry r => Sys2Proof.Machine.execCoalTimerExpiry r s
  | .opDispatch r => Sys2Proof.Machine.execOpDispatch r s
  | .opReady c => Sys2Proof.Machine.execOpReady c s
  | .completionWrite c => Sys2Proof.Machine.execCompletionWrite c s
  | .sessionOpen c => Sys2Proof.Machine.execSessionOpen c s
  | .sessionClose c => Sys2Proof.Machine.execSessionClose c s
  | .encode c => Sys2Proof.Machine.execEncode c s
  | .encodeAppend c => Sys2Proof.Machine.execEncodeAppend c s
  | .decode c => Sys2Proof.Machine.execDecode c s
  | .stepBatch c => Sys2Proof.Machine.execStepBatch c s
  | .maskBatch c => Sys2Proof.Machine.execMaskBatch c s
  | .specVerify c => Sys2Proof.Machine.execSpecVerify c s
  | .prefillChunks c => Sys2Proof.Machine.execPrefillChunks c s
  | .hashBlocks c => Sys2Proof.Machine.execHashBlocks c s
  | .park c => Sys2Proof.Machine.execPark c s
  | .revive c => Sys2Proof.Machine.execRevive c s
  | .locketExport c => Sys2Proof.Machine.execLocketExport c s
  | .locketImport c => Sys2Proof.Machine.execLocketImport c s
  | .objectLoad c => Sys2Proof.Machine.execObjectLoad c s
  | .objectRetire c => Sys2Proof.Machine.execObjectRetire c s
  | .budgetSet c => Sys2Proof.Machine.execBudgetSet c s
  | .clasp c => Sys2Proof.Machine.execClasp c s
  | .abort c => Sys2Proof.Machine.execAbort c s
  | .cancel c => Sys2Proof.Machine.execCancel c s
  | .rollback c => Sys2Proof.Machine.execRollback c s
  | .query c => Sys2Proof.Machine.execQuery c s
  | .runAhead p sid => Sys2Proof.Machine.execRunAhead p sid s
  | .stepRowStart c item => Sys2Proof.Machine.execStepRowStart c item s
  | .extensionPass c item => Sys2Proof.Machine.execExtensionPass c item s
  | .drawPass c item => Sys2Proof.Machine.execDrawPass c item s
  | .stepCommit c item => Sys2Proof.Machine.execStepCommit c item s
  | .pageStallDrain p sid => Sys2Proof.Machine.execPageStallDrain p sid s
  | .reclaimRung1 p => Sys2Proof.Machine.execReclaimRung1 p s
  | .reclaimRung2 p need => Sys2Proof.Machine.execReclaimRung2 p need s
  | .refillTick => Sys2Proof.Machine.execRefillTick s
  | .encodeUnitIssue p => Sys2Proof.Machine.execEncodeUnitIssue p s
  | .encodeUnitEnd c unit => Sys2Proof.Machine.execEncodeUnitEnd c unit s
  | .callBudgetFault t => Sys2Proof.Machine.execCallBudgetFault t s
  | .pairLoRead a => Sys2Proof.Machine.execPairLoRead a s
  | .pairHiRead a => Sys2Proof.Machine.execPairHiRead a s
  | .pairLoWrite a v => Sys2Proof.Machine.execPairLoWrite a v s
  | .pairHiWrite a v => Sys2Proof.Machine.execPairHiWrite a v s
  | .counterReadClear a => Sys2Proof.Machine.execCounterReadClear a s
  | .objStatRead p => Sys2Proof.Machine.execObjStatRead p s
  | .registerWrite off size v => Sys2Proof.Machine.execRegisterWrite off size v s
  | .bankOwnerWrite cl b v => Sys2Proof.Machine.execBankOwnerWrite cl b v s
  | .bankDrainDone cl b => Sys2Proof.Machine.execBankDrainDone cl b s
  | .patrolScrub cl errs => Sys2Proof.Machine.execPatrolScrub cl errs s
  | .vgsLineReload b line ok => Sys2Proof.Machine.execVgsLineReload b line ok s
  | .fabricResponse q resp => Sys2Proof.Machine.execFabricResponse q resp s
  | .fabricTimeout q => Sys2Proof.Machine.execFabricTimeout q s
  | .genCommit p v => Sys2Proof.Machine.execGenCommit p v s
  | .genDiscard p v => Sys2Proof.Machine.execGenDiscard p v s
  | .genDone p => Sys2Proof.Machine.execGenDone p s
  | .loadAsset v => Sys2Proof.Machine.execLoadAsset v s
  | .withdrawAsset v => Sys2Proof.Machine.execWithdrawAsset v s
  | .restorePark v => Sys2Proof.Machine.execRestorePark v s
  | .rotatePark v => Sys2Proof.Machine.execRotatePark v s
  | .rekeyRewrite p => Sys2Proof.Machine.execRekeyRewrite p s
  | .warmMovePressure p => Sys2Proof.Machine.execWarmMovePressure p s
  | .warmMoveAge p => Sys2Proof.Machine.execWarmMoveAge p s
  | .stripeProgram ch => Sys2Proof.Machine.execStripeProgram ch s
  | .journalPageProgram j => Sys2Proof.Machine.execJournalPageProgram j s
  | .flashReadDone ch die cws => Sys2Proof.Machine.execFlashReadDone ch die cws s
  | .flashProgramDone ch die bad => Sys2Proof.Machine.execFlashProgramDone ch die bad s
  | .flashEraseDone ch die ok => Sys2Proof.Machine.execFlashEraseDone ch die ok s
  | .dieTimeout ch die => Sys2Proof.Machine.execDieTimeout ch die s
  | .zqCalibration ch => Sys2Proof.Machine.execZqCalibration ch s
  | .trackerJournal ch => Sys2Proof.Machine.execTrackerJournal ch s
  | .scrubBlock ch cws => Sys2Proof.Machine.execScrubBlock ch cws s
  | .collection ch die => Sys2Proof.Machine.execCollection ch die s
  | .staticLevelling ch die => Sys2Proof.Machine.execStaticLevelling ch die s
  | .journalCompaction j => Sys2Proof.Machine.execJournalCompaction j s
  | .indexRebuild => Sys2Proof.Machine.execIndexRebuild s
  | .channelOnline ch v dies => Sys2Proof.Machine.execChannelOnline ch v dies s
  | .channelOffline ch v => Sys2Proof.Machine.execChannelOffline ch v s
  | .channelFormat ch v => Sys2Proof.Machine.execChannelFormat ch v s
  | .unitResetCluster cl => Sys2Proof.Machine.execUnitResetCluster cl s
  | .unitResetVgs q => Sys2Proof.Machine.execUnitResetVgs q s
  | .unitResetPrk => Sys2Proof.Machine.execUnitResetPrk s
  | .unitResetCrypto => Sys2Proof.Machine.execUnitResetCrypto s
  | .unitResetFab => Sys2Proof.Machine.execUnitResetFab s
  | .unitResetCtrl => Sys2Proof.Machine.execUnitResetCtrl s
  | .unitResetTakeEffect u => Sys2Proof.Machine.execUnitResetTakeEffect u s
  | .domainOffRequest dom => Sys2Proof.Machine.execDomainOffRequest dom s
  | .domainWake dom => Sys2Proof.Machine.execDomainWake dom s
  | .domainWakeDone dom => Sys2Proof.Machine.execDomainWakeDone dom s
  | .governorInterval => Sys2Proof.Machine.execGovernorInterval s
  | .capTick => Sys2Proof.Machine.execCapTick s
  | .vsegAck g => Sys2Proof.Machine.execVsegAck g s
  | .vsegAckTimeout g => Sys2Proof.Machine.execVsegAckTimeout g s
  | .thermalSample maxC => Sys2Proof.Machine.execThermalSample maxC s
  | .fuseTempSample tempC marginal => Sys2Proof.Machine.execFuseTempSample tempC marginal s
  | .fuseAdvance v => Sys2Proof.Machine.execFuseAdvance v s
  | .placementPeriod p => Sys2Proof.Machine.execPlacementPeriod p s
  | .flashPortRead v => Sys2Proof.Machine.execFlashPortRead v s
  | .flashPortProgram v => Sys2Proof.Machine.execFlashPortProgram v s
  | .flashPortErase4k v => Sys2Proof.Machine.execFlashPortErase4k v s
  | .flashPortErase64k v => Sys2Proof.Machine.execFlashPortErase64k v s
  | .flashPortDone ok => Sys2Proof.Machine.execFlashPortDone ok s
  | .chainSendReset v => Sys2Proof.Machine.execChainSendReset v s
  | .chainReplyTimeout => Sys2Proof.Machine.execChainReplyTimeout s
  | .enum f => Sys2Proof.Machine.execEnum f s
  | .reset f => Sys2Proof.Machine.execReset f s
  | .ack f => Sys2Proof.Machine.execAck f s
  | .nack f => Sys2Proof.Machine.execNack f s
  | .pairDigest f => Sys2Proof.Machine.execPairDigest f s
  | .badFrame f => Sys2Proof.Machine.execBadFrame f s
  | .heartbeatSend => Sys2Proof.Machine.execHeartbeatSend s
  | .heartbeat f => Sys2Proof.Machine.execHeartbeat f s
  | .heartbeatMiss => Sys2Proof.Machine.execHeartbeatMiss s
  | .tokenLo f => Sys2Proof.Machine.execTokenLo f s
  | .tokenHi f => Sys2Proof.Machine.execTokenHi f s
  | .mismatch f => Sys2Proof.Machine.execMismatch f s
  | .compareRecord rec => Sys2Proof.Machine.execCompareRecord rec s
  | .compareTimeout => Sys2Proof.Machine.execCompareTimeout s
  | .selftest f => Sys2Proof.Machine.execSelftest f s
  | .selftestTimeout => Sys2Proof.Machine.execSelftestTimeout s
  | .isolate f => Sys2Proof.Machine.execIsolate f s
  | .isolateAck f => Sys2Proof.Machine.execIsolateAck f s
  | .isolateAckTimeout => Sys2Proof.Machine.execIsolateAckTimeout s
  | .tapReset => Sys2Proof.Machine.execTapReset s
  | .bypass => Sys2Proof.Machine.execBypass s
  | .idcode => Sys2Proof.Machine.execIdcode s
  | .csrAcc dr => Sys2Proof.Machine.execCsrAcc dr s
  | .csrAccDone => Sys2Proof.Machine.execCsrAccDone s
  | .dbgStatus => Sys2Proof.Machine.execDbgStatus s
  | .traceEnable v => Sys2Proof.Machine.execTraceEnable v s
  | .traceRecordWrite => Sys2Proof.Machine.execTraceRecordWrite s
  | .marker v => Sys2Proof.Machine.execMarker v s
  | .cntRun v => Sys2Proof.Machine.execCntRun v s
  | .cntClear v => Sys2Proof.Machine.execCntClear v s
  | .add t d a b => Sys2Proof.Machine.execAdd t d a b s
  | .sub t d a b => Sys2Proof.Machine.execSub t d a b s
  | .and t d a b => Sys2Proof.Machine.execAnd t d a b s
  | .or t d a b => Sys2Proof.Machine.execOr t d a b s
  | .xor t d a b => Sys2Proof.Machine.execXor t d a b s
  | .shl t d a b => Sys2Proof.Machine.execShl t d a b s
  | .shr t d a b => Sys2Proof.Machine.execShr t d a b s
  | .sar t d a b => Sys2Proof.Machine.execSar t d a b s
  | .mul t d a b => Sys2Proof.Machine.execMul t d a b s
  | .mulhu t d a b => Sys2Proof.Machine.execMulhu t d a b s
  | .divu t d a b => Sys2Proof.Machine.execDivu t d a b s
  | .remu t d a b => Sys2Proof.Machine.execRemu t d a b s
  | .mins t d a b => Sys2Proof.Machine.execMins t d a b s
  | .maxs t d a b => Sys2Proof.Machine.execMaxs t d a b s
  | .minu t d a b => Sys2Proof.Machine.execMinu t d a b s
  | .maxu t d a b => Sys2Proof.Machine.execMaxu t d a b s
  | .seq t d a b => Sys2Proof.Machine.execSeq t d a b s
  | .slt t d a b => Sys2Proof.Machine.execSlt t d a b s
  | .sltu t d a b => Sys2Proof.Machine.execSltu t d a b s
  | .popc t d a => Sys2Proof.Machine.execPopc t d a s
  | .clz t d a => Sys2Proof.Machine.execClz t d a s
  | .ctz t d a => Sys2Proof.Machine.execCtz t d a s
  | .addi t d a imm => Sys2Proof.Machine.execAddi t d a imm s
  | .andi t d a imm => Sys2Proof.Machine.execAndi t d a imm s
  | .ori t d a imm => Sys2Proof.Machine.execOri t d a imm s
  | .xori t d a imm => Sys2Proof.Machine.execXori t d a imm s
  | .shli t d a imm => Sys2Proof.Machine.execShli t d a imm s
  | .shri t d a imm => Sys2Proof.Machine.execShri t d a imm s
  | .sari t d a imm => Sys2Proof.Machine.execSari t d a imm s
  | .slti t d a imm => Sys2Proof.Machine.execSlti t d a imm s
  | .lui t d imm => Sys2Proof.Machine.execLui t d imm s
  | .fadd t d a b => Sys2Proof.Machine.execFadd t d a b s
  | .fsub t d a b => Sys2Proof.Machine.execFsub t d a b s
  | .fmul t d a b => Sys2Proof.Machine.execFmul t d a b s
  | .fdiv t d a b => Sys2Proof.Machine.execFdiv t d a b s
  | .fmin t d a b => Sys2Proof.Machine.execFmin t d a b s
  | .fmax t d a b => Sys2Proof.Machine.execFmax t d a b s
  | .flt t d a b => Sys2Proof.Machine.execFlt t d a b s
  | .feq t d a b => Sys2Proof.Machine.execFeq t d a b s
  | .fcvtif t d a => Sys2Proof.Machine.execFcvtif t d a s
  | .fcvtfi t d a => Sys2Proof.Machine.execFcvtfi t d a s
  | .ldb t d a imm => Sys2Proof.Machine.execLdb t d a imm s
  | .ldh t d a imm => Sys2Proof.Machine.execLdh t d a imm s
  | .ldw t d a imm => Sys2Proof.Machine.execLdw t d a imm s
  | .ldd t d a imm => Sys2Proof.Machine.execLdd t d a imm s
  | .stb t d a imm => Sys2Proof.Machine.execStb t d a imm s
  | .sth t d a imm => Sys2Proof.Machine.execSth t d a imm s
  | .stw t d a imm => Sys2Proof.Machine.execStw t d a imm s
  | .std t d a imm => Sys2Proof.Machine.execStd t d a imm s
  | .beq t a b off => Sys2Proof.Machine.execBeq t a b off s
  | .bne t a b off => Sys2Proof.Machine.execBne t a b off s
  | .blt t a b off => Sys2Proof.Machine.execBlt t a b off s
  | .bge t a b off => Sys2Proof.Machine.execBge t a b off s
  | .bltu t a b off => Sys2Proof.Machine.execBltu t a b off s
  | .bgeu t a b off => Sys2Proof.Machine.execBgeu t a b off s
  | .jal t d imm => Sys2Proof.Machine.execJal t d imm s
  | .jr t d a => Sys2Proof.Machine.execJr t d a s
  | .vaddw t vd va vb k => Sys2Proof.Machine.execVaddw t vd va vb k s
  | .vsubw t vd va vb k => Sys2Proof.Machine.execVsubw t vd va vb k s
  | .vand t vd va vb k => Sys2Proof.Machine.execVand t vd va vb k s
  | .vor t vd va vb k => Sys2Proof.Machine.execVor t vd va vb k s
  | .vxor t vd va vb k => Sys2Proof.Machine.execVxor t vd va vb k s
  | .vshlw t vd va vb k => Sys2Proof.Machine.execVshlw t vd va vb k s
  | .vshrw t vd va vb k => Sys2Proof.Machine.execVshrw t vd va vb k s
  | .vminuw t vd va vb k => Sys2Proof.Machine.execVminuw t vd va vb k s
  | .vmaxuw t vd va vb k => Sys2Proof.Machine.execVmaxuw t vd va vb k s
  | .vfadd t vd va vb k => Sys2Proof.Machine.execVfadd t vd va vb k s
  | .vfsub t vd va vb k => Sys2Proof.Machine.execVfsub t vd va vb k s
  | .vfmul t vd va vb k => Sys2Proof.Machine.execVfmul t vd va vb k s
  | .vfmin t vd va vb k => Sys2Proof.Machine.execVfmin t vd va vb k s
  | .vfmax t vd va vb k => Sys2Proof.Machine.execVfmax t vd va vb k s
  | .vcvtif t vd va k => Sys2Proof.Machine.execVcvtif t vd va k s
  | .vcvtfi t vd va k => Sys2Proof.Machine.execVcvtfi t vd va k s
  | .vmov t vd va k => Sys2Proof.Machine.execVmov t vd va k s
  | .vbcast t vd va k => Sys2Proof.Machine.execVbcast t vd va k s
  | .vpermw t vd va vb k => Sys2Proof.Machine.execVpermw t vd va vb k s
  | .vflt t kd va vb k => Sys2Proof.Machine.execVflt t kd va vb k s
  | .vfle t kd va vb k => Sys2Proof.Machine.execVfle t kd va vb k s
  | .vfeq t kd va vb k => Sys2Proof.Machine.execVfeq t kd va vb k s
  | .vilt t kd va vb k => Sys2Proof.Machine.execVilt t kd va vb k s
  | .viltu t kd va vb k => Sys2Proof.Machine.execViltu t kd va vb k s
  | .vieq t kd va vb k => Sys2Proof.Machine.execVieq t kd va vb k s
  | .vbeq t kd va vb k => Sys2Proof.Machine.execVbeq t kd va vb k s
  | .vld t vd a imm => Sys2Proof.Machine.execVld t vd a imm s
  | .vst t vd a imm => Sys2Proof.Machine.execVst t vd a imm s
  | .tstep t d a b => Sys2Proof.Machine.execTstep t d a b s
  | .ttok t d a => Sys2Proof.Machine.execTtok t d a s
  | .troot t d a => Sys2Proof.Machine.execTroot t d a s
  | .dstep t d a b => Sys2Proof.Machine.execDstep t d a b s
  | .tbase t a => Sys2Proof.Machine.execTbase t a s
  | .dbase t a => Sys2Proof.Machine.execDbase t a s
  | .mprobe t d a b => Sys2Proof.Machine.execMprobe t d a b s
  | .mhash t d a b => Sys2Proof.Machine.execMhash t d a b s
  | .udec t d a b => Sys2Proof.Machine.execUdec t d a b s
  | .unorm t d a => Sys2Proof.Machine.execUnorm t d a s
  | .uclass t d a => Sys2Proof.Machine.execUclass t d a s
  | .uenc t d a => Sys2Proof.Machine.execUenc t d a s
  | .hcomp t vd va vb => Sys2Proof.Machine.execHcomp t vd va vb s
  | .band t vd va vb => Sys2Proof.Machine.execBand t vd va vb s
  | .bor t vd va vb => Sys2Proof.Machine.execBor t vd va vb s
  | .bandn t vd va vb => Sys2Proof.Machine.execBandn t vd va vb s
  | .bxor t vd va vb => Sys2Proof.Machine.execBxor t vd va vb s
  | .bpop t d va => Sys2Proof.Machine.execBpop t d va s
  | .bffs t d va => Sys2Proof.Machine.execBffs t d va s
  | .bsel t d va b => Sys2Proof.Machine.execBsel t d va b s
  | .brun t vd a b => Sys2Proof.Machine.execBrun t vd a b s
  | .cmaxk t d va vb => Sys2Proof.Machine.execCmaxk t d va vb s
  | .cminu t d va => Sys2Proof.Machine.execCminu t d va s
  | .cgef t kd va vb => Sys2Proof.Machine.execCgef t kd va vb s
  | .cequ t kd va vb => Sys2Proof.Machine.execCequ t kd va vb s
  | .get t d a b => Sys2Proof.Machine.execGet t d a b s
  | .wait t a => Sys2Proof.Machine.execWait t a s
  | .nop t => Sys2Proof.Machine.execNop t s
  | .exit t code => Sys2Proof.Machine.execExit t code s
  | .trap t code => Sys2Proof.Machine.execTrap t code s
  | .rng t vd a => Sys2Proof.Machine.execRng t vd a s
  | .fence t => Sys2Proof.Machine.execFence t s
  | .vfill t vd a => Sys2Proof.Machine.execVfill t vd a s
  | .vext t d va b => Sys2Proof.Machine.execVext t d va b s
  | .kfromx t kd a => Sys2Proof.Machine.execKfromx t kd a s
  | .ktox t d ka => Sys2Proof.Machine.execKtox t d ka s
  | .kand t kd ka kb => Sys2Proof.Machine.execKand t kd ka kb s
  | .kor t kd ka kb => Sys2Proof.Machine.execKor t kd ka kb s
  | .kandn t kd ka kb => Sys2Proof.Machine.execKandn t kd ka kb s
  | .beatLevelFall d => Sys2Proof.Machine.execBeatLevelFall d s
  | .vsegAckLowered g => Sys2Proof.Machine.execVsegAckLowered g s
  | .fuseBlowDone => Sys2Proof.Machine.execFuseBlowDone s
  | .reservedFrameType f => Sys2Proof.Machine.execReservedFrameType f s
  | .badKeyCommand v => Sys2Proof.Machine.execBadKeyCommand v s
  | .flashPortBadOp v => Sys2Proof.Machine.execFlashPortBadOp v s
  | .illegalInstruction t => Sys2Proof.Machine.execIllegalInstruction t s
  | .getComplete t tag => Sys2Proof.Machine.execGetComplete t tag s

end Sys2Proof.Machine
end

