-- ==== Sys2Proof/Machine/Tick.lean ====
section
/-! DEFINITION. Sys2Proof/Machine/Tick.lean: what one cycle of AON_CLK does when no command waits (R422, R426, R569, R666, R667; DESIGN CHOICE, log entry
1). -/
namespace Sys2Proof.Machine
open Sys2Proof

/-- Events of a cycle that the model does not hold one by one: free numbers (DESIGN CHOICE, log entry 2). -/
def freeEvents : List Nat := [0x07, 0x08, 0x09, 0x0A, 0x0E, 0x0F, 0x10, 0x12]

/-- CCLK cycles of a group's powered clusters in one AON cycle: point i runs at (8 + i) × 0.1 GHz (R606). -/
def State.grpCycles (s : State) (g : Grp) : Nat :=
  ((List.finRange 64).filter (fun c => cluGrp c == g && s.cluOn c)).length * (8 + s.grpPoint g)

/-- The loupe's counters over one cycle. -/
def State.tickCounters (s : State) : State :=
  if !s.rb rLpeCntCtrl 31 then s
  else
    let s := s.count 0x01 none none 1
    let s := (List.finRange 16).foldl (fun s g => s.count 0x02 none (some g) (s.grpCycles g)) s
    freeEvents.foldl (fun s ev => s.countFree ev (2 ^ 16)) s

/-- Grants of the starvation guard in each powered cluster: a free number (R405, R422, R667). -/
def State.tickStarve (s : State) : State :=
  (List.finRange 64).foldl (fun s c =>
    if s.cluOn c then
      let (k, s) := s.freeBelow 256
      (s.bumpBy (rCluStarveCnt c) 0 32 k).count 0x0B none (some (cluGrp c)) k
    else s) s

/-- A read of a line of scratch whose tag is clear (R414): counted, and in strict mode the work that reads it fails. A call's own reads are
counted as it makes them. -/
def State.uninitRead (s : State) (c : Clu) : State :=
  match s.pickReader ((s.readers none (some c)).filter (fun r => match r.2 with | .thread _ => false | _ => true)) with
  | (none, s) => s
  | (some r, s) =>
    let strict : Bool := match r.2 with
      | .item x _ | .op x => ((s.ctx? x).map (·.strict)).getD false
      | _ => s.rb (rPrtMemCfg r.1) 31
    let s := s.noteUninit r.1 c 1
    if strict then s.consume r stUninit else s

/-- A poisoned line of scratch is read, by which work a free value says (R418). -/
def State.markedRead (s : State) (c : Clu) : State :=
  match s.pickReader (s.readers none (some c)) with
  | (some r, s) => s.poisonRead r
  | (none, s) => s

/-- An error of a scratch line found when it is read: the tag decides first (R442), a corrected error is counted, an uncorrectable one poisons the
line and its reader (R414, R417, R418). -/
def State.scratchReadError (s : State) (c : Clu) (line : Nat) (ue : Bool) : State :=
  if !s.cluOn c then s
  else if !(s.scratch[c]).tags.contains line then s.uninitRead c
  else
    let s := s.scratchError c line ue false
    if ue then s.markedRead c else s

/-- A corrected error of a VGS line (R417, R426, R427). -/
def State.vgsReadError (s : State) (b line : Nat) : State :=
  if !s.bankOn b then s
  else
    let s := s.bump rVgsEccCeCnt
    let s := if s.rb rVgsEccLast 31 then s else s.setReg rVgsEccLast (BitVec.ofNat 32 (2 ^ 31 + b * 2 ^ 20 + line * 2 ^ 5))
    s.faultEvent 2 b

/-- An error in a bead's data memory (R417, R420, R422, R627): a corrected one is counted; an uncorrectable one ends the thread's work: a program
call faults, Pliow's own work, which a free value picks, fails with MEM_POISON. -/
def State.beadMemError (s : State) (n : Thread) (ue : Bool) : State :=
  if !s.cluOn n.clu then s
  else if !ue then s.bump (rCluEccCeCnt n.clu)
  else
    let s := s.bump (rCluEccUeCnt n.clu)
    let t := s.thread n
    let s :=
      if t.inCall then s.consume (t.part, .thread n) stPoison
      else
        match s.pickReader ((s.readers none (some n.clu)).filter (fun r => match r.2 with | .thread _ => false | _ => true)) with
        | (some r, s) => s.consume r stPoison
        | (none, s) => s
    s.faultEvent 3 (n.clu.val * 33 + n.bead.val)

/-- An uncorrectable error in retained SRAM (R420, R533, R556, R584, R587): the CRC of an area fails, and the area counts as empty: the boot record,
the capture's header, its ring pairs or its event rings, the mask epoch counters, the fault windows, the snapshot, the firmware's area with the
pair token, or a key slot or selector. -/
def State.retainedError (s : State) (k : Nat) : State :=
  match k % 9 with
  | 0 => { s with bootRec := { s.bootRec with crc := ~~~s.bootRec.crc } }
  | 1 => { s with capture := { ({} : Capture) with rings := s.capture.rings, evqs := s.capture.evqs } }
  | 2 => { s with capture := { s.capture with rings := Vector.replicate 64 {} } }
  | 3 => { s with capture := { s.capture with evqs := Vector.replicate 16 (0#32, 0#32) } }
  | 4 => { s with parts := s.parts.map (fun x => { x with epoch := 0#64 }) }
  | 5 => { s with faults := [] }
  | 6 => { s with snapOk := false }
  | 7 => s.setReg64 rGlbPairToken 0#64
  | _ =>
    let p := Fin.ofNat 16 (k / 9)
    let bad := fun (y : Option KeySlot) => y.map (fun z => { z with crc := ~~~z.crc })
    s.partUpd p (fun x => match k / 144 % 3 with
      | 0 => { x with slotA := bad x.slotA }
      | 1 => { x with slotB := bad x.slotB }
      | _ => { x with selCrc := ~~~x.selCrc })

/-- A running bead fetches the line of CODE that its next instruction stands in, from the backing where CODE is not placed (R220, R371); which of the lines that it holds gives way, a free value
says (DESIGN CHOICE, log entry 32). A line with a parity error is fetched again, with no effect (R420). -/
def State.fetchCode (s : State) (n : Thread) : State :=
  match (s.thread n).prog with
  | some b =>
    let key : Thread := ⟨n.clu, n.bead, 0⟩
    let l := (key, b, (s.thread n).pc / 64)
    if !(s.thread n).inCall || s.imem.contains l then s
    else
      let placed : Bool := match s.version? (s.thread n).part b with
        | some v => (match v.sects.findIdx? (fun x => x.typ == secCode) with | some i => !(v.pieces i).isEmpty | none => true)
        | none => true
      let s := if placed then s else s.missLines (s.thread n).part 1
      let mine := s.imem.filter (fun x => x.1 == key)
      let (k, s) := s.freeBelow (max 1 mine.length)
      let gone := if mine.length < 256 then none else mine[k]?
      { s with imem := s.imem.filter (fun x => some x != gone) ++ [l] }
  | none => s

/-- What a cycle brings to an on-chip memory or to the cold index (R488), if anything, and where: free values (R413 to R420; DESIGN CHOICE, log
entries 2 and 32). An error in instruction memory has no visible effect; a corrected error in control or retained SRAM counts nowhere. -/
def State.tickMemories (s : State) : State :=
  let (k, s) := s.freeBelow 14
  let (c, s) := s.freeBelow 64
  let (l, s) := s.freeBelow 16384
  let (b, s) := s.freeBelow 32
  let (v, s) := s.freeBelow 24576
  let (d, s) := s.freeBelow 33
  let (t, s) := s.freeBelow 4
  let clu := Fin.ofNat 64 c
  let thread : Thread := ⟨clu, Fin.ofNat 33 d, Fin.ofNat 4 t⟩
  match k with
  | 1 => s.scratchReadError clu l false
  | 2 => s.scratchReadError clu l true
  | 3 => s.vgsReadError b v
  | 4 => s.beadMemError thread true
  | 5 => s.faultEvent 6 0
  | 6 => if (s.scratch[clu]).poison.isEmpty then s else s.markedRead clu
  | 7 => if s.cluOn clu then s.uninitRead clu else s
  | 8 => s.beadMemError thread false
  | 9 => if s.cluOn clu then s.scrUpd clu (Scratch.write · l true) else s
  | 10 => if s.cluOn clu then s.scrUpd clu (Scratch.write · l false) else s
  | 11 => s.retainedError (l % 432)
  | 12 => if s.domOn 69 then { s with indexOk := false } else s
  | 13 => s.fetchCode thread
  | _ => s

/-- The firmware services its watchdog in this cycle, or does not: its own doing, a free value (R580; DESIGN CHOICE, log entry 2). -/
def State.tickService (s : State) : State :=
  let (k, s) := s.freeBelow 2
  if k == 1 then { s with wdogAt := s.time } else s

/-- The retained SRAM lies in the AON domain: an error may come while the instance does not run, too. -/
def State.tickRetained (s : State) : State :=
  let (k, s) := s.freeBelow 2
  let (l, s) := s.freeBelow 432
  if k == 1 then s.retainedError l else s

/-- Bytes of the cold index (R488): for each 127 copies, in the order of lockets, a part of 4 KiB. -/
def State.indexBytes (s : State) : List Byte :=
  let es := s.lockets.flatMap (fun l => l.cold.map (fun k => (l.id, k.loc)))
  (List.range ((es.length + 126) / 127)).flatMap (fun i =>
    (List.range 4096).map (fun j => Config.indexByte ((es.drop (127 * i)).take 127) j))
/-- The cold index in chip memory (R488): what it holds is written as copies come and go; when a part does not read as written, its CRC fails, and the
index is to be rebuilt (DESIGN CHOICE, log entry 37). -/
def State.tickIndex (s : State) : State :=
  if !s.indexOk || !s.domOn 69 then s
  else if s.rdBytes s.indexAt s.indexImg.length != s.indexImg then { s with indexOk := false }
  else
    let b := s.indexBytes
    let a := s.indexArea.1
    if b == s.indexImg && (b.isEmpty || a == s.indexAt) then s
    else { s.wrBytes a b with indexAt := a, indexImg := b }

/-- One cycle of AON_CLK. -/
def tick (s : State) : State :=
  let s := s.accessDecided
  let s := ({ s with time := s.time + 1, chnOut := [], peerOut := [], mailOut := [] } : State).pairSearch
  if s.running then (s.sleepDue.tickCounters.tickStarve.tickIndex.tickMemories.tickService).ownWrites s else s.tickRetained

end Sys2Proof.Machine
end

