-- ==== Sys2Proof/Safety.lean ====
section
/-! DEFINITION. Sys2Proof/Safety.lean: what counts as a safe step, and the canonical form of the stored maps. -/
namespace Sys2Proof

/-- A step is safe when it ends in a next state. -/
def SafeStep (s : Machine.State) : Prop := ∃ t, Machine.step s = .next t

namespace Machine

/-- The canonical form of the register file: offsets strictly rising from `lo`, no register at its reset value listed. -/
def regsSorted : Nat → List (Nat × Word) → Bool
  | _, [] => true
  | lo, (k, v) :: t => lo ≤ k && v != regReset k && regsSorted (k + 1) t

/-- The register file is in canonical form. -/
def State.regsWf (s : State) : Bool := regsSorted 0 s.regs
/-- The configuration flash is in canonical form. -/
def State.flashWf (s : State) : Bool := cellWf flashErased 0 s.flash

/-- The registers in which the loupe notes what it sees of a command: LPE_TRACE_DROP and the eight counters (R663, R667). -/
def noteReg (o : Nat) : Bool := o == rLpeTraceDrop || (List.finRange 16).any (fun p => o == rPrtVgsMiss p || o == rPrtVgsMiss p + 4) || (List.range 8).any (fun n => o == rLpeCnt n || o == rLpeCnt n + 4)

/-- Chip memory, the configuration flash and the register file are in canonical form: equal contents are equal data. -/
def State.canon (s : State) : Prop := s.memWf = true ∧ s.flashWf = true ∧ s.regsWf = true

end Machine
end Sys2Proof
end

