-- ==== Sys2Proof/Certificates/Slice0/Obligations.lean ====
section
/-! DEFINITION. Sys2Proof/Certificates/Slice0/Obligations.lean: the statements for the provers, and the few notions they are put in. -/
namespace Sys2Proof.Claims
open Sys2Proof Machine

/-- `t` is `u` with what the loupe and the governor noted of the command: their registers, the trace queue, the slack marks and the
free-value counter (R608, R658 to R667). -/
def Noted (u t : State) : Prop :=
  t = { u with regs := t.regs, trace := t.trace, grp := t.grp, freeCtr := t.freeCtr } ∧ ∀ o, noteReg o = false → t.reg o = u.reg o

/-- `s` when a write of `v` to register `off` has been accepted: a primary has forwarded it to its secondary (R619). -/
abbrev Sent (s : State) (off : Nat) (v : Word) : State := s.forwardWrite off v

/-- Command `c` in state `s` answers a next state, which is `u` but for what was noted. -/
def Does (c : Instr) (s u : State) : Prop := ∃ t, exec c s = .next t ∧ Noted u t

/-- A running instance that is no member of a pair, with no part left over from one: its parts commit at once (R555, R620, R622). -/
def Alone (s : State) : Prop := s.running = true ∧ s.paired = false ∧ s.pair.parts = []

/-- The op in context `c` is `x`, ready, with the opcode given (R125, R129). -/
def ReadyOp (s : State) (c : Ctx) (op : Nat) (x : OpCtx) : Prop := s.ctx? c = some x ∧ eOp x.entry = op ∧ x.st = .ready

/-- The op in context `c` has passed its commit point with a status and two results (R96, R134). -/
def Ends (t : State) (c : Ctx) (st : BitVec 8) (r0 : DWord) (r1 : Word) : Prop :=
  ∃ y, t.ctx? c = some y ∧ y.st = .past ∧ y.status = some st ∧ y.res0 = r0 ∧ y.res1 = r1

/-- Thread `n` is inside a call whose program and binding are `e` (R383, R391). -/
def InCall (s : State) (n : Thread) (e : BEnv) : Prop :=
  (s.thread n).inCall = true ∧ (s.thread n).prog.bind (s.benv (s.thread n).part) = some e

/-- The call's budget leaves room for `c` more (R383). -/
def Room (s : State) (n : Thread) (e : BEnv) (c : Nat) : Prop := (s.thread n).count + c ≤ bCYCLES e.hdr

/-- Thread `n` has become `u`, at `pc`, its count grown by `c`; nothing else of the block has changed. -/
def wentTo (s : State) (n : Thread) (u : BeadThread) (pc c : Nat) : State :=
  s.setThread n { u with pc := pc, count := (s.thread n).count + c, st := .running }

/-- The instruction retired with effect `u` and cost `c`, and the next one follows (R383). -/
def retired (s : State) (n : Thread) (u : BeadThread) (c : Nat) : State := wentTo s n u ((s.thread n).pc + 4) c

/-- Words of the formats A and U (with UNIT and its FN as one number), I and J, L, and V (R375). -/
def wA (maj d a b fn : Nat) : Word := BitVec.ofNat 32 (maj * 2 ^ 26 + d * 2 ^ 21 + a * 2 ^ 16 + b * 2 ^ 11 + fn)
def wI (maj d a imm : Nat) : Word := BitVec.ofNat 32 (maj * 2 ^ 26 + d * 2 ^ 21 + a * 2 ^ 16 + imm)
def wL (maj d imm : Nat) : Word := BitVec.ofNat 32 (maj * 2 ^ 26 + d * 2 ^ 21 + imm)
def wV (maj vd va vb k fn : Nat) : Word :=
  BitVec.ofNat 32 (maj * 2 ^ 26 + vd * 2 ^ 22 + va * 2 ^ 18 + vb * 2 ^ 14 + k * 2 ^ 11 + fn)

/-- The thread that a bead command runs on: the instructions of R376 and R379 and the three events of a call. -/
def beadOf : Instr → Option Thread
  | .add t _ _ _ | .sub t _ _ _ | .and t _ _ _ | .or t _ _ _ | .xor t _ _ _ | .shl t _ _ _ | .shr t _ _ _ | .sar t _ _ _ | .mul t _ _ _
  | .mulhu t _ _ _ | .divu t _ _ _ | .remu t _ _ _ | .mins t _ _ _ | .maxs t _ _ _ | .minu t _ _ _ | .maxu t _ _ _ | .seq t _ _ _
  | .slt t _ _ _ | .sltu t _ _ _ | .popc t _ _ | .clz t _ _ | .ctz t _ _ | .addi t _ _ _ | .andi t _ _ _ | .ori t _ _ _ | .xori t _ _ _
  | .shli t _ _ _ | .shri t _ _ _ | .sari t _ _ _ | .slti t _ _ _ | .lui t _ _ | .fadd t _ _ _ | .fsub t _ _ _ | .fmul t _ _ _
  | .fdiv t _ _ _ | .fmin t _ _ _ | .fmax t _ _ _ | .flt t _ _ _ | .feq t _ _ _ | .fcvtif t _ _ | .fcvtfi t _ _ | .ldb t _ _ _
  | .ldh t _ _ _ | .ldw t _ _ _ | .ldd t _ _ _ | .stb t _ _ _ | .sth t _ _ _ | .stw t _ _ _ | .std t _ _ _ | .beq t _ _ _
  | .bne t _ _ _ | .blt t _ _ _ | .bge t _ _ _ | .bltu t _ _ _ | .bgeu t _ _ _ | .jal t _ _ | .jr t _ _ | .vaddw t _ _ _ _
  | .vsubw t _ _ _ _ | .vand t _ _ _ _ | .vor t _ _ _ _ | .vxor t _ _ _ _ | .vshlw t _ _ _ _ | .vshrw t _ _ _ _ | .vminuw t _ _ _ _
  | .vmaxuw t _ _ _ _ | .vfadd t _ _ _ _ | .vfsub t _ _ _ _ | .vfmul t _ _ _ _ | .vfmin t _ _ _ _ | .vfmax t _ _ _ _ | .vcvtif t _ _ _
  | .vcvtfi t _ _ _ | .vmov t _ _ _ | .vbcast t _ _ _ | .vpermw t _ _ _ _ | .vflt t _ _ _ _ | .vfle t _ _ _ _ | .vfeq t _ _ _ _
  | .vilt t _ _ _ _ | .viltu t _ _ _ _ | .vieq t _ _ _ _ | .vbeq t _ _ _ _ | .vld t _ _ _ | .vst t _ _ _ | .tstep t _ _ _ | .ttok t _ _
  | .troot t _ _ | .dstep t _ _ _ | .tbase t _ | .dbase t _ | .mprobe t _ _ _ | .mhash t _ _ _ | .udec t _ _ _ | .unorm t _ _
  | .uclass t _ _ | .uenc t _ _ | .hcomp t _ _ _ | .band t _ _ _ | .bor t _ _ _ | .bandn t _ _ _ | .bxor t _ _ _ | .bpop t _ _
  | .bffs t _ _ | .bsel t _ _ _ | .brun t _ _ _ | .cmaxk t _ _ _ | .cminu t _ _ | .cgef t _ _ _ | .cequ t _ _ _ | .get t _ _ _
  | .wait t _ | .nop t | .exit t _ | .trap t _ | .rng t _ _ | .fence t | .vfill t _ _ | .vext t _ _ _ | .kfromx t _ _ | .ktox t _ _
  | .kand t _ _ _ | .kor t _ _ _ | .kandn t _ _ _ | .callBudgetFault t | .illegalInstruction t | .getComplete t _ => some t
  | _ => none

end Sys2Proof.Claims

open Sys2Proof Sys2Proof.Machine Sys2Proof.Claims

/-! ### Bead instructions -/

/-- O1. The 22 scalar ALU instructions write xD, count 1 and go on (R368, R370, R376, R383). -/
def Obligations.BeadScalarAlu : Prop :=
  ∀ (s : State) (n : Thread) (e : BEnv) (d a b : BitVec 5), InCall s n e → Room s n e 1 →
    let x := (s.thread n).rx a
    let y := (s.thread n).rx b
    let sh := y.toNat % 64
    ∀ q ∈ ([(.add n d a b, x + y), (.sub n d a b, x - y), (.and n d a b, x &&& y), (.or n d a b, x ||| y), (.xor n d a b, x ^^^ y),
        (.shl n d a b, x <<< sh), (.shr n d a b, x >>> sh), (.sar n d a b, x.sshiftRight sh),
        (.mul n d a b, BitVec.ofNat 64 (x.toNat * y.toNat)), (.mulhu n d a b, BitVec.ofNat 64 (x.toNat * y.toNat / 2 ^ 64)),
        (.divu n d a b, if y = 0#64 then BitVec.allOnes 64 else BitVec.ofNat 64 (x.toNat / y.toNat)),
        (.remu n d a b, if y = 0#64 then x else BitVec.ofNat 64 (x.toNat % y.toNat)),
        (.mins n d a b, BitVec.ofInt 64 (min x.toInt y.toInt)), (.maxs n d a b, BitVec.ofInt 64 (max x.toInt y.toInt)),
        (.minu n d a b, BitVec.ofNat 64 (min x.toNat y.toNat)), (.maxu n d a b, BitVec.ofNat 64 (max x.toNat y.toNat)),
        (.seq n d a b, if x = y then 1#64 else 0#64), (.slt n d a b, if x.toInt < y.toInt then 1#64 else 0#64),
        (.sltu n d a b, if x.toNat < y.toNat then 1#64 else 0#64),
        (.popc n d a, BitVec.ofNat 64 ((List.range 64).filter (fun i => x.getLsbD i)).length),
        (.clz n d a, BitVec.ofNat 64 (((List.range 64).find? (fun i => x.getLsbD (63 - i))).getD 64)),
        (.ctz n d a, BitVec.ofNat 64 (((List.range 64).find? (fun i => x.getLsbD i)).getD 64))] : List (Instr × DWord)),
      exec q.1 s = .next (retired s n ((s.thread n).wx d q.2) 1)

/-- O2. The immediate instructions and LUI (R376). -/
def Obligations.BeadImmediates : Prop :=
  ∀ (s : State) (n : Thread) (e : BEnv) (d a : BitVec 5) (imm : BitVec 16) (up : BitVec 21), InCall s n e → Room s n e 1 →
    let x := (s.thread n).rx a
    let se : DWord := BitVec.ofInt 64 imm.toInt
    let ze : DWord := BitVec.ofNat 64 imm.toNat
    let sh := imm.toNat % 64
    ∀ q ∈ ([(.addi n d a imm, x + se), (.andi n d a imm, x &&& ze), (.ori n d a imm, x ||| ze), (.xori n d a imm, x ^^^ ze),
        (.shli n d a imm, x <<< sh), (.shri n d a imm, x >>> sh), (.sari n d a imm, x.sshiftRight sh),
        (.slti n d a imm, if x.toInt < imm.toInt then 1#64 else 0#64),
        (.lui n d up, BitVec.ofNat 64 (up.toNat * 2048 % 2 ^ 32))] : List (Instr × DWord)),
      exec q.1 s = .next (retired s n ((s.thread n).wx d q.2) 1)

/-- O3. The floating-point instructions on bits [31:0] of their sources: the result in bits [31:0] of xD, zeros above (the zeros are log
entry 22's). A NaN operand gives 0x7FC0_0000 in FADD to FDIV, FMIN and FMAX, and equal operands give the first one in FMIN and FMAX
(R370). -/
def Obligations.BeadFloat : Prop :=
  (∀ (s : State) (n : Thread) (e : BEnv) (d a b : BitVec 5), InCall s n e → Room s n e 1 →
    let x : Word := ((s.thread n).rx a).truncate 32
    let y : Word := ((s.thread n).rx b).truncate 32
    ∀ q ∈ ([(.fadd n d a b, fpAdd x y), (.fsub n d a b, fpSub x y), (.fmul n d a b, fpMul x y), (.fdiv n d a b, fpDiv x y),
        (.fmin n d a b, fpMin x y), (.fmax n d a b, fpMax x y), (.flt n d a b, if fpLt x y then 1#32 else 0#32),
        (.feq n d a b, if fpEq x y then 1#32 else 0#32), (.fcvtif n d a, fpOfInt x), (.fcvtfi n d a, fpToInt x)] : List (Instr × Word)),
      exec q.1 s = .next (retired s n ((s.thread n).wx d (q.2.zeroExtend 64)) 1)) ∧
  (∀ x y : Word, fpIsNaN x = true ∨ fpIsNaN y = true →
    fpAdd x y = 0x7FC00000#32 ∧ fpSub x y = 0x7FC00000#32 ∧ fpMul x y = 0x7FC00000#32 ∧ fpDiv x y = 0x7FC00000#32 ∧
    fpMin x y = 0x7FC00000#32 ∧ fpMax x y = 0x7FC00000#32) ∧
  (∀ x y : Word, fpEq x y = true → fpMin x y = x ∧ fpMax x y = x) ∧
  (∀ x : Word, fpIsNaN x = true → fpToInt x = 0#32)

/-- O4. The windows of a thread (R371, R372): where an address lies, and what lies in no window; MEM is what the ranges bound at dispatch cover
(R521). -/
def Obligations.BeadWindowMap : Prop :=
  ∀ (e : BEnv) (t : BeadThread) (a : DWord) (k : Nat) (wr : Bool), 1 ≤ k → a.toNat < 2 ^ 63 →
    (a.toNat + k ≤ 0x1000 → findWin e t a k wr = some (.loc a.toNat)) ∧
    (0x1000 < a.toNat + k → a.toNat < 0x1000000 → findWin e t a k wr = none) ∧
    (0x2000000 ≤ a.toNat → a.toNat + k ≤ 0x2000000 + bWORK e.hdr →
      findWin e t a k wr = some (.work (a.toNat - 0x2000000))) ∧
    (bWORK e.hdr ≤ 16384 → 0x10000000 ≤ a.toNat → a.toNat + k ≤ 0x10000000 + e.data.length →
      findWin e t a k false = some (.obj (a.toNat - 0x10000000))) ∧
    (bWORK e.hdr ≤ 16384 → 0x10000000 ≤ a.toNat → findWin e t a k true = none) ∧
    (∀ i : DWord, i = a + BitVec.ofNat 64 (2 ^ 63) →
      findWin e t i k false = (if t.memOk a.toNat k then some (.mem a.toNat) else none) ∧ findWin e t i k true = none)

/-- O5. Scalar and vector loads by the window their address lies in (R371, R373, R376, R383, R414): the bytes read, zero-extended, and the
cost; an address in no window is a WINDOW fault, a misaligned one an ALIGN fault; a poisoned line of OBJ, VOCAB or WORK is a POISON fault (R394),
and lines of a section that is not placed are counted as read from the backing (R222). -/
def Obligations.BeadLoads : Prop :=
  ∀ (s : State) (n : Thread) (e : BEnv) (d a : BitVec 5) (vd : BitVec 4) (imm : BitVec 16), InCall s n e →
    let t := s.thread n
    ∀ q ∈ ([(.ldb n d a imm, 1, 1), (.ldh n d a imm, 2, 1), (.ldw n d a imm, 4, 1), (.ldd n d a imm, 8, 1),
        (.vld n vd a imm, 64, 64)] : List (Instr × Nat × Nat)),
      let k := q.2.1
      let ea : DWord := t.rx a + BitVec.ofInt 64 (imm.toInt * q.2.2)
      let gotIn := fun (s : State) (u : BeadThread) (bs : List Byte) (c : Nat) =>
        if k = 64 then retired s n (u.wv vd (BitVec.ofNat 512 (leNat bs))) c else retired s n (u.wx d (BitVec.ofNat 64 (leNat bs))) c
      let got := gotIn s
      let line := fun (bs : List Byte) =>
        (s.linePoisoned e t ea.toNat = true → exec q.1 s = .next (s.threadFault n t e ⟨bfPOISON, 0, ea⟩)) ∧
        (s.linePoisoned e t ea.toNat = false → Room s n e 9 →
          exec q.1 s = .next (gotIn (s.noteMiss t.part (s.linesMissed e t ea.toNat k) 0) t bs 9))
      match findWin e t ea k false with
      | none => exec q.1 s = .next (s.threadFault n t e ⟨bfWINDOW, 0, ea⟩)
      | some w =>
        if ea.toNat % k ≠ 0 then exec q.1 s = .next (s.threadFault n t e ⟨bfALIGN, 0, ea⟩)
        else
          match w with
          | .loc o => Room s n e 1 → exec q.1 s = .next (got t (cellRead 0#8 t.local4k o k) 1)
          | .call o _ => Room s n e 1 → exec q.1 s = .next (got t (cellRead 0#8 t.callMem o k) 1)
          | .obj o => line ((e.data.drop o).take k)
          | .voc b o => line ((b.drop o).take k)
          | .mem x => Room s n e 33 → exec q.1 s = .next (got t (s.rdBytes x k) 33)
          | .work o =>
            (t.poison.contains (o / 64) = true → exec q.1 s = .next (s.threadFault n t e ⟨bfPOISON, 0, ea⟩)) ∧
            (t.poison.contains (o / 64) = false → t.gets = [] → t.workTags.contains (o / 64) = true → Room s n e 1 →
              exec q.1 s = .next (got t (cellRead 0#8 t.work o k) 1)) ∧
            (t.poison.contains (o / 64) = false → t.gets = [] → t.workTags.contains (o / 64) = false → t.strict = false → Room s n e 1 →
              exec q.1 s = .next (if k = 64 then retired (s.noteUninit t.part n.clu 1) n (t.wv vd 0#512) 1
                else retired (s.noteUninit t.part n.clu 1) n (t.wx d 0#64) 1)) ∧
            (t.poison.contains (o / 64) = false → t.gets = [] → t.workTags.contains (o / 64) = false → t.strict = true →
              exec q.1 s = .next (s.threadFault n t e ⟨bfUNINIT, 0, ea⟩))

/-- O6. Stores to LOCAL, and what a load of the same bytes then gives (R371, R376): the low bytes of xD, zero-extended, or the whole
line. -/
def Obligations.BeadStoreThenLoad : Prop :=
  ∀ (s : State) (n : Thread) (e : BEnv) (d x a : BitVec 5) (vd vx : BitVec 4) (imm : BitVec 16), InCall s n e → Room s n e 2 →
    let t := s.thread n
    ∀ q ∈ ([(.stb n d a imm, .ldb n x a imm, 1, 1), (.sth n d a imm, .ldh n x a imm, 2, 1), (.stw n d a imm, .ldw n x a imm, 4, 1),
        (.std n d a imm, .ldd n x a imm, 8, 1), (.vst n vd a imm, .vld n vx a imm, 64, 64)] : List (Instr × Instr × Nat × Nat)),
      let k := q.2.2.1
      let ea : DWord := t.rx a + BitVec.ofInt 64 (imm.toInt * q.2.2.2)
      ea.toNat + k ≤ 0x1000 → ea.toNat % k = 0 →
        ∃ u v, exec q.1 s = .next u ∧ exec q.2.1 u = .next v ∧
          u = retired s n { t with local4k := (u.thread n).local4k } 1 ∧
          v = (if k = 64 then retired u n ((u.thread n).wv vx (t.rv vd)) 1
            else retired u n ((u.thread n).wx x (BitVec.ofNat 64 ((t.rx d).toNat % 2 ^ (8 * k)))) 1)

/-- O7. Stores by window (R371, R373, R376): the bytes written, and the faults. -/
def Obligations.BeadStores : Prop :=
  ∀ (s : State) (n : Thread) (e : BEnv) (d a : BitVec 5) (vd : BitVec 4) (imm : BitVec 16), InCall s n e →
    let t := s.thread n
    ∀ q ∈ ([(.stb n d a imm, 1, 1), (.sth n d a imm, 2, 1), (.stw n d a imm, 4, 1), (.std n d a imm, 8, 1),
        (.vst n vd a imm, 64, 64)] : List (Instr × Nat × Nat)),
      let k := q.2.1
      let ea : DWord := t.rx a + BitVec.ofInt 64 (imm.toInt * q.2.2)
      let bs : List Byte := if k = 64 then leBytes 64 (t.rv vd).toNat else leBytes k (t.rx d).toNat
      match findWin e t ea k true with
      | none => exec q.1 s = .next (s.threadFault n t e ⟨bfWINDOW, 0, ea⟩)
      | some w =>
        if ea.toNat % k ≠ 0 then exec q.1 s = .next (s.threadFault n t e ⟨bfALIGN, 0, ea⟩)
        else
          match w with
          | .loc o => Room s n e 1 → exec q.1 s = .next (retired s n { t with local4k := cellWrite 0#8 t.local4k o bs } 1)
          | .call o _ => Room s n e 1 → exec q.1 s = .next (retired s n { t with callMem := cellWrite 0#8 t.callMem o bs } 1)
          | .work o => Room s n e 1 → exec q.1 s = .next (retired s n (t.putWork o bs) 1)
          | _ => False

/-- O8. Branches go to the byte offset of the branch plus four times the signed offset when their condition holds, else to the next
instruction; each costs 1 (R375, R376, R383). -/
def Obligations.BeadBranches : Prop :=
  ∀ (s : State) (n : Thread) (e : BEnv) (a b : BitVec 5) (off : BitVec 16), InCall s n e → Room s n e 1 →
    let t := s.thread n
    let x := t.rx a
    let y := t.rx b
    0 ≤ (t.pc : Int) + 4 * off.toInt →
    ∀ q ∈ ([(.beq n a b off, x = y), (.bne n a b off, x ≠ y), (.blt n a b off, x.toInt < y.toInt), (.bge n a b off, y.toInt ≤ x.toInt),
        (.bltu n a b off, x.toNat < y.toNat), (.bgeu n a b off, y.toNat ≤ x.toNat)] : List (Instr × Prop)),
      (q.2 → ∃ pc : Nat, (pc : Int) = t.pc + 4 * off.toInt ∧ exec q.1 s = .next (wentTo s n t pc 1)) ∧
      (¬ q.2 → exec q.1 s = .next (retired s n t 1))

/-- O9. JAL and JR save the address of the next instruction in xD and jump; a JR target outside CODE is a WINDOW fault, one not a multiple
of 4 an ALIGN fault (R376, R392). -/
def Obligations.BeadJumps : Prop :=
  ∀ (s : State) (n : Thread) (e : BEnv) (d a : BitVec 5) (imm : BitVec 21), InCall s n e →
    let t := s.thread n
    let x := (t.rx a).toNat
    let u := t.wx d (BitVec.ofNat 64 (t.pc + 4))
    (Room s n e 1 → 0 ≤ (t.pc : Int) + 4 * imm.toInt →
      ∃ pc : Nat, (pc : Int) = t.pc + 4 * imm.toInt ∧ exec (.jal n d imm) s = .next (wentTo s n u pc 1)) ∧
    (Room s n e 1 → x < e.code.length → x % 4 = 0 → exec (.jr n d a) s = .next (wentTo s n u x 1)) ∧
    (e.code.length ≤ x → exec (.jr n d a) s = .next (s.threadFault n t e ⟨bfWINDOW, 0, t.rx a⟩)) ∧
    (x < e.code.length → x % 4 ≠ 0 → exec (.jr n d a) s = .next (s.threadFault n t e ⟨bfALIGN, 0, t.rx a⟩))

/-- O10. Vector ALU instructions: lane i of vD takes the result where bit i of kK is 1 and keeps its value elsewhere (R368, R376). -/
def Obligations.BeadVectorAlu : Prop :=
  ∀ (s : State) (n : Thread) (e : BEnv) (vd va vb : BitVec 4) (k : BitVec 3), InCall s n e → Room s n e 1 →
    let t := s.thread n
    let x := fun i => lane (t.rv va) i
    let y := fun i => lane (t.rv vb) i
    ∀ q ∈ ([(.vaddw n vd va vb k, fun i => x i + y i), (.vsubw n vd va vb k, fun i => x i - y i), (.vand n vd va vb k, fun i => x i &&& y i),
        (.vor n vd va vb k, fun i => x i ||| y i), (.vxor n vd va vb k, fun i => x i ^^^ y i),
        (.vshlw n vd va vb k, fun i => x i <<< ((y i).toNat % 32)), (.vshrw n vd va vb k, fun i => x i >>> ((y i).toNat % 32)),
        (.vminuw n vd va vb k, fun i => BitVec.ofNat 32 (min (x i).toNat (y i).toNat)),
        (.vmaxuw n vd va vb k, fun i => BitVec.ofNat 32 (max (x i).toNat (y i).toNat)), (.vfadd n vd va vb k, fun i => fpAdd (x i) (y i)),
        (.vfsub n vd va vb k, fun i => fpSub (x i) (y i)), (.vfmul n vd va vb k, fun i => fpMul (x i) (y i)),
        (.vfmin n vd va vb k, fun i => fpMin (x i) (y i)), (.vfmax n vd va vb k, fun i => fpMax (x i) (y i)),
        (.vcvtif n vd va k, fun i => fpOfInt (x i)), (.vcvtfi n vd va k, fun i => fpToInt (x i)), (.vmov n vd va k, x),
        (.vbcast n vd va k, fun _ => x 0), (.vpermw n vd va vb k, fun i => x ((y i).toNat % 16))] : List (Instr × (Nat → Word))),
      ∃ w, exec q.1 s = .next (retired s n (t.wv vd w) 1) ∧
        ∀ i, i < 16 → lane w i = if (t.rk k).getLsbD i then q.2 i else lane (t.rv vd) i

/-- O11. Vector comparisons: bit i of kD, of 16 word lanes or 64 byte lanes, takes the comparison where bit i of kK is 1 and keeps its
value elsewhere; the bits above the lanes of a word comparison are zero (what a masked-off lane and the bits above take is DEDUCED, log entry
22's). CGEF and CEQU set all 16 (R376, R379). -/
def Obligations.BeadVectorCompare : Prop :=
  ∀ (s : State) (n : Thread) (e : BEnv) (kd : BitVec 3) (va vb : BitVec 4) (k : BitVec 3), InCall s n e → Room s n e 1 →
    let t := s.thread n
    let x := fun i => lane (t.rv va) i
    let y := fun i => lane (t.rv vb) i
    ∀ q ∈ ([(.vflt n kd va vb k, true, 16, fun i => fpLt (x i) (y i)), (.vfle n kd va vb k, true, 16, fun i => fpLe (x i) (y i)),
        (.vfeq n kd va vb k, true, 16, fun i => fpEq (x i) (y i)), (.vilt n kd va vb k, true, 16, fun i => decide ((x i).toInt < (y i).toInt)),
        (.viltu n kd va vb k, true, 16, fun i => decide ((x i).toNat < (y i).toNat)), (.vieq n kd va vb k, true, 16, fun i => x i == y i),
        (.vbeq n kd va vb k, true, 64, fun i => (t.rv va).extractLsb' (8 * i) 8 == (t.rv vb).extractLsb' (8 * i) 8),
        (.cgef n kd va vb, false, 16, fun i => fpLe (y i) (x i)), (.cequ n kd va vb, false, 16, fun i => x i == y i)] :
        List (Instr × Bool × Nat × (Nat → Bool))),
      ∃ w : DWord, exec q.1 s = .next (retired s n (t.wk kd w) 1) ∧
        ∀ i, i < 64 → w.getLsbD i =
          (decide (i < q.2.2.1) && if q.2.1 && !(t.rk k).getLsbD i then (t.rk kd).getLsbD i else q.2.2.2 i)

/-- What an instruction that walks a table at address `a` leaves beside its result: reads of the backing, where the section is not placed
(R222). -/
def walked (s : State) (e : BEnv) (t : BeadThread) (a : Nat) : State := s.noteMiss t.part 0 (min 1 (s.linesMissed e t a 1))

/-- O12. The trie and DFA units: a step, a token, a root, the bases, a DFA step and a class; what lies outside the section, or under no
base, is a WINDOW fault (R378 to R380, R383). A DEAD state has no attribute word, so bits [31:16] are stated of the others. What a walk reads of
a section that is not placed is counted; of a section that holds a poisoned VGS line log entry 2 says more (R394). -/
def Obligations.BeadTrieUnits : Prop :=
  ∀ (s : State) (n : Thread) (e : BEnv) (d a b : BitVec 5), InCall s n e →
    let t := s.thread n
    let x := (t.rx a).toNat
    let y := (t.rx b).toNat
    let base := t.trieBase.getD 0
    let dfa := t.dfaBase.getD 0
    (∀ v sec, e.voc = some v → trieBytes e t = some sec →
      (nodeInside sec x = true → s.sectPoisoned e t (base + x) = false → Room s n e 9 →
        exec (.tstep n d a b) s = .next (retired (walked s e t (base + x)) n (t.wx d (match trieStep sec x (y % 256) with
          | some o => BitVec.ofNat 64 o | none => BitVec.allOnes 64)) 9)) ∧
      (nodeInside sec x = false →
        exec (.tstep n d a b) s = .next (s.threadFault n t e ⟨bfWINDOW, 0, BitVec.ofNat 64 (base + x)⟩)) ∧
      (x + 16 ≤ sec.length → s.sectPoisoned e t (base + x) = false → Room s n e 1 →
        exec (.ttok n d a) s = .next (retired (walked s e t (base + x)) n (t.wx d (BitVec.ofNat 64
          (if trieTok sec x ≠ 0xFFFFFFFF ∧ v.live (trieTok sec x) = true then trieTok sec x else 0xFFFFFFFF))) 1))) ∧
    (∀ sec, trieBytes e t = some sec → s.sectPoisoned e t base = false → Room s n e 1 →
      exec (.troot n d a) s = .next (retired (walked s e t base) n (t.wx d
        (if x < 2 ∧ leAt sec (4 * x) 4 ≠ 0xFFFFFFFF then BitVec.ofNat 64 (leAt sec (4 * x) 4) else BitVec.allOnes 64)) 1)) ∧
    (e.voc = none →
      exec (.tstep n d a b) s = .next (s.threadFault n t e ⟨bfWINDOW, 0, BitVec.ofNat 64 base⟩) ∧
      exec (.ttok n d a) s = .next (s.threadFault n t e ⟨bfWINDOW, 0, BitVec.ofNat 64 base⟩)) ∧
    (∀ sec, baseBytes e t x = some sec → Room s n e 1 →
      exec (.tbase n a) s = .next (retired s n { t with trieBase := some x } 1) ∧
      exec (.dbase n a) s = .next (retired s n { t with dfaBase := some x } 1)) ∧
    (baseBytes e t x = none →
      exec (.tbase n a) s = .next (s.threadFault n t e ⟨bfWINDOW, 0, t.rx a⟩) ∧
      exec (.dbase n a) s = .next (s.threadFault n t e ⟨bfWINDOW, 0, t.rx a⟩)) ∧
    (∀ sec, t.dfaBase = some dfa → baseBytes e t dfa = some sec → s.sectPoisoned e t dfa = false → Room s n e 1 →
      (∀ u, u = y % 2 ^ 32 → u < 0x110000 ∨ 0x80000000 ≤ u →
        leAt sec 16 4 + 2 * (x * dfaClasses sec + dfaClass sec u) + 2 ≤ sec.length →
        ∃ w : DWord, exec (.dstep n d a b) s = .next (retired (walked s e t dfa) n ({ t with fc := t.fc + 1 }.wx d w) 1) ∧
          w.toNat % 2 ^ 16 = dfaNext sec x (dfaClass sec u) ∧ w.toNat < 2 ^ 32 ∧
          (dfaNext sec x (dfaClass sec u) ≠ 0xFFFF →
            w.toNat / 2 ^ 16 = dfaAttr sec (dfaNext sec x (dfaClass sec u)))) ∧
      (∀ u, u = x % 2 ^ 32 → u < 0x110000 ∨ 0x80000000 ≤ u →
        exec (.uclass n d a) s = .next (retired (walked s e t dfa) n (t.wx d (BitVec.ofNat 64 (dfaClass sec u))) 1))) ∧
    (t.dfaBase = none →
      exec (.dstep n d a b) s = .next (s.threadFault n t e ⟨bfWINDOW, 0, 0#64⟩) ∧
      exec (.uclass n d a) s = .next (s.threadFault n t e ⟨bfWINDOW, 0, 0#64⟩))

/-- O13. The merge and UTF units (R378, R379, R381 to R383): MPROBE, MHASH, UDEC of one well-formed character, UENC, UNORM;
what a walk of MERGES or NORM reads beside is as O12 says. -/
def Obligations.BeadTextUnits : Prop :=
  ∀ (s : State) (n : Thread) (e : BEnv) (d a b : BitVec 5), InCall s n e →
    let t := s.thread n
    let x := (t.rx a).toNat
    let y := (t.rx b).toNat
    let merges := vocabAddr (if e.set then 0xF else secMerges)
    (∀ v, e.voc = some v → s.sectPoisoned e t merges = false → Room s n e 9 →
      exec (.mprobe n d a b) s = .next (retired (walked s e t merges) n (t.wx d (match v.merge x y with
        | some m => BitVec.ofNat 64 (m.rank * 2 ^ 32 + m.result) | none => BitVec.allOnes 64)) 9)) ∧
    (e.voc = none → exec (.mprobe n d a b) s = .next (s.threadFault n t e ⟨bfWINDOW, 0, 0#64⟩)) ∧
    (Room s n e 1 → ∃ w : DWord, exec (.mhash n d a b) s = .next (retired s n (t.wx d w) 1) ∧
      ∀ l r p q h h' : Nat, l = x % 2 ^ 32 → r = y % 2 ^ 32 → p = l * 0x9E3779B1 % 2 ^ 32 → q = r * 0x85EBCA77 % 2 ^ 32 →
        h = p ^^^ (q * 2 ^ 13 % 2 ^ 32 + q / 2 ^ 19) → h' = (h ^^^ h / 2 ^ 16) * 0x2C1B3C6D % 2 ^ 32 → w.toNat = h' ^^^ h' / 2 ^ 15) ∧
    (∀ c k, isScalar c = true → k = (utfEnc c).length → x % 2 ^ (8 * k) = leNat (utfEnc c) → k ≤ y → y ≤ 8 → Room s n e 1 →
      exec (.udec n d a b) s = .next (retired s n (t.wx d (BitVec.ofNat 64 (c + k * 2 ^ 32))) 1)) ∧
    (isScalar x = true → Room s n e 1 →
      exec (.uenc n d a) s = .next (retired s n (t.wx d (BitVec.ofNat 64 (leNat (utfEnc x) + (utfEnc x).length * 2 ^ 60))) 1)) ∧
    (∀ v sec, e.voc = some v → sect? v.base secNorm = some sec → x < 0x110000 →
      s.sectPoisoned e t (vocabAddr secNorm) = false → Room s n e 1 →
      exec (.unorm n d a) s = .next (retired (walked s e t (vocabAddr secNorm)) n (t.wx d (BitVec.ofNat 64 (normRec sec x))) 1)) ∧
    (e.voc = none →
      exec (.unorm n d a) s = .next (s.threadFault n t e ⟨bfWINDOW, 0, BitVec.ofNat 64 (0x200000000 + secNorm * 2 ^ 32)⟩))

/-- O14. The bit-set unit, the two scalar reductions of CMP, and HCOMP (R379, R383, R339). -/
def Obligations.BeadLineUnits : Prop :=
  ∀ (s : State) (n : Thread) (e : BEnv) (d a b : BitVec 5) (vd va vb : BitVec 4), InCall s n e → Room s n e 1 →
    let t := s.thread n
    let x := t.rv va
    let y := t.rv vb
    (∀ q ∈ ([(.band n vd va vb, x &&& y), (.bor n vd va vb, x ||| y), (.bandn n vd va vb, x &&& ~~~y), (.bxor n vd va vb, x ^^^ y)] :
        List (Instr × Line)), exec q.1 s = .next (retired s n (t.wv vd q.2) 1)) ∧
    (∃ w : DWord, exec (.bpop n d va) s = .next (retired s n (t.wx d w) 1) ∧
      w.toNat = ((List.range 512).filter (fun i => x.getLsbD i)).length) ∧
    (∃ w : DWord, exec (.bffs n d va) s = .next (retired s n (t.wx d w) 1) ∧
      ((w.toNat < 512 ∧ x.getLsbD w.toNat = true ∧ ∀ i, i < w.toNat → x.getLsbD i = false) ∨ (w.toNat = 512 ∧ x = 0#512))) ∧
    (∃ w : DWord, exec (.bsel n d va b) s = .next (retired s n (t.wx d w) 1) ∧
      ((w.toNat < 512 ∧ x.getLsbD w.toNat = true ∧ ((List.range w.toNat).filter (fun i => x.getLsbD i)).length = (t.rx b).toNat) ∨
       (w.toNat = 512 ∧ ((List.range 512).filter (fun i => x.getLsbD i)).length ≤ (t.rx b).toNat))) ∧
    ((t.rx a).toNat ≤ (t.rx b).toNat → (t.rx b).toNat ≤ 512 →
      ∃ w : Line, exec (.brun n vd a b) s = .next (retired s n (t.wv vd w) 1) ∧
        ∀ i, w.getLsbD i = decide ((t.rx a).toNat ≤ i ∧ i < (t.rx b).toNat)) ∧
    (∃ w : DWord, exec (.cminu n d va) s = .next (retired s n (t.wx d w) 1) ∧
      (∃ i, i < 16 ∧ w.toNat = (lane x i).toNat) ∧ ∀ i, i < 16 → w.toNat ≤ (lane x i).toNat) ∧
    (∃ i, i < 16 ∧ exec (.cmaxk n d va vb) s = .next (retired s n (t.wx d (lane y i ++ lane x i)) 1) ∧
      ∀ j, j < 16 → fpIsNaN (lane x i) = false → fpIsNaN (lane x j) = false →
        fpLt (lane x i) (lane x j) = false ∧ (fpEq (lane x i) (lane x j) = true → (lane y i).toNat ≤ (lane y j).toNat)) ∧
    (Room s n e 7 → ∃ w : Line, exec (.hcomp n vd va vb) s = .next (retired s n (t.wv vd w) 7) ∧
      (List.range 16).map (lane w) =
        b3Compress ((List.range 8).map (lane x)) ((List.range 16).map (lane y)) (lane x 8) (lane x 9) (lane x 10) (lane x 11))

/-- O15. GET takes a tag that no GET of the thread in flight holds, puts it into xD and counts 1 and 1 for each line; a fifth GET waits;
WAIT and FENCE go on once the GETs they wait for have completed, and GET_COMPLETE brings the data into WORK, poisoned where a line read was
(R376, R383, R385, R418). -/
def Obligations.BeadDma : Prop :=
  ∀ (s : State) (n : Thread) (e : BEnv) (d a b : BitVec 5), InCall s n e →
    let t := s.thread n
    let k := (t.rx d).toNat
    (∀ o w, findWin e t (t.rx a) k true = some (.work o) → findWin e t (t.rx b) k false = some w →
      (match w with | .obj _ | .voc _ _ | .mem _ => True | _ => False) → k ≠ 0 → k % 64 = 0 → k ≤ 16384 →
      (t.gets.length < 4 → Room s n e (1 + k / 64) → ∃ tag : Fin 4, (∀ g ∈ t.gets, g.tag ≠ tag) ∧
        exec (.get n d a b) s = .next (retired s n
          ({ t with fc := t.fc + 1, gets := t.gets ++ [GetOp.mk tag o (t.rx b).toNat k] }.wx d (BitVec.ofNat 64 tag.val)) (1 + k / 64))) ∧
      (4 ≤ t.gets.length → exec (.get n d a b) s = .next (s.setThread n { t with st := .waiting none }))) ∧
    (Room s n e 1 → (∀ g ∈ t.gets, g.tag.val ≠ (t.rx a).toNat) → exec (.wait n a) s = .next (retired s n t 1)) ∧
    (∀ g ∈ t.gets, g.tag.val = (t.rx a).toNat → exec (.wait n a) s = .next (s.setThread n { t with st := .waiting (some g.tag) })) ∧
    (Room s n e 1 → t.gets = [] → exec (.fence n) s = .next (retired s n t 1)) ∧
    (t.gets ≠ [] → exec (.fence n) s = .next (s.setThread n { t with st := .waiting none })) ∧
    (∀ g w, t.gets.find? (fun h => h.tag == g.tag) = some g → findWin e t (BitVec.ofNat 64 g.src) g.len false = some w →
      ∃ u, exec (.getComplete n g.tag) s = .next u ∧
        (u.thread n).work = cellWrite 0#8 t.work g.dst (winBytes s e w g.len) ∧ (∀ h ∈ (u.thread n).gets, h.tag ≠ g.tag) ∧
        (u.thread n).poison = (s.getPoison e t g).foldl natInsert (t.putWork g.dst (winBytes s e w g.len)).poison ∧
        u = (s.noteMiss t.part (s.linesMissed e t g.src g.len) 0).setThread n (u.thread n) ∧ (u.thread n).x = t.x ∧ (u.thread n).pc = t.pc ∧
        (t.st = .waiting (some g.tag) → (u.thread n).st = .running))

/-- O16. NOP, the moves between registers of different kinds, and the mask operations (R368, R376). -/
def Obligations.BeadMoves : Prop :=
  ∀ (s : State) (n : Thread) (e : BEnv) (d a b : BitVec 5) (vd va : BitVec 4) (kd ka kb : BitVec 3), InCall s n e → Room s n e 1 →
    let t := s.thread n
    exec (.nop n) s = .next (retired s n t 1) ∧
    (∃ w : Line, exec (.vfill n vd a) s = .next (retired s n (t.wv vd w) 1) ∧ ∀ i, i < 16 → lane w i = (t.rx a).truncate 32) ∧
    exec (.vext n d va b) s = .next (retired s n (t.wx d ((lane (t.rv va) ((t.rx b).toNat % 16)).zeroExtend 64)) 1) ∧
    exec (.kfromx n kd a) s = .next (retired s n (t.wk kd (t.rx a)) 1) ∧
    exec (.ktox n d ka) s = .next (retired s n (t.wx d (t.rk ka)) 1) ∧
    exec (.kand n kd ka kb) s = .next (retired s n (t.wk kd (t.rk ka &&& t.rk kb)) 1) ∧
    exec (.kor n kd ka kb) s = .next (retired s n (t.wk kd (t.rk ka ||| t.rk kb)) 1) ∧
    exec (.kandn n kd ka kb) s = .next (retired s n (t.wk kd (t.rk ka &&& ~~~(t.rk kb))) 1)

/-- O17. RNG in a hook: the four words of Philox-4x32-10 at the counter of R354 in lanes 0 to 3, zeros above (R354, R376, R388); elsewhere,
or with a draw index outside 1 to 65,535, a CONTRACT fault. -/
def Obligations.BeadRandom : Prop :=
  ∀ (s : State) (n : Thread) (e : BEnv) (vd : BitVec 4) (a : BitVec 5), InCall s n e →
    let t := s.thread n
    let k := (t.rx a).toNat
    (bROLE e.hdr = 3 → 1 ≤ k → k ≤ 65535 → Room s n e 1 →
      ∃ w : Line, exec (.rng n vd a) s = .next (retired s n (t.wv vd w) 1) ∧
        ∀ i, i < 16 → lane w i = if i < 4 then
          BitVec.ofNat 32 ((philox t.seed [fld (t.rx 6#5) 0 32, k * 65536 + (t.rx 7#5).toNat % 256 * 256 + fld (t.rx 6#5) 32 8, 0, 0]).getD i 0)
          else 0#32) ∧
    (bROLE e.hdr ≠ 3 ∨ k = 0 ∨ 65535 < k → exec (.rng n vd a) s = .next (s.threadFault n t e ⟨bfCONTRACT, 0, 0#64⟩))

/-- O18. How a call ends (R376, R383, R386, R394). EXIT within the budget leaves its code in the thread; on an encode unit's thread it keeps
the tokens of its piece and the next piece's call begins, or it is a CONTRACT fault where the tokens break R386. TRAP, a program counter
with no instruction at it, and an instruction, EXIT included, that would take the count above CALL_CYCLES end the call with a fault
of their cause. A command whose call has no such instruction next, and one of a thread in no call, changes nothing. -/
def Obligations.BeadCallEnds : Prop :=
  ∀ (s : State) (n : Thread) (code : BitVec 5),
    let t := s.thread n
    (t.inCall = false → exec (.exit n code) s = .next s ∧ exec (.trap n code) s = .next s ∧ exec (.illegalInstruction n) s = .next s ∧
      exec (.callBudgetFault n) s = .next s) ∧
    ∀ e : BEnv, InCall s n e →
      let faults : Instr → BFault → Prop := fun i f => ∃ u, exec i s = .next u ∧ u = s.threadFault n t e f ∧ (u.thread n).st = .faulted f.cause
      let word := beadDecode (codeWord e.code t.pc)
      let none_ := e.code.length ≤ t.pc ∨ word = none
      let spent := ∃ op, t.pc < e.code.length ∧ word = some op ∧
        ((∃ u c, op s e t = .ok u c ∧ bCYCLES e.hdr < t.count + c) ∨ ∃ u k, op s e t = .exit u k ∧ bCYCLES e.hdr < t.count + 1)
      (Room s n e 1 →
        (t.job = none → exec (.exit n code) s = .next (s.setThread n { t with count := t.count + 1, st := .exited code, gets := [] })) ∧
        (∀ j, t.job = some j → j.left = [] →
          exec (.exit n code) s = .next (s.setThread n { t with count := t.count + 1, st := .exited code })) ∧
        (∀ j us rest, t.job = some j → j.left = us :: rest →
          (modelExit j.size us.length t code = none → ∃ u, exec (.exit n code) s = .next u ∧ (u.thread n).st = .faulted bfCONTRACT) ∧
          (∀ l, modelExit j.size us.length t code = some l →
            ∃ u, exec (.exit n code) s = .next u ∧ (u.thread n).job = some { j with left := rest, toks := j.toks ++ [l] } ∧
              (u.thread n).st = (if rest = [] then .exited code else .running)))) ∧
      (¬ Room s n e 1 → faults (.exit n code) ⟨bfBUDGET, 0, 0#64⟩) ∧
      faults (.trap n code) ⟨bfTRAP, code.toNat, 0#64⟩ ∧
      (none_ → faults (.illegalInstruction n) ⟨bfILLEGAL, 0, 0#64⟩ ∧ exec (.callBudgetFault n) s = .next s) ∧
      (spent → faults (.callBudgetFault n) ⟨bfBUDGET, 0, 0#64⟩ ∧ exec (.illegalInstruction n) s = .next s)

/-- O19. What a fault latches (R394, R398 to R400): the count of its partition grows by 1 up to all ones, and so do the counts of
poisoned and of uninitialised reads where the fault is one of those; the first fault leaves role, cause, code and status in
PRT_BEAD_FAULT, and its instruction's address, its thread address and its program; a later one leaves them; the thread stands
faulted. The count and the program read 0 at reset, a read of the count clears it, a write to the program's register changes
nothing. -/
def Obligations.BeadFaultLatches : Prop :=
  ∀ (s : State) (n : Thread) (t : BeadThread) (e : BEnv) (f : BFault), s.canon → t.uninit = 0 → t.miss = 0 → t.walks = 0 → f.cause < 16 → f.code < 32 →
    bROLE e.hdr < 8 →
    let p := t.part
    let u := s.threadFault n t e f
    let up : Nat → Nat := fun o => min ((s.reg o).toNat + 1) 0xFFFFFFFF
    (u.reg (rPrtBeadFaultCnt p)).toNat = up (rPrtBeadFaultCnt p) ∧
    (u.reg (rPrtPoisonCnt p)).toNat = (if f.cause = bfPOISON then up (rPrtPoisonCnt p) else (s.reg (rPrtPoisonCnt p)).toNat) ∧
    (u.reg (rPrtUninitCnt p)).toNat = (if f.cause = bfUNINIT then up (rPrtUninitCnt p) else (s.reg (rPrtUninitCnt p)).toNat) ∧
    (s.rb (rPrtBeadFault p) 31 = false →
      (u.reg (rPrtBeadFault p)).toNat = 2 ^ 31 + bROLE e.hdr * 2 ^ 28 + f.cause * 2 ^ 24 + f.code * 2 ^ 19 + (faultStatus f.cause).toNat * 2 ^ 8 ∧
      u.reg (rPrtBeadFaultPc p) = BitVec.ofNat 32 t.pc ∧ u.reg64 (rPrtBeadFaultAddr p) = f.addr ∧ u.reg (rPrtBeadFaultProg p) = e.id) ∧
    (s.rb (rPrtBeadFault p) 31 = true →
      ∀ o, o ∉ [rPrtBeadFaultCnt p, rPrtPoisonCnt p, rPrtUninitCnt p, rCluUninitCnt n.clu, rCluUninitLast n.clu] → u.reg o = s.reg o) ∧
    (u.thread n).st = .faulted f.cause ∧ u = { s with regs := u.regs, threads := u.threads, freeCtr := u.freeCtr } ∧
    State.reset.reg (rPrtBeadFaultCnt p) = 0#32 ∧ State.reset.reg (rPrtBeadFaultProg p) = 0#32 ∧
    (s.running = true → ∃ w, exec (.counterReadClear ⟨BitVec.ofNat 25 (0x100000 + 0x10000 * p.val + 0x61C), 4⟩) s = .next w ∧
      w.resp = ⟨s.reg (rPrtBeadFaultCnt p), false⟩ ∧ w.reg (rPrtBeadFaultCnt p) = 0#32) ∧
    (s.running = true → ∀ v src, ∃ w, exec (.registerWrite (BitVec.ofNat 25 (0x100000 + 0x10000 * p.val + 0x618)) 4 ⟨v, src⟩) s = .next w ∧
      w.reg (rPrtBeadFaultProg p) = s.reg (rPrtBeadFaultProg p))

/-- O20. The registers of a thread (R368): 32 scalar registers of 64 bits, 16 vectors of 512, 8 masks of 64; x0 reads 0 and k0 all ones,
writes to them are ignored; every other register reads what was written last, and a write of one leaves the others. Bit i of a mask
governs the word lane in bits [32i + 31:32i] in a word operation (VMOV here; BeadVectorAlu for the others) and byte lane i in the
byte operation. -/
def Obligations.BeadRegisterFile : Prop :=
  (∀ (t : BeadThread) (d r : BitVec 5) (vd vr : BitVec 4) (kd kr : BitVec 3) (x k : BitVec 64) (v : BitVec 512),
    (t.wx d x).rx r = (if r = 0#5 then 0#64 else if r = d then x else t.rx r) ∧ (d = 0#5 → t.wx d x = t) ∧
    (t.wv vd v).rv vr = (if vr = vd then v else t.rv vr) ∧
    (t.wk kd k).rk kr = (if kr = 0#3 then BitVec.allOnes 64 else if kr = kd then k else t.rk kr) ∧ (kd = 0#3 → t.wk kd k = t)) ∧
  ∀ (s : State) (n : Thread) (e : BEnv) (vd va vb : BitVec 4) (kd k : BitVec 3), InCall s n e → Room s n e 1 →
    let t := s.thread n
    (∃ w : BitVec 512, exec (.vmov n vd va k) s = .next (retired s n (t.wv vd w) 1) ∧ ∀ i j, i < 16 → j < 32 →
      w.getLsbD (32 * i + j) = if (t.rk k).getLsbD i then (t.rv va).getLsbD (32 * i + j) else (t.rv vd).getLsbD (32 * i + j)) ∧
    (∃ w : BitVec 64, exec (.vbeq n kd va vb k) s = .next (retired s n (t.wk kd w) 1) ∧ ∀ i, i < 64 → (w.getLsbD i = true ↔
      if (t.rk k).getLsbD i then ∀ j, j < 8 → (t.rv va).getLsbD (8 * i + j) = (t.rv vb).getLsbD (8 * i + j) else (t.rk kd).getLsbD i = true))


/-! ### Encoding of bead instructions -/

/-- O21. Each word of R375, R376 and R379, with any operands, decodes to the instruction of its row: the command of the row and the decoded
word act alike on a thread. EXIT and TRAP carry their code in the B field. -/
def Obligations.BeadWordsAreTheirCommands : Prop :=
  ∀ (n : Thread) (d a b code : BitVec 5) (vd va vb : BitVec 4) (kd ka kb k : BitVec 3) (imm : BitVec 16) (up : BitVec 21),
    ∀ q ∈ ([
      (wA 0x01 d.toNat a.toNat b.toNat 0, .add n d a b), (wA 0x01 d.toNat a.toNat b.toNat 1, .sub n d a b),
      (wA 0x01 d.toNat a.toNat b.toNat 2, .and n d a b), (wA 0x01 d.toNat a.toNat b.toNat 3, .or n d a b),
      (wA 0x01 d.toNat a.toNat b.toNat 4, .xor n d a b), (wA 0x01 d.toNat a.toNat b.toNat 5, .shl n d a b),
      (wA 0x01 d.toNat a.toNat b.toNat 6, .shr n d a b), (wA 0x01 d.toNat a.toNat b.toNat 7, .sar n d a b),
      (wA 0x01 d.toNat a.toNat b.toNat 8, .mul n d a b), (wA 0x01 d.toNat a.toNat b.toNat 9, .mulhu n d a b),
      (wA 0x01 d.toNat a.toNat b.toNat 10, .divu n d a b), (wA 0x01 d.toNat a.toNat b.toNat 11, .remu n d a b),
      (wA 0x01 d.toNat a.toNat b.toNat 12, .mins n d a b), (wA 0x01 d.toNat a.toNat b.toNat 13, .maxs n d a b),
      (wA 0x01 d.toNat a.toNat b.toNat 14, .minu n d a b), (wA 0x01 d.toNat a.toNat b.toNat 15, .maxu n d a b),
      (wA 0x01 d.toNat a.toNat b.toNat 16, .seq n d a b), (wA 0x01 d.toNat a.toNat b.toNat 17, .slt n d a b),
      (wA 0x01 d.toNat a.toNat b.toNat 18, .sltu n d a b), (wA 0x01 d.toNat a.toNat 0 19, .popc n d a),
      (wA 0x01 d.toNat a.toNat 0 20, .clz n d a), (wA 0x01 d.toNat a.toNat 0 21, .ctz n d a),
      (wI 0x2 d.toNat a.toNat imm.toNat, .addi n d a imm), (wI 0x3 d.toNat a.toNat imm.toNat, .andi n d a imm),
      (wI 0x4 d.toNat a.toNat imm.toNat, .ori n d a imm), (wI 0x5 d.toNat a.toNat imm.toNat, .xori n d a imm),
      (wI 0x6 d.toNat a.toNat imm.toNat, .shli n d a imm), (wI 0x7 d.toNat a.toNat imm.toNat, .shri n d a imm),
      (wI 0x8 d.toNat a.toNat imm.toNat, .sari n d a imm), (wI 0x9 d.toNat a.toNat imm.toNat, .slti n d a imm),
      (wL 0x0A d.toNat up.toNat, .lui n d up), (wA 0x0B d.toNat a.toNat b.toNat 0, .fadd n d a b),
      (wA 0x0B d.toNat a.toNat b.toNat 1, .fsub n d a b), (wA 0x0B d.toNat a.toNat b.toNat 2, .fmul n d a b),
      (wA 0x0B d.toNat a.toNat b.toNat 3, .fdiv n d a b), (wA 0x0B d.toNat a.toNat b.toNat 4, .fmin n d a b),
      (wA 0x0B d.toNat a.toNat b.toNat 5, .fmax n d a b), (wA 0x0B d.toNat a.toNat b.toNat 6, .flt n d a b),
      (wA 0x0B d.toNat a.toNat b.toNat 7, .feq n d a b), (wA 0x0B d.toNat a.toNat 0 8, .fcvtif n d a),
      (wA 0x0B d.toNat a.toNat 0 9, .fcvtfi n d a), (wI 0x10 d.toNat a.toNat imm.toNat, .ldb n d a imm),
      (wI 0x11 d.toNat a.toNat imm.toNat, .ldh n d a imm), (wI 0x12 d.toNat a.toNat imm.toNat, .ldw n d a imm),
      (wI 0x13 d.toNat a.toNat imm.toNat, .ldd n d a imm), (wI 0x14 d.toNat a.toNat imm.toNat, .stb n d a imm),
      (wI 0x15 d.toNat a.toNat imm.toNat, .sth n d a imm), (wI 0x16 d.toNat a.toNat imm.toNat, .stw n d a imm),
      (wI 0x17 d.toNat a.toNat imm.toNat, .std n d a imm), (wI 0x18 a.toNat b.toNat imm.toNat, .beq n a b imm),
      (wI 0x19 a.toNat b.toNat imm.toNat, .bne n a b imm), (wI 0x1a a.toNat b.toNat imm.toNat, .blt n a b imm),
      (wI 0x1b a.toNat b.toNat imm.toNat, .bge n a b imm), (wI 0x1c a.toNat b.toNat imm.toNat, .bltu n a b imm),
      (wI 0x1d a.toNat b.toNat imm.toNat, .bgeu n a b imm), (wL 0x1E d.toNat up.toNat, .jal n d up),
      (wA 0x1F d.toNat a.toNat 0 0, .jr n d a), (wV 0x20 vd.toNat va.toNat vb.toNat k.toNat 0, .vaddw n vd va vb k),
      (wV 0x20 vd.toNat va.toNat vb.toNat k.toNat 1, .vsubw n vd va vb k),
      (wV 0x20 vd.toNat va.toNat vb.toNat k.toNat 2, .vand n vd va vb k),
      (wV 0x20 vd.toNat va.toNat vb.toNat k.toNat 3, .vor n vd va vb k),
      (wV 0x20 vd.toNat va.toNat vb.toNat k.toNat 4, .vxor n vd va vb k),
      (wV 0x20 vd.toNat va.toNat vb.toNat k.toNat 5, .vshlw n vd va vb k),
      (wV 0x20 vd.toNat va.toNat vb.toNat k.toNat 6, .vshrw n vd va vb k),
      (wV 0x20 vd.toNat va.toNat vb.toNat k.toNat 7, .vminuw n vd va vb k),
      (wV 0x20 vd.toNat va.toNat vb.toNat k.toNat 8, .vmaxuw n vd va vb k),
      (wV 0x20 vd.toNat va.toNat vb.toNat k.toNat 9, .vfadd n vd va vb k),
      (wV 0x20 vd.toNat va.toNat vb.toNat k.toNat 10, .vfsub n vd va vb k),
      (wV 0x20 vd.toNat va.toNat vb.toNat k.toNat 11, .vfmul n vd va vb k),
      (wV 0x20 vd.toNat va.toNat vb.toNat k.toNat 12, .vfmin n vd va vb k),
      (wV 0x20 vd.toNat va.toNat vb.toNat k.toNat 13, .vfmax n vd va vb k), (wV 0x20 vd.toNat va.toNat 0 k.toNat 14, .vcvtif n vd va k),
      (wV 0x20 vd.toNat va.toNat 0 k.toNat 15, .vcvtfi n vd va k), (wV 0x20 vd.toNat va.toNat 0 k.toNat 16, .vmov n vd va k),
      (wV 0x20 vd.toNat va.toNat 0 k.toNat 17, .vbcast n vd va k), (wV 0x20 vd.toNat va.toNat vb.toNat k.toNat 18, .vpermw n vd va vb k),
      (wV 0x21 kd.toNat va.toNat vb.toNat k.toNat 0, .vflt n kd va vb k),
      (wV 0x21 kd.toNat va.toNat vb.toNat k.toNat 1, .vfle n kd va vb k),
      (wV 0x21 kd.toNat va.toNat vb.toNat k.toNat 2, .vfeq n kd va vb k),
      (wV 0x21 kd.toNat va.toNat vb.toNat k.toNat 3, .vilt n kd va vb k),
      (wV 0x21 kd.toNat va.toNat vb.toNat k.toNat 4, .viltu n kd va vb k),
      (wV 0x21 kd.toNat va.toNat vb.toNat k.toNat 5, .vieq n kd va vb k),
      (wV 0x21 kd.toNat va.toNat vb.toNat k.toNat 6, .vbeq n kd va vb k), (wI 0x22 vd.toNat a.toNat imm.toNat, .vld n vd a imm),
      (wI 0x23 vd.toNat a.toNat imm.toNat, .vst n vd a imm), (wA 0x24 d.toNat a.toNat b.toNat 0, .tstep n d a b),
      (wA 0x24 d.toNat a.toNat 0 1, .ttok n d a), (wA 0x24 d.toNat a.toNat 0 2, .troot n d a),
      (wA 0x24 d.toNat a.toNat b.toNat 3, .dstep n d a b), (wA 0x24 0 a.toNat 0 4, .tbase n a), (wA 0x24 0 a.toNat 0 5, .dbase n a),
      (wA 0x24 d.toNat a.toNat b.toNat 256, .mprobe n d a b), (wA 0x24 d.toNat a.toNat b.toNat 257, .mhash n d a b),
      (wA 0x24 d.toNat a.toNat b.toNat 512, .udec n d a b), (wA 0x24 d.toNat a.toNat 0 513, .unorm n d a),
      (wA 0x24 d.toNat a.toNat 0 514, .uclass n d a), (wA 0x24 d.toNat a.toNat 0 515, .uenc n d a),
      (wA 0x24 vd.toNat va.toNat vb.toNat 768, .hcomp n vd va vb), (wA 0x24 vd.toNat va.toNat vb.toNat 1024, .band n vd va vb),
      (wA 0x24 vd.toNat va.toNat vb.toNat 1025, .bor n vd va vb), (wA 0x24 vd.toNat va.toNat vb.toNat 1026, .bandn n vd va vb),
      (wA 0x24 vd.toNat va.toNat vb.toNat 1027, .bxor n vd va vb), (wA 0x24 d.toNat va.toNat 0 1028, .bpop n d va),
      (wA 0x24 d.toNat va.toNat 0 1029, .bffs n d va), (wA 0x24 d.toNat va.toNat b.toNat 1030, .bsel n d va b),
      (wA 0x24 vd.toNat a.toNat b.toNat 1031, .brun n vd a b), (wA 0x24 d.toNat va.toNat vb.toNat 1280, .cmaxk n d va vb),
      (wA 0x24 d.toNat va.toNat 0 1281, .cminu n d va), (wA 0x24 kd.toNat va.toNat vb.toNat 1282, .cgef n kd va vb),
      (wA 0x24 kd.toNat va.toNat vb.toNat 1283, .cequ n kd va vb), (wA 0x25 d.toNat a.toNat b.toNat 0, .get n d a b),
      (wA 0x25 0 a.toNat 0 1, .wait n a), (wA 0x3F 0 0 0 0, .nop n), (wA 0x3F 0 0 code.toNat 1, .exit n code),
      (wA 0x3F 0 0 code.toNat 2, .trap n code), (wA 0x3F vd.toNat a.toNat 0 3, .rng n vd a), (wA 0x3F 0 0 0 4, .fence n),
      (wA 0x3F vd.toNat a.toNat 0 5, .vfill n vd a), (wA 0x3F d.toNat va.toNat b.toNat 6, .vext n d va b),
      (wA 0x3F kd.toNat a.toNat 0 7, .kfromx n kd a), (wA 0x3F d.toNat ka.toNat 0 8, .ktox n d ka),
      (wA 0x3F kd.toNat ka.toNat kb.toNat 9, .kand n kd ka kb), (wA 0x3F kd.toNat ka.toNat kb.toNat 10, .kor n kd ka kb),
      (wA 0x3F kd.toNat ka.toNat kb.toNat 11, .kandn n kd ka kb)] : List (Word × Instr)),
      ∃ op, beadDecode q.1 = some op ∧ ∀ s, exec q.2 s = .next (beadRun n op s)

/-- O22. The worked encoding of R376, and a word of each other format: VFMAX v1, v1, v2; ADD x3, x1, x2; ADDI x5, x6, −1; BNE x7, x8, −2;
LUI x9, 5; BPOP x4, v3. -/
def Obligations.BeadWorkedWords : Prop :=
  ∀ (n : Thread) (s : State),
    ∀ q ∈ ([(0x8044800D#32, .vfmax n 1#4 1#4 2#4 0#3), (0x04611000#32, .add n 3#5 1#5 2#5), (0x08A6FFFF#32, .addi n 5#5 6#5 0xFFFF#16),
        (0x64E8FFFE#32, .bne n 7#5 8#5 0xFFFE#16), (0x29200005#32, .lui n 9#5 5#21), (0x90830404#32, .bpop n 4#5 3#4)] :
        List (Word × Instr)),
      ∃ op, beadDecode q.1 = some op ∧ exec q.2 s = .next (beadRun n op s)

/-- O23. What a command of a bead thread leaves alone (R369, R371, R372, R398, R414): it always goes on, and chip memory, the strands, the
objects, the rings, the other threads and every register stand, but for the fault registers and counters of the thread's partition, its count
of lines read from the backing (R222, R667), and the uninitialised-read registers of its cluster. -/
def Obligations.BeadCommandFrame : Prop :=
  ∀ (i : Instr) (n : Thread) (s : State), beadOf i = some n →
    ∃ t, exec i s = .next t ∧ t = { s with regs := t.regs, threads := t.threads, freeCtr := t.freeCtr } ∧
      (∀ m, m ≠ n → t.thread m = s.thread m) ∧
      let p := (s.thread n).part
      ∀ o, o ∉ [rPrtBeadFaultCnt p, rPrtPoisonCnt p, rPrtBeadFault p, rPrtBeadFaultPc p, rPrtBeadFaultAddr p, rPrtBeadFaultAddr p + 4,
          rPrtBeadFaultProg p, rPrtUninitCnt p, rPrtVgsMiss p, rPrtVgsMiss p + 4, rCluUninitCnt n.clu, rCluUninitLast n.clu] →
        (∀ i < 8, o ≠ rLpeCnt i ∧ o ≠ rLpeCnt i + 4) → t.reg o = s.reg o

/-! ### The block as a whole -/

/-- O24. A step takes the command at the front of the queue and has its effect with the rest of the queue waiting; with none waiting one
cycle of AON_CLK passes (DESIGN CHOICE, log entry 1). -/
def Obligations.StepRunsFrontCommand : Prop :=
  ∀ s : State, (∀ c cs, step { s with pending := c :: cs } = exec c { s with pending := cs }) ∧
    ∃ t, step { s with pending := [] } = .next t ∧ t.time = s.time + 1

/-- O25. Every step from a state whose stored maps are in canonical form ends in such a state: chip memory, configuration flash, registers. -/
def Obligations.StepKeepsCanon : Prop := ∀ s t : State, s.canon → step s = .next t → t.canon

/-- O26. Right after PWR_ON the stored maps are in canonical form. -/
def Obligations.ResetIsCanonical : Prop := State.reset.canon

/-- O27. No command and no tick faults or is refused: every state has a next one. -/
def Obligations.EveryStepAnswers : Prop := ∀ s : State, SafeStep s

/-- O28. PWR_ON (R10, R38, R39, R579, R583): every register at its Reset value, every domain OFF at step 0, no op, thread, strand, object or
locket, the AON time 0; the queue waits on, and what lies outside the block's resets stays (DEDUCED, log entry 25). -/
def Obligations.PowerOnReset : Prop :=
  ∀ s : State, ∃ t, exec .powerOnReset s = .next t ∧ (∀ o, t.reg o = regReset o) ∧ t.time = 0 ∧
    (∀ d : Dom, (t.sd[d]).st = .off ∧ (t.sd[d]).step = 0#40) ∧
    t.ctxs = [] ∧ t.threads = [] ∧ t.strands = [] ∧ t.objs = [] ∧ t.lockets = [] ∧ t.pending = s.pending ∧ t.mem = s.mem ∧
    t.flash = s.flash ∧ t.fuses = s.fuses ∧ t.boot.phase = .held

/-- O29. A whole-instance reset (R579, R581, R583, R594): HOST_WARM, FW_WDOG, SOFT written with its key, and the request bit of the control
complex. The cause is recorded with its bit, the capture takes a new count and each domain's point, ops, threads and on-chip memories are
gone, the block waits for its boot; chip memory but for the output of the ops that it ends, the step domains, backup registers and the data
region registers stand. The firmware watchdog expires 1 s after its last service; HOST_WARM beside PWR_ON is part of it (R618). -/
def Obligations.WholeInstanceReset : Prop :=
  ∀ (s : State) (v : Word), s.canon →
    (∀ q ∈ ([(.hostWarmReset, 2, !s.poweredNow), (.fwWatchdogExpiry, 4, s.running && decide (s.wdogAt + 100000000 ≤ s.time)), (.unitResetCtrl, 5, s.running),
        (.softReset v, 5, fld v 24 8 == 0xA5 && bit v 0 && (s.rb rCfgBootStat 31 || s.rb rCfgBootStat 29 || s.rb rGlbPairStat 29))] :
        List (Instr × Nat × Bool)),
      q.2.2 = true → ∃ t, exec q.1 s = .next t ∧ t.rf rRstCause 28 4 = q.2.1 ∧ t.rb rRstCause (q.2.1 - 1) = true ∧
        t.capture.count = s.capture.count + 1 ∧ t.capture.source = q.2.1 ∧
        (∀ d : Dom, (t.capture.sdTime[d]) = s.point d) ∧
        t.ctxs = [] ∧ t.threads = [] ∧ t.boot.phase = .held ∧ (s.ctxs = [] → t.mem = s.mem) ∧ t.sd = s.sd ∧ t.flash = s.flash ∧
        (∀ i < 16, t.reg (rRstBkp i) = s.reg (rRstBkp i)) ∧ t.reg rRstDataBase = s.reg rRstDataBase ∧ t.rb rCfgBootStat 31 = false)

/-! ### Step domains -/

/-- O30. The rising edge of a beat input (R37, R38, R39, R41, R45): which beats are accepted, and what an overrun does. -/
def Obligations.BeatEdgeFilter : Prop :=
  ∀ (s : State) (d : Dom), s.canon → s.running = true →
    let x := s.sd[d]
    let e := s.time - x.beatAt
    let per := (s.reg (rGlbSdPeriod d)).toNat
    ∃ t, exec (.stepBeatEdge d) s = .next t ∧ (∀ c : Dom, c ≠ d → t.sd[c] = s.sd[c]) ∧
      (x.level = true → t.sd[d] = x ∧ t.mem = s.mem) ∧
      (x.level = false → (t.sd[d]).level = true ∧
        (x.st = .off ∨ x.timerOnly = true → (t.sd[d]).st = x.st ∧ (t.sd[d]).step = x.step ∧ t.mem = s.mem) ∧
        (x.timerOnly = false →
          (x.st = .waiting → (t.sd[d]).st = .beat ∧ (t.sd[d]).step = x.step ∧ (t.sd[d]).beatAt = s.time ∧ t.mem = s.mem) ∧
          (x.st = .beat → s.spaceNow d ≤ e →
            (t.sd[d]).st = .beat ∧ (t.sd[d]).step = x.step + 1#40 ∧ (t.sd[d]).beatAt = s.time ∧ t.mem = s.mem ∧
            t.reg (rGlbSdOverrun d) = s.reg (rGlbSdOverrun d)) ∧
          (x.st = .beat → e < s.spaceNow d →
            (t.sd[d]).st = .beat ∧ (t.sd[d]).step = x.step ∧ (t.sd[d]).beatAt = x.beatAt ∧ t.rb rGlbSdEvt d.val = true ∧
            (t.reg (rGlbSdOverrun d)).toNat = min ((s.reg (rGlbSdOverrun d)).toNat + 1) 0xFFFFFFFF) ∧
          (x.st = .timer → s.spaceNow d ≤ e → e < per →
            (t.sd[d]).st = .beat ∧ (t.sd[d]).step = x.step + 1#40 ∧ (t.sd[d]).beatAt = s.time ∧ t.rb rGlbSdEvt (12 + d.val) = true) ∧
          (x.st = .timer → per ≤ e → (t.sd[d]).st = .timer ∧ (t.sd[d]).step = x.step + 1#40 ∧ t.rb rGlbSdEvt d.val = true) ∧
          (x.st ≠ .off → (t.sd[d]).riseAt = some s.time)))

/-- O31. Lost and synthetic beats (R45, R46, R47): the watchdog's expiry in BEAT and the measured period's end in TIMER each accept one
synthetic beat; the watchdog's also sets LOST. Before that time, or in another state, nothing happens. A write of WDOG leaves the time
of this cycle and gives the time of the next. -/
def Obligations.SyntheticBeats : Prop :=
  ∀ (s : State) (d : Dom), s.canon → s.running = true →
    let x := s.sd[d]
    let e := s.time - x.beatAt
    let wdog := s.wdogNow d
    let off : CsrOff := BitVec.ofNat 25 (rGlbSdWdog d)
    (x.st = .beat → wdog ≠ 0 → max (wdog * 100) (2 * (s.reg (rGlbSdPeriod d)).toNat) ≤ e →
      ∃ t, exec (.beatWatchdogExpiry d) s = .next t ∧ (t.sd[d]).st = .timer ∧ (t.sd[d]).step = x.step + 1#40 ∧
        (t.sd[d]).beatAt = s.time ∧ t.rb rGlbSdEvt (8 + d.val) = true ∧ ∀ c : Dom, c ≠ d → t.sd[c] = s.sd[c]) ∧
    (x.st ≠ .beat ∨ wdog = 0 ∨ e < max (wdog * 100) (2 * (s.reg (rGlbSdPeriod d)).toNat) →
      ∃ t, exec (.beatWatchdogExpiry d) s = .next t ∧ Noted s t) ∧
    (x.st = .timer → (s.reg (rGlbSdPeriod d)).toNat ≤ e →
      ∃ t, exec (.syntheticBeat d) s = .next t ∧ Noted (s.sdUpd d (fun y => { y with
        st := .timer, step := x.step + 1#40, beatAt := s.time, p := s.reg (rGlbSdPeriod d), realLast := false })) t) ∧
    (x.st ≠ .timer ∨ e < (s.reg (rGlbSdPeriod d)).toNat → ∃ t, exec (.syntheticBeat d) s = .next t ∧ Noted s t) ∧
    (∀ v src, s.ignores src (rGlbSdWdog d) = false →
      ∃ t, exec (.registerWrite off 4 ⟨v, src⟩) s = .next t ∧ t.wdogNow d = wdog ∧ ({ t with time := s.time + 1 }).wdogNow d = fld v 0 20)

/-- O32. The stuck measurement (R45): more than 100,000 cycles after an edge a level still 1 sets STUCK and its event bit; the level's fall
clears both, and BEAT_RELEASE is that fall while STUCK is 1, BEAT_LEVEL_FALL while it is 0. -/
def Obligations.StuckBeatInput : Prop :=
  ∀ (s : State) (d : Dom), s.canon → s.running = true →
    let x := s.sd[d]
    let fallen : State := s.sdUpd d (fun y => { y with level := false, stuck := false, riseAt := none })
    (∀ r, x.riseAt = some r → x.level = true → x.stuck = false → 100000 < s.time - r →
      ∃ t, exec (.beatStuckDetect d) s = .next t ∧ t.sd[d] = { x with stuck := true, riseAt := none } ∧ t.rb rGlbSdEvt (4 + d.val) = true) ∧
    (∀ r, x.riseAt = some r → s.time - r ≤ 100000 → ∃ t, exec (.beatStuckDetect d) s = .next t ∧ Noted s t) ∧
    (x.stuck = true → ∃ t, exec (.beatRelease d) s = .next t ∧ Noted fallen t) ∧
    (x.stuck = false → ∃ t, exec (.beatLevelFall d) s = .next t ∧ Noted fallen t)

/-- O33. Enabling and disabling a domain (R38, R39, R54, R58, R676): ENABLE loads the preset step and the initial period and goes to WAITING,
or to TIMER with SOURCE 1; clearing ENABLE goes to OFF and holds step and phase, STUCK clears. The disabling is stated where no op has a
point in the domain. -/
def Obligations.DomainEnableDisable : Prop :=
  ∀ (s : State) (d : Dom) (v : Word), s.canon → s.running = true →
    (bit v 31 = true → s.rb (rGlbSdCtrl d) 31 = false →
      ∃ t, exec (.sdEnable d v) s = .next t ∧ t.rb (rGlbSdCtrl d) 31 = true ∧ t.rb (rGlbSdCtrl d) 30 = bit v 30 ∧
        (t.sd[d]).st = (if bit v 30 then .timer else .waiting) ∧
        (t.sd[d]).step.toNat = (s.reg64 (rGlbSdPreset d)).toNat % 2 ^ 40 ∧
        (t.reg (rGlbSdPeriod d)).toNat = max (s.reg (rGlbSdPeriodInit d)).toNat (s.minSpace d) ∧ (t.sd[d]).p = t.reg (rGlbSdPeriod d) ∧
        t.mem = s.mem ∧ ∀ c : Dom, c ≠ d → t.sd[c] = s.sd[c]) ∧
    (bit v 31 = false → s.rb (rGlbSdCtrl d) 31 = true → s.ctxs.all (fun x => !x.pointIn d) = true →
      ∃ t, exec (.sdDisable d v) s = .next t ∧ t.rb (rGlbSdCtrl d) 31 = false ∧ (t.sd[d]).st = .off ∧ (t.sd[d]).step = (s.sd[d]).step ∧
        (t.sd[d]).heldPhase = s.phase d ∧ (t.sd[d]).stuck = false ∧ t.phase d = s.phase d ∧ t.mem = s.mem ∧ t.ctxs = s.ctxs ∧
        ∀ c : Dom, c ≠ d → t.sd[c] = s.sd[c])

/-- O34. Logits readiness and deadlines (R49, R50, R53, R84, R107): the doorbell marks the batch it names and keeps the last 16 values, the
point marks its batch once reached, and an op of a kind that has no output misses its deadline with DEADLINE_MISSED. A secondary decides
neither point by itself. -/
def Obligations.PointsAndDoorbells : Prop :=
  ∀ (s : State), s.running = true →
    (∀ (r : Ring) (v : Word), ∃ t, exec (.logitsReadyDoorbell r v) s = .next t ∧
      (t.rings[r]).lready = (v :: (s.rings[r]).lready).take 16 ∧ t.ctxs.length = s.ctxs.length ∧ t.mem = s.mem ∧
      ∀ (i : Nat) (x : OpCtx), s.ctxs[i]? = some x → t.ctxs[i]? = some
        (if x.ring = r ∧ x.index = v ∧ eOp x.entry = opSTEP_BATCH ∧ leAt x.entry 36 1 < 64 then { x with logits := true } else x)) ∧
    (s.role = 2 → ∀ c : Ctx, Does (.logitsReadyPoint c) s s ∧ Does (.deadlineReached c) s s) ∧
    (∀ (c : Ctx) (x : OpCtx), s.role ≠ 2 → s.ctx? c = some x → eOp x.entry = opSTEP_BATCH → leAt x.entry 36 1 / 64 = 1 →
      s.reached (eDom x.entry) (BitVec.ofNat 64 (leAt x.entry 40 8)) = true →
      ∃ t, exec (.logitsReadyPoint c) s = .next t ∧ t.ctx? c = some { x with logits := true } ∧ t.mem = s.mem ∧ t.strands = s.strands) ∧
    (∀ (c : Ctx) (x : OpCtx), s.role ≠ 2 → s.ctx? c = some x → x.st ≠ .past → eDlValid x.entry = true →
      s.reached (eDom x.entry) (eDeadline x.entry) = true → eOp x.entry ∈ [opSESSION_CLOSE, opOBJECT_RETIRE, opPARK, opROLLBACK] →
      ∃ t, exec (.deadlineReached c) s = .next t ∧ t.ctx? c = some { x with st := .past, status := some stDeadline } ∧
        t.mem = s.mem ∧ t.strands = s.strands)

/-! ### Ring pairs and the event ring -/

/-- O35. SQ_DOORBELL and SQ_FETCH in MEMORY mode (R67, R68, R73, R74, R78, R99, R619): a tail within the ring is taken and fetching goes on;
one beyond it sets the error bit and posts RING_ERROR with cause 1; a secondary ignores software's doorbell; a fetch moves up to four
readable entries in order into the FIFO; an entry outside the partition's ranges stops fetching. -/
def Obligations.SubmissionRing : Prop :=
  ∀ (s : State) (r : Ring) (p : Part), s.canon → s.running = true → s.rb (rPrtRingCfg r) 31 = true → (s.rings[r]).mode = false →
    s.ringOwner r = some p →
    let x := s.rings[r]
    let sent := fun v => Sent s (rPrtSqTail r) v
    let head := s.reg (rPrtSqHead r)
    let at_ : Nat → Nat := fun i => s.sqAddr r (head + BitVec.ofNat 32 i)
    let k := min 4 (min (32 - x.fifo.length) (s.reg (rPrtSqTail r) - head).toNat)
    (∀ v src, s.ignores src (rPrtSqTail r) = true → exec (.sqDoorbell r ⟨v, src⟩) s = .next s) ∧
    (∀ v src, s.ignores src (rPrtSqTail r) = false → (v - head).toNat ≤ s.sqSlots r →
      Does (.sqDoorbell r ⟨v, src⟩) s (((sent v).setReg (rPrtSqTail r) v).ringUpd r (fun y => { y with fetchStopped := false }))) ∧
    (∀ v src, s.ignores src (rPrtSqTail r) = false → s.sqSlots r < (v - head).toNat →
      Does (.sqDoorbell r ⟨v, src⟩) s ((((sent v).setRb (rPrtRingStatus r) 24 true).post p 0x0A 0 (some r) noSession 0#64 1#64).ownWrites s)) ∧
    (x.fetchStopped = false → (∀ i < k, s.memOk p (at_ i) 64 false = true) →
      ∃ t, exec (.sqFetch r) s = .next t ∧ t.mem = s.mem ∧ t.reg (rPrtSqHead r) = head + BitVec.ofNat 32 k ∧
        t.reg (rPrtSqTail r) = s.reg (rPrtSqTail r) ∧
        (t.rings[r]).fifo = x.fifo ++ (List.range k).map (fun i => ⟨head + BitVec.ofNat 32 i, s.rdBytes (at_ i) 64⟩) ∧
        ∀ q : Ring, q ≠ r → t.rings[q] = s.rings[q]) ∧
    (x.fetchStopped = false → 0 < k → s.memOk p (at_ 0) 64 false = false →
      ∃ t, exec (.sqFetch r) s = .next t ∧ (t.rings[r]).fetchStopped = true ∧ (t.rings[r]).fifo = x.fifo ∧ t.reg (rPrtSqHead r) = head)

/-- O36. PUSH mode (R69, R73, R619): a word enters the entry being assembled, and one not written enters as zero; the commit puts the 64
bytes into the FIFO under index SQ_TAIL and moves both indices; a full FIFO holds the writes, in their order, until slots free, and the entry
then has the words written until then (DEDUCED, log entry 8); doorbell
writes and SQ reads do nothing; on a ring that is not enabled the entry is discarded with PUSH_DROP; a secondary ignores software's writes. -/
def Obligations.PushEntry : Prop :=
  ∀ (s : State) (r : Ring) (v : Word) (src : WriteSrc), s.canon → s.running = true → s.pushMode r = true →
    let x := s.rings[r]
    let taken : Nat → Prop := fun k => s.ignores src (rPrtPush r k) = false
    let tail := s.reg (rPrtSqTail r)
    let bytes : Word → List Byte := fun v =>
      (List.range 15).flatMap (fun k => leBytes 4 (x.push.toList.getD k 0#32).toNat) ++ leBytes 4 v.toNat
    let clear : RingPair → RingPair := fun y => { y with push := Vector.replicate 16 0#32 }
    let last := Sent s (rPrtPush r 15) v
    (∀ k : Fin 15, ¬ taken k → exec (.pushWord r k ⟨v, src⟩) s = .next s) ∧
    (¬ taken 15 → exec (.pushCommit r ⟨v, src⟩) s = .next s) ∧
    (∀ k : Fin 15, taken k → ∃ t, exec (.pushWord r k ⟨v, src⟩) s = .next t ∧
      (∀ j : Fin 16, (t.rings[r]).push[j] = if j.val = k.val then v else x.push[j]) ∧ (t.rings[r]).fifo = x.fifo ∧ t.mem = s.mem) ∧
    (taken 15 → s.ringOn r = true → x.pushHeld = [] → x.fifo.length < 32 →
      ∃ t, exec (.pushCommit r ⟨v, src⟩) s = .next t ∧ (t.rings[r]).fifo = x.fifo ++ [⟨tail, bytes v⟩] ∧
        (t.rings[r]).push = Vector.replicate 16 0#32 ∧ t.reg (rPrtSqTail r) = tail + 1#32 ∧
        t.reg (rPrtSqHead r) = s.reg (rPrtSqHead r) + 1#32 ∧ t.mem = s.mem) ∧
    (taken 15 → s.ringOn r = true → x.pushHeld ≠ [] ∨ 32 ≤ x.fifo.length →
      Does (.pushCommit r ⟨v, src⟩) s (last.ringUpd r (fun y => { y with pushHeld := y.pushHeld ++ [v] }))) ∧
    (∀ (p : Part) (f : FifoEntry) (l : List FifoEntry) (w : Word) (ws : List Word) (c : Ctx), x.pushHeld = w :: ws → x.fifo = f :: l →
      l.length = 31 → s.role ≠ 2 →
      s.dispatchNext = some r → s.ringOwner r = some p → s.freeCtx (eOp f.bytes) = some c →
      ∃ t, exec (.opDispatch r) s = .next t ∧ (t.rings[r]).fifo = l ++ [⟨tail, bytes w⟩] ∧ (t.rings[r]).pushHeld = ws ∧
        (t.rings[r]).push = Vector.replicate 16 0#32 ∧ t.reg (rPrtSqTail r) = tail + 1#32 ∧
        t.reg (rPrtSqHead r) = s.reg (rPrtSqHead r) + 1#32) ∧
    (s.ignores src (rPrtSqTail r) = false → Does (.sqDoorbell r ⟨v, src⟩) s (Sent s (rPrtSqTail r) v)) ∧
    (∃ t, exec (.sqFetch r) s = .next t ∧ (t.rings[r]).fifo = x.fifo ∧ t.mem = s.mem ∧ t.reg (rPrtSqHead r) = s.reg (rPrtSqHead r) ∧
      t.reg (rPrtSqTail r) = tail) ∧
    (taken 15 → s.ringOn r = false → Does (.pushCommit r ⟨v, src⟩) s ((last.ringUpd r clear).setRb (rPrtRingStatus r) 22 true))

/-- O37. CQ_HEAD_WRITE and COAL_TIMER_EXPIRY (R67, R76, R83, R99): a head within the ring is taken, the completions read leave the
coalescing count, and the stall ends when there is space again; one that would leave more than the ring holds sets the error bit and posts
RING_ERROR with cause 2. The coalescing time is COAL_US from the later of the last head write and the oldest unread completion. -/
def Obligations.CompletionHead : Prop :=
  ∀ (s : State) (r : Ring) (v : Word), s.running = true →
    let x := s.rings[r]
    let occ := (s.reg (rPrtCqTail r) - v).toNat
    let us := s.rf (rPrtRingIrq r) 24 8
    let sent := Sent s (rPrtCqHead r) v
    (occ ≤ s.cqSlots r → x.cancelled = [] →
      Does (.cqHeadWrite r v) s ((sent.setReg (rPrtCqHead r) v).ringUpd r (fun y => { y with
        headAt := s.time, unread := y.unread.drop (y.unread.length - occ), coalDue := false
        written := y.written.filter (fun w => (w.index - v).toNat < occ)
        cqStall := y.cqStall && decide (s.cqSlots r ≤ occ) }))) ∧
    (∀ p, s.cqSlots r < occ → s.ringOwner r = some p →
      Does (.cqHeadWrite r v) s (((sent.setRb (rPrtRingStatus r) 24 true).post p 0x0A 0 (some r) noSession 0#64 2#64).ownWrites s)) ∧
    (∀ a l, x.unread = a :: l → us ≠ 0 → max x.headAt a + us * 100 ≤ s.time →
      Does (.coalTimerExpiry r) s (s.ringUpd r (fun y => { y with coalDue := true }))) ∧
    (∀ a l, x.unread = a :: l → us = 0 ∨ s.time < max x.headAt a + us * 100 → Does (.coalTimerExpiry r) s s) ∧
    (x.unread = [] → Does (.coalTimerExpiry r) s s)

/-- O38. RING_ENABLE, RING_DISABLE and RING_FLUSH (R73, R79, R87): enabling a drained ring reads MODE, the sizes and the bases, empties the
FIFO and clears the four indices, and a ring that is not drained stays disabled, what it has read unchanged; disabling keeps sizes, indices
and FIFO, and drops writes held in PUSH mode with PUSH_DROP; a flush empties the FIFO,
skips what waits in the submission ring and completes each entry with CANCELLED. -/
def Obligations.RingControl : Prop :=
  ∀ (s : State) (r : Ring) (v : Word), s.canon → s.running = true →
    let x := s.rings[r]
    let cfg := rPrtRingCfg r
    let tail := s.reg (rPrtCqTail r)
    let slot := fld x.cqBase 12 52 * 4096 + 32 * (tail.toNat % s.cqSlots r)
    (bit v 31 = true → s.rb cfg 31 = false → s.drained r = true →
      ∃ t, exec (.ringEnable r v) s = .next t ∧ t.rb cfg 31 = true ∧ t.rb cfg 30 = bit v 30 ∧ t.rf cfg 24 4 = fld v 24 4 ∧
        t.rf cfg 20 4 = fld v 20 4 ∧ t.rf cfg 14 6 = fld v 14 6 ∧ t.rf cfg 8 6 = fld v 8 6 ∧ t.rb cfg 0 = bit v 0 ∧
        t.reg (rPrtSqHead r) = 0#32 ∧ t.reg (rPrtSqTail r) = 0#32 ∧ t.reg (rPrtCqHead r) = 0#32 ∧ t.reg (rPrtCqTail r) = 0#32 ∧
        (t.rings[r]).mode = bit v 30 ∧ (t.rings[r]).sqSize = fld v 24 4 ∧ (t.rings[r]).cqSize = fld v 20 4 ∧
        (t.rings[r]).sqBase = s.reg64 (rPrtSqBase r) ∧ (t.rings[r]).cqBase = s.reg64 (rPrtCqBase r) ∧
        (t.rings[r]).fifo = [] ∧ t.mem = s.mem) ∧
    (bit v 31 = true → s.rb cfg 31 = false → s.drained r = false →
      ∃ t, exec (.ringEnable r v) s = .next t ∧ t.rb cfg 31 = false ∧ t.reg (rPrtSqHead r) = s.reg (rPrtSqHead r) ∧
        t.reg (rPrtCqTail r) = s.reg (rPrtCqTail r) ∧ (t.rings[r]).fifo = x.fifo ∧ (t.rings[r]).mode = x.mode ∧
        (t.rings[r]).cqSize = x.cqSize ∧ (t.rings[r]).cqBase = x.cqBase) ∧
    (bit v 31 = false → s.rb cfg 31 = true →
      ∃ t, exec (.ringDisable r v) s = .next t ∧ t.rb cfg 31 = false ∧ t.rb cfg 30 = s.rb cfg 30 ∧ t.rf cfg 24 4 = s.rf cfg 24 4 ∧
        t.rf cfg 20 4 = s.rf cfg 20 4 ∧ t.rf cfg 14 6 = fld v 14 6 ∧ t.reg (rPrtSqHead r) = s.reg (rPrtSqHead r) ∧
        t.reg (rPrtSqTail r) = s.reg (rPrtSqTail r) ∧ (t.rings[r]).fifo = x.fifo ∧ (t.rings[r]).pushHeld = [] ∧
        (x.pushHeld ≠ [] → t.rb (rPrtRingStatus r) 22 = true) ∧ t.mem = s.mem) ∧
    (∀ (p : Part) (e : FifoEntry), s.role ≠ 2 → bit v 0 = true → x.pushHeld = [] → x.cancelled = [] → x.fifo = [e] → s.pushMode r = false →
      s.ringOwner r = some p → s.cqOcc r < s.cqSlots r → s.memOk p slot 32 true = true → e.bytes.length = 64 →
      ∃ t, exec (.ringFlush r v) s = .next t ∧ (t.rings[r]).fifo = [] ∧ (t.rings[r]).cancelled = [] ∧
        t.reg (rPrtSqHead r) = s.reg (rPrtSqTail r) ∧ t.reg (rPrtCqTail r) = tail + 1#32 ∧
        t.rdBytes slot 32 = completionBytes 0x02#8 e.bytes (ringPhase x.cqSize tail) e.index 0#64 0#32 0#32)

/-- O39. The event ring (R89, R91, R92, R98): enabling latches SIZE and clears both indices, the head follows a legal write, and an event
goes into the slot at the tail with its phase bit and the domain's point, or is lost and counted. -/
def Obligations.EventRing : Prop :=
  ∀ (s : State) (p : Part) (v : Word), s.canon →
    let z := s.rf (rPrtEvqCfg p) 24 4
    let tail := s.reg (rPrtEvqTail p)
    let slot := fld (s.reg64 (rPrtEvqBase p)) 12 52 * 4096 + 32 * (tail.toNat % 2 ^ (min z 12 + 4))
    let room := s.rb (rPrtEvqCfg p) 31 = true ∧ (tail - s.reg (rPrtEvqHead p)).toNat < 2 ^ (min z 12 + 4) ∧ s.memOk p slot 32 true = true
    (s.running = true → bit v 31 = true → s.rb (rPrtEvqCfg p) 31 = false → (s.parts[p]).reportDue = false →
      ∃ t, exec (.evqEnable p v) s = .next t ∧ t.rb (rPrtEvqCfg p) 31 = true ∧ t.rb (rPrtEvqCfg p) 30 = bit v 30 ∧
        t.rf (rPrtEvqCfg p) 24 4 = fld v 24 4 ∧ t.reg (rPrtEvqHead p) = 0#32 ∧ t.reg (rPrtEvqTail p) = 0#32 ∧ t.mem = s.mem) ∧
    let sent := Sent s (rPrtEvqHead p) v
    (s.running = true → (tail - v).toNat ≤ 2 ^ (min z 12 + 4) → Does (.evqHeadWrite p v) s (sent.setReg (rPrtEvqHead p) v)) ∧
    (s.running = true → 2 ^ (min z 12 + 4) < (tail - v).toNat →
      Does (.evqHeadWrite p v) s ((sent.post p 0x0A 0 none noSession 0#64 5#64).ownWrites s)) ∧
    (∀ (code : Nat) (d : Dom) (sid : Word) (id detail : DWord), code < 256 → room →
      let t := s.post p code d none sid id detail
      t.reg (rPrtEvqTail p) = tail + 1#32 ∧ t.rd8 slot = BitVec.ofNat 8 code ∧
        (t.rd8 (slot + 1)).toNat = d.val * 32 + (if (tail.toNat / 2 ^ (min z 12 + 4)) % 2 = 0 then 128 else 0) ∧
        t.rdLE (slot + 4) 4 = sid.toNat ∧ t.rdLE (slot + 8) 8 = id.toNat ∧ t.rdLE (slot + 16) 8 = (s.point d).toNat ∧
        t.rdLE (slot + 24) 8 = detail.toNat) ∧
    (∀ (code : Nat) (d : Dom) (sid : Word) (id detail : DWord), ¬ room →
      let t := s.post p code d none sid id detail
      t.mem = s.mem ∧ t.reg (rPrtEvqTail p) = tail ∧
        (t.reg (rPrtEvqLost p)).toNat = min ((s.reg (rPrtEvqLost p)).toNat + 1) 0xFFFFFFFF)

/-! ### Ops: dispatch, readiness, completion, control -/

/-- O40. An op's life (R71, R73, R95, R125, R129, R130, R132, R172, R245, R471, R590, R674): the head entry of the ring the dispatcher serves takes a context, queued when it
passes the checks and past with the first failed check's status otherwise; an op that nothing holds becomes ready with what it takes
then, and a move of its session's locket stops; one that a clasp, an exclusion, a quiescing unit or an earlier op's reservation holds stays
queued; a final status is written into the completion ring and the context frees; a full ring keeps it with a stall. A secondary dispatches into
the context, and brings about the readiness, that the primary tells it of, and nothing while it has told of none (R621). -/
def Obligations.OpLifecycle : Prop :=
  ∀ (s : State), s.canon → s.running = true →
    (∀ (r : Ring) (p : Part) (f : FifoEntry) (l : List FifoEntry) (d : Decision), s.role = 2 → (s.rings[r]).fifo = f :: l →
      s.ringOwner r = some p → (s.rings[r]).pushHeld = [] → s.toldDispatch = some d → d.ring = r → d.index = f.index →
      (∀ y ∈ s.ctxs, y.id.val ≠ fld d.arg 0 16) → fld d.arg 0 16 < 4160 →
      ∃ t y, exec (.opDispatch r) s = .next t ∧ t.ctxs = s.ctxs ++ [y] ∧ y.id.val = fld d.arg 0 16 ∧ y.part = p ∧ y.ring = r ∧
        y.index = f.index ∧ y.entry = f.bytes ∧ (t.rings[r]).fifo = l ∧ t.mem = s.mem) ∧
    (∀ r : Ring, s.role = 2 → s.toldDispatch = none → Does (.opDispatch r) s s) ∧
    (∀ (c : Ctx) (x : OpCtx), s.role = 2 → s.ctx? c = some x → s.toldReady = none → Does (.opReady c) s s) ∧
    (∀ (c : Ctx) (x : OpCtx) (d : Decision), s.role = 2 → s.ctx? c = some x → x.st = .queued → s.clasped x = false →
      s.exclWaits x = false → s.toldReady = some d → d.ring = x.ring → d.index = x.index → bit d.arg 8 = true →
      Does (.opReady c) s ((s.spend d).endWith x (BitVec.ofNat 8 d.arg.toNat))) ∧
    (∀ (r : Ring) (p : Part) (f : FifoEntry) (l : List FifoEntry) (c : Ctx), s.role ≠ 2 → s.dispatchNext = some r → (s.rings[r]).fifo = f :: l →
      s.ringOwner r = some p → (s.rings[r]).pushHeld = [] → s.freeCtx (eOp f.bytes) = some c →
      let s1 := (s.ringUpd r (fun x => { x with fifo := l })).evalXoff r
      let params := s1.openParams f.bytes
      let n := s1.names p f.bytes params
      ∃ t y, exec (.opDispatch r) s = .next t ∧ t.ctxs = s.ctxs ++ [y] ∧ y.id = c ∧ y.part = p ∧ y.ring = r ∧ y.index = f.index ∧
        y.entry = f.bytes ∧ y.seq = s.nextSeq ∧ t.nextSeq = s.nextSeq + 1 ∧ (t.rings[r]).fifo = l ∧ t.mem = s.mem ∧
        y.status = s1.dispatchFault p f.bytes params n (s1.bindings p f.bytes n) ∧
        y.st = (if y.status.isSome then .past else .queued) ∧
        (entryBad f.bytes = true → y.status = some stBadEntry)) ∧
    (∀ (c : Ctx) (x : OpCtx), s.role ≠ 2 → s.ctx? c = some x → x.st = .queued →
      let op := eOp x.entry
      let ready : (OpCtx → OpCtx) → State := fun f => s.ctxUpd c (fun y => f { y with st := .ready })
      let goes : (OpCtx → OpCtx) → Prop := fun f => Does (.opReady c) s ((ready f).tellReady s c)
      (s.quiescing x = false → s.clasped x = false → s.exclWaits x = false → s.reserveWaits x = false →
        (∀ sid ∈ x.sessions, ∀ t, s.strand? x.part sid = some t → s.groupOwner (cluGrp t.home) = some x.part) →
        (op ∉ [opENCODE, opENCODE_APPEND, opSTEP_BATCH, opSPEC_VERIFY, opPREFILL, opPARK, opSESSION_CLOSE, opREVIVE, opEXPORT] →
          goes id) ∧
        (op = opPREFILL → goes (fun y => { y with hist := (s.strand? x.part (eSession x.entry)).map (·.hist) })) ∧
        (op = opPARK → goes (fun y => { y with
          terms := ⟨s.warmOnly x.part, s.rb (rPrtMediaCfg x.part) 31, (s.parts[x.part]).curSlot⟩ })) ∧
        (op ∈ [opSESSION_CLOSE, opREVIVE, opEXPORT] →
          ((∀ l, s.locket? x.part (eSession x.entry) = some l → l.moving = false) → goes id) ∧
          (∀ l, s.locket? x.part (eSession x.entry) = some l → l.moving = true →
            ∃ t k, exec (.opReady c) s = .next t ∧ t.ctx? c = some { x with st := .ready } ∧ t.locket? x.part (eSession x.entry) = some k ∧
              k = { l with moving := false, cold := [] }))) ∧
      (s.quiescing x = true ∨ s.clasped x = true ∨ s.exclWaits x = true ∨ s.reserveWaits x = true → Does (.opReady c) s s) ∧
      (op = opSTEP_BATCH → x.logits = false → Does (.opReady c) s s)) ∧
    (∀ (c : Ctx) (x : OpCtx) (st : BitVec 8), s.ctx? c = some x → x.status = some st → x.st = .past →
      let tail := s.reg (rPrtCqTail x.ring)
      let slot := fld (s.rings[x.ring]).cqBase 12 52 * 4096 + 32 * (tail.toNat % s.cqSlots x.ring)
      (s.role ≠ 2 → s.cqOcc x.ring < s.cqSlots x.ring → rangesCover x.rng slot 32 true = true →
        (∀ v ∈ s.objs, v.live = true ∧ ∀ o, s.objId? v.part v.id = some o → o.retiring = false) →
        ∃ t, exec (.completionWrite c) s = .next t ∧ t.ctx? c = none ∧ t.reg (rPrtCqTail x.ring) = tail + 1#32 ∧
          t.rd8 slot = (if st = stOk then (if x.replayed then stReplayed else if x.abortLate then stOkAbortLate else st) else st) ∧
          (x.entry.length = 64 → t.rdLE (slot + 4) 4 = x.index.toNat ∧ t.rdLE (slot + 8) 8 = leAt x.entry 8 8 ∧ t.rdLE (slot + 16) 8 = x.res0.toNat ∧
            t.rdLE (slot + 24) 4 = x.res1.toNat ∧ t.rdLE (slot + 28) 4 = x.res2.toNat)) ∧
      (s.cqSlots x.ring ≤ s.cqOcc x.ring → (s.rings[x.ring]).cqStall = true → Does (.completionWrite c) s s) ∧
      (s.cqSlots x.ring ≤ s.cqOcc x.ring →
        ∃ t, exec (.completionWrite c) s = .next t ∧ (t.rings[x.ring]).cqStall = true ∧ t.ctxs = s.ctxs))

/-- O41. CLASP, QUERY, CANCEL, ABORT and BUDGET_SET (R116 to R123, R132, R135, R136, R139, R170): a clasp ends once every op it names has a
final status, a MEMORY clasp at once; QUERY of an op gives its state, of a session whether it is resident; CANCEL ends a queued op with
CANCELLED and only it; ABORT ends an op that has not committed with ABORTED, one that waits for a read of the park media when the read
ends, and turns the OK of one that has committed into OK_ABORT_LATE, in its output header too; BUDGET_SET fills the account the first time and clips its
balance later. -/
def Obligations.ControlOps : Prop :=
  ∀ (s : State) (c : Ctx) (x : OpCtx), s.canon → Alone s →
    let e := x.entry
    let ended : State → DWord → Word → Word → State := fun s a b d =>
      s.ctxUpd c (fun y => { y with st := .past, status := some stOk, res0 := a, res1 := b, res2 := d })
    (ReadyOp s c opCLASP x → leAt e 24 1 % 4 = 3 → Does (.clasp c) s (s.ctxUpd x.id (fun y => { y with st := .past, status := some stOk }))) ∧
    (ReadyOp s c opCLASP x → leAt e 24 1 % 4 = 0 → (∀ y ∈ s.ctxs, y.ring = x.ring → y.seq < x.seq → y.status.isSome = true) →
      Does (.clasp c) s (s.ctxUpd x.id (fun y => { y with st := .past, status := some stOk }))) ∧
    (ReadyOp s c opCLASP x → leAt e 24 1 % 4 = 0 → (∃ y ∈ s.ctxs, y.ring = x.ring ∧ y.seq < x.seq ∧ y.status = none) →
      Does (.clasp c) s s) ∧
    (∀ y, ReadyOp s c opQUERY x → leAt e 24 1 = 0 → s.target x.part (tgtRing e) (eWord e 28) = some y → y.st ≠ .queued →
      Does (.query c) s (ended s 0#64 (if y.st = .ready then 2#32 else 3#32) 0#32)) ∧
    (ReadyOp s c opQUERY x → leAt e 24 1 = 0 → s.target x.part (tgtRing e) (eWord e 28) = none →
      Does (.query c) s (ended s 0#64 0#32 0#32)) ∧
    (∀ t, ReadyOp s c opQUERY x → leAt e 24 1 = 1 → s.strand? x.part (eSession e) = some t →
      Does (.query c) s (ended s t.lastLocket (BitVec.ofNat 32 t.hist.length) (if t.susp then 5#32 else 1#32))) ∧
    (∀ y, ReadyOp s c opCANCEL x → s.target x.part (abortRing e) (eWord e 28) = some y → (leAt e 25 1).testBit 0 = false →
      isControl (eOp y.entry) = false → eOp y.entry ≠ opOBJECT_LOAD →
      (y.st = .queued → Does (.cancel c) s ((s.ctxUpd y.id (fun z => { z with st := .past, status := some stCancelled })).ctxUpd c
        (fun z => { z with st := .past, status := some stOk, res0 := 0#64, res1 := 0#32 }))) ∧
      (y.st ≠ .queued → Does (.cancel c) s (s.ctxUpd c (fun z => { z with st := .past, status := some stOk, res0 := 0#64, res1 := 1#32 })))) ∧
    (∀ y, ReadyOp s c opABORT x → s.target x.part (abortRing e) (eWord e 28) = some y → (leAt e 25 1).testBit 0 = false →
      isControl (eOp y.entry) = false →
      (y.st = .ready → y.reading = true → Does (.abort c) s ((s.ctxUpd y.id (fun z => { z with aborting := true })).ctxUpd c
          (fun z => { z with st := .past, status := some stOk, res0 := 0#64, res1 := 0#32 }))) ∧
      (y.st = .ready → y.reading = false → y.segs = none → y.encFault = none →
        eOp y.entry ∈ [opSESSION_CLOSE, opPARK, opROLLBACK, opOBJECT_RETIRE] →
        Does (.abort c) s ((s.ctxUpd y.id (fun z => { z with st := .past, status := some stAborted })).ctxUpd c
          (fun z => { z with st := .past, status := some stOk, res0 := 0#64, res1 := 0#32 }))) ∧
      (y.st = .past →
        let late := (s.ctxUpd y.id (fun z => { z with abortLate := true })).lateHeader y
        Does (.abort c) s (late.ctxUpd c (fun z => { z with st := .past, status := some stOk, res0 := 0#64, res1 := 1#32 })) ∧
        (y.status ≠ some stOk ∨ y.replayed = true ∨ statusByte y.entry = none → late.mem = s.mem) ∧
        (∀ a, y.status = some stOk → y.replayed = false → statusByte y.entry = some a → late.rd8 a = stOkAbortLate))) ∧
    (ReadyOp s c opBUDGET_SET x → s.memOk x.part (s.acctAddr x.part (leAt e 24 2 % 4096)) 32 true = true →
      let n := leAt e 24 2 % 4096
      ∃ t, exec (.budgetSet c) s = .next t ∧ Ends t c stOk 0#64 (BitVec.ofInt 32 ((t.acct x.part n).balance / 256)) ∧
        (t.acct x.part n).set = true ∧ (t.acct x.part n).rate = leAt e 28 4 ∧ (t.acct x.part n).burst = leAt e 32 4 ∧
        (t.acct x.part n).wPrompt = leAt e 36 2 ∧ (t.acct x.part n).wGen = leAt e 38 2 ∧
        (t.acct x.part n).wait = (leAt e 40 1).testBit 0 ∧ (t.acct x.part n).overdraft = leAt e 41 1 ∧
        (t.acct x.part n).balance = (if (s.acct x.part n).set then min (s.acct x.part n).balance ((leAt e 32 4 : Nat) * 256)
          else ((leAt e 32 4 : Nat) * 256 : Int)) ∧
        t.rdBytes (s.acctAddr x.part n) 32 = acctBytes (t.acct x.part n))

/-! ### Sessions, text, objects, steps -/

/-- O42. SESSION_OPEN, SESSION_CLOSE and ROLLBACK (R101, R121, R141, R143, R144, R156, R177): an open that passes admission makes a resident
strand with an empty history, one refused ends with ADMIT_DENIED, an ID in use with BAD_ENTRY; a close frees the strand and its pages, or
the parked session's locket; a rollback keeps the first tokens and takes the steps of the others back, once the run-ahead of the next step can
run, and waits until then. The rollback is stated where the next step needs no further page. -/
def Obligations.Sessions : Prop :=
  ∀ (s : State) (c : Ctx) (x : OpCtx), s.canon → Alone s →
    let p := x.part
    let sid := eSession x.entry
    let n := leAt x.entry 24 4
    (∀ vocab ovl cp hook slot pages s', ReadyOp s c opSESSION_OPEN x → s.idTaken p sid = none →
      x.openBinds = (some vocab, ovl, cp, hook) →
      s.admitSession p (eDom x.entry) (admitPages x.bias.length cp.isSome 0 0)
        (s.stepCost p cp hook (match s.voc p vocab ovl with | some v => v.size | none => 0)) = .ok slot pages s' →
      ∃ t u, exec (.sessionOpen c) s = .next t ∧ Ends t c stOk 0#64 0#32 ∧ t.strand? p sid = some u ∧ u.hist = [] ∧ u.promptLen = 0 ∧
        u.steps = 0#40 ∧ u.domain = eDom x.entry ∧ u.vocab = vocab ∧ u.ovl = ovl ∧ u.cp = cp ∧ u.hook = hook ∧ u.params = x.params ∧
        u.slot = slot ∧ u.account = leAt x.entry 32 2 % 4096 ∧ u.raDue = true) ∧
    (ReadyOp s c opSESSION_OPEN x → (s.strand? p sid).isSome = true →
      Does (.sessionOpen c) s (s.ctxUpd x.id (fun y => { y with st := .past, status := some stBadEntry }))) ∧
    (∀ vocab ovl cp hook, ReadyOp s c opSESSION_OPEN x → s.idTaken p sid = none → x.openBinds = (some vocab, ovl, cp, hook) →
      (s.parts[p]).stall ≠ [] →
      ∃ t, exec (.sessionOpen c) s = .next t ∧ (∃ y, t.ctx? c = some y ∧ y.st = .past ∧ y.status = some stAdmitDenied ∧
        y.res2 = BitVec.ofNat 32 (s.rf (rPrtAdmitCfg p) 16 8)) ∧ t.rf (rPrtAdmitStat p) 0 3 = 1 ∧
        t.rf (rPrtAdmitStat p) 8 24 = min (s.rf (rPrtAdmitStat p) 8 24 + 1) 0xFFFFFF ∧ t.strands = s.strands) ∧
    (∀ u, ReadyOp s c opSESSION_CLOSE x → s.strand? p sid = some u →
      ∃ t, exec (.sessionClose c) s = .next t ∧ Ends t c stOk 0#64 0#32 ∧ t.strand? p sid = none ∧
        ∀ i ∈ u.pages, i ∉ (t.parts[p]).used) ∧
    (∀ l, ReadyOp s c opSESSION_CLOSE x → s.strand? p sid = none → s.locket? p sid = some l →
      ∃ t, exec (.sessionClose c) s = .next t ∧ Ends t c stOk 0#64 0#32 ∧ t.locket? p sid = none) ∧
    (ReadyOp s c opSESSION_CLOSE x → s.strand? p sid = none → s.locket? p sid = none →
      Does (.sessionClose c) s (s.ctxUpd x.id (fun y => { y with st := .past, status := some stBadEntry }))) ∧
    (ReadyOp s c opROLLBACK x → s.strand? p sid = none →
      Does (.rollback c) s (s.ctxUpd x.id (fun y => { y with st := .past, status := some stNotResident }))) ∧
    (∀ u, ReadyOp s c opROLLBACK x → s.strand? p sid = some u → u.hist.length < n ∨ n < u.promptLen →
      Does (.rollback c) s (s.ctxUpd x.id (fun y => { y with st := .past, status := some stBadEntry }))) ∧
    (∀ u voc, ReadyOp s c opROLLBACK x → s.strand? p sid = some u → u.promptLen ≤ n → n ≤ u.hist.length →
      s.voc p u.vocab u.ovl = some voc →
      let back := ((s.freePageList p (u.histPages.drop ((n + 1023) / 1024) ++ if u.stalled then [] else u.sparePages)).sealCommit
        (s.rolledBack u voc n) 0).rehomeSession p u.session none
      ((∀ w, back.strand? p u.session = some w → back.raMayRun w = false) → Does (.rollback c) s s) ∧
      ((∃ w, back.strand? p u.session = some w ∧ back.raMayRun w = true) → u.cp = none → n % 1024 ≠ 0 →
      ∃ t w, exec (.rollback c) s = .next t ∧ Ends t c stOk (BitVec.ofNat 64 n) 0#32 ∧ t.strand? p sid = some w ∧
        w.hist = u.hist.take n ∧ w.steps = u.steps - BitVec.ofNat 40 (u.hist.length - n) ∧ w.promptLen = u.promptLen))

/-- O43. Text in and out (R99, R140, R145, R226, R235 to R237, R243 to R248, R252, R272): ENCODE writes the tokens of its segments and a header
once every unit has ended; ENCODE_APPEND makes them the prompt, with the pages that it took at its readiness; a unit is issued on a free bead of the partition and its end counts the
input bytes; DECODE writes the text or ends with ABORTED for want of room; PREFILL_CHUNKS cuts a list by its budget, or the session's own history as it
was when the op became ready; HASH_BLOCKS chains the whole blocks. DECODE, PREFILL_CHUNKS and HASH_BLOCKS wait while ready work of their kind
comes before theirs (R51, R128). -/
def Obligations.TextOps : Prop :=
  ∀ (s : State) (c : Ctx) (x : OpCtx), s.canon → Alone s →
    let e := x.entry
    let p := x.part
    let out := leAt e 40 8
    let room := leAt e 48 4
    (∀ l v, ReadyOp s c opENCODE x → x.segs = some l → s.encVoc x = some v → x.encFault = none → (∀ g ∈ l, g.st = .ended) →
      let toks := l.flatMap (fun g => g.toks.map (·.1))
      (leAt e 52 1 % 16 < 2 → 64 + 4 * toks.length ≤ room → out + room ≤ 2 ^ 64 →
        ∃ t, exec (.encode c) s = .next t ∧ Ends t c stOk (BitVec.ofNat 64 (leAt e 32 4)) (BitVec.ofNat 32 toks.length) ∧
          t.rdBytes (out + 64) (4 * toks.length) = toks.flatMap (leBytes 4) ∧ t.rdLE out 4 = toks.length ∧
          t.rdLE (out + 4) 4 = leAt e 32 4 ∧ t.rd8 (out + 56) = 1#8) ∧
      (room < 64 + 4 * toks.length → ∃ t y, exec (.encode c) s = .next t ∧ t.ctx? c = some y ∧ y.st = .past ∧ y.status = some stAborted)) ∧
    (∀ l, ReadyOp s c opENCODE x → x.segs = some l → x.encFault = none → (∃ g ∈ l, g.st ≠ .ended) → Does (.encode c) s s) ∧
    (∀ l u, ReadyOp s c opENCODE_APPEND x → x.segs = some l → s.strand? p (eSession e) = some u → x.encFault = none → (∀ g ∈ l, g.st = .ended) →
      let toks := l.flatMap (fun g => g.toks.map (·.1))
      let len := u.hist.length + toks.length
      (len ≤ 1048576 → (len + 1023) / 1024 ≤ u.histPages.length + u.sparePages.length + x.pages.length →
        ∃ t w, exec (.encodeAppend c) s = .next t ∧ Ends t c stOk (BitVec.ofNat 64 len) (BitVec.ofNat 32 toks.length) ∧
          t.strand? p (eSession e) = some w ∧ w.hist = u.hist ++ toks ∧ w.promptLen = len ∧ w.stack = [] ∧ w.stream = {} ∧
          w.steps = u.steps ∧ w.cpState = s.cpInitial p u.cp) ∧
      let need := (len + 1023) / 1024 - u.histPages.length - u.sparePages.length - x.pages.length
      (1048576 < len → ∃ t y, exec (.encodeAppend c) s = .next t ∧ t.ctx? c = some y ∧ y.status = some stBadEntry ∧ t.strands = s.strands) ∧
      (∀ s1, len ≤ 1048576 → s.stepPages p u.session need = (none, s1) → s1.ctx? c = some x →
        ∃ t y, exec (.encodeAppend c) s = .next t ∧ t.ctx? c = some y ∧ y.status = some stAdmitDenied ∧ t.strands = s1.strands)) ∧
    (ReadyOp s c opENCODE_APPEND x → ∀ l, x.segs = some l → x.encFault = none → (∃ g ∈ l, g.st ≠ .ended) → Does (.encodeAppend c) s s) ∧
    (s.opBefore x = true → (ReadyOp s c opDECODE x → Does (.decode c) s s) ∧ (ReadyOp s c opPREFILL x → Does (.prefillChunks c) s s) ∧
      (ReadyOp s c opHASH_BLOCKS x → Does (.hashBlocks c) s s)) ∧
    (∀ q, s.encSlots q ≤ (s.unitThreads q).length → Does (.encodeUnitIssue q) s s) ∧
    (∀ k, (s.unitThreads p).length < s.encSlots p → s.unitOp p = some x → s.ctx? x.id = some x → x.nextUnit = some k → x.model = none →
      s.freeBeads p ≠ [] →
      ∃ t y m, exec (.encodeUnitIssue p) s = .next t ∧ t.ctx? x.id = some y ∧ y.lastUnit = (s.parts[p]).encNext + 1 ∧
        ((y.segs.getD [])[k]?.map (·.st)) = some (.running m) ∧ (m.clu, m.bead) ∈ s.freeBeads p) ∧
    (∀ k g v m, s.ctx? c = some x → x.model = none → x.faultSeg = none → (x.segs.getD [])[k]? = some g → s.encVoc x = some v → g.st = .running m →
      (s.thread m).st = .idle → (s.thread m).job = none →
      ∃ t y h, exec (.encodeUnitEnd c k) s = .next t ∧ t.ctx? c = some y ∧ (y.segs.getD [])[k]? = some h ∧ h.st = .ended ∧
        (h.toks, h.dropped) = segTokens v false g.pieces [] ∧
        t.reg64 (rPrtEncBytes p) = s.reg64 (rPrtEncBytes p) + BitVec.ofNat 64 (g.stop - g.start)) ∧
    (∀ v, ReadyOp s c opDECODE x → s.opBefore x = false → s.encVoc x = some v →
      let txt := decodeText v ((leAt e 52 1).testBit 0) (s.rdToks (leAt e 24 8) (leAt e 32 4))
      (txt.length ≤ room → out + txt.length ≤ 2 ^ 64 →
        ∃ t, exec (.decode c) s = .next t ∧ Ends t c stOk (BitVec.ofNat 64 txt.length) (BitVec.ofNat 32 (leAt e 32 4)) ∧
          t.rdBytes out txt.length = txt) ∧
      (room < txt.length → ∃ t y, exec (.decode c) s = .next t ∧ t.ctx? c = some y ∧ y.status = some stAborted)) ∧
    (ReadyOp s c opPREFILL x → s.opBefore x = false → leAt e 24 8 ≠ 0 → 0 < leAt e 36 4 →
      let n := leAt e 32 4
      let b := leAt e 36 4
      let k := (n + b - 1) / b
      (64 + 32 * k ≤ room → out + room ≤ 2 ^ 64 → leAt e 24 8 + 4 * n ≤ 2 ^ 64 →
        ∃ t, exec (.prefillChunks c) s = .next t ∧ Ends t c stOk (BitVec.ofNat 64 (64 + 32 * k)) (BitVec.ofNat 32 k) ∧ t.rdLE out 4 = k ∧
          t.rdLE (out + 4) 4 = n ∧ ∀ i < k, t.rdLE (out + 64 + 32 * i) 4 = i * b ∧
            t.rdLE (out + 64 + 32 * i + 4) 4 = min n ((i + 1) * b) - i * b ∧ t.rdLE (out + 64 + 32 * i + 8) 4 = i ∧
            t.rd8 (out + 64 + 32 * i + 12) = (if i + 1 = k then 1#8 else 0#8) ∧
            t.rdLE (out + 64 + 32 * i + 16) 8 = leAt e 24 8 + 4 * (i * b))) ∧
    (ReadyOp s c opPREFILL x → s.opBefore x = false → leAt e 24 8 = 0 → x.hist = none →
      Does (.prefillChunks c) s (s.ctxUpd c (fun y => { y with st := .past, status := some stNotResident }))) ∧
    (∀ h, ReadyOp s c opPREFILL x → s.opBefore x = false → leAt e 24 8 = 0 → x.hist = some h → 0 < leAt e 36 4 →
      let k := (h.length + leAt e 36 4 - 1) / leAt e 36 4
      let copy := (64 + 32 * k + 63) / 64 * 64
      copy + 4 * h.length ≤ room → out + room ≤ 2 ^ 64 →
        ∃ t, exec (.prefillChunks c) s = .next t ∧ Ends t c stOk (BitVec.ofNat 64 (copy + 4 * h.length)) (BitVec.ofNat 32 k) ∧
          t.rdLE out 4 = k ∧ t.rdLE (out + 4) 4 = h.length ∧ t.rdBytes (out + copy) (4 * h.length) = h.flatMap (leBytes 4)) ∧
    (∀ k, ReadyOp s c opHASH_BLOCKS x → s.opBefore x = false → x.akey = some k → (leAt e 37 1).testBit 0 = false → x.table = none →
      let len := hashBlockLen (leAt e 36 1 % 4)
      let toks := s.rdToks (leAt e 24 8) (leAt e 32 4)
      let first := (blake3Keyed (prefixKey k) (List.replicate 16 0#8 ++ leBytes 4 len ++ (toks.take len).flatMap (leBytes 4))).take 16
      (0 < len → len ≤ toks.length → leAt e 56 8 + 16 * toks.length ≤ 2 ^ 64 →
        ∃ t y, exec (.hashBlocks c) s = .next t ∧ t.ctx? c = some y ∧ y.st = .past ∧ y.status = some stOk ∧
          y.res1 = BitVec.ofNat 32 (toks.length / len) ∧ t.rdBytes (leAt e 56 8) first.length = first))

/-- O44. Objects (R181 to R187, R193): a load whose image opens under the asset key and meets its kind's rules publishes the next version as
the live one; an image that does not open ends with BAD_ENTRY, a full quota with PERM_DENIED; a retire marks the ID and returns its
references; PRT_OBJ_STAT reads the state of the selected ID and latches version and references. -/
def Obligations.Objects : Prop :=
  ∀ (s : State) (c : Ctx) (x : OpCtx), s.canon → Alone s →
    let e := x.entry
    let p := x.part
    let id := BitVec.ofNat 32 (leAt e 24 4)
    let kind := leAt e 28 1
    let img := s.rdBytes (leAt e 32 8) (leAt e 40 4)
    let room := unitsFor (leAt img 4 4) ≤ s.backSize p - (s.backUsed p).length
    (∀ key o pt ss binds live b1 b2 s1 units s2, ReadyOp s c opOBJECT_LOAD x → x.akey = some key → s.objId? p id = some o →
      o.retiring = false → s.quotaOk p kind = true → room → openObject key kind img = some pt → envelopeOk kind pt = true →
      s.loadKind p kind (pt.take 128) (objSects pt) = (.ok ss binds live b1 b2, s1) →
      s1.takeUnits p (unitsFor (pt.length + b1 + b2)) = some (units, s2) →
      ∃ t y, exec (.objectLoad c) s = .next t ∧ t.ctx? c = some y ∧ y.st = .past ∧ y.status = some stOk ∧
        y.res0 = BitVec.ofNat 64 o.next ∧
        (∃ w ∈ t.objs, w.part = p ∧ w.id = id ∧ w.ver = o.next ∧ w.kind = kind ∧ w.live = true ∧ w.sects = ss ∧ w.binds = binds ∧
          w.backUnits = units) ∧
        ∀ w ∈ t.objs, w.part = p → w.id = id → w.live = true → w.ver = o.next) ∧
    (∀ key o, ReadyOp s c opOBJECT_LOAD x → x.akey = some key → s.objId? p id = some o →
      (s.quotaOk p kind = false → ∃ t y, exec (.objectLoad c) s = .next t ∧ t.ctx? c = some y ∧ y.status = some stPermDenied ∧
        t.objs = s.objs) ∧
      (s.quotaOk p kind = true → room → openObject key kind img = none →
        ∃ t y, exec (.objectLoad c) s = .next t ∧ t.ctx? c = some y ∧ y.status = some stBadEntry ∧ t.objs = s.objs)) ∧
    (ReadyOp s c opOBJECT_RETIRE x →
      ∃ t y, exec (.objectRetire c) s = .next t ∧ t.ctx? c = some y ∧ y.st = .past ∧ y.status = some stOk ∧
        y.res1 = BitVec.ofNat 32 (min ((t.versions p id).map (fun v => t.refs p v.bound)).sum (2 ^ 32 - 1)) ∧
        ∀ o, t.objId? p id = some o → o.retiring = true) ∧
    (∀ q : Part, let sel := s.reg (rPrtObjSel q)
      (∀ o, s.objId? q sel = some o → o.kind < 32) →
      ∃ t, exec (.objStatRead q) s = .next t ∧ t.resp.error = false ∧ fld t.resp.value 30 2 = s.objState q sel ∧
        (s.objId? q sel = none → s.versions q sel = [] → t.resp.value = 0#32 ∧ t.reg (rPrtObjVer q) = 0#32) ∧
        (∀ o, s.objId? q sel = some o → fld t.resp.value 24 5 = o.kind) ∧
        (∀ v, s.live? q sel = some v → t.reg (rPrtObjVer q) = BitVec.ofNat 32 v.ver) ∧
        t.objs = s.objs ∧ t.mem = s.mem)

/-- O45. A step and its batch (R21 to R26, R107, R123, R164, R292, R353, R355, R362): the row start forms the selection from the stored
run-ahead result and decides the draw or asks for a pass; an extension pass adds ranks; a draw pass decides; the commit appends the token to
the strand and writes its record; a batch whose items have all ended ends with their counts. The passes are stated for parameters whose
stages before TOPK hold no HOOK. -/
def Obligations.Steps : Prop :=
  ∀ (s : State) (c : Ctx) (x : OpCtx) (k : Nat) (i : BatchItem), s.canon → Alone s →
    let p := x.part
    let out := leAt x.entry 48 8
    let limit : Samp → Bool := fun m => x.maxPasses != 0 && decide (x.maxPasses ≤ m.passes)
    let decided : Strand → Samp → BatchItem → Prop := fun t m j => j.samp = some m ∧
      (runCuts t.params m (limit m) = .need → j.phase = i.phase ∧ j.draw = false) ∧
      ∀ cut, runCuts t.params m (limit m) = .ok cut →
        (∀ d, drawList t.params m cut (drawU t.params t.steps 0) = some d → j.phase = .drawn ∧ j.drawn = some d) ∧
        (drawList t.params m cut (drawU t.params t.steps 0) = none → j.phase = i.phase ∧ j.draw = true)
    (ReadyOp s c opSTEP_BATCH x → (∀ j ∈ x.items, j.phase = .done) → x.items.length < 2 ^ 32 →
      ∃ t y, exec (.stepBatch c) s = .next t ∧ t.ctx? c = some y ∧ y.st = .past ∧
        y.status = some (if x.replayed then stReplayed else stOk) ∧ y.res0 = BitVec.ofNat 64 (leAt x.entry 40 5) ∧
        y.res1 = BitVec.ofNat 32 x.items.length ∧ y.res2 = BitVec.ofNat 32 x.committed ∧ t.rdLE (out + 16) 4 = x.items.length ∧
        t.rdLE (out + 20) 4 = x.committed ∧ t.rdLE out 8 = (s.point (eDom x.entry)).toNat ∧ t.strands = s.strands) ∧
    (ReadyOp s c opSTEP_BATCH x → (∃ j ∈ x.items, j.phase ≠ .done) → Does (.stepBatch c) s s) ∧
    (ReadyOp s c opSTEP_BATCH x → x.items[k]? = some i →
      (∀ t r, i.phase = .waiting → i.begun = false → i.reserved = true → s.excluded p i.session (some c) = false →
        (∀ j ∈ x.items, j.session = i.session → j.begun = false) → s.strand? p i.session = some t → s.takes p t.home = true →
        s.workBefore t (s.opKey x) = false → (s.pickShares t i.row).isSome = true → s.itemFault x k i = none → t.ra = some r →
        r.fault = none →
        let a := s.itemArgs x i t r
        a.mask ≠ [] → (i.row.cand = true → s.candFault a (s.veff t) = false) → stHOOK ∉ rowStagesOf t.params →
        let m := formSamp t.params (s.rowVals a).2.1 (s.lseRest i.row) i.row.cand (t.hook.isSome && pHOOK t.params)
        ∃ u y j, exec (.stepRowStart c k) s = .next u ∧ u.ctx? c = some y ∧ y.items[k]? = some j ∧ j.begun = true ∧ j.ra = some r ∧
          decided t m j ∧ u.mem = s.mem ∧ u.strands = s.strands) ∧
      (∀ t, s.strand? p i.session = some t → s.workBefore t (s.opKey x) = true → Does (.stepRowStart c k) s s) ∧
      (i.phase = .waiting → i.begun = false → s.excluded p i.session (some c) = false →
        (∀ j ∈ x.items, j.session = i.session → j.begun = false) → s.strand? p i.session = none →
        ∃ u y j, exec (.stepRowStart c k) s = .next u ∧ u.ctx? c = some y ∧ y.items[k]? = some j ∧ j.phase = .done ∧
          j.status = stNotResident ∧ u.strands = s.strands) ∧
      (∀ t m r, s.strand? p i.session = some t → i.samp = some m → i.ra = some r → i.begun = true → i.phase = .waiting →
        stHOOK ∉ rowStagesOf t.params →
        let vals := (topkCases (s.rowVals (s.itemArgs x i t r)).2.1.vals).1
        (i.draw = false → ∃ u y j, exec (.extensionPass c k) s = .next u ∧ u.ctx? c = some y ∧ y.items[k]? = some j ∧
          decided t (m.extend vals) j ∧ (u.reg (rPrtSmpXpass p)).toNat = min ((s.reg (rPrtSmpXpass p)).toNat + 1) 0xFFFFFFFF ∧
          u.mem = s.mem) ∧
        (∀ cut, i.draw = true → runCuts t.params m (limit m) = .ok cut →
          ∃ u y j, exec (.drawPass c k) s = .next u ∧ u.ctx? c = some y ∧ y.items[k]? = some j ∧ j.phase = .drawn ∧
            j.drawn = some (Machine.drawPass t.params m cut (drawU t.params t.steps 0) vals) ∧
            (u.reg (rPrtSmpDpass p)).toNat = min ((s.reg (rPrtSmpDpass p)).toNat + 1) 0xFFFFFFFF ∧ u.mem = s.mem)) ∧
      (∀ t d voc, i.drawn = some d → s.strand? p i.session = some t → i.phase = .drawn → s.voc p t.vocab t.ovl = some voc →
        (∀ g low, s.walkCommit t d.tok = some (g, low) → g.stk.length ≤ 512 ∨ t.stackPages.length ≠ 2 → t.ovfCount = 0 →
          t.hist.length % 1024 ≠ 0 ∨ t.sparePages ≠ [] →
          ∃ u w y j, exec (.stepCommit c k) s = .next u ∧ u.strand? p i.session = some w ∧ w.hist = t.hist ++ [d.tok] ∧
            w.steps = t.steps + 1#40 ∧ w.cpState = g.q ∧ w.stack = g.stk.reverse ∧ w.stackLow = low ∧ w.side = !t.side ∧
            w.lastStep = s.point t.domain ∧ w.ra = none ∧ w.raDue = true ∧ u.ctx? c = some y ∧ y.items[k]? = some j ∧
            j.phase = .done ∧ j.begun = false ∧ j.status = (if i.replayed then stReplayed else stOk) ∧
            (leAt x.entry 56 8 = 0 → d.alts.length ≤ 20 → u.rdLE (out + 64 + 192 * k) 4 = i.session.toNat ∧ u.rd8 (out + 64 + 192 * k + 4) = j.status ∧
              (d.tok < 2 ^ 32 → u.rdLE (out + 64 + 192 * k + 8) 4 = d.tok))) ∧
        (s.walkCommit t d.tok = none →
          ∃ u y j, exec (.stepCommit c k) s = .next u ∧ u.ctx? c = some y ∧ y.items[k]? = some j ∧ j.phase = .done ∧
            j.status = stGrammarDead ∧ u.strands = s.strands ∧
            (u.reg (rPrtCpMismatch p)).toNat = min ((s.reg (rPrtCpMismatch p)).toNat + 1) 0xFFFFFFFF)))

/-- O46. Masks, verification and run-ahead (R302 to R305, R308 to R316, R321 to R325): a MASK_BATCH of plain items ends with
every item done and its counts, one of a tree with a mask for each node, and the tag of a plain item counts the allowed tokens; a SPEC_VERIFY of a session that is not resident ends with NOT_RESIDENT, one whose
parameters lack SPEC with BAD_ENTRY, and one whose walk commits tokens returns the new length and their number; both wait while ready work
comes before theirs (R51), and a verification while too few clusters are at hand for its split rows (R22); a run-ahead that is due
leaves a result of the strand's epoch or none, and one that is not due changes nothing. -/
def Obligations.MasksAndVerification : Prop :=
  ∀ (s : State) (c : Ctx) (x : OpCtx), s.canon → Alone s →
    let e := x.entry
    let p := x.part
    let sid := eSession e
    (s.opBefore x = true → (ReadyOp s c opMASK_BATCH x → Does (.maskBatch c) s s) ∧ (ReadyOp s c opSPEC_VERIFY x → Does (.specVerify c) s s)) ∧
    (ReadyOp s c opSPEC_VERIFY x → s.specShares x (s.readTree (leAt e 24 8) (leAt e 32 1)) = none → Does (.specVerify c) s s) ∧
    (ReadyOp s c opMASK_BATCH x → s.opBefore x = false → x.items.length < 2 ^ 32 →
      (∀ i ∈ x.items, i.isTree = false ∧ ∀ t, s.strand? p i.session = some t → t.ra.isSome = true) →
      ∃ t y, exec (.maskBatch c) s = .next t ∧ t.ctx? c = some y ∧ y.st = .past ∧ y.status = some stOk ∧
        y.items.length = x.items.length ∧ (∀ j ∈ y.items, j.phase = .done) ∧
        y.res1 = BitVec.ofNat 32 ((y.items.map (·.done)).sum) ∧ t.rdLE (leAt e 40 8 + 8) 4 = x.items.length) ∧
    (∀ i t ms s1, ReadyOp s c opMASK_BATCH x → s.opBefore x = false → x.items = [i] → i.phase = .waiting → i.isTree = true →
      s.strand? p i.session = some t → s.maskItemFault x i t = none →
      s.forkTree t (s.readTree i.mTree i.mNodes) x.mode = (ms, s1) → (∀ y ∈ ms, y.2.res.fault = none) → s1.ctx? c = some x →
      ∃ u y j, exec (.maskBatch c) s = .next u ∧ u.ctx? c = some y ∧ y.st = .past ∧ y.items = [j] ∧ j.done = i.slots ∧
        j.status = stOk ∧ y.res1 = BitVec.ofNat 32 i.slots) ∧
    (∀ i t r, ReadyOp s c opMASK_BATCH x → s.opBefore x = false → x.items = [i] → i.phase = .waiting → i.isTree = false → i.slots = 1 → 80 ≤ i.offset →
      s.strand? p i.session = some t → s.maskItemFault x i t = none → t.ra = some r → r.fault = none →
      leAt e 40 8 + i.offset + i.slotSz ≤ 2 ^ 64 →
      let n := (s.allowed t r.mask).length
      let tag := leAt e 40 8 + i.offset
      ∃ u y j, exec (.maskBatch c) s = .next u ∧ u.ctx? c = some y ∧ y.items = [j] ∧ j.done = 1 ∧ j.status = stOk ∧
        u.rdLE tag 4 = t.session.toNat ∧ u.rdLE (tag + 16) 8 = t.epoch.toNat ∧ (n < 2 ^ 32 → u.rdLE (tag + 32) 4 = n)) ∧
    (ReadyOp s c opSPEC_VERIFY x → s.opBefore x = false → s.strand? p sid = none →
      ∃ t y, exec (.specVerify c) s = .next t ∧ t.ctx? c = some y ∧ y.st = .past ∧ y.status = some stNotResident ∧
        t.strands = s.strands ∧ t.reg64 (rPrtSpecDraft p) = s.reg64 (rPrtSpecDraft p) + BitVec.ofNat 64 (leAt e 32 1 - 1)) ∧
    (∀ t, ReadyOp s c opSPEC_VERIFY x → s.opBefore x = false → (s.specShares x (s.readTree (leAt e 24 8) (leAt e 32 1))).isSome = true →
      s.strand? p sid = some t → pSPEC t.params = false →
      ∃ u y, exec (.specVerify c) s = .next u ∧ u.ctx? c = some y ∧ y.st = .past ∧ y.status = some stBadEntry ∧ u.strands = s.strands) ∧
    (let tree := s.readTree (leAt e 24 8) (leAt e 32 1)
     ∀ shares sp t (ms : NodeMasks) m0 s1 path dead s2 voc t' low out cut s3, ReadyOp s c opSPEC_VERIFY x → s.opBefore x = false →
      s.specShares x tree = some (shares, sp) →
      let s0 := (sp.ctxUpd c (fun y => { y with shares := shares })).bump64 (rPrtSpecDraft p) (leAt e 32 1 - 1)
      s.strand? p sid = some t → s0.specFault x t tree = none → s0.forkTree t tree x.mode = (ms, s1) → assocFind ms 0 = some m0 →
      (∀ y ∈ ms, y.2.res.fault = none) → m0.toks ≠ [] → State.specWalk x t tree ms 17 0 [] s1 = .ok (path, dead, s2) →
      s2.voc p t.vocab t.ovl = some voc →
      State.specApply voc ms.units (s2.sd[t.domain]).step.toNat (s2.phase t.domain) path t t.stack.length [] s2 = (t', low, out, cut, s3) →
      cut = .none → out ≠ [] → s3.ctx? c = some { x with shares := shares } → s3.strand? p sid = some t → t'.part = p → t'.session = sid →
      ∃ u w y, exec (.specVerify c) s = .next u ∧ u.ctx? c = some y ∧ y.st = .past ∧
        y.status = some (if x.replayed then stReplayed else stOk) ∧ y.res0 = BitVec.ofNat 64 t'.hist.length ∧
        y.res1 = BitVec.ofNat 32 out.length ∧ u.strand? p sid = some w ∧ w.hist = t'.hist ∧ w.side = !t'.side) ∧
    (∀ (q : Part) (y : Word) (t : Strand), s.strand? q y = some t → s.groupOwner (cluGrp t.home) = some q →
      (s.takes q t.home = false ∨ s.workBefore t (s.raKey t) = true → Does (.runAhead q y) s s) ∧
      (s.takes q t.home = true → s.workBefore t (s.raKey t) = false → t.ra = none → t.raDue = true → t.needsHist = false → t.cp = none →
        ∃ u w, exec (.runAhead q y) s = .next u ∧ u.strand? q y = some w ∧ w.raDue = false ∧ w.hist = t.hist ∧
          (∀ r, w.ra = some r → r.epoch = t.epoch ∧ r.record = 0xFFFFFFFE#32 ∧ r.penalty = penaltyList (pWINDOW t.params) t.hist)) ∧
      (t.ra.isSome = true → Does (.runAhead q y) s s) ∧
      (t.raDue = false → s.raPinned t = false → Does (.runAhead q y) s s)) ∧
    (∀ (q : Part) (y : Word), s.strand? q y = none → Does (.runAhead q y) s s)

/-! ### Lockets and the reclaim ladder -/

/-- O47. PARK, REVIVE, LOCKET_EXPORT and LOCKET_IMPORT (R443, R445, R455 to R462): a park to the warm store leaves one locket, two when it is
pinned, of the next generation, and returns the strand's pages; a park without a key, in a media read-only partition, or of no session ends
with the status of its reason; a revive that is admitted and reads a good warm copy makes the strand resident again and deletes the locket;
an export writes the image under the transfer key and, unless KEEP is set, removes the session; an import of a session ID in use, or of an
image that does not open, ends with its status, and one that is admitted makes the session resident in the op's domain; a revive and an
export that an ABORT has stopped end with ABORTED once no read of theirs is under way. The warm-only mode, RO_FORCE and the park key are those
at the op's readiness. How a park key seals a stored locket is opaque (DESIGN CHOICE, log entry 16); the home cluster and the slot are free
values (DESIGN CHOICE, log entry 2). -/
def Obligations.LocketOps : Prop :=
  ∀ (s : State) (c : Ctx) (x : OpCtx), s.canon → Alone s →
    let e := x.entry
    let p := x.part
    let sid := eSession e
    let pin := (leAt e 24 1).testBit 0
    let cold := (leAt e 24 1).testBit 1
    let gen := (s.parts[p]).gen + 1#64
    (∀ t addrs s1 k, ReadyOp s c opPARK x → s.strand? p sid = some t → cold = false → s.parkFault p false x.terms = .ok k →
      let body := s.locketBody t
      let len := 64 + body.length
      let n := if pin then 2 else 1
      s.warmRoom p (n * len) = true → s.warmPlaces len n [] = some (addrs, s1) →
      ∃ u l, exec (.park c) s = .next u ∧ Ends u c stOk (locketId p gen) (BitVec.ofNat 32 len) ∧ u.strand? p sid = none ∧
        (∀ i ∈ t.pages, i ∉ (u.parts[p]).used) ∧ (u.parts[p]).gen = gen ∧
        l ∈ u.lockets ∧ l.part = p ∧ l.session = sid ∧ l.id = locketId p gen ∧ l.gen = gen ∧ l.epoch = k.epoch ∧ l.body = body ∧
        l.pinned = pin ∧ l.warm = addrs ∧ addrs.length = n ∧ l.cold = [] ∧ l.moving = false ∧ l.pages = t.admitPages ∧
        l.image = sealBody k pin (locketId p gen) gen sid p t.admitPages body) ∧
    (∀ t, ReadyOp s c opPARK x → s.strand? p sid = some t →
      (cold = true → x.terms.warmOnly = true → Does (.park c) s (s.endWith x stBadEntry)) ∧
      (cold = false ∨ x.terms.warmOnly = false →
        ((x.terms.roForce = true ∨ (s.parts[p]).worn = true) → x.terms.warmOnly = false → Does (.park c) s (s.endWith x stMediaWorn)) ∧
        ((x.terms.roForce = false ∧ (s.parts[p]).worn = false) ∨ x.terms.warmOnly = true → x.terms.key = none →
          Does (.park c) s (s.endWith x stKeyUnavail)))) ∧
    (ReadyOp s c opPARK x → s.strand? p sid = none → s.locket? p sid = none → Does (.park c) s (s.endWith x stNotResident)) ∧
    (∀ l, ReadyOp s c opPARK x → s.strand? p sid = none → s.locket? p sid = some l → cold = false →
      Does (.park c) s (s.endWith x stNotResident)) ∧
    (∀ l, ReadyOp s c opPARK x → s.strand? p sid = none → s.locket? p sid = some l → cold = true → pin = false → l.waiting = false →
      x.terms.warmOnly = false → l.lost = false → l.warm = [] →
      Does (.park c) s (s.endOk x.id l.id (BitVec.ofNat 32 l.image.length))) ∧
    (ReadyOp s c opREVIVE x → x.aborting = true → x.reading = false → Does (.revive c) s ((s.unadmit x).endWith x stAborted)) ∧
    (ReadyOp s c opREVIVE x → x.aborting = false → (s.strand? p sid).isSome = true ∨ s.locket? p sid = none →
      Does (.revive c) s ((s.unadmit x).endWith x stBadEntry)) ∧
    (∀ l, ReadyOp s c opREVIVE x → x.aborting = false → s.strand? p sid = none → s.locket? p sid = some l →
      (l.waiting = true → Does (.revive c) s ((s.unadmit x).endWith x stKeyUnavail)) ∧
      (l.waiting = false → l.lost = true → Does (.revive c) s ((s.unadmit x).endWith x stSessionLost))) ∧
    (∀ l b v slot pages s1, ReadyOp s c opREVIVE x → x.aborting = false → s.reviveFault x = .ok (l, b, v) → x.slot = none →
      s.admitSession p l.domain l.pages (s.stepCost p (b.bound 2) (b.bound 3) (match s.voc p v (b.bound 1) with | some v => v.size | none => 0))
        = .ok slot pages s1 →
      (∃ a ∈ l.warm, s.rdBytes a l.image.length = l.image ∧ a ∉ x.badWarm) →
      ∃ u w, exec (.revive c) s = .next u ∧ Ends u c stOk l.gen (BitVec.ofNat 32 b.hist.length) ∧ u.strand? p sid = some w ∧
        w.hist = b.hist ∧ w.promptLen = b.promptLen ∧ w.steps = BitVec.ofNat 40 b.steps ∧ w.stack = b.stack ∧ w.cpState = b.cpState ∧
        w.params = b.params ∧ w.bias = b.bias ∧ w.stops = b.stops ∧ w.slot = slot ∧ w.gen = l.gen ∧ w.lastLocket = l.id ∧
        w.vocab = v ∧ w.epoch = (s.parts[p]).epoch + 1#64 ∧ w.raDue = true ∧ w.ra = none ∧ u.locket? p sid = none) ∧
    (∀ l b v hint s1, ReadyOp s c opREVIVE x → x.aborting = false → s.reviveFault x = .ok (l, b, v) → x.slot = none →
      s.admitSession p l.domain l.pages (s.stepCost p (b.bound 2) (b.bound 3) (match s.voc p v (b.bound 1) with | some v => v.size | none => 0))
        = .denied hint s1 →
      Does (.revive c) s (s1.endDenied c hint)) ∧
    (ReadyOp s c opEXPORT x → x.aborting = true → x.reading = false →
      ∃ u y, exec (.locketExport c) s = .next u ∧ u.ctx? c = some y ∧ y.st = .past ∧ y.status = some stAborted ∧ u.strands = s.strands ∧
        u.lockets = s.lockets) ∧
    (∀ t key, ReadyOp s c opEXPORT x → x.aborting = false → s.strand? p sid = some t → x.akey = some key →
      let body := s.locketBody t
      let len := 64 + body.length
      let img := exportImage key (locketHeader true false len (locketId p gen) gen sid p 0#32 t.admitPages) body
      (len ≤ leAt e 32 4 → (leAt e 36 1).testBit 0 = true → leAt e 24 8 + img.length ≤ 2 ^ 64 →
        ∃ u, exec (.locketExport c) s = .next u ∧ Ends u c stOk (locketId p gen) (BitVec.ofNat 32 len) ∧
          u.rdBytes (leAt e 24 8) img.length = img ∧ u.strands = s.strands ∧ (u.parts[p]).gen = gen) ∧
      (len ≤ leAt e 32 4 → (leAt e 36 1).testBit 0 = false →
        ∃ u, exec (.locketExport c) s = .next u ∧ Ends u c stOk (locketId p gen) (BitVec.ofNat 32 len) ∧ u.strand? p sid = none ∧
          ∀ i ∈ t.pages, i ∉ (u.parts[p]).used) ∧
      (leAt e 32 4 < len →
        ∃ u y, exec (.locketExport c) s = .next u ∧ u.ctx? c = some y ∧ y.st = .past ∧ y.status = some stAborted ∧
          u.strands = s.strands)) ∧
    (ReadyOp s c opEXPORT x → x.aborting = false → s.strand? p sid = none → s.locket? p sid = none → Does (.locketExport c) s (s.endWith x stBadEntry)) ∧
    (∀ st, ReadyOp s c opIMPORT x → s.idTaken p sid = some st → Does (.locketImport c) s (s.endWith x st)) ∧
    (let len := leAt (s.rdBytes (leAt e 24 8) (min 64 (leAt e 32 4))) 4 4
     let hdr := s.rdBytes (leAt e 24 8) (min 64 (leAt e 32 4))
     ∀ key, ReadyOp s c opIMPORT x → s.idTaken p sid = none → x.akey = some key →
      (leAt hdr 0 1 ≠ 1 ∨ leAt e 32 4 < len → Does (.locketImport c) s (s.endWith x stBadEntry)) ∧
      (openImage key (s.rdBytes (leAt e 24 8) len) = none → Does (.locketImport c) s (s.endWith x stBadEntry)) ∧
      (∀ pt b v ovl cp hook slot pages s1, leAt hdr 0 1 = 1 → (leAt hdr 1 1).testBit 1 = true → len ≤ leAt e 32 4 → 512 ≤ len →
        len % 64 = 0 → openImage key (s.rdBytes (leAt e 24 8) len) = some pt → parseBody pt = some b →
        s.importBinds p b = .ok [some v, ovl, cp, hook] →
        s.admitSession p (eDom e) (leAt hdr 36 4) (s.stepCost p cp hook (match s.voc p v ovl with | some v => v.size | none => 0))
          = .ok slot pages s1 →
        ∃ u w, exec (.locketImport c) s = .next u ∧ Ends u c stOk (BitVec.ofNat 64 (leAt hdr 16 8)) (BitVec.ofNat 32 b.hist.length) ∧
          u.strand? p sid = some w ∧ w.hist = b.hist ∧ w.steps = BitVec.ofNat 40 b.steps ∧ w.stack = b.stack ∧ w.params = b.params ∧
          w.domain = eDom e ∧ w.slot = slot ∧ w.vocab = v ∧ w.ovl = ovl ∧ w.cp = cp ∧ w.hook = hook ∧ w.lastLocket = 0#64 ∧
          w.raDue = true))

/-- O48. The reclaim ladder, the drain of a stalled strand, the refill of accounts and the placement loop (R163, R166, R171, R616, R675), stated
of the ladder where no park of it is in flight: rung 1 starts below LO and stops at HI, rung 2 stops at the need and goes on without
IDLE_MIN, a park that fails is skipped and one that waits for moves stays in flight; the first strand of the stall takes the pages it needs,
and once no op holds exclusion on it the drain gives history pages for the whole history and clears OVF_COUNT and SUSP; a refill, due at
each nonzero multiple of 100,000 cycles, adds the rate with its remainder, clipped at the burst, to accounts that are set and to no other;
a secondary parks and refills as the primary tells it, and nothing while it has told of nothing (R621); a period of the loop that is enabled moves a strand from the most to the least loaded cluster. -/
def Obligations.Reclaim : Prop :=
  ∀ (s : State) (p : Part), s.canon → s.running = true →
    let lo := s.reclaimLo p
    let idle := s.idleMin p
    let settled := (s.parts[p]).reclaims = []
    let parks : Strand → ParkRes := fun t => s.storePark t false false (s.parkTerms p)
    let told : State → Strand → DWord → State := fun s1 t id => (s1.tell 3 p (locketGen id)).tell 8 p (t.session.zeroExtend 64)
    (settled → lo ≤ s.freePages p → Does (.reclaimRung1 p) s s) ∧
    (s.role = 2 → (∀ d ∈ s.pair.given, d.kind ≠ 8) → settled → Does (.reclaimRung1 p) s s ∧ ∀ need, Does (.reclaimRung2 p need) s s) ∧
    (∀ t l id len s1, s.role ≠ 2 → settled → s.freePages p < lo → s.candidates p idle = t :: l → parks t = .done id len s1 →
      s1.reclaimHi p ≤ s1.freePages p → Does (.reclaimRung1 p) s (told s1 t id)) ∧
    (∀ t, s.role ≠ 2 → settled → s.freePages p < lo → s.candidates p idle = [t] →
      ((∃ st, parks t = .fail st) → Does (.reclaimRung1 p) s s) ∧
      (parks t = .wait → Does (.reclaimRung1 p) s (s.partUpd p (fun x => { x with reclaims := [t.session] })))) ∧
    (∀ need, settled → need ≤ s.freePages p → Does (.reclaimRung2 p need) s s) ∧
    (∀ need t l id len s1, s.role ≠ 2 → settled → s.freePages p < need → s.candidates p idle = t :: l → parks t = .done id len s1 →
      need ≤ s1.freePages p → Does (.reclaimRung2 p need) s (told s1 t id)) ∧
    (∀ need t l id len s1, s.role ≠ 2 → settled → s.freePages p < need → s.candidates p idle = [] → s.candidates p 0 = t :: l →
      parks t = .done id len s1 → need ≤ s1.freePages p → Does (.reclaimRung2 p need) s (told s1 t id)) ∧
    (∀ (sid : Word) (t : Strand) (new : List Nat) (s1 : State), s.strand? p sid = some t → t.stalled = true → s.stallNeed p sid = 0 →
      let h := (t.hist.length + 1023) / 1024 - t.histPages.length
      let k := if t.cp.isSome ∧ t.stackPages.length = 2 ∧ (512 < t.stack.length ∨ (t.susp = true ∧ t.ovfCount ≠ 64)) then 2 else 0
      s.takePages p (h + k - t.sparePages.length) = some (new, s1) →
      (s.excluded p sid none = true →
        Does (.pageStallDrain p sid) s (s1.strandUpd p sid (fun _ => { t with sparePages := t.sparePages ++ new }))) ∧
      (s.excluded p sid none = false →
        ∃ u w, exec (.pageStallDrain p sid) s = .next u ∧ u.strand? p sid = some w ∧ w.hist = t.hist ∧ w.ovfCount = 0 ∧ w.susp = false ∧
          w.histPages = t.histPages ++ (t.sparePages ++ new).take h ∧
          w.stackPages = t.stackPages ++ ((t.sparePages ++ new).drop h).take k ∧ w.steps = t.steps ∧ sid ∉ (u.parts[p]).stall)) ∧
    (∀ (sid : Word), s.stallNeed p sid ≠ 0 → Does (.pageStallDrain p sid) s s) ∧
    (∀ (sid : Word) (t : Strand), s.strand? p sid = some t → t.stalled = false → Does (.pageStallDrain p sid) s s) ∧
    (s.role ≠ 2 → s.time = 0 ∨ s.time % 100000 ≠ 0 ∨ s.refillAt = s.time → Does .refillTick s s) ∧
    (s.role = 2 → (∀ d ∈ s.pair.given, d.kind ≠ 6) → Does .refillTick s s) ∧
    (((s.parts[p]).accts.map (·.num)).Nodup →
      (s.role = 2 ∧ ∃ d ∈ s.pair.given, d.kind = 6) ∨ (s.role ≠ 2 ∧ s.time ≠ 0 ∧ s.time % 100000 = 0 ∧ s.refillAt ≠ s.time) →
      ∃ t, exec .refillTick s = .next t ∧ ∀ a ∈ (s.parts[p]).accts,
        let b := t.acct p a.num
        let sum := a.rate * 256 + a.rem
        b.balance = (if a.set then min ((a.burst : Int) * 256) (a.balance + ((sum / 1000 : Nat) : Int)) else a.balance) ∧
          b.rem = (if a.set then (if (a.burst : Int) * 256 < a.balance + ((sum / 1000 : Nat) : Int) then 0 else sum % 1000) else a.rem) ∧
          b.rate = a.rate ∧ b.burst = a.burst ∧ b.set = a.set ∧ b.held = a.held ∧ b.overdraft = a.overdraft) ∧
    let placeDue := assocGet 0 s.lastAt (0x10 + p.val) + max 1 (s.rf (rPrtPlace p) 0 8) * 100000 ≤ s.time
    (¬ placeDue → Does (.placementPeriod p) s s) ∧
    (placeDue → s.rb (rPrtPlace p) 31 = false → Does (.placementPeriod p) s (s.periodMark (0x10 + p.val))) ∧
    (∀ h l t r, placeDue → s.enabled p = true → s.rb (rPrtPlace p) 31 = true → s.rf (rPrtPlace p) 16 12 = 1 →
      let cs := s.placeClusters p
      firstBest (fun a b => s.cluLoad p b < s.cluLoad p a) cs = some h → firstBest (fun a b => s.cluLoad p a < s.cluLoad p b) cs = some l →
      (cs.map (s.cluLoad p)).sum * (100 + s.rf (rPrtPlace p) 8 8) < s.cluLoad p h * 100 * cs.length →
      (s.candidates p idle).filter (fun t => t.home == h) = t :: r → s.cluLoad p l + s.strandCost t < s.cluLoad p h →
      ∃ u w, exec (.placementPeriod p) s = .next u ∧ assocGet 0 u.lastAt (0x10 + p.val) = s.time ∧ u.strand? p t.session = some w ∧ w.home = l ∧ w.hist = t.hist ∧ w.steps = t.steps ∧
        (u.reg (rPrtPlaceCnt p)).toNat = min ((s.reg (rPrtPlaceCnt p)).toNat + 1) 0xFFFFFFFF)

/-! ### The CSR window -/

/-- O49. Register access (R6; and of R7 to R9, R12, R73, R619 what follows): an access that is not aligned or not of 4 bytes gets an error response and has no other
effect; a read of an address that holds no register gives 0, and a write of it has no effect; a read of a pair's LO half answers it and latches the HI half, which the next read of the HI half answers; a write of the LO
half is held until the HI half is written, then both apply; a read clears the RC fields; a write changes RW fields, and W1C bits written 1
clear. A write of a register that is frozen or closed changes nothing. A secondary ignores software's writes but those to the registers
of R619's list; a primary forwards every other write that it accepts to the same offset of its secondary's window. -/
def Obligations.RegisterAccess : Prop :=
  ∀ (s : State) (off : CsrOff) (v : Word) (src : WriteSrc),
    let o := off.toNat
    let ours := s.ignores src o = false
    let wrote : RegRow → Word → Word → Word → Prop := fun r old v new => ∀ i < 32, new.getLsbD i =
      (if r.w1c.testBit i ∧ v.getLsbD i then false else if r.rw.testBit i then v.getLsbD i else old.getLsbD i)
    (∀ n, n ≠ 4 ∨ o % 4 ≠ 0 → exec (.pairLoRead ⟨off, n⟩) s = .next { s with resp := ⟨0#32, true⟩ } ∧
      exec (.pairHiRead ⟨off, n⟩) s = .next { s with resp := ⟨0#32, true⟩ } ∧
      exec (.counterReadClear ⟨off, n⟩) s = .next { s with resp := ⟨0#32, true⟩ }) ∧
    (∀ n, s.running = true → n ≠ 4 ∨ o % 4 ≠ 0 → Does (.pairLoWrite ⟨off, n⟩ ⟨v, src⟩) s { s with resp := ⟨0#32, true⟩ } ∧
      Does (.pairHiWrite ⟨off, n⟩ ⟨v, src⟩) s { s with resp := ⟨0#32, true⟩ } ∧ Does (.registerWrite off n ⟨v, src⟩) s { s with resp := ⟨0#32, true⟩ }) ∧
    (s.running = true → o % 4 = 0 → s.role = 2 → src = .host → ownWrite o = false →
      Does (.pairLoWrite ⟨off, 4⟩ ⟨v, src⟩) s s ∧ Does (.pairHiWrite ⟨off, 4⟩ ⟨v, src⟩) s s ∧ Does (.registerWrite off 4 ⟨v, src⟩) s s) ∧
    (regRow? o = none → o % 4 = 0 →
      exec (.pairLoRead ⟨off, 4⟩) s = .next { s with resp := ⟨0#32, false⟩ } ∧
      exec (.pairHiRead ⟨off, 4⟩) s = .next { s with resp := ⟨0#32, false⟩ } ∧
      exec (.counterReadClear ⟨off, 4⟩) s = .next { s with resp := ⟨0#32, false⟩ } ∧
      (s.running = true → Does (.pairLoWrite ⟨off, 4⟩ ⟨v, src⟩) s s ∧ Does (.pairHiWrite ⟨off, 4⟩ ⟨v, src⟩) s s ∧
        Does (.registerWrite off 4 ⟨v, src⟩) s s)) ∧
    (s.running = true → o % 4 = 0 → regRow? o ≠ none → ownWrite o = false → s.cluDark o = false →
      ∃ t, exec (.registerWrite off 4 ⟨v, src⟩) s = .next t ∧
        (s.role = 1 → t.peerOut = s.peerOut ++ [((s.reg64 rGlbPairPeer).toNat + o, v)]) ∧ (s.role ≠ 1 → t.peerOut = s.peerOut)) ∧
    (∀ r r', s.running = true → o % 4 = 0 → regRow? o = some r → r.half = 1 → regRow? (o + 4) = some r' → r'.half = 2 →
      s.cluDark o = false →
      (∃ t, exec (.pairLoRead ⟨off, 4⟩) s = .next t ∧ t.resp = ⟨s.view o, false⟩ ∧ t.regs = s.regs ∧ t.mem = s.mem ∧
        ∀ u : State, u.running = true → u.cluDark (o + 4) = false → u.pairLatch = t.pairLatch →
          ∃ w, exec (.pairHiRead ⟨off + 4, 4⟩) u = .next w ∧ w.resp = ⟨s.view (o + 4), false⟩ ∧ w.regs = u.regs ∧ w.mem = u.mem) ∧
      (s.frozen o = false → ours → ∃ t, exec (.pairLoWrite ⟨off, 4⟩ ⟨v, src⟩) s = .next t ∧ (∀ k, noteReg k = false → t.reg k = s.reg k) ∧ t.mem = s.mem ∧
        assocFind t.pairHold o = some v)) ∧
    (∀ r r' l, s.running = true → 4 ≤ o → o % 4 = 0 → regRow? o = some r → r.half = 2 → regRow? (o - 4) = some r' → r'.half = 1 →
      s.cluDark o = false → s.frozen o = false → noteReg o = false → noteReg (o - 4) = false → o ≠ rRstUnitClu + 4 → o ≠ rPwrDomOff + 4 →
      assocFind s.pairHold (o - 4) = some l →
      ours → ∃ t, exec (.pairHiWrite ⟨off, 4⟩ ⟨v, src⟩) s = .next t ∧ wrote r (s.reg o) v (t.reg o) ∧ wrote r' (s.reg (o - 4)) l (t.reg (o - 4)) ∧
        (∀ k, k ≠ o → k ≠ o - 4 → noteReg k = false → t.reg k = s.reg k) ∧ t.mem = s.mem) ∧
    (∀ r, s.running = true → o % 4 = 0 → regRow? o = some r → r.half = 0 → s.cluDark o = false →
      (∀ p : Part, csrWin o ≠ .part p 0x318 ∧ csrWin o ≠ .part p 0x11C) →
      ∃ t, exec (.counterReadClear ⟨off, 4⟩) s = .next t ∧
        (∀ i < 32, (t.reg o).getLsbD i = ((s.reg o).getLsbD i && !r.rc.testBit i)) ∧
        (∀ k, k ≠ o → t.reg k = s.reg k) ∧ t.resp = ⟨s.view o &&& ~~~(BitVec.ofNat 32 r.wo), false⟩ ∧ t.mem = s.mem) ∧
    (s.csrOpen o = false → o % 4 = 0 → exec (.registerWrite off 4 ⟨v, src⟩) s = .next s) ∧
    (∀ r, s.running = true → o % 4 = 0 → regRow? o = some r → r.half = 0 → o ≠ rCfgBootCtrl → s.cluDark o = false →
      (s.frozen o = true → ours → Does (.registerWrite off 4 ⟨v, src⟩) s (Sent s o v)) ∧
      (s.frozen o = false → ours → noteReg o = false →
        (csrWin o = .vgs ∨ (∃ p w, csrWin o = .part p w ∧
            w ∉ [0x108, 0x10C, 0x118, 0x220, 0x310, 0x400, 0x440, 0x600, 0x804, 0x900, 0xF000]) ∨
          (csrWin o = .lpe ∧ o ∉ [rLpeTraceCtrl, rLpeMark, rLpeCntCtrl])) →
        ∃ t, exec (.registerWrite off 4 ⟨v, src⟩) s = .next t ∧ wrote r (s.reg o) v (t.reg o) ∧
          (∀ k, k ≠ o → noteReg k = false → t.reg k = s.reg k) ∧ t.mem = s.mem ∧ t.resp = s.resp))

/-! ### On-chip memories and the fabric -/

/-- O50. BANK_OWNER_WRITE, BANK_DRAIN_DONE, PATROL_SCRUB, VGS_LINE_RELOAD, FABRIC_RESPONSE and FABRIC_TIMEOUT (R407, R408, R416, R418, R419,
R421, R431, R433 to R437, R439, R459): a FREE bank takes its owner at once, a bank in use goes to HANDOVER and takes the new owner,
cleared, when it has drained, and an owner that is not the group's sets OWN_ERR; a due patrol counts errors of written lines only; a
reload restores a line or poisons it, and a quad out of service has none (R411). Of a request whose master was reset nothing is done any more, a
response that comes while the fabric interface waits for its reset is discarded; a response after the time-out is
discarded and counted; one in time writes its line, poisoned data poison it, and fail the op that asked for them; an error or a time-out
fails the op with PERM_DENIED, a ring fetch stops, a completion write leaves its slot as it was, and a warm copy of a locket becomes
unreadable. -/
def Obligations.OnChip : Prop :=
  ∀ (s : State), s.canon → s.running = true →
    (∀ (c : Clu) (b : Fin 16) (v : Word),
      let x := fld v 0 5
      let o := rCluBankOwn c b
      let own := s.rf o 0 5
      (0x10 < x ∨ x = own → Does (.bankOwnerWrite c b v) s (Sent s o v)) ∧
      (x ≤ 0x10 → x ≠ own → (b.val, x) ∉ (s.scratch[c]).hand →
        (x ≠ 0x10 → (∀ p, s.groupOwner (cluGrp c) = some p → p.val ≠ x) →
          Does (.bankOwnerWrite c b v) s ((Sent s o v).setRb (rCluStat c) 31 true)) ∧
        (own = 0x10 → (∃ p, s.groupOwner (cluGrp c) = some p ∧ p.val = x) →
          Does (.bankOwnerWrite c b v) s ((Sent s o v).setRf o 0 5 x)) ∧
        (own < 0x10 → (x = 0x10 ∨ ∃ p, s.groupOwner (cluGrp c) = some p ∧ p.val = x) →
          ∃ t, exec (.bankOwnerWrite c b v) s = .next t ∧ t.rf o 0 5 = 0x1F ∧ (b.val, x) ∈ (t.scratch[c]).hand ∧ t.mem = s.mem ∧
            ∀ k : Fin 16, k ≠ b → t.reg (rCluBankOwn c k) = s.reg (rCluBankOwn c k)))) ∧
    (∀ (c : Clu) (b : Fin 16),
      (∀ x, (s.scratch[c]).hand.find? (fun h => h.1 == b.val) = some (b.val, x) → x < 32 →
        ∃ t, exec (.bankDrainDone c b) s = .next t ∧ t.rf (rCluBankOwn c b) 0 5 = x ∧ (∀ h ∈ (t.scratch[c]).hand, h.1 ≠ b.val) ∧
          (∀ line, line / 1024 = b.val → line ∉ (t.scratch[c]).tags ∧ line ∉ (t.scratch[c]).poison) ∧
          (∀ line, line / 1024 ≠ b.val → (line ∈ (t.scratch[c]).tags ↔ line ∈ (s.scratch[c]).tags))) ∧
      ((∀ h ∈ (s.scratch[c]).hand, h.1 ≠ b.val) → Does (.bankDrainDone c b) s s)) ∧
    (∀ (c : Clu) (line : Fin 16384) (ue : Bool),
      let due := assocGet 0 s.lastAt (0x20 + c.val) + s.rf (rCluPatrol c) 0 16 * 100000 ≤ s.time
      (s.rf (rCluPatrol c) 0 16 = 0 ∨ bit (s.reg64 rPwrDomStat) c = false ∨ ¬ due → Does (.patrolScrub c [(line, ue)]) s s) ∧
      (s.rf (rCluPatrol c) 0 16 ≠ 0 → bit (s.reg64 rPwrDomStat) c = true → due → line.val ∉ (s.scratch[c]).tags →
        Does (.patrolScrub c [(line, ue)]) s (s.periodMark (0x20 + c.val))) ∧
      (s.rf (rCluPatrol c) 0 16 ≠ 0 → bit (s.reg64 rPwrDomStat) c = true → due → line.val ∈ (s.scratch[c]).tags →
        ∃ t, exec (.patrolScrub c [(line, ue)]) s = .next t ∧
          (ue = true → line.val ∈ (t.scratch[c]).poison ∧
            (t.reg (rCluEccUeCnt c)).toNat = min ((s.reg (rCluEccUeCnt c)).toNat + 1) 0xFFFFFFFF) ∧
          (ue = false → (t.scratch[c]).poison = (s.scratch[c]).poison ∧
            (t.reg (rCluEccCeCnt c)).toNat = min ((s.reg (rCluEccCeCnt c)).toNat + 1) 0xFFFFFFFF) ∧
          (s.rb (rCluEccLast c) 31 = false → t.rb (rCluEccLast c) 31 = true ∧ t.rb (rCluEccLast c) 30 = ue ∧
            t.rb (rCluEccLast c) 29 = true ∧ t.rf (rCluEccLast c) 20 4 = line.val / 1024 ∧
            t.rf (rCluEccLast c) 10 10 = line.val % 1024))) ∧
    (∀ (b : Fin 32) (line : Fin 24576) (ok : Bool),
      let k := b.val * 24576 + line.val
      (s.bankOn b = false → Does (.vgsLineReload b line ok) s s) ∧
      (s.bankOn b = true → ∃ t, exec (.vgsLineReload b line ok) s = .next t ∧ t.vgs.tagged k = true ∧ (ok = true → k ∉ t.vgs.poison) ∧
        (ok = false → k ∈ t.vgs.poison) ∧ (ok = true → t.ctxs = s.ctxs ∧ t.threads = s.threads ∧ t.strands = s.strands) ∧
        (t.reg rVgsEccUeCnt).toNat = min ((s.reg rVgsEccUeCnt).toNat + 1) 0xFFFFFFFF ∧
        (t.reg rVgsReloadFail).toNat = (if ok then (s.reg rVgsReloadFail).toNat else min ((s.reg rVgsReloadFail).toNat + 1) 0xFFFFFFFF))) ∧
    (∀ (q : FabReq) (r : BitVec 2),
      let due := q.at_ + max 10 (s.rf rGlbFabCfg 0 16) * 100
      let open_ := s.fabDropped q = false ∧ s.quiet 0x4A = false ∧ q.id ∉ s.fabLate
      let inTime := open_ ∧ s.time ≤ due
      (s.fabDropped q = true → Does (.fabricResponse q r) s s ∧ Does (.fabricTimeout q) s s) ∧
      (s.fabDropped q = false → s.quiet 0x4A = true → Does (.fabricResponse q r) s ((s.fabEnded q).ownWrites s) ∧ Does (.fabricTimeout q) s s) ∧
      (s.fabDropped q = false → s.quiet 0x4A = false → q.id ∈ s.fabLate →
        Does (.fabricResponse q r) s (({ s with fabLate := s.fabLate.filter (· != q.id) }).bump rGlbFabLate) ∧
        Does (.fabricTimeout q) s s) ∧
      (open_ → s.time < due → Does (.fabricTimeout q) s s) ∧
      (inTime → r = 0#2 →
        (q.write = true ∨ (∀ c l, q.dest ≠ some (.scratch c l)) → Does (.fabricResponse q r) s s) ∧
        (∀ c l, q.write = false → q.dest = some (.scratch c l) →
          ∃ t, exec (.fabricResponse q r) s = .next t ∧ l.val ∈ (t.scratch[c]).tags ∧ (64 ≤ q.len → l.val ∉ (t.scratch[c]).poison) ∧
            (∀ k, k ≠ l.val → (k ∈ (t.scratch[c]).poison ↔ k ∈ (s.scratch[c]).poison)) ∧ t.regs = s.regs ∧ t.mem = s.mem)) ∧
      (∀ c l, inTime → q.write = false → q.dest = some (.scratch c l) →
        ∃ t, exec (.fabricResponse q 1#2) s = .next t ∧ l.val ∈ (t.scratch[c]).poison ∧ l.val ∈ (t.scratch[c]).tags ∧
          t.rb rGlbFabErr 0 = true) ∧
      (∀ b l, inTime → q.write = false → q.dest = some (.vgs b l) → s.bankOn b = true →
        ∃ t, exec (.fabricResponse q 1#2) s = .next t ∧ b.val * 24576 + l.val ∈ t.vgs.poison ∧ t.rb rGlbFabErr 0 = true ∧
          (t.reg rVgsReloadFail).toNat = min ((s.reg rVgsReloadFail).toNat + 1) 0xFFFFFFFF) ∧
      (∀ c x, Alone s → open_ → q.ctx = some c → s.ctx? c = some x → x.st ≠ .past → q.dest = none → q.master ≠ 0x45#8 →
        eOp x.entry ∈ [opDECODE, opPREFILL, opHASH_BLOCKS, opPARK] →
        (s.time ≤ due → 2 ≤ r.toNat →
          ∃ t y, exec (.fabricResponse q r) s = .next t ∧ t.ctx? c = some y ∧ y.st = .past ∧ y.status = some stPermDenied ∧
            t.rb rGlbFabErr (if q.write then 2 else 1) = true ∧
            (s.rf rGlbFabErr 0 4 = 0 → t.reg64 rGlbFabErrAddr = q.addr ∧ t.rf rGlbFabErrSrc 0 16 = s.fabSid q)) ∧
        (s.time ≤ due → q.write = false →
          ∃ t y, exec (.fabricResponse q 1#2) s = .next t ∧ t.ctx? c = some y ∧ y.st = .past ∧ y.status = some stPoison ∧
            (t.reg (rPrtPoisonCnt x.part)).toNat = min ((s.reg (rPrtPoisonCnt x.part)).toNat + 1) 0xFFFFFFFF) ∧
        (due ≤ s.time →
          ∃ t y, exec (.fabricTimeout q) s = .next t ∧ t.ctx? c = some y ∧ y.st = .past ∧ y.status = some stPermDenied ∧
            t.rb rGlbFabErr 3 = true ∧ t.rb rGlbFabErr (if q.write then 2 else 1) = true ∧ q.id ∈ t.fabLate)) ∧
      (∀ c x a, Alone s → inTime → q.ctx = some c → s.ctx? c = some x → x.st ≠ .past → q.dest = none → s.warmRead q x = some a →
        1 ≤ r.toNat →
        ∃ t, exec (.fabricResponse q r) s = .next t ∧ t.ctx? c = some { x with badWarm := x.badWarm ++ [a] } ∧ t.mem = s.mem) ∧
      (∀ ring, inTime → q.ctx = none → q.dest = none → q.master = 0x45#8 → q.ring = some ring → q.write = false → 1 ≤ r.toNat →
        ∃ t, exec (.fabricResponse q r) s = .next t ∧ (t.rings[ring]).fetchStopped = true ∧ t.ctxs = s.ctxs) ∧
      (∀ ring p w, s.role ≠ 2 → open_ → q.ctx = none → q.dest = none → q.master = 0x45#8 → q.ring = some ring → q.write = true →
        (s.rings[ring]).written.find? (fun w => w.addr == q.addr.toNat) = some w → w.addr + w.old.length ≤ 2 ^ 64 →
        s.ringOwner ring = some p → s.rb (rPrtEvqCfg p) 31 = false →
        let restored : State → Prop := fun t => t.rdBytes w.addr w.old.length = w.old ∧ w ∉ (t.rings[ring]).written ∧
          t.reg (rPrtCqTail ring) = s.reg (rPrtCqTail ring) ∧
          (t.reg (rPrtEvqLost p)).toNat = min ((s.reg (rPrtEvqLost p)).toNat + 1) 0xFFFFFFFF
        (s.time ≤ due → 2 ≤ r.toNat → ∃ t, exec (.fabricResponse q r) s = .next t ∧ restored t) ∧
        (due ≤ s.time → ∃ t, exec (.fabricTimeout q) s = .next t ∧ t.rdBytes w.addr w.old.length = w.old ∧ w ∉ (t.rings[ring]).written ∧
          t.reg (rPrtCqTail ring) = s.reg (rPrtCqTail ring))))

/-! ### Partitions and keys -/

/-- O51. GEN_COMMIT, GEN_DISCARD and GEN_DONE (R516, R517, R520, R522, R526): a commit that breaks no rule makes the staged configuration the
one in force, under the next generation, with DONE clear; one that breaks a rule reports it and changes nothing else; a discard takes the
mirrors back into the staged page; once nothing runs under an older generation, no op, no move and no reclaim park, DONE sets, and the state
of a disabled partition is gone. -/
def Obligations.Partitions : Prop :=
  ∀ (s : State) (p : Part) (v : Word), s.canon → s.running = true →
    let page : Nat → Nat := fun i => 0x10F010 + 0x10000 * p.val + 4 * i
    let sent := Sent s (rPrtGenCtrl p) v
    let settled := (s.parts[p]).leaving = [] ∧ (s.parts[p]).oldWork = [] ∧ (s.parts[p]).oldReclaims = []
    (bit v 31 = false → bit v 30 = false → Does (.genCommit p v) s sent) ∧
    (∀ k, bit v 31 = true → bit v 30 = false → s.commitFault p = some k →
      Does (.genCommit p v) s ((sent.setRb (rPrtGenStat p) 30 true).setRf (rPrtGenStat p) 24 4 k)) ∧
    (∀ k, bit v 31 = true → bit v 30 = true → s.commitFault p = some k →
      ∃ t, exec (.genCommit p v) s = .next t ∧ t.rb (rPrtGenStat p) 30 = true ∧ t.reg (rPrtGenCur p) = s.reg (rPrtGenCur p) ∧
        ∀ i < 60, (regRow? (page i + 0x100)).isSome = true → t.reg (page i) = s.reg (page i + 0x100)) ∧
    (bit v 31 = true → s.commitFault p = none →
      ∃ t, exec (.genCommit p v) s = .next t ∧ t.reg (rPrtGenCur p) = s.reg (rPrtGenCur p) + 1#32 ∧ t.rb (rPrtGenDone p) 31 = false ∧
        (∀ i < 60, (regRow? (page i)).isSome = true → t.reg (page i + 0x100) = s.reg (page i)) ∧
        (t.parts[p]).leaving = s.leavingOf p ∧ (t.parts[p]).oldReclaims = (s.parts[p]).reclaims ∧
        (∀ l ∈ s.lockets, l.part = p → l.worked = true → l.id ∈ (t.parts[p]).oldWork) ∧ t.snapOk = true ∧
        (s.enabled p = true → s.rb (rPrtCfgCtrl p) 31 = false → t.rb (rPrtGenStat p) 31 = true ∧ (t.parts[p]).toClear = s.tenantAreas p) ∧
        t.strands.map (fun x => (x.part, x.session)) = s.strands.map (fun x => (x.part, x.session))) ∧
    (bit v 30 = true → bit v 31 = false →
      ∃ t, exec (.genDiscard p v) s = .next t ∧
        (∀ i < 60, (regRow? (page i + 0x100)).isSome = true → t.reg (page i) = s.reg (page i + 0x100)) ∧
        (∀ o, noteReg o = false → (∀ i < 60, o ≠ page i) → t.reg o = s.reg o) ∧ t.mem = s.mem) ∧
    (bit v 30 = false ∨ bit v 31 = true → Does (.genDiscard p v) s sent) ∧
    (s.rb (rPrtGenDone p) 31 = true → Does (.genDone p) s s) ∧
    (s.rb (rPrtGenDone p) 31 = false → (s.parts[p]).leaving = [] →
      (∃ x ∈ s.ctxs, x.part = p ∧ x.gen ≠ s.reg (rPrtGenCur p)) ∨ (∃ l ∈ s.lockets, l.part = p ∧ l.worked = true ∧ l.id ∈ (s.parts[p]).oldWork) ∨
        (∃ k ∈ (s.parts[p]).reclaims, k ∈ (s.parts[p]).oldReclaims) → Does (.genDone p) s s) ∧
    (s.rb (rPrtGenDone p) 31 = false → settled → (∀ x ∈ s.ctxs, x.part = p → x.gen = s.reg (rPrtGenCur p)) →
      (s.rb (rPrtGenStat p) 31 = false → (∀ t ∈ s.strands, t.part = p → s.groupOwner (cluGrp t.home) = some p) →
        (∀ c : Chan, (s.chans[c]).erasing = false) →
        Does (.genDone p) s (((s.setRb (rPrtGenDone p) 31 true).post p 0x0C 0 none noSession 0#64
          (BitVec.ofNat 64 (s.reg (rPrtGenCur p)).toNat)).ownWrites s)) ∧
      (s.rb (rPrtGenStat p) 31 = true →
        ∃ t, exec (.genDone p) s = .next t ∧ t.rb (rPrtGenDone p) 31 = true ∧ t.rb (rPrtGenStat p) 31 = false ∧
          (t.parts[p]).accts = [] ∧ (t.parts[p]).used = [] ∧ (t.parts[p]).slotA = none ∧ (t.parts[p]).slotB = none ∧
          (∀ k : Fin 2, (t.parts[p]).ak[k] = none) ∧ (t.parts[p]).gen = (s.parts[p]).gen ∧ (t.parts[p]).epoch = (s.parts[p]).epoch ∧
          (s.role ≠ 2 → ∀ a ∈ (s.parts[p]).toClear, a.1 + a.2 ≤ 2 ^ 64 → ∀ i < a.2, t.rd8 (a.1 + i) = 0#8)))

/-- O52. Key commands (R529, R533, R535 to R537, R541): a command is ignored while BUSY, gives result 1 for a partition that is not enabled
and zeroes SEC_KEY_IN afterwards; LOAD_ASSET and WITHDRAW_ASSET set and remove an asset key; RESTORE_PARK installs a key whose epoch and
check value are committed; ROTATE_PARK writes a COMMIT record for the next epoch and stays BUSY; another OP gives result 5. The re-key scrub
rewrites one locket under the current epoch, from a copy that is readable, at most RATE a second and none while RATE is 0, and writes the CLEAR
record when none is left; a locket of which no copy is readable is lost (DEDUCED, log entry 38). What a pair compares of its
members' slots is left out: the clauses are of an instance that is no member of one. -/
def Obligations.Keys : Prop :=
  ∀ (s : State) (v : Word), s.canon → Alone s →
    let p := keyPart v
    let op := fld v 28 4
    let x := s.parts[p]
    let zero : State → Prop := fun t => ∀ k < 16, t.reg (rSecKeyIn k) = 0#32
    let result : State → Nat → Prop := fun t r => t.rf rSecKeyStat 16 8 = r ∧ t.rb rSecKeyStat 31 = false ∧ zero t
    let cmd : Nat → Instr := fun k => if k = 1 then .loadAsset v else if k = 2 then .withdrawAsset v else if k = 3 then .restorePark v
      else .rotatePark v
    let held : Option KeySlot → Bool := fun y => match y with | some z => z.epoch == s.reg rSecKeyEpoch | none => false
    let key := BitVec.ofNat 512 (s.keyIn 16)
    (∀ k, 1 ≤ k → k ≤ 4 → op ≠ k ∨ s.rb rSecKeyStat 31 = true → Does (cmd k) s s) ∧
    (1 ≤ op → op ≤ 4 → s.rb rSecKeyStat 31 = false → s.enabled p = false →
      ∃ t, exec (cmd op) s = .next t ∧ result t 1 ∧ t.parts = s.parts) ∧
    (s.rb rSecKeyStat 31 = false → s.enabled p = true →
      (op = 1 → ∃ t, exec (.loadAsset v) s = .next t ∧ result t 0 ∧
        (t.parts[p]).ak[keySlot v] = some (BitVec.ofNat 256 (s.keyIn 8)) ∧ ∀ k : Fin 2, k ≠ keySlot v → (t.parts[p]).ak[k] = x.ak[k]) ∧
      (op = 2 → ∃ t, exec (.withdrawAsset v) s = .next t ∧ result t 0 ∧ (t.parts[p]).ak[keySlot v] = none ∧
        ∀ k : Fin 2, k ≠ keySlot v → (t.parts[p]).ak[k] = x.ak[k]) ∧
      (op = 3 → ((s.reg rSecKeyEpoch).toNat, keyCheck key) ∉ s.committed p →
        ∃ t, exec (.restorePark v) s = .next t ∧ result t 2 ∧ t.parts = s.parts) ∧
      (op = 3 → ((s.reg rSecKeyEpoch).toNat, keyCheck key) ∈ s.committed p → held x.slotA = false → held x.slotB = false →
        (x.slotA.isSome = true → x.slotB.isSome = true → ∃ t, exec (.restorePark v) s = .next t ∧ result t 3 ∧ t.parts = s.parts) ∧
        (x.slotA = none ∨ x.slotB = none →
          ∃ t, exec (.restorePark v) s = .next t ∧ result t 0 ∧ t.epochHeld p (s.reg rSecKeyEpoch) = true ∧
            (∀ l ∈ t.lockets, l.part = p → l.epoch = s.reg rSecKeyEpoch → l.waiting = false) ∧
            ((t.parts[p]).slotA = some (KeySlot.of (s.reg rSecKeyEpoch) key) ∨ (t.parts[p]).slotB = some (KeySlot.of (s.reg rSecKeyEpoch) key)))) ∧
      (op = 4 → x.slotA.isSome = true → x.slotB.isSome = true →
        ∃ t, exec (.rotatePark v) s = .next t ∧ result t 3 ∧ t.parts = s.parts) ∧
      (op = 4 → x.slotA = none → x.slotB = none → s.onlineOf p = [] →
        ∃ t, exec (.rotatePark v) s = .next t ∧ result t 4 ∧ t.parts = s.parts) ∧
      (op = 4 → x.slotA = none → x.slotB = none → s.onlineOf p ≠ [] → s.topEpoch p + 1 < 2 ^ 32 →
        let e := s.topEpoch p + 1
        x.selNow = none →
        ∃ t, exec (.rotatePark v) s = .next t ∧ t.rb rSecKeyStat 31 = true ∧ zero t ∧
          (t.parts[p]).slotA = some (KeySlot.of (BitVec.ofNat 32 e) key) ∧ (t.parts[p]).slotB = none ∧
          (t.parts[p]).rotating = some (BitVec.ofNat 32 e) ∧ (t.parts[p]).selNow = none ∧
          ∀ c ∈ s.onlineOf p, ∃ r ∈ (t.chans[c]).jbuf, r.typ = 6 ∧ r.part = p ∧ r.id = BitVec.ofNat 64 (2 ^ 62 + e) ∧ r.loc = keyCheck key) ∧
      (∀ k, op = 4 → x.selNow = some false → x.slotA = some k → k.crcOk = true → x.slotB = none → s.onlineOf p ≠ [] →
        let e := max k.epoch.toNat (s.topEpoch p) + 1
        ∃ t, exec (.rotatePark v) s = .next t ∧ t.rb rSecKeyStat 31 = true ∧ zero t ∧ (t.parts[p]).slotA = some k ∧
          (t.parts[p]).slotB = some (KeySlot.of (BitVec.ofNat 32 e) key) ∧ (t.parts[p]).rotating = some (BitVec.ofNat 32 e) ∧
          (t.parts[p]).selNow = some false ∧
          ∀ c ∈ s.onlineOf p, ∃ r ∈ (t.chans[c]).jbuf, r.typ = 6 ∧ r.part = p ∧ r.id = BitVec.ofNat 64 (2 ^ 62 + e) ∧ r.loc = keyCheck key)) ∧
    (op = 0 ∨ 4 < op → s.rb rSecKeyStat 31 = false → ∃ t, exec (.badKeyCommand v) s = .next t ∧ result t 5 ∧ t.parts = s.parts) ∧
    (∀ q : Part, (s.parts[q]).oldSlot = none → Does (.rekeyRewrite q) s s) ∧
    (∀ (q : Part) (old cur : KeySlot), (s.parts[q]).oldSlot = some old → (s.parts[q]).curSlot = some cur →
      let rate := s.rf (rSecPrtRekey q) 0 16
      (rate = 0 → s.epochCount q old.epoch ≠ 0 → Does (.rekeyRewrite q) s s) ∧
      (s.epochCount q old.epoch = 0 → s.clearPending q old.epoch = false →
        ∃ t, exec (.rekeyRewrite q) s = .next t ∧ t.lockets = s.lockets ∧ ∀ c ∈ s.onlineOf q, ∃ r ∈ (t.chans[c]).jbuf, r.typ = 6 ∧
          r.part = q ∧ r.id = BitVec.ofNat 64 (2 ^ 63 + old.epoch.toNat)) ∧
      (s.epochCount q old.epoch ≠ 0 → s.time < (s.parts[q]).rekeyAt + (100000000 + rate - 1) / rate → Does (.rekeyRewrite q) s s) ∧
      (∀ l addrs s2, rate ≠ 0 → (s.parts[q]).rekeyAt + (100000000 + rate - 1) / rate ≤ s.time →
        s.lockets.find? (fun l => l.part == q && s.canRekey l old.epoch) = some l → l.isWarm = true →
        ((∀ a ∈ l.warm, s.warmReadable l a = false) →
          ∃ t k, exec (.rekeyRewrite q) s = .next t ∧ (t.parts[q]).rekeyAt = s.time ∧ t.locket? q l.session = some k ∧ k.lost = true) ∧
        ((∃ a ∈ l.warm, s.warmReadable l a = true) → (parseBody l.body).isSome = true →
        let img := sealBody cur l.pinned l.id l.gen l.session l.part l.pages l.body
        s.warmPlaces img.length l.warm.length [] = some (addrs, s2) →
        ∃ t, exec (.rekeyRewrite q) s = .next t ∧ (t.parts[q]).rekeyAt = s.time ∧ ∃ k ∈ t.lockets, k.part = q ∧ k.session = l.session ∧
          k.id = l.id ∧ k.epoch = cur.epoch ∧ k.body = l.body ∧ k.image = img ∧ k.warm = addrs ∧ addrs.length = l.warm.length)))

/-! ### Moves and the park media -/

/-- O53. Moves to the cold park and the media operations behind them (R452, R476, R480, R483, R487, R491, R492): under pressure, or by age, a
warm locket is cut into sectors of an open stripe and moves; a stripe page that is full or 200 µs old goes to its die, a page that has
programmed stands in the flash, one that failed retires its block; a journal page in the same way goes to two places, where there are two, and
makes its records durable, and the PUT of the last copy ends the move; a read that need not wait climbs the ladder while codewords fail; an erase frees its block. Which die a copy lands on is a free value
(DESIGN CHOICE, log entry 2). -/
def Obligations.MovesAndFlash : Prop :=
  ∀ (s : State), s.canon → s.running = true →
    (∀ (p : Part),
      let q := s.rf (rPrtParkWarm p) 0 21
      let stop : State → Bool := fun t => (t.warmBytes p - t.movingBytes p + 65535) / 65536 * 100 ≤ q * s.cycleStart.moveLo p
      let o := s.cycleStart
      (s.warmUsed p * 100 < q * o.moveHi p → s.parkWaits p = false → Does (.warmMovePressure p) s s) ∧
      (∀ l cold s1, q * o.moveHi p ≤ s.warmUsed p * 100 → s.movable p = [l] → stop s = false → s.placeLocket l = some (cold, s1) →
        Does (.warmMovePressure p) s (s1.locketUpd l.part l.session (fun x => { x with moving := true, cold := cold }))) ∧
      (o.rf (rPrtParkCfg p) 16 12 = 0 → Does (.warmMoveAge p) s s) ∧
      (∀ l cold s1, o.rf (rPrtParkCfg p) 16 12 ≠ 0 →
        (s.movable p).filter (fun l => l.parkedAt + o.rf (rPrtParkCfg p) 16 12 * 100000000 ≤ s.time) = [l] →
        s.placeLocket l = some (cold, s1) →
        Does (.warmMoveAge p) s (s1.locketUpd l.part l.session (fun x => { x with moving := true, cold := cold })))) ∧
    (∀ (c : Chan),
      let x := s.chans[c]
      let due : Stripe → Bool := fun t => match t.buf with | [] => false | a :: _ => t.cap ≤ t.buf.length || a.came + 20000 ≤ s.mtime
      let full : Prop := match x.jbuf with | [] => False | a :: _ => 512 ≤ x.jbuf.length ∨ a.came + 20000 ≤ s.mtime
      (s.quiet 0x48 = true ∨ x.stripes.find? due = none → Does (.stripeProgram c) s s) ∧
      (∀ t, s.quiet 0x48 = false → x.stripes.find? due = some t →
        ∃ u, exec (.stripeProgram c) s = .next u ∧
          ((u.chans[c]).dies[t.die]).jobs = (x.dies[t.die]).jobs ++ [.program t.block t.planes t.page (t.buf.take t.cap)] ∧
          (u.chans[c]).journal = x.journal ∧ u.lockets = s.lockets ∧ u.mem = s.mem) ∧
      (∀ bad, x.online = false ∨ s.quiet 0x48 = true ∨ ¬ full → Does (.journalPageProgram ⟨c, bad⟩) s s) ∧
      ((x.jPlaces []).2 = none → ∃ u, exec (.journalPageProgram ⟨c, []⟩) s = .next u ∧ (u.chans[c]).journal = x.journal ∧
        (u.chans[c]).jpages = x.jpages ∧ x.jbuf <+: (u.chans[c]).jbuf) ∧
      (x.online = true → s.quiet 0x48 = false → full → (x.jPlaces []).2.isSome = true →
        ∃ u, exec (.journalPageProgram ⟨c, []⟩) s = .next u ∧ (u.chans[c]).jpages.length = x.jpages.length + 1 ∧ (u.chans[c]).journal = x.journal ++ x.jbuf.take 512 ∧
          x.jbuf.drop 512 <+: (u.chans[c]).jbuf ∧
          ∀ r l k, x.jbuf = [r] → r.typ = 1 → s.lockets.find? (fun l => l.part == r.part && l.id == r.id) = some l → l.cold = [k] →
            k.copy = r.copy → k.loc = r.loc → k.durable = false → l.pinned = false → l.moving = true → l.rekey = none →
            (∃ n ∈ u.lockets, n.part = l.part ∧ n.session = l.session ∧ n.id = l.id ∧ n.moving = false ∧ n.warm = [] ∧
              n.cold = [{ k with durable := true, moved := false, repair := false }]) ∧
            ∀ y ∈ u.ctxs, y.part = l.part → y.st = .past → eOp y.entry = opPARK → eSession y.entry = l.session → y.status.isSome = true)) ∧
    (∀ (c : Chan) (d : Fin 8),
      let die := (s.chans[c]).dies[d]
      (∀ block planes page sects r, die.jobs = .program block planes page sects :: r →
        (∃ u, exec (.flashProgramDone c d none) s = .next u ∧ ((u.chans[c]).dies[d]).jobs = r ∧
          (u.chans[c]).pseq = (s.chans[c]).pseq + 1 ∧
          (∀ i < planes.length, ∃ g ∈ ((u.chans[c]).dies[d]).pages, g.block = block ∧ g.page = page ∧ g.plane = planes.getD i 0 ∧
            g.at_ = s.mtime ∧ g.words.length = 4)) ∧
        (∀ pl : Fin 4, (∃ b ∈ die.blocks, b.num = block ∧ b.plane = pl.val ∧ b.st ≠ .retired) →
          ∃ u, exec (.flashProgramDone c d (some pl)) s = .next u ∧
            ∀ b ∈ ((u.chans[c]).dies[d]).blocks, b.num = block → b.plane = pl.val → b.st = .retired)) ∧
      (∀ num plane r b, die.jobs = .erase num plane :: r → die.blocks.find? (fun b => b.num == num && b.plane == plane) = some b →
        b.st = .data → s.profile.ratedPe = 0 ∨ b.pe + 1 < s.profile.ratedPe →
        (∀ b' ∈ die.blocks, b'.num = num → b'.plane = plane → b' = b) →
        ∃ u, exec (.flashEraseDone c d true) s = .next u ∧ ((u.chans[c]).dies[d]).jobs = r ∧
          (∀ g ∈ ((u.chans[c]).dies[d]).pages, ¬ (g.block = num ∧ g.plane = plane)) ∧
          { b with pe := b.pe + 1, st := .free, badScrubs := 0 } ∈ ((u.chans[c]).dies[d]).blocks) ∧
      (∀ p sid k rung left lv r, die.jobs = .read p sid k rung left lv :: r → s.readWaits die = true → ∀ cws, Does (.flashReadDone c d cws) s s) ∧
      (∀ p sid k rung left lv r l, die.jobs = .read p sid k rung left lv :: r → s.readWaits die = false →
        s.lockets.find? (fun l => l.part == p && l.session == sid) = some l → left ≠ [] →
        (rung < 4 → ∃ u, exec (.flashReadDone c d (left.map (fun _ => ⟨none, 97, 0⟩))) s = .next u ∧
          ((u.chans[c]).dies[d]).jobs = r ++ [.read p sid k (rung + 1) left lv] ∧ u.lockets = s.lockets) ∧
        (4 ≤ rung → s.coldNext l (k.copy :: s.coldTried l) = none →
          ∃ u, exec (.flashReadDone c d (left.map (fun _ => ⟨none, 97, 0⟩))) s = .next u ∧
            ∀ y ∈ s.ctxs, y.part = p → y.reading = true → eSession y.entry = sid →
              ∃ z ∈ u.ctxs, z.id = y.id ∧ z.reading = false ∧ z.readOk = some none)) ∧
      (∀ p sid left lv r l k img, die.jobs = .read p sid k 0 left lv :: r → k.copy = 0 → s.readWaits die = false →
        s.lockets.find? (fun l => l.part == p && l.session == sid) = some l → s.coldImage l k = some img →
        (∀ i ∈ left, s.cwGood k (s.stripePlanes k) i = true) →
        ∃ u, exec (.flashReadDone c d (left.map (fun _ => ⟨some 0, 0, 0⟩))) s = .next u ∧ ((u.chans[c]).dies[d]).jobs = r ∧
          u.lockets = s.lockets ∧ ∀ y ∈ s.ctxs, y.part = p → y.reading = true → eSession y.entry = sid →
            ∃ z ∈ u.ctxs, z.id = y.id ∧ z.reading = false ∧ z.readOk = some (some 0)))

/-- O54. Upkeep of the media (R474, R475, R481, R484, R488 to R491, R493, R495, R496, R501, R504, R509, R634): a die that times out twice within
10 s is not used any more; calibration, every 100 ms, and tracker records, every 60 s, come from online channels; the scrub, collection and
levelling leave alone what needs no upkeep; the scrub moves on from the block it has read, collection erases a closed block with nothing
valid left, and static levelling writes the data of the closed block with the fewest erases into the free block with the most;
compaction keeps the live records; the index is rebuilt once; a rebuilt strand keeps its history, which in a pair the partner's tokens may
extend (what they are is free, DESIGN CHOICE, log entry 2), in a secondary once the primary has told the epochs; a channel comes online with the dies that answer, goes offline, and is
formatted with the key. -/
def Obligations.MediaUpkeep : Prop :=
  ∀ (s : State), s.canon → s.running = true →
    (∀ (c : Chan) (d : Fin 8),
      let x := s.chans[c]
      let die := x.dies[d]
      (die.usable = false ∨ die.jobs = [] → Does (.dieTimeout c d) s s) ∧
      (∀ j l, die.jobs = j :: l → s.mtime ≤ die.busyAt + s.busyLimit j → Does (.dieTimeout c d) s s) ∧
      (∀ j l, die.usable = true → die.jobs = j :: l → die.busyAt + s.busyLimit j < s.mtime →
        (die.timeoutAt = none ∨ ∃ a, die.timeoutAt = some a ∧ a + 1000000000 < s.mtime) →
        ∃ u, exec (.dieTimeout c d) s = .next u ∧ ((u.chans[c]).dies[d]).timeoutAt = some s.mtime ∧
          ((u.chans[c]).dies[d]).busyAt = s.mtime ∧ ((u.chans[c]).dies[d]).cmds.head? = some 0xFF ∧ ((u.chans[c]).dies[d]).usable = true ∧ ((u.chans[c]).dies[d]).jobs = die.jobs ∧ u.lockets = s.lockets) ∧
      (∀ a j l, die.usable = true → die.jobs = j :: l → die.busyAt + s.busyLimit j < s.mtime → die.timeoutAt = some a →
        s.mtime ≤ a + 1000000000 →
        ∃ u, exec (.dieTimeout c d) s = .next u ∧ ((u.chans[c]).dies[d]).usable = false ∧
          ∀ t ∈ (u.chans[c]).stripes, t.die ≠ d) ∧
      (x.online = true → x.zqAt + 10000000 ≤ s.mtime → Does (.zqCalibration c) s (s.chanUpd c (fun y => { y with
        zqAt := s.mtime, dies := y.dies.map (fun z => if z.usable then { z with cmds := [0xD9] } else z) }))) ∧
      (s.mtime < x.zqAt + 10000000 → Does (.zqCalibration c) s s) ∧ (s.mtime < x.trackAt + 6000000000 → Does (.trackerJournal c) s s) ∧
      (s.mtime < x.scrubAt + s.scrubGap c → ∀ cws, Does (.scrubBlock c cws) s s) ∧
      (x.online = false → Does (.zqCalibration c) s s ∧ Does (.trackerJournal c) s s ∧
        (∀ cws, Does (.scrubBlock c cws) s s) ∧ Does (.staticLevelling c d) s s ∧
        ∀ bad, Does (.journalCompaction ⟨c, bad⟩) s s) ∧
      (x.online = true → x.trackAt + 6000000000 ≤ s.mtime → x.usable = [d] →
        ∃ u, exec (.trackerJournal c) s = .next u ∧ (u.chans[c]).trackAt = s.mtime ∧ (u.chans[c]).jbuf = x.jbuf ++
          [{ typ := 0xA, id := BitVec.ofNat 64 d.val, loc := die.trackLoc, seq := x.jseq + 1, came := s.mtime }]) ∧
      (s.rf rPrkScrub 0 8 = 0 → ∀ cws, Does (.scrubBlock c cws) s s) ∧
      (∀ num plane, s.rf rPrkScrub 0 8 ≠ 0 → s.quiet 0x48 = false → x.online = true → x.scrubAt + s.scrubGap c ≤ s.mtime →
        s.scrubNext c = some (d, num, plane) →
        (die.jobs ≠ [] → ∀ cws, Does (.scrubBlock c cws) s s) ∧ (die.jobs = [] →
        ∃ u, exec (.scrubBlock c []) s = .next u ∧ (u.chans[c]).scrub = scrubKey d num plane + 1 ∧ (u.chans[c]).scrubAt = s.mtime)) ∧
      (die.count FlashBlock.isData * s.profile.opPct ≤ die.count (fun b => b.st == .free) * 200 →
        Does (.collection c d) s (s.dieUpd c d (fun z => { z with collecting := false }))) ∧
      (∀ n, die.count (fun b => b.st == .free) * 400 < die.count FlashBlock.isData * s.profile.opPct → s.quiet 0x48 = false →
        x.online = true → die.usable = true → x.closedNums d = [n] → s.validIn c d n = 0 →
        ∃ u, exec (.collection c d) s = .next u ∧ ((u.chans[c]).dies[d]).collecting = true ∧ ((u.chans[c]).dies[d]).jobs = die.jobs ++
          (die.blocks.filter (fun b => b.num == n && b.st == .data)).map (fun b => .erase n b.plane)) ∧
      (let pes := x.dies.toList.flatMap (fun y => (y.blocks.filter FlashBlock.isData).map (·.pe))
       let gap := max 1 (s.rf rPrkWear 0 16)
       ((∀ a ∈ pes, ∀ b ∈ pes, a ≤ b + gap) → Does (.staticLevelling c d) s s) ∧
       (x.erasing = true ∨ die.jobs ≠ [] → Does (.staticLevelling c d) s s) ∧
       (∀ b e f, (∀ p, s.chanOwner c = some p → (s.parts[p]).worn = false) → s.quiet 0x48 = false → x.online = true → die.usable = true →
        x.erasing = false → die.jobs = [] →
        (∀ a ∈ pes, b.pe ≤ a) → (∃ a ∈ pes, b.pe + gap < a) → b ∈ die.blocks → b.st = .data → b.num ∈ x.closedNums d →
        (∀ y ∈ die.blocks, y.st = .data → y.pe = b.pe → y.num ∈ x.closedNums d → y = b) →
        (x.dies[e]).usable = true → f ∈ (x.dies[e]).blocks → f.st = .free →
        (∀ g : Fin 8, (x.dies[g]).usable = true → ∀ y ∈ (x.dies[g]).blocks, y.st = .free → (g = e ∧ y = f) ∨ y.pe < f.pe) →
        ∃ t, exec (.staticLevelling c d) s = .next t ∧ (∀ y ∈ ((t.chans[c]).dies[e]).blocks, y.num = f.num → y.st ≠ .free) ∧
          t.mem = s.mem ∧ t.ctxs = s.ctxs ∧ (t.chans[c]).journal = x.journal ∧
          t.lockets.map (fun l => (l.part, l.session, l.warm)) = s.lockets.map (fun l => (l.part, l.session, l.warm)) ∧
          (s.copiesIn c d b.num = [] → t.lockets = s.lockets ∧ ∃ z ∈ (t.chans[c]).stripes, z.die = e ∧ z.reloc = true ∧ z.block = f.num) ∧
          (∀ l k, s.copiesIn c d b.num = [(l, k)] → k.durable = true → l.lost = false → l.rekey = none →
            (∀ y ∈ l.cold, y.copy = k.copy → y.durable = true) → (∀ y ∈ l.cold, y.copy ≠ k.copy → y.chan ≠ c ∨ y.die ≠ e) →
            l.image.length ≤ 16384 → (x.dies[e]).ppb ≠ 0 →
            ∃ y ∈ t.lockets, y.id = l.id ∧ ∃ n ∈ y.cold, n.chan = c ∧ n.die = e ∧ n.block = f.num ∧ n.copy = k.copy ∧ n.moved = true ∧
              n.durable = false))) ∧
      (x.online = true → 2 * (liveRecords x.journal).length < x.journal.length →
        ∀ bad, ∃ u, exec (.journalCompaction ⟨c, bad⟩) s = .next u ∧ (u.chans[c]).journal = liveRecords x.journal) ∧
      (x.journal.length ≤ 2 * (liveRecords x.journal).length → (x.jPlaces []).2.isSome = true → Does (.journalCompaction ⟨c, []⟩) s s)) ∧
    (s.indexOk = true → Does .indexRebuild s s) ∧
    (s.indexOk = false → ∃ u, exec .indexRebuild s = .next u ∧ u.indexOk = true ∧ u.strands = s.strands ∧ u.ctxs = s.ctxs) ∧
    (s.indexOk = false → (∀ c : Chan, s.chanOwner c = none) → (∀ l ∈ s.lockets, l.cold = []) → Does .indexRebuild s { s with indexOk := true }) ∧
    (∀ (p : Part),
      ((s.parts[p]).recover ≠ 1 → Does (.recoveryRebuild p) s s) ∧
      let late := s.role = 2 ∧ (s.pair.given.filter (fun d => d.kind == 4 && d.part == p)).length < (s.strands.filter (fun t => t.part == p)).length
      (late → Does (.recoveryRebuild p) s s) ∧
      ((s.parts[p]).recover = 1 → ¬ late →
        ∃ u, exec (.recoveryRebuild p) s = .next u ∧ (u.parts[p]).recover = (if s.keysHeld p then 0 else 2) ∧
          (s.paired = false → ∀ t ∈ u.strands, t.part = p → t.ra = none ∧ t.raDue = false ∧ t.sparePages = []) ∧
          u.strands.map (fun t => (t.part, t.session)) = s.strands.map (fun t => (t.part, t.session)) ∧
          ((s.strands.map (fun t => (t.part, t.session))).Nodup → ∀ t ∈ s.strands, t.part = p →
            ∃ w ∈ u.strands, w.part = p ∧ w.session = t.session ∧ t.hist <+: w.hist))) ∧
    (∀ (c : Chan) (v : Word) (dies : List (Option DieInfo)),
      let sent := Sent s (rPrkChCtrl c) v
      (bit v 1 = false → Does (.channelOnline c v dies) s sent) ∧
      (bit v 1 = true → ∃ u, exec (.channelOnline c v dies) s = .next u ∧ u.rb (rPrkChCtrl c) 1 = true ∧ (u.chans[c]).wantOn = true ∧
        (u.chans[c]).zqAt = s.mtime ∧ (∀ d : Fin 8, ((u.chans[c]).dies[d]).info = dies.getD d none) ∧
        ((u.chans[c]).online = true → ∃ d : Fin 8, ((u.chans[c]).dies[d]).usable = true) ∧
        ∀ d : Fin 8, ((u.chans[c]).dies[d]).usable = true → ∃ i, dies.getD d none = some i ∧ dieFits i = true) ∧
      (bit v 1 = true → Does (.channelOffline c v) s sent) ∧
      (bit v 1 = false → ∃ u, exec (.channelOffline c v) s = .next u ∧ u.rb (rPrkChCtrl c) 1 = false ∧ (u.chans[c]).online = false ∧
        (u.chans[c]).wantOn = false ∧ ∀ d : Fin 8, ((u.chans[c]).dies[d]).usable = ((s.chans[c]).dies[d]).usable) ∧
      (fld v 24 8 ≠ 0xA5 ∨ bit v 0 = false ∨ (s.chanOwner c).isSome = true ∨ (s.chans[c]).online = false →
        Does (.channelFormat c v) s sent) ∧
      (fld v 24 8 = 0xA5 → bit v 0 = true → s.chanOwner c = none → (s.chans[c]).online = true →
        ∃ u, exec (.channelFormat c v) s = .next u ∧ (u.chans[c]).formatted = true ∧ (u.chans[c]).worn = false ∧
          (u.chans[c]).owner = none ∧ (u.chans[c]).jbuf = [] ∧ ((u.chans[c]).online = true → (u.chans[c]).stripes = [] ∧ u.lockets = s.lockets ∧ u.mem = s.mem)))

/-! ### Boot, unit resets, power -/

/-- O55. BOOT_SEQUENCE, BOOT_RESUME and PAIRING_TIMEOUT (R546 to R562, R569, R582): the strap's conversions decide the code, code 0xF, a bad boot
header and settings that cannot be read end in FAIL, as does a slot choice that finds no slot; incompatible settings mark the slot and reset
the instance; a boot that goes well from PWR_ON ends with DONE and the slot's tries cleared, or in boot-halt, from which BOOT_RESUME goes on;
pairing that finds no partner ends with PAIR 3. The going-on clauses are stated after PWR_ON and for configurations without REG_INIT
records and critical keys: which critical keys firmware knows is a free value (DESIGN CHOICE, log entry 2). -/
def Obligations.BootOfTheInstance : Prop :=
  ∀ (s : State) (strap : List (BitVec 4)) (marginal : List (Fin 256)) (tempC : BitVec 8) (media : List (List (Option DieInfo))), s.canon →
    let cmd := Instr.bootSequence strap marginal tempC media
    let vote := strapVote (strap.take 8)
    let a := (if s.rf rRstCause 28 4 ≤ 2 then s.convertStrap strap else s).enumAfter
    let u := ((((a.setRf rCfgBootStat 0 4 (a.rf rCfgStrap 0 4)).bootUpd (fun b => { b with media := media })).readFuses marginal tempC).setRb
      rPwrDomSysStat 7 true)
    let fails : State → Nat → Prop := fun t k => t.rb rCfgBootStat 29 = true ∧ t.boot.phase = .failed ∧ t.bootRec.result = k ∧
      t.rf rCfgBootStat 16 8 = k
    let idle := s.boot.phase = .held ∧ s.rb rGlbPairStat 29 = false
    (¬ idle → exec cmd s = .next s) ∧
    (idle → s.rf rRstCause 28 4 ≤ 2 → vote.1 = 0xF → 6 ≤ vote.2 →
      ∃ t, exec cmd s = .next t ∧ fails t 0x09 ∧ t.rf rCfgStrap 0 4 = 0xF ∧ t.rf rCfgStrap 24 4 = vote.2 ∧
        t.rb rCfgStrap 31 = decide (vote.2 < 8)) ∧
    (idle → s.rf rRstCause 28 4 ≤ 2 → vote.2 < 6 → s.headerOk = false →
      ∃ t, exec cmd s = .next t ∧ fails t 0x01 ∧ t.rf rCfgStrap 0 4 = 0 ∧ t.rb rCfgStrap 31 = true) ∧
    (idle → u.rf rCfgStrap 0 4 ≠ 0xF → s.headerOk = true → s.settings = none → ∃ t, exec cmd s = .next t ∧ fails t 0x0A) ∧
    (∀ (set : CfgBlock) (copy : Option Nat), idle → u.rf rCfgStrap 0 4 ≠ 0xF → s.headerOk = true → s.settings = some (set, copy) →
      let seq := if copy.isSome then set.seq else 0
      let rec_ := s.bootRec.checked
      let mark := rec_.incValid && rec_.incSeq == seq && rec_.incCrc == s.baseBlock.crc
      let ch := u.chooseSlot u.strapSlot (set.bits.testBit 0) mark
      let h := slotBase ch.slot
      let blocks := s.baseBlock :: u.applied.map s.overlay
      let recs := composed (blocks ++ [set])
      let known := ∀ k ∈ set :: blocks, ∀ r ∈ k.recs, r.key < 0x8000
      let fits : CfgBlock → Nat → Prop := fun k o => s.flLE (h + o) 1 ≤ k.fmt ∧ k.fmt ≤ s.flLE (h + o + 1) 1
      (∀ k, ch.fail = some k → k < 256 → ∃ t, exec cmd s = .next t ∧ fails t k ∧ t.rb rCfgBootStat 28 = ch.slot) ∧
      (ch.fail = none → s.baseBlock.valid = false → ∃ t, exec cmd s = .next t ∧ fails t 0x0A) ∧
      (ch.fail = none → s.baseBlock.valid = true → known → ¬ fits set 14 → (mark = false ∨ ch.rec_.incSlot = ch.slot) →
        ∃ t, exec cmd s = .next t ∧ t.boot.phase = .held ∧ t.rf rRstCause 28 4 = 5 ∧ t.bootRec.incValid = true ∧
          t.bootRec.incSlot = ch.slot ∧ t.bootRec.result = 0x05 ∧ t.capture.source = 5 ∧ (s.ctxs = [] → t.mem = s.mem)) ∧
      (s.rf rRstCause 28 4 = 1 → ch.fail = none → s.baseBlock.valid = true → known → fits set 14 → (∀ k ∈ blocks, fits k 16) →
        u.strapHalt = false → u.strapRole = 0 → regInits recs = [] →
        ∃ t, exec cmd s = .next t ∧ t.boot.phase = .done ∧ t.rb rCfgBootStat 31 = true ∧ t.rb rCfgBootStat 28 = ch.slot ∧
          t.bootRec.tries ch.slot = 0 ∧ t.rf rCfgFwSvn 0 16 = s.slotSvn ch.slot ∧ t.reg rCfgFwVer = BitVec.ofNat 32 (s.flLE (h + 20) 4) ∧
          t.reg64 rPwrDomStat = t.reg64 rGlbCluMap &&& ~~~(s.reg64 rPwrDomOff)) ∧
      (ch.fail = none → s.baseBlock.valid = true → known → fits set 14 → (∀ k ∈ blocks, fits k 16) → u.strapHalt = true →
        ∃ t, exec cmd s = .next t ∧ t.boot.phase = .halted ∧ t.rb rCfgBootStat 30 = true ∧ t.boot.init = regInits recs ∧
          t.profile = s.profile)) ∧
    (s.boot.phase ≠ .halted → exec .bootResume s = .next s) ∧
    (s.boot.phase = .halted → s.boot.init = [] → s.rf rRstCause 28 4 = 1 →
      (s.strapRole = 0 → ∃ t, exec .bootResume s = .next t ∧ t.boot.phase = .done ∧ t.rb rCfgBootStat 31 = true ∧ t.rb rCfgBootStat 30 = false ∧
        t.profile = s.boot.prof) ∧
      (s.strapRole ≠ 0 → ∃ t, exec .bootResume s = .next t ∧ t.boot.phase = .pairing ∧ t.boot.pairAt = s.time ∧ t.rb rCfgBootStat 30 = false)) ∧
    (s.boot.phase ≠ .pairing ∨ s.time < s.boot.pairAt + 100000000 → exec .pairingTimeout s = .next s) ∧
    (s.boot.phase = .pairing → s.boot.pairAt + 100000000 ≤ s.time →
      ∃ t, exec .pairingTimeout s = .next t ∧ t.boot.phase = .done ∧ t.rb rCfgBootStat 31 = true ∧ t.rf rCfgBootStat 24 2 = 3)

/-- O56. Unit resets and power domains (R579, R590, R591, R594, R596 to R598, R601 to R605): a request waits until its unit is idle or its quiesce
has timed out, then the unit is at its Reset values and ops with work in it end with RESET_ABORT; the fabric interface waits at most TMO for
its responses, and requests that were under way there are dropped; the sections placed in a VGS quad leave it at the request; the control complex resets the instance; a domain goes off when it may, losing its content, and wakes when asked, for a cluster once its group's voltage stands. -/
def Obligations.UnitsAndDomains : Prop :=
  ∀ (s : State), s.canon → s.running = true →
    let asked : Nat → State := fun u => { s.setRb (unitBit u).1 (unitBit u).2 true with units := s.units ++ [(u, s.time)] }
    let done : State → Nat → Prop := fun t u => t.rb (unitBit u).1 (unitBit u).2 = false ∧ t.quiet u = false ∧ t.rb rRstUnitStat 30 = true ∧
      t.rf rRstUnitStat 0 8 = u ∧ t.rb rRstCause 6 = true
    (∀ c : Clu, (s.quiet c.val = true ∨ s.cluOn c = false → Does (.unitResetCluster c) s s) ∧
      (s.quiet c.val = false → s.cluOn c = true → Does (.unitResetCluster c) s (asked c.val))) ∧
    (∀ q : Fin 4, (s.quiet (0x40 + q.val) = true ∨ s.rb rPwrDomSysStat q.val = false → Does (.unitResetVgs q) s s) ∧
      (s.quiet (0x40 + q.val) = false → s.rb rPwrDomSysStat q.val = true →
        ∃ t, exec (.unitResetVgs q) s = .next t ∧ t.units = s.units ++ [(0x40 + q.val, s.time)] ∧
          t.rb (unitBit (0x40 + q.val)).1 (unitBit (0x40 + q.val)).2 = true ∧ (∀ v ∈ t.objs, ∀ x ∈ v.placed, x.2.1 / 8 ≠ q.val) ∧
          t.objs.length = s.objs.length ∧ t.ctxs = s.ctxs ∧ t.mem = s.mem)) ∧
    (s.quiet 0x48 = false → Does .unitResetPrk s (asked 0x48)) ∧ (s.quiet 0x48 = true → Does .unitResetPrk s s) ∧
    (s.quiet 0x49 = false → Does .unitResetCrypto s (asked 0x49)) ∧ (s.quiet 0x49 = true → Does .unitResetCrypto s s) ∧
    (s.quiet 0x4A = false → Does .unitResetFab s (asked 0x4A)) ∧ (s.quiet 0x4A = true → Does .unitResetFab s s) ∧
    (∃ t, exec .unitResetCtrl s = .next t ∧ t.boot.phase = .held ∧ t.rf rRstCause 28 4 = 5 ∧ t.rb rRstCause 4 = true ∧ t.rb rRstCause 6 = true ∧
      t.rb rRstUnitStat 30 = true ∧ t.rf rRstUnitStat 0 8 = 0x4B ∧ t.ctxs = [] ∧ (s.ctxs = [] → t.mem = s.mem) ∧ t.rb rCfgBootStat 31 = false) ∧
    (∀ u : BitVec 8, s.quiet u.toNat = false → Does (.unitResetTakeEffect u) s s) ∧
    (∀ (c : Clu) (at_ : Nat), s.units.find? (fun x => x.1 == c.val) = some (c.val, at_) →
      (s.time < at_ + s.rf rRstCfg 0 16 * 100 → (∃ x ∈ s.ctxs, x.st = .ready ∧ s.usesCluster x c = true) →
        Does (.unitResetTakeEffect (BitVec.ofNat 8 c.val)) s s) ∧
      ((∀ x ∈ s.ctxs, x.st = .ready → s.usesCluster x c = false ∧ s.mayUseCluster x c = false) →
        ∃ t, exec (.unitResetTakeEffect (BitVec.ofNat 8 c.val)) s = .next t ∧ done t c.val ∧
          (t.scratch[c]).tags = [] ∧ (t.scratch[c]).poison = [] ∧ (∀ n ∈ t.threads, n.1.clu ≠ c) ∧
          (∀ w ∈ t.strands, w.home = c → w.ra = none) ∧ t.ctxs = s.ctxs ∧ t.mem = s.mem)) ∧
    (∀ (x : OpCtx) (at_ : Nat), s.units.find? (fun x => x.1 == 0x48) = some (0x48, at_) → at_ + s.rf rRstCfg 0 16 * 100 ≤ s.time →
      s.rf rRstCfg 0 16 ≠ 0 → s.ctx? x.id = some x → x.st = .ready → x.reading = true → eOp x.entry = opREVIVE →
      (∀ y ∈ s.ctxs, y.st = .ready → y.reading = true → y = x) →
      ∃ t y, exec (.unitResetTakeEffect 0x48#8) s = .next t ∧ done t 0x48 ∧ t.ctx? x.id = some y ∧ y.st = .past ∧
        y.status = some stResetAbort ∧ t.rb rRstUnitStat 31 = true ∧
        (t.reg rRstTmoCnt).toNat = min ((s.reg rRstTmoCnt).toNat + 1) 0xFFFFFFFF) ∧
    (∀ (at_ : Nat), s.units.find? (fun x => x.1 == 0x49) = some (0x49, at_) → (∀ x ∈ s.ctxs, x.st ≠ .ready) →
      ∃ t, exec (.unitResetTakeEffect 0x49#8) s = .next t ∧ done t 0x49 ∧ t.ctxs = s.ctxs ∧ t.parts = s.parts ∧ t.mem = s.mem ∧
        (∀ k < 16, t.reg (rSecKeyIn k) = 0#32) ∧ t.reg rSecKeyEpoch = 0#32 ∧ t.rf rSecKeyStat 16 8 = 0) ∧
    (∀ (at_ : Nat), s.units.find? (fun x => x.1 == 0x4A) = some (0x4A, at_) →
      at_ + max 10 (s.rf rGlbFabCfg 0 16) * 100 ≤ s.time ∨ (∀ x ∈ s.ctxs, x.st ≠ .ready) →
      ∃ t, exec (.unitResetTakeEffect 0x4A#8) s = .next t ∧ done t 0x4A ∧ (∀ q : FabReq, q.at_ ≤ s.time → t.fabDropped q = true) ∧
        t.fabLate = [] ∧ t.reg rGlbFabSidInst = s.reg rGlbFabSidInst) ∧
    (∀ d : Fin 73,
      (offBit d = none → Does (.domainOffRequest d) s s ∧ Does (.domainWake d) s s) ∧
      (∀ o i, offBit d = some (o, i) →
        ((s.time, true, d) ∈ s.domLog →
          Does (.domainOffRequest d) s ((((s.forwardDom d true).noteDom false d).setRb o i false).setRb rPwrStat 27 true)) ∧
        ((s.time, true, d) ∉ s.domLog → s.mayOff d = false → s.domExists d = true →
          Does (.domainOffRequest d) s ((((s.forwardDom d true).noteDom false d).setRb o i true).setRb rPwrStat 27 true)) ∧
        ((s.time, true, d) ∉ s.domLog → s.mayOff d = true → s.domOn d = true → s.domBusy d = true →
          ∃ t, exec (.domainOffRequest d) s = .next t ∧ t.domOn d = true ∧ t.rb o i = true ∧ d ∈ t.sleeping ∧ t.threads = s.threads ∧ t.mem = s.mem) ∧
        ((s.time, true, d) ∉ s.domLog → s.mayOff d = true → s.domOn d = true → s.domBusy d = false →
          ∃ t, exec (.domainOffRequest d) s = .next t ∧ t.domOn d = false ∧ t.rb o i = true ∧ d ∉ t.waking ∧ t.mem = s.mem ∧
            ∀ c : Clu, c.val = d.val → (t.scratch[c]).tags = [] ∧ ∀ n ∈ t.threads, n.1.clu ≠ c) ∧
        (s.domOn d = true ∨ d ∈ s.waking → Does (.domainWake d) s { (s.forwardDom d false).setRb o i false with
          sleeping := s.sleeping.filter (· != d) }) ∧
        (s.domOn d = false → s.domExists d = true → d ∉ s.waking →
          ∃ t, exec (.domainWake d) s = .next t ∧ t.rb o i = false ∧ d ∈ t.waking ∧ t.domOn d = false)) ∧
      (d ∉ s.waking → Does (.domainWakeDone d) s s) ∧
      (d ∈ s.waking → 64 ≤ d.val → ∃ t, exec (.domainWakeDone d) s = .next t ∧ t.domOn d = true ∧ d ∉ t.waking)) ∧
    (∀ (c : Clu) (d : Fin 73), d.val = c.val → d ∈ s.waking →
      (s.voltReady (cluGrp c) = false → Does (.domainWakeDone d) s s) ∧
      (s.voltReady (cluGrp c) = true → ∃ t, exec (.domainWakeDone d) s = .next t ∧ t.cluOn c = true ∧ d ∉ t.waking ∧
        (t.scratch[c]).tags = [] ∧ (t.scratch[c]).poison = []))

/-- O57. Operating points, voltage handshakes, the power cap, the thermal trip and the fuses (R571, R573 to R575, R606 to R608, R610, R618,
R650, R654): the interval, the tick and the samples come once their time has passed and else do nothing; an interval, under the bounds that
its cycle began with, notes S and MISSED, lowers a point by one at most and requests the voltage of the next point for a group that is late; an
acknowledgement lets the point rise; the cap tick keeps the last ten estimates and, in a thermal trip, puts every limit at 0; a re-read of
the fuses only ever restricts; ADVANCE blows one counter bit after the other up to its target. The power estimate and the utilisation are free
values (DESIGN CHOICE, log entry 2). -/
def Obligations.PowerAndFuses : Prop :=
  ∀ (s : State), s.canon → s.running = true →
    let due : Nat → Nat → Prop := fun k n => assocGet 0 s.lastAt k + n ≤ s.time
    let came : State → Nat → Prop := fun t k => assocGet 0 t.lastAt k = s.time
    let o := s.cycleStart
    let interval := max 100 (o.rf rPwrGovCfg 0 12) * 100
    (¬ due 1 interval → Does .governorInterval s s) ∧ (¬ due 0 1000 → Does .capTick s s) ∧
    (¬ due 2 10000 → ∀ c, Does (.thermalSample c) s s) ∧ (¬ due 3 1000000 → ∀ c m, Does (.fuseTempSample c m) s s) ∧
    (due 1 interval → ∃ t, exec .governorInterval s = .next t ∧ came t 1 ∧ ∀ g : Grp, s.grpOn g = true →
      t.rb (rPwrGrpStat g) 28 = (s.grp[g]).missed ∧ t.rf (rPwrGrpStat g) 0 12 = min 4095 ((s.grp[g]).slack.getD 4095) ∧
      (t.grpPoint g = s.grpPoint g ∨ t.grpPoint g + 1 = s.grpPoint g) ∧
      ((s.grp[g]).missed = true ∨ (∃ n, (s.grp[g]).slack = some n ∧ n < s.rf rPwrGovSlack 0 12) →
        s.grpPoint g < o.grpHi g → o.grpPin g = false → (s.vseg[segOf g]).rest = true →
        (t.vseg[segOf g]).req = true ∧ (t.vseg[segOf g]).code = s.pointCode g (s.grpPoint g + 1) ∧
          (t.vseg[segOf g]).want = some (s.grpPoint g + 1) ∧ t.grpPoint g = s.grpPoint g)) ∧
    (due 0 1000 → ∃ t, exec .capTick s = .next t ∧ came t 0 ∧ (∃ e < 65536, t.ests = (e :: s.ests).take 10) ∧
      t.rf rPwrStat 0 16 = t.ests.sum / t.ests.length % 2 ^ 16 ∧
      (s.rb rGlbTemp 31 = true → t.rf rPwrStat 28 2 = 3 ∧ ∀ g : Grp, t.capLimit g = 0 ∧ (s.grpOn g = true → t.grpPoint g = 0))) ∧
    (∀ g : Fin 17,
      ((s.vseg[g]).req = false ∨ (s.vseg[g]).ack = true → Does (.vsegAck g) s s ∧ Does (.vsegAckTimeout g) s s) ∧
      ((s.vseg[g]).req = true → (s.vseg[g]).ack = false →
        (∃ t, exec (.vsegAck g) s = .next t ∧ (t.vseg[g]).req = false ∧ (t.vseg[g]).ack = true ∧ (t.vseg[g]).held = (s.vseg[g]).code) ∧
        (s.time < (s.vseg[g]).reqAt + 10000 → Does (.vsegAckTimeout g) s s) ∧
        ((s.vseg[g]).reqAt + 10000 ≤ s.time → ∃ t, exec (.vsegAckTimeout g) s = .next t ∧ (t.vseg[g]).req = false ∧
          (t.vseg[g]).code = (s.vseg[g]).held)) ∧
      ((s.vseg[g]).ack = false → Does (.vsegAckLowered g) s s) ∧
      ((s.vseg[g]).ack = true → ∃ t, exec (.vsegAckLowered g) s = .next t ∧ (t.vseg[g]).ack = false)) ∧
    (∀ (g : Grp) (i : Nat), (s.vseg[segOf g]).req = true → (s.vseg[segOf g]).ack = false → (s.vseg[segOf g]).want = some i →
      s.grpOn g = true → i ≤ s.grpHi g → i = s.grpPoint g + 1 →
      ∃ t, exec (.vsegAck (segOf g)) s = .next t ∧ t.grpPoint g = i ∧ (t.vseg[segOf g]).want = none ∧
        t.rf (rPwrGrpCnt g) 16 16 = min (s.rf (rPwrGrpCnt g) 16 16 + 1) 0xFFFF) ∧
    (∀ maxC : BitVec 8, due 2 10000 → ∃ t, exec (.thermalSample maxC) s = .next t ∧ came t 2 ∧ t.rf rGlbTemp 8 8 = maxC.toNat ∧
      (s.tripC ≤ maxC.toInt → t.rb rGlbTemp 31 = true ∧ (s.rb rGlbTemp 31 = false → t.rb rGlbTemp 30 = true) ∧ t.coolAt = none) ∧
      (maxC.toInt < s.tripC → s.tripC - 10 ≤ maxC.toInt → t.rb rGlbTemp 31 = s.rb rGlbTemp 31 ∧ t.coolAt = none) ∧
      (maxC.toInt < s.tripC - 10 → s.coolAt = none → t.rb rGlbTemp 31 = s.rb rGlbTemp 31 ∧ t.coolAt = some s.time) ∧
      (∀ a, maxC.toInt < s.tripC - 10 → s.coolAt = some a →
        t.rb rGlbTemp 31 = (if a + 1000000 ≤ s.time then false else s.rb rGlbTemp 31))) ∧
    (∀ (tempC : BitVec 8) (marginal : List (Fin 256)),
      let d := tempC.toInt - (BitVec.ofNat 8 (s.rf rFusTemp 0 8)).toInt
      (due 3 1000000 → -40 < d → d < 40 → Does (.fuseTempSample tempC marginal) s (s.periodMark 3)) ∧
      (due 3 1000000 → s.rb rFusArbCtrl 30 = false → d ≤ -40 ∨ 40 ≤ d → ∃ t, exec (.fuseTempSample tempC marginal) s = .next t ∧ t.rf rFusTemp 0 8 = tempC.toNat ∧
        s.rf rFusArb 0 8 ≤ t.rf rFusArb 0 8 ∧ (∀ i < 32, s.lock i = true → t.lock i = true) ∧ t.fuses = s.fuses)) ∧
    (∀ v : Word,
      (bit v 31 = true → s.rb rFusArbCtrl 30 = false → s.rf rFusArb 0 8 < min (s.rf rCfgFwSvn 0 16) 128 →
        exec (.fuseAdvance v) s = .next (s.setRb rFusArbCtrl 30 true)) ∧
      (bit v 31 = false ∨ s.rb rFusArbCtrl 30 = true ∨ min (s.rf rCfgFwSvn 0 16) 128 ≤ s.rf rFusArb 0 8 →
        exec (.fuseAdvance v) s = .next s)) ∧
    (s.rb rFusArbCtrl 30 = false → exec .fuseBlowDone s = .next s) ∧
    (let n := s.rf rFusArb 0 8
     s.rb rFusArbCtrl 30 = true → n < 128 →
      ∃ t, exec .fuseBlowDone s = .next t ∧ t.rf rFusArb 0 8 = n + 1 ∧ (∀ b < 32, bit (t.fuse (n / 32)) b = (bit (s.fuse (n / 32)) b || b == n % 32)) ∧
        (∀ k, k ≠ n / 32 → t.fuse k = s.fuse k) ∧ t.rb rFusArbCtrl 30 = decide (n + 1 < min (s.rf rCfgFwSvn 0 16) 128) ∧ t.mem = s.mem)

/-! ### Flash port, chain, pair -/

/-- O58. The flash port (R545, R546, R560, R564, R565): a command other than the four gives result 2, one while BUSY result 4, one before the port
is open result 5, a bad length or alignment result 2, a protected or missing part of the flash result 1; an accepted one is BUSY until it
is done; a read delivers bytes and leaves the data registers past its length, a program clears bits, an erase sets them; a failure gives
result 3, and the flash outside the bytes of the command is as it was (those bytes are free, DESIGN CHOICE, log entry 2). In the FAIL
state a program or erase that succeeds gives both slots their attempts again. -/
def Obligations.FlashPort : Prop :=
  ∀ (s : State) (v : Word), s.canon →
    let op := fld v 28 4
    let cmd : Nat → Instr := fun k => if k = 1 then .flashPortRead v else if k = 2 then .flashPortProgram v
      else if k = 3 then .flashPortErase4k v else .flashPortErase64k v
    let busy := s.rb rCfgFlStat 31
    let opened := s.rb rCfgBootStat 31 || s.rb rCfgBootStat 29
    let a := s.rf rCfgFlAddr 0 28
    let gives : Instr → Nat → Prop := fun i r => exec i s = .next (s.setRf rCfgFlStat 16 8 r)
    (∀ k, 1 ≤ k → k ≤ 4 → op ≠ k → exec (cmd k) s = .next s) ∧
    (1 ≤ op → op ≤ 4 →
      (busy = true → gives (cmd op) 4) ∧
      (busy = false → opened = false → gives (cmd op) 5) ∧
      (busy = false → opened = true → portLen op a (fld v 0 7) = none → gives (cmd op) 2) ∧
      (∀ n, busy = false → opened = true → portLen op a (fld v 0 7) = some n →
        (op ≠ 1 → fld v 24 4 ≠ 0xA ∨ s.flProtected a n = true → gives (cmd op) 1) ∧
        (0x2000000 < a + n → gives (cmd op) 1) ∧
        (a + n ≤ 0x2000000 → op = 1 ∨ (fld v 24 4 = 0xA ∧ s.flProtected a n = false) →
          ∃ t, exec (cmd op) s = .next t ∧ t.rb rCfgFlStat 31 = true ∧ t.flash = s.flash ∧
            t.port = some ⟨op, a, n, ((List.range 16).flatMap (fun k => leBytes 4 (s.reg (rCfgFlData k)).toNat)).take n⟩))) ∧
    (1 ≤ op → op ≤ 4 → exec (.flashPortBadOp v) s = .next s) ∧
    (op = 0 ∨ 4 < op → busy = true → gives (.flashPortBadOp v) 4) ∧
    (op = 0 ∨ 4 < op → busy = false → opened = false → gives (.flashPortBadOp v) 5) ∧
    (op = 0 ∨ 4 < op → busy = false → opened = true → gives (.flashPortBadOp v) 2) ∧
    (s.port = none → ∀ ok, exec (.flashPortDone ok) s = .next s) ∧
    (∀ q : PortCmd, s.port = some q →
      (∃ t, exec (.flashPortDone false) s = .next t ∧ t.rf rCfgFlStat 16 8 = 3 ∧ t.rb rCfgFlStat 31 = false ∧ t.port = none ∧
        (q.op = 1 → t.flash = s.flash) ∧
        (∀ b, b < q.addr ∨ q.addr + q.len ≤ b → cellGet 0xFF#8 t.flash b = cellGet 0xFF#8 s.flash b) ∧ t.bootRec = s.bootRec) ∧
      (∃ t, exec (.flashPortDone true) s = .next t ∧ t.rf rCfgFlStat 16 8 = 0 ∧ t.rb rCfgFlStat 31 = false ∧ t.port = none ∧
        (q.op = 1 → t.flash = s.flash ∧ ∀ k < 16, ∀ j < 4, fld (t.reg (rCfgFlData k)) (8 * j) 8 =
          if 4 * k + j < q.len then (cellGet 0xFF#8 s.flash (q.addr + (4 * k + j))).toNat else fld (s.reg (rCfgFlData k)) (8 * j) 8) ∧
        (q.op = 2 → (∀ i < q.data.length, cellGet 0xFF#8 t.flash (q.addr + i) = (cellGet 0xFF#8 s.flash (q.addr + i) &&& q.data.getD i 0#8)) ∧
          ∀ b, b < q.addr ∨ q.addr + q.data.length ≤ b → cellGet 0xFF#8 t.flash b = cellGet 0xFF#8 s.flash b) ∧
        (3 ≤ q.op → (∀ i < q.len, cellGet 0xFF#8 t.flash (q.addr + i) = 0xFF#8) ∧
          ∀ b, b < q.addr ∨ q.addr + q.len ≤ b → cellGet 0xFF#8 t.flash b = cellGet 0xFF#8 s.flash b) ∧
        (s.rb rCfgBootStat 29 = true → q.op ≠ 1 → t.bootRec.triesA = 0 ∧ t.bootRec.triesB = 0 ∧ t.bootRec.incValid = false) ∧
        (s.rb rCfgBootStat 29 = false → t.bootRec = s.bootRec)))

/-- O59. The management chain and the redundant pair (R566 to R569, R579, R621 to R634, R637, R639): a frame with a bad SYNC or CRC is dropped and
counted, a reserved type answered with NACK; ENUM gives the instance the next address, at once or when its reset has ended; RESET is acknowledged and resets it,
and only the instance that a RESET was sent to answers it; equal digests commit a waiting part, with the mask epoch and the locket generation
assigned to it, unequal ones and a time-out rerun it; a record goes into the mailbox, and one of a part not reached yet is kept; a secondary
takes the primary's decisions, a point of an op in a context at once, any other one when it comes to what is decided (the coding of a
decision is opaque, DESIGN CHOICE, log entry 47), and its counters take the values assigned; it leaves shared memory alone; heartbeats go out every 1 ms, and heartbeats that stay away, a self-test whose result does not come and ISOLATE end the pair with one
survivor and one isolated member. The own self-test result is a free value (DESIGN CHOICE, log entry 2). -/
def Obligations.ChainAndPair : Prop :=
  ∀ (s : State) (f : DWord), s.canon →
    let bad := s.setRf rChnErrCnt 0 32 (min (s.rf rChnErrCnt 0 32 + 1) 0xFFFFFFFF)
    let mine := s.rb rChnStat 31 = true ∧ fDest f = s.rf rChnStat 24 4
    let answer : Nat → Nat → State := fun t k => { s with chnOut := s.chnOut ++ [mkFrame (fSrc f) (s.rf rChnStat 24 4) t k] }
    let good := frameOk f = true
    let awake := s.boot.phase ≠ .held
    let pr := s.running = true ∧ s.paired = true
    let isolated : State → Prop := fun t => t.rb rGlbPairStat 29 = true ∧ t.rf rRstCause 28 4 = 6 ∧ t.ctxs = [] ∧ t.running = false
    let rerun : CmpPart → State → Bool → Prop := fun q t told => (t.pair.parts = [] ∧ t.mailOut.length = s.mailOut.length + 1) ∨
      ∃ r, t.pair.parts = [r] ∧ r.cmd = q.cmd ∧ r.fail = none ∧ r.epoch = q.epoch ∧ r.gen = q.gen ∧ r.bad = q.bad + 1 ∧ r.told = told ∧
        r.at_ = s.time ∧ t.mailOut.length = s.mailOut.length + 2
    let survives : State → Prop := fun t => t.role = 3 ∧ t.rb rGlbPairStat 27 = false ∧ t.rb rCfgBootStat 31 = true
    (frameOk f = false → exec (.enum f) s = .next bad ∧ exec (.reset f) s = .next bad ∧ exec (.ack f) s = .next bad ∧
      exec (.nack f) s = .next bad ∧ exec (.badFrame f) s = .next bad ∧ exec (.reservedFrameType f) s = .next bad ∧
      exec (.pairDigest f) s = .next bad ∧ exec (.tokenLo f) s = .next bad ∧ exec (.tokenHi f) s = .next bad) ∧
    (good → exec (.badFrame f) s = .next s) ∧
    (good → awake → mine →
      (knownType (fType f) = false → exec (.reservedFrameType f) s = .next (answer 0x21 2)) ∧
      (∀ a d, s.chnWait = some (a, d) →
        (fType f = 0x20 → fPay f % 256 = 2 →
          (d = 15 ∨ d = fSrc f → exec (.ack f) s = .next { s.setRf rChnStat 16 3 1 with chnWait := none }) ∧
          (d ≠ 15 → d ≠ fSrc f → exec (.ack f) s = .next s)) ∧
        (fType f = 0x21 → s.paired = false → s.boot.phase ≠ .pairing →
          (d = 15 ∨ d = fSrc f → exec (.nack f) s = .next { s.setRf rChnStat 16 3 2 with chnWait := none }) ∧
          (d ≠ 15 → d ≠ fSrc f → exec (.nack f) s = .next s))) ∧
      (fType f = 0x02 → s.rb rGlbPairStat 29 = false → s.paired = false →
        ∃ t, exec (.reset f) s = .next t ∧ t.chnOut = s.chnOut ++ [mkFrame (fSrc f) (s.rf rChnStat 24 4) 0x20 2] ∧
          t.rf rRstCause 28 4 = 3 ∧ t.boot.phase = .held ∧ t.ctxs = [] ∧ (s.ctxs = [] → t.mem = s.mem)) ∧
      (0x10 ≤ fType f → fType f ≤ 0x17 → s.boot.phase ≠ .pairing ∨ s.strapRole = 0 → exec (.pairDigest f) s = .next (answer 0x21 2)) ∧
      (0x10 ≤ fType f → fType f ≤ 0x17 → s.boot.phase = .pairing → s.strapRole ≠ 0 → s.boot.peer = some (fSrc f) →
        (∃ k < 8, k ≠ fType f - 0x10 ∧ assocFind s.boot.words k = none) →
        exec (.pairDigest f) s = .next (s.bootUpd (fun b => { b with
          words := assocPut b.words (fType f - 0x10) (BitVec.ofNat 32 (fPay f)) }))) ∧
      (s.boot.phase = .pairing → s.boot.peer = some (fSrc f) → s.digestIn = false →
        (fType f = 0x43 → exec (.tokenLo f) s = .next (s.bootUpd (fun b => { b with toks := assocPut b.toks 0 (BitVec.ofNat 32 (fPay f)) }))) ∧
        (fType f = 0x44 → exec (.tokenHi f) s = .next (s.bootUpd (fun b => { b with toks := assocPut b.toks 1 (BitVec.ofNat 32 (fPay f)) }))))) ∧
    (good → s.boot.phase = .held → mine → fType f = 0x02 → s.rb rGlbPairStat 29 = false → exec (.reset f) s = .next (answer 0x21 1)) ∧
    (good → fType f = 0x01 → s.boot.phase = .held → s.rb rGlbPairStat 29 = false →
      exec (.enum f) s = .next { s with enumHeld := some f }) ∧
    (good → fType f = 0x01 → awake ∨ s.rb rGlbPairStat 29 = true →
      (fPay f % 16 < 8 → ∃ t, exec (.enum f) s = .next t ∧ t.rb rChnStat 31 = true ∧ t.rf rChnStat 24 4 = fPay f % 16 ∧
        t.rb rChnStat 29 = false ∧ t.chnOut = s.chnOut ++ [mkFrame (fDest f) (fSrc f) 0x01 (fPay f + 1)] ∧
        (s.rb rChnStat 31 = true → s.rf rChnStat 24 4 ≠ fPay f % 16 → t.rb rChnStat 30 = true)) ∧
      (8 ≤ fPay f % 16 → ∃ t, exec (.enum f) s = .next t ∧ t.rb rChnStat 31 = false ∧ t.rb rChnStat 29 = true ∧ t.chnOut = s.chnOut ++ [f])) ∧
    (∀ v : Word,
      (bit v 31 = false → exec (.chainSendReset v) s = .next s) ∧
      (bit v 31 = true → fld v 16 8 ≠ 2 ∨ fld v 24 4 = 0xE → exec (.chainSendReset v) s = .next (s.setRf rChnStat 16 3 4)) ∧
      (bit v 31 = true → fld v 16 8 = 2 → fld v 24 4 ≠ 0xE → s.rb rChnStat 31 = true →
        exec (.chainSendReset v) s = .next { s with
          chnOut := s.chnOut ++ [mkFrame (fld v 24 4) (s.rf rChnStat 24 4) 0x02 0], chnWait := some (s.time, fld v 24 4) })) ∧
    (∀ a d, s.chnWait = some (a, d) → a + 10000 ≤ s.time → exec .chainReplyTimeout s = .next { s.setRf rChnStat 16 3 3 with chnWait := none }) ∧
    (s.chnWait = none ∨ (∃ a d, s.chnWait = some (a, d) ∧ s.time < a + 10000) → exec .chainReplyTimeout s = .next s) ∧
    (s.running = true → s.paired = false → Does .heartbeatSend s s ∧ Does .heartbeatMiss s s ∧ Does .compareTimeout s s ∧
      Does .selftestTimeout s s ∧ ∀ r, Does (.compareRecord r) s s) ∧
    (pr → s.time < assocGet 0 s.lastAt 4 + 100000 → Does .heartbeatSend s s) ∧
    (pr → assocGet 0 s.lastAt 4 + 100000 ≤ s.time → Does .heartbeatSend s { s.periodMark 4 with chnOut := s.chnOut ++ [mkFrame s.partner s.chnAddr 0x40 s.pair.seq] }) ∧
    (pr → good → awake → mine → fSrc f = s.partner →
      (fType f = 0x40 → Does (.heartbeat f) s { s with pair := { s.pair with hbAt := s.time } }) ∧
      (fType f = 0x45 → s.rb rGlbPairStat 27 = true ∨ (∀ q ∈ s.liveParts, q.index.toNat ≠ fPay f) → Does (.mismatch f) s s) ∧
      (∀ q, fType f = 0x45 → s.rb rGlbPairStat 27 = false → s.pair.parts = [q] → s.partLive q = true → q.index.toNat = fPay f → q.told = false →
        q.bad < 3 → ∃ t, exec (.mismatch f) s = .next t ∧ rerun q t false ∧
          t.rf rGlbPairReplayCnt 0 32 = min (s.rf rGlbPairReplayCnt 0 32 + 1) 0xFFFFFFFF) ∧
      (fType f = 0x46 → ∃ t, exec (.selftest f) s = .next t ∧ t.rb rGlbPairStat 27 = true) ∧
      (fType f = 0x41 → fPay f % 2 ≠ s.role - 1 → ∃ t, exec (.isolate f) s = .next t ∧ survives t) ∧
      (fType f = 0x41 → fPay f % 2 = s.role - 1 → Does (.isolate f) s s) ∧
      (fType f = 0x42 → s.pair.isoAt.isSome = true → ∃ t, exec (.isolateAck f) s = .next t ∧ isolated t) ∧
      (fType f = 0x42 → s.pair.isoAt = none → Does (.isolateAck f) s s)) ∧
    (s.running = true → ∀ a, s.pair.isoAt = some a → (a + 10000 ≤ s.time → ∃ t, exec .isolateAckTimeout s = .next t ∧ isolated t) ∧
      (s.time < a + 10000 → Does .isolateAckTimeout s s)) ∧
    (pr → s.time < s.pair.hbAt + max 1 (s.rf rGlbPairCfg 8 8) * 100000 → Does .heartbeatMiss s s) ∧
    (pr → s.pair.hbAt + max 1 (s.rf rGlbPairCfg 8 8) * 100000 ≤ s.time →
      ∃ t, exec .heartbeatMiss s = .next t ∧ t.rb rGlbPairStat 28 = true ∧ (s.role = 1 → survives t) ∧ (s.role = 2 → isolated t)) ∧
    (pr → s.rb rGlbPairStat 27 = true → s.pair.holdAt + 400000 ≤ s.time →
      (s.role = 1 → ∃ t, exec .selftestTimeout s = .next t ∧ survives t) ∧
      (s.role = 2 → s.pair.isoAt = none → ∃ t, exec .selftestTimeout s = .next t ∧ t.pair.isoAt = some s.time ∧
        t.chnOut = s.chnOut ++ [mkFrame s.partner s.chnAddr 0x41 1])) ∧
    (pr → s.rb rGlbPairStat 27 = false ∨ s.time < s.pair.holdAt + 400000 → Does .selftestTimeout s s) ∧
    (∀ q, pr → s.rb rGlbPairStat 27 = false → s.pair.parts = [q] → s.partLive q = true → q.bad < 3 →
      (q.ok = false → q.at_ + max 10 (s.rf rGlbPairCfg 16 16) * 100 ≤ s.time → ∃ t, exec .compareTimeout s = .next t ∧ rerun q t true) ∧
      (q.ok = true ∨ s.time < q.at_ + max 10 (s.rf rGlbPairCfg 16 16) * 100 → Does .compareTimeout s s) ∧
      (∀ r : BitVec 512, fld r 40 8 = 1 → recPart r q = true →
        (BitVec.ofNat 128 (fld r 128 128) = q.digest → Does (.compareRecord r) s
          ((({ s.mailIn r with pair := { s.pair with parts := [] } } : State).withGiven [{ q with ok := true }] (fun u => u.commitPart q)).ownWrites s)) ∧
        (BitVec.ofNat 128 (fld r 128 128) ≠ q.digest → (∀ c, q.cmd ≠ .revive c) → ∃ t, exec (.compareRecord r) s = .next t ∧ rerun q t true))) ∧
    (∀ r : BitVec 512, pr →
      (fld r 40 8 ≠ 1 → fld r 40 8 ≠ 2 → Does (.compareRecord r) s ((s.mailIn r).ownWrites s)) ∧
      (fld r 40 8 = 1 → s.rb rGlbPairStat 27 = false → (∀ q ∈ s.liveParts, recPart r q = false) →
        Does (.compareRecord r) s (((s.mailIn r).keepEarly r).ownWrites s)) ∧
      (fld r 40 8 = 2 → s.role = 1 → Does (.compareRecord r) s (s.mailIn r)) ∧
      (fld r 40 8 = 2 → s.role = 2 →
        let v := BitVec.ofNat 64 (fld r 384 64)
        let kind := Config.decisionKind v
        let ring := fld r 32 8 % 64
        let op := s.ctxs.find? (fun x => x.ring.val == ring && x.index == BitVec.ofNat 32 (fld r 0 32))
        (∀ x, kind = 1 → op = some x → x.st ≠ .past → Does (.compareRecord r) s (((s.mailIn r).missDeadline x).ownWrites s)) ∧
        (∀ x, kind = 2 → op = some x →
          Does (.compareRecord r) s (((s.mailIn r).ctxUpd x.id (fun y => { y with logits := true })).ownWrites s)) ∧
        ((kind ≠ 1 ∧ kind ≠ 2) ∨ op = none → ∃ t d, exec (.compareRecord r) s = .next t ∧ t.pair.given = s.pair.given ++ [d] ∧ d.kind = kind ∧
          d.part.val = Config.decisionPart v % 16 ∧ d.arg = Config.decisionArg v ∧ d.ring.val = ring ∧ d.index = BitVec.ofNat 32 (fld r 0 32) ∧
          t.ctxs = s.ctxs ∧ t.parts = s.parts))) ∧
    (∀ (p : Part) (d : Decision), s.paired = true → s.pair.given.find? (fun d => d.kind == 3 && d.part == p) = some d →
      (s.nextGen p).1 = d.arg ∧ (((s.nextGen p).2.parts[p]).gen).toNat = max (s.parts[p]).gen.toNat d.arg.toNat) ∧
    (∀ (p : Part) (d : Decision), s.paired = true → s.pair.given.find? (fun d => d.kind == 4 && d.part == p) = some d →
      (s.nextEpoch p).1 = d.arg ∧ (((s.nextEpoch p).2.parts[p]).epoch).toNat = max (s.parts[p]).epoch.toNat d.arg.toNat) ∧
    (s.running = true → s.role = 2 → ∀ c t, exec c s = .next t → t.role = 2 →
      let box := fld (t.reg64 rGlbPairMbox) 16 48 * 65536
      ∀ a < 2 ^ 64, t.isPriv a = false → a < box ∨ box + 65536 ≤ a → t.rd8 a = s.rd8 a)

/-! ### Loupe and TAP -/

/-- O60. Trace, counters, TAP and debug access (R658, R659, R661, R662, R665 to R671, R673): ENABLE going to 1 starts a trace anew, a queued
record goes to its slot of the buffer, or is dropped in STOP mode when the buffer is full; a marker is queued when its class is on; a clear of
the counters comes before RUN; the TAP's instructions capture their values; a CSR access starts only while debug is open and R670 admits it,
is denied when the cycle of its start takes that away, and acts as a software access when it is done. -/
def Obligations.LoupeAndTap : Prop :=
  ∀ (s : State) (v : Word), s.canon →
    (s.running = true →
      (bit v 31 = true → s.rb rLpeTraceCtrl 31 = false →
        ∃ t, exec (.traceEnable v) s = .next t ∧ t.rf rLpeTraceCtrl 29 3 = fld v 29 3 ∧ t.reg rLpeTraceWptr = 0#32 ∧
          t.rb rLpeTraceStat 31 = false ∧ t.traceBase = fld (s.reg64 rLpeTraceBase) 16 48 * 65536 ∧
          t.traceSlots = 2 ^ (max 16 (min 30 (s.rf rLpeTraceCfg 0 5))) / 32 ∧ t.mem = s.mem) ∧
      (bit v 31 = false ∨ s.rb rLpeTraceCtrl 31 = true → Does (.traceEnable v) s ((Sent s rLpeTraceCtrl v).setRf rLpeTraceCtrl 29 3 (fld v 29 3))) ∧
      (s.trace = [] → Does .traceRecordWrite s s) ∧
      (∀ r l, s.trace = r :: l →
        (s.traceStopped = false → r.bytes.length = 32 → (s.reg rLpeTraceWptr).toNat + 1 < 2 ^ 32 →
          let n := (s.reg rLpeTraceWptr).toNat
          ∃ t, exec .traceRecordWrite s = .next t ∧ t.reg rLpeTraceWptr = BitVec.ofNat 32 (n + 1) ∧
            t.rdBytes (s.traceBase + s.priv + 32 * (n % s.traceSlots)) 32 = r.bytes ∧
            (s.reg rLpeTraceWm ≠ 0#32 → (n + 1) % (s.reg rLpeTraceWm).toNat = 0 → t.rb rLpeTraceStat 30 = true)) ∧
        (s.traceStopped = true → ∃ t, exec .traceRecordWrite s = .next t ∧ t.mem = s.mem ∧ t.rb rLpeTraceStat 31 = true ∧
          t.reg rLpeTraceWptr = s.reg rLpeTraceWptr)) ∧
      (∃ t, exec (.marker v) s = .next t ∧ t.mem = s.mem ∧ t.ctxs = s.ctxs ∧
        (s.rb rLpeTraceCtrl 31 = true → s.rb rLpeTraceClass 0xE = true → s.trace.length < 1024 →
          ⟨s.time, 0xE, traceBytes s.time 0xE none noSession 0#32 none 0 v.toNat 0⟩ ∈ t.trace)) ∧
      (∃ t, exec (.cntRun v) s = .next t ∧ t.rb rLpeCntCtrl 31 = bit v 31 ∧
        (bit v 30 = false → ∀ o, o ≠ rLpeCntCtrl → noteReg o = false → t.reg o = s.reg o)) ∧
      (bit v 30 = true → bit v 31 = false ∨ s.ctxs = [] →
        ∃ t, exec (.cntClear v) s = .next t ∧ t.rb rLpeCntCtrl 31 = bit v 31 ∧ ∀ n < 8, t.reg64 (rLpeCnt n) = 0#64)) ∧
    exec .tapReset s = .next { s with tapIr := 0x01#8 } ∧
    exec .bypass s = .next { s with tapIr := 0xFF#8, tapDr := 0#64 } ∧
    (∃ t, exec .idcode s = .next t ∧ t.tapIr = 0x01#8 ∧ bit t.tapDr 0 = true ∧ fld t.tapDr 1 11 = fld (s.reg (rFusWord 0x3F)) 0 11 ∧
      fld t.tapDr 12 16 = 0x504C ∧ fld t.tapDr 28 4 = 2 ∧ t.regs = s.regs) ∧
    (∃ t, exec .dbgStatus s = .next t ∧ t.tapIr = 0x11#8 ∧ bit t.tapDr 31 = s.debugOpen ∧ bit t.tapDr 29 = s.rb rFusStat 29 ∧
      fld t.tapDr 27 2 = s.role ∧ fld t.tapDr 0 16 = s.rf rSecDbgUnlock 0 16 ∧ t.regs = s.regs) ∧
    (∀ dr : DWord,
      (∀ a, s.access = some a → ∃ t, exec (.csrAcc dr) s = .next t ∧ t.access = some a ∧ fld t.tapDr 58 2 = 1 ∧ t.regs = s.regs) ∧
      (s.access = none → s.debugOpen = false →
        ∃ t, exec (.csrAcc dr) s = .next t ∧ t.access = none ∧ t.tapDr = s.tapRes ∧ fld t.tapRes 58 2 = 3 ∧ t.regs = s.regs) ∧
      (s.access = none → s.debugOpen = true → s.dbgAllowed (accOff dr) (accWrite dr) = false →
        ∃ t, exec (.csrAcc dr) s = .next t ∧ t.access = none ∧ fld t.tapRes 58 2 = 2 ∧
          t.rf rSecDbgStat 0 16 = min (s.rf rSecDbgStat 0 16 + 1) 0xFFFF) ∧
      (s.access = none → s.debugOpen = true → s.dbgAllowed (accOff dr) (accWrite dr) = true →
        exec (.csrAcc dr) s = .next { s with tapIr := 0x10#8, tapDr := s.tapRes, access := some dr, accessAt := s.time })) ∧
    (s.running = true →
      (s.access = none → Does .csrAccDone s s) ∧
      (∀ dr, s.access = some dr → s.accessAt = s.time → s.dbgAllowed (accOff dr) (accWrite dr) = false →
        ∃ t, exec .csrAccDone s = .next t ∧ t.access = none ∧ fld t.tapRes 58 2 = 2 ∧ t.mem = s.mem ∧
          t.rf rSecDbgStat 0 16 = min (s.rf rSecDbgStat 0 16 + 1) 0xFFFF) ∧
      (∀ dr r, s.access = some dr → (s.accessAt = s.time → s.dbgAllowed (accOff dr) (accWrite dr) = true) → accWrite dr = false → accOff dr % 4 = 0 → regRow? (accOff dr) = some r → r.half = 0 → r.rc = 0 → r.wo = 0 →
        s.cluDark (accOff dr) = false → (∀ p : Part, csrWin (accOff dr) ≠ .part p 0x318 ∧ csrWin (accOff dr) ≠ .part p 0x11C) →
        ∃ t, exec .csrAccDone s = .next t ∧ t.access = none ∧ fld t.tapRes 58 2 = 0 ∧ fld t.tapRes 0 32 = (s.view (accOff dr)).toNat ∧
          t.resp = s.resp ∧ ∀ o, noteReg o = false → t.reg o = s.reg o) ∧
      (∀ dr r, s.access = some dr → (s.accessAt = s.time → s.dbgAllowed (accOff dr) (accWrite dr) = true) → accWrite dr = true → accOff dr % 4 = 0 → regRow? (accOff dr) = some r → r.half = 0 →
        csrWin (accOff dr) = .vgs →
        ∃ t, exec .csrAccDone s = .next t ∧ t.access = none ∧ fld t.tapRes 58 2 = 0 ∧
          (∀ i < 32, bit (t.reg (accOff dr)) i = (if r.w1c.testBit i ∧ bit (accData dr) i then false
            else if r.rw.testBit i then bit (accData dr) i else bit (s.reg (accOff dr)) i)) ∧
          ∀ o, o ≠ accOff dr → noteReg o = false → t.reg o = s.reg o))
end

