-- ==== Sys2Proof/Laws/State.lean ====
section
/-! SUPPORT. Sys2Proof/Laws/State.lean: what each named update of the state leaves alone, field by field. -/
namespace Sys2Proof.Machine
open Sys2Proof

/-! ### setReg -/
@[simp] theorem State.setReg_pending (s : State) (o : Nat) (v : Word) : (s.setReg o v).pending = s.pending := rfl
@[simp] theorem State.setReg_freeCtr (s : State) (o : Nat) (v : Word) : (s.setReg o v).freeCtr = s.freeCtr := rfl
@[simp] theorem State.setReg_time (s : State) (o : Nat) (v : Word) : (s.setReg o v).time = s.time := rfl
@[simp] theorem State.setReg_aonBefore (s : State) (o : Nat) (v : Word) : (s.setReg o v).aonBefore = s.aonBefore := rfl
@[simp] theorem State.setReg_resp (s : State) (o : Nat) (v : Word) : (s.setReg o v).resp = s.resp := rfl
@[simp] theorem State.setReg_mem (s : State) (o : Nat) (v : Word) : (s.setReg o v).mem = s.mem := rfl
@[simp] theorem State.setReg_pairLatch (s : State) (o : Nat) (v : Word) : (s.setReg o v).pairLatch = s.pairLatch := rfl
@[simp] theorem State.setReg_pairHold (s : State) (o : Nat) (v : Word) : (s.setReg o v).pairHold = s.pairHold := rfl
@[simp] theorem State.setReg_sd (s : State) (o : Nat) (v : Word) : (s.setReg o v).sd = s.sd := rfl
@[simp] theorem State.setReg_rings (s : State) (o : Nat) (v : Word) : (s.setReg o v).rings = s.rings := rfl
@[simp] theorem State.setReg_ctxs (s : State) (o : Nat) (v : Word) : (s.setReg o v).ctxs = s.ctxs := rfl
@[simp] theorem State.setReg_nextSeq (s : State) (o : Nat) (v : Word) : (s.setReg o v).nextSeq = s.nextSeq := rfl
@[simp] theorem State.setReg_parts (s : State) (o : Nat) (v : Word) : (s.setReg o v).parts = s.parts := rfl
@[simp] theorem State.setReg_objIds (s : State) (o : Nat) (v : Word) : (s.setReg o v).objIds = s.objIds := rfl
@[simp] theorem State.setReg_objs (s : State) (o : Nat) (v : Word) : (s.setReg o v).objs = s.objs := rfl
@[simp] theorem State.setReg_strands (s : State) (o : Nat) (v : Word) : (s.setReg o v).strands = s.strands := rfl
@[simp] theorem State.setReg_lockets (s : State) (o : Nat) (v : Word) : (s.setReg o v).lockets = s.lockets := rfl
@[simp] theorem State.setReg_threads (s : State) (o : Nat) (v : Word) : (s.setReg o v).threads = s.threads := rfl
@[simp] theorem State.setReg_scratch (s : State) (o : Nat) (v : Word) : (s.setReg o v).scratch = s.scratch := rfl
@[simp] theorem State.setReg_vgs (s : State) (o : Nat) (v : Word) : (s.setReg o v).vgs = s.vgs := rfl
@[simp] theorem State.setReg_imem (s : State) (o : Nat) (v : Word) : (s.setReg o v).imem = s.imem := rfl
@[simp] theorem State.setReg_ctrlSram (s : State) (o : Nat) (v : Word) : (s.setReg o v).ctrlSram = s.ctrlSram := rfl
@[simp] theorem State.setReg_fabLate (s : State) (o : Nat) (v : Word) : (s.setReg o v).fabLate = s.fabLate := rfl
@[simp] theorem State.setReg_fabCut (s : State) (o : Nat) (v : Word) : (s.setReg o v).fabCut = s.fabCut := rfl
@[simp] theorem State.setReg_sidLog (s : State) (o : Nat) (v : Word) : (s.setReg o v).sidLog = s.sidLog := rfl
@[simp] theorem State.setReg_reportAddr (s : State) (o : Nat) (v : Word) : (s.setReg o v).reportAddr = s.reportAddr := rfl
@[simp] theorem State.setReg_chans (s : State) (o : Nat) (v : Word) : (s.setReg o v).chans = s.chans := rfl
@[simp] theorem State.setReg_profile (s : State) (o : Nat) (v : Word) : (s.setReg o v).profile = s.profile := rfl
@[simp] theorem State.setReg_indexOk (s : State) (o : Nat) (v : Word) : (s.setReg o v).indexOk = s.indexOk := rfl
@[simp] theorem State.setReg_indexAt (s : State) (o : Nat) (v : Word) : (s.setReg o v).indexAt = s.indexAt := rfl
@[simp] theorem State.setReg_indexImg (s : State) (o : Nat) (v : Word) : (s.setReg o v).indexImg = s.indexImg := rfl
@[simp] theorem State.setReg_refillAt (s : State) (o : Nat) (v : Word) : (s.setReg o v).refillAt = s.refillAt := rfl
@[simp] theorem State.setReg_lastRing (s : State) (o : Nat) (v : Word) : (s.setReg o v).lastRing = s.lastRing := rfl
@[simp] theorem State.setReg_capture (s : State) (o : Nat) (v : Word) : (s.setReg o v).capture = s.capture := rfl
@[simp] theorem State.setReg_bootRec (s : State) (o : Nat) (v : Word) : (s.setReg o v).bootRec = s.bootRec := rfl
@[simp] theorem State.setReg_snap (s : State) (o : Nat) (v : Word) : (s.setReg o v).snap = s.snap := rfl
@[simp] theorem State.setReg_snapOk (s : State) (o : Nat) (v : Word) : (s.setReg o v).snapOk = s.snapOk := rfl
@[simp] theorem State.setReg_faults (s : State) (o : Nat) (v : Word) : (s.setReg o v).faults = s.faults := rfl
@[simp] theorem State.setReg_boot (s : State) (o : Nat) (v : Word) : (s.setReg o v).boot = s.boot := rfl
@[simp] theorem State.setReg_flash (s : State) (o : Nat) (v : Word) : (s.setReg o v).flash = s.flash := rfl
@[simp] theorem State.setReg_spi (s : State) (o : Nat) (v : Word) : (s.setReg o v).spi = s.spi := rfl
@[simp] theorem State.setReg_port (s : State) (o : Nat) (v : Word) : (s.setReg o v).port = s.port := rfl
@[simp] theorem State.setReg_fuses (s : State) (o : Nat) (v : Word) : (s.setReg o v).fuses = s.fuses := rfl
@[simp] theorem State.setReg_chnOut (s : State) (o : Nat) (v : Word) : (s.setReg o v).chnOut = s.chnOut := rfl
@[simp] theorem State.setReg_peerOut (s : State) (o : Nat) (v : Word) : (s.setReg o v).peerOut = s.peerOut := rfl
@[simp] theorem State.setReg_lastAt (s : State) (o : Nat) (v : Word) : (s.setReg o v).lastAt = s.lastAt := rfl
@[simp] theorem State.setReg_enumHeld (s : State) (o : Nat) (v : Word) : (s.setReg o v).enumHeld = s.enumHeld := rfl
@[simp] theorem State.setReg_mailOut (s : State) (o : Nat) (v : Word) : (s.setReg o v).mailOut = s.mailOut := rfl
@[simp] theorem State.setReg_wrAt (s : State) (o : Nat) (v : Word) : (s.setReg o v).wrAt = s.wrAt := rfl
@[simp] theorem State.setReg_wrOld (s : State) (o : Nat) (v : Word) : (s.setReg o v).wrOld = s.wrOld := rfl
@[simp] theorem State.setReg_chnWait (s : State) (o : Nat) (v : Word) : (s.setReg o v).chnWait = s.chnWait := rfl
@[simp] theorem State.setReg_wdogAt (s : State) (o : Nat) (v : Word) : (s.setReg o v).wdogAt = s.wdogAt := rfl
@[simp] theorem State.setReg_pair (s : State) (o : Nat) (v : Word) : (s.setReg o v).pair = s.pair := rfl
@[simp] theorem State.setReg_wlog (s : State) (o : Nat) (v : Word) : (s.setReg o v).wlog = s.wlog := rfl
@[simp] theorem State.setReg_vseg (s : State) (o : Nat) (v : Word) : (s.setReg o v).vseg = s.vseg := rfl
@[simp] theorem State.setReg_grp (s : State) (o : Nat) (v : Word) : (s.setReg o v).grp = s.grp := rfl
@[simp] theorem State.setReg_ests (s : State) (o : Nat) (v : Word) : (s.setReg o v).ests = s.ests := rfl
@[simp] theorem State.setReg_raisedAt (s : State) (o : Nat) (v : Word) : (s.setReg o v).raisedAt = s.raisedAt := rfl
@[simp] theorem State.setReg_coolAt (s : State) (o : Nat) (v : Word) : (s.setReg o v).coolAt = s.coolAt := rfl
@[simp] theorem State.setReg_waking (s : State) (o : Nat) (v : Word) : (s.setReg o v).waking = s.waking := rfl
@[simp] theorem State.setReg_sleeping (s : State) (o : Nat) (v : Word) : (s.setReg o v).sleeping = s.sleeping := rfl
@[simp] theorem State.setReg_domLog (s : State) (o : Nat) (v : Word) : (s.setReg o v).domLog = s.domLog := rfl
@[simp] theorem State.setReg_units (s : State) (o : Nat) (v : Word) : (s.setReg o v).units = s.units := rfl
@[simp] theorem State.setReg_trace (s : State) (o : Nat) (v : Word) : (s.setReg o v).trace = s.trace := rfl
@[simp] theorem State.setReg_traceBase (s : State) (o : Nat) (v : Word) : (s.setReg o v).traceBase = s.traceBase := rfl
@[simp] theorem State.setReg_traceSlots (s : State) (o : Nat) (v : Word) : (s.setReg o v).traceSlots = s.traceSlots := rfl
@[simp] theorem State.setReg_tapIr (s : State) (o : Nat) (v : Word) : (s.setReg o v).tapIr = s.tapIr := rfl
@[simp] theorem State.setReg_tapDr (s : State) (o : Nat) (v : Word) : (s.setReg o v).tapDr = s.tapDr := rfl
@[simp] theorem State.setReg_tapRes (s : State) (o : Nat) (v : Word) : (s.setReg o v).tapRes = s.tapRes := rfl
@[simp] theorem State.setReg_access (s : State) (o : Nat) (v : Word) : (s.setReg o v).access = s.access := rfl
@[simp] theorem State.setReg_accessAt (s : State) (o : Nat) (v : Word) : (s.setReg o v).accessAt = s.accessAt := rfl

/-! ### wr8 -/
@[simp] theorem State.wr8_pending (s : State) (a : Nat) (b : Byte) : (s.wr8 a b).pending = s.pending := rfl
@[simp] theorem State.wr8_freeCtr (s : State) (a : Nat) (b : Byte) : (s.wr8 a b).freeCtr = s.freeCtr := rfl
@[simp] theorem State.wr8_time (s : State) (a : Nat) (b : Byte) : (s.wr8 a b).time = s.time := rfl
@[simp] theorem State.wr8_aonBefore (s : State) (a : Nat) (b : Byte) : (s.wr8 a b).aonBefore = s.aonBefore := rfl
@[simp] theorem State.wr8_resp (s : State) (a : Nat) (b : Byte) : (s.wr8 a b).resp = s.resp := rfl
@[simp] theorem State.wr8_regs (s : State) (a : Nat) (b : Byte) : (s.wr8 a b).regs = s.regs := rfl
@[simp] theorem State.wr8_pairLatch (s : State) (a : Nat) (b : Byte) : (s.wr8 a b).pairLatch = s.pairLatch := rfl
@[simp] theorem State.wr8_pairHold (s : State) (a : Nat) (b : Byte) : (s.wr8 a b).pairHold = s.pairHold := rfl
@[simp] theorem State.wr8_sd (s : State) (a : Nat) (b : Byte) : (s.wr8 a b).sd = s.sd := rfl
@[simp] theorem State.wr8_rings (s : State) (a : Nat) (b : Byte) : (s.wr8 a b).rings = s.rings := rfl
@[simp] theorem State.wr8_ctxs (s : State) (a : Nat) (b : Byte) : (s.wr8 a b).ctxs = s.ctxs := rfl
@[simp] theorem State.wr8_nextSeq (s : State) (a : Nat) (b : Byte) : (s.wr8 a b).nextSeq = s.nextSeq := rfl
@[simp] theorem State.wr8_parts (s : State) (a : Nat) (b : Byte) : (s.wr8 a b).parts = s.parts := rfl
@[simp] theorem State.wr8_objIds (s : State) (a : Nat) (b : Byte) : (s.wr8 a b).objIds = s.objIds := rfl
@[simp] theorem State.wr8_objs (s : State) (a : Nat) (b : Byte) : (s.wr8 a b).objs = s.objs := rfl
@[simp] theorem State.wr8_strands (s : State) (a : Nat) (b : Byte) : (s.wr8 a b).strands = s.strands := rfl
@[simp] theorem State.wr8_lockets (s : State) (a : Nat) (b : Byte) : (s.wr8 a b).lockets = s.lockets := rfl
@[simp] theorem State.wr8_threads (s : State) (a : Nat) (b : Byte) : (s.wr8 a b).threads = s.threads := rfl
@[simp] theorem State.wr8_scratch (s : State) (a : Nat) (b : Byte) : (s.wr8 a b).scratch = s.scratch := rfl
@[simp] theorem State.wr8_vgs (s : State) (a : Nat) (b : Byte) : (s.wr8 a b).vgs = s.vgs := rfl
@[simp] theorem State.wr8_imem (s : State) (a : Nat) (b : Byte) : (s.wr8 a b).imem = s.imem := rfl
@[simp] theorem State.wr8_ctrlSram (s : State) (a : Nat) (b : Byte) : (s.wr8 a b).ctrlSram = s.ctrlSram := rfl
@[simp] theorem State.wr8_fabLate (s : State) (a : Nat) (b : Byte) : (s.wr8 a b).fabLate = s.fabLate := rfl
@[simp] theorem State.wr8_fabCut (s : State) (a : Nat) (b : Byte) : (s.wr8 a b).fabCut = s.fabCut := rfl
@[simp] theorem State.wr8_sidLog (s : State) (a : Nat) (b : Byte) : (s.wr8 a b).sidLog = s.sidLog := rfl
@[simp] theorem State.wr8_reportAddr (s : State) (a : Nat) (b : Byte) : (s.wr8 a b).reportAddr = s.reportAddr := rfl
@[simp] theorem State.wr8_chans (s : State) (a : Nat) (b : Byte) : (s.wr8 a b).chans = s.chans := rfl
@[simp] theorem State.wr8_profile (s : State) (a : Nat) (b : Byte) : (s.wr8 a b).profile = s.profile := rfl
@[simp] theorem State.wr8_indexOk (s : State) (a : Nat) (b : Byte) : (s.wr8 a b).indexOk = s.indexOk := rfl
@[simp] theorem State.wr8_indexAt (s : State) (a : Nat) (b : Byte) : (s.wr8 a b).indexAt = s.indexAt := rfl
@[simp] theorem State.wr8_indexImg (s : State) (a : Nat) (b : Byte) : (s.wr8 a b).indexImg = s.indexImg := rfl
@[simp] theorem State.wr8_refillAt (s : State) (a : Nat) (b : Byte) : (s.wr8 a b).refillAt = s.refillAt := rfl
@[simp] theorem State.wr8_lastRing (s : State) (a : Nat) (b : Byte) : (s.wr8 a b).lastRing = s.lastRing := rfl
@[simp] theorem State.wr8_capture (s : State) (a : Nat) (b : Byte) : (s.wr8 a b).capture = s.capture := rfl
@[simp] theorem State.wr8_bootRec (s : State) (a : Nat) (b : Byte) : (s.wr8 a b).bootRec = s.bootRec := rfl
@[simp] theorem State.wr8_snap (s : State) (a : Nat) (b : Byte) : (s.wr8 a b).snap = s.snap := rfl
@[simp] theorem State.wr8_snapOk (s : State) (a : Nat) (b : Byte) : (s.wr8 a b).snapOk = s.snapOk := rfl
@[simp] theorem State.wr8_faults (s : State) (a : Nat) (b : Byte) : (s.wr8 a b).faults = s.faults := rfl
@[simp] theorem State.wr8_boot (s : State) (a : Nat) (b : Byte) : (s.wr8 a b).boot = s.boot := rfl
@[simp] theorem State.wr8_flash (s : State) (a : Nat) (b : Byte) : (s.wr8 a b).flash = s.flash := rfl
@[simp] theorem State.wr8_spi (s : State) (a : Nat) (b : Byte) : (s.wr8 a b).spi = s.spi := rfl
@[simp] theorem State.wr8_port (s : State) (a : Nat) (b : Byte) : (s.wr8 a b).port = s.port := rfl
@[simp] theorem State.wr8_fuses (s : State) (a : Nat) (b : Byte) : (s.wr8 a b).fuses = s.fuses := rfl
@[simp] theorem State.wr8_chnOut (s : State) (a : Nat) (b : Byte) : (s.wr8 a b).chnOut = s.chnOut := rfl
@[simp] theorem State.wr8_peerOut (s : State) (a : Nat) (b : Byte) : (s.wr8 a b).peerOut = s.peerOut := rfl
@[simp] theorem State.wr8_lastAt (s : State) (a : Nat) (b : Byte) : (s.wr8 a b).lastAt = s.lastAt := rfl
@[simp] theorem State.wr8_enumHeld (s : State) (a : Nat) (b : Byte) : (s.wr8 a b).enumHeld = s.enumHeld := rfl
@[simp] theorem State.wr8_mailOut (s : State) (a : Nat) (b : Byte) : (s.wr8 a b).mailOut = s.mailOut := rfl
@[simp] theorem State.wr8_wrAt (s : State) (a : Nat) (b : Byte) : (s.wr8 a b).wrAt = s.wrAt := rfl
@[simp] theorem State.wr8_wrOld (s : State) (a : Nat) (b : Byte) : (s.wr8 a b).wrOld = s.wrOld := rfl
@[simp] theorem State.wr8_chnWait (s : State) (a : Nat) (b : Byte) : (s.wr8 a b).chnWait = s.chnWait := rfl
@[simp] theorem State.wr8_wdogAt (s : State) (a : Nat) (b : Byte) : (s.wr8 a b).wdogAt = s.wdogAt := rfl
@[simp] theorem State.wr8_pair (s : State) (a : Nat) (b : Byte) : (s.wr8 a b).pair = s.pair := rfl
@[simp] theorem State.wr8_vseg (s : State) (a : Nat) (b : Byte) : (s.wr8 a b).vseg = s.vseg := rfl
@[simp] theorem State.wr8_grp (s : State) (a : Nat) (b : Byte) : (s.wr8 a b).grp = s.grp := rfl
@[simp] theorem State.wr8_ests (s : State) (a : Nat) (b : Byte) : (s.wr8 a b).ests = s.ests := rfl
@[simp] theorem State.wr8_raisedAt (s : State) (a : Nat) (b : Byte) : (s.wr8 a b).raisedAt = s.raisedAt := rfl
@[simp] theorem State.wr8_coolAt (s : State) (a : Nat) (b : Byte) : (s.wr8 a b).coolAt = s.coolAt := rfl
@[simp] theorem State.wr8_waking (s : State) (a : Nat) (b : Byte) : (s.wr8 a b).waking = s.waking := rfl
@[simp] theorem State.wr8_sleeping (s : State) (a : Nat) (b : Byte) : (s.wr8 a b).sleeping = s.sleeping := rfl
@[simp] theorem State.wr8_domLog (s : State) (a : Nat) (b : Byte) : (s.wr8 a b).domLog = s.domLog := rfl
@[simp] theorem State.wr8_units (s : State) (a : Nat) (b : Byte) : (s.wr8 a b).units = s.units := rfl
@[simp] theorem State.wr8_trace (s : State) (a : Nat) (b : Byte) : (s.wr8 a b).trace = s.trace := rfl
@[simp] theorem State.wr8_traceBase (s : State) (a : Nat) (b : Byte) : (s.wr8 a b).traceBase = s.traceBase := rfl
@[simp] theorem State.wr8_traceSlots (s : State) (a : Nat) (b : Byte) : (s.wr8 a b).traceSlots = s.traceSlots := rfl
@[simp] theorem State.wr8_tapIr (s : State) (a : Nat) (b : Byte) : (s.wr8 a b).tapIr = s.tapIr := rfl
@[simp] theorem State.wr8_tapDr (s : State) (a : Nat) (b : Byte) : (s.wr8 a b).tapDr = s.tapDr := rfl
@[simp] theorem State.wr8_tapRes (s : State) (a : Nat) (b : Byte) : (s.wr8 a b).tapRes = s.tapRes := rfl
@[simp] theorem State.wr8_access (s : State) (a : Nat) (b : Byte) : (s.wr8 a b).access = s.access := rfl
@[simp] theorem State.wr8_accessAt (s : State) (a : Nat) (b : Byte) : (s.wr8 a b).accessAt = s.accessAt := rfl

/-! ### freeBelow -/
@[simp] theorem State.freeBelow_snd_pending (s : State) (n : Nat) : ((s.freeBelow n).2).pending = s.pending := rfl
@[simp] theorem State.freeBelow_snd_time (s : State) (n : Nat) : ((s.freeBelow n).2).time = s.time := rfl
@[simp] theorem State.freeBelow_snd_aonBefore (s : State) (n : Nat) : ((s.freeBelow n).2).aonBefore = s.aonBefore := rfl
@[simp] theorem State.freeBelow_snd_resp (s : State) (n : Nat) : ((s.freeBelow n).2).resp = s.resp := rfl
@[simp] theorem State.freeBelow_snd_mem (s : State) (n : Nat) : ((s.freeBelow n).2).mem = s.mem := rfl
@[simp] theorem State.freeBelow_snd_regs (s : State) (n : Nat) : ((s.freeBelow n).2).regs = s.regs := rfl
@[simp] theorem State.freeBelow_snd_pairLatch (s : State) (n : Nat) : ((s.freeBelow n).2).pairLatch = s.pairLatch := rfl
@[simp] theorem State.freeBelow_snd_pairHold (s : State) (n : Nat) : ((s.freeBelow n).2).pairHold = s.pairHold := rfl
@[simp] theorem State.freeBelow_snd_sd (s : State) (n : Nat) : ((s.freeBelow n).2).sd = s.sd := rfl
@[simp] theorem State.freeBelow_snd_rings (s : State) (n : Nat) : ((s.freeBelow n).2).rings = s.rings := rfl
@[simp] theorem State.freeBelow_snd_ctxs (s : State) (n : Nat) : ((s.freeBelow n).2).ctxs = s.ctxs := rfl
@[simp] theorem State.freeBelow_snd_nextSeq (s : State) (n : Nat) : ((s.freeBelow n).2).nextSeq = s.nextSeq := rfl
@[simp] theorem State.freeBelow_snd_parts (s : State) (n : Nat) : ((s.freeBelow n).2).parts = s.parts := rfl
@[simp] theorem State.freeBelow_snd_objIds (s : State) (n : Nat) : ((s.freeBelow n).2).objIds = s.objIds := rfl
@[simp] theorem State.freeBelow_snd_objs (s : State) (n : Nat) : ((s.freeBelow n).2).objs = s.objs := rfl
@[simp] theorem State.freeBelow_snd_strands (s : State) (n : Nat) : ((s.freeBelow n).2).strands = s.strands := rfl
@[simp] theorem State.freeBelow_snd_lockets (s : State) (n : Nat) : ((s.freeBelow n).2).lockets = s.lockets := rfl
@[simp] theorem State.freeBelow_snd_threads (s : State) (n : Nat) : ((s.freeBelow n).2).threads = s.threads := rfl
@[simp] theorem State.freeBelow_snd_scratch (s : State) (n : Nat) : ((s.freeBelow n).2).scratch = s.scratch := rfl
@[simp] theorem State.freeBelow_snd_vgs (s : State) (n : Nat) : ((s.freeBelow n).2).vgs = s.vgs := rfl
@[simp] theorem State.freeBelow_snd_imem (s : State) (n : Nat) : ((s.freeBelow n).2).imem = s.imem := rfl
@[simp] theorem State.freeBelow_snd_ctrlSram (s : State) (n : Nat) : ((s.freeBelow n).2).ctrlSram = s.ctrlSram := rfl
@[simp] theorem State.freeBelow_snd_fabLate (s : State) (n : Nat) : ((s.freeBelow n).2).fabLate = s.fabLate := rfl
@[simp] theorem State.freeBelow_snd_fabCut (s : State) (n : Nat) : ((s.freeBelow n).2).fabCut = s.fabCut := rfl
@[simp] theorem State.freeBelow_snd_sidLog (s : State) (n : Nat) : ((s.freeBelow n).2).sidLog = s.sidLog := rfl
@[simp] theorem State.freeBelow_snd_reportAddr (s : State) (n : Nat) : ((s.freeBelow n).2).reportAddr = s.reportAddr := rfl
@[simp] theorem State.freeBelow_snd_chans (s : State) (n : Nat) : ((s.freeBelow n).2).chans = s.chans := rfl
@[simp] theorem State.freeBelow_snd_profile (s : State) (n : Nat) : ((s.freeBelow n).2).profile = s.profile := rfl
@[simp] theorem State.freeBelow_snd_indexOk (s : State) (n : Nat) : ((s.freeBelow n).2).indexOk = s.indexOk := rfl
@[simp] theorem State.freeBelow_snd_indexAt (s : State) (n : Nat) : ((s.freeBelow n).2).indexAt = s.indexAt := rfl
@[simp] theorem State.freeBelow_snd_indexImg (s : State) (n : Nat) : ((s.freeBelow n).2).indexImg = s.indexImg := rfl
@[simp] theorem State.freeBelow_snd_refillAt (s : State) (n : Nat) : ((s.freeBelow n).2).refillAt = s.refillAt := rfl
@[simp] theorem State.freeBelow_snd_lastRing (s : State) (n : Nat) : ((s.freeBelow n).2).lastRing = s.lastRing := rfl
@[simp] theorem State.freeBelow_snd_capture (s : State) (n : Nat) : ((s.freeBelow n).2).capture = s.capture := rfl
@[simp] theorem State.freeBelow_snd_bootRec (s : State) (n : Nat) : ((s.freeBelow n).2).bootRec = s.bootRec := rfl
@[simp] theorem State.freeBelow_snd_snap (s : State) (n : Nat) : ((s.freeBelow n).2).snap = s.snap := rfl
@[simp] theorem State.freeBelow_snd_snapOk (s : State) (n : Nat) : ((s.freeBelow n).2).snapOk = s.snapOk := rfl
@[simp] theorem State.freeBelow_snd_faults (s : State) (n : Nat) : ((s.freeBelow n).2).faults = s.faults := rfl
@[simp] theorem State.freeBelow_snd_boot (s : State) (n : Nat) : ((s.freeBelow n).2).boot = s.boot := rfl
@[simp] theorem State.freeBelow_snd_flash (s : State) (n : Nat) : ((s.freeBelow n).2).flash = s.flash := rfl
@[simp] theorem State.freeBelow_snd_spi (s : State) (n : Nat) : ((s.freeBelow n).2).spi = s.spi := rfl
@[simp] theorem State.freeBelow_snd_port (s : State) (n : Nat) : ((s.freeBelow n).2).port = s.port := rfl
@[simp] theorem State.freeBelow_snd_fuses (s : State) (n : Nat) : ((s.freeBelow n).2).fuses = s.fuses := rfl
@[simp] theorem State.freeBelow_snd_chnOut (s : State) (n : Nat) : ((s.freeBelow n).2).chnOut = s.chnOut := rfl
@[simp] theorem State.freeBelow_snd_peerOut (s : State) (n : Nat) : ((s.freeBelow n).2).peerOut = s.peerOut := rfl
@[simp] theorem State.freeBelow_snd_lastAt (s : State) (n : Nat) : ((s.freeBelow n).2).lastAt = s.lastAt := rfl
@[simp] theorem State.freeBelow_snd_enumHeld (s : State) (n : Nat) : ((s.freeBelow n).2).enumHeld = s.enumHeld := rfl
@[simp] theorem State.freeBelow_snd_mailOut (s : State) (n : Nat) : ((s.freeBelow n).2).mailOut = s.mailOut := rfl
@[simp] theorem State.freeBelow_snd_wrAt (s : State) (n : Nat) : ((s.freeBelow n).2).wrAt = s.wrAt := rfl
@[simp] theorem State.freeBelow_snd_wrOld (s : State) (n : Nat) : ((s.freeBelow n).2).wrOld = s.wrOld := rfl
@[simp] theorem State.freeBelow_snd_chnWait (s : State) (n : Nat) : ((s.freeBelow n).2).chnWait = s.chnWait := rfl
@[simp] theorem State.freeBelow_snd_wdogAt (s : State) (n : Nat) : ((s.freeBelow n).2).wdogAt = s.wdogAt := rfl
@[simp] theorem State.freeBelow_snd_pair (s : State) (n : Nat) : ((s.freeBelow n).2).pair = s.pair := rfl
@[simp] theorem State.freeBelow_snd_wlog (s : State) (n : Nat) : ((s.freeBelow n).2).wlog = s.wlog := rfl
@[simp] theorem State.freeBelow_snd_vseg (s : State) (n : Nat) : ((s.freeBelow n).2).vseg = s.vseg := rfl
@[simp] theorem State.freeBelow_snd_grp (s : State) (n : Nat) : ((s.freeBelow n).2).grp = s.grp := rfl
@[simp] theorem State.freeBelow_snd_ests (s : State) (n : Nat) : ((s.freeBelow n).2).ests = s.ests := rfl
@[simp] theorem State.freeBelow_snd_raisedAt (s : State) (n : Nat) : ((s.freeBelow n).2).raisedAt = s.raisedAt := rfl
@[simp] theorem State.freeBelow_snd_coolAt (s : State) (n : Nat) : ((s.freeBelow n).2).coolAt = s.coolAt := rfl
@[simp] theorem State.freeBelow_snd_waking (s : State) (n : Nat) : ((s.freeBelow n).2).waking = s.waking := rfl
@[simp] theorem State.freeBelow_snd_sleeping (s : State) (n : Nat) : ((s.freeBelow n).2).sleeping = s.sleeping := rfl
@[simp] theorem State.freeBelow_snd_domLog (s : State) (n : Nat) : ((s.freeBelow n).2).domLog = s.domLog := rfl
@[simp] theorem State.freeBelow_snd_units (s : State) (n : Nat) : ((s.freeBelow n).2).units = s.units := rfl
@[simp] theorem State.freeBelow_snd_trace (s : State) (n : Nat) : ((s.freeBelow n).2).trace = s.trace := rfl
@[simp] theorem State.freeBelow_snd_traceBase (s : State) (n : Nat) : ((s.freeBelow n).2).traceBase = s.traceBase := rfl
@[simp] theorem State.freeBelow_snd_traceSlots (s : State) (n : Nat) : ((s.freeBelow n).2).traceSlots = s.traceSlots := rfl
@[simp] theorem State.freeBelow_snd_tapIr (s : State) (n : Nat) : ((s.freeBelow n).2).tapIr = s.tapIr := rfl
@[simp] theorem State.freeBelow_snd_tapDr (s : State) (n : Nat) : ((s.freeBelow n).2).tapDr = s.tapDr := rfl
@[simp] theorem State.freeBelow_snd_tapRes (s : State) (n : Nat) : ((s.freeBelow n).2).tapRes = s.tapRes := rfl
@[simp] theorem State.freeBelow_snd_access (s : State) (n : Nat) : ((s.freeBelow n).2).access = s.access := rfl
@[simp] theorem State.freeBelow_snd_accessAt (s : State) (n : Nat) : ((s.freeBelow n).2).accessAt = s.accessAt := rfl

/-! ### freeBytes -/
@[simp] theorem State.freeBytes_snd_pending (s : State) (n : Nat) : ((s.freeBytes n).2).pending = s.pending := rfl
@[simp] theorem State.freeBytes_snd_time (s : State) (n : Nat) : ((s.freeBytes n).2).time = s.time := rfl
@[simp] theorem State.freeBytes_snd_aonBefore (s : State) (n : Nat) : ((s.freeBytes n).2).aonBefore = s.aonBefore := rfl
@[simp] theorem State.freeBytes_snd_resp (s : State) (n : Nat) : ((s.freeBytes n).2).resp = s.resp := rfl
@[simp] theorem State.freeBytes_snd_mem (s : State) (n : Nat) : ((s.freeBytes n).2).mem = s.mem := rfl
@[simp] theorem State.freeBytes_snd_regs (s : State) (n : Nat) : ((s.freeBytes n).2).regs = s.regs := rfl
@[simp] theorem State.freeBytes_snd_pairLatch (s : State) (n : Nat) : ((s.freeBytes n).2).pairLatch = s.pairLatch := rfl
@[simp] theorem State.freeBytes_snd_pairHold (s : State) (n : Nat) : ((s.freeBytes n).2).pairHold = s.pairHold := rfl
@[simp] theorem State.freeBytes_snd_sd (s : State) (n : Nat) : ((s.freeBytes n).2).sd = s.sd := rfl
@[simp] theorem State.freeBytes_snd_rings (s : State) (n : Nat) : ((s.freeBytes n).2).rings = s.rings := rfl
@[simp] theorem State.freeBytes_snd_ctxs (s : State) (n : Nat) : ((s.freeBytes n).2).ctxs = s.ctxs := rfl
@[simp] theorem State.freeBytes_snd_nextSeq (s : State) (n : Nat) : ((s.freeBytes n).2).nextSeq = s.nextSeq := rfl
@[simp] theorem State.freeBytes_snd_parts (s : State) (n : Nat) : ((s.freeBytes n).2).parts = s.parts := rfl
@[simp] theorem State.freeBytes_snd_objIds (s : State) (n : Nat) : ((s.freeBytes n).2).objIds = s.objIds := rfl
@[simp] theorem State.freeBytes_snd_objs (s : State) (n : Nat) : ((s.freeBytes n).2).objs = s.objs := rfl
@[simp] theorem State.freeBytes_snd_strands (s : State) (n : Nat) : ((s.freeBytes n).2).strands = s.strands := rfl
@[simp] theorem State.freeBytes_snd_lockets (s : State) (n : Nat) : ((s.freeBytes n).2).lockets = s.lockets := rfl
@[simp] theorem State.freeBytes_snd_threads (s : State) (n : Nat) : ((s.freeBytes n).2).threads = s.threads := rfl
@[simp] theorem State.freeBytes_snd_scratch (s : State) (n : Nat) : ((s.freeBytes n).2).scratch = s.scratch := rfl
@[simp] theorem State.freeBytes_snd_vgs (s : State) (n : Nat) : ((s.freeBytes n).2).vgs = s.vgs := rfl
@[simp] theorem State.freeBytes_snd_imem (s : State) (n : Nat) : ((s.freeBytes n).2).imem = s.imem := rfl
@[simp] theorem State.freeBytes_snd_ctrlSram (s : State) (n : Nat) : ((s.freeBytes n).2).ctrlSram = s.ctrlSram := rfl
@[simp] theorem State.freeBytes_snd_fabLate (s : State) (n : Nat) : ((s.freeBytes n).2).fabLate = s.fabLate := rfl
@[simp] theorem State.freeBytes_snd_fabCut (s : State) (n : Nat) : ((s.freeBytes n).2).fabCut = s.fabCut := rfl
@[simp] theorem State.freeBytes_snd_sidLog (s : State) (n : Nat) : ((s.freeBytes n).2).sidLog = s.sidLog := rfl
@[simp] theorem State.freeBytes_snd_reportAddr (s : State) (n : Nat) : ((s.freeBytes n).2).reportAddr = s.reportAddr := rfl
@[simp] theorem State.freeBytes_snd_chans (s : State) (n : Nat) : ((s.freeBytes n).2).chans = s.chans := rfl
@[simp] theorem State.freeBytes_snd_profile (s : State) (n : Nat) : ((s.freeBytes n).2).profile = s.profile := rfl
@[simp] theorem State.freeBytes_snd_indexOk (s : State) (n : Nat) : ((s.freeBytes n).2).indexOk = s.indexOk := rfl
@[simp] theorem State.freeBytes_snd_indexAt (s : State) (n : Nat) : ((s.freeBytes n).2).indexAt = s.indexAt := rfl
@[simp] theorem State.freeBytes_snd_indexImg (s : State) (n : Nat) : ((s.freeBytes n).2).indexImg = s.indexImg := rfl
@[simp] theorem State.freeBytes_snd_refillAt (s : State) (n : Nat) : ((s.freeBytes n).2).refillAt = s.refillAt := rfl
@[simp] theorem State.freeBytes_snd_lastRing (s : State) (n : Nat) : ((s.freeBytes n).2).lastRing = s.lastRing := rfl
@[simp] theorem State.freeBytes_snd_capture (s : State) (n : Nat) : ((s.freeBytes n).2).capture = s.capture := rfl
@[simp] theorem State.freeBytes_snd_bootRec (s : State) (n : Nat) : ((s.freeBytes n).2).bootRec = s.bootRec := rfl
@[simp] theorem State.freeBytes_snd_snap (s : State) (n : Nat) : ((s.freeBytes n).2).snap = s.snap := rfl
@[simp] theorem State.freeBytes_snd_snapOk (s : State) (n : Nat) : ((s.freeBytes n).2).snapOk = s.snapOk := rfl
@[simp] theorem State.freeBytes_snd_faults (s : State) (n : Nat) : ((s.freeBytes n).2).faults = s.faults := rfl
@[simp] theorem State.freeBytes_snd_boot (s : State) (n : Nat) : ((s.freeBytes n).2).boot = s.boot := rfl
@[simp] theorem State.freeBytes_snd_flash (s : State) (n : Nat) : ((s.freeBytes n).2).flash = s.flash := rfl
@[simp] theorem State.freeBytes_snd_spi (s : State) (n : Nat) : ((s.freeBytes n).2).spi = s.spi := rfl
@[simp] theorem State.freeBytes_snd_port (s : State) (n : Nat) : ((s.freeBytes n).2).port = s.port := rfl
@[simp] theorem State.freeBytes_snd_fuses (s : State) (n : Nat) : ((s.freeBytes n).2).fuses = s.fuses := rfl
@[simp] theorem State.freeBytes_snd_chnOut (s : State) (n : Nat) : ((s.freeBytes n).2).chnOut = s.chnOut := rfl
@[simp] theorem State.freeBytes_snd_peerOut (s : State) (n : Nat) : ((s.freeBytes n).2).peerOut = s.peerOut := rfl
@[simp] theorem State.freeBytes_snd_lastAt (s : State) (n : Nat) : ((s.freeBytes n).2).lastAt = s.lastAt := rfl
@[simp] theorem State.freeBytes_snd_enumHeld (s : State) (n : Nat) : ((s.freeBytes n).2).enumHeld = s.enumHeld := rfl
@[simp] theorem State.freeBytes_snd_mailOut (s : State) (n : Nat) : ((s.freeBytes n).2).mailOut = s.mailOut := rfl
@[simp] theorem State.freeBytes_snd_wrAt (s : State) (n : Nat) : ((s.freeBytes n).2).wrAt = s.wrAt := rfl
@[simp] theorem State.freeBytes_snd_wrOld (s : State) (n : Nat) : ((s.freeBytes n).2).wrOld = s.wrOld := rfl
@[simp] theorem State.freeBytes_snd_chnWait (s : State) (n : Nat) : ((s.freeBytes n).2).chnWait = s.chnWait := rfl
@[simp] theorem State.freeBytes_snd_wdogAt (s : State) (n : Nat) : ((s.freeBytes n).2).wdogAt = s.wdogAt := rfl
@[simp] theorem State.freeBytes_snd_pair (s : State) (n : Nat) : ((s.freeBytes n).2).pair = s.pair := rfl
@[simp] theorem State.freeBytes_snd_wlog (s : State) (n : Nat) : ((s.freeBytes n).2).wlog = s.wlog := rfl
@[simp] theorem State.freeBytes_snd_vseg (s : State) (n : Nat) : ((s.freeBytes n).2).vseg = s.vseg := rfl
@[simp] theorem State.freeBytes_snd_grp (s : State) (n : Nat) : ((s.freeBytes n).2).grp = s.grp := rfl
@[simp] theorem State.freeBytes_snd_ests (s : State) (n : Nat) : ((s.freeBytes n).2).ests = s.ests := rfl
@[simp] theorem State.freeBytes_snd_raisedAt (s : State) (n : Nat) : ((s.freeBytes n).2).raisedAt = s.raisedAt := rfl
@[simp] theorem State.freeBytes_snd_coolAt (s : State) (n : Nat) : ((s.freeBytes n).2).coolAt = s.coolAt := rfl
@[simp] theorem State.freeBytes_snd_waking (s : State) (n : Nat) : ((s.freeBytes n).2).waking = s.waking := rfl
@[simp] theorem State.freeBytes_snd_sleeping (s : State) (n : Nat) : ((s.freeBytes n).2).sleeping = s.sleeping := rfl
@[simp] theorem State.freeBytes_snd_domLog (s : State) (n : Nat) : ((s.freeBytes n).2).domLog = s.domLog := rfl
@[simp] theorem State.freeBytes_snd_units (s : State) (n : Nat) : ((s.freeBytes n).2).units = s.units := rfl
@[simp] theorem State.freeBytes_snd_trace (s : State) (n : Nat) : ((s.freeBytes n).2).trace = s.trace := rfl
@[simp] theorem State.freeBytes_snd_traceBase (s : State) (n : Nat) : ((s.freeBytes n).2).traceBase = s.traceBase := rfl
@[simp] theorem State.freeBytes_snd_traceSlots (s : State) (n : Nat) : ((s.freeBytes n).2).traceSlots = s.traceSlots := rfl
@[simp] theorem State.freeBytes_snd_tapIr (s : State) (n : Nat) : ((s.freeBytes n).2).tapIr = s.tapIr := rfl
@[simp] theorem State.freeBytes_snd_tapDr (s : State) (n : Nat) : ((s.freeBytes n).2).tapDr = s.tapDr := rfl
@[simp] theorem State.freeBytes_snd_tapRes (s : State) (n : Nat) : ((s.freeBytes n).2).tapRes = s.tapRes := rfl
@[simp] theorem State.freeBytes_snd_access (s : State) (n : Nat) : ((s.freeBytes n).2).access = s.access := rfl
@[simp] theorem State.freeBytes_snd_accessAt (s : State) (n : Nat) : ((s.freeBytes n).2).accessAt = s.accessAt := rfl

/-! ### ringUpd -/
@[simp] theorem State.ringUpd_pending (s : State) (r : Ring) (f : RingPair → RingPair) : (s.ringUpd r f).pending = s.pending := rfl
@[simp] theorem State.ringUpd_freeCtr (s : State) (r : Ring) (f : RingPair → RingPair) : (s.ringUpd r f).freeCtr = s.freeCtr := rfl
@[simp] theorem State.ringUpd_time (s : State) (r : Ring) (f : RingPair → RingPair) : (s.ringUpd r f).time = s.time := rfl
@[simp] theorem State.ringUpd_aonBefore (s : State) (r : Ring) (f : RingPair → RingPair) : (s.ringUpd r f).aonBefore = s.aonBefore := rfl
@[simp] theorem State.ringUpd_resp (s : State) (r : Ring) (f : RingPair → RingPair) : (s.ringUpd r f).resp = s.resp := rfl
@[simp] theorem State.ringUpd_mem (s : State) (r : Ring) (f : RingPair → RingPair) : (s.ringUpd r f).mem = s.mem := rfl
@[simp] theorem State.ringUpd_regs (s : State) (r : Ring) (f : RingPair → RingPair) : (s.ringUpd r f).regs = s.regs := rfl
@[simp] theorem State.ringUpd_pairLatch (s : State) (r : Ring) (f : RingPair → RingPair) : (s.ringUpd r f).pairLatch = s.pairLatch := rfl
@[simp] theorem State.ringUpd_pairHold (s : State) (r : Ring) (f : RingPair → RingPair) : (s.ringUpd r f).pairHold = s.pairHold := rfl
@[simp] theorem State.ringUpd_sd (s : State) (r : Ring) (f : RingPair → RingPair) : (s.ringUpd r f).sd = s.sd := rfl
@[simp] theorem State.ringUpd_ctxs (s : State) (r : Ring) (f : RingPair → RingPair) : (s.ringUpd r f).ctxs = s.ctxs := rfl
@[simp] theorem State.ringUpd_nextSeq (s : State) (r : Ring) (f : RingPair → RingPair) : (s.ringUpd r f).nextSeq = s.nextSeq := rfl
@[simp] theorem State.ringUpd_parts (s : State) (r : Ring) (f : RingPair → RingPair) : (s.ringUpd r f).parts = s.parts := rfl
@[simp] theorem State.ringUpd_objIds (s : State) (r : Ring) (f : RingPair → RingPair) : (s.ringUpd r f).objIds = s.objIds := rfl
@[simp] theorem State.ringUpd_objs (s : State) (r : Ring) (f : RingPair → RingPair) : (s.ringUpd r f).objs = s.objs := rfl
@[simp] theorem State.ringUpd_strands (s : State) (r : Ring) (f : RingPair → RingPair) : (s.ringUpd r f).strands = s.strands := rfl
@[simp] theorem State.ringUpd_lockets (s : State) (r : Ring) (f : RingPair → RingPair) : (s.ringUpd r f).lockets = s.lockets := rfl
@[simp] theorem State.ringUpd_threads (s : State) (r : Ring) (f : RingPair → RingPair) : (s.ringUpd r f).threads = s.threads := rfl
@[simp] theorem State.ringUpd_scratch (s : State) (r : Ring) (f : RingPair → RingPair) : (s.ringUpd r f).scratch = s.scratch := rfl
@[simp] theorem State.ringUpd_vgs (s : State) (r : Ring) (f : RingPair → RingPair) : (s.ringUpd r f).vgs = s.vgs := rfl
@[simp] theorem State.ringUpd_imem (s : State) (r : Ring) (f : RingPair → RingPair) : (s.ringUpd r f).imem = s.imem := rfl
@[simp] theorem State.ringUpd_ctrlSram (s : State) (r : Ring) (f : RingPair → RingPair) : (s.ringUpd r f).ctrlSram = s.ctrlSram := rfl
@[simp] theorem State.ringUpd_fabLate (s : State) (r : Ring) (f : RingPair → RingPair) : (s.ringUpd r f).fabLate = s.fabLate := rfl
@[simp] theorem State.ringUpd_fabCut (s : State) (r : Ring) (f : RingPair → RingPair) : (s.ringUpd r f).fabCut = s.fabCut := rfl
@[simp] theorem State.ringUpd_sidLog (s : State) (r : Ring) (f : RingPair → RingPair) : (s.ringUpd r f).sidLog = s.sidLog := rfl
@[simp] theorem State.ringUpd_reportAddr (s : State) (r : Ring) (f : RingPair → RingPair) : (s.ringUpd r f).reportAddr = s.reportAddr := rfl
@[simp] theorem State.ringUpd_chans (s : State) (r : Ring) (f : RingPair → RingPair) : (s.ringUpd r f).chans = s.chans := rfl
@[simp] theorem State.ringUpd_profile (s : State) (r : Ring) (f : RingPair → RingPair) : (s.ringUpd r f).profile = s.profile := rfl
@[simp] theorem State.ringUpd_indexOk (s : State) (r : Ring) (f : RingPair → RingPair) : (s.ringUpd r f).indexOk = s.indexOk := rfl
@[simp] theorem State.ringUpd_indexAt (s : State) (r : Ring) (f : RingPair → RingPair) : (s.ringUpd r f).indexAt = s.indexAt := rfl
@[simp] theorem State.ringUpd_indexImg (s : State) (r : Ring) (f : RingPair → RingPair) : (s.ringUpd r f).indexImg = s.indexImg := rfl
@[simp] theorem State.ringUpd_refillAt (s : State) (r : Ring) (f : RingPair → RingPair) : (s.ringUpd r f).refillAt = s.refillAt := rfl
@[simp] theorem State.ringUpd_lastRing (s : State) (r : Ring) (f : RingPair → RingPair) : (s.ringUpd r f).lastRing = s.lastRing := rfl
@[simp] theorem State.ringUpd_capture (s : State) (r : Ring) (f : RingPair → RingPair) : (s.ringUpd r f).capture = s.capture := rfl
@[simp] theorem State.ringUpd_bootRec (s : State) (r : Ring) (f : RingPair → RingPair) : (s.ringUpd r f).bootRec = s.bootRec := rfl
@[simp] theorem State.ringUpd_snap (s : State) (r : Ring) (f : RingPair → RingPair) : (s.ringUpd r f).snap = s.snap := rfl
@[simp] theorem State.ringUpd_snapOk (s : State) (r : Ring) (f : RingPair → RingPair) : (s.ringUpd r f).snapOk = s.snapOk := rfl
@[simp] theorem State.ringUpd_faults (s : State) (r : Ring) (f : RingPair → RingPair) : (s.ringUpd r f).faults = s.faults := rfl
@[simp] theorem State.ringUpd_boot (s : State) (r : Ring) (f : RingPair → RingPair) : (s.ringUpd r f).boot = s.boot := rfl
@[simp] theorem State.ringUpd_flash (s : State) (r : Ring) (f : RingPair → RingPair) : (s.ringUpd r f).flash = s.flash := rfl
@[simp] theorem State.ringUpd_spi (s : State) (r : Ring) (f : RingPair → RingPair) : (s.ringUpd r f).spi = s.spi := rfl
@[simp] theorem State.ringUpd_port (s : State) (r : Ring) (f : RingPair → RingPair) : (s.ringUpd r f).port = s.port := rfl
@[simp] theorem State.ringUpd_fuses (s : State) (r : Ring) (f : RingPair → RingPair) : (s.ringUpd r f).fuses = s.fuses := rfl
@[simp] theorem State.ringUpd_chnOut (s : State) (r : Ring) (f : RingPair → RingPair) : (s.ringUpd r f).chnOut = s.chnOut := rfl
@[simp] theorem State.ringUpd_peerOut (s : State) (r : Ring) (f : RingPair → RingPair) : (s.ringUpd r f).peerOut = s.peerOut := rfl
@[simp] theorem State.ringUpd_lastAt (s : State) (r : Ring) (f : RingPair → RingPair) : (s.ringUpd r f).lastAt = s.lastAt := rfl
@[simp] theorem State.ringUpd_enumHeld (s : State) (r : Ring) (f : RingPair → RingPair) : (s.ringUpd r f).enumHeld = s.enumHeld := rfl
@[simp] theorem State.ringUpd_mailOut (s : State) (r : Ring) (f : RingPair → RingPair) : (s.ringUpd r f).mailOut = s.mailOut := rfl
@[simp] theorem State.ringUpd_wrAt (s : State) (r : Ring) (f : RingPair → RingPair) : (s.ringUpd r f).wrAt = s.wrAt := rfl
@[simp] theorem State.ringUpd_wrOld (s : State) (r : Ring) (f : RingPair → RingPair) : (s.ringUpd r f).wrOld = s.wrOld := rfl
@[simp] theorem State.ringUpd_chnWait (s : State) (r : Ring) (f : RingPair → RingPair) : (s.ringUpd r f).chnWait = s.chnWait := rfl
@[simp] theorem State.ringUpd_wdogAt (s : State) (r : Ring) (f : RingPair → RingPair) : (s.ringUpd r f).wdogAt = s.wdogAt := rfl
@[simp] theorem State.ringUpd_pair (s : State) (r : Ring) (f : RingPair → RingPair) : (s.ringUpd r f).pair = s.pair := rfl
@[simp] theorem State.ringUpd_wlog (s : State) (r : Ring) (f : RingPair → RingPair) : (s.ringUpd r f).wlog = s.wlog := rfl
@[simp] theorem State.ringUpd_vseg (s : State) (r : Ring) (f : RingPair → RingPair) : (s.ringUpd r f).vseg = s.vseg := rfl
@[simp] theorem State.ringUpd_grp (s : State) (r : Ring) (f : RingPair → RingPair) : (s.ringUpd r f).grp = s.grp := rfl
@[simp] theorem State.ringUpd_ests (s : State) (r : Ring) (f : RingPair → RingPair) : (s.ringUpd r f).ests = s.ests := rfl
@[simp] theorem State.ringUpd_raisedAt (s : State) (r : Ring) (f : RingPair → RingPair) : (s.ringUpd r f).raisedAt = s.raisedAt := rfl
@[simp] theorem State.ringUpd_coolAt (s : State) (r : Ring) (f : RingPair → RingPair) : (s.ringUpd r f).coolAt = s.coolAt := rfl
@[simp] theorem State.ringUpd_waking (s : State) (r : Ring) (f : RingPair → RingPair) : (s.ringUpd r f).waking = s.waking := rfl
@[simp] theorem State.ringUpd_sleeping (s : State) (r : Ring) (f : RingPair → RingPair) : (s.ringUpd r f).sleeping = s.sleeping := rfl
@[simp] theorem State.ringUpd_domLog (s : State) (r : Ring) (f : RingPair → RingPair) : (s.ringUpd r f).domLog = s.domLog := rfl
@[simp] theorem State.ringUpd_units (s : State) (r : Ring) (f : RingPair → RingPair) : (s.ringUpd r f).units = s.units := rfl
@[simp] theorem State.ringUpd_trace (s : State) (r : Ring) (f : RingPair → RingPair) : (s.ringUpd r f).trace = s.trace := rfl
@[simp] theorem State.ringUpd_traceBase (s : State) (r : Ring) (f : RingPair → RingPair) : (s.ringUpd r f).traceBase = s.traceBase := rfl
@[simp] theorem State.ringUpd_traceSlots (s : State) (r : Ring) (f : RingPair → RingPair) : (s.ringUpd r f).traceSlots = s.traceSlots := rfl
@[simp] theorem State.ringUpd_tapIr (s : State) (r : Ring) (f : RingPair → RingPair) : (s.ringUpd r f).tapIr = s.tapIr := rfl
@[simp] theorem State.ringUpd_tapDr (s : State) (r : Ring) (f : RingPair → RingPair) : (s.ringUpd r f).tapDr = s.tapDr := rfl
@[simp] theorem State.ringUpd_tapRes (s : State) (r : Ring) (f : RingPair → RingPair) : (s.ringUpd r f).tapRes = s.tapRes := rfl
@[simp] theorem State.ringUpd_access (s : State) (r : Ring) (f : RingPair → RingPair) : (s.ringUpd r f).access = s.access := rfl
@[simp] theorem State.ringUpd_accessAt (s : State) (r : Ring) (f : RingPair → RingPair) : (s.ringUpd r f).accessAt = s.accessAt := rfl

/-! ### sdUpd -/
@[simp] theorem State.sdUpd_pending (s : State) (d : Dom) (f : StepDomain → StepDomain) : (s.sdUpd d f).pending = s.pending := rfl
@[simp] theorem State.sdUpd_freeCtr (s : State) (d : Dom) (f : StepDomain → StepDomain) : (s.sdUpd d f).freeCtr = s.freeCtr := rfl
@[simp] theorem State.sdUpd_time (s : State) (d : Dom) (f : StepDomain → StepDomain) : (s.sdUpd d f).time = s.time := rfl
@[simp] theorem State.sdUpd_aonBefore (s : State) (d : Dom) (f : StepDomain → StepDomain) : (s.sdUpd d f).aonBefore = s.aonBefore := rfl
@[simp] theorem State.sdUpd_resp (s : State) (d : Dom) (f : StepDomain → StepDomain) : (s.sdUpd d f).resp = s.resp := rfl
@[simp] theorem State.sdUpd_mem (s : State) (d : Dom) (f : StepDomain → StepDomain) : (s.sdUpd d f).mem = s.mem := rfl
@[simp] theorem State.sdUpd_regs (s : State) (d : Dom) (f : StepDomain → StepDomain) : (s.sdUpd d f).regs = s.regs := rfl
@[simp] theorem State.sdUpd_pairLatch (s : State) (d : Dom) (f : StepDomain → StepDomain) : (s.sdUpd d f).pairLatch = s.pairLatch := rfl
@[simp] theorem State.sdUpd_pairHold (s : State) (d : Dom) (f : StepDomain → StepDomain) : (s.sdUpd d f).pairHold = s.pairHold := rfl
@[simp] theorem State.sdUpd_rings (s : State) (d : Dom) (f : StepDomain → StepDomain) : (s.sdUpd d f).rings = s.rings := rfl
@[simp] theorem State.sdUpd_ctxs (s : State) (d : Dom) (f : StepDomain → StepDomain) : (s.sdUpd d f).ctxs = s.ctxs := rfl
@[simp] theorem State.sdUpd_nextSeq (s : State) (d : Dom) (f : StepDomain → StepDomain) : (s.sdUpd d f).nextSeq = s.nextSeq := rfl
@[simp] theorem State.sdUpd_parts (s : State) (d : Dom) (f : StepDomain → StepDomain) : (s.sdUpd d f).parts = s.parts := rfl
@[simp] theorem State.sdUpd_objIds (s : State) (d : Dom) (f : StepDomain → StepDomain) : (s.sdUpd d f).objIds = s.objIds := rfl
@[simp] theorem State.sdUpd_objs (s : State) (d : Dom) (f : StepDomain → StepDomain) : (s.sdUpd d f).objs = s.objs := rfl
@[simp] theorem State.sdUpd_strands (s : State) (d : Dom) (f : StepDomain → StepDomain) : (s.sdUpd d f).strands = s.strands := rfl
@[simp] theorem State.sdUpd_lockets (s : State) (d : Dom) (f : StepDomain → StepDomain) : (s.sdUpd d f).lockets = s.lockets := rfl
@[simp] theorem State.sdUpd_threads (s : State) (d : Dom) (f : StepDomain → StepDomain) : (s.sdUpd d f).threads = s.threads := rfl
@[simp] theorem State.sdUpd_scratch (s : State) (d : Dom) (f : StepDomain → StepDomain) : (s.sdUpd d f).scratch = s.scratch := rfl
@[simp] theorem State.sdUpd_vgs (s : State) (d : Dom) (f : StepDomain → StepDomain) : (s.sdUpd d f).vgs = s.vgs := rfl
@[simp] theorem State.sdUpd_imem (s : State) (d : Dom) (f : StepDomain → StepDomain) : (s.sdUpd d f).imem = s.imem := rfl
@[simp] theorem State.sdUpd_ctrlSram (s : State) (d : Dom) (f : StepDomain → StepDomain) : (s.sdUpd d f).ctrlSram = s.ctrlSram := rfl
@[simp] theorem State.sdUpd_fabLate (s : State) (d : Dom) (f : StepDomain → StepDomain) : (s.sdUpd d f).fabLate = s.fabLate := rfl
@[simp] theorem State.sdUpd_fabCut (s : State) (d : Dom) (f : StepDomain → StepDomain) : (s.sdUpd d f).fabCut = s.fabCut := rfl
@[simp] theorem State.sdUpd_sidLog (s : State) (d : Dom) (f : StepDomain → StepDomain) : (s.sdUpd d f).sidLog = s.sidLog := rfl
@[simp] theorem State.sdUpd_reportAddr (s : State) (d : Dom) (f : StepDomain → StepDomain) : (s.sdUpd d f).reportAddr = s.reportAddr := rfl
@[simp] theorem State.sdUpd_chans (s : State) (d : Dom) (f : StepDomain → StepDomain) : (s.sdUpd d f).chans = s.chans := rfl
@[simp] theorem State.sdUpd_profile (s : State) (d : Dom) (f : StepDomain → StepDomain) : (s.sdUpd d f).profile = s.profile := rfl
@[simp] theorem State.sdUpd_indexOk (s : State) (d : Dom) (f : StepDomain → StepDomain) : (s.sdUpd d f).indexOk = s.indexOk := rfl
@[simp] theorem State.sdUpd_indexAt (s : State) (d : Dom) (f : StepDomain → StepDomain) : (s.sdUpd d f).indexAt = s.indexAt := rfl
@[simp] theorem State.sdUpd_indexImg (s : State) (d : Dom) (f : StepDomain → StepDomain) : (s.sdUpd d f).indexImg = s.indexImg := rfl
@[simp] theorem State.sdUpd_refillAt (s : State) (d : Dom) (f : StepDomain → StepDomain) : (s.sdUpd d f).refillAt = s.refillAt := rfl
@[simp] theorem State.sdUpd_lastRing (s : State) (d : Dom) (f : StepDomain → StepDomain) : (s.sdUpd d f).lastRing = s.lastRing := rfl
@[simp] theorem State.sdUpd_capture (s : State) (d : Dom) (f : StepDomain → StepDomain) : (s.sdUpd d f).capture = s.capture := rfl
@[simp] theorem State.sdUpd_bootRec (s : State) (d : Dom) (f : StepDomain → StepDomain) : (s.sdUpd d f).bootRec = s.bootRec := rfl
@[simp] theorem State.sdUpd_snap (s : State) (d : Dom) (f : StepDomain → StepDomain) : (s.sdUpd d f).snap = s.snap := rfl
@[simp] theorem State.sdUpd_snapOk (s : State) (d : Dom) (f : StepDomain → StepDomain) : (s.sdUpd d f).snapOk = s.snapOk := rfl
@[simp] theorem State.sdUpd_faults (s : State) (d : Dom) (f : StepDomain → StepDomain) : (s.sdUpd d f).faults = s.faults := rfl
@[simp] theorem State.sdUpd_boot (s : State) (d : Dom) (f : StepDomain → StepDomain) : (s.sdUpd d f).boot = s.boot := rfl
@[simp] theorem State.sdUpd_flash (s : State) (d : Dom) (f : StepDomain → StepDomain) : (s.sdUpd d f).flash = s.flash := rfl
@[simp] theorem State.sdUpd_spi (s : State) (d : Dom) (f : StepDomain → StepDomain) : (s.sdUpd d f).spi = s.spi := rfl
@[simp] theorem State.sdUpd_port (s : State) (d : Dom) (f : StepDomain → StepDomain) : (s.sdUpd d f).port = s.port := rfl
@[simp] theorem State.sdUpd_fuses (s : State) (d : Dom) (f : StepDomain → StepDomain) : (s.sdUpd d f).fuses = s.fuses := rfl
@[simp] theorem State.sdUpd_chnOut (s : State) (d : Dom) (f : StepDomain → StepDomain) : (s.sdUpd d f).chnOut = s.chnOut := rfl
@[simp] theorem State.sdUpd_peerOut (s : State) (d : Dom) (f : StepDomain → StepDomain) : (s.sdUpd d f).peerOut = s.peerOut := rfl
@[simp] theorem State.sdUpd_lastAt (s : State) (d : Dom) (f : StepDomain → StepDomain) : (s.sdUpd d f).lastAt = s.lastAt := rfl
@[simp] theorem State.sdUpd_enumHeld (s : State) (d : Dom) (f : StepDomain → StepDomain) : (s.sdUpd d f).enumHeld = s.enumHeld := rfl
@[simp] theorem State.sdUpd_mailOut (s : State) (d : Dom) (f : StepDomain → StepDomain) : (s.sdUpd d f).mailOut = s.mailOut := rfl
@[simp] theorem State.sdUpd_wrAt (s : State) (d : Dom) (f : StepDomain → StepDomain) : (s.sdUpd d f).wrAt = s.wrAt := rfl
@[simp] theorem State.sdUpd_wrOld (s : State) (d : Dom) (f : StepDomain → StepDomain) : (s.sdUpd d f).wrOld = s.wrOld := rfl
@[simp] theorem State.sdUpd_chnWait (s : State) (d : Dom) (f : StepDomain → StepDomain) : (s.sdUpd d f).chnWait = s.chnWait := rfl
@[simp] theorem State.sdUpd_wdogAt (s : State) (d : Dom) (f : StepDomain → StepDomain) : (s.sdUpd d f).wdogAt = s.wdogAt := rfl
@[simp] theorem State.sdUpd_pair (s : State) (d : Dom) (f : StepDomain → StepDomain) : (s.sdUpd d f).pair = s.pair := rfl
@[simp] theorem State.sdUpd_wlog (s : State) (d : Dom) (f : StepDomain → StepDomain) : (s.sdUpd d f).wlog = s.wlog := rfl
@[simp] theorem State.sdUpd_vseg (s : State) (d : Dom) (f : StepDomain → StepDomain) : (s.sdUpd d f).vseg = s.vseg := rfl
@[simp] theorem State.sdUpd_grp (s : State) (d : Dom) (f : StepDomain → StepDomain) : (s.sdUpd d f).grp = s.grp := rfl
@[simp] theorem State.sdUpd_ests (s : State) (d : Dom) (f : StepDomain → StepDomain) : (s.sdUpd d f).ests = s.ests := rfl
@[simp] theorem State.sdUpd_raisedAt (s : State) (d : Dom) (f : StepDomain → StepDomain) : (s.sdUpd d f).raisedAt = s.raisedAt := rfl
@[simp] theorem State.sdUpd_coolAt (s : State) (d : Dom) (f : StepDomain → StepDomain) : (s.sdUpd d f).coolAt = s.coolAt := rfl
@[simp] theorem State.sdUpd_waking (s : State) (d : Dom) (f : StepDomain → StepDomain) : (s.sdUpd d f).waking = s.waking := rfl
@[simp] theorem State.sdUpd_sleeping (s : State) (d : Dom) (f : StepDomain → StepDomain) : (s.sdUpd d f).sleeping = s.sleeping := rfl
@[simp] theorem State.sdUpd_domLog (s : State) (d : Dom) (f : StepDomain → StepDomain) : (s.sdUpd d f).domLog = s.domLog := rfl
@[simp] theorem State.sdUpd_units (s : State) (d : Dom) (f : StepDomain → StepDomain) : (s.sdUpd d f).units = s.units := rfl
@[simp] theorem State.sdUpd_trace (s : State) (d : Dom) (f : StepDomain → StepDomain) : (s.sdUpd d f).trace = s.trace := rfl
@[simp] theorem State.sdUpd_traceBase (s : State) (d : Dom) (f : StepDomain → StepDomain) : (s.sdUpd d f).traceBase = s.traceBase := rfl
@[simp] theorem State.sdUpd_traceSlots (s : State) (d : Dom) (f : StepDomain → StepDomain) : (s.sdUpd d f).traceSlots = s.traceSlots := rfl
@[simp] theorem State.sdUpd_tapIr (s : State) (d : Dom) (f : StepDomain → StepDomain) : (s.sdUpd d f).tapIr = s.tapIr := rfl
@[simp] theorem State.sdUpd_tapDr (s : State) (d : Dom) (f : StepDomain → StepDomain) : (s.sdUpd d f).tapDr = s.tapDr := rfl
@[simp] theorem State.sdUpd_tapRes (s : State) (d : Dom) (f : StepDomain → StepDomain) : (s.sdUpd d f).tapRes = s.tapRes := rfl
@[simp] theorem State.sdUpd_access (s : State) (d : Dom) (f : StepDomain → StepDomain) : (s.sdUpd d f).access = s.access := rfl
@[simp] theorem State.sdUpd_accessAt (s : State) (d : Dom) (f : StepDomain → StepDomain) : (s.sdUpd d f).accessAt = s.accessAt := rfl

/-! ### partUpd -/
@[simp] theorem State.partUpd_pending (s : State) (p : Part) (f : PartState → PartState) : (s.partUpd p f).pending = s.pending := rfl
@[simp] theorem State.partUpd_freeCtr (s : State) (p : Part) (f : PartState → PartState) : (s.partUpd p f).freeCtr = s.freeCtr := rfl
@[simp] theorem State.partUpd_time (s : State) (p : Part) (f : PartState → PartState) : (s.partUpd p f).time = s.time := rfl
@[simp] theorem State.partUpd_aonBefore (s : State) (p : Part) (f : PartState → PartState) : (s.partUpd p f).aonBefore = s.aonBefore := rfl
@[simp] theorem State.partUpd_resp (s : State) (p : Part) (f : PartState → PartState) : (s.partUpd p f).resp = s.resp := rfl
@[simp] theorem State.partUpd_mem (s : State) (p : Part) (f : PartState → PartState) : (s.partUpd p f).mem = s.mem := rfl
@[simp] theorem State.partUpd_regs (s : State) (p : Part) (f : PartState → PartState) : (s.partUpd p f).regs = s.regs := rfl
@[simp] theorem State.partUpd_pairLatch (s : State) (p : Part) (f : PartState → PartState) : (s.partUpd p f).pairLatch = s.pairLatch := rfl
@[simp] theorem State.partUpd_pairHold (s : State) (p : Part) (f : PartState → PartState) : (s.partUpd p f).pairHold = s.pairHold := rfl
@[simp] theorem State.partUpd_sd (s : State) (p : Part) (f : PartState → PartState) : (s.partUpd p f).sd = s.sd := rfl
@[simp] theorem State.partUpd_rings (s : State) (p : Part) (f : PartState → PartState) : (s.partUpd p f).rings = s.rings := rfl
@[simp] theorem State.partUpd_ctxs (s : State) (p : Part) (f : PartState → PartState) : (s.partUpd p f).ctxs = s.ctxs := rfl
@[simp] theorem State.partUpd_nextSeq (s : State) (p : Part) (f : PartState → PartState) : (s.partUpd p f).nextSeq = s.nextSeq := rfl
@[simp] theorem State.partUpd_objIds (s : State) (p : Part) (f : PartState → PartState) : (s.partUpd p f).objIds = s.objIds := rfl
@[simp] theorem State.partUpd_objs (s : State) (p : Part) (f : PartState → PartState) : (s.partUpd p f).objs = s.objs := rfl
@[simp] theorem State.partUpd_strands (s : State) (p : Part) (f : PartState → PartState) : (s.partUpd p f).strands = s.strands := rfl
@[simp] theorem State.partUpd_lockets (s : State) (p : Part) (f : PartState → PartState) : (s.partUpd p f).lockets = s.lockets := rfl
@[simp] theorem State.partUpd_threads (s : State) (p : Part) (f : PartState → PartState) : (s.partUpd p f).threads = s.threads := rfl
@[simp] theorem State.partUpd_scratch (s : State) (p : Part) (f : PartState → PartState) : (s.partUpd p f).scratch = s.scratch := rfl
@[simp] theorem State.partUpd_vgs (s : State) (p : Part) (f : PartState → PartState) : (s.partUpd p f).vgs = s.vgs := rfl
@[simp] theorem State.partUpd_imem (s : State) (p : Part) (f : PartState → PartState) : (s.partUpd p f).imem = s.imem := rfl
@[simp] theorem State.partUpd_ctrlSram (s : State) (p : Part) (f : PartState → PartState) : (s.partUpd p f).ctrlSram = s.ctrlSram := rfl
@[simp] theorem State.partUpd_fabLate (s : State) (p : Part) (f : PartState → PartState) : (s.partUpd p f).fabLate = s.fabLate := rfl
@[simp] theorem State.partUpd_fabCut (s : State) (p : Part) (f : PartState → PartState) : (s.partUpd p f).fabCut = s.fabCut := rfl
@[simp] theorem State.partUpd_sidLog (s : State) (p : Part) (f : PartState → PartState) : (s.partUpd p f).sidLog = s.sidLog := rfl
@[simp] theorem State.partUpd_reportAddr (s : State) (p : Part) (f : PartState → PartState) : (s.partUpd p f).reportAddr = s.reportAddr := rfl
@[simp] theorem State.partUpd_chans (s : State) (p : Part) (f : PartState → PartState) : (s.partUpd p f).chans = s.chans := rfl
@[simp] theorem State.partUpd_profile (s : State) (p : Part) (f : PartState → PartState) : (s.partUpd p f).profile = s.profile := rfl
@[simp] theorem State.partUpd_indexOk (s : State) (p : Part) (f : PartState → PartState) : (s.partUpd p f).indexOk = s.indexOk := rfl
@[simp] theorem State.partUpd_indexAt (s : State) (p : Part) (f : PartState → PartState) : (s.partUpd p f).indexAt = s.indexAt := rfl
@[simp] theorem State.partUpd_indexImg (s : State) (p : Part) (f : PartState → PartState) : (s.partUpd p f).indexImg = s.indexImg := rfl
@[simp] theorem State.partUpd_refillAt (s : State) (p : Part) (f : PartState → PartState) : (s.partUpd p f).refillAt = s.refillAt := rfl
@[simp] theorem State.partUpd_lastRing (s : State) (p : Part) (f : PartState → PartState) : (s.partUpd p f).lastRing = s.lastRing := rfl
@[simp] theorem State.partUpd_capture (s : State) (p : Part) (f : PartState → PartState) : (s.partUpd p f).capture = s.capture := rfl
@[simp] theorem State.partUpd_bootRec (s : State) (p : Part) (f : PartState → PartState) : (s.partUpd p f).bootRec = s.bootRec := rfl
@[simp] theorem State.partUpd_snap (s : State) (p : Part) (f : PartState → PartState) : (s.partUpd p f).snap = s.snap := rfl
@[simp] theorem State.partUpd_snapOk (s : State) (p : Part) (f : PartState → PartState) : (s.partUpd p f).snapOk = s.snapOk := rfl
@[simp] theorem State.partUpd_faults (s : State) (p : Part) (f : PartState → PartState) : (s.partUpd p f).faults = s.faults := rfl
@[simp] theorem State.partUpd_boot (s : State) (p : Part) (f : PartState → PartState) : (s.partUpd p f).boot = s.boot := rfl
@[simp] theorem State.partUpd_flash (s : State) (p : Part) (f : PartState → PartState) : (s.partUpd p f).flash = s.flash := rfl
@[simp] theorem State.partUpd_spi (s : State) (p : Part) (f : PartState → PartState) : (s.partUpd p f).spi = s.spi := rfl
@[simp] theorem State.partUpd_port (s : State) (p : Part) (f : PartState → PartState) : (s.partUpd p f).port = s.port := rfl
@[simp] theorem State.partUpd_fuses (s : State) (p : Part) (f : PartState → PartState) : (s.partUpd p f).fuses = s.fuses := rfl
@[simp] theorem State.partUpd_chnOut (s : State) (p : Part) (f : PartState → PartState) : (s.partUpd p f).chnOut = s.chnOut := rfl
@[simp] theorem State.partUpd_peerOut (s : State) (p : Part) (f : PartState → PartState) : (s.partUpd p f).peerOut = s.peerOut := rfl
@[simp] theorem State.partUpd_lastAt (s : State) (p : Part) (f : PartState → PartState) : (s.partUpd p f).lastAt = s.lastAt := rfl
@[simp] theorem State.partUpd_enumHeld (s : State) (p : Part) (f : PartState → PartState) : (s.partUpd p f).enumHeld = s.enumHeld := rfl
@[simp] theorem State.partUpd_mailOut (s : State) (p : Part) (f : PartState → PartState) : (s.partUpd p f).mailOut = s.mailOut := rfl
@[simp] theorem State.partUpd_wrAt (s : State) (p : Part) (f : PartState → PartState) : (s.partUpd p f).wrAt = s.wrAt := rfl
@[simp] theorem State.partUpd_wrOld (s : State) (p : Part) (f : PartState → PartState) : (s.partUpd p f).wrOld = s.wrOld := rfl
@[simp] theorem State.partUpd_chnWait (s : State) (p : Part) (f : PartState → PartState) : (s.partUpd p f).chnWait = s.chnWait := rfl
@[simp] theorem State.partUpd_wdogAt (s : State) (p : Part) (f : PartState → PartState) : (s.partUpd p f).wdogAt = s.wdogAt := rfl
@[simp] theorem State.partUpd_pair (s : State) (p : Part) (f : PartState → PartState) : (s.partUpd p f).pair = s.pair := rfl
@[simp] theorem State.partUpd_wlog (s : State) (p : Part) (f : PartState → PartState) : (s.partUpd p f).wlog = s.wlog := rfl
@[simp] theorem State.partUpd_vseg (s : State) (p : Part) (f : PartState → PartState) : (s.partUpd p f).vseg = s.vseg := rfl
@[simp] theorem State.partUpd_grp (s : State) (p : Part) (f : PartState → PartState) : (s.partUpd p f).grp = s.grp := rfl
@[simp] theorem State.partUpd_ests (s : State) (p : Part) (f : PartState → PartState) : (s.partUpd p f).ests = s.ests := rfl
@[simp] theorem State.partUpd_raisedAt (s : State) (p : Part) (f : PartState → PartState) : (s.partUpd p f).raisedAt = s.raisedAt := rfl
@[simp] theorem State.partUpd_coolAt (s : State) (p : Part) (f : PartState → PartState) : (s.partUpd p f).coolAt = s.coolAt := rfl
@[simp] theorem State.partUpd_waking (s : State) (p : Part) (f : PartState → PartState) : (s.partUpd p f).waking = s.waking := rfl
@[simp] theorem State.partUpd_sleeping (s : State) (p : Part) (f : PartState → PartState) : (s.partUpd p f).sleeping = s.sleeping := rfl
@[simp] theorem State.partUpd_domLog (s : State) (p : Part) (f : PartState → PartState) : (s.partUpd p f).domLog = s.domLog := rfl
@[simp] theorem State.partUpd_units (s : State) (p : Part) (f : PartState → PartState) : (s.partUpd p f).units = s.units := rfl
@[simp] theorem State.partUpd_trace (s : State) (p : Part) (f : PartState → PartState) : (s.partUpd p f).trace = s.trace := rfl
@[simp] theorem State.partUpd_traceBase (s : State) (p : Part) (f : PartState → PartState) : (s.partUpd p f).traceBase = s.traceBase := rfl
@[simp] theorem State.partUpd_traceSlots (s : State) (p : Part) (f : PartState → PartState) : (s.partUpd p f).traceSlots = s.traceSlots := rfl
@[simp] theorem State.partUpd_tapIr (s : State) (p : Part) (f : PartState → PartState) : (s.partUpd p f).tapIr = s.tapIr := rfl
@[simp] theorem State.partUpd_tapDr (s : State) (p : Part) (f : PartState → PartState) : (s.partUpd p f).tapDr = s.tapDr := rfl
@[simp] theorem State.partUpd_tapRes (s : State) (p : Part) (f : PartState → PartState) : (s.partUpd p f).tapRes = s.tapRes := rfl
@[simp] theorem State.partUpd_access (s : State) (p : Part) (f : PartState → PartState) : (s.partUpd p f).access = s.access := rfl
@[simp] theorem State.partUpd_accessAt (s : State) (p : Part) (f : PartState → PartState) : (s.partUpd p f).accessAt = s.accessAt := rfl

/-! ### ctxUpd -/
@[simp] theorem State.ctxUpd_pending (s : State) (c : Ctx) (f : OpCtx → OpCtx) : (s.ctxUpd c f).pending = s.pending := rfl
@[simp] theorem State.ctxUpd_freeCtr (s : State) (c : Ctx) (f : OpCtx → OpCtx) : (s.ctxUpd c f).freeCtr = s.freeCtr := rfl
@[simp] theorem State.ctxUpd_time (s : State) (c : Ctx) (f : OpCtx → OpCtx) : (s.ctxUpd c f).time = s.time := rfl
@[simp] theorem State.ctxUpd_aonBefore (s : State) (c : Ctx) (f : OpCtx → OpCtx) : (s.ctxUpd c f).aonBefore = s.aonBefore := rfl
@[simp] theorem State.ctxUpd_resp (s : State) (c : Ctx) (f : OpCtx → OpCtx) : (s.ctxUpd c f).resp = s.resp := rfl
@[simp] theorem State.ctxUpd_mem (s : State) (c : Ctx) (f : OpCtx → OpCtx) : (s.ctxUpd c f).mem = s.mem := rfl
@[simp] theorem State.ctxUpd_regs (s : State) (c : Ctx) (f : OpCtx → OpCtx) : (s.ctxUpd c f).regs = s.regs := rfl
@[simp] theorem State.ctxUpd_pairLatch (s : State) (c : Ctx) (f : OpCtx → OpCtx) : (s.ctxUpd c f).pairLatch = s.pairLatch := rfl
@[simp] theorem State.ctxUpd_pairHold (s : State) (c : Ctx) (f : OpCtx → OpCtx) : (s.ctxUpd c f).pairHold = s.pairHold := rfl
@[simp] theorem State.ctxUpd_sd (s : State) (c : Ctx) (f : OpCtx → OpCtx) : (s.ctxUpd c f).sd = s.sd := rfl
@[simp] theorem State.ctxUpd_rings (s : State) (c : Ctx) (f : OpCtx → OpCtx) : (s.ctxUpd c f).rings = s.rings := rfl
@[simp] theorem State.ctxUpd_nextSeq (s : State) (c : Ctx) (f : OpCtx → OpCtx) : (s.ctxUpd c f).nextSeq = s.nextSeq := rfl
@[simp] theorem State.ctxUpd_parts (s : State) (c : Ctx) (f : OpCtx → OpCtx) : (s.ctxUpd c f).parts = s.parts := rfl
@[simp] theorem State.ctxUpd_objIds (s : State) (c : Ctx) (f : OpCtx → OpCtx) : (s.ctxUpd c f).objIds = s.objIds := rfl
@[simp] theorem State.ctxUpd_objs (s : State) (c : Ctx) (f : OpCtx → OpCtx) : (s.ctxUpd c f).objs = s.objs := rfl
@[simp] theorem State.ctxUpd_strands (s : State) (c : Ctx) (f : OpCtx → OpCtx) : (s.ctxUpd c f).strands = s.strands := rfl
@[simp] theorem State.ctxUpd_lockets (s : State) (c : Ctx) (f : OpCtx → OpCtx) : (s.ctxUpd c f).lockets = s.lockets := rfl
@[simp] theorem State.ctxUpd_threads (s : State) (c : Ctx) (f : OpCtx → OpCtx) : (s.ctxUpd c f).threads = s.threads := rfl
@[simp] theorem State.ctxUpd_scratch (s : State) (c : Ctx) (f : OpCtx → OpCtx) : (s.ctxUpd c f).scratch = s.scratch := rfl
@[simp] theorem State.ctxUpd_vgs (s : State) (c : Ctx) (f : OpCtx → OpCtx) : (s.ctxUpd c f).vgs = s.vgs := rfl
@[simp] theorem State.ctxUpd_imem (s : State) (c : Ctx) (f : OpCtx → OpCtx) : (s.ctxUpd c f).imem = s.imem := rfl
@[simp] theorem State.ctxUpd_ctrlSram (s : State) (c : Ctx) (f : OpCtx → OpCtx) : (s.ctxUpd c f).ctrlSram = s.ctrlSram := rfl
@[simp] theorem State.ctxUpd_fabLate (s : State) (c : Ctx) (f : OpCtx → OpCtx) : (s.ctxUpd c f).fabLate = s.fabLate := rfl
@[simp] theorem State.ctxUpd_fabCut (s : State) (c : Ctx) (f : OpCtx → OpCtx) : (s.ctxUpd c f).fabCut = s.fabCut := rfl
@[simp] theorem State.ctxUpd_sidLog (s : State) (c : Ctx) (f : OpCtx → OpCtx) : (s.ctxUpd c f).sidLog = s.sidLog := rfl
@[simp] theorem State.ctxUpd_reportAddr (s : State) (c : Ctx) (f : OpCtx → OpCtx) : (s.ctxUpd c f).reportAddr = s.reportAddr := rfl
@[simp] theorem State.ctxUpd_chans (s : State) (c : Ctx) (f : OpCtx → OpCtx) : (s.ctxUpd c f).chans = s.chans := rfl
@[simp] theorem State.ctxUpd_profile (s : State) (c : Ctx) (f : OpCtx → OpCtx) : (s.ctxUpd c f).profile = s.profile := rfl
@[simp] theorem State.ctxUpd_indexOk (s : State) (c : Ctx) (f : OpCtx → OpCtx) : (s.ctxUpd c f).indexOk = s.indexOk := rfl
@[simp] theorem State.ctxUpd_indexAt (s : State) (c : Ctx) (f : OpCtx → OpCtx) : (s.ctxUpd c f).indexAt = s.indexAt := rfl
@[simp] theorem State.ctxUpd_indexImg (s : State) (c : Ctx) (f : OpCtx → OpCtx) : (s.ctxUpd c f).indexImg = s.indexImg := rfl
@[simp] theorem State.ctxUpd_refillAt (s : State) (c : Ctx) (f : OpCtx → OpCtx) : (s.ctxUpd c f).refillAt = s.refillAt := rfl
@[simp] theorem State.ctxUpd_lastRing (s : State) (c : Ctx) (f : OpCtx → OpCtx) : (s.ctxUpd c f).lastRing = s.lastRing := rfl
@[simp] theorem State.ctxUpd_capture (s : State) (c : Ctx) (f : OpCtx → OpCtx) : (s.ctxUpd c f).capture = s.capture := rfl
@[simp] theorem State.ctxUpd_bootRec (s : State) (c : Ctx) (f : OpCtx → OpCtx) : (s.ctxUpd c f).bootRec = s.bootRec := rfl
@[simp] theorem State.ctxUpd_snap (s : State) (c : Ctx) (f : OpCtx → OpCtx) : (s.ctxUpd c f).snap = s.snap := rfl
@[simp] theorem State.ctxUpd_snapOk (s : State) (c : Ctx) (f : OpCtx → OpCtx) : (s.ctxUpd c f).snapOk = s.snapOk := rfl
@[simp] theorem State.ctxUpd_faults (s : State) (c : Ctx) (f : OpCtx → OpCtx) : (s.ctxUpd c f).faults = s.faults := rfl
@[simp] theorem State.ctxUpd_boot (s : State) (c : Ctx) (f : OpCtx → OpCtx) : (s.ctxUpd c f).boot = s.boot := rfl
@[simp] theorem State.ctxUpd_flash (s : State) (c : Ctx) (f : OpCtx → OpCtx) : (s.ctxUpd c f).flash = s.flash := rfl
@[simp] theorem State.ctxUpd_spi (s : State) (c : Ctx) (f : OpCtx → OpCtx) : (s.ctxUpd c f).spi = s.spi := rfl
@[simp] theorem State.ctxUpd_port (s : State) (c : Ctx) (f : OpCtx → OpCtx) : (s.ctxUpd c f).port = s.port := rfl
@[simp] theorem State.ctxUpd_fuses (s : State) (c : Ctx) (f : OpCtx → OpCtx) : (s.ctxUpd c f).fuses = s.fuses := rfl
@[simp] theorem State.ctxUpd_chnOut (s : State) (c : Ctx) (f : OpCtx → OpCtx) : (s.ctxUpd c f).chnOut = s.chnOut := rfl
@[simp] theorem State.ctxUpd_peerOut (s : State) (c : Ctx) (f : OpCtx → OpCtx) : (s.ctxUpd c f).peerOut = s.peerOut := rfl
@[simp] theorem State.ctxUpd_lastAt (s : State) (c : Ctx) (f : OpCtx → OpCtx) : (s.ctxUpd c f).lastAt = s.lastAt := rfl
@[simp] theorem State.ctxUpd_enumHeld (s : State) (c : Ctx) (f : OpCtx → OpCtx) : (s.ctxUpd c f).enumHeld = s.enumHeld := rfl
@[simp] theorem State.ctxUpd_mailOut (s : State) (c : Ctx) (f : OpCtx → OpCtx) : (s.ctxUpd c f).mailOut = s.mailOut := rfl
@[simp] theorem State.ctxUpd_wrAt (s : State) (c : Ctx) (f : OpCtx → OpCtx) : (s.ctxUpd c f).wrAt = s.wrAt := rfl
@[simp] theorem State.ctxUpd_wrOld (s : State) (c : Ctx) (f : OpCtx → OpCtx) : (s.ctxUpd c f).wrOld = s.wrOld := rfl
@[simp] theorem State.ctxUpd_chnWait (s : State) (c : Ctx) (f : OpCtx → OpCtx) : (s.ctxUpd c f).chnWait = s.chnWait := rfl
@[simp] theorem State.ctxUpd_wdogAt (s : State) (c : Ctx) (f : OpCtx → OpCtx) : (s.ctxUpd c f).wdogAt = s.wdogAt := rfl
@[simp] theorem State.ctxUpd_pair (s : State) (c : Ctx) (f : OpCtx → OpCtx) : (s.ctxUpd c f).pair = s.pair := rfl
@[simp] theorem State.ctxUpd_wlog (s : State) (c : Ctx) (f : OpCtx → OpCtx) : (s.ctxUpd c f).wlog = s.wlog := rfl
@[simp] theorem State.ctxUpd_vseg (s : State) (c : Ctx) (f : OpCtx → OpCtx) : (s.ctxUpd c f).vseg = s.vseg := rfl
@[simp] theorem State.ctxUpd_grp (s : State) (c : Ctx) (f : OpCtx → OpCtx) : (s.ctxUpd c f).grp = s.grp := rfl
@[simp] theorem State.ctxUpd_ests (s : State) (c : Ctx) (f : OpCtx → OpCtx) : (s.ctxUpd c f).ests = s.ests := rfl
@[simp] theorem State.ctxUpd_raisedAt (s : State) (c : Ctx) (f : OpCtx → OpCtx) : (s.ctxUpd c f).raisedAt = s.raisedAt := rfl
@[simp] theorem State.ctxUpd_coolAt (s : State) (c : Ctx) (f : OpCtx → OpCtx) : (s.ctxUpd c f).coolAt = s.coolAt := rfl
@[simp] theorem State.ctxUpd_waking (s : State) (c : Ctx) (f : OpCtx → OpCtx) : (s.ctxUpd c f).waking = s.waking := rfl
@[simp] theorem State.ctxUpd_sleeping (s : State) (c : Ctx) (f : OpCtx → OpCtx) : (s.ctxUpd c f).sleeping = s.sleeping := rfl
@[simp] theorem State.ctxUpd_domLog (s : State) (c : Ctx) (f : OpCtx → OpCtx) : (s.ctxUpd c f).domLog = s.domLog := rfl
@[simp] theorem State.ctxUpd_units (s : State) (c : Ctx) (f : OpCtx → OpCtx) : (s.ctxUpd c f).units = s.units := rfl
@[simp] theorem State.ctxUpd_trace (s : State) (c : Ctx) (f : OpCtx → OpCtx) : (s.ctxUpd c f).trace = s.trace := rfl
@[simp] theorem State.ctxUpd_traceBase (s : State) (c : Ctx) (f : OpCtx → OpCtx) : (s.ctxUpd c f).traceBase = s.traceBase := rfl
@[simp] theorem State.ctxUpd_traceSlots (s : State) (c : Ctx) (f : OpCtx → OpCtx) : (s.ctxUpd c f).traceSlots = s.traceSlots := rfl
@[simp] theorem State.ctxUpd_tapIr (s : State) (c : Ctx) (f : OpCtx → OpCtx) : (s.ctxUpd c f).tapIr = s.tapIr := rfl
@[simp] theorem State.ctxUpd_tapDr (s : State) (c : Ctx) (f : OpCtx → OpCtx) : (s.ctxUpd c f).tapDr = s.tapDr := rfl
@[simp] theorem State.ctxUpd_tapRes (s : State) (c : Ctx) (f : OpCtx → OpCtx) : (s.ctxUpd c f).tapRes = s.tapRes := rfl
@[simp] theorem State.ctxUpd_access (s : State) (c : Ctx) (f : OpCtx → OpCtx) : (s.ctxUpd c f).access = s.access := rfl
@[simp] theorem State.ctxUpd_accessAt (s : State) (c : Ctx) (f : OpCtx → OpCtx) : (s.ctxUpd c f).accessAt = s.accessAt := rfl

/-! ### ctxFree -/
@[simp] theorem State.ctxFree_pending (s : State) (c : Ctx) : (s.ctxFree c).pending = s.pending := rfl
@[simp] theorem State.ctxFree_freeCtr (s : State) (c : Ctx) : (s.ctxFree c).freeCtr = s.freeCtr := rfl
@[simp] theorem State.ctxFree_time (s : State) (c : Ctx) : (s.ctxFree c).time = s.time := rfl
@[simp] theorem State.ctxFree_aonBefore (s : State) (c : Ctx) : (s.ctxFree c).aonBefore = s.aonBefore := rfl
@[simp] theorem State.ctxFree_resp (s : State) (c : Ctx) : (s.ctxFree c).resp = s.resp := rfl
@[simp] theorem State.ctxFree_mem (s : State) (c : Ctx) : (s.ctxFree c).mem = s.mem := rfl
@[simp] theorem State.ctxFree_regs (s : State) (c : Ctx) : (s.ctxFree c).regs = s.regs := rfl
@[simp] theorem State.ctxFree_pairLatch (s : State) (c : Ctx) : (s.ctxFree c).pairLatch = s.pairLatch := rfl
@[simp] theorem State.ctxFree_pairHold (s : State) (c : Ctx) : (s.ctxFree c).pairHold = s.pairHold := rfl
@[simp] theorem State.ctxFree_sd (s : State) (c : Ctx) : (s.ctxFree c).sd = s.sd := rfl
@[simp] theorem State.ctxFree_rings (s : State) (c : Ctx) : (s.ctxFree c).rings = s.rings := rfl
@[simp] theorem State.ctxFree_nextSeq (s : State) (c : Ctx) : (s.ctxFree c).nextSeq = s.nextSeq := rfl
@[simp] theorem State.ctxFree_parts (s : State) (c : Ctx) : (s.ctxFree c).parts = s.parts := rfl
@[simp] theorem State.ctxFree_objIds (s : State) (c : Ctx) : (s.ctxFree c).objIds = s.objIds := rfl
@[simp] theorem State.ctxFree_objs (s : State) (c : Ctx) : (s.ctxFree c).objs = s.objs := rfl
@[simp] theorem State.ctxFree_strands (s : State) (c : Ctx) : (s.ctxFree c).strands = s.strands := rfl
@[simp] theorem State.ctxFree_lockets (s : State) (c : Ctx) : (s.ctxFree c).lockets = s.lockets := rfl
@[simp] theorem State.ctxFree_threads (s : State) (c : Ctx) : (s.ctxFree c).threads = s.threads := rfl
@[simp] theorem State.ctxFree_scratch (s : State) (c : Ctx) : (s.ctxFree c).scratch = s.scratch := rfl
@[simp] theorem State.ctxFree_vgs (s : State) (c : Ctx) : (s.ctxFree c).vgs = s.vgs := rfl
@[simp] theorem State.ctxFree_imem (s : State) (c : Ctx) : (s.ctxFree c).imem = s.imem := rfl
@[simp] theorem State.ctxFree_ctrlSram (s : State) (c : Ctx) : (s.ctxFree c).ctrlSram = s.ctrlSram := rfl
@[simp] theorem State.ctxFree_fabLate (s : State) (c : Ctx) : (s.ctxFree c).fabLate = s.fabLate := rfl
@[simp] theorem State.ctxFree_fabCut (s : State) (c : Ctx) : (s.ctxFree c).fabCut = s.fabCut := rfl
@[simp] theorem State.ctxFree_sidLog (s : State) (c : Ctx) : (s.ctxFree c).sidLog = s.sidLog := rfl
@[simp] theorem State.ctxFree_reportAddr (s : State) (c : Ctx) : (s.ctxFree c).reportAddr = s.reportAddr := rfl
@[simp] theorem State.ctxFree_chans (s : State) (c : Ctx) : (s.ctxFree c).chans = s.chans := rfl
@[simp] theorem State.ctxFree_profile (s : State) (c : Ctx) : (s.ctxFree c).profile = s.profile := rfl
@[simp] theorem State.ctxFree_indexOk (s : State) (c : Ctx) : (s.ctxFree c).indexOk = s.indexOk := rfl
@[simp] theorem State.ctxFree_indexAt (s : State) (c : Ctx) : (s.ctxFree c).indexAt = s.indexAt := rfl
@[simp] theorem State.ctxFree_indexImg (s : State) (c : Ctx) : (s.ctxFree c).indexImg = s.indexImg := rfl
@[simp] theorem State.ctxFree_refillAt (s : State) (c : Ctx) : (s.ctxFree c).refillAt = s.refillAt := rfl
@[simp] theorem State.ctxFree_lastRing (s : State) (c : Ctx) : (s.ctxFree c).lastRing = s.lastRing := rfl
@[simp] theorem State.ctxFree_capture (s : State) (c : Ctx) : (s.ctxFree c).capture = s.capture := rfl
@[simp] theorem State.ctxFree_bootRec (s : State) (c : Ctx) : (s.ctxFree c).bootRec = s.bootRec := rfl
@[simp] theorem State.ctxFree_snap (s : State) (c : Ctx) : (s.ctxFree c).snap = s.snap := rfl
@[simp] theorem State.ctxFree_snapOk (s : State) (c : Ctx) : (s.ctxFree c).snapOk = s.snapOk := rfl
@[simp] theorem State.ctxFree_faults (s : State) (c : Ctx) : (s.ctxFree c).faults = s.faults := rfl
@[simp] theorem State.ctxFree_boot (s : State) (c : Ctx) : (s.ctxFree c).boot = s.boot := rfl
@[simp] theorem State.ctxFree_flash (s : State) (c : Ctx) : (s.ctxFree c).flash = s.flash := rfl
@[simp] theorem State.ctxFree_spi (s : State) (c : Ctx) : (s.ctxFree c).spi = s.spi := rfl
@[simp] theorem State.ctxFree_port (s : State) (c : Ctx) : (s.ctxFree c).port = s.port := rfl
@[simp] theorem State.ctxFree_fuses (s : State) (c : Ctx) : (s.ctxFree c).fuses = s.fuses := rfl
@[simp] theorem State.ctxFree_chnOut (s : State) (c : Ctx) : (s.ctxFree c).chnOut = s.chnOut := rfl
@[simp] theorem State.ctxFree_peerOut (s : State) (c : Ctx) : (s.ctxFree c).peerOut = s.peerOut := rfl
@[simp] theorem State.ctxFree_lastAt (s : State) (c : Ctx) : (s.ctxFree c).lastAt = s.lastAt := rfl
@[simp] theorem State.ctxFree_enumHeld (s : State) (c : Ctx) : (s.ctxFree c).enumHeld = s.enumHeld := rfl
@[simp] theorem State.ctxFree_mailOut (s : State) (c : Ctx) : (s.ctxFree c).mailOut = s.mailOut := rfl
@[simp] theorem State.ctxFree_wrAt (s : State) (c : Ctx) : (s.ctxFree c).wrAt = s.wrAt := rfl
@[simp] theorem State.ctxFree_wrOld (s : State) (c : Ctx) : (s.ctxFree c).wrOld = s.wrOld := rfl
@[simp] theorem State.ctxFree_chnWait (s : State) (c : Ctx) : (s.ctxFree c).chnWait = s.chnWait := rfl
@[simp] theorem State.ctxFree_wdogAt (s : State) (c : Ctx) : (s.ctxFree c).wdogAt = s.wdogAt := rfl
@[simp] theorem State.ctxFree_pair (s : State) (c : Ctx) : (s.ctxFree c).pair = s.pair := rfl
@[simp] theorem State.ctxFree_wlog (s : State) (c : Ctx) : (s.ctxFree c).wlog = s.wlog := rfl
@[simp] theorem State.ctxFree_vseg (s : State) (c : Ctx) : (s.ctxFree c).vseg = s.vseg := rfl
@[simp] theorem State.ctxFree_grp (s : State) (c : Ctx) : (s.ctxFree c).grp = s.grp := rfl
@[simp] theorem State.ctxFree_ests (s : State) (c : Ctx) : (s.ctxFree c).ests = s.ests := rfl
@[simp] theorem State.ctxFree_raisedAt (s : State) (c : Ctx) : (s.ctxFree c).raisedAt = s.raisedAt := rfl
@[simp] theorem State.ctxFree_coolAt (s : State) (c : Ctx) : (s.ctxFree c).coolAt = s.coolAt := rfl
@[simp] theorem State.ctxFree_waking (s : State) (c : Ctx) : (s.ctxFree c).waking = s.waking := rfl
@[simp] theorem State.ctxFree_sleeping (s : State) (c : Ctx) : (s.ctxFree c).sleeping = s.sleeping := rfl
@[simp] theorem State.ctxFree_domLog (s : State) (c : Ctx) : (s.ctxFree c).domLog = s.domLog := rfl
@[simp] theorem State.ctxFree_units (s : State) (c : Ctx) : (s.ctxFree c).units = s.units := rfl
@[simp] theorem State.ctxFree_trace (s : State) (c : Ctx) : (s.ctxFree c).trace = s.trace := rfl
@[simp] theorem State.ctxFree_traceBase (s : State) (c : Ctx) : (s.ctxFree c).traceBase = s.traceBase := rfl
@[simp] theorem State.ctxFree_traceSlots (s : State) (c : Ctx) : (s.ctxFree c).traceSlots = s.traceSlots := rfl
@[simp] theorem State.ctxFree_tapIr (s : State) (c : Ctx) : (s.ctxFree c).tapIr = s.tapIr := rfl
@[simp] theorem State.ctxFree_tapDr (s : State) (c : Ctx) : (s.ctxFree c).tapDr = s.tapDr := rfl
@[simp] theorem State.ctxFree_tapRes (s : State) (c : Ctx) : (s.ctxFree c).tapRes = s.tapRes := rfl
@[simp] theorem State.ctxFree_access (s : State) (c : Ctx) : (s.ctxFree c).access = s.access := rfl
@[simp] theorem State.ctxFree_accessAt (s : State) (c : Ctx) : (s.ctxFree c).accessAt = s.accessAt := rfl

/-! ### strandUpd -/
@[simp] theorem State.strandUpd_pending (s : State) (p : Part) (i : Word) (f : Strand → Strand) : (s.strandUpd p i f).pending = s.pending := rfl
@[simp] theorem State.strandUpd_freeCtr (s : State) (p : Part) (i : Word) (f : Strand → Strand) : (s.strandUpd p i f).freeCtr = s.freeCtr := rfl
@[simp] theorem State.strandUpd_time (s : State) (p : Part) (i : Word) (f : Strand → Strand) : (s.strandUpd p i f).time = s.time := rfl
@[simp] theorem State.strandUpd_aonBefore (s : State) (p : Part) (i : Word) (f : Strand → Strand) : (s.strandUpd p i f).aonBefore = s.aonBefore := rfl
@[simp] theorem State.strandUpd_resp (s : State) (p : Part) (i : Word) (f : Strand → Strand) : (s.strandUpd p i f).resp = s.resp := rfl
@[simp] theorem State.strandUpd_mem (s : State) (p : Part) (i : Word) (f : Strand → Strand) : (s.strandUpd p i f).mem = s.mem := rfl
@[simp] theorem State.strandUpd_regs (s : State) (p : Part) (i : Word) (f : Strand → Strand) : (s.strandUpd p i f).regs = s.regs := rfl
@[simp] theorem State.strandUpd_pairLatch (s : State) (p : Part) (i : Word) (f : Strand → Strand) : (s.strandUpd p i f).pairLatch = s.pairLatch := rfl
@[simp] theorem State.strandUpd_pairHold (s : State) (p : Part) (i : Word) (f : Strand → Strand) : (s.strandUpd p i f).pairHold = s.pairHold := rfl
@[simp] theorem State.strandUpd_sd (s : State) (p : Part) (i : Word) (f : Strand → Strand) : (s.strandUpd p i f).sd = s.sd := rfl
@[simp] theorem State.strandUpd_rings (s : State) (p : Part) (i : Word) (f : Strand → Strand) : (s.strandUpd p i f).rings = s.rings := rfl
@[simp] theorem State.strandUpd_ctxs (s : State) (p : Part) (i : Word) (f : Strand → Strand) : (s.strandUpd p i f).ctxs = s.ctxs := rfl
@[simp] theorem State.strandUpd_nextSeq (s : State) (p : Part) (i : Word) (f : Strand → Strand) : (s.strandUpd p i f).nextSeq = s.nextSeq := rfl
@[simp] theorem State.strandUpd_parts (s : State) (p : Part) (i : Word) (f : Strand → Strand) : (s.strandUpd p i f).parts = s.parts := rfl
@[simp] theorem State.strandUpd_objIds (s : State) (p : Part) (i : Word) (f : Strand → Strand) : (s.strandUpd p i f).objIds = s.objIds := rfl
@[simp] theorem State.strandUpd_objs (s : State) (p : Part) (i : Word) (f : Strand → Strand) : (s.strandUpd p i f).objs = s.objs := rfl
@[simp] theorem State.strandUpd_lockets (s : State) (p : Part) (i : Word) (f : Strand → Strand) : (s.strandUpd p i f).lockets = s.lockets := rfl
@[simp] theorem State.strandUpd_threads (s : State) (p : Part) (i : Word) (f : Strand → Strand) : (s.strandUpd p i f).threads = s.threads := rfl
@[simp] theorem State.strandUpd_scratch (s : State) (p : Part) (i : Word) (f : Strand → Strand) : (s.strandUpd p i f).scratch = s.scratch := rfl
@[simp] theorem State.strandUpd_vgs (s : State) (p : Part) (i : Word) (f : Strand → Strand) : (s.strandUpd p i f).vgs = s.vgs := rfl
@[simp] theorem State.strandUpd_imem (s : State) (p : Part) (i : Word) (f : Strand → Strand) : (s.strandUpd p i f).imem = s.imem := rfl
@[simp] theorem State.strandUpd_ctrlSram (s : State) (p : Part) (i : Word) (f : Strand → Strand) : (s.strandUpd p i f).ctrlSram = s.ctrlSram := rfl
@[simp] theorem State.strandUpd_fabLate (s : State) (p : Part) (i : Word) (f : Strand → Strand) : (s.strandUpd p i f).fabLate = s.fabLate := rfl
@[simp] theorem State.strandUpd_fabCut (s : State) (p : Part) (i : Word) (f : Strand → Strand) : (s.strandUpd p i f).fabCut = s.fabCut := rfl
@[simp] theorem State.strandUpd_sidLog (s : State) (p : Part) (i : Word) (f : Strand → Strand) : (s.strandUpd p i f).sidLog = s.sidLog := rfl
@[simp] theorem State.strandUpd_reportAddr (s : State) (p : Part) (i : Word) (f : Strand → Strand) : (s.strandUpd p i f).reportAddr = s.reportAddr := rfl
@[simp] theorem State.strandUpd_chans (s : State) (p : Part) (i : Word) (f : Strand → Strand) : (s.strandUpd p i f).chans = s.chans := rfl
@[simp] theorem State.strandUpd_profile (s : State) (p : Part) (i : Word) (f : Strand → Strand) : (s.strandUpd p i f).profile = s.profile := rfl
@[simp] theorem State.strandUpd_indexOk (s : State) (p : Part) (i : Word) (f : Strand → Strand) : (s.strandUpd p i f).indexOk = s.indexOk := rfl
@[simp] theorem State.strandUpd_indexAt (s : State) (p : Part) (i : Word) (f : Strand → Strand) : (s.strandUpd p i f).indexAt = s.indexAt := rfl
@[simp] theorem State.strandUpd_indexImg (s : State) (p : Part) (i : Word) (f : Strand → Strand) : (s.strandUpd p i f).indexImg = s.indexImg := rfl
@[simp] theorem State.strandUpd_refillAt (s : State) (p : Part) (i : Word) (f : Strand → Strand) : (s.strandUpd p i f).refillAt = s.refillAt := rfl
@[simp] theorem State.strandUpd_lastRing (s : State) (p : Part) (i : Word) (f : Strand → Strand) : (s.strandUpd p i f).lastRing = s.lastRing := rfl
@[simp] theorem State.strandUpd_capture (s : State) (p : Part) (i : Word) (f : Strand → Strand) : (s.strandUpd p i f).capture = s.capture := rfl
@[simp] theorem State.strandUpd_bootRec (s : State) (p : Part) (i : Word) (f : Strand → Strand) : (s.strandUpd p i f).bootRec = s.bootRec := rfl
@[simp] theorem State.strandUpd_snap (s : State) (p : Part) (i : Word) (f : Strand → Strand) : (s.strandUpd p i f).snap = s.snap := rfl
@[simp] theorem State.strandUpd_snapOk (s : State) (p : Part) (i : Word) (f : Strand → Strand) : (s.strandUpd p i f).snapOk = s.snapOk := rfl
@[simp] theorem State.strandUpd_faults (s : State) (p : Part) (i : Word) (f : Strand → Strand) : (s.strandUpd p i f).faults = s.faults := rfl
@[simp] theorem State.strandUpd_boot (s : State) (p : Part) (i : Word) (f : Strand → Strand) : (s.strandUpd p i f).boot = s.boot := rfl
@[simp] theorem State.strandUpd_flash (s : State) (p : Part) (i : Word) (f : Strand → Strand) : (s.strandUpd p i f).flash = s.flash := rfl
@[simp] theorem State.strandUpd_spi (s : State) (p : Part) (i : Word) (f : Strand → Strand) : (s.strandUpd p i f).spi = s.spi := rfl
@[simp] theorem State.strandUpd_port (s : State) (p : Part) (i : Word) (f : Strand → Strand) : (s.strandUpd p i f).port = s.port := rfl
@[simp] theorem State.strandUpd_fuses (s : State) (p : Part) (i : Word) (f : Strand → Strand) : (s.strandUpd p i f).fuses = s.fuses := rfl
@[simp] theorem State.strandUpd_chnOut (s : State) (p : Part) (i : Word) (f : Strand → Strand) : (s.strandUpd p i f).chnOut = s.chnOut := rfl
@[simp] theorem State.strandUpd_peerOut (s : State) (p : Part) (i : Word) (f : Strand → Strand) : (s.strandUpd p i f).peerOut = s.peerOut := rfl
@[simp] theorem State.strandUpd_lastAt (s : State) (p : Part) (i : Word) (f : Strand → Strand) : (s.strandUpd p i f).lastAt = s.lastAt := rfl
@[simp] theorem State.strandUpd_enumHeld (s : State) (p : Part) (i : Word) (f : Strand → Strand) : (s.strandUpd p i f).enumHeld = s.enumHeld := rfl
@[simp] theorem State.strandUpd_mailOut (s : State) (p : Part) (i : Word) (f : Strand → Strand) : (s.strandUpd p i f).mailOut = s.mailOut := rfl
@[simp] theorem State.strandUpd_wrAt (s : State) (p : Part) (i : Word) (f : Strand → Strand) : (s.strandUpd p i f).wrAt = s.wrAt := rfl
@[simp] theorem State.strandUpd_wrOld (s : State) (p : Part) (i : Word) (f : Strand → Strand) : (s.strandUpd p i f).wrOld = s.wrOld := rfl
@[simp] theorem State.strandUpd_chnWait (s : State) (p : Part) (i : Word) (f : Strand → Strand) : (s.strandUpd p i f).chnWait = s.chnWait := rfl
@[simp] theorem State.strandUpd_wdogAt (s : State) (p : Part) (i : Word) (f : Strand → Strand) : (s.strandUpd p i f).wdogAt = s.wdogAt := rfl
@[simp] theorem State.strandUpd_pair (s : State) (p : Part) (i : Word) (f : Strand → Strand) : (s.strandUpd p i f).pair = s.pair := rfl
@[simp] theorem State.strandUpd_wlog (s : State) (p : Part) (i : Word) (f : Strand → Strand) : (s.strandUpd p i f).wlog = s.wlog := rfl
@[simp] theorem State.strandUpd_vseg (s : State) (p : Part) (i : Word) (f : Strand → Strand) : (s.strandUpd p i f).vseg = s.vseg := rfl
@[simp] theorem State.strandUpd_grp (s : State) (p : Part) (i : Word) (f : Strand → Strand) : (s.strandUpd p i f).grp = s.grp := rfl
@[simp] theorem State.strandUpd_ests (s : State) (p : Part) (i : Word) (f : Strand → Strand) : (s.strandUpd p i f).ests = s.ests := rfl
@[simp] theorem State.strandUpd_raisedAt (s : State) (p : Part) (i : Word) (f : Strand → Strand) : (s.strandUpd p i f).raisedAt = s.raisedAt := rfl
@[simp] theorem State.strandUpd_coolAt (s : State) (p : Part) (i : Word) (f : Strand → Strand) : (s.strandUpd p i f).coolAt = s.coolAt := rfl
@[simp] theorem State.strandUpd_waking (s : State) (p : Part) (i : Word) (f : Strand → Strand) : (s.strandUpd p i f).waking = s.waking := rfl
@[simp] theorem State.strandUpd_sleeping (s : State) (p : Part) (i : Word) (f : Strand → Strand) : (s.strandUpd p i f).sleeping = s.sleeping := rfl
@[simp] theorem State.strandUpd_domLog (s : State) (p : Part) (i : Word) (f : Strand → Strand) : (s.strandUpd p i f).domLog = s.domLog := rfl
@[simp] theorem State.strandUpd_units (s : State) (p : Part) (i : Word) (f : Strand → Strand) : (s.strandUpd p i f).units = s.units := rfl
@[simp] theorem State.strandUpd_trace (s : State) (p : Part) (i : Word) (f : Strand → Strand) : (s.strandUpd p i f).trace = s.trace := rfl
@[simp] theorem State.strandUpd_traceBase (s : State) (p : Part) (i : Word) (f : Strand → Strand) : (s.strandUpd p i f).traceBase = s.traceBase := rfl
@[simp] theorem State.strandUpd_traceSlots (s : State) (p : Part) (i : Word) (f : Strand → Strand) : (s.strandUpd p i f).traceSlots = s.traceSlots := rfl
@[simp] theorem State.strandUpd_tapIr (s : State) (p : Part) (i : Word) (f : Strand → Strand) : (s.strandUpd p i f).tapIr = s.tapIr := rfl
@[simp] theorem State.strandUpd_tapDr (s : State) (p : Part) (i : Word) (f : Strand → Strand) : (s.strandUpd p i f).tapDr = s.tapDr := rfl
@[simp] theorem State.strandUpd_tapRes (s : State) (p : Part) (i : Word) (f : Strand → Strand) : (s.strandUpd p i f).tapRes = s.tapRes := rfl
@[simp] theorem State.strandUpd_access (s : State) (p : Part) (i : Word) (f : Strand → Strand) : (s.strandUpd p i f).access = s.access := rfl
@[simp] theorem State.strandUpd_accessAt (s : State) (p : Part) (i : Word) (f : Strand → Strand) : (s.strandUpd p i f).accessAt = s.accessAt := rfl

/-! ### strandDel -/
@[simp] theorem State.strandDel_pending (s : State) (p : Part) (i : Word) : (s.strandDel p i).pending = s.pending := rfl
@[simp] theorem State.strandDel_freeCtr (s : State) (p : Part) (i : Word) : (s.strandDel p i).freeCtr = s.freeCtr := rfl
@[simp] theorem State.strandDel_time (s : State) (p : Part) (i : Word) : (s.strandDel p i).time = s.time := rfl
@[simp] theorem State.strandDel_aonBefore (s : State) (p : Part) (i : Word) : (s.strandDel p i).aonBefore = s.aonBefore := rfl
@[simp] theorem State.strandDel_resp (s : State) (p : Part) (i : Word) : (s.strandDel p i).resp = s.resp := rfl
@[simp] theorem State.strandDel_mem (s : State) (p : Part) (i : Word) : (s.strandDel p i).mem = s.mem := rfl
@[simp] theorem State.strandDel_regs (s : State) (p : Part) (i : Word) : (s.strandDel p i).regs = s.regs := rfl
@[simp] theorem State.strandDel_pairLatch (s : State) (p : Part) (i : Word) : (s.strandDel p i).pairLatch = s.pairLatch := rfl
@[simp] theorem State.strandDel_pairHold (s : State) (p : Part) (i : Word) : (s.strandDel p i).pairHold = s.pairHold := rfl
@[simp] theorem State.strandDel_sd (s : State) (p : Part) (i : Word) : (s.strandDel p i).sd = s.sd := rfl
@[simp] theorem State.strandDel_rings (s : State) (p : Part) (i : Word) : (s.strandDel p i).rings = s.rings := rfl
@[simp] theorem State.strandDel_ctxs (s : State) (p : Part) (i : Word) : (s.strandDel p i).ctxs = s.ctxs := rfl
@[simp] theorem State.strandDel_nextSeq (s : State) (p : Part) (i : Word) : (s.strandDel p i).nextSeq = s.nextSeq := rfl
@[simp] theorem State.strandDel_parts (s : State) (p : Part) (i : Word) : (s.strandDel p i).parts = s.parts := rfl
@[simp] theorem State.strandDel_objIds (s : State) (p : Part) (i : Word) : (s.strandDel p i).objIds = s.objIds := rfl
@[simp] theorem State.strandDel_objs (s : State) (p : Part) (i : Word) : (s.strandDel p i).objs = s.objs := rfl
@[simp] theorem State.strandDel_lockets (s : State) (p : Part) (i : Word) : (s.strandDel p i).lockets = s.lockets := rfl
@[simp] theorem State.strandDel_threads (s : State) (p : Part) (i : Word) : (s.strandDel p i).threads = s.threads := rfl
@[simp] theorem State.strandDel_scratch (s : State) (p : Part) (i : Word) : (s.strandDel p i).scratch = s.scratch := rfl
@[simp] theorem State.strandDel_vgs (s : State) (p : Part) (i : Word) : (s.strandDel p i).vgs = s.vgs := rfl
@[simp] theorem State.strandDel_imem (s : State) (p : Part) (i : Word) : (s.strandDel p i).imem = s.imem := rfl
@[simp] theorem State.strandDel_ctrlSram (s : State) (p : Part) (i : Word) : (s.strandDel p i).ctrlSram = s.ctrlSram := rfl
@[simp] theorem State.strandDel_fabLate (s : State) (p : Part) (i : Word) : (s.strandDel p i).fabLate = s.fabLate := rfl
@[simp] theorem State.strandDel_fabCut (s : State) (p : Part) (i : Word) : (s.strandDel p i).fabCut = s.fabCut := rfl
@[simp] theorem State.strandDel_sidLog (s : State) (p : Part) (i : Word) : (s.strandDel p i).sidLog = s.sidLog := rfl
@[simp] theorem State.strandDel_reportAddr (s : State) (p : Part) (i : Word) : (s.strandDel p i).reportAddr = s.reportAddr := rfl
@[simp] theorem State.strandDel_chans (s : State) (p : Part) (i : Word) : (s.strandDel p i).chans = s.chans := rfl
@[simp] theorem State.strandDel_profile (s : State) (p : Part) (i : Word) : (s.strandDel p i).profile = s.profile := rfl
@[simp] theorem State.strandDel_indexOk (s : State) (p : Part) (i : Word) : (s.strandDel p i).indexOk = s.indexOk := rfl
@[simp] theorem State.strandDel_indexAt (s : State) (p : Part) (i : Word) : (s.strandDel p i).indexAt = s.indexAt := rfl
@[simp] theorem State.strandDel_indexImg (s : State) (p : Part) (i : Word) : (s.strandDel p i).indexImg = s.indexImg := rfl
@[simp] theorem State.strandDel_refillAt (s : State) (p : Part) (i : Word) : (s.strandDel p i).refillAt = s.refillAt := rfl
@[simp] theorem State.strandDel_lastRing (s : State) (p : Part) (i : Word) : (s.strandDel p i).lastRing = s.lastRing := rfl
@[simp] theorem State.strandDel_capture (s : State) (p : Part) (i : Word) : (s.strandDel p i).capture = s.capture := rfl
@[simp] theorem State.strandDel_bootRec (s : State) (p : Part) (i : Word) : (s.strandDel p i).bootRec = s.bootRec := rfl
@[simp] theorem State.strandDel_snap (s : State) (p : Part) (i : Word) : (s.strandDel p i).snap = s.snap := rfl
@[simp] theorem State.strandDel_snapOk (s : State) (p : Part) (i : Word) : (s.strandDel p i).snapOk = s.snapOk := rfl
@[simp] theorem State.strandDel_faults (s : State) (p : Part) (i : Word) : (s.strandDel p i).faults = s.faults := rfl
@[simp] theorem State.strandDel_boot (s : State) (p : Part) (i : Word) : (s.strandDel p i).boot = s.boot := rfl
@[simp] theorem State.strandDel_flash (s : State) (p : Part) (i : Word) : (s.strandDel p i).flash = s.flash := rfl
@[simp] theorem State.strandDel_spi (s : State) (p : Part) (i : Word) : (s.strandDel p i).spi = s.spi := rfl
@[simp] theorem State.strandDel_port (s : State) (p : Part) (i : Word) : (s.strandDel p i).port = s.port := rfl
@[simp] theorem State.strandDel_fuses (s : State) (p : Part) (i : Word) : (s.strandDel p i).fuses = s.fuses := rfl
@[simp] theorem State.strandDel_chnOut (s : State) (p : Part) (i : Word) : (s.strandDel p i).chnOut = s.chnOut := rfl
@[simp] theorem State.strandDel_peerOut (s : State) (p : Part) (i : Word) : (s.strandDel p i).peerOut = s.peerOut := rfl
@[simp] theorem State.strandDel_lastAt (s : State) (p : Part) (i : Word) : (s.strandDel p i).lastAt = s.lastAt := rfl
@[simp] theorem State.strandDel_enumHeld (s : State) (p : Part) (i : Word) : (s.strandDel p i).enumHeld = s.enumHeld := rfl
@[simp] theorem State.strandDel_mailOut (s : State) (p : Part) (i : Word) : (s.strandDel p i).mailOut = s.mailOut := rfl
@[simp] theorem State.strandDel_wrAt (s : State) (p : Part) (i : Word) : (s.strandDel p i).wrAt = s.wrAt := rfl
@[simp] theorem State.strandDel_wrOld (s : State) (p : Part) (i : Word) : (s.strandDel p i).wrOld = s.wrOld := rfl
@[simp] theorem State.strandDel_chnWait (s : State) (p : Part) (i : Word) : (s.strandDel p i).chnWait = s.chnWait := rfl
@[simp] theorem State.strandDel_wdogAt (s : State) (p : Part) (i : Word) : (s.strandDel p i).wdogAt = s.wdogAt := rfl
@[simp] theorem State.strandDel_pair (s : State) (p : Part) (i : Word) : (s.strandDel p i).pair = s.pair := rfl
@[simp] theorem State.strandDel_wlog (s : State) (p : Part) (i : Word) : (s.strandDel p i).wlog = s.wlog := rfl
@[simp] theorem State.strandDel_vseg (s : State) (p : Part) (i : Word) : (s.strandDel p i).vseg = s.vseg := rfl
@[simp] theorem State.strandDel_grp (s : State) (p : Part) (i : Word) : (s.strandDel p i).grp = s.grp := rfl
@[simp] theorem State.strandDel_ests (s : State) (p : Part) (i : Word) : (s.strandDel p i).ests = s.ests := rfl
@[simp] theorem State.strandDel_raisedAt (s : State) (p : Part) (i : Word) : (s.strandDel p i).raisedAt = s.raisedAt := rfl
@[simp] theorem State.strandDel_coolAt (s : State) (p : Part) (i : Word) : (s.strandDel p i).coolAt = s.coolAt := rfl
@[simp] theorem State.strandDel_waking (s : State) (p : Part) (i : Word) : (s.strandDel p i).waking = s.waking := rfl
@[simp] theorem State.strandDel_sleeping (s : State) (p : Part) (i : Word) : (s.strandDel p i).sleeping = s.sleeping := rfl
@[simp] theorem State.strandDel_domLog (s : State) (p : Part) (i : Word) : (s.strandDel p i).domLog = s.domLog := rfl
@[simp] theorem State.strandDel_units (s : State) (p : Part) (i : Word) : (s.strandDel p i).units = s.units := rfl
@[simp] theorem State.strandDel_trace (s : State) (p : Part) (i : Word) : (s.strandDel p i).trace = s.trace := rfl
@[simp] theorem State.strandDel_traceBase (s : State) (p : Part) (i : Word) : (s.strandDel p i).traceBase = s.traceBase := rfl
@[simp] theorem State.strandDel_traceSlots (s : State) (p : Part) (i : Word) : (s.strandDel p i).traceSlots = s.traceSlots := rfl
@[simp] theorem State.strandDel_tapIr (s : State) (p : Part) (i : Word) : (s.strandDel p i).tapIr = s.tapIr := rfl
@[simp] theorem State.strandDel_tapDr (s : State) (p : Part) (i : Word) : (s.strandDel p i).tapDr = s.tapDr := rfl
@[simp] theorem State.strandDel_tapRes (s : State) (p : Part) (i : Word) : (s.strandDel p i).tapRes = s.tapRes := rfl
@[simp] theorem State.strandDel_access (s : State) (p : Part) (i : Word) : (s.strandDel p i).access = s.access := rfl
@[simp] theorem State.strandDel_accessAt (s : State) (p : Part) (i : Word) : (s.strandDel p i).accessAt = s.accessAt := rfl

/-! ### grpUpd -/
@[simp] theorem State.grpUpd_pending (s : State) (g : Grp) (f : GrpCtl → GrpCtl) : (s.grpUpd g f).pending = s.pending := rfl
@[simp] theorem State.grpUpd_freeCtr (s : State) (g : Grp) (f : GrpCtl → GrpCtl) : (s.grpUpd g f).freeCtr = s.freeCtr := rfl
@[simp] theorem State.grpUpd_time (s : State) (g : Grp) (f : GrpCtl → GrpCtl) : (s.grpUpd g f).time = s.time := rfl
@[simp] theorem State.grpUpd_aonBefore (s : State) (g : Grp) (f : GrpCtl → GrpCtl) : (s.grpUpd g f).aonBefore = s.aonBefore := rfl
@[simp] theorem State.grpUpd_resp (s : State) (g : Grp) (f : GrpCtl → GrpCtl) : (s.grpUpd g f).resp = s.resp := rfl
@[simp] theorem State.grpUpd_mem (s : State) (g : Grp) (f : GrpCtl → GrpCtl) : (s.grpUpd g f).mem = s.mem := rfl
@[simp] theorem State.grpUpd_regs (s : State) (g : Grp) (f : GrpCtl → GrpCtl) : (s.grpUpd g f).regs = s.regs := rfl
@[simp] theorem State.grpUpd_pairLatch (s : State) (g : Grp) (f : GrpCtl → GrpCtl) : (s.grpUpd g f).pairLatch = s.pairLatch := rfl
@[simp] theorem State.grpUpd_pairHold (s : State) (g : Grp) (f : GrpCtl → GrpCtl) : (s.grpUpd g f).pairHold = s.pairHold := rfl
@[simp] theorem State.grpUpd_sd (s : State) (g : Grp) (f : GrpCtl → GrpCtl) : (s.grpUpd g f).sd = s.sd := rfl
@[simp] theorem State.grpUpd_rings (s : State) (g : Grp) (f : GrpCtl → GrpCtl) : (s.grpUpd g f).rings = s.rings := rfl
@[simp] theorem State.grpUpd_ctxs (s : State) (g : Grp) (f : GrpCtl → GrpCtl) : (s.grpUpd g f).ctxs = s.ctxs := rfl
@[simp] theorem State.grpUpd_nextSeq (s : State) (g : Grp) (f : GrpCtl → GrpCtl) : (s.grpUpd g f).nextSeq = s.nextSeq := rfl
@[simp] theorem State.grpUpd_parts (s : State) (g : Grp) (f : GrpCtl → GrpCtl) : (s.grpUpd g f).parts = s.parts := rfl
@[simp] theorem State.grpUpd_objIds (s : State) (g : Grp) (f : GrpCtl → GrpCtl) : (s.grpUpd g f).objIds = s.objIds := rfl
@[simp] theorem State.grpUpd_objs (s : State) (g : Grp) (f : GrpCtl → GrpCtl) : (s.grpUpd g f).objs = s.objs := rfl
@[simp] theorem State.grpUpd_strands (s : State) (g : Grp) (f : GrpCtl → GrpCtl) : (s.grpUpd g f).strands = s.strands := rfl
@[simp] theorem State.grpUpd_lockets (s : State) (g : Grp) (f : GrpCtl → GrpCtl) : (s.grpUpd g f).lockets = s.lockets := rfl
@[simp] theorem State.grpUpd_threads (s : State) (g : Grp) (f : GrpCtl → GrpCtl) : (s.grpUpd g f).threads = s.threads := rfl
@[simp] theorem State.grpUpd_scratch (s : State) (g : Grp) (f : GrpCtl → GrpCtl) : (s.grpUpd g f).scratch = s.scratch := rfl
@[simp] theorem State.grpUpd_vgs (s : State) (g : Grp) (f : GrpCtl → GrpCtl) : (s.grpUpd g f).vgs = s.vgs := rfl
@[simp] theorem State.grpUpd_imem (s : State) (g : Grp) (f : GrpCtl → GrpCtl) : (s.grpUpd g f).imem = s.imem := rfl
@[simp] theorem State.grpUpd_ctrlSram (s : State) (g : Grp) (f : GrpCtl → GrpCtl) : (s.grpUpd g f).ctrlSram = s.ctrlSram := rfl
@[simp] theorem State.grpUpd_fabLate (s : State) (g : Grp) (f : GrpCtl → GrpCtl) : (s.grpUpd g f).fabLate = s.fabLate := rfl
@[simp] theorem State.grpUpd_fabCut (s : State) (g : Grp) (f : GrpCtl → GrpCtl) : (s.grpUpd g f).fabCut = s.fabCut := rfl
@[simp] theorem State.grpUpd_sidLog (s : State) (g : Grp) (f : GrpCtl → GrpCtl) : (s.grpUpd g f).sidLog = s.sidLog := rfl
@[simp] theorem State.grpUpd_reportAddr (s : State) (g : Grp) (f : GrpCtl → GrpCtl) : (s.grpUpd g f).reportAddr = s.reportAddr := rfl
@[simp] theorem State.grpUpd_chans (s : State) (g : Grp) (f : GrpCtl → GrpCtl) : (s.grpUpd g f).chans = s.chans := rfl
@[simp] theorem State.grpUpd_profile (s : State) (g : Grp) (f : GrpCtl → GrpCtl) : (s.grpUpd g f).profile = s.profile := rfl
@[simp] theorem State.grpUpd_indexOk (s : State) (g : Grp) (f : GrpCtl → GrpCtl) : (s.grpUpd g f).indexOk = s.indexOk := rfl
@[simp] theorem State.grpUpd_indexAt (s : State) (g : Grp) (f : GrpCtl → GrpCtl) : (s.grpUpd g f).indexAt = s.indexAt := rfl
@[simp] theorem State.grpUpd_indexImg (s : State) (g : Grp) (f : GrpCtl → GrpCtl) : (s.grpUpd g f).indexImg = s.indexImg := rfl
@[simp] theorem State.grpUpd_refillAt (s : State) (g : Grp) (f : GrpCtl → GrpCtl) : (s.grpUpd g f).refillAt = s.refillAt := rfl
@[simp] theorem State.grpUpd_lastRing (s : State) (g : Grp) (f : GrpCtl → GrpCtl) : (s.grpUpd g f).lastRing = s.lastRing := rfl
@[simp] theorem State.grpUpd_capture (s : State) (g : Grp) (f : GrpCtl → GrpCtl) : (s.grpUpd g f).capture = s.capture := rfl
@[simp] theorem State.grpUpd_bootRec (s : State) (g : Grp) (f : GrpCtl → GrpCtl) : (s.grpUpd g f).bootRec = s.bootRec := rfl
@[simp] theorem State.grpUpd_snap (s : State) (g : Grp) (f : GrpCtl → GrpCtl) : (s.grpUpd g f).snap = s.snap := rfl
@[simp] theorem State.grpUpd_snapOk (s : State) (g : Grp) (f : GrpCtl → GrpCtl) : (s.grpUpd g f).snapOk = s.snapOk := rfl
@[simp] theorem State.grpUpd_faults (s : State) (g : Grp) (f : GrpCtl → GrpCtl) : (s.grpUpd g f).faults = s.faults := rfl
@[simp] theorem State.grpUpd_boot (s : State) (g : Grp) (f : GrpCtl → GrpCtl) : (s.grpUpd g f).boot = s.boot := rfl
@[simp] theorem State.grpUpd_flash (s : State) (g : Grp) (f : GrpCtl → GrpCtl) : (s.grpUpd g f).flash = s.flash := rfl
@[simp] theorem State.grpUpd_spi (s : State) (g : Grp) (f : GrpCtl → GrpCtl) : (s.grpUpd g f).spi = s.spi := rfl
@[simp] theorem State.grpUpd_port (s : State) (g : Grp) (f : GrpCtl → GrpCtl) : (s.grpUpd g f).port = s.port := rfl
@[simp] theorem State.grpUpd_fuses (s : State) (g : Grp) (f : GrpCtl → GrpCtl) : (s.grpUpd g f).fuses = s.fuses := rfl
@[simp] theorem State.grpUpd_chnOut (s : State) (g : Grp) (f : GrpCtl → GrpCtl) : (s.grpUpd g f).chnOut = s.chnOut := rfl
@[simp] theorem State.grpUpd_peerOut (s : State) (g : Grp) (f : GrpCtl → GrpCtl) : (s.grpUpd g f).peerOut = s.peerOut := rfl
@[simp] theorem State.grpUpd_lastAt (s : State) (g : Grp) (f : GrpCtl → GrpCtl) : (s.grpUpd g f).lastAt = s.lastAt := rfl
@[simp] theorem State.grpUpd_enumHeld (s : State) (g : Grp) (f : GrpCtl → GrpCtl) : (s.grpUpd g f).enumHeld = s.enumHeld := rfl
@[simp] theorem State.grpUpd_mailOut (s : State) (g : Grp) (f : GrpCtl → GrpCtl) : (s.grpUpd g f).mailOut = s.mailOut := rfl
@[simp] theorem State.grpUpd_wrAt (s : State) (g : Grp) (f : GrpCtl → GrpCtl) : (s.grpUpd g f).wrAt = s.wrAt := rfl
@[simp] theorem State.grpUpd_wrOld (s : State) (g : Grp) (f : GrpCtl → GrpCtl) : (s.grpUpd g f).wrOld = s.wrOld := rfl
@[simp] theorem State.grpUpd_chnWait (s : State) (g : Grp) (f : GrpCtl → GrpCtl) : (s.grpUpd g f).chnWait = s.chnWait := rfl
@[simp] theorem State.grpUpd_wdogAt (s : State) (g : Grp) (f : GrpCtl → GrpCtl) : (s.grpUpd g f).wdogAt = s.wdogAt := rfl
@[simp] theorem State.grpUpd_pair (s : State) (g : Grp) (f : GrpCtl → GrpCtl) : (s.grpUpd g f).pair = s.pair := rfl
@[simp] theorem State.grpUpd_wlog (s : State) (g : Grp) (f : GrpCtl → GrpCtl) : (s.grpUpd g f).wlog = s.wlog := rfl
@[simp] theorem State.grpUpd_vseg (s : State) (g : Grp) (f : GrpCtl → GrpCtl) : (s.grpUpd g f).vseg = s.vseg := rfl
@[simp] theorem State.grpUpd_ests (s : State) (g : Grp) (f : GrpCtl → GrpCtl) : (s.grpUpd g f).ests = s.ests := rfl
@[simp] theorem State.grpUpd_raisedAt (s : State) (g : Grp) (f : GrpCtl → GrpCtl) : (s.grpUpd g f).raisedAt = s.raisedAt := rfl
@[simp] theorem State.grpUpd_coolAt (s : State) (g : Grp) (f : GrpCtl → GrpCtl) : (s.grpUpd g f).coolAt = s.coolAt := rfl
@[simp] theorem State.grpUpd_waking (s : State) (g : Grp) (f : GrpCtl → GrpCtl) : (s.grpUpd g f).waking = s.waking := rfl
@[simp] theorem State.grpUpd_sleeping (s : State) (g : Grp) (f : GrpCtl → GrpCtl) : (s.grpUpd g f).sleeping = s.sleeping := rfl
@[simp] theorem State.grpUpd_domLog (s : State) (g : Grp) (f : GrpCtl → GrpCtl) : (s.grpUpd g f).domLog = s.domLog := rfl
@[simp] theorem State.grpUpd_units (s : State) (g : Grp) (f : GrpCtl → GrpCtl) : (s.grpUpd g f).units = s.units := rfl
@[simp] theorem State.grpUpd_trace (s : State) (g : Grp) (f : GrpCtl → GrpCtl) : (s.grpUpd g f).trace = s.trace := rfl
@[simp] theorem State.grpUpd_traceBase (s : State) (g : Grp) (f : GrpCtl → GrpCtl) : (s.grpUpd g f).traceBase = s.traceBase := rfl
@[simp] theorem State.grpUpd_traceSlots (s : State) (g : Grp) (f : GrpCtl → GrpCtl) : (s.grpUpd g f).traceSlots = s.traceSlots := rfl
@[simp] theorem State.grpUpd_tapIr (s : State) (g : Grp) (f : GrpCtl → GrpCtl) : (s.grpUpd g f).tapIr = s.tapIr := rfl
@[simp] theorem State.grpUpd_tapDr (s : State) (g : Grp) (f : GrpCtl → GrpCtl) : (s.grpUpd g f).tapDr = s.tapDr := rfl
@[simp] theorem State.grpUpd_tapRes (s : State) (g : Grp) (f : GrpCtl → GrpCtl) : (s.grpUpd g f).tapRes = s.tapRes := rfl
@[simp] theorem State.grpUpd_access (s : State) (g : Grp) (f : GrpCtl → GrpCtl) : (s.grpUpd g f).access = s.access := rfl
@[simp] theorem State.grpUpd_accessAt (s : State) (g : Grp) (f : GrpCtl → GrpCtl) : (s.grpUpd g f).accessAt = s.accessAt := rfl

end Sys2Proof.Machine
end

