-- ==== Sys2Proof/Laws/Registers.lean ====
section
/-! SUPPORT. Sys2Proof/Laws/Registers.lean: the register file keeps its canonical form, and read after write of registers and fields. -/
namespace Sys2Proof.Machine
open Sys2Proof

theorem regsSorted_mono {lo lo' : Nat} (h : lo' ≤ lo) : ∀ {m : List (Nat × Word)}, regsSorted lo m = true → regsSorted lo' m = true
  | [], _ => rfl
  | (k, b) :: t, hw => by simp only [regsSorted, Bool.and_eq_true, decide_eq_true_eq] at hw ⊢; exact ⟨⟨by omega, hw.1.2⟩, hw.2⟩

theorem assocGet_below {d : Word} : ∀ {m : List (Nat × Word)} {lo a : Nat}, regsSorted lo m = true → a < lo → assocGet d m a = d
  | [], _, _, _, _ => rfl
  | (k, b) :: t, lo, a, hw, ha => by
    simp only [regsSorted, Bool.and_eq_true, decide_eq_true_eq] at hw
    have hk : ¬ k = a := by omega
    simp only [assocGet, beq_iff_eq, hk, if_false]
    exact assocGet_below hw.2 (by omega)

/-- A register write keeps the canonical form. -/
theorem regsSorted_assocSet : ∀ {m : List (Nat × Word)} {lo a : Nat} {v : Word}, regsSorted lo m = true → lo ≤ a →
    regsSorted lo (assocSet (regReset a) m a v) = true
  | [], lo, a, v, _, ha => by
    by_cases hv : v = regReset a <;> simp [assocSet, regsSorted, hv, ha]
  | (k, b) :: t, lo, a, v, hw, ha => by
    have hw' := hw
    simp only [regsSorted, Bool.and_eq_true, decide_eq_true_eq] at hw
    simp only [assocSet]
    by_cases hk : k = a
    · subst hk
      by_cases hv : v = regReset k
      · simp only [hv, beq_self_eq_true, if_true]; exact regsSorted_mono (by omega) hw.2
      · simp [hv, regsSorted, hw.1.1, hw.2]
    · by_cases hl : a < k
      · by_cases hv : v = regReset a
        · simp only [beq_iff_eq, hk, hl, hv, if_true, if_false]; exact hw'
        · simp only [beq_iff_eq, hk, hl, hv, if_true, if_false, regsSorted, Bool.and_eq_true, decide_eq_true_eq, bne_iff_ne, ne_eq,
            not_false_eq_true, and_true]
          exact ⟨ha, ⟨by omega, by simpa using hw.1.2⟩, hw.2⟩
      · simp only [beq_iff_eq, hk, hl, if_false, regsSorted, Bool.and_eq_true, decide_eq_true_eq]
        exact ⟨hw.1, regsSorted_assocSet hw.2 (by omega)⟩

/-- Another register is untouched. -/
theorem assocGet_assocSet_ne {d d' : Word} : ∀ {m : List (Nat × Word)} {a b : Nat} {v : Word}, b ≠ a →
    assocGet d' (assocSet d m a v) b = assocGet d' m b
  | [], a, b, v, h => by by_cases hv : v = d <;> simp [assocSet, assocGet, hv, Ne.symm h]
  | (k, c) :: t, a, b, v, h => by
    simp only [assocSet]
    by_cases hk : k = a
    · have hb : ¬ k = b := by omega
      have ha : ¬ a = b := by omega
      by_cases hv : v = d <;> simp [hk, hv, assocGet, ha]
    · by_cases hl : a < k
      · by_cases hv : v = d <;> simp [hk, hl, hv, assocGet, Ne.symm h]
      · simp only [beq_iff_eq, hk, hl, if_false, assocGet]
        by_cases hb : k = b
        · simp [hb]
        · simp only [hb, if_false]; exact assocGet_assocSet_ne h

/-- The register written reads back. -/
theorem assocGet_assocSet_self {d : Word} : ∀ {m : List (Nat × Word)} {lo a : Nat} {v : Word}, regsSorted lo m = true →
    assocGet d (assocSet d m a v) a = v
  | [], lo, a, v, _ => by by_cases hv : v = d <;> simp [assocSet, assocGet, hv]
  | (k, c) :: t, lo, a, v, hw => by
    simp only [regsSorted, Bool.and_eq_true, decide_eq_true_eq] at hw
    simp only [assocSet]
    by_cases hk : k = a
    · by_cases hv : v = d
      · simp only [hk, hv, beq_self_eq_true, if_true]; exact assocGet_below hw.2 (by omega)
      · simp [hk, hv, assocGet]
    · by_cases hl : a < k
      · by_cases hv : v = d
        · simp only [beq_iff_eq, hk, hl, hv, if_true, if_false, assocGet]; exact assocGet_below hw.2 (by omega)
        · simp [hk, hl, hv, assocGet]
      · simp only [beq_iff_eq, hk, hl, if_false, assocGet]; exact assocGet_assocSet_self hw.2

theorem regsSorted_filter (f : Nat × Word → Bool) : ∀ {m : List (Nat × Word)} {lo : Nat}, regsSorted lo m = true →
    regsSorted lo (m.filter f) = true
  | [], _, _ => rfl
  | (k, b) :: t, lo, hw => by
    simp only [regsSorted, Bool.and_eq_true, decide_eq_true_eq] at hw
    by_cases hf : f (k, b) = true
    · simp only [List.filter_cons, hf, if_true, regsSorted, Bool.and_eq_true, decide_eq_true_eq]
      exact ⟨hw.1, regsSorted_filter f hw.2⟩
    · simp only [List.filter_cons, hf, Bool.false_eq_true, if_false]
      exact regsSorted_mono (by omega) (regsSorted_filter f hw.2)

theorem State.setReg_regsWf {s : State} (o : Nat) (v : Word) (h : s.regsWf = true) : (s.setReg o v).regsWf = true :=
  regsSorted_assocSet h (Nat.zero_le _)

/-- Writing a register leaves every other one. -/
@[simp] theorem State.reg_setReg_ne {s : State} {o o' : Nat} {v : Word} (h : o' ≠ o) : (s.setReg o v).reg o' = s.reg o' :=
  assocGet_assocSet_ne h

/-- A register written reads back. -/
theorem State.reg_setReg {s : State} (o : Nat) (v : Word) (h : s.regsWf = true) : (s.setReg o v).reg o = v :=
  assocGet_assocSet_self h

theorem State.setRf_regsWf {s : State} (o lo len x : Nat) (h : s.regsWf = true) : (s.setRf o lo len x).regsWf = true :=
  State.setReg_regsWf _ _ h
theorem State.setRb_regsWf {s : State} (o i : Nat) (b : Bool) (h : s.regsWf = true) : (s.setRb o i b).regsWf = true :=
  State.setReg_regsWf _ _ h
theorem State.setReg64_regsWf {s : State} (o : Nat) (v : DWord) (h : s.regsWf = true) : (s.setReg64 o v).regsWf = true :=
  State.setReg_regsWf _ _ (State.setReg_regsWf _ _ h)
theorem State.bumpBy_regsWf {s : State} (o lo len n : Nat) (h : s.regsWf = true) : (s.bumpBy o lo len n).regsWf = true :=
  State.setReg_regsWf _ _ h

end Sys2Proof.Machine
end

