-- ==== Sys2Proof/Laws/Fields.lean ====
section
/-! SUPPORT. Sys2Proof/Laws/Fields.lean: bit fields of registers: what a field write changes, and that it reads back. -/
namespace Sys2Proof.Machine
open Sys2Proof

theorem testBit_fld {w : Nat} (v : BitVec w) (lo len j : Nat) : (fld v lo len).testBit j = (decide (j < len) && v.getLsbD (lo + j)) := by
  simp [fld, Nat.testBit_mod_two_pow, Nat.testBit_shiftRight, BitVec.getLsbD]

theorem getLsbD_setFld {w : Nat} (v : BitVec w) (lo len x i : Nat) (hi : i < w) :
    (setFld v lo len x).getLsbD i = if lo ≤ i ∧ i < lo + len then x.testBit (i - lo) else v.getLsbD i := by
  have e : ∀ n : Nat, (BitVec.ofNat w n).getLsbD i = n.testBit i := fun n => by
    rw [BitVec.getLsbD, BitVec.toNat_ofNat, Nat.testBit_mod_two_pow]; simp [hi]
  unfold setFld
  rw [BitVec.getLsbD_or, BitVec.getLsbD_and, BitVec.getLsbD_not, e, e, Nat.testBit_shiftLeft, Nat.testBit_shiftLeft,
    Nat.testBit_mod_two_pow, Nat.testBit_two_pow_sub_one]
  by_cases h : lo ≤ i
  · by_cases h' : i < lo + len
    · simp [h, h', hi, show i - lo < len by omega]
    · simp [h, h', hi, show ¬ i - lo < len by omega]
  · simp [h, hi]

/-- A field written reads back. -/
theorem fld_setFld {w : Nat} (v : BitVec w) (lo len x : Nat) (h : lo + len ≤ w) : fld (setFld v lo len x) lo len = x % 2 ^ len := by
  apply Nat.eq_of_testBit_eq
  intro j
  rw [testBit_fld, Nat.testBit_mod_two_pow]
  by_cases hj : j < len
  · rw [getLsbD_setFld _ _ _ _ _ (by omega), if_pos ⟨by omega, by omega⟩]
    simp [hj]
  · simp [hj]

/-- A field write leaves every disjoint field. -/
theorem fld_setFld_ne {w : Nat} (v : BitVec w) (lo len x lo' len' : Nat) (h : lo' + len' ≤ lo ∨ lo + len ≤ lo') (hw : lo' + len' ≤ w) :
    fld (setFld v lo len x) lo' len' = fld v lo' len' := by
  apply Nat.eq_of_testBit_eq
  intro j
  rw [testBit_fld, testBit_fld]
  by_cases hj : j < len'
  · rw [getLsbD_setFld _ _ _ _ _ (by omega), if_neg (by omega)]
  · simp [hj]

/-- A bit of a word with a field written. -/
theorem bit_setFld {w : Nat} (v : BitVec w) (lo len x i : Nat) (hi : i < w) :
    bit (setFld v lo len x) i = if lo ≤ i ∧ i < lo + len then x.testBit (i - lo) else bit v i := getLsbD_setFld v lo len x i hi

variable {s : State}

/-- A field of another register. -/
@[simp] theorem State.rf_setReg_ne {o o' lo len : Nat} {v : Word} (h : o' ≠ o) : (s.setReg o v).rf o' lo len = s.rf o' lo len := by
  simp [State.rf, State.reg_setReg_ne h]
@[simp] theorem State.rb_setReg_ne {o o' i : Nat} {v : Word} (h : o' ≠ o) : (s.setReg o v).rb o' i = s.rb o' i := by
  simp [State.rb, State.reg_setReg_ne h]
@[simp] theorem State.reg_setRf_ne {o o' lo len x : Nat} (h : o' ≠ o) : (s.setRf o lo len x).reg o' = s.reg o' := State.reg_setReg_ne h
@[simp] theorem State.reg_setRb_ne {o o' i : Nat} {b : Bool} (h : o' ≠ o) : (s.setRb o i b).reg o' = s.reg o' := State.reg_setReg_ne h
@[simp] theorem State.rf_setRf_ne {o o' lo len x lo' len' : Nat} (h : o' ≠ o) : (s.setRf o lo len x).rf o' lo' len' = s.rf o' lo' len' :=
  State.rf_setReg_ne h
@[simp] theorem State.rb_setRf_ne {o o' lo len x i : Nat} (h : o' ≠ o) : (s.setRf o lo len x).rb o' i = s.rb o' i :=
  State.rb_setReg_ne h
@[simp] theorem State.rb_setRb_ne {o o' i j : Nat} {b : Bool} (h : o' ≠ o) : (s.setRb o i b).rb o' j = s.rb o' j := State.rb_setReg_ne h
@[simp] theorem State.rf_setRb_ne {o o' i lo len : Nat} {b : Bool} (h : o' ≠ o) : (s.setRb o i b).rf o' lo len = s.rf o' lo len :=
  State.rf_setReg_ne h

/-- A field set reads back. -/
theorem State.rf_setRf (h : s.regsWf = true) {o lo len x : Nat} (hw : lo + len ≤ 32) : (s.setRf o lo len x).rf o lo len = x % 2 ^ len := by
  simp [State.rf, State.setRf, State.reg_setReg _ _ h, fld_setFld _ _ _ _ hw]

/-- A disjoint field of the same register stays. -/
theorem State.rf_setRf_disj (h : s.regsWf = true) {o lo len x lo' len' : Nat} (hd : lo' + len' ≤ lo ∨ lo + len ≤ lo')
    (hw : lo' + len' ≤ 32) : (s.setRf o lo len x).rf o lo' len' = s.rf o lo' len' := by
  simp [State.rf, State.setRf, State.reg_setReg _ _ h, fld_setFld_ne _ _ _ _ _ _ hd hw]

/-- A bit of the same register after a field is set. -/
theorem State.rb_setRf (h : s.regsWf = true) {o lo len x i : Nat} (hi : i < 32) :
    (s.setRf o lo len x).rb o i = if lo ≤ i ∧ i < lo + len then x.testBit (i - lo) else s.rb o i := by
  simp [State.rb, State.setRf, State.reg_setReg _ _ h, bit_setFld _ _ _ _ _ hi]

/-- A bit set reads back. -/
theorem State.rb_setRb (h : s.regsWf = true) {o i : Nat} {b : Bool} (hi : i < 32) : (s.setRb o i b).rb o i = b := by
  rw [State.setRb, State.rb_setRf h hi, if_pos (by omega)]
  cases b <;> simp

/-- Another bit of the same register stays. -/
theorem State.rb_setRb_disj (h : s.regsWf = true) {o i j : Nat} {b : Bool} (hj : j < 32) (hd : j ≠ i) : (s.setRb o i b).rb o j = s.rb o j := by
  rw [State.setRb, State.rb_setRf h hj, if_neg (by omega)]

/-- A pair set reads back. -/
theorem State.reg64_setReg64 (h : s.regsWf = true) (o : Nat) (v : DWord) : (s.setReg64 o v).reg64 o = v := by
  have h2 : (s.setReg64 o v).reg (o + 4) = (v >>> 32).truncate 32 := State.reg_setReg _ _ (State.setReg_regsWf _ _ h)
  have h1 : (s.setReg64 o v).reg o = v.truncate 32 := by
    rw [State.setReg64, State.reg_setReg_ne (by omega), State.reg_setReg _ _ h]
  rw [State.reg64, h1, h2]
  show (_ : BitVec (32 + 32)) = v
  apply BitVec.eq_of_getLsbD_eq
  intro i hi
  rw [BitVec.getLsbD_append]
  by_cases h' : i < 32
  · simp [h']
  · simp [h', show i - 32 < 32 by omega, show 32 + (i - 32) = i by omega]

/-- A pair elsewhere stays. -/
@[simp] theorem State.reg_setReg64_ne {o o' : Nat} {v : DWord} (h : o' ≠ o) (h' : o' ≠ o + 4) : (s.setReg64 o v).reg o' = s.reg o' := by
  rw [State.setReg64, State.reg_setReg_ne h', State.reg_setReg_ne h]

end Sys2Proof.Machine
end

