-- ==== Sys2Proof/Laws/Memory.lean ====
section
/-! SUPPORT. Sys2Proof/Laws/Memory.lean: the sparse memories keep their canonical form, and read after write. -/
namespace Sys2Proof.Machine
open Sys2Proof

theorem cellWf_mono (d : Byte) {lo lo' : Nat} (h : lo' ≤ lo) : ∀ {m : List Host.Cell}, cellWf d lo m = true → cellWf d lo' m = true
  | [], _ => rfl
  | (k, b) :: t, hw => by simp only [cellWf, Bool.and_eq_true, decide_eq_true_eq] at hw ⊢; exact ⟨⟨by omega, hw.1.2⟩, hw.2⟩

/-- An address below the lowest listed one reads the default. -/
theorem cellGet_below (d : Byte) : ∀ {m : List Host.Cell} {lo a : Nat}, cellWf d lo m = true → a < lo → cellGet d m a = d
  | [], _, _, _, _ => rfl
  | (k, b) :: t, lo, a, hw, ha => by
    simp only [cellWf, Bool.and_eq_true, decide_eq_true_eq] at hw
    have hk : ¬ k = a := by omega
    simp only [cellGet, beq_iff_eq, hk, if_false]
    exact cellGet_below d hw.2 (by omega)

/-- A write keeps the canonical form. -/
theorem cellSet_wf (d : Byte) : ∀ {m : List Host.Cell} {lo a : Nat} {v : Byte}, cellWf d lo m = true → lo ≤ a →
    cellWf d lo (cellSet d m a v) = true
  | [], lo, a, v, _, ha => by
    by_cases hv : v = d <;> simp [cellSet, cellWf, hv, ha]
  | (k, b) :: t, lo, a, v, hw, ha => by
    have hw' := hw
    simp only [cellWf, Bool.and_eq_true, decide_eq_true_eq] at hw
    simp only [cellSet]
    by_cases hk : k = a
    · by_cases hv : v = d
      · simp only [hk, hv, beq_self_eq_true, if_true]; exact cellWf_mono d (by omega) hw.2
      · subst hk; simp [hv, cellWf, hw.1.1, hw.2]
    · by_cases hl : a < k
      · by_cases hv : v = d
        · simp only [beq_iff_eq, hk, hl, hv, if_true, if_false]; exact hw'
        · simp only [beq_iff_eq, hk, hl, hv, if_true, if_false, cellWf, Bool.and_eq_true, decide_eq_true_eq, bne_iff_ne, ne_eq,
            not_false_eq_true, and_true]
          exact ⟨ha, ⟨by omega, by simpa using hw.1.2⟩, hw.2⟩
      · simp only [beq_iff_eq, hk, hl, if_false, cellWf, Bool.and_eq_true, decide_eq_true_eq]
        exact ⟨hw.1, cellSet_wf d hw.2 (by omega)⟩

/-- Read after write. -/
theorem cellGet_cellSet (d : Byte) : ∀ {m : List Host.Cell} {lo : Nat} (a b : Nat) (v : Byte), cellWf d lo m = true →
    cellGet d (cellSet d m a v) b = if b = a then v else cellGet d m b
  | [], lo, a, b, v, _ => by
    by_cases hb : b = a
    · subst hb; by_cases hv : v = d <;> simp [cellSet, cellGet, hv]
    · have hb' : ¬ a = b := fun h => hb h.symm
      by_cases hv : v = d <;> simp [cellSet, cellGet, hv, hb, hb']
  | (k, c) :: t, lo, a, b, v, hw => by
    simp only [cellWf, Bool.and_eq_true, decide_eq_true_eq] at hw
    have below : ∀ x, x ≤ k → cellGet d t x = d := fun x hx => cellGet_below d hw.2 (by omega)
    simp only [cellSet]
    by_cases hk : k = a
    · by_cases hv : v = d
      · simp only [hk, hv, beq_self_eq_true, if_true, cellGet]
        by_cases hb : b = a
        · simp only [hb, if_true]; exact below a (by omega)
        · have hb' : ¬ a = b := fun h => hb h.symm
          simp [hb, hb']
      · simp only [hk, hv, beq_self_eq_true, if_true, cellGet, beq_iff_eq, if_false]
        by_cases hb : b = a
        · simp [hb]
        · have hb' : ¬ a = b := fun h => hb h.symm
          simp [hb, hb']
    · by_cases hl : a < k
      · by_cases hv : v = d
        · simp only [beq_iff_eq, hk, hl, hv, if_true, if_false, cellGet]
          by_cases hb : b = a
          · have : ¬ k = b := by omega
            simp only [hb, if_true]; rw [if_neg (by omega)]; exact below a (by omega)
          · simp [hb]
        · simp only [beq_iff_eq, hk, hl, hv, if_true, if_false, cellGet]
          by_cases hb : b = a
          · simp [hb]
          · have hb' : ¬ a = b := fun h => hb h.symm
            simp [hb, hb']
      · simp only [beq_iff_eq, hk, hl, if_false, cellGet]
        by_cases hb : k = b
        · have : ¬ b = a := by omega
          simp [hb, this]
        · simp only [hb, if_false]; exact cellGet_cellSet d a b v hw.2

/-- Dropping entries keeps the canonical form. -/
theorem cellWf_filter (d : Byte) (f : Host.Cell → Bool) : ∀ {m : List Host.Cell} {lo : Nat}, cellWf d lo m = true →
    cellWf d lo (m.filter f) = true
  | [], _, _ => rfl
  | (k, b) :: t, lo, hw => by
    simp only [cellWf, Bool.and_eq_true, decide_eq_true_eq] at hw
    by_cases hf : f (k, b) = true
    · simp only [List.filter_cons, hf, if_true, cellWf, Bool.and_eq_true, decide_eq_true_eq]
      exact ⟨hw.1, cellWf_filter d f hw.2⟩
    · simp only [List.filter_cons, hf, Bool.false_eq_true, if_false]
      exact cellWf_mono d (by omega) (cellWf_filter d f hw.2)

/-- Writing a run of bytes keeps the canonical form. -/
theorem cellWrite_wf (d : Byte) : ∀ (l : List Byte) {m : List Host.Cell} (a : Nat), cellWf d 0 m = true →
    cellWf d 0 (cellWrite d m a l) = true
  | [], _, _, h => h
  | _ :: l, _, a, h => cellWrite_wf d l (a + 1) (cellSet_wf d h (Nat.zero_le _))

/-- A page program keeps the canonical form of the configuration flash. -/
theorem flashProg_wf : ∀ (l : List Byte) {m : List Host.Cell} (a : Nat), cellWf flashErased 0 m = true →
    cellWf flashErased 0 (flashProg m a l) = true
  | [], _, _, h => h
  | _ :: l, _, a, h => flashProg_wf l (a + 1) (cellSet_wf _ h (Nat.zero_le _))

/-! ### Chip memory -/

theorem State.wr8_memWf {s : State} (a : Nat) (b : Byte) (h : s.memWf = true) : (s.wr8 a b).memWf = true :=
  cellSet_wf _ h (Nat.zero_le _)

theorem State.wrBytes_memWf : ∀ (l : List Byte) {s : State} (a : Nat), s.memWf = true → (s.wrBytes a l).memWf = true
  | [], _, _, h => h
  | _ :: l, _, a, h => State.wrBytes_memWf l (a + 1) (State.wr8_memWf a _ h)

/-- Cells set one after the other keep the canonical form. -/
theorem cellWf_foldl (d : Byte) : ∀ (l : List Host.Cell) {m : List Host.Cell}, cellWf d 0 m = true →
    cellWf d 0 (l.foldl (fun m c => cellSet d m c.1 c.2) m) = true
  | [], _, h => h
  | _ :: l, _, h => cellWf_foldl d l (cellSet_wf d h (Nat.zero_le _))

/-- What a secondary leaves of a command's writes keeps the canonical form (R620). -/
theorem State.ownWrites_memWf {s t : State} (hs : s.memWf = true) (ht : t.memWf = true) : (t.ownWrites s).memWf = true := by
  unfold State.ownWrites
  dsimp only
  split
  · exact ht
  · exact cellWf_foldl memDefault _ (cellWf_filter memDefault _ hs)


theorem State.rd8_wr8 {s : State} (a c : Nat) (b : Byte) (h : s.memWf = true) :
    (s.wr8 a b).rd8 c = if c % 2 ^ 64 = a % 2 ^ 64 then b else s.rd8 c :=
  cellGet_cellSet _ _ _ _ h

/-- Bytes written below an address leave it alone. -/
theorem State.rd8_wrBytes_out : ∀ (l : List Byte) {s : State} (a c : Nat), s.memWf = true →
    (∀ i, i < l.length → c % 2 ^ 64 ≠ (a + i) % 2 ^ 64) → (s.wrBytes a l).rd8 c = s.rd8 c
  | [], _, _, _, _, _ => rfl
  | b :: l, s, a, c, h, hc => by
    have h0 := hc 0 (by simp)
    have := State.rd8_wrBytes_out l (s := s.wr8 a b) (a + 1) c (State.wr8_memWf a b h) (fun i hi => by
      have := hc (i + 1) (by simpa using hi)
      rwa [show a + 1 + i = a + (i + 1) by omega])
    rw [State.wrBytes, this, State.rd8_wr8 _ _ _ h, if_neg (by simpa using h0)]

/-- A byte just written reads back. -/
theorem State.rd8_wrBytes_in (l : List Byte) : ∀ {s : State} (a i : Nat) (hi : i < l.length), s.memWf = true →
    l.length ≤ 2 ^ 64 → (s.wrBytes a l).rd8 (a + i) = l[i] := by
  induction l with
  | nil => intro s a i hi; simp at hi
  | cons b l ih =>
    intro s a i hi h hl
    have hl' : l.length + 1 ≤ 2 ^ 64 := by simpa using hl
    cases i with
    | zero =>
      rw [State.wrBytes, State.rd8_wrBytes_out l (a + 1) (a + 0) (State.wr8_memWf a b h), State.rd8_wr8 _ _ _ h]
      · simp
      · intro i hi'
        omega
    | succ i =>
      have := ih (s := s.wr8 a b) (a + 1) i (by simpa using hi) (State.wr8_memWf a b h) (by omega)
      rw [State.wrBytes, show a + (i + 1) = a + 1 + i by omega, this]; simp

/-- Bytes just written read back. -/
theorem State.rdBytes_wrBytes (l : List Byte) {s : State} (a : Nat) (h : s.memWf = true) (hl : l.length ≤ 2 ^ 64) :
    (s.wrBytes a l).rdBytes a l.length = l := by
  apply List.ext_getElem
  · simp [State.rdBytes]
  · intro i h1 h2
    simp only [State.rdBytes, List.getElem_map, List.getElem_range]
    exact State.rd8_wrBytes_in l a i h2 h hl

end Sys2Proof.Machine
end

