-- ==== Sys2Proof/Laws/Updates.lean ====
section
/-! SUPPORT. Sys2Proof/Laws/Updates.lean: what the composed updates of the state leave alone, field by field: register fields, runs of
bytes, events, and what the loupe and the governor note of a command. -/
namespace Sys2Proof.Machine
open Sys2Proof

/-- A fold of updates that each keep a projection keeps it. -/
theorem foldl_keep {α β : Type} (π : State → α) (f : State → β → State) (h : ∀ s x, π (f s x) = π s) :
    ∀ (l : List β) (s : State), π (l.foldl f s) = π s
  | [], _ => rfl
  | x :: l, s => (foldl_keep π f h l (f s x)).trans (h s x)

/-- A run of bytes written keeps what one byte written keeps. -/
theorem State.wrBytes_keep {α : Type} (π : State → α) (h : ∀ s a b, π (State.wr8 s a b) = π s) :
    ∀ (l : List Byte) (s : State) (a : Nat), π (s.wrBytes a l) = π s
  | [], _, _ => rfl
  | b :: l, s, a => (State.wrBytes_keep π h l (s.wr8 a b) (a + 1)).trans (h s a b)

/-! ### setRf -/
@[simp] theorem State.setRf_pending (s : State) (o lo len x : Nat) : (s.setRf o lo len x).pending = s.pending := rfl
@[simp] theorem State.setRf_freeCtr (s : State) (o lo len x : Nat) : (s.setRf o lo len x).freeCtr = s.freeCtr := rfl
@[simp] theorem State.setRf_time (s : State) (o lo len x : Nat) : (s.setRf o lo len x).time = s.time := rfl
@[simp] theorem State.setRf_aonBefore (s : State) (o lo len x : Nat) : (s.setRf o lo len x).aonBefore = s.aonBefore := rfl
@[simp] theorem State.setRf_resp (s : State) (o lo len x : Nat) : (s.setRf o lo len x).resp = s.resp := rfl
@[simp] theorem State.setRf_mem (s : State) (o lo len x : Nat) : (s.setRf o lo len x).mem = s.mem := rfl
@[simp] theorem State.setRf_pairLatch (s : State) (o lo len x : Nat) : (s.setRf o lo len x).pairLatch = s.pairLatch := rfl
@[simp] theorem State.setRf_pairHold (s : State) (o lo len x : Nat) : (s.setRf o lo len x).pairHold = s.pairHold := rfl
@[simp] theorem State.setRf_sd (s : State) (o lo len x : Nat) : (s.setRf o lo len x).sd = s.sd := rfl
@[simp] theorem State.setRf_rings (s : State) (o lo len x : Nat) : (s.setRf o lo len x).rings = s.rings := rfl
@[simp] theorem State.setRf_ctxs (s : State) (o lo len x : Nat) : (s.setRf o lo len x).ctxs = s.ctxs := rfl
@[simp] theorem State.setRf_nextSeq (s : State) (o lo len x : Nat) : (s.setRf o lo len x).nextSeq = s.nextSeq := rfl
@[simp] theorem State.setRf_parts (s : State) (o lo len x : Nat) : (s.setRf o lo len x).parts = s.parts := rfl
@[simp] theorem State.setRf_objIds (s : State) (o lo len x : Nat) : (s.setRf o lo len x).objIds = s.objIds := rfl
@[simp] theorem State.setRf_objs (s : State) (o lo len x : Nat) : (s.setRf o lo len x).objs = s.objs := rfl
@[simp] theorem State.setRf_strands (s : State) (o lo len x : Nat) : (s.setRf o lo len x).strands = s.strands := rfl
@[simp] theorem State.setRf_lockets (s : State) (o lo len x : Nat) : (s.setRf o lo len x).lockets = s.lockets := rfl
@[simp] theorem State.setRf_threads (s : State) (o lo len x : Nat) : (s.setRf o lo len x).threads = s.threads := rfl
@[simp] theorem State.setRf_scratch (s : State) (o lo len x : Nat) : (s.setRf o lo len x).scratch = s.scratch := rfl
@[simp] theorem State.setRf_vgs (s : State) (o lo len x : Nat) : (s.setRf o lo len x).vgs = s.vgs := rfl
@[simp] theorem State.setRf_imem (s : State) (o lo len x : Nat) : (s.setRf o lo len x).imem = s.imem := rfl
@[simp] theorem State.setRf_ctrlSram (s : State) (o lo len x : Nat) : (s.setRf o lo len x).ctrlSram = s.ctrlSram := rfl
@[simp] theorem State.setRf_fabLate (s : State) (o lo len x : Nat) : (s.setRf o lo len x).fabLate = s.fabLate := rfl
@[simp] theorem State.setRf_fabCut (s : State) (o lo len x : Nat) : (s.setRf o lo len x).fabCut = s.fabCut := rfl
@[simp] theorem State.setRf_sidLog (s : State) (o lo len x : Nat) : (s.setRf o lo len x).sidLog = s.sidLog := rfl
@[simp] theorem State.setRf_reportAddr (s : State) (o lo len x : Nat) : (s.setRf o lo len x).reportAddr = s.reportAddr := rfl
@[simp] theorem State.setRf_chans (s : State) (o lo len x : Nat) : (s.setRf o lo len x).chans = s.chans := rfl
@[simp] theorem State.setRf_profile (s : State) (o lo len x : Nat) : (s.setRf o lo len x).profile = s.profile := rfl
@[simp] theorem State.setRf_indexOk (s : State) (o lo len x : Nat) : (s.setRf o lo len x).indexOk = s.indexOk := rfl
@[simp] theorem State.setRf_indexAt (s : State) (o lo len x : Nat) : (s.setRf o lo len x).indexAt = s.indexAt := rfl
@[simp] theorem State.setRf_indexImg (s : State) (o lo len x : Nat) : (s.setRf o lo len x).indexImg = s.indexImg := rfl
@[simp] theorem State.setRf_refillAt (s : State) (o lo len x : Nat) : (s.setRf o lo len x).refillAt = s.refillAt := rfl
@[simp] theorem State.setRf_lastRing (s : State) (o lo len x : Nat) : (s.setRf o lo len x).lastRing = s.lastRing := rfl
@[simp] theorem State.setRf_capture (s : State) (o lo len x : Nat) : (s.setRf o lo len x).capture = s.capture := rfl
@[simp] theorem State.setRf_bootRec (s : State) (o lo len x : Nat) : (s.setRf o lo len x).bootRec = s.bootRec := rfl
@[simp] theorem State.setRf_snap (s : State) (o lo len x : Nat) : (s.setRf o lo len x).snap = s.snap := rfl
@[simp] theorem State.setRf_snapOk (s : State) (o lo len x : Nat) : (s.setRf o lo len x).snapOk = s.snapOk := rfl
@[simp] theorem State.setRf_faults (s : State) (o lo len x : Nat) : (s.setRf o lo len x).faults = s.faults := rfl
@[simp] theorem State.setRf_boot (s : State) (o lo len x : Nat) : (s.setRf o lo len x).boot = s.boot := rfl
@[simp] theorem State.setRf_flash (s : State) (o lo len x : Nat) : (s.setRf o lo len x).flash = s.flash := rfl
@[simp] theorem State.setRf_spi (s : State) (o lo len x : Nat) : (s.setRf o lo len x).spi = s.spi := rfl
@[simp] theorem State.setRf_port (s : State) (o lo len x : Nat) : (s.setRf o lo len x).port = s.port := rfl
@[simp] theorem State.setRf_fuses (s : State) (o lo len x : Nat) : (s.setRf o lo len x).fuses = s.fuses := rfl
@[simp] theorem State.setRf_chnOut (s : State) (o lo len x : Nat) : (s.setRf o lo len x).chnOut = s.chnOut := rfl
@[simp] theorem State.setRf_peerOut (s : State) (o lo len x : Nat) : (s.setRf o lo len x).peerOut = s.peerOut := rfl
@[simp] theorem State.setRf_lastAt (s : State) (o lo len x : Nat) : (s.setRf o lo len x).lastAt = s.lastAt := rfl
@[simp] theorem State.setRf_enumHeld (s : State) (o lo len x : Nat) : (s.setRf o lo len x).enumHeld = s.enumHeld := rfl
@[simp] theorem State.setRf_mailOut (s : State) (o lo len x : Nat) : (s.setRf o lo len x).mailOut = s.mailOut := rfl
@[simp] theorem State.setRf_wrAt (s : State) (o lo len x : Nat) : (s.setRf o lo len x).wrAt = s.wrAt := rfl
@[simp] theorem State.setRf_wrOld (s : State) (o lo len x : Nat) : (s.setRf o lo len x).wrOld = s.wrOld := rfl
@[simp] theorem State.setRf_chnWait (s : State) (o lo len x : Nat) : (s.setRf o lo len x).chnWait = s.chnWait := rfl
@[simp] theorem State.setRf_wdogAt (s : State) (o lo len x : Nat) : (s.setRf o lo len x).wdogAt = s.wdogAt := rfl
@[simp] theorem State.setRf_pair (s : State) (o lo len x : Nat) : (s.setRf o lo len x).pair = s.pair := rfl
@[simp] theorem State.setRf_wlog (s : State) (o lo len x : Nat) : (s.setRf o lo len x).wlog = s.wlog := rfl
@[simp] theorem State.setRf_vseg (s : State) (o lo len x : Nat) : (s.setRf o lo len x).vseg = s.vseg := rfl
@[simp] theorem State.setRf_grp (s : State) (o lo len x : Nat) : (s.setRf o lo len x).grp = s.grp := rfl
@[simp] theorem State.setRf_ests (s : State) (o lo len x : Nat) : (s.setRf o lo len x).ests = s.ests := rfl
@[simp] theorem State.setRf_raisedAt (s : State) (o lo len x : Nat) : (s.setRf o lo len x).raisedAt = s.raisedAt := rfl
@[simp] theorem State.setRf_coolAt (s : State) (o lo len x : Nat) : (s.setRf o lo len x).coolAt = s.coolAt := rfl
@[simp] theorem State.setRf_waking (s : State) (o lo len x : Nat) : (s.setRf o lo len x).waking = s.waking := rfl
@[simp] theorem State.setRf_sleeping (s : State) (o lo len x : Nat) : (s.setRf o lo len x).sleeping = s.sleeping := rfl
@[simp] theorem State.setRf_domLog (s : State) (o lo len x : Nat) : (s.setRf o lo len x).domLog = s.domLog := rfl
@[simp] theorem State.setRf_units (s : State) (o lo len x : Nat) : (s.setRf o lo len x).units = s.units := rfl
@[simp] theorem State.setRf_trace (s : State) (o lo len x : Nat) : (s.setRf o lo len x).trace = s.trace := rfl
@[simp] theorem State.setRf_traceBase (s : State) (o lo len x : Nat) : (s.setRf o lo len x).traceBase = s.traceBase := rfl
@[simp] theorem State.setRf_traceSlots (s : State) (o lo len x : Nat) : (s.setRf o lo len x).traceSlots = s.traceSlots := rfl
@[simp] theorem State.setRf_tapIr (s : State) (o lo len x : Nat) : (s.setRf o lo len x).tapIr = s.tapIr := rfl
@[simp] theorem State.setRf_tapDr (s : State) (o lo len x : Nat) : (s.setRf o lo len x).tapDr = s.tapDr := rfl
@[simp] theorem State.setRf_tapRes (s : State) (o lo len x : Nat) : (s.setRf o lo len x).tapRes = s.tapRes := rfl
@[simp] theorem State.setRf_access (s : State) (o lo len x : Nat) : (s.setRf o lo len x).access = s.access := rfl
@[simp] theorem State.setRf_accessAt (s : State) (o lo len x : Nat) : (s.setRf o lo len x).accessAt = s.accessAt := rfl

/-! ### setRb -/
@[simp] theorem State.setRb_pending (s : State) (o i : Nat) (b : Bool) : (s.setRb o i b).pending = s.pending := rfl
@[simp] theorem State.setRb_freeCtr (s : State) (o i : Nat) (b : Bool) : (s.setRb o i b).freeCtr = s.freeCtr := rfl
@[simp] theorem State.setRb_time (s : State) (o i : Nat) (b : Bool) : (s.setRb o i b).time = s.time := rfl
@[simp] theorem State.setRb_aonBefore (s : State) (o i : Nat) (b : Bool) : (s.setRb o i b).aonBefore = s.aonBefore := rfl
@[simp] theorem State.setRb_resp (s : State) (o i : Nat) (b : Bool) : (s.setRb o i b).resp = s.resp := rfl
@[simp] theorem State.setRb_mem (s : State) (o i : Nat) (b : Bool) : (s.setRb o i b).mem = s.mem := rfl
@[simp] theorem State.setRb_pairLatch (s : State) (o i : Nat) (b : Bool) : (s.setRb o i b).pairLatch = s.pairLatch := rfl
@[simp] theorem State.setRb_pairHold (s : State) (o i : Nat) (b : Bool) : (s.setRb o i b).pairHold = s.pairHold := rfl
@[simp] theorem State.setRb_sd (s : State) (o i : Nat) (b : Bool) : (s.setRb o i b).sd = s.sd := rfl
@[simp] theorem State.setRb_rings (s : State) (o i : Nat) (b : Bool) : (s.setRb o i b).rings = s.rings := rfl
@[simp] theorem State.setRb_ctxs (s : State) (o i : Nat) (b : Bool) : (s.setRb o i b).ctxs = s.ctxs := rfl
@[simp] theorem State.setRb_nextSeq (s : State) (o i : Nat) (b : Bool) : (s.setRb o i b).nextSeq = s.nextSeq := rfl
@[simp] theorem State.setRb_parts (s : State) (o i : Nat) (b : Bool) : (s.setRb o i b).parts = s.parts := rfl
@[simp] theorem State.setRb_objIds (s : State) (o i : Nat) (b : Bool) : (s.setRb o i b).objIds = s.objIds := rfl
@[simp] theorem State.setRb_objs (s : State) (o i : Nat) (b : Bool) : (s.setRb o i b).objs = s.objs := rfl
@[simp] theorem State.setRb_strands (s : State) (o i : Nat) (b : Bool) : (s.setRb o i b).strands = s.strands := rfl
@[simp] theorem State.setRb_lockets (s : State) (o i : Nat) (b : Bool) : (s.setRb o i b).lockets = s.lockets := rfl
@[simp] theorem State.setRb_threads (s : State) (o i : Nat) (b : Bool) : (s.setRb o i b).threads = s.threads := rfl
@[simp] theorem State.setRb_scratch (s : State) (o i : Nat) (b : Bool) : (s.setRb o i b).scratch = s.scratch := rfl
@[simp] theorem State.setRb_vgs (s : State) (o i : Nat) (b : Bool) : (s.setRb o i b).vgs = s.vgs := rfl
@[simp] theorem State.setRb_imem (s : State) (o i : Nat) (b : Bool) : (s.setRb o i b).imem = s.imem := rfl
@[simp] theorem State.setRb_ctrlSram (s : State) (o i : Nat) (b : Bool) : (s.setRb o i b).ctrlSram = s.ctrlSram := rfl
@[simp] theorem State.setRb_fabLate (s : State) (o i : Nat) (b : Bool) : (s.setRb o i b).fabLate = s.fabLate := rfl
@[simp] theorem State.setRb_fabCut (s : State) (o i : Nat) (b : Bool) : (s.setRb o i b).fabCut = s.fabCut := rfl
@[simp] theorem State.setRb_sidLog (s : State) (o i : Nat) (b : Bool) : (s.setRb o i b).sidLog = s.sidLog := rfl
@[simp] theorem State.setRb_reportAddr (s : State) (o i : Nat) (b : Bool) : (s.setRb o i b).reportAddr = s.reportAddr := rfl
@[simp] theorem State.setRb_chans (s : State) (o i : Nat) (b : Bool) : (s.setRb o i b).chans = s.chans := rfl
@[simp] theorem State.setRb_profile (s : State) (o i : Nat) (b : Bool) : (s.setRb o i b).profile = s.profile := rfl
@[simp] theorem State.setRb_indexOk (s : State) (o i : Nat) (b : Bool) : (s.setRb o i b).indexOk = s.indexOk := rfl
@[simp] theorem State.setRb_indexAt (s : State) (o i : Nat) (b : Bool) : (s.setRb o i b).indexAt = s.indexAt := rfl
@[simp] theorem State.setRb_indexImg (s : State) (o i : Nat) (b : Bool) : (s.setRb o i b).indexImg = s.indexImg := rfl
@[simp] theorem State.setRb_refillAt (s : State) (o i : Nat) (b : Bool) : (s.setRb o i b).refillAt = s.refillAt := rfl
@[simp] theorem State.setRb_lastRing (s : State) (o i : Nat) (b : Bool) : (s.setRb o i b).lastRing = s.lastRing := rfl
@[simp] theorem State.setRb_capture (s : State) (o i : Nat) (b : Bool) : (s.setRb o i b).capture = s.capture := rfl
@[simp] theorem State.setRb_bootRec (s : State) (o i : Nat) (b : Bool) : (s.setRb o i b).bootRec = s.bootRec := rfl
@[simp] theorem State.setRb_snap (s : State) (o i : Nat) (b : Bool) : (s.setRb o i b).snap = s.snap := rfl
@[simp] theorem State.setRb_snapOk (s : State) (o i : Nat) (b : Bool) : (s.setRb o i b).snapOk = s.snapOk := rfl
@[simp] theorem State.setRb_faults (s : State) (o i : Nat) (b : Bool) : (s.setRb o i b).faults = s.faults := rfl
@[simp] theorem State.setRb_boot (s : State) (o i : Nat) (b : Bool) : (s.setRb o i b).boot = s.boot := rfl
@[simp] theorem State.setRb_flash (s : State) (o i : Nat) (b : Bool) : (s.setRb o i b).flash = s.flash := rfl
@[simp] theorem State.setRb_spi (s : State) (o i : Nat) (b : Bool) : (s.setRb o i b).spi = s.spi := rfl
@[simp] theorem State.setRb_port (s : State) (o i : Nat) (b : Bool) : (s.setRb o i b).port = s.port := rfl
@[simp] theorem State.setRb_fuses (s : State) (o i : Nat) (b : Bool) : (s.setRb o i b).fuses = s.fuses := rfl
@[simp] theorem State.setRb_chnOut (s : State) (o i : Nat) (b : Bool) : (s.setRb o i b).chnOut = s.chnOut := rfl
@[simp] theorem State.setRb_peerOut (s : State) (o i : Nat) (b : Bool) : (s.setRb o i b).peerOut = s.peerOut := rfl
@[simp] theorem State.setRb_lastAt (s : State) (o i : Nat) (b : Bool) : (s.setRb o i b).lastAt = s.lastAt := rfl
@[simp] theorem State.setRb_enumHeld (s : State) (o i : Nat) (b : Bool) : (s.setRb o i b).enumHeld = s.enumHeld := rfl
@[simp] theorem State.setRb_mailOut (s : State) (o i : Nat) (b : Bool) : (s.setRb o i b).mailOut = s.mailOut := rfl
@[simp] theorem State.setRb_wrAt (s : State) (o i : Nat) (b : Bool) : (s.setRb o i b).wrAt = s.wrAt := rfl
@[simp] theorem State.setRb_wrOld (s : State) (o i : Nat) (b : Bool) : (s.setRb o i b).wrOld = s.wrOld := rfl
@[simp] theorem State.setRb_chnWait (s : State) (o i : Nat) (b : Bool) : (s.setRb o i b).chnWait = s.chnWait := rfl
@[simp] theorem State.setRb_wdogAt (s : State) (o i : Nat) (b : Bool) : (s.setRb o i b).wdogAt = s.wdogAt := rfl
@[simp] theorem State.setRb_pair (s : State) (o i : Nat) (b : Bool) : (s.setRb o i b).pair = s.pair := rfl
@[simp] theorem State.setRb_wlog (s : State) (o i : Nat) (b : Bool) : (s.setRb o i b).wlog = s.wlog := rfl
@[simp] theorem State.setRb_vseg (s : State) (o i : Nat) (b : Bool) : (s.setRb o i b).vseg = s.vseg := rfl
@[simp] theorem State.setRb_grp (s : State) (o i : Nat) (b : Bool) : (s.setRb o i b).grp = s.grp := rfl
@[simp] theorem State.setRb_ests (s : State) (o i : Nat) (b : Bool) : (s.setRb o i b).ests = s.ests := rfl
@[simp] theorem State.setRb_raisedAt (s : State) (o i : Nat) (b : Bool) : (s.setRb o i b).raisedAt = s.raisedAt := rfl
@[simp] theorem State.setRb_coolAt (s : State) (o i : Nat) (b : Bool) : (s.setRb o i b).coolAt = s.coolAt := rfl
@[simp] theorem State.setRb_waking (s : State) (o i : Nat) (b : Bool) : (s.setRb o i b).waking = s.waking := rfl
@[simp] theorem State.setRb_sleeping (s : State) (o i : Nat) (b : Bool) : (s.setRb o i b).sleeping = s.sleeping := rfl
@[simp] theorem State.setRb_domLog (s : State) (o i : Nat) (b : Bool) : (s.setRb o i b).domLog = s.domLog := rfl
@[simp] theorem State.setRb_units (s : State) (o i : Nat) (b : Bool) : (s.setRb o i b).units = s.units := rfl
@[simp] theorem State.setRb_trace (s : State) (o i : Nat) (b : Bool) : (s.setRb o i b).trace = s.trace := rfl
@[simp] theorem State.setRb_traceBase (s : State) (o i : Nat) (b : Bool) : (s.setRb o i b).traceBase = s.traceBase := rfl
@[simp] theorem State.setRb_traceSlots (s : State) (o i : Nat) (b : Bool) : (s.setRb o i b).traceSlots = s.traceSlots := rfl
@[simp] theorem State.setRb_tapIr (s : State) (o i : Nat) (b : Bool) : (s.setRb o i b).tapIr = s.tapIr := rfl
@[simp] theorem State.setRb_tapDr (s : State) (o i : Nat) (b : Bool) : (s.setRb o i b).tapDr = s.tapDr := rfl
@[simp] theorem State.setRb_tapRes (s : State) (o i : Nat) (b : Bool) : (s.setRb o i b).tapRes = s.tapRes := rfl
@[simp] theorem State.setRb_access (s : State) (o i : Nat) (b : Bool) : (s.setRb o i b).access = s.access := rfl
@[simp] theorem State.setRb_accessAt (s : State) (o i : Nat) (b : Bool) : (s.setRb o i b).accessAt = s.accessAt := rfl

/-! ### setReg64 -/
@[simp] theorem State.setReg64_pending (s : State) (o : Nat) (v : DWord) : (s.setReg64 o v).pending = s.pending := rfl
@[simp] theorem State.setReg64_freeCtr (s : State) (o : Nat) (v : DWord) : (s.setReg64 o v).freeCtr = s.freeCtr := rfl
@[simp] theorem State.setReg64_time (s : State) (o : Nat) (v : DWord) : (s.setReg64 o v).time = s.time := rfl
@[simp] theorem State.setReg64_aonBefore (s : State) (o : Nat) (v : DWord) : (s.setReg64 o v).aonBefore = s.aonBefore := rfl
@[simp] theorem State.setReg64_resp (s : State) (o : Nat) (v : DWord) : (s.setReg64 o v).resp = s.resp := rfl
@[simp] theorem State.setReg64_mem (s : State) (o : Nat) (v : DWord) : (s.setReg64 o v).mem = s.mem := rfl
@[simp] theorem State.setReg64_pairLatch (s : State) (o : Nat) (v : DWord) : (s.setReg64 o v).pairLatch = s.pairLatch := rfl
@[simp] theorem State.setReg64_pairHold (s : State) (o : Nat) (v : DWord) : (s.setReg64 o v).pairHold = s.pairHold := rfl
@[simp] theorem State.setReg64_sd (s : State) (o : Nat) (v : DWord) : (s.setReg64 o v).sd = s.sd := rfl
@[simp] theorem State.setReg64_rings (s : State) (o : Nat) (v : DWord) : (s.setReg64 o v).rings = s.rings := rfl
@[simp] theorem State.setReg64_ctxs (s : State) (o : Nat) (v : DWord) : (s.setReg64 o v).ctxs = s.ctxs := rfl
@[simp] theorem State.setReg64_nextSeq (s : State) (o : Nat) (v : DWord) : (s.setReg64 o v).nextSeq = s.nextSeq := rfl
@[simp] theorem State.setReg64_parts (s : State) (o : Nat) (v : DWord) : (s.setReg64 o v).parts = s.parts := rfl
@[simp] theorem State.setReg64_objIds (s : State) (o : Nat) (v : DWord) : (s.setReg64 o v).objIds = s.objIds := rfl
@[simp] theorem State.setReg64_objs (s : State) (o : Nat) (v : DWord) : (s.setReg64 o v).objs = s.objs := rfl
@[simp] theorem State.setReg64_strands (s : State) (o : Nat) (v : DWord) : (s.setReg64 o v).strands = s.strands := rfl
@[simp] theorem State.setReg64_lockets (s : State) (o : Nat) (v : DWord) : (s.setReg64 o v).lockets = s.lockets := rfl
@[simp] theorem State.setReg64_threads (s : State) (o : Nat) (v : DWord) : (s.setReg64 o v).threads = s.threads := rfl
@[simp] theorem State.setReg64_scratch (s : State) (o : Nat) (v : DWord) : (s.setReg64 o v).scratch = s.scratch := rfl
@[simp] theorem State.setReg64_vgs (s : State) (o : Nat) (v : DWord) : (s.setReg64 o v).vgs = s.vgs := rfl
@[simp] theorem State.setReg64_imem (s : State) (o : Nat) (v : DWord) : (s.setReg64 o v).imem = s.imem := rfl
@[simp] theorem State.setReg64_ctrlSram (s : State) (o : Nat) (v : DWord) : (s.setReg64 o v).ctrlSram = s.ctrlSram := rfl
@[simp] theorem State.setReg64_fabLate (s : State) (o : Nat) (v : DWord) : (s.setReg64 o v).fabLate = s.fabLate := rfl
@[simp] theorem State.setReg64_fabCut (s : State) (o : Nat) (v : DWord) : (s.setReg64 o v).fabCut = s.fabCut := rfl
@[simp] theorem State.setReg64_sidLog (s : State) (o : Nat) (v : DWord) : (s.setReg64 o v).sidLog = s.sidLog := rfl
@[simp] theorem State.setReg64_reportAddr (s : State) (o : Nat) (v : DWord) : (s.setReg64 o v).reportAddr = s.reportAddr := rfl
@[simp] theorem State.setReg64_chans (s : State) (o : Nat) (v : DWord) : (s.setReg64 o v).chans = s.chans := rfl
@[simp] theorem State.setReg64_profile (s : State) (o : Nat) (v : DWord) : (s.setReg64 o v).profile = s.profile := rfl
@[simp] theorem State.setReg64_indexOk (s : State) (o : Nat) (v : DWord) : (s.setReg64 o v).indexOk = s.indexOk := rfl
@[simp] theorem State.setReg64_indexAt (s : State) (o : Nat) (v : DWord) : (s.setReg64 o v).indexAt = s.indexAt := rfl
@[simp] theorem State.setReg64_indexImg (s : State) (o : Nat) (v : DWord) : (s.setReg64 o v).indexImg = s.indexImg := rfl
@[simp] theorem State.setReg64_refillAt (s : State) (o : Nat) (v : DWord) : (s.setReg64 o v).refillAt = s.refillAt := rfl
@[simp] theorem State.setReg64_lastRing (s : State) (o : Nat) (v : DWord) : (s.setReg64 o v).lastRing = s.lastRing := rfl
@[simp] theorem State.setReg64_capture (s : State) (o : Nat) (v : DWord) : (s.setReg64 o v).capture = s.capture := rfl
@[simp] theorem State.setReg64_bootRec (s : State) (o : Nat) (v : DWord) : (s.setReg64 o v).bootRec = s.bootRec := rfl
@[simp] theorem State.setReg64_snap (s : State) (o : Nat) (v : DWord) : (s.setReg64 o v).snap = s.snap := rfl
@[simp] theorem State.setReg64_snapOk (s : State) (o : Nat) (v : DWord) : (s.setReg64 o v).snapOk = s.snapOk := rfl
@[simp] theorem State.setReg64_faults (s : State) (o : Nat) (v : DWord) : (s.setReg64 o v).faults = s.faults := rfl
@[simp] theorem State.setReg64_boot (s : State) (o : Nat) (v : DWord) : (s.setReg64 o v).boot = s.boot := rfl
@[simp] theorem State.setReg64_flash (s : State) (o : Nat) (v : DWord) : (s.setReg64 o v).flash = s.flash := rfl
@[simp] theorem State.setReg64_spi (s : State) (o : Nat) (v : DWord) : (s.setReg64 o v).spi = s.spi := rfl
@[simp] theorem State.setReg64_port (s : State) (o : Nat) (v : DWord) : (s.setReg64 o v).port = s.port := rfl
@[simp] theorem State.setReg64_fuses (s : State) (o : Nat) (v : DWord) : (s.setReg64 o v).fuses = s.fuses := rfl
@[simp] theorem State.setReg64_chnOut (s : State) (o : Nat) (v : DWord) : (s.setReg64 o v).chnOut = s.chnOut := rfl
@[simp] theorem State.setReg64_peerOut (s : State) (o : Nat) (v : DWord) : (s.setReg64 o v).peerOut = s.peerOut := rfl
@[simp] theorem State.setReg64_lastAt (s : State) (o : Nat) (v : DWord) : (s.setReg64 o v).lastAt = s.lastAt := rfl
@[simp] theorem State.setReg64_enumHeld (s : State) (o : Nat) (v : DWord) : (s.setReg64 o v).enumHeld = s.enumHeld := rfl
@[simp] theorem State.setReg64_mailOut (s : State) (o : Nat) (v : DWord) : (s.setReg64 o v).mailOut = s.mailOut := rfl
@[simp] theorem State.setReg64_wrAt (s : State) (o : Nat) (v : DWord) : (s.setReg64 o v).wrAt = s.wrAt := rfl
@[simp] theorem State.setReg64_wrOld (s : State) (o : Nat) (v : DWord) : (s.setReg64 o v).wrOld = s.wrOld := rfl
@[simp] theorem State.setReg64_chnWait (s : State) (o : Nat) (v : DWord) : (s.setReg64 o v).chnWait = s.chnWait := rfl
@[simp] theorem State.setReg64_wdogAt (s : State) (o : Nat) (v : DWord) : (s.setReg64 o v).wdogAt = s.wdogAt := rfl
@[simp] theorem State.setReg64_pair (s : State) (o : Nat) (v : DWord) : (s.setReg64 o v).pair = s.pair := rfl
@[simp] theorem State.setReg64_wlog (s : State) (o : Nat) (v : DWord) : (s.setReg64 o v).wlog = s.wlog := rfl
@[simp] theorem State.setReg64_vseg (s : State) (o : Nat) (v : DWord) : (s.setReg64 o v).vseg = s.vseg := rfl
@[simp] theorem State.setReg64_grp (s : State) (o : Nat) (v : DWord) : (s.setReg64 o v).grp = s.grp := rfl
@[simp] theorem State.setReg64_ests (s : State) (o : Nat) (v : DWord) : (s.setReg64 o v).ests = s.ests := rfl
@[simp] theorem State.setReg64_raisedAt (s : State) (o : Nat) (v : DWord) : (s.setReg64 o v).raisedAt = s.raisedAt := rfl
@[simp] theorem State.setReg64_coolAt (s : State) (o : Nat) (v : DWord) : (s.setReg64 o v).coolAt = s.coolAt := rfl
@[simp] theorem State.setReg64_waking (s : State) (o : Nat) (v : DWord) : (s.setReg64 o v).waking = s.waking := rfl
@[simp] theorem State.setReg64_sleeping (s : State) (o : Nat) (v : DWord) : (s.setReg64 o v).sleeping = s.sleeping := rfl
@[simp] theorem State.setReg64_domLog (s : State) (o : Nat) (v : DWord) : (s.setReg64 o v).domLog = s.domLog := rfl
@[simp] theorem State.setReg64_units (s : State) (o : Nat) (v : DWord) : (s.setReg64 o v).units = s.units := rfl
@[simp] theorem State.setReg64_trace (s : State) (o : Nat) (v : DWord) : (s.setReg64 o v).trace = s.trace := rfl
@[simp] theorem State.setReg64_traceBase (s : State) (o : Nat) (v : DWord) : (s.setReg64 o v).traceBase = s.traceBase := rfl
@[simp] theorem State.setReg64_traceSlots (s : State) (o : Nat) (v : DWord) : (s.setReg64 o v).traceSlots = s.traceSlots := rfl
@[simp] theorem State.setReg64_tapIr (s : State) (o : Nat) (v : DWord) : (s.setReg64 o v).tapIr = s.tapIr := rfl
@[simp] theorem State.setReg64_tapDr (s : State) (o : Nat) (v : DWord) : (s.setReg64 o v).tapDr = s.tapDr := rfl
@[simp] theorem State.setReg64_tapRes (s : State) (o : Nat) (v : DWord) : (s.setReg64 o v).tapRes = s.tapRes := rfl
@[simp] theorem State.setReg64_access (s : State) (o : Nat) (v : DWord) : (s.setReg64 o v).access = s.access := rfl
@[simp] theorem State.setReg64_accessAt (s : State) (o : Nat) (v : DWord) : (s.setReg64 o v).accessAt = s.accessAt := rfl

/-! ### bumpBy -/
@[simp] theorem State.bumpBy_pending (s : State) (o lo len n : Nat) : (s.bumpBy o lo len n).pending = s.pending := rfl
@[simp] theorem State.bumpBy_freeCtr (s : State) (o lo len n : Nat) : (s.bumpBy o lo len n).freeCtr = s.freeCtr := rfl
@[simp] theorem State.bumpBy_time (s : State) (o lo len n : Nat) : (s.bumpBy o lo len n).time = s.time := rfl
@[simp] theorem State.bumpBy_aonBefore (s : State) (o lo len n : Nat) : (s.bumpBy o lo len n).aonBefore = s.aonBefore := rfl
@[simp] theorem State.bumpBy_resp (s : State) (o lo len n : Nat) : (s.bumpBy o lo len n).resp = s.resp := rfl
@[simp] theorem State.bumpBy_mem (s : State) (o lo len n : Nat) : (s.bumpBy o lo len n).mem = s.mem := rfl
@[simp] theorem State.bumpBy_pairLatch (s : State) (o lo len n : Nat) : (s.bumpBy o lo len n).pairLatch = s.pairLatch := rfl
@[simp] theorem State.bumpBy_pairHold (s : State) (o lo len n : Nat) : (s.bumpBy o lo len n).pairHold = s.pairHold := rfl
@[simp] theorem State.bumpBy_sd (s : State) (o lo len n : Nat) : (s.bumpBy o lo len n).sd = s.sd := rfl
@[simp] theorem State.bumpBy_rings (s : State) (o lo len n : Nat) : (s.bumpBy o lo len n).rings = s.rings := rfl
@[simp] theorem State.bumpBy_ctxs (s : State) (o lo len n : Nat) : (s.bumpBy o lo len n).ctxs = s.ctxs := rfl
@[simp] theorem State.bumpBy_nextSeq (s : State) (o lo len n : Nat) : (s.bumpBy o lo len n).nextSeq = s.nextSeq := rfl
@[simp] theorem State.bumpBy_parts (s : State) (o lo len n : Nat) : (s.bumpBy o lo len n).parts = s.parts := rfl
@[simp] theorem State.bumpBy_objIds (s : State) (o lo len n : Nat) : (s.bumpBy o lo len n).objIds = s.objIds := rfl
@[simp] theorem State.bumpBy_objs (s : State) (o lo len n : Nat) : (s.bumpBy o lo len n).objs = s.objs := rfl
@[simp] theorem State.bumpBy_strands (s : State) (o lo len n : Nat) : (s.bumpBy o lo len n).strands = s.strands := rfl
@[simp] theorem State.bumpBy_lockets (s : State) (o lo len n : Nat) : (s.bumpBy o lo len n).lockets = s.lockets := rfl
@[simp] theorem State.bumpBy_threads (s : State) (o lo len n : Nat) : (s.bumpBy o lo len n).threads = s.threads := rfl
@[simp] theorem State.bumpBy_scratch (s : State) (o lo len n : Nat) : (s.bumpBy o lo len n).scratch = s.scratch := rfl
@[simp] theorem State.bumpBy_vgs (s : State) (o lo len n : Nat) : (s.bumpBy o lo len n).vgs = s.vgs := rfl
@[simp] theorem State.bumpBy_imem (s : State) (o lo len n : Nat) : (s.bumpBy o lo len n).imem = s.imem := rfl
@[simp] theorem State.bumpBy_ctrlSram (s : State) (o lo len n : Nat) : (s.bumpBy o lo len n).ctrlSram = s.ctrlSram := rfl
@[simp] theorem State.bumpBy_fabLate (s : State) (o lo len n : Nat) : (s.bumpBy o lo len n).fabLate = s.fabLate := rfl
@[simp] theorem State.bumpBy_fabCut (s : State) (o lo len n : Nat) : (s.bumpBy o lo len n).fabCut = s.fabCut := rfl
@[simp] theorem State.bumpBy_sidLog (s : State) (o lo len n : Nat) : (s.bumpBy o lo len n).sidLog = s.sidLog := rfl
@[simp] theorem State.bumpBy_reportAddr (s : State) (o lo len n : Nat) : (s.bumpBy o lo len n).reportAddr = s.reportAddr := rfl
@[simp] theorem State.bumpBy_chans (s : State) (o lo len n : Nat) : (s.bumpBy o lo len n).chans = s.chans := rfl
@[simp] theorem State.bumpBy_profile (s : State) (o lo len n : Nat) : (s.bumpBy o lo len n).profile = s.profile := rfl
@[simp] theorem State.bumpBy_indexOk (s : State) (o lo len n : Nat) : (s.bumpBy o lo len n).indexOk = s.indexOk := rfl
@[simp] theorem State.bumpBy_indexAt (s : State) (o lo len n : Nat) : (s.bumpBy o lo len n).indexAt = s.indexAt := rfl
@[simp] theorem State.bumpBy_indexImg (s : State) (o lo len n : Nat) : (s.bumpBy o lo len n).indexImg = s.indexImg := rfl
@[simp] theorem State.bumpBy_refillAt (s : State) (o lo len n : Nat) : (s.bumpBy o lo len n).refillAt = s.refillAt := rfl
@[simp] theorem State.bumpBy_lastRing (s : State) (o lo len n : Nat) : (s.bumpBy o lo len n).lastRing = s.lastRing := rfl
@[simp] theorem State.bumpBy_capture (s : State) (o lo len n : Nat) : (s.bumpBy o lo len n).capture = s.capture := rfl
@[simp] theorem State.bumpBy_bootRec (s : State) (o lo len n : Nat) : (s.bumpBy o lo len n).bootRec = s.bootRec := rfl
@[simp] theorem State.bumpBy_snap (s : State) (o lo len n : Nat) : (s.bumpBy o lo len n).snap = s.snap := rfl
@[simp] theorem State.bumpBy_snapOk (s : State) (o lo len n : Nat) : (s.bumpBy o lo len n).snapOk = s.snapOk := rfl
@[simp] theorem State.bumpBy_faults (s : State) (o lo len n : Nat) : (s.bumpBy o lo len n).faults = s.faults := rfl
@[simp] theorem State.bumpBy_boot (s : State) (o lo len n : Nat) : (s.bumpBy o lo len n).boot = s.boot := rfl
@[simp] theorem State.bumpBy_flash (s : State) (o lo len n : Nat) : (s.bumpBy o lo len n).flash = s.flash := rfl
@[simp] theorem State.bumpBy_spi (s : State) (o lo len n : Nat) : (s.bumpBy o lo len n).spi = s.spi := rfl
@[simp] theorem State.bumpBy_port (s : State) (o lo len n : Nat) : (s.bumpBy o lo len n).port = s.port := rfl
@[simp] theorem State.bumpBy_fuses (s : State) (o lo len n : Nat) : (s.bumpBy o lo len n).fuses = s.fuses := rfl
@[simp] theorem State.bumpBy_chnOut (s : State) (o lo len n : Nat) : (s.bumpBy o lo len n).chnOut = s.chnOut := rfl
@[simp] theorem State.bumpBy_peerOut (s : State) (o lo len n : Nat) : (s.bumpBy o lo len n).peerOut = s.peerOut := rfl
@[simp] theorem State.bumpBy_lastAt (s : State) (o lo len n : Nat) : (s.bumpBy o lo len n).lastAt = s.lastAt := rfl
@[simp] theorem State.bumpBy_enumHeld (s : State) (o lo len n : Nat) : (s.bumpBy o lo len n).enumHeld = s.enumHeld := rfl
@[simp] theorem State.bumpBy_mailOut (s : State) (o lo len n : Nat) : (s.bumpBy o lo len n).mailOut = s.mailOut := rfl
@[simp] theorem State.bumpBy_wrAt (s : State) (o lo len n : Nat) : (s.bumpBy o lo len n).wrAt = s.wrAt := rfl
@[simp] theorem State.bumpBy_wrOld (s : State) (o lo len n : Nat) : (s.bumpBy o lo len n).wrOld = s.wrOld := rfl
@[simp] theorem State.bumpBy_chnWait (s : State) (o lo len n : Nat) : (s.bumpBy o lo len n).chnWait = s.chnWait := rfl
@[simp] theorem State.bumpBy_wdogAt (s : State) (o lo len n : Nat) : (s.bumpBy o lo len n).wdogAt = s.wdogAt := rfl
@[simp] theorem State.bumpBy_pair (s : State) (o lo len n : Nat) : (s.bumpBy o lo len n).pair = s.pair := rfl
@[simp] theorem State.bumpBy_wlog (s : State) (o lo len n : Nat) : (s.bumpBy o lo len n).wlog = s.wlog := rfl
@[simp] theorem State.bumpBy_vseg (s : State) (o lo len n : Nat) : (s.bumpBy o lo len n).vseg = s.vseg := rfl
@[simp] theorem State.bumpBy_grp (s : State) (o lo len n : Nat) : (s.bumpBy o lo len n).grp = s.grp := rfl
@[simp] theorem State.bumpBy_ests (s : State) (o lo len n : Nat) : (s.bumpBy o lo len n).ests = s.ests := rfl
@[simp] theorem State.bumpBy_raisedAt (s : State) (o lo len n : Nat) : (s.bumpBy o lo len n).raisedAt = s.raisedAt := rfl
@[simp] theorem State.bumpBy_coolAt (s : State) (o lo len n : Nat) : (s.bumpBy o lo len n).coolAt = s.coolAt := rfl
@[simp] theorem State.bumpBy_waking (s : State) (o lo len n : Nat) : (s.bumpBy o lo len n).waking = s.waking := rfl
@[simp] theorem State.bumpBy_sleeping (s : State) (o lo len n : Nat) : (s.bumpBy o lo len n).sleeping = s.sleeping := rfl
@[simp] theorem State.bumpBy_domLog (s : State) (o lo len n : Nat) : (s.bumpBy o lo len n).domLog = s.domLog := rfl
@[simp] theorem State.bumpBy_units (s : State) (o lo len n : Nat) : (s.bumpBy o lo len n).units = s.units := rfl
@[simp] theorem State.bumpBy_trace (s : State) (o lo len n : Nat) : (s.bumpBy o lo len n).trace = s.trace := rfl
@[simp] theorem State.bumpBy_traceBase (s : State) (o lo len n : Nat) : (s.bumpBy o lo len n).traceBase = s.traceBase := rfl
@[simp] theorem State.bumpBy_traceSlots (s : State) (o lo len n : Nat) : (s.bumpBy o lo len n).traceSlots = s.traceSlots := rfl
@[simp] theorem State.bumpBy_tapIr (s : State) (o lo len n : Nat) : (s.bumpBy o lo len n).tapIr = s.tapIr := rfl
@[simp] theorem State.bumpBy_tapDr (s : State) (o lo len n : Nat) : (s.bumpBy o lo len n).tapDr = s.tapDr := rfl
@[simp] theorem State.bumpBy_tapRes (s : State) (o lo len n : Nat) : (s.bumpBy o lo len n).tapRes = s.tapRes := rfl
@[simp] theorem State.bumpBy_access (s : State) (o lo len n : Nat) : (s.bumpBy o lo len n).access = s.access := rfl
@[simp] theorem State.bumpBy_accessAt (s : State) (o lo len n : Nat) : (s.bumpBy o lo len n).accessAt = s.accessAt := rfl

/-! ### bump -/
@[simp] theorem State.bump_pending (s : State) (o : Nat) : (s.bump o).pending = s.pending := rfl
@[simp] theorem State.bump_freeCtr (s : State) (o : Nat) : (s.bump o).freeCtr = s.freeCtr := rfl
@[simp] theorem State.bump_time (s : State) (o : Nat) : (s.bump o).time = s.time := rfl
@[simp] theorem State.bump_aonBefore (s : State) (o : Nat) : (s.bump o).aonBefore = s.aonBefore := rfl
@[simp] theorem State.bump_resp (s : State) (o : Nat) : (s.bump o).resp = s.resp := rfl
@[simp] theorem State.bump_mem (s : State) (o : Nat) : (s.bump o).mem = s.mem := rfl
@[simp] theorem State.bump_pairLatch (s : State) (o : Nat) : (s.bump o).pairLatch = s.pairLatch := rfl
@[simp] theorem State.bump_pairHold (s : State) (o : Nat) : (s.bump o).pairHold = s.pairHold := rfl
@[simp] theorem State.bump_sd (s : State) (o : Nat) : (s.bump o).sd = s.sd := rfl
@[simp] theorem State.bump_rings (s : State) (o : Nat) : (s.bump o).rings = s.rings := rfl
@[simp] theorem State.bump_ctxs (s : State) (o : Nat) : (s.bump o).ctxs = s.ctxs := rfl
@[simp] theorem State.bump_nextSeq (s : State) (o : Nat) : (s.bump o).nextSeq = s.nextSeq := rfl
@[simp] theorem State.bump_parts (s : State) (o : Nat) : (s.bump o).parts = s.parts := rfl
@[simp] theorem State.bump_objIds (s : State) (o : Nat) : (s.bump o).objIds = s.objIds := rfl
@[simp] theorem State.bump_objs (s : State) (o : Nat) : (s.bump o).objs = s.objs := rfl
@[simp] theorem State.bump_strands (s : State) (o : Nat) : (s.bump o).strands = s.strands := rfl
@[simp] theorem State.bump_lockets (s : State) (o : Nat) : (s.bump o).lockets = s.lockets := rfl
@[simp] theorem State.bump_threads (s : State) (o : Nat) : (s.bump o).threads = s.threads := rfl
@[simp] theorem State.bump_scratch (s : State) (o : Nat) : (s.bump o).scratch = s.scratch := rfl
@[simp] theorem State.bump_vgs (s : State) (o : Nat) : (s.bump o).vgs = s.vgs := rfl
@[simp] theorem State.bump_imem (s : State) (o : Nat) : (s.bump o).imem = s.imem := rfl
@[simp] theorem State.bump_ctrlSram (s : State) (o : Nat) : (s.bump o).ctrlSram = s.ctrlSram := rfl
@[simp] theorem State.bump_fabLate (s : State) (o : Nat) : (s.bump o).fabLate = s.fabLate := rfl
@[simp] theorem State.bump_fabCut (s : State) (o : Nat) : (s.bump o).fabCut = s.fabCut := rfl
@[simp] theorem State.bump_sidLog (s : State) (o : Nat) : (s.bump o).sidLog = s.sidLog := rfl
@[simp] theorem State.bump_reportAddr (s : State) (o : Nat) : (s.bump o).reportAddr = s.reportAddr := rfl
@[simp] theorem State.bump_chans (s : State) (o : Nat) : (s.bump o).chans = s.chans := rfl
@[simp] theorem State.bump_profile (s : State) (o : Nat) : (s.bump o).profile = s.profile := rfl
@[simp] theorem State.bump_indexOk (s : State) (o : Nat) : (s.bump o).indexOk = s.indexOk := rfl
@[simp] theorem State.bump_indexAt (s : State) (o : Nat) : (s.bump o).indexAt = s.indexAt := rfl
@[simp] theorem State.bump_indexImg (s : State) (o : Nat) : (s.bump o).indexImg = s.indexImg := rfl
@[simp] theorem State.bump_refillAt (s : State) (o : Nat) : (s.bump o).refillAt = s.refillAt := rfl
@[simp] theorem State.bump_lastRing (s : State) (o : Nat) : (s.bump o).lastRing = s.lastRing := rfl
@[simp] theorem State.bump_capture (s : State) (o : Nat) : (s.bump o).capture = s.capture := rfl
@[simp] theorem State.bump_bootRec (s : State) (o : Nat) : (s.bump o).bootRec = s.bootRec := rfl
@[simp] theorem State.bump_snap (s : State) (o : Nat) : (s.bump o).snap = s.snap := rfl
@[simp] theorem State.bump_snapOk (s : State) (o : Nat) : (s.bump o).snapOk = s.snapOk := rfl
@[simp] theorem State.bump_faults (s : State) (o : Nat) : (s.bump o).faults = s.faults := rfl
@[simp] theorem State.bump_boot (s : State) (o : Nat) : (s.bump o).boot = s.boot := rfl
@[simp] theorem State.bump_flash (s : State) (o : Nat) : (s.bump o).flash = s.flash := rfl
@[simp] theorem State.bump_spi (s : State) (o : Nat) : (s.bump o).spi = s.spi := rfl
@[simp] theorem State.bump_port (s : State) (o : Nat) : (s.bump o).port = s.port := rfl
@[simp] theorem State.bump_fuses (s : State) (o : Nat) : (s.bump o).fuses = s.fuses := rfl
@[simp] theorem State.bump_chnOut (s : State) (o : Nat) : (s.bump o).chnOut = s.chnOut := rfl
@[simp] theorem State.bump_peerOut (s : State) (o : Nat) : (s.bump o).peerOut = s.peerOut := rfl
@[simp] theorem State.bump_lastAt (s : State) (o : Nat) : (s.bump o).lastAt = s.lastAt := rfl
@[simp] theorem State.bump_enumHeld (s : State) (o : Nat) : (s.bump o).enumHeld = s.enumHeld := rfl
@[simp] theorem State.bump_mailOut (s : State) (o : Nat) : (s.bump o).mailOut = s.mailOut := rfl
@[simp] theorem State.bump_wrAt (s : State) (o : Nat) : (s.bump o).wrAt = s.wrAt := rfl
@[simp] theorem State.bump_wrOld (s : State) (o : Nat) : (s.bump o).wrOld = s.wrOld := rfl
@[simp] theorem State.bump_chnWait (s : State) (o : Nat) : (s.bump o).chnWait = s.chnWait := rfl
@[simp] theorem State.bump_wdogAt (s : State) (o : Nat) : (s.bump o).wdogAt = s.wdogAt := rfl
@[simp] theorem State.bump_pair (s : State) (o : Nat) : (s.bump o).pair = s.pair := rfl
@[simp] theorem State.bump_wlog (s : State) (o : Nat) : (s.bump o).wlog = s.wlog := rfl
@[simp] theorem State.bump_vseg (s : State) (o : Nat) : (s.bump o).vseg = s.vseg := rfl
@[simp] theorem State.bump_grp (s : State) (o : Nat) : (s.bump o).grp = s.grp := rfl
@[simp] theorem State.bump_ests (s : State) (o : Nat) : (s.bump o).ests = s.ests := rfl
@[simp] theorem State.bump_raisedAt (s : State) (o : Nat) : (s.bump o).raisedAt = s.raisedAt := rfl
@[simp] theorem State.bump_coolAt (s : State) (o : Nat) : (s.bump o).coolAt = s.coolAt := rfl
@[simp] theorem State.bump_waking (s : State) (o : Nat) : (s.bump o).waking = s.waking := rfl
@[simp] theorem State.bump_sleeping (s : State) (o : Nat) : (s.bump o).sleeping = s.sleeping := rfl
@[simp] theorem State.bump_domLog (s : State) (o : Nat) : (s.bump o).domLog = s.domLog := rfl
@[simp] theorem State.bump_units (s : State) (o : Nat) : (s.bump o).units = s.units := rfl
@[simp] theorem State.bump_trace (s : State) (o : Nat) : (s.bump o).trace = s.trace := rfl
@[simp] theorem State.bump_traceBase (s : State) (o : Nat) : (s.bump o).traceBase = s.traceBase := rfl
@[simp] theorem State.bump_traceSlots (s : State) (o : Nat) : (s.bump o).traceSlots = s.traceSlots := rfl
@[simp] theorem State.bump_tapIr (s : State) (o : Nat) : (s.bump o).tapIr = s.tapIr := rfl
@[simp] theorem State.bump_tapDr (s : State) (o : Nat) : (s.bump o).tapDr = s.tapDr := rfl
@[simp] theorem State.bump_tapRes (s : State) (o : Nat) : (s.bump o).tapRes = s.tapRes := rfl
@[simp] theorem State.bump_access (s : State) (o : Nat) : (s.bump o).access = s.access := rfl
@[simp] theorem State.bump_accessAt (s : State) (o : Nat) : (s.bump o).accessAt = s.accessAt := rfl

/-! ### bump64 -/
@[simp] theorem State.bump64_pending (s : State) (o n : Nat) : (s.bump64 o n).pending = s.pending := rfl
@[simp] theorem State.bump64_freeCtr (s : State) (o n : Nat) : (s.bump64 o n).freeCtr = s.freeCtr := rfl
@[simp] theorem State.bump64_time (s : State) (o n : Nat) : (s.bump64 o n).time = s.time := rfl
@[simp] theorem State.bump64_aonBefore (s : State) (o n : Nat) : (s.bump64 o n).aonBefore = s.aonBefore := rfl
@[simp] theorem State.bump64_resp (s : State) (o n : Nat) : (s.bump64 o n).resp = s.resp := rfl
@[simp] theorem State.bump64_mem (s : State) (o n : Nat) : (s.bump64 o n).mem = s.mem := rfl
@[simp] theorem State.bump64_pairLatch (s : State) (o n : Nat) : (s.bump64 o n).pairLatch = s.pairLatch := rfl
@[simp] theorem State.bump64_pairHold (s : State) (o n : Nat) : (s.bump64 o n).pairHold = s.pairHold := rfl
@[simp] theorem State.bump64_sd (s : State) (o n : Nat) : (s.bump64 o n).sd = s.sd := rfl
@[simp] theorem State.bump64_rings (s : State) (o n : Nat) : (s.bump64 o n).rings = s.rings := rfl
@[simp] theorem State.bump64_ctxs (s : State) (o n : Nat) : (s.bump64 o n).ctxs = s.ctxs := rfl
@[simp] theorem State.bump64_nextSeq (s : State) (o n : Nat) : (s.bump64 o n).nextSeq = s.nextSeq := rfl
@[simp] theorem State.bump64_parts (s : State) (o n : Nat) : (s.bump64 o n).parts = s.parts := rfl
@[simp] theorem State.bump64_objIds (s : State) (o n : Nat) : (s.bump64 o n).objIds = s.objIds := rfl
@[simp] theorem State.bump64_objs (s : State) (o n : Nat) : (s.bump64 o n).objs = s.objs := rfl
@[simp] theorem State.bump64_strands (s : State) (o n : Nat) : (s.bump64 o n).strands = s.strands := rfl
@[simp] theorem State.bump64_lockets (s : State) (o n : Nat) : (s.bump64 o n).lockets = s.lockets := rfl
@[simp] theorem State.bump64_threads (s : State) (o n : Nat) : (s.bump64 o n).threads = s.threads := rfl
@[simp] theorem State.bump64_scratch (s : State) (o n : Nat) : (s.bump64 o n).scratch = s.scratch := rfl
@[simp] theorem State.bump64_vgs (s : State) (o n : Nat) : (s.bump64 o n).vgs = s.vgs := rfl
@[simp] theorem State.bump64_imem (s : State) (o n : Nat) : (s.bump64 o n).imem = s.imem := rfl
@[simp] theorem State.bump64_ctrlSram (s : State) (o n : Nat) : (s.bump64 o n).ctrlSram = s.ctrlSram := rfl
@[simp] theorem State.bump64_fabLate (s : State) (o n : Nat) : (s.bump64 o n).fabLate = s.fabLate := rfl
@[simp] theorem State.bump64_fabCut (s : State) (o n : Nat) : (s.bump64 o n).fabCut = s.fabCut := rfl
@[simp] theorem State.bump64_sidLog (s : State) (o n : Nat) : (s.bump64 o n).sidLog = s.sidLog := rfl
@[simp] theorem State.bump64_reportAddr (s : State) (o n : Nat) : (s.bump64 o n).reportAddr = s.reportAddr := rfl
@[simp] theorem State.bump64_chans (s : State) (o n : Nat) : (s.bump64 o n).chans = s.chans := rfl
@[simp] theorem State.bump64_profile (s : State) (o n : Nat) : (s.bump64 o n).profile = s.profile := rfl
@[simp] theorem State.bump64_indexOk (s : State) (o n : Nat) : (s.bump64 o n).indexOk = s.indexOk := rfl
@[simp] theorem State.bump64_indexAt (s : State) (o n : Nat) : (s.bump64 o n).indexAt = s.indexAt := rfl
@[simp] theorem State.bump64_indexImg (s : State) (o n : Nat) : (s.bump64 o n).indexImg = s.indexImg := rfl
@[simp] theorem State.bump64_refillAt (s : State) (o n : Nat) : (s.bump64 o n).refillAt = s.refillAt := rfl
@[simp] theorem State.bump64_lastRing (s : State) (o n : Nat) : (s.bump64 o n).lastRing = s.lastRing := rfl
@[simp] theorem State.bump64_capture (s : State) (o n : Nat) : (s.bump64 o n).capture = s.capture := rfl
@[simp] theorem State.bump64_bootRec (s : State) (o n : Nat) : (s.bump64 o n).bootRec = s.bootRec := rfl
@[simp] theorem State.bump64_snap (s : State) (o n : Nat) : (s.bump64 o n).snap = s.snap := rfl
@[simp] theorem State.bump64_snapOk (s : State) (o n : Nat) : (s.bump64 o n).snapOk = s.snapOk := rfl
@[simp] theorem State.bump64_faults (s : State) (o n : Nat) : (s.bump64 o n).faults = s.faults := rfl
@[simp] theorem State.bump64_boot (s : State) (o n : Nat) : (s.bump64 o n).boot = s.boot := rfl
@[simp] theorem State.bump64_flash (s : State) (o n : Nat) : (s.bump64 o n).flash = s.flash := rfl
@[simp] theorem State.bump64_spi (s : State) (o n : Nat) : (s.bump64 o n).spi = s.spi := rfl
@[simp] theorem State.bump64_port (s : State) (o n : Nat) : (s.bump64 o n).port = s.port := rfl
@[simp] theorem State.bump64_fuses (s : State) (o n : Nat) : (s.bump64 o n).fuses = s.fuses := rfl
@[simp] theorem State.bump64_chnOut (s : State) (o n : Nat) : (s.bump64 o n).chnOut = s.chnOut := rfl
@[simp] theorem State.bump64_peerOut (s : State) (o n : Nat) : (s.bump64 o n).peerOut = s.peerOut := rfl
@[simp] theorem State.bump64_lastAt (s : State) (o n : Nat) : (s.bump64 o n).lastAt = s.lastAt := rfl
@[simp] theorem State.bump64_enumHeld (s : State) (o n : Nat) : (s.bump64 o n).enumHeld = s.enumHeld := rfl
@[simp] theorem State.bump64_mailOut (s : State) (o n : Nat) : (s.bump64 o n).mailOut = s.mailOut := rfl
@[simp] theorem State.bump64_wrAt (s : State) (o n : Nat) : (s.bump64 o n).wrAt = s.wrAt := rfl
@[simp] theorem State.bump64_wrOld (s : State) (o n : Nat) : (s.bump64 o n).wrOld = s.wrOld := rfl
@[simp] theorem State.bump64_chnWait (s : State) (o n : Nat) : (s.bump64 o n).chnWait = s.chnWait := rfl
@[simp] theorem State.bump64_wdogAt (s : State) (o n : Nat) : (s.bump64 o n).wdogAt = s.wdogAt := rfl
@[simp] theorem State.bump64_pair (s : State) (o n : Nat) : (s.bump64 o n).pair = s.pair := rfl
@[simp] theorem State.bump64_wlog (s : State) (o n : Nat) : (s.bump64 o n).wlog = s.wlog := rfl
@[simp] theorem State.bump64_vseg (s : State) (o n : Nat) : (s.bump64 o n).vseg = s.vseg := rfl
@[simp] theorem State.bump64_grp (s : State) (o n : Nat) : (s.bump64 o n).grp = s.grp := rfl
@[simp] theorem State.bump64_ests (s : State) (o n : Nat) : (s.bump64 o n).ests = s.ests := rfl
@[simp] theorem State.bump64_raisedAt (s : State) (o n : Nat) : (s.bump64 o n).raisedAt = s.raisedAt := rfl
@[simp] theorem State.bump64_coolAt (s : State) (o n : Nat) : (s.bump64 o n).coolAt = s.coolAt := rfl
@[simp] theorem State.bump64_waking (s : State) (o n : Nat) : (s.bump64 o n).waking = s.waking := rfl
@[simp] theorem State.bump64_sleeping (s : State) (o n : Nat) : (s.bump64 o n).sleeping = s.sleeping := rfl
@[simp] theorem State.bump64_domLog (s : State) (o n : Nat) : (s.bump64 o n).domLog = s.domLog := rfl
@[simp] theorem State.bump64_units (s : State) (o n : Nat) : (s.bump64 o n).units = s.units := rfl
@[simp] theorem State.bump64_trace (s : State) (o n : Nat) : (s.bump64 o n).trace = s.trace := rfl
@[simp] theorem State.bump64_traceBase (s : State) (o n : Nat) : (s.bump64 o n).traceBase = s.traceBase := rfl
@[simp] theorem State.bump64_traceSlots (s : State) (o n : Nat) : (s.bump64 o n).traceSlots = s.traceSlots := rfl
@[simp] theorem State.bump64_tapIr (s : State) (o n : Nat) : (s.bump64 o n).tapIr = s.tapIr := rfl
@[simp] theorem State.bump64_tapDr (s : State) (o n : Nat) : (s.bump64 o n).tapDr = s.tapDr := rfl
@[simp] theorem State.bump64_tapRes (s : State) (o n : Nat) : (s.bump64 o n).tapRes = s.tapRes := rfl
@[simp] theorem State.bump64_access (s : State) (o n : Nat) : (s.bump64 o n).access = s.access := rfl
@[simp] theorem State.bump64_accessAt (s : State) (o n : Nat) : (s.bump64 o n).accessAt = s.accessAt := rfl

/-! ### wrBytes -/
@[simp] theorem State.wrBytes_pending (s : State) (a : Nat) (l : List Byte) : (s.wrBytes a l).pending = s.pending := State.wrBytes_keep (·.pending) (fun _ _ _ => rfl) l s a
@[simp] theorem State.wrBytes_freeCtr (s : State) (a : Nat) (l : List Byte) : (s.wrBytes a l).freeCtr = s.freeCtr := State.wrBytes_keep (·.freeCtr) (fun _ _ _ => rfl) l s a
@[simp] theorem State.wrBytes_time (s : State) (a : Nat) (l : List Byte) : (s.wrBytes a l).time = s.time := State.wrBytes_keep (·.time) (fun _ _ _ => rfl) l s a
@[simp] theorem State.wrBytes_aonBefore (s : State) (a : Nat) (l : List Byte) : (s.wrBytes a l).aonBefore = s.aonBefore := State.wrBytes_keep (·.aonBefore) (fun _ _ _ => rfl) l s a
@[simp] theorem State.wrBytes_resp (s : State) (a : Nat) (l : List Byte) : (s.wrBytes a l).resp = s.resp := State.wrBytes_keep (·.resp) (fun _ _ _ => rfl) l s a
@[simp] theorem State.wrBytes_regs (s : State) (a : Nat) (l : List Byte) : (s.wrBytes a l).regs = s.regs := State.wrBytes_keep (·.regs) (fun _ _ _ => rfl) l s a
@[simp] theorem State.wrBytes_pairLatch (s : State) (a : Nat) (l : List Byte) : (s.wrBytes a l).pairLatch = s.pairLatch := State.wrBytes_keep (·.pairLatch) (fun _ _ _ => rfl) l s a
@[simp] theorem State.wrBytes_pairHold (s : State) (a : Nat) (l : List Byte) : (s.wrBytes a l).pairHold = s.pairHold := State.wrBytes_keep (·.pairHold) (fun _ _ _ => rfl) l s a
@[simp] theorem State.wrBytes_sd (s : State) (a : Nat) (l : List Byte) : (s.wrBytes a l).sd = s.sd := State.wrBytes_keep (·.sd) (fun _ _ _ => rfl) l s a
@[simp] theorem State.wrBytes_rings (s : State) (a : Nat) (l : List Byte) : (s.wrBytes a l).rings = s.rings := State.wrBytes_keep (·.rings) (fun _ _ _ => rfl) l s a
@[simp] theorem State.wrBytes_ctxs (s : State) (a : Nat) (l : List Byte) : (s.wrBytes a l).ctxs = s.ctxs := State.wrBytes_keep (·.ctxs) (fun _ _ _ => rfl) l s a
@[simp] theorem State.wrBytes_nextSeq (s : State) (a : Nat) (l : List Byte) : (s.wrBytes a l).nextSeq = s.nextSeq := State.wrBytes_keep (·.nextSeq) (fun _ _ _ => rfl) l s a
@[simp] theorem State.wrBytes_parts (s : State) (a : Nat) (l : List Byte) : (s.wrBytes a l).parts = s.parts := State.wrBytes_keep (·.parts) (fun _ _ _ => rfl) l s a
@[simp] theorem State.wrBytes_objIds (s : State) (a : Nat) (l : List Byte) : (s.wrBytes a l).objIds = s.objIds := State.wrBytes_keep (·.objIds) (fun _ _ _ => rfl) l s a
@[simp] theorem State.wrBytes_objs (s : State) (a : Nat) (l : List Byte) : (s.wrBytes a l).objs = s.objs := State.wrBytes_keep (·.objs) (fun _ _ _ => rfl) l s a
@[simp] theorem State.wrBytes_strands (s : State) (a : Nat) (l : List Byte) : (s.wrBytes a l).strands = s.strands := State.wrBytes_keep (·.strands) (fun _ _ _ => rfl) l s a
@[simp] theorem State.wrBytes_lockets (s : State) (a : Nat) (l : List Byte) : (s.wrBytes a l).lockets = s.lockets := State.wrBytes_keep (·.lockets) (fun _ _ _ => rfl) l s a
@[simp] theorem State.wrBytes_threads (s : State) (a : Nat) (l : List Byte) : (s.wrBytes a l).threads = s.threads := State.wrBytes_keep (·.threads) (fun _ _ _ => rfl) l s a
@[simp] theorem State.wrBytes_scratch (s : State) (a : Nat) (l : List Byte) : (s.wrBytes a l).scratch = s.scratch := State.wrBytes_keep (·.scratch) (fun _ _ _ => rfl) l s a
@[simp] theorem State.wrBytes_vgs (s : State) (a : Nat) (l : List Byte) : (s.wrBytes a l).vgs = s.vgs := State.wrBytes_keep (·.vgs) (fun _ _ _ => rfl) l s a
@[simp] theorem State.wrBytes_imem (s : State) (a : Nat) (l : List Byte) : (s.wrBytes a l).imem = s.imem := State.wrBytes_keep (·.imem) (fun _ _ _ => rfl) l s a
@[simp] theorem State.wrBytes_ctrlSram (s : State) (a : Nat) (l : List Byte) : (s.wrBytes a l).ctrlSram = s.ctrlSram := State.wrBytes_keep (·.ctrlSram) (fun _ _ _ => rfl) l s a
@[simp] theorem State.wrBytes_fabLate (s : State) (a : Nat) (l : List Byte) : (s.wrBytes a l).fabLate = s.fabLate := State.wrBytes_keep (·.fabLate) (fun _ _ _ => rfl) l s a
@[simp] theorem State.wrBytes_fabCut (s : State) (a : Nat) (l : List Byte) : (s.wrBytes a l).fabCut = s.fabCut := State.wrBytes_keep (·.fabCut) (fun _ _ _ => rfl) l s a
@[simp] theorem State.wrBytes_sidLog (s : State) (a : Nat) (l : List Byte) : (s.wrBytes a l).sidLog = s.sidLog := State.wrBytes_keep (·.sidLog) (fun _ _ _ => rfl) l s a
@[simp] theorem State.wrBytes_reportAddr (s : State) (a : Nat) (l : List Byte) : (s.wrBytes a l).reportAddr = s.reportAddr := State.wrBytes_keep (·.reportAddr) (fun _ _ _ => rfl) l s a
@[simp] theorem State.wrBytes_chans (s : State) (a : Nat) (l : List Byte) : (s.wrBytes a l).chans = s.chans := State.wrBytes_keep (·.chans) (fun _ _ _ => rfl) l s a
@[simp] theorem State.wrBytes_profile (s : State) (a : Nat) (l : List Byte) : (s.wrBytes a l).profile = s.profile := State.wrBytes_keep (·.profile) (fun _ _ _ => rfl) l s a
@[simp] theorem State.wrBytes_indexOk (s : State) (a : Nat) (l : List Byte) : (s.wrBytes a l).indexOk = s.indexOk := State.wrBytes_keep (·.indexOk) (fun _ _ _ => rfl) l s a
@[simp] theorem State.wrBytes_indexAt (s : State) (a : Nat) (l : List Byte) : (s.wrBytes a l).indexAt = s.indexAt := State.wrBytes_keep (·.indexAt) (fun _ _ _ => rfl) l s a
@[simp] theorem State.wrBytes_indexImg (s : State) (a : Nat) (l : List Byte) : (s.wrBytes a l).indexImg = s.indexImg := State.wrBytes_keep (·.indexImg) (fun _ _ _ => rfl) l s a
@[simp] theorem State.wrBytes_refillAt (s : State) (a : Nat) (l : List Byte) : (s.wrBytes a l).refillAt = s.refillAt := State.wrBytes_keep (·.refillAt) (fun _ _ _ => rfl) l s a
@[simp] theorem State.wrBytes_lastRing (s : State) (a : Nat) (l : List Byte) : (s.wrBytes a l).lastRing = s.lastRing := State.wrBytes_keep (·.lastRing) (fun _ _ _ => rfl) l s a
@[simp] theorem State.wrBytes_capture (s : State) (a : Nat) (l : List Byte) : (s.wrBytes a l).capture = s.capture := State.wrBytes_keep (·.capture) (fun _ _ _ => rfl) l s a
@[simp] theorem State.wrBytes_bootRec (s : State) (a : Nat) (l : List Byte) : (s.wrBytes a l).bootRec = s.bootRec := State.wrBytes_keep (·.bootRec) (fun _ _ _ => rfl) l s a
@[simp] theorem State.wrBytes_snap (s : State) (a : Nat) (l : List Byte) : (s.wrBytes a l).snap = s.snap := State.wrBytes_keep (·.snap) (fun _ _ _ => rfl) l s a
@[simp] theorem State.wrBytes_snapOk (s : State) (a : Nat) (l : List Byte) : (s.wrBytes a l).snapOk = s.snapOk := State.wrBytes_keep (·.snapOk) (fun _ _ _ => rfl) l s a
@[simp] theorem State.wrBytes_faults (s : State) (a : Nat) (l : List Byte) : (s.wrBytes a l).faults = s.faults := State.wrBytes_keep (·.faults) (fun _ _ _ => rfl) l s a
@[simp] theorem State.wrBytes_boot (s : State) (a : Nat) (l : List Byte) : (s.wrBytes a l).boot = s.boot := State.wrBytes_keep (·.boot) (fun _ _ _ => rfl) l s a
@[simp] theorem State.wrBytes_flash (s : State) (a : Nat) (l : List Byte) : (s.wrBytes a l).flash = s.flash := State.wrBytes_keep (·.flash) (fun _ _ _ => rfl) l s a
@[simp] theorem State.wrBytes_spi (s : State) (a : Nat) (l : List Byte) : (s.wrBytes a l).spi = s.spi := State.wrBytes_keep (·.spi) (fun _ _ _ => rfl) l s a
@[simp] theorem State.wrBytes_port (s : State) (a : Nat) (l : List Byte) : (s.wrBytes a l).port = s.port := State.wrBytes_keep (·.port) (fun _ _ _ => rfl) l s a
@[simp] theorem State.wrBytes_fuses (s : State) (a : Nat) (l : List Byte) : (s.wrBytes a l).fuses = s.fuses := State.wrBytes_keep (·.fuses) (fun _ _ _ => rfl) l s a
@[simp] theorem State.wrBytes_chnOut (s : State) (a : Nat) (l : List Byte) : (s.wrBytes a l).chnOut = s.chnOut := State.wrBytes_keep (·.chnOut) (fun _ _ _ => rfl) l s a
@[simp] theorem State.wrBytes_peerOut (s : State) (a : Nat) (l : List Byte) : (s.wrBytes a l).peerOut = s.peerOut := State.wrBytes_keep (·.peerOut) (fun _ _ _ => rfl) l s a
@[simp] theorem State.wrBytes_lastAt (s : State) (a : Nat) (l : List Byte) : (s.wrBytes a l).lastAt = s.lastAt := State.wrBytes_keep (·.lastAt) (fun _ _ _ => rfl) l s a
@[simp] theorem State.wrBytes_enumHeld (s : State) (a : Nat) (l : List Byte) : (s.wrBytes a l).enumHeld = s.enumHeld := State.wrBytes_keep (·.enumHeld) (fun _ _ _ => rfl) l s a
@[simp] theorem State.wrBytes_mailOut (s : State) (a : Nat) (l : List Byte) : (s.wrBytes a l).mailOut = s.mailOut := State.wrBytes_keep (·.mailOut) (fun _ _ _ => rfl) l s a
@[simp] theorem State.wrBytes_wrAt (s : State) (a : Nat) (l : List Byte) : (s.wrBytes a l).wrAt = s.wrAt := State.wrBytes_keep (·.wrAt) (fun _ _ _ => rfl) l s a
@[simp] theorem State.wrBytes_wrOld (s : State) (a : Nat) (l : List Byte) : (s.wrBytes a l).wrOld = s.wrOld := State.wrBytes_keep (·.wrOld) (fun _ _ _ => rfl) l s a
@[simp] theorem State.wrBytes_chnWait (s : State) (a : Nat) (l : List Byte) : (s.wrBytes a l).chnWait = s.chnWait := State.wrBytes_keep (·.chnWait) (fun _ _ _ => rfl) l s a
@[simp] theorem State.wrBytes_wdogAt (s : State) (a : Nat) (l : List Byte) : (s.wrBytes a l).wdogAt = s.wdogAt := State.wrBytes_keep (·.wdogAt) (fun _ _ _ => rfl) l s a
@[simp] theorem State.wrBytes_pair (s : State) (a : Nat) (l : List Byte) : (s.wrBytes a l).pair = s.pair := State.wrBytes_keep (·.pair) (fun _ _ _ => rfl) l s a
@[simp] theorem State.wrBytes_vseg (s : State) (a : Nat) (l : List Byte) : (s.wrBytes a l).vseg = s.vseg := State.wrBytes_keep (·.vseg) (fun _ _ _ => rfl) l s a
@[simp] theorem State.wrBytes_grp (s : State) (a : Nat) (l : List Byte) : (s.wrBytes a l).grp = s.grp := State.wrBytes_keep (·.grp) (fun _ _ _ => rfl) l s a
@[simp] theorem State.wrBytes_ests (s : State) (a : Nat) (l : List Byte) : (s.wrBytes a l).ests = s.ests := State.wrBytes_keep (·.ests) (fun _ _ _ => rfl) l s a
@[simp] theorem State.wrBytes_raisedAt (s : State) (a : Nat) (l : List Byte) : (s.wrBytes a l).raisedAt = s.raisedAt := State.wrBytes_keep (·.raisedAt) (fun _ _ _ => rfl) l s a
@[simp] theorem State.wrBytes_coolAt (s : State) (a : Nat) (l : List Byte) : (s.wrBytes a l).coolAt = s.coolAt := State.wrBytes_keep (·.coolAt) (fun _ _ _ => rfl) l s a
@[simp] theorem State.wrBytes_waking (s : State) (a : Nat) (l : List Byte) : (s.wrBytes a l).waking = s.waking := State.wrBytes_keep (·.waking) (fun _ _ _ => rfl) l s a
@[simp] theorem State.wrBytes_sleeping (s : State) (a : Nat) (l : List Byte) : (s.wrBytes a l).sleeping = s.sleeping := State.wrBytes_keep (·.sleeping) (fun _ _ _ => rfl) l s a
@[simp] theorem State.wrBytes_domLog (s : State) (a : Nat) (l : List Byte) : (s.wrBytes a l).domLog = s.domLog := State.wrBytes_keep (·.domLog) (fun _ _ _ => rfl) l s a
@[simp] theorem State.wrBytes_units (s : State) (a : Nat) (l : List Byte) : (s.wrBytes a l).units = s.units := State.wrBytes_keep (·.units) (fun _ _ _ => rfl) l s a
@[simp] theorem State.wrBytes_trace (s : State) (a : Nat) (l : List Byte) : (s.wrBytes a l).trace = s.trace := State.wrBytes_keep (·.trace) (fun _ _ _ => rfl) l s a
@[simp] theorem State.wrBytes_traceBase (s : State) (a : Nat) (l : List Byte) : (s.wrBytes a l).traceBase = s.traceBase := State.wrBytes_keep (·.traceBase) (fun _ _ _ => rfl) l s a
@[simp] theorem State.wrBytes_traceSlots (s : State) (a : Nat) (l : List Byte) : (s.wrBytes a l).traceSlots = s.traceSlots := State.wrBytes_keep (·.traceSlots) (fun _ _ _ => rfl) l s a
@[simp] theorem State.wrBytes_tapIr (s : State) (a : Nat) (l : List Byte) : (s.wrBytes a l).tapIr = s.tapIr := State.wrBytes_keep (·.tapIr) (fun _ _ _ => rfl) l s a
@[simp] theorem State.wrBytes_tapDr (s : State) (a : Nat) (l : List Byte) : (s.wrBytes a l).tapDr = s.tapDr := State.wrBytes_keep (·.tapDr) (fun _ _ _ => rfl) l s a
@[simp] theorem State.wrBytes_tapRes (s : State) (a : Nat) (l : List Byte) : (s.wrBytes a l).tapRes = s.tapRes := State.wrBytes_keep (·.tapRes) (fun _ _ _ => rfl) l s a
@[simp] theorem State.wrBytes_access (s : State) (a : Nat) (l : List Byte) : (s.wrBytes a l).access = s.access := State.wrBytes_keep (·.access) (fun _ _ _ => rfl) l s a
@[simp] theorem State.wrBytes_accessAt (s : State) (a : Nat) (l : List Byte) : (s.wrBytes a l).accessAt = s.accessAt := State.wrBytes_keep (·.accessAt) (fun _ _ _ => rfl) l s a

/-! ### wrLE -/
@[simp] theorem State.wrLE_pending (s : State) (a n v : Nat) : (s.wrLE a n v).pending = s.pending := State.wrBytes_pending s a _
@[simp] theorem State.wrLE_freeCtr (s : State) (a n v : Nat) : (s.wrLE a n v).freeCtr = s.freeCtr := State.wrBytes_freeCtr s a _
@[simp] theorem State.wrLE_time (s : State) (a n v : Nat) : (s.wrLE a n v).time = s.time := State.wrBytes_time s a _
@[simp] theorem State.wrLE_aonBefore (s : State) (a n v : Nat) : (s.wrLE a n v).aonBefore = s.aonBefore := State.wrBytes_aonBefore s a _
@[simp] theorem State.wrLE_resp (s : State) (a n v : Nat) : (s.wrLE a n v).resp = s.resp := State.wrBytes_resp s a _
@[simp] theorem State.wrLE_regs (s : State) (a n v : Nat) : (s.wrLE a n v).regs = s.regs := State.wrBytes_regs s a _
@[simp] theorem State.wrLE_pairLatch (s : State) (a n v : Nat) : (s.wrLE a n v).pairLatch = s.pairLatch := State.wrBytes_pairLatch s a _
@[simp] theorem State.wrLE_pairHold (s : State) (a n v : Nat) : (s.wrLE a n v).pairHold = s.pairHold := State.wrBytes_pairHold s a _
@[simp] theorem State.wrLE_sd (s : State) (a n v : Nat) : (s.wrLE a n v).sd = s.sd := State.wrBytes_sd s a _
@[simp] theorem State.wrLE_rings (s : State) (a n v : Nat) : (s.wrLE a n v).rings = s.rings := State.wrBytes_rings s a _
@[simp] theorem State.wrLE_ctxs (s : State) (a n v : Nat) : (s.wrLE a n v).ctxs = s.ctxs := State.wrBytes_ctxs s a _
@[simp] theorem State.wrLE_nextSeq (s : State) (a n v : Nat) : (s.wrLE a n v).nextSeq = s.nextSeq := State.wrBytes_nextSeq s a _
@[simp] theorem State.wrLE_parts (s : State) (a n v : Nat) : (s.wrLE a n v).parts = s.parts := State.wrBytes_parts s a _
@[simp] theorem State.wrLE_objIds (s : State) (a n v : Nat) : (s.wrLE a n v).objIds = s.objIds := State.wrBytes_objIds s a _
@[simp] theorem State.wrLE_objs (s : State) (a n v : Nat) : (s.wrLE a n v).objs = s.objs := State.wrBytes_objs s a _
@[simp] theorem State.wrLE_strands (s : State) (a n v : Nat) : (s.wrLE a n v).strands = s.strands := State.wrBytes_strands s a _
@[simp] theorem State.wrLE_lockets (s : State) (a n v : Nat) : (s.wrLE a n v).lockets = s.lockets := State.wrBytes_lockets s a _
@[simp] theorem State.wrLE_threads (s : State) (a n v : Nat) : (s.wrLE a n v).threads = s.threads := State.wrBytes_threads s a _
@[simp] theorem State.wrLE_scratch (s : State) (a n v : Nat) : (s.wrLE a n v).scratch = s.scratch := State.wrBytes_scratch s a _
@[simp] theorem State.wrLE_vgs (s : State) (a n v : Nat) : (s.wrLE a n v).vgs = s.vgs := State.wrBytes_vgs s a _
@[simp] theorem State.wrLE_imem (s : State) (a n v : Nat) : (s.wrLE a n v).imem = s.imem := State.wrBytes_imem s a _
@[simp] theorem State.wrLE_ctrlSram (s : State) (a n v : Nat) : (s.wrLE a n v).ctrlSram = s.ctrlSram := State.wrBytes_ctrlSram s a _
@[simp] theorem State.wrLE_fabLate (s : State) (a n v : Nat) : (s.wrLE a n v).fabLate = s.fabLate := State.wrBytes_fabLate s a _
@[simp] theorem State.wrLE_fabCut (s : State) (a n v : Nat) : (s.wrLE a n v).fabCut = s.fabCut := State.wrBytes_fabCut s a _
@[simp] theorem State.wrLE_sidLog (s : State) (a n v : Nat) : (s.wrLE a n v).sidLog = s.sidLog := State.wrBytes_sidLog s a _
@[simp] theorem State.wrLE_reportAddr (s : State) (a n v : Nat) : (s.wrLE a n v).reportAddr = s.reportAddr := State.wrBytes_reportAddr s a _
@[simp] theorem State.wrLE_chans (s : State) (a n v : Nat) : (s.wrLE a n v).chans = s.chans := State.wrBytes_chans s a _
@[simp] theorem State.wrLE_profile (s : State) (a n v : Nat) : (s.wrLE a n v).profile = s.profile := State.wrBytes_profile s a _
@[simp] theorem State.wrLE_indexOk (s : State) (a n v : Nat) : (s.wrLE a n v).indexOk = s.indexOk := State.wrBytes_indexOk s a _
@[simp] theorem State.wrLE_indexAt (s : State) (a n v : Nat) : (s.wrLE a n v).indexAt = s.indexAt := State.wrBytes_indexAt s a _
@[simp] theorem State.wrLE_indexImg (s : State) (a n v : Nat) : (s.wrLE a n v).indexImg = s.indexImg := State.wrBytes_indexImg s a _
@[simp] theorem State.wrLE_refillAt (s : State) (a n v : Nat) : (s.wrLE a n v).refillAt = s.refillAt := State.wrBytes_refillAt s a _
@[simp] theorem State.wrLE_lastRing (s : State) (a n v : Nat) : (s.wrLE a n v).lastRing = s.lastRing := State.wrBytes_lastRing s a _
@[simp] theorem State.wrLE_capture (s : State) (a n v : Nat) : (s.wrLE a n v).capture = s.capture := State.wrBytes_capture s a _
@[simp] theorem State.wrLE_bootRec (s : State) (a n v : Nat) : (s.wrLE a n v).bootRec = s.bootRec := State.wrBytes_bootRec s a _
@[simp] theorem State.wrLE_snap (s : State) (a n v : Nat) : (s.wrLE a n v).snap = s.snap := State.wrBytes_snap s a _
@[simp] theorem State.wrLE_snapOk (s : State) (a n v : Nat) : (s.wrLE a n v).snapOk = s.snapOk := State.wrBytes_snapOk s a _
@[simp] theorem State.wrLE_faults (s : State) (a n v : Nat) : (s.wrLE a n v).faults = s.faults := State.wrBytes_faults s a _
@[simp] theorem State.wrLE_boot (s : State) (a n v : Nat) : (s.wrLE a n v).boot = s.boot := State.wrBytes_boot s a _
@[simp] theorem State.wrLE_flash (s : State) (a n v : Nat) : (s.wrLE a n v).flash = s.flash := State.wrBytes_flash s a _
@[simp] theorem State.wrLE_spi (s : State) (a n v : Nat) : (s.wrLE a n v).spi = s.spi := State.wrBytes_spi s a _
@[simp] theorem State.wrLE_port (s : State) (a n v : Nat) : (s.wrLE a n v).port = s.port := State.wrBytes_port s a _
@[simp] theorem State.wrLE_fuses (s : State) (a n v : Nat) : (s.wrLE a n v).fuses = s.fuses := State.wrBytes_fuses s a _
@[simp] theorem State.wrLE_chnOut (s : State) (a n v : Nat) : (s.wrLE a n v).chnOut = s.chnOut := State.wrBytes_chnOut s a _
@[simp] theorem State.wrLE_peerOut (s : State) (a n v : Nat) : (s.wrLE a n v).peerOut = s.peerOut := State.wrBytes_peerOut s a _
@[simp] theorem State.wrLE_lastAt (s : State) (a n v : Nat) : (s.wrLE a n v).lastAt = s.lastAt := State.wrBytes_lastAt s a _
@[simp] theorem State.wrLE_enumHeld (s : State) (a n v : Nat) : (s.wrLE a n v).enumHeld = s.enumHeld := State.wrBytes_enumHeld s a _
@[simp] theorem State.wrLE_mailOut (s : State) (a n v : Nat) : (s.wrLE a n v).mailOut = s.mailOut := State.wrBytes_mailOut s a _
@[simp] theorem State.wrLE_wrAt (s : State) (a n v : Nat) : (s.wrLE a n v).wrAt = s.wrAt := State.wrBytes_wrAt s a _
@[simp] theorem State.wrLE_wrOld (s : State) (a n v : Nat) : (s.wrLE a n v).wrOld = s.wrOld := State.wrBytes_wrOld s a _
@[simp] theorem State.wrLE_chnWait (s : State) (a n v : Nat) : (s.wrLE a n v).chnWait = s.chnWait := State.wrBytes_chnWait s a _
@[simp] theorem State.wrLE_wdogAt (s : State) (a n v : Nat) : (s.wrLE a n v).wdogAt = s.wdogAt := State.wrBytes_wdogAt s a _
@[simp] theorem State.wrLE_pair (s : State) (a n v : Nat) : (s.wrLE a n v).pair = s.pair := State.wrBytes_pair s a _
@[simp] theorem State.wrLE_vseg (s : State) (a n v : Nat) : (s.wrLE a n v).vseg = s.vseg := State.wrBytes_vseg s a _
@[simp] theorem State.wrLE_grp (s : State) (a n v : Nat) : (s.wrLE a n v).grp = s.grp := State.wrBytes_grp s a _
@[simp] theorem State.wrLE_ests (s : State) (a n v : Nat) : (s.wrLE a n v).ests = s.ests := State.wrBytes_ests s a _
@[simp] theorem State.wrLE_raisedAt (s : State) (a n v : Nat) : (s.wrLE a n v).raisedAt = s.raisedAt := State.wrBytes_raisedAt s a _
@[simp] theorem State.wrLE_coolAt (s : State) (a n v : Nat) : (s.wrLE a n v).coolAt = s.coolAt := State.wrBytes_coolAt s a _
@[simp] theorem State.wrLE_waking (s : State) (a n v : Nat) : (s.wrLE a n v).waking = s.waking := State.wrBytes_waking s a _
@[simp] theorem State.wrLE_sleeping (s : State) (a n v : Nat) : (s.wrLE a n v).sleeping = s.sleeping := State.wrBytes_sleeping s a _
@[simp] theorem State.wrLE_domLog (s : State) (a n v : Nat) : (s.wrLE a n v).domLog = s.domLog := State.wrBytes_domLog s a _
@[simp] theorem State.wrLE_units (s : State) (a n v : Nat) : (s.wrLE a n v).units = s.units := State.wrBytes_units s a _
@[simp] theorem State.wrLE_trace (s : State) (a n v : Nat) : (s.wrLE a n v).trace = s.trace := State.wrBytes_trace s a _
@[simp] theorem State.wrLE_traceBase (s : State) (a n v : Nat) : (s.wrLE a n v).traceBase = s.traceBase := State.wrBytes_traceBase s a _
@[simp] theorem State.wrLE_traceSlots (s : State) (a n v : Nat) : (s.wrLE a n v).traceSlots = s.traceSlots := State.wrBytes_traceSlots s a _
@[simp] theorem State.wrLE_tapIr (s : State) (a n v : Nat) : (s.wrLE a n v).tapIr = s.tapIr := State.wrBytes_tapIr s a _
@[simp] theorem State.wrLE_tapDr (s : State) (a n v : Nat) : (s.wrLE a n v).tapDr = s.tapDr := State.wrBytes_tapDr s a _
@[simp] theorem State.wrLE_tapRes (s : State) (a n v : Nat) : (s.wrLE a n v).tapRes = s.tapRes := State.wrBytes_tapRes s a _
@[simp] theorem State.wrLE_access (s : State) (a n v : Nat) : (s.wrLE a n v).access = s.access := State.wrBytes_access s a _
@[simp] theorem State.wrLE_accessAt (s : State) (a n v : Nat) : (s.wrLE a n v).accessAt = s.accessAt := State.wrBytes_accessAt s a _

/-! ### spoil -/
@[simp] theorem State.spoil_pending (s : State) (a n : Nat) : (s.spoil a n).pending = s.pending := State.wrBytes_pending _ a _
@[simp] theorem State.spoil_time (s : State) (a n : Nat) : (s.spoil a n).time = s.time := State.wrBytes_time _ a _
@[simp] theorem State.spoil_aonBefore (s : State) (a n : Nat) : (s.spoil a n).aonBefore = s.aonBefore := State.wrBytes_aonBefore _ a _
@[simp] theorem State.spoil_resp (s : State) (a n : Nat) : (s.spoil a n).resp = s.resp := State.wrBytes_resp _ a _
@[simp] theorem State.spoil_regs (s : State) (a n : Nat) : (s.spoil a n).regs = s.regs := State.wrBytes_regs _ a _
@[simp] theorem State.spoil_pairLatch (s : State) (a n : Nat) : (s.spoil a n).pairLatch = s.pairLatch := State.wrBytes_pairLatch _ a _
@[simp] theorem State.spoil_pairHold (s : State) (a n : Nat) : (s.spoil a n).pairHold = s.pairHold := State.wrBytes_pairHold _ a _
@[simp] theorem State.spoil_sd (s : State) (a n : Nat) : (s.spoil a n).sd = s.sd := State.wrBytes_sd _ a _
@[simp] theorem State.spoil_rings (s : State) (a n : Nat) : (s.spoil a n).rings = s.rings := State.wrBytes_rings _ a _
@[simp] theorem State.spoil_ctxs (s : State) (a n : Nat) : (s.spoil a n).ctxs = s.ctxs := State.wrBytes_ctxs _ a _
@[simp] theorem State.spoil_nextSeq (s : State) (a n : Nat) : (s.spoil a n).nextSeq = s.nextSeq := State.wrBytes_nextSeq _ a _
@[simp] theorem State.spoil_parts (s : State) (a n : Nat) : (s.spoil a n).parts = s.parts := State.wrBytes_parts _ a _
@[simp] theorem State.spoil_objIds (s : State) (a n : Nat) : (s.spoil a n).objIds = s.objIds := State.wrBytes_objIds _ a _
@[simp] theorem State.spoil_objs (s : State) (a n : Nat) : (s.spoil a n).objs = s.objs := State.wrBytes_objs _ a _
@[simp] theorem State.spoil_strands (s : State) (a n : Nat) : (s.spoil a n).strands = s.strands := State.wrBytes_strands _ a _
@[simp] theorem State.spoil_lockets (s : State) (a n : Nat) : (s.spoil a n).lockets = s.lockets := State.wrBytes_lockets _ a _
@[simp] theorem State.spoil_threads (s : State) (a n : Nat) : (s.spoil a n).threads = s.threads := State.wrBytes_threads _ a _
@[simp] theorem State.spoil_scratch (s : State) (a n : Nat) : (s.spoil a n).scratch = s.scratch := State.wrBytes_scratch _ a _
@[simp] theorem State.spoil_vgs (s : State) (a n : Nat) : (s.spoil a n).vgs = s.vgs := State.wrBytes_vgs _ a _
@[simp] theorem State.spoil_imem (s : State) (a n : Nat) : (s.spoil a n).imem = s.imem := State.wrBytes_imem _ a _
@[simp] theorem State.spoil_ctrlSram (s : State) (a n : Nat) : (s.spoil a n).ctrlSram = s.ctrlSram := State.wrBytes_ctrlSram _ a _
@[simp] theorem State.spoil_fabLate (s : State) (a n : Nat) : (s.spoil a n).fabLate = s.fabLate := State.wrBytes_fabLate _ a _
@[simp] theorem State.spoil_fabCut (s : State) (a n : Nat) : (s.spoil a n).fabCut = s.fabCut := State.wrBytes_fabCut _ a _
@[simp] theorem State.spoil_sidLog (s : State) (a n : Nat) : (s.spoil a n).sidLog = s.sidLog := State.wrBytes_sidLog _ a _
@[simp] theorem State.spoil_reportAddr (s : State) (a n : Nat) : (s.spoil a n).reportAddr = s.reportAddr := State.wrBytes_reportAddr _ a _
@[simp] theorem State.spoil_chans (s : State) (a n : Nat) : (s.spoil a n).chans = s.chans := State.wrBytes_chans _ a _
@[simp] theorem State.spoil_profile (s : State) (a n : Nat) : (s.spoil a n).profile = s.profile := State.wrBytes_profile _ a _
@[simp] theorem State.spoil_indexOk (s : State) (a n : Nat) : (s.spoil a n).indexOk = s.indexOk := State.wrBytes_indexOk _ a _
@[simp] theorem State.spoil_indexAt (s : State) (a n : Nat) : (s.spoil a n).indexAt = s.indexAt := State.wrBytes_indexAt _ a _
@[simp] theorem State.spoil_indexImg (s : State) (a n : Nat) : (s.spoil a n).indexImg = s.indexImg := State.wrBytes_indexImg _ a _
@[simp] theorem State.spoil_refillAt (s : State) (a n : Nat) : (s.spoil a n).refillAt = s.refillAt := State.wrBytes_refillAt _ a _
@[simp] theorem State.spoil_lastRing (s : State) (a n : Nat) : (s.spoil a n).lastRing = s.lastRing := State.wrBytes_lastRing _ a _
@[simp] theorem State.spoil_capture (s : State) (a n : Nat) : (s.spoil a n).capture = s.capture := State.wrBytes_capture _ a _
@[simp] theorem State.spoil_bootRec (s : State) (a n : Nat) : (s.spoil a n).bootRec = s.bootRec := State.wrBytes_bootRec _ a _
@[simp] theorem State.spoil_snap (s : State) (a n : Nat) : (s.spoil a n).snap = s.snap := State.wrBytes_snap _ a _
@[simp] theorem State.spoil_snapOk (s : State) (a n : Nat) : (s.spoil a n).snapOk = s.snapOk := State.wrBytes_snapOk _ a _
@[simp] theorem State.spoil_faults (s : State) (a n : Nat) : (s.spoil a n).faults = s.faults := State.wrBytes_faults _ a _
@[simp] theorem State.spoil_boot (s : State) (a n : Nat) : (s.spoil a n).boot = s.boot := State.wrBytes_boot _ a _
@[simp] theorem State.spoil_flash (s : State) (a n : Nat) : (s.spoil a n).flash = s.flash := State.wrBytes_flash _ a _
@[simp] theorem State.spoil_spi (s : State) (a n : Nat) : (s.spoil a n).spi = s.spi := State.wrBytes_spi _ a _
@[simp] theorem State.spoil_port (s : State) (a n : Nat) : (s.spoil a n).port = s.port := State.wrBytes_port _ a _
@[simp] theorem State.spoil_fuses (s : State) (a n : Nat) : (s.spoil a n).fuses = s.fuses := State.wrBytes_fuses _ a _
@[simp] theorem State.spoil_chnOut (s : State) (a n : Nat) : (s.spoil a n).chnOut = s.chnOut := State.wrBytes_chnOut _ a _
@[simp] theorem State.spoil_peerOut (s : State) (a n : Nat) : (s.spoil a n).peerOut = s.peerOut := State.wrBytes_peerOut _ a _
@[simp] theorem State.spoil_lastAt (s : State) (a n : Nat) : (s.spoil a n).lastAt = s.lastAt := State.wrBytes_lastAt _ a _
@[simp] theorem State.spoil_enumHeld (s : State) (a n : Nat) : (s.spoil a n).enumHeld = s.enumHeld := State.wrBytes_enumHeld _ a _
@[simp] theorem State.spoil_mailOut (s : State) (a n : Nat) : (s.spoil a n).mailOut = s.mailOut := State.wrBytes_mailOut _ a _
@[simp] theorem State.spoil_wrAt (s : State) (a n : Nat) : (s.spoil a n).wrAt = s.wrAt := State.wrBytes_wrAt _ a _
@[simp] theorem State.spoil_wrOld (s : State) (a n : Nat) : (s.spoil a n).wrOld = s.wrOld := State.wrBytes_wrOld _ a _
@[simp] theorem State.spoil_chnWait (s : State) (a n : Nat) : (s.spoil a n).chnWait = s.chnWait := State.wrBytes_chnWait _ a _
@[simp] theorem State.spoil_wdogAt (s : State) (a n : Nat) : (s.spoil a n).wdogAt = s.wdogAt := State.wrBytes_wdogAt _ a _
@[simp] theorem State.spoil_pair (s : State) (a n : Nat) : (s.spoil a n).pair = s.pair := State.wrBytes_pair _ a _
@[simp] theorem State.spoil_vseg (s : State) (a n : Nat) : (s.spoil a n).vseg = s.vseg := State.wrBytes_vseg _ a _
@[simp] theorem State.spoil_grp (s : State) (a n : Nat) : (s.spoil a n).grp = s.grp := State.wrBytes_grp _ a _
@[simp] theorem State.spoil_ests (s : State) (a n : Nat) : (s.spoil a n).ests = s.ests := State.wrBytes_ests _ a _
@[simp] theorem State.spoil_raisedAt (s : State) (a n : Nat) : (s.spoil a n).raisedAt = s.raisedAt := State.wrBytes_raisedAt _ a _
@[simp] theorem State.spoil_coolAt (s : State) (a n : Nat) : (s.spoil a n).coolAt = s.coolAt := State.wrBytes_coolAt _ a _
@[simp] theorem State.spoil_waking (s : State) (a n : Nat) : (s.spoil a n).waking = s.waking := State.wrBytes_waking _ a _
@[simp] theorem State.spoil_sleeping (s : State) (a n : Nat) : (s.spoil a n).sleeping = s.sleeping := State.wrBytes_sleeping _ a _
@[simp] theorem State.spoil_domLog (s : State) (a n : Nat) : (s.spoil a n).domLog = s.domLog := State.wrBytes_domLog _ a _
@[simp] theorem State.spoil_units (s : State) (a n : Nat) : (s.spoil a n).units = s.units := State.wrBytes_units _ a _
@[simp] theorem State.spoil_trace (s : State) (a n : Nat) : (s.spoil a n).trace = s.trace := State.wrBytes_trace _ a _
@[simp] theorem State.spoil_traceBase (s : State) (a n : Nat) : (s.spoil a n).traceBase = s.traceBase := State.wrBytes_traceBase _ a _
@[simp] theorem State.spoil_traceSlots (s : State) (a n : Nat) : (s.spoil a n).traceSlots = s.traceSlots := State.wrBytes_traceSlots _ a _
@[simp] theorem State.spoil_tapIr (s : State) (a n : Nat) : (s.spoil a n).tapIr = s.tapIr := State.wrBytes_tapIr _ a _
@[simp] theorem State.spoil_tapDr (s : State) (a n : Nat) : (s.spoil a n).tapDr = s.tapDr := State.wrBytes_tapDr _ a _
@[simp] theorem State.spoil_tapRes (s : State) (a n : Nat) : (s.spoil a n).tapRes = s.tapRes := State.wrBytes_tapRes _ a _
@[simp] theorem State.spoil_access (s : State) (a n : Nat) : (s.spoil a n).access = s.access := State.wrBytes_access _ a _
@[simp] theorem State.spoil_accessAt (s : State) (a n : Nat) : (s.spoil a n).accessAt = s.accessAt := State.wrBytes_accessAt _ a _

/-- What a run of bytes written changes: memory alone, and the log of a commit that is tried out. -/
theorem State.wrBytes_rest : ∀ (l : List Byte) (s : State) (a : Nat),
    s.wrBytes a l = { s with mem := (s.wrBytes a l).mem, wlog := (s.wrBytes a l).wlog }
  | [], _, _ => rfl
  | b :: l, s, a => State.wrBytes_rest l (s.wr8 a b) (a + 1)

/-- What an event posted changes: memory, registers, the record of the event and the log of a commit that is tried out alone. -/
theorem State.post_rest (s : State) (p : Part) (c : Nat) (d : Dom) (r : Option Ring) (w : Word) (i x : DWord) :
    s.post p c d r w i x = { s with mem := (s.post p c d r w i x).mem, regs := (s.post p c d r w i x).regs, parts := (s.post p c d r w i x).parts, wlog := (s.post p c d r w i x).wlog } := by
  unfold State.post; dsimp only; split
  · rfl
  · generalize hu : s.wrBytes _ _ = u
    obtain ⟨m, k, rfl⟩ : ∃ m k, u = { s with mem := m, wlog := k } := ⟨_, _, hu ▸ State.wrBytes_rest _ _ _⟩
    rfl

/-! ### post -/
@[simp] theorem State.post_pending (s : State) (p : Part) (c : Nat) (d : Dom) (r : Option Ring) (w : Word) (i x : DWord) : (s.post p c d r w i x).pending = s.pending := by rw [State.post_rest]
@[simp] theorem State.post_freeCtr (s : State) (p : Part) (c : Nat) (d : Dom) (r : Option Ring) (w : Word) (i x : DWord) : (s.post p c d r w i x).freeCtr = s.freeCtr := by rw [State.post_rest]
@[simp] theorem State.post_time (s : State) (p : Part) (c : Nat) (d : Dom) (r : Option Ring) (w : Word) (i x : DWord) : (s.post p c d r w i x).time = s.time := by rw [State.post_rest]
@[simp] theorem State.post_aonBefore (s : State) (p : Part) (c : Nat) (d : Dom) (r : Option Ring) (w : Word) (i x : DWord) : (s.post p c d r w i x).aonBefore = s.aonBefore := by rw [State.post_rest]
@[simp] theorem State.post_resp (s : State) (p : Part) (c : Nat) (d : Dom) (r : Option Ring) (w : Word) (i x : DWord) : (s.post p c d r w i x).resp = s.resp := by rw [State.post_rest]
@[simp] theorem State.post_pairLatch (s : State) (p : Part) (c : Nat) (d : Dom) (r : Option Ring) (w : Word) (i x : DWord) : (s.post p c d r w i x).pairLatch = s.pairLatch := by rw [State.post_rest]
@[simp] theorem State.post_pairHold (s : State) (p : Part) (c : Nat) (d : Dom) (r : Option Ring) (w : Word) (i x : DWord) : (s.post p c d r w i x).pairHold = s.pairHold := by rw [State.post_rest]
@[simp] theorem State.post_sd (s : State) (p : Part) (c : Nat) (d : Dom) (r : Option Ring) (w : Word) (i x : DWord) : (s.post p c d r w i x).sd = s.sd := by rw [State.post_rest]
@[simp] theorem State.post_rings (s : State) (p : Part) (c : Nat) (d : Dom) (r : Option Ring) (w : Word) (i x : DWord) : (s.post p c d r w i x).rings = s.rings := by rw [State.post_rest]
@[simp] theorem State.post_ctxs (s : State) (p : Part) (c : Nat) (d : Dom) (r : Option Ring) (w : Word) (i x : DWord) : (s.post p c d r w i x).ctxs = s.ctxs := by rw [State.post_rest]
@[simp] theorem State.post_nextSeq (s : State) (p : Part) (c : Nat) (d : Dom) (r : Option Ring) (w : Word) (i x : DWord) : (s.post p c d r w i x).nextSeq = s.nextSeq := by rw [State.post_rest]
@[simp] theorem State.post_objIds (s : State) (p : Part) (c : Nat) (d : Dom) (r : Option Ring) (w : Word) (i x : DWord) : (s.post p c d r w i x).objIds = s.objIds := by rw [State.post_rest]
@[simp] theorem State.post_objs (s : State) (p : Part) (c : Nat) (d : Dom) (r : Option Ring) (w : Word) (i x : DWord) : (s.post p c d r w i x).objs = s.objs := by rw [State.post_rest]
@[simp] theorem State.post_strands (s : State) (p : Part) (c : Nat) (d : Dom) (r : Option Ring) (w : Word) (i x : DWord) : (s.post p c d r w i x).strands = s.strands := by rw [State.post_rest]
@[simp] theorem State.post_lockets (s : State) (p : Part) (c : Nat) (d : Dom) (r : Option Ring) (w : Word) (i x : DWord) : (s.post p c d r w i x).lockets = s.lockets := by rw [State.post_rest]
@[simp] theorem State.post_threads (s : State) (p : Part) (c : Nat) (d : Dom) (r : Option Ring) (w : Word) (i x : DWord) : (s.post p c d r w i x).threads = s.threads := by rw [State.post_rest]
@[simp] theorem State.post_scratch (s : State) (p : Part) (c : Nat) (d : Dom) (r : Option Ring) (w : Word) (i x : DWord) : (s.post p c d r w i x).scratch = s.scratch := by rw [State.post_rest]
@[simp] theorem State.post_vgs (s : State) (p : Part) (c : Nat) (d : Dom) (r : Option Ring) (w : Word) (i x : DWord) : (s.post p c d r w i x).vgs = s.vgs := by rw [State.post_rest]
@[simp] theorem State.post_imem (s : State) (p : Part) (c : Nat) (d : Dom) (r : Option Ring) (w : Word) (i x : DWord) : (s.post p c d r w i x).imem = s.imem := by rw [State.post_rest]
@[simp] theorem State.post_ctrlSram (s : State) (p : Part) (c : Nat) (d : Dom) (r : Option Ring) (w : Word) (i x : DWord) : (s.post p c d r w i x).ctrlSram = s.ctrlSram := by rw [State.post_rest]
@[simp] theorem State.post_fabLate (s : State) (p : Part) (c : Nat) (d : Dom) (r : Option Ring) (w : Word) (i x : DWord) : (s.post p c d r w i x).fabLate = s.fabLate := by rw [State.post_rest]
@[simp] theorem State.post_fabCut (s : State) (p : Part) (c : Nat) (d : Dom) (r : Option Ring) (w : Word) (i x : DWord) : (s.post p c d r w i x).fabCut = s.fabCut := by rw [State.post_rest]
@[simp] theorem State.post_sidLog (s : State) (p : Part) (c : Nat) (d : Dom) (r : Option Ring) (w : Word) (i x : DWord) : (s.post p c d r w i x).sidLog = s.sidLog := by rw [State.post_rest]
@[simp] theorem State.post_reportAddr (s : State) (p : Part) (c : Nat) (d : Dom) (r : Option Ring) (w : Word) (i x : DWord) : (s.post p c d r w i x).reportAddr = s.reportAddr := by rw [State.post_rest]
@[simp] theorem State.post_chans (s : State) (p : Part) (c : Nat) (d : Dom) (r : Option Ring) (w : Word) (i x : DWord) : (s.post p c d r w i x).chans = s.chans := by rw [State.post_rest]
@[simp] theorem State.post_profile (s : State) (p : Part) (c : Nat) (d : Dom) (r : Option Ring) (w : Word) (i x : DWord) : (s.post p c d r w i x).profile = s.profile := by rw [State.post_rest]
@[simp] theorem State.post_indexOk (s : State) (p : Part) (c : Nat) (d : Dom) (r : Option Ring) (w : Word) (i x : DWord) : (s.post p c d r w i x).indexOk = s.indexOk := by rw [State.post_rest]
@[simp] theorem State.post_indexAt (s : State) (p : Part) (c : Nat) (d : Dom) (r : Option Ring) (w : Word) (i x : DWord) : (s.post p c d r w i x).indexAt = s.indexAt := by rw [State.post_rest]
@[simp] theorem State.post_indexImg (s : State) (p : Part) (c : Nat) (d : Dom) (r : Option Ring) (w : Word) (i x : DWord) : (s.post p c d r w i x).indexImg = s.indexImg := by rw [State.post_rest]
@[simp] theorem State.post_refillAt (s : State) (p : Part) (c : Nat) (d : Dom) (r : Option Ring) (w : Word) (i x : DWord) : (s.post p c d r w i x).refillAt = s.refillAt := by rw [State.post_rest]
@[simp] theorem State.post_lastRing (s : State) (p : Part) (c : Nat) (d : Dom) (r : Option Ring) (w : Word) (i x : DWord) : (s.post p c d r w i x).lastRing = s.lastRing := by rw [State.post_rest]
@[simp] theorem State.post_capture (s : State) (p : Part) (c : Nat) (d : Dom) (r : Option Ring) (w : Word) (i x : DWord) : (s.post p c d r w i x).capture = s.capture := by rw [State.post_rest]
@[simp] theorem State.post_bootRec (s : State) (p : Part) (c : Nat) (d : Dom) (r : Option Ring) (w : Word) (i x : DWord) : (s.post p c d r w i x).bootRec = s.bootRec := by rw [State.post_rest]
@[simp] theorem State.post_snap (s : State) (p : Part) (c : Nat) (d : Dom) (r : Option Ring) (w : Word) (i x : DWord) : (s.post p c d r w i x).snap = s.snap := by rw [State.post_rest]
@[simp] theorem State.post_snapOk (s : State) (p : Part) (c : Nat) (d : Dom) (r : Option Ring) (w : Word) (i x : DWord) : (s.post p c d r w i x).snapOk = s.snapOk := by rw [State.post_rest]
@[simp] theorem State.post_faults (s : State) (p : Part) (c : Nat) (d : Dom) (r : Option Ring) (w : Word) (i x : DWord) : (s.post p c d r w i x).faults = s.faults := by rw [State.post_rest]
@[simp] theorem State.post_boot (s : State) (p : Part) (c : Nat) (d : Dom) (r : Option Ring) (w : Word) (i x : DWord) : (s.post p c d r w i x).boot = s.boot := by rw [State.post_rest]
@[simp] theorem State.post_flash (s : State) (p : Part) (c : Nat) (d : Dom) (r : Option Ring) (w : Word) (i x : DWord) : (s.post p c d r w i x).flash = s.flash := by rw [State.post_rest]
@[simp] theorem State.post_spi (s : State) (p : Part) (c : Nat) (d : Dom) (r : Option Ring) (w : Word) (i x : DWord) : (s.post p c d r w i x).spi = s.spi := by rw [State.post_rest]
@[simp] theorem State.post_port (s : State) (p : Part) (c : Nat) (d : Dom) (r : Option Ring) (w : Word) (i x : DWord) : (s.post p c d r w i x).port = s.port := by rw [State.post_rest]
@[simp] theorem State.post_fuses (s : State) (p : Part) (c : Nat) (d : Dom) (r : Option Ring) (w : Word) (i x : DWord) : (s.post p c d r w i x).fuses = s.fuses := by rw [State.post_rest]
@[simp] theorem State.post_chnOut (s : State) (p : Part) (c : Nat) (d : Dom) (r : Option Ring) (w : Word) (i x : DWord) : (s.post p c d r w i x).chnOut = s.chnOut := by rw [State.post_rest]
@[simp] theorem State.post_peerOut (s : State) (p : Part) (c : Nat) (d : Dom) (r : Option Ring) (w : Word) (i x : DWord) : (s.post p c d r w i x).peerOut = s.peerOut := by rw [State.post_rest]
@[simp] theorem State.post_lastAt (s : State) (p : Part) (c : Nat) (d : Dom) (r : Option Ring) (w : Word) (i x : DWord) : (s.post p c d r w i x).lastAt = s.lastAt := by rw [State.post_rest]
@[simp] theorem State.post_enumHeld (s : State) (p : Part) (c : Nat) (d : Dom) (r : Option Ring) (w : Word) (i x : DWord) : (s.post p c d r w i x).enumHeld = s.enumHeld := by rw [State.post_rest]
@[simp] theorem State.post_mailOut (s : State) (p : Part) (c : Nat) (d : Dom) (r : Option Ring) (w : Word) (i x : DWord) : (s.post p c d r w i x).mailOut = s.mailOut := by rw [State.post_rest]
@[simp] theorem State.post_wrAt (s : State) (p : Part) (c : Nat) (d : Dom) (r : Option Ring) (w : Word) (i x : DWord) : (s.post p c d r w i x).wrAt = s.wrAt := by rw [State.post_rest]
@[simp] theorem State.post_wrOld (s : State) (p : Part) (c : Nat) (d : Dom) (r : Option Ring) (w : Word) (i x : DWord) : (s.post p c d r w i x).wrOld = s.wrOld := by rw [State.post_rest]
@[simp] theorem State.post_chnWait (s : State) (p : Part) (c : Nat) (d : Dom) (r : Option Ring) (w : Word) (i x : DWord) : (s.post p c d r w i x).chnWait = s.chnWait := by rw [State.post_rest]
@[simp] theorem State.post_wdogAt (s : State) (p : Part) (c : Nat) (d : Dom) (r : Option Ring) (w : Word) (i x : DWord) : (s.post p c d r w i x).wdogAt = s.wdogAt := by rw [State.post_rest]
@[simp] theorem State.post_pair (s : State) (p : Part) (c : Nat) (d : Dom) (r : Option Ring) (w : Word) (i x : DWord) : (s.post p c d r w i x).pair = s.pair := by rw [State.post_rest]
@[simp] theorem State.post_vseg (s : State) (p : Part) (c : Nat) (d : Dom) (r : Option Ring) (w : Word) (i x : DWord) : (s.post p c d r w i x).vseg = s.vseg := by rw [State.post_rest]
@[simp] theorem State.post_grp (s : State) (p : Part) (c : Nat) (d : Dom) (r : Option Ring) (w : Word) (i x : DWord) : (s.post p c d r w i x).grp = s.grp := by rw [State.post_rest]
@[simp] theorem State.post_ests (s : State) (p : Part) (c : Nat) (d : Dom) (r : Option Ring) (w : Word) (i x : DWord) : (s.post p c d r w i x).ests = s.ests := by rw [State.post_rest]
@[simp] theorem State.post_raisedAt (s : State) (p : Part) (c : Nat) (d : Dom) (r : Option Ring) (w : Word) (i x : DWord) : (s.post p c d r w i x).raisedAt = s.raisedAt := by rw [State.post_rest]
@[simp] theorem State.post_coolAt (s : State) (p : Part) (c : Nat) (d : Dom) (r : Option Ring) (w : Word) (i x : DWord) : (s.post p c d r w i x).coolAt = s.coolAt := by rw [State.post_rest]
@[simp] theorem State.post_waking (s : State) (p : Part) (c : Nat) (d : Dom) (r : Option Ring) (w : Word) (i x : DWord) : (s.post p c d r w i x).waking = s.waking := by rw [State.post_rest]
@[simp] theorem State.post_sleeping (s : State) (p : Part) (c : Nat) (d : Dom) (r : Option Ring) (w : Word) (i x : DWord) : (s.post p c d r w i x).sleeping = s.sleeping := by rw [State.post_rest]
@[simp] theorem State.post_domLog (s : State) (p : Part) (c : Nat) (d : Dom) (r : Option Ring) (w : Word) (i x : DWord) : (s.post p c d r w i x).domLog = s.domLog := by rw [State.post_rest]
@[simp] theorem State.post_units (s : State) (p : Part) (c : Nat) (d : Dom) (r : Option Ring) (w : Word) (i x : DWord) : (s.post p c d r w i x).units = s.units := by rw [State.post_rest]
@[simp] theorem State.post_trace (s : State) (p : Part) (c : Nat) (d : Dom) (r : Option Ring) (w : Word) (i x : DWord) : (s.post p c d r w i x).trace = s.trace := by rw [State.post_rest]
@[simp] theorem State.post_traceBase (s : State) (p : Part) (c : Nat) (d : Dom) (r : Option Ring) (w : Word) (i x : DWord) : (s.post p c d r w i x).traceBase = s.traceBase := by rw [State.post_rest]
@[simp] theorem State.post_traceSlots (s : State) (p : Part) (c : Nat) (d : Dom) (r : Option Ring) (w : Word) (i x : DWord) : (s.post p c d r w i x).traceSlots = s.traceSlots := by rw [State.post_rest]
@[simp] theorem State.post_tapIr (s : State) (p : Part) (c : Nat) (d : Dom) (r : Option Ring) (w : Word) (i x : DWord) : (s.post p c d r w i x).tapIr = s.tapIr := by rw [State.post_rest]
@[simp] theorem State.post_tapDr (s : State) (p : Part) (c : Nat) (d : Dom) (r : Option Ring) (w : Word) (i x : DWord) : (s.post p c d r w i x).tapDr = s.tapDr := by rw [State.post_rest]
@[simp] theorem State.post_tapRes (s : State) (p : Part) (c : Nat) (d : Dom) (r : Option Ring) (w : Word) (i x : DWord) : (s.post p c d r w i x).tapRes = s.tapRes := by rw [State.post_rest]
@[simp] theorem State.post_access (s : State) (p : Part) (c : Nat) (d : Dom) (r : Option Ring) (w : Word) (i x : DWord) : (s.post p c d r w i x).access = s.access := by rw [State.post_rest]
@[simp] theorem State.post_accessAt (s : State) (p : Part) (c : Nat) (d : Dom) (r : Option Ring) (w : Word) (i x : DWord) : (s.post p c d r w i x).accessAt = s.accessAt := by rw [State.post_rest]

/-! ### postAll -/
@[simp] theorem State.postAll_pending (s : State) (c : Nat) (x : DWord) : (s.postAll c x).pending = s.pending := foldl_keep (·.pending) _ (fun s p => State.post_pending s p c 0 none noSession 0#64 x) _ s
@[simp] theorem State.postAll_freeCtr (s : State) (c : Nat) (x : DWord) : (s.postAll c x).freeCtr = s.freeCtr := foldl_keep (·.freeCtr) _ (fun s p => State.post_freeCtr s p c 0 none noSession 0#64 x) _ s
@[simp] theorem State.postAll_time (s : State) (c : Nat) (x : DWord) : (s.postAll c x).time = s.time := foldl_keep (·.time) _ (fun s p => State.post_time s p c 0 none noSession 0#64 x) _ s
@[simp] theorem State.postAll_aonBefore (s : State) (c : Nat) (x : DWord) : (s.postAll c x).aonBefore = s.aonBefore := foldl_keep (·.aonBefore) _ (fun s p => State.post_aonBefore s p c 0 none noSession 0#64 x) _ s
@[simp] theorem State.postAll_resp (s : State) (c : Nat) (x : DWord) : (s.postAll c x).resp = s.resp := foldl_keep (·.resp) _ (fun s p => State.post_resp s p c 0 none noSession 0#64 x) _ s
@[simp] theorem State.postAll_pairLatch (s : State) (c : Nat) (x : DWord) : (s.postAll c x).pairLatch = s.pairLatch := foldl_keep (·.pairLatch) _ (fun s p => State.post_pairLatch s p c 0 none noSession 0#64 x) _ s
@[simp] theorem State.postAll_pairHold (s : State) (c : Nat) (x : DWord) : (s.postAll c x).pairHold = s.pairHold := foldl_keep (·.pairHold) _ (fun s p => State.post_pairHold s p c 0 none noSession 0#64 x) _ s
@[simp] theorem State.postAll_sd (s : State) (c : Nat) (x : DWord) : (s.postAll c x).sd = s.sd := foldl_keep (·.sd) _ (fun s p => State.post_sd s p c 0 none noSession 0#64 x) _ s
@[simp] theorem State.postAll_rings (s : State) (c : Nat) (x : DWord) : (s.postAll c x).rings = s.rings := foldl_keep (·.rings) _ (fun s p => State.post_rings s p c 0 none noSession 0#64 x) _ s
@[simp] theorem State.postAll_ctxs (s : State) (c : Nat) (x : DWord) : (s.postAll c x).ctxs = s.ctxs := foldl_keep (·.ctxs) _ (fun s p => State.post_ctxs s p c 0 none noSession 0#64 x) _ s
@[simp] theorem State.postAll_nextSeq (s : State) (c : Nat) (x : DWord) : (s.postAll c x).nextSeq = s.nextSeq := foldl_keep (·.nextSeq) _ (fun s p => State.post_nextSeq s p c 0 none noSession 0#64 x) _ s
@[simp] theorem State.postAll_objIds (s : State) (c : Nat) (x : DWord) : (s.postAll c x).objIds = s.objIds := foldl_keep (·.objIds) _ (fun s p => State.post_objIds s p c 0 none noSession 0#64 x) _ s
@[simp] theorem State.postAll_objs (s : State) (c : Nat) (x : DWord) : (s.postAll c x).objs = s.objs := foldl_keep (·.objs) _ (fun s p => State.post_objs s p c 0 none noSession 0#64 x) _ s
@[simp] theorem State.postAll_strands (s : State) (c : Nat) (x : DWord) : (s.postAll c x).strands = s.strands := foldl_keep (·.strands) _ (fun s p => State.post_strands s p c 0 none noSession 0#64 x) _ s
@[simp] theorem State.postAll_lockets (s : State) (c : Nat) (x : DWord) : (s.postAll c x).lockets = s.lockets := foldl_keep (·.lockets) _ (fun s p => State.post_lockets s p c 0 none noSession 0#64 x) _ s
@[simp] theorem State.postAll_threads (s : State) (c : Nat) (x : DWord) : (s.postAll c x).threads = s.threads := foldl_keep (·.threads) _ (fun s p => State.post_threads s p c 0 none noSession 0#64 x) _ s
@[simp] theorem State.postAll_scratch (s : State) (c : Nat) (x : DWord) : (s.postAll c x).scratch = s.scratch := foldl_keep (·.scratch) _ (fun s p => State.post_scratch s p c 0 none noSession 0#64 x) _ s
@[simp] theorem State.postAll_vgs (s : State) (c : Nat) (x : DWord) : (s.postAll c x).vgs = s.vgs := foldl_keep (·.vgs) _ (fun s p => State.post_vgs s p c 0 none noSession 0#64 x) _ s
@[simp] theorem State.postAll_imem (s : State) (c : Nat) (x : DWord) : (s.postAll c x).imem = s.imem := foldl_keep (·.imem) _ (fun s p => State.post_imem s p c 0 none noSession 0#64 x) _ s
@[simp] theorem State.postAll_ctrlSram (s : State) (c : Nat) (x : DWord) : (s.postAll c x).ctrlSram = s.ctrlSram := foldl_keep (·.ctrlSram) _ (fun s p => State.post_ctrlSram s p c 0 none noSession 0#64 x) _ s
@[simp] theorem State.postAll_fabLate (s : State) (c : Nat) (x : DWord) : (s.postAll c x).fabLate = s.fabLate := foldl_keep (·.fabLate) _ (fun s p => State.post_fabLate s p c 0 none noSession 0#64 x) _ s
@[simp] theorem State.postAll_fabCut (s : State) (c : Nat) (x : DWord) : (s.postAll c x).fabCut = s.fabCut := foldl_keep (·.fabCut) _ (fun s p => State.post_fabCut s p c 0 none noSession 0#64 x) _ s
@[simp] theorem State.postAll_sidLog (s : State) (c : Nat) (x : DWord) : (s.postAll c x).sidLog = s.sidLog := foldl_keep (·.sidLog) _ (fun s p => State.post_sidLog s p c 0 none noSession 0#64 x) _ s
@[simp] theorem State.postAll_reportAddr (s : State) (c : Nat) (x : DWord) : (s.postAll c x).reportAddr = s.reportAddr := foldl_keep (·.reportAddr) _ (fun s p => State.post_reportAddr s p c 0 none noSession 0#64 x) _ s
@[simp] theorem State.postAll_chans (s : State) (c : Nat) (x : DWord) : (s.postAll c x).chans = s.chans := foldl_keep (·.chans) _ (fun s p => State.post_chans s p c 0 none noSession 0#64 x) _ s
@[simp] theorem State.postAll_profile (s : State) (c : Nat) (x : DWord) : (s.postAll c x).profile = s.profile := foldl_keep (·.profile) _ (fun s p => State.post_profile s p c 0 none noSession 0#64 x) _ s
@[simp] theorem State.postAll_indexOk (s : State) (c : Nat) (x : DWord) : (s.postAll c x).indexOk = s.indexOk := foldl_keep (·.indexOk) _ (fun s p => State.post_indexOk s p c 0 none noSession 0#64 x) _ s
@[simp] theorem State.postAll_indexAt (s : State) (c : Nat) (x : DWord) : (s.postAll c x).indexAt = s.indexAt := foldl_keep (·.indexAt) _ (fun s p => State.post_indexAt s p c 0 none noSession 0#64 x) _ s
@[simp] theorem State.postAll_indexImg (s : State) (c : Nat) (x : DWord) : (s.postAll c x).indexImg = s.indexImg := foldl_keep (·.indexImg) _ (fun s p => State.post_indexImg s p c 0 none noSession 0#64 x) _ s
@[simp] theorem State.postAll_refillAt (s : State) (c : Nat) (x : DWord) : (s.postAll c x).refillAt = s.refillAt := foldl_keep (·.refillAt) _ (fun s p => State.post_refillAt s p c 0 none noSession 0#64 x) _ s
@[simp] theorem State.postAll_lastRing (s : State) (c : Nat) (x : DWord) : (s.postAll c x).lastRing = s.lastRing := foldl_keep (·.lastRing) _ (fun s p => State.post_lastRing s p c 0 none noSession 0#64 x) _ s
@[simp] theorem State.postAll_capture (s : State) (c : Nat) (x : DWord) : (s.postAll c x).capture = s.capture := foldl_keep (·.capture) _ (fun s p => State.post_capture s p c 0 none noSession 0#64 x) _ s
@[simp] theorem State.postAll_bootRec (s : State) (c : Nat) (x : DWord) : (s.postAll c x).bootRec = s.bootRec := foldl_keep (·.bootRec) _ (fun s p => State.post_bootRec s p c 0 none noSession 0#64 x) _ s
@[simp] theorem State.postAll_snap (s : State) (c : Nat) (x : DWord) : (s.postAll c x).snap = s.snap := foldl_keep (·.snap) _ (fun s p => State.post_snap s p c 0 none noSession 0#64 x) _ s
@[simp] theorem State.postAll_snapOk (s : State) (c : Nat) (x : DWord) : (s.postAll c x).snapOk = s.snapOk := foldl_keep (·.snapOk) _ (fun s p => State.post_snapOk s p c 0 none noSession 0#64 x) _ s
@[simp] theorem State.postAll_faults (s : State) (c : Nat) (x : DWord) : (s.postAll c x).faults = s.faults := foldl_keep (·.faults) _ (fun s p => State.post_faults s p c 0 none noSession 0#64 x) _ s
@[simp] theorem State.postAll_boot (s : State) (c : Nat) (x : DWord) : (s.postAll c x).boot = s.boot := foldl_keep (·.boot) _ (fun s p => State.post_boot s p c 0 none noSession 0#64 x) _ s
@[simp] theorem State.postAll_flash (s : State) (c : Nat) (x : DWord) : (s.postAll c x).flash = s.flash := foldl_keep (·.flash) _ (fun s p => State.post_flash s p c 0 none noSession 0#64 x) _ s
@[simp] theorem State.postAll_spi (s : State) (c : Nat) (x : DWord) : (s.postAll c x).spi = s.spi := foldl_keep (·.spi) _ (fun s p => State.post_spi s p c 0 none noSession 0#64 x) _ s
@[simp] theorem State.postAll_port (s : State) (c : Nat) (x : DWord) : (s.postAll c x).port = s.port := foldl_keep (·.port) _ (fun s p => State.post_port s p c 0 none noSession 0#64 x) _ s
@[simp] theorem State.postAll_fuses (s : State) (c : Nat) (x : DWord) : (s.postAll c x).fuses = s.fuses := foldl_keep (·.fuses) _ (fun s p => State.post_fuses s p c 0 none noSession 0#64 x) _ s
@[simp] theorem State.postAll_chnOut (s : State) (c : Nat) (x : DWord) : (s.postAll c x).chnOut = s.chnOut := foldl_keep (·.chnOut) _ (fun s p => State.post_chnOut s p c 0 none noSession 0#64 x) _ s
@[simp] theorem State.postAll_peerOut (s : State) (c : Nat) (x : DWord) : (s.postAll c x).peerOut = s.peerOut := foldl_keep (·.peerOut) _ (fun s p => State.post_peerOut s p c 0 none noSession 0#64 x) _ s
@[simp] theorem State.postAll_lastAt (s : State) (c : Nat) (x : DWord) : (s.postAll c x).lastAt = s.lastAt := foldl_keep (·.lastAt) _ (fun s p => State.post_lastAt s p c 0 none noSession 0#64 x) _ s
@[simp] theorem State.postAll_enumHeld (s : State) (c : Nat) (x : DWord) : (s.postAll c x).enumHeld = s.enumHeld := foldl_keep (·.enumHeld) _ (fun s p => State.post_enumHeld s p c 0 none noSession 0#64 x) _ s
@[simp] theorem State.postAll_mailOut (s : State) (c : Nat) (x : DWord) : (s.postAll c x).mailOut = s.mailOut := foldl_keep (·.mailOut) _ (fun s p => State.post_mailOut s p c 0 none noSession 0#64 x) _ s
@[simp] theorem State.postAll_wrAt (s : State) (c : Nat) (x : DWord) : (s.postAll c x).wrAt = s.wrAt := foldl_keep (·.wrAt) _ (fun s p => State.post_wrAt s p c 0 none noSession 0#64 x) _ s
@[simp] theorem State.postAll_wrOld (s : State) (c : Nat) (x : DWord) : (s.postAll c x).wrOld = s.wrOld := foldl_keep (·.wrOld) _ (fun s p => State.post_wrOld s p c 0 none noSession 0#64 x) _ s
@[simp] theorem State.postAll_chnWait (s : State) (c : Nat) (x : DWord) : (s.postAll c x).chnWait = s.chnWait := foldl_keep (·.chnWait) _ (fun s p => State.post_chnWait s p c 0 none noSession 0#64 x) _ s
@[simp] theorem State.postAll_wdogAt (s : State) (c : Nat) (x : DWord) : (s.postAll c x).wdogAt = s.wdogAt := foldl_keep (·.wdogAt) _ (fun s p => State.post_wdogAt s p c 0 none noSession 0#64 x) _ s
@[simp] theorem State.postAll_pair (s : State) (c : Nat) (x : DWord) : (s.postAll c x).pair = s.pair := foldl_keep (·.pair) _ (fun s p => State.post_pair s p c 0 none noSession 0#64 x) _ s
@[simp] theorem State.postAll_vseg (s : State) (c : Nat) (x : DWord) : (s.postAll c x).vseg = s.vseg := foldl_keep (·.vseg) _ (fun s p => State.post_vseg s p c 0 none noSession 0#64 x) _ s
@[simp] theorem State.postAll_grp (s : State) (c : Nat) (x : DWord) : (s.postAll c x).grp = s.grp := foldl_keep (·.grp) _ (fun s p => State.post_grp s p c 0 none noSession 0#64 x) _ s
@[simp] theorem State.postAll_ests (s : State) (c : Nat) (x : DWord) : (s.postAll c x).ests = s.ests := foldl_keep (·.ests) _ (fun s p => State.post_ests s p c 0 none noSession 0#64 x) _ s
@[simp] theorem State.postAll_raisedAt (s : State) (c : Nat) (x : DWord) : (s.postAll c x).raisedAt = s.raisedAt := foldl_keep (·.raisedAt) _ (fun s p => State.post_raisedAt s p c 0 none noSession 0#64 x) _ s
@[simp] theorem State.postAll_coolAt (s : State) (c : Nat) (x : DWord) : (s.postAll c x).coolAt = s.coolAt := foldl_keep (·.coolAt) _ (fun s p => State.post_coolAt s p c 0 none noSession 0#64 x) _ s
@[simp] theorem State.postAll_waking (s : State) (c : Nat) (x : DWord) : (s.postAll c x).waking = s.waking := foldl_keep (·.waking) _ (fun s p => State.post_waking s p c 0 none noSession 0#64 x) _ s
@[simp] theorem State.postAll_sleeping (s : State) (c : Nat) (x : DWord) : (s.postAll c x).sleeping = s.sleeping := foldl_keep (·.sleeping) _ (fun s p => State.post_sleeping s p c 0 none noSession 0#64 x) _ s
@[simp] theorem State.postAll_domLog (s : State) (c : Nat) (x : DWord) : (s.postAll c x).domLog = s.domLog := foldl_keep (·.domLog) _ (fun s p => State.post_domLog s p c 0 none noSession 0#64 x) _ s
@[simp] theorem State.postAll_units (s : State) (c : Nat) (x : DWord) : (s.postAll c x).units = s.units := foldl_keep (·.units) _ (fun s p => State.post_units s p c 0 none noSession 0#64 x) _ s
@[simp] theorem State.postAll_trace (s : State) (c : Nat) (x : DWord) : (s.postAll c x).trace = s.trace := foldl_keep (·.trace) _ (fun s p => State.post_trace s p c 0 none noSession 0#64 x) _ s
@[simp] theorem State.postAll_traceBase (s : State) (c : Nat) (x : DWord) : (s.postAll c x).traceBase = s.traceBase := foldl_keep (·.traceBase) _ (fun s p => State.post_traceBase s p c 0 none noSession 0#64 x) _ s
@[simp] theorem State.postAll_traceSlots (s : State) (c : Nat) (x : DWord) : (s.postAll c x).traceSlots = s.traceSlots := foldl_keep (·.traceSlots) _ (fun s p => State.post_traceSlots s p c 0 none noSession 0#64 x) _ s
@[simp] theorem State.postAll_tapIr (s : State) (c : Nat) (x : DWord) : (s.postAll c x).tapIr = s.tapIr := foldl_keep (·.tapIr) _ (fun s p => State.post_tapIr s p c 0 none noSession 0#64 x) _ s
@[simp] theorem State.postAll_tapDr (s : State) (c : Nat) (x : DWord) : (s.postAll c x).tapDr = s.tapDr := foldl_keep (·.tapDr) _ (fun s p => State.post_tapDr s p c 0 none noSession 0#64 x) _ s
@[simp] theorem State.postAll_tapRes (s : State) (c : Nat) (x : DWord) : (s.postAll c x).tapRes = s.tapRes := foldl_keep (·.tapRes) _ (fun s p => State.post_tapRes s p c 0 none noSession 0#64 x) _ s
@[simp] theorem State.postAll_access (s : State) (c : Nat) (x : DWord) : (s.postAll c x).access = s.access := foldl_keep (·.access) _ (fun s p => State.post_access s p c 0 none noSession 0#64 x) _ s
@[simp] theorem State.postAll_accessAt (s : State) (c : Nat) (x : DWord) : (s.postAll c x).accessAt = s.accessAt := foldl_keep (·.accessAt) _ (fun s p => State.post_accessAt s p c 0 none noSession 0#64 x) _ s

/-! ### ringError -/
@[simp] theorem State.ringError_pending (s : State) (r : Ring) (c i h : Nat) : (s.ringError r c i h).pending = s.pending := by unfold State.ringError; split <;> simp
@[simp] theorem State.ringError_freeCtr (s : State) (r : Ring) (c i h : Nat) : (s.ringError r c i h).freeCtr = s.freeCtr := by unfold State.ringError; split <;> simp
@[simp] theorem State.ringError_time (s : State) (r : Ring) (c i h : Nat) : (s.ringError r c i h).time = s.time := by unfold State.ringError; split <;> simp
@[simp] theorem State.ringError_aonBefore (s : State) (r : Ring) (c i h : Nat) : (s.ringError r c i h).aonBefore = s.aonBefore := by unfold State.ringError; split <;> simp
@[simp] theorem State.ringError_resp (s : State) (r : Ring) (c i h : Nat) : (s.ringError r c i h).resp = s.resp := by unfold State.ringError; split <;> simp
@[simp] theorem State.ringError_pairLatch (s : State) (r : Ring) (c i h : Nat) : (s.ringError r c i h).pairLatch = s.pairLatch := by unfold State.ringError; split <;> simp
@[simp] theorem State.ringError_pairHold (s : State) (r : Ring) (c i h : Nat) : (s.ringError r c i h).pairHold = s.pairHold := by unfold State.ringError; split <;> simp
@[simp] theorem State.ringError_sd (s : State) (r : Ring) (c i h : Nat) : (s.ringError r c i h).sd = s.sd := by unfold State.ringError; split <;> simp
@[simp] theorem State.ringError_rings (s : State) (r : Ring) (c i h : Nat) : (s.ringError r c i h).rings = s.rings := by unfold State.ringError; split <;> simp
@[simp] theorem State.ringError_ctxs (s : State) (r : Ring) (c i h : Nat) : (s.ringError r c i h).ctxs = s.ctxs := by unfold State.ringError; split <;> simp
@[simp] theorem State.ringError_nextSeq (s : State) (r : Ring) (c i h : Nat) : (s.ringError r c i h).nextSeq = s.nextSeq := by unfold State.ringError; split <;> simp
@[simp] theorem State.ringError_objIds (s : State) (r : Ring) (c i h : Nat) : (s.ringError r c i h).objIds = s.objIds := by unfold State.ringError; split <;> simp
@[simp] theorem State.ringError_objs (s : State) (r : Ring) (c i h : Nat) : (s.ringError r c i h).objs = s.objs := by unfold State.ringError; split <;> simp
@[simp] theorem State.ringError_strands (s : State) (r : Ring) (c i h : Nat) : (s.ringError r c i h).strands = s.strands := by unfold State.ringError; split <;> simp
@[simp] theorem State.ringError_lockets (s : State) (r : Ring) (c i h : Nat) : (s.ringError r c i h).lockets = s.lockets := by unfold State.ringError; split <;> simp
@[simp] theorem State.ringError_threads (s : State) (r : Ring) (c i h : Nat) : (s.ringError r c i h).threads = s.threads := by unfold State.ringError; split <;> simp
@[simp] theorem State.ringError_scratch (s : State) (r : Ring) (c i h : Nat) : (s.ringError r c i h).scratch = s.scratch := by unfold State.ringError; split <;> simp
@[simp] theorem State.ringError_vgs (s : State) (r : Ring) (c i h : Nat) : (s.ringError r c i h).vgs = s.vgs := by unfold State.ringError; split <;> simp
@[simp] theorem State.ringError_imem (s : State) (r : Ring) (c i h : Nat) : (s.ringError r c i h).imem = s.imem := by unfold State.ringError; split <;> simp
@[simp] theorem State.ringError_ctrlSram (s : State) (r : Ring) (c i h : Nat) : (s.ringError r c i h).ctrlSram = s.ctrlSram := by unfold State.ringError; split <;> simp
@[simp] theorem State.ringError_fabLate (s : State) (r : Ring) (c i h : Nat) : (s.ringError r c i h).fabLate = s.fabLate := by unfold State.ringError; split <;> simp
@[simp] theorem State.ringError_fabCut (s : State) (r : Ring) (c i h : Nat) : (s.ringError r c i h).fabCut = s.fabCut := by unfold State.ringError; split <;> simp
@[simp] theorem State.ringError_sidLog (s : State) (r : Ring) (c i h : Nat) : (s.ringError r c i h).sidLog = s.sidLog := by unfold State.ringError; split <;> simp
@[simp] theorem State.ringError_reportAddr (s : State) (r : Ring) (c i h : Nat) : (s.ringError r c i h).reportAddr = s.reportAddr := by unfold State.ringError; split <;> simp
@[simp] theorem State.ringError_chans (s : State) (r : Ring) (c i h : Nat) : (s.ringError r c i h).chans = s.chans := by unfold State.ringError; split <;> simp
@[simp] theorem State.ringError_profile (s : State) (r : Ring) (c i h : Nat) : (s.ringError r c i h).profile = s.profile := by unfold State.ringError; split <;> simp
@[simp] theorem State.ringError_indexOk (s : State) (r : Ring) (c i h : Nat) : (s.ringError r c i h).indexOk = s.indexOk := by unfold State.ringError; split <;> simp
@[simp] theorem State.ringError_indexAt (s : State) (r : Ring) (c i h : Nat) : (s.ringError r c i h).indexAt = s.indexAt := by unfold State.ringError; split <;> simp
@[simp] theorem State.ringError_indexImg (s : State) (r : Ring) (c i h : Nat) : (s.ringError r c i h).indexImg = s.indexImg := by unfold State.ringError; split <;> simp
@[simp] theorem State.ringError_refillAt (s : State) (r : Ring) (c i h : Nat) : (s.ringError r c i h).refillAt = s.refillAt := by unfold State.ringError; split <;> simp
@[simp] theorem State.ringError_lastRing (s : State) (r : Ring) (c i h : Nat) : (s.ringError r c i h).lastRing = s.lastRing := by unfold State.ringError; split <;> simp
@[simp] theorem State.ringError_capture (s : State) (r : Ring) (c i h : Nat) : (s.ringError r c i h).capture = s.capture := by unfold State.ringError; split <;> simp
@[simp] theorem State.ringError_bootRec (s : State) (r : Ring) (c i h : Nat) : (s.ringError r c i h).bootRec = s.bootRec := by unfold State.ringError; split <;> simp
@[simp] theorem State.ringError_snap (s : State) (r : Ring) (c i h : Nat) : (s.ringError r c i h).snap = s.snap := by unfold State.ringError; split <;> simp
@[simp] theorem State.ringError_snapOk (s : State) (r : Ring) (c i h : Nat) : (s.ringError r c i h).snapOk = s.snapOk := by unfold State.ringError; split <;> simp
@[simp] theorem State.ringError_faults (s : State) (r : Ring) (c i h : Nat) : (s.ringError r c i h).faults = s.faults := by unfold State.ringError; split <;> simp
@[simp] theorem State.ringError_boot (s : State) (r : Ring) (c i h : Nat) : (s.ringError r c i h).boot = s.boot := by unfold State.ringError; split <;> simp
@[simp] theorem State.ringError_flash (s : State) (r : Ring) (c i h : Nat) : (s.ringError r c i h).flash = s.flash := by unfold State.ringError; split <;> simp
@[simp] theorem State.ringError_spi (s : State) (r : Ring) (c i h : Nat) : (s.ringError r c i h).spi = s.spi := by unfold State.ringError; split <;> simp
@[simp] theorem State.ringError_port (s : State) (r : Ring) (c i h : Nat) : (s.ringError r c i h).port = s.port := by unfold State.ringError; split <;> simp
@[simp] theorem State.ringError_fuses (s : State) (r : Ring) (c i h : Nat) : (s.ringError r c i h).fuses = s.fuses := by unfold State.ringError; split <;> simp
@[simp] theorem State.ringError_chnOut (s : State) (r : Ring) (c i h : Nat) : (s.ringError r c i h).chnOut = s.chnOut := by unfold State.ringError; split <;> simp
@[simp] theorem State.ringError_peerOut (s : State) (r : Ring) (c i h : Nat) : (s.ringError r c i h).peerOut = s.peerOut := by unfold State.ringError; split <;> simp
@[simp] theorem State.ringError_lastAt (s : State) (r : Ring) (c i h : Nat) : (s.ringError r c i h).lastAt = s.lastAt := by unfold State.ringError; split <;> simp
@[simp] theorem State.ringError_enumHeld (s : State) (r : Ring) (c i h : Nat) : (s.ringError r c i h).enumHeld = s.enumHeld := by unfold State.ringError; split <;> simp
@[simp] theorem State.ringError_mailOut (s : State) (r : Ring) (c i h : Nat) : (s.ringError r c i h).mailOut = s.mailOut := by unfold State.ringError; split <;> simp
@[simp] theorem State.ringError_wrAt (s : State) (r : Ring) (c i h : Nat) : (s.ringError r c i h).wrAt = s.wrAt := by unfold State.ringError; split <;> simp
@[simp] theorem State.ringError_wrOld (s : State) (r : Ring) (c i h : Nat) : (s.ringError r c i h).wrOld = s.wrOld := by unfold State.ringError; split <;> simp
@[simp] theorem State.ringError_chnWait (s : State) (r : Ring) (c i h : Nat) : (s.ringError r c i h).chnWait = s.chnWait := by unfold State.ringError; split <;> simp
@[simp] theorem State.ringError_wdogAt (s : State) (r : Ring) (c i h : Nat) : (s.ringError r c i h).wdogAt = s.wdogAt := by unfold State.ringError; split <;> simp
@[simp] theorem State.ringError_pair (s : State) (r : Ring) (c i h : Nat) : (s.ringError r c i h).pair = s.pair := by unfold State.ringError; split <;> simp
@[simp] theorem State.ringError_vseg (s : State) (r : Ring) (c i h : Nat) : (s.ringError r c i h).vseg = s.vseg := by unfold State.ringError; split <;> simp
@[simp] theorem State.ringError_grp (s : State) (r : Ring) (c i h : Nat) : (s.ringError r c i h).grp = s.grp := by unfold State.ringError; split <;> simp
@[simp] theorem State.ringError_ests (s : State) (r : Ring) (c i h : Nat) : (s.ringError r c i h).ests = s.ests := by unfold State.ringError; split <;> simp
@[simp] theorem State.ringError_raisedAt (s : State) (r : Ring) (c i h : Nat) : (s.ringError r c i h).raisedAt = s.raisedAt := by unfold State.ringError; split <;> simp
@[simp] theorem State.ringError_coolAt (s : State) (r : Ring) (c i h : Nat) : (s.ringError r c i h).coolAt = s.coolAt := by unfold State.ringError; split <;> simp
@[simp] theorem State.ringError_waking (s : State) (r : Ring) (c i h : Nat) : (s.ringError r c i h).waking = s.waking := by unfold State.ringError; split <;> simp
@[simp] theorem State.ringError_sleeping (s : State) (r : Ring) (c i h : Nat) : (s.ringError r c i h).sleeping = s.sleeping := by unfold State.ringError; split <;> simp
@[simp] theorem State.ringError_domLog (s : State) (r : Ring) (c i h : Nat) : (s.ringError r c i h).domLog = s.domLog := by unfold State.ringError; split <;> simp
@[simp] theorem State.ringError_units (s : State) (r : Ring) (c i h : Nat) : (s.ringError r c i h).units = s.units := by unfold State.ringError; split <;> simp
@[simp] theorem State.ringError_trace (s : State) (r : Ring) (c i h : Nat) : (s.ringError r c i h).trace = s.trace := by unfold State.ringError; split <;> simp
@[simp] theorem State.ringError_traceBase (s : State) (r : Ring) (c i h : Nat) : (s.ringError r c i h).traceBase = s.traceBase := by unfold State.ringError; split <;> simp
@[simp] theorem State.ringError_traceSlots (s : State) (r : Ring) (c i h : Nat) : (s.ringError r c i h).traceSlots = s.traceSlots := by unfold State.ringError; split <;> simp
@[simp] theorem State.ringError_tapIr (s : State) (r : Ring) (c i h : Nat) : (s.ringError r c i h).tapIr = s.tapIr := by unfold State.ringError; split <;> simp
@[simp] theorem State.ringError_tapDr (s : State) (r : Ring) (c i h : Nat) : (s.ringError r c i h).tapDr = s.tapDr := by unfold State.ringError; split <;> simp
@[simp] theorem State.ringError_tapRes (s : State) (r : Ring) (c i h : Nat) : (s.ringError r c i h).tapRes = s.tapRes := by unfold State.ringError; split <;> simp
@[simp] theorem State.ringError_access (s : State) (r : Ring) (c i h : Nat) : (s.ringError r c i h).access = s.access := by unfold State.ringError; split <;> simp
@[simp] theorem State.ringError_accessAt (s : State) (r : Ring) (c i h : Nat) : (s.ringError r c i h).accessAt = s.accessAt := by unfold State.ringError; split <;> simp

end Sys2Proof.Machine
end

