-- ==== Sys2Proof/Laws/Observe.lean ====
section
/-! SUPPORT. Sys2Proof/Laws/Observe.lean: what is seen of a command (R608, R658 to R667) changes the loupe's own registers, the trace
queue, the governor's marks and the free-value counter, and nothing else. -/
namespace Sys2Proof.Machine
open Sys2Proof

/-- `t` is `s` with what the loupe and the governor noted. -/
structure Seen (s t : State) : Prop where
  rest : t = { s with regs := t.regs, trace := t.trace, grp := t.grp, freeCtr := t.freeCtr }
  reg  : ∀ o, noteReg o = false → t.reg o = s.reg o
  wf   : s.regsWf = true → t.regsWf = true

theorem Seen.refl (s : State) : Seen s s := ⟨rfl, fun _ _ => rfl, id⟩
theorem Seen.trans {s t u : State} (h : Seen s t) (k : Seen t u) : Seen s u :=
  ⟨by rw [k.rest, h.rest], fun o ho => (k.reg o ho).trans (h.reg o ho), fun w => k.wf (h.wf w)⟩

theorem Seen.foldl {β : Type} (f : State → β → State) (h : ∀ s x, Seen s (f s x)) : ∀ (l : List β) (s : State), Seen s (l.foldl f s)
  | [], s => Seen.refl s
  | x :: l, s => (h s x).trans (Seen.foldl f h l (f s x))

theorem Seen.setReg {s : State} {o : Nat} {v : Word} (h : noteReg o = true) : Seen s (s.setReg o v) :=
  ⟨rfl, fun o' ho => State.reg_setReg_ne (by rintro rfl; simp_all), State.setReg_regsWf o v⟩

theorem noteReg_cnt {n : Nat} (h : n < 8) : noteReg (rLpeCnt n) = true ∧ noteReg (rLpeCnt n + 4) = true := by
  constructor <;> simp only [noteReg, Bool.or_eq_true, List.any_eq_true, List.mem_range, beq_iff_eq] <;> right
  · exact ⟨n, h, .inl rfl⟩
  · exact ⟨n, h, .inr rfl⟩

theorem Seen.bump64 {s : State} {n k : Nat} (h : n < 8) : Seen s (s.bump64 (rLpeCnt n) k) :=
  (Seen.setReg (noteReg_cnt h).1).trans (Seen.setReg (noteReg_cnt h).2)

theorem Seen.grpUpd {s t : State} (h : Seen s t) (g : Grp) (f : GrpCtl → GrpCtl) : Seen s (t.grpUpd g f) := h.trans ⟨rfl, fun _ _ => rfl, id⟩

theorem Seen.trace' {s t : State} (h : Seen s t) (c : Nat) (p : Option Part) (w i : Word) (r : Option Ring) (x y z : Nat) :
    Seen s (t.trace' c p w i r x y z) := by
  refine h.trans ?_
  unfold State.trace'
  split
  · exact Seen.refl t
  · split
    · exact Seen.setReg (by simp [noteReg])
    · exact ⟨rfl, fun _ _ => rfl, id⟩

theorem Seen.count {s t : State} (h : Seen s t) (e : Nat) (p : Option Part) (g : Option Grp) (k : Nat) : Seen s (t.count e p g k) := by
  refine h.trans ?_
  unfold State.count
  have key : ∀ (l : List Nat) (s : State), (∀ n ∈ l, n < 8) →
      Seen s (l.foldl (fun s n => if s.counts n e p g then s.bump64 (rLpeCnt n) k else s) s) := by
    intro l
    induction l with
    | nil => intro s _; exact Seen.refl s
    | cons n l ih =>
      intro s h
      refine Seen.trans ?_ (ih _ (fun m hm => h m (List.mem_cons_of_mem n hm)))
      dsimp only
      split
      · exact Seen.bump64 (h n List.mem_cons_self)
      · exact Seen.refl s
  exact key _ t (fun n hn => by simpa using hn)

theorem Seen.workGrp {s t : State} (h : Seen s t) (p : Part) (i : Word) : Seen s (t.workGrp p i).2 := by
  unfold State.workGrp
  split
  · exact h
  · exact h.trans ⟨rfl, fun _ _ => rfl, id⟩

theorem Seen.ite {s t u : State} {c : Bool} (h : Seen s t) (k : Seen s u) : Seen s (if c = true then t else u) := by
  split
  · exact h
  · exact k

theorem Seen.fold {β : Type} {s : State} (f : State → β → State) (h : ∀ s t x, Seen s t → Seen s (f t x)) (l : List β) {t : State}
    (k : Seen s t) : Seen s (l.foldl f t) := k.trans (Seen.foldl f (fun s x => h s s x (Seen.refl s)) l t)

theorem Seen.workGrps {s t : State} (h : Seen s t) (x : OpCtx) (i : Word) (b : Option BatchItem) : Seen s (t.workGrps x i b).2 := by
  unfold State.workGrps
  dsimp only
  split
  · exact h.workGrp _ _
  · exact h

theorem Seen.countIn {s t : State} (h : Seen s t) (e : Nat) (p : Part) (gs : List Grp) : Seen s (t.countIn e p gs) := by
  refine h.trans ?_
  unfold State.countIn
  have key : ∀ (l : List Nat) (s : State), (∀ n ∈ l, n < 8) →
      Seen s (l.foldl (fun s n => if s.counts n e (some p) none || gs.any (fun g => s.counts n e (some p) (some g))
        then s.bump64 (rLpeCnt n) 1 else s) s) := by
    intro l
    induction l with
    | nil => intro s _; exact Seen.refl s
    | cons n l ih =>
      intro s h
      refine Seen.trans ?_ (ih _ (fun m hm => h m (List.mem_cons_of_mem n hm)))
      dsimp only
      split
      · exact Seen.bump64 (h n List.mem_cons_self)
      · exact Seen.refl s
  exact key _ t (fun n hn => by simpa using hn)

theorem Seen.sawCommit {s t : State} (h : Seen s t) (x : OpCtx) (i : Word) (k : Nat) (st : BitVec 8) (b : Option BatchItem) :
    Seen s (t.sawCommit x i k st b) := by
  have h1 := h.trace' 3 (some x.part) i x.index (some x.ring) st.toNat k (t.point (xDom x)).toNat
  unfold State.sawCommit
  dsimp only
  split
  · exact (h1.count _ _ _ _).ite h1
  · exact Seen.fold _ (fun _ _ g k => k.grpUpd g _) _ (((h1.count _ _ _ _).ite h1).workGrps _ _ _)

theorem Seen.sawMiss {s t : State} (h : Seen s t) (x : OpCtx) (i : Word) (b : Option BatchItem) : Seen s (t.sawMiss x i b) := by
  unfold State.sawMiss
  dsimp only
  exact Seen.fold _ (fun _ _ g k => k.grpUpd g _) _ (((h.trace' _ _ _ _ _ _ _ _).workGrps _ _ _).countIn _ _ _)

theorem noteReg_miss (p : Part) : noteReg (rPrtVgsMiss p) = true ∧ noteReg (rPrtVgsMiss p + 4) = true := by
  constructor <;> simp only [noteReg, Bool.or_eq_true, List.any_eq_true, List.mem_finRange, beq_iff_eq] <;> left <;> right
  · exact ⟨p, trivial, .inl rfl⟩
  · exact ⟨p, trivial, .inr rfl⟩

theorem Seen.missLines {s t : State} (h : Seen s t) (p : Part) (k : Nat) : Seen s (t.missLines p k) :=
  (h.trans ((Seen.setReg (noteReg_miss p).1).trans (Seen.setReg (noteReg_miss p).2))).count _ _ _ _

theorem Seen.sawMisses {s t : State} (h : Seen s t) (s0 : State) (p : Part) : Seen s (t.sawMisses s0 p) := by
  unfold State.sawMisses
  exact ((h.trans (⟨rfl, fun _ _ => rfl, id⟩ : Seen t (t.freeBelow (2 ^ 20)).2)).missLines p _).ite h

theorem Seen.sawOp {s t : State} (h : Seen s t) (x y : OpCtx) : Seen s (t.sawOp x y) := by
  unfold State.sawOp
  dsimp only
  have h1 : Seen s (if x.st == .queued && y.st == .ready then
      t.trace' 2 (some y.part) (xSession y) y.index (some y.ring) 0 (xOp y) (t.point (xDom y)).toNat else t) :=
    (h.trace' _ _ _ _ _ _ _ _).ite h
  have h2 := Seen.fold (s := s) (fun (s : State) (q : (BatchItem × Nat) × BatchItem) =>
      if q.1.1.phase == .done && q.2.phase != .done then
        if committedStatus q.1.1.status then s.sawCommit y q.1.1.session q.1.2 q.1.1.status (some q.1.1)
        else if q.1.1.status == 0x04#8 then s.sawMiss y q.1.1.session (some q.1.1) else s
      else s) (fun s t q k => ((k.sawCommit _ _ _ _ _).ite ((k.sawMiss _ _ _).ite k)).ite k) (y.items.zipIdx.zip x.items) h1
  have h3 := (h2.sawCommit y (xSession y) 0 (y.status.getD 0#8) none).ite
    (c := x.st == .ready && y.st == .past && y.items.isEmpty && ((y.status.map committedStatus).getD true)) h2
  exact (h3.sawMiss _ _ _).ite (((h3.count _ _ _ _).trace' _ _ _ _ _ _ _ _).ite h3)

theorem Seen.sawDispatch {s t : State} (h : Seen s t) (y : OpCtx) : Seen s (t.sawDispatch y) :=
  ((h.count _ _ _ _).trace' _ _ _ _ _ _ _ _).sawOp _ _
theorem Seen.sawComplete {s t : State} (h : Seen s t) (x : OpCtx) : Seen s (t.sawComplete x) := (h.count _ _ _ _).trace' _ _ _ _ _ _ _ _

theorem Seen.sawBytes {s t : State} (h : Seen s t) (s0 : State) (p : Part) : Seen s (t.sawBytes s0 p) := by
  unfold State.sawBytes
  dsimp only
  exact h.ite (c := (t.reg64 (rPrtEncBytes p) - s0.reg64 (rPrtEncBytes p)).toNat == 0)
    ((h.workGrp p 0xFFFFFFFF#32).count 6 (some p) (t.workGrp p 0xFFFFFFFF#32).1 (t.reg64 (rPrtEncBytes p) - s0.reg64 (rPrtEncBytes p)).toNat)

theorem Seen.sawMoves {s t : State} (h : Seen s t) (s0 : State) : Seen s (t.sawMoves s0) :=
  Seen.fold _ (fun _ _ _ k => k.trace' _ _ _ _ _ _ _ _) _ h

/-- Everything that is seen of a command. -/
theorem observe_seen (s s0 : State) : Seen s (s.observe s0) := by
  have h1 := Seen.fold (s := s) (fun (s : State) d =>
    if (s.sd[d]).step != (s0.sd[d]).step || ((s.sd[d]).st != (s0.sd[d]).st && (s0.sd[d]).st == .waiting) then s.sawBeat d else s)
    (fun s t d k => (k.trace' _ _ _ _ _ _ _ _).ite k) (List.finRange 4) (Seen.refl s)
  have h2 := fun l => Seen.fold (s := s) (fun (s : State) y =>
    match s0.ctxs.find? (fun x => x.seq == y.seq) with
    | some x => if x == y then s else s.sawOp x y
    | none => s.sawDispatch y) (fun s t y k => by
      split
      · exact k.ite (k.sawOp _ _)
      · exact k.sawDispatch _) l h1
  have h3 := fun l => Seen.fold (s := s) (fun (s : State) x => if s.ctxs.any (fun y => y.seq == x.seq) then s else s.sawComplete x)
    (fun s t x k => k.ite (k.sawComplete _)) s0.ctxs (h2 l)
  have h4 := fun l => Seen.fold (s := s) (fun (s : State) p => s.sawMisses s0 p) (fun _ _ p k => k.sawMisses s0 p) (List.finRange 16) (h3 l)
  have h5 := fun l => (Seen.fold (s := s) (fun (s : State) p => s.sawBytes s0 p) (fun _ _ p k => k.sawBytes s0 p) (List.finRange 16) (h4 l)).sawMoves s0
  unfold State.observe
  dsimp only
  generalize List.finRange 16 = l16 at h4 h5 ⊢
  split
  · exact h4 _
  · exact h5 _

/-- A register outside the loupe's is untouched. -/
theorem State.reg_observe {s s0 : State} {o : Nat} (h : noteReg o = false) : (s.observe s0).reg o = s.reg o := (observe_seen s s0).reg o h
theorem State.rf_observe {s s0 : State} {o lo len : Nat} (h : noteReg o = false) : (s.observe s0).rf o lo len = s.rf o lo len := by
  simp [State.rf, State.reg_observe h]
theorem State.rb_observe {s s0 : State} {o i : Nat} (h : noteReg o = false) : (s.observe s0).rb o i = s.rb o i := by
  simp [State.rb, State.reg_observe h]


@[simp] theorem State.observe_pending (s s0 : State) : (s.observe s0).pending = s.pending := by rw [(observe_seen s s0).rest]
@[simp] theorem State.observe_time (s s0 : State) : (s.observe s0).time = s.time := by rw [(observe_seen s s0).rest]
@[simp] theorem State.observe_aonBefore (s s0 : State) : (s.observe s0).aonBefore = s.aonBefore := by rw [(observe_seen s s0).rest]
@[simp] theorem State.observe_resp (s s0 : State) : (s.observe s0).resp = s.resp := by rw [(observe_seen s s0).rest]
@[simp] theorem State.observe_mem (s s0 : State) : (s.observe s0).mem = s.mem := by rw [(observe_seen s s0).rest]
@[simp] theorem State.observe_pairLatch (s s0 : State) : (s.observe s0).pairLatch = s.pairLatch := by rw [(observe_seen s s0).rest]
@[simp] theorem State.observe_pairHold (s s0 : State) : (s.observe s0).pairHold = s.pairHold := by rw [(observe_seen s s0).rest]
@[simp] theorem State.observe_sd (s s0 : State) : (s.observe s0).sd = s.sd := by rw [(observe_seen s s0).rest]
@[simp] theorem State.observe_rings (s s0 : State) : (s.observe s0).rings = s.rings := by rw [(observe_seen s s0).rest]
@[simp] theorem State.observe_ctxs (s s0 : State) : (s.observe s0).ctxs = s.ctxs := by rw [(observe_seen s s0).rest]
@[simp] theorem State.observe_nextSeq (s s0 : State) : (s.observe s0).nextSeq = s.nextSeq := by rw [(observe_seen s s0).rest]
@[simp] theorem State.observe_parts (s s0 : State) : (s.observe s0).parts = s.parts := by rw [(observe_seen s s0).rest]
@[simp] theorem State.observe_objIds (s s0 : State) : (s.observe s0).objIds = s.objIds := by rw [(observe_seen s s0).rest]
@[simp] theorem State.observe_objs (s s0 : State) : (s.observe s0).objs = s.objs := by rw [(observe_seen s s0).rest]
@[simp] theorem State.observe_strands (s s0 : State) : (s.observe s0).strands = s.strands := by rw [(observe_seen s s0).rest]
@[simp] theorem State.observe_lockets (s s0 : State) : (s.observe s0).lockets = s.lockets := by rw [(observe_seen s s0).rest]
@[simp] theorem State.observe_threads (s s0 : State) : (s.observe s0).threads = s.threads := by rw [(observe_seen s s0).rest]
@[simp] theorem State.observe_scratch (s s0 : State) : (s.observe s0).scratch = s.scratch := by rw [(observe_seen s s0).rest]
@[simp] theorem State.observe_vgs (s s0 : State) : (s.observe s0).vgs = s.vgs := by rw [(observe_seen s s0).rest]
@[simp] theorem State.observe_imem (s s0 : State) : (s.observe s0).imem = s.imem := by rw [(observe_seen s s0).rest]
@[simp] theorem State.observe_ctrlSram (s s0 : State) : (s.observe s0).ctrlSram = s.ctrlSram := by rw [(observe_seen s s0).rest]
@[simp] theorem State.observe_fabLate (s s0 : State) : (s.observe s0).fabLate = s.fabLate := by rw [(observe_seen s s0).rest]
@[simp] theorem State.observe_fabCut (s s0 : State) : (s.observe s0).fabCut = s.fabCut := by rw [(observe_seen s s0).rest]
@[simp] theorem State.observe_sidLog (s s0 : State) : (s.observe s0).sidLog = s.sidLog := by rw [(observe_seen s s0).rest]
@[simp] theorem State.observe_reportAddr (s s0 : State) : (s.observe s0).reportAddr = s.reportAddr := by rw [(observe_seen s s0).rest]
@[simp] theorem State.observe_chans (s s0 : State) : (s.observe s0).chans = s.chans := by rw [(observe_seen s s0).rest]
@[simp] theorem State.observe_profile (s s0 : State) : (s.observe s0).profile = s.profile := by rw [(observe_seen s s0).rest]
@[simp] theorem State.observe_indexOk (s s0 : State) : (s.observe s0).indexOk = s.indexOk := by rw [(observe_seen s s0).rest]
@[simp] theorem State.observe_indexAt (s s0 : State) : (s.observe s0).indexAt = s.indexAt := by rw [(observe_seen s s0).rest]
@[simp] theorem State.observe_indexImg (s s0 : State) : (s.observe s0).indexImg = s.indexImg := by rw [(observe_seen s s0).rest]
@[simp] theorem State.observe_refillAt (s s0 : State) : (s.observe s0).refillAt = s.refillAt := by rw [(observe_seen s s0).rest]
@[simp] theorem State.observe_lastRing (s s0 : State) : (s.observe s0).lastRing = s.lastRing := by rw [(observe_seen s s0).rest]
@[simp] theorem State.observe_capture (s s0 : State) : (s.observe s0).capture = s.capture := by rw [(observe_seen s s0).rest]
@[simp] theorem State.observe_bootRec (s s0 : State) : (s.observe s0).bootRec = s.bootRec := by rw [(observe_seen s s0).rest]
@[simp] theorem State.observe_snap (s s0 : State) : (s.observe s0).snap = s.snap := by rw [(observe_seen s s0).rest]
@[simp] theorem State.observe_snapOk (s s0 : State) : (s.observe s0).snapOk = s.snapOk := by rw [(observe_seen s s0).rest]
@[simp] theorem State.observe_faults (s s0 : State) : (s.observe s0).faults = s.faults := by rw [(observe_seen s s0).rest]
@[simp] theorem State.observe_boot (s s0 : State) : (s.observe s0).boot = s.boot := by rw [(observe_seen s s0).rest]
@[simp] theorem State.observe_flash (s s0 : State) : (s.observe s0).flash = s.flash := by rw [(observe_seen s s0).rest]
@[simp] theorem State.observe_spi (s s0 : State) : (s.observe s0).spi = s.spi := by rw [(observe_seen s s0).rest]
@[simp] theorem State.observe_port (s s0 : State) : (s.observe s0).port = s.port := by rw [(observe_seen s s0).rest]
@[simp] theorem State.observe_fuses (s s0 : State) : (s.observe s0).fuses = s.fuses := by rw [(observe_seen s s0).rest]
@[simp] theorem State.observe_chnOut (s s0 : State) : (s.observe s0).chnOut = s.chnOut := by rw [(observe_seen s s0).rest]
@[simp] theorem State.observe_peerOut (s s0 : State) : (s.observe s0).peerOut = s.peerOut := by rw [(observe_seen s s0).rest]
@[simp] theorem State.observe_lastAt (s s0 : State) : (s.observe s0).lastAt = s.lastAt := by rw [(observe_seen s s0).rest]
@[simp] theorem State.observe_enumHeld (s s0 : State) : (s.observe s0).enumHeld = s.enumHeld := by rw [(observe_seen s s0).rest]
@[simp] theorem State.observe_mailOut (s s0 : State) : (s.observe s0).mailOut = s.mailOut := by rw [(observe_seen s s0).rest]
@[simp] theorem State.observe_wrAt (s s0 : State) : (s.observe s0).wrAt = s.wrAt := by rw [(observe_seen s s0).rest]
@[simp] theorem State.observe_wrOld (s s0 : State) : (s.observe s0).wrOld = s.wrOld := by rw [(observe_seen s s0).rest]
@[simp] theorem State.observe_chnWait (s s0 : State) : (s.observe s0).chnWait = s.chnWait := by rw [(observe_seen s s0).rest]
@[simp] theorem State.observe_wdogAt (s s0 : State) : (s.observe s0).wdogAt = s.wdogAt := by rw [(observe_seen s s0).rest]
@[simp] theorem State.observe_pair (s s0 : State) : (s.observe s0).pair = s.pair := by rw [(observe_seen s s0).rest]
@[simp] theorem State.observe_wlog (s s0 : State) : (s.observe s0).wlog = s.wlog := by rw [(observe_seen s s0).rest]
@[simp] theorem State.observe_vseg (s s0 : State) : (s.observe s0).vseg = s.vseg := by rw [(observe_seen s s0).rest]
@[simp] theorem State.observe_ests (s s0 : State) : (s.observe s0).ests = s.ests := by rw [(observe_seen s s0).rest]
@[simp] theorem State.observe_raisedAt (s s0 : State) : (s.observe s0).raisedAt = s.raisedAt := by rw [(observe_seen s s0).rest]
@[simp] theorem State.observe_coolAt (s s0 : State) : (s.observe s0).coolAt = s.coolAt := by rw [(observe_seen s s0).rest]
@[simp] theorem State.observe_waking (s s0 : State) : (s.observe s0).waking = s.waking := by rw [(observe_seen s s0).rest]
@[simp] theorem State.observe_sleeping (s s0 : State) : (s.observe s0).sleeping = s.sleeping := by rw [(observe_seen s s0).rest]
@[simp] theorem State.observe_domLog (s s0 : State) : (s.observe s0).domLog = s.domLog := by rw [(observe_seen s s0).rest]
@[simp] theorem State.observe_units (s s0 : State) : (s.observe s0).units = s.units := by rw [(observe_seen s s0).rest]
@[simp] theorem State.observe_traceBase (s s0 : State) : (s.observe s0).traceBase = s.traceBase := by rw [(observe_seen s s0).rest]
@[simp] theorem State.observe_traceSlots (s s0 : State) : (s.observe s0).traceSlots = s.traceSlots := by rw [(observe_seen s s0).rest]
@[simp] theorem State.observe_tapIr (s s0 : State) : (s.observe s0).tapIr = s.tapIr := by rw [(observe_seen s s0).rest]
@[simp] theorem State.observe_tapDr (s s0 : State) : (s.observe s0).tapDr = s.tapDr := by rw [(observe_seen s s0).rest]
@[simp] theorem State.observe_tapRes (s s0 : State) : (s.observe s0).tapRes = s.tapRes := by rw [(observe_seen s s0).rest]
@[simp] theorem State.observe_access (s s0 : State) : (s.observe s0).access = s.access := by rw [(observe_seen s s0).rest]
@[simp] theorem State.observe_accessAt (s s0 : State) : (s.observe s0).accessAt = s.accessAt := by rw [(observe_seen s s0).rest]
@[simp] theorem State.observe_rdBytes (s s0 : State) (a n : Nat) : (s.observe s0).rdBytes a n = s.rdBytes a n := by simp [State.rdBytes, State.rd8]
@[simp] theorem State.observe_ctx? (s s0 : State) (c : Ctx) : (s.observe s0).ctx? c = s.ctx? c := by simp [State.ctx?]
@[simp] theorem State.observe_strand? (s s0 : State) (p : Part) (i : Word) : (s.observe s0).strand? p i = s.strand? p i := by simp [State.strand?]
@[simp] theorem State.observe_locket? (s s0 : State) (p : Part) (i : Word) : (s.observe s0).locket? p i = s.locket? p i := by simp [State.locket?]

/-! ### Commands of the running instance -/

/-- A member that is no secondary leaves what a command writes (R620). -/
theorem State.ownWrites_of_role {s t : State} (h : s.rf rGlbPairStat 30 2 ≠ 2) : t.ownWrites s = t := by
  unfold State.ownWrites; rw [if_pos]; simp [h]
/-- So does a member in no pair. -/
theorem State.role_of_unpaired {s : State} (h : s.paired = false) : s.rf rGlbPairStat 30 2 ≠ 2 := by
  intro k; simp [State.paired, State.role, k] at h
/-- A command that writes no chip memory is left as it is. -/
theorem State.ownWrites_same {s t : State} (h : t.mem = s.mem) : t.ownWrites s = t := by
  unfold State.ownWrites; rw [if_pos]; simp [h]
/-- What a secondary leaves out is chip memory alone. -/
theorem State.ownWrites_rest (s t : State) : t.ownWrites s = { t with mem := (t.ownWrites s).mem } := by
  unfold State.ownWrites; dsimp only; split <;> rfl

/-- A command of the running instance answers its effect, as seen; a secondary leaves no shared write. -/
theorem run_running {s : State} (f : State → State) (h : s.running = true) : run f s = .next (((f s).ownWrites s).observe s) := by simp [run, h, next]
/-- A command of a running instance in no pair answers its effect, as seen. -/
theorem run_single {s : State} (f : State → State) (h : s.running = true) (hp : s.paired = false) : run f s = .next ((f s).observe s) := by
  rw [run_running f h, State.ownWrites_of_role (State.role_of_unpaired hp)]
/-- A command of the AON domain, while the instance runs. -/
theorem runAon_running {s : State} (f : State → State) (h : s.running = true) : runAon f s = .next (((f s).ownWrites s).observe s) := by simp [runAon, h, next]
/-- Outside the running instance a command of the AON domain has its effect, unseen. -/
theorem runAon_held {s : State} (f : State → State) (h : s.running = false) : runAon f s = .next (f s) := by simp [runAon, h, next]
/-- Held in reset, in boot or in PAIR_ISO the block takes no other command. -/
theorem run_held {s : State} (f : State → State) (h : s.running = false) : run f s = .next s := by simp [run, h, next]

end Sys2Proof.Machine
end

