-- ==== Sys2Proof/Laws/Pages.lean ====
section
/-! SUPPORT. Sys2Proof/Laws/Pages.lean: pages can be taken while enough are free, whatever page a free value chooses, admission gives
slot and pages when no check fails, and a park finds its place in the warm park while it fits and gives the strand's pages back. -/
namespace Sys2Proof.Machine
open Sys2Proof

/-- Inserting adds at most one element. -/
theorem natInsert_length_le (l : List Nat) (a : Nat) : (natInsert l a).length ≤ l.length + 1 := by
  induction l with
  | nil => simp [natInsert]
  | cons b t ih => unfold natInsert; split <;> (try split) <;> simp_all

/-- Among more numbers from `k` on than a list holds, taken modulo a larger `n`, one is not in the list. -/
theorem exists_not_mem_of_lt (l : List Nat) (k n : Nat) (h : l.length < n) :
    ∃ i ∈ List.range (l.length + 1), l.contains ((k + i) % n) = false := by
  by_contra hc
  push Not at hc
  have hn : ((List.range (l.length + 1)).map (fun i => (k + i) % n)).Nodup := by
    refine List.Nodup.map_on ?_ List.nodup_range
    intro a ha b hb he
    simp only [List.mem_range] at ha hb
    have h1 : (k + a) % n = (k + b) % n := he
    have h2 : a % n = b % n := Nat.ModEq.add_left_cancel' k h1
    rw [Nat.mod_eq_of_lt (by omega), Nat.mod_eq_of_lt (by omega)] at h2
    exact h2
  have hs : ((List.range (l.length + 1)).map (fun i => (k + i) % n)) ⊆ l := by
    intro x hx
    obtain ⟨i, hi, rfl⟩ := List.mem_map.mp hx
    have := hc i hi
    simpa using this
  have := (hn.subperm hs).length_le
  simp at this

/-- One page can be taken while one is free, and at most one less is free then. -/
theorem takePage_of_free (s : State) (p : Part) (h : 0 < s.freePages p) :
    ∃ a t, s.takePage p = some (a, t) ∧ s.freePages p ≤ t.freePages p + 1 := by
  have hl : (s.parts[p]).used.length < s.poolPages p := by unfold State.freePages at h; omega
  obtain ⟨i, hi, hc⟩ := exists_not_mem_of_lt (s.parts[p]).used (Config.freeNat s.freeCtr % s.poolPages p) (s.poolPages p) hl
  have hf : ((List.range ((s.parts[p]).used.length + 1)).find?
      (fun i => !(s.parts[p]).used.contains ((Config.freeNat s.freeCtr % s.poolPages p + i) % s.poolPages p))).isSome = true := by
    rw [List.find?_isSome]
    exact ⟨i, hi, by rw [hc]; rfl⟩
  obtain ⟨j, hj⟩ := Option.isSome_iff_exists.mp hf
  have he : s.takePage p = some ((Config.freeNat s.freeCtr % s.poolPages p + j) % s.poolPages p,
      ({ s with freeCtr := s.freeCtr + 1 } : State).partUpd p (fun x => { x with
        used := natInsert x.used ((Config.freeNat s.freeCtr % s.poolPages p + j) % s.poolPages p) })) := by
    simp only [State.takePage, State.freeBelow, Nat.pos_iff_ne_zero.mp h, beq_iff_eq, if_false, hj]
  refine ⟨_, _, he, ?_⟩
  have := natInsert_length_le (s.parts[p]).used ((Config.freeNat s.freeCtr % s.poolPages p + j) % s.poolPages p)
  simp only [State.freePages, State.poolPages, State.rf, State.reg, State.partUpd, vset, Fin.getElem_fin, Vector.getElem_set_self] at *
  omega

/-- `n` pages can be taken while `n` are free. -/
theorem takePages_of_free (p : Part) : ∀ (n : Nat) (s : State), n ≤ s.freePages p → ∃ l t, s.takePages p n = some (l, t)
  | 0, s, _ => ⟨[], s, rfl⟩
  | n + 1, s, h => by
    obtain ⟨a, t, ha, hf⟩ := takePage_of_free s p (by omega)
    obtain ⟨l, u, hl⟩ := takePages_of_free p n t (by omega)
    exact ⟨a :: l, u, by simp only [State.takePages, ha, hl]⟩

/-- Admission gives a slot and the pages asked for when no check of R174 fails. -/
theorem admit_of_check (s : State) (p : Part) (d : Dom) (pages cost : Nat) (h : s.admitCheck p d pages cost = none)
    (hp : pages + s.rf (rPrtAdmitCfg p) 0 16 ≤ s.freePages p) : ∃ slot l t, s.admitSession p d pages cost = .ok slot l t := by
  have hq : pages ≤ (s.takeSlot p).2.freePages p := by
    simp only [State.takeSlot, State.freeBelow, State.freePages, State.poolPages, State.rf, State.reg] at *
    omega
  obtain ⟨l, t, hl⟩ := takePages_of_free p pages (s.takeSlot p).2 hq
  refine ⟨(s.takeSlot p).1, l, t, ?_⟩
  have hn : ¬ s.freePages p < pages + s.rf (rPrtAdmitCfg p) 0 16 := by omega
  simp only [State.admitSession, hn, decide_false, Bool.and_false, Bool.false_eq_true, if_false, h, hl]

/-- `n` bytes fit somewhere in the warm park beside the copies there (R451, R465). -/
def State.warmFits (s : State) (n : Nat) : Bool :=
  let base := s.warmArea.1
  let stop := base + s.warmArea.2
  let ex := s.warmExtents ++ []
  (base :: ex.map (·.2)).any (fun a => base ≤ a && a + n ≤ stop && ex.all (fun e => a + n ≤ e.1 || e.2 ≤ a))

/-- A place among those that pass a test, chosen by any number, is one of them. -/
theorem pick_of_any {α β : Type} (l : List α) (f : α → Bool) (g : α → β) (k : Nat) (h : l.any f = true) :
    ∃ a, ((l.filter f)[k % max 1 (l.filter f).length]?).map g = some (g a) := by
  have hp : 0 < (l.filter f).length := by
    obtain ⟨a, ha, hb⟩ := List.any_eq_true.mp h
    exact List.length_pos_of_mem (List.mem_filter.mpr ⟨ha, hb⟩)
  have hk : k % max 1 (l.filter f).length < (l.filter f).length := by
    have := Nat.mod_lt k (show 0 < max 1 (l.filter f).length by omega)
    omega
  exact ⟨_, by rw [List.getElem?_eq_getElem hk, Option.map_some]⟩

theorem warmAlloc_of_fits (s : State) (n : Nat) (h : s.warmFits n = true) :
    ∃ a, s.warmAlloc [] n = some (a, { s with freeCtr := s.freeCtr + 1 }) := by
  unfold State.warmFits at h
  simp only [State.warmAlloc, State.freeBelow]
  generalize s.warmArea = w at h ⊢
  exact pick_of_any _ _ (fun a => (a, ({ s with freeCtr := s.freeCtr + 1 } : State))) (Config.freeNat s.freeCtr) h

/-- The same for the places of one copy. -/
theorem warmPlaces_of_fits (s : State) (n : Nat) (h : s.warmFits n = true) :
    ∃ a, s.warmPlaces n 1 [] = some ([a], { s with freeCtr := s.freeCtr + 1 }) := by
  obtain ⟨a, ha⟩ := warmAlloc_of_fits s n h
  refine ⟨a, ?_⟩
  rw [State.warmPlaces, ha]
  simp only [State.warmPlaces, List.nil_append, List.map_cons, List.map_nil]

/-- What fits leaves room for less. -/
theorem warmFits_mono (s : State) {m n : Nat} (h : m ≤ n) (hn : s.warmFits n = true) : s.warmFits m = true := by
  simp only [State.warmFits, List.any_eq_true, List.all_eq_true, Bool.and_eq_true, Bool.or_eq_true, decide_eq_true_eq] at *
  obtain ⟨a, ha, ⟨h1, h2⟩, h3⟩ := hn
  exact ⟨a, ha, ⟨h1, by omega⟩, fun e he => by have := h3 e he; omega⟩

/-- `leBytes` gives as many bytes as are asked for. -/
@[simp] theorem leBytes_length (n : Nat) : ∀ v, (leBytes n v).length = n := by
  induction n with
  | zero => intro v; rfl
  | succ n ih => intro v; rw [leBytes, List.length_cons, ih]

/-- Journal records change neither registers nor strands nor partitions. -/
theorem jAppendAll_keeps (s : State) (p : Part) (r : JRecord) : (s.jAppendAll p r).regs = s.regs ∧
    (s.jAppendAll p r).strands = s.strands ∧ (s.jAppendAll p r).parts = s.parts := by
  have hj : ∀ (l : List Chan) (u : State), (l.foldl (fun s c => s.jAppend c { r with part := p }) u).regs = u.regs ∧ 
     (l.foldl (fun s c => s.jAppend c { r with part := p }) u).strands = u.strands ∧ (l.foldl (fun s c => s.jAppend c { r with part := p }) u).parts = u.parts := by
    intro l
    induction l with
    | nil => intro u; exact ⟨rfl, rfl, rfl⟩
    | cons c l ih => intro u; rw [List.foldl_cons]; exact ih (u.jAppend c { r with part := p })
  exact hj _ s

/-- A partition after an update of a partition. -/
theorem partUpd_at (s : State) (p q : Part) (f : PartState → PartState) : 
    ((s.partUpd p f).parts[q]) = if p = q then f (s.parts[p]) else s.parts[q] := by
  simp only [State.partUpd, vset, Fin.getElem_fin, Vector.getElem_set]
  by_cases hq : p = q
  · subst hq; simp
  · simp [hq, Fin.val_ne_of_ne hq]

/-- Copies written to chip memory change nothing that a byte written does not change. -/
theorem foldl_wrBytes_keeps {α : Type} (π : State → α) (h : ∀ s a b, π (State.wr8 s a b) = π s) (img : List Byte) : 
    ∀ (l : List Nat) (s : State), π (l.foldl (fun s a => s.wrBytes a img) s) = π s
  | [], _ => rfl
  | a :: l, s => by rw [List.foldl_cons, foldl_wrBytes_keeps π h img l]; exact State.wrBytes_keep π h img s a

/-- A member in no pair is assigned no value. -/
theorem assigned_of_unpaired {s : State} (h : s.paired = false) (k : Nat) (p : Part) : s.assigned k p = none := by
  simp only [State.paired, State.role, Bool.or_eq_false_iff] at h
  simp [State.assigned, h.1, h.2]

/-- A new generation of a member in no pair changes no register and no strand. -/
theorem nextGen_keeps (s : State) (p : Part) (h : s.paired = false) : (s.nextGen p).2.regs = s.regs ∧ (s.nextGen p).2.strands = s.strands ∧
    (s.nextGen p).2.parts = (s.partUpd p (fun x => { x with gen := (s.parts[p]).gen + 1#64 })).parts := by
  simp only [State.nextGen, assigned_of_unpaired h, State.raiseGen]
  split
  · exact jAppendAll_keeps _ p _
  · exact ⟨rfl, rfl, rfl⟩

/-- Page stall stays as it is where there is none and no strand would enter it. -/
theorem evalStall_keeps (s : State) (p : Part) (hs : (s.parts[p]).stall = []) (hn : ∀ u ∈ s.strands, u.stalled = false) :
    (s.evalStall p).regs = s.regs ∧ ((s.evalStall p).parts[p]).used = (s.parts[p]).used := by
  have hf : s.strands.filter (fun t => t.part == p && t.stalled && !([] : List Word).contains t.session) = [] := by
    rw [List.filter_eq_nil_iff]; intro u hu; simp [hn u hu]
  simp only [State.evalStall, hs, hf, List.filter_nil, List.map_nil, List.append_nil, List.isEmpty_nil, Bool.not_true, Bool.and_false, Bool.false_eq_true, if_false, Bool.false_and]
  exact ⟨rfl, by rw [partUpd_at]; simp⟩

/-- A park of a strand to one warm copy, in a partition without page stall, leaves the registers as they are and gives the strand's pages
back. -/
theorem storePark_of_fits (s : State) (t : Strand) (x : ParkTerms) (key : KeySlot) (h0 : s.paired = false) (hf : s.parkFault t.part false x = .ok key)
    (hr : s.warmRoom t.part (1 * (64 + (s.locketBody t).length)) = true) (hp : s.warmFits (64 + (s.locketBody t).length) = true)
    (hs : (s.parts[t.part]).stall = []) (hn : ∀ u ∈ s.strands, u.stalled = false) :
    ∃ id len s1, s.storePark t false false x = .done id len s1 ∧ s1.regs = s.regs ∧
      (s1.parts[t.part]).used = (s.parts[t.part]).used.filter (fun i => !t.pages.contains i) := by
  obtain ⟨a, ha⟩ := warmPlaces_of_fits s _ hp
  suffices h : ∀ r, r = s.storePark t false false x → ∃ id len s1, r = .done id len s1 ∧ s1.regs = s.regs ∧
      (s1.parts[t.part]).used = (s.parts[t.part]).used.filter (fun i => !t.pages.contains i) from h _ rfl
  intro r hr'
  simp only [State.storePark, hf, hr, ha, Bool.false_eq_true, if_false, Bool.not_true] at hr'
  refine ⟨_, _, _, hr', ?_⟩
  clear hr'
  rw [State.releaseStrand]
  generalize hu : State.freePageList _ t.part t.pages = u
  obtain ⟨g1, g2, g3⟩ := nextGen_keeps { s with freeCtr := s.freeCtr + 1 } t.part h0
  have h0 : u.parts = (((s.partUpd t.part (fun x => { x with gen := (s.parts[t.part]).gen + 1#64 })).partUpd t.part
      (fun y => { y with parkSeq := y.parkSeq + 1 })).partUpd t.part
      (fun x => { x with used := x.used.filter (fun i => !t.pages.contains i) })).parts := by
    subst hu
    simp only [State.freePageList, State.strandDel, State.partUpd, State.addLocket,
      foldl_wrBytes_keeps (·.parts) (fun _ _ _ => rfl), g3]
  have h1 : u.strands = s.strands.filter (fun x => !(x.part == t.part && x.session == t.session)) := by
    subst hu
    simp only [State.freePageList, State.strandDel, State.partUpd, State.addLocket,
      foldl_wrBytes_keeps (·.strands) (fun _ _ _ => rfl), g2]
  have h2 : u.regs = s.regs := by
    subst hu
    simp only [State.freePageList, State.strandDel, State.partUpd, State.addLocket,
      foldl_wrBytes_keeps (·.regs) (fun _ _ _ => rfl), g1]
  have h3 : u.parts[t.part] =
      { (s.parts[t.part]) with
        gen := (s.parts[t.part]).gen + 1#64
        parkSeq := (s.parts[t.part]).parkSeq + 1
        used := (s.parts[t.part]).used.filter (fun i => !t.pages.contains i) } := by
    rw [h0]; simp only [partUpd_at, if_pos]
  obtain ⟨k1, k2⟩ := evalStall_keeps u t.part (by rw [h3]; exact hs) (fun x hx => hn x (by rw [h1] at hx; exact (List.mem_filter.mp hx).1))
  exact ⟨k1.trans h2, k2.trans (by rw [h3])⟩

end Sys2Proof.Machine
end

