-- ==== Sys2Proof/Machine/Flags.lean ====
section
/-! DEFINITION. Sys2Proof/Machine/Flags.lean: the interrupt, flow-control and voltage outputs at the boundary (R64, R83, R86, R93, R439,
R560, R643, R645, R646, R655, R662), and what the pads of a flash channel hold (R472, R645, R646). -/
namespace Sys2Proof.Machine
open Sys2Proof

/-- Outputs of the FCLK domain are live: the block is not held in reset (R645). -/
def State.outLive (s : State) : Bool := s.boot.phase != .held

/-- PLW_IRQ[p]: held at 0 by the secondary of a formed pair (R83, R93, R646). -/
def State.plwIrq (s : State) (p : Part) : Bool := s.outLive && s.role != 2 && s.rb rCfgBootStat 31 && s.irqPart p

/-- PLW_FC_XOFF[p] (R86, R646). -/
def State.plwFcXoff (s : State) (p : Part) : Bool := s.outLive && s.role != 2 && s.rb rCfgBootStat 31 && s.fcXoff p

/-- Any flag of one register that its enable register lets through. -/
def State.anyEnabledFlag (s : State) (flags en n : Nat) : Bool := (s.rf flags 0 n &&& s.rf en 0 n) != 0

/-- PLW_IRQ_GLB: step-domain events and the loupe's watermark (R64, R662). -/
def State.plwIrqGlb (s : State) : Bool :=
  s.outLive && (s.anyEnabledFlag rGlbSdEvt rGlbSdEvtEn 16 || (s.rb rLpeTraceStat 30 && s.rb rLpeTraceCtrl 29))

/-- PLW_IRQ_ERR: the FAIL state, fabric errors, lasting faults and the thermal trip (R439, R560, R643, R655). -/
def State.plwIrqErr (s : State) : Bool :=
  s.outLive && (s.rb rCfgBootStat 29 || s.anyEnabledFlag rGlbFabErr rGlbFabErrEn 4 || s.anyEnabledFlag rGlbFltStat rGlbFltEn 8 ||
    (s.rb rGlbTemp 30 && s.rb rGlbTemp 29))

/-- PLW_VSEG_REQ and PLW_VSEG_CODE of a segment (R649, R650). -/
def State.plwVsegReq (s : State) (g : Fin 17) : Bool := (s.vseg[g]).req
def State.plwVsegCode (s : State) (g : Fin 17) : Nat := (s.vseg[g]).code

/-- The outputs of a flash channel are at their reset state: it is absent or offline, or the park controller is off or held in reset (R646). -/
def State.flashIdle (s : State) (c : Chan) : Bool := !s.outLive || !s.domOn 69 || !(s.chans[c]).online
/-- WP_n of a channel: 0 except while the park controller programs or erases there (R646). -/
def State.wpN (s : State) (c : Chan) : Bool :=
  !s.flashIdle c && (s.chans[c]).dies.toList.any (fun d => d.jobs.any (fun j => match j with | .read .. => false | _ => true))

end Sys2Proof.Machine
end

