-- ==== Sys2Proof/WellFormed.lean ====
section
/-! DEFINITION. Sys2Proof/WellFormed.lean: the limits a command's operands obey beyond their types. -/
namespace Sys2Proof

/-- Is the CSR offset that of an aligned 32-bit word (R6)? -/
def csrAligned (off : CsrOff) : Bool := off.toNat % 4 == 0

/-- The operand limits that the types do not give. -/
def Instr.wf : Instr → Bool
  | .pairLoRead a => a.off.toNat % 8 == 0
  | .pairHiRead a => a.off.toNat % 8 == 4
  | .pairLoWrite a _ => a.off.toNat % 8 == 0
  | .pairHiWrite a _ => a.off.toNat % 8 == 4
  | .counterReadClear a => csrAligned a.off
  | .bootSequence strap _ _ _ => strap.length == 8
  | _ => true

end Sys2Proof
end

