-- ==== Sys2Proof/Tests/Slice0.lean ====
section
/-! SUPPORT. Sys2Proof/Tests/Slice0.lean: ill-formed terms that WellFormed refuses, single steps against values of the spec, and for every
statement of Certificates/Slice0/Obligations.lean a state and operands that meet its hypotheses. -/
namespace Sys2Proof.Tests
open Sys2Proof Machine Claims
set_option Elab.async false

/-! ### Small states -/

/-- The block after boot: DONE is set. -/
def up : State := { State.reset with regs := [(rCfgBootStat, 0x80000000#32)] }
/-- The state a command ends in. -/
def after (c : Instr) (s : State) : State := match exec c s with | .next t => t | _ => s

/-- A thread and a program of 16 bytes of code, with a budget of 1000, 256 bytes of WORK and the role given. -/
def thr : Thread := ⟨0, 0, 0⟩
def progHdr (role : Nat) : List Byte :=
  List.replicate 32 0#8 ++ leBytes 4 role ++ leBytes 4 0 ++ leBytes 4 1000 ++ leBytes 4 0 ++ leBytes 4 256 ++ List.replicate 76 0#8
def progCode : List Byte := leBytes 4 0xFC000000 ++ leBytes 4 0x04611000 ++ leBytes 4 0 ++ leBytes 4 0
def prog (role : Nat) : ObjVersion :=
  { part := 0, id := 1#32, ver := 1, kind := 5, keySel := 0, hdr := progHdr role, digest := 0#128
    sects := [⟨secCode, 0, progCode⟩, ⟨secData, 0, List.replicate 64 0#8⟩], live := true }
/-- The call's program and binding: no vocabulary. -/
def env (role : Nat) : BEnv := ⟨1#32, progHdr role, progCode, List.replicate 64 0#8, none, false⟩
/-- The block with thread `t` inside a call of that program. -/
def call (role : Nat) (t : BeadThread) : State :=
  { up with objs := [prog role], threads := [(thr, { t with prog := some ⟨1#32, 1⟩, st := .running })] }

theorem witness_in_call : InCall (call 3 {}) thr (env 3) ∧ Room (call 3 {}) thr (env 3) 100 := by unfold InCall Room; decide

/-- Partition 0 with 1 MiB of chip memory, ring pair 0 in MEMORY mode, cluster group 0 and an event ring. -/
def home : State :=
  { State.reset with
    regs := [(rCfgBootStat, 0x80000000#32), (rPrtEvqBase 0, 0x1000#32), (rPrtEvqCfg 0, 0x80000000#32),
      (rPrtCfgCtrlMir 0, 0x80000000#32), (rPrtCfgGroupsMir 0, 1#32), (rPrtCfgRingsMir 0, 1#32), (rPrtCfgMemBaseMir 0 0, 3#32),
      (rPrtCfgMemSizeMir 0 0, 16#32), (rPrtSqBase 0, 0x2000#32), (rPrtCqBase 0, 0x3000#32), (rPrtRingCfg 0, 0x80060800#32)]
    rings := Vector.replicate 64 { sqBase := 0x2000#64, cqBase := 0x3000#64 } }
/-- Every ring pair as a change of ring pair 0 gives it. -/
def rings (s : State) (f : RingPair → RingPair) : State := { s with rings := Vector.replicate 64 (f s.rings[(0 : Ring)]) }
/-- The block as the secondary of a pair, and as the primary. -/
def second (s : State) : State := s.setReg rGlbPairStat 0x80000000#32
def first (s : State) : State := s.setReg rGlbPairStat 0x40000000#32
theorem home_roles : home.role = 0 ∧ (first home).role = 1 ∧ (second home).role = 2 ∧ (second home).ignores .host (rPrtSqTail 0) = true ∧
    (second home).ignores .host (rPrtPush 0 3) = true ∧ (second home).ignores .host (rPrtPush 0 15) = true ∧
    home.ignores .host (rPrtSqTail 0) = false ∧ home.ignores .host (rPrtPush 0 3) = false ∧ home.ignores .host (rPrtPush 0 15) = false ∧
    (second home).canon ∧ (first home).canon := by unfold State.canon; decide
theorem home_canon : home.canon := by unfold State.canon; decide
theorem home_run : home.running = true := by decide
theorem home_own : home.ringOwner 0 = some 0 := by decide
theorem home_mem : home.memOk 0 0xFFFC0 64 true = true := by decide

/-! ### Bead instructions (O1 to O23) -/

/-- A thread with an address in x1 and 64 in x2. -/
def at1 (a : DWord) : BeadThread := ({} : BeadThread).wx 1#5 a |>.wx 2#5 64#64
/-- The same with WORK lines 0 written and 1 poisoned, and a part of CALL at offset 0. -/
def atW (a : DWord) : BeadThread := { at1 a with workTags := [0], poison := [1], parts := [⟨0, 64, true⟩] }
/-- The window of x1's address in a call of that thread. -/
def winOf (t : BeadThread) (k : Nat) (wr : Bool) : Option Win := findWin (env 3) t (t.rx 1#5) k wr

/-- O1 to O3, O6, O8, O10, O11, O14, O16, O17, O20. -/
theorem witness_beads : InCall (call 3 {}) thr (env 3) ∧ Room (call 3 {}) thr (env 3) 1000 ∧ ¬ Room (call 3 {}) thr (env 3) 1001 := by
  unfold InCall Room; decide
/-- O3. -/
theorem witness_floats : fpIsNaN 0x7F800001#32 = true ∧ fpIsNaN 0xFFC00000#32 = true ∧ fpEq 0#32 0x80000000#32 = true := by decide
/-- O4: the last address of one window, and the first of the next. -/
theorem witness_windows : winOf (at1 0xFFF#64) 1 true = some (.loc 0xFFF) ∧ winOf (at1 0x1000#64) 1 true = none ∧
    winOf (at1 0xFFF#64) 2 true = none ∧ winOf (at1 0x20000FF#64) 1 true = some (.work 255) ∧ winOf (at1 0x2000100#64) 1 true = none ∧
    winOf (at1 0x1000003F#64) 1 false = some (.obj 63) ∧ winOf (at1 0x10000040#64) 1 false = none := by decide
/-- O5, O7: an address for each clause of loads and of stores. -/
theorem witness_loads : winOf (atW 0x1000#64) 4 false = none ∧ winOf (atW 2#64) 4 false = some (.loc 2) ∧
    winOf (atW 0x1000000#64) 64 false = some (.call 0 ⟨0, 64, true⟩) ∧ winOf (atW 0x10000000#64) 64 false = some (.obj 0) ∧
    winOf (atW 0x2000000#64) 8 false = some (.work 0) ∧ winOf (atW 0x2000040#64) 8 false = some (.work 64) ∧
    winOf (atW 0x2000080#64) 8 false = some (.work 128) ∧ (atW 0#64).gets = [] ∧ (atW 0#64).strict = false ∧
    winOf (atW 0x10000000#64) 64 true = none := by decide
theorem witness_mem_window : findWin (env 3) { rng := home.ranges 0 } 0x80000000000FFFC0#64 64 false = some (.mem 0xFFFC0) := by decide
/-- O8, O9: targets from the middle of CODE. -/
theorem witness_jumps : (0 : Int) ≤ (4 : Nat) + 4 * (0xFFFF#16).toInt ∧ (0 : Int) ≤ (4 : Nat) + 4 * (0x1FFFFF#21).toInt ∧
    (env 3).code.length = 16 ∧ ((at1 12#64).rx 1#5).toNat % 4 = 0 ∧ ((at1 13#64).rx 1#5).toNat % 4 = 1 := by decide
/-- O12, O13: a call with no vocabulary and no base; a base in OBJ; an address that is none. -/
theorem witness_no_vocabulary : (env 3).voc = none ∧ ({} : BeadThread).dfaBase = none ∧ ({} : BeadThread).trieBase = none ∧
    baseBytes (env 3) {} 0 = none ∧ (baseBytes (env 3) {} 0x10000000).isSome = true := by decide
/-- A vocabulary of one live token, "a", with a trie of one root, no merges and a NORM record. -/
def vocObj : ObjVersion :=
  { part := 0, id := 2#32, ver := 1, kind := 1, keySel := 0, hdr := List.replicate 32 0#8 ++ leBytes 4 2 ++ leBytes 4 2 ++ List.replicate 88 0#8, digest := 0#128
    sects := [⟨secTrie, 0, leBytes 4 8 ++ leBytes 4 0xFFFFFFFF ++ leBytes 4 0 ++ leBytes 4 0xFFFFFFFF ++ List.replicate 24 0#8⟩,
      ⟨secNorm, 0, List.replicate 64 0#8⟩], live := true, liveBits := 3 }
/-- The program bound to that vocabulary, its thread at the trie's root. -/
def callV : State :=
  { call 2 { trieBase := some 0x10000000, dfaBase := some 0x10000000, x := (at1 8#64).x } with
    objs := [{ prog 2 with binds := [⟨2#32, 1⟩] }, vocObj] }
def envV : BEnv := (callV.benv 0 ⟨1#32, 1⟩).getD (env 2)
theorem witness_vocabulary : InCall callV thr envV ∧ Room callV thr envV 9 ∧ envV.voc.isSome = true ∧
    (trieBytes envV (callV.thread thr)).isSome = true ∧
    nodeInside envV.data 8 = true ∧ nodeInside envV.data 60 = false ∧ 8 + 16 ≤ envV.data.length ∧
    leAt envV.data 16 4 + 2 * (8 * dfaClasses envV.data + dfaClass envV.data 64) + 2 ≤ envV.data.length ∧
    (envV.voc.bind (fun v => sect? v.base secNorm)).isSome = true := by unfold InCall Room; decide
/-- O13: a character of four bytes, with as many present and with more. -/
theorem witness_utf : isScalar 0x10FFFF = true ∧ (utfEnc 0x10FFFF).length = 4 ∧ 0xBFBF8FF4 % 2 ^ 32 = leNat (utfEnc 0x10FFFF) := by decide
/-- O14: both ends of BRUN. -/
theorem witness_brun : ((at1 0#64).rx 1#5).toNat ≤ ((at1 0#64).rx 2#5).toNat ∧ ((at1 0#64).rx 2#5).toNat ≤ 512 := by decide
/-- O15: a GET of one line from OBJ to WORK, of a thread with none and with four in flight. -/
theorem witness_get : winOf (at1 0x20000C0#64) 64 true = some (.work 192) ∧
    findWin (env 3) {} 0x10000000#64 64 false = some (.obj 0) ∧ ((at1 0#64).rx 2#5).toNat % 64 = 0 ∧ (at1 0#64).gets.length < 4 ∧
    4 ≤ ({ at1 0#64 with gets := [⟨0, 0, 0x10000000, 64⟩, ⟨1, 64, 0x10000000, 64⟩, ⟨2, 128, 0x10000000, 64⟩, ⟨3, 192, 0x10000000, 64⟩] }
      : BeadThread).gets.length ∧
    ([⟨0, 0, 0x10000000, 64⟩, ⟨1, 64, 0x10000000, 64⟩] : List GetOp).find? (fun h => h.tag == 1) = some ⟨1, 64, 0x10000000, 64⟩ := by decide
/-- O17: both roles, and the ends of the draw index. -/
theorem witness_rng : bROLE (env 3).hdr = 3 ∧ bROLE (env 2).hdr ≠ 3 ∧ ((at1 1#64).rx 1#5).toNat = 1 ∧ ((at1 65535#64).rx 1#5).toNat ≤ 65535 ∧
    65535 < ((at1 65536#64).rx 1#5).toNat := by decide
/-- The thread at byte `pc` with a count; one that encodes a piece of two units, with a result of one token or of too many. -/
def running (pc n : Nat) : BeadThread := { pc := pc, count := n }
def modelT (m : Nat) (left : List (List Nat)) : BeadThread :=
  { ({} : BeadThread).wx 1#5 (BitVec.ofNat 64 m) with job := some ⟨0, 0, 2, left, []⟩ }
/-- O18: a thread in no call; the word 0 is no instruction, and byte 16 is past the code; ADD stands at byte 4 and its cost does not fit a
count of 1000; pieces that a unit has left, with tokens that keep R386 and tokens that break it. -/
theorem witness_ends : (up.thread thr).inCall = false ∧ ({} : BeadThread).job = none ∧ InCall (call 3 (running 8 0)) thr (env 3) ∧
    beadDecode (codeWord (env 3).code 8) = none ∧ (env 3).code.length ≤ 16 ∧ InCall (call 3 (running 4 1000)) thr (env 3) ∧
    4 < (env 3).code.length ∧
    (match beadDecode (codeWord (env 3).code 4) with
     | some op => (match op (call 3 (running 4 1000)) (env 3) (running 4 1000) with | .ok _ c => decide (bCYCLES (env 3).hdr < 1000 + c) | _ => false)
     | none => false) = true ∧
    InCall callV thr envV ∧ modelExit 2 2 (modelT 1 [[0, 0]]) 0#5 = some [0] ∧ modelExit 2 2 (modelT 100 [[0, 0]]) 0#5 = none ∧
    modelExit 2 2 (modelT 1 [[0, 0]]) 1#5 = none ∧ (modelT 1 []).job = some ⟨0, 0, 2, [], []⟩ := by
  unfold InCall; decide
/-- O19: no fault latched, and one latched. -/
theorem witness_fault : up.canon ∧ up.running = true ∧ up.rb (rPrtBeadFault 0) 31 = false ∧ ({} : BeadThread).uninit = 0 ∧ bROLE (env 3).hdr < 8 ∧
    (up.setReg (rPrtBeadFault 0) 0x80000000#32).rb (rPrtBeadFault 0) 31 = true ∧ (up.setReg (rPrtBeadFault 0) 0x80000000#32).canon := by
  unfold State.canon; decide
/-- O23. -/
theorem witness_bead_frame : beadOf (.fence thr) = some thr ∧ beadOf (.getComplete thr 3) = some thr := by decide

/-! ### The block, step domains and rings (O24 to O39) -/

/-- O25. -/
theorem witness_canon : State.reset.canon ∧ up.canon ∧ home.canon := by unfold State.canon; decide
/-- O29: each of the four resets may act. -/
theorem witness_resets : up.canon ∧ up.running = true ∧
    (fld 0xA5000001#32 24 8 == 0xA5 && bit 0xA5000001#32 0 && (up.rb rCfgBootStat 31 || up.rb rCfgBootStat 29 || up.rb rGlbPairStat 29)) = true := by
  unfold State.canon; decide
/-- All four domains as given, at an AON time. -/
def doms (x : StepDomain) (t : Nat) : State := { home with sd := Vector.replicate 4 x, time := t }
/-- O30, O31: the edges of MINSPACE, of the measured period and of the watchdog time. -/
theorem witness_beats : (doms { st := .beat } 2000).canon ∧ (doms { st := .beat } 2000).running = true ∧
    (doms { st := .beat } 0).spaceNow 0 = 2000 ∧ (doms { st := .beat } 0).wdogNow 0 = 500000 ∧ home.ignores .host (rGlbSdWdog 0) = false ∧ ((doms { st := .timer } 0).reg (rGlbSdPeriod 0)).toNat = 2000000 ∧
    (doms { st := .beat } 0).rf (rGlbSdWdog 0) 0 20 * 100 = 50000000 ∧ ((doms { level := true } 0).sd[(0 : Dom)]).level = true ∧
    ((doms { st := .waiting } 0).sd[(3 : Dom)]).st = .waiting ∧ ((doms { timerOnly := true } 0).sd[(1 : Dom)]).timerOnly = true := by
  unfold State.canon; decide
/-- O32: the first cycle of a stuck level, the last before it, and both levels of STUCK. -/
theorem witness_stuck : (let s := doms { st := .beat, level := true, riseAt := some 0 } 100001
    s.canon ∧ (s.sd[(0 : Dom)]).riseAt = some 0 ∧ (s.sd[(0 : Dom)]).level = true ∧ (s.sd[(0 : Dom)]).stuck = false ∧ 100000 < s.time - 0) ∧
    (doms { riseAt := some 0 } 100000).time - 0 ≤ 100000 ∧ ((doms { stuck := true } 0).sd[(0 : Dom)]).stuck = true := by
  unfold State.canon; decide
/-- O33: a domain that is off, and one that is on. -/
def sdOn : State := { up with regs := (rGlbSdCtrl 0, 0x80000000#32) :: up.regs, sd := Vector.replicate 4 { st := .beat } }
theorem witness_domains : sdOn.canon ∧ sdOn.running = true ∧ sdOn.rb (rGlbSdCtrl 0) 31 = true ∧ sdOn.ctxs.all (fun x => !x.pointIn 0) = true ∧
    up.rb (rGlbSdCtrl 0) 31 = false ∧ bit 0xC0000000#32 31 = true ∧ bit 0x40000000#32 31 = false := by unfold State.canon; decide
/-- An entry of 64 bytes from fields given as offset, bytes and value. -/
def entry (l : List (Nat × Nat × Nat)) : List Byte :=
  l.foldl (fun e x => e.take x.1 ++ leBytes x.2.1 x.2.2 ++ e.drop (x.1 + x.2.1)) (List.replicate 64 0#8)
/-- An op of partition 0 from ring pair 0, in context 0. -/
def op (l : List (Nat × Nat × Nat)) : OpCtx :=
  { id := 0, part := 0, ring := 0, index := 7#32, entry := entry l, seq := 1, st := .ready, bound := true, rng := [⟨0, 0x100000, true⟩] }
/-- The block with those ops, domain 0 in BEAT at step 5. -/
def withOps (l : List OpCtx) : State :=
  { home with ctxs := l, sd := Vector.replicate 4 { st := .beat, step := 5#40 }, nextSeq := 9 }
/-- O34: a STEP_BATCH on a doorbell, one on a point that is reached, and a PARK past its deadline; sixteen doorbells before. -/
theorem witness_points : (let x := op [(0, 1, opSTEP_BATCH)]; (withOps [x]).ctxs[0]? = some x ∧ x.index = 7#32 ∧ leAt x.entry 36 1 < 64) ∧
    (let x := op [(0, 1, opSTEP_BATCH), (36, 1, 64), (40, 8, 5)]; (withOps [x]).ctx? 0 = some x ∧ eOp x.entry = opSTEP_BATCH ∧
      leAt x.entry 36 1 / 64 = 1 ∧ (withOps [x]).reached (eDom x.entry) (BitVec.ofNat 64 (leAt x.entry 40 8)) = true) ∧
    (let x := op [(0, 1, opPARK), (1, 1, 0x80), (16, 8, 5)]; (withOps [x]).ctx? 0 = some x ∧ x.st ≠ .past ∧ eDlValid x.entry = true ∧
      (withOps [x]).reached (eDom x.entry) (eDeadline x.entry) = true ∧ eOp x.entry ∈ [opSESSION_CLOSE, opOBJECT_RETIRE, opPARK, opROLLBACK]) ∧
    (withOps []).running = true ∧ (withOps []).role ≠ 2 ∧ (second (withOps [])).running = true ∧ (second (withOps [])).role = 2 := by decide
/-- O35: a tail at the ring's size and one beyond it; an entry inside the ranges, and one outside. -/
def sqTail (t : Word) (base : DWord) : State := rings (home.setReg (rPrtSqTail 0) t) (fun x => { x with sqBase := base })
theorem witness_submission : (sqTail 3#32 0x2000#64).canon ∧ (sqTail 3#32 0x2000#64).running = true ∧ home.rb (rPrtRingCfg 0) 31 = true ∧
    (home.rings[(0 : Ring)]).mode = false ∧ home.ringOwner 0 = some 0 ∧ (16#32 - home.reg (rPrtSqHead 0)).toNat ≤ home.sqSlots 0 ∧
    home.sqSlots 0 < (17#32 - home.reg (rPrtSqHead 0)).toNat ∧ (home.rings[(0 : Ring)]).fetchStopped = false ∧
    (∀ i < 3, (sqTail 3#32 0x2000#64).memOk 0 ((sqTail 3#32 0x2000#64).sqAddr 0 (0#32 + BitVec.ofNat 32 i)) 64 false = true) ∧
    (sqTail 3#32 0x100000#64).memOk 0 ((sqTail 3#32 0x100000#64).sqAddr 0 0#32) 64 false = false := by unfold State.canon; decide
/-- A ring pair in PUSH mode with entries in its FIFO and held writes. -/
def pushing (n : Nat) (h : List Word) : State :=
  rings (home.setReg (rPrtRingCfg 0) 0xC0060800#32)
    (fun x => { x with mode := true, fifo := List.replicate n ⟨0#32, entry [(0, 1, opQUERY)]⟩, pushHeld := h })
/-- O36: a FIFO of 31, of 32, a held write and a ring that is not enabled. -/
theorem witness_push : (pushing 31 []).canon ∧ (pushing 31 []).running = true ∧ (pushing 31 []).pushMode 0 = true ∧
    (pushing 31 []).ringOn 0 = true ∧ ((pushing 31 []).rings[(0 : Ring)]).fifo.length < 32 ∧
    32 ≤ ((pushing 32 []).rings[(0 : Ring)]).fifo.length ∧ ((pushing 32 [5#32]).rings[(0 : Ring)]).pushHeld = [5#32] ∧
    (pushing 32 [5#32]).dispatchNext = some 0 ∧ (pushing 32 [5#32]).ringOwner 0 = some 0 ∧
    ((pushing 32 [5#32]).freeCtx opQUERY).isSome = true ∧ (second (pushing 31 [])).pushMode 0 = true ∧
    (up.setReg (rPrtRingCfg 0) 0x40060800#32).pushMode 0 = true ∧ (up.setReg (rPrtRingCfg 0) 0x40060800#32).ringOn 0 = false := by
  unfold State.canon; decide
/-- O37: a completion queue with one unread completion: heads at its size and beyond; the coalescing time reached, and not yet. -/
def unreadAt (t : Nat) : State :=
  { rings ((home.setReg (rPrtCqTail 0) 16#32).setReg (rPrtRingIrq 0) 0x01000001#32) (fun x => { x with unread := [0] }) with time := t }
theorem witness_completions : (unreadAt 100).running = true ∧ (16#32 - 0#32).toNat ≤ (unreadAt 100).cqSlots 0 ∧
    (unreadAt 100).cqSlots 0 < (16#32 - 17#32).toNat ∧ (unreadAt 100).ringOwner 0 = some 0 ∧
    max ((unreadAt 100).rings[(0 : Ring)]).headAt 0 + (unreadAt 100).rf (rPrtRingIrq 0) 24 8 * 100 ≤ (unreadAt 100).time ∧
    (unreadAt 99).time < max ((unreadAt 99).rings[(0 : Ring)]).headAt 0 + (unreadAt 99).rf (rPrtRingIrq 0) 24 8 * 100 := by decide
/-- O38: a ring that is off and drained, one that is off and holds an entry, one that is on, and a flush of one entry. -/
theorem witness_ring_control : (up.rb (rPrtRingCfg 0) 31 = false ∧ up.drained 0 = true ∧ up.canon) ∧
    (let s : State := { up with rings := Vector.replicate 64 { fifo := [⟨0#32, []⟩] } }
     s.canon ∧ s.rb (rPrtRingCfg 0) 31 = false ∧ s.drained 0 = false) ∧
    (home.rb (rPrtRingCfg 0) 31 = true ∧ ((pushing 32 [5#32]).rings[(0 : Ring)]).pushHeld ≠ []) ∧
    (let s := rings home (fun x => { x with fifo := [⟨0#32, entry []⟩] })
     s.ringOwner 0 = some 0 ∧ s.cqOcc 0 < s.cqSlots 0 ∧ s.memOk 0 0x3000 32 true = true ∧ (entry []).length = 64 ∧
     (s.rings[(0 : Ring)]).cancelled = [] ∧ (s.rings[(0 : Ring)]).pushHeld = [] ∧ s.pushMode 0 = false) := by unfold State.canon; decide
/-- O39: an event ring that is off; one with room, and one that is full. -/
theorem witness_events : up.rb (rPrtEvqCfg 0) 31 = false ∧ (up.parts[(0 : Part)]).reportDue = false ∧
    (home.rb (rPrtEvqCfg 0) 31 = true ∧ (home.reg (rPrtEvqTail 0) - home.reg (rPrtEvqHead 0)).toNat < 2 ^ 4 ∧
      home.memOk 0 0x1000 32 true = true) ∧
    (let s := home.setReg (rPrtEvqTail 0) 16#32
     s.canon ∧ ¬ (s.reg (rPrtEvqTail 0) - s.reg (rPrtEvqHead 0)).toNat < 2 ^ 4 ∧ (s.reg (rPrtEvqTail 0) - 0#32).toNat ≤ 2 ^ 4 ∧
       2 ^ 4 < (s.reg (rPrtEvqTail 0) - 0xFFFFFFFF#32).toNat) := by unfold State.canon; decide

/-! ### Ops, sessions, text and objects (O40 to O44) -/

/-- Partition 0 with clusters, six banks of cluster 0, a pool of 128 pages, 4 strand slots, a quota for objects and a vocabulary; domain 0 in
BEAT. -/
def host : State :=
  { [10, 11, 12, 13, 14, 15].foldl (fun s (b : Fin 16) => s.setReg (rCluBankOwn 0 b) 0#32) (((((((home.setReg rPwrDomStat 1#32).setReg rGlbCluMap 0xF#32).setReg (rPrtPoolCfg 0) 128#32).setReg (rPrtStrandCfg 0) 4#32).setReg (rPrtStrandBase 0) 0x50000#32).setReg
      (rPrtPoolBase 0) 0x60000#32).setReg (rPrtObjQuota 0) 0x00020202#32) with
    sd := Vector.replicate 4 { st := .beat, step := 5#40 }, objs := [vocObj], nextSeq := 9 }
/-- With ops. -/
def ops (l : List OpCtx) : State := { host with ctxs := l }
/-- A resident strand of session 1 with three tokens, the first two its prompt. -/
def str1 : Strand :=
  { part := 0, session := 1#32, slot := 0, domain := 0, home := 0, account := 0, vocab := ⟨2#32, 1⟩, hist := [0, 1, 1], promptLen := 2
    steps := 1#40, dirPage := 0, sidePage := 1, histPages := [2] }
/-- With that strand. -/
def opsS (l : List OpCtx) : State := { ops l with strands := [str1] }

/-- O40: an entry to dispatch and a bad one; an op to be ready, one behind a PARTITION clasp, a STEP_BATCH without logits; a completion to
write, and a completion queue that is full. -/
theorem witness_op_life : (pushing 1 []).canon ∧ (pushing 1 []).running = true ∧ (pushing 1 []).dispatchNext = some 0 ∧
    (pushing 1 []).ringOwner 0 = some 0 ∧ ((pushing 1 []).freeCtx opQUERY).isSome = true ∧ entryBad (entry [(0, 1, 0xFF)]) = true ∧
    (∀ o ∈ [opPARK, opPREFILL, opQUERY, opREVIVE], let x := { op [(0, 1, o), (4, 4, 1)] with st := .queued }
     (opsS [x]).ctx? 0 = some x ∧ (opsS [x]).quiescing x = false ∧ (opsS [x]).clasped x = false ∧ (opsS [x]).exclWaits x = false ∧
     (opsS [x]).reserveWaits x = false ∧ (opsS [x]).groupOwner (cluGrp str1.home) = some x.part) ∧
    (let x := { op [(0, 1, opREVIVE), (4, 4, 1)] with st := .queued }
     let l : Locket := { part := 0, session := 1#32, id := 1#64, gen := 1#64, epoch := 0#32, image := [], body := [], pages := 0, binds := [], moving := true }
     let s : State := { ops [x] with lockets := [l] }
     s.ctx? 0 = some x ∧ s.locket? x.part (eSession x.entry) = some l ∧ l.moving = true ∧ s.clasped x = false ∧ s.exclWaits x = false) ∧
    (let y := { op [(0, 1, opSPEC_VERIFY), (4, 4, 1)] with id := 1, st := .queued }
     let z := { op [(0, 1, opSPEC_VERIFY), (4, 4, 2)] with st := .queued, seq := 2 }
     ({ opsS [z, y] with strands := [str1, { str1 with session := 2#32 }] } : State).reserveWaits z = true) ∧
    (let x := { op [(0, 1, opPARK)] with st := .queued, seq := 2 }
     let c := { op [(0, 1, opCLASP), (24, 1, 2)] with id := 1, st := .queued }
     (ops [x, c]).clasped x = true) ∧
    (let x := { op [(0, 1, opSTEP_BATCH)] with st := .queued }; eOp x.entry = opSTEP_BATCH ∧ x.logits = false) ∧
    (let x := { op [(0, 1, opQUERY)] with st := .past, status := some stOk }
     (ops [x]).cqOcc 0 < (ops [x]).cqSlots 0 ∧ rangesCover x.rng 0x3000 32 true = true ∧ x.entry.length = 64 ∧
     (∀ v ∈ (ops [x]).objs, v.live = true ∧ ((ops [x]).objId? v.part v.id).isNone = true)) ∧
    ((ops []).setReg (rPrtCqTail 0) 16#32).cqSlots 0 ≤ ((ops []).setReg (rPrtCqTail 0) 16#32).cqOcc 0 := by unfold State.canon; decide
/-- O41: a clasp of each kind named, with and without an op before it; QUERY of an op, of none, of a session; CANCEL and ABORT of an op
before and after its commit point; BUDGET_SET. -/
theorem witness_control : (opsS []).canon ∧ Alone (opsS []) ∧
    (let x := op [(0, 1, opCLASP), (24, 1, 3)]; ReadyOp (opsS [x]) 0 opCLASP x ∧ leAt x.entry 24 1 % 4 = 3) ∧
    (let x := op [(0, 1, opCLASP)]; ReadyOp (opsS [x]) 0 opCLASP x ∧ leAt x.entry 24 1 % 4 = 0 ∧
      (∀ y ∈ (opsS [x]).ctxs, y.ring = x.ring → y.seq < x.seq → y.status.isSome = true) ∧
      (let y := { op [] with id := 1, seq := 0 }; ReadyOp (opsS [x, y]) 0 opCLASP x ∧ y.ring = x.ring ∧ y.seq < x.seq ∧ y.status = none)) ∧
    (let x := { op [(0, 1, opQUERY), (28, 4, 7)] with index := 8#32 }
     let y := { op [(0, 1, opPARK)] with id := 1 }
     ReadyOp (opsS [x, y]) 0 opQUERY x ∧ leAt x.entry 24 1 = 0 ∧ (opsS [x, y]).target 0 (tgtRing x.entry) (eWord x.entry 28) = some y ∧
       y.st ≠ .queued ∧ (opsS [x]).target 0 (tgtRing x.entry) (eWord x.entry 28) = none) ∧
    (let x := op [(0, 1, opQUERY), (24, 1, 1), (4, 4, 1)]; ReadyOp (opsS [x]) 0 opQUERY x ∧ leAt x.entry 24 1 = 1 ∧
      (opsS [x]).strand? 0 (eSession x.entry) = some str1) ∧
    (let x := { op [(0, 1, opCANCEL), (28, 4, 7)] with index := 8#32 }
     let y := { op [(0, 1, opPARK)] with id := 1, st := .queued }
     ReadyOp (opsS [x, y]) 0 opCANCEL x ∧ (opsS [x, y]).target 0 (abortRing x.entry) (eWord x.entry 28) = some y ∧
       (leAt x.entry 25 1).testBit 0 = false ∧ isControl (eOp y.entry) = false ∧ eOp y.entry ≠ opOBJECT_LOAD) ∧
    (let x := op [(0, 1, opBUDGET_SET), (24, 2, 4095)]; ReadyOp (opsS [x]) 0 opBUDGET_SET x ∧
      (opsS [x]).memOk 0 ((opsS [x]).acctAddr 0 (leAt x.entry 24 2 % 4096)) 32 true = true) := by
  unfold State.canon Alone ReadyOp; decide
/-- O41: ABORT of an op that is ready, one that reads, and of ops past their commit points, with and without a status byte. -/
theorem witness_abort :
    (let x := { op [(0, 1, opABORT), (28, 4, 7)] with index := 8#32 }
     let y := { op [(0, 1, opPARK)] with id := 1 }
     ReadyOp (opsS [x, y]) 0 opABORT x ∧ (opsS [x, y]).target 0 (abortRing x.entry) (eWord x.entry 28) = some y ∧
       y.reading = false ∧ y.segs = none ∧ y.encFault = none ∧
       (let z := { op [(0, 1, opREVIVE)] with id := 1, reading := true }
        (opsS [x, z]).target 0 (abortRing x.entry) (eWord x.entry 28) = some z) ∧
       (∀ o ∈ [opPARK, opSTEP_BATCH, opMASK_BATCH, opSPEC_VERIFY], let z := { op [(0, 1, o)] with id := 1, st := .past, status := some stOk }
        (opsS [x, z]).target 0 (abortRing x.entry) (eWord x.entry 28) = some z ∧ (statusByte z.entry).isSome = (o != opPARK))) := by
  unfold ReadyOp; decide
/-- O42, O47: admission of a new session. -/
theorem witness_admission : ∃ slot l t, (ops [{ op [(0, 1, opSESSION_OPEN), (4, 4, 1)] with binds := [⟨2#32, 1⟩] }]).admitSession 0 0
    (admitPages 0 false 0 0) ((ops []).stepCost 0 none none 2) = .ok slot l t := admit_of_check _ _ _ _ _ (Option.isNone_iff_eq_none.mp (by decide)) (by decide)
/-- O42: an open that passes admission, one of an ID in use, one refused; a close of a resident, of a parked and of no session; a rollback to
the prompt, beyond both ends, and of no session. -/
theorem witness_sessions :
    (let x := { op [(0, 1, opSESSION_OPEN), (4, 4, 1)] with binds := [⟨2#32, 1⟩] }
     ReadyOp (ops [x]) 0 opSESSION_OPEN x ∧ (ops [x]).idTaken 0 (eSession x.entry) = none ∧ x.openBinds = (some ⟨2#32, 1⟩, none, none, none) ∧
     ((opsS [x]).strand? 0 (eSession x.entry)).isSome = true ∧
     (({ ops [x] with parts := Vector.replicate 16 { stall := [9#32] } } : State).parts[(0 : Part)]).stall ≠ []) ∧
    (let x := op [(0, 1, opSESSION_CLOSE), (4, 4, 1)]
     let l : Locket := { part := 0, session := 1#32, id := 1#64, gen := 1#64, epoch := 0#32, image := [], body := [], pages := 0, binds := [] }
     ReadyOp (opsS [x]) 0 opSESSION_CLOSE x ∧ (opsS [x]).strand? 0 (eSession x.entry) = some str1 ∧
     (ops [x]).strand? 0 (eSession x.entry) = none ∧ (ops [x]).locket? 0 (eSession x.entry) = none ∧
     ({ ops [x] with lockets := [l] } : State).locket? 0 (eSession x.entry) = some l) ∧
    (let x := fun n => op [(0, 1, opROLLBACK), (4, 4, 1), (24, 4, n)]
     ReadyOp (opsS [x 2]) 0 opROLLBACK (x 2) ∧ (opsS [x 2]).strand? 0 (eSession (x 2).entry) = some str1 ∧
     str1.promptLen ≤ leAt (x 2).entry 24 4 ∧ leAt (x 3).entry 24 4 ≤ str1.hist.length ∧ str1.hist.length < leAt (x 4).entry 24 4 ∧
     leAt (x 1).entry 24 4 < str1.promptLen ∧ ((opsS [x 2]).voc 0 str1.vocab str1.ovl).isSome = true ∧ str1.cp = none ∧
     leAt (x 2).entry 24 4 % 1024 ≠ 0 ∧ (ops [x 2]).strand? 0 (eSession (x 2).entry) = none) := by
  unfold ReadyOp; decide
/-- Segments of an encode: one that has ended with a token, one that waits, one that runs. -/
def segEnd : EncSeg := { start := 0, stop := 1, pieces := [(none, 0, [⟨97, 0, 1⟩])], st := .ended, toks := [(1, 0, false)] }
def segWait : EncSeg := { start := 0, stop := 1, pieces := [(none, 0, [⟨97, 0, 1⟩])] }
def segRun : EncSeg := { segWait with st := .running thr }
/-- O43: ENCODE with its units ended and not, with room and without; ENCODE_APPEND; the issue and the end of a unit; DECODE, PREFILL_CHUNKS
and HASH_BLOCKS. -/
theorem witness_text : (ops []).canon ∧ Alone (ops []) ∧
    (let x := fun r => { op [(0, 1, opENCODE), (40, 8, 0x8000), (48, 4, r)] with binds := [⟨2#32, 1⟩], segs := some [segEnd] }
     ReadyOp (ops [x 68]) 0 opENCODE (x 68) ∧ ((ops [x 68]).encVoc (x 68)).isSome = true ∧ (x 68).encFault = none ∧
     (∀ g ∈ [segEnd], g.st = .ended) ∧ leAt (x 68).entry 52 1 % 16 < 2 ∧ 64 + 4 * 1 ≤ leAt (x 68).entry 48 4 ∧
     leAt (x 67).entry 48 4 < 64 + 4 * 1 ∧ 0x8000 + 68 ≤ 2 ^ 64 ∧ (∃ g ∈ [segEnd, segWait], g.st ≠ .ended)) ∧
    (let x := { op [(0, 1, opENCODE_APPEND), (4, 4, 1)] with segs := some [segEnd] }
     ReadyOp (opsS [x]) 0 opENCODE_APPEND x ∧ (opsS [x]).strand? 0 (eSession x.entry) = some str1 ∧
     (str1.hist.length + 1 + 1023) / 1024 ≤ str1.histPages.length + str1.sparePages.length ∧
     (let t := { str1 with histPages := [] }
      let s : State := { ops [x] with strands := [t], parts := Vector.replicate 16 { used := List.range 128 } }
      s.strand? 0 (eSession x.entry) = some t ∧ (s.stepPages 0 t.session 1).1 = none ∧ (s.stepPages 0 t.session 1).2.ctx? 0 = some x)) ∧
    (let x := { op [(0, 1, opENCODE)] with binds := [⟨2#32, 1⟩], segs := some [segWait] }
     ((ops [x]).unitThreads 0).length < (ops [x]).encSlots 0 ∧ (ops [x]).unitOp 0 = some x ∧ (ops [x]).ctx? x.id = some x ∧ x.nextUnit = some 0 ∧
     x.model = none ∧ ((ops [x]).freeBeads 0).isEmpty = false) ∧
    (home.encSlots 0 ≤ ({ home with ctxs := [{ op [] with segs := some [segRun] }] }.unitThreads 0).length) ∧
    (let x := { op [(0, 1, opENCODE)] with binds := [⟨2#32, 1⟩], segs := some [segRun] }
     (ops [x]).ctx? 0 = some x ∧ x.model = none ∧ x.faultSeg = none ∧ (x.segs.getD [])[0]? = some segRun ∧ ((ops [x]).encVoc x).isSome = true ∧ segRun.st = .running thr ∧
     ((ops [x]).thread thr).st = .idle ∧ ((ops [x]).thread thr).job = none) := by
  unfold State.canon Alone ReadyOp; decide +kernel
theorem witness_text_out :
    (let x := { op [(0, 1, opDECODE), (24, 8, 0x8000), (32, 4, 0), (40, 8, 0x9000), (48, 4, 4)] with binds := [⟨2#32, 1⟩] }
     ReadyOp (ops [x]) 0 opDECODE x ∧ ((ops [x]).encVoc x).isSome = true ∧ (ops [x]).rdToks 0x8000 0 = []) ∧
    (let x := fun b => op [(0, 1, opPREFILL), (24, 8, 0x8000), (32, 4, 5), (36, 4, b), (40, 8, 0x9000), (48, 4, 160)]
     ReadyOp (ops [x 2]) 0 opPREFILL (x 2) ∧ leAt (x 2).entry 24 8 ≠ 0 ∧ 0 < leAt (x 1).entry 36 4 ∧ 64 + 32 * ((5 + 2 - 1) / 2) ≤ 160 ∧
     leAt (entry [(0, 1, opPREFILL)]) 24 8 = 0 ∧ (x 2).hist = none) ∧
    (let x := { op [(0, 1, opPREFILL), (4, 4, 1), (36, 4, 2), (40, 8, 0x9000), (48, 4, 204)] with hist := some [0, 1, 1] }
     ReadyOp (opsS [x]) 0 opPREFILL x ∧ leAt x.entry 24 8 = 0 ∧ (64 + 32 * ((3 + 2 - 1) / 2) + 63) / 64 * 64 + 4 * 3 ≤ leAt x.entry 48 4 ∧
     leAt x.entry 40 8 + leAt x.entry 48 4 ≤ 2 ^ 64) ∧
    (let x := { op [(0, 1, opHASH_BLOCKS), (24, 8, 0x8000), (32, 4, 16), (56, 8, 0x9000)] with akey := some 1#256 }
     ReadyOp (ops [x]) 0 opHASH_BLOCKS x ∧ x.akey = some 1#256 ∧ (leAt x.entry 37 1).testBit 0 = false ∧ x.table = none ∧
     0 < hashBlockLen (leAt x.entry 36 1 % 4) ∧ hashBlockLen (leAt x.entry 36 1 % 4) ≤ 16) := by
  unfold ReadyOp; decide
/-- O43: an append of one token to a strand that has all the tokens there may be, in pages enough: it needs no page, and is too long. -/
theorem witness_too_long : ∃ t : Strand, (let x := { op [(0, 1, opENCODE_APPEND), (4, 4, 1)] with segs := some [segEnd] }
    let s : State := { ops [x] with strands := [t] }
    ReadyOp s 0 opENCODE_APPEND x ∧ s.strand? 0 (eSession x.entry) = some t ∧ s.stepPages 0 (eSession x.entry) 0 = (some [], s)) ∧
    1048576 < t.hist.length + 1 ∧ (t.hist.length + 1 + 1023) / 1024 - t.histPages.length - t.sparePages.length = 0 := by
  obtain ⟨h, hh⟩ : ∃ h : List Nat, h.length = 1048576 := ⟨List.replicate 1048576 0, List.length_replicate⟩
  obtain ⟨p, hp⟩ : ∃ p : List Nat, p.length = 1025 := ⟨List.replicate 1025 0, List.length_replicate⟩
  refine ⟨{ str1 with hist := h, histPages := p }, ⟨⟨rfl, rfl, rfl⟩, rfl, rfl⟩, by simp only [hh]; decide, by simp only [hh, hp, str1]; decide⟩

/-! ### Objects, steps and masks (O44 to O46) -/

/-- A parameter block: SEED 0, TEMP 0, TOPP and REP 1.0, and flags. -/
def parms (flags : Nat) : List Byte :=
  let e := List.replicate 256 0#8
  [(12, 0x3F800000), (24, 0x3F800000), (48, flags)].foldl (fun e x => e.take x.1 ++ leBytes 4 x.2 ++ e.drop (x.1 + 4)) e
/-- A run-ahead result that allows every live token. -/
def raAll : RunAhead := { record := 0xFFFFFFFE#32 }
/-- The strand with a parameter block and a run-ahead result. -/
def str2 (flags : Nat) : Strand := { str1 with params := parms flags, ra := some raAll }
def opsR (t : Strand) (l : List OpCtx) : State := { ops l with strands := [t] }
/-- A STEP_BATCH with one item for session 1, its row at 0x8000, its output at 0x9000. -/
def stepOp (i : BatchItem) : OpCtx := { op [(0, 1, opSTEP_BATCH), (48, 8, 0x9000)] with items := [i] }
def stepItem : BatchItem :=
  { session := 1#32, bytes := leBytes 4 1 ++ leBytes 1 0x20 ++ List.replicate 3 0#8 ++ leBytes 4 3 ++ leBytes 4 0 ++ leBytes 8 0x8000 ++
      List.replicate 8 0#8, reserved := true }
/-- The image under asset key 5 of a bead program for role 3: a header, one section of four ADD words. -/
def planImage : List Byte :=
  leBytes 48 0xa7fc98fef4509d2b22f436d1537a15f9000000000000000000000000000000000000000000000000000000d000000501 ++
  leBytes 48 0xffdcaa219e863924e39f818e150484fc808a61a2acdb0d125bc813bbd10a8fbc00000000000000000000000000000000 ++
  leBytes 48 0x11b5f484b7ca9711d6b2acca24903082938f4d58e0858b96222bdebc4dbd15d422c0adad1a05a58d497896bf393bc3ea ++
  leBytes 48 0x86bc39424d388eebd195b156042b8e0e6f07f6af0b1187d5db3b1464edbb4480b8dae113909a10231a51744b26b20ef1 ++
  leBytes 48 0xd24c57d076edddc69a807f1e4ecea1bfba6abb7c0f004fc0303263d067e0a5f09768e37d51b0d40abd5e74caa0724e1b ++
  leBytes 32 0xdb7025763af67a86aa0a45aabe9d67a86bfdbdea7be37a81d4595e8f07551399
/-- The load of an image at 0x8000, with room in the backing region and a quota. -/
def loadOp : OpCtx := { op [(0, 1, opOBJECT_LOAD), (24, 4, 9), (28, 1, 5), (32, 8, 0x8000), (40, 4, 272)] with akey := some 5#256 }
def loading (img : List Byte) (quota : Word) : State :=
  { (((ops [loadOp]).setReg (rPrtBeadQuota 0) quota).setReg (rPrtObjCfg 0) 4#32).setReg (rPrtBeadCallMax 0) 0x10000#32 with
    objIds := [{ part := 0, id := 9#32, kind := 5 }]
    mem := img.zipIdx.filterMap (fun x => if x.1 == 0#8 then none else some (0x8000 + x.2, x.1)) }
/-- Its plaintext. -/
def plan : List Byte :=
  [5#8, 1#8] ++ leBytes 2 1 ++ leBytes 4 208 ++ leBytes 16 0x4ef5e909b4bb994c54155f5e77c9fe53 ++ leBytes 4 128 ++ leBytes 4 0 ++ leBytes 4 3 ++ leBytes 4 0 ++
    leBytes 4 1000 ++ leBytes 84 0 ++ leBytes 4 0x50 ++ leBytes 4 192 ++ leBytes 4 16 ++ leBytes 52 0 ++ leBytes 8 0x0461100004611000 ++
    leBytes 8 0x0461100004611000
/-- What O44 asks of a load of that plaintext. -/
def loads (s : State) : Bool :=
  match s.loadKind 0 5 (plan.take 128) (objSects plan) with
  | (.ok _ _ _ b1 b2, s1) => (s1.takeUnits 0 (unitsFor (plan.length + b1 + b2))).isSome
  | _ => false
/-- O44: the image opens to the plaintext, which keeps the envelope's rules. -/
theorem witness_image : openObject 5#256 5 planImage = some plan ∧ envelopeOk 5 plan = true := by decide +kernel
/-- O44: a load of that image, one past the quota, one of an image that does not open; a retire. -/
theorem witness_objects : (loading planImage 8#32).canon ∧ Alone (loading planImage 8#32) ∧
    (loading planImage 8#32).rdBytes 0x8000 272 = planImage ∧
    ReadyOp (loading planImage 8#32) 0 opOBJECT_LOAD loadOp ∧ ((loading planImage 8#32).objId? 0 9#32).isSome = true ∧
    (loading planImage 8#32).quotaOk 0 5 = true ∧ unitsFor (leAt planImage 4 4) ≤ 4 - ((loading planImage 8#32).backUsed 0).length ∧
    loads (loading planImage 8#32) = true ∧ (loading [] 0#32).quotaOk 0 5 = false ∧
    openObject 5#256 5 ((loading [] 8#32).rdBytes 0x8000 272) = none ∧
    (let x := op [(0, 1, opOBJECT_RETIRE), (24, 4, 2)]; ReadyOp (ops [x]) 0 opOBJECT_RETIRE x) := by
  unfold State.canon Alone ReadyOp; decide +kernel
/-- O45: the clauses of a step: all items ended and not; a row start on a strand and on none; a pass; a commit, and one that the grammar
rejects. -/
theorem witness_steps : (opsR (str2 0) []).canon ∧ Alone (opsR (str2 0) []) ∧
    (let x := stepOp { stepItem with phase := .done }; ReadyOp (opsR (str2 0) [x]) 0 opSTEP_BATCH x ∧ ∀ j ∈ x.items, j.phase = .done) ∧
    (let x := stepOp stepItem; let s := opsR (str2 0) [x]; let t := str2 0
     ReadyOp s 0 opSTEP_BATCH x ∧ x.items[0]? = some stepItem ∧ stepItem.phase = .waiting ∧ stepItem.begun = false ∧ stepItem.reserved = true ∧
     s.excluded 0 stepItem.session (some 0) = false ∧ s.strand? 0 stepItem.session = some t ∧ s.takes 0 t.home = true ∧
     s.workBefore t (s.opKey x) = false ∧ (s.pickShares t stepItem.row).isSome = true ∧
     ({ s with strands := [t, { t with session := 2#32, ra := none, raDue := true, lastStep := 0#64 }] } : State).workBefore t (s.opKey x) = true ∧
     s.itemFault x 0 stepItem = none ∧ t.ra = some raAll ∧ raAll.fault = none ∧
     (s.itemArgs x stepItem t raAll).mask ≠ [] ∧ stepItem.row.cand = false ∧ stHOOK ∉ rowStagesOf t.params ∧
     (ops [x]).strand? 0 stepItem.session = none) ∧
    (let t := str2 0
     let m : Samp := { m := 0#32, sAll := 0x3F800000#32, lse := fpNegInf, count := 2, ranks := [⟨0, 0#32⟩], listLen := 1 }
     let i : BatchItem := { stepItem with begun := true, samp := some m, ra := some raAll }
     let x := stepOp i
     ReadyOp (opsR t [x]) 0 opSTEP_BATCH x ∧ (opsR t [x]).strand? 0 i.session = some t ∧ i.draw = false ∧
     (match runCuts t.params m (x.maxPasses != 0 && decide (x.maxPasses ≤ m.passes)) with | .ok _ => true | _ => false) = true) ∧
    (let t := str2 0
     let i : BatchItem := { stepItem with phase := .drawn, drawn := some (noToken 0 0 1 0) }
     let x := stepOp i
     let e : Strand := { t with cp := some ⟨7#32, 1⟩, cpState := cpTerminal }
     let cp : ObjVersion := { part := 0, id := 7#32, ver := 1, kind := 4, keySel := 0, hdr := leBytes 128 0, digest := 0#128, sects := [], live := true }
     ReadyOp (opsR t [x]) 0 opSTEP_BATCH x ∧ x.items[0]? = some i ∧ ((opsR t [x]).voc 0 t.vocab t.ovl).isSome = true ∧
     ((opsR t [x]).walkCommit t 1).isSome = true ∧ t.ovfCount = 0 ∧ t.hist.length % 1024 ≠ 0 ∧
     ({ opsR e [x] with objs := [vocObj, cp] } : State).walkCommit e 1 = none) := by
  unfold State.canon Alone ReadyOp; decide +kernel
/-- A tree of one node in memory at 0x4000, and a verification of it. -/
def treed (t : Strand) (l : List OpCtx) : State :=
  ((opsR t l).wrBytes 0x4000 (leBytes 4 0xFFFFFFFF ++ leBytes 1 1)).wrBytes 0x4044 [255#8]
def verifyOp : OpCtx :=
  op [(0, 1, opSPEC_VERIFY), (4, 4, 1), (24, 8, 0x4000), (32, 1, 1), (33, 1, 0x20), (40, 8, 0x8000), (48, 8, 0x9000)]
/-- What O46 asks of a verification that commits a token. -/
def verifies (t : Strand) (s : State) : Bool :=
  let x := verifyOp
  let tree := s.readTree 0x4000 1
  let s0 := (s.ctxUpd 0 (fun y => { y with shares := [] })).bump64 (rPrtSpecDraft 0) 0
  let ms := s0.forkTree t tree x.mode
  match State.specWalk x t tree ms.1 17 0 [] ms.2 with
  | .ok (path, _, s2) =>
    match s2.voc 0 t.vocab t.ovl with
    | some voc =>
      match State.specApply voc ms.1.units (s2.sd[t.domain]).step.toNat (s2.phase t.domain) path t t.stack.length [] s2 with
      | (t', _, out, cut, s3) => (s0.specFault x t tree == none) && ms.1.all (fun y => y.2.res.fault == none) && cut == .none &&
          !out.isEmpty && s3.ctx? 0 == some x && s3.strand? 0 1#32 == some t && t'.part == 0 && t'.session == 1#32 &&
          (match assocFind ms.1 0 with | some m => !m.toks.isEmpty | none => false)
    | none => false
  | _ => false
/-- A mask item for session 1, its bytes from 4 on, with one slot at offset 128. -/
def maskItem (b : List Byte) : BatchItem :=
  { session := 1#32, bytes := leBytes 4 1 ++ b ++ leBytes 60 0, slots := 1, offset := 128, slotSz := 128 }
/-- O46: a MASK_BATCH of a plain item and of a tree; a verification of no session, without SPEC, and one that commits; a run-ahead that is due,
one that is held and one that is not due. -/
theorem witness_masks : (treed (str2 4) []).canon ∧ Alone (treed (str2 4) []) ∧
    (let i := maskItem (leBytes 4 0 ++ leBytes 4 3)
     let x := { op [(0, 1, opMASK_BATCH), (40, 8, 0x9000)] with items := [i] }
     let s := treed (str2 4) [x]
     ReadyOp s 0 opMASK_BATCH x ∧ i.isTree = false ∧ s.strand? 0 i.session = some (str2 4) ∧ (str2 4).ra = some raAll ∧
     s.maskItemFault x i (str2 4) = none) ∧
    (let i := maskItem (leBytes 1 1 ++ leBytes 3 1 ++ leBytes 4 3 ++ leBytes 12 0 ++ leBytes 8 0x4000)
     let x := { op [(0, 1, opMASK_BATCH), (40, 8, 0x9000)] with items := [i] }
     let s := treed (str2 4) [x]
     ReadyOp s 0 opMASK_BATCH x ∧ i.isTree = true ∧ s.maskItemFault x i (str2 4) = none ∧
     (∀ y ∈ (s.forkTree (str2 4) (s.readTree i.mTree i.mNodes) x.mode).1, y.2.res.fault = none) ∧
     (s.forkTree (str2 4) (s.readTree i.mTree i.mNodes) x.mode).2.ctx? 0 = some x) ∧
    (ReadyOp (ops [verifyOp]) 0 opSPEC_VERIFY verifyOp ∧ (ops [verifyOp]).strand? 0 (eSession verifyOp.entry) = none) ∧
    (ReadyOp (opsR (str2 0) [verifyOp]) 0 opSPEC_VERIFY verifyOp ∧ pSPEC (str2 0).params = false) ∧
    verifies (str2 4) (treed (str2 4) [verifyOp]) = true ∧
    (let t : Strand := { str2 0 with ra := none, raDue := true }
     let s := opsR t []
     s.strand? 0 1#32 = some t ∧ s.groupOwner (cluGrp t.home) = some 0 ∧ s.takes 0 t.home = true ∧ s.workBefore t (s.raKey t) = false ∧
     t.needsHist = false ∧ t.cp = none ∧
     (let s : State := { s with strands := [t, { t with session := 2#32, lastStep := 0#64 }] }
      ({ t with lastStep := 3#64 } : Strand).home = t.home ∧ s.workBefore { t with lastStep := 3#64 } (s.raKey { t with lastStep := 3#64 }) = true) ∧
     (home.takes 0 t.home = false)) ∧
    (let i := maskItem (leBytes 4 0 ++ leBytes 4 3)
     i.slots = 1 ∧ 80 ≤ i.offset ∧ raAll.fault = none ∧ 0x9000 + i.offset + i.slotSz ≤ 2 ^ 64) ∧
    (str2 0).raDue = false ∧ (opsR (str2 0) []).raPinned (str2 0) = false := by
  unfold State.canon Alone ReadyOp; decide +kernel

/-! ### Lockets, reclaim, registers (O47 to O49) -/

/-- A parked session 1. -/
def parkedL : Locket := { part := 0, session := 1#32, id := 1#64, gen := 1#64, epoch := 1#32, image := leBytes 128 0, body := [], pages := 3, binds := [] }
/-- Partition 0 with a warm share and a park key of epoch 1. -/
def keyed (s : State) : State :=
  { (s.setReg (rPrtParkWarm 0) 16#32).setReg rPrkWarmCfg 1#32 with
    parts := Vector.replicate 16 { slotA := some (KeySlot.of 1#32 0#512), sel := some false, selCrc := selCrcOf (some false), used := [0, 1, 2] } }
/-- The session's strand as a locket's body, in a warm copy at 0x200000. -/
def warmL : Locket := { parkedL with body := (keyed (opsR (str2 0) [])).locketBody (str2 0), warm := [0x200000] }
def withL (l : Locket) (x : OpCtx) : State := { keyed (ops [x]) with lockets := [l] }
def slotK : KeySlot := KeySlot.of 1#32 0#512
def parkOp (k : Nat) : OpCtx := { op [(0, 1, opPARK), (4, 4, 1), (24, 1, k)] with terms := { key := some slotK } }
def reviveOp : OpCtx := op [(0, 1, opREVIVE), (4, 4, 1)]
def exportOp (limit keep : Nat) : OpCtx :=
  { op [(0, 1, opEXPORT), (4, 4, 1), (24, 8, 0x8000), (32, 4, limit), (36, 1, keep)] with akey := some 5#256 }
def importOp (limit : Nat) : OpCtx := { op [(0, 1, opIMPORT), (4, 4, 1), (24, 8, 0x8000), (32, 4, limit)] with akey := some 5#256 }
/-- Do PARK's first conditions give the key? -/
def parks (s : State) : Bool := match s.parkFault 0 false (parkOp 0).terms with | .ok k => k == slotK | .error _ => false
/-- Is the revive's locket good? -/
def revives (s : State) (x : OpCtx) : Bool :=
  match s.reviveFault x with
  | .ok (l, b, v) => l == warmL && b.hist == [0, 1, 1] && v == ⟨2#32, 1⟩ && b.bound 1 == none && b.bound 2 == none && b.bound 3 == none
  | .error _ => false

/-- O47: a park to the warm store finds its place. -/
theorem witness_park : ∃ a s1, (keyed (opsR (str2 0) [parkOp 0])).warmPlaces (64 + ((keyed (opsR (str2 0) [parkOp 0])).locketBody (str2 0)).length)
    1 [] = some (a, s1) :=
  let ⟨a, h⟩ := warmPlaces_of_fits (keyed (opsR (str2 0) [parkOp 0])) _ (by decide +kernel); ⟨[a], _, h⟩
/-- O47: a revive is admitted. -/
theorem witness_revive : ∃ slot l t, (withL warmL reviveOp).admitSession 0 0 3 ((withL warmL reviveOp).stepCost 0 none none 2) = .ok slot l t :=
  admit_of_check _ _ _ _ _ (Option.isNone_iff_eq_none.mp (by decide)) (by decide)
/-- O47: the other hypotheses of PARK and REVIVE; exports that fit and one that does not; imports of an ID in use and of no image. -/
theorem witness_lockets : (keyed (ops [])).canon ∧ Alone (keyed (ops [])) ∧
    (let s := keyed (opsR (str2 0) [parkOp 0]); ReadyOp s 0 opPARK (parkOp 0) ∧ s.strand? 0 1#32 = some (str2 0) ∧ parks s = true ∧
      s.warmRoom 0 (1 * (64 + (s.locketBody (str2 0)).length)) = true) ∧
    (let x := fun k w r o => { parkOp k with terms := ⟨w, r, o⟩ }
     (x 2 true false none).terms.warmOnly = true ∧ ReadyOp (opsR (str2 0) [x 2 true false none]) 0 opPARK (x 2 true false none) ∧
     ReadyOp (opsR (str2 0) [x 0 false true none]) 0 opPARK (x 0 false true none) ∧
     ReadyOp (opsR (str2 0) [x 0 true true none]) 0 opPARK (x 0 true true none) ∧ ((opsR (str2 0) []).parts[(0 : Part)]).worn = false) := by
  unfold State.canon Alone ReadyOp; decide +kernel
theorem witness_revives :
    (let s := withL parkedL (parkOp 2); ReadyOp s 0 opPARK (parkOp 2) ∧ s.strand? 0 1#32 = none ∧ s.locket? 0 1#32 = some parkedL ∧
      parkedL.waiting = false ∧ (parkOp 2).terms.warmOnly = false ∧ parkedL.lost = false ∧ parkedL.warm = [] ∧ (ops [parkOp 0]).locket? 0 1#32 = none) ∧
    (let s := withL warmL reviveOp; ReadyOp s 0 opREVIVE reviveOp ∧ s.strand? 0 1#32 = none ∧ s.locket? 0 1#32 = some warmL ∧
      revives s reviveOp = true ∧ reviveOp.slot = none ∧ reviveOp.aborting = false ∧
      (∃ a ∈ warmL.warm, s.rdBytes a warmL.image.length = warmL.image ∧ a ∉ reviveOp.badWarm) ∧
      (let x := { reviveOp with aborting := true }; ReadyOp (withL warmL x) 0 opREVIVE x ∧ x.aborting = true ∧ x.reading = false) ∧
      (withL { warmL with waiting := true } reviveOp).locket? 0 1#32 = some { warmL with waiting := true } ∧
      (withL { warmL with lost := true } reviveOp).locket? 0 1#32 = some { warmL with lost := true } ∧
      (match ({ s with parts := Vector.replicate 16 { stall := [9#32] } } : State).admitSession 0 0 3 (s.stepCost 0 none none 2) with
       | .denied _ _ => true | _ => false) = true) := by
  unfold ReadyOp; decide +kernel
theorem witness_exports :
    (let x := exportOp 0x10000 1; let s := opsR (str2 0) [x]; let n := (s.locketBody (str2 0)).length
      ReadyOp s 0 opEXPORT x ∧ s.strand? 0 1#32 = some (str2 0) ∧ 64 + n ≤ 0x10000 ∧ 63 < 64 + n ∧ (leAt x.entry 36 1).testBit 0 = true ∧
      (leAt (exportOp 63 0).entry 36 1).testBit 0 = false ∧ x.aborting = false ∧
      (let y := { x with aborting := true }; ReadyOp (ops [y]) 0 opEXPORT y ∧ y.reading = false) ∧ (ops [x]).strand? 0 1#32 = none ∧ (ops [x]).locket? 0 1#32 = none) ∧
    (let x := importOp 512; ReadyOp (opsR (str2 0) [x]) 0 opIMPORT x ∧ (opsR (str2 0) [x]).idTaken 0 1#32 = some stBadEntry ∧
      (ops [x]).idTaken 0 1#32 = none ∧ leAt ((ops [x]).rdBytes 0x8000 64) 0 1 ≠ 1 ∧ openImage 5#256 [] = none) := by
  unfold ReadyOp; decide +kernel
/-- A strand without tokens, and its body. -/
def bodyE : List Byte := (ops []).locketBody { str2 0 with hist := [], promptLen := 0, steps := 0#40, histPages := [] }
/-- The header of its export image under asset key 5. -/
def headE : List Byte := leBytes 64 0x4140f8d9f6fca488b8c76b24f82bec4d00000002000000000000000000000001000000000000000100000000000000010000020000000201
/-- An import of that image: its header in memory. -/
def importS : State :=
  { ops [importOp 512] with
    objIds := [{ part := 0, id := 2#32, kind := 1 }]
    mem := headE.zipIdx.filterMap (fun x => if x.1 == 0#8 then none else some (0x8000 + x.2, x.1)) }
/-- O47: an import that completes. That the image's 448 bytes of ciphertext open to that body is left to evaluation: AES-XTS over them takes
the kernel a minute. -/
theorem witness_import : (let hdr := importS.rdBytes 0x8000 64
    ReadyOp importS 0 opIMPORT (importOp 512) ∧ leAt hdr 4 4 = 512 ∧ leAt hdr 0 1 = 1 ∧ (leAt hdr 1 1).testBit 1 = true ∧ leAt hdr 36 4 = 2 ∧
    importS.idTaken 0 1#32 = none ∧
    (match parseBody bodyE with
     | some b => match importS.importBinds 0 b with | .ok l => l == [some ⟨2#32, 1⟩, none, none, none] | .error _ => false
     | none => false) = true) ∧
    ∃ slot l t, importS.admitSession 0 0 2 (importS.stepCost 0 none none 2) = .ok slot l t := by
  refine ⟨?_, admit_of_check _ _ _ _ _ (Option.isNone_iff_eq_none.mp (by decide +kernel)) (by decide +kernel)⟩
  unfold ReadyOp; decide +kernel
/-- Partition 0 with 258 pages, three of them used, LO and HI at 256 pages, and IDLE_MIN. -/
def short (idle : Nat) : State :=
  ((keyed (opsS [])).setReg (rPrtPoolCfg 0) 258#32).setReg (rPrtReclaim 0) (BitVec.ofNat 32 (0x1001 + 2 ^ 24 * idle))
/-- O48: what both rungs ask of a strand that parks. -/
theorem witness_reclaim_park (k : Nat) (hk : k = 0 ∨ k = 200) : ∃ id len s1,
    (short k).storePark str1 false false ((short k).parkTerms 0) = .done id len s1 ∧ s1.reclaimHi 0 ≤ s1.freePages 0 ∧ 256 ≤ s1.freePages 0 := by
  have h : ∀ k, k = 0 ∨ k = 200 → ((short k).parkTerms 0).key = some slotK ∧ ((short k).parkTerms 0).roForce = false ∧
      ((short k).parts[(0 : Part)]).worn = false ∧ (short k).warmRoom 0 (1 * (64 + ((short k).locketBody str1).length)) = true ∧
      (short k).warmFits (64 + ((short k).locketBody str1).length) = true ∧ ((short k).parts[(0 : Part)]).stall = [] ∧
      (short k).reclaimHi 0 = 256 ∧ (short k).poolPages 0 = 258 ∧ (short k).strands = [str1] ∧ (short k).paired = false := by
    rintro k (rfl | rfl) <;> decide +kernel
  obtain ⟨k1, k2, k3, h2, h3, h4, h5, h6, h7, h0⟩ := h k hk
  have h1 : (short k).parkFault 0 false ((short k).parkTerms 0) = .ok slotK := by
    simp only [State.parkFault, k1, k2, k3, Bool.false_and, Bool.false_eq_true, if_false, Bool.false_or]
  obtain ⟨id, len, s1, e, hr, hu⟩ := storePark_of_fits (short k) str1 _ slotK h0 h1 h2 h3 h4
    (by rw [h7]; intro u hu; rw [List.mem_singleton.mp hu]; decide)
  have hp : s1.poolPages 0 = 258 := by rw [← h6]; simp only [State.poolPages, State.rf, State.reg, hr]
  have hh : s1.reclaimHi 0 = 256 := by rw [← h5]; simp only [State.reclaimHi, State.rf, State.reg, hr]
  have hl : (s1.parts[(0 : Part)]).used = [] := hu.trans (by rcases hk with rfl | rfl <;> decide)
  have hf : s1.freePages 0 = 258 := by rw [State.freePages, hp, hl]; rfl
  exact ⟨id, len, s1, e, by rw [hh, hf]; decide, by rw [hf]; decide⟩
/-- O43, O46: work that another op's work comes before, and work that none does; clusters for split rows at hand. -/
theorem witness_order :
    (let a := op [(0, 1, opDECODE)]
     let b := { op [(0, 1, opDECODE)] with id := 1, seq := 2, index := 8#32 }
     let s := ops [a, b]
     s.opBefore a = false ∧ s.opBefore b = true ∧ ReadyOp s 1 opDECODE b) ∧
    (let m := { op [(0, 1, opMASK_BATCH), (4, 4, 1)] with id := 1, seq := 2, index := 8#32 }
          let x := { op [(0, 1, opSPEC_VERIFY), (4, 4, 2)] with st := .ready }
     let v := { m with items := [stepItem] }
     let s : State := { opsR str1 [x, v] with strands := [str1, { str1 with session := 2#32 }] }
     s.opBefore v = true ∧ s.opBefore x = false ∧ (s.specShares x (s.readTree (leAt x.entry 24 8) (leAt x.entry 32 1))).isSome = true) ∧
    (opsS []).raMayRun str1 = true := by
  unfold ReadyOp; decide +kernel
/-- A strand in page stall with 1,025 tokens. -/
def strStall : Strand := { str1 with hist := List.replicate 1025 0, ovfCount := 1 }
def stalledS : State := { ops [] with strands := [strStall], parts := Vector.replicate 16 { stall := [1#32], used := [0, 1, 2] } }
/-- O48: a drain finds its page. -/
theorem witness_drain : ∃ l t, stalledS.takePages 0 1 = some (l, t) := takePages_of_free 0 1 stalledS (by decide)
/-- Two strands on cluster 0 of four, with the loop enabled. -/
def skewed : State :=
  { ((ops []).setReg (rPrtPlace 0) 0x80010000#32).setReg rPwrDomStat 0xF#32 with
    strands := [str1, { str1 with session := 2#32 }], time := 100000000 }
/-- O48: LO met and not; candidates with IDLE_MIN 0 and 200; a strand in page stall; accounts; the loop off and on. -/
theorem witness_reclaim : (short 0).canon ∧ (short 0).running = true ∧ (short 0).freePages 0 < (short 0).reclaimLo 0 ∧
    ((host.setReg (rPrtReclaim 0) 0#32).reclaimLo 0 ≤ (host.setReg (rPrtReclaim 0) 0#32).freePages 0) ∧ (short 0).candidates 0 ((short 0).idleMin 0) = [str1] ∧ (short 0).freePages 0 < 256 ∧
    (short 200).candidates 0 ((short 200).idleMin 0) = [] ∧ (short 200).candidates 0 0 = [str1] ∧ 255 ≤ (short 0).freePages 0 ∧
    ((short 0).parts[(0 : Part)]).reclaims = [] ∧
    (let s : State := { short 0 with parts := Vector.replicate 16 { used := [0, 1, 2] } }
     (match s.storePark str1 false false (s.parkTerms 0) with | .fail _ => true | _ => false) = true ∧ s.candidates 0 (s.idleMin 0) = [str1]) ∧
    (let s : State := { (short 0).setReg (rPrtParkWarm 0) 0#32 with lockets := [{ parkedL with session := 7#32, moving := true }] }
     (match s.storePark str1 false false (s.parkTerms 0) with | .wait => true | _ => false) = true ∧ s.candidates 0 (s.idleMin 0) = [str1]) ∧
    (stalledS.strand? 0 1#32 = some strStall ∧ strStall.stalled = true ∧ stalledS.excluded 0 1#32 none = false ∧
      (let x := { op [(0, 1, opSESSION_CLOSE), (4, 4, 1)] with st := .ready }
       ({ stalledS with ctxs := [x] } : State).excluded 0 1#32 none = true ∧ ({ stalledS with ctxs := [x] } : State).stallNeed 0 1#32 = 0) ∧
      (let t := { strStall with session := 2#32 }
       let s : State := { stalledS with strands := [strStall, t], parts := Vector.replicate 16 { stall := [1#32, 2#32], used := [0, 1, 2] } }
       s.stallNeed 0 2#32 ≠ 0) ∧ stalledS.stallNeed 0 1#32 = 0 ∧ (strStall.hist.length + 1023) / 1024 - strStall.histPages.length = 1) ∧
    str1.stalled = false ∧ ((host.parts[(0 : Part)]).accts.map (·.num)).Nodup ∧ (host.setReg (rPrtPlace 0) 0#32).rb (rPrtPlace 0) 31 = false ∧
    ({ host with time := 200000 } : State).time % 100000 = 0 ∧ host.refillAt ≠ 200000 ∧ host.role ≠ 2 ∧ (second host).role = 2 ∧
    (let s : State := { host.setReg (rPrtPlace 0) 0#32 with time := 100000 }
     assocGet 0 s.lastAt 0x10 + max 1 (s.rf (rPrtPlace 0) 0 8) * 100000 ≤ s.time) ∧
    (assocGet 0 skewed.lastAt 0x10 + max 1 (skewed.rf (rPrtPlace 0) 0 8) * 100000 ≤ skewed.time) ∧
    (skewed.enabled 0 = true ∧ skewed.rb (rPrtPlace 0) 31 = true ∧ skewed.rf (rPrtPlace 0) 16 12 = 1 ∧
      (let cs := skewed.placeClusters 0
       firstBest (fun a b => skewed.cluLoad 0 b < skewed.cluLoad 0 a) cs = some 0 ∧
       firstBest (fun a b => skewed.cluLoad 0 a < skewed.cluLoad 0 b) cs = some 1 ∧
       (cs.map (skewed.cluLoad 0)).sum * (100 + skewed.rf (rPrtPlace 0) 8 8) < skewed.cluLoad 0 0 * 100 * cs.length) ∧
      ((skewed.candidates 0 (skewed.idleMin 0)).filter (fun t => t.home == 0)).head? = some str1 ∧
      skewed.cluLoad 0 1 + skewed.strandCost str1 < skewed.cluLoad 0 0) := by
  unfold State.canon; decide +kernel
/-- O49: a pair and its halves, RC and RW registers, one that is frozen, one that is closed. -/
theorem witness_registers : home.running = true ∧ (1#24).toNat % 4 ≠ 0 ∧ (second home).role = 2 ∧ (second home).running = true ∧
    (first home).role = 1 ∧ (∀ o ∈ [rPrtReclaim 0, rPrtPoolCfg 0, rPrtObjBase 0, rPrtObjBase 0 + 4],
      ownWrite o = false ∧ home.ignores .host o = false ∧ (second home).ignores .primary o = false) ∧ ownWrite rGlbPairPeer = true ∧
    (let o := rPrtObjBase 0; o < 2 ^ 24 ∧ o % 4 = 0 ∧ (regRow? o).map (·.half) = some 1 ∧ (regRow? (o + 4)).map (·.half) = some 2 ∧
      home.cluDark o = false ∧ home.frozen (o + 4) = false ∧ noteReg o = false ∧ noteReg (o + 4) = false ∧
      assocFind ({ home with pairHold := [(o, 7#32)] } : State).pairHold o = some 7#32) ∧
    (let o := rPrtReclaim 0; o % 4 = 0 ∧ (regRow? o).map (·.half) = some 0 ∧ home.cluDark o = false ∧ home.frozen o = false ∧ noteReg o = false ∧
      csrWin o = .part 0 (o - 0x100000) ∧
      o - 0x100000 ∉ [0x108, 0x10C, 0x118, 0x220, 0x310, 0x400, 0x440, 0x600, 0x804, 0x900, 0xF000]) ∧
    (let o := rPrtPoolCfg 0; (regRow? o).map (·.half) = some 0 ∧ (opsS []).frozen o = true ∧ (opsS []).cluDark o = false) ∧
    State.reset.csrOpen (rPrtPoolCfg 0) = false ∧ (regRow? 0x1FFFFFC).isNone = true ∧ (regRow? 0x101FFC).isNone = true ∧
    (0x1FFFFFC#25).toNat = 0x1FFFFFC := by
  decide +kernel

/-! ### On-chip memories, partitions, keys, media (O50 to O54) -/

def fab (w : Bool) (m : Byte) (r : Option Ring) (d : Option FabDest) : FabReq :=
  { id := 3, at_ := 0, addr := 0x8000#64, len := 64, write := w, master := m, part := some 0, ctx := if m == 0x45#8 then none else some 0, item := none
    ring := r, dest := d }
/-- O50: bank owners that are no change, wrong, and right for a FREE bank and one in use; a drain; lines with and without the patrol; late, good,
poisoned and failed responses. -/
theorem witness_on_chip : host.canon ∧ host.running = true ∧
    (let o := rCluBankOwn 0 1; host.rf o 0 5 = 0x10 ∧ fld 0x1F#32 0 5 > 0x10 ∧ fld 5#32 0 5 ≤ 0x10 ∧ host.groupOwner (cluGrp 0) = some 0 ∧
      (1, 0) ∉ (host.scratch[(0 : Clu)]).hand ∧ (host.setReg o 0#32).rf o 0 5 = 0) ∧
    (let s : State := { host with scratch := Vector.replicate 64 { hand := [(1, 0)], tags := [7] }, time := 1000000000 }
     assocGet 0 s.lastAt 0x20 + s.rf (rCluPatrol 0) 0 16 * 100000 ≤ s.time ∧
     (s.scratch[(0 : Clu)]).hand.find? (fun h => h.1 == 1) = some (1, 0) ∧ (∀ h ∈ (s.scratch[(0 : Clu)]).hand, h.1 ≠ 2) ∧
     s.rf (rCluPatrol 0) 0 16 ≠ 0 ∧ bit ((s.setReg rPwrDomStat 1#32).reg64 rPwrDomStat) 0 = true ∧ 7 ∈ (s.scratch[(0 : Clu)]).tags ∧
     8 ∉ (s.scratch[(0 : Clu)]).tags ∧ s.rb (rCluEccLast 0) 31 = false) ∧
    ({ host with fabLate := [3] } : State).fabLate.contains 3 = true := by
  unfold State.canon; decide +kernel
theorem witness_fabric : 3 ∉ host.fabLate ∧
    (let x := op [(0, 1, opPARK)]; (ops [x]).ctx? 0 = some x ∧ x.st ≠ .past ∧ (fab false 0#8 none none).ctx = some 0 ∧
      (fab false 0#8 none none).dest = none ∧ (fab false 0#8 none none).master ≠ 0x45#8 ∧
      eOp x.entry ∈ [opDECODE, opPREFILL, opHASH_BLOCKS, opPARK] ∧ (ops [x]).rf rGlbFabErr 0 4 = 0) ∧
    (∀ d ∈ [FabDest.scratch 0 5, FabDest.vgs 3 7], (fab false 0#8 none (some d)).dest = some d ∧ host.fabDropped (fab false 0#8 none (some d)) = false) ∧
    (let q := fab false 0#8 none none
     let due := q.at_ + max 10 (host.rf rGlbFabCfg 0 16) * 100
     ({ host with fabCut := [(0x100, 0)] } : State).fabDropped q = true ∧ host.time < due ∧ host.time ≤ due ∧ due ≤ 100000 ∧
     ({ host with time := 100000 } : State).fabDropped q = false) ∧
    (let q := fab false 0x41#8 none none
     let s := { withL warmL reviveOp with ctxs := [reviveOp] }
     s.warmRead q reviveOp = some 0x200000 ∧ s.ctx? 0 = some reviveOp ∧ reviveOp.st ≠ .past) ∧
    (let q := { fab true 0x45#8 (some 0) none with addr := 0x3000#64, ctx := none }
     let w : CqWrite := ⟨0#32, 0x3000, 5#64, leBytes 32 0⟩
     let s := rings (home.setReg (rPrtEvqCfg 0) 0#32) (fun x => { x with written := [w] })
     (s.rings[(0 : Ring)]).written.find? (fun w => w.addr == q.addr.toNat) = some w ∧ w.addr + w.old.length ≤ 2 ^ 64 ∧ s.ringOwner 0 = some 0 ∧
     s.rb (rPrtEvqCfg 0) 31 = false ∧ s.canon) ∧
    (fab false 0x45#8 (some 0) none).ctx = none ∧ (2 : BitVec 2).toNat = 2 := by
  unfold State.canon; decide +kernel
/-- O50: a quad in service and one that is not; a fabric interface whose reset waits. -/
theorem witness_quads : (home.setReg rPwrDomSysStat 1#32).bankOn (3 : Fin 32) = true ∧ home.bankOn (3 : Fin 32) = false ∧
    (let s : State := { home with units := [(0x4A, 0)] }
     s.quiet 0x4A = true ∧ s.fabDropped (fab false 0#8 none none) = false) ∧ home.quiet 0x4A = false := by decide +kernel
/-- The block with DONE of partition 0's generation set and its ring off. -/
def idleGen : State := (home.setReg (rPrtGenDone 0) 0x80000000#32).setReg (rPrtRingCfg 0) 0#32
/-- O51: a commit that breaks rule 1, one that breaks none (it disables the partition), a discard, and DONE that waits and that sets. -/
theorem witness_partitions : home.canon ∧ home.running = true ∧ bit 0x80000000#32 31 = true ∧ bit 0x80000000#32 30 = false ∧
    bit 0x40000000#32 30 = true ∧ bit 0xC0000000#32 31 = true ∧ bit 0xC0000000#32 30 = true ∧ bit 0#32 31 = false ∧ (home.setReg (rPrtGenDone 0) 0#32).commitFault 0 = some 1 ∧ idleGen.canon ∧ idleGen.commitFault 0 = none ∧
    idleGen.enabled 0 = true ∧ idleGen.rb (rPrtCfgCtrl 0) 31 = false ∧ (regRow? 0x10F010).isSome = true ∧ (regRow? 0x10F110).isSome = true ∧
    idleGen.rb (rPrtGenDone 0) 31 = true ∧
    (let s := home.setReg (rPrtGenDone 0) 0#32
     s.rb (rPrtGenDone 0) 31 = false ∧ (s.parts[(0 : Part)]).leaving = [] ∧ s.rb (rPrtGenStat 0) 31 = false ∧
     (∀ c : Chan, (s.chans[c]).erasing = false) ∧ (s.setReg (rPrtGenStat 0) 0x80000000#32).rb (rPrtGenStat 0) 31 = true ∧
     (s.parts[(0 : Part)]).oldWork = [] ∧ (s.parts[(0 : Part)]).oldReclaims = [] ∧
     (let x := { op [] with gen := 7#32 }; ∃ y ∈ ({ s with ctxs := [x] } : State).ctxs, y.part = 0 ∧ y.gen ≠ s.reg (rPrtGenCur 0))) := by
  unfold State.canon; decide +kernel
/-- O51: a move, and a reclaim park, under the generation before. -/
theorem witness_old_work : let u : State := { home with lockets := [{ parkedL with moving := true }]
                                                        parts := Vector.replicate 16 { oldWork := [1#64], reclaims := [1#32], oldReclaims := [1#32] } }
    (∃ l ∈ u.lockets, l.part = 0 ∧ l.worked = true ∧ l.id ∈ (u.parts[(0 : Part)]).oldWork) ∧
    (∃ k ∈ (u.parts[(0 : Part)]).reclaims, k ∈ (u.parts[(0 : Part)]).oldReclaims) :=
  ⟨⟨_, List.mem_cons_self, rfl, rfl, List.mem_cons_self⟩, ⟨_, List.mem_cons_self, List.mem_cons_self⟩⟩
/-- A command of a key operation on partition 0, and a channel with a COMMIT record of epoch 1 under the key 0. -/
def keyOp (k : Nat) : Word := BitVec.ofNat 32 (k * 2 ^ 28)
def keyChan : State :=
  { (host.setReg (rPrtCfgChannelsMir 0) 1#32).setReg rSecKeyEpoch 1#32 with
    chans := Vector.replicate 16 { online := true, journal := [{ typ := 6, id := BitVec.ofNat 64 (2 ^ 62 + 1), loc := keyCheck 0#512 }] } }
/-- Partition 0 with both slots, B current, and a locket of the old epoch. -/
def rekeying (ls : List Locket) (rate : Word) : State :=
  { ((keyed (ops [])).setReg (rSecPrtRekey 0) rate) with
    lockets := ls, time := 100000000
    parts := Vector.replicate 16 { slotA := some (KeySlot.of 1#32 0#512), slotB := some (KeySlot.of 2#32 0#512), sel := some true, selCrc := selCrcOf (some true) } }
/-- O52: each key operation on a partition that is enabled, BUSY, not enabled, with full and empty slots, with a committed epoch and without. -/
theorem witness_keys : host.canon ∧ Alone host ∧ keyPart (keyOp 4) = 0 ∧ fld (keyOp 4) 28 4 = 4 ∧ host.rb rSecKeyStat 31 = false ∧
    (host.setReg rSecKeyStat 0x80000000#32).rb rSecKeyStat 31 = true ∧ up.enabled 0 = false ∧ host.enabled 0 = true ∧ Alone keyChan ∧
    ((host.reg rSecKeyEpoch).toNat, keyCheck 0#512) ∉ host.committed 0 ∧ keyChan.keyIn 16 = 0 ∧ keyChan.canon ∧
    ((keyChan.reg rSecKeyEpoch).toNat, keyCheck 0#512) ∈ keyChan.committed 0 ∧
    (let x := keyChan.parts[(0 : Part)]; x.slotA = none ∧ x.slotB = none ∧ x.selNow = none ∧ keyChan.onlineOf 0 = [0] ∧
      keyChan.topEpoch 0 + 1 < 2 ^ 32 ∧ host.onlineOf 0 = []) ∧
    ((keyed host).parts[(0 : Part)]).slotA.isSome = true ∧ ((rekeying [] 0#32).parts[(0 : Part)]).slotB.isSome = true ∧
    (host.parts[(0 : Part)]).oldSlot = none ∧
    (let l := { parkedL with warm := [0x200000] }
     let s := rekeying [l] 1#32
     (s.parts[(0 : Part)]).rekeyAt + (100000000 + 1 - 1) / 1 ≤ s.time ∧
     ({ s with time := 99999999 } : State).time < (s.parts[(0 : Part)]).rekeyAt + (100000000 + 1 - 1) / 1 ∧
     (s.parts[(0 : Part)]).oldSlot.isSome = true ∧ (s.parts[(0 : Part)]).curSlot.isSome = true ∧ s.rf (rSecPrtRekey 0) 0 16 ≠ 0 ∧
     (rekeying [l] 0#32).epochCount 0 1#32 ≠ 0 ∧ (rekeying [] 0#32).epochCount 0 1#32 = 0 ∧ (rekeying [] 0#32).clearPending 0 1#32 = false ∧
     s.lockets.find? (fun l => l.part == 0 && s.canRekey l 1#32) = some l ∧ l.isWarm = true) := by
  unfold State.canon Alone; decide +kernel
/-- O52: a place for the rewritten locket. -/
theorem witness_rekey : let s := rekeying [{ warmL with image := [] }] 1#32
    let img := sealBody (KeySlot.of 2#32 0#512) false warmL.id warmL.gen warmL.session 0 warmL.pages warmL.body
    ∃ a u, s.warmPlaces img.length 1 [] = some (a, u) := by
  intro s img
  have hl : img.length = 576 := by decide +kernel
  obtain ⟨a, h⟩ := warmPlaces_of_fits s img.length (warmFits_mono s (Nat.le_of_eq hl) (by decide +kernel))
  exact ⟨[a], _, h⟩

/-- O52: copies that are readable and not, and a body that is well formed. -/
theorem witness_rekey_copies : let s := rekeying [warmL] 1#32
    s.warmReadable { warmL with image := [] } 0x200000 = true ∧ s.warmReadable { warmL with image := [1#8] } 0x200000 = false ∧
    (parseBody warmL.body).isSome = true := by
  decide +kernel
/-- A die that answers, in use, with one free data block of 256 pages. -/
def info1 : DieInfo := ⟨7, true, true, 16384, 2048, 1, 256, 100, 8, []⟩
def die1 : FlashDie := { info := some info1, uid := some 7, usable := true, blocks := [⟨5, 0, .free, 0, 0, 0, 0, 0⟩] }
def chan1 (d : FlashDie) : FlashChan := { online := true, formatted := true, dies := (Vector.replicate 8 {}).set 0 d }
/-- Partition 0 with channel 0, an index and a warm share. -/
def mediaS (x : FlashChan) (ls : List Locket) (t : Nat) : State :=
  { (((keyed host).setReg (rPrtCfgChannelsMir 0) 1#32).setReg (rPrtParkCfg 0) 1#32).setReg rPrkIndexCfg 1#32 with
    chans := (Vector.replicate 16 {}).set 0 x, lockets := ls, time := t }
/-- One usable die takes a copy whatever a free value chooses. -/
theorem placeChan_of_one (s : State) (c : Chan) (d : Fin 8) (reloc : Bool) (lid : DWord) (copy : Nat) (img : List Byte) (r : ColdCopy × State)
    (hu : (s.chans[c]).usable = [d]) (hp : ({ s with freeCtr := s.freeCtr + 1 } : State).placeOn c d reloc lid copy img = some r) :
    s.placeChan c [] reloc lid copy img = some r := by
  have h1 : ([d] : List (Fin 8)).filter (fun d => !([] : List (Fin 8)).contains d) = [d] := rfl
  have h2 : ∀ k, ([d] : List (Fin 8))[(k + 0) % 1]? = some d := fun k => by rw [Nat.mod_one]; rfl
  simp only [State.placeChan, State.freeBelow, hu, h1, List.isEmpty_cons, Bool.false_eq_true, if_false, List.length_singleton,
    List.range_one, List.findSome?_singleton, h2, hp]
/-- O53: a locket that may move finds its place in the cold park. -/
theorem witness_place : let s := mediaS (chan1 die1) [{ parkedL with warm := [0x200000] }] 0
    ∃ cold t, s.placeLocket { parkedL with warm := [0x200000] } = some (cold, t) := by
  intro s
  have ho : s.onlineOf 0 = [0] := by decide +kernel
  have hb : s.bestChan [0] = some 0 := by decide +kernel
  obtain ⟨r, hr⟩ := Option.isSome_iff_exists.mp
    (show (({ s with freeCtr := s.freeCtr + 1 } : State).placeOn 0 0 false 1#64 0 (leBytes 128 0)).isSome = true by decide +kernel)
  have hc := placeChan_of_one s 0 0 false 1#64 0 (leBytes 128 0) r (by decide +kernel) hr
  refine ⟨[r.1], r.2, ?_⟩
  simp only [State.placeLocket, parkedL, ho, hb, hc]
  rfl
/-- A copy of the parked session in block 5, and the page that holds it. -/
def cold1 : ColdCopy := { copy := 0, chan := 0, die := 0, block := 5, page := 0, plane := 0, sector := 0, count := 1, todo := [], durable := true }
def coldL : Locket := { parkedL with cold := [cold1] }
def page1 : FlashPage := ⟨5, 0, 0, 0, List.replicate 4 { payload := leBytes 512 0, mdata := codewordMeta none 0 (leBytes 512 0) }⟩
/-- That die with the block in use, and jobs. -/
def die2 (j : List FlashJob) : FlashDie := { die1 with blocks := [⟨5, 0, .data, 0, 0, 0, 0, 0⟩], pages := [page1], jobs := j }
/-- O53: a channel without room for journal pages, and a program that has failed in one plane. O54: times within and past twice the maximum. -/
theorem witness_places : ((chan1 die1).jPlaces []).2 = none ∧
    (let s := mediaS (chan1 (die2 [.erase 5 0])) [] 1
     s.busyLimit (.erase 5 0) = 0 ∧ (die2 []).busyAt + s.busyLimit (.erase 5 0) < s.mtime ∧
     (mediaS (chan1 (die2 [])) [] 0).mtime ≤ (die2 []).busyAt + s.busyLimit (.erase 5 0)) := by decide +kernel
/-- O53: pressure and age; a stripe page that is due; journal pages that are due; the jobs of a die. -/
theorem witness_media_ops : (mediaS (chan1 die1) [] 0).canon ∧ (mediaS (chan1 die1) [] 0).running = true ∧
    (let l := { parkedL with warm := [0x200000] }
     let s := (mediaS (chan1 die1) [l] 200000000)
     let t := (s.setReg (rPrtParkWarm 0) 1#32)
     let a := (s.setReg (rPrtParkCfg 0) 0x10000#32)
     s.rf (rPrtParkCfg 0) 16 12 = 0 ∧ s.parkWaits 0 = false ∧ s.warmUsed 0 * 100 < (s.setReg (rPrtParkCfg 0) 0x6400#32).rf (rPrtParkWarm 0) 0 21 * 100 ∧
     (t.rf (rPrtParkWarm 0) 0 21) * t.moveHi 0 ≤ t.warmUsed 0 * 100 ∧ t.movable 0 = [l] ∧
     decide ((t.warmBytes 0 - t.movingBytes 0 + 65535) / 65536 * 100 ≤ t.rf (rPrtParkWarm 0) 0 21 * t.moveLo 0) = false ∧
     a.rf (rPrtParkCfg 0) 16 12 ≠ 0 ∧ (a.movable 0).filter (fun l => l.parkedAt + a.rf (rPrtParkCfg 0) 16 12 * 100000000 ≤ a.time) = [l]) ∧
    (let st : Stripe := ⟨0, false, 5, [0], 0, [⟨1#64, 0, 0, leBytes 512 0, 0⟩]⟩
     let s := mediaS { chan1 die1 with stripes := [st] } [] 20000
     s.quiet 0x48 = false ∧ ((s.chans[(0 : Chan)]).stripes.find? (fun t => match t.buf with | [] => false | a :: _ => t.cap ≤ t.buf.length || a.came + 20000 ≤ s.mtime)) = some st ∧
     ((chan1 die1).stripes.find? (fun t => t.cap ≤ t.buf.length)) = none) ∧
    (let k := { cold1 with durable := false }
     let l : Locket := { coldL with warm := [0x200000], moving := true, cold := [k] }
     let r : JRecord := { typ := 1, id := 1#64, loc := k.loc, copy := 0 }
     let s := mediaS { chan1 { die2 [] with blocks := [⟨5, 0, .data, 0, 0, 0, 0, 0⟩, ⟨1, 0, .journal, 0, 0, 0, 0, 0⟩, ⟨2, 0, .journal, 0, 0, 0, 0, 0⟩] } with jbuf := [r] } [l] 20000
     (s.chans[(0 : Chan)]).online = true ∧ (s.chans[(0 : Chan)]).jbuf = [r] ∧ r.came + 20000 ≤ s.mtime ∧ ((s.chans[(0 : Chan)]).jPlaces []).2.isSome = true ∧
     s.lockets.find? (fun l => l.part == r.part && l.id == r.id) = some l ∧ k.durable = false ∧ l.pinned = false ∧ l.moving = true ∧ l.rekey = none) ∧
    (let d := die2 [.program 5 [0] 0 []]
     d.jobs = .program 5 [0] 0 [] :: [] ∧ ∃ b ∈ d.blocks, b.num = 5 ∧ b.plane = (0 : Fin 4).val ∧ b.st ≠ .retired) ∧
    (let d := die2 [.erase 5 0]
     d.jobs = .erase 5 0 :: [] ∧ d.blocks.find? (fun b => b.num == 5 && b.plane == 0) = some ⟨5, 0, .data, 0, 0, 0, 0, 0⟩ ∧ (mediaS (chan1 d) [] 0).profile.ratedPe = 0 ∧
     ∀ b ∈ d.blocks, b.num = 5 → b.plane = 0 → b = ⟨5, 0, .data, 0, 0, 0, 0, 0⟩) ∧
    (let s : State := { mediaS (chan1 (die2 [.read 0 1#32 cold1 0 [0] {}])) [coldL] 0 with indexOk := true }
     s.readWaits (die2 [.read 0 1#32 cold1 0 [0] {}]) = false ∧ ({ s with indexOk := false } : State).readWaits (die2 []) = true ∧
     (die2 [.read 0 1#32 cold1 0 [0] {}]).jobs = .read 0 1#32 cold1 0 [0] {} :: [] ∧ s.lockets.find? (fun l => l.part == 0 && l.session == 1#32) = some coldL ∧
     (s.coldImage coldL cold1).isSome = true ∧
     s.coldNext coldL (cold1.copy :: s.coldTried coldL) = none ∧ s.cwGood cold1 (s.stripePlanes cold1) 0 = true) := by
  unfold State.canon; decide +kernel
/-- O54: a die that times out for the first time, again within 10 s, and again later; channels online and offline; the scrub, collection and
levelling with and without work; a journal to compact; the index; recovery; bring-up and format. -/
theorem witness_upkeep : (mediaS (chan1 (die2 [.erase 5 0])) [] 7).canon ∧ (mediaS (chan1 die1) [] 0).running = true ∧
    (die2 [.erase 5 0]).usable = true ∧ (die2 [.erase 5 0]).jobs ≠ [] ∧ (die2 []).jobs = [] ∧ (die2 [.erase 5 0]).timeoutAt = none ∧
    (let d := { die2 [.erase 5 0] with timeoutAt := some 0 }; d.timeoutAt = some 0 ∧ 1000000000 ≤ 0 + 1000000000 ∧ 0 + 1000000000 < 1000000001) ∧
    (chan1 die1).online = true ∧ (host.chans[(0 : Chan)]).online = false ∧ (chan1 die1).usable = [0] ∧ host.rf rPrkScrub 0 8 ≠ 0 ∧
    (host.setReg rPrkScrub 0#32).rf rPrkScrub 0 8 = 0 ∧ (mediaS (chan1 (die2 [])) [coldL] 0).scrubNext 0 = some (0, 5, 0) ∧
    (let d := die1; d.count FlashBlock.isData * (12 : Nat) ≤ d.count (fun b => b.st == .free) * 200) ∧
    (let s := mediaS (chan1 (die2 [])) [] 0; let d := die2 []
     d.count (fun b => b.st == .free) * 400 < d.count FlashBlock.isData * s.profile.opPct ∧ (s.chans[(0 : Chan)]).closedNums 0 = [5] ∧
     s.validIn 0 0 5 = 0 ∧ (let pes := (chan1 d).dies.toList.flatMap (fun y => (y.blocks.filter FlashBlock.isData).map (·.pe))
       ∀ a ∈ pes, ∀ b ∈ pes, a ≤ b + max 1 (s.rf rPrkWear 0 16))) ∧
    (let j : List JRecord := [{ typ := 1, id := 1#64 }, { typ := 1, id := 1#64 }, { typ := 1, id := 1#64 }]
     2 * (liveRecords j).length < j.length ∧ ([] : List JRecord).length ≤ 2 * (liveRecords []).length) := by
  unfold State.canon; decide +kernel
theorem witness_upkeep_times : (let s := mediaS (chan1 die1) [] 6000000000
     (chan1 die1).zqAt + 10000000 ≤ s.time ∧ (chan1 die1).trackAt + 6000000000 ≤ s.time ∧ (mediaS (chan1 die1) [] 0).time < 10000000) ∧
    (let s := mediaS (chan1 (die2 [])) [coldL] 100000000000000
     (chan1 die1).scrubAt + s.scrubGap 0 ≤ s.time ∧ s.scrubNext 0 = some (0, 5, 0) ∧ 0 < (mediaS (chan1 (die2 [])) [coldL] 0).scrubGap 0) ∧
    (let b : FlashBlock := ⟨5, 0, .data, 0, 0, 0, 0, 0⟩
     let f : FlashBlock := ⟨6, 0, .free, 9000, 0, 0, 0, 0⟩
     let d := { die2 [] with blocks := [b, f] }
     ∀ ls ∈ [[], [{ coldL with image := leBytes 128 0 }]], let s := mediaS (chan1 d) ls 0
      ((s.parts[(0 : Part)]).worn = false) ∧ s.chanOwner 0 = some 0 ∧ b.num ∈ (s.chans[(0 : Chan)]).closedNums 0 ∧
      b.pe + max 1 (s.rf rPrkWear 0 16) < 9000 ∧ d.ppb ≠ 0 ∧
      s.copiesIn 0 0 b.num = (if ls = [] then [] else [({ coldL with image := leBytes 128 0 }, cold1)])) ∧
    ((second host).paired = true ∧ host.paired = false) ∧
    ({ host with indexOk := true } : State).indexOk = true ∧ ({ host with indexOk := false } : State).indexOk = false ∧
    (∀ c : Chan, host.chanOwner c = none) ∧ (host.parts[(0 : Part)]).recover ≠ 1 ∧
    (({ host with parts := Vector.replicate 16 { recover := 1 } } : State).parts[(0 : Part)]).recover = 1 ∧ bit 2#32 1 = true ∧ bit 0#32 1 = false ∧
    dieFits info1 = true ∧ fld 0xA5000001#32 24 8 = 0xA5 ∧ bit 0xA5000001#32 0 = true ∧ (mediaS (chan1 die1) [] 0).chanOwner 1 = none := by
  decide +kernel

/-! ### Boot, resets, power, chain, pair, debug (O55 to O60) -/

/-- A block with registers set. -/
def withRegs (s : State) (l : List (Nat × Nat)) : State := l.foldl (fun s x => s.setReg x.1 (BitVec.ofNat 32 x.2)) s
/-- Cells of bytes from an address, and what a boot header and a factory block hold. -/
def cellsAt (a : Nat) (l : List Byte) : List Host.Cell := l.zipIdx.map (fun x => (a + x.2, x.1))
def sealed60 (h : List Byte) : List Byte := h ++ leBytes 4 (crc32c h).toNat
def headerImg : List Byte := sealed60 (leBytes 4 0x42494C50 ++ leBytes 1 1 ++ leBytes 7 0 ++ List.replicate 16 0x11#8 ++ leBytes 32 0)
def factoryImg : List Byte :=
  sealed60 (leBytes 4 0x44464C50 ++ leBytes 4 1 ++ leBytes 4 0 ++ leBytes 4 64 ++ leBytes 4 (crc32c []).toNat ++ leBytes 40 0)
/-- The block held in reset, with that flash. -/
def flashed (l : List Host.Cell) : State := { State.reset with flash := l }
def strap0 : List (BitVec 4) := List.replicate 8 0#4
/-- The block of O55 after the strap and the fuses. -/
def bootU (s : State) : State :=
  ((((s.convertStrap strap0).setRf rCfgBootStat 0 4 ((s.convertStrap strap0).rf rCfgStrap 0 4)).bootUpd (fun b => { b with media := [] })).readFuses
    [] 0#8).setRb rPwrDomSysStat 7 true
/-- Boot-halt reached, with that strap code. -/
def halted (code : Nat) : State := { withRegs State.reset [(rCfgStrap, code)] with boot := { phase := .halted } }
/-- Pairing since cycle 0. -/
def pairingAt (t : Nat) : State := { withRegs State.reset [(rCfgStrap, 4)] with time := t, boot := { phase := .pairing } }

/-- O55: a boot from PWR_ON, with strap code 0xF, with no code in the majority, with a blank flash. -/
theorem witness_boot : State.reset.canon ∧ State.reset.boot.phase = .held ∧ State.reset.rb rGlbPairStat 29 = false ∧ State.reset.rf rRstCause 28 4 = 1 ∧
    strapVote (List.replicate 8 0xF#4) = (0xF, 8) ∧ (strapVote [1#4, 1#4, 1#4, 1#4, 1#4, 2#4, 2#4, 2#4]).2 = 5 ∧ State.reset.headerOk = false ∧
    (flashed (cellsAt 0 headerImg)).canon ∧ (flashed (cellsAt 0 headerImg)).headerOk = true ∧ (flashed (cellsAt 0 headerImg)).settings = none ∧
    (flashed (cellsAt 0 headerImg ++ cellsAt 0x10000 factoryImg)).canon ∧
    ((flashed (cellsAt 0 headerImg ++ cellsAt 0x10000 factoryImg)).settings.map (·.2)) = some none := by unfold State.canon; decide +kernel
/-- O55: the boot that finds no slot. -/
theorem witness_no_slot : (bootU (flashed (cellsAt 0 headerImg ++ cellsAt 0x10000 factoryImg))).rf rCfgStrap 0 4 = 0 ∧
    ((bootU (flashed (cellsAt 0 headerImg ++ cellsAt 0x10000 factoryImg))).chooseSlot none false false).fail = some 4 := by decide +kernel
/-- O55: boot-halt with and without a pair role, and pairing before and after its second. -/
theorem witness_halted : (halted 0xC).canon ∧ (halted 0xC).boot.phase = .halted ∧ (halted 0xC).boot.init = [] ∧ (halted 0xC).rf rRstCause 28 4 = 1 ∧
    (halted 0xC).strapRole = 0 ∧ (halted 4).canon ∧ (halted 4).strapRole = 1 ∧ (pairingAt 100000000).canon ∧ State.reset.boot.phase ≠ .halted ∧
    State.reset.boot.phase ≠ .pairing ∧ (pairingAt 99999999).time < 0 + 100000000 ∧ (pairingAt 100000000).boot.phase = .pairing := by
  unfold State.canon; decide +kernel

/-- The block with clusters 0 and 1 in service, quad 0, the park controller on, 100 µs to quiesce. -/
def powered : State := withRegs home [(rGlbCluMap, 7), (rPwrDomStat, 3), (rPwrDomSysStat, 0xFF), (rRstCfg, 100)]
/-- Its units in a requested reset. -/
def quiesce (u : Nat) : State := { powered with units := [(u, 0)] }
/-- An op that reads, and one with a thread in cluster 0. -/
def reader : OpCtx := { op [(0, 1, opREVIVE)] with reading := true }
def unitUser : OpCtx := { op [(0, 1, 0)] with segs := some [segRun] }
/-- O56: unit resets asked for, quiet already, waiting, timed out. -/
theorem witness_units : powered.canon ∧ (fab false 0#8 none none).at_ ≤ powered.time ∧ powered.running = true ∧ powered.quiet 0 = false ∧ powered.cluOn 0 = true ∧ powered.cluOn 2 = false ∧
    powered.quiet 0x40 = false ∧ powered.rb rPwrDomSysStat 0 = true ∧ home.rb rPwrDomSysStat 0 = false ∧ powered.quiet 0x48 = false ∧
    powered.quiet 0x49 = false ∧ powered.quiet 0x4A = false ∧ (quiesce 0).quiet 0 = true ∧ (quiesce 0x40).quiet 0x40 = true ∧
    (quiesce 0x48).quiet 0x48 = true ∧ (quiesce 0x49).quiet 0x49 = true ∧ (quiesce 0x4A).quiet 0x4A = true ∧ (quiesce 0).canon ∧
    (quiesce 0).units.find? (fun x => x.1 == 0) = some (0, 0) ∧ (quiesce 0).time < 0 + (quiesce 0).rf rRstCfg 0 16 * 100 ∧
    ({ quiesce 0 with ctxs := [unitUser] } : State).canon ∧ ({ quiesce 0 with ctxs := [unitUser] } : State).usesCluster unitUser 0 = true ∧
    ({ quiesce 0 with ctxs := [reader] } : State).usesCluster reader 0 = false ∧ ({ quiesce 0x48 with ctxs := [reader], time := 10000 } : State).canon ∧
    reader.st = .ready ∧ eOp reader.entry = opREVIVE ∧ ({ quiesce 0x48 with ctxs := [reader] } : State).ctx? 0 = some reader ∧
    0 + (quiesce 0x48).rf rRstCfg 0 16 * 100 ≤ 10000 ∧ (quiesce 0x49).units.find? (fun x => x.1 == 0x49) = some (0x49, 0) := by
  unfold State.canon; decide +kernel
/-- O56: domains that may and may not go off, sleep, wake, and wait for their voltage. -/
theorem witness_power_domains : offBit 68 = none ∧ offBit 0 = some (rPwrDomOff, 0) ∧ powered.mayOff 0 = false ∧ powered.domExists 0 = true ∧
    (withRegs powered [(rPrtCfgGroupsMir 0, 0)]).canon ∧ (withRegs powered [(rPrtCfgGroupsMir 0, 0)]).mayOff 0 = true ∧
    (withRegs powered [(rPrtCfgGroupsMir 0, 0)]).domOn 0 = true ∧ powered.domOn 2 = false ∧ powered.domExists 2 = true ∧ powered.waking = [] ∧
    ({ powered with waking := [2] } : State).canon ∧ ({ powered with waking := [2] } : State).voltReady (cluGrp 2) = true ∧
    ({ home with waking := [2, 65] } : State).canon ∧ ({ home with waking := [2, 65] } : State).voltReady (cluGrp 2) = false := by
  unfold State.canon; decide +kernel

/-- O56: a domain with an access in flight and without, and one that a request of the same cycle woke. -/
theorem witness_sleep : (let s := { withRegs powered [(rPrtCfgGroupsMir 0, 0)] with ctxs := [unitUser] }
      s.mayOff 0 = true ∧ s.domOn 0 = true ∧ s.domBusy 0 = true ∧ ((s.time, true, (0 : Fin 73)) ∉ s.domLog) ∧ s.canon) ∧
    (withRegs powered [(rPrtCfgGroupsMir 0, 0)]).domBusy 0 = false ∧
    ((powered.time, true, (0 : Fin 73)) ∈ ({ powered with domLog := [(powered.time, true, 0)] } : State).domLog) ∧
    (let x := { op [(0, 1, opDECODE)] with st := .ready }
     ({ powered with ctxs := [x] } : State).mayUseCluster x 0 = true ∧ powered.mayUseCluster { x with part := 1 } 0 = false ∧
     powered.usesCluster x 0 = false) := by
  unfold State.canon; decide +kernel
/-- O29: the watchdog before and after its second; a PWR_ON of this cycle. -/
theorem witness_watchdog : home.time < home.wdogAt + 100000000 ∧ home.wdogAt + 100000000 ≤ ({ home with time := 100000000 } : State).time ∧
    State.reset.poweredNow = true ∧ ({ home with time := 1 } : State).poweredNow = false := by decide +kernel
/-- A group late at point 8, with its bounds. -/
def late : State :=
  { withRegs powered [(rPwrGrpStat 0, 8 * 2 ^ 20 + 12 * 2 ^ 24), (rPwrGrpBound 0, 0xC0000), (rPwrGovSlack, 0x00200010)] with
    grp := Vector.replicate 16 { missed := true } }
/-- The same with a request out. -/
def asked (w : Option Nat) (t : Nat) : State :=
  { late with time := t, vseg := Vector.replicate 17 { req := true, code := 157, reqAt := 0, want := w } }
/-- O57: a late group, a request within and past its time, an acknowledgement to be lowered. -/
theorem witness_power : (let s : State := { late with time := 1000000 }
      ∀ x ∈ [(0, 1000), (2, 10000), (3, 1000000), (1, max 100 (s.cycleStart.rf rPwrGovCfg 0 12) * 100)],
        assocGet 0 s.lastAt x.1 + x.2 ≤ s.time ∧ ¬ assocGet 0 late.lastAt x.1 + x.2 ≤ late.time) ∧ late.canon ∧ late.running = true ∧ late.grpOn 0 = true ∧ late.grpOn 1 = false ∧ (late.grp[(0 : Grp)]).missed = true ∧
    late.grpPoint 0 = 8 ∧ late.grpPoint 0 < late.cycleStart.grpHi 0 ∧ late.cycleStart.grpPin 0 = false ∧ (late.vseg[segOf 0]).rest = true ∧
    (late.vseg[(0 : Fin 17)]).req = false ∧ (late.vseg[(0 : Fin 17)]).ack = false ∧ (asked (some 9) 10000).canon ∧
    ((asked (some 9) 10000).vseg[segOf 0]).req = true ∧ ((asked (some 9) 10000).vseg[segOf 0]).ack = false ∧
    ((asked (some 9) 10000).vseg[segOf 0]).want = some 9 ∧ 9 ≤ (asked (some 9) 10000).grpHi 0 ∧ 9 = (asked (some 9) 10000).grpPoint 0 + 1 ∧
    (asked none 9999).time < 0 + 10000 ∧ 0 + 10000 ≤ (asked none 10000).time ∧
    (({ late with vseg := Vector.replicate 17 { ack := true } } : State).vseg[(16 : Fin 17)]).ack = true ∧
    (withRegs late [(rGlbTemp, 0x80000000)]).rb rGlbTemp 31 = true ∧ late.rb rGlbTemp 31 = false := by unfold State.canon; decide +kernel
/-- O57: temperatures about the trip and the fuses' last read; the anti-rollback counter below, at and past its target. -/
theorem witness_trip : late.tripC = 115 ∧ late.tripC ≤ (115#8).toInt ∧ (114#8).toInt < late.tripC ∧ late.tripC - 10 ≤ (105#8).toInt ∧
    (104#8).toInt < late.tripC - 10 ∧ late.coolAt = none ∧ ({ late with coolAt := some 0 } : State).coolAt = some 0 ∧
    (39#8).toInt - (BitVec.ofNat 8 (late.rf rFusTemp 0 8)).toInt < 40 ∧ (0xD8#8).toInt - (BitVec.ofNat 8 (late.rf rFusTemp 0 8)).toInt ≤ -40 ∧
    bit 0x80000000#32 31 = true ∧ bit 0#32 31 = false ∧ late.rb rFusArbCtrl 30 = false ∧
    late.rf rFusArb 0 8 < min ((withRegs late [(rCfgFwSvn, 1)]).rf rCfgFwSvn 0 16) 128 ∧ min (late.rf rCfgFwSvn 0 16) 128 ≤ late.rf rFusArb 0 8 ∧
    (withRegs late [(rFusArbCtrl, 0x40000000)]).canon ∧ (withRegs late [(rFusArbCtrl, 0x40000000)]).rb rFusArbCtrl 30 = true := by
  unfold State.canon; decide +kernel

/-- The port asked for `n` bytes at `a`. -/
def portAt (a : Nat) : State := withRegs up [(rCfgFlAddr, a)]
/-- O58: each command, turned away for each reason and accepted; commands in progress. -/
theorem witness_port : up.canon ∧ (portAt 0x20000).canon ∧ fld 0x2A000040#32 28 4 = 2 ∧ fld 0x2A000040#32 24 4 = 0xA ∧ fld 0x2A000040#32 0 7 = 64 ∧
    up.rb rCfgFlStat 31 = false ∧ (withRegs up [(rCfgFlStat, 0x80000000)]).rb rCfgFlStat 31 = true ∧
    (State.reset.rb rCfgBootStat 31 || State.reset.rb rCfgBootStat 29) = false ∧ (up.rb rCfgBootStat 31 || up.rb rCfgBootStat 29) = true ∧
    portLen 2 ((portAt 0x20000).rf rCfgFlAddr 0 28) 64 = some 64 ∧ portLen 2 0x200FF 2 = none ∧ portLen 3 0x20800 0 = none ∧ portLen 1 5 0 = none ∧
    (portAt 0x20000).flProtected 0x20000 64 = false ∧ (portAt 0x1FFC0).flProtected 0x1FFC0 64 = true ∧ up.flProtected 0x1000000 4096 = true ∧
    (0x2000000 : Nat) < 0x1FFFFC1 + 64 ∧ fld 0x60000000#32 28 4 = 6 ∧ up.port = none ∧
    ({ up with port := some ⟨2, 0x20000, 1, [0#8]⟩ } : State).canon ∧ ({ up with port := some ⟨4, 0x20000, 0x10000, []⟩ } : State).canon ∧
    (withRegs State.reset [(rCfgBootStat, 0x20000000)]).rb rCfgBootStat 29 = true := by unfold State.canon; decide +kernel

/-- A frame from address 1 to address 0. -/
def frame (typ pay : Nat) : DWord := mkFrame 0 1 typ pay
/-- An instance with chain address 0; a secondary that has asked the primary at address 1; the primary of a pair with address 1. -/
def onChain (s : State) : State := withRegs s [(rChnStat, 0x80000000)]
def seeking : State := { onChain (pairingAt 0) with boot := { phase := .pairing, peer := some 1, words := [(0, 7#32)] } }
def paired (role : Nat) : State :=
  { withRegs { up with boot := { phase := .done } } [(rChnStat, 0x90100000), (rGlbPairStat, role * 2 ^ 30), (rGlbPairCfg, 0x000A0A00)] with
    time := 2000000 }
/-- The same with a part that waits, or with commits held. -/
def part0 : CmpPart := { cmd := .decode 0, ring := 0, index := 7#32, part := 0, status := 0#8, digest := 5#128, at_ := 0, seq := 1 }
def comparing : State := { paired 1 with ctxs := [{ op [(0, 1, opDECODE)] with index := 7#32 }], pair := { parts := [part0] } }
def holding (role : Nat) : State :=
  let s := paired role
  { s.setRb rGlbPairStat 27 true with pair := { holdAt := 0 } }
/-- A compare record of that part with a digest. -/
def cmpRec (d : Nat) : BitVec 512 := BitVec.ofNat 512 (7 + 1 * 2 ^ 40 + d * 2 ^ 128)
/-- A decision record. -/
def decRec (d : Nat) : BitVec 512 := BitVec.ofNat 512 (2 * 2 ^ 40 + d * 2 ^ 384)
/-- O59: good and bad frames for an instance at work, in reset and pairing. -/
theorem witness_chain : frameOk 0#64 = false ∧ (∀ t ∈ [0x01, 0x02, 0x10, 0x20, 0x21, 0x30, 0x43, 0x44], frameOk (frame t 2) = true ∧ fType (frame t 2) = t ∧
      fDest (frame t 2) = 0 ∧ fSrc (frame t 2) = 1 ∧ fPay (frame t 2) = 2) ∧ knownType 0x30 = false ∧ (onChain up).canon ∧
    (onChain { up with boot := { phase := .done } }).boot.phase ≠ .held ∧ (onChain up).rb rChnStat 31 = true ∧ (onChain up).rf rChnStat 24 4 = 0 ∧
    ({ onChain up with chnWait := some (0, 1) } : State).canon ∧ (onChain up).rb rGlbPairStat 29 = false ∧ (onChain up).paired = false ∧
    (onChain State.reset).boot.phase = .held ∧ seeking.canon ∧ seeking.strapRole ≠ 0 ∧ seeking.boot.peer = some (fSrc (frame 0x10 2)) ∧
    assocFind seeking.boot.words 1 = none ∧ seeking.digestIn = false ∧ fPay (frame 1 2) % 16 < 8 ∧ 8 ≤ fPay (frame 1 8) % 16 ∧
    (onChain State.reset).rb rGlbPairStat 29 = false ∧ bit 0x83020000#32 31 = true ∧ fld 0x83020000#32 16 8 = 2 ∧ fld 0x83020000#32 24 4 = 3 ∧ fld 0x83010000#32 16 8 ≠ 2 ∧ up.running = true := by
  unfold State.canon; decide +kernel
/-- O59: a pair's heartbeats, compares, self-tests and isolation, before and after their times. -/
theorem witness_pair : (paired 1).canon ∧ (paired 2).canon ∧ (paired 1).running = true ∧ (paired 1).paired = true ∧ (paired 1).role = 1 ∧
    (paired 2).role = 2 ∧ (paired 1).partner = 1 ∧ (∀ t ∈ [0x40, 0x41, 0x42, 0x45, 0x46], frameOk (frame t 7) = true ∧ fType (frame t 7) = t ∧
      fSrc (frame t 7) = 1) ∧ (paired 1).rb rGlbPairStat 27 = false ∧ comparing.canon ∧ comparing.partLive part0 = true ∧ comparing.liveParts = [part0] ∧ (paired 1).liveParts = [] ∧
    recPart (cmpRec 5) part0 = true ∧ part0.ok = false ∧ part0.index.toNat = fPay (frame 0x45 7) ∧ part0.told = false ∧
    part0.bad < 3 ∧ fPay (frame 0x41 7) % 2 ≠ (paired 1).role - 1 ∧ fPay (frame 0x41 7) % 2 = (paired 2).role - 1 ∧
    ({ paired 2 with pair := { isoAt := some 0 } } : State).canon ∧ 0 + 10000 ≤ (paired 2).time ∧ (paired 1).pair.isoAt = none ∧
    (paired 1).pair.hbAt + max 1 ((paired 1).rf rGlbPairCfg 8 8) * 100000 ≤ (paired 1).time ∧
    ({ paired 1 with time := 999999 } : State).time < 0 + max 1 ((paired 1).rf rGlbPairCfg 8 8) * 100000 ∧ (holding 1).canon ∧ (holding 2).canon ∧
    (holding 1).rb rGlbPairStat 27 = true ∧ (holding 1).pair.holdAt + 400000 ≤ (holding 1).time ∧ (holding 2).role = 2 ∧
    part0.at_ + max 10 (comparing.rf rGlbPairCfg 16 16) * 100 ≤ comparing.time ∧
    ({ comparing with time := 999 } : State).time < 0 + max 10 (comparing.rf rGlbPairCfg 16 16) * 100 ∧ fld (cmpRec 5) 40 8 = 1 ∧
    (∀ t ∈ [999999, 2000000], ({ paired 1 with time := t, lastAt := [(4, 1900000)] } : State).time = t) ∧
    1900000 + 100000 ≤ (paired 1).time ∧ ({ paired 1 with time := 99999 } : State).time < 0 + 100000 ∧ (part0.cmd = .decode 0) ∧
    ({ paired 2 with ctxs := [{ op [] with index := 7#32 }], pair := { parts := [part0] } } : State).canon ∧ fld (decRec 3) 40 8 = 2 ∧
    fld (cmpRec 5) 0 32 = part0.index.toNat ∧ fld (cmpRec 5) 32 8 = 0 ∧ fld (cmpRec 5) 64 32 = part0.part ∧
    BitVec.ofNat 128 (fld (cmpRec 5) 128 128) = part0.digest ∧ BitVec.ofNat 128 (fld (cmpRec 6) 128 128) ≠ part0.digest ∧ fld 0#512 40 8 ≠ 1 := by
  unfold State.canon; decide +kernel

/-- O40, O43, O59: the decisions that a secondary waits for, and those that it is given. -/
theorem witness_given : (second host).canon ∧
    (let d : Decision := { kind := 5, ring := 0, index := 7#32, arg := 3#64 }
     let e : Decision := { kind := 7, ring := 0, index := 7#32, arg := 0x100#64 }
     let s : State := { (second host) with pair := { given := [d, e] }, ctxs := [{ op [(0, 1, opDECODE)] with st := .queued }] }
     s.toldDispatch = some d ∧ (second host).toldDispatch = none ∧ s.toldReady = some e ∧ (second host).toldReady = none ∧
     fld d.arg 0 16 < 4160 ∧ (∀ y ∈ s.ctxs, y.id.val ≠ fld d.arg 0 16) ∧ bit e.arg 8 = true ∧
     (let x := { op [(0, 1, opDECODE)] with st := .queued }; s.ctx? 0 = some x ∧ s.clasped x = false ∧ s.exclWaits x = false ∧ s.role = 2)) ∧
    (let s : State := { (second host) with pair := { given := [{ kind := 3, arg := 9#64 }, { kind := 4, arg := 8#64 }] } }
     s.paired = true ∧ s.pair.given.find? (fun d => d.kind == 3 && d.part == 0) = some { kind := 3, arg := 9#64 } ∧
     s.pair.given.find? (fun d => d.kind == 4 && d.part == 0) = some { kind := 4, arg := 8#64 }) ∧
    (∀ q ∈ (comparing).liveParts, recPart (0 : BitVec 512) q = false) ∧
    (∀ d ∈ [15, 1, 2], ({ onChain up with chnWait := some (0, d) } : State).chnWait = some (0, d)) ∧ fSrc (frame 0x20 2) = 1 := by
  unfold State.canon; decide +kernel
/-- A trace at work, with a record queued. -/
def tracing (wptr : Nat) : State :=
  { withRegs up [(rLpeTraceCtrl, 0xC0000000), (rLpeTraceClass, 0x4000), (rLpeTraceWm, 1), (rLpeTraceWptr, wptr)] with
    traceSlots := 2048, trace := [⟨0, 0xE, leBytes 32 1⟩] }
/-- Debug open by strap code 0xD. -/
def debugging : State := withRegs up [(rCfgStrap, 0xD)]
/-- A CSR access: a read and a write of the offset. -/
def accAt (off : Nat) (w : Bool) : DWord := BitVec.ofNat 64 (off * 2 ^ 32 + (if w then 2 ^ 57 else 0))
/-- O60: a trace started, running and full; debug closed and open; accesses admitted, denied, running and done. -/
theorem witness_loupe : up.canon ∧ up.running = true ∧ bit 0x80000000#32 31 = true ∧ bit 0x40000000#32 30 = true ∧ up.rb rLpeTraceCtrl 31 = false ∧
    up.trace = [] ∧ up.ctxs = [] ∧ (tracing 5).canon ∧ (tracing 5).rb rLpeTraceCtrl 31 = true ∧ (tracing 5).traceStopped = false ∧
    (tracing 2048).traceStopped = true ∧ (leBytes 32 1).length = 32 ∧ (tracing 5).rb rLpeTraceClass 0xE = true ∧ (tracing 5).reg rLpeTraceWm ≠ 0#32 ∧
    (5 + 1) % ((tracing 5).reg rLpeTraceWm).toNat = 0 ∧ up.access = none ∧ up.debugOpen = false ∧ debugging.canon ∧ debugging.debugOpen = true ∧
    accOff (accAt rPwrCap false) = rPwrCap ∧ accWrite (accAt rPwrCap false) = false ∧ accWrite (accAt rPwrCap true) = true ∧
    debugging.dbgAllowed (accOff (accAt rPwrCap false)) false = true ∧ debugging.dbgAllowed (rSecKeyIn 0) true = false ∧
    ({ debugging with access := some (accAt rPwrCap false) } : State).canon ∧
    (let s : State := { debugging with access := some (accAt (rSecKeyIn 0) true), accessAt := debugging.time }
     s.accessAt = s.time ∧ s.dbgAllowed (accOff (accAt (rSecKeyIn 0) true)) (accWrite (accAt (rSecKeyIn 0) true)) = false ∧ s.canon) := by
  unfold State.canon; decide +kernel
/-- O60: registers that a read and a write through debug reach. -/
theorem witness_access : ((regRow? rPwrCap).any (fun r => r.half == 0 && r.rc == 0 && r.wo == 0)) = true ∧ rPwrCap % 4 = 0 ∧
    debugging.cluDark rPwrCap = false ∧ csrWin rPwrCap = .global ∧ ((regRow? 0x800000).any (fun r => r.half == 0)) = true ∧ csrWin 0x800000 = .vgs ∧
    accOff (accAt 0x800000 true) = 0x800000 := by decide +kernel

/-! ### Ill-formed terms -/

/-- Each check of WellFormed refuses a term. -/
theorem test_ill_formed : (Instr.pairLoRead ⟨4, 4⟩).wf = false ∧ (Instr.pairHiRead ⟨8, 4⟩).wf = false ∧ (Instr.pairLoWrite ⟨12, 4⟩ ⟨0, .host⟩).wf = false ∧
    (Instr.pairHiWrite ⟨16, 4⟩ ⟨0, .host⟩).wf = false ∧ (Instr.counterReadClear ⟨2, 4⟩).wf = false ∧ (Instr.bootSequence [0#4] [] 0 []).wf = false ∧
    (Instr.pairLoRead ⟨8, 4⟩).wf = true ∧ (Instr.bootSequence strap0 [] 0 []).wf = true := by decide

/-! ### Values that the spec states -/
/-- GLB_TEMP after reset (R655). -/
theorem test_trip_reset : State.reset.view rGlbTemp = 0x20000073#32 := by decide +kernel
/-- The worked case after R67: 256 slots with the head at slot 248, tail writes of 0x10 and, the head unmoved, of 0x100. -/
theorem test_sq_tail :
    let s := rings (withRegs home [(rPrtRingCfg 0, 0x84060800), (rPrtSqHead 0, 0xFFFFFFF8), (rPrtSqTail 0, 0xFFFFFFF8)]) (fun x => { x with sqSize := 4 })
    let t := after (.sqDoorbell 0 ⟨0x10#32, .host⟩) s
    t.reg (rPrtSqTail 0) = 0x10#32 ∧ t.sqOcc 0 = 24 ∧ (after (.sqDoorbell 0 ⟨0x100#32, .host⟩) t).reg (rPrtSqTail 0) = 0x10#32 := by decide +kernel
/-- The worked case after R175: 256 beads at a floor of 1.2 GHz, 20 ms, 75 percent: 72,000 sessions of cost 64,000. -/
theorem test_load_limit :
    let s := withRegs home [(rGlbCluMap, 0xFF), (rPrtCfgGroupsMir 0, 3), (rPrtAdmitCfg 0, 75 * 2 ^ 24), (rGlbSdPeriod 0, 2000000),
      (rPwrGrpBound 0, 0xC0400), (rPwrGrpBound 1, 0xC0400)]
    s.loadOk 0 0 (72000 * 64000) = true ∧ s.loadOk 0 0 (72001 * 64000) = false := by decide +kernel
/-- The worked case after R234: "low" with three merges, and with token 9,870 disabled. -/
theorem test_merges :
    let sec := mergeSection [⟨108, 111, 10, 4021⟩, ⟨4021, 119, 25, 9870⟩, ⟨111, 119, 40, 5002⟩]
    let v (live : Nat) : Voc := ⟨[], [⟨secMerges, 0, sec⟩], [], 10000, live, 0#128⟩
    mergeLoop (v (2 ^ 10000 - 1)) 3 [(108, 0), (111, 1), (119, 2)] = [(9870, 0)] ∧
    mergeLoop (v (2 ^ 9870 - 1)) 3 [(108, 0), (111, 1), (119, 2)] = [(4021, 0), (119, 2)] := by decide +kernel
/-- The worked case after R449: W = 18, tokens 40, 1,310, 1,311 and 40; the tie goes to MODE 0. -/
theorem test_token_coding : codeBlock 18 0 [40, 1310, 1311, 40] =
    [0x06#8, 0#8, 0#8, 0#8, 0x28#8, 0x9E#8, 0x0A#8, 0x9F#8, 0x0A#8, 0x28#8] := by decide +kernel

end Sys2Proof.Tests
end

