-- ==== Sys2Proof/Proofs/PowerOn.lean ====
section
/-! PROOF. Sys2Proof/Proofs/PowerOn.lean: the state that PWR_ON leaves. -/
namespace Sys2Proof.Machine

/-- After PWR_ON no register is listed, so each reads its Reset value. -/
theorem State.powerOn_reg (s : State) (o : Nat) : s.powerOn.reg o = regReset o := rfl

/-- PWR_ON does not take the step domains over: they are those of the reset state, one after the other. -/
theorem State.powerOn_sd (s : State) (d : Dom) : (s.powerOn.sd[d]).st = .off ∧ (s.powerOn.sd[d]).step = 0#40 := by
  revert d
  exact (by decide : ∀ d : Dom, (State.reset.sd[d]).st = .off ∧ (State.reset.sd[d]).step = 0#40)

end Sys2Proof.Machine

namespace Sys2Proof.Claims
open Machine

/-- Settles O28: the next state is `State.powerOn`, and what it leaves or resets is read off its definition. -/
theorem powerOnReset : Obligations.PowerOnReset := by
  unfold Obligations.PowerOnReset
  intro s
  exact ⟨s.powerOn, rfl, s.powerOn_reg, rfl, s.powerOn_sd, rfl, rfl, rfl, rfl, rfl, rfl, rfl, rfl, rfl, rfl⟩

end Sys2Proof.Claims
end

