-- ==== Sys2Proof/Proofs/Canon.lean ====
section
/-! PROOF. Sys2Proof/Proofs/Canon.lean: no function of the model takes chip memory, the configuration flash or the register file out of
canonical form.

A lemma `State.canon.f` says that `f` keeps the form, whichever state it is applied to, and is put together from the lemmas of what `f` calls, so
that its proof is the shape of `f`: `.bump h` where `f` calls `bump`, `.ite _ _` at its conditions, `.foldl _ _` at its folds. Few functions write
the three maps themselves; their lemmas rest on the laws of `cellSet`, `cellWf_filter` and `assocSet`. A function that writes none of the three
keeps the form by unfolding alone, and its lemma is `h`. -/
namespace Sys2Proof.Machine
open Sys2Proof
variable {s t : State}

/-! ### Writes -/

theorem State.canon.setReg {o v} (h : s.canon) : (s.setReg o v).canon := ⟨h.1, h.2.1, State.setReg_regsWf _ _ h.2.2⟩
theorem State.canon.wr8 {a b} (h : s.canon) : (s.wr8 a b).canon := ⟨State.wr8_memWf _ _ h.1, h.2⟩

theorem State.canon.wrBytes {a l} (h : s.canon) : (s.wrBytes a l).canon := by
  induction l generalizing s a with
  | nil => exact h
  | cons b l ih => exact ih h.wr8

/-! ### Conditions, folds, results -/

theorem State.canon.ite {c : Prop} [Decidable c] (hs : s.canon) (ht : t.canon) : (if c then s else t).canon := by
  split
  · exact hs
  · exact ht

/-- `State.canon.ite` where the first branch goes on from the state of the second. -/
theorem State.canon.iteThen {c : Prop} [Decidable c] (hs : s.canon) (ht : s.canon → t.canon) : (if c then t else s).canon := .ite (ht hs) hs

/-- `State.canon.ite` where the second branch goes on from the state of the first. -/
theorem State.canon.iteElse {c : Prop} [Decidable c] (hs : s.canon) (ht : s.canon → t.canon) : (if c then s else t).canon := .ite hs (ht hs)

theorem State.canon.foldl {α : Type} {f : State → α → State} {l : List α} (h : s.canon) (hf : ∀ s x, s.canon → (f s x).canon) :
    (l.foldl f s).canon := by
  induction l generalizing s with
  | nil => exact h
  | cons x l ih => exact ih (hf s x h)

theorem State.canon.foldl_snd {α β : Type} {f : β × State → α → β × State} {b : β} {l : List α} (h : s.canon)
    (hf : ∀ x a, x.2.canon → (f x a).2.canon) : (l.foldl f (b, s)).2.canon := by
  suffices ∀ x : β × State, x.2.canon → (l.foldl f x).2.canon from this _ h
  induction l with
  | nil => exact fun _ h => h
  | cons a l ih => exact fun x h => ih _ (hf x a h)

theorem State.canon.of_eq {α : Type} {r : α × State} {a} (e : r = (a, t)) (h : r.2.canon) : t.canon := by
  rw [e] at h
  exact h

theorem State.canon.of_eq2 {α β : Type} {r : α × β × State} {a b} (e : r = (a, b, t)) (h : r.2.2.canon) : t.canon := by
  rw [e] at h
  exact h

/-! ### Updates of other fields -/

theorem State.canon.with_pending {v} (h : s.canon) : State.canon { s with pending := v } := h
theorem State.canon.with_freeCtr {v} (h : s.canon) : State.canon { s with freeCtr := v } := h
theorem State.canon.with_resp {v} (h : s.canon) : State.canon { s with resp := v } := h
theorem State.canon.with_ctxs {v} (h : s.canon) : State.canon { s with ctxs := v } := h
theorem State.canon.with_parts {v} (h : s.canon) : State.canon { s with parts := v } := h
theorem State.canon.with_strands {v} (h : s.canon) : State.canon { s with strands := v } := h
theorem State.canon.with_lockets {v} (h : s.canon) : State.canon { s with lockets := v } := h
theorem State.canon.with_vgs {v} (h : s.canon) : State.canon { s with vgs := v } := h
theorem State.canon.with_imem {v} (h : s.canon) : State.canon { s with imem := v } := h
theorem State.canon.with_fabLate {v} (h : s.canon) : State.canon { s with fabLate := v } := h
theorem State.canon.with_profile {v} (h : s.canon) : State.canon { s with profile := v } := h
theorem State.canon.with_indexOk {v} (h : s.canon) : State.canon { s with indexOk := v } := h
theorem State.canon.with_refillAt {v} (h : s.canon) : State.canon { s with refillAt := v } := h
theorem State.canon.with_capture {v} (h : s.canon) : State.canon { s with capture := v } := h
theorem State.canon.with_port {v} (h : s.canon) : State.canon { s with port := v } := h
theorem State.canon.with_chnOut {v} (h : s.canon) : State.canon { s with chnOut := v } := h
theorem State.canon.with_chnWait {v} (h : s.canon) : State.canon { s with chnWait := v } := h
theorem State.canon.with_wdogAt {v} (h : s.canon) : State.canon { s with wdogAt := v } := h
theorem State.canon.with_pair {v} (h : s.canon) : State.canon { s with pair := v } := h
theorem State.canon.with_raisedAt {v} (h : s.canon) : State.canon { s with raisedAt := v } := h
theorem State.canon.with_coolAt {v} (h : s.canon) : State.canon { s with coolAt := v } := h
theorem State.canon.with_waking {v} (h : s.canon) : State.canon { s with waking := v } := h
theorem State.canon.with_sleeping {v} (h : s.canon) : State.canon { s with sleeping := v } := h
theorem State.canon.with_units {v} (h : s.canon) : State.canon { s with units := v } := h
theorem State.canon.with_tapRes {v} (h : s.canon) : State.canon { s with tapRes := v } := h
theorem State.canon.with_access {v} (h : s.canon) : State.canon { s with access := v } := h
theorem State.canon.with_strands_threads_imem {v0 v1 v2} (h : s.canon) : State.canon { s with strands := v0, threads := v1, imem := v2 } := h

theorem State.canon.with_trace_traceBase_traceSlots {v0 v1 v2} (h : s.canon) :
    State.canon { s with trace := v0, traceBase := v1, traceSlots := v2 } := h

theorem State.canon.with_parts_reportAddr {v0 v1} (h : s.canon) : State.canon { s with parts := v0, reportAddr := v1 } := h
theorem State.canon.with_tapRes_access {v0 v1} (h : s.canon) : State.canon { s with tapRes := v0, access := v1 } := h
theorem State.canon.with_access_accessAt {v0 v1} (h : s.canon) : State.canon { s with access := v0, accessAt := v1 } := h
theorem State.canon.with_resp_tapRes {v0 v1} (h : s.canon) : State.canon { s with resp := v0, tapRes := v1 } := h
theorem State.canon.with_indexAt_indexImg {v0 v1} (h : s.canon) : State.canon { s with indexAt := v0, indexImg := v1 } := h

theorem State.canon.with_time_chnOut_peerOut_mailOut {v0 v1 v2 v3} (h : s.canon) :
    State.canon { s with time := v0, chnOut := v1, peerOut := v2, mailOut := v3 } := h

/-! ### Resets and what a secondary leaves -/

theorem State.canon.ownWrites (h : s.canon) (ht : t.canon) : (t.ownWrites s).canon := by
  have hm := State.ownWrites_memWf h.1 ht.1
  rw [State.ownWrites_rest] at hm ⊢
  exact ⟨hm, ht.2⟩

theorem regsSorted_wiped (f : Nat → Bool) (g : Nat → Word → Word) : ∀ {l : List (Nat × Word)} {lo : Nat}, regsSorted lo l = true →
    regsSorted lo (((l.filter (fun x => f x.1)).map (fun x => (x.1, g x.1 x.2))).filter (fun x => x.2 != regReset x.1)) = true
  | [], _, _ => rfl
  | (k, v) :: l, lo, h => by
    simp only [regsSorted, Bool.and_eq_true, decide_eq_true_eq] at h
    obtain ⟨⟨hlo, _⟩, hl⟩ := h
    have ih := regsSorted_wiped f g hl
    have skip := regsSorted_mono (by omega : lo ≤ k + 1) ih
    by_cases hf : f k = true
    · by_cases hg : (g k v != regReset k) = true
      · simp [hf, hg, regsSorted, hlo, ih]
      · simpa [hf, hg] using skip
    · simpa [hf] using skip

theorem State.canon.wipe (h : s.canon) : s.wipe.canon := ⟨h.1, h.2.1, regsSorted_wiped _ _ h.2.2⟩
theorem State.canon.powerOn (h : s.canon) : s.powerOn.canon := ⟨h.1, h.2.1, rfl⟩

/-! ### Sys2Proof/Machine/Ops.lean -/

theorem State.canon.wrLE {a n v} (h : s.canon) : (s.wrLE a n v).canon := .wrBytes h
theorem State.canon.periodMark {k} (h : s.canon) : (s.periodMark k).canon := h
theorem State.canon.setRf {off lo len x} (h : s.canon) : (s.setRf off lo len x).canon := .setReg h
theorem State.canon.setRb {off i b} (h : s.canon) : (s.setRb off i b).canon := .setRf h
theorem State.canon.setReg64 {off v} (h : s.canon) : (s.setReg64 off v).canon := .setReg (.setReg h)
theorem State.canon.bumpBy {off lo len n} (h : s.canon) : (s.bumpBy off lo len n).canon := .setRf h
theorem State.canon.bump {off} (h : s.canon) : (s.bump off).canon := .bumpBy h
theorem State.canon.bump64 {off n} (h : s.canon) : (s.bump64 off n).canon := .setReg64 h
theorem State.canon.freeBelow {n} (h : s.canon) : (s.freeBelow n).2.canon := h
theorem State.canon.spoil {a n} (h : s.canon) : (s.spoil a n).canon := .wrBytes h
theorem State.canon.spoilOut {x} (h : s.canon) : (s.spoilOut x).canon := .foldl h fun _ _ h => .spoil h
theorem State.canon.partUpd {p f} (h : s.canon) : (s.partUpd p f).canon := h

theorem State.canon.post {p code d ring session id detail} (h : s.canon) : (s.post p code d ring session id detail).canon :=
  .ite (.bump h) (.partUpd (.setReg (.wrBytes h)))

theorem State.canon.evqWriteFailed {p a} (h : s.canon) : (s.evqWriteFailed p a).canon := by
  unfold State.evqWriteFailed
  split
  · exact .ite h (.partUpd (.bump (.setReg (.wrBytes h))))
  · exact h

theorem State.canon.postAll {code detail} (h : s.canon) : (s.postAll code detail).canon := .foldl h fun _ _ h => .post h

theorem State.canon.ringError {r cause id hi} (h : s.canon) : (s.ringError r cause id hi).canon := by
  unfold State.ringError
  split
  · exact .post h
  · exact h

theorem State.canon.ringUpd {r f} (h : s.canon) : (s.ringUpd r f).canon := h
theorem State.canon.sdUpd {d f} (h : s.canon) : (s.sdUpd d f).canon := h
theorem State.canon.ctxUpd {c f} (h : s.canon) : (s.ctxUpd c f).canon := h
theorem State.canon.ctxFree {c} (h : s.canon) : (s.ctxFree c).canon := h
theorem State.canon.strandUpd {p sid f} (h : s.canon) : (s.strandUpd p sid f).canon := h

/-! ### Sys2Proof/Machine/Observe.lean -/

theorem State.canon.trace' {code part session index ring status a0 a1} (h : s.canon) : (s.trace' code part session index ring status a0 a1).canon :=
  .ite h (.ite (.bump h) h)

theorem State.canon.count {ev part grp k} (h : s.canon) : (s.count ev part grp k).canon := .foldl h fun _ _ h => .ite (.bump64 h) h
theorem State.canon.countIn {ev p gs} (h : s.canon) : (s.countIn ev p gs).canon := .foldl h fun _ _ h => .ite (.bump64 h) h
theorem State.canon.countFree {ev m} (h : s.canon) : (s.countFree ev m).canon := .foldl h fun _ _ h => .ite (.bump64 h) h
theorem State.canon.grpUpd {g f} (h : s.canon) : (s.grpUpd g f).canon := h

theorem State.canon.workGrp {p sid} (h : s.canon) : (s.workGrp p sid).2.canon := by
  unfold State.workGrp
  split
  · exact h
  · exact h

theorem State.canon.workGrps {x sid i} (h : s.canon) : (s.workGrps x sid i).2.canon := by
  unfold State.workGrps
  extract_lets shares
  split
  · exact .workGrp h
  · exact h

theorem State.canon.raLateSeen {t} (h : s.canon) : (s.raLateSeen t).canon := .trace' (.count h)

theorem State.canon.sawCommit {x sid part st i} (h : s.canon) : (s.sawCommit x sid part st i).canon := by
  unfold State.sawCommit
  extract_lets s1 s2
  have h1 : s1.canon := .trace' h
  have h2 : s2.canon := .iteThen h1 fun h => .count h
  split
  · exact h2
  · exact .foldl (.workGrps h2) fun _ _ h => h

theorem State.canon.sawMiss {x sid i} (h : s.canon) : (s.sawMiss x sid i).canon := by
  unfold State.sawMiss
  extract_lets s1
  have h1 : s1.canon := .trace' h
  split
  rename_i s2 e
  have h2 : s2.canon := .of_eq e (.workGrps h1)
  exact .foldl (.countIn h2) fun _ _ h => h

theorem State.canon.sawOp {x y} (h : s.canon) : (s.sawOp x y).canon := by
  unfold State.sawOp
  extract_lets s1 s2 s3
  have h1 : s1.canon := .ite (.trace' h) h
  have h2 : s2.canon := .foldl h1 fun _ _ h => .ite (.ite (.sawCommit h) (.ite (.sawMiss h) h)) h
  have h3 : s3.canon := .iteThen h2 fun h => .sawCommit h
  exact .ite (.sawMiss h3) (.iteThen h3 fun h => .trace' (.count h))

theorem State.canon.sawDispatch {y} (h : s.canon) : (s.sawDispatch y).canon := .sawOp (.trace' (.count h))
theorem State.canon.sawComplete {x} (h : s.canon) : (s.sawComplete x).canon := .trace' (.count h)
theorem State.canon.sawBeat {d} (h : s.canon) : (s.sawBeat d).canon := .trace' h
theorem State.canon.sawBytes {p} {s0 : State} (h : s.canon) : (s.sawBytes s0 p).canon := .ite h (.count (.workGrp h))
theorem State.canon.sawMoves {s0 : State} (h : s.canon) : (s.sawMoves s0).canon := .foldl h fun _ _ h => .trace' h
theorem State.canon.missLines {p k} (h : s.canon) : (s.missLines p k).canon := .count (.bump64 h)
theorem State.canon.sawMisses {p} {s0 : State} (h : s.canon) : (s.sawMisses s0 p).canon := .ite (.missLines h) h

theorem State.canon.observe {s0 : State} (h : s.canon) : (s.observe s0).canon := by
  unfold State.observe
  extract_lets s1 s2 s3 s4
  have h1 : s1.canon := .foldl h fun _ _ h => .ite (.sawBeat h) h
  have h2 : s2.canon := by
    refine .foldl h1 fun _ _ h => ?_
    split
    · exact .ite h (.sawOp h)
    · exact .sawDispatch h
  have h3 : s3.canon := .foldl h2 fun _ _ h => .ite h (.sawComplete h)
  have h4 : s4.canon := .foldl h3 fun _ _ h => .sawMisses h
  exact .iteElse h4 fun h' => .sawMoves (.foldl h' fun _ _ h => .sawBytes h)

/-! ### Sys2Proof/Machine/Resets.lean -/

theorem State.canon.sendTo {dest typ pay} (h : s.canon) : (s.sendTo dest typ pay).canon := h
theorem State.canon.forwardWrite {off v} (h : s.canon) : (s.forwardWrite off v).canon := .ite h h
theorem State.canon.sendPartner {typ pay} (h : s.canon) : (s.sendPartner typ pay).canon := h
theorem State.canon.keepAddress (h : s.canon) : s.keepAddress.canon := .setReg h
theorem State.canon.setCause {k} (h : s.canon) : (s.setCause k).canon := .setRb (.setRf h)

theorem State.canon.wholeReset {k} (h : s.canon) : (s.wholeReset k).canon := by
  unfold State.wholeReset
  extract_lets s1 s2
  have h1 : s1.canon := .ite h (.foldl h fun _ _ h => .spoilOut h)
  have h2 : s2.canon := .iteThen h1 fun h => .sendPartner h
  exact .setCause (.keepAddress (.wipe (.with_capture h2)))

theorem State.canon.enterIso (h : s.canon) : s.enterIso.canon := .setRb (.setCause (.keepAddress (.wipe h)))
theorem State.canon.isolateSelf (h : s.canon) : s.isolateSelf.canon := .ite h (.with_pair h)

theorem State.canon.survive {gone} (h : s.canon) : (s.survive gone).canon := by
  unfold State.survive
  split
  rename_i s1 e
  have h1 : s1.canon := .of_eq e h
  extract_lets s2 s3 s4
  have h2 : s2.canon := .setReg64 h1
  have h3 : s3.canon := .setRb (.setRf h2)
  exact .postAll (.with_pair h3)

theorem State.canon.startHold (h : s.canon) : s.startHold.canon :=
  .ite h (.sendPartner (.setRf (.with_freeCtr (.with_freeCtr (.with_pair (.setRb h))))))

theorem State.canon.faultLasting {n unit} (h : s.canon) : (s.faultLasting n unit).canon := by
  unfold State.faultLasting
  split
  extract_lets s1 s2 s3 s4
  have h1 : s1.canon := .setRb h
  have h2 : s2.canon := .iteElse h1 fun h => .setReg h
  have h3 : s3.canon := .postAll h2
  have h4 : s4.canon := .trace' h3
  have iso : s4.isolateSelf.canon := .isolateSelf h4
  exact .ite (.ite h4 (.ite (.startHold h4) (.ite (.ite iso h4) iso))) (.ite (.wholeReset h4) h4)

theorem State.canon.faultEvent {n unit} (h : s.canon) : (s.faultEvent n unit).canon := .ite h (.ite (.faultLasting h) h)

theorem State.canon.faultCfgWrite {n plain} (h : s.canon) (hplain : ∀ s, s.canon → (plain s).canon) : (s.faultCfgWrite n plain).canon :=
  .foldl (hplain _ h) fun _ _ h => .faultLasting h

theorem State.canon.lastingMismatch (h : s.canon) : s.lastingMismatch.canon := .faultLasting h
theorem State.canon.hostWarmReset (h : s.canon) : (hostWarmReset s).canon := .ite h (.wholeReset h)
theorem State.canon.softReset {v} (h : s.canon) : (softReset v s).canon := .ite (.wholeReset h) h
theorem State.canon.fwWatchdogExpiry (h : s.canon) : (fwWatchdogExpiry s).canon := .ite (.wholeReset h) h

/-! ### Sys2Proof/Machine/Chain.lean -/

theorem State.canon.dropFrame (h : s.canon) : s.dropFrame.canon := .bump h
theorem State.canon.forward {f} (h : s.canon) : (s.forward f).canon := .ite h h
theorem State.canon.ackTo {f} (h : s.canon) : (s.ackTo f).canon := h
theorem State.canon.nackTo {f why} (h : s.canon) : (s.nackTo f why).canon := h

theorem State.canon.recv {f typ act} (h : s.canon) (hact : ∀ s, s.canon → (act s).canon) : (s.recv f typ act).canon := by
  unfold State.recv
  exact .ite (.dropFrame h) (.ite h (.ite (.ite (.nackTo (.forward h)) (hact _ (.forward h))) (.iteThen (.forward h) fun h => hact _ h)))

theorem State.canon.takeAddress {f} (h : s.canon) : (s.takeAddress f).canon :=
  .ite (.with_chnOut (.setRb (.setRb h))) (.with_chnOut (.setRf (.setRb (.setRb (.ite (.setRb h) h)))))

theorem State.canon.enumFrame {f} (h : s.canon) : (enumFrame f s).canon := .ite (.dropFrame h) (.ite h (.ite h (.takeAddress h)))

theorem State.canon.enumAfter (h : s.canon) : s.enumAfter.canon := by
  unfold State.enumAfter
  split
  · exact .takeAddress h
  · exact h

theorem State.canon.resetFrame {f} (h : s.canon) : (resetFrame f s).canon := by
  unfold Machine.resetFrame
  exact .ite (.dropFrame h) (.ite h (.iteElse (.forward h) fun h => .ite (.wholeReset (.nackTo h)) (.ite (.nackTo h) (.wholeReset (.ackTo h)))))

theorem State.canon.ackFrame {f} (h : s.canon) : (ackFrame f s).canon := .recv h (fun _ h => .ite (.with_chnWait (.setRf h)) h)
theorem State.canon.badFrame {f} (h : s.canon) : (badFrame f s).canon := .ite h (.dropFrame h)
theorem State.canon.reservedFrameType {f} (h : s.canon) : (reservedFrameType f s).canon := .recv h (fun _ h => .ite h h)
theorem State.canon.chainSendReset {v} (h : s.canon) : (chainSendReset v s).canon := .ite h (.ite (.setRf h) (.with_chnWait h))

theorem State.canon.chainReplyTimeout (h : s.canon) : (chainReplyTimeout s).canon := by
  unfold Machine.chainReplyTimeout
  split
  · exact .ite (.with_chnWait (.setRf h)) h
  · exact h

/-! ### Sys2Proof/Machine/FlashPort.lean -/

theorem State.canon.flashErase {a n} (h : s.canon) : (s.flashErase a n).canon := ⟨h.1, cellWf_filter _ _ h.2.1, h.2.2⟩
theorem State.canon.flResult {r} (h : s.canon) : (s.flResult r).canon := .setRf h
theorem State.canon.spiReset (h : s.canon) : s.spiReset.canon := h
theorem State.canon.spiQuad (h : s.canon) : s.spiQuad.canon := h

theorem State.canon.portStart {op v} (h : s.canon) : (s.portStart op v).canon := by
  unfold State.portStart
  split
  · exact h
  · split
    · exact .flResult h
    · split
      · exact .flResult h
      · extract_lets a
        split
        · exact .flResult h
        · exact .ite (.flResult h) (.with_port (.setRb h))

theorem State.canon.portEffect {p} (h : s.canon) : (s.portEffect p).canon := by
  unfold State.portEffect
  split
  · exact .foldl h fun _ _ h => .setReg h
  · exact ⟨h.1, flashProg_wf _ _ h.2.1, h.2.2⟩
  · exact .flashErase h

theorem cellWf_foldl_zipIdx (d : Byte) (l : List (Byte × Nat)) {m : List Host.Cell} (h : cellWf d 0 m = true) :
    cellWf d 0 (l.foldl (fun m x => cellSet d m x.2 x.1) m) = true := by
  induction l generalizing m with
  | nil => exact h
  | cons x l ih => exact ih (cellSet_wf d h (Nat.zero_le _))

theorem State.canon.portBroken {p} (h : s.canon) : (s.portBroken p).canon :=
  .ite h ⟨h.1, cellWf_foldl_zipIdx _ _ h.2.1, h.2.2⟩

theorem State.canon.setRec {r} (h : s.canon) : (s.setRec r).canon := h

theorem State.canon.flashPortDone {ok} (h : s.canon) : (flashPortDone ok s).canon := by
  unfold Machine.flashPortDone
  split
  · exact h
  · extract_lets s1
    have h1 : s1.canon := .flResult (.setRb h)
    exact .ite (.portBroken (.with_port h1)) (.ite (.setRf (.setRf (.setRec (.portEffect (.with_port h1))))) (.portEffect (.with_port h1)))

theorem State.canon.flashPortBadOp {v} (h : s.canon) : (flashPortBadOp v s).canon := .ite h (.ite (.flResult h) (.ite (.flResult h) (.flResult h)))

/-! ### Sys2Proof/Machine/Fuse.lean -/

theorem State.canon.tightReads {marginal} (h : s.canon) : (s.tightReads marginal).2.canon :=
  .foldl_snd h fun _ _ h => h

theorem State.canon.setMarginal {marginal} (h : s.canon) : (s.setMarginal marginal).canon := .setRf (.foldl h fun _ _ h => .setReg h)

theorem State.canon.readFuses {marginal tempC} (h : s.canon) : (s.readFuses marginal tempC).canon := by
  unfold State.readFuses
  split
  rename_i s1 e
  have h1 : s1.canon := .of_eq e (.tightReads h)
  extract_lets w s2 s3 s4 s5 ok sp
  have h2 : s2.canon := .foldl h1 fun _ _ h => .setReg h
  have h3 : s3.canon := .setMarginal h2
  have h4 : s4.canon := .setRb (.setRb (.setRb h3))
  have h5 : s5.canon := .setRf (.setRf h4)
  exact .setReg64 (.setRf (.setRf h5))

theorem State.canon.setLock {v} (h : s.canon) : (s.setLock v).canon := .ite h (.setRf (.setRb (.foldl h fun _ _ h => .setReg h)))
theorem State.canon.blowBit (h : s.canon) : s.blowBit.canon := .ite h (.iteThen (.setRf (.setReg h)) fun h => .setRb h)

theorem State.canon.blowAll {n} (h : s.canon) : (s.blowAll n).canon := by
  induction n generalizing s with
  | zero => exact h
  | succ n ih => exact ih h.blowBit

theorem State.canon.fuseTempSample {tempC marginal} (h : s.canon) : (fuseTempSample tempC marginal s).canon := by
  unfold Machine.fuseTempSample
  split
  · exact h
  · extract_lets s1 last d
    have h1 : s1.canon := .periodMark h
    split
    · exact h1
    · split
      rename_i tight s2 e
      have h2 : s2.canon := .of_eq e (.tightReads (.blowAll h1))
      extract_lets w n s3 s4 ctr s5 s6
      have h3 : s3.canon := .bumpBy h2
      have h4 : s4.canon := .iteElse h3 fun h => .setRb h
      have h5 : s5.canon := .iteThen h4 fun h => .setRf (.foldl h fun _ _ h => .setReg h)
      have h6 : s6.canon := .setLock h5
      exact .setRf (.setMarginal h6)

theorem State.canon.fuseAdvance {v} (h : s.canon) : (fuseAdvance v s).canon := .ite (.setRb h) h
theorem State.canon.fuseBlowDone (h : s.canon) : (fuseBlowDone s).canon := .blowBit h

/-! ### Sys2Proof/Machine/Pages.lean -/

theorem State.canon.takePage {p a} {t : State} (h : s.canon) (e : s.takePage p = some (a, t)) : t.canon := by
  unfold State.takePage at e
  split at e
  · cases e
  · extract_lets n used at e
    split at e
    rename_i e1
    cases e1
    split at e
    · cases e
      exact h
    · cases e

theorem State.canon.takePages {p n l} {t : State} (h : s.canon) (e : s.takePages p n = some (l, t)) : t.canon := by
  induction n generalizing s l t with
  | zero =>
    cases e
    exact h
  | succ n ih =>
    unfold State.takePages at e
    split at e
    · cases e
    next e1 =>
      split at e
      · cases e
      next e2 =>
        cases e
        exact ih (h.takePage e1) e2

theorem State.canon.freePageList {p l} (h : s.canon) : (s.freePageList p l).canon := h
theorem State.canon.evalStall {p} (h : s.canon) : (s.evalStall p).canon := .ite (.post h) (.ite (.post h) h)
theorem State.canon.writeCommitLine {t} (h : s.canon) : (s.writeCommitLine t).canon := .wrBytes h

theorem State.canon.writeToken {t k} (h : s.canon) : (s.writeToken t k).canon := by
  unfold State.writeToken
  split
  · exact .wrLE h
  · exact h

theorem State.canon.writePages {t} (h : s.canon) : (s.writePages t).canon := by
  unfold State.writePages
  extract_lets p inPages s1 s2 side s3 s4 s5 s6 s7
  have h1 : s1.canon := .wrBytes h
  have h2 : s2.canon := .foldl h1 fun _ _ h => .writeToken h
  have h3 : s3.canon := .wrBytes h2
  have h4 : s4.canon := .foldl h3 fun _ _ h => .wrLE h
  have h5 : s5.canon := .wrBytes h4
  have h6 : s6.canon := .wrBytes h5
  have h7 : s7.canon := by
    refine .foldl h6 fun _ _ h => ?_
    split
    · exact .wrBytes h
    · exact h
  refine .foldl h7 fun _ _ h => ?_
  split
  · exact .wrBytes h
  · exact h

theorem State.canon.commitStrand {t} (h : s.canon) : (s.commitStrand t).canon := by
  unfold State.commitStrand
  extract_lets s1 s2 s3
  have h2 : s2.canon := .writePages h
  have h3 : s3.canon := .wrBytes h2
  exact .evalStall (.writeCommitLine h3)

/-! ### Sys2Proof/Machine/Objects.lean -/

theorem State.canon.dropId {p id} (h : s.canon) : (s.dropId p id).canon := .ite h h
theorem State.canon.freeVersion {v} (h : s.canon) : (s.freeVersion v).canon := .dropId (.post h)

theorem State.canon.collectN {n} (h : s.canon) : (State.collectN n s).canon := by
  induction n generalizing s with
  | zero => exact h
  | succ n ih =>
    unfold State.collectN
    split
    · exact ih h.freeVersion
    · exact h

theorem State.canon.collect (h : s.canon) : s.collect.canon := .collectN h

theorem State.canon.takeUnits {p k l} {t : State} (h : s.canon) (e : s.takeUnits p k = some (l, t)) : t.canon := by
  unfold State.takeUnits at e
  extract_lets n used at e
  split at e
  · cases e
  · cases e
    exact h

theorem State.canon.objIdUpd {p id f} (h : s.canon) : (s.objIdUpd p id f).canon := h
theorem State.canon.objStatRead {p} (h : s.canon) : (objStatRead p s).canon := .with_resp (.setReg (.setReg h))

/-! ### Sys2Proof/Machine/Media.lean -/

theorem State.canon.chanUpd {c f} (h : s.canon) : (s.chanUpd c f).canon := h
theorem State.canon.dieUpd {c d f} (h : s.canon) : (s.dieUpd c d f).canon := h
theorem State.canon.addJobs {c d js} (h : s.canon) : (s.addJobs c d js).canon := h
theorem State.canon.jAppend {c r} (h : s.canon) : (s.jAppend c r).canon := h
theorem State.canon.jAppendAll {p r} (h : s.canon) : (s.jAppendAll p r).canon := .foldl h fun _ _ h => h
theorem State.canon.raiseGen {p g past} (h : s.canon) : (s.raiseGen p g past).canon := .ite (.jAppendAll h) h
theorem State.canon.raiseEpoch {p g past} (h : s.canon) : (s.raiseEpoch p g past).canon := .ite (.jAppendAll h) h

theorem State.canon.nextGen {p} (h : s.canon) : (s.nextGen p).2.canon := by
  unfold State.nextGen
  extract_lets n
  split
  · exact .raiseGen h
  · exact .ite (.raiseGen h) h

theorem State.canon.nextEpoch {p} (h : s.canon) : (s.nextEpoch p).2.canon := by
  unfold State.nextEpoch
  extract_lets n
  split
  · exact .raiseEpoch h
  · exact .ite (.raiseEpoch h) h

theorem State.canon.setBlocks {c d num planes st} (h : s.canon) : (s.setBlocks c d num planes st).canon := h

theorem State.canon.stripeFor {c d reloc n x} {t : State} (h : s.canon) (e : s.stripeFor c d reloc n = some (x, t)) : t.canon := by
  unfold State.stripeFor at e
  extract_lets x die mine at e
  split at e
  · split at e
    · cases e
      exact h
    · cases e
  · split at e
    · cases e
    · cases e
      exact h

theorem State.canon.closeStripe {c d reloc} (h : s.canon) : (s.closeStripe c d reloc).canon := by
  unfold State.closeStripe
  extract_lets x
  split
  · exact h
  · exact .ite h (.addJobs h)

theorem State.canon.placeOn {c d reloc lid copy img k} {t : State} (h : s.canon)
    (e : s.placeOn c d reloc lid copy img = some (k, t)) : t.canon := by
  unfold State.placeOn at e
  dsimp only at e
  split at e
  · cases e
  next s1 e1 =>
    have h1 : s1.canon := by
      split at e1
      next e2 =>
        cases e1
        exact .stripeFor h e2
      · exact .stripeFor (.closeStripe h) e1
    cases e
    exact h1

theorem State.canon.placeChan {c avoid reloc lid copy img k} {t : State} (h : s.canon)
    (e : s.placeChan c avoid reloc lid copy img = some (k, t)) : t.canon := by
  unfold State.placeChan at e
  extract_lets all ds ds' at e
  split at e
  · cases e
  · obtain ⟨i, -, hi⟩ := List.exists_of_findSome?_eq_some e
    split at hi
    · exact .placeOn (.with_freeCtr h) hi
    · cases hi

theorem State.canon.placeLocket {l cs} {t : State} (h : s.canon) (e : s.placeLocket l = some (cs, t)) : t.canon := by
  unfold State.placeLocket at e
  extract_lets cs at e
  split at e
  · cases e
  · split at e
    · cases e
    next s1 e1 =>
      have h1 : s1.canon := .placeChan h e1
      split at e
      · cases e
        exact h1
      · extract_lets other at e
        split at e
        · cases e
        next s2 e2 =>
          cases e
          split at e2
          · exact .placeChan h1 e2
          · exact .placeChan h1 e2

theorem State.canon.locketUpd {p sid f} (h : s.canon) : (s.locketUpd p sid f).canon := h

theorem State.canon.startMove {l} (h : s.canon) : (s.startMove l).canon := by
  unfold State.startMove
  split
  · exact h
  next e => exact .locketUpd (.placeLocket h e)

theorem State.canon.delRecords {l} (h : s.canon) : (s.delRecords l).canon := .foldl h fun _ _ h => h
theorem State.canon.parksDone {p sid} (h : s.canon) : (s.parksDone p sid).canon := h
theorem State.canon.stopMove {l} (h : s.canon) : (s.stopMove l).canon := .parksDone (.locketUpd (.delRecords h))

theorem State.canon.restartMoves (h : s.canon) : s.restartMoves.canon := by
  unfold State.restartMoves
  refine .foldl h fun _ _ h => .ite ?_ (.parksDone (.locketUpd (.delRecords h)))
  split
  next e => exact .locketUpd (.placeLocket (.locketUpd (.delRecords h)) e)
  · exact .parksDone (.locketUpd (.delRecords h))

theorem State.canon.dropLocket {l} (h : s.canon) : (s.dropLocket l).canon := by
  unfold State.dropLocket
  extract_lets s1 s2
  have h1 : s1.canon := .delRecords h
  have h2 : s2.canon := .with_lockets h1
  exact .collect (.parksDone h2)

theorem State.canon.warmAlloc {taken n a} {t : State} (h : s.canon) (e : s.warmAlloc taken n = some (a, t)) : t.canon := by
  unfold State.warmAlloc at e
  extract_lets base stop ex cand at e
  obtain ⟨b, -, hb⟩ := Option.map_eq_some_iff.mp e
  cases hb
  exact h

theorem State.canon.markLost {l tier} (h : s.canon) : (s.markLost l tier).canon :=
  .ite h (.post (.bump (.parksDone (.ite (.foldl h fun _ _ h => h) h))))

theorem State.canon.setCurrent {p} (h : s.canon) : (s.setCurrent p).canon := h
theorem State.canon.moveDurable {l} (h : s.canon) : (s.moveDurable l).canon := .ite (.parksDone h) h

theorem State.canon.rekeyDurable {l} (h : s.canon) : (s.rekeyDurable l).canon := by
  unfold State.rekeyDurable
  split
  · exact .ite h h
  · exact h

theorem State.canon.copyDurable {r} (h : s.canon) : (s.copyDurable r).canon := by
  unfold State.copyDurable
  split
  · exact h
  · exact .ite (.rekeyDurable (.moveDurable (.locketUpd (.ite (.bump h) h)))) h

theorem State.canon.keyResult {r} (h : s.canon) : (s.keyResult r).canon := .setRf (.setRf h)

theorem State.canon.epochDurable {r} (h : s.canon) : (s.epochDurable r).canon := by
  unfold State.epochDurable
  extract_lets e x
  split
  · exact .ite (.keyResult h) h
  · split
    · split
      · exact .ite (.post h) h
      · exact h
    · exact h

theorem State.canon.recordDurable {c r} (h : s.canon) : (s.recordDurable c r).canon := by
  unfold State.recordDurable
  extract_lets s1
  split
  · exact .copyDurable h
  · exact .copyDurable h
  · exact .epochDurable h
  · exact .chanUpd h
  · exact .dieUpd h
  · exact h

theorem State.canon.stopMoves {p all} (h : s.canon) : (s.stopMoves p all).canon := .foldl h fun _ _ h => .stopMove h

theorem State.canon.checkWorn {c} (h : s.canon) : (s.checkWorn c).canon := by
  unfold State.checkWorn
  extract_lets x
  split
  · split
    · exact .ite h (.iteThen (.chanUpd h) fun h => .post (.stopMoves (.jAppendAll (.partUpd h))))
    · exact h
  · exact h

theorem State.canon.retire {c d num plane cause} (h : s.canon) : (s.retire c d num plane cause).canon := by
  unfold State.retire
  extract_lets x
  split
  · exact h
  · extract_lets s1
    have h1 : s1.canon := by
      unfold s1
      split
      · split
        · exact .setBlocks (.jAppend (.dieUpd h))
        · split
          · exact .setBlocks (.jAppend (.dieUpd h))
          · exact .jAppend (.dieUpd h)
      · exact .jAppend (.dieUpd h)
    exact .checkWorn h1

theorem State.canon.jUsed {c a} (h : s.canon) : (s.jUsed c a).canon := h

theorem State.canon.jProgram {c bad} (h : s.canon) : (s.jProgram c bad).2.canon := by
  unfold State.jProgram
  split
  extract_lets s1
  have h1 : s1.canon := .foldl h fun _ _ h => .retire h
  split
  · exact h1
  · exact .chanUpd (.jUsed (.jUsed h1))

theorem State.canon.jProgram_fst {c bad} {t u : State} (h : s.canon) (e : s.jProgram c bad = (some t, u)) : t.canon := by
  have hu : u.canon := .of_eq e h.jProgram
  unfold State.jProgram at e
  split at e
  split at e
  · cases e
  · cases e
    exact hu

theorem State.canon.journalPageProgram {j} (h : s.canon) : (journalPageProgram j s).canon := by
  unfold Machine.journalPageProgram
  split
  · split
    next e => exact .foldl (.chanUpd (.jProgram_fst h e)) fun _ _ h => .recordDurable h
    next e => exact .of_eq e (.jProgram h)
  · exact h

theorem State.canon.jRewrite {c l} (h : s.canon) : (s.jRewrite c l).canon := .foldl h fun _ _ h => .jProgram h

theorem State.canon.writeStripePage {c d block planes page sects} (h : s.canon) : (s.writeStripePage c d block planes page sects).canon :=
  .dieUpd (.chanUpd h)

theorem State.canon.pageDone {c d block page} (h : s.canon) : (s.pageDone c d block page).canon :=
  .foldl h fun _ _ h => .foldl h fun _ _ h => .ite (.ite (.jAppend h) h) h

theorem State.canon.placeFor {l k reloc img x} {t : State} (h : s.canon) (e : s.placeFor l k reloc img = some (x, t)) : t.canon := by
  unfold State.placeFor at e
  extract_lets twins cs apart cs' at e
  split at e
  · exact .placeChan h e
  · cases e

theorem State.canon.rewriteCopy {l k} (h : s.canon) : (s.rewriteCopy l k).canon := by
  unfold State.rewriteCopy
  extract_lets img
  split
  next e => exact .locketUpd (.placeFor h e)
  · exact .parksDone h

theorem State.canon.pageFailed {c d block page plane} (h : s.canon) : (s.pageFailed c d block page plane).canon := by
  unfold State.pageFailed
  extract_lets s1 s2 s3
  have h1 : s1.canon := .retire h
  have h2 : s2.canon := .chanUpd h1
  have h3 : s3.canon := .dieUpd h2
  exact .foldl h3 fun _ _ h => .foldl h fun _ _ h => .rewriteCopy h

theorem State.canon.stripeProgram {c} (h : s.canon) : (stripeProgram c s).canon := by
  unfold Machine.stripeProgram
  extract_lets x
  split
  · exact h
  · split
    · exact h
    · exact .addJobs h

theorem State.canon.flashProgramDone {c d bad} (h : s.canon) : (flashProgramDone c d bad s).canon := by
  unfold Machine.flashProgramDone
  split
  · extract_lets s1
    split
    · exact .pageDone (.writeStripePage h)
    · exact .pageFailed h
  · exact h

theorem State.canon.flashEraseDone {c d ok} (h : s.canon) : (flashEraseDone c d ok s).canon := by
  unfold Machine.flashEraseDone
  split
  · exact .ite (.retire h) (.iteThen (.jAppend (.dieUpd h)) fun h => .retire h)
  · exact h

theorem State.canon.setLevels {c d v rung} (h : s.canon) : (s.setLevels c d v rung).canon := .ite h (.dieUpd h)
theorem State.canon.track {c d v bin w} (h : s.canon) : (s.track c d v bin w).canon := .ite h h

theorem State.canon.retrySuccess {c d v bin rung} (h : s.canon) : (s.retrySuccess c d v bin rung).canon := by
  unfold State.retrySuccess
  extract_lets x
  split
  · exact h
  · exact h

theorem State.canon.issueRead {l k} (h : s.canon) : (s.issueRead l k).canon := .setLevels h
theorem State.canon.readDelivered {p sid copy} (h : s.canon) : (s.readDelivered p sid copy).canon := h

theorem State.canon.readFailed {l copy} (h : s.canon) : (s.readFailed l copy).canon := by
  unfold State.readFailed
  split
  · exact h
  · extract_lets s1
    split
    · exact .issueRead h
    · exact .readDelivered h

theorem State.canon.repairTwin {l k} (h : s.canon) : (s.repairTwin l k).canon := by
  unfold State.repairTwin
  split
  · exact h
  · split
    next e => exact .locketUpd (.placeFor h e)
    · exact h

theorem State.canon.resumed {c d j} (h : s.canon) : (s.resumed c d j).canon := by
  unfold State.resumed
  split
  · exact h
  · exact h

theorem State.canon.flashReadDone {c d cws} (h : s.canon) : (flashReadDone c d cws s).canon := by
  unfold Machine.flashReadDone
  extract_lets die susp
  split
  · split
    · exact h
    · extract_lets copy s1 bin planes res good fails s2 s3 s4
      have h1 : s1.canon := .resumed h
      split
      · exact h1
      · have h2 : s2.canon := .iteThen h1 fun h => .foldl h fun _ _ h => .ite (.track h) h
        have h3 : s3.canon := .iteThen h2 fun h => .retrySuccess h
        have h4 : s4.canon := .iteThen h3 fun h => .count (.bump h)
        split
        · split
          · exact .readDelivered (.foldl h4 fun _ _ h => .ite (.repairTwin h) h)
          · exact .readFailed h4
        · exact .ite (.setLevels (.addJobs h3)) (.readFailed (.bumpBy (.count (.bump h3))))
  · exact h

theorem State.canon.ladder {c d v bin cws copies reads} (h : s.canon) : (s.ladder c d v bin cws copies reads).canon := by
  unfold State.ladder
  extract_lets s1 top bad s2 s3 s4
  have h1 : s1.canon := .foldl h fun _ _ h => .ite (.track h) h
  have h2 : s2.canon := .setLevels h1
  have h3 : s3.canon := .iteThen h2 fun h => .retrySuccess h
  have h4 : s4.canon := .bumpBy (.bumpBy h3)
  exact .count (.count h4)

theorem State.canon.freeCws {n} (h : s.canon) : (s.freeCws n).2.canon := by
  induction n generalizing s with
  | zero => exact h
  | succ n ih => exact ih (.with_freeCtr (.with_freeCtr (.with_freeCtr h)))

theorem State.canon.bgRead {k} (h : s.canon) : (s.bgRead k).2.canon := .ladder (.freeCws h)

/-! ### Sys2Proof/Machine/Gate.lean -/

theorem State.canon.pairUpd {f} (h : s.canon) : (s.pairUpd f).canon := h
theorem State.canon.mail {r} (h : s.canon) : (s.mail r).canon := h
theorem State.canon.tellOp {kind p v ring index} (h : s.canon) : (s.tellOp kind p v ring index).canon := .ite h h
theorem State.canon.tell {kind p v} (h : s.canon) : (s.tell kind p v).canon := .tellOp h

theorem State.canon.tellDispatch {t : State} (ht : t.canon) : (t.tellDispatch s).canon := by
  unfold State.tellDispatch
  split
  · exact .ite (.tellOp ht) ht
  · exact ht

theorem State.canon.tellReady {c} {t : State} (ht : t.canon) : (t.tellReady s c).canon := by
  unfold State.tellReady
  split
  · exact .ite (.tellOp ht) ht
  · exact ht

theorem State.canon.withGiven {l f} (h : s.canon) (hf : ∀ s, s.canon → (f s).canon) : (s.withGiven l f).canon := .pairUpd (hf _ h)
theorem State.canon.markReplayed {q} (h : s.canon) : (s.markReplayed q).canon := h
theorem State.canon.mailPart {q} (h : s.canon) : (s.mailPart q).canon := h

theorem State.canon.mismatchEvent {poisonOne mine} (h : s.canon) : (s.mismatchEvent poisonOne mine).canon :=
  .ite (.faultEvent h) (.ite h (.faultEvent (.with_freeCtr h)))

theorem State.canon.restartPart {q} (h : s.canon) : (s.restartPart q).canon := h

theorem State.canon.partMismatch {q f poisonOne mine tell} (h : s.canon) : (s.partMismatch q f poisonOne mine tell).canon := by
  unfold State.partMismatch
  extract_lets s1 s2 again s3 s4 s5 s6
  have h1 : s1.canon := .markReplayed (.bump (.bump h))
  have h2 : s2.canon := .mail h1
  have h3 : s3.canon := by
    unfold s3
    clear_value again
    split
    · exact .mailPart (.pairUpd h2)
    · exact .pairUpd (.restartPart h2)
  have h4 : s4.canon := .trace' h3
  have h5 : s5.canon := .iteThen h4 fun h => .sendPartner h
  have h6 : s6.canon := .mismatchEvent h5
  exact .iteThen h6 fun h => .lastingMismatch h

theorem State.canon.reviveLost {q} (h : s.canon) : (s.reviveLost q).canon := by
  unfold State.reviveLost
  split
  · split
    · exact .faultEvent h
    · exact .faultEvent h
  · exact h

theorem State.canon.commitIfOk {q f} (h : s.canon) (hf : ∀ s, s.canon → (f s).canon) : (s.commitIfOk q f).canon := .ite (.withGiven h hf) h

theorem State.canon.compareWith {q r f} (h : s.canon) (hf : ∀ s, s.canon → (f s).canon) : (s.compareWith q r f).canon :=
  .ite (.commitIfOk h hf) (.ite (.ite (.reviveLost h) h) (.partMismatch h))

theorem State.canon.queueParts {cmd fail f} (h : s.canon) (hf : ∀ s, s.canon → (f s).canon) : (s.queueParts cmd fail f).canon := by
  unfold State.queueParts
  extract_lets l
  split
  · exact h
  · refine .foldl (.foldl h fun _ _ h => .mailPart ?_) fun _ _ h => ?_
    · split
      · exact .iteElse (.ite h (.nextEpoch h)) fun h => .nextGen h
      · exact h
    · split
      · exact .compareWith h hf
      · exact h

theorem State.canon.gated {cmd f} (hf : ∀ s, s.canon → (f s).canon) (h : s.canon) : (gated cmd f s).canon := by
  unfold Machine.gated
  split
  · split
    · exact hf _ h
    · exact hf _ (.foldl h fun _ _ h => h)
  · split
    · exact hf _ h
    · exact .ite h (.queueParts h hf)

theorem State.canon.failGated {cmd st f} (hf : ∀ s, s.canon → (f s).canon) (h : s.canon) : (failGated cmd st f s).canon := by
  unfold Machine.failGated
  split
  · exact hf _ h
  · split
    · exact hf _ h
    · exact .ite h (.queueParts h hf)

/-! ### Sys2Proof/Machine/Scratch.lean -/

theorem State.canon.scrUpd {c f} (h : s.canon) : (s.scrUpd c f).canon := h
theorem State.canon.eccLast {c ue patrol line} (h : s.canon) : (s.eccLast c ue patrol line).canon := .ite h (.setReg h)

theorem State.canon.scratchError {c line ue patrol} (h : s.canon) : (s.scratchError c line ue patrol).canon :=
  .ite (.scrUpd (.eccLast (.bump h))) (.faultEvent (.eccLast (.bump h)))

/-! ### Sys2Proof/Machine/BeadCall.lean -/

theorem State.canon.noteUninit {p c n} (h : s.canon) : (s.noteUninit p c n).canon :=
  .ite h (.iteElse (.bumpBy (.bumpBy h)) fun h => .setReg (.with_freeCtr h))

theorem State.canon.latchFault {p c e f pc} (h : s.canon) : (s.latchFault p c e f pc).canon := by
  unfold State.latchFault
  extract_lets s1 s2 s3
  have h1 : s1.canon := .bump h
  have h2 : s2.canon := .iteThen h1 fun h => .bump h
  have h3 : s3.canon := .iteThen h2 fun h => .noteUninit h
  exact .iteElse h3 fun h => .setReg (.setReg64 (.setReg (.setReg h)))

theorem State.canon.noteMiss {p miss walks} (h : s.canon) : (s.noteMiss p miss walks).canon :=
  .iteElse (.ite h (.missLines h)) fun h => .missLines (.with_freeCtr h)

theorem State.canon.endCall {c t} (h : s.canon) : (s.endCall c t).canon := .noteMiss (.noteUninit h)

theorem State.canon.pretokCall {p c prog e mode us} (h : s.canon) : (pretokCall s p c prog e mode us).2.2.canon := by
  unfold Machine.pretokCall
  extract_lets n t
  split
  extract_lets s1 bad
  have h1 : s1.canon := .endCall h
  split
  · exact .latchFault h1
  · split
    · exact h1
    · exact .latchFault h1

theorem State.canon.checkCall {p c prog mode len node tok g} (h : s.canon) : (checkCall p c prog mode len node s tok g).2.canon := by
  unfold Machine.checkCall
  split
  · exact h
  · extract_lets fr t
    split
    extract_lets s1
    have h1 : s1.canon := .endCall h
    split
    · exact .latchFault h1
    · split
      · exact h1
      · split
        · exact h1
        · exact .latchFault h1

theorem State.canon.hookSlice {x e j a l vals} (h : s.canon) : (hookSlice x e s j a l vals).2.2.canon := by
  unfold Machine.hookSlice
  extract_lets mine val bits t
  split
  extract_lets s1
  have h1 : s1.canon := .endCall h
  split
  · exact .latchFault h1
  · split
    · exact h1
    · exact .latchFault h1

theorem State.canon.hookSlices {a e j l vals is acc} (h : s.canon) : (hookSlices a e j l vals is acc s).2.2.canon := by
  induction is generalizing acc s with
  | nil => exact h
  | cons i is ih =>
    unfold Machine.hookSlices
    extract_lets a
    split
    · exact h
    · split
      next e => exact ih (.of_eq2 e (.hookSlice h))
      · exact .hookSlice h

theorem State.canon.hookPiece {x j vals} (h : s.canon) : (hookPiece x s j vals).2.2.canon := by
  unfold Machine.hookPiece
  split
  · exact h
  · exact .hookSlices h

theorem State.canon.setThread {n t} (h : s.canon) : (s.setThread n t).canon := h
theorem State.canon.threadFault {n t e f} (h : s.canon) : (s.threadFault n t e f).canon := .setThread (.latchFault (.endCall h))

theorem State.canon.threadExit {n t e k} (h : s.canon) : (s.threadExit n t e k).canon := by
  unfold State.threadExit
  split
  · split
    · exact h
    · split
      · exact .threadFault h
      · extract_lets s1 job
        have h1 : s1.canon := .endCall h
        split
        · exact .setThread h1
        · exact .setThread h1
  · exact h

theorem State.canon.threadRes {n t e x} (h : s.canon) : (s.threadRes n t e x).canon := by
  unfold State.threadRes
  split
  · exact .setThread (.noteMiss (.noteUninit h))
  · exact .threadFault h
  · exact .threadExit h
  · exact h

theorem State.canon.beadRun {n op} (h : s.canon) : (beadRun n op s).canon := by
  unfold Machine.beadRun
  extract_lets t
  split
  · split
    · exact .threadRes h
    · exact h
  · exact h

theorem State.canon.callBudgetFault {n} (h : s.canon) : (callBudgetFault n s).canon := by
  unfold Machine.callBudgetFault
  extract_lets t
  split
  · split
    · split
      · exact .ite (.threadFault h) h
      · exact h
    · exact h
  · exact h

theorem State.canon.illegalInstruction {n} (h : s.canon) : (illegalInstruction n s).canon := by
  unfold Machine.illegalInstruction
  extract_lets t
  split
  · split
    · split
      · exact .ite (.threadFault h) h
      · exact h
    · exact h
  · exact h

theorem State.canon.getComplete {n tag} (h : s.canon) : (getComplete n tag s).canon := by
  unfold Machine.getComplete
  extract_lets t
  split
  · exact .ite (.setThread (.noteMiss h)) h
  · exact h

theorem State.canon.finishThread {n k} (h : s.canon) : (finishThread n k s).canon := by
  induction k generalizing s with
  | zero => exact h
  | succ k ih =>
    unfold Machine.finishThread
    extract_lets t
    split
    · split
      · exact h
      · split
        · exact .threadFault h
        · exact ih (.threadExit h)
    · exact h

/-! ### Sys2Proof/Machine/Budget.lean -/

theorem State.canon.setAcct {p a} (h : s.canon) : (s.setAcct p a).canon := .ite (.wrBytes h) h

theorem State.canon.useTick (h : s.canon) : s.useTick.canon := by
  unfold State.useTick
  split
  · exact h
  · split
    · exact h
    · exact h

theorem State.canon.refillTick (h : s.canon) : (refillTick s).canon :=
  .ite h (.foldl (.with_refillAt (.useTick h)) fun _ _ h => .foldl h fun _ _ h => .setAcct h)

theorem State.canon.reserve {p n units} (h : s.canon) : (s.reserve p n units).canon := .ite (.setAcct h) h
theorem State.canon.unreserve {p n units} (h : s.canon) : (s.unreserve p n units).canon := .ite (.setAcct h) h
theorem State.canon.charge {p n units} (h : s.canon) : (s.charge p n units).canon := .ite (.setAcct h) h

/-! ### Sys2Proof/Machine/Park.lean -/

theorem State.canon.warmPlaces {len n taken l} {t : State} (h : s.canon) (e : s.warmPlaces len n taken = some (l, t)) : t.canon := by
  induction n generalizing s taken with
  | zero =>
    cases e
    exact h
  | succ n ih =>
    unfold State.warmPlaces at e
    split at e
    next e1 => exact ih (.warmAlloc h e1) e
    · cases e

theorem State.canon.addLocket {l} (h : s.canon) : (s.addLocket l).canon := h
theorem State.canon.releaseStrand {t} (h : s.canon) : (s.releaseStrand t).canon := .evalStall (.freePageList h)

theorem State.canon.storePark {t pin cold x id len} {u : State} (h : s.canon) (e : s.storePark t pin cold x = .done id len u) : u.canon := by
  unfold State.storePark at e
  extract_lets p body len' n full at e
  split at e
  · cases e
  · have hf : full ≠ .done id len u := by
      unfold full
      split <;> nofun
    split at e
    · exact absurd e hf
    · split at e
      · exact absurd e hf
      next s1 e1 =>
        split at e
        rename_i s2 e2
        have h2 : s2.canon := .of_eq e2 (.nextGen (.warmPlaces h e1))
        extract_lets id' img s3 l s4 at e
        have h3 : s3.canon := .foldl h2 fun _ _ h => .wrBytes h
        injection e with _ _ hu
        exact hu ▸ .releaseStrand (.addLocket (.partUpd h3))

theorem State.canon.useCandidate {t} (h : s.canon) : (s.useCandidate t).canon := by
  unfold State.useCandidate
  split
  · exact h
  · split
    · exact h
    · exact h

theorem State.canon.reclaimWalk {stop l} (h : s.canon) : (reclaimWalk stop l s).canon := by
  induction l generalizing s with
  | nil => exact h
  | cons t l ih =>
    unfold Machine.reclaimWalk
    split
    · exact h
    · extract_lets s1
      have h1 : s1.canon := .useCandidate h
      split
      next e => exact ih (.tell (.tell (.storePark h1 e)))
      · exact ih (.partUpd h1)
      · exact ih h1

theorem State.canon.retryReclaims {p} (h : s.canon) : (s.retryReclaims p).canon := by
  unfold State.retryReclaims
  refine .foldl h fun _ _ h => ?_
  extract_lets out
  split
  · exact h
  · split
    next e => exact .partUpd (.tell (.storePark h e))
    · exact h
    · exact h

theorem State.canon.retryAll (h : s.canon) : s.retryAll.canon := .foldl h fun _ _ h => .retryReclaims h
theorem State.canon.reclaimRung1 {p} (h : s.canon) : (reclaimRung1 p s).canon := .iteThen (.retryReclaims h) fun h => .reclaimWalk h

theorem State.canon.reclaimFor {p need but} (h : s.canon) : (reclaimFor p need but s).canon := by
  unfold Machine.reclaimFor
  extract_lets met cands s1 s2
  have h1 : s1.canon := .retryReclaims h
  have h2 : s2.canon := .reclaimWalk h1
  exact .iteElse h2 fun h => .reclaimWalk h

theorem State.canon.reclaimRung2 {p need} (h : s.canon) : (reclaimRung2 p need s).canon := .reclaimFor h

theorem State.canon.pageStallDrain {p sid} (h : s.canon) : (pageStallDrain p sid s).canon := by
  unfold Machine.pageStallDrain
  split
  · exact h
  · split
    · exact h
    · split
      · exact h
      next e => exact .ite (.strandUpd (.takePages h e)) (.commitStrand (.takePages h e))

theorem State.canon.takeSlot {p} (h : s.canon) : (s.takeSlot p).2.canon := h
theorem State.canon.countDenied {p reason} (h : s.canon) : (s.countDenied p reason).canon := .setRf (.bumpBy h)

theorem State.canon.admitSession_denied {p d pages cost hint} {u : State} (h : s.canon)
    (e : s.admitSession p d pages cost = .denied hint u) : u.canon := by
  unfold State.admitSession at e
  extract_lets need s1 at e
  have h1 : s1.canon := .ite (.reclaimFor h) h
  split at e
  · cases e
    exact .countDenied h1
  · split at e
    rename_i e1
    split at e
    · cases e
    · cases e
      exact .countDenied (.of_eq e1 (.takeSlot h1))

theorem State.canon.admitSession_ok {p d pages cost slot l} {u : State} (h : s.canon)
    (e : s.admitSession p d pages cost = .ok slot l u) : u.canon := by
  unfold State.admitSession at e
  extract_lets need s1 at e
  have h1 : s1.canon := .ite (.reclaimFor h) h
  split at e
  · cases e
  · split at e
    rename_i e1
    split at e
    next e2 =>
      cases e
      exact .takePages (.of_eq e1 (.takeSlot h1)) e2
    · cases e

theorem State.canon.pickHome {p} (h : s.canon) : (s.pickHome p).2.canon := h

/-! ### Sys2Proof/Machine/RunAhead.lean -/

theorem maskToken_keeps {σ : Type} {P : σ → Prop} {chk : σ → Nat → CpConfig → CheckRes × σ} (hc : ∀ s t g, P s → P (chk s t g).2)
    {c g org cost acc m s t} (h : P s) : P (maskToken c g org chk cost acc m s t).2 := by
  have hs := hc s t g h
  unfold maskToken
  split
  extract_lets
  split
  · exact h
  · exact h
  · split
    · split <;> (rename_i e; rw [e] at hs; exact hs)
    · exact h

theorem CpEnv.mask_keeps {c : CpEnv} {g org cost chk} (hc : ∀ s t g, s.canon → (chk s t g).2.canon) (h : s.canon) :
    (c.mask g org chk cost s).2.canon := by
  unfold CpEnv.mask
  extract_lets
  split
  · exact h
  · split
    extract_lets
    refine .foldl_snd h fun r x hr => ?_
    split
    split
    · exact hr
    · split
      · split
        · exact hr
        · exact hr
      · split
        · exact maskToken_keeps hc hr
        · split
          · exact maskToken_keeps hc hr
          · exact hr

theorem State.canon.buildMask {t mode g len node} (h : s.canon) : (s.buildMask t mode g len node).2.canon := by
  unfold State.buildMask
  split
  · exact h
  · split
    · exact CpEnv.mask_keeps (fun _ _ _ h => h) h
    · exact CpEnv.mask_keeps (fun _ _ _ h => .checkCall h) h

theorem State.canon.countOverrun {t units} (h : s.canon) : (s.countOverrun t units).canon := by
  unfold State.countOverrun
  split
  · exact .ite (.bump h) h
  · exact h

theorem State.canon.countEmpty {p st} (h : s.canon) : (s.countEmpty p st).canon := .ite (.bump h) (.bump h)

theorem State.canon.stepPages {p sid n} (h : s.canon) : (s.stepPages p sid n).2.canon := by
  unfold State.stepPages
  split
  · exact h
  · extract_lets need s1
    have h1 : s1.canon := .ite (.reclaimFor h) h
    split
    · exact h1
    · split
      next e => exact .takePages h1 e
      · exact h1

theorem State.canon.makeRa {t mode} (h : s.canon) : (s.makeRa t mode).2.canon := by
  unfold State.makeRa
  split
  rename_i s1 e
  have h1 : s1.canon := .of_eq e (.buildMask h)
  exact h1

theorem State.canon.dropRa {t} (h : s.canon) : (s.dropRa t).canon := h

theorem State.canon.evictRa {p c need l} (h : s.canon) : (evictRa p c need l s).canon := by
  induction l generalizing s with
  | nil => exact h
  | cons t l ih =>
    unfold Machine.evictRa
    exact .ite h (ih (.dropRa h))

theorem State.canon.storeRa {t r} (h : s.canon) : (s.storeRa t r).canon := .ite (.strandUpd (.evictRa h)) (.strandUpd (.evictRa h))

theorem State.canon.raStackPages {p sid} (h : s.canon) : (s.raStackPages p sid).canon := by
  unfold State.raStackPages
  split
  · split
    · split
      next e => exact .commitStrand (.of_eq e (.stepPages h))
      next e => exact .of_eq e (.stepPages h)
    · exact h
  · exact h

theorem State.canon.raHistPage {p sid} (h : s.canon) : (s.raHistPage p sid).canon := by
  unfold State.raHistPage
  split
  · split
    · split
      next e => exact .strandUpd (.of_eq e (.stepPages h))
      next e => exact .of_eq e (.stepPages h)
    · exact h
  · exact h

theorem State.canon.raPages {p sid} (h : s.canon) : (s.raPages p sid).canon := .ite h (.raHistPage (.raStackPages h))

theorem State.canon.rehomeFor {c t} (h : s.canon) : (s.rehomeFor c t).canon := by
  unfold State.rehomeFor
  split
  · exact h
  · extract_lets cs
    split
    rename_i s1 e
    have h1 : s1.canon := .of_eq e h
    split
    · exact h1
    · exact .wrBytes h1

theorem State.canon.rehomeDue {t} (h : s.canon) : (s.rehomeDue t).canon := .rehomeFor h

theorem State.canon.rehomeSession {p sid c} (h : s.canon) : (s.rehomeSession p sid c).canon := by
  unfold State.rehomeSession
  split
  · exact .rehomeFor h
  · exact h

theorem State.canon.runAhead {p sid} (h : s.canon) : (runAhead p sid s).canon := by
  unfold Machine.runAhead
  extract_lets s1
  have h1 : s1.canon := .rehomeSession h
  split
  · exact h1
  · exact .iteElse h1 fun h' => .storeRa (.makeRa (.raPages (.iteElse h' fun h => .bump h)))

theorem State.canon.useRa {t mode step} (h : s.canon) : (s.useRa t mode step).2.canon := by
  unfold State.useRa
  split
  · exact h
  · extract_lets s1 s2 s3
    have h1 : s1.canon := .ite (.raLateSeen (.bump h)) h
    have h2 : s2.canon := .iteElse h1 fun h => .bump h
    have h3 : s3.canon := .iteThen h2 fun h => .raPages h
    exact .makeRa h3

/-! ### Sys2Proof/Machine/Steps.lean -/

theorem stageHook_keeps {hk : State → Nat → List Cand → Option (BitVec 8) × List Cand × State}
    (hc : ∀ s j l, s.canon → (hk s j l).2.2.canon) {js r} (h : s.canon) : (stageHook hk js r s).2.2.canon := by
  induction js generalizing r s with
  | nil => exact h
  | cons j js ih =>
    unfold stageHook
    split
    next e => exact .of_eq2 e (hc _ _ _ h)
    next e => exact ih (.of_eq2 e (hc _ _ _ h))

theorem rowStages_keeps {hk : State → Nat → List Cand → Option (BitVec 8) × List Cand × State}
    (hc : ∀ s j l, s.canon → (hk s j l).2.2.canon) {b pen bias veff cs r} (h : s.canon) :
    (rowStages hk b pen bias veff cs r s).2.2.canon := by
  induction cs generalizing r s with
  | nil => exact h
  | cons c cs ih =>
    unfold rowStages
    split
    · split
      next e => exact ih (.of_eq2 e (stageHook_keeps hc h))
      · exact stageHook_keeps hc h
    · exact ih h

theorem State.canon.rowVals {a} (h : s.canon) : (s.rowVals a).2.2.canon := rowStages_keeps (fun _ _ _ h => .hookPiece h) h

theorem State.canon.firstSamp_error {a st} {t : State} (h : s.canon) (e : s.firstSamp a = .error (st, t)) : t.canon := by
  unfold State.firstSamp at e
  split at e
  · cases e
    exact h
  · split at e
    next e1 =>
      cases e
      exact .bumpBy (.of_eq2 e1 (.rowVals h))
    · cases e

theorem State.canon.firstSamp_ok {a m r} {t : State} (h : s.canon) (e : s.firstSamp a = .ok (m, r, t)) : t.canon := by
  unfold State.firstSamp at e
  split at e
  · cases e
  · split at e
    · cases e
    next e1 =>
      cases e
      exact .bumpBy (.of_eq2 e1 (.rowVals h))

theorem State.canon.drawWhole_error {a k n m st} {t : State} (h : s.canon) (e : State.drawWhole a k n m s = .error (st, t)) : t.canon := by
  induction n generalizing m s with
  | zero =>
    cases e
    exact h
  | succ n ih =>
    unfold State.drawWhole at e
    extract_lets p u at e
    split at e
    · split at e
      next e1 =>
        cases e
        exact .of_eq2 e1 (.rowVals (.bump h))
      next e1 => exact ih (.of_eq2 e1 (.rowVals (.bump h))) e
    · extract_lets s1 at e
      have h1 : s1.canon := .iteThen h fun h => .bump h
      split at e
      · cases e
      · split at e
        next e1 =>
          cases e
          exact .of_eq2 e1 (.rowVals (.bump h1))
        · cases e

theorem State.canon.drawWhole_ok {a k n m d} {t : State} (h : s.canon) (e : State.drawWhole a k n m s = .ok (d, t)) : t.canon := by
  induction n generalizing m s with
  | zero => cases e
  | succ n ih =>
    unfold State.drawWhole at e
    extract_lets p u at e
    split at e
    · split at e
      · cases e
      next e1 => exact ih (.of_eq2 e1 (.rowVals (.bump h))) e
    · extract_lets s1 at e
      have h1 : s1.canon := .iteThen h fun h => .bump h
      split at e
      · injection e with e
        injection e with _ e
        exact e ▸ h1
      · split at e
        · cases e
        next e1 =>
          injection e with e
          injection e with _ e
          exact e ▸ .of_eq2 e1 (.rowVals (.bump h1))

theorem State.canon.stackRoom {t depth} (h : s.canon) : (s.stackRoom t depth).2.canon := by
  unfold State.stackRoom
  split
  · extract_lets own
    split
    next e => exact .of_eq e (.stepPages h)
    next e => exact .of_eq e (.stepPages h)
  · exact h

theorem State.canon.histRoom {t} (h : s.canon) : (s.histRoom t).2.canon := by
  unfold State.histRoom
  extract_lets ring
  split
  · exact h
  · split
    · exact h
    · split
      · exact h
      · split
        next e => exact .of_eq e (.stepPages h)
        next e => exact .of_eq e (.stepPages h)

theorem State.canon.applyToken_noStack {t voc step phase x} {u : State} (h : s.canon)
    (e : s.applyToken t voc step phase x = .noStack u) : u.canon := by
  unfold State.applyToken at e
  split at e
  · cases e
  · split at e
    next e1 =>
      cases e
      exact .of_eq e1 (.stackRoom h)
    · split at e <;> cases e

theorem State.canon.applyToken_ringFull {t voc step phase x} {u : State} (h : s.canon)
    (e : s.applyToken t voc step phase x = .ringFull u) : u.canon := by
  unfold State.applyToken at e
  split at e
  · cases e
  · split at e
    · cases e
    next e1 =>
      split at e
      next e2 =>
        cases e
        exact .of_eq e2 (.histRoom (.of_eq e1 (.stackRoom h)))
      · cases e

theorem State.canon.applyToken_ok {t voc step phase x t' low r b} {u : State} (h : s.canon)
    (e : s.applyToken t voc step phase x = .ok t' low r b u) : u.canon := by
  unfold State.applyToken at e
  split at e
  · cases e
  · split at e
    · cases e
    next e1 =>
      split at e
      · cases e
      next e2 =>
        cases e
        exact .of_eq e2 (.histRoom (.of_eq e1 (.stackRoom h)))

theorem State.canon.sealCommit {t units} (h : s.canon) : (s.sealCommit t units).canon := by
  unfold State.sealCommit
  split
  rename_i s1 e
  have h1 : s1.canon := .of_eq e (.nextEpoch h)
  exact .commitStrand (.charge h1)

theorem State.canon.sealStep {t n} (h : s.canon) : (s.sealStep t n).canon := .sealCommit h
theorem State.canon.suspend {t} (h : s.canon) : (s.suspend t).canon := .commitStrand h
theorem State.canon.itemUpd {c k f} (h : s.canon) : (s.itemUpd c k f).canon := h
theorem State.canon.markFault {c} (h : s.canon) : (s.markFault c).canon := h

theorem State.canon.failItem {x k i st} (h : s.canon) : (s.failItem x k i st).canon := by
  unfold State.failItem
  extract_lets out txt t? s1 s2 s3 s4
  have h1 : s1.canon := .ite (.unreserve h) h
  have h2 : s2.canon := by
    unfold s2
    clear_value t?
    split
    · exact .countOverrun h1
    · exact h1
  have h3 : s3.canon := .wrBytes h2
  have h4 : s4.canon := .iteElse h3 fun h => .wrBytes h
  exact .itemUpd h4

theorem State.canon.decide {x k t m} (h : s.canon) : (s.decide x k t m).canon := by
  unfold State.decide
  split
  · exact h
  · extract_lets s1 m
    have h1 : s1.canon := .ite (.bump h) h
    split
    · exact .itemUpd h1
    · exact .itemUpd h1

theorem State.canon.reserveItem {x k i t} {u : State} (h : s.canon) (e : s.reserveItem x k i t = some u) : u.canon := by
  unfold State.reserveItem at e
  split at e
  · cases e
    exact h
  · extract_lets a at e
    split at e
    · cases e
      exact .itemUpd (.reserve h)
    · cases e

theorem State.canon.pickShares {t row l} {u : State} (h : s.canon) (e : s.pickShares t row = some (l, u)) : u.canon := by
  unfold State.pickShares at e
  extract_lets n cs at e
  split at e
  · cases e
    exact h
  · split at e
    · cases e
    · cases e
      exact h

theorem State.canon.stepRowStart {c k} (h : s.canon) : (stepRowStart c k s).canon := by
  unfold Machine.stepRowStart
  split
  · exact h
  · split
    · exact h
    · refine .ite h ?_
      extract_lets s1
      have h1 : s1.canon := .rehomeSession h
      split
      · exact .failItem h1
      · exact h1
      · split
        · exact .failItem h1
        next s2 e2 =>
          have h2 : s2.canon := .reserveItem h1 e2
          split
          · exact h1
          next s3 e3 =>
            have h3 : s3.canon := by
              split at e3
              · exact .pickShares h2 e3
              · cases e3
            extract_lets s4 i
            split
            rename_i s5 e5
            have h5 : s5.canon := .of_eq e5 (.useRa (.itemUpd h3))
            extract_lets t' a st s6
            split
            · exact .failItem (.dropRa h5)
            · refine .ite (.failItem (.countEmpty h5)) ?_
              split
              next e6 => exact .failItem (.firstSamp_error (.itemUpd h5) e6)
              next e6 => exact .decide (.firstSamp_ok (.itemUpd h5) e6)

theorem State.canon.extensionPass {c k} (h : s.canon) : (extensionPass c k s).canon := by
  unfold Machine.extensionPass
  split
  · exact h
  · split
    · exact h
    · split
      next e => exact .failItem (.bump (.of_eq2 e (.rowVals h)))
      next e => exact .decide (.bump (.of_eq2 e (.rowVals h)))

theorem State.canon.stepDrawPass {c k} (h : s.canon) : (stepDrawPass c k s).canon := by
  unfold Machine.stepDrawPass
  split
  · exact h
  · split
    · exact h
    · split
      next e => exact .failItem (.bump (.of_eq2 e (.rowVals h)))
      next e _ => exact .itemUpd (.bump (.of_eq2 e (.rowVals h)))
      next e _ => exact .of_eq2 e (.rowVals h)

theorem State.canon.stepCommit {c k} (h : s.canon) : (stepCommit c k s).canon := by
  unfold Machine.stepCommit
  split
  · exact h
  · split
    · exact h
    · split
      · split
        · exact h
        · split
          · exact h
          · extract_lets i
            split
            · exact .failItem (.bump h)
            next e => exact .failItem (.suspend (.applyToken_noStack h e))
            next e => exact .failItem (.suspend (.applyToken_ringFull h e))
            next e =>
              extract_lets s1 s2 st s3 s4
              have h1 : s1.canon := by
                exact .countOverrun (.applyToken_ok h e)
              have h2 : s2.canon := .sealStep (.unreserve h1)
              have h3 : s3.canon := .wrBytes h2
              have h4 : s4.canon := .iteElse h3 fun h => .wrBytes h
              exact .itemUpd h4
      · exact h

theorem State.canon.endBatch {x st} (h : s.canon) : (s.endBatch x st).canon := by
  unfold State.endBatch
  extract_lets e txt s1 s2
  have h1 : s1.canon := .ite h (.wrBytes h)
  have h2 : s2.canon := .wrBytes h1
  exact .ctxUpd h2

theorem State.canon.stepBatch {c} (h : s.canon) : (stepBatch c s).canon := by
  unfold Machine.stepBatch
  split
  · exact .ite (.endBatch h) h
  · exact h

/-! ### Sys2Proof/Machine/Masks.lean -/

theorem State.canon.forkNode {t tree mode r i} (h : r.2.canon) : (State.forkNode t tree mode r i).2.canon := by
  unfold State.forkNode
  split
  split
  · exact h
  · split
    · exact h
    · split
      · exact h
      · split
        · exact h
        · extract_lets len
          split
          · exact h
          · exact .countOverrun (.buildMask h)

theorem State.canon.forkTree {t tree mode} (h : s.canon) : (s.forkTree t tree mode).2.canon := by
  unfold State.forkTree
  split
  rename_i s1 e
  have h1 : s1.canon := .of_eq e (.useRa h)
  exact .foldl_snd (.countOverrun h1) fun _ _ h => .forkNode h

theorem State.canon.writeMask {t a form level node m} (h : s.canon) : (s.writeMask t a form level node m).canon := by
  unfold State.writeMask
  extract_lets veff
  split
  · split
    rename_i s1 e
    have h1 : s1.canon := .of_eq e h
    split
    rename_i s2 e'
    have h2 : s2.canon := .of_eq e' h1
    exact .wrBytes h2
  · exact .wrBytes (.wrBytes h)

theorem State.canon.writeMasks {t tree base sz form ms l n} (h : s.canon) : (writeMasks t tree base sz form ms l n s).2.2.canon := by
  induction l generalizing n s with
  | nil => exact h
  | cons i l ih =>
    unfold Machine.writeMasks
    split
    · exact h
    · exact ih (.writeMask h)

theorem State.canon.maskItem {x k i lim} (h : s.canon) : (s.maskItem x k i lim).canon := by
  unfold State.maskItem
  extract_lets fin
  split
  · exact h
  · split
    · exact h
    · split
      rename_i s1 e
      have h1 : s1.canon := by
        refine .of_eq e ?_
        split
        · exact .forkTree h
        · exact .useRa h
      split
      rename_i s2 e'
      have h2 : s2.canon := .of_eq2 e' (.writeMasks h1)
      exact .ite (.itemUpd h2) (.itemUpd h2)

theorem State.canon.maskItems {x lim} (h : s.canon) : (s.maskItems x lim).canon := by
  refine .foldl_snd h fun r i h => ?_
  dsimp only
  split
  · exact h
  · exact .maskItem h

theorem State.canon.endMasks {x st} (h : s.canon) : (s.endMasks x st).canon := .ctxUpd (.wrBytes (.wrBytes h))

theorem State.canon.maskBatch {c} (h : s.canon) : (maskBatch c s).canon := by
  unfold Machine.maskBatch
  split
  · split
    · extract_lets s1
      have h1 : s1.canon := .maskItems h
      split
      · exact .endMasks h1
      · exact h1
    · exact h
  · exact h

theorem State.canon.specText {x count} (h : s.canon) : (s.specText x count).canon := .ite h (.wrBytes h)

theorem State.canon.specFail {x tree st} (h : s.canon) : (s.specFail x tree st).canon := by
  unfold State.specFail
  extract_lets n
  split
  rename_i s1 e
  have h1 : s1.canon := .of_eq e h
  split
  rename_i s2 e'
  have h2 : s2.canon := .of_eq e' h1
  split
  rename_i s3 e''
  have h3 : s3.canon := .of_eq e'' h2
  extract_lets t?
  exact .ctxUpd (.wrBytes (.specText (.unreserve h3)))

theorem State.canon.specWalk_error {x t tree ms f cur path st} {u : State} (h : s.canon)
    (e : State.specWalk x t tree ms f cur path s = .error (st, u)) : u.canon := by
  induction f generalizing cur path s with
  | zero => cases e
  | succ f ih =>
    unfold State.specWalk at e
    split at e
    · split at e
      · cases e
      · extract_lets hist a at e
        split at e
        · cases e
          exact h
        · split at e
          next e' =>
            injection e with e
            injection e with _ e
            have h1 := h.firstSamp_error e'
            exact e ▸ .ite h1 (.markFault h1)
          next e' =>
            have h1 := h.firstSamp_ok e'
            split at e
            next e' =>
              cases e
              exact .markFault (.drawWhole_error h1 e')
            next e' =>
              extract_lets path' at e
              split at e
              · exact ih (.drawWhole_ok h1 e') e
              · cases e
    · cases e

theorem State.canon.specWalk_ok {x t tree ms f cur path r d} {u : State} (h : s.canon)
    (e : State.specWalk x t tree ms f cur path s = .ok (r, d, u)) : u.canon := by
  induction f generalizing cur path s with
  | zero =>
    cases e
    exact h
  | succ f ih =>
    unfold State.specWalk at e
    split at e
    · split at e
      · cases e
        exact h
      · extract_lets hist a at e
        split at e
        · cases e
        · split at e
          · cases e
          next e' =>
            have h1 := h.firstSamp_ok e'
            split at e
            · cases e
            next e' =>
              have h2 := h1.drawWhole_ok e'
              extract_lets path' at e
              split at e
              · exact ih h2 e
              · injection e with e
                injection e with _ e
                injection e with _ e
                exact e ▸ h2
    · cases e
      exact h

theorem State.canon.walkOverrun {t mask walk} (h : s.canon) : (s.walkOverrun t mask walk).canon := by
  unfold State.walkOverrun
  split
  · exact .ite (.bump h) h
  · exact h

theorem State.canon.specApply {voc units step phase l t low out} (h : s.canon) :
    (State.specApply voc units step phase l t low out s).2.2.2.2.canon := by
  induction l generalizing t low out s with
  | nil => exact h
  | cons x l ih =>
    unfold State.specApply
    split
    · exact h
    · extract_lets s1
      have h1 : s1.canon := .walkOverrun h
      split
      · exact h1
      next e => exact .applyToken_noStack h1 e
      next e => exact .applyToken_ringFull h1 e
      next e => exact ih (.applyToken_ok h1 e)

theorem State.canon.specRecords {x sid out} (h : s.canon) : (s.specRecords x sid out).canon :=
  .foldl h fun _ _ h => .iteElse (.wrBytes h) fun h => .wrBytes h

theorem State.canon.specCommit {x t tree ms path dead} (h : s.canon) : (s.specCommit x t tree ms path dead).canon := by
  unfold State.specCommit
  split
  · exact h
  · split
    rename_i out cut s1 e
    have h1 : s1.canon := by
      have h1 := h.specApply (voc := ‹Voc›) (units := ms.units) (step := (s.sd[t.domain]).step.toNat)
        (phase := s.phase t.domain) (l := path) (t := t) (low := t.stack.length) (out := [])
      rw [e] at h1
      exact h1
    extract_lets s2 susp n s3 s4 s5 fin epoch nodes
    have h2 : s2.canon := .iteThen h1 fun h => .bump h
    split
    · exact .ite (.specFail (.suspend h2)) (.specFail h2)
    · have h3 : s3.canon := .sealStep (.unreserve h2)
      have h4 : s4.canon := .bump64 h3
      have h5 : s5.canon := .specText (.specRecords h4)
      exact .ctxUpd (.wrBytes h5)

theorem State.canon.specShares {x tree l} {u : State} (h : s.canon) (e : s.specShares x tree = some (l, u)) : u.canon := by
  unfold State.specShares at e
  split at e
  · exact .pickShares h e
  · cases e
    exact h

theorem State.canon.specVerify {c} (h : s.canon) : (specVerify c s).canon := by
  unfold Machine.specVerify
  split
  · exact h
  · split
    · exact h
    · split
      · exact h
      next s0 e =>
        extract_lets s1 n tree s2
        have h1 : s1.canon := .ctxUpd (.specShares h e)
        have h2 : s2.canon := .bump64 h1
        split
        · exact .specFail h2
        · split
          · exact .specFail h2
          · split
            rename_i s3 e'
            have h3 : s3.canon := .of_eq e' (.forkTree h2)
            split
            · exact h3
            · split
              · exact .specFail (.markFault h3)
              · split
                · exact .specFail (.countEmpty h3)
                · split
                  next e => exact .specFail (.specWalk_error h3 e)
                  next e => exact .specCommit (.specWalk_ok h3 e)

/-! ### Sys2Proof/Machine/Encode.lean -/

theorem State.canon.formPart {x clu pt f part} (h : f.s.canon) : (formPart x clu pt f part).s.canon := by
  unfold Machine.formPart
  split
  · exact h
  · exact h
  · split
    next e => exact .of_eq2 e (.pretokCall h)
    next e => exact .of_eq2 e (.pretokCall h)

theorem State.canon.foldl_formPart {x clu pt} {f : Forming} {l : List (List TU × Bool)} (h : f.s.canon) :
    (l.foldl (Machine.formPart x clu pt) f).s.canon := by
  induction l generalizing f with
  | nil => exact h
  | cons a l ih => exact ih (.formPart h)

theorem State.canon.formItem {x v clu pt i} {f : Forming} (h : f.s.canon) : (formItem x v clu pt f i).s.canon := by
  unfold Machine.formItem
  split
  · split
    · exact h
    · exact h
  · generalize v.pretok _ = l
    induction l generalizing f with
    | nil => exact h
    | cons a l ih =>
      refine ih ?_
      beta_reduce
      split
      · exact h
      · exact .foldl_formPart h

theorem State.canon.foldl_formItem {x v clu pt} {f : Forming} {l : List Item} (h : f.s.canon) :
    (l.foldl (Machine.formItem x v clu pt) f).s.canon := by
  induction l generalizing f with
  | nil => exact h
  | cons i l ih => exact ih (.formItem h)

theorem State.canon.formText {x v} (h : s.canon) : (s.formText x v).s.canon := by
  unfold State.formText
  split
  next e => exact .foldl_formItem (.of_eq e (.pickHome h))

theorem State.canon.formSegs {x} (h : s.canon) : (s.formSegs x).canon := by
  unfold State.formSegs
  split
  · exact h
  · exact .ctxUpd (.bumpBy (.formText h))

theorem State.canon.encodeUnitIssue {p} (h : s.canon) : (encodeUnitIssue p s).canon := by
  unfold Machine.encodeUnitIssue
  split
  · exact h
  · split
    · exact h
    · extract_lets beads
      split
      rename_i s1 e
      have h1 : s1.canon := .of_eq e h
      split
      rename_i s2 e'
      have h2 : s2.canon := .of_eq e' h1
      split
      · extract_lets name order s3 s4
        have h4 : s4.canon := .ctxUpd h2
        split
        · exact .setThread h4
        · exact h4
      · exact h2

theorem State.canon.freeUnits {x} (h : s.canon) : (s.freeUnits x).canon := .foldl h fun _ _ h => .setThread h

theorem State.canon.encodeFail {x st noFit} (h : s.canon) : (s.encodeFail x st noFit).canon := by
  unfold State.encodeFail
  extract_lets e out
  split
  split
  split
  rename_i s1 e''
  have h1 : s1.canon := .of_eq e'' h
  exact .ctxUpd (.wrBytes (.wrBytes (.freeUnits (.spoil h1))))

theorem State.canon.appendFail {x st} (h : s.canon) : (s.appendFail x st).canon := .ctxUpd (.freePageList (.freeUnits h))
theorem State.canon.encEnd {x st} (h : s.canon) : (s.encEnd x st).canon := .ite (.encodeFail h) (.appendFail h)

theorem State.canon.endUnit {c unit} (h : s.canon) : (State.endUnit c s unit).canon := by
  unfold State.endUnit
  split
  · exact h
  · split
    · split
      · extract_lets prog s1 th
        have h1 : s1.canon := .ite (.finishThread h) h
        split
        · exact .ctxUpd (.setThread h1)
        · exact .ctxUpd (.bump64 (.setThread h1))
      · exact h
    · exact h

theorem State.canon.unitFault {c} (h : s.canon) : (s.unitFault c).canon := by
  unfold State.unitFault
  split
  · exact h
  · extract_lets s1
    have h1 : s1.canon := .foldl h fun _ _ h => .endUnit h
    split
    · exact h1
    · exact .encEnd (.markFault h1)

theorem State.canon.encodeUnitEnd {c unit} (h : s.canon) : (encodeUnitEnd c unit s).canon := .unitFault (.endUnit h)

theorem State.canon.takeAppendPages {x t} (h : s.canon) : (s.takeAppendPages x t).canon := by
  unfold State.takeAppendPages
  split
  · exact h
  · split
    next e => exact .ctxUpd (.of_eq e (.stepPages h))
    next e => exact .appendFail (.of_eq e (.stepPages h))

theorem State.canon.encode {c} (h : s.canon) : (encode c s).canon := by
  unfold Machine.encode
  split
  · exact h
  · extract_lets e
    split
    · extract_lets need
      split
      · exact h
      · split
        · exact .encodeFail h
        · exact .ite (.encodeFail h) (.ctxUpd (.wrBytes (.iteThen (.iteThen (.iteThen (.iteThen (.wrBytes h) fun h => .wrBytes h)
            fun h => .wrBytes h) fun h => .wrBytes h) fun h => .wrBytes h)))
    · exact h

theorem State.canon.encodeAppend {c} (h : s.canon) : (encodeAppend c s).canon := by
  unfold Machine.encodeAppend
  split
  · exact h
  · split
    · extract_lets need
      split
      · exact h
      · split
        · exact .appendFail h
        · split
          · exact .appendFail h
          · split
            next e => exact .appendFail (.of_eq e (.stepPages h))
            next e => exact .ctxUpd (.sealCommit (.of_eq e (.stepPages h)))
    · exact h

theorem State.canon.decode {c} (h : s.canon) : (decode c s).canon := by
  unfold Machine.decode
  split
  · exact h
  · extract_lets e
    split
    · exact h
    · exact .ite h (.ite (.ctxUpd (.spoil h)) (.ctxUpd (.wrBytes h)))

theorem State.canon.prefillOut {x descs n copyOff st bytes} (h : s.canon) : (s.prefillOut x descs n copyOff st bytes).canon :=
  .ctxUpd (.wrBytes (.wrBytes h))

theorem State.canon.prefillChunks {c} (h : s.canon) : (prefillChunks c s).canon := by
  unfold Machine.prefillChunks
  split
  · exact h
  · exact .ite h (.ite h (.ite (.prefillOut (.spoil h)) (.prefillOut (.ite (.wrBytes h) h))))

theorem State.canon.hashBlocks {c} (h : s.canon) : (hashBlocks c s).canon := by
  unfold Machine.hashBlocks
  split
  · exact h
  · extract_lets e
    split
    · exact .ite h (.ctxUpd (.iteThen (.wrBytes h) fun h => .wrBytes h))
    · exact h

/-! ### Sys2Proof/Machine/ObjLoad.lean -/

theorem State.canon.loadKind {p kind x ss} (h : s.canon) : (s.loadKind p kind x ss).2.canon := by
  unfold State.loadKind
  extract_lets bad dig id ovls chk fin fin'
  clear_value chk
  split
  · exact h
  · split
    · exact h
    · exact h
  · split
    · exact h
    · split
      · exact h
      · split
        · exact h
        · exact h
  · split
    · exact h
    · split
      · exact h
      · split
        · exact h
        · split
          · exact h
          · split
            · exact h
            · exact h
  · split
    · exact h
    · split
      · exact h
      · split
        · exact h
        · exact h
  · exact h

theorem State.canon.replace {p} (h : s.canon) : (s.replace p).canon := h
theorem State.canon.loadEnd {x st} (h : s.canon) : (s.loadEnd x st).canon := .ctxUpd (.dropId h)

theorem State.canon.writeBacking {p key units img} (h : s.canon) : (s.writeBacking p key units img).canon := by
  unfold State.writeBacking
  split
  rename_i s1 e
  have h1 : s1.canon := .of_eq e h
  exact .foldl h1 fun _ _ h => .wrBytes h

theorem State.canon.publish {x v} (h : s.canon) : (s.publish x v).canon := .ctxUpd (.collect (.replace (.objIdUpd h)))

theorem State.canon.objectLoad {c} (h : s.canon) : (objectLoad c s).canon := by
  unfold Machine.objectLoad
  split
  · exact h
  · extract_lets e p id kind img room
    split
    · exact h
    · split
      · split
        · exact .loadEnd h
        · split
          · exact .loadEnd h
          · split
            · exact .loadEnd h
            · extract_lets hdr
              split
              next e' => exact .loadEnd (.of_eq e' (.loadKind h))
              next e' =>
                have h1 := State.canon.of_eq e' (.loadKind h)
                split
                · exact .loadEnd h1
                next e'' => exact .publish (.writeBacking (.takeUnits h1 e''))
      · exact h

theorem State.canon.objectRetire {c} (h : s.canon) : (objectRetire c s).canon := by
  unfold Machine.objectRetire
  split
  · exact h
  · exact .ite h (.ctxUpd (.collect h))

/-! ### Sys2Proof/Machine/Rings.lean -/

theorem State.canon.evalXoff {r} (h : s.canon) : (s.evalXoff r).canon := h
theorem State.canon.sqDoorbell {r v} (h : s.canon) : (sqDoorbell r v s).canon := .ite h (.ite (.ringError (.setRb h)) (.ringUpd (.setReg h)))
theorem State.canon.sqFail {r} (h : s.canon) : (s.sqFail r).canon := .ringError h

theorem State.canon.sqFetch1 {r} (h : s.canon) : (s.sqFetch1 r).canon := by
  unfold State.sqFetch1
  extract_lets x head
  split
  · exact h
  · split
    · exact h
    · exact .ite (.setReg h) (.sqFail h)

theorem State.canon.sqFetch {r} (h : s.canon) : (sqFetch r s).canon := .evalXoff (.sqFetch1 (.sqFetch1 (.sqFetch1 (.sqFetch1 h))))
theorem State.canon.pushWord {r k v} (h : s.canon) : (pushWord r k v s).canon := .ite h h
theorem State.canon.pushEnter {r v} (h : s.canon) : (s.pushEnter r v).canon := .setReg (.setReg h)
theorem State.canon.pushCommit {r v} (h : s.canon) : (pushCommit r v s).canon := .ite h (.ite (.setRb h) (.ite h (.evalXoff (.pushEnter h))))

theorem State.canon.pushNext {r} (h : s.canon) : (s.pushNext r).canon := by
  unfold State.pushNext
  split
  · exact .pushEnter h
  · exact h

theorem State.canon.pushResume {r} (h : s.canon) : (s.pushResume r).canon := .ite (.pushNext h) h

theorem State.canon.pushDrain {r n} (h : s.canon) : (s.pushDrain r n).canon := by
  induction n generalizing s with
  | zero => exact h
  | succ n ih => exact ih (.pushResume h)

theorem State.canon.putCompletion {rng r status entry index res0 res1 res2} (h : s.canon) :
    (s.putCompletion rng r status entry index res0 res1 res2).canon := by
  unfold State.putCompletion
  extract_lets tail a ph ok s1 w s2
  have h1 : s1.canon := .ite (.wrBytes h) h
  have h2 : s2.canon := .ringUpd (.setReg h1)
  exact .iteElse h2 fun h => .ringError h

theorem State.canon.cqWriteFailed {r a} (h : s.canon) : (s.cqWriteFailed r a).canon := by
  unfold State.cqWriteFailed
  split
  · exact .ringError (.ringUpd (.wrBytes h))
  · exact h

theorem State.canon.cqStalled {p r} (h : s.canon) : (s.cqStalled p r).canon := .ite h (.post h)

theorem State.canon.drainCancelled {p r n} (h : s.canon) : (s.drainCancelled p r n).canon := by
  induction n generalizing s with
  | zero => exact h
  | succ n ih =>
    unfold State.drainCancelled
    split
    · exact h
    · split
      · exact .cqStalled h
      · exact ih (.ringUpd (.putCompletion h))

theorem State.canon.cqHeadWrite {r v} (h : s.canon) : (cqHeadWrite r v s).canon := by
  unfold Machine.cqHeadWrite
  extract_lets occ
  split
  · exact .ringError (.setRb h)
  · split
    · exact .drainCancelled (.ringUpd (.setReg h))
    · exact .ringUpd (.setReg h)

theorem State.canon.ringFields {r v} (h : s.canon) : (s.ringFields r v).canon :=
  .iteElse (.setRf (.setRf (.setRf h))) fun h => .setRf (.setRf (.setRf h))

theorem State.canon.ringEnable {r v} (h : s.canon) : (ringEnable r v s).canon := by
  unfold Machine.ringEnable
  exact .ite h (.ite (.evalXoff (.ringUpd (.setReg (.setReg (.setReg (.setReg (.setRb (.ringFields h)))))))) (.evalXoff (.ringFields h)))

theorem State.canon.ringDisable {r v} (h : s.canon) : (ringDisable r v s).canon :=
  .ite h (.iteThen (.evalXoff (.setRb (.ringFields h))) fun h => .setRb (.ringUpd h))

theorem State.canon.ringFlush {r v} (h : s.canon) : (ringFlush r v s).canon := by
  unfold Machine.ringFlush
  split
  · exact h
  · extract_lets s1 s2 s3 s4
    have h1 : s1.canon := .pushNext h
    have h2 : s2.canon := .ringUpd h1
    have h3 : s3.canon := .iteElse h2 fun h => .setReg h
    have h4 : s4.canon := .evalXoff (.pushDrain h3)
    split
    · exact .drainCancelled h4
    · exact h4

theorem State.canon.logitsReadyDoorbell {r v} (h : s.canon) : (logitsReadyDoorbell r v s).canon := .with_ctxs h
theorem State.canon.postReport {p} (h : s.canon) : (s.postReport p).canon := .ite (.partUpd (.post h)) h

theorem State.canon.evqEnable {p v} (h : s.canon) : (evqEnable p v s).canon :=
  .ite h (.postReport (.partUpd (.setReg (.setReg (.setRf (.setRf h))))))

theorem State.canon.evqCfg {p v} (h : s.canon) : (s.evqCfg p v).canon := .setRf (.ite h (.setRf h))
theorem State.canon.evqHeadWrite {p v} (h : s.canon) : (evqHeadWrite p v s).canon := .ite (.post h) (.setReg h)
theorem State.canon.coalTimerExpiry {r} (h : s.canon) : (coalTimerExpiry r s).canon := .ite h h

/-! ### Sys2Proof/Machine/Dispatcher.lean -/

theorem State.canon.markObject {p e} (h : s.canon) : (s.markObject p e).canon := by
  unfold State.markObject
  extract_lets id
  split
  · split
    · exact h
    · exact h
  · exact .ite h h

theorem State.canon.dispatchTo {r c late ready} (h : s.canon) : (s.dispatchTo r c late ready).canon := by
  unfold State.dispatchTo
  split
  · extract_lets e s1 params n b x
    have h1 : s1.canon := .evalXoff (.pushResume h)
    split
    rename_i s2 e'
    have h2 : s2.canon := by
      refine .of_eq e' ?_
      split
      · exact h1
      · exact h1
      · exact .markObject h1
    extract_lets s3
    have h3 : s3.canon := h2
    exact .setRf h3
  · exact h

theorem State.canon.dispatched {r index} (h : s.canon) : (s.dispatched r index).canon := h

theorem State.canon.opDispatch {r} (h : s.canon) : (opDispatch r s).canon := by
  unfold Machine.opDispatch
  split
  · exact h
  · split
    · split
      · exact h
      · exact .ite h (.dispatched (.dispatchTo h))
    · split
      · exact h
      · split
        · exact h
        · exact .dispatchTo h

theorem State.canon.appendReady {x} (h : s.canon) : (s.appendReady x).canon := by
  unfold State.appendReady
  split
  · exact .appendFail h
  · extract_lets a
    split
    · exact .ite (.appendFail h) (.ite h (.ctxUpd (.post h)))
    · split
      · exact h
      · split
        · exact .appendFail h
        · split
          · exact .takeAppendPages (.formSegs h)
          · exact .formSegs h

theorem State.canon.specReady {x} (h : s.canon) : (s.specReady x).canon := by
  unfold State.specReady
  extract_lets tree
  split
  · exact h
  · exact .ite (.specFail h) (.ctxUpd (.reserve h))

theorem State.canon.reserveItems {c n} (h : s.canon) : (s.reserveItems c n).canon := by
  induction n with
  | zero => exact h
  | succ n ih =>
    unfold State.reserveItems
    extract_lets s1
    split
    · exact ih
    · split
      · exact ih
      · split
        · exact ih
        · split
          · split
            next e => exact .reserveItem ih e
            · exact .failItem ih
          · exact ih

theorem State.canon.endWith {x st} (h : s.canon) : (s.endWith x st).canon := h

theorem State.canon.makeReady {x} (h : s.canon) : (s.makeReady x).canon := by
  unfold State.makeReady
  extract_lets c s1
  have h1 : s1.canon := .ite (.foldl h fun _ _ h => .rehomeSession h) h
  split
  · exact .formSegs (.ctxUpd h1)
  · exact .appendReady h1
  · exact .iteElse h1 fun h => .reserveItems (.ctxUpd h)
  · exact .specReady h1
  · exact .ctxUpd h1
  · exact .ctxUpd h1
  · split
    · exact .iteThen (.ctxUpd h1) fun h => .stopMove h
    · exact .ctxUpd h1
  · split
    · exact .iteThen (.ctxUpd h1) fun h => .stopMove h
    · exact .ctxUpd h1
  · split
    · exact .iteThen (.ctxUpd h1) fun h => .stopMove h
    · exact .ctxUpd h1
  · exact .ctxUpd h1

theorem State.canon.opReady {c} (h : s.canon) : (opReady c s).canon := by
  unfold Machine.opReady
  split
  · exact h
  · split
    · exact h
    · split
      · split
        · exact h
        · exact .ite h (.ite (.endWith h) (.makeReady h))
      · exact .ite h (.makeReady h)

theorem State.canon.unmarkObject {x} (h : s.canon) : (s.unmarkObject x).canon := .ite (.dropId h) h

theorem State.canon.completionWrite {c} (h : s.canon) : (completionWrite c s).canon := by
  unfold Machine.completionWrite
  split
  · exact h
  · split
    · exact h
    · exact .ite h (.ite (.cqStalled h) (.collect (.unmarkObject (.ctxFree (.putCompletion h)))))

theorem State.canon.clasp {c} (h : s.canon) : (clasp c s).canon := by
  unfold Machine.clasp
  split
  · exact .ite h h
  · exact h

theorem State.canon.query {c} (h : s.canon) : (query c s).canon := by
  unfold Machine.query
  split
  · exact .ite h h
  · exact h

/-! ### Sys2Proof/Machine/Sessions.lean -/

theorem State.canon.endOk {c r0 r1} (h : s.canon) : (s.endOk c r0 r1).canon := h
theorem State.canon.endDenied {c hint} (h : s.canon) : (s.endDenied c hint).canon := h

theorem State.canon.enterStrand {t pages} (h : s.canon) : (s.enterStrand t pages).2.canon := by
  unfold State.enterStrand
  split
  rename_i s1 e
  have h1 : s1.canon := .of_eq e h
  exact .with_strands h1

theorem State.canon.sessionOpen {c} (h : s.canon) : (sessionOpen c s).canon := by
  unfold Machine.sessionOpen
  split
  · exact h
  · extract_lets p sid
    split
    · exact h
    · extract_lets veff
      split
      next e => exact .endDenied (.admitSession_denied h e)
      next e => exact .endOk (.sealCommit (.enterStrand (.admitSession_ok h e)))
    · exact h

theorem State.canon.sessionClose {c} (h : s.canon) : (sessionClose c s).canon := by
  unfold Machine.sessionClose
  split
  · exact h
  · extract_lets p sid
    split
    · exact .endOk (.collect (.releaseStrand h))
    · exact .endOk (.dropLocket h)
    · exact h

theorem State.canon.rollback {c} (h : s.canon) : (rollback c s).canon := by
  unfold Machine.rollback
  split
  · exact h
  · extract_lets p n
    split
    · exact h
    · split
      · exact h
      · split
        · exact h
        · extract_lets s1 s2
          have h2 : s2.canon := .rehomeSession (.sealCommit h)
          split
          · exact .ite (.endOk (.runAhead h2)) h
          · exact h

theorem State.canon.opBudgetSet {c} (h : s.canon) : (opBudgetSet c s).canon := by
  unfold Machine.opBudgetSet
  split
  · exact h
  · exact .endOk (.setAcct h)

/-! ### Sys2Proof/Machine/Transfer.lean -/

theorem State.canon.pastCommit {c r0 r1} (h : s.canon) : (s.pastCommit c r0 r1).canon := h

theorem State.canon.parkCold {c p sid} (h : s.canon) : (s.parkCold c p sid).canon := by
  unfold State.parkCold
  split
  · exact h
  · extract_lets r1 s1
    have h1 : s1.canon := .ite (.startMove h) h
    split
    · exact .ite (.pastCommit h1) (.endOk h1)
    · exact h1

theorem State.canon.parkParked {x pin cold} (h : s.canon) : (s.parkParked x pin cold).canon := by
  unfold State.parkParked
  extract_lets p
  split
  · exact h
  · exact .ite h (.ite h (.ite h (.ite h (.ite h (.parkCold h)))))

theorem State.canon.park {c} (h : s.canon) : (park c s).canon := by
  unfold Machine.park
  split
  · exact h
  · extract_lets pin cold
    split
    · exact .parkParked h
    · split
      · exact .ite h h
      · exact h
      next e => exact .ite (.parkCold (.storePark h e)) (.endOk (.storePark h e))

theorem State.canon.moveWalk {stop l} (h : s.canon) : (moveWalk stop l s).canon := by
  induction l generalizing s with
  | nil => exact h
  | cons l r ih => exact .iteElse h fun h => ih (.ite (.startMove h) h)

theorem State.canon.warmMovePressure {p} (h : s.canon) : (warmMovePressure p s).canon := .ite h (.moveWalk h)
theorem State.canon.warmMoveAge {p} (h : s.canon) : (warmMoveAge p s).canon := .ite h (.moveWalk h)
theorem State.canon.repairWarm {x l} (h : s.canon) : (s.repairWarm x l).canon := .foldl h fun _ _ h => .bump (.wrBytes h)

theorem State.canon.readLocket_good {x l} {u : State} (h : s.canon) (e : s.readLocket x l = .good u) : u.canon := by
  unfold State.readLocket at e
  extract_lets cold issue at e
  clear_value cold
  split at e
  · cases e
    exact .repairWarm h
  · split at e
    · cases e
      exact h
    · cases e
    · split at e
      · cases e
      · split at e
        · cases e
        · cases e

theorem State.canon.readLocket_waits {x l} {u : State} (h : s.canon) (e : s.readLocket x l = .waits u) : u.canon := by
  unfold State.readLocket at e
  extract_lets cold issue at e
  clear_value cold
  split at e
  · cases e
  · split at e
    · cases e
    · cases e
    · split at e
      · cases e
        exact h
      · split at e
        · injection e with e
          exact e ▸ .ctxUpd (.issueRead h)
        · cases e

theorem State.canon.bindStrand {t pages} (h : s.canon) : (s.bindStrand t pages).canon := by
  unfold State.bindStrand
  split
  rename_i s1 e
  have h1 : s1.canon := .of_eq e (.enterStrand h)
  exact .commitStrand (.nextEpoch h1)

theorem State.canon.unadmit {x} (h : s.canon) : (s.unadmit x).canon := .ctxUpd h

theorem State.canon.reviveRead {x l b v slot} (h : s.canon) : (s.reviveRead x l b v slot).canon := by
  unfold State.reviveRead
  split
  next e => exact .readLocket_waits h e
  · exact .endWith (.markLost (.unadmit h))
  next e =>
    split
    rename_i s1 e'
    have h1 : s1.canon := .of_eq e' (.freeBelow (.readLocket_good h e))
    extract_lets t _ s2
    have h2 : s2.canon := .ctxUpd h1
    exact .endOk (.dropLocket (.bindStrand h2))

theorem State.canon.revive {c} (h : s.canon) : (revive c s).canon := by
  unfold Machine.revive
  split
  · exact h
  · split
    · exact .ite h (.endWith (.unadmit h))
    · split
      · exact .endWith (.unadmit h)
      · split
        · exact .reviveRead h
        · extract_lets veff
          split
          next e => exact .endDenied (.admitSession_denied h e)
          next e => exact .reviveRead (.ctxUpd (.admitSession_ok h e))

theorem State.canon.exportTo {x key body pages close} (h : s.canon) (hclose : ∀ s, s.canon → (close s).canon) :
    (s.exportTo x key body pages close).canon :=
  .ite (.endWith (.spoil (.nextGen h))) (.endOk (.iteElse (.wrBytes (.nextGen h)) fun h => hclose _ h))

theorem State.canon.locketExport {c} (h : s.canon) : (locketExport c s).canon := by
  unfold Machine.locketExport
  split
  · exact h
  · split
    · exact .ite h (.endWith (.spoil h))
    · split
      · exact .exportTo h (fun _ h => .collect (.releaseStrand h))
      · split
        · exact h
        · split
          · exact h
          · split
            next e => exact .readLocket_waits h e
            · exact .endWith (.markLost h)
            next e => exact .exportTo (.readLocket_good h e) (fun _ h => .dropLocket h)
      · exact h
      · exact h

theorem State.canon.locketImport {c} (h : s.canon) : (locketImport c s).canon := by
  unfold Machine.locketImport
  split
  · exact h
  · extract_lets p sid hdr len
    split
    · exact h
    · exact h
    · split
      · exact h
      · split
        · exact h
        · split
          · exact h
          · split
            · exact h
            · extract_lets ovl cp hook veff
              split
              next e => exact .endDenied (.admitSession_denied h e)
              next e => exact .endOk (.bindStrand (.with_freeCtr (.admitSession_ok h e)))

theorem State.canon.rekeyRead {l ks bad} (h : s.canon) : (State.rekeyRead l ks bad s).2.canon := by
  induction ks generalizing bad s with
  | nil => exact h
  | cons k ks ih =>
    unfold State.rekeyRead
    split
    rename_i ok s1 e
    have h1 : s1.canon := by
      refine .of_eq e ?_
      split
      · exact .bgRead h
      · exact h
    split
    · exact .foldl h1 fun _ _ h => .repairTwin h
    · exact ih h1

/-- A fold that gives up at its first failure: what it ends with is canonical when each step keeps that. -/
theorem State.canon.foldl_some {α β : Type} {f : Option (β × State) → α → Option (β × State)} {l : List α} {acc : Option (β × State)}
    {r : β × State} (h : ∀ x ∈ acc, x.2.canon) (hf : ∀ acc a, (∀ x ∈ acc, x.2.canon) → ∀ x ∈ f acc a, x.2.canon)
    (e : l.foldl f acc = some r) : r.2.canon := by
  induction l generalizing acc with
  | nil => exact h r e
  | cons a l ih => exact ih (hf acc a h) e

theorem State.canon.rekeyOne {l cur} {u : State} (h : s.canon) (e : s.rekeyOne l cur = some u) : u.canon := by
  unfold State.rekeyOne at e
  extract_lets img s1 parsed at e
  have h1 : s1.canon := .partUpd h
  split at e
  · split at e
    · injection e with e
      exact e ▸ .markLost h1
    · split at e
      next e' =>
        injection e with e
        exact e ▸ .locketUpd (.foldl (.warmPlaces h1 e') fun _ _ h => .wrBytes h)
      · cases e
  · split at e
    rename_i e'
    have h2 := State.canon.of_eq e' (.rekeyRead h1)
    split at e
    · injection e with e
      exact e ▸ .markLost h2
    · split at e
      next e'' =>
        injection e with e
        refine e ▸ .locketUpd (.foldl_some ?_ (fun acc k h => ?_) e'')
        · rintro _ ⟨⟩
          exact h2
        · split
          · intro x hx
            obtain ⟨y, hy, rfl⟩ := Option.map_eq_some_iff.mp hx
            exact .placeFor (h _ rfl) hy
          · exact fun x hx => absurd hx (Option.not_mem_none x)
      · cases e

theorem State.canon.rekeyRewrite {p} (h : s.canon) : (rekeyRewrite p s).canon := by
  unfold Machine.rekeyRewrite
  split
  · extract_lets s1
    have h1 : s1.canon := by
      unfold s1
      split
      · generalize e : List.findSome? _ _ = r
        cases r with
        | none => exact h
        | some u =>
          obtain ⟨l, -, e⟩ := List.exists_of_findSome?_eq_some e
          exact .rekeyOne h e
      · exact h
    exact .iteThen h1 fun h => .jAppendAll h
  · exact h

/-! ### Sys2Proof/Machine/MediaOps.lean -/

theorem State.canon.loseCopy {l k} (h : s.canon) : (s.loseCopy l k).canon := .ite (.rewriteCopy h) (.ite (.repairTwin h) (.ite h (.markLost h)))

theorem State.canon.loseDie {c d} (h : s.canon) : (s.loseDie c d).canon := by
  unfold State.loseDie
  refine .foldl h fun _ _ h => .foldl h fun _ _ h => ?_
  split
  · exact .loseCopy h
  · exact h

theorem State.canon.endDie {c d} (h : s.canon) : (s.endDie c d).canon := by
  unfold State.endDie
  extract_lets jobs s1 s2 s3
  have h2 : s2.canon := .chanUpd h
  have h3 : s3.canon := .loseDie h2
  refine .foldl h3 fun _ _ h => ?_
  split
  · split
    · exact .readFailed h
    · exact h
  · exact h

theorem State.canon.dieGone {c d} (h : s.canon) : (s.dieGone c d).canon := .endDie (.chanUpd h)
theorem State.canon.goOffline {c} (h : s.canon) : (s.goOffline c).canon := .foldl h fun _ _ h => .endDie h
theorem State.canon.checkJournal {c} (h : s.canon) : (s.checkJournal c).canon := .ite (.goOffline h) h

theorem State.canon.dieTimeout {c d} (h : s.canon) : (dieTimeout c d s).canon := by
  unfold Machine.dieTimeout
  extract_lets x
  split
  · exact h
  · exact .ite h (.ite (.dieGone h) h)

theorem State.canon.bringUp {c dies} (h : s.canon) : (s.bringUp c dies).canon := .foldl (.chanUpd h) fun _ _ h => .ite h (.endDie h)
theorem State.canon.takeOffline {c} (h : s.canon) : (s.takeOffline c).canon := .goOffline h
theorem State.canon.channelOffline {c v} (h : s.canon) : (channelOffline c v s).canon := .ite h (.takeOffline (.setRb h))
theorem State.canon.startJournal {c} (h : s.canon) : (s.startJournal c).canon := .checkJournal (.jRewrite h)
theorem State.canon.clearWorn {p} (h : s.canon) : (s.clearWorn p).canon := .ite h (.jAppendAll h)
theorem State.canon.format {c} (h : s.canon) : (s.format c).canon := .foldl (.startJournal h) fun _ _ h => .clearWorn h
theorem State.canon.channelFormat {c v} (h : s.canon) : (channelFormat c v s).canon := .ite (.format h) h
theorem State.canon.eraseChan {c} (h : s.canon) : (s.eraseChan c).canon := .startJournal (.foldl h fun _ _ h => .retire h)
theorem State.canon.zqCalibration {c} (h : s.canon) : (zqCalibration c s).canon := .ite h h
theorem State.canon.trackerJournal {c} (h : s.canon) : (trackerJournal c s).canon := .ite h (.foldl h fun _ _ h => h)

theorem State.canon.relocateBlock {c d num onto read} (h : s.canon) : (s.relocateBlock c d num onto read).canon := by
  unfold State.relocateBlock
  refine .foldl h fun s x h => ?_
  split
  split
  · exact h
  · split
    rename_i s1 e
    have h1 : s1.canon := by
      refine .of_eq e ?_
      split
      · exact .bgRead h
      · exact h
    extract_lets twin
    split
    · exact .iteThen h1 fun h => .loseCopy h
    · split
      next e =>
        refine .locketUpd ?_
        split at e
        · split at e
          · exact .placeFor h1 e
          · exact .placeOn h1 e
        · exact .placeFor h1 e
      · exact h1

theorem State.canon.collection {c d} (h : s.canon) : (collection c d s).canon := by
  unfold Machine.collection
  extract_lets x y data free on s1 best
  have h1 : s1.canon := .dieUpd h
  clear_value best
  split
  · exact h1
  · split
    · exact h1
    · exact .ite (.addJobs h1) (.ite (.relocateBlock h1) h1)

theorem State.canon.staticLevelling {c d} (h : s.canon) : (staticLevelling c d s).canon := by
  unfold Machine.staticLevelling
  extract_lets x worn pes hi lo gap
  split
  · exact h
  · split
    · extract_lets s1 planes s2 s3
      have h1 : s1.canon := .closeStripe h
      have h2 : s2.canon := .setBlocks h1
      have h3 : s3.canon := .chanUpd h2
      exact .relocateBlock h3
    · exact h

theorem State.canon.scrubBad {c d num plane page w} (h : s.canon) : (s.scrubBad c d num plane page w).canon := by
  unfold State.scrubBad
  extract_lets s1
  have h1 : s1.canon := .faultEvent h
  refine .foldl h1 fun _ _ h => .ite ?_ h
  split
  · exact .loseCopy h
  · exact h

theorem State.canon.scrubBlock {c cws} (h : s.canon) : (scrubBlock c cws s).canon := by
  unfold Machine.scrubBlock
  split
  · exact h
  · split
    · exact h
    · exact .ite h (.iteThen (.iteThen (.dieUpd (.foldl (.ladder h) fun _ _ h => .scrubBad h)) fun h => .relocateBlock h) fun h => .retire h)

theorem State.canon.jErase {c} (h : s.canon) : (s.jErase c).canon := .foldl h fun _ _ h => .retire h

theorem State.canon.jRepair {c i} (h : s.canon) : (s.jRepair c i).canon := by
  unfold State.jRepair
  split
  · exact h
  · split
    next e => exact .chanUpd (.jProgram_fst h e)
    next e => exact .of_eq e (.jProgram h)

theorem State.canon.journalCompaction {j} (h : s.canon) : (journalCompaction j s).canon :=
  .ite h (.ite (.checkJournal (.jRewrite (.jErase h))) (.foldl h fun _ _ h => .jRepair h))

theorem State.canon.replayPut {c r} (h : s.canon) : (s.replayPut c r).canon := by
  unfold State.replayPut
  extract_lets k
  split
  · extract_lets cold
    split
    · exact h
    · exact h
  · split
    · exact h
    · split
      rename_i s1 e
      have h1 : s1.canon := .of_eq e h
      exact .with_lockets h1

theorem State.canon.loseUnreached {p} (h : s.canon) : (s.loseUnreached p).canon := by
  unfold State.loseUnreached
  refine .foldl h fun _ _ h => .ite h (.foldl h fun _ _ h => ?_)
  split
  · exact .loseCopy h
  · exact h

theorem State.canon.replayChan {c p} (h : s.canon) : (s.replayChan c p).canon :=
  .foldl (.foldl h fun _ _ h => .ite (.replayPut h) h) fun _ _ h => .ite h h

theorem State.canon.resumeCounters {c} (h : s.canon) : (s.resumeCounters c).canon := .foldl h fun _ _ h => h

theorem State.canon.indexRebuild (h : s.canon) : (indexRebuild s).canon := by
  unfold Machine.indexRebuild
  split
  · exact h
  · extract_lets s1
    have h1 : s1.canon := by
      refine .foldl h fun _ _ h => ?_
      split
      · exact .replayChan h
      · exact h
    exact .foldl (.with_indexOk h1) fun _ _ h => .loseUnreached h

theorem State.canon.channelOnline {c v dies} (h : s.canon) : (channelOnline c v dies s).canon := by
  unfold Machine.channelOnline
  split
  · exact h
  · extract_lets s1
    have h1 : s1.canon := .bringUp (.setRb h)
    split
    · exact .iteThen (.iteThen h1 fun h => .resumeCounters h) fun h => .loseUnreached (.replayChan h)
    · exact h1

theorem State.canon.countChan {c ev} (h : s.canon) : (s.countChan c ev).canon := .count h

theorem State.canon.chanOp {c d ev f} (hf : ∀ s, s.canon → (f s).canon) (h : s.canon) : (chanOp c d ev f s).canon :=
  .iteElse (hf _ h) fun h => .countChan h

/-! ### Sys2Proof/Machine/StepClock.lean -/

theorem State.canon.sdEvt {d group} (h : s.canon) : (s.sdEvt d group).canon := .setRb h
theorem State.canon.postBeat {d code} (h : s.canon) : (s.postBeat d code).canon := .foldl h fun _ _ h => .ite (.post h) h
theorem State.canon.measure {d} (h : s.canon) : (s.measure d).canon := .ite (.setReg h) h
theorem State.canon.realBeat {d} (h : s.canon) : (s.realBeat d).canon := .sdUpd (.measure h)
theorem State.canon.overrun {d} (h : s.canon) : (s.overrun d).canon := .sdEvt (.bump h)
theorem State.canon.riseLevel {d} (h : s.canon) : (s.riseLevel d).canon := h

theorem State.canon.filterEdge {d} (h : s.canon) : (s.filterEdge d).canon := by
  unfold State.filterEdge
  extract_lets x e
  split
  · exact h
  · exact .realBeat h
  · exact .ite (.realBeat h) (.overrun h)
  · exact .ite (.overrun h) (.ite (.postBeat (.sdEvt (.realBeat h))) (.overrun h))

theorem State.canon.stepBeatEdge {d} (h : s.canon) : (stepBeatEdge d s).canon := .ite h (.ite h (.riseLevel (.filterEdge h)))

theorem State.canon.beatStuckDetect {d} (h : s.canon) : (beatStuckDetect d s).canon := by
  unfold Machine.beatStuckDetect
  extract_lets x
  split
  · exact .ite (.postBeat (.sdEvt h)) h
  · exact h

theorem State.canon.beatRelease {d} (h : s.canon) : (beatRelease d s).canon := .ite h h
theorem State.canon.beatLevelFall {d} (h : s.canon) : (beatLevelFall d s).canon := .ite h h
theorem State.canon.beatWatchdogExpiry {d} (h : s.canon) : (beatWatchdogExpiry d s).canon := .ite (.postBeat (.sdEvt h)) h
theorem State.canon.syntheticBeat {d} (h : s.canon) : (syntheticBeat d s).canon := .ite h h
theorem State.canon.sdCtrlFields {d v} (h : s.canon) : (s.sdCtrlFields d v).canon := .iteElse (.setRf (.setRf h)) fun h => .setRb h
theorem State.canon.sdStart {d} (h : s.canon) : (s.sdStart d).canon := .sdUpd (.setReg h)
theorem State.canon.sdEnable {d v} (h : s.canon) : (sdEnable d v s).canon := .ite (.sdStart (.setRb (.sdCtrlFields h))) h
theorem State.canon.sdStop {d} (h : s.canon) : (s.sdStop d).canon := .sdUpd (.setRb h)

/-! ### Sys2Proof/Machine/OpLife.lean -/

theorem State.canon.failItems {x st} (h : s.canon) : (s.failItems x st).canon := .foldl h fun _ _ h => .ite h (.failItem h)

theorem State.canon.lateHeader {x} (h : s.canon) : (s.lateHeader x).canon := by
  unfold State.lateHeader
  split
  · split
    · exact .wr8 h
    · exact h
  · exact h

theorem State.canon.partsDone {x n} (h : s.canon) : (s.partsDone x n).2.canon := by
  unfold State.partsDone
  split
  · exact h
  · exact h

theorem State.canon.spoilSlots {x} (h : s.canon) : (s.spoilSlots x).canon := .foldl h fun _ _ h => .ite h (.spoil h)

theorem State.canon.stopMasks {x st} (h : s.canon) : (s.stopMasks x st).canon := by
  unfold State.stopMasks
  split
  rename_i s1 e
  have h1 : s1.canon := .of_eq e (.partsDone h)
  extract_lets s2
  have h2 : s2.canon := .ite (.maskItems h1) h1
  split
  · exact .endMasks (.spoilSlots h2)
  · exact h2

theorem State.canon.opFail {x st} (h : s.canon) : (s.opFail x st).canon := by
  unfold State.opFail
  extract_lets e op
  refine .ite (.encEnd h) (.ite ?_ (.ite (.stopMasks h) (.ite (.specFail h) (.ite (.loadEnd h) (.ite (.endWith (.unadmit h)) (.ite ?_ (.ite ?_
    (.ite (.endWith (.spoilOut h)) h))))))))
  · split
    · exact .endBatch (.failItems h)
    · exact .failItems h
  · exact .prefillOut (.spoil (.partsDone h))
  · exact .ctxUpd (.wrBytes (.spoilOut (.partsDone h)))

theorem State.canon.opDrop {x st} (h : s.canon) : (s.opDrop x st).canon := .ite (.loadEnd h) h

theorem State.canon.cancel {c} (h : s.canon) : (cancel c s).canon := by
  unfold Machine.cancel
  split
  · exact h
  · split
    · exact h
    · exact .ite h (.ite (.endOk (.opDrop h)) h)

theorem State.canon.abort {c} (h : s.canon) : (abort c s).canon := by
  unfold Machine.abort
  split
  · exact h
  · split
    · exact h
    · split
      · exact h
      · split
        · exact .endOk (.opDrop h)
        · exact .ite (.endOk h) (.endOk (.opFail h))
        · exact .ite h (.endOk (.lateHeader h))

theorem State.canon.missDeadline {x} (h : s.canon) : (s.missDeadline x).canon := by
  unfold State.missDeadline
  split
  · extract_lets s1
    have h1 : s1.canon := .failItems h
    split
    · exact .endBatch h1
    · exact h1
  · exact .opFail h

theorem State.canon.stopPoint {x} (h : s.canon) : (s.stopPoint x).canon := .ite (.missDeadline h) (.opFail h)

theorem State.canon.deadlineReached {c} (h : s.canon) : (deadlineReached c s).canon := by
  unfold Machine.deadlineReached
  split
  · exact .ite (.missDeadline (.tellOp h)) h
  · exact h

theorem State.canon.logitsReadyPoint {c} (h : s.canon) : (logitsReadyPoint c s).canon := by
  unfold Machine.logitsReadyPoint
  split
  · exact .ite (.ctxUpd (.tellOp h)) h
  · exact h

theorem State.canon.sdDisable {d v} (h : s.canon) : (sdDisable d v s).canon :=
  .ite h (.iteThen (.sdCtrlFields h) fun h' => .sdStop (.foldl h' fun _ _ h => .stopPoint h))

/-! ### Sys2Proof/Machine/OnChip.lean -/

theorem State.canon.evictBank {c p} (h : s.canon) : (s.evictBank c p).canon := .foldl h fun _ _ h => .ite (.dropRa h) h
theorem State.canon.handBank {c b x} (h : s.canon) : (s.handBank c b x).canon := .ite (.setRf h) (.ite h (.evictBank (.scrUpd (.setRf h))))
theorem State.canon.bankOwnerWrite {c b v} (h : s.canon) : (bankOwnerWrite c b v s).canon := .ite h (.ite (.setRb h) (.handBank h))

theorem State.canon.bankDrainDone {c b} (h : s.canon) : (bankDrainDone c b s).canon := by
  unfold Machine.bankDrainDone
  split
  · exact .ite h (.setRf (.scrUpd (.foldl h fun _ _ h => h)))
  · exact h

theorem State.canon.failPart {x k st} (h : s.canon) : (s.failPart x k st).canon := by
  refine .failGated (fun s h => ?_) h
  split
  · exact .failItem h
  · exact .opFail h

theorem State.canon.consume {r st} (h : s.canon) : (s.consume r st).canon := by
  unfold State.consume
  extract_lets s1
  have h1 : s1.canon := .ite (.bump h) h
  split
  · extract_lets t
    split
    · exact .threadFault (.with_freeCtr h1)
    · exact h1
  · split
    · exact .failPart h1
    · exact h1
  · split
    · exact .failPart h1
    · exact h1
  · exact .strandUpd h1

theorem State.canon.poisonWork {n} (h : s.canon) : (s.poisonWork n).canon := by
  unfold State.poisonWork
  extract_lets t
  split
  · exact .ite h (.setThread h)
  · exact h

theorem State.canon.poisonRead {r} (h : s.canon) : (s.poisonRead r).canon := by
  unfold State.poisonRead
  split
  · exact .poisonWork h
  · exact .consume h

theorem State.canon.patrolLine {c line ue} (h : s.canon) : (s.patrolLine c line ue).canon := .ite (.scratchError h) h
theorem State.canon.patrolScrub {c errs} (h : s.canon) : (patrolScrub c errs s).canon := .ite h (.foldl h fun _ _ h => .patrolLine h)

theorem State.canon.vgsLineReload {b line ok} (h : s.canon) : (vgsLineReload b line ok s).canon := by
  unfold Machine.vgsLineReload
  split
  · exact h
  · extract_lets k unwritten s1 s2 s3 s4 v
    have h1 : s1.canon := .bump h
    have h2 : s2.canon := by
      unfold s2
      split
      · exact .missLines h1
      · exact h1
    have h3 : s3.canon := .iteElse h2 fun h => .bump h
    have h4 : s4.canon := .iteElse h3 fun h => .setReg h
    split
    · exact .with_vgs h4
    · split
      · exact .with_vgs h4
      · split
        next e => exact .consume (.of_eq e (.with_freeCtr (.with_vgs h4)))
        next e => exact .of_eq e (.with_freeCtr (.with_vgs h4))

theorem State.canon.fabErr {q i} (h : s.canon) : (s.fabErr q i).canon := .setRb (.ite h (.setReg (.setReg64 h)))
theorem State.canon.failServed {y st} (h : s.canon) : (s.failServed y st).canon := .failPart h

theorem State.canon.fillFailed {q} (h : s.canon) : (s.fillFailed q).canon := by
  unfold State.fillFailed
  split
  · exact .vgsLineReload h
  · exact h

theorem State.canon.failRequest {q st} (h : s.canon) : (s.failRequest q st).canon := by
  unfold State.failRequest
  split
  · exact h
  · split
    · exact h
    · exact .failServed (.ite (.bump h) h)

theorem State.canon.fabFail {q} (h : s.canon) : (s.fabFail q).canon := by
  unfold State.fabFail
  extract_lets s1
  have h1 : s1.canon := .fillFailed (.failRequest h)
  split
  · exact h1
  · split
    · exact .ite (.cqWriteFailed h1) (.sqFail h1)
    · exact .iteThen h1 fun h => .evqWriteFailed h
    · exact h1

theorem State.canon.fabPoison {q} (h : s.canon) : (s.fabPoison q).canon := by
  unfold State.fabPoison
  extract_lets s1
  have h1 : s1.canon := by
    unfold s1
    split
    · exact h
    · exact h
    · exact .fillFailed h
  split
  · exact .sqFail h1
  · exact .failRequest h1

theorem State.canon.fabData {q} (h : s.canon) : (s.fabData q).canon := by
  unfold State.fabData
  split
  · exact .ite h h
  · exact h

theorem State.canon.fabExpire {q} (h : s.canon) : (s.fabExpire q).canon := by
  unfold State.fabExpire
  extract_lets s1 s2
  have h1 : s1.canon := .fabFail (.setRb (.fabErr h))
  have h2 : s2.canon := .iteThen h1 fun h => .spoil h
  exact .faultEvent (.with_fabLate h2)

theorem State.canon.fabDiscard {q} (h : s.canon) : (s.fabDiscard q).canon := .bump h

theorem State.canon.fabEnded {q} (h : s.canon) : (s.fabEnded q).canon := by
  unfold State.fabEnded
  split
  · exact .spoilOut (.opFail h)
  · exact h

theorem State.canon.fabricResponse {q resp} (h : s.canon) : (fabricResponse q resp s).canon := by
  unfold Machine.fabricResponse
  exact .ite h (.ite (.fabEnded h) (.ite (.fabDiscard h) (.ite (.fabDiscard (.fabExpire h)) (.ite (.fabData h) (.ite (.ite h (.fabPoison
    (.fabErr h))) (.fabFail (.fabErr h)))))))

theorem State.canon.fabricTimeout {q} (h : s.canon) : (fabricTimeout q s).canon := .ite h (.fabExpire h)

/-! ### Sys2Proof/Machine/Power.lean -/

theorem State.canon.vsegUpd {g f} (h : s.canon) : (s.vsegUpd g f).canon := h

theorem State.canon.setRisk {g} (h : s.canon) : (s.setRisk g).canon := by
  unfold State.setRisk
  split
  · exact h
  · extract_lets s1
    have h1 : s1.canon := .grpUpd (.setRb h)
    split
    · exact .post h1
    · exact h1

theorem State.canon.clearRisk {g} (h : s.canon) : (s.clearRisk g).canon := .grpUpd (.setRb h)

theorem State.canon.grpEval {g} (h : s.canon) : (s.grpEval g).canon := by
  unfold State.grpEval
  extract_lets was now s1 s2
  have h1 : s1.canon := .setRb (.setRb h)
  have h2 : s2.canon := .setRb (.setRb h1)
  exact .iteThen h2 fun h => .setRisk h

theorem State.canon.movePoint {g i} (h : s.canon) : (s.movePoint g i).canon := by
  unfold State.movePoint
  extract_lets up s1 s2
  have h1 : s1.canon := .setRf h
  have h2 : s2.canon := .ite (.bumpBy h1) (.bumpBy h1)
  exact .grpEval (.trace' h2)

theorem State.canon.vsegFollow {g} (h : s.canon) : (s.vsegFollow g).canon := .ite h h

theorem State.canon.lowerTo {g i n} (h : s.canon) : (s.lowerTo g i n).canon := by
  induction n generalizing s with
  | zero => exact h
  | succ n ih => exact .iteThen h fun h => ih (.movePoint h)

theorem State.canon.raiseOne {g} (h : s.canon) : (s.raiseOne g).canon := .ite h h

theorem State.canon.settle {g} (h : s.canon) : (s.settle g).canon :=
  .iteElse (.grpEval h) fun h' => .iteThen (.vsegFollow (.lowerTo h')) fun h => .raiseOne h

theorem State.canon.vsegAck {g} (h : s.canon) : (vsegAck g s).canon := by
  unfold Machine.vsegAck
  extract_lets v
  split
  · exact h
  · split
    · extract_lets k
      split
      · exact .ite (.iteThen (.vsegUpd h) fun h => .movePoint h) h
      · exact h
    · exact h

theorem State.canon.grpVolt {g} (h : s.canon) : (s.grpVolt g).canon := .ite h h

theorem State.canon.vsegAckLowered {g} (h : s.canon) : (vsegAckLowered g s).canon := by
  unfold Machine.vsegAckLowered
  split
  · exact h
  · extract_lets s1
    split
    · exact .ite (.ite (.grpVolt h) h) (.ite (.raiseOne h) (.vsegFollow h))
    · exact h

theorem State.canon.vsegAckTimeout {g} (h : s.canon) : (vsegAckTimeout g s).canon := .ite h h

theorem State.canon.setDom {d on} (h : s.canon) : (s.setDom d on).canon := by
  unfold State.setDom
  split
  · exact .setRb h
  · exact h

theorem State.canon.resetRegs {a b keep} (h : s.canon) : (s.resetRegs a b keep).canon := ⟨h.1, h.2.1, regsSorted_filter _ h.2.2⟩
theorem State.canon.clearCluster {c} (h : s.canon) : (s.clearCluster c).canon := .resetRegs (.with_strands_threads_imem h)
theorem State.canon.clearQuad {q} (h : s.canon) : (s.clearQuad q).canon := .with_vgs h
theorem State.canon.clearPark (h : s.canon) : s.clearPark.canon := h
theorem State.canon.bringUpAll (h : s.canon) : s.bringUpAll.canon := .foldl h fun _ _ h => .bringUp h
theorem State.canon.grpDown {g} (h : s.canon) : (s.grpDown g).canon := .ite h (.grpEval (.vsegUpd (.setRf h)))

theorem State.canon.sleep {d} (h : s.canon) : (s.sleep d).canon := by
  unfold State.sleep
  extract_lets s1
  have h1 : s1.canon := .setDom h
  split
  · exact .grpDown (.clearCluster h1)
  · split
    · exact .clearQuad h1
    · split
      · exact .with_indexOk (.resetRegs (.clearPark h1))
      · exact .with_parts (.resetRegs h1)
      · exact .with_fabLate (.resetRegs h1)
      · exact h1

theorem State.canon.sleepWaits {d} (h : s.canon) : (s.sleepWaits d).canon := h
theorem State.canon.sleepDue (h : s.canon) : s.sleepDue.canon := .foldl h fun _ _ h => .sleep h
theorem State.canon.noteDom {gain d} (h : s.canon) : (s.noteDom gain d).canon := h

theorem State.canon.domainOffRequest {d} (h : s.canon) : (domainOffRequest d s).canon := by
  unfold Machine.domainOffRequest
  split
  · exact h
  · extract_lets s1
    exact .ite (.setRb (.setRb h)) (.ite (.iteElse (.with_waking (.setRb h)) fun h => .ite (.sleepWaits h) (.sleep h)) (.iteThen (.setRb h)
      fun h => .setRb h))

theorem State.canon.domainWake {d} (h : s.canon) : (domainWake d s).canon := by
  unfold Machine.domainWake
  extract_lets s1 s2
  have h1 : s1.canon := by
    unfold s1
    split
    · exact .setRb h
    · exact h
  have h2 : s2.canon := .with_sleeping h1
  split
  · exact h2
  · split
    · exact .grpVolt (.with_waking h2)
    · exact .with_waking h2

theorem State.canon.grpUp {g} (h : s.canon) : (s.grpUp g).canon := by
  unfold State.grpUp
  split
  · exact .ite h (.vsegUpd (.setRf h))
  · exact h

theorem State.canon.domainWakeDone {d} (h : s.canon) : (domainWakeDone d s).canon := by
  unfold Machine.domainWakeDone
  split
  · exact h
  · split
    · exact .ite h (.settle (.setDom (.clearCluster (.with_waking (.grpUp h)))))
    · extract_lets s1
      have h1 : s1.canon := .setDom h
      exact .ite (.restartMoves (.bringUpAll h1)) (.iteThen h1 fun h => .clearQuad h)

theorem State.canon.govern {g} (h : s.canon) : (s.govern g).canon := by
  unfold State.govern
  split
  · exact .ite (.grpVolt h) h
  · extract_lets x o hi lo
    split
    next u s0 e =>
      extract_lets cur raise lower hot cool s1 s2 s3 s4
      have h1 : s1.canon := .grpUpd (.of_eq e (.freeBelow h))
      have h2 : s2.canon := .setRf (.setRf (.setRb h1))
      have h3 : s3.canon := .iteThen h2 fun h => .setRisk h
      have h4 : s4.canon := .iteThen h3 fun h => .clearRisk h
      exact .ite (.raiseOne h4) (.ite (.vsegFollow (.movePoint h4)) (.vsegFollow h4))

theorem State.canon.governorInterval (h : s.canon) : (governorInterval s).canon := .ite h (.foldl h fun _ _ h => .govern h)
theorem State.canon.setLimit {g i} (h : s.canon) : (s.setLimit g i).canon := .settle (.setRf h)
theorem State.canon.setGate {n} (h : s.canon) : (s.setGate n).canon := .grpEval (.setRf h)

theorem State.canon.capTick (h : s.canon) : (capTick s).canon := by
  unfold Machine.capTick
  split
  · exact h
  · split
    rename_i s1 e
    have h1 : s1.canon := .of_eq e (.with_freeCtr h)
    extract_lets es s2 w
    have h2 : s2.canon := .setRf h1
    split
    · exact .setGate (.foldl h2 fun _ _ h => .setLimit h)
    · split
      · exact .foldl h2 fun _ _ h => .setLimit h
      · split
        · split
          · exact .setLimit h2
          · exact .setGate h2
        · split
          · split
            · exact .setGate (.with_raisedAt h2)
            · split
              · exact .setLimit (.with_raisedAt h2)
              · exact h2
          · exact h2

theorem State.canon.thermalSample {maxC} (h : s.canon) : (thermalSample maxC s).canon := by
  unfold Machine.thermalSample
  split
  · exact h
  · extract_lets t s1
    have h1 : s1.canon := .setRf h
    split
    · exact .with_coolAt (.iteElse h1 fun h => .setRb (.setRb h))
    · split
      · split
        · exact .with_coolAt h1
        · exact .iteThen h1 fun h => .setRb h
      · exact .with_coolAt h1

theorem State.canon.rehome {t c} (h : s.canon) : (s.rehome t c).canon := .wrBytes h

theorem State.canon.placeMoves {p cs n} (h : s.canon) : (s.placeMoves p cs n).canon := by
  induction n generalizing s with
  | zero => exact h
  | succ n ih =>
    unfold State.placeMoves
    extract_lets total
    split
    · split
      · exact h
      · split
        · exact h
        · split
          · exact h
          · exact ih (.bump (.rehome h))
    · exact h

theorem State.canon.placementPeriod {p} (h : s.canon) : (placementPeriod p s).canon := .ite h (.ite (.placeMoves h) h)

theorem State.canon.forwardDom {d on} (h : s.canon) : (s.forwardDom d on).canon := by
  unfold State.forwardDom
  split
  · exact h
  · exact .ite (.forwardWrite (.forwardWrite h)) (.forwardWrite h)

/-! ### Sys2Proof/Machine/Partition.lean -/

theorem State.canon.snapshot (h : s.canon) : s.snapshot.canon := h
theorem State.canon.copyPage {p src dst} (h : s.canon) : (s.copyPage p src dst).canon := .foldl h fun _ _ h => .ite (.setReg h) h
theorem State.canon.zeroArea {a n} (h : s.canon) : (s.zeroArea a n).canon := ⟨cellWf_filter _ _ h.1, h.2⟩

theorem State.canon.groupLeaves {g} (h : s.canon) : (s.groupLeaves g).canon :=
  .clearRisk (.foldl h fun _ _ h => .foldl h fun _ _ h => .ite h (.handBank h))

theorem State.canon.pairsLeave {l} (h : s.canon) : (s.pairsLeave l).canon := h

theorem State.canon.evacuate {p cs} (h : s.canon) : (s.evacuate p cs).canon := by
  unfold State.evacuate
  refine .foldl h fun _ _ h => .ite h ?_
  split
  next e => exact .locketUpd (.placeFor h e)
  · exact h

theorem State.canon.stateRecord {c p} (h : s.canon) : (s.stateRecord c p).canon := h

theorem State.canon.chanJoins {p c} (h : s.canon) : (s.chanJoins p c).canon := by
  unfold State.chanJoins
  split
  · exact h
  · exact .ite (.stateRecord (.replayChan (.resumeCounters h))) h

theorem State.canon.joined {p cs} (h : s.canon) : (s.joined p cs).canon :=
  .ite h (.foldl (.iteThen (.loseUnreached h) fun h => .setCurrent h) fun _ _ h => .checkWorn h)

theorem State.canon.gainDom {d} (h : s.canon) : (s.gainDom d).canon := .noteDom (.ite (.setRb h) h)
theorem State.canon.wakeFor {l} (h : s.canon) : (s.wakeFor l).canon := .foldl h fun _ _ h => .iteThen (.ite (.domainWake h) h) fun h => .gainDom h
theorem State.canon.reserveAtEnable {p} (h : s.canon) : (s.reserveAtEnable p).canon := .iteThen (.ite (.jAppendAll h) h) fun h => .jAppendAll h
theorem State.canon.endKeyCommand {p} (h : s.canon) : (s.endKeyCommand p).canon := .ite (.keyResult h) h
theorem State.canon.freshCounters {p} (h : s.canon) : (s.freshCounters p).canon := .foldl h fun _ _ h => .setReg h

theorem State.canon.acceptCommit {p} (h : s.canon) : (s.acceptCommit p).canon := by
  unfold State.acceptCommit
  extract_lets join leave off on areas s1 s2 s3 s4 s5 s6 s7 s8 s9 s10 s11 s12
  have h1 : s1.canon := .copyPage h
  have h2 : s2.canon := .setRb (.setReg h1)
  have h3 : s3.canon := .partUpd h2
  have h4 : s4.canon := .foldl h3 fun _ _ h => .groupLeaves h
  have h5 : s5.canon := .pairsLeave h4
  have h6 : s6.canon := .foldl h5 fun _ _ h => .rehomeDue h
  have h7 : s7.canon := .foldl h6 fun _ _ h => h
  have h8 : s8.canon := .evacuate h7
  have h9 : s9.canon := .iteThen h8 fun h => .wakeFor h
  have h10 : s10.canon := .joined (.foldl h9 fun _ _ h => .chanJoins h)
  have h11 : s11.canon := .iteThen h10 fun h => .reserveAtEnable (.freshCounters h)
  have h12 : s12.canon := .iteThen h11 fun h => .setRb (.endKeyCommand (.setRb h))
  exact .snapshot h12

theorem State.canon.genCommit {p v} (h : s.canon) : (genCommit p v s).canon := by
  unfold Machine.genCommit
  split
  · exact h
  · extract_lets s1
    have h1 : s1.canon := by
      unfold s1
      split
      · exact .setRf (.setRb h)
      · exact .acceptCommit h
    exact .iteThen h1 fun h => .copyPage h

theorem State.canon.genDiscard {p v} (h : s.canon) : (genDiscard p v s).canon := .ite (.copyPage h) h
theorem State.canon.clearPair {k} (h : s.canon) : (s.clearPair k).canon := h

theorem State.canon.clearTenant {p} (h : s.canon) : (s.clearTenant p).canon := by
  unfold State.clearTenant
  extract_lets s1 s2 w
  have h1 : s1.canon := .foldl h fun _ _ h => .zeroArea h
  have h2 : s2.canon := .partUpd h1
  exact .setRb (.resetRegs h2)

theorem State.canon.genDone {p} (h : s.canon) : (genDone p s).canon := by
  unfold Machine.genDone
  extract_lets leave s1 s2 s3 s4 s5 s6 s7
  have h1 : s1.canon := .evacuate h
  have h2 : s2.canon := .foldl h1 fun _ _ h => .rehomeDue h
  have h3 : s3.canon := .foldl h2 fun _ _ h => .clearPair h
  have h4 : s4.canon := .foldl h3 fun _ _ h => .eraseChan h
  have h5 : s5.canon := .foldl h4 fun _ _ h => .ite (.checkWorn (.stateRecord (.eraseChan h))) h
  have h6 : s6.canon := .partUpd h5
  have h7 : s7.canon := .post h6
  exact .ite h (.ite h1 (.setRb (.iteThen h7 fun h => .clearTenant h)))

/-! ### Sys2Proof/Machine/Keys.lean -/

theorem State.canon.zeroKeyIn (h : s.canon) : s.zeroKeyIn.canon := .foldl h fun _ _ h => .setReg h
theorem State.canon.slotCompare (h : s.canon) : s.slotCompare.canon := .ite h (.ite (.faultEvent h) h)

theorem State.canon.keyCommand {op v f} (h : s.canon) (hf : ∀ s, s.canon → (f s).canon) : (s.keyCommand op v f).canon :=
  .ite h (.ite (.zeroKeyIn (.keyResult h)) (.slotCompare (.zeroKeyIn (hf _ h))))

theorem State.canon.leaveKeys {p} (h : s.canon) : (s.leaveKeys p).canon := .ite h h
theorem State.canon.loadAsset {v} (h : s.canon) : (loadAsset v s).canon := .keyCommand h (fun _ h => .leaveKeys (.keyResult h))
theorem State.canon.withdrawAsset {v} (h : s.canon) : (withdrawAsset v s).canon := .keyCommand h (fun _ h => .keyResult h)

theorem State.canon.restorePark {v} (h : s.canon) : (restorePark v s).canon := by
  unfold Machine.restorePark
  exact .keyCommand h (fun _ h => .ite (.keyResult h) (.ite (.keyResult h) (.ite (.keyResult h) (.keyResult (.with_lockets (.setCurrent h))))))

theorem State.canon.rotatePark {v} (h : s.canon) : (rotatePark v s).canon :=
  .keyCommand h (fun _ h => .ite (.keyResult h) (.ite (.keyResult h) (.jAppendAll (.setRb h))))

theorem State.canon.badKeyCommand {v} (h : s.canon) : (badKeyCommand v s).canon := .ite h (.zeroKeyIn (.keyResult h))
theorem State.canon.recoverSlots {p} (h : s.canon) : (s.recoverSlots p).canon := .partUpd (.foldl h fun _ _ h => .post h)

/-! ### Sys2Proof/Machine/Loupe.lean -/

theorem State.canon.traceEnable {v} (h : s.canon) : (traceEnable v s).canon :=
  .iteThen (.setRf h) fun h => .with_trace_traceBase_traceSlots (.setRb (.setReg h))

theorem State.canon.traceMark (h : s.canon) : s.traceMark.canon := .ite (.setRb h) h

theorem State.canon.traceRecordWrite (h : s.canon) : (traceRecordWrite s).canon := by
  unfold Machine.traceRecordWrite
  split
  · exact h
  · exact .ite (.bump (.setRb h)) (.traceMark (.iteThen (.setReg (.wrBytes h)) fun h => .setRb h))

theorem State.canon.marker {v} (h : s.canon) : (marker v s).canon := .trace' h
theorem State.canon.zeroCounters (h : s.canon) : s.zeroCounters.canon := .foldl h fun _ _ h => .setReg64 h
theorem State.canon.cntClear {v} (h : s.canon) : (cntClear v s).canon := .setRb (.ite (.zeroCounters h) h)
theorem State.canon.cntRun {v} (h : s.canon) : (cntRun v s).canon := .cntClear h

/-! ### Sys2Proof/Machine/UnitReset.lean -/

theorem State.canon.unitRequest {u} (h : s.canon) : (s.unitRequest u).canon := .ite h (.ite h (.with_units (.setRb (.ite h h))))
theorem State.canon.noteUnit {u} (h : s.canon) : (s.noteUnit u).canon := .setRb (.setRf (.setRb h))
theorem State.canon.unitResetCtrl (h : s.canon) : (unitResetCtrl s).canon := .noteUnit (.wholeReset h)

theorem State.canon.freeUsers {may} (h : s.canon) : (s.freeUsers may).2.canon := by
  refine .foldl_snd h fun acc x h => ?_
  split
  next e =>
    have h1 := State.canon.of_eq e h
    split
    · exact h1
    · exact h1

theorem State.canon.unitUsers {u} (h : s.canon) : (s.unitUsers u).2.canon := by
  unfold State.unitUsers
  extract_lets open_
  split
  · exact .freeUsers h
  · split
    · exact .freeUsers h
    · split
      · exact h
      · split
        · exact .freeUsers h
        · exact h

theorem State.canon.unitAbort {x} (h : s.canon) : (s.unitAbort x).canon := .spoilOut (.opFail h)

theorem State.canon.unitClear {u} (h : s.canon) : (s.unitClear u).canon := by
  unfold State.unitClear
  split
  · exact .clearCluster h
  · exact .ite (.clearQuad h) (.ite (.restartMoves (.bringUpAll (.resetRegs h))) (.ite (.with_fabLate (.resetRegs h)) (.ite (.setRf
      (.resetRegs h)) h)))

theorem State.canon.cutMaster {u} (h : s.canon) : (s.cutMaster u).canon := h

theorem State.canon.unitResetTakeEffect {u} (h : s.canon) : (unitResetTakeEffect u s).canon := by
  unfold Machine.unitResetTakeEffect
  split
  · exact h
  · extract_lets q late
    split
    rename_i s1 e
    have h1 : s1.canon := .of_eq e (.unitUsers h)
    extract_lets busy
    split
    · exact h1
    · refine .trace' (.with_units (.setRb (.noteUnit (.iteThen (.cutMaster (.unitClear (.foldl h1 fun _ _ h => ?_))) fun h => .bump (.setRb h)))))
      split
      · exact .ite (.unitAbort h) h
      · exact h

/-! ### Sys2Proof/Machine/Csr.lean -/

theorem State.canon.answer {v} (h : s.canon) : (s.answer v).canon := h

theorem State.canon.readClear {r off} (h : s.canon) : (s.readClear r off).canon := by
  unfold State.readClear
  split
  · exact .setReg h
  · exact .ite h (.setReg h)

theorem State.canon.csrRead {off} (h : s.canon) : (csrRead off s).canon := by
  unfold Machine.csrRead
  split
  · exact h
  · split
    · exact h
    · split
      · exact h
      · split
        · exact h
        · split
          · split
            · exact h
            · exact h
          · split
            · exact .objStatRead h
            · exact .answer (.readClear h)

theorem State.canon.sidNote {off} (h : s.canon) : (s.sidNote off).canon := .ite h h
theorem State.canon.noteOld {off} (h : s.canon) : (s.noteOld off).canon := .ite h (.ite h (.ite h h))
theorem State.canon.plainWrite {r off v} (h : s.canon) : (s.plainWrite r off v).canon := .setReg (.noteOld (.sidNote h))

theorem State.canon.plain {off v} (h : s.canon) : (s.plain off v).canon := by
  unfold State.plain
  split
  · exact .plainWrite h
  · exact h

theorem State.canon.ringCfgWrite {r v} (h : s.canon) : (ringCfgWrite r v s).canon :=
  .ite (.ringEnable h) (.ite (.ringDisable h) (.evalXoff (.ringFields h)))

theorem State.canon.sdCtrlWrite {d v} (h : s.canon) : (sdCtrlWrite d v s).canon := .ite (.sdDisable h) (.ite (.sdCtrlFields h) (.sdEnable h))
theorem State.canon.raShrink {p} (h : s.canon) : (s.raShrink p).canon := .foldl h fun _ _ h => .evictRa h

theorem State.canon.writePart {p w off v} (h : s.canon) : (s.writePart p w off v).canon := by
  unfold State.writePart
  split
  · exact .ite (.evqEnable h) (.evqCfg h)
  · exact .evqHeadWrite h
  · exact .plain h
  · exact .plain h
  · exact .plain h
  · exact .plain h
  · exact .raShrink (.plain h)
  · exact .plain h
  · exact .plain h
  · exact .iteThen (.plain h) fun h => .stopMoves h
  · exact .ite (.genCommit h) (.genDiscard h)
  · exact .plain h

theorem State.canon.writeRing {r w off v} (h : s.canon) : (s.writeRing r w off v).canon := by
  unfold State.writeRing
  split
  · exact .sqDoorbell h
  · split
    · exact .cqHeadWrite h
    · split
      · exact .ringCfgWrite h
      · split
        · exact .ringFlush h
        · split
          · exact .logitsReadyDoorbell h
          · split
            · exact .pushCommit h
            · split
              · exact .pushWord h
              · exact .plain h

theorem State.canon.prkChCtrl {c v} (h : s.canon) : (prkChCtrl c v s).canon := .channelFormat (.ite (.channelOnline h) (.channelOffline h))

theorem State.canon.secKeyCmd {v} (h : s.canon) : (secKeyCmd v s).canon := by
  unfold Machine.secKeyCmd
  split
  · exact .loadAsset h
  · exact .withdrawAsset h
  · exact .restorePark h
  · exact .rotatePark h
  · exact .badKeyCommand h

theorem State.canon.flCtrl {v} (h : s.canon) : (flCtrl v s).canon := .ite (.portStart h) (.flashPortBadOp h)

theorem State.canon.unitSysWrite {v} (h : s.canon) : (unitSysWrite v s).canon :=
  .iteThen (.foldl h fun _ _ h => .ite (.unitRequest h) h) fun h => .unitResetCtrl h

theorem State.canon.domBits {v dom is} (h : s.canon) : (domBits v dom is s).canon :=
  .foldl h fun _ _ h => .ite (.domainOffRequest h) (.ite (.domainWake h) h)

theorem State.canon.writeGlobal {off v} (h : s.canon) : (s.writeGlobal off v).canon := by
  unfold State.writeGlobal
  exact .ite (.sdCtrlWrite h) (.ite (.plain h) (.ite (.flCtrl h) (.ite (.chainSendReset h) (.ite (.fuseAdvance h) (.ite (.softReset h) (.ite
    (.unitSysWrite h) (.ite (.domBits (.domBits h)) (.ite (.settle (.plain h)) (.ite (.faultCfgWrite h (fun _ h => .plain h)) (.plain h))))))))))

theorem State.canon.writeHalf {off v} (h : s.canon) : (s.writeHalf off v).canon :=
  .ite (.foldl h fun _ _ h => .ite (.unitRequest h) h) (.ite (.domBits h) (.plain h))

theorem State.canon.writePair {off v} (h : s.canon) : (s.writePair off v).canon := by
  unfold State.writePair
  extract_lets lo s1
  split
  · exact h
  · clear_value lo
    split
    · exact .writeHalf (.writeHalf h)
    · exact .writeHalf h

theorem State.canon.writeOne {off v} (h : s.canon) : (s.writeOne off v).canon := by
  unfold State.writeOne
  split
  · exact .writePart h
  · exact .writeRing h
  · split
    · exact .bankOwnerWrite h
    · exact .plain h
  · exact .ite (.prkChCtrl h) (.plain h)
  · exact .ite (.secKeyCmd h) (.ite (.setReg h) (.plain h))
  · exact .ite (.traceEnable h) (.ite (.marker h) (.ite (.cntClear h) (.plain h)))
  · exact .writeGlobal h
  · exact .plain h

theorem State.canon.regWrite {off v} (h : s.canon) : (s.regWrite off v).canon := by
  unfold State.regWrite
  split
  · exact h
  · exact .ite (.ite h h) (.ite (.writePair h) (.ite h (.writeOne h)))

theorem State.canon.csrWriteWith {resume off v} (hr : ∀ v s, s.canon → (resume v s).canon) (h : s.canon) :
    (csrWriteWith resume off v s).canon := by
  unfold Machine.csrWriteWith
  exact .ite h (.ite h (.ite h (.ite (hr v s h) (.regWrite (.forwardWrite h)))))

/-! ### Sys2Proof/Machine/Boot.lean -/

theorem State.canon.bootUpd {f} (h : s.canon) : (s.bootUpd f).canon := h
theorem State.canon.convertStrap {l} (h : s.canon) : (s.convertStrap l).canon := .setRb (.setRf (.setRf h))
theorem State.canon.showRecord (h : s.canon) : s.showRecord.canon := .setRf (.setRf (.setRf h))
theorem State.canon.bootFail {k} (h : s.canon) : (s.bootFail k).canon := .bootUpd (.setRb (.showRecord h))
theorem State.canon.report (h : s.canon) : s.report.canon := .ite h (.with_parts_reportAddr (.wrBytes h))
theorem State.canon.bootDone (h : s.canon) : s.bootDone.canon := .report (.bootUpd (.setRb (.showRecord (.with_wdogAt h))))

theorem State.canon.resumeRelease {p} (h : s.canon) : (s.resumeRelease p).canon :=
  .ite h (.foldl (.iteElse (.setRb h) fun h => .setRb h) fun _ _ h => h)

theorem State.canon.recoverAll (h : s.canon) : s.recoverAll.canon := by
  unfold State.recoverAll
  extract_lets s1 s2 s3
  have h1 : s1.canon := .foldl h fun _ _ h => .setReg h
  have h2 : s2.canon := .foldl h1 fun _ _ h => .setRb h
  have h3 : s3.canon := .foldl h2 fun _ _ h => .resumeRelease (.recoverSlots (.partUpd (.copyPage (.setRb h))))
  exact .collect (.setRb h3)

theorem State.canon.forgetAll (h : s.canon) : s.forgetAll.canon := by
  unfold State.forgetAll
  extract_lets s1
  have h1 : s1.canon := ⟨h.1, h.2.1, regsSorted_filter _ h.2.2⟩
  exact .setRb h1

theorem State.canon.recoverable (h : s.canon) : s.recoverable.2.canon := by
  unfold State.recoverable
  extract_lets k
  split
  · exact .setRb h
  · split
    rename_i s1 e
    have h1 : s1.canon := by
      refine .of_eq e ?_
      split
      · exact h
      · exact h
    split
    · exact h1
    · exact .forgetAll h1

theorem State.canon.bootDomains (h : s.canon) : s.bootDomains.canon := by
  unfold State.bootDomains
  extract_lets off s1 sys s2 s3
  have h1 : s1.canon := .setReg64 h
  have h2 : s2.canon := .setReg h1
  have h3 : s3.canon := .vsegUpd h2
  exact .foldl h3 fun _ _ h => .ite (.grpEval (.vsegUpd (.setRf h))) h

theorem State.canon.bootChannels (h : s.canon) : s.bootChannels.canon := .foldl h fun _ _ h => .ite (.bringUp h) h
theorem State.canon.resumePark (h : s.canon) : s.resumePark.canon := .ite h (.restartMoves h)
theorem State.canon.sendDigest {to_} (h : s.canon) : (s.sendDigest to_).canon := .foldl h fun _ _ h => h
theorem State.canon.trySecondary {a} (h : s.canon) : (s.trySecondary a).canon := .ite h (.sendDigest h)
theorem State.canon.pairSearch (h : s.canon) : s.pairSearch.canon := .ite (.trySecondary h) h
theorem State.canon.pairNone (h : s.canon) : s.pairNone.canon := .bootDone (.setRf h)

theorem State.canon.pairForm {peer same} (h : s.canon) : (s.pairForm peer same).canon := by
  unfold State.pairForm
  extract_lets k
  split
  rename_i s1 e
  have h1 : s1.canon := .of_eq e h
  extract_lets s2 s3 s4
  have h2 : s2.canon := .ite h1 (.setReg64 h1)
  have h3 : s3.canon := .setRf (.setRb (.setRf h2))
  have h4 : s4.canon := .setRf h3
  exact .bootDone (.with_pair h4)

theorem State.canon.bootFinish (h : s.canon) : s.bootFinish.canon := by
  unfold State.bootFinish
  split
  rename_i s1 e
  have h1 : s1.canon := .of_eq e (.recoverable h)
  extract_lets s2 s3 s4 s5 s6
  have h2 : s2.canon := .bootDomains h1
  have h3 : s3.canon := .foldl h2 fun _ _ h => .ite (.regWrite h) h
  have h4 : s4.canon := .with_profile h3
  have h5 : s5.canon := .bootChannels h4
  have h6 : s6.canon := .resumePark (.iteThen h5 fun h => .recoverAll h)
  exact .ite (.bootDone h6) (.pairSearch (.bootUpd h6))

theorem State.canon.bootFirmware {b set copy mark} (h : s.canon) : (s.bootFirmware b set copy mark).canon := by
  unfold State.bootFirmware
  extract_lets base a s1 ovl blocks seq s2 s3 s4 strange inside
  have h2 : s2.canon := .setRf (.setRf (.setReg h))
  have h3 : s3.canon := .setRf (.setRf (.setRb h2))
  have h4 : s4.canon := .setRf (.setReg (.setRf h3))
  have hf : ∀ {s l}, s.canon → (strange s l).2.canon := fun h => .foldl_snd h fun _ _ h => h
  split
  · exact .bootFail h4
  · split
    rename_i s5 e
    have h5 : s5.canon := .of_eq e (hf h4)
    split
    rename_i s6 e'
    have h6 : s6.canon := .of_eq e' (hf h5)
    extract_lets setBad cfgBad k other _ s7 meas s8 s9
    split
    · have h7 : s7.canon := .setRec h6
      exact .ite (.bootFail h7) (.wholeReset h7)
    · have h8 : s8.canon := .foldl h6 fun _ _ h => .setReg h
      have h9 : s9.canon := .bootUpd h8
      exact .ite (.bootUpd (.setRb h9)) (.bootFinish h9)

theorem State.canon.bootSequence {strap marginal tempC media} (h : s.canon) : (bootSequence strap marginal tempC media s).canon := by
  unfold Machine.bootSequence
  split
  · exact h
  · extract_lets s1 s2 s3 s4 s5
    have h1 : s1.canon := .ite (.convertStrap h) h
    have h2 : s2.canon := .enumAfter h1
    have h3 : s3.canon := .bootUpd (.setRf h2)
    have h4 : s4.canon := .readFuses h3
    have h5 : s5.canon := .spiQuad (.spiReset (.setRb (.setRb h4)))
    split
    · exact .bootFail h5
    · split
      · exact .bootFail h5
      · split
        · exact .bootFail h5
        · extract_lets p seq mark c s6 s7
          have h6 : s6.canon := .setRec h5
          have h7 : s7.canon := .setRb (.setRb (.setRb (.showRecord h6)))
          split
          · exact .bootFail h7
          · exact .bootFirmware h7

theorem State.canon.bootCtrl {v} (h : s.canon) : (bootCtrl v s).canon := .ite (.bootFinish (.setRb h)) h
theorem State.canon.bootResume (h : s.canon) : (bootResume s).canon := .bootCtrl h
theorem State.canon.pairingTimeout (h : s.canon) : (pairingTimeout s).canon := .ite (.pairNone h) h

theorem State.canon.pairDecide (h : s.canon) : s.pairDecide.canon := by
  unfold State.pairDecide
  split
  · exact .ite h (.ite (.pairForm h) (.pairNone h))
  · exact h

theorem State.canon.sendToken {to_} (h : s.canon) : (s.sendToken to_).canon := .sendTo h

theorem State.canon.pairDigest {f} (h : s.canon) : (pairDigest f s).canon := by
  unfold Machine.pairDigest
  exact .recv h (fun _ h => .ite h (.ite h (.ite h (.iteElse (.bootUpd (.ite (.sendDigest h) h)) fun h => .ite (.pairNone h) (.pairDecide
    (.sendToken h))))))

theorem State.canon.tokenHalf {typ i f} (h : s.canon) : (tokenHalf typ i f s).canon := .recv h (fun _ h => .ite (.pairDecide h) h)

theorem State.canon.nackFrame {f} (h : s.canon) : (nackFrame f s).canon := by
  unfold Machine.nackFrame
  exact .recv h (fun _ h => .iteThen (.iteThen (.ite (.with_chnWait (.setRf h)) h) fun h => .with_pair h) fun h => .trySecondary h)

theorem State.canon.rebuildStrand {t} (h : s.canon) : (s.rebuildStrand t).canon := .strandUpd (.tell (.nextEpoch h))
theorem State.canon.rebuildAcct {p a} (h : s.canon) : (s.rebuildAcct p a).canon := .setAcct h
theorem State.canon.partnerTokens {t n} (h : s.canon) : (s.partnerTokens t n).2.canon := .foldl_snd h fun _ _ h => h

theorem State.canon.catchUpToken {p sid voc tok} (h : s.canon) : (s.catchUpToken p sid voc tok).canon := by
  unfold State.catchUpToken
  split
  · exact h
  · split
    next e => exact .tell (.sealStep (.applyToken_ok h e))
    · exact h

theorem State.canon.catchUp {t} (h : s.canon) : (s.catchUp t).canon := by
  unfold State.catchUp
  split
  · exact h
  · split
    · exact h
    · exact .foldl (.partnerTokens h) fun _ _ h => .catchUpToken h

theorem State.canon.recoveryRebuild {p} (h : s.canon) : (recoveryRebuild p s).canon := by
  unfold Machine.recoveryRebuild
  extract_lets mine s1 s2 s3 s4
  have h1 : s1.canon := .foldl h fun _ _ h => .rebuildStrand h
  have h2 : s2.canon := .partUpd h1
  have h3 : s3.canon := .foldl h2 fun _ _ h => .rebuildAcct h
  have h4 : s4.canon := .foldl h3 fun _ _ h => .catchUp h
  exact .ite h (.leaveKeys (.evalStall (.partUpd h4)))

/-! ### Sys2Proof/Machine/Access.lean -/

theorem State.canon.csrWrite {off v} (h : s.canon) : (csrWrite off v s).canon := .csrWriteWith (fun _ _ h => .bootCtrl h) h
theorem State.canon.registerWrite {off size v src} (h : s.canon) : (registerWrite off size v src s).canon := .ite h (.ite h (.csrWrite h))
theorem State.canon.registerRead {off size} (h : s.canon) : (registerRead off size s).canon := .ite h (.csrRead h)

/-! ### Sys2Proof/Machine/Debug.lean -/

theorem State.canon.tapReset (h : s.canon) : (Machine.tapReset s).canon := h
theorem State.canon.tapBypass (h : s.canon) : (Machine.tapBypass s).canon := h
theorem State.canon.tapIdcode (h : s.canon) : (Machine.tapIdcode s).canon := h
theorem State.canon.tapDbgStatus (h : s.canon) : (Machine.tapDbgStatus s).canon := h
theorem State.canon.denyAccess {dr} (h : s.canon) : (s.denyAccess dr).canon := .with_tapRes_access (.bumpBy h)

theorem State.canon.accessDecided (h : s.canon) : s.accessDecided.canon := by
  unfold State.accessDecided
  split
  · exact .ite (.denyAccess h) h
  · exact h

theorem State.canon.csrAcc {dr} (h : s.canon) : (csrAcc dr s).canon :=
  .ite h (.ite (.with_tapRes h) (.ite (.denyAccess h) (.with_access_accessAt h)))

theorem State.canon.csrAccDone (h : s.canon) : (csrAccDone s).canon := by
  unfold Machine.csrAccDone
  extract_lets s1
  have h1 : s1.canon := .accessDecided h
  split
  · exact h1
  · exact .ite (.with_tapRes (.csrWrite (.with_access h1))) (.with_resp_tapRes (.csrRead (.with_access h1)))

/-! ### Sys2Proof/Machine/Pair.lean -/

theorem State.canon.applyCmd {x} (h : s.canon) : (s.applyCmd x).canon := by
  unfold State.applyCmd
  split
  · exact .clasp h
  · exact .encode h
  · exact .encodeAppend h
  · exact .decode h
  · exact .prefillChunks h
  · exact .hashBlocks h
  · exact .maskBatch h
  · exact .specVerify h
  · exact .objectLoad h
  · exact .objectRetire h
  · exact .sessionOpen h
  · exact .sessionClose h
  · exact .rollback h
  · exact .opBudgetSet h
  · exact .stepRowStart h
  · exact .extensionPass h
  · exact .stepDrawPass h
  · exact .stepCommit h
  · exact .park h
  · exact .revive h
  · exact .locketExport h
  · exact .locketImport h
  · exact h

theorem State.canon.adoptDecision {r} (h : s.canon) : (s.adoptDecision r).canon := by
  unfold State.adoptDecision
  split
  · exact h
  · extract_lets v d
    split
    · exact .ite (.missDeadline h) h
    · exact h
    · exact h

theorem State.canon.keepEarly {r} (h : s.canon) : (s.keepEarly r).canon := .ite h h
theorem State.canon.mailIn {r} (h : s.canon) : (s.mailIn r).canon := .wrLE h

theorem State.canon.commitPart {q} (h : s.canon) : (s.commitPart q).canon := by
  unfold State.commitPart
  split
  · exact .applyCmd h
  · split
    · exact h
    · split
      · exact .failItem h
      · exact h
      · exact .opFail h

theorem State.canon.compareRecord {r} (h : s.canon) : (compareRecord r s).canon := by
  unfold Machine.compareRecord
  split
  · exact h
  · extract_lets s1
    have h1 : s1.canon := .mailIn h
    split
    · exact .adoptDecision h1
    · split
      · exact h1
      · split
        · exact .keepEarly h1
        · exact .compareWith h1 (fun _ h => .commitPart h)

theorem State.canon.compareTimeout (h : s.canon) : (compareTimeout s).canon := by
  unfold Machine.compareTimeout
  split
  · exact h
  · split
    · exact .partMismatch h
    · exact h

theorem State.canon.fromPartner {f typ act} (h : s.canon) (hact : ∀ s, s.canon → (act s).canon) : (s.fromPartner f typ act).canon :=
  .recv h (fun _ h => .ite (hact _ h) h)

theorem State.canon.mismatchFrame {f} (h : s.canon) : (mismatchFrame f s).canon := by
  unfold Machine.mismatchFrame
  refine .fromPartner h (fun _ h => .ite h ?_)
  split
  · exact h
  · exact .ite h (.partMismatch h)

theorem State.canon.heartbeatSend (h : s.canon) : (heartbeatSend s).canon := .ite (.sendPartner h) h
theorem State.canon.heartbeat {f} (h : s.canon) : (heartbeat f s).canon := .fromPartner h (fun _ h => h)
theorem State.canon.heartbeatMiss (h : s.canon) : (heartbeatMiss s).canon := .ite h (.ite (.survive (.setRb h)) (.setRb (.enterIso (.setRb h))))
theorem State.canon.selftest {f} (h : s.canon) : (selftest f s).canon := .fromPartner h (fun _ h => .iteThen (.startHold h) fun h => .isolateSelf h)
theorem State.canon.selftestTimeout (h : s.canon) : (selftestTimeout s).canon := .ite h (.ite (.isolateSelf h) (.survive h))
theorem State.canon.isolate {f} (h : s.canon) : (isolate f s).canon := .fromPartner h (fun _ h => .ite h (.survive h))
theorem State.canon.isolateAck {f} (h : s.canon) : (isolateAck f s).canon := .fromPartner h (fun _ h => .ite (.enterIso h) h)

theorem State.canon.isolateAckTimeout (h : s.canon) : (isolateAckTimeout s).canon := by
  unfold Machine.isolateAckTimeout
  split
  · exact .ite (.enterIso h) h
  · exact h

/-! ### Sys2Proof/Machine/Tick.lean -/

theorem State.canon.tickCounters (h : s.canon) : s.tickCounters.canon :=
  .ite h (.foldl (.foldl (.count h) fun _ _ h => .count h) fun _ _ h => .countFree h)

theorem State.canon.tickStarve (h : s.canon) : s.tickStarve.canon := .foldl h fun _ _ h => .ite (.count (.bumpBy h)) h

theorem State.canon.uninitRead {c} (h : s.canon) : (s.uninitRead c).canon := by
  unfold State.uninitRead
  split
  next e => exact .of_eq e h
  next e => exact .iteThen (.noteUninit (.of_eq e h)) fun h => .consume h

theorem State.canon.markedRead {c} (h : s.canon) : (s.markedRead c).canon := by
  unfold State.markedRead
  split
  next e => exact .poisonRead (.of_eq e h)
  next e => exact .of_eq e h

theorem State.canon.scratchReadError {c line ue} (h : s.canon) : (s.scratchReadError c line ue).canon :=
  .ite h (.ite (.uninitRead h) (.iteThen (.scratchError h) fun h => .markedRead h))

theorem State.canon.vgsReadError {b line} (h : s.canon) : (s.vgsReadError b line).canon :=
  .ite h (.faultEvent (.iteElse (.bump h) fun h => .setReg h))

theorem State.canon.beadMemError {n ue} (h : s.canon) : (s.beadMemError n ue).canon := by
  unfold State.beadMemError
  split
  · exact h
  · split
    · exact .bump h
    · extract_lets s1 t s2
      have h1 : s1.canon := .bump h
      have h2 : s2.canon := by
        unfold s2
        split
        · exact .consume h1
        · split
          next e => exact .consume (.of_eq e (.with_freeCtr h1))
          next e => exact .of_eq e (.with_freeCtr h1)
      exact .faultEvent h2

theorem State.canon.retainedError {k} (h : s.canon) : (s.retainedError k).canon := by
  unfold State.retainedError
  split
  · exact h
  · exact h
  · exact h
  · exact h
  · exact h
  · exact h
  · exact h
  · exact .setReg64 h
  · exact h

theorem State.canon.fetchCode {n} (h : s.canon) : (s.fetchCode n).canon := by
  unfold State.fetchCode
  split
  · exact .ite h (.with_imem (.with_freeCtr (.ite h (.missLines h))))
  · exact h

theorem State.canon.tickMemories (h : s.canon) : s.tickMemories.canon := by
  unfold State.tickMemories
  split
  rename_i s1 e
  have h1 : s1.canon := .of_eq e h
  split
  rename_i s2 e'
  have h2 : s2.canon := .of_eq e' h1
  split
  rename_i s3 e''
  have h3 : s3.canon := .of_eq e'' h2
  split
  rename_i s4 e''
  have h4 : s4.canon := .of_eq e'' h3
  split
  rename_i s5 e''
  have h5 : s5.canon := .of_eq e'' h4
  split
  rename_i s6 e''
  have h6 : s6.canon := .of_eq e'' h5
  split
  rename_i s7 e''
  have h7 : s7.canon := .of_eq e'' h6
  extract_lets clu thread
  split
  · exact .scratchReadError h7
  · exact .scratchReadError h7
  · exact .vgsReadError h7
  · exact .beadMemError h7
  · exact .faultEvent h7
  · exact .ite h7 (.markedRead h7)
  · exact .ite (.uninitRead h7) h7
  · exact .beadMemError h7
  · exact .ite h7 h7
  · exact .ite h7 h7
  · exact .retainedError h7
  · exact .ite h7 h7
  · exact .fetchCode h7
  · exact h7

theorem State.canon.tickService (h : s.canon) : s.tickService.canon := .ite (.with_wdogAt h) h

theorem State.canon.tickRetained (h : s.canon) : s.tickRetained.canon := by
  unfold State.tickRetained
  split
  rename_i s1 e
  have h1 : s1.canon := .of_eq e h
  exact .ite (.retainedError h1) h1

theorem State.canon.tickIndex (h : s.canon) : s.tickIndex.canon := .ite h (.ite h (.ite h (.with_indexAt_indexImg (.wrBytes h))))

theorem State.canon.tick (h : s.canon) : (tick s).canon := by
  unfold Machine.tick
  extract_lets s1 s2
  have h1 : s1.canon := .accessDecided h
  have h2 : s2.canon := .pairSearch (.with_time_chnOut_peerOut_mailOut h1)
  split
  · exact .ownWrites h2 (.tickService (.tickMemories (.tickIndex (.tickStarve (.tickCounters (.sleepDue h2))))))
  · exact .tickRetained h2

/-! ### Commands, ticks, steps -/

/-- Where the outcome is a next state, that state is in canonical form. -/
def EndsCanon (o : Host.Outcome State Fault Refusal) : Prop := ∀ t, o = .next t → t.canon

theorem EndsCanon.next (h : s.canon) : EndsCanon (next s) := fun _ e => Host.Outcome.next.inj e ▸ h

theorem EndsCanon.run {f} (hf : ∀ s, s.canon → (f s).canon) (h : s.canon) : EndsCanon (run f s) := by
  unfold Machine.run
  split
  · exact .next (.observe (.ownWrites h (hf s h)))
  · exact .next h

theorem EndsCanon.runAon {f} (hf : ∀ s, s.canon → (f s).canon) (h : s.canon) : EndsCanon (runAon f s) := by
  unfold Machine.runAon
  split
  · exact .next (.observe (.ownWrites h (hf s h)))
  · exact .next (hf s h)

theorem EndsCanon.runWrite {off v f} (hf : ∀ s, s.canon → (f s).canon) (h : s.canon) : EndsCanon (runWrite off v f s) :=
  .run (fun _ h => hf _ (.forwardWrite h)) h

theorem EndsCanon.doorbell {v off f} (hf : ∀ s, s.canon → (f s).canon) (h : s.canon) : EndsCanon (doorbell v off f s) := by
  unfold Machine.doorbell
  split
  · exact .next h
  · exact .runWrite hf h

theorem EndsCanon.execFuseTempSample {tempC marginal} (h : s.canon) : EndsCanon (execFuseTempSample tempC marginal s) := by
  unfold Machine.execFuseTempSample
  split
  · exact .run (fun _ h => .fuseTempSample h) h
  · exact .next (.ite (.fuseTempSample h) h)

theorem EndsCanon.execOpDispatch {r} (h : s.canon) : EndsCanon (execOpDispatch r s) := .run (fun _ h => .tellDispatch (.opDispatch h)) h
theorem EndsCanon.execOpReady {c} (h : s.canon) : EndsCanon (execOpReady c s) := .run (fun _ h => .tellReady (.opReady h)) h

theorem EndsCanon.execRefillTick (h : s.canon) : EndsCanon (execRefillTick s) :=
  .run (fun _ h => .ite (.tell (.refillTick h)) (.refillTick h)) h

theorem EndsCanon.execJournalPageProgram {j} (h : s.canon) : EndsCanon (execJournalPageProgram j s) :=
  .run (fun _ h => .ite (.count (.retryAll (.checkJournal (.journalPageProgram h)))) h) h

theorem EndsCanon.execDomainOffRequest {d} (h : s.canon) : EndsCanon (execDomainOffRequest d s) :=
  .run (fun _ h => .domainOffRequest (.forwardDom h)) h

theorem EndsCanon.execDomainWake {d} (h : s.canon) : EndsCanon (execDomainWake d s) :=
  .run (fun _ h => .domainWake (.forwardDom h)) h

theorem EndsCanon.unitRequest {u} (h : s.canon) : EndsCanon (Machine.run (State.unitRequest · u) s) := .run (fun _ h => .unitRequest h) h

/-- Every command keeps the canonical form: what an arm of `exec` calls is one of the functions above, and a bead command is `beadRun` whatever
its operation is. -/
theorem exec_canon (i : Instr) (h : s.canon) : EndsCanon (exec i s) := by
  cases i with
  | powerOnReset => exact .next (.powerOn h)
  | hostWarmReset => exact .next (.hostWarmReset h)
  | softReset => exact .next (.softReset h)
  | fwWatchdogExpiry => exact .next (.fwWatchdogExpiry h)
  | bootSequence => exact .next (.bootSequence h)
  | bootResume => exact .next (.bootResume h)
  | pairingTimeout => exact .next (.pairingTimeout h)
  | recoveryRebuild => exact .run (fun _ h => .recoveryRebuild h) h
  | sdEnable => exact .runWrite (fun _ h => .sdEnable h) h
  | sdDisable => exact .runWrite (fun _ h => .sdDisable h) h
  | stepBeatEdge => exact .runAon (fun _ h => .stepBeatEdge h) h
  | beatStuckDetect => exact .runAon (fun _ h => .beatStuckDetect h) h
  | beatRelease => exact .runAon (fun _ h => .beatRelease h) h
  | beatWatchdogExpiry => exact .runAon (fun _ h => .beatWatchdogExpiry h) h
  | syntheticBeat => exact .runAon (fun _ h => .syntheticBeat h) h
  | deadlineReached => exact .run (fun _ h => .deadlineReached h) h
  | logitsReadyPoint => exact .run (fun _ h => .logitsReadyPoint h) h
  | sqDoorbell => exact .doorbell (fun _ h => .sqDoorbell h) h
  | sqFetch => exact .run (fun _ h => .sqFetch h) h
  | pushWord => exact .doorbell (fun _ h => .pushWord h) h
  | pushCommit => exact .doorbell (fun _ h => .pushCommit h) h
  | cqHeadWrite => exact .runWrite (fun _ h => .cqHeadWrite h) h
  | ringEnable => exact .runWrite (fun _ h => .ringEnable h) h
  | ringDisable => exact .runWrite (fun _ h => .ringDisable h) h
  | ringFlush => exact .runWrite (fun _ h => .ringFlush h) h
  | logitsReadyDoorbell => exact .runWrite (fun _ h => .logitsReadyDoorbell h) h
  | evqEnable => exact .runWrite (fun _ h => .evqEnable h) h
  | evqHeadWrite => exact .runWrite (fun _ h => .evqHeadWrite h) h
  | coalTimerExpiry => exact .run (fun _ h => .coalTimerExpiry h) h
  | opDispatch => exact .execOpDispatch h
  | opReady => exact .execOpReady h
  | completionWrite => exact .run (fun _ h => .completionWrite h) h
  | sessionOpen => exact .run (fun _ h => .gated (fun _ h => .sessionOpen h) h) h
  | sessionClose => exact .run (fun _ h => .gated (fun _ h => .sessionClose h) h) h
  | encode => exact .run (fun _ h => .gated (fun _ h => .encode h) h) h
  | encodeAppend => exact .run (fun _ h => .gated (fun _ h => .encodeAppend h) h) h
  | decode => exact .run (fun _ h => .gated (fun _ h => .decode h) h) h
  | stepBatch => exact .run (fun _ h => .stepBatch h) h
  | maskBatch => exact .run (fun _ h => .gated (fun _ h => .maskBatch h) h) h
  | specVerify => exact .run (fun _ h => .gated (fun _ h => .specVerify h) h) h
  | prefillChunks => exact .run (fun _ h => .gated (fun _ h => .prefillChunks h) h) h
  | hashBlocks => exact .run (fun _ h => .gated (fun _ h => .hashBlocks h) h) h
  | park => exact .run (fun _ h => .gated (fun _ h => .park h) h) h
  | revive => exact .run (fun _ h => .gated (fun _ h => .revive h) h) h
  | locketExport => exact .run (fun _ h => .gated (fun _ h => .locketExport h) h) h
  | locketImport => exact .run (fun _ h => .gated (fun _ h => .locketImport h) h) h
  | objectLoad => exact .run (fun _ h => .gated (fun _ h => .objectLoad h) h) h
  | objectRetire => exact .run (fun _ h => .gated (fun _ h => .objectRetire h) h) h
  | budgetSet => exact .run (fun _ h => .gated (fun _ h => .opBudgetSet h) h) h
  | clasp => exact .run (fun _ h => .gated (fun _ h => .clasp h) h) h
  | abort => exact .run (fun _ h => .abort h) h
  | cancel => exact .run (fun _ h => .cancel h) h
  | rollback => exact .run (fun _ h => .gated (fun _ h => .rollback h) h) h
  | query => exact .run (fun _ h => .query h) h
  | runAhead => exact .run (fun _ h => .runAhead h) h
  | stepRowStart => exact .run (fun _ h => .gated (fun _ h => .stepRowStart h) h) h
  | extensionPass => exact .run (fun _ h => .gated (fun _ h => .extensionPass h) h) h
  | drawPass => exact .run (fun _ h => .gated (fun _ h => .stepDrawPass h) h) h
  | stepCommit => exact .run (fun _ h => .gated (fun _ h => .stepCommit h) h) h
  | pageStallDrain => exact .run (fun _ h => .pageStallDrain h) h
  | reclaimRung1 => exact .run (fun _ h => .reclaimRung1 h) h
  | reclaimRung2 => exact .run (fun _ h => .reclaimRung2 h) h
  | refillTick => exact .execRefillTick h
  | encodeUnitIssue => exact .run (fun _ h => .encodeUnitIssue h) h
  | encodeUnitEnd => exact .run (fun _ h => .encodeUnitEnd h) h
  | callBudgetFault => exact .next (.callBudgetFault h)
  | pairLoRead => exact .next (.registerRead h)
  | pairHiRead => exact .next (.registerRead h)
  | pairLoWrite => exact .runAon (fun _ h => .registerWrite h) h
  | pairHiWrite => exact .runAon (fun _ h => .registerWrite h) h
  | counterReadClear => exact .next (.registerRead h)
  | objStatRead => exact .run (fun _ h => .objStatRead h) h
  | registerWrite => exact .runAon (fun _ h => .registerWrite h) h
  | bankOwnerWrite => exact .runWrite (fun _ h => .bankOwnerWrite h) h
  | bankDrainDone => exact .run (fun _ h => .bankDrainDone h) h
  | patrolScrub => exact .run (fun _ h => .patrolScrub h) h
  | vgsLineReload => exact .run (fun _ h => .vgsLineReload h) h
  | fabricResponse => exact .run (fun _ h => .fabricResponse h) h
  | fabricTimeout => exact .run (fun _ h => .fabricTimeout h) h
  | genCommit => exact .runWrite (fun _ h => .genCommit h) h
  | genDiscard => exact .runWrite (fun _ h => .genDiscard h) h
  | genDone => exact .run (fun _ h => .genDone h) h
  | loadAsset => exact .run (fun _ h => .loadAsset h) h
  | withdrawAsset => exact .run (fun _ h => .withdrawAsset h) h
  | restorePark => exact .run (fun _ h => .restorePark h) h
  | rotatePark => exact .run (fun _ h => .rotatePark h) h
  | rekeyRewrite => exact .run (fun _ h => .rekeyRewrite h) h
  | warmMovePressure => exact .run (fun _ h => .warmMovePressure h) h
  | warmMoveAge => exact .run (fun _ h => .warmMoveAge h) h
  | stripeProgram => exact .run (fun _ h => .stripeProgram h) h
  | journalPageProgram => exact .execJournalPageProgram h
  | flashReadDone => exact .run (fun _ h => .chanOp (fun _ h => .flashReadDone h) h) h
  | flashProgramDone => exact .run (fun _ h => .chanOp (fun _ h => .flashProgramDone h) h) h
  | flashEraseDone => exact .run (fun _ h => .chanOp (fun _ h => .flashEraseDone h) h) h
  | dieTimeout => exact .run (fun _ h => .dieTimeout h) h
  | zqCalibration => exact .run (fun _ h => .zqCalibration h) h
  | trackerJournal => exact .run (fun _ h => .trackerJournal h) h
  | scrubBlock => exact .run (fun _ h => .scrubBlock h) h
  | collection => exact .run (fun _ h => .collection h) h
  | staticLevelling => exact .run (fun _ h => .staticLevelling h) h
  | journalCompaction => exact .run (fun _ h => .journalCompaction h) h
  | indexRebuild => exact .run (fun _ h => .indexRebuild h) h
  | channelOnline => exact .runWrite (fun _ h => .channelOnline h) h
  | channelOffline => exact .runWrite (fun _ h => .channelOffline h) h
  | channelFormat => exact .runWrite (fun _ h => .channelFormat h) h
  | unitResetCluster => exact .unitRequest h
  | unitResetVgs => exact .unitRequest h
  | unitResetPrk => exact .unitRequest h
  | unitResetCrypto => exact .unitRequest h
  | unitResetFab => exact .unitRequest h
  | unitResetCtrl => exact .run (fun _ h => .unitResetCtrl h) h
  | unitResetTakeEffect => exact .run (fun _ h => .unitResetTakeEffect h) h
  | domainOffRequest => exact .execDomainOffRequest h
  | domainWake => exact .execDomainWake h
  | domainWakeDone => exact .run (fun _ h => .domainWakeDone h) h
  | governorInterval => exact .run (fun _ h => .governorInterval h) h
  | capTick => exact .run (fun _ h => .capTick h) h
  | vsegAck => exact .run (fun _ h => .vsegAck h) h
  | vsegAckTimeout => exact .run (fun _ h => .vsegAckTimeout h) h
  | thermalSample => exact .run (fun _ h => .thermalSample h) h
  | fuseTempSample => exact .execFuseTempSample h
  | fuseAdvance => exact .next (.fuseAdvance h)
  | placementPeriod => exact .run (fun _ h => .placementPeriod h) h
  | flashPortRead => exact .next (.portStart h)
  | flashPortProgram => exact .next (.portStart h)
  | flashPortErase4k => exact .next (.portStart h)
  | flashPortErase64k => exact .next (.portStart h)
  | flashPortDone => exact .next (.flashPortDone h)
  | chainSendReset => exact .next (.chainSendReset h)
  | chainReplyTimeout => exact .next (.chainReplyTimeout h)
  | enum => exact .next (.enumFrame h)
  | reset => exact .next (.resetFrame h)
  | ack => exact .next (.ackFrame h)
  | nack => exact .next (.nackFrame h)
  | pairDigest => exact .next (.pairDigest h)
  | badFrame => exact .next (.badFrame h)
  | heartbeatSend => exact .run (fun _ h => .heartbeatSend h) h
  | heartbeat => exact .runAon (fun _ h => .heartbeat h) h
  | heartbeatMiss => exact .run (fun _ h => .heartbeatMiss h) h
  | tokenLo => exact .next (.tokenHalf h)
  | tokenHi => exact .next (.tokenHalf h)
  | mismatch => exact .runAon (fun _ h => .mismatchFrame h) h
  | compareRecord => exact .run (fun _ h => .compareRecord h) h
  | compareTimeout => exact .run (fun _ h => .compareTimeout h) h
  | selftest => exact .runAon (fun _ h => .selftest h) h
  | selftestTimeout => exact .run (fun _ h => .selftestTimeout h) h
  | isolate => exact .runAon (fun _ h => .isolate h) h
  | isolateAck => exact .runAon (fun _ h => .isolateAck h) h
  | isolateAckTimeout => exact .run (fun _ h => .isolateAckTimeout h) h
  | tapReset => exact .next (.tapReset h)
  | bypass => exact .next (.tapBypass h)
  | idcode => exact .next (.tapIdcode h)
  | csrAcc => exact .next (.csrAcc h)
  | csrAccDone => exact .runAon (fun _ h => .csrAccDone h) h
  | dbgStatus => exact .next (.tapDbgStatus h)
  | traceEnable => exact .runWrite (fun _ h => .traceEnable h) h
  | traceRecordWrite => exact .run (fun _ h => .traceRecordWrite h) h
  | marker => exact .runWrite (fun _ h => .marker h) h
  | cntRun => exact .runWrite (fun _ h => .cntRun h) h
  | cntClear => exact .runWrite (fun _ h => .cntClear h) h
  | beatLevelFall => exact .runAon (fun _ h => .beatLevelFall h) h
  | vsegAckLowered => exact .run (fun _ h => .vsegAckLowered h) h
  | fuseBlowDone => exact .next (.fuseBlowDone h)
  | reservedFrameType => exact .next (.reservedFrameType h)
  | badKeyCommand => exact .run (fun _ h => .badKeyCommand h) h
  | flashPortBadOp => exact .next (.flashPortBadOp h)
  | illegalInstruction => exact .next (.illegalInstruction h)
  | getComplete => exact .next (.getComplete h)
  | add | sub | and | or | xor | shl | shr | sar | mul | mulhu | divu | remu | mins | maxs | minu | maxu | seq | slt | sltu | popc | clz | ctz | addi
  | andi | ori | xori | shli | shri | sari | slti | lui | fadd | fsub | fmul | fdiv | fmin | fmax | flt | feq | fcvtif | fcvtfi | ldb | ldh | ldw
  | ldd | stb | sth | stw | std | beq | bne | blt | bge | bltu | bgeu | jal | jr | vaddw | vsubw | vand | vor | vxor | vshlw | vshrw | vminuw
  | vmaxuw | vfadd | vfsub | vfmul | vfmin | vfmax | vcvtif | vcvtfi | vmov | vbcast | vpermw | vflt | vfle | vfeq | vilt | viltu | vieq | vbeq | vld
  | vst | tstep | ttok | troot | dstep | tbase | dbase | mprobe | mhash | udec | unorm | uclass | uenc | hcomp | band | bor | bandn | bxor | bpop
  | bffs | bsel | brun | cmaxk | cminu | cgef | cequ | get | wait | nop | exit | trap | rng | fence | vfill | vext | kfromx | ktox | kand | kor
  | kandn =>
    exact .next (.beadRun h)

theorem step_canon (h : s.canon) : EndsCanon (step s) := by
  unfold Machine.step
  split
  · exact .next (.tick h)
  · exact exec_canon _ (.with_pending h)

end Sys2Proof.Machine

namespace Sys2Proof.Claims
open Machine

/-- Settles O25: `step` is a tick or a command, and neither leaves the canonical form. -/
theorem stepKeepsCanon : Obligations.StepKeepsCanon := by
  unfold Obligations.StepKeepsCanon
  exact fun s t h e => step_canon h t e

end Sys2Proof.Claims
end

