-- ==== Sys2Proof/Proofs/RegisterAccess.lean ====
section
/-! PROOF. Sys2Proof/Proofs/RegisterAccess.lean: a register file out of canonical form breaks the statement about register access, which has no
`s.canon` among its premises. -/
namespace Sys2Proof.Machine
open Sys2Proof

/-- A running block whose register file lists LPE_TRACE_DROP twice, each time with 1: no state of a run, as every step keeps the canonical
form (`stepKeepsCanon`). -/
def State.twiceListed : State := { State.reset with regs := [(rCfgBootStat, 0x80000000#32), (rLpeTraceDrop, 1#32), (rLpeTraceDrop, 1#32)] }

theorem State.twiceListed_running : State.twiceListed.running = true := by decide

theorem State.twiceListed_reg : State.twiceListed.reg rLpeTraceDrop = 1#32 := by decide

/-- The row of LPE_TRACE_DROP: a register of its own, all of it RC (R663). -/
theorem regRow?_rLpeTraceDrop : regRow? rLpeTraceDrop = some ⟨0, 0xB00018, 0x0, 1, 0x0, 1, 0, 0, 0, 0, 0xFFFFFFFF, 0⟩ := by decide

/-- The read that is to clear the register drops the first entry of the two; the register shows the second. -/
theorem State.csrRead_twiceListed_reg : (csrRead rLpeTraceDrop State.twiceListed).reg rLpeTraceDrop = 1#32 := by decide

end Sys2Proof.Machine

namespace Sys2Proof.Claims
open Machine

/-- Refutes O49: without `s.canon` a register may be listed twice, and then a read does not clear its RC field. The witness is
`State.twiceListed`, read at LPE_TRACE_DROP. -/
theorem not_registerAccess : ¬ Obligations.RegisterAccess := by
  unfold Obligations.RegisterAccess
  intro h
  obtain ⟨-, -, -, -, -, -, -, readClears, -⟩ := h State.twiceListed 0xB00018#25 0#32 .host
  obtain ⟨t, ht, hclear, -⟩ := readClears _ State.twiceListed_running (by decide) regRow?_rLpeTraceDrop rfl (by decide) (by decide)
  have hread : t = csrRead rLpeTraceDrop State.twiceListed := (Host.Outcome.next.inj ht).symm
  have h0 := hclear 0 (by decide)
  simp [hread, State.csrRead_twiceListed_reg, State.twiceListed_reg] at h0

end Sys2Proof.Claims
end

