-- ==== Sys2Proof/Proofs/Steps.lean ====
section
/-! PROOF. Sys2Proof/Proofs/Steps.lean: a row start that decides the draw marks in the kept selection whether a value +∞ was met (R346, R361), and the
statement about steps says that it keeps the selection as TOPK formed it. A row with +∞ tells the two apart. -/
namespace Sys2Proof.Machine
open Sys2Proof

/-! ### A row start of a block in no pair -/

/-- In no pair, with no part left over from one, a command that may commit parts has its effect at once (R620, R631). -/
theorem gated_single {s : State} (cmd : Instr) (f : State → State) (hp : s.paired = false) (hq : s.pair.parts = []) : gated cmd f s = f s := by
  simp [gated, hp, hq]

/-- STEP_ROW_START of a running block in no pair answers its effect, as seen. -/
theorem exec_stepRowStart_single {s : State} (c : Ctx) (k : Nat) (h : s.running = true) (hp : s.paired = false) (hq : s.pair.parts = []) :
    exec (.stepRowStart c k) s = .next ((stepRowStart c k s).observe s) := by
  show run (gated (.stepRowStart c k) (stepRowStart c k)) s = _
  rw [run_single _ h hp, gated_single _ _ hp hq]

/-- The selection that item `k` of the op in a context keeps. -/
def State.keptSamp (s : State) (c : Ctx) (k : Nat) : Option Samp := ((s.ctx? c).bind (·.items[k]?)).bind (·.samp)

theorem State.keptSamp_of {s : State} {c : Ctx} {k : Nat} {y : OpCtx} {j : BatchItem} (hy : s.ctx? c = some y) (hj : y.items[k]? = some j) :
    s.keptSamp c k = j.samp := by
  simp [State.keptSamp, hy, hj]

@[simp] theorem State.observe_keptSamp (s s0 : State) (c : Ctx) (k : Nat) : (s.observe s0).keptSamp c k = s.keptSamp c k := by
  simp [State.keptSamp]

/-- TOPK forms a selection without the mark that the draw sets where it has met +∞. -/
theorem formSamp_listInf (b : List Byte) (r : RowVals) (lse : Word) (isCand hook : Bool) : (formSamp b r lse isCand hook).listInf = false := rfl

/-! ### A step on a row with +∞ -/

namespace InfRow

/-- A vocabulary of two live tokens. -/
def vocabulary : ObjVersion :=
  { part := 0, id := 2#32, ver := 1, kind := 1, keySel := 0, hdr := leBytes 36 0 ++ leBytes 4 2 ++ leBytes 88 0, digest := 0#128, sects := []
    live := true, liveBits := 3 }

/-- A resident strand of session 1 with a history of one token, TEMP 0 (a greedy draw), TOPP and REP 1.0, and a run-ahead result that allows
every live token. -/
def strand : Strand :=
  { part := 0, session := 1#32, slot := 0, domain := 0, home := 0, account := 0, vocab := ⟨2#32, 1⟩, hist := [0], promptLen := 1
    params := leBytes 12 0 ++ leBytes 4 0x3F800000 ++ leBytes 8 0 ++ leBytes 4 0x3F800000 ++ leBytes 228 0
    sidePage := 1, histPages := [2], ra := some { record := 0xFFFFFFFE#32 } }

/-- The step of session 1 on an FP16 row at 0x8000. -/
def item : BatchItem :=
  { session := 1#32, bytes := leBytes 4 1 ++ leBytes 4 0x20 ++ leBytes 4 1 ++ leBytes 4 0 ++ leBytes 8 0x8000 ++ leBytes 8 0, reserved := true }

/-- A ready STEP_BATCH with that item, its output at 0x9000. -/
def batch : OpCtx :=
  { id := 0, part := 0, ring := 0, index := 0#32, entry := leBytes 48 opSTEP_BATCH ++ leBytes 8 0x9000 ++ leBytes 8 0, seq := 1
    rng := [⟨0, 0x100000, true⟩], st := .ready, bound := true, items := [item] }

/-- Partition 0 with cluster 0 and six of its banks, and the row in memory: 0.0 for token 0, +∞ (0x7C00) for token 1. -/
def state : State :=
  { [(rCfgBootStat, 0x80000000#32), (rPrtCfgCtrlMir 0, 0x80000000#32), (rPrtCfgGroupsMir 0, 1#32), (rGlbCluMap, 1#32), (rPwrDomStat, 1#32),
      (rCluBankOwn 0 0, 0#32), (rCluBankOwn 0 1, 0#32), (rCluBankOwn 0 2, 0#32), (rCluBankOwn 0 3, 0#32), (rCluBankOwn 0 4, 0#32),
      (rCluBankOwn 0 5, 0#32)].foldl (fun s r => s.setReg r.1 r.2) State.reset with
    mem := [(0x8003, 0x7C#8)], objs := [vocabulary], strands := [strand], ctxs := [batch], nextSeq := 2 }

theorem state_canon : state.canon := by unfold State.canon; decide +kernel
theorem state_running : state.running = true := by decide +kernel
theorem state_paired : state.paired = false := by decide +kernel

/-- The row start finds its item, strand, clusters and run-ahead result, and nothing is before it. -/
theorem state_starts : state.excluded 0 item.session (some 0) = false ∧ state.strand? 0 item.session = some strand ∧
    state.takes 0 strand.home = true ∧ state.workBefore strand (state.opKey batch) = false ∧ (state.pickShares strand item.row).isSome = true ∧
    state.itemFault batch 0 item = none := by decide +kernel

/-- The mask allows tokens, and the row is a plain one, of parameters without HOOK. -/
theorem state_row : (state.itemArgs batch item strand { record := 0xFFFFFFFE#32 }).mask ≠ [] ∧ item.row.cand = false ∧
    stHOOK ∉ rowStagesOf strand.params := by decide +kernel

/-- The greedy draw is decided at once, and the selection kept bears the mark of +∞. -/
theorem keptSamp_listInf : ((stepRowStart 0 0 state).keptSamp 0 0).map (·.listInf) = some true := by decide +kernel

end InfRow
end Sys2Proof.Machine

namespace Sys2Proof.Claims
open Machine

/-- Refutes O45: of a row start that decides the draw, the statement says that the item keeps the selection as `formSamp` forms it, but the item keeps it
marked with what the cuts found, the limit of passes (R353) and +∞ (R346). The witness is `InfRow.state`, where the row holds +∞. -/
theorem not_steps : ¬ Obligations.Steps := by
  unfold Obligations.Steps
  intro h
  obtain ⟨-, -, items⟩ := h InfRow.state 0 InfRow.batch 0 InfRow.item InfRow.state_canon ⟨InfRow.state_running, InfRow.state_paired, rfl⟩
  obtain ⟨rowStart, -⟩ := items ⟨rfl, rfl, rfl⟩ rfl
  obtain ⟨hex, hstrand, htakes, hbefore, hshares, hfault⟩ := InfRow.state_starts
  obtain ⟨hmask, hcand, hhook⟩ := InfRow.state_row
  obtain ⟨u, y, j, hu, hy, hj, -, -, ⟨hsamp, -⟩, -⟩ := rowStart InfRow.strand { record := 0xFFFFFFFE#32 } rfl rfl rfl hex (by decide) hstrand
    htakes hbefore hshares hfault rfl rfl hmask (by simp [hcand]) hhook
  rw [exec_stepRowStart_single 0 0 InfRow.state_running InfRow.state_paired rfl] at hu
  have hkept : (stepRowStart 0 0 InfRow.state).keptSamp 0 0 = j.samp := by
    rw [← State.observe_keptSamp _ InfRow.state, Host.Outcome.next.inj hu, State.keptSamp_of hy hj]
  have hmark := InfRow.keptSamp_listInf
  rw [hkept, hsamp, Option.map_some, formSamp_listInf] at hmark
  cases hmark

end Sys2Proof.Claims
end

