-- ==== Sys2Proof/Proofs/StepClock.lean ====
section
/-! PROOF. Sys2Proof/Proofs/StepClock.lean: the step domains: the filter of beat edges, synthetic beats, the stuck measurement, and how a domain is enabled
and disabled. -/
namespace Sys2Proof.Machine
open Sys2Proof
variable {s t : State} {c d : Dom}

/-! ### One domain of the four -/

theorem State.sdUpd_sd_self (s : State) (d : Dom) (f : StepDomain → StepDomain) : (s.sdUpd d f).sd[d] = f s.sd[d] := by
  simp [State.sdUpd, vset]

theorem State.sdUpd_sd_ne (s : State) (f : StepDomain → StepDomain) (h : c ≠ d) : (s.sdUpd d f).sd[c] = s.sd[c] := by
  simp [State.sdUpd, vset, Vector.getElem_set_ne, Fin.val_ne_of_ne h.symm]

/-! ### What a command shows of its effect in a running state -/

@[simp] theorem State.ownWrites_sd (s t : State) : (t.ownWrites s).sd = t.sd := by rw [State.ownWrites_rest]
@[simp] theorem State.ownWrites_reg (s t : State) (o : Nat) : (t.ownWrites s).reg o = t.reg o := by rw [State.ownWrites_rest]; rfl
@[simp] theorem State.ownWrites_ctxs (s t : State) : (t.ownWrites s).ctxs = t.ctxs := by rw [State.ownWrites_rest]
@[simp] theorem State.ownWrites_rings (s t : State) : (t.ownWrites s).rings = t.rings := by rw [State.ownWrites_rest]
@[simp] theorem State.ownWrites_strands (s t : State) : (t.ownWrites s).strands = t.strands := by rw [State.ownWrites_rest]
@[simp] theorem State.ownWrites_time (s t : State) : (t.ownWrites s).time = t.time := by rw [State.ownWrites_rest]

/-- `t` shows the effect `u` of a command that led from `s`: but for chip memory, which a secondary does not write, and for what was noted. -/
structure Shows (s u t : State) : Prop where
  sd : t.sd = u.sd
  reg : ∀ o, noteReg o = false → t.reg o = u.reg o
  mem : u.mem = s.mem → t.mem = s.mem
  ctxs : t.ctxs = u.ctxs
  rings : t.rings = u.rings
  strands : t.strands = u.strands
  time : t.time = u.time

theorem shows_observe (s u : State) : Shows s u ((u.ownWrites s).observe s) where
  sd := by simp
  reg o h := by rw [State.reg_observe h, State.ownWrites_reg]
  mem h := by rw [State.observe_mem, State.ownWrites_same h, h]
  ctxs := by simp
  rings := by simp
  strands := by simp
  time := by simp

/-- A command of the AON domain answers, in a running state, a state that shows its effect. -/
theorem runAon_shows (f : State → State) (h : s.running = true) : ∃ t, runAon f s = .next t ∧ Shows s (f s) t :=
  ⟨_, runAon_running f h, shows_observe s (f s)⟩

/-- So does a command that only acts while running. -/
theorem run_shows (f : State → State) (h : s.running = true) : ∃ t, run f s = .next t ∧ Shows s (f s) t :=
  ⟨_, run_running f h, shows_observe s (f s)⟩

theorem Shows.rb {s u t : State} (h : Shows s u t) {o i : Nat} (ho : noteReg o = false) : t.rb o i = u.rb o i := by
  rw [State.rb, h.reg o ho, State.rb]

/-- What is noted of a command, noted. -/
theorem noted_observe (u s : State) : Claims.Noted u (u.observe s) := ⟨(observe_seen u s).rest, (observe_seen u s).reg⟩

/-- A command of the AON domain that writes no chip memory has its effect `u`, noted. -/
theorem runAon_noted {f : State → State} {u : State} (hf : f s = u) (hm : u.mem = s.mem) (h : s.running = true) :
    ∃ t, runAon f s = .next t ∧ Claims.Noted u t :=
  ⟨_, (runAon_running f h).trans (by rw [hf, State.ownWrites_same hm]), noted_observe u s⟩

/-- So has a command that only acts while running. -/
theorem run_noted {f : State → State} {u : State} (hf : f s = u) (hm : u.mem = s.mem) (h : s.running = true) :
    ∃ t, run f s = .next t ∧ Claims.Noted u t :=
  ⟨_, (run_running f h).trans (by rw [hf, State.ownWrites_same hm]), noted_observe u s⟩

/-! ### Registers of the global window -/

theorem State.reg_bump_ne (s : State) {o o' : Nat} (h : o' ≠ o) : (s.bump o).reg o' = s.reg o' := by
  rw [State.bump, State.bumpBy, State.reg_setRf_ne h]

theorem State.reg_partUpd (s : State) (p : Part) (f : PartState → PartState) (o : Nat) : (s.partUpd p f).reg o = s.reg o := rfl

/-- An event writes the registers of its partition's event ring alone. -/
theorem State.post_reg_global {o : Nat} (ho : o < 0x100000) (s : State) (p : Part) (k : Nat) (d : Dom) (r : Option Ring) (w : Word) (i x : DWord) :
    (s.post p k d r w i x).reg o = s.reg o := by
  have hl : o ≠ rPrtEvqLost p := by unfold rPrtEvqLost; omega
  have ht : o ≠ rPrtEvqTail p := by unfold rPrtEvqTail; omega
  unfold State.post
  dsimp only
  split
  · exact State.reg_bump_ne s hl
  · generalize hu : s.wrBytes _ _ = u
    have hr : u.regs = s.regs := hu ▸ State.wrBytes_regs ..
    rw [State.reg_partUpd, State.reg_setReg_ne ht, State.reg, State.reg, hr]

@[simp] theorem State.postBeat_sd (s : State) (d : Dom) (k : Nat) : (s.postBeat d k).sd = s.sd :=
  foldl_keep (·.sd) _ (fun s p => by split <;> simp) _ s

@[simp] theorem State.postBeat_time (s : State) (d : Dom) (k : Nat) : (s.postBeat d k).time = s.time :=
  foldl_keep (·.time) _ (fun s p => by split <;> simp) _ s

theorem State.postBeat_reg_global {o : Nat} (ho : o < 0x100000) (s : State) (d : Dom) (k : Nat) : (s.postBeat d k).reg o = s.reg o :=
  foldl_keep (·.reg o) _ (fun s p => by
    split
    · exact State.post_reg_global ho ..
    · rfl) _ s

theorem rGlbSdOverrun_ne (d : Dom) : rGlbSdOverrun d ≠ rGlbSdPeriod d ∧ rGlbSdOverrun d ≠ rGlbSdEvt := by revert d; decide

theorem noteReg_sd (d : Dom) : noteReg rGlbSdEvt = false ∧ noteReg (rGlbSdOverrun d) = false ∧ noteReg (rGlbSdPeriod d) = false ∧
    noteReg (rGlbSdCtrl d) = false ∧ noteReg (rGlbSdWdog d) = false := by revert d; decide

/-! ### Accepted beats -/

theorem State.measure_sd_self (s : State) (d : Dom) : ∃ iv, (s.measure d).sd[d] = { s.sd[d] with intervals := iv } := by
  unfold State.measure
  dsimp only
  split
  · exact ⟨_, State.sdUpd_sd_self s d _⟩
  · exact ⟨_, rfl⟩

theorem State.measure_sd_ne (s : State) (h : c ≠ d) : (s.measure d).sd[c] = s.sd[c] := by
  unfold State.measure
  dsimp only
  split
  · exact State.sdUpd_sd_ne s _ h
  · rfl

theorem State.measure_reg_ne (s : State) {o : Nat} (h : o ≠ rGlbSdPeriod d) : (s.measure d).reg o = s.reg o := by
  unfold State.measure
  dsimp only
  split
  · exact State.reg_setReg_ne h
  · rfl

/-- A measured interval touches the domain and its period register alone. -/
theorem State.measure_rest (s : State) (d : Dom) : s.measure d = { s with sd := (s.measure d).sd, regs := (s.measure d).regs } := by
  unfold State.measure
  dsimp only
  split <;> rfl

theorem State.measure_regsWf (h : s.regsWf = true) (d : Dom) : (s.measure d).regsWf = true := by
  unfold State.measure
  dsimp only
  split
  · exact State.setReg_regsWf _ _ h
  · exact h

/-- A real beat starts the step: the preset one from WAITING, else the next (R39). -/
theorem State.realBeat_sd_self (s : State) (d : Dom) : ∃ iv per, (s.realBeat d).sd[d] = { s.sd[d] with
    st := .beat, step := if (s.sd[d]).st == .waiting then (s.sd[d]).step else (s.sd[d]).step + 1#40, beatAt := s.time, p := per
    realLast := true, intervals := iv } := by
  obtain ⟨iv, hiv⟩ := s.measure_sd_self d
  refine ⟨iv, (s.measure d).reg (rGlbSdPeriod d), ?_⟩
  rw [State.realBeat, State.sdUpd_sd_self, hiv, State.measure_rest s d]

theorem State.realBeat_sd_ne (s : State) (h : c ≠ d) : (s.realBeat d).sd[c] = s.sd[c] :=
  (State.sdUpd_sd_ne _ _ h).trans (State.measure_sd_ne s h)

theorem State.realBeat_reg_ne (s : State) {o : Nat} (h : o ≠ rGlbSdPeriod d) : (s.realBeat d).reg o = s.reg o := State.measure_reg_ne s h

@[simp] theorem State.realBeat_mem (s : State) (d : Dom) : (s.realBeat d).mem = s.mem := by rw [State.realBeat, State.sdUpd_mem, State.measure_rest]
@[simp] theorem State.realBeat_time (s : State) (d : Dom) : (s.realBeat d).time = s.time := by rw [State.realBeat, State.sdUpd_time, State.measure_rest]

theorem State.realBeat_regsWf (h : s.regsWf = true) (d : Dom) : (s.realBeat d).regsWf = true := State.measure_regsWf h d

/-- A synthetic beat starts the next step in TIMER (R39, R47). -/
theorem State.synthBeat_sd_self (s : State) (d : Dom) : (s.synthBeat d).sd[d] = { s.sd[d] with
    st := .timer, step := (s.sd[d]).step + 1#40, beatAt := s.time, p := s.reg (rGlbSdPeriod d), realLast := false } := State.sdUpd_sd_self s d _

theorem State.synthBeat_sd_ne (s : State) (h : c ≠ d) : (s.synthBeat d).sd[c] = s.sd[c] := State.sdUpd_sd_ne s _ h

/-! ### Beat events and overruns -/

theorem State.sdEvt_rb (h : s.regsWf = true) (d : Dom) {g : Nat} (hg : g < 4) : (s.sdEvt d g).rb rGlbSdEvt (4 * g + d) = true :=
  State.rb_setRb h (by omega)

theorem State.overrun_rb (h : s.regsWf = true) (d : Dom) : (s.overrun d).rb rGlbSdEvt d = true := by
  have hb := State.sdEvt_rb (s := s.bump (rGlbSdOverrun d)) (State.bumpBy_regsWf _ _ _ _ h) d (g := 0) (by decide)
  rwa [Nat.mul_zero, Nat.zero_add] at hb

/-- An overrun is counted, up to the counter's last value (R45). -/
theorem State.overrun_reg (h : s.regsWf = true) (d : Dom) :
    ((s.overrun d).reg (rGlbSdOverrun d)).toNat = min ((s.reg (rGlbSdOverrun d)).toNat + 1) 0xFFFFFFFF := by
  have hf : ∀ v : Word, fld v 0 32 = v.toNat := fun v => by
    rw [fld, Nat.shiftRight_zero]
    exact Nat.mod_eq_of_lt v.isLt
  rw [State.overrun, State.sdEvt, State.reg_setRb_ne (rGlbSdOverrun_ne d).2, ← hf]
  refine (State.rf_setRf h (by decide)).trans ?_
  rw [State.rf, hf]
  omega

/-! ### The filter of rising edges (R45) -/

theorem State.riseLevel_sd_self (s : State) (d : Dom) : (s.riseLevel d).sd[d] = { s.sd[d] with
    level := true, riseAt := if (s.sd[d]).st == .off || (s.sd[d]).timerOnly then none else some s.time } := State.sdUpd_sd_self s d _

theorem State.riseLevel_sd_ne (s : State) (h : c ≠ d) : (s.riseLevel d).sd[c] = s.sd[c] := State.sdUpd_sd_ne s _ h

section FilterEdge
variable (s d)

theorem State.filterEdge_off (h : (s.sd[d]).st = .off) : s.filterEdge d = s := by
  rw [State.filterEdge]; simp only [h]

theorem State.filterEdge_waiting (h : (s.sd[d]).st = .waiting) : s.filterEdge d = s.realBeat d := by
  rw [State.filterEdge]; simp only [h]

theorem State.filterEdge_beat (h : (s.sd[d]).st = .beat) :
    s.filterEdge d = if s.spaceNow d ≤ s.time - (s.sd[d]).beatAt then s.realBeat d else s.overrun d := by
  rw [State.filterEdge]; simp only [h]

theorem State.filterEdge_timer (h : (s.sd[d]).st = .timer) :
    s.filterEdge d = if (s.reg (rGlbSdPeriod d)).toNat ≤ s.time - (s.sd[d]).beatAt then (s.synthBeat d).overrun d
      else if s.spaceNow d ≤ s.time - (s.sd[d]).beatAt then ((s.realBeat d).sdEvt d 3).postBeat d 0x04 else s.overrun d := by
  rw [State.filterEdge]; simp only [h]

end FilterEdge

theorem State.overrun_sd (s : State) (d c : Dom) : (s.overrun d).sd[c] = s.sd[c] := rfl

/-- RESUMED is posted with what the beat made of the domains. -/
theorem State.resumed_sd (s : State) (d c : Dom) (g k : Nat) : ((s.sdEvt d g).postBeat d k).sd[c] = s.sd[c] :=
  congrArg (fun v : Vector StepDomain 4 => v[c]) (State.postBeat_sd (s.sdEvt d g) d k)

theorem State.resumed_time (s : State) (d : Dom) (g k : Nat) : ((s.sdEvt d g).postBeat d k).time = s.time := State.postBeat_time (s.sdEvt d g) d k

/-- An edge leaves the other domains. -/
theorem State.filterEdge_sd_ne (s : State) (h : c ≠ d) : (s.filterEdge d).sd[c] = s.sd[c] := by
  cases hst : (s.sd[d]).st with
  | off => rw [State.filterEdge_off s d hst]
  | waiting => rw [State.filterEdge_waiting s d hst, State.realBeat_sd_ne s h]
  | beat =>
    rw [State.filterEdge_beat s d hst]
    split
    · exact State.realBeat_sd_ne s h
    · rfl
  | timer =>
    rw [State.filterEdge_timer s d hst]
    split
    · rw [State.overrun_sd, State.synthBeat_sd_ne s h]
    · split
      · rw [State.resumed_sd, State.realBeat_sd_ne s h]
      · rfl

@[simp] theorem State.filterEdge_time (s : State) (d : Dom) : (s.filterEdge d).time = s.time := by
  cases hst : (s.sd[d]).st with
  | off => rw [State.filterEdge_off s d hst]
  | waiting => rw [State.filterEdge_waiting s d hst, State.realBeat_time]
  | beat =>
    rw [State.filterEdge_beat s d hst]
    split
    · exact State.realBeat_time s d
    · rfl
  | timer =>
    rw [State.filterEdge_timer s d hst]
    split
    · rfl
    · split
      · rw [State.resumed_time, State.realBeat_time]
      · rfl

/-- An edge leaves what ENABLE latched, and a domain that is on stays on. -/
theorem State.filterEdge_on (s : State) (d : Dom) : ((s.filterEdge d).sd[d]).timerOnly = (s.sd[d]).timerOnly ∧
    ((s.sd[d]).st ≠ .off → ((s.filterEdge d).sd[d]).st ≠ .off) := by
  obtain ⟨iv, per, hr⟩ := s.realBeat_sd_self d
  cases hst : (s.sd[d]).st with
  | off => rw [State.filterEdge_off s d hst]; exact ⟨rfl, fun h => absurd rfl h⟩
  | waiting => rw [State.filterEdge_waiting s d hst, hr]; exact ⟨rfl, fun _ => by simp⟩
  | beat =>
    rw [State.filterEdge_beat s d hst]
    split
    · rw [hr]; exact ⟨rfl, fun _ => by simp⟩
    · rw [State.overrun_sd, hst]; exact ⟨rfl, id⟩
  | timer =>
    rw [State.filterEdge_timer s d hst]
    split
    · rw [State.overrun_sd, State.synthBeat_sd_self]; exact ⟨rfl, fun _ => by simp⟩
    · split
      · rw [State.resumed_sd, hr]; exact ⟨rfl, fun _ => by simp⟩
      · rw [State.overrun_sd, hst]; exact ⟨rfl, id⟩

/-- STEP_BEAT_EDGE in the three cases of R45: the level is up already, the domain has its timer alone, or the edge is filtered. -/
theorem stepBeatEdge_up (h : (s.sd[d]).level = true) : stepBeatEdge d s = s := by simp only [stepBeatEdge, h, if_true]
theorem stepBeatEdge_timerOnly (h : (s.sd[d]).level = false) (k : (s.sd[d]).timerOnly = true) : stepBeatEdge d s = s.riseLevel d := by
  simp only [stepBeatEdge, h, k, if_true, Bool.false_eq_true, if_false]
theorem stepBeatEdge_filtered (h : (s.sd[d]).level = false) (k : (s.sd[d]).timerOnly = false) :
    stepBeatEdge d s = (s.filterEdge d).riseLevel d := by
  simp only [stepBeatEdge, h, k, Bool.false_eq_true, if_false]

theorem stepBeatEdge_sd_ne (s : State) (h : c ≠ d) : (stepBeatEdge d s).sd[c] = s.sd[c] := by
  cases hl : (s.sd[d]).level with
  | true => rw [stepBeatEdge_up hl]
  | false =>
    cases ht : (s.sd[d]).timerOnly with
    | true => rw [stepBeatEdge_timerOnly hl ht, State.riseLevel_sd_ne _ h]
    | false => rw [stepBeatEdge_filtered hl ht, State.riseLevel_sd_ne _ h, State.filterEdge_sd_ne _ h]

theorem stepBeatEdge_level (s : State) (d : Dom) : ((stepBeatEdge d s).sd[d]).level = true := by
  cases hl : (s.sd[d]).level with
  | true => rw [stepBeatEdge_up hl, hl]
  | false =>
    cases ht : (s.sd[d]).timerOnly with
    | true => rw [stepBeatEdge_timerOnly hl ht, State.riseLevel_sd_self]
    | false => rw [stepBeatEdge_filtered hl ht, State.riseLevel_sd_self]

/-- A filtered edge begins the stuck measurement and shows what the filter did. -/
theorem stepBeatEdge_filtered_sd (hl : (s.sd[d]).level = false) (ht : (s.sd[d]).timerOnly = false) {x : StepDomain} (h : (s.filterEdge d).sd[d] = x) :
    (stepBeatEdge d s).sd[d] = { x with level := true, riseAt := if x.st == .off then none else some s.time } := by
  rw [stepBeatEdge_filtered hl ht, State.riseLevel_sd_self, (State.filterEdge_on s d).1, ht, h, State.filterEdge_time, Bool.or_false]

theorem stepBeatEdge_filtered_rest (hl : (s.sd[d]).level = false) (ht : (s.sd[d]).timerOnly = false) :
    (stepBeatEdge d s).mem = (s.filterEdge d).mem ∧ (stepBeatEdge d s).regs = (s.filterEdge d).regs := by
  rw [stepBeatEdge_filtered hl ht]; exact ⟨rfl, rfl⟩

/-- Without the beat input an edge shows in the level alone. -/
theorem stepBeatEdge_unfiltered (hl : (s.sd[d]).level = false) (h : (s.sd[d]).st = .off ∨ (s.sd[d]).timerOnly = true) :
    stepBeatEdge d s = s.riseLevel d := by
  cases ht : (s.sd[d]).timerOnly with
  | true => exact stepBeatEdge_timerOnly hl ht
  | false =>
    have hoff := h.resolve_right (by rw [ht]; exact Bool.false_ne_true)
    rw [stepBeatEdge_filtered hl ht, State.filterEdge_off s d hoff]

/-! ### Synthetic beats (R45 to R47) -/

theorem State.wdogCycles_of_ne (h : s.wdogNow d ≠ 0) : s.wdogCycles d = max (s.wdogNow d * 100) (2 * (s.reg (rGlbSdPeriod d)).toNat) := by
  simp [State.wdogCycles, h]

theorem State.wdogCycles_of_eq (h : s.wdogNow d = 0) : s.wdogCycles d = 0 := by simp [State.wdogCycles, h]

/-- The watchdog expires in BEAT alone, once its time has passed. -/
theorem beatWatchdogExpiry_due (hst : (s.sd[d]).st = .beat) (hw : s.wdogNow d ≠ 0)
    (he : max (s.wdogNow d * 100) (2 * (s.reg (rGlbSdPeriod d)).toNat) ≤ s.time - (s.sd[d]).beatAt) :
    beatWatchdogExpiry d s = ((s.synthBeat d).sdEvt d 2).postBeat d 0x02 := by
  have hpos : s.wdogCycles d ≠ 0 := by rw [State.wdogCycles_of_ne hw]; omega
  rw [← State.wdogCycles_of_ne hw] at he
  simp only [beatWatchdogExpiry, hst, beq_self_eq_true, Bool.true_and, bne_iff_ne, ne_eq, hpos, not_false_eq_true, he, decide_true, and_true,
    Bool.and_eq_true, if_true]

theorem beatWatchdogExpiry_early (h : (s.sd[d]).st ≠ .beat ∨ s.wdogNow d = 0 ∨
    s.time - (s.sd[d]).beatAt < max (s.wdogNow d * 100) (2 * (s.reg (rGlbSdPeriod d)).toNat)) : beatWatchdogExpiry d s = s := by
  rw [beatWatchdogExpiry, if_neg]
  simp only [Bool.and_eq_true, beq_iff_eq, bne_iff_ne, decide_eq_true_eq]
  rintro ⟨⟨hst, hpos⟩, he⟩
  rcases h with h | h | h
  · exact h hst
  · exact hpos (State.wdogCycles_of_eq h)
  · have hw : s.wdogNow d ≠ 0 := fun h0 => hpos (State.wdogCycles_of_eq h0)
    rw [State.wdogCycles_of_ne hw] at he
    omega

theorem syntheticBeat_due (hst : (s.sd[d]).st = .timer) (he : (s.reg (rGlbSdPeriod d)).toNat ≤ s.time - (s.sd[d]).beatAt) :
    syntheticBeat d s = s.synthBeat d := by
  simp only [syntheticBeat, hst, he, beq_self_eq_true, decide_true, Bool.and_self, if_true]

theorem syntheticBeat_early (h : (s.sd[d]).st ≠ .timer ∨ s.time - (s.sd[d]).beatAt < (s.reg (rGlbSdPeriod d)).toNat) : syntheticBeat d s = s := by
  rw [syntheticBeat, if_neg]
  simp only [Bool.and_eq_true, beq_iff_eq, decide_eq_true_eq]
  rintro ⟨hst, he⟩
  rcases h with h | h
  · exact h hst
  · omega

/-! ### The stuck measurement (R45) -/

theorem beatStuckDetect_due {r : Nat} (hr : (s.sd[d]).riseAt = some r) (hl : (s.sd[d]).level = true) (hs : (s.sd[d]).stuck = false)
    (he : 100000 < s.time - r) :
    beatStuckDetect d s = ((s.sdUpd d (fun x => { x with stuck := true, riseAt := none })).sdEvt d 1).postBeat d 0x03 := by
  simp only [beatStuckDetect, hr, hl, hs, he, Bool.not_false, decide_true, Bool.and_self, if_true]

theorem beatStuckDetect_early {r : Nat} (hr : (s.sd[d]).riseAt = some r) (he : s.time - r ≤ 100000) : beatStuckDetect d s = s := by
  simp only [beatStuckDetect, hr]
  rw [if_neg]
  simp only [Bool.and_eq_true, decide_eq_true_eq]
  omega

/-! ### A write of GLB_SD_WDOG (R46) -/

/-- Its row: TIME is bits 19 to 0, all of them RW. -/
theorem regRow?_rGlbSdWdog (d : Dom) : ∃ r, regRow? (rGlbSdWdog d) = some r ∧ r.half = 0 ∧ r.rw = 0xFFFFF ∧ r.w1c = 0 := by
  revert d; decide

/-- Its place in the global window. -/
theorem rGlbSdWdog_place (d : Dom) : csrWin (rGlbSdWdog d) = .global ∧ 0x100 ≤ rGlbSdWdog d ∧ rGlbSdWdog d < 0x200 ∧ rGlbSdWdog d % 0x40 = 0x0C ∧
    asDom ((rGlbSdWdog d - 0x100) / 0x40) = d ∧ (BitVec.ofNat 25 (rGlbSdWdog d)).toNat = rGlbSdWdog d := by revert d; decide

/-- A primary's forwarding shows outside the block alone. -/
theorem State.forwardWrite_rest (s : State) (o : Nat) (v : Word) : s.forwardWrite o v = { s with peerOut := (s.forwardWrite o v).peerOut } := by
  rw [State.forwardWrite]
  split <;> rfl

/-- A register of the global window below 0x300 takes every write in a running state. -/
theorem csrWrite_global {o : Nat} {v : Word} {r : RegRow} (hrun : s.running = true) (hr : regRow? o = some r) (hh : r.half = 0) (h4 : o % 4 = 0)
    (hw : csrWin o = .global) (hlt : o < 0x300) : csrWrite o v s = (s.forwardWrite o v).writeGlobal o v := by
  have hopen : s.csrOpen o = true := by
    simp only [State.running, Bool.and_eq_true, Bool.not_eq_true'] at hrun
    simp [State.csrOpen, hrun]
  have hdark : s.cluDark o = false := by simp [State.cluDark, hw]
  have hboot : (o == rCfgBootCtrl) = false := beq_false_of_ne (by unfold rCfgBootCtrl; omega)
  have hfrozen : ∀ u : State, u.frozen o = false := fun u => by
    simp only [State.frozen, hw]
    rw [if_neg (by simp; omega), if_neg (by simp; omega), if_neg (by simp; omega)]
  simp [csrWrite, csrWriteWith, h4, hopen, hdark, hr, hboot, State.regWrite, hh, hfrozen, State.writeOne, hw]

/-- A write of WDOG keeps what edges of this cycle are still judged by, and then is a plain one. -/
theorem registerWrite_rGlbSdWdog (v : Word) (src : WriteSrc) (hrun : s.running = true) (hi : s.ignores src (rGlbSdWdog d) = false) :
    registerWrite (BitVec.ofNat 25 (rGlbSdWdog d)) 4 v src s = ((s.forwardWrite (rGlbSdWdog d) v).sdKeep d).plain (rGlbSdWdog d) v := by
  obtain ⟨hwin, hlo, hhi, hmod, hdom, hoff⟩ := rGlbSdWdog_place d
  obtain ⟨r, hr, hh, -, -⟩ := regRow?_rGlbSdWdog d
  rw [registerWrite, hoff, hi, csrWrite_global hrun hr hh (by omega) hwin (by omega), State.writeGlobal, hmod, hdom]
  simp [hlo, hhi]

theorem State.sdKeep_old (s : State) (d : Dom) : ∃ k, ((s.sdKeep d).sd[d]).old = some k ∧ k.cycle = s.time ∧ k.wdog = s.wdogNow d :=
  ⟨_, by rw [State.sdKeep, State.sdUpd_sd_self], rfl, rfl⟩

/-- The watchdog time in the cycle of a write that was kept, and in another one. -/
theorem State.wdogNow_kept {k : SdOld} (h : (s.sd[d]).old = some k) (hk : k.cycle = s.time) : s.wdogNow d = k.wdog := by
  simp only [State.wdogNow, State.sdNow, h, hk, beq_self_eq_true, if_true]

theorem State.wdogNow_stale {k : SdOld} (h : (s.sd[d]).old = some k) (hk : k.cycle ≠ s.time) : s.wdogNow d = s.rf (rGlbSdWdog d) 0 20 := by
  simp only [State.wdogNow, State.sdNow, h, beq_iff_eq, hk, if_false]

/-- A plain write of WDOG gives its TIME. -/
theorem State.plain_rGlbSdWdog (h : s.regsWf = true) (v : Word) : (s.plain (rGlbSdWdog d) v).rf (rGlbSdWdog d) 0 20 = fld v 0 20 ∧
    (s.plain (rGlbSdWdog d) v).sd = s.sd ∧ (s.plain (rGlbSdWdog d) v).time = s.time := by
  obtain ⟨r, hr, -, hrw, hw1c⟩ := regRow?_rGlbSdWdog d
  have hquiet : ∀ d : Dom, isSid (rGlbSdWdog d) = false ∧ isTimed (rGlbSdWdog d) = false := by decide
  have hsid : s.sidNote (rGlbSdWdog d) = s := by simp [State.sidNote, hquiet d]
  have hold : s.noteOld (rGlbSdWdog d) = s := by simp [State.noteOld, hquiet d]
  rw [State.plain, hr]
  dsimp only
  rw [State.plainWrite, hsid, hold, hrw, hw1c, State.rf, State.reg_setReg _ _ h]
  refine ⟨Nat.eq_of_testBit_eq fun i => ?_, rfl, rfl⟩
  rw [testBit_fld, testBit_fld]
  by_cases hi : i < 20
  · have hm : (0xFFFFF : Nat).testBit i = true := (Nat.testBit_two_pow_sub_one 20 i).trans (decide_eq_true hi)
    simp only [BitVec.getLsbD_or, BitVec.getLsbD_and, BitVec.getLsbD_not, BitVec.getLsbD_ofNat, Nat.zero_add, hm, Nat.zero_testBit,
      show i < 32 by omega]
    simp
  · simp [hi]

/-! ### Enabling and disabling (R38, R39, R54) -/

theorem sdCtrl_ne (d : Dom) : rGlbSdPreset d ≠ rGlbSdCtrl d ∧ rGlbSdPreset d + 4 ≠ rGlbSdCtrl d ∧
    rGlbSdPeriodInit d ≠ rGlbSdCtrl d ∧ rGlbSdMinspace d ≠ rGlbSdCtrl d ∧ rGlbSdPreset d ≠ rGlbSdPeriod d ∧ rGlbSdPreset d + 4 ≠ rGlbSdPeriod d ∧
    rGlbSdCtrl d ≠ rGlbSdPeriod d := by revert d; decide

/-- The fields of GLB_SD_CTRL written: the domain keeps its point, and SOURCE is taken while ENABLE is 0 (R54). -/
structure CtrlFields (s : State) (d : Dom) (v : Word) (t : State) : Prop where
  sd : ∃ k, t.sd = (s.sdUpd d (fun x => { x with old := k })).sd
  reg : ∀ o, o ≠ rGlbSdCtrl d → t.reg o = s.reg o
  wf : t.regsWf = true
  source : s.rb (rGlbSdCtrl d) 31 = false → t.rb (rGlbSdCtrl d) 30 = bit v 30
  rest : t = { s with sd := t.sd, regs := t.regs }

theorem State.sdCtrlFields_spec (h : s.regsWf = true) (d : Dom) (v : Word) : CtrlFields s d v (s.sdCtrlFields d v) := by
  have h1 : ((s.sdKeep d).setRf (rGlbSdCtrl d) 28 2 (fld v 28 2)).regsWf = true := State.setRf_regsWf (s := s.sdKeep d) _ _ _ _ h
  have h2 := State.setRf_regsWf (rGlbSdCtrl d) 12 12 (fld v 12 12) h1
  have hen : (((s.sdKeep d).setRf (rGlbSdCtrl d) 28 2 (fld v 28 2)).setRf (rGlbSdCtrl d) 12 12 (fld v 12 12)).rb (rGlbSdCtrl d) 31 =
      s.rb (rGlbSdCtrl d) 31 := by
    rw [State.rb_setRf h1 (by decide), State.rb_setRf (s := s.sdKeep d) h (by decide)]
    rfl
  unfold State.sdCtrlFields
  dsimp only
  rw [hen]
  cases hon : s.rb (rGlbSdCtrl d) 31 with
  | true =>
    rw [if_pos rfl]
    exact ⟨⟨_, rfl⟩, fun o ho => (State.reg_setRf_ne ho).trans (State.reg_setRf_ne ho), h2, fun h => by simp [hon] at h, rfl⟩
  | false =>
    rw [if_neg Bool.false_ne_true]
    exact ⟨⟨_, rfl⟩, fun o ho => (State.reg_setRf_ne ho).trans ((State.reg_setRf_ne ho).trans (State.reg_setRf_ne ho)), State.setRb_regsWf _ _ _ h2,
      fun _ => State.rb_setRb h2 (by decide), rfl⟩

/-- Leaving OFF: SOURCE decides the state; the preset step and the initial period hold (R38, R39, R41, R58). -/
theorem State.sdStart_sd_self (s : State) (d : Dom) : (s.sdStart d).sd[d] = { s.sd[d] with
    st := if s.rb (rGlbSdCtrl d) 30 then .timer else .waiting
    timerOnly := s.rb (rGlbSdCtrl d) 30
    step := BitVec.ofNat 40 (fld (s.reg64 (rGlbSdPreset d)) 0 40)
    beatAt := s.time
    p := BitVec.ofNat 32 (max (s.reg (rGlbSdPeriodInit d)).toNat (s.minSpace d))
    realLast := false, intervals := [], stuck := false, riseAt := none } := by
  obtain ⟨-, -, -, -, hlo, hhi, -⟩ := sdCtrl_ne d
  have hpre : ∀ v, (s.setReg (rGlbSdPeriod d) v).reg64 (rGlbSdPreset d) = s.reg64 (rGlbSdPreset d) := fun v => by
    rw [State.reg64, State.reg64, State.reg_setReg_ne hlo, State.reg_setReg_ne hhi]
  unfold State.sdStart
  dsimp only
  rw [State.sdUpd_sd_self, hpre]
  rfl

theorem State.sdStart_sd_ne (s : State) (h : c ≠ d) : (s.sdStart d).sd[c] = s.sd[c] := State.sdUpd_sd_ne _ _ h

theorem State.sdStart_reg (h : s.regsWf = true) (d : Dom) :
    (s.sdStart d).reg (rGlbSdPeriod d) = BitVec.ofNat 32 (max (s.reg (rGlbSdPeriodInit d)).toNat (s.minSpace d)) := State.reg_setReg _ _ h

theorem State.sdStart_reg_ne (s : State) {o : Nat} (h : o ≠ rGlbSdPeriod d) : (s.sdStart d).reg o = s.reg o := State.reg_setReg_ne (s := s) h

theorem State.sdStart_mem (s : State) (d : Dom) : (s.sdStart d).mem = s.mem := rfl

/-- The spacing is a field of 20 bits, so the initial period fits its register. -/
theorem State.initialPeriod_lt (s : State) (d : Dom) : max (s.reg (rGlbSdPeriodInit d)).toNat (s.minSpace d) < 2 ^ 32 := by
  have h1 := (s.reg (rGlbSdPeriodInit d)).isLt
  have h2 : s.rf (rGlbSdMinspace d) 0 20 < 2 ^ 20 := Nat.mod_lt _ (by decide)
  unfold State.minSpace
  omega

/-- Entering OFF holds step and phase (R38, R676). -/
theorem State.sdStop_sd_self (s : State) (d : Dom) : (s.sdStop d).sd[d] = { s.sd[d] with
    st := .off, heldPhase := s.phase d, stuck := false, riseAt := none, realLast := false, timerOnly := false } := State.sdUpd_sd_self _ _ _

theorem State.sdStop_sd_ne (s : State) (h : c ≠ d) : (s.sdStop d).sd[c] = s.sd[c] := State.sdUpd_sd_ne _ _ h

theorem State.phase_off (h : (s.sd[d]).st = .off) : s.phase d = (s.sd[d]).heldPhase := by simp only [State.phase, h]

/-- The phase is the domain's alone, with the time. -/
theorem State.phase_congr (ht : t.time = s.time) {k : Option SdOld} (h : t.sd[d] = { s.sd[d] with old := k }) : t.phase d = s.phase d := by
  unfold State.phase
  dsimp only
  rw [h, ht]

/-- What SD_ENABLE makes of a domain that is off. -/
structure Enabled (s : State) (d : Dom) (v : Word) (t : State) : Prop where
  enable : t.rb (rGlbSdCtrl d) 31 = true
  source : t.rb (rGlbSdCtrl d) 30 = bit v 30
  st : (t.sd[d]).st = if bit v 30 then .timer else .waiting
  step : (t.sd[d]).step.toNat = (s.reg64 (rGlbSdPreset d)).toNat % 2 ^ 40
  period : (t.reg (rGlbSdPeriod d)).toNat = max (s.reg (rGlbSdPeriodInit d)).toNat (s.minSpace d)
  inForce : (t.sd[d]).p = t.reg (rGlbSdPeriod d)
  mem : t.mem = s.mem
  others : ∀ c : Dom, c ≠ d → t.sd[c] = s.sd[c]

theorem sdEnable_enabled (h : s.regsWf = true) (hv : bit v 31 = true) (hoff : s.rb (rGlbSdCtrl d) 31 = false) :
    Enabled s d v (sdEnable d v s) := by
  obtain ⟨hlo, hhi, hinit, hspace, -, -, hcp⟩ := sdCtrl_ne d
  obtain ⟨⟨k, hsd⟩, hreg, hwf, hsrc, hrest⟩ := State.sdCtrlFields_spec h d v
  obtain ⟨u, hu⟩ : ∃ u, (s.sdCtrlFields d v).setRb (rGlbSdCtrl d) 31 true = u := ⟨_, rfl⟩
  have hen : sdEnable d v s = u.sdStart d := by simp [sdEnable, hv, hoff, hu]
  have hureg : ∀ o, o ≠ rGlbSdCtrl d → u.reg o = s.reg o := fun o ho => by rw [← hu, State.reg_setRb_ne ho, hreg o ho]
  have huwf : u.regsWf = true := hu ▸ State.setRb_regsWf _ _ _ hwf
  have hu31 : u.rb (rGlbSdCtrl d) 31 = true := hu ▸ State.rb_setRb hwf (by decide)
  have hu30 : u.rb (rGlbSdCtrl d) 30 = bit v 30 := by
    rw [← hu, State.rb_setRb_disj hwf (by decide) (by decide), hsrc hoff]
  have hpre : u.reg64 (rGlbSdPreset d) = s.reg64 (rGlbSdPreset d) := by rw [State.reg64, State.reg64, hureg _ hlo, hureg _ hhi]
  have hmin : u.minSpace d = s.minSpace d := by rw [State.minSpace, State.minSpace, State.rf, State.rf, hureg _ hspace]
  have hself := u.sdStart_sd_self d
  have husd : u.sd = (s.sdUpd d (fun x => { x with old := k })).sd := by rw [← hu]; exact hsd
  rw [hen]
  refine ⟨?_, ?_, ?_, ?_, ?_, ?_, ?_, fun c hc => ?_⟩
  · rw [State.rb, State.sdStart_reg_ne u hcp, ← State.rb, hu31]
  · rw [State.rb, State.sdStart_reg_ne u hcp, ← State.rb, hu30]
  · rw [hself, hu30]
  · rw [hself, hpre]
    simp [fld]
  · rw [State.sdStart_reg huwf, BitVec.toNat_ofNat, Nat.mod_eq_of_lt (u.initialPeriod_lt d), hmin, hureg _ hinit]
  · rw [hself, State.sdStart_reg huwf]
  · rw [State.sdStart_mem, ← hu, State.setRb_mem, hrest]
  · rw [State.sdStart_sd_ne u hc]
    simp only [husd]
    exact State.sdUpd_sd_ne s _ hc

/-- What SD_DISABLE makes of a domain that is on, where no op has a point in it. -/
structure Disabled (s : State) (d : Dom) (t : State) : Prop where
  enable : t.rb (rGlbSdCtrl d) 31 = false
  st : (t.sd[d]).st = .off
  step : (t.sd[d]).step = (s.sd[d]).step
  held : (t.sd[d]).heldPhase = s.phase d
  stuck : (t.sd[d]).stuck = false
  mem : t.mem = s.mem
  ctxs : t.ctxs = s.ctxs
  others : ∀ c : Dom, c ≠ d → t.sd[c] = s.sd[c]

theorem sdDisable_disabled (h : s.regsWf = true) (hv : bit v 31 = false) (hon : s.rb (rGlbSdCtrl d) 31 = true)
    (hctx : s.ctxs.all (fun x => !x.pointIn d) = true) : Disabled s d (sdDisable d v s) := by
  obtain ⟨⟨k, hsd⟩, -, hwf, -, hrest⟩ := State.sdCtrlFields_spec h d v
  obtain ⟨u, hu⟩ : ∃ u, s.sdCtrlFields d v = u := ⟨_, rfl⟩
  rw [hu] at hsd hwf hrest
  have hpoints : u.ctxs.filter (fun x => x.pointIn d) = [] := by
    rw [hrest, List.filter_eq_nil_iff]
    simpa using hctx
  have hstop : sdDisable d v s = u.sdStop d := by simp [sdDisable, hv, hon, hu, hpoints]
  have hd : u.sd[d] = { s.sd[d] with old := k } := by simp only [hsd]; exact State.sdUpd_sd_self s d _
  have hphase : u.phase d = s.phase d := State.phase_congr (by rw [hrest]) hd
  have hself := u.sdStop_sd_self d
  rw [hstop]
  refine ⟨State.rb_setRb hwf (by decide), ?_, ?_, ?_, ?_, ?_, ?_, fun c hc => ?_⟩
  · rw [hself]
  · rw [hself, hd]
  · rw [hself, hphase]
  · rw [hself]
  · show u.mem = s.mem
    rw [hrest]
  · show u.ctxs = s.ctxs
    rw [hrest]
  · rw [State.sdStop_sd_ne u hc]
    simp only [hsd]
    exact State.sdUpd_sd_ne s _ hc

/-- What was forwarded is outside the block: seen from the state before it, a shown effect is the same. -/
theorem Enabled.shown {v : Word} {u : State} (out : List (Nat × Word)) (e : Enabled { s with peerOut := out } d v u) (sh : Shows s u t) :
    Enabled s d v t := by
  obtain ⟨-, -, hper, hctrl, -⟩ := noteReg_sd d
  refine ⟨?_, ?_, ?_, ?_, ?_, ?_, sh.mem e.mem, fun c hc => ?_⟩
  · rw [sh.rb hctrl, e.enable]
  · rw [sh.rb hctrl, e.source]
  · simp only [sh.sd, e.st]
  · simp only [sh.sd, e.step]; rfl
  · rw [sh.reg _ hper, e.period]; rfl
  · simp only [sh.sd, e.inForce, sh.reg _ hper]
  · simp only [sh.sd, e.others c hc]

theorem Disabled.shown {u : State} (out : List (Nat × Word)) (e : Disabled { s with peerOut := out } d u) (sh : Shows s u t) : Disabled s d t := by
  obtain ⟨-, -, -, hctrl, -⟩ := noteReg_sd d
  refine ⟨?_, ?_, ?_, ?_, ?_, sh.mem e.mem, sh.ctxs.trans e.ctxs, fun c hc => ?_⟩
  · rw [sh.rb hctrl, e.enable]
  · simp only [sh.sd, e.st]
  · simp only [sh.sd, e.step]
  · simp only [sh.sd, e.held]; rfl
  · simp only [sh.sd, e.stuck]
  · simp only [sh.sd, e.others c hc]

/-- What a write shows of its effect: a primary has forwarded it, which touches nothing else. -/
theorem runWrite_shows (o : Nat) (v : Word) (f : State → State) (h : s.running = true) :
    ∃ t out, runWrite o v f s = .next t ∧ Shows s (f { s with peerOut := out }) t := by
  obtain ⟨t, ht, sh⟩ := run_shows (fun s => f (s.forwardWrite o v)) h
  rw [State.forwardWrite_rest] at sh
  exact ⟨t, _, ht, sh⟩

end Sys2Proof.Machine

namespace Sys2Proof.Claims
open Machine

/-- Settles O30: what the command shows is what the filter makes of the edge in each of the states of the domain. -/
theorem beatEdgeFilter : Obligations.BeatEdgeFilter := by
  unfold Obligations.BeatEdgeFilter
  intro s d hcanon hrun
  obtain ⟨-, -, hwf⟩ := hcanon
  obtain ⟨hevt, hover, -⟩ := noteReg_sd d
  obtain ⟨hop, -⟩ := rGlbSdOverrun_ne d
  obtain ⟨iv, per, hreal⟩ := s.realBeat_sd_self d
  obtain ⟨t, ht, sh⟩ := runAon_shows (stepBeatEdge d) hrun
  have hsd : t.sd[d] = (stepBeatEdge d s).sd[d] := by simp only [sh.sd]
  refine ⟨t, ht, fun c hc => by simp only [sh.sd, stepBeatEdge_sd_ne s hc], fun hl => ?_, fun hl => ⟨?_, fun hst => ?_, fun htm => ?_⟩⟩
  · rw [stepBeatEdge_up hl] at hsd sh
    exact ⟨hsd, sh.mem rfl⟩
  · rw [hsd, stepBeatEdge_level]
  · rw [stepBeatEdge_unfiltered hl hst] at hsd sh
    rw [hsd, State.riseLevel_sd_self]
    exact ⟨rfl, rfl, sh.mem rfl⟩
  · have hfil := fun {x} => stepBeatEdge_filtered_sd (x := x) hl htm
    obtain ⟨hmem, hregs⟩ := stepBeatEdge_filtered_rest hl htm
    have hreg : ∀ o, noteReg o = false → t.reg o = (s.filterEdge d).reg o := fun o ho => by rw [sh.reg o ho, State.reg, State.reg, hregs]
    refine ⟨fun hw => ?_, fun hb he => ?_, fun hb he => ?_, fun hb he hp => ?_, fun hb hp => ?_, fun hon => ?_⟩
    · have hf := State.filterEdge_waiting s d hw
      rw [hsd, hfil (by rw [hf, hreal]), sh.mem (by rw [hmem, hf, State.realBeat_mem])]
      simp [-Fin.getElem_fin, hw]
    · have hf := (State.filterEdge_beat s d hb).trans (if_pos he)
      rw [hsd, hfil (by rw [hf, hreal]), sh.mem (by rw [hmem, hf, State.realBeat_mem]), hreg _ hover, hf, State.realBeat_reg_ne s hop]
      simp [-Fin.getElem_fin, hb]
    · have hf := (State.filterEdge_beat s d hb).trans (if_neg (Nat.not_le.mpr he))
      rw [hsd, hfil (by rw [hf, State.overrun_sd]), hreg _ hover, State.rb, hreg _ hevt, hf, ← State.rb, State.overrun_rb hwf, State.overrun_reg hwf]
      simp [-Fin.getElem_fin, hb]
    · have hf := (State.filterEdge_timer s d hb).trans ((if_neg (Nat.not_le.mpr hp)).trans (if_pos he))
      rw [hsd, hfil (by rw [hf, State.resumed_sd, hreal]), State.rb, hreg _ hevt, hf, State.postBeat_reg_global (by decide), ← State.rb,
        State.sdEvt_rb (State.realBeat_regsWf hwf d) d (by decide)]
      simp [-Fin.getElem_fin, hb]
    · have hf := (State.filterEdge_timer s d hb).trans (if_pos hp)
      rw [hsd, hfil (by rw [hf, State.overrun_sd, State.synthBeat_sd_self]), State.rb, hreg _ hevt, hf, ← State.rb, State.overrun_rb (s := s.synthBeat d) hwf]
      exact ⟨rfl, rfl, rfl⟩
    · rw [hsd, hfil rfl]
      simp [-Fin.getElem_fin, (State.filterEdge_on s d).2 hon]

/-- Settles O31: due, a beat is the synthetic one; before, nothing happens; and WDOG is kept for the cycle of its write. -/
theorem syntheticBeats : Obligations.SyntheticBeats := by
  unfold Obligations.SyntheticBeats
  intro s d hcanon hrun
  obtain ⟨-, -, hwf⟩ := hcanon
  obtain ⟨hevt, -, -, -, hwdog⟩ := noteReg_sd d
  refine ⟨fun hst hw he => ?_, fun h => ?_, fun hst he => ?_, fun h => ?_, fun v src hi => ?_⟩
  · obtain ⟨t, ht, sh⟩ := runAon_shows (beatWatchdogExpiry d) hrun
    rw [beatWatchdogExpiry_due hst hw he] at sh
    have hsd : ∀ c : Dom, t.sd[c] = (s.synthBeat d).sd[c] := fun c => by simp only [sh.sd]; exact State.resumed_sd ..
    refine ⟨t, ht, ?_, ?_, ?_, ?_, fun c hc => (hsd c).trans (State.synthBeat_sd_ne s hc)⟩
    · rw [hsd, State.synthBeat_sd_self]
    · rw [hsd, State.synthBeat_sd_self]
    · rw [hsd, State.synthBeat_sd_self]
    · rw [sh.rb hevt, State.rb, State.postBeat_reg_global (by decide)]
      exact State.sdEvt_rb (s := s.synthBeat d) hwf d (g := 2) (by decide)
  · exact runAon_noted (beatWatchdogExpiry_early h) rfl hrun
  · exact runAon_noted ((syntheticBeat_due hst he).trans rfl) rfl hrun
  · exact runAon_noted (syntheticBeat_early h) rfl hrun
  · obtain ⟨t, ht, sh⟩ := runAon_shows (registerWrite (BitVec.ofNat 25 (rGlbSdWdog d)) 4 v src) hrun
    rw [registerWrite_rGlbSdWdog v src hrun hi] at sh
    have hfw := State.forwardWrite_rest s (rGlbSdWdog d) v
    obtain ⟨hrf, hsd, htime⟩ := State.plain_rGlbSdWdog (s := (s.forwardWrite (rGlbSdWdog d) v).sdKeep d) (d := d) (by rw [hfw]; exact hwf) v
    have hold : ∃ k, (t.sd[d]).old = some k ∧ k.cycle = s.time ∧ k.wdog = s.wdogNow d := by
      simp only [sh.sd, hsd]
      obtain ⟨k, hk, hcycle, hkept⟩ := State.sdKeep_old (s.forwardWrite (rGlbSdWdog d) v) d
      exact ⟨k, hk, hcycle.trans (by rw [hfw]), hkept.trans (by rw [hfw]; rfl)⟩
    obtain ⟨k, hk, hcycle, hkept⟩ := hold
    have htt : t.time = s.time := by rw [sh.time, htime, hfw]; rfl
    refine ⟨t, ht, (State.wdogNow_kept hk (hcycle.trans htt.symm)).trans hkept, ?_⟩
    have hlater : k.cycle ≠ s.time + 1 := by omega
    have hfield : ({ t with time := s.time + 1 } : State).rf (rGlbSdWdog d) 0 20 = t.rf (rGlbSdWdog d) 0 20 := rfl
    rw [State.wdogNow_stale (s := { t with time := s.time + 1 }) hk hlater, hfield, State.rf, sh.reg _ hwdog, ← hrf, State.rf]

/-- Settles O32: each of the three commands is the update of the domain that the statement names, and the event bit is set before the events are
posted. -/
theorem stuckBeatInput : Obligations.StuckBeatInput := by
  unfold Obligations.StuckBeatInput
  intro s d hcanon hrun
  obtain ⟨-, -, hwf⟩ := hcanon
  obtain ⟨hevt, -⟩ := noteReg_sd d
  refine ⟨fun r hr hl hs he => ?_, fun r hr he => ?_, fun hs => ?_, fun hs => ?_⟩
  · obtain ⟨t, ht, sh⟩ := runAon_shows (beatStuckDetect d) hrun
    rw [beatStuckDetect_due hr hl hs he] at sh
    refine ⟨t, ht, ?_, ?_⟩
    · simp only [sh.sd]
      rw [State.resumed_sd, State.sdUpd_sd_self]
    · rw [sh.rb hevt, State.rb, State.postBeat_reg_global (by decide)]
      exact State.sdEvt_rb (s := s.sdUpd d _) hwf d (g := 1) (by decide)
  · exact runAon_noted (beatStuckDetect_early hr he) rfl hrun
  · exact runAon_noted (f := beatRelease d) (if_pos hs) rfl hrun
  · exact runAon_noted (f := beatLevelFall d) (by rw [beatLevelFall, hs]; rfl) rfl hrun

/-- Settles O33: the write sets the fields of GLB_SD_CTRL and then starts or stops the domain. -/
theorem domainEnableDisable : Obligations.DomainEnableDisable := by
  unfold Obligations.DomainEnableDisable
  intro s d v hcanon hrun
  obtain ⟨-, -, hwf⟩ := hcanon
  refine ⟨fun hv hoff => ?_, fun hv hon hctx => ?_⟩
  · obtain ⟨t, out, ht, sh⟩ := runWrite_shows (rGlbSdCtrl d) v (sdEnable d v) hrun
    have e := (sdEnable_enabled (s := { s with peerOut := out }) hwf hv hoff).shown out sh
    exact ⟨t, ht, e.enable, e.source, e.st, e.step, e.period, e.inForce, e.mem, e.others⟩
  · obtain ⟨t, out, ht, sh⟩ := runWrite_shows (rGlbSdCtrl d) v (sdDisable d v) hrun
    have e := (sdDisable_disabled (s := { s with peerOut := out }) hwf hv hon hctx).shown out sh
    exact ⟨t, ht, e.enable, e.st, e.step, e.held, e.stuck, (State.phase_off e.st).trans e.held, e.mem, e.ctxs, e.others⟩

end Sys2Proof.Claims
end

