-- ==== Sys2Proof/Proofs/PointsAndDoorbells.lean ====
section
/-! PROOF. Sys2Proof/Proofs/PointsAndDoorbells.lean: the logits-ready doorbell, the logits-ready point of a batch, and the deadline of an op that
has no output. -/
namespace Sys2Proof.Machine
open Sys2Proof
variable {s : State} {c : Ctx} {x : OpCtx}

/-! ### The op in a context -/

theorem State.ctx?_id (h : s.ctx? c = some x) : x.id = c := by
  have hid := List.find?_some h
  simpa using hid

/-- What an update of a context makes of the op in it. -/
theorem State.ctx?_ctxUpd (h : s.ctx? c = some x) {f : OpCtx → OpCtx} (hf : ∀ y, (f y).id = y.id) : (s.ctxUpd c f).ctx? c = some (f x) := by
  have hid : (fun y : OpCtx => y.id == c) ∘ (fun y => if y.id == c then f y else y) = fun y => y.id == c := by
    funext y
    rw [Function.comp_apply]
    split <;> simp only [hf]
  rw [State.ctx?, State.ctxUpd, List.find?_map, hid]
  rw [State.ctx?] at h
  simp [h, State.ctx?_id (s := s) h]

/-- A decision told goes into the mailbox of a primary, which the op does not see (R622). -/
theorem State.tellOp_rest (s : State) (k : Nat) (p : Part) (v : DWord) (r : Ring) (i : Word) :
    s.tellOp k p v r i = { s with mailOut := (s.tellOp k p v r i).mailOut, pair := (s.tellOp k p v r i).pair } := by
  rw [State.tellOp]
  split <;> rfl

/-- What a command shows that updates the op in a context. -/
theorem Shows.ctxUpd {t u : State} {f : OpCtx → OpCtx} (sh : Shows s (u.ctxUpd c f) t) (hc : u.ctxs = s.ctxs) (hm : u.mem = s.mem)
    (hs : u.strands = s.strands) (h : s.ctx? c = some x) (hf : ∀ y, (f y).id = y.id) :
    t.ctx? c = some (f x) ∧ t.mem = s.mem ∧ t.strands = s.strands := by
  have hu : u.ctx? c = some x := by rw [State.ctx?, hc, ← State.ctx?, h]
  refine ⟨?_, sh.mem hm, sh.strands.trans hs⟩
  rw [State.ctx?, sh.ctxs, ← State.ctx?, State.ctx?_ctxUpd hu hf]

/-! ### Points (R49, R50, R53) -/

theorem logitsReadyPoint_secondary (h : s.role = 2) (c : Ctx) : logitsReadyPoint c s = s := by
  rw [logitsReadyPoint]
  split
  · rw [if_neg (by simp [h])]
  · rfl

theorem deadlineReached_secondary (h : s.role = 2) (c : Ctx) : deadlineReached c s = s := by
  rw [deadlineReached]
  split
  · rw [if_neg (by simp [h])]
  · rfl

theorem logitsReadyPoint_reached (hrole : s.role ≠ 2) (h : s.ctx? c = some x) (hop : eOp x.entry = opSTEP_BATCH) (hsrc : lrSrc x.entry = 1)
    (hr : s.reached (eDom x.entry) (BitVec.ofNat 64 (leAt x.entry 40 8)) = true) :
    logitsReadyPoint c s = (s.tellOp 2 x.part 0#64 x.ring x.index).ctxUpd c (fun y => { y with logits := true }) := by
  rw [logitsReadyPoint, h]
  exact if_pos (by simp [hop, hsrc, hr, hrole])

theorem deadlineReached_reached (hrole : s.role ≠ 2) (h : s.ctx? c = some x) (hst : x.st ≠ .past) (hdl : eDlValid x.entry = true)
    (hr : s.reached (eDom x.entry) (eDeadline x.entry) = true) :
    deadlineReached c s = (s.tellOp 1 x.part 0#64 x.ring x.index).missDeadline x := by
  rw [deadlineReached, h]
  exact if_pos (by simp [hst, hdl, hr, hrole])

/-- An op of a kind without output has nothing to undo: its deadline gives it the status alone (R49). -/
theorem State.missDeadline_noOutput (s : State) (h : eOp x.entry ∈ [opSESSION_CLOSE, opOBJECT_RETIRE, opPARK, opROLLBACK]) :
    s.missDeadline x = s.endWith x stDeadline := by
  simp only [List.mem_cons, List.not_mem_nil, or_false] at h
  rw [State.missDeadline, State.opFail]
  rcases h with h | h | h | h <;> simp [h]

/-! ### The logits-ready doorbell (R84) -/

/-- The batch that the doorbell names: the op of that ring pair and index, a STEP_BATCH whose source is the doorbell (R105). -/
theorem logitsReady_named (x : OpCtx) (r : Ring) (v : Word) :
    (x.ring == r && x.index == v && leAt x.entry 0 1 == 0x06 && lrSrc x.entry == 0) = true ↔
      x.ring = r ∧ x.index = v ∧ eOp x.entry = opSTEP_BATCH ∧ leAt x.entry 36 1 < 64 := by
  simp [lrSrc, eOp, and_assoc]

theorem logitsReadyDoorbell_ctxs (s : State) (r : Ring) (v : Word) : (logitsReadyDoorbell r v s).ctxs = s.ctxs.map (fun x =>
    if x.ring = r ∧ x.index = v ∧ eOp x.entry = opSTEP_BATCH ∧ leAt x.entry 36 1 < 64 then { x with logits := true } else x) := by
  rw [logitsReadyDoorbell]
  exact List.map_congr_left fun x _ => if_congr (logitsReady_named x r v) rfl rfl

theorem logitsReadyDoorbell_lready (s : State) (r : Ring) (v : Word) :
    ((logitsReadyDoorbell r v s).rings[r]).lready = (v :: (s.rings[r]).lready).take 16 := by
  simp [logitsReadyDoorbell, State.ringUpd, vset]

end Sys2Proof.Machine

namespace Sys2Proof.Claims
open Machine

/-- Settles O34: the doorbell and the points are updates of the ops in their contexts, and a secondary makes none. -/
theorem pointsAndDoorbells : Obligations.PointsAndDoorbells := by
  unfold Obligations.PointsAndDoorbells
  intro s hrun
  refine ⟨fun r v => ?_, fun hrole c => ⟨?_, ?_⟩, fun c x hrole hx hop hsrc hr => ?_, fun c x hrole hx hst hdl hr hkind => ?_⟩
  · obtain ⟨t, out, ht, sh⟩ := runWrite_shows (rPrtLready r) v (logitsReadyDoorbell r v) hrun
    have hctxs := sh.ctxs.trans (logitsReadyDoorbell_ctxs _ r v)
    refine ⟨t, ht, ?_, ?_, sh.mem rfl, fun i x hi => ?_⟩
    · simp only [sh.rings, logitsReadyDoorbell_lready]
    · rw [hctxs, List.length_map]
    · rw [hctxs, List.getElem?_map, hi]
      rfl
  · exact run_noted (logitsReadyPoint_secondary hrole c) rfl hrun
  · exact run_noted (deadlineReached_secondary hrole c) rfl hrun
  · obtain ⟨t, ht, sh⟩ := run_shows (logitsReadyPoint c) hrun
    rw [logitsReadyPoint_reached hrole hx hop hsrc hr, State.tellOp_rest] at sh
    exact ⟨t, ht, sh.ctxUpd rfl rfl rfl hx fun _ => rfl⟩
  · obtain ⟨t, ht, sh⟩ := run_shows (deadlineReached c) hrun
    rw [deadlineReached_reached hrole hx hst hdl hr, State.missDeadline_noOutput _ hkind, State.endWith, State.ctx?_id hx, State.tellOp_rest] at sh
    exact ⟨t, ht, sh.ctxUpd rfl rfl rfl hx fun _ => rfl⟩

end Sys2Proof.Claims
end

