-- ==== Sys2Proof/Proofs/ChainAndPair.lean ====
section
/-! PROOF. Sys2Proof/Proofs/ChainAndPair.lean: a secondary that writes shared memory: a halted boot that is resumed posts the event of a fault. -/
namespace Sys2Proof.Machine
open Sys2Proof

/-! ### A halted secondary that shows DONE

A command that runs answers what a secondary may write (`State.ownWrites`); BOOT_RESUME answers the resumed boot as it is. No run
reaches a state with DONE and a boot that is halted, but it is in canonical form, which is all that O59 asks. -/

namespace HaltedSecondary

/-- DONE, a secondary with its mailbox at 0, partition 0 with an enabled event ring at 0 of its memory, the 64 KiB at 0x80000000; the boot is halted, and
its REG_INIT makes fault 0 a lasting one. -/
def state : State :=
  { [(rCfgBootStat, 0x80000000#32), (rGlbPairStat, 0x80000000#32), (rRstCause, 0x10000000#32), (rPrtEvqCfg 0, 0x80000000#32),
      (rPrtEvqBase 0, 0x80000000#32), (rPrtCfgMemBaseMir 0 0, 0x80000003#32), (rPrtCfgMemSizeMir 0 0, 1#32)].foldl
      (fun s r => s.setReg r.1 r.2) State.reset with
    boot := { phase := .halted, init := [(rGlbFltCfg0, 0x01000001#32)] }, faults := [(0, 0, 0)] }

theorem state_canon : state.canon := by unfold State.canon; decide +kernel
theorem state_running : state.running = true := by decide +kernel
theorem state_role : state.role = 2 := by decide +kernel

theorem exec_bootResume : exec .bootResume state = .next (bootResume state) := rfl

/-- The resumed state is still that of a secondary with its mailbox at 0, and the first byte of the event ring is in no private area. -/
theorem resumed_role : (bootResume state).role = 2 := by decide +kernel
theorem resumed_mailbox : fld ((bootResume state).reg64 rGlbPairMbox) 16 48 = 0 := by decide +kernel
theorem resumed_shared : (bootResume state).isPriv 0x80000000 = false := by decide +kernel

/-- That byte is now the code of the event. -/
theorem state_byte : state.rd8 0x80000000 = 0#8 := by decide +kernel
theorem resumed_byte : (bootResume state).rd8 0x80000000 = 0x0F#8 := by decide +kernel

end HaltedSecondary
end Sys2Proof.Machine

namespace Sys2Proof.Claims
open Machine

/-- Refutes O59: of a running secondary the statement says, for every command, that it leaves shared memory alone, but BOOT_RESUME answers the resumed
boot without holding back its writes: a fault that lasts posts its event. The witness is `HaltedSecondary.state`, which is canonical, though no run
reaches it: DONE is set while the boot is halted. -/
theorem not_chainAndPair : ¬ Obligations.ChainAndPair := by
  unfold Obligations.ChainAndPair
  intro h
  obtain ⟨-, -, -, -, -, -, -, -, -, -, -, -, -, -, -, -, -, -, -, -, -, -, shared⟩ := h HaltedSecondary.state 0#64 HaltedSecondary.state_canon
  have hbyte := shared HaltedSecondary.state_running HaltedSecondary.state_role .bootResume _ HaltedSecondary.exec_bootResume
    HaltedSecondary.resumed_role 0x80000000 (by decide) HaltedSecondary.resumed_shared
    (Or.inr (by rw [HaltedSecondary.resumed_mailbox]; decide))
  rw [HaltedSecondary.state_byte, HaltedSecondary.resumed_byte] at hbyte
  exact absurd hbyte (by decide)

end Sys2Proof.Claims
end

