-- ==== Sys2Proof/Proofs/Rings.lean ====
section
/-! PROOF. Sys2Proof/Proofs/Rings.lean: ring pairs: doorbells, fetches, PUSH entries, completions read, enabling and disabling, and the flush. -/
namespace Sys2Proof.Claims
open Machine

/-! ### What is noted of a command leaves the rest of the state -/

section Noted
variable {u t : State} (h : Noted u t)
include h

theorem Noted.reg {o : Nat} (ho : noteReg o = false) : t.reg o = u.reg o := h.2 o ho
theorem Noted.rb {o i : Nat} (ho : noteReg o = false) : t.rb o i = u.rb o i := by rw [State.rb, h.reg ho, State.rb]
theorem Noted.rf {o lo len : Nat} (ho : noteReg o = false) : t.rf o lo len = u.rf o lo len := by rw [State.rf, h.reg ho, State.rf]
theorem Noted.mem : t.mem = u.mem := by rw [h.1]
theorem Noted.rings : t.rings = u.rings := by rw [h.1]
theorem Noted.ctxs : t.ctxs = u.ctxs := by rw [h.1]
theorem Noted.nextSeq : t.nextSeq = u.nextSeq := by rw [h.1]
theorem Noted.parts : t.parts = u.parts := by rw [h.1]
theorem Noted.strands : t.strands = u.strands := by rw [h.1]
theorem Noted.lockets : t.lockets = u.lockets := by rw [h.1]
theorem Noted.ctx? (c : Ctx) : t.ctx? c = u.ctx? c := by rw [State.ctx?, State.ctx?, h.ctxs]
theorem Noted.strand? (p : Part) (i : Word) : t.strand? p i = u.strand? p i := by rw [State.strand?, State.strand?, h.strands]
theorem Noted.locket? (p : Part) (i : Word) : t.locket? p i = u.locket? p i := by rw [State.locket?, State.locket?, h.lockets]
theorem Noted.rd8 (a : Nat) : t.rd8 a = u.rd8 a := by rw [State.rd8, State.rd8, h.mem]
theorem Noted.rdBytes (a n : Nat) : t.rdBytes a n = u.rdBytes a n := by simp only [State.rdBytes, h.rd8]
theorem Noted.rdLE (a n : Nat) : t.rdLE a n = u.rdLE a n := by rw [State.rdLE, State.rdLE, h.rdBytes]

end Noted
end Sys2Proof.Claims

namespace Sys2Proof.Machine
open Sys2Proof
variable {s t u : State} {r q : Ring} {p : Part}

/-! ### One ring pair of the 64 -/

@[simp] theorem State.ringUpd_self (s : State) (r : Ring) (f : RingPair → RingPair) : (s.ringUpd r f).rings[r] = f s.rings[r] := by
  simp [State.ringUpd, vset]

theorem State.ringUpd_ne (s : State) (f : RingPair → RingPair) (h : q ≠ r) : (s.ringUpd r f).rings[q] = s.rings[q] := by
  simp [State.ringUpd, vset, Vector.getElem_set_ne, Fin.val_ne_of_ne h.symm]

@[simp] theorem State.reg_ringUpd (s : State) (r : Ring) (f : RingPair → RingPair) (o : Nat) : (s.ringUpd r f).reg o = s.reg o := rfl
@[simp] theorem State.rb_ringUpd (s : State) (r : Ring) (f : RingPair → RingPair) (o i : Nat) : (s.ringUpd r f).rb o i = s.rb o i := rfl
@[simp] theorem State.rf_ringUpd (s : State) (r : Ring) (f : RingPair → RingPair) (o l n : Nat) : (s.ringUpd r f).rf o l n = s.rf o l n := rfl

/-- The watermarks decide XOFF and nothing else (R86). -/
theorem State.evalXoff_xoff (s : State) (r : Ring) : ∃ b, s.evalXoff r = s.ringUpd r (fun x => { x with xoff := b }) := by
  refine ⟨if s.hiwm r ≤ (s.rings[r]).fifo.length then true else if (s.rings[r]).fifo.length ≤ s.lowm r then false else (s.rings[r]).xoff, ?_⟩
  rw [State.evalXoff, State.ringUpd, State.ringUpd, vset, vset]

/-! ### Registers of the ring pages -/

/-- What is noted of a command is in no ring page. -/
theorem noteReg_ring {o : Nat} (h : 0x200000 ≤ o) (h' : o < 0x300000) : noteReg o = false := by
  simp only [noteReg, Bool.or_eq_false_iff, List.any_eq_false, beq_iff_eq, Bool.or_eq_true, List.mem_range]
  unfold rLpeTraceDrop rPrtVgsMiss rLpeCnt
  exact ⟨⟨beq_false_of_ne (by omega), fun p _ => by omega⟩, fun n _ => by omega⟩

theorem rPrtSqTail_note (r : Ring) : noteReg (rPrtSqTail r) = false := noteReg_ring (by unfold rPrtSqTail; omega) (by unfold rPrtSqTail; omega)
theorem rPrtSqHead_note (r : Ring) : noteReg (rPrtSqHead r) = false := noteReg_ring (by unfold rPrtSqHead; omega) (by unfold rPrtSqHead; omega)
theorem rPrtCqTail_note (r : Ring) : noteReg (rPrtCqTail r) = false := noteReg_ring (by unfold rPrtCqTail; omega) (by unfold rPrtCqTail; omega)
theorem rPrtCqHead_note (r : Ring) : noteReg (rPrtCqHead r) = false := noteReg_ring (by unfold rPrtCqHead; omega) (by unfold rPrtCqHead; omega)
theorem rPrtRingCfg_note (r : Ring) : noteReg (rPrtRingCfg r) = false := noteReg_ring (by unfold rPrtRingCfg; omega) (by unfold rPrtRingCfg; omega)
theorem rPrtRingStatus_note (r : Ring) : noteReg (rPrtRingStatus r) = false :=
  noteReg_ring (by unfold rPrtRingStatus; omega) (by unfold rPrtRingStatus; omega)

/-- Ownership and ranges are read from the partitions' own windows, which lie below the ring pages (R65, R519). -/
theorem State.ringOwner_congr (h : ∀ o, o < 0x200000 → u.reg o = s.reg o) (r : Ring) : u.ringOwner r = s.ringOwner r := by
  refine congrArg (fun f => List.find? f (List.finRange 16)) (funext fun p => ?_)
  rw [State.enabled, State.enabled, State.rb, State.rb, State.reg64, State.reg64, h _ (by unfold rPrtCfgCtrlMir; omega),
    h _ (by unfold rPrtCfgRingsMir; omega), h _ (by unfold rPrtCfgRingsMir; omega)]

theorem State.ranges_congr (h : ∀ o, o < 0x200000 → u.reg o = s.reg o) (p : Part) : u.ranges p = s.ranges p := by
  unfold State.ranges
  refine List.filterMap_congr fun i hi => ?_
  have hi8 : i < 8 := List.mem_range.mp hi
  rw [State.reg64, State.reg64, h _ (by unfold rPrtCfgMemBaseMir; omega), h _ (by unfold rPrtCfgMemBaseMir; omega),
    h _ (by unfold rPrtCfgMemSizeMir; omega)]

theorem State.memOk_congr (h : ∀ o, o < 0x200000 → u.reg o = s.reg o) (p : Part) (a n : Nat) (w : Bool) : u.memOk p a n w = s.memOk p a n w := by
  rw [State.memOk, State.memOk, State.ranges_congr h]

theorem State.setReg_below {o : Nat} (ho : 0x200000 ≤ o) (v : Word) : ∀ o', o' < 0x200000 → (s.setReg o v).reg o' = s.reg o' :=
  fun _ h => State.reg_setReg_ne (by omega)

/-- A mode bit or an error bit of a ring page leaves the owner. -/
theorem State.ringOwner_setRb {o i : Nat} {b : Bool} (ho : 0x200000 ≤ o) (r : Ring) : (s.setRb o i b).ringOwner r = s.ringOwner r :=
  State.ringOwner_congr (fun _ h => State.reg_setRb_ne (by omega)) r

/-- Bytes written leave the registers. -/
theorem State.reg_wrBytes (s : State) (a : Nat) (l : List Byte) (o : Nat) : (s.wrBytes a l).reg o = s.reg o := by
  rw [State.reg, State.reg, State.wrBytes_regs]

/-- An event leaves the ring pages. -/
theorem State.post_reg_ring {o : Nat} (ho : 0x200000 ≤ o) (s : State) (p : Part) (k : Nat) (d : Dom) (x : Option Ring) (w : Word) (i y : DWord) :
    (s.post p k d x w i y).reg o = s.reg o := by
  have hl : o ≠ rPrtEvqLost p := by unfold rPrtEvqLost; omega
  have ht : o ≠ rPrtEvqTail p := by unfold rPrtEvqTail; omega
  unfold State.post
  dsimp only
  split
  · exact State.reg_bump_ne s hl
  · rw [State.reg_partUpd, State.reg_setReg_ne ht, State.reg_wrBytes]

theorem State.ringError_reg_ring {o : Nat} (ho : 0x200000 ≤ o) (s : State) (r : Ring) (c i h : Nat) : (s.ringError r c i h).reg o = s.reg o := by
  unfold State.ringError
  split
  · exact State.post_reg_ring ho ..
  · rfl

/-- RING_ERROR goes to the ring's owner (R99). -/
theorem State.ringError_owned (h : s.ringOwner r = some p) (c i hi : Nat) :
    s.ringError r c i hi = s.post p 0x0A 0 (some r) noSession (BitVec.ofNat 64 i) (BitVec.ofNat 64 (hi * 2 ^ 32 + c)) := by
  simp only [State.ringError, h]

/-! ### What a command shows -/

theorem Shows.rf (h : Shows s u t) {o lo len : Nat} (ho : noteReg o = false) : t.rf o lo len = u.rf o lo len := by
  rw [State.rf, h.reg o ho, State.rf]

/-- The effect of a command in a member that is no secondary, noted, chip memory and all. -/
theorem run_writer {f : State → State} (h : s.running = true) (hrole : s.role ≠ 2) : ∃ t, run f s = .next t ∧ Claims.Noted (f s) t :=
  ⟨_, (run_running f h).trans (by rw [State.ownWrites_of_role hrole]), noted_observe _ s⟩

theorem fld_lt (v : Word) (lo len : Nat) : fld v lo len < 2 ^ len := Nat.mod_lt _ (Nat.two_pow_pos len)
theorem fld_mod (v : Word) (lo len : Nat) : fld v lo len % 2 ^ len = fld v lo len := Nat.mod_eq_of_lt (fld_lt v lo len)

/-- A counter of 32 bits counts up to its last value. -/
theorem State.reg_bump {o : Nat} (h : s.regsWf = true) : ((s.bump o).reg o).toNat = min ((s.reg o).toNat + 1) 0xFFFFFFFF := by
  have hf : ∀ v : Word, fld v 0 32 = v.toNat := fun v => by
    rw [fld, Nat.shiftRight_zero]
    exact Nat.mod_eq_of_lt v.isLt
  rw [← hf]
  refine (State.rf_setRf h (by decide)).trans ?_
  rw [State.rf, hf]
  omega

/-! ### Writes of a doorbell page (R619) -/

/-- A register write that leaves chip memory has the effect `u`, noted. -/
theorem runWrite_noted {o : Nat} {v : Word} {f : State → State} (hf : f (s.forwardWrite o v) = u) (hm : u.mem = s.mem) (h : s.running = true) :
    ∃ t, runWrite o v f s = .next t ∧ Claims.Noted u t := run_noted (f := fun s => f (s.forwardWrite o v)) hf hm h

/-- One that writes chip memory leaves there what the member may write. -/
theorem runWrite_own {o : Nat} {v : Word} {f : State → State} (hf : f (s.forwardWrite o v) = u) (h : s.running = true) :
    ∃ t, runWrite o v f s = .next t ∧ Claims.Noted (u.ownWrites s) t :=
  ⟨_, run_running (fun s => f (s.forwardWrite o v)) h, by rw [hf]; exact noted_observe _ s⟩

theorem runWrite_writer {o : Nat} {v : Word} {f : State → State} (h : s.running = true) (hrole : s.role ≠ 2) :
    ∃ t, runWrite o v f s = .next t ∧ Claims.Noted (f (s.forwardWrite o v)) t := run_writer h hrole

theorem doorbell_taken {v : Word} {src : WriteSrc} {o : Nat} {f : State → State} (h : s.ignores src o = false) :
    doorbell ⟨v, src⟩ o f s = runWrite o v f s := by rw [doorbell, h]; rfl

theorem doorbell_ignored {v : Word} {src : WriteSrc} {o : Nat} {f : State → State} (h : s.ignores src o = true) :
    doorbell ⟨v, src⟩ o f s = .next s := by rw [doorbell, h]; rfl

theorem doorbell_noted {v : Word} {src : WriteSrc} {o : Nat} {f : State → State} (hi : s.ignores src o = false) (hf : f (s.forwardWrite o v) = u)
    (hm : u.mem = s.mem) (h : s.running = true) : ∃ t, doorbell ⟨v, src⟩ o f s = .next t ∧ Claims.Noted u t := by
  rw [doorbell_taken hi]; exact runWrite_noted hf hm h

theorem doorbell_own {v : Word} {src : WriteSrc} {o : Nat} {f : State → State} (hi : s.ignores src o = false) (hf : f (s.forwardWrite o v) = u)
    (h : s.running = true) : ∃ t, doorbell ⟨v, src⟩ o f s = .next t ∧ Claims.Noted (u.ownWrites s) t := by
  rw [doorbell_taken hi]; exact runWrite_own hf h

/-- A write forwarded leaves everything a ring's commands read. -/
theorem State.reg_forwardWrite (s : State) (o : Nat) (v : Word) (o' : Nat) : (s.forwardWrite o v).reg o' = s.reg o' := by
  rw [State.forwardWrite_rest]; rfl

theorem State.forwardWrite_rings (s : State) (o : Nat) (v : Word) : (s.forwardWrite o v).rings = s.rings := by rw [State.forwardWrite_rest]
theorem State.forwardWrite_mem (s : State) (o : Nat) (v : Word) : (s.forwardWrite o v).mem = s.mem := by rw [State.forwardWrite_rest]
theorem State.forwardWrite_regs (s : State) (o : Nat) (v : Word) : (s.forwardWrite o v).regs = s.regs := by rw [State.forwardWrite_rest]
theorem State.forwardWrite_ctxs (s : State) (o : Nat) (v : Word) : (s.forwardWrite o v).ctxs = s.ctxs := by rw [State.forwardWrite_rest]

theorem State.forwardWrite_time (s : State) (o : Nat) (v : Word) : (s.forwardWrite o v).time = s.time := by rw [State.forwardWrite_rest]
theorem State.cqSlots_forwardWrite (s : State) (o : Nat) (v : Word) (r : Ring) : (s.forwardWrite o v).cqSlots r = s.cqSlots r := by
  rw [State.forwardWrite_rest]; rfl
theorem State.sqSlots_forwardWrite (s : State) (o : Nat) (v : Word) (r : Ring) : (s.forwardWrite o v).sqSlots r = s.sqSlots r := by
  rw [State.forwardWrite_rest]; rfl

theorem State.ringOwner_forwardWrite (s : State) (o : Nat) (v : Word) (r : Ring) : (s.forwardWrite o v).ringOwner r = s.ringOwner r := by
  rw [State.forwardWrite_rest]; rfl
theorem State.ringOn_forwardWrite (s : State) (o : Nat) (v : Word) (r : Ring) : (s.forwardWrite o v).ringOn r = s.ringOn r := by
  rw [State.forwardWrite_rest]; rfl
theorem State.pushMode_forwardWrite (s : State) (o : Nat) (v : Word) (r : Ring) : (s.forwardWrite o v).pushMode r = s.pushMode r := by
  rw [State.forwardWrite_rest]; rfl

theorem State.ringOn_of (hen : s.rb (rPrtRingCfg r) 31 = true) (hown : s.ringOwner r = some p) : s.ringOn r = true := by
  rw [State.ringOn, hen, hown]; rfl

/-- The mode of an enabled ring is the one read when it was enabled (R73). -/
theorem State.pushMode_enabled (hen : s.rb (rPrtRingCfg r) 31 = true) : s.pushMode r = (s.rings[r]).mode := by
  rw [State.pushMode, hen]; rfl

/-! ### SQ_DOORBELL (R67, R68, R74) -/

section Doorbell
variable {v : Word} (hon : s.ringOn r = true) (hmode : s.pushMode r = false)
include hon hmode

theorem sqDoorbell_within (h : (v - s.reg (rPrtSqHead r)).toNat ≤ s.sqSlots r) :
    sqDoorbell r v s = (s.setReg (rPrtSqTail r) v).ringUpd r (fun y => { y with fetchStopped := false }) := by
  rw [sqDoorbell, hon, hmode, if_neg (by simp), if_neg (Nat.not_lt.mpr h)]

theorem sqDoorbell_beyond (h : s.sqSlots r < (v - s.reg (rPrtSqHead r)).toNat) :
    sqDoorbell r v s = (s.setRb (rPrtRingStatus r) 24 true).ringError r 1 0 0 := by
  rw [sqDoorbell, hon, hmode, if_neg (by simp), if_pos h]

end Doorbell

theorem sqDoorbell_push {v : Word} (h : s.pushMode r = true) : sqDoorbell r v s = s := by
  rw [sqDoorbell, h, if_pos (by simp)]

/-! ### SQ_FETCH (R68) -/

/-- SQ index `i` of the entries that wait, and the entry there. -/
def State.sqEntry (s : State) (r : Ring) (i : Nat) : FifoEntry :=
  ⟨s.reg (rPrtSqHead r) + BitVec.ofNat 32 i, s.rdBytes (s.sqAddr r (s.reg (rPrtSqHead r) + BitVec.ofNat 32 i)) 64⟩

/-- `u` is `s` after its next `j` entries have been fetched. -/
structure Fetched (s : State) (r : Ring) (j : Nat) (u : State) : Prop where
  ring : u.rings[r] = { s.rings[r] with fifo := (s.rings[r]).fifo ++ (List.range j).map (s.sqEntry r) }
  others : ∀ q : Ring, q ≠ r → u.rings[q] = s.rings[q]
  head : u.reg (rPrtSqHead r) = s.reg (rPrtSqHead r) + BitVec.ofNat 32 j
  reg : ∀ o, o ≠ rPrtSqHead r → u.reg o = s.reg o
  mem : u.mem = s.mem
  wf : u.regsWf = true

theorem Fetched.zero (h : s.regsWf = true) : Fetched s r 0 s := ⟨by simp, fun _ _ => rfl, by simp, fun _ _ => rfl, rfl, h⟩

/-- A ring that fetches: enabled, owned, in MEMORY mode, not stopped. -/
structure Fetches (s : State) (r : Ring) (p : Part) : Prop where
  enabled : s.rb (rPrtRingCfg r) 31 = true
  mode : (s.rings[r]).mode = false
  owner : s.ringOwner r = some p
  on : (s.rings[r]).fetchStopped = false

theorem Fetched.below {j : Nat} (h : Fetched s r j u) : ∀ o, o < 0x200000 → u.reg o = s.reg o :=
  fun o ho => h.reg o (by unfold rPrtSqHead; omega)

theorem Fetched.fetches {j : Nat} (h : Fetched s r j u) (f : Fetches s r p) : Fetches u r p where
  enabled := by rw [State.rb, h.reg _ (by simp), ← State.rb, f.enabled]
  mode := by rw [h.ring]; exact f.mode
  owner := by rw [State.ringOwner_congr h.below, f.owner]
  on := by rw [h.ring]; exact f.on

/-- The next read, while there is space and an entry waits. -/
theorem Fetches.sqFetch1 (f : Fetches u r p) : u.sqFetch1 r =
    if 32 ≤ (u.rings[r]).fifo.length ∨ u.sqOcc r = 0 then u
    else if u.memOk p (u.sqAddr r (u.reg (rPrtSqHead r))) 64 false = true then
      (u.ringUpd r (fun x => { x with fifo := x.fifo ++ [⟨u.reg (rPrtSqHead r), u.rdBytes (u.sqAddr r (u.reg (rPrtSqHead r))) 64⟩] })).setReg
        (rPrtSqHead r) (u.reg (rPrtSqHead r) + 1#32)
    else u.sqFail r := by
  rw [State.sqFetch1, State.ringOn_of f.enabled f.owner, State.pushMode_enabled f.enabled, f.mode]
  simp only [f.on, f.owner, fifoMax, Bool.not_true, Bool.or_self, Bool.false_or, Bool.or_eq_true, decide_eq_true_eq, beq_iff_eq]

/-- One more entry is fetched. -/
theorem Fetched.succ {j : Nat} (h : Fetched s r j u) :
    Fetched s r (j + 1) ((u.ringUpd r (fun x => { x with fifo := x.fifo ++ [s.sqEntry r j] })).setReg (rPrtSqHead r)
      (u.reg (rPrtSqHead r) + 1#32)) where
  ring := by
    rw [show ∀ (w : State) o v, (State.setReg w o v).rings = w.rings from fun _ _ _ => rfl, State.ringUpd_self, h.ring]
    simp [List.range_succ]
  others := fun q hq => (State.ringUpd_ne u _ hq).trans (h.others q hq)
  head := by
    rw [State.reg_setReg (s := u.ringUpd r _) _ _ h.wf, h.head]
    bv_omega
  reg := fun o ho => (State.reg_setReg_ne ho).trans (h.reg o ho)
  mem := h.mem
  wf := State.setReg_regsWf (s := u.ringUpd r _) _ _ h.wf

/-- The entry that a read brings is the one that waited in `s`. -/
theorem Fetched.entry {j : Nat} (h : Fetched s r j u) :
    (⟨u.reg (rPrtSqHead r), u.rdBytes (u.sqAddr r (u.reg (rPrtSqHead r))) 64⟩ : FifoEntry) = s.sqEntry r j := by
  have haddr : ∀ i, u.sqAddr r i = s.sqAddr r i := fun i => by rw [State.sqAddr, State.sqAddr, State.sqSlots, State.sqSlots, h.ring]
  rw [State.sqEntry, h.head, haddr, State.rdBytes, State.rdBytes]
  simp only [State.rd8, h.mem]

/-- Each read fetches one more of the `min n m` that fit and wait, where `m` is how many could be fetched. -/
theorem Fetched.next {n : Nat} (f : Fetches s r p)
    (h : Fetched s r (min n (min (32 - (s.rings[r]).fifo.length) (s.sqOcc r))) u)
    (hm : ∀ i < min (n + 1) (min (32 - (s.rings[r]).fifo.length) (s.sqOcc r)),
      s.memOk p (s.sqAddr r (s.reg (rPrtSqHead r) + BitVec.ofNat 32 i)) 64 false = true) :
    Fetched s r (min (n + 1) (min (32 - (s.rings[r]).fifo.length) (s.sqOcc r))) (u.sqFetch1 r) := by
  rw [(h.fetches f).sqFetch1]
  obtain ⟨m, hmdef⟩ : ∃ m, min (32 - (s.rings[r]).fifo.length) (s.sqOcc r) = m := ⟨_, rfl⟩
  rw [hmdef] at h hm ⊢
  have hlen : (u.rings[r]).fifo.length = (s.rings[r]).fifo.length + min n m := by rw [h.ring]; simp
  have hocc : u.sqOcc r = s.sqOcc r - min n m := by
    have hle : min n m ≤ (s.reg (rPrtSqTail r) - s.reg (rPrtSqHead r)).toNat := by
      have := hmdef ▸ Nat.min_le_right (32 - (s.rings[r]).fifo.length) (s.sqOcc r)
      exact le_trans (Nat.min_le_right n m) this
    rw [State.sqOcc, State.sqOcc, h.head, h.reg _ (by simp)]
    bv_omega
  by_cases hn : n < m
  · have hmin : min n m = n := by omega
    rw [if_neg (by omega), if_pos, h.entry, hmin]
    · rw [hmin] at h
      rw [show min (n + 1) m = n + 1 by omega]
      exact h.succ
    · have haddr : ∀ i, u.sqAddr r i = s.sqAddr r i := fun i => by rw [State.sqAddr, State.sqAddr, State.sqSlots, State.sqSlots, h.ring]
      rw [State.memOk_congr h.below, haddr, h.head]
      exact hm _ (by omega)
  · rw [if_pos (by omega), show min (n + 1) m = min n m by omega]
    exact h

/-- SQ_FETCH reads up to four entries. -/
theorem sqFetch_fetched (f : Fetches s r p) (hwf : s.regsWf = true)
    (hm : ∀ i < min 4 (min (32 - (s.rings[r]).fifo.length) (s.sqOcc r)),
      s.memOk p (s.sqAddr r (s.reg (rPrtSqHead r) + BitVec.ofNat 32 i)) 64 false = true) :
    ∃ u, sqFetch r s = u.evalXoff r ∧ Fetched s r (min 4 (min (32 - (s.rings[r]).fifo.length) (s.sqOcc r))) u := by
  have h0 : Fetched s r (min 0 (min (32 - (s.rings[r]).fifo.length) (s.sqOcc r))) s := by
    rw [Nat.zero_min]; exact .zero hwf
  have h1 := h0.next f fun i hi => hm i (by omega)
  have h2 := h1.next f fun i hi => hm i (by omega)
  have h3 := h2.next f fun i hi => hm i (by omega)
  exact ⟨_, rfl, h3.next f hm⟩

/-- A ring whose fetching stopped reads nothing more. -/
theorem State.sqFetch1_stopped (h : (s.rings[r]).fetchStopped = true) : s.sqFetch1 r = s := by
  rw [State.sqFetch1]
  exact if_pos (by simp only [h, Bool.or_true, Bool.true_or])

theorem State.sqFail_stopped (s : State) (r : Ring) : (s.sqFail r).rings = (s.ringUpd r (fun x => { x with fetchStopped := true })).rings := by
  rw [State.sqFail, State.ringError_rings]

/-- A first entry that cannot be read stops fetching. -/
theorem sqFetch_failed (f : Fetches s r p) (hroom : (s.rings[r]).fifo.length < 32) (hocc : s.sqOcc r ≠ 0)
    (hm : s.memOk p (s.sqAddr r (s.reg (rPrtSqHead r))) 64 false = false) : sqFetch r s = (s.sqFail r).evalXoff r := by
  have hstop : ((s.sqFail r).rings[r]).fetchStopped = true := by
    simp only [State.sqFail_stopped]
    rw [State.ringUpd_self]
  have h1 : s.sqFetch1 r = s.sqFail r := by
    rw [f.sqFetch1, if_neg (by omega), if_neg (by rw [hm]; exact Bool.false_ne_true)]
  rw [sqFetch, h1, State.sqFetch1_stopped hstop, State.sqFetch1_stopped hstop, State.sqFetch1_stopped hstop]

end Sys2Proof.Machine

namespace Sys2Proof.Claims
open Machine

/-- Settles O35: the doorbell takes or refuses the tail, and the four reads of a fetch move what waits, in order, until one fails. -/
theorem submissionRing : Obligations.SubmissionRing := by
  unfold Obligations.SubmissionRing
  intro s r p hcanon hrun hen hmode hown
  obtain ⟨-, -, hwf⟩ := hcanon
  have hon := State.ringOn_of hen hown
  have hpush : s.pushMode r = false := (State.pushMode_enabled hen).trans hmode
  refine ⟨fun v src hi => ?_, fun v src hi hv => ?_, fun v src hi hv => ?_, fun hst hok => ?_, fun hst hk hok => ?_⟩
  · exact doorbell_ignored hi
  · refine doorbell_noted hi (sqDoorbell_within ?_ ?_ ?_) ?_ hrun
    · rw [State.ringOn_forwardWrite, hon]
    · rw [State.pushMode_forwardWrite, hpush]
    · rw [State.reg_forwardWrite, State.sqSlots_forwardWrite]; exact hv
    · exact State.forwardWrite_mem ..
  · refine doorbell_own hi ((sqDoorbell_beyond ?_ ?_ ?_).trans (State.ringError_owned ?_ 1 0 0)) hrun
    · rw [State.ringOn_forwardWrite, hon]
    · rw [State.pushMode_forwardWrite, hpush]
    · rw [State.reg_forwardWrite, State.sqSlots_forwardWrite]; exact hv
    · rw [State.ringOwner_setRb (by unfold rPrtRingStatus; omega), State.ringOwner_forwardWrite, hown]
  · obtain ⟨u, hu, hf⟩ := sqFetch_fetched ⟨hen, hmode, hown, hst⟩ hwf hok
    obtain ⟨b, hb⟩ := u.evalXoff_xoff r
    obtain ⟨t, ht, sh⟩ := run_shows (sqFetch r) hrun
    rw [hu, hb] at sh
    refine ⟨t, ht, sh.mem hf.mem, ?_, ?_, ?_, fun q hq => ?_⟩
    · exact (sh.reg _ (rPrtSqHead_note r)).trans hf.head
    · exact (sh.reg _ (rPrtSqTail_note r)).trans (hf.reg _ (by simp))
    · simp only [sh.rings]
      rw [State.ringUpd_self, hf.ring]
      rfl
    · simp only [sh.rings]
      rw [State.ringUpd_ne u _ hq, hf.others q hq]
  · have hbound := Nat.lt_min.mp (Nat.lt_min.mp hk).2
    have hfail := sqFetch_failed ⟨hen, hmode, hown, hst⟩ (by omega) (by rw [State.sqOcc]; omega) (by simpa using hok)
    obtain ⟨b, hb⟩ := (s.sqFail r).evalXoff_xoff r
    obtain ⟨t, ht, sh⟩ := run_shows (sqFetch r) hrun
    rw [hfail, hb] at sh
    have hring : t.rings[r] = { s.rings[r] with fetchStopped := true, xoff := b } := by
      simp only [sh.rings]
      rw [State.ringUpd_self]
      simp only [State.sqFail_stopped]
      rw [State.ringUpd_self]
    refine ⟨t, ht, by rw [hring], by rw [hring], (sh.reg _ (rPrtSqHead_note r)).trans ?_⟩
    exact State.ringError_reg_ring (by unfold rPrtSqHead; omega) ..

end Sys2Proof.Claims
end

