-- ==== Sys2Proof/Proofs/RingControl.lean ====
section
/-! PROOF. Sys2Proof/Proofs/RingControl.lean: the completion head and the coalescing time; enabling, disabling and flushing a ring pair. -/
namespace Sys2Proof.Machine
open Sys2Proof
variable {s t u : State} {r q : Ring} {p : Part} {v : Word}

/-! ### CQ_HEAD_WRITE and COAL_TIMER_EXPIRY (R67, R76, R83) -/

/-- A head within the ring is taken; with no flushed entry waiting, nothing is written. -/
theorem cqHeadWrite_within (h : (s.reg (rPrtCqTail r) - v).toNat ≤ s.cqSlots r) (hc : (s.rings[r]).cancelled = []) :
    cqHeadWrite r v s = (s.setReg (rPrtCqHead r) v).ringUpd r (fun y => { y with
      headAt := s.time
      unread := y.unread.drop (y.unread.length - (s.reg (rPrtCqTail r) - v).toNat)
      written := y.written.filter (fun w => (w.index - v).toNat < (s.reg (rPrtCqTail r) - v).toNat)
      coalDue := false
      cqStall := y.cqStall && s.cqSlots r ≤ (s.reg (rPrtCqTail r) - v).toNat }) := by
  rw [cqHeadWrite, if_neg (Nat.not_lt.mpr h)]
  dsimp only
  split
  · simp only [State.ringUpd_self, State.setReg_rings, hc, List.length_nil, State.drainCancelled]
  · rfl

theorem cqHeadWrite_beyond (h : s.cqSlots r < (s.reg (rPrtCqTail r) - v).toNat) :
    cqHeadWrite r v s = (s.setRb (rPrtRingStatus r) 24 true).ringError r 2 0 0 := by
  rw [cqHeadWrite]; exact if_pos h

section Coalescing
variable {a : Nat} {l : List Nat}

theorem State.coalPassed_unread (h : (s.rings[r]).unread = a :: l) :
    s.coalPassed r = true ↔ max (s.rings[r]).headAt a + s.rf (rPrtRingIrq r) 24 8 * 100 ≤ s.time := by
  simp only [State.coalPassed, h, decide_eq_true_eq]

theorem coalTimerExpiry_due (h : (s.rings[r]).unread = a :: l) (hus : s.rf (rPrtRingIrq r) 24 8 ≠ 0)
    (ht : max (s.rings[r]).headAt a + s.rf (rPrtRingIrq r) 24 8 * 100 ≤ s.time) :
    coalTimerExpiry r s = s.ringUpd r (fun y => { y with coalDue := true }) := by
  rw [coalTimerExpiry, if_pos (Bool.and_eq_true_iff.mpr ⟨bne_iff_ne.mpr hus, (State.coalPassed_unread h).mpr ht⟩)]

theorem coalTimerExpiry_early (h : (s.rings[r]).unread = a :: l)
    (ht : s.rf (rPrtRingIrq r) 24 8 = 0 ∨ s.time < max (s.rings[r]).headAt a + s.rf (rPrtRingIrq r) 24 8 * 100) :
    coalTimerExpiry r s = s := by
  rw [coalTimerExpiry, if_neg]
  rw [Bool.and_eq_true, State.coalPassed_unread h, bne_iff_ne]
  omega

theorem coalTimerExpiry_read (h : (s.rings[r]).unread = []) : coalTimerExpiry r s = s := by
  have hp : s.coalPassed r = false := by simp only [State.coalPassed, h]
  rw [coalTimerExpiry, hp, if_neg (by simp)]

end Coalescing

/-! ### The fields of PRT_RING_CFG (R73, R79) -/

theorem rPrtRingCfg_ne (r : Ring) : rPrtSqHead r ≠ rPrtRingCfg r ∧ rPrtSqTail r ≠ rPrtRingCfg r ∧ rPrtCqHead r ≠ rPrtRingCfg r ∧
    rPrtCqTail r ≠ rPrtRingCfg r ∧ rPrtRingStatus r ≠ rPrtRingCfg r := by simp

/-- The watermarks and IRQ_EN written. -/
structure MarksWritten (s : State) (r : Ring) (v : Word) (u : State) : Prop where
  hiwm : u.rf (rPrtRingCfg r) 14 6 = fld v 14 6
  lowm : u.rf (rPrtRingCfg r) 8 6 = fld v 8 6
  irq : u.rb (rPrtRingCfg r) 0 = bit v 0
  enable : u.rb (rPrtRingCfg r) 31 = s.rb (rPrtRingCfg r) 31
  reg : ∀ o, o ≠ rPrtRingCfg r → u.reg o = s.reg o
  wf : u.regsWf = true
  rest : u = { s with regs := u.regs }

theorem fld_one_testBit (v : Word) (i : Nat) : (fld v i 1).testBit 0 = bit v i := by
  rw [testBit_fld]; simp [bit]

/-- The fields that every write takes. -/
def State.markFields (s : State) (r : Ring) (v : Word) : State :=
  ((s.setRf (rPrtRingCfg r) 14 6 (fld v 14 6)).setRf (rPrtRingCfg r) 8 6 (fld v 8 6)).setRf (rPrtRingCfg r) 0 1 (fld v 0 1)

theorem State.markFields_marks (h : s.regsWf = true) (r : Ring) (v : Word) : MarksWritten s r v (s.markFields r v) ∧
    (s.markFields r v).rb (rPrtRingCfg r) 30 = s.rb (rPrtRingCfg r) 30 ∧
    (s.markFields r v).rf (rPrtRingCfg r) 24 4 = s.rf (rPrtRingCfg r) 24 4 ∧
    (s.markFields r v).rf (rPrtRingCfg r) 20 4 = s.rf (rPrtRingCfg r) 20 4 := by
  have h1 := State.setRf_regsWf (rPrtRingCfg r) 14 6 (fld v 14 6) h
  have h2 := State.setRf_regsWf (rPrtRingCfg r) 8 6 (fld v 8 6) h1
  have h3 := State.setRf_regsWf (rPrtRingCfg r) 0 1 (fld v 0 1) h2
  have hbit : ∀ i, i < 32 → 20 ≤ i → (s.markFields r v).rb (rPrtRingCfg r) i = s.rb (rPrtRingCfg r) i := fun i hi hlo => by
    rw [State.markFields, State.rb_setRf h2 hi, if_neg (by omega), State.rb_setRf h1 hi, if_neg (by omega), State.rb_setRf h hi, if_neg (by omega)]
  have hfield : ∀ lo len, lo + len ≤ 32 → 20 ≤ lo → (s.markFields r v).rf (rPrtRingCfg r) lo len = s.rf (rPrtRingCfg r) lo len :=
    fun lo len hw hlo => by
    rw [State.markFields, State.rf_setRf_disj h2 (by omega) hw, State.rf_setRf_disj h1 (by omega) hw, State.rf_setRf_disj h (by omega) hw]
  refine ⟨⟨?_, ?_, ?_, hbit 31 (by omega) (by omega), fun o ho => ?_, h3, rfl⟩, hbit 30 (by omega) (by omega), hfield 24 4 (by omega) (by omega),
    hfield 20 4 (by omega) (by omega)⟩
  · rw [State.markFields, State.rf_setRf_disj h2 (by omega) (by omega), State.rf_setRf_disj h1 (by omega) (by omega), State.rf_setRf h (by omega),
      fld_mod]
  · rw [State.markFields, State.rf_setRf_disj h2 (by omega) (by omega), State.rf_setRf h1 (by omega), fld_mod]
  · rw [State.markFields, State.rb_setRf h2 (by omega), if_pos (by omega), fld_one_testBit]
  · rw [State.markFields, State.reg_setRf_ne ho, State.reg_setRf_ne ho, State.reg_setRf_ne ho]

/-- The three fields that a write takes while ENABLE is 0. -/
def State.sizeFields (s : State) (r : Ring) (v : Word) : State :=
  ((s.setRf (rPrtRingCfg r) 30 1 (fld v 30 1)).setRf (rPrtRingCfg r) 24 4 (fld v 24 4)).setRf (rPrtRingCfg r) 20 4 (fld v 20 4)

theorem State.sizeFields_marks (h : MarksWritten s r v u) : MarksWritten s r v (u.sizeFields r v) ∧
    (u.sizeFields r v).rb (rPrtRingCfg r) 30 = bit v 30 ∧ (u.sizeFields r v).rf (rPrtRingCfg r) 24 4 = fld v 24 4 ∧
    (u.sizeFields r v).rf (rPrtRingCfg r) 20 4 = fld v 20 4 := by
  have h1 := State.setRf_regsWf (rPrtRingCfg r) 30 1 (fld v 30 1) h.wf
  have h2 := State.setRf_regsWf (rPrtRingCfg r) 24 4 (fld v 24 4) h1
  have h3 := State.setRf_regsWf (rPrtRingCfg r) 20 4 (fld v 20 4) h2
  have hbit : ∀ i, i < 32 → i < 20 ∨ 30 < i → (u.sizeFields r v).rb (rPrtRingCfg r) i = u.rb (rPrtRingCfg r) i := fun i hi hout => by
    rw [State.sizeFields, State.rb_setRf h2 hi, if_neg (by omega), State.rb_setRf h1 hi, if_neg (by omega), State.rb_setRf h.wf hi,
      if_neg (by omega)]
  have hfield : ∀ lo len, lo + len ≤ 20 → (u.sizeFields r v).rf (rPrtRingCfg r) lo len = u.rf (rPrtRingCfg r) lo len := fun lo len hw => by
    rw [State.sizeFields, State.rf_setRf_disj h2 (by omega) (by omega), State.rf_setRf_disj h1 (by omega) (by omega),
      State.rf_setRf_disj h.wf (by omega) (by omega)]
  refine ⟨⟨(hfield 14 6 (by omega)).trans h.hiwm, (hfield 8 6 (by omega)).trans h.lowm, (hbit 0 (by omega) (by omega)).trans h.irq,
    (hbit 31 (by omega) (by omega)).trans h.enable, fun o ho => ?_, h3, ?_⟩, ?_, ?_, ?_⟩
  · rw [State.sizeFields, State.reg_setRf_ne ho, State.reg_setRf_ne ho, State.reg_setRf_ne ho, h.reg o ho]
  · rw [h.rest]; rfl
  · rw [State.sizeFields, State.rb_setRf h2 (by omega), if_neg (by omega), State.rb_setRf h1 (by omega), if_neg (by omega),
      State.rb_setRf h.wf (by omega), if_pos (by omega), fld_one_testBit]
  · rw [State.sizeFields, State.rf_setRf_disj h2 (by omega) (by omega), State.rf_setRf h1 (by omega), fld_mod]
  · rw [State.sizeFields, State.rf_setRf h2 (by omega), fld_mod]

theorem State.ringFields_enabled (h : s.rb (rPrtRingCfg r) 31 = true) (v : Word) : s.ringFields r v = s.markFields r v := by
  rw [State.ringFields, h]; rfl

theorem State.ringFields_disabled (h : s.rb (rPrtRingCfg r) 31 = false) (v : Word) : s.ringFields r v = (s.markFields r v).sizeFields r v := by
  rw [State.ringFields, h]; rfl

/-! ### RING_ENABLE and RING_DISABLE (R73, R79) -/

/-- Setting ENABLE or clearing it leaves the other fields. -/
theorem State.rf_setRb_cfg (h : s.regsWf = true) {b : Bool} {lo len : Nat} (hl : lo + len ≤ 31) :
    (s.setRb (rPrtRingCfg r) 31 b).rf (rPrtRingCfg r) lo len = s.rf (rPrtRingCfg r) lo len :=
  State.rf_setRf_disj h (by omega) (by omega)

/-- The four indices at 0. -/
def State.zeroIndices (s : State) (r : Ring) : State :=
  (((s.setReg (rPrtSqHead r) 0#32).setReg (rPrtSqTail r) 0#32).setReg (rPrtCqHead r) 0#32).setReg (rPrtCqTail r) 0#32

theorem State.zeroIndices_reg (h : s.regsWf = true) (r : Ring) :
    (s.zeroIndices r).reg (rPrtSqHead r) = 0#32 ∧ (s.zeroIndices r).reg (rPrtSqTail r) = 0#32 ∧ (s.zeroIndices r).reg (rPrtCqHead r) = 0#32 ∧
      (s.zeroIndices r).reg (rPrtCqTail r) = 0#32 ∧ (s.zeroIndices r).reg (rPrtRingCfg r) = s.reg (rPrtRingCfg r) := by
  have h1 := State.setReg_regsWf (rPrtSqHead r) 0#32 h
  have h2 := State.setReg_regsWf (rPrtSqTail r) 0#32 h1
  have h3 := State.setReg_regsWf (rPrtCqHead r) 0#32 h2
  rw [State.zeroIndices]
  refine ⟨?_, ?_, ?_, State.reg_setReg _ _ h3, by simp⟩
  · rw [State.reg_setReg_ne (by simp), State.reg_setReg_ne (by simp), State.reg_setReg_ne (by simp), State.reg_setReg _ _ h]
  · rw [State.reg_setReg_ne (by simp), State.reg_setReg_ne (by simp), State.reg_setReg _ _ h1]
  · rw [State.reg_setReg_ne (by simp), State.reg_setReg _ _ h2]

theorem State.zeroIndices_rings (s : State) (r : Ring) : (s.zeroIndices r).rings = s.rings := rfl
theorem State.zeroIndices_mem (s : State) (r : Ring) : (s.zeroIndices r).mem = s.mem := rfl

/-- The ring pair as enabling leaves it, with what ENABLE reads (R73). -/
def RingPair.opened (x : RingPair) (s : State) (r : Ring) (v : Word) : RingPair := { x with
  fifo := [], fetchStopped := false, cqStall := false, headAt := s.time, unread := [], written := [], coalDue := false
  mode := bit v 30, sqSize := fld v 24 4, cqSize := fld v 20 4, sqBase := s.reg64 (rPrtSqBase r), cqBase := s.reg64 (rPrtCqBase r) }

theorem ringEnable_drained (hv : bit v 31 = true) (hoff : s.rb (rPrtRingCfg r) 31 = false) (hd : s.drained r = true) :
    ringEnable r v s = (((((s.markFields r v).sizeFields r v).setRb (rPrtRingCfg r) 31 true).zeroIndices r).ringUpd r
      (fun x => x.opened s r v)).evalXoff r := by
  rw [ringEnable, if_neg (by simp [hv, hoff]), State.ringFields_disabled hoff]
  exact if_pos hd

theorem ringEnable_undrained (hv : bit v 31 = true) (hoff : s.rb (rPrtRingCfg r) 31 = false) (hd : s.drained r = false) :
    ringEnable r v s = ((s.markFields r v).sizeFields r v).evalXoff r := by
  rw [ringEnable, if_neg (by simp [hv, hoff]), State.ringFields_disabled hoff]
  exact if_neg (by simp [hd])

/-- Disabling drops the writes held in PUSH mode. -/
theorem ringDisable_enabled (hv : bit v 31 = false) (hon : s.rb (rPrtRingCfg r) 31 = true) :
    ringDisable r v s = (if (s.rings[r]).pushHeld = [] then (((s.markFields r v).setRb (rPrtRingCfg r) 31 false).evalXoff r)
      else ((((s.markFields r v).setRb (rPrtRingCfg r) 31 false).evalXoff r).ringUpd r (fun x => { x.clearPush with pushHeld := [] })).setRb
        (rPrtRingStatus r) 22 true) := by
  rw [ringDisable, if_neg (by simp [hv, hon]), State.ringFields_enabled hon]
  cases h : (s.rings[r]).pushHeld <;> simp

/-- What enabling makes of a drained ring. -/
structure RingEnabled (s : State) (r : Ring) (v : Word) (u : State) : Prop where
  enable : u.rb (rPrtRingCfg r) 31 = true
  mode : u.rb (rPrtRingCfg r) 30 = bit v 30
  sqSize : u.rf (rPrtRingCfg r) 24 4 = fld v 24 4
  cqSize : u.rf (rPrtRingCfg r) 20 4 = fld v 20 4
  hiwm : u.rf (rPrtRingCfg r) 14 6 = fld v 14 6
  lowm : u.rf (rPrtRingCfg r) 8 6 = fld v 8 6
  irq : u.rb (rPrtRingCfg r) 0 = bit v 0
  sqHead : u.reg (rPrtSqHead r) = 0#32
  sqTail : u.reg (rPrtSqTail r) = 0#32
  cqHead : u.reg (rPrtCqHead r) = 0#32
  cqTail : u.reg (rPrtCqTail r) = 0#32
  ring : ∃ b, u.rings[r] = { (s.rings[r]).opened s r v with xoff := b }
  mem : u.mem = s.mem

theorem State.rb_of_reg {o : Nat} (h : u.reg o = s.reg o) (i : Nat) : u.rb o i = s.rb o i := by rw [State.rb, State.rb, h]
theorem State.rf_of_reg {o : Nat} (h : u.reg o = s.reg o) (lo len : Nat) : u.rf o lo len = s.rf o lo len := by rw [State.rf, State.rf, h]

theorem ringEnable_enabled (h : s.regsWf = true) (hv : bit v 31 = true) (hoff : s.rb (rPrtRingCfg r) 31 = false) (hd : s.drained r = true) :
    RingEnabled s r v (ringEnable r v s) := by
  obtain ⟨hm, hmode, hsq, hcq⟩ := State.sizeFields_marks (State.markFields_marks h r v).1
  rw [ringEnable_drained hv hoff hd]
  obtain ⟨w, hw⟩ : ∃ w, (s.markFields r v).sizeFields r v = w := ⟨_, rfl⟩
  rw [hw] at hm hmode hsq hcq ⊢
  obtain ⟨hsh, hst, hch, hct, hcfg⟩ := State.zeroIndices_reg (State.setRb_regsWf (rPrtRingCfg r) 31 true hm.wf) r
  obtain ⟨b, hb⟩ := State.evalXoff_xoff (((w.setRb (rPrtRingCfg r) 31 true).zeroIndices r).ringUpd r (fun x => x.opened s r v)) r
  rw [hb]
  have hrings : w.rings = s.rings := by rw [hm.rest]
  have hbit : ∀ i, (w.setRb (rPrtRingCfg r) 31 true |>.zeroIndices r).rb (rPrtRingCfg r) i = _ := State.rb_of_reg hcfg
  have hfld : ∀ lo len, (w.setRb (rPrtRingCfg r) 31 true |>.zeroIndices r).rf (rPrtRingCfg r) lo len = _ := State.rf_of_reg hcfg
  refine ⟨?_, ?_, ?_, ?_, ?_, ?_, ?_, ?_, ?_, ?_, ?_, ⟨b, ?_⟩, ?_⟩
  · rw [State.rb_ringUpd, State.rb_ringUpd, hbit]; exact (State.rb_setRb hm.wf (by omega))
  · rw [State.rb_ringUpd, State.rb_ringUpd, hbit]; exact ((State.rb_setRb_disj hm.wf (by omega) (by omega)).trans hmode)
  · rw [State.rf_ringUpd, State.rf_ringUpd, hfld]; exact ((State.rf_setRb_cfg hm.wf (by omega)).trans hsq)
  · rw [State.rf_ringUpd, State.rf_ringUpd, hfld]; exact ((State.rf_setRb_cfg hm.wf (by omega)).trans hcq)
  · rw [State.rf_ringUpd, State.rf_ringUpd, hfld]; exact ((State.rf_setRb_cfg hm.wf (by omega)).trans hm.hiwm)
  · rw [State.rf_ringUpd, State.rf_ringUpd, hfld]; exact ((State.rf_setRb_cfg hm.wf (by omega)).trans hm.lowm)
  · rw [State.rb_ringUpd, State.rb_ringUpd, hbit]; exact ((State.rb_setRb_disj hm.wf (by omega) (by omega)).trans hm.irq)
  · rw [State.reg_ringUpd, State.reg_ringUpd, hsh]
  · rw [State.reg_ringUpd, State.reg_ringUpd, hst]
  · rw [State.reg_ringUpd, State.reg_ringUpd, hch]
  · rw [State.reg_ringUpd, State.reg_ringUpd, hct]
  · rw [State.ringUpd_self, State.ringUpd_self, ← hrings, State.zeroIndices_rings, State.setRb_rings]
  · rw [State.ringUpd_mem, State.ringUpd_mem, State.zeroIndices_mem, State.setRb_mem, hm.rest]

/-- A ring that is not drained stays disabled, and what ENABLE has read stays. -/
structure StaysOff (s : State) (r : Ring) (u : State) : Prop where
  enable : u.rb (rPrtRingCfg r) 31 = false
  sqHead : u.reg (rPrtSqHead r) = s.reg (rPrtSqHead r)
  cqTail : u.reg (rPrtCqTail r) = s.reg (rPrtCqTail r)
  ring : ∃ b, u.rings[r] = { s.rings[r] with xoff := b }

theorem ringEnable_staysOff (h : s.regsWf = true) (hv : bit v 31 = true) (hoff : s.rb (rPrtRingCfg r) 31 = false) (hd : s.drained r = false) :
    StaysOff s r (ringEnable r v s) := by
  obtain ⟨hm, -⟩ := State.sizeFields_marks (State.markFields_marks h r v).1
  rw [ringEnable_undrained hv hoff hd]
  obtain ⟨b, hb⟩ := ((s.markFields r v).sizeFields r v).evalXoff_xoff r
  rw [hb]
  exact ⟨hm.enable.trans hoff, hm.reg _ (by simp), hm.reg _ (by simp), b, by rw [State.ringUpd_self]; rfl⟩

/-- What disabling makes of an enabled ring. -/
structure RingDisabled (s : State) (r : Ring) (v : Word) (u : State) : Prop where
  enable : u.rb (rPrtRingCfg r) 31 = false
  mode : u.rb (rPrtRingCfg r) 30 = s.rb (rPrtRingCfg r) 30
  sqSize : u.rf (rPrtRingCfg r) 24 4 = s.rf (rPrtRingCfg r) 24 4
  cqSize : u.rf (rPrtRingCfg r) 20 4 = s.rf (rPrtRingCfg r) 20 4
  hiwm : u.rf (rPrtRingCfg r) 14 6 = fld v 14 6
  sqHead : u.reg (rPrtSqHead r) = s.reg (rPrtSqHead r)
  sqTail : u.reg (rPrtSqTail r) = s.reg (rPrtSqTail r)
  fifo : (u.rings[r]).fifo = (s.rings[r]).fifo
  held : (u.rings[r]).pushHeld = []
  dropped : (s.rings[r]).pushHeld ≠ [] → u.rb (rPrtRingStatus r) 22 = true
  mem : u.mem = s.mem

/-- The ENABLE bit cleared. -/
theorem MarksWritten.disable (hm : MarksWritten s r v u) : (u.setRb (rPrtRingCfg r) 31 false).rb (rPrtRingCfg r) 31 = false ∧
    (u.setRb (rPrtRingCfg r) 31 false).rb (rPrtRingCfg r) 30 = u.rb (rPrtRingCfg r) 30 ∧
    ∀ o, o ≠ rPrtRingCfg r → (u.setRb (rPrtRingCfg r) 31 false).reg o = s.reg o :=
  ⟨State.rb_setRb hm.wf (by omega), State.rb_setRb_disj hm.wf (by omega) (by omega), fun o ho => (State.reg_setRb_ne ho).trans (hm.reg o ho)⟩

theorem ringDisable_disabled (h : s.regsWf = true) (hv : bit v 31 = false) (hon : s.rb (rPrtRingCfg r) 31 = true) :
    RingDisabled s r v (ringDisable r v s) := by
  obtain ⟨hm, hmode, hsq, hcq⟩ := State.markFields_marks h r v
  obtain ⟨hen, hmode', hreg⟩ := hm.disable
  obtain ⟨w, hw⟩ : ∃ w, (s.markFields r v).setRb (rPrtRingCfg r) 31 false = w := ⟨_, rfl⟩
  have hwf : w.regsWf = true := hw ▸ State.setRb_regsWf (rPrtRingCfg r) 31 false hm.wf
  have hsize : ∀ lo len, lo + len ≤ 31 → w.rf (rPrtRingCfg r) lo len = (s.markFields r v).rf (rPrtRingCfg r) lo len :=
    fun lo len hl => hw ▸ State.rf_setRb_cfg hm.wf hl
  have hmem : w.mem = s.mem := by rw [← hw, State.setRb_mem, hm.rest]
  have hrings : w.rings = s.rings := by rw [← hw, State.setRb_rings, hm.rest]
  obtain ⟨b, hb⟩ := w.evalXoff_xoff r
  rw [ringDisable_enabled hv hon, hw, hb]
  rw [hw] at hen hmode' hreg
  split
  next hheld =>
    refine ⟨hen, hmode'.trans hmode, (hsize 24 4 (by omega)).trans hsq, (hsize 20 4 (by omega)).trans hcq, (hsize 14 6 (by omega)).trans hm.hiwm,
      hreg _ (by simp), hreg _ (by simp), ?_, ?_, fun hne => absurd hheld hne, hmem⟩
    · rw [State.ringUpd_self, hrings]
    · rw [State.ringUpd_self, hrings, hheld]
  next hheld =>
    have hcfg : ∀ w : State, (w.setRb (rPrtRingStatus r) 22 true).reg (rPrtRingCfg r) = w.reg (rPrtRingCfg r) :=
      fun w => State.reg_setRb_ne (by simp)
    refine ⟨?_, ?_, ?_, ?_, ?_, ?_, ?_, ?_, ?_, fun _ => ?_, ?_⟩
    · rw [State.rb_of_reg (hcfg _), State.rb_ringUpd, State.rb_ringUpd, hen]
    · rw [State.rb_of_reg (hcfg _), State.rb_ringUpd, State.rb_ringUpd, hmode', hmode]
    · rw [State.rf_of_reg (hcfg _), State.rf_ringUpd, State.rf_ringUpd, hsize 24 4 (by omega), hsq]
    · rw [State.rf_of_reg (hcfg _), State.rf_ringUpd, State.rf_ringUpd, hsize 20 4 (by omega), hcq]
    · rw [State.rf_of_reg (hcfg _), State.rf_ringUpd, State.rf_ringUpd, hsize 14 6 (by omega), hm.hiwm]
    · rw [State.reg_setRb_ne (by simp), State.reg_ringUpd, State.reg_ringUpd, hreg _ (by simp)]
    · rw [State.reg_setRb_ne (by simp), State.reg_ringUpd, State.reg_ringUpd, hreg _ (by simp)]
    · simp only [State.setRb_rings]
      rw [State.ringUpd_self, State.ringUpd_self, hrings]
      rfl
    · simp only [State.setRb_rings]
      rw [State.ringUpd_self]
    · exact State.rb_setRb (s := State.ringUpd (State.ringUpd w r _) r _) hwf (by omega)
    · rw [State.setRb_mem, State.ringUpd_mem, State.ringUpd_mem, hmem]

/-! ### RING_FLUSH (R87) -/

theorem State.putCompletion_ok {rng : List MemRange} {st : BitVec 8} {e : List Byte} {i : Word} {a : DWord} {b c : Word}
    (hok : rangesCover rng (s.cqAddr r (s.reg (rPrtCqTail r))) 32 true = true) :
    s.putCompletion rng r st e i a b c = ((s.wrBytes (s.cqAddr r (s.reg (rPrtCqTail r)))
      (completionBytes st e (ringPhase (s.rings[r]).cqSize (s.reg (rPrtCqTail r))) i a b c)).setReg (rPrtCqTail r)
        (s.reg (rPrtCqTail r) + 1#32)).ringUpd r (fun x => { x with
          unread := x.unread ++ [s.time]
          written := x.written ++ [⟨s.reg (rPrtCqTail r), s.cqAddr r (s.reg (rPrtCqTail r)), BitVec.ofNat 64 (leAt e 8 8),
            s.rdBytes (s.cqAddr r (s.reg (rPrtCqTail r))) 32⟩] }) := by
  simp only [State.putCompletion, hok, if_true]

theorem completionBytes_length {st : BitVec 8} {e : List Byte} {ph : Nat} {i : Word} {a : DWord} {b c : Word} (h : e.length = 64) :
    (completionBytes st e ph i a b c).length = 32 := by
  simp [completionBytes, leBytes_length, h]

theorem State.rdBytes_ringUpd (s : State) (r : Ring) (f : RingPair → RingPair) (a n : Nat) : (s.ringUpd r f).rdBytes a n = s.rdBytes a n := rfl
theorem State.rdBytes_setReg (s : State) (o : Nat) (v : Word) (a n : Nat) : (s.setReg o v).rdBytes a n = s.rdBytes a n := rfl

/-- `u` is `s` when a MEMORY ring's only FIFO entry has been flushed and its completion is not yet written. -/
structure Flushed (s : State) (r : Ring) (e : FifoEntry) (u : State) : Prop where
  ring : ∃ b, u.rings[r] = { s.rings[r] with cancelled := [e], fifo := [], xoff := b }
  head : u.reg (rPrtSqHead r) = s.reg (rPrtSqTail r)
  reg : ∀ o, o ≠ rPrtSqHead r → u.reg o = s.reg o
  mem : u.mem = s.mem
  wf : u.regsWf = true

theorem State.pushNext_none (h : (s.rings[r]).pushHeld = []) : s.pushNext r = s := by simp only [State.pushNext, h]

/-- A FIFO entry that becomes a waiting completion does not drain the ring. -/
theorem State.pushMode_cancelled {e : FifoEntry} (hfifo : (s.rings[r]).fifo = [e]) (h : (u.rings[r]).cancelled = [e])
    (hmode : (u.rings[r]).mode = (s.rings[r]).mode) (hreg : u.reg (rPrtRingCfg r) = s.reg (rPrtRingCfg r)) : u.pushMode r = s.pushMode r := by
  simp [-Fin.getElem_fin, State.pushMode, State.drained, hfifo, h, hmode, State.rb_of_reg hreg]

theorem ringFlush_one {e : FifoEntry} (hwf : s.regsWf = true) (hv : bit v 0 = true) (hheld : (s.rings[r]).pushHeld = [])
    (hcan : (s.rings[r]).cancelled = []) (hfifo : (s.rings[r]).fifo = [e]) (hmode : s.pushMode r = false) (hown : s.ringOwner r = some p)
    (hroom : s.cqOcc r < s.cqSlots r) : ∃ u, Flushed s r e u ∧ ringFlush r v s =
      (u.putCompletion (u.ranges p) r stCancelled e.bytes e.index 0#64 0#32 0#32).ringUpd r (fun x => { x with cancelled := [] }) := by
  obtain ⟨w, hw⟩ : ∃ w, s.ringUpd r (fun x => { x with cancelled := x.cancelled ++ x.fifo, fifo := [] }) = w := ⟨_, rfl⟩
  have hring : w.rings[r] = { s.rings[r] with cancelled := [e], fifo := [] } := by rw [← hw, State.ringUpd_self, hcan, hfifo]; rfl
  have hreg : ∀ o, w.reg o = s.reg o := fun o => by rw [← hw, State.reg_ringUpd]
  have hmem : w.mem = s.mem := by rw [← hw, State.ringUpd_mem]
  have hwwf : w.regsWf = true := by rw [← hw]; exact hwf
  have hwmode : w.pushMode r = false := (State.pushMode_cancelled hfifo (by rw [hring]) (by rw [hring]) (hreg _)).trans hmode
  obtain ⟨b, hb⟩ := (w.setReg (rPrtSqHead r) (w.reg (rPrtSqTail r))).evalXoff_xoff r
  obtain ⟨u, hu⟩ : ∃ u, (w.setReg (rPrtSqHead r) (w.reg (rPrtSqTail r))).evalXoff r = u := ⟨_, rfl⟩
  rw [hu] at hb
  have huring : u.rings[r] = { s.rings[r] with cancelled := [e], fifo := [], xoff := b } := by
    rw [hb, State.ringUpd_self]
    simp only [State.setReg_rings, hring]
  have hureg : ∀ o, o ≠ rPrtSqHead r → u.reg o = s.reg o := fun o ho => by rw [hb, State.reg_ringUpd, State.reg_setReg_ne ho, hreg]
  have hbelow : ∀ o, o < 0x200000 → u.reg o = s.reg o := fun o ho => hureg o (by unfold rPrtSqHead; omega)
  refine ⟨u, ⟨⟨b, huring⟩, ?_, hureg, ?_, ?_⟩, ?_⟩
  · rw [hb, State.reg_ringUpd, State.reg_setReg _ _ hwwf, hreg]
  · rw [hb, State.ringUpd_mem, State.setReg_mem, hmem]
  · rw [hb]; exact State.setReg_regsWf _ _ hwwf
  · have hfull : u.cqFull r = false := by
      rw [State.cqFull, State.cqOcc, State.cqSlots, huring, hureg _ (by simp), hureg _ (by simp)]
      exact decide_eq_false (Nat.not_le.mpr hroom)
    have hflush : ringFlush r v s = u.drainCancelled p r 1 := by
      rw [ringFlush, if_neg (by simp [hv])]
      simp only [State.pushNext_none hheld, hw, hwmode, Bool.false_eq_true, if_false, State.setReg_rings, hring, hheld, List.length_nil,
        State.pushDrain, hu, State.ringOwner_congr hbelow, hown, huring, List.length_singleton]
    rw [hflush, State.drainCancelled, huring]
    simp only [hfull, Bool.false_eq_true, if_false, State.drainCancelled]

end Sys2Proof.Machine

namespace Sys2Proof.Claims
open Machine

/-- Settles O37: each command is the update that the statement names; a head beyond the ring posts to the ring's owner. -/
theorem completionHead : Obligations.CompletionHead := by
  unfold Obligations.CompletionHead
  intro s r v hrun
  refine ⟨fun hocc hc => ?_, fun p hocc hown => ?_, fun a l hu hus ht => ?_, fun a l hu ht => ?_, fun hu => ?_⟩
  · refine runWrite_noted ((cqHeadWrite_within ?_ ?_).trans ?_) (State.forwardWrite_mem ..) hrun
    · rw [State.reg_forwardWrite, State.cqSlots_forwardWrite]; exact hocc
    · simp only [State.forwardWrite_rings]; exact hc
    · rw [State.reg_forwardWrite, State.cqSlots_forwardWrite, State.forwardWrite_time]
  · refine runWrite_own ((cqHeadWrite_beyond ?_).trans (State.ringError_owned ?_ 2 0 0)) hrun
    · rw [State.reg_forwardWrite, State.cqSlots_forwardWrite]; exact hocc
    · rw [State.ringOwner_setRb (by unfold rPrtRingStatus; omega), State.ringOwner_forwardWrite, hown]
  · exact run_noted (coalTimerExpiry_due hu hus ht) rfl hrun
  · exact run_noted (coalTimerExpiry_early hu ht) rfl hrun
  · exact run_noted (coalTimerExpiry_read hu) rfl hrun

/-- Settles O38: enabling writes the fields, then the bit, then reads them; a flush turns the entry into a completion that waits, and writes it. -/
theorem ringControl : Obligations.RingControl := by
  unfold Obligations.RingControl
  intro s r v hcanon hrun
  obtain ⟨hmem, -, hwf⟩ := hcanon
  have hcfg := rPrtRingCfg_note r
  refine ⟨fun hv hoff hd => ?_, fun hv hoff hd => ?_, fun hv hon => ?_, ?_⟩
  · obtain ⟨t, out, ht, sh⟩ := runWrite_shows (rPrtRingCfg r) v (ringEnable r v) hrun
    have e := ringEnable_enabled (s := { s with peerOut := out }) hwf hv hoff hd
    obtain ⟨b, hb⟩ := e.ring
    have hring : t.rings[r] = _ := (congrArg (·[r]) sh.rings).trans hb
    refine ⟨t, ht, (sh.rb hcfg).trans e.enable, (sh.rb hcfg).trans e.mode, (sh.rf hcfg).trans e.sqSize, (sh.rf hcfg).trans e.cqSize,
      (sh.rf hcfg).trans e.hiwm, (sh.rf hcfg).trans e.lowm, (sh.rb hcfg).trans e.irq, (sh.reg _ (rPrtSqHead_note r)).trans e.sqHead,
      (sh.reg _ (rPrtSqTail_note r)).trans e.sqTail, (sh.reg _ (rPrtCqHead_note r)).trans e.cqHead,
      (sh.reg _ (rPrtCqTail_note r)).trans e.cqTail, ?_⟩
    rw [hring]
    exact ⟨rfl, rfl, rfl, rfl, rfl, rfl, sh.mem e.mem⟩
  · obtain ⟨t, out, ht, sh⟩ := runWrite_shows (rPrtRingCfg r) v (ringEnable r v) hrun
    have e := ringEnable_staysOff (s := { s with peerOut := out }) hwf hv hoff hd
    obtain ⟨b, hb⟩ := e.ring
    have hring : t.rings[r] = _ := (congrArg (·[r]) sh.rings).trans hb
    refine ⟨t, ht, (sh.rb hcfg).trans e.enable, (sh.reg _ (rPrtSqHead_note r)).trans e.sqHead, (sh.reg _ (rPrtCqTail_note r)).trans e.cqTail, ?_⟩
    rw [hring]
    exact ⟨rfl, rfl, rfl, rfl⟩
  · obtain ⟨t, out, ht, sh⟩ := runWrite_shows (rPrtRingCfg r) v (ringDisable r v) hrun
    have e := ringDisable_disabled (s := { s with peerOut := out }) hwf hv hon
    have hring : t.rings[r] = _ := congrArg (·[r]) sh.rings
    refine ⟨t, ht, (sh.rb hcfg).trans e.enable, (sh.rb hcfg).trans e.mode, (sh.rf hcfg).trans e.sqSize, (sh.rf hcfg).trans e.cqSize,
      (sh.rf hcfg).trans e.hiwm, (sh.reg _ (rPrtSqHead_note r)).trans e.sqHead, (sh.reg _ (rPrtSqTail_note r)).trans e.sqTail, ?_, ?_,
      fun hne => (sh.rb (rPrtRingStatus_note r)).trans (e.dropped hne), sh.mem e.mem⟩
    · rw [hring, e.fifo]
    · rw [hring, e.held]
  · intro p e hrole hv hheld hcan hfifo hmode hown hroom hok hlen
    obtain ⟨t, ht, hn⟩ := runWrite_writer (o := rPrtRingCtrl r) (v := v) (f := ringFlush r v) hrun hrole
    obtain ⟨out, hout⟩ : ∃ out, s.forwardWrite (rPrtRingCtrl r) v = { s with peerOut := out } := ⟨_, State.forwardWrite_rest ..⟩
    rw [hout] at hn
    obtain ⟨u, hf, hu⟩ := ringFlush_one (s := { s with peerOut := out }) hwf hv hheld hcan hfifo hmode hown hroom
    obtain ⟨b, hring⟩ := hf.ring
    have htail : u.reg (rPrtCqTail r) = s.reg (rPrtCqTail r) := hf.reg _ (by simp)
    have hslot : u.cqAddr r (s.reg (rPrtCqTail r)) = s.cqAddr r (s.reg (rPrtCqTail r)) := by
      rw [State.cqAddr, State.cqAddr, State.cqSlots, State.cqSlots, hring]
    have hranges : u.ranges p = s.ranges p := State.ranges_congr (fun o ho => hf.reg o (by unfold rPrtSqHead; omega)) p
    rw [hu, State.putCompletion_ok (by rw [htail, hslot, hranges]; exact hok), htail, hslot] at hn
    have humem : u.memWf = true := by rw [State.memWf, hf.mem]; exact hmem
    refine ⟨t, ht, ?_, ?_, ?_, ?_, ?_⟩
    · simp only [hn.rings]
      rw [State.ringUpd_self, State.ringUpd_self]
      simp only [State.setReg_rings, State.wrBytes_rings, hring]
    · simp only [hn.rings]
      rw [State.ringUpd_self]
    · rw [hn.reg (rPrtSqHead_note r), State.reg_ringUpd, State.reg_ringUpd, State.reg_setReg_ne (by simp), State.reg_wrBytes, hf.head]
      rfl
    · rw [hn.reg (rPrtCqTail_note r), State.reg_ringUpd, State.reg_ringUpd, State.reg_setReg]
      rw [State.regsWf, State.wrBytes_regs]
      exact hf.wf
    · rw [hn.rdBytes, State.rdBytes_ringUpd, State.rdBytes_ringUpd, State.rdBytes_setReg, hring]
      have hb := State.rdBytes_wrBytes (completionBytes stCancelled e.bytes (ringPhase (s.rings[r]).cqSize (s.reg (rPrtCqTail r))) e.index 0#64 0#32
        0#32) (s.cqAddr r (s.reg (rPrtCqTail r))) humem (by rw [completionBytes_length hlen]; decide)
      rwa [completionBytes_length hlen] at hb

end Sys2Proof.Claims
end

