-- ==== Sys2Proof/Proofs/EventRing.lean ====
section
/-! PROOF. Sys2Proof/Proofs/EventRing.lean: the event ring of a partition: enabling, the head, and the entry of an event. -/
namespace Sys2Proof.Machine
open Sys2Proof
variable {s t u : State} {p : Part} {v : Word}

/-! ### Little-endian numbers -/

theorem leNat_leBytes : ∀ n v : Nat, leNat (leBytes n v) = v % 256 ^ n
  | 0, v => by simp [leBytes, leNat, Nat.mod_one]
  | n + 1, v => by
    have hbyte : (BitVec.ofNat 8 (v % 256)).toNat = v % 256 := by rw [BitVec.toNat_ofNat]; omega
    rw [leBytes, leNat, leNat_leBytes n, hbyte, Nat.pow_succ', Nat.mod_mul]

/-- A number of `n` bytes is what its bytes say. -/
theorem leNat_leBytes_of_lt {n v : Nat} (h : v < 256 ^ n) : leNat (leBytes n v) = v := (leNat_leBytes n v).trans (Nat.mod_eq_of_lt h)

/-- The bytes `l` stand at address `a`. -/
def State.holds (s : State) (a : Nat) (l : List Byte) : Prop := s.rdBytes a l.length = l

theorem State.rdBytes_append (s : State) (a m n : Nat) : s.rdBytes a (m + n) = s.rdBytes a m ++ s.rdBytes (a + m) n := by
  simp [State.rdBytes, List.range_add, Nat.add_assoc]

theorem State.rdBytes_length (s : State) (a n : Nat) : (s.rdBytes a n).length = n := by simp [State.rdBytes]

theorem State.holds_append {a : Nat} {x y : List Byte} : s.holds a (x ++ y) ↔ s.holds a x ∧ s.holds (a + x.length) y := by
  rw [State.holds, State.holds, State.holds, List.length_append, State.rdBytes_append]
  constructor
  · exact fun h => List.append_inj h (State.rdBytes_length ..)
  · exact fun h => by rw [h.1, h.2]

theorem State.holds_wrBytes {a : Nat} {l : List Byte} (h : s.memWf = true) (hl : l.length ≤ 2 ^ 64) : (s.wrBytes a l).holds a l :=
  State.rdBytes_wrBytes l a h hl

theorem State.holds_congr {a : Nat} {l : List Byte} (h : s.holds a l) (hm : t.mem = s.mem) : t.holds a l := by
  rw [State.holds, State.rdBytes] at h ⊢
  simpa only [State.rd8, hm] using h

theorem State.holds.rdLE {a n v : Nat} (h : s.holds a (leBytes n v)) (hv : v < 256 ^ n) : s.rdLE a n = v := by
  rw [State.holds, leBytes_length] at h
  rw [State.rdLE, h, leNat_leBytes_of_lt hv]

theorem State.holds.rd8 {a v : Nat} (h : s.holds a (leBytes 1 v)) : s.rd8 a = BitVec.ofNat 8 v := by
  have hb : s.rdBytes a 1 = [BitVec.ofNat 8 (v % 256)] := h
  have h8 : s.rd8 a = BitVec.ofNat 8 (v % 256) := by simpa [State.rdBytes] using hb
  rw [h8]
  apply BitVec.eq_of_toNat_eq
  simp

/-! ### PRT_EVQ_CFG and PRT_EVQ_HEAD (R91, R92) -/

/-- What is noted of a command is not the event ring's. -/
theorem rPrtEvq_note (p : Part) : noteReg (rPrtEvqCfg p) = false ∧ noteReg (rPrtEvqHead p) = false ∧ noteReg (rPrtEvqTail p) = false := by
  revert p; decide

theorem State.partUpd_self (s : State) (p : Part) (f : PartState → PartState) : (s.partUpd p f).parts[p] = f s.parts[p] := by
  simp [State.partUpd, vset]

theorem State.postReport_none (h : (s.parts[p]).reportDue = false) : s.postReport p = s := by
  rw [State.postReport, h, if_neg Bool.false_ne_true]

theorem evqEnable_disabled (hv : bit v 31 = true) (hoff : s.rb (rPrtEvqCfg p) 31 = false) (hrep : (s.parts[p]).reportDue = false) :
    evqEnable p v s = ((((s.setRf (rPrtEvqCfg p) 24 4 (fld v 24 4)).setRf (rPrtEvqCfg p) 30 2 (fld v 30 2)).setReg (rPrtEvqHead p) 0#32).setReg
      (rPrtEvqTail p) 0#32).partUpd p (fun x => { x with evqLast := none }) := by
  rw [evqEnable, if_neg (by simp [hv, hoff])]
  exact State.postReport_none (by rw [State.partUpd_self]; exact hrep)

/-- What enabling makes of an event ring that is off. -/
structure EvqEnabled (s : State) (p : Part) (v : Word) (u : State) : Prop where
  enable : u.rb (rPrtEvqCfg p) 31 = true
  irq : u.rb (rPrtEvqCfg p) 30 = bit v 30
  size : u.rf (rPrtEvqCfg p) 24 4 = fld v 24 4
  head : u.reg (rPrtEvqHead p) = 0#32
  tail : u.reg (rPrtEvqTail p) = 0#32
  mem : u.mem = s.mem

theorem evqEnable_enabled (h : s.regsWf = true) (hv : bit v 31 = true) (hoff : s.rb (rPrtEvqCfg p) 31 = false)
    (hrep : (s.parts[p]).reportDue = false) : EvqEnabled s p v (evqEnable p v s) := by
  have h1 := State.setRf_regsWf (rPrtEvqCfg p) 24 4 (fld v 24 4) h
  have h2 := State.setRf_regsWf (rPrtEvqCfg p) 30 2 (fld v 30 2) h1
  have h3 := State.setReg_regsWf (rPrtEvqHead p) 0#32 h2
  have hcfg : ∀ w : State, ((w.setReg (rPrtEvqHead p) 0#32).setReg (rPrtEvqTail p) 0#32).reg (rPrtEvqCfg p) = w.reg (rPrtEvqCfg p) := fun w => by
    rw [State.reg_setReg_ne (by simp), State.reg_setReg_ne (by simp)]
  rw [evqEnable_disabled hv hoff hrep]
  refine ⟨?_, ?_, ?_, ?_, ?_, rfl⟩
  · rw [State.rb, State.reg_partUpd, hcfg, ← State.rb, State.rb_setRf h1 (by omega), if_pos (by omega), testBit_fld]
    simpa [bit] using hv
  · rw [State.rb, State.reg_partUpd, hcfg, ← State.rb, State.rb_setRf h1 (by omega), if_pos (by omega), testBit_fld]
    simp [bit]
  · rw [State.rf, State.reg_partUpd, hcfg, ← State.rf, State.rf_setRf_disj h1 (by omega) (by omega), State.rf_setRf h (by omega), fld_mod]
  · rw [State.reg_partUpd, State.reg_setReg_ne (by simp), State.reg_setReg _ _ h2]
  · rw [State.reg_partUpd, State.reg_setReg _ _ h3]

theorem evqHeadWrite_within (h : (s.reg (rPrtEvqTail p) - v).toNat ≤ ringSlots (s.rf (rPrtEvqCfg p) 24 4)) :
    evqHeadWrite p v s = s.setReg (rPrtEvqHead p) v := by rw [evqHeadWrite, if_neg (Nat.not_lt.mpr h)]

theorem evqHeadWrite_beyond (h : ringSlots (s.rf (rPrtEvqCfg p) 24 4) < (s.reg (rPrtEvqTail p) - v).toNat) :
    evqHeadWrite p v s = s.post p 0x0A 0 none noSession 0#64 5#64 := by rw [evqHeadWrite, if_pos h]

/-! ### An event (R89, R98) -/

/-- The slot at the tail. -/
def State.evqSlot (s : State) (p : Part) : Nat :=
  fld (s.reg64 (rPrtEvqBase p)) 12 52 * 4096 + 32 * ((s.reg (rPrtEvqTail p)).toNat % ringSlots (s.rf (rPrtEvqCfg p) 24 4))

/-- The ring is enabled, has a free slot, and may write it. -/
def State.evqRoom (s : State) (p : Part) : Prop :=
  s.rb (rPrtEvqCfg p) 31 = true ∧ (s.reg (rPrtEvqTail p) - s.reg (rPrtEvqHead p)).toNat < ringSlots (s.rf (rPrtEvqCfg p) 24 4) ∧
    s.memOk p (s.evqSlot p) 32 true = true

section Post
variable {k : Nat} {d : Dom} {x : Option Ring} {w : Word} {i y : DWord}

theorem State.post_room (h : s.evqRoom p) : s.post p k d x w i y = ((s.wrBytes (s.evqSlot p) (eventBytes k
    (ringPhase (s.rf (rPrtEvqCfg p) 24 4) (s.reg (rPrtEvqTail p))) d x w i (s.point d) y)).setReg (rPrtEvqTail p)
      (s.reg (rPrtEvqTail p) + 1#32)).partUpd p (fun z => { z with evqLast := some ⟨s.evqSlot p, s.rdBytes (s.evqSlot p) 32⟩ }) := by
  obtain ⟨hen, hroom, hok⟩ := h
  rw [State.evqSlot] at hok
  exact if_neg (by rw [hen, hok, decide_eq_false (Nat.not_le.mpr hroom)]; exact Bool.false_ne_true)

theorem State.post_lost (h : ¬ s.evqRoom p) : s.post p k d x w i y = s.bump (rPrtEvqLost p) := by
  refine if_pos ?_
  simp only [Bool.or_eq_true, Bool.not_eq_true', decide_eq_true_eq, ge_iff_le]
  by_contra hc
  simp only [not_or, Bool.not_eq_false, Nat.not_le] at hc
  exact h ⟨hc.1.1, hc.1.2, hc.2⟩

end Post

theorem ringPhase_le (z : Nat) (i : Word) : ringPhase z i * 128 = if i.toNat / 2 ^ (min z 12 + 4) % 2 = 0 then 128 else 0 := by
  rw [ringPhase, Nat.shiftRight_eq_div_pow]
  by_cases h : i.toNat / 2 ^ (min z 12 + 4) % 2 = 0 <;> simp [h]

section Entry
variable {a k ph : Nat} {d : Dom} {x : Option Ring} {w : Word} {i z y : DWord}

theorem eventBytes_length : (eventBytes k ph d x w i z y).length = 32 := by simp [eventBytes]

/-- The fields of an event entry in chip memory (R98). -/
structure EventAt (s : State) (a k ph : Nat) (d : Dom) (w : Word) (i z y : DWord) : Prop where
  code : s.rd8 a = BitVec.ofNat 8 k
  phase : (s.rd8 (a + 1)).toNat = d.val * 32 + ph * 128
  session : s.rdLE (a + 4) 4 = w.toNat
  id : s.rdLE (a + 8) 8 = i.toNat
  time : s.rdLE (a + 16) 8 = z.toNat
  detail : s.rdLE (a + 24) 8 = y.toNat

/-- The entry in a row: the byte that names the ring is not asked for here. -/
theorem eventBytes_row : ∃ n, eventBytes k ph d x w i z y = leBytes 1 k ++ leBytes 1 (ph * 128 + d * 32) ++ leBytes 1 n ++
    leBytes 1 0 ++ leBytes 4 w.toNat ++ leBytes 8 i.toNat ++ leBytes 8 z.toNat ++ leBytes 8 y.toNat := ⟨_, rfl⟩

theorem State.eventAt (h : s.holds a (eventBytes k ph d x w i z y)) (hph : ph ≤ 1) : EventAt s a k ph d w i z y := by
  obtain ⟨n, hn⟩ := eventBytes_row (k := k) (ph := ph) (d := d) (x := x) (w := w) (i := i) (z := z) (y := y)
  rw [hn] at h
  simp only [State.holds_append, List.length_append, leBytes_length, Nat.reduceAdd] at h
  obtain ⟨⟨⟨⟨⟨⟨⟨hcode, hphase⟩, -⟩, -⟩, hsid⟩, hid⟩, htime⟩, hdetail⟩ := h
  refine ⟨hcode.rd8, ?_, hsid.rdLE w.isLt, hid.rdLE i.isLt, htime.rdLE z.isLt, hdetail.rdLE y.isLt⟩
  rw [hphase.rd8, BitVec.toNat_ofNat]
  omega

end Entry

end Sys2Proof.Machine

namespace Sys2Proof.Claims
open Machine

/-- Settles O39: an event has room in the ring and its fields stand in the slot, or it has none and is counted. -/
theorem eventRing : Obligations.EventRing := by
  unfold Obligations.EventRing
  intro s p v hcanon
  obtain ⟨hmem, -, hwf⟩ := hcanon
  obtain ⟨hcfg, hhead, htail⟩ := rPrtEvq_note p
  refine ⟨fun hrun hv hoff hrep => ?_, fun hrun hv => ?_, fun hrun hv => ?_, fun k d w i y hk hroom => ?_, fun k d w i y hroom => ?_⟩
  · obtain ⟨t, out, ht, sh⟩ := runWrite_shows (rPrtEvqCfg p) v (evqEnable p v) hrun
    have e := evqEnable_enabled (s := { s with peerOut := out }) hwf hv hoff hrep
    exact ⟨t, ht, (sh.rb hcfg).trans e.enable, (sh.rb hcfg).trans e.irq, (sh.rf hcfg).trans e.size, (sh.reg _ hhead).trans e.head,
      (sh.reg _ htail).trans e.tail, sh.mem e.mem⟩
  · refine runWrite_noted (evqHeadWrite_within ?_) (State.forwardWrite_mem ..) hrun
    rw [State.rf, State.reg_forwardWrite, State.reg_forwardWrite]
    exact hv
  · refine runWrite_own (evqHeadWrite_beyond ?_) hrun
    rw [State.rf, State.reg_forwardWrite, State.reg_forwardWrite]
    exact hv
  · intro t
    have ht : t = _ := State.post_room hroom
    have hph : ringPhase (s.rf (rPrtEvqCfg p) 24 4) (s.reg (rPrtEvqTail p)) ≤ 1 := by rw [ringPhase]; split <;> omega
    have hheld : t.holds (s.evqSlot p) (eventBytes k (ringPhase (s.rf (rPrtEvqCfg p) 24 4) (s.reg (rPrtEvqTail p))) d none w i (s.point d) y) :=
      State.holds_congr (State.holds_wrBytes hmem (by rw [eventBytes_length]; decide)) (by rw [ht, State.partUpd_mem, State.setReg_mem])
    have e := State.eventAt hheld hph
    refine ⟨?_, e.code, by rw [← ringPhase_le]; exact e.phase, e.session, e.id, e.time, e.detail⟩
    rw [ht, State.reg_partUpd, State.reg_setReg]
    rw [State.regsWf, State.wrBytes_regs]
    exact hwf
  · intro t
    have ht : t = s.bump (rPrtEvqLost p) := State.post_lost hroom
    refine ⟨?_, ?_, ?_⟩
    · rw [ht, State.bump_mem]
    · rw [ht, State.reg_bump_ne s (by simp)]
    · rw [ht, State.reg_bump hwf]

end Sys2Proof.Claims
end

