-- ==== Sys2Proof/Proofs/Dispatch.lean ====
section
/-! PROOF. Sys2Proof/Proofs/Dispatch.lean: entries pushed into the intake FIFO, and the head entry moved into a context. -/
namespace Sys2Proof.Machine
open Sys2Proof
variable {s t u : State} {r q : Ring} {p : Part} {v : Word} {c : Ctx}

/-! ### PUSH mode (R69) -/

/-- The entry being assembled, with its last word. -/
theorem pushBytes_words (x : RingPair) (v : Word) :
    pushBytes x v = (List.range 15).flatMap (fun k => leBytes 4 (x.push.toList.getD k 0#32).toNat) ++ leBytes 4 v.toNat := by
  have hwords : (x.push.set 15 v).toList = (List.range 15).map (fun k => x.push.toList.getD k 0#32) ++ [v] := by
    apply List.ext_getElem
    · simp
    · intro i h1 h2
      have hi : i < 16 := by simpa using h1
      by_cases hlast : i = 15
      · subst hlast
        simp
      · rw [List.getElem_append_left (by simp; omega)]
        simp [Ne.symm hlast, hi]
  rw [pushBytes, hwords, List.flatMap_append, List.flatMap_map]
  simp

/-- The assembled entry, entered in the FIFO under index SQ_TAIL. -/
structure Entered (s : State) (r : Ring) (v : Word) (u : State) : Prop where
  ring : ∃ b, u.rings[r] = { s.rings[r] with
    fifo := (s.rings[r]).fifo ++ [⟨s.reg (rPrtSqTail r), pushBytes (s.rings[r]) v⟩], push := Vector.replicate 16 0#32, xoff := b }
  tail : u.reg (rPrtSqTail r) = s.reg (rPrtSqTail r) + 1#32
  head : u.reg (rPrtSqHead r) = s.reg (rPrtSqHead r) + 1#32
  mem : u.mem = s.mem

theorem State.pushEnter_evalXoff (h : s.regsWf = true) (r : Ring) (v : Word) : Entered s r v ((s.pushEnter r v).evalXoff r) := by
  obtain ⟨b, hb⟩ := (s.pushEnter r v).evalXoff_xoff r
  obtain ⟨w, hw⟩ : ∃ w, s.ringUpd r (fun x => RingPair.clearPush { x with fifo := x.fifo ++ [⟨s.reg (rPrtSqTail r), pushBytes x v⟩] }) = w := ⟨_, rfl⟩
  have henter : s.pushEnter r v = (w.setReg (rPrtSqTail r) (s.reg (rPrtSqTail r) + 1#32)).setReg (rPrtSqHead r) (w.reg (rPrtSqHead r) + 1#32) := by
    rw [State.pushEnter, ← hw]
  have hwf : w.regsWf = true := by rw [← hw]; exact h
  have hreg : ∀ o, w.reg o = s.reg o := fun o => by rw [← hw, State.reg_ringUpd]
  rw [hb, henter]
  refine ⟨⟨b, ?_⟩, ?_, ?_, ?_⟩
  · rw [State.ringUpd_self]
    simp only [State.setReg_rings]
    rw [← hw, State.ringUpd_self]
    rfl
  · rw [State.reg_ringUpd, State.reg_setReg_ne (by simp), State.reg_setReg _ _ hwf]
  · rw [State.reg_ringUpd, State.reg_setReg _ _ (State.setReg_regsWf _ _ hwf), hreg]
  · rw [State.ringUpd_mem, State.setReg_mem, State.setReg_mem, ← hw, State.ringUpd_mem]

theorem pushWord_push {k : Fin 15} (h : s.pushMode r = true) :
    pushWord r k v s = s.ringUpd r (fun x => { x with push := x.push.set k.val v (by omega) }) := by rw [pushWord, h, if_pos rfl]

section Commit
variable (h : s.pushMode r = true)
include h

theorem pushCommit_enters (hon : s.ringOn r = true) (hheld : (s.rings[r]).pushHeld = []) (hroom : (s.rings[r]).fifo.length < 32) :
    pushCommit r v s = (s.pushEnter r v).evalXoff r := by
  rw [pushCommit, h, hon, if_neg (by simp), if_neg (by simp), hheld, if_neg (by simp [-Fin.getElem_fin, fifoMax, hroom])]

theorem pushCommit_held (hon : s.ringOn r = true) (hfull : (s.rings[r]).pushHeld ≠ [] ∨ 32 ≤ (s.rings[r]).fifo.length) :
    pushCommit r v s = s.ringUpd r (fun x => { x with pushHeld := x.pushHeld ++ [v] }) := by
  have hc : (!(s.rings[r]).pushHeld.isEmpty || fifoMax ≤ (s.rings[r]).fifo.length) = true := by
    rcases hfull with hheld | hlen
    · simp [-Fin.getElem_fin, hheld]
    · simp only [Bool.or_eq_true, decide_eq_true_eq]
      exact Or.inr hlen
  rw [pushCommit, h, hon, if_neg (by simp), if_neg (by simp), if_pos hc]

theorem pushCommit_dropped (hoff : s.ringOn r = false) :
    pushCommit r v s = (s.ringUpd r RingPair.clearPush).setRb (rPrtRingStatus r) 22 true := by
  rw [pushCommit, h, hoff, if_neg (by simp), if_pos (by simp)]

theorem State.sqFetch1_push : s.sqFetch1 r = s := by
  rw [State.sqFetch1]
  exact if_pos (by simp only [h, Bool.or_true, Bool.true_or])

theorem sqFetch_push : sqFetch r s = s.evalXoff r := by
  rw [sqFetch, State.sqFetch1_push h, State.sqFetch1_push h, State.sqFetch1_push h, State.sqFetch1_push h]

end Commit

/-! ### OP_DISPATCH (R125, R674) -/

/-- A ring when the head entry of its FIFO has left and a held PUSH write has entered. -/
def State.headTaken (s : State) (r : Ring) (l : List FifoEntry) : State :=
  ((s.ringUpd r (fun x => { x with fifo := l })).pushResume r).evalXoff r

/-- With a free slot in the FIFO, the oldest held write enters (R69). -/
theorem State.headTaken_held {l : List FifoEntry} {w : Word} {ws : List Word} (hheld : (s.rings[r]).pushHeld = w :: ws) (hl : l.length = 31) :
    s.headTaken r l = (((s.ringUpd r (fun x => { x with fifo := l })).ringUpd r (fun x => { x with pushHeld := ws })).pushEnter r w).evalXoff r := by
  rw [State.headTaken, State.pushResume, if_pos (by rw [State.ringUpd_self]; exact hl ▸ (by decide : 31 < fifoMax)), State.pushNext,
    State.ringUpd_self, hheld]

theorem State.headTaken_free {l : List FifoEntry} (hheld : (s.rings[r]).pushHeld = []) :
    s.headTaken r l = (s.ringUpd r (fun x => { x with fifo := l })).evalXoff r := by
  have hnext : (s.ringUpd r (fun x => { x with fifo := l })).pushNext r = s.ringUpd r (fun x => { x with fifo := l }) := by
    rw [State.pushNext, State.ringUpd_self, hheld]
  rw [State.headTaken, State.pushResume]
  split
  · rw [hnext]
  · rfl

/-- `u` is `s1` with the entry `f` in context `c`, checked there. -/
structure Dispatched (s1 : State) (r : Ring) (p : Part) (f : FifoEntry) (c : Ctx) (late : Bool) (y : OpCtx) (u : State) : Prop where
  ctxs : u.ctxs = s1.ctxs ++ [y]
  id : y.id = c
  part : y.part = p
  ring : y.ring = r
  index : y.index = f.index
  entry : y.entry = f.bytes
  seq : y.seq = s1.nextSeq
  nextSeq : u.nextSeq = s1.nextSeq + 1
  status : late = false → y.status = s1.dispatchFault p f.bytes (s1.openParams f.bytes) (s1.names p f.bytes (s1.openParams f.bytes))
    (s1.bindings p f.bytes (s1.names p f.bytes (s1.openParams f.bytes)))
  st : y.st = if y.status.isSome then .past else .queued
  rings : u.rings = s1.rings
  mem : u.mem = s1.mem
  reg : ∀ o, o ≠ rPrtOpctxUse p → u.reg o = s1.reg o

/-- An object's load or retire in flight shows in the object IDs alone. -/
theorem State.markObject_rest (s : State) (p : Part) (e : List Byte) : s.markObject p e = { s with objIds := (s.markObject p e).objIds } := by
  unfold State.markObject
  dsimp only
  split
  · split <;> rfl
  · split <;> rfl

theorem State.dispatchTo_dispatched {f : FifoEntry} {l : List FifoEntry} (hf : (s.rings[r]).fifo = f :: l) (hown : s.ringOwner r = some p)
    (c : Ctx) (late ready : Bool) : ∃ y, Dispatched (s.headTaken r l) r p f c late y (s.dispatchTo r c late ready) := by
  rw [State.headTaken, State.dispatchTo, hf, hown]
  dsimp only
  generalize ((s.ringUpd r (fun x => { x with fifo := l })).pushResume r).evalXoff r = s1
  split
  next st _ hst => exact ⟨_, rfl, rfl, rfl, rfl, rfl, rfl, rfl, rfl, fun _ => hst.symm, rfl, rfl, rfl, fun o ho => State.reg_setRf_ne ho⟩
  next =>
    exact ⟨_, rfl, rfl, rfl, rfl, rfl, rfl, rfl, rfl, fun h => absurd h.symm Bool.false_ne_true, rfl, rfl, rfl, fun o ho => State.reg_setRf_ne ho⟩
  next hst =>
    rw [State.markObject_rest]
    exact ⟨_, rfl, rfl, rfl, rfl, rfl, rfl, rfl, rfl, fun _ => hst.symm, rfl, rfl, rfl, fun o ho => State.reg_setRf_ne ho⟩

/-- A dispatch told goes into the mailbox of a primary (R622). -/
theorem State.tellDispatch_rest (t s : State) : t.tellDispatch s = { t with mailOut := (t.tellDispatch s).mailOut, pair := (t.tellDispatch s).pair } := by
  unfold State.tellDispatch
  split
  · split
    · exact State.tellOp_rest ..
    · rfl
  · rfl

theorem Dispatched.told {s1 : State} {f : FifoEntry} {late : Bool} {y : OpCtx} (d : Dispatched s1 r p f c late y u) (s : State) :
    Dispatched s1 r p f c late y (u.tellDispatch s) := by
  rw [State.tellDispatch_rest]
  exact ⟨d.ctxs, d.id, d.part, d.ring, d.index, d.entry, d.seq, d.nextSeq, d.status, d.st, d.rings, d.mem, d.reg⟩

section Dispatcher
variable {f : FifoEntry} {l : List FifoEntry} (hf : (s.rings[r]).fifo = f :: l)
include hf

theorem opDispatch_first (hrole : s.role ≠ 2) (hnext : s.dispatchNext = some r) (hc : s.freeCtx (eOp f.bytes) = some c) :
    opDispatch r s = s.dispatchTo r c false false := by
  rw [opDispatch, hf]
  simp only [beq_iff_eq, hrole, if_false, hnext, hc, bne_self_eq_false, Bool.false_eq_true]

end Dispatcher

theorem rPrtOpctxUse_below {o : Nat} (h : 0x200000 ≤ o) : o ≠ rPrtOpctxUse p := by unfold rPrtOpctxUse; omega

end Sys2Proof.Machine

namespace Sys2Proof.Claims
open Machine

/-- Settles O36: a PUSH command fills the entry, enters it, holds the write or drops it, as the ring and its FIFO stand. -/
theorem pushEntry : Obligations.PushEntry := by
  unfold Obligations.PushEntry
  intro s r v src hcanon hrun hpush
  obtain ⟨-, -, hwf⟩ := hcanon
  have hsent : ∀ o, (s.forwardWrite o v).pushMode r = true := fun o => (State.pushMode_forwardWrite ..).trans hpush
  have hring : ∀ o, (s.forwardWrite o v).rings[r] = s.rings[r] := fun o => by simp only [State.forwardWrite_rings]
  refine ⟨fun k hk => ?_, fun hk => ?_, fun k hk => ?_, fun hk hon hheld hroom => ?_, fun hk hon hfull => ?_,
    fun p f l w ws c hheld hf hl hrole hnext hown hc => ?_, fun hi => ?_, ?_, fun hk hoff => ?_⟩
  · exact doorbell_ignored (by simpa using hk)
  · exact doorbell_ignored (by simpa using hk)
  · obtain ⟨t, ht, hn⟩ := doorbell_noted hk (pushWord_push (k := k) (v := v) (hsent _)) (State.forwardWrite_mem ..) hrun
    have htr : t.rings[r] = _ := congrArg (·[r]) hn.rings
    rw [State.ringUpd_self, hring] at htr
    refine ⟨t, ht, fun j => ?_, by rw [htr], ?_⟩
    · rw [htr]
      simp [Vector.getElem_set, eq_comm]
    · rw [hn.mem, State.ringUpd_mem, State.forwardWrite_mem]
  · obtain ⟨t, ht, hn⟩ := doorbell_noted hk (pushCommit_enters (v := v) (hsent _) ((State.ringOn_forwardWrite ..).trans hon) (by rw [hring, hheld])
      (by rw [hring]; exact hroom)) ((State.pushEnter_evalXoff (by rw [State.regsWf, State.forwardWrite_regs]; exact hwf) r v).mem.trans (State.forwardWrite_mem ..)) hrun
    have e := State.pushEnter_evalXoff (s := s.forwardWrite (rPrtPush r 15) v) (by rw [State.regsWf, State.forwardWrite_regs]; exact hwf) r v
    obtain ⟨b, hb⟩ := e.ring
    have htr : t.rings[r] = _ := (congrArg (·[r]) hn.rings).trans hb
    rw [hring, State.reg_forwardWrite, pushBytes_words] at htr
    refine ⟨t, ht, by rw [htr], by rw [htr], ?_, ?_, ?_⟩
    · rw [hn.reg (rPrtSqTail_note r), e.tail, State.reg_forwardWrite]
    · rw [hn.reg (rPrtSqHead_note r), e.head, State.reg_forwardWrite]
    · rw [hn.mem, e.mem, State.forwardWrite_mem]
  · exact doorbell_noted hk (pushCommit_held (hsent _) ((State.ringOn_forwardWrite ..).trans hon) (by rw [hring]; exact hfull))
      (State.forwardWrite_mem ..) hrun
  · obtain ⟨y, d⟩ := State.dispatchTo_dispatched hf hown c false false
    obtain ⟨t, ht, hn⟩ := run_writer (f := fun s => (opDispatch r s).tellDispatch s) hrun hrole
    have d := d.told s
    rw [← opDispatch_first hf hrole hnext hc, State.headTaken_held hheld hl] at d
    have e := State.pushEnter_evalXoff (s := (s.ringUpd r (fun x => { x with fifo := l })).ringUpd r (fun x => { x with pushHeld := ws })) hwf r w
    obtain ⟨b, hb⟩ := e.ring
    have htr : t.rings[r] = _ := (congrArg (·[r]) (hn.rings.trans d.rings)).trans hb
    rw [State.ringUpd_self, State.ringUpd_self, State.reg_ringUpd, State.reg_ringUpd, pushBytes_words] at htr
    refine ⟨t, ht, by rw [htr], by rw [htr], by rw [htr], ?_, ?_⟩
    · rw [hn.reg (rPrtSqTail_note r), d.reg _ (rPrtOpctxUse_below (by unfold rPrtSqTail; omega)), e.tail, State.reg_ringUpd, State.reg_ringUpd]
    · rw [hn.reg (rPrtSqHead_note r), d.reg _ (rPrtOpctxUse_below (by unfold rPrtSqHead; omega)), e.head, State.reg_ringUpd, State.reg_ringUpd]
  · exact doorbell_noted hi (sqDoorbell_push (hsent _)) (State.forwardWrite_mem ..) hrun
  · obtain ⟨b, hb⟩ := s.evalXoff_xoff r
    obtain ⟨t, ht, hn⟩ := run_noted ((sqFetch_push hpush).trans hb) rfl hrun
    have htr : t.rings[r] = _ := congrArg (·[r]) hn.rings
    rw [State.ringUpd_self] at htr
    exact ⟨t, ht, by rw [htr], hn.mem, hn.reg (rPrtSqHead_note r), hn.reg (rPrtSqTail_note r)⟩
  · exact doorbell_noted hk (pushCommit_dropped (hsent _) ((State.ringOn_forwardWrite ..).trans hoff)) (State.forwardWrite_mem ..) hrun

end Sys2Proof.Claims
end

