-- ==== Sys2Proof/Proofs/OpLifecycle.lean ====
section
/-! PROOF. Sys2Proof/Proofs/OpLifecycle.lean: a PARK that becomes ready takes the current park key only while no higher epoch is committed. -/
namespace Sys2Proof.Machine
open Sys2Proof
variable {s : State} {c : Ctx} {x : OpCtx}

/-! ### A queued op that nothing holds (R129) -/

theorem opReady_unheld (hx : s.ctx? c = some x) (hrole : s.role ≠ 2) (hst : x.st = .queued) (hq : s.quiescing x = false) (hc : s.clasped x = false)
    (he : s.exclWaits x = false) (hr : s.reserveWaits x = false) : opReady c s = s.makeReady x := by
  rw [opReady, hx]
  simp [hst, hq, hc, he, hr, hrole]

/-- A PARK takes its terms when it becomes ready (R466, R510, R535). -/
theorem State.makeReady_park (s : State) (hop : eOp x.entry = opPARK) :
    s.makeReady x = s.ctxUpd x.id (fun y => { y with st := .ready, terms := s.parkTerms x.part }) := by
  rw [State.makeReady, hop]
  rfl

/-- A readiness told goes into the mailbox of a primary, which the op does not see (R622). -/
theorem State.tellReady_ctxs (t s : State) (c : Ctx) : (t.tellReady s c).ctxs = t.ctxs := by
  unfold State.tellReady
  split
  · split
    · rw [State.tellOp_rest]
    · rfl
  · rfl

/-- What a command shows of a PARK that becomes ready. -/
theorem opReady_park_shows (hrun : s.running = true) (hx : s.ctx? c = some x) (hrole : s.role ≠ 2) (hst : x.st = .queued)
    (hq : s.quiescing x = false) (hc : s.clasped x = false) (he : s.exclWaits x = false) (hr : s.reserveWaits x = false)
    (hop : eOp x.entry = opPARK) :
    ∃ t, execOpReady c s = .next t ∧ t.ctx? c = some { x with st := .ready, terms := s.parkTerms x.part } := by
  obtain ⟨t, ht, hn⟩ := run_writer (f := fun s => (opReady c s).tellReady s c) hrun hrole
  refine ⟨t, ht, ?_⟩
  have hid := State.ctx?_id hx
  subst hid
  rw [hn.ctx?, State.ctx?, State.tellReady_ctxs, ← State.ctx?, opReady_unheld hx hrole hst hq hc he hr, s.makeReady_park hop]
  refine State.ctx?_ctxUpd hx ?_
  exact fun _ => rfl

/-! ### A partition whose current park key is not of the highest committed epoch -/

namespace StaleParkKey

/-- A PARK of session 0, in context 0 and queued. -/
def op : OpCtx := { id := 0, part := 0, ring := 0, index := 0#32, entry := 0x0B#8 :: List.replicate 63 0#8, seq := 0 }

/-- The COMMIT record of epoch 5 (R534). -/
def commit5 : JRecord := { typ := 6, id := 0x4000000000000005#64 }

/-- Slot A holds a key of epoch 1, which the selector names. -/
def slots : PartState := { slotA := some (.of 1#32 0#512), sel := some false, selCrc := selCrcOf (some false) }

/-- DONE, partition 0 enabled with flash channel 0, which joined with the epoch-5 record in its journal, and those slots. -/
def state : State :=
  { [(rCfgBootStat, 0x80000000#32), (rPrtCfgCtrlMir 0, 0x80000000#32), (rPrtCfgChannelsMir 0, 1#32)].foldl (fun s r => s.setReg r.1 r.2) State.reset with
    chans := vset State.reset.chans 0 (fun x => { x with online := true, journal := [commit5] })
    parts := vset State.reset.parts 0 (fun _ => slots)
    ctxs := [op] }

theorem state_canon : state.canon := by unfold State.canon; decide +kernel
theorem state_running : state.running = true := by decide +kernel
theorem state_role : state.role ≠ 2 := by decide +kernel
theorem state_op : state.ctx? 0 = some op := by decide +kernel
theorem op_code : eOp op.entry = opPARK := by decide
theorem state_topEpoch : state.topEpoch 0 = 5 := by decide +kernel

/-- Nothing holds the op. -/
theorem state_unheld : state.quiescing op = false ∧ state.clasped op = false ∧ state.exclWaits op = false ∧ state.reserveWaits op = false := by
  decide +kernel

theorem state_strands : state.strands = [] := rfl

theorem slots_curSlot : slots.curSlot = some (.of 1#32 0#512) := by
  have hsel : slots.selNow = some false := if_pos (beq_self_eq_true _)
  have hcrc : (KeySlot.of 1#32 0#512).crcOk = true := beq_self_eq_true _
  rw [PartState.curSlot, hsel]
  exact Option.filter_some_pos hcrc

theorem state_curSlot : (state.parts[(0 : Part)]).curSlot = some (.of 1#32 0#512) := slots_curSlot

/-- The current key is not taken: epoch 5 is committed, and the key is of epoch 1. -/
theorem state_parkKey : state.parkKey op.part = none := by
  rw [show op.part = 0 from rfl]
  rw [State.parkKey, state_curSlot, state_topEpoch]
  rfl

end StaleParkKey
end Sys2Proof.Machine

namespace Sys2Proof.Claims
open Machine

/-- Refutes O40: of a PARK that becomes ready the statement says that it takes what the selector names, but it takes that key only while no higher epoch is
committed (R537, `State.parkKey`). In the witness, `StaleParkKey.state`, the selector names a key of epoch 1 and the journal of the partition's
channel commits epoch 5: the PARK gets no key, and the statement gives it one. -/
theorem not_opLifecycle : ¬ Obligations.OpLifecycle := by
  unfold Obligations.OpLifecycle
  intro h
  obtain ⟨-, -, -, -, -, hready, -⟩ := h StaleParkKey.state StaleParkKey.state_canon StaleParkKey.state_running
  obtain ⟨hq, hc, he, hr⟩ := StaleParkKey.state_unheld
  obtain ⟨hgoes, -, -⟩ := hready 0 StaleParkKey.op StaleParkKey.state_role StaleParkKey.state_op rfl
  obtain ⟨-, -, hpark, -⟩ := hgoes hq hc he hr fun sid _ t ht => by simp [State.strand?, StaleParkKey.state_strands] at ht
  obtain ⟨t, ht, hn⟩ := hpark StaleParkKey.op_code
  obtain ⟨t', ht', hx⟩ := opReady_park_shows StaleParkKey.state_running StaleParkKey.state_op StaleParkKey.state_role rfl hq hc he hr StaleParkKey.op_code
  have htt : t = t' := by
    have heq := ht.symm.trans ht'
    injection heq
  have hclaim : t.ctx? 0 = some { StaleParkKey.op with st := .ready, terms := ⟨StaleParkKey.state.warmOnly 0, StaleParkKey.state.rb (rPrtMediaCfg 0) 31,
      (StaleParkKey.state.parts[(0 : Part)]).curSlot⟩ } := by
    rw [hn.ctx?, State.ctx?, State.tellReady_ctxs, ← State.ctx?]
    exact State.ctx?_ctxUpd StaleParkKey.state_op fun _ => rfl
  rw [htt, hx] at hclaim
  have hterms : StaleParkKey.state.parkTerms StaleParkKey.op.part = _ := congrArg OpCtx.terms (Option.some.inj hclaim)
  rw [State.parkTerms, ParkTerms.mk.injEq] at hterms
  obtain ⟨-, -, hkey⟩ := hterms
  rw [StaleParkKey.state_parkKey, StaleParkKey.state_curSlot] at hkey
  exact absurd hkey (by simp)

end Sys2Proof.Claims
end

