-- ==== Sys2Proof/Proofs/ControlOps.lean ====
section
/-! PROOF. Sys2Proof/Proofs/ControlOps.lean: an ABORT that comes in the cycle in which a program's fault ended its target. -/
namespace Sys2Proof.Machine
open Sys2Proof

/-! ### A target that a fault ended in this cycle (R402) -/

namespace FaultedTarget

/-- A SPEC_VERIFY of ring 0 and index 1 that a fault of its program ended with BAD_ENTRY in cycle 0. -/
def target : OpCtx :=
  { id := 0, part := 0, ring := 0, index := 1#32, entry := 0x08#8 :: List.replicate 63 0#8, seq := 0, st := .past, status := some stBadEntry
    faultAt := some 0 }

/-- A ready ABORT of partition 0 that names it. -/
def op : OpCtx :=
  { id := 4096, part := 0, ring := 0, index := 2#32, entry := 0x13#8 :: List.replicate 27 0#8 ++ leBytes 4 1 ++ List.replicate 32 0#8, seq := 1
    st := .ready }

/-- DONE, in cycle 0, with the two ops in their contexts. -/
def state : State := { State.reset.setReg rCfgBootStat 0x80000000#32 with ctxs := [target, op] }

theorem state_canon : state.canon := by unfold State.canon; decide +kernel
theorem state_alone : Claims.Alone state := by unfold Claims.Alone; decide +kernel
theorem state_role : state.role ≠ 2 := by decide +kernel
theorem state_op : Claims.ReadyOp state 4096 opABORT op := by unfold Claims.ReadyOp; decide +kernel
theorem state_target : state.target op.part (abortRing op.entry) (eWord op.entry 28) = some target := by decide +kernel
theorem op_unchecked : (leAt op.entry 25 1).testBit 0 = false := by decide +kernel
theorem target_noControl : isControl (eOp target.entry) = false := by decide +kernel

/-- The ABORT ends with outcome 0: the fault's status stands. -/
theorem abort_outcome : ((abort 4096 state).ctx? 4096).map (·.res1) = some 0#32 := by decide +kernel

end FaultedTarget
end Sys2Proof.Machine

namespace Sys2Proof.Claims
open Machine

/-- Refutes O41: of an ABORT whose target is past its commit point the statement says that it ends with outcome 1, without asking when the target
ended. Where a program's fault ended it in the same cycle, the fault's status stands and the outcome is 0 (R402). The witness is
`FaultedTarget.state`. -/
theorem not_controlOps : ¬ Obligations.ControlOps := by
  unfold Obligations.ControlOps
  intro h
  obtain ⟨hrun, -⟩ := FaultedTarget.state_alone
  obtain ⟨-, -, -, -, -, -, -, habort, -⟩ := h FaultedTarget.state 4096 FaultedTarget.op FaultedTarget.state_canon FaultedTarget.state_alone
  obtain ⟨-, -, hpast⟩ := habort FaultedTarget.target FaultedTarget.state_op FaultedTarget.state_target FaultedTarget.op_unchecked
    FaultedTarget.target_noControl
  obtain ⟨⟨t, ht, hn⟩, -⟩ := hpast rfl
  obtain ⟨t', ht', hn'⟩ := run_writer (f := abort 4096) hrun FaultedTarget.state_role
  have htt : t = t' := by
    have heq := ht.symm.trans ht'
    injection heq
  have hclaim : (t.ctx? 4096).map (·.res1) = some 1#32 := by
    rw [hn.ctx?]
    decide +kernel
  rw [htt, hn'.ctx?, FaultedTarget.abort_outcome] at hclaim
  exact absurd hclaim (by decide)

end Sys2Proof.Claims
end

