-- ==== Sys2Proof/Proofs/Live.lean ====
section
/-! PROOF. Sys2Proof/Proofs/Live.lean: which operations leave every op and every strand as it is, and what the reclaim ladder does to them. -/
namespace Sys2Proof.Machine
open Sys2Proof
variable {s t u : State} {p : Part} {sid : Word} {c : Ctx}

/-- Ops in their contexts, and resident strands. -/
def State.live (s : State) : List OpCtx × List Strand := (s.ctxs, s.strands)

theorem live_ctxs (h : u.live = s.live) : u.ctxs = s.ctxs := congrArg Prod.fst h
theorem live_strands (h : u.live = s.live) : u.strands = s.strands := congrArg Prod.snd h
theorem live_ctx? (h : u.live = s.live) (c : Ctx) : u.ctx? c = s.ctx? c := by rw [State.ctx?, State.ctx?, live_ctxs h]
theorem live_strand? (h : u.live = s.live) (p : Part) (sid : Word) : u.strand? p sid = s.strand? p sid := by
  rw [State.strand?, State.strand?, live_strands h]

/-! ### Operations that leave ops and strands as they are -/

@[simp] theorem State.wrBytes_live (s : State) (a : Nat) (l : List Byte) : (s.wrBytes a l).live = s.live := by simp [State.live]
@[simp] theorem State.wrLE_live (s : State) (a n v : Nat) : (s.wrLE a n v).live = s.live := by simp [State.live]
@[simp] theorem State.partUpd_live (s : State) (p : Part) (f : PartState → PartState) : (s.partUpd p f).live = s.live := rfl
@[simp] theorem State.bump_live (s : State) (o : Nat) : (s.bump o).live = s.live := rfl
@[simp] theorem State.freeBelow_live (s : State) (n : Nat) : (s.freeBelow n).2.live = s.live := rfl
@[simp] theorem State.post_live (s : State) (p : Part) (k : Nat) (d : Dom) (r : Option Ring) (w : Word) (i y : DWord) :
    (s.post p k d r w i y).live = s.live := by simp [State.live]

@[simp] theorem State.tell_live (s : State) (k : Nat) (p : Part) (v : DWord) : (s.tell k p v).live = s.live := by
  rw [State.tell, State.tellOp_rest]
  rfl

theorem State.jAppend_live (s : State) (c : Chan) (r : JRecord) : (s.jAppend c r).live = s.live := rfl
theorem State.jAppendAll_live (s : State) (p : Part) (r : JRecord) : (s.jAppendAll p r).live = s.live := by
  unfold State.jAppendAll
  exact foldl_keep State.live _ (fun _ _ => State.jAppend_live _ _ _) _ _

theorem State.raiseGen_live (s : State) (p : Part) (g : DWord) (b : Bool) : (s.raiseGen p g b).live = s.live := by
  unfold State.raiseGen
  split
  · exact State.jAppendAll_live _ _ _
  · rfl

theorem State.raiseEpoch_live (s : State) (p : Part) (g : DWord) (b : Bool) : (s.raiseEpoch p g b).live = s.live := by
  unfold State.raiseEpoch
  split
  · exact State.jAppendAll_live _ _ _
  · rfl

@[simp] theorem State.nextGen_live (s : State) (p : Part) : (s.nextGen p).2.live = s.live := by
  unfold State.nextGen
  extract_lets n
  split
  · exact State.raiseGen_live _ _ _ _
  · dsimp only
    split
    · exact State.raiseGen_live _ _ _ _
    · rfl

@[simp] theorem State.nextEpoch_live (s : State) (p : Part) : (s.nextEpoch p).2.live = s.live := by
  unfold State.nextEpoch
  extract_lets n
  split
  · exact State.raiseEpoch_live _ _ _ _
  · dsimp only
    split
    · exact State.raiseEpoch_live _ _ _ _
    · rfl

@[simp] theorem State.setAcct_live (s : State) (p : Part) (a : Account) : (s.setAcct p a).live = s.live := by
  unfold State.setAcct
  extract_lets s1
  split
  · exact State.wrBytes_live _ _ _
  · rfl

@[simp] theorem State.charge_live (s : State) (p : Part) (n units : Nat) : (s.charge p n units).live = s.live := by
  unfold State.charge
  extract_lets a
  split
  · exact State.setAcct_live _ _ _
  · rfl

@[simp] theorem State.evalStall_live (s : State) (p : Part) : (s.evalStall p).live = s.live := by
  unfold State.evalStall
  extract_lets
  split
  · exact State.post_live _ _ _ _ _ _ _ _
  · split
    · exact State.post_live _ _ _ _ _ _ _ _
    · rfl

@[simp] theorem State.freePageList_live (s : State) (p : Part) (l : List Nat) : (s.freePageList p l).live = s.live := rfl

theorem State.writeToken_live (s : State) (t : Strand) (k : Nat) : (s.writeToken t k).live = s.live := by
  unfold State.writeToken
  split
  · exact State.wrLE_live _ _ _ _
  · rfl

@[simp] theorem State.writePages_live (s : State) (t : Strand) : (s.writePages t).live = s.live := by
  unfold State.writePages
  extract_lets p inPages s1 s2 side s3 s4 s5 s6 s7
  have h2 : s2.live = s1.live := foldl_keep State.live _ (fun _ _ => State.writeToken_live _ _ _) _ _
  have h4 : s4.live = s3.live := foldl_keep State.live _ (fun _ _ => State.wrLE_live _ _ _ _) _ _
  have h7 : s7.live = s6.live := by
    refine foldl_keep State.live _ (fun _ _ => ?_) _ _
    split
    · exact State.wrBytes_live _ _ _
    · rfl
  calc
    _ = s7.live := by
      refine foldl_keep State.live _ (fun _ _ => ?_) _ _
      split
      · exact State.wrBytes_live _ _ _
      · rfl
    _ = s4.live := by rw [h7, State.wrBytes_live, State.wrBytes_live]
    _ = s1.live := by rw [h4, State.wrBytes_live, h2]
    _ = s.live := State.wrBytes_live _ _ _

theorem State.takePage_live {k : Nat} (e : s.takePage p = some (k, t)) : t.live = s.live := by
  unfold State.takePage at e
  split at e
  · cases e
  · extract_lets n used at e
    split at e
    next k' s1 h =>
      have h1 : s1.live = s.live := (congrArg (fun r => State.live r.2) h).symm
      split at e
      · cases e
        exact h1
      · cases e

theorem State.takePages_live {n : Nat} {l : List Nat} (e : s.takePages p n = some (l, t)) : t.live = s.live := by
  induction n generalizing s l with
  | zero => cases e; rfl
  | succ n ih =>
    unfold State.takePages at e
    split at e
    · cases e
    next e1 =>
      split at e
      · cases e
      next e2 =>
        cases e
        exact (ih e2).trans (State.takePage_live e1)

/-- What neither an event posted nor the object records touch, the freeing of dead versions leaves as it is. -/
theorem State.collect_keep {α : Type} (π : State → α) (hpost : ∀ s p k d r w i y, π (State.post s p k d r w i y) = π s)
    (hobj : ∀ (s : State) a b, π { s with objs := a, objIds := b } = π s) (s : State) : π s.collect = π s := by
  have hfree : ∀ s v, π (State.freeVersion s v) = π s := fun s v => by
    unfold State.freeVersion State.dropId
    split
    · exact (hobj _ _ _).trans ((hpost _ _ _ _ _ _ _ _).trans (hobj s _ s.objIds))
    · exact (hpost _ _ _ _ _ _ _ _).trans (hobj s _ s.objIds)
  have hn : ∀ n s, π (State.collectN n s) = π s := fun n => by
    induction n with
    | zero => exact fun _ => rfl
    | succ n ih =>
      intro s
      unfold State.collectN
      split
      · exact (ih _).trans (hfree _ _)
      · rfl
  exact hn _ s

@[simp] theorem State.collect_live (s : State) : s.collect.live = s.live :=
  State.collect_keep State.live State.post_live (fun _ _ _ => rfl) s

/-! ### A strand committed or released -/

/-- A commit puts the strand in place, and no other strand and no op changes. -/
@[simp] theorem State.commitStrand_live (s : State) (t : Strand) :
    (s.commitStrand t).live = (s.strandUpd t.part t.session (fun _ => t)).live := by
  simp [State.commitStrand, State.writeCommitLine]

theorem State.releaseStrand_live (s : State) (t : Strand) : (s.releaseStrand t).live = (s.strandDel t.part t.session).live := by
  simp [State.releaseStrand]

theorem State.strandDel_live (h : u.live = s.live) (p : Part) (sid : Word) : (u.strandDel p sid).live = (s.strandDel p sid).live := by
  rw [State.live, State.strandDel_ctxs, State.strandDel, live_ctxs h, live_strands h]
  rfl

theorem State.strand?_some {x : Strand} (h : s.strand? p sid = some x) : x.part = p ∧ x.session = sid := by
  simpa using List.find?_some h

/-- A session's strand after an update of the strands of some session. -/
theorem State.strand?_strandUpd (s : State) {q : Part} {k : Word} {f : Strand → Strand}
    (hf : ∀ y : Strand, y.part = q → y.session = k → (f y).part = q ∧ (f y).session = k) (p : Part) (sid : Word) :
    (s.strandUpd q k f).strand? p sid = (s.strand? p sid).map (fun y => if y.part == q && y.session == k then f y else y) := by
  have hid : (fun y : Strand => y.part == p && y.session == sid) ∘ (fun y => if y.part == q && y.session == k then f y else y) =
      fun y => y.part == p && y.session == sid := by
    funext y
    rw [Function.comp_apply]
    split
    next hy =>
      obtain ⟨rfl, rfl⟩ : y.part = q ∧ y.session = k := by simpa using hy
      obtain ⟨h1, h2⟩ := hf y rfl rfl
      simp only [h1, h2]
    · rfl
  rw [State.strand?, State.strandUpd, List.find?_map, hid, State.strand?]

/-- A session's strand after another has been put in its place. -/
theorem State.strand?_put {x y : Strand} (h : s.strand? y.part y.session = some x) :
    (s.strandUpd y.part y.session (fun _ => y)).strand? y.part y.session = some y := by
  obtain ⟨hp, hsid⟩ := State.strand?_some h
  rw [State.strand?_strandUpd s (fun _ _ _ => ⟨rfl, rfl⟩), h]
  simp [hp, hsid]

theorem State.strand?_strandDel (s : State) (p : Part) (sid : Word) : (s.strandDel p sid).strand? p sid = none := by
  rw [State.strand?, State.strandDel, List.find?_filter]
  exact List.find?_eq_none.mpr fun x _ => by cases (x.part == p && x.session == sid) <;> simp

/-! ### The reclaim ladder (R163, R675) -/

/-- Strands have been parked, none of the session `but`; the others and every op are as they were. -/
structure Parked (but : Option Word) (s u : State) : Prop where
  ctxs : u.ctxs = s.ctxs
  strands : ∃ q : Strand → Bool, (∀ x : Strand, some x.session = but → q x = true) ∧ u.strands = s.strands.filter q

variable {but : Option Word}

theorem Parked.of_live (h : u.live = s.live) : Parked but s u := ⟨live_ctxs h, fun _ => true, fun _ _ => rfl, by simp [live_strands h]⟩
theorem Parked.refl (s : State) : Parked but s s := .of_live rfl

theorem Parked.trans (h : Parked but s t) (h' : Parked but t u) : Parked but s u := by
  obtain ⟨hc, q, hq, hs⟩ := h
  obtain ⟨hc', q', hq', hs'⟩ := h'
  refine ⟨hc'.trans hc, fun x => q x && q' x, fun x hx => ?_, ?_⟩
  · dsimp only
    rw [hq x hx, hq' x hx, Bool.and_self]
  · rw [hs', hs, List.filter_filter]
    exact List.filter_congr fun x _ => Bool.and_comm _ _

theorem Parked.ctx? (h : Parked but s u) (c : Ctx) : u.ctx? c = s.ctx? c := by rw [State.ctx?, State.ctx?, h.ctxs]

/-- What is not resident stays so. -/
theorem Parked.strand?_none (h : Parked but s u) (hn : s.strand? p sid = none) : u.strand? p sid = none := by
  obtain ⟨q, -, hs⟩ := h.strands
  rw [State.strand?, List.find?_eq_none] at hn ⊢
  exact fun x hx => hn x (List.mem_of_mem_filter (hs ▸ hx))

/-- The strand that is no candidate stays. -/
theorem Parked.strand?_but (h : Parked (some sid) s u) (p : Part) : u.strand? p sid = s.strand? p sid := by
  obtain ⟨q, hq, hs⟩ := h.strands
  rw [State.strand?, State.strand?, hs, List.find?_filter]
  congr 1
  funext x
  cases hx : (x.part == p && x.session == sid)
  · simp
  · rw [hq x (by simp_all)]
    rfl

theorem State.warmAlloc_live {taken : List (Nat × Nat)} {n a : Nat} (e : s.warmAlloc taken n = some (a, t)) : t.live = s.live := by
  unfold State.warmAlloc at e
  extract_lets base stop ex cand at e
  obtain ⟨b, -, hb⟩ := Option.map_eq_some_iff.mp e
  cases hb
  rfl

theorem State.warmPlaces_live {len n : Nat} {taken : List (Nat × Nat)} {l : List Nat} (e : s.warmPlaces len n taken = some (l, t)) :
    t.live = s.live := by
  induction n generalizing s taken with
  | zero => cases e; rfl
  | succ n ih =>
    unfold State.warmPlaces at e
    split at e
    next e1 => exact (ih e).trans (State.warmAlloc_live e1)
    · cases e

/-- A park that ends releases its strand. -/
theorem State.storePark_live {x : Strand} {pin cold : Bool} {k : ParkTerms} {id : DWord} {len : Nat}
    (e : s.storePark x pin cold k = .done id len u) : u.live = (s.strandDel x.part x.session).live := by
  unfold State.storePark at e
  extract_lets p body len' n full at e
  split at e
  · cases e
  · have hf : full ≠ .done id len u := by
      unfold full
      split <;> nofun
    split at e
    · exact absurd e hf
    · split at e
      · exact absurd e hf
      next s1 e1 =>
        split at e
        rename_i s2 e2
        have h2 : s2.live = s.live := (congrArg (fun r => State.live r.2) e2).symm.trans ((State.nextGen_live _ _).trans (State.warmPlaces_live e1))
        extract_lets id' img s3 l s4 at e
        have h3 : s3.live = s2.live := foldl_keep State.live _ (fun _ _ => State.wrBytes_live _ _ _) _ _
        have h4 : (s4.addLocket l).live = s.live := h3.trans h2
        obtain ⟨-, -, hu⟩ := ParkRes.done.inj e
        rw [← hu, State.releaseStrand_live]
        exact State.strandDel_live h4 _ _

theorem State.storePark_parked {x : Strand} {pin cold : Bool} {k : ParkTerms} {id : DWord} {len : Nat}
    (e : s.storePark x pin cold k = .done id len u) (hx : some x.session ≠ but) : Parked but s u := by
  have h := State.storePark_live e
  refine ⟨(live_ctxs h).trans rfl, fun y => !(y.part == x.part && y.session == x.session), fun y hy => ?_, live_strands h⟩
  have hne : y.session ≠ x.session := fun he => hx (he ▸ hy)
  simp [hne]

theorem State.useCandidate_live (s : State) (x : Strand) : (s.useCandidate x).live = s.live := by
  unfold State.useCandidate
  split
  · rfl
  · split <;> rfl

theorem reclaimWalk_parked {stop : State → Bool} {l : List Strand} (hl : ∀ x ∈ l, some x.session ≠ but) : Parked but s (reclaimWalk stop l s) := by
  induction l generalizing s with
  | nil => exact .refl s
  | cons x l ih =>
    have hx := hl x List.mem_cons_self
    have ih := fun s => ih (s := s) (fun y hy => hl y (List.mem_cons_of_mem _ hy))
    unfold reclaimWalk
    split
    · exact .refl s
    · extract_lets s1
      have h1 : Parked but s s1 := .of_live (State.useCandidate_live s x)
      split
      next e =>
        refine h1.trans ((State.storePark_parked e hx).trans (.trans (.of_live ?_) (ih _)))
        rw [State.tell_live, State.tell_live]
      · exact h1.trans (.trans (.of_live (State.partUpd_live _ _ _)) (ih _))
      · exact h1.trans (ih _)

theorem Parked.foldl {α : Type} {f : State → α → State} {l : List α} (h : ∀ s, ∀ a ∈ l, Parked but s (f s a)) (s : State) :
    Parked but s (l.foldl f s) := by
  induction l generalizing s with
  | nil => exact .refl s
  | cons a l ih => exact (h s a List.mem_cons_self).trans (ih (fun s b hb => h s b (List.mem_cons_of_mem _ hb)) _)

/-- Reclaim parks in flight that go on are of the sessions noted. -/
theorem State.retryReclaims_parked (h : ∀ k ∈ (s.parts[p]).reclaims, some k ≠ but) : Parked but s (s.retryReclaims p) := by
  unfold State.retryReclaims
  refine Parked.foldl (fun s k hk => ?_) s
  extract_lets out
  split
  · exact .of_live rfl
  next x hx =>
    split
    next e =>
      refine (State.storePark_parked e ?_).trans (.of_live ?_)
      · rw [(State.strand?_some hx).2]
        exact h k hk
      · rw [State.partUpd_live, State.tell_live]
    · exact .refl s
    · exact .of_live rfl

/-- Rung 2 of the ladder parks no strand of the session that it is walked for (log entry 11). -/
theorem reclaimFor_parked {need : Nat} (h : ∀ k ∈ (s.parts[p]).reclaims, some k ≠ but) : Parked but s (reclaimFor p need but s) := by
  unfold reclaimFor
  extract_lets met cands s1 s2
  have hc : ∀ u n, ∀ x ∈ cands u n, some x.session ≠ but := fun u n x hx => by simpa using (List.mem_filter.mp hx).2
  have h2 : Parked but s s2 := (State.retryReclaims_parked h).trans (reclaimWalk_parked (hc _ _))
  split
  · exact h2
  · exact h2.trans (reclaimWalk_parked (hc _ _))

theorem reclaimFor_none_parked {need : Nat} : Parked none s (reclaimFor p need none s) := reclaimFor_parked fun _ _ => nofun

/-- Pages taken for a strand whose reclaim park is not in flight leave it resident. -/
theorem State.stepPages_parked {n : Nat} (h : sid ∉ (s.parts[p]).reclaims) : Parked (some sid) s (s.stepPages p sid n).2 := by
  have hr : ∀ k ∈ (s.parts[p]).reclaims, some k ≠ some sid := fun k hk he => h (Option.some.inj he ▸ hk)
  unfold State.stepPages
  split
  · exact .refl s
  · extract_lets need s1
    have h1 : Parked (some sid) s s1 := by
      unfold s1
      split
      · exact reclaimFor_parked hr
      · exact .refl s
    split
    · exact h1
    · split
      next e => exact h1.trans (.of_live (State.takePages_live e))
      · exact h1

end Sys2Proof.Machine
end

