-- ==== Sys2Proof/Proofs/Sessions.lean ====
section
/-! PROOF. Sys2Proof/Proofs/Sessions.lean: SESSION_OPEN, SESSION_CLOSE and ROLLBACK. -/
namespace Sys2Proof.Machine
open Sys2Proof
variable {s t u : State} {p : Part} {sid : Word} {c : Ctx} {x : OpCtx}

/-! ### The ends of an op -/

/-- The work of an op of a member in no pair is done at once. -/
theorem gated_alone (hp : s.paired = false) (hl : s.pair.parts = []) (cmd : Instr) (f : State → State) : gated cmd f s = f s := by
  simp [gated, hp, hl]

theorem State.ctx?_endOk {y : OpCtx} (h : u.ctx? c = some y) (r0 : DWord) (r1 : Word) :
    (u.endOk c r0 r1).ctx? c = some { y with st := .past, status := some stOk, res0 := r0, res1 := r1 } :=
  State.ctx?_ctxUpd h fun _ => rfl

theorem State.strand?_endOk (u : State) (c : Ctx) (r0 : DWord) (r1 : Word) (p : Part) (sid : Word) :
    (u.endOk c r0 r1).strand? p sid = u.strand? p sid := rfl
theorem State.locket?_endOk (u : State) (c : Ctx) (r0 : DWord) (r1 : Word) (p : Part) (sid : Word) :
    (u.endOk c r0 r1).locket? p sid = u.locket? p sid := rfl

theorem State.readyOp_of {op : Nat} (h : s.ctx? c = some x) (hop : eOp x.entry = op) (hst : x.st = .ready) : s.readyOp c op = some x := by
  simp [State.readyOp, h, hop, hst]

/-! ### A strand sealed (R24, R26, R308) -/

theorem State.strandUpd_live (h : u.live = s.live) (p : Part) (sid : Word) (f : Strand → Strand) :
    (u.strandUpd p sid f).live = (s.strandUpd p sid f).live := by
  rw [State.live, State.strandUpd_ctxs, State.strandUpd, live_ctxs h, live_strands h]
  rfl

/-- The strand that a commit of `t` for `units` puts in place. -/
def State.sealed (s : State) (t : Strand) (units : Nat) : Strand :=
  { t with side := !t.side, lastStep := ((s.nextEpoch t.part).2.charge t.part t.account units).point t.domain
           charged := t.charged + units, epoch := (s.nextEpoch t.part).1, ra := none, raDue := true }

theorem State.sealCommit_live (s : State) (t : Strand) (units : Nat) :
    (s.sealCommit t units).live = (s.strandUpd t.part t.session (fun _ => s.sealed t units)).live := by
  have h := State.nextEpoch_live s t.part
  unfold State.sealCommit State.sealed
  generalize s.nextEpoch t.part = r at h ⊢
  dsimp only
  rw [State.commitStrand_live]
  exact State.strandUpd_live ((State.charge_live _ _ _ _).trans h) _ _ _

theorem State.strand?_sealCommit {t y : Strand} (h : s.strand? t.part t.session = some y) (units : Nat) :
    (s.sealCommit t units).strand? t.part t.session = some (s.sealed t units) := by
  rw [live_strand? (s.sealCommit_live t units)]
  exact State.strand?_put (y := s.sealed t units) h

theorem State.sealCommit_ctxs (s : State) (t : Strand) (units : Nat) : (s.sealCommit t units).ctxs = s.ctxs :=
  (live_ctxs (s.sealCommit_live t units)).trans rfl

/-! ### SESSION_OPEN (R143, R144, R174) -/

theorem State.admitSession_parked {d : Dom} {pages cost slot : Nat} {l : List Nat} (e : s.admitSession p d pages cost = .ok slot l u) :
    Parked none s u := by
  unfold State.admitSession at e
  extract_lets need s1 at e
  have h1 : Parked none s s1 := by
    unfold s1
    split
    · exact reclaimFor_none_parked
    · exact .refl s
  split at e
  · cases e
  · split at e
    next s2 e2 =>
      have h2 : s2.live = s1.live := (congrArg (fun r => State.live r.2) e2).symm
      split at e
      next e3 =>
        cases e
        exact h1.trans (.of_live ((State.takePages_live e3).trans h2))
      · cases e

/-- Page stall comes first (R174). -/
theorem State.admitSession_stalled (h : (s.parts[p]).stall ≠ []) (d : Dom) (pages cost : Nat) :
    s.admitSession p d pages cost = .denied (s.rf (rPrtAdmitCfg p) 16 8) (s.countDenied p 1) := by
  have hs : (s.parts[p]).stall.isEmpty = false := List.isEmpty_eq_false_iff.mpr h
  simp [State.admitSession, State.admitCheck, hs, -Fin.getElem_fin]

/-- The strand that SESSION_OPEN makes, but for its home, side slot, pages and CP state. -/
def OpCtx.newStrand (x : OpCtx) (slot : Nat) (vocab : Bound) (ovl cp hook : Option Bound) : Strand :=
  { part := x.part, session := eSession x.entry, slot := slot, domain := eDom x.entry, home := 0, account := leAt x.entry 32 2 % 4096
    vocab := vocab, cp := cp, ovl := ovl, hook := hook, paramsAddr := BitVec.ofNat 64 (leAt x.entry 40 8)
    params := x.params, bias := x.bias, stops := x.stops }

/-- `w` is that strand with a home, a side slot, pages and a CP state. -/
def OpCtx.Opens (x : OpCtx) (slot : Nat) (vocab : Bound) (ovl cp hook : Option Bound) (w : Strand) : Prop :=
  ∃ home side q pages, w = ({ x.newStrand slot vocab ovl cp hook with home := home, side := side, cpState := q } : Strand).givePages pages

variable {slot : Nat} {vocab : Bound} {ovl cp hook : Option Bound}

theorem OpCtx.Opens.names {w : Strand} (h : x.Opens slot vocab ovl cp hook w) : w.part = x.part ∧ w.session = eSession x.entry := by
  obtain ⟨home, side, q, l, rfl⟩ := h
  exact ⟨rfl, rfl⟩

/-- Sealed, it has an empty history and what the entry names, and its run-ahead is to come. -/
theorem OpCtx.Opens.sealed {w : Strand} (h : x.Opens slot vocab ovl cp hook w) (v : State) (units : Nat) :
    (v.sealed w units).hist = [] ∧ (v.sealed w units).promptLen = 0 ∧ (v.sealed w units).steps = 0#40 ∧
    (v.sealed w units).domain = eDom x.entry ∧ (v.sealed w units).vocab = vocab ∧ (v.sealed w units).ovl = ovl ∧
    (v.sealed w units).cp = cp ∧ (v.sealed w units).hook = hook ∧ (v.sealed w units).params = x.params ∧ (v.sealed w units).slot = slot ∧
    (v.sealed w units).account = leAt x.entry 32 2 % 4096 ∧ (v.sealed w units).raDue = true := by
  obtain ⟨home, side, q, l, rfl⟩ := h
  exact ⟨rfl, rfl, rfl, rfl, rfl, rfl, rfl, rfl, rfl, rfl, rfl, rfl⟩

theorem sessionOpen_admitted {l : List Nat} (hr : s.readyOp c opSESSION_OPEN = some x) (hid : s.idTaken x.part (eSession x.entry) = none)
    (hb : x.openBinds = (some vocab, ovl, cp, hook))
    (ha : s.admitSession x.part (eDom x.entry) (admitPages x.bias.length cp.isSome 0 0)
      (s.stepCost x.part cp hook (match s.voc x.part vocab ovl with | some v => v.size | none => 0)) = .ok slot l u) :
    ∃ (v : State) (w : Strand), sessionOpen c s = (v.sealCommit w 0).endOk c 0#64 0#32 ∧ v.ctxs = u.ctxs ∧ v.strands = u.strands ++ [w] ∧
      x.Opens slot vocab ovl cp hook w := by
  unfold sessionOpen
  rw [hr]
  dsimp only
  rw [hid, hb]
  dsimp only
  generalize hg : s.admitSession _ _ _ _ = a
  obtain rfl : a = .ok slot l u := hg.symm.trans ha
  exact ⟨_, _, rfl, rfl, rfl, _, _, _, _, rfl⟩

theorem sessionOpen_stalled (hr : s.readyOp c opSESSION_OPEN = some x) (hid : s.idTaken x.part (eSession x.entry) = none)
    (hb : x.openBinds = (some vocab, ovl, cp, hook)) (h : (s.parts[x.part]).stall ≠ []) :
    sessionOpen c s = (s.countDenied x.part 1).endDenied c (s.rf (rPrtAdmitCfg x.part) 16 8) := by
  unfold sessionOpen
  rw [hr]
  dsimp only
  rw [hid, hb]
  dsimp only
  rw [State.admitSession_stalled h]

theorem sessionOpen_taken {w : Strand} (hr : s.readyOp c opSESSION_OPEN = some x) (hw : s.strand? x.part (eSession x.entry) = some w) :
    sessionOpen c s = s.endWith x stBadEntry := by
  have hid : s.idTaken x.part (eSession x.entry) = some stBadEntry := by simp [State.idTaken, hw]
  unfold sessionOpen
  rw [hr]
  dsimp only
  rw [hid]

/-- An ID that SESSION_OPEN can take names no resident strand. -/
theorem State.strand?_of_free (h : s.idTaken p sid = none) : s.strand? p sid = none := by
  cases hw : s.strand? p sid with
  | none => rfl
  | some w => simp [State.idTaken, hw] at h

/-- PRT_ADMIT_STAT counts a refusal and keeps its reason (R177). -/
theorem State.countDenied_stat (h : s.regsWf = true) {reason : Nat} (hr : reason < 8) :
    (s.countDenied p reason).rf (rPrtAdmitStat p) 0 3 = reason ∧
    (s.countDenied p reason).rf (rPrtAdmitStat p) 8 24 = min (s.rf (rPrtAdmitStat p) 8 24 + 1) 0xFFFFFF := by
  have hw : (s.bumpBy (rPrtAdmitStat p) 8 24 1).regsWf = true := State.setRf_regsWf _ _ _ _ h
  constructor
  · exact (State.rf_setRf hw (by decide)).trans (Nat.mod_eq_of_lt hr)
  · rw [State.countDenied, State.rf_setRf_disj hw (Or.inr (by decide)) (by decide), State.bumpBy, State.rf_setRf h (by decide)]
    exact Nat.mod_eq_of_lt (by omega)

theorem State.countDenied_live (s : State) (p : Part) (reason : Nat) : (s.countDenied p reason).live = s.live := by
  rw [State.live, State.countDenied, State.setRf_ctxs, State.setRf_strands, State.bumpBy_ctxs, State.bumpBy_strands, State.live]

/-! ### SESSION_CLOSE (R101) -/

theorem State.used_congr (h : u.parts = s.parts) (q : Part) : (u.parts[q]).used = (s.parts[q]).used :=
  congrArg (fun ps : Vector PartState 16 => (ps[q]).used) h

theorem State.post_used (q : Part) (s : State) (p : Part) (k : Nat) (d : Dom) (r : Option Ring) (w : Word) (i y : DWord) :
    ((s.post p k d r w i y).parts[q]).used = (s.parts[q]).used := by
  by_cases h : s.evqRoom p
  · have hparts : ∀ (a : Nat) (b : List Byte) (o : Nat) (v : Word), ((s.wrBytes a b).setReg o v).parts = s.parts := fun a b o v =>
      (State.setReg_parts _ _ _).trans (State.wrBytes_parts _ _ _)
    rw [State.post_room h, partUpd_at]
    split
    next hq => subst hq; exact State.used_congr (hparts _ _ _ _) _
    · exact State.used_congr (hparts _ _ _ _) _
  · rw [State.post_lost h]
    exact State.used_congr (State.bump_parts _ _) _

theorem State.evalStall_used (s : State) (p q : Part) : ((s.evalStall p).parts[q]).used = (s.parts[q]).used := by
  have hk : ∀ l, (((s.partUpd p (fun x => { x with stall := l })).parts[q]).used) = (s.parts[q]).used := fun l => by
    rw [partUpd_at]
    split
    next hq => subst hq; rfl
    · rfl
  unfold State.evalStall
  extract_lets
  split
  · exact (State.post_used _ _ _ _ _ _ _ _ _).trans (hk _)
  · split
    · exact (State.post_used _ _ _ _ _ _ _ _ _).trans (hk _)
    · exact hk _

theorem State.collect_used (s : State) (q : Part) : ((s.collect).parts[q]).used = (s.parts[q]).used :=
  State.collect_keep (fun s => (s.parts[q]).used) (State.post_used q) (fun _ _ _ => rfl) s

/-- A strand released gives its pages back (R156). -/
theorem State.releaseStrand_used (s : State) {w : Strand} (hp : w.part = p) : ∀ i ∈ w.pages, i ∉ ((s.releaseStrand w).parts[p]).used := by
  intro i hi
  subst hp
  rw [State.releaseStrand, State.evalStall_used, State.freePageList, State.partUpd_self]
  simp [hi]

theorem State.parksDone_ctx? {y : OpCtx} (h : s.ctx? c = some y) (p : Part) (sid : Word) : ∃ z, (s.parksDone p sid).ctx? c = some z := by
  rw [← Option.isSome_iff_exists, State.ctx?, List.find?_isSome]
  have hm := List.mem_of_find?_eq_some h
  refine ⟨_, List.mem_map_of_mem hm, ?_⟩
  rw [beq_iff_eq, ← State.ctx?_id h]
  split <;> rfl

theorem State.delRecords_ctxs (s : State) (l : Locket) : (s.delRecords l).ctxs = s.ctxs := by
  unfold State.delRecords
  exact foldl_keep (·.ctxs) _ (fun s k => live_ctxs (s.jAppend_live k _)) _ _

theorem State.delRecords_lockets (s : State) (l : Locket) : (s.delRecords l).lockets = s.lockets := by
  unfold State.delRecords
  exact foldl_keep (·.lockets) _ (fun s k => by rw [State.jAppend, State.chanUpd]) _ _

theorem State.collect_lockets (s : State) : s.collect.lockets = s.lockets :=
  State.collect_keep (·.lockets) State.post_lockets (fun _ _ _ => rfl) s

theorem State.locket?_some {l : Locket} (h : s.locket? p sid = some l) : l.part = p ∧ l.session = sid := by
  simpa using List.find?_some h

/-- A locket deleted is gone, and every op is still in its context. -/
theorem State.dropLocket_gone {l : Locket} {y : OpCtx} (h : s.ctx? c = some y) :
    (s.dropLocket l).locket? l.part l.session = none ∧ ∃ z, (s.dropLocket l).ctx? c = some z := by
  unfold State.dropLocket
  extract_lets s1 s2
  constructor
  · rw [State.locket?, State.collect_lockets]
    change List.find? _ (s1.lockets.filter _) = none
    rw [List.find?_filter]
    exact List.find?_eq_none.mpr fun z _ => by cases (z.part == l.part && z.session == l.session) <;> simp
  · have hc : s2.ctx? c = some y := by
      rw [← h, State.ctx?, State.ctx?, ← s.delRecords_ctxs l]
    rw [live_ctx? (State.collect_live _)]
    exact State.parksDone_ctx? hc _ _

theorem sessionClose_resident {w : Strand} (hr : s.readyOp c opSESSION_CLOSE = some x) (hw : s.strand? x.part (eSession x.entry) = some w) :
    sessionClose c s = ((s.releaseStrand w).collect).endOk c 0#64 0#32 := by
  simp [sessionClose, hr, hw]

theorem sessionClose_parked {l : Locket} (hr : s.readyOp c opSESSION_CLOSE = some x) (hw : s.strand? x.part (eSession x.entry) = none)
    (hl : s.locket? x.part (eSession x.entry) = some l) : sessionClose c s = (s.dropLocket l).endOk c 0#64 0#32 := by
  simp [sessionClose, hr, hw, hl]

theorem sessionClose_absent (hr : s.readyOp c opSESSION_CLOSE = some x) (hw : s.strand? x.part (eSession x.entry) = none)
    (hl : s.locket? x.part (eSession x.entry) = none) : sessionClose c s = s.endWith x stBadEntry := by
  simp [sessionClose, hr, hw, hl]

/-! ### What a run-ahead leaves of its strand -/

/-- The ops are `l`, and the strand of the session has the tokens, the steps and the prompt of `v`, and no CP. -/
structure Standing (l : List OpCtx) (p : Part) (sid : Word) (v : Strand) (s : State) : Prop where
  ctxs : s.ctxs = l
  strand : ∃ w, s.strand? p sid = some w ∧ w.hist = v.hist ∧ w.steps = v.steps ∧ w.promptLen = v.promptLen ∧ w.cp = none

variable {l : List OpCtx} {v : Strand}

theorem Standing.of_parked (h : Standing l p sid v s) (hu : Parked (some sid) s u) : Standing l p sid v u :=
  ⟨hu.ctxs.trans h.ctxs, by rw [hu.strand?_but]; exact h.strand⟩

theorem Standing.of_live (h : Standing l p sid v s) (hu : u.live = s.live) : Standing l p sid v u := h.of_parked (.of_live hu)

/-- A change of other fields of some strand. -/
theorem Standing.strandUpd (h : Standing l p sid v s) {q : Part} {k : Word} {f : Strand → Strand}
    (hid : ∀ y : Strand, (f y).part = y.part ∧ (f y).session = y.session)
    (hf : ∀ y : Strand, (f y).hist = y.hist ∧ (f y).steps = y.steps ∧ (f y).promptLen = y.promptLen ∧ (f y).cp = y.cp) :
    Standing l p sid v (s.strandUpd q k f) := by
  obtain ⟨hc, w, hw, h1, h2, h3, h4⟩ := h
  refine ⟨hc, _, by rw [State.strand?_strandUpd s (fun y h1 h2 => ⟨(hid y).1.trans h1, (hid y).2.trans h2⟩), hw]; rfl, ?_⟩
  obtain ⟨f1, f2, f3, f4⟩ := hf w
  dsimp only
  split
  · exact ⟨f1.trans h1, f2.trans h2, f3.trans h3, f4.trans h4⟩
  · exact ⟨h1, h2, h3, h4⟩

theorem Standing.rehomeSession (h : Standing l p sid v s) (k : Option Ctx) : Standing l p sid v (s.rehomeSession p sid k) := by
  obtain ⟨hc, w, hw, hfields⟩ := h
  obtain ⟨rfl, rfl⟩ := State.strand?_some hw
  rw [State.rehomeSession, hw]
  dsimp only
  unfold State.rehomeFor
  split
  · exact ⟨hc, w, hw, hfields⟩
  · extract_lets cs
    split
    next k s1 e =>
      have h1 : s1.live = s.live := (congrArg (fun r => State.live r.2) e).symm
      split
      · exact .of_live ⟨hc, w, hw, hfields⟩ h1
      next home _ =>
        extract_lets y
        refine Standing.of_live (s := s1.strandUpd w.part w.session (fun _ => y)) ⟨(live_ctxs h1).trans hc, y, ?_, hfields⟩
          (State.wrBytes_live _ _ _)
        exact State.strand?_put (y := y) ((live_strand? h1 _ _).trans hw)

theorem State.makeRa_live {w : Strand} (hcp : w.cp = none) (s : State) (mode : CallMode) : (s.makeRa w mode).2.live = s.live := by
  have hb : s.buildMask w mode w.config w.hist.length 0 = ({ record := allRecord }, s) := by simp [State.buildMask, State.cpEnv, hcp]
  rw [State.makeRa, hb]
  rfl

theorem Standing.evictRa (h : Standing l p sid v s) (q : Part) (k : Clu) (need : Nat) (ws : List Strand) :
    Standing l p sid v (evictRa q k need ws s) := by
  induction ws generalizing s with
  | nil => exact h
  | cons w ws ih =>
    unfold Machine.evictRa
    split
    · exact h
    · exact ih (h.strandUpd (fun _ => ⟨rfl, rfl⟩) fun _ => ⟨rfl, rfl, rfl, rfl⟩)

theorem Standing.storeRa (h : Standing l p sid v s) (w : Strand) (r : RunAhead) : Standing l p sid v (s.storeRa w r) := by
  unfold State.storeRa
  extract_lets s1
  have h1 : Standing l p sid v s1 := h.evictRa _ _ _ _
  split
  · exact h1.strandUpd (fun _ => ⟨rfl, rfl⟩) fun _ => ⟨rfl, rfl, rfl, rfl⟩
  · exact h1.strandUpd (fun _ => ⟨rfl, rfl⟩) fun _ => ⟨rfl, rfl, rfl, rfl⟩

/-- A strand without a CP takes no stack pages, and a reclaim park of it is not in flight when a history page is taken for it. -/
theorem Standing.raPages (h : Standing l p sid v s) : Standing l p sid v (s.raPages p sid) := by
  unfold State.raPages
  split
  · exact h
  next hr =>
    have hr : sid ∉ (s.parts[p]).reclaims := by simpa [-Fin.getElem_fin] using hr
    obtain ⟨w, hw, -, -, -, hcp⟩ := h.strand
    have hstack : s.raStackPages p sid = s := by simp [State.raStackPages, hw, hcp]
    rw [hstack, State.raHistPage, hw]
    dsimp only
    split
    · have hp := State.stepPages_parked (n := 1) hr
      split
      next e =>
        rw [e] at hp
        exact (h.of_parked hp).strandUpd (fun _ => ⟨rfl, rfl⟩) fun _ => ⟨rfl, rfl, rfl, rfl⟩
      next e =>
        rw [e] at hp
        exact h.of_parked hp
    · exact h

theorem Standing.runAhead (h : Standing l p sid v s) : Standing l p sid v (runAhead p sid s) := by
  unfold Machine.runAhead
  extract_lets s1
  have h1 : Standing l p sid v s1 := h.rehomeSession none
  obtain ⟨w, hw, -, -, -, hcp⟩ := h1.strand
  rw [hw]
  dsimp only
  split
  · exact h1
  · have h2 : Standing l p sid v (if w.raDue then s1 else s1.bump (rPrtRaCold p)) := by
      split
      · exact h1
      · exact h1.of_live (State.bump_live _ _)
    exact (h2.raPages.of_live (State.makeRa_live hcp _ _)).storeRa _ _

/-! ### ROLLBACK (R141) -/

theorem rollback_absent (hr : s.readyOp c opROLLBACK = some x) (hw : s.strand? x.part (eSession x.entry) = none) :
    rollback c s = s.endWith x stNotResident := by
  simp [rollback, hr, hw]

theorem rollback_outside {w : Strand} (hr : s.readyOp c opROLLBACK = some x) (hw : s.strand? x.part (eSession x.entry) = some w)
    (h : w.hist.length < leAt x.entry 24 4 ∨ leAt x.entry 24 4 < w.promptLen) : rollback c s = s.endWith x stBadEntry := by
  simp [rollback, hr, hw, h]

/-- The state that a rollback of `w` to `n` tokens makes before the run-ahead of the next step. -/
def State.backTo (s : State) (w : Strand) (voc : Voc) (n : Nat) : State :=
  ((s.freePageList w.part (w.histPages.drop ((n + 1023) / 1024) ++ if w.stalled then [] else w.sparePages)).sealCommit
    (s.rolledBack w voc n) 0).rehomeSession w.part w.session none

variable {w : Strand} {voc : Voc} {n : Nat}

theorem rollback_within (hr : s.readyOp c opROLLBACK = some x) (hw : s.strand? x.part (eSession x.entry) = some w)
    (hlo : w.promptLen ≤ leAt x.entry 24 4) (hhi : leAt x.entry 24 4 ≤ w.hist.length) (hv : s.voc x.part w.vocab w.ovl = some voc)
    (hu : u = s.backTo w voc (leAt x.entry 24 4)) :
    ((∀ y, u.strand? x.part w.session = some y → u.raMayRun y = false) → rollback c s = s) ∧
    (∀ y, u.strand? x.part w.session = some y → u.raMayRun y = true →
      rollback c s = (runAhead x.part w.session u).endOk c (BitVec.ofNat 64 (leAt x.entry 24 4)) 0#32) := by
  obtain ⟨hp, -⟩ := State.strand?_some hw
  have hin : ¬(w.hist.length < leAt x.entry 24 4 ∨ leAt x.entry 24 4 < w.promptLen) := by omega
  unfold rollback
  rw [hr]
  dsimp only
  rw [hw]
  dsimp only
  rw [if_neg (by simpa using hin), hv]
  dsimp only
  rw [State.backTo, hp] at hu
  rw [← hu]
  constructor
  · intro h
    split
    next y hy => rw [h y hy, if_neg Bool.false_ne_true]
    · rfl
  · intro y hy hm
    rw [hy]
    exact if_pos hm

/-- After a rollback the strand has its first `n` tokens, and the steps of the others are taken back. -/
theorem State.backTo_standing (hw : s.strand? w.part w.session = some w) (hcp : w.cp = none) :
    Standing s.ctxs w.part w.session (s.rolledBack w voc n) (s.backTo w voc n) := by
  have hseal : ∀ u : State, u.live = s.live →
      Standing s.ctxs w.part w.session (s.rolledBack w voc n) (u.sealCommit (s.rolledBack w voc n) 0) := fun u hu =>
    ⟨(State.sealCommit_ctxs _ _ _).trans (live_ctxs hu), _, State.strand?_sealCommit (t := s.rolledBack w voc n) ((live_strand? hu _ _).trans hw) 0,
      rfl, rfl, rfl, hcp⟩
  exact (hseal _ (State.freePageList_live _ _ _)).rehomeSession none

end Sys2Proof.Machine

namespace Sys2Proof.Claims
open Machine
variable {s u : State} {c : Ctx}

/-- What a command does at once to a member in no pair. -/
theorem Alone.runs (h : Alone s) (f : State → State) : ∃ t, run f s = .next t ∧ Noted (f s) t :=
  run_writer h.1 (State.role_of_unpaired h.2.1)

/-- So the work of an op. -/
theorem Alone.works (h : Alone s) (cmd : Instr) (f : State → State) : ∃ t, run (gated cmd f) s = .next t ∧ Noted (f s) t := by
  obtain ⟨hrun, hp, hl⟩ := h
  rw [← gated_alone hp hl cmd f]
  exact Alone.runs ⟨hrun, hp, hl⟩ _

theorem Noted.endOk {t : State} {y : OpCtx} {r0 : DWord} {r1 : Word} (hn : Noted (u.endOk c r0 r1) t) (h : u.ctx? c = some y) : Ends t c stOk r0 r1 :=
  ⟨_, (hn.ctx? c).trans (State.ctx?_endOk h r0 r1), rfl, rfl, rfl, rfl⟩

theorem rPrtAdmitStat_note (p : Part) : noteReg (rPrtAdmitStat p) = false := by
  revert p; decide

/-- Settles O42: each op against its lemma above; after a rollback the run-ahead may take a page and park strands of other sessions for it, but keeps
the tokens and the steps of its own. -/
theorem sessions : Obligations.Sessions := by
  unfold Obligations.Sessions
  intro s c x hcanon halone p sid n
  refine ⟨?admitted, ?taken, ?denied, ?resident, ?parked, ?absent, ?notResident, ?outside, ?within⟩
  case admitted =>
    intro vocab ovl cp hook slot pages s' ⟨hx, hop, hst⟩ hid hb ha
    obtain ⟨v, w, hopen, hvc, hvs, hw⟩ := sessionOpen_admitted (State.readyOp_of hx hop hst) hid hb ha
    obtain ⟨t, ht, hn⟩ := halone.works (.sessionOpen c) (sessionOpen c)
    rw [hopen] at hn
    have hpark := State.admitSession_parked ha
    have hvx : v.ctx? c = some x := by rw [← hx, ← hpark.ctx? c, State.ctx?, State.ctx?, hvc]
    obtain ⟨hwp, hwsid⟩ := hw.names
    have hin : v.strand? w.part w.session = some w := by
      have hnone := hpark.strand?_none (State.strand?_of_free hid)
      rw [hwp, hwsid, State.strand?, hvs, List.find?_append, ← State.strand?, hnone]
      simp [hwp, hwsid]
    have hsealed := State.strand?_sealCommit hin 0
    rw [hwp, hwsid] at hsealed
    have hends : Ends t c stOk 0#64 0#32 := hn.endOk (y := x) (by rw [← hvx, State.ctx?, State.ctx?, State.sealCommit_ctxs])
    have hresident : t.strand? p sid = some (v.sealed w 0) := by rw [hn.strand?, State.strand?_endOk, hsealed]
    exact ⟨t, _, ht, hends, hresident, hw.sealed v 0⟩
  case taken =>
    intro ⟨hx, hop, hst⟩ hw
    obtain ⟨w, hw⟩ := Option.isSome_iff_exists.mp hw
    obtain ⟨t, ht, hn⟩ := halone.works (.sessionOpen c) (sessionOpen c)
    rw [sessionOpen_taken (State.readyOp_of hx hop hst) hw] at hn
    exact ⟨t, ht, hn⟩
  case denied =>
    intro vocab ovl cp hook ⟨hx, hop, hst⟩ hid hb hstall
    obtain ⟨t, ht, hn⟩ := halone.works (.sessionOpen c) (sessionOpen c)
    rw [sessionOpen_stalled (State.readyOp_of hx hop hst) hid hb hstall] at hn
    obtain ⟨h1, h2⟩ := State.countDenied_stat (p := p) hcanon.2.2 (reason := 1) (by decide)
    have hlive := State.countDenied_live s p 1
    refine ⟨t, ht, ⟨_, (hn.ctx? c).trans (State.ctx?_ctxUpd ((live_ctx? hlive c).trans hx) ?_), rfl, rfl, rfl⟩, ?_, ?_, ?_⟩
    · exact fun _ => rfl
    · exact (State.rf_of_reg (hn.2 _ (rPrtAdmitStat_note p)) 0 3).trans h1
    · exact (State.rf_of_reg (hn.2 _ (rPrtAdmitStat_note p)) 8 24).trans h2
    · exact hn.strands.trans ((State.ctxUpd_strands _ _ _).trans (live_strands hlive))
  case resident =>
    intro u ⟨hx, hop, hst⟩ hu
    obtain ⟨t, ht, hn⟩ := halone.works (.sessionClose c) (sessionClose c)
    rw [sessionClose_resident (State.readyOp_of hx hop hst) hu] at hn
    obtain ⟨hp, hsid⟩ := State.strand?_some hu
    have hlive := (State.collect_live (s.releaseStrand u)).trans (s.releaseStrand_live u)
    refine ⟨t, ht, hn.endOk ((live_ctx? hlive c).trans hx), ?_, fun i hi => ?_⟩
    · refine (hn.strand? p sid).trans ((State.strand?_endOk _ _ _ _ _ _).trans ((live_strand? hlive p sid).trans ?_))
      rw [hp, hsid]
      exact s.strand?_strandDel p sid
    · rw [State.used_congr (hn.parts.trans (State.ctxUpd_parts _ _ _)), State.collect_used]
      exact s.releaseStrand_used hp i hi
  case parked =>
    intro l ⟨hx, hop, hst⟩ hw hl
    obtain ⟨t, ht, hn⟩ := halone.works (.sessionClose c) (sessionClose c)
    rw [sessionClose_parked (State.readyOp_of hx hop hst) hw hl] at hn
    obtain ⟨hp, hsid⟩ := State.locket?_some hl
    obtain ⟨hgone, z, hz⟩ := State.dropLocket_gone (l := l) hx
    rw [hp, hsid] at hgone
    exact ⟨t, ht, hn.endOk hz, (hn.locket? p sid).trans ((State.locket?_endOk _ _ _ _ _ _).trans hgone)⟩
  case absent =>
    intro ⟨hx, hop, hst⟩ hw hl
    obtain ⟨t, ht, hn⟩ := halone.works (.sessionClose c) (sessionClose c)
    rw [sessionClose_absent (State.readyOp_of hx hop hst) hw hl] at hn
    exact ⟨t, ht, hn⟩
  case notResident =>
    intro ⟨hx, hop, hst⟩ hw
    obtain ⟨t, ht, hn⟩ := halone.works (.rollback c) (rollback c)
    rw [rollback_absent (State.readyOp_of hx hop hst) hw] at hn
    exact ⟨t, ht, hn⟩
  case outside =>
    intro u ⟨hx, hop, hst⟩ hu hout
    obtain ⟨t, ht, hn⟩ := halone.works (.rollback c) (rollback c)
    rw [rollback_outside (State.readyOp_of hx hop hst) hu hout] at hn
    exact ⟨t, ht, hn⟩
  case within =>
    intro u voc ⟨hx, hop, hst⟩ hu hlo hhi hv back
    obtain ⟨hp, hsid⟩ := State.strand?_some hu
    have hback : back = s.backTo u voc n := by rw [State.backTo, hp]
    obtain ⟨hwaits, hruns⟩ := rollback_within (State.readyOp_of hx hop hst) hu hlo hhi hv hback
    obtain ⟨t, ht, hn⟩ := halone.works (.rollback c) (rollback c)
    constructor
    · intro hno
      rw [hwaits hno] at hn
      exact ⟨t, ht, hn⟩
    · intro ⟨w, hw, hmay⟩ hcp _
      rw [hruns w hw hmay] at hn
      have hbase : Standing s.ctxs p sid (s.rolledBack u voc n) back := by
        have hu' : s.strand? u.part u.session = some u := by rw [hp, hsid]; exact hu
        have h := State.backTo_standing (voc := voc) (n := n) hu' hcp
        rwa [hp, hsid, ← hback] at h
      obtain ⟨hctxs, y, hy, hhist, hsteps, hprompt, -⟩ := hbase.runAhead
      rw [hsid] at hn
      exact ⟨t, y, ht, hn.endOk (by rw [← hx, State.ctx?, State.ctx?, hctxs]), (hn.strand? p sid).trans ((State.strand?_endOk _ _ _ _ _ _).trans hy), hhist, hsteps, hprompt⟩

end Sys2Proof.Claims
end

