-- ==== Sys2Proof/Proofs/Encode.lean ====
section
/-! PROOF. Sys2Proof/Proofs/Encode.lean: encode units, ENCODE and ENCODE_APPEND. -/
namespace Sys2Proof.Machine
open Sys2Proof
variable {s t u : State} {p : Part} {c : Ctx} {x : OpCtx}

/-! ### Fields of an entry and bytes in memory -/

theorem leNat_lt (l : List Byte) : leNat l < 256 ^ l.length := by
  induction l with
  | nil => exact Nat.one_pos
  | cons b l ih =>
    have hb := b.isLt
    simp only [leNat, List.length_cons, Nat.pow_succ]
    omega

theorem leAt_lt (e : List Byte) (o n : Nat) : leAt e o n < 256 ^ n :=
  (leNat_lt _).trans_le (Nat.pow_le_pow_right (by decide) (List.length_take_le _ _))

/-- Bytes stay where another run of bytes is written. -/
theorem State.holds.wrBytes {a b : Nat} {l m : List Byte} (h : s.holds a l) (hwf : s.memWf = true)
    (hd : a + l.length ≤ b ∨ b + m.length ≤ a) (ha : a + l.length ≤ 2 ^ 64) (hb : b + m.length ≤ 2 ^ 64) : (s.wrBytes b m).holds a l := by
  have hout : ∀ i < l.length, (s.wrBytes b m).rd8 (a + i) = s.rd8 (a + i) := fun i hi =>
    State.rd8_wrBytes_out m b _ hwf fun j hj => by
      rw [Nat.mod_eq_of_lt (by omega), Nat.mod_eq_of_lt (by omega)]
      omega
  rw [State.holds, State.rdBytes] at h ⊢
  rw [← h]
  simp only [List.length_map, List.length_range]
  exact List.map_congr_left fun i hi => hout i (List.mem_range.mp hi)

/-- Of a run of records of `k` bytes each one stands in its place. -/
theorem State.holds_flatMap {k : Nat} {a : Nat} {l : List (List Byte)} (hk : ∀ b ∈ l, b.length = k) (h : s.holds a (l.flatMap id)) (i : Nat)
    (hi : i < l.length) : s.holds (a + k * i) l[i] := by
  induction l generalizing a i with
  | nil => simp at hi
  | cons b l ih =>
    rw [List.flatMap_cons, State.holds_append] at h
    obtain ⟨h0, h1⟩ := h
    cases i with
    | zero => exact h0
    | succ i =>
      have hb : (id b).length = k := hk b List.mem_cons_self
      rw [hb] at h1
      rw [Nat.mul_succ, Nat.add_comm (k * i), ← Nat.add_assoc]
      exact ih (fun b hb => hk b (List.mem_cons_of_mem _ hb)) h1 i (by simpa using hi)

theorem flatMap_length_of {α : Type} {k : Nat} {f : α → List Byte} (hk : ∀ a, (f a).length = k) (l : List α) :
    (l.flatMap f).length = k * l.length := by
  induction l with
  | nil => rfl
  | cons a l ih => simp [List.flatMap_cons, hk, ih, Nat.mul_succ, Nat.add_comm]

/-! ### Encode units (R226) -/

@[simp] theorem State.setThread_live (s : State) (m : Thread) (b : BeadThread) : (s.setThread m b).live = s.live := by
  unfold State.setThread
  rfl

@[simp] theorem State.freeUnits_live (s : State) (x : OpCtx) : (s.freeUnits x).live = s.live := by
  unfold State.freeUnits
  exact foldl_keep State.live _ (fun _ _ => State.setThread_live _ _ _) _ _

theorem encodeUnitIssue_full (h : s.encSlots p ≤ (s.unitThreads p).length) : encodeUnitIssue p s = s := if_pos h

/-- A unit that an op would issue is a segment of it. -/
theorem OpCtx.nextUnit_segs {k : Nat} (h : x.nextUnit = some k) : ∃ l, x.segs = some l ∧ k < l.length := by
  unfold OpCtx.nextUnit at h
  extract_lets l n at h
  split at h
  · cases h
  · obtain ⟨hk, -⟩ := List.findIdx?_eq_some_iff_getElem.mp h
    have hk : k < l.length := hk.trans_le (List.length_take_le' _ _)
    cases hs : x.segs with
    | none => simp [l, hs] at hk
    | some l' => exact ⟨l', rfl, by simpa [l, hs] using hk⟩

/-- A unit issued: the op's segment runs on a free bead, and the op is the partition's last to have issued. -/
theorem encodeUnitIssue_free {k : Nat} (hroom : (s.unitThreads p).length < s.encSlots p) (hx : s.unitOp p = some x) (hk : x.nextUnit = some k)
    (hm : x.model = none) (hb : s.freeBeads p ≠ []) :
    ∃ (m : Thread) (v : State) (r : List (Fin 16)), (m.clu, m.bead) ∈ s.freeBeads p ∧ v.ctxs = s.ctxs ∧
      encodeUnitIssue p s = v.ctxUpd x.id (fun y => { y with
        lastUnit := (s.parts[p]).encNext + 1, ranOn := y.ranOn ++ r
        segs := y.segs.map (fun l => l.modify k (fun g => { g with st := .running m })) }) := by
  obtain ⟨kb, s1, hs1⟩ : ∃ kb s1, s.freeBelow (max 1 (s.freeBeads p).length) = (kb, s1) := ⟨_, _, rfl⟩
  obtain ⟨th, s2, hs2⟩ : ∃ th s2, s1.freeBelow 4 = (th, s2) := ⟨_, _, rfl⟩
  have hkb : kb < (s.freeBeads p).length := by
    have hpos := List.length_pos_iff.mpr hb
    have hlt : (s.freeBelow (max 1 (s.freeBeads p).length)).1 < max 1 (s.freeBeads p).length := Nat.mod_lt _ (by omega)
    rw [hs1] at hlt
    simp only at hlt
    omega
  have h1 : s1.live = s.live ∧ s1.parts = s.parts := by injection hs1 with _ h; exact h ▸ ⟨rfl, rfl⟩
  have h2 : s2.live = s1.live ∧ s2.parts = s1.parts := by injection hs2 with _ h; exact h ▸ ⟨rfl, rfl⟩
  unfold encodeUnitIssue
  rw [if_neg (Nat.not_le.mpr hroom), hx]
  dsimp only
  rw [hs1]
  dsimp only
  rw [hs2]
  dsimp only
  rw [List.getElem?_eq_getElem hkb, hk, hm, h2.2, h1.2]
  refine ⟨_, s2.partUpd p (fun y => { y with encNext := (s.parts[p]).encNext + 1 }), _, List.getElem_mem hkb, ?_, rfl⟩
  exact live_ctxs (h2.1.trans h1.1)

@[simp] theorem State.bump64_live (s : State) (o n : Nat) : (s.bump64 o n).live = s.live := by simp [State.live]

theorem State.reg64_bump64 (h : s.regsWf = true) (o n : Nat) : (s.bump64 o n).reg64 o = s.reg64 o + BitVec.ofNat 64 n :=
  State.reg64_setReg64 h o _
theorem State.reg_ctxUpd (s : State) (c : Ctx) (f : OpCtx → OpCtx) (o : Nat) : (s.ctxUpd c f).reg o = s.reg o := rfl
theorem State.reg_setThread (s : State) (m : Thread) (b : BeadThread) (o : Nat) : (s.setThread m b).reg o = s.reg o := by
  unfold State.setThread
  rfl

/-- A segment of a list of segments after it has been updated. -/
theorem modify_getElem? {α : Type} {l : List α} {k : Nat} {g : α} (h : l[k]? = some g) (f : α → α) : (l.modify k f)[k]? = some (f g) := by
  rw [List.getElem?_modify_eq, h]
  rfl

/-- An update of a segment of an op. -/
def OpCtx.segUpd (k : Nat) (f : EncSeg → EncSeg) (y : OpCtx) : OpCtx := { y with segs := y.segs.map (fun l => l.modify k f) }

theorem OpCtx.segUpd_id (k : Nat) (f : EncSeg → EncSeg) (y : OpCtx) : (y.segUpd k f).id = y.id := rfl

theorem OpCtx.segUpd_segs {k : Nat} {g : EncSeg} (h : (x.segs.getD [])[k]? = some g) (f : EncSeg → EncSeg) :
    ((x.segUpd k f).segs.getD [])[k]? = some (f g) := by
  rw [OpCtx.segUpd]
  cases hs : x.segs with
  | none => simp [hs] at h
  | some l => exact modify_getElem? (by simpa [hs] using h) f

/-- No fault strikes a segment by an update that keeps its fault. -/
theorem OpCtx.faultSeg_segUpd (h : x.faultSeg = none) (k : Nat) {f : EncSeg → EncSeg} (hf : ∀ g, (f g).fault = g.fault) :
    (x.segUpd k f).faultSeg = none := by
  unfold OpCtx.faultSeg OpCtx.segUpd at *
  rw [List.findIdx?_eq_none_iff] at h ⊢
  cases hs : x.segs with
  | none => simp
  | some l =>
    rw [hs] at h
    intro g hg
    obtain ⟨i, hi, rfl⟩ := List.getElem_of_mem (show g ∈ l.modify k f from hg)
    rw [List.getElem_modify]
    have hi : i < l.length := by simpa using hi
    split
    · rw [hf]
      exact h _ (List.getElem_mem hi)
    · exact h _ (List.getElem_mem hi)

/-- A segment whose unit has ended with these tokens. -/
def EncSeg.tokenised (r : List (Nat × Nat × Bool) × Nat) (g : EncSeg) : EncSeg := { g with st := .ended, toks := r.1, dropped := r.2 }

theorem EncSeg.tokenised_fault (r : List (Nat × Nat × Bool) × Nat) (g : EncSeg) : (g.tokenised r).fault = g.fault := rfl

/-- The unit of an op without a MODEL program ends: its segment is tokenised (R226, R230). -/
theorem encodeUnitEnd_idle {k : Nat} {g : EncSeg} {v : Voc} {m : Thread} (hx : s.ctx? c = some x) (hm : x.model = none) (hf : x.faultSeg = none)
    (hg : (x.segs.getD [])[k]? = some g) (hv : s.encVoc x = some v) (hrun : g.st = .running m) (hidle : (s.thread m).st = .idle)
    (hjob : (s.thread m).job = none) :
    encodeUnitEnd c k s = ((s.setThread m {}).bump64 (rPrtEncBytes x.part) (g.stop - g.start)).ctxUpd c (.segUpd k (.tokenised (segTokens v false g.pieces []))) := by
  have hend : s.endUnit c k = ((s.setThread m {}).bump64 (rPrtEncBytes x.part) (g.stop - g.start)).ctxUpd c (.segUpd k (.tokenised (segTokens v false g.pieces []))) := by
    unfold State.endUnit
    rw [hx]
    dsimp only
    rw [hg, hv]
    dsimp only
    rw [hrun]
    simp only [hm, Option.isSome_none, Bool.false_and, Bool.false_eq_true, if_false, hidle, hjob]
    rfl
  have hx' : ((s.setThread m {}).bump64 (rPrtEncBytes x.part) (g.stop - g.start)).ctx? c = some x :=
    (live_ctx? ((State.bump64_live _ _ _).trans (State.setThread_live _ _ _)) c).trans hx
  rw [encodeUnitEnd, hend, State.unitFault, State.ctx?_ctxUpd hx' (OpCtx.segUpd_id _ _), Option.bind_some,
    OpCtx.faultSeg_segUpd hf k (EncSeg.tokenised_fault _)]

/-! ### ENCODE (R235 to R237) -/

theorem State.spoil_live (s : State) (a n : Nat) : (s.spoil a n).live = s.live := by simp [State.live]

/-- An ENCODE that ends without its whole output has its final status. -/
theorem State.encodeFail_ends (hx : s.ctx? x.id = some x) (st : BitVec 8) (b : Bool) :
    ∃ y, (s.encodeFail x st b).ctx? x.id = some y ∧ y.st = .past ∧ y.status = some st := by
  unfold State.encodeFail
  extract_lets e out
  split
  split
  split
  next s1 h1 =>
    have h1 : s1.live = s.live := (congrArg (fun r => State.live r.2) h1).symm
    extract_lets
    refine ⟨_, State.ctx?_ctxUpd (x := x) ?_ (fun _ => rfl), rfl, rfl⟩
    rw [live_ctx? (s := s), hx]
    rw [State.wrBytes_live, State.wrBytes_live, State.freeUnits_live, State.spoil_live, h1]

theorem le_up64 (n : Nat) : n ≤ up64 n := by
  unfold up64
  omega

/-- The tokens of ended segments, in order. -/
def segToks (l : List EncSeg) : List Nat := l.flatMap (fun g => g.toks.map (·.1))

theorem segToks_eq (l : List EncSeg) : (l.flatMap (·.toks)).map (·.1) = segToks l := List.map_flatMap

/-- A unit that has not ended holds its ENCODE. -/
theorem encode_waits {l : List EncSeg} (hx : s.ctx? c = some x) (hl : x.segs = some l) (hf : x.encFault = none) (h : ∃ g ∈ l, g.st ≠ .ended) :
    encode c s = s := by
  have hany : l.any (fun g => g.st != .ended) = true := by simpa using h
  unfold encode
  rw [hx]
  dsimp only
  rw [hl]
  split
  next v hl' _ => 
    cases hl'
    exact if_pos (by simp [hf, hany])
  · rfl

theorem encodeAppend_waits {l : List EncSeg} (hx : s.ctx? c = some x) (hl : x.segs = some l) (hf : x.encFault = none)
    (h : ∃ g ∈ l, g.st ≠ .ended) : encodeAppend c s = s := by
  have hany : l.any (fun g => g.st != .ended) = true := by simpa using h
  unfold encodeAppend
  rw [hx]
  dsimp only
  rw [hl]
  split
  next v hl' _ => 
    cases hl'
    exact if_pos (by simp [hf, hany])
  · rfl

/-- The parts of an ENCODE header that tell the tokens, the bytes of the input and how the op ended (R236). -/
def HeaderRow (toks bytes flags : Nat) (hdr : List Byte) : Prop :=
  ∃ mid tail : List Byte, mid.length = 48 ∧ tail.length = 7 ∧
    hdr = leBytes 4 toks ++ (leBytes 4 bytes ++ (mid ++ (leBytes 1 flags ++ tail)))

theorem encHeader_row {toks bytes segs total forced dropped packOff rows seqs chunkOff chunks hashOff blocks handleOff flags block : Nat} :
    HeaderRow toks bytes flags
      (encHeader toks bytes segs total forced dropped packOff rows seqs chunkOff chunks hashOff blocks handleOff flags block) := by
  refine ⟨leBytes 4 segs ++ leBytes 4 total ++ leBytes 4 forced ++ leBytes 4 dropped ++ leBytes 4 packOff ++ leBytes 4 rows ++ leBytes 4 seqs ++
    leBytes 4 chunkOff ++ leBytes 4 chunks ++ leBytes 4 hashOff ++ leBytes 4 blocks ++ leBytes 4 handleOff, leBytes 1 block ++ leBytes 6 0, ?_, ?_, ?_⟩
  · simp
  · simp
  · simp only [encHeader, List.append_assoc]

theorem HeaderRow.length {toks bytes flags : Nat} {hdr : List Byte} (h : HeaderRow toks bytes flags hdr) : hdr.length = 64 := by
  obtain ⟨mid, tail, hm, ht, rfl⟩ := h
  simp [hm, ht]

/-- A header in memory reads as its row. -/
theorem HeaderRow.reads {toks bytes flags a : Nat} {hdr : List Byte} (h : HeaderRow toks bytes flags hdr) (hs : s.holds a hdr)
    (ht : toks < 2 ^ 32) (hb : bytes < 2 ^ 32) :
    s.rdLE a 4 = toks ∧ s.rdLE (a + 4) 4 = bytes ∧ s.rd8 (a + 56) = BitVec.ofNat 8 flags := by
  obtain ⟨mid, tail, hm, -, rfl⟩ := h
  simp only [State.holds_append, leBytes_length, hm] at hs
  obtain ⟨h0, h1, -, h2, -⟩ := hs
  exact ⟨h0.rdLE ht, h1.rdLE hb, h2.rd8⟩

theorem areaFlags_off {b : Nat} (h : b % 16 < 2) : b.testBit 1 = false ∧ b.testBit 2 = false ∧ b.testBit 3 = false := by
  simp only [Nat.testBit_eq_decide_div_mod_eq, decide_eq_false_iff_not]
  omega

section Ended
variable {l : List EncSeg} {v : Voc} (hx : s.ctx? c = some x) (hop : eOp x.entry = opENCODE) (hst : x.st = .ready) (hl : x.segs = some l)
  (hv : s.encVoc x = some v) (hf : x.encFault = none) (hend : ∀ g ∈ l, g.st = .ended)
include hx hop hst hl hv hf hend

/-- Without room for the tokens the output does not fit: every area that is asked for lies behind them. -/
theorem encode_noRoom (h : leAt x.entry 48 4 < 64 + 4 * (segToks l).length) : encode c s = s.encodeFail x stAborted true := by
  have hany : l.any (fun g => g.st != .ended) = false := by simpa using hend
  unfold encode
  rw [hx]
  dsimp only
  rw [hl, hv]
  dsimp only
  rw [if_neg (by simp [hop, hst, hf, hany]), hf]
  dsimp only
  rw [segToks_eq]
  refine if_pos (h.trans_le ?_)
  have h64 := le_up64
  split_ifs <;> grind

/-- Without an area asked for, the tokens go behind a header that says COMPLETE. -/
theorem encode_tokens (hflags : leAt x.entry 52 1 % 16 < 2) (h : 64 + 4 * (segToks l).length ≤ leAt x.entry 48 4) :
    ∃ (hdr : List Byte) (r2 : Word), HeaderRow (segToks l).length (leAt x.entry 32 4) 1 hdr ∧
      encode c s = ((s.wrBytes (leAt x.entry 40 8 + 64) ((segToks l).flatMap (leBytes 4))).wrBytes (leAt x.entry 40 8) hdr).ctxUpd c
        (fun y => { y with
          st := .past, status := some stOk, res0 := BitVec.ofNat 64 (leAt x.entry 32 4), res1 := BitVec.ofNat 32 (segToks l).length
          res2 := r2, segs := none }) := by
  have hany : l.any (fun g => g.st != .ended) = false := by simpa using hend
  obtain ⟨h1, h2, h3⟩ := areaFlags_off hflags
  unfold encode
  rw [hx]
  dsimp only
  rw [hl, hv]
  dsimp only
  rw [if_neg (by simp [hop, hst, hf, hany]), hf]
  dsimp only
  simp only [segToks_eq, h1, h2, h3, Bool.false_and, Bool.false_eq_true, if_false]
  rw [if_neg (Nat.not_lt.mpr h)]
  exact ⟨_, _, encHeader_row, rfl⟩
end Ended

/-! ### ENCODE_APPEND (R145, R252) -/

/-- An ENCODE_APPEND that appends nothing has its final status, and every strand is as it was. -/
theorem State.appendFail_ends (hx : s.ctx? x.id = some x) (st : BitVec 8) :
    (∃ y, (s.appendFail x st).ctx? x.id = some y ∧ y.status = some st) ∧ (s.appendFail x st).strands = s.strands := by
  have hlive : ((s.freeUnits x).freePageList x.part x.pages).live = s.live := (State.freePageList_live _ _ _).trans (State.freeUnits_live _ _)
  unfold State.appendFail
  extract_lets hint
  exact ⟨⟨_, State.ctx?_ctxUpd ((live_ctx? hlive _).trans hx) (fun _ => rfl), rfl⟩, (State.ctxUpd_strands _ _ _).trans (live_strands hlive)⟩

/-- The strand `w` with the tokens of its ENCODE_APPEND as its prompt, and the pages that the op took (R252). -/
def State.appended (s : State) (x : OpCtx) (w : Strand) (toks : List Nat) : Strand :=
  let all := w.sparePages ++ x.pages ++ []
  let h := (w.hist.length + toks.length + 1023) / 1024 - w.histPages.length
  { w with
    hist := w.hist ++ toks, promptLen := w.hist.length + toks.length, cpState := s.cpInitial x.part w.cp, stack := [], stackLow := 0
    stream := {}, histPages := w.histPages ++ all.take h, sparePages := all.drop h }

section EndedAppend
variable {l : List EncSeg} {w : Strand} (hx : s.ctx? c = some x) (hop : eOp x.entry = opENCODE_APPEND) (hst : x.st = .ready)
  (hl : x.segs = some l) (hw : s.strand? x.part (eSession x.entry) = some w) (hf : x.encFault = none) (hend : ∀ g ∈ l, g.st = .ended)
include hx hop hst hl hw hf hend

theorem encodeAppend_long (h : 1048576 < w.hist.length + (segToks l).length) : encodeAppend c s = s.appendFail x stBadEntry := by
  have hany : l.any (fun g => g.st != .ended) = false := by simpa using hend
  unfold encodeAppend
  rw [hx]
  dsimp only
  rw [hl, hw]
  dsimp only
  rw [if_neg (by simp [hop, hst, hf, hany]), hf]
  exact if_pos h

theorem encodeAppend_short {s1 : State} (hlen : w.hist.length + (segToks l).length ≤ 1048576)
    (h : s.stepPages x.part w.session (w.appendPages (w.hist.length + (segToks l).length) - x.pages.length) = (none, s1)) :
    encodeAppend c s = s1.appendFail x stAdmitDenied := by
  have hany : l.any (fun g => g.st != .ended) = false := by simpa using hend
  unfold encodeAppend
  rw [hx]
  dsimp only
  rw [hl, hw]
  dsimp only
  rw [if_neg (by simp [hop, hst, hf, hany]), hf]
  dsimp only
  rw [← segToks, if_neg (Nat.not_lt.mpr hlen), h]

theorem encodeAppend_fits (hlen : w.hist.length + (segToks l).length ≤ 1048576)
    (h : w.appendPages (w.hist.length + (segToks l).length) ≤ x.pages.length) :
    ∃ units, encodeAppend c s = (s.sealCommit (s.appended x w (segToks l)) units).ctxUpd c (fun y => { y with
      st := .past, status := some stOk, res0 := BitVec.ofNat 64 (w.hist.length + (segToks l).length)
      res1 := BitVec.ofNat 32 (segToks l).length, segs := none, pages := [] }) := by
  have hany : l.any (fun g => g.st != .ended) = false := by simpa using hend
  have hpages : s.stepPages x.part w.session (w.appendPages (w.hist.length + (segToks l).length) - x.pages.length) = (some [], s) := by
    rw [Nat.sub_eq_zero_of_le h]
    rfl
  unfold encodeAppend
  rw [hx]
  dsimp only
  rw [hl, hw]
  dsimp only
  rw [if_neg (by simp [hop, hst, hf, hany]), hf]
  dsimp only
  rw [← segToks, if_neg (Nat.not_lt.mpr hlen), hpages]
  exact ⟨_, rfl⟩
end EndedAppend

/-- The strand that the commit of an ENCODE_APPEND puts in place. -/
theorem State.sealed_appended (s v : State) (x : OpCtx) (w : Strand) (toks : List Nat) (units : Nat) :
    let u := v.sealed (s.appended x w toks) units
    u.hist = w.hist ++ toks ∧ u.promptLen = w.hist.length + toks.length ∧ u.stack = [] ∧ u.stream = {} ∧ u.steps = w.steps ∧
      u.cpState = s.cpInitial x.part w.cp := ⟨rfl, rfl, rfl, rfl, rfl, rfl⟩

end Sys2Proof.Machine
end

