-- ==== Sys2Proof/Proofs/TextOps.lean ====
section
/-! PROOF. Sys2Proof/Proofs/TextOps.lean: DECODE, PREFILL_CHUNKS and HASH_BLOCKS, and the statement on text in and out. -/
namespace Sys2Proof.Machine
open Sys2Proof
variable {s t u : State} {p : Part} {c : Ctx} {x : OpCtx}

theorem State.strand?_ctxUpd (s : State) (c : Ctx) (f : OpCtx → OpCtx) (p : Part) (sid : Word) : (s.ctxUpd c f).strand? p sid = s.strand? p sid := rfl

/-! ### Work that comes before (R51, R128) -/

theorem decode_waits (hx : s.ctx? c = some x) (h : s.opBefore x = true) : decode c s = s := by
  unfold decode
  rw [hx]
  dsimp only
  split
  · rfl
  · exact if_pos (by simp [h])

theorem prefillChunks_waits (hx : s.ctx? c = some x) (h : s.opBefore x = true) : prefillChunks c s = s := by
  unfold prefillChunks
  rw [hx]
  exact if_pos (by simp [h])

theorem hashBlocks_waits (hx : s.ctx? c = some x) (h : s.opBefore x = true) : hashBlocks c s = s := by
  unfold hashBlocks
  rw [hx]
  dsimp only
  split
  · exact if_pos (by simp [h])
  · rfl

/-! ### DECODE (R272) -/

/-- The text of a DECODE. -/
def State.decoded (s : State) (x : OpCtx) (v : Voc) : List Byte :=
  decodeText v ((leAt x.entry 52 1).testBit 0) (s.rdToks (leAt x.entry 24 8) (leAt x.entry 32 4))

section Decode
variable {v : Voc} (hx : s.ctx? c = some x) (hop : eOp x.entry = opDECODE) (hst : x.st = .ready) (hv : s.encVoc x = some v)
  (hb : s.opBefore x = false)
include hx hop hst hv hb

theorem decode_fits (h : (s.decoded x v).length ≤ leAt x.entry 48 4) :
    decode c s = (s.wrBytes (leAt x.entry 40 8) (s.decoded x v)).endOk c (BitVec.ofNat 64 (s.decoded x v).length)
      (BitVec.ofNat 32 (leAt x.entry 32 4)) := by
  unfold decode
  rw [hx]
  dsimp only
  rw [hv]
  dsimp only
  rw [if_neg (by simp [hop, hst, hb])]
  exact if_neg (Nat.not_lt.mpr h)

theorem decode_noRoom (h : leAt x.entry 48 4 < (s.decoded x v).length) :
    decode c s = (s.spoil (leAt x.entry 40 8) (leAt x.entry 48 4)).ctxUpd c (fun y => { y with st := .past, status := some stAborted }) := by
  unfold decode
  rw [hx]
  dsimp only
  rw [hv]
  dsimp only
  rw [if_neg (by simp [hop, hst, hb])]
  exact if_pos h
end Decode

/-! ### PREFILL_CHUNKS (R243 to R245) -/

/-- Descriptor `i` of `n` tokens at `a` under budget `b` (R244). -/
def chunkDesc (a n b i : Nat) : List Byte :=
  leBytes 4 (i * b) ++ leBytes 4 (min n ((i + 1) * b) - i * b) ++ leBytes 4 i ++ leBytes 1 (if n ≤ (i + 1) * b then 1 else 0) ++ leBytes 3 0 ++
    leBytes 8 (a + 4 * (i * b)) ++ leBytes 8 0

theorem chunkDescs_eq (a n b : Nat) : chunkDescs a n b = (List.range ((n + b - 1) / b)).map (chunkDesc a n b) := rfl
theorem chunkDesc_length (a n b i : Nat) : (chunkDesc a n b i).length = 32 := by simp [chunkDesc]
theorem chunkDescs_count (a n b : Nat) : (chunkDescs a n b).length = (n + b - 1) / b := by simp [chunkDescs_eq]

theorem chunkDescs_size (a n b : Nat) : ((chunkDescs a n b).flatMap id).length = 32 * ((n + b - 1) / b) := by
  rw [chunkDescs_eq, List.flatMap_map]
  exact (flatMap_length_of (chunkDesc_length a n b) _).trans (by rw [List.length_range])

/-- The last descriptor is the one that reaches the end of the list. -/
theorem chunk_last {n b i : Nat} (hb : 0 < b) (hi : i < (n + b - 1) / b) : n ≤ (i + 1) * b ↔ i + 1 = (n + b - 1) / b := by
  have hle : (n + b - 1) / b < i + 2 ↔ n + b - 1 < (i + 2) * b := Nat.div_lt_iff_lt_mul hb
  have hmul : (i + 2) * b = (i + 1) * b + b := by ring
  omega

/-- What a descriptor in memory tells. -/
theorem chunkDesc_reads {a n b i q : Nat} (h : s.holds q (chunkDesc a n b i)) (hb : 0 < b) (hi : i < (n + b - 1) / b) (hn : n < 2 ^ 32)
    (ha : a + 4 * n ≤ 2 ^ 64) :
    s.rdLE q 4 = i * b ∧ s.rdLE (q + 4) 4 = min n ((i + 1) * b) - i * b ∧ s.rdLE (q + 8) 4 = i ∧
      s.rd8 (q + 12) = (if i + 1 = (n + b - 1) / b then 1#8 else 0#8) ∧ s.rdLE (q + 16) 8 = a + 4 * (i * b) := by
  have hib : i * b < n := by
    have hmul : (i + 1) * b ≤ n + b - 1 := (Nat.le_div_iff_mul_le hb).mp hi
    have hs : (i + 1) * b = i * b + b := Nat.succ_mul i b
    omega
  have hii : i ≤ i * b := Nat.le_mul_of_pos_right i hb
  have hmin : min n ((i + 1) * b) ≤ n := Nat.min_le_left _ _
  simp only [chunkDesc, State.holds_append, List.length_append, leBytes_length, chunk_last hb hi] at h
  obtain ⟨⟨⟨⟨⟨⟨h0, h4⟩, h8⟩, h12⟩, -⟩, h16⟩, -⟩ := h
  refine ⟨h0.rdLE (by omega), h4.rdLE (by omega), h8.rdLE (by omega), ?_, h16.rdLE (by omega)⟩
  rw [h12.rd8]
  split <;> rfl

/-- The header of a PREFILL_CHUNKS (R245). -/
def prefillHeader (k n copy : Nat) : List Byte := leBytes 4 k ++ leBytes 4 n ++ leBytes 4 copy ++ leBytes 52 0

theorem prefillHeader_length (k n copy : Nat) : (prefillHeader k n copy).length = 64 := by simp [prefillHeader]

theorem prefillHeader_reads {k n copy q : Nat} (h : s.holds q (prefillHeader k n copy)) (hk : k < 2 ^ 32) (hn : n < 2 ^ 32) :
    s.rdLE q 4 = k ∧ s.rdLE (q + 4) 4 = n := by
  simp only [prefillHeader, State.holds_append, leBytes_length] at h
  obtain ⟨⟨⟨h0, h4⟩, -⟩, -⟩ := h
  exact ⟨h0.rdLE hk, h4.rdLE hn⟩

/-- What a PREFILL_CHUNKS writes: the descriptors and the header. -/
def State.prefilled (s : State) (out : Nat) (descs : List (List Byte)) (n copy : Nat) : State :=
  (s.wrBytes (out + 64) (descs.flatMap id)).wrBytes out (prefillHeader descs.length n copy)

theorem State.prefillOut_ok (s : State) (x : OpCtx) (descs : List (List Byte)) (n copy bytes : Nat) :
    s.prefillOut x descs n copy stOk bytes =
      (s.prefilled (leAt x.entry 40 8) descs n copy).endOk x.id (BitVec.ofNat 64 bytes) (BitVec.ofNat 32 descs.length) := rfl

theorem State.prefilled_live (s : State) (out : Nat) (descs : List (List Byte)) (n copy : Nat) : (s.prefilled out descs n copy).live = s.live :=
  (State.wrBytes_live _ _ _).trans (State.wrBytes_live _ _ _)

/-- The descriptors and the header stand in the output, and what lies behind them stays. -/
theorem State.prefilled_holds (hwf : s.memWf = true) {out n copy : Nat} {descs : List (List Byte)}
    (hroom : out + 64 + (descs.flatMap id).length ≤ 2 ^ 64) :
    (s.prefilled out descs n copy).holds (out + 64) (descs.flatMap id) ∧
    (s.prefilled out descs n copy).holds out (prefillHeader descs.length n copy) ∧
    ∀ q l, s.holds q l → out + 64 + (descs.flatMap id).length ≤ q → q + l.length ≤ 2 ^ 64 → (s.prefilled out descs n copy).holds q l := by
  have hlen := prefillHeader_length descs.length n copy
  have hwf' : (s.wrBytes (out + 64) (descs.flatMap id)).memWf = true := State.wrBytes_memWf _ _ hwf
  refine ⟨?_, State.holds_wrBytes hwf' (by omega), fun q l hl hq hq' => ?_⟩
  · exact (State.holds_wrBytes hwf (by omega)).wrBytes hwf' (by omega) (by omega) (by omega)
  · exact (hl.wrBytes hwf (by omega) (by omega) (by omega)).wrBytes hwf' (by omega) (by omega) (by omega)

section Prefill
variable (hx : s.ctx? c = some x) (hop : eOp x.entry = opPREFILL) (hst : x.st = .ready) (hb : s.opBefore x = false)
include hx hop hst hb

/-- A list of tokens in memory. -/
theorem prefillChunks_list (ha : leAt x.entry 24 8 ≠ 0)
    (h : 64 + 32 * ((leAt x.entry 32 4 + leAt x.entry 36 4 - 1) / leAt x.entry 36 4) ≤ leAt x.entry 48 4) :
    prefillChunks c s = (s.prefilled (leAt x.entry 40 8) (chunkDescs (leAt x.entry 24 8) (leAt x.entry 32 4) (leAt x.entry 36 4))
      (leAt x.entry 32 4) 0).endOk c (BitVec.ofNat 64 (64 + 32 * ((leAt x.entry 32 4 + leAt x.entry 36 4 - 1) / leAt x.entry 36 4)))
        (BitVec.ofNat 32 ((leAt x.entry 32 4 + leAt x.entry 36 4 - 1) / leAt x.entry 36 4)) := by
  have hown : x.ownHist = false := by simp [OpCtx.ownHist, ha]
  have hid := State.ctx?_id hx
  subst hid
  unfold prefillChunks
  rw [hx]
  dsimp only
  rw [if_neg (by simp [hop, hst, hb])]
  simp only [hown, OpCtx.prefillDescs, Bool.false_and, Bool.false_eq_true, if_false, chunkDescs_count]
  rw [if_neg (Nat.not_lt.mpr h), State.prefillOut_ok, chunkDescs_count]

theorem prefillChunks_notResident (ha : leAt x.entry 24 8 = 0) (hh : x.hist = none) :
    prefillChunks c s = s.ctxUpd c (fun y => { y with st := .past, status := some stNotResident }) := by
  unfold prefillChunks
  rw [hx]
  dsimp only
  rw [if_neg (by simp [hop, hst, hb])]
  exact if_pos (by simp [OpCtx.ownHist, ha, hh])

/-- The session's own history, of which a copy follows the descriptors. -/
theorem prefillChunks_own {l : List Nat} (ha : leAt x.entry 24 8 = 0) (hh : x.hist = some l)
    (h : up64 (64 + 32 * ((l.length + leAt x.entry 36 4 - 1) / leAt x.entry 36 4)) + 4 * l.length ≤ leAt x.entry 48 4) :
    ∃ a, prefillChunks c s = ((s.wrBytes (leAt x.entry 40 8 + up64 (64 + 32 * ((l.length + leAt x.entry 36 4 - 1) / leAt x.entry 36 4)))
      (l.flatMap (leBytes 4))).prefilled (leAt x.entry 40 8) (chunkDescs a l.length (leAt x.entry 36 4)) l.length
        (up64 (64 + 32 * ((l.length + leAt x.entry 36 4 - 1) / leAt x.entry 36 4)))).endOk c
          (BitVec.ofNat 64 (up64 (64 + 32 * ((l.length + leAt x.entry 36 4 - 1) / leAt x.entry 36 4)) + 4 * l.length))
          (BitVec.ofNat 32 ((l.length + leAt x.entry 36 4 - 1) / leAt x.entry 36 4)) := by
  have hown : x.ownHist = true := by simp [OpCtx.ownHist, ha]
  have hid := State.ctx?_id hx
  subst hid
  unfold prefillChunks
  rw [hx]
  dsimp only
  rw [if_neg (by simp [hop, hst, hb])]
  simp only [hown, hh, OpCtx.prefillDescs, Option.isNone_some, Option.getD_some, Bool.and_false, Bool.false_eq_true, if_false, if_true]
  rw [if_neg (Nat.not_lt.mpr h), State.prefillOut_ok, chunkDescs_count]
  exact ⟨_, rfl⟩
end Prefill

/-! ### HASH_BLOCKS (R247, R248) -/

theorem hashBlockLen_pos (code : Nat) : 0 < hashBlockLen code := Nat.mul_pos (by decide) (Nat.two_pow_pos _)

/-- The first hash of a chain over at least one whole block. -/
theorem hashChain_first {key root : List Byte} {n f : Nat} {toks : List Nat} (h : n ≤ toks.length) :
    hashChain key n (f + 1) root toks =
      (blake3Keyed key (root ++ leBytes 4 n ++ (toks.take n).flatMap (leBytes 4))).take 16 ::
        hashChain key n f ((blake3Keyed key (root ++ leBytes 4 n ++ (toks.take n).flatMap (leBytes 4))).take 16) (toks.drop n) := by
  rw [hashChain]
  exact if_neg (Nat.not_lt.mpr h)

/-- A chain has a hash for each whole block. -/
theorem hashChain_count {key : List Byte} {n : Nat} (hn : 0 < n) (f : Nat) (root : List Byte) (toks : List Nat) (hf : toks.length ≤ f) :
    (hashChain key n f root toks).length = toks.length / n := by
  induction f generalizing root toks with
  | zero => simp [hashChain, Nat.le_zero.mp hf]
  | succ f ih =>
    by_cases h : toks.length < n
    · rw [hashChain, if_pos h, Nat.div_eq_of_lt h]
      rfl
    · rw [hashChain_first (Nat.not_lt.mp h), List.length_cons, ih _ _ (by rw [List.length_drop]; omega), List.length_drop,
        Nat.div_eq_sub_div hn (Nat.not_lt.mp h)]

theorem hashChain_size (key : List Byte) (n f : Nat) (root : List Byte) (toks : List Nat) :
    ∀ b ∈ hashChain key n f root toks, b.length ≤ 16 := by
  induction f generalizing root toks with
  | zero => simp [hashChain]
  | succ f ih =>
    rw [hashChain]
    split
    · simp
    · intro b hb
      rcases List.mem_cons.mp hb with rfl | hb
      · exact List.length_take_le _ _
      · exact ih _ _ b hb

theorem flatMap_id_le {k : Nat} {l : List (List Byte)} (h : ∀ b ∈ l, b.length ≤ k) : (l.flatMap id).length ≤ k * l.length := by
  induction l with
  | nil => simp
  | cons b l ih =>
    have hb := h b List.mem_cons_self
    have hl := ih fun b hb => h b (List.mem_cons_of_mem _ hb)
    simp only [List.flatMap_cons, id, List.length_append, List.length_cons, Nat.mul_succ] at hl ⊢
    omega

/-- The hashes of a HASH_BLOCKS from the root of all chains. -/
def State.rootHashes (s : State) (x : OpCtx) (k : BitVec 256) : List (List Byte) :=
  blockHashes k (leAt x.entry 36 1 % 4) (List.replicate 16 0#8) (s.rdToks (leAt x.entry 24 8) (leAt x.entry 32 4))

theorem hashBlocks_root {k : BitVec 256} (hx : s.ctx? c = some x) (hop : eOp x.entry = opHASH_BLOCKS) (hst : x.st = .ready)
    (hb : s.opBefore x = false) (hk : x.akey = some k) (hroot : (leAt x.entry 37 1).testBit 0 = false) (htab : x.table = none) :
    hashBlocks c s = (s.wrBytes (leAt x.entry 56 8) ((s.rootHashes x k).flatMap id)).ctxUpd c (fun y => { y with
      st := .past, status := some stOk, res1 := BitVec.ofNat 32 (s.rootHashes x k).length }) := by
  have hhashes : s.opHashes x = some (s.rootHashes x k) := by simp only [State.opHashes, hk, State.hashRoot, hroot]; rfl
  unfold hashBlocks
  rw [hx]
  dsimp only
  rw [hhashes]
  dsimp only
  rw [if_neg (by simp [hop, hst, hb]), htab]
  rfl

end Sys2Proof.Machine

namespace Sys2Proof.Claims
open Machine
variable {s t u : State} {c : Ctx}

theorem rPrtEncBytes_note (p : Part) : noteReg (rPrtEncBytes p) = false ∧ noteReg (rPrtEncBytes p + 4) = false := by
  revert p; decide

theorem Noted.holds {a : Nat} {l : List Byte} (hn : Noted u t) (h : u.holds a l) : t.holds a l := State.holds_congr h hn.mem

/-- What stands in memory after the end of an op reads so. -/
theorem Noted.holds_endOk {a : Nat} {l : List Byte} {r0 : DWord} {r1 : Word} (hn : Noted (u.endOk c r0 r1) t) (h : u.holds a l) : t.holds a l :=
  hn.holds (State.holds_congr h (State.ctxUpd_mem _ _ _))

section Ops
variable {x : OpCtx}

/-- An op's command does what its work makes of the state. -/
theorem Alone.does {cmd : Instr} {f : State → State} (halone : Alone s) (hexec : exec cmd s = run (gated cmd f) s) (hf : f s = u) : Does cmd s u := by
  obtain ⟨t, ht, hn⟩ := halone.works cmd f
  exact ⟨t, hexec.trans ht, hf ▸ hn⟩

/-! ### ENCODE -/

section Encode
variable {l : List EncSeg} {v : Voc} (halone : Alone s) (hready : ReadyOp s c opENCODE x) (hl : x.segs = some l) (hv : s.encVoc x = some v)
  (hf : x.encFault = none) (hend : ∀ g ∈ l, g.st = .ended)
include halone hready hl hv hf hend

theorem encode_written (hcanon : s.canon) (hflags : leAt x.entry 52 1 % 16 < 2) (hfit : 64 + 4 * (segToks l).length ≤ leAt x.entry 48 4)
    (hout : leAt x.entry 40 8 + leAt x.entry 48 4 ≤ 2 ^ 64) :
    ∃ t, exec (.encode c) s = .next t ∧ Ends t c stOk (BitVec.ofNat 64 (leAt x.entry 32 4)) (BitVec.ofNat 32 (segToks l).length) ∧
      t.rdBytes (leAt x.entry 40 8 + 64) (4 * (segToks l).length) = (segToks l).flatMap (leBytes 4) ∧
      t.rdLE (leAt x.entry 40 8) 4 = (segToks l).length ∧ t.rdLE (leAt x.entry 40 8 + 4) 4 = leAt x.entry 32 4 ∧
      t.rd8 (leAt x.entry 40 8 + 56) = 1#8 := by
  obtain ⟨hx, hop, hst⟩ := hready
  obtain ⟨t, ht, hn⟩ := halone.works (.encode c) (encode c)
  obtain ⟨hdr, r2, hrow, hdone⟩ := encode_tokens hx hop hst hl hv hf hend hflags hfit
  rw [hdone] at hn
  have hroom := leAt_lt x.entry 48 4
  have hlen := hrow.length
  have htoks : ((segToks l).flatMap (leBytes 4)).length = 4 * (segToks l).length := flatMap_length_of (fun _ => leBytes_length _ _) _
  have hwf : (s.wrBytes (leAt x.entry 40 8 + 64) ((segToks l).flatMap (leBytes 4))).memWf = true := State.wrBytes_memWf _ _ hcanon.1
  have hbody := (State.holds_wrBytes hcanon.1 (a := leAt x.entry 40 8 + 64) (l := (segToks l).flatMap (leBytes 4)) (by omega)).wrBytes hwf
    (b := leAt x.entry 40 8) (m := hdr) (by omega) (by omega) (by omega)
  have hhead := State.holds_wrBytes hwf (a := leAt x.entry 40 8) (l := hdr) (by omega)
  obtain ⟨h1, h2, h3⟩ := hrow.reads (hn.holds (State.holds_congr hhead (State.ctxUpd_mem _ _ _))) (by omega) (leAt_lt _ _ _)
  have hx' := (live_ctx? ((State.wrBytes_live _ (leAt x.entry 40 8) hdr).trans
    (State.wrBytes_live s (leAt x.entry 40 8 + 64) ((segToks l).flatMap (leBytes 4)))) c).trans hx
  refine ⟨t, ht, ⟨_, (hn.ctx? c).trans (State.ctx?_ctxUpd hx' (fun _ => rfl)), rfl, rfl, rfl, rfl⟩, ?_, h1, h2, h3⟩
  rw [← htoks]
  exact hn.holds (State.holds_congr hbody (State.ctxUpd_mem _ _ _))

theorem encode_aborted (hshort : leAt x.entry 48 4 < 64 + 4 * (segToks l).length) :
    ∃ t y, exec (.encode c) s = .next t ∧ t.ctx? c = some y ∧ y.st = .past ∧ y.status = some stAborted := by
  obtain ⟨hx, hop, hst⟩ := hready
  have hid := State.ctx?_id hx
  obtain ⟨t, ht, hn⟩ := halone.works (.encode c) (encode c)
  rw [encode_noRoom hx hop hst hl hv hf hend hshort] at hn
  obtain ⟨y, hy, hpast, hstatus⟩ := State.encodeFail_ends (x := x) (hid ▸ hx) stAborted true
  rw [hid] at hy
  exact ⟨t, y, ht, (hn.ctx? c).trans hy, hpast, hstatus⟩
end Encode

/-! ### ENCODE_APPEND -/

section Append
variable {l : List EncSeg} {w : Strand} (halone : Alone s) (hready : ReadyOp s c opENCODE_APPEND x) (hl : x.segs = some l)
  (hw : s.strand? x.part (eSession x.entry) = some w) (hf : x.encFault = none) (hend : ∀ g ∈ l, g.st = .ended)
include halone hready hl hw hf hend

theorem append_committed (hlen : w.hist.length + (segToks l).length ≤ 1048576)
    (hpages : (w.hist.length + (segToks l).length + 1023) / 1024 ≤ w.histPages.length + w.sparePages.length + x.pages.length) :
    ∃ t y, exec (.encodeAppend c) s = .next t ∧
      Ends t c stOk (BitVec.ofNat 64 (w.hist.length + (segToks l).length)) (BitVec.ofNat 32 (segToks l).length) ∧
      t.strand? x.part (eSession x.entry) = some y ∧ y.hist = w.hist ++ segToks l ∧ y.promptLen = w.hist.length + (segToks l).length ∧
      y.stack = [] ∧ y.stream = {} ∧ y.steps = w.steps ∧ y.cpState = s.cpInitial x.part w.cp := by
  obtain ⟨hx, hop, hst⟩ := hready
  obtain ⟨hp, hsid⟩ := State.strand?_some hw
  obtain ⟨t, ht, hn⟩ := halone.works (.encodeAppend c) (encodeAppend c)
  obtain ⟨units, hdone⟩ := encodeAppend_fits hx hop hst hl hw hf hend hlen (by unfold Strand.appendPages; omega)
  rw [hdone] at hn
  have hin : s.strand? w.part w.session = some w := by rw [hp, hsid]; exact hw
  have hsealed := State.strand?_sealCommit (t := s.appended x w (segToks l)) hin units
  have hnames : (s.appended x w (segToks l)).part = w.part ∧ (s.appended x w (segToks l)).session = w.session := ⟨rfl, rfl⟩
  rw [hnames.1, hnames.2, hp, hsid] at hsealed
  have hx' : (s.sealCommit (s.appended x w (segToks l)) units).ctx? c = some x := by
    rw [State.ctx?, State.sealCommit_ctxs]
    exact hx
  refine ⟨t, _, ht, ⟨_, (hn.ctx? c).trans (State.ctx?_ctxUpd hx' (fun _ => rfl)), rfl, rfl, rfl, rfl⟩, ?_,
    State.sealed_appended s s x w (segToks l) units⟩
  rw [hn.strand?, State.strand?_ctxUpd, hsealed]

theorem append_tooLong (hlen : 1048576 < w.hist.length + (segToks l).length) :
    ∃ t y, exec (.encodeAppend c) s = .next t ∧ t.ctx? c = some y ∧ y.status = some stBadEntry ∧ t.strands = s.strands := by
  obtain ⟨hx, hop, hst⟩ := hready
  have hid := State.ctx?_id hx
  obtain ⟨t, ht, hn⟩ := halone.works (.encodeAppend c) (encodeAppend c)
  rw [encodeAppend_long hx hop hst hl hw hf hend hlen] at hn
  obtain ⟨⟨y, hy, hstatus⟩, hstrands⟩ := State.appendFail_ends (x := x) (hid ▸ hx) stBadEntry
  rw [hid] at hy
  exact ⟨t, y, ht, (hn.ctx? c).trans hy, hstatus, hn.strands.trans hstrands⟩

theorem append_denied {s1 : State} (hlen : w.hist.length + (segToks l).length ≤ 1048576)
    (hshort : s.stepPages x.part w.session (w.appendPages (w.hist.length + (segToks l).length) - x.pages.length) = (none, s1))
    (hx1 : s1.ctx? c = some x) :
    ∃ t y, exec (.encodeAppend c) s = .next t ∧ t.ctx? c = some y ∧ y.status = some stAdmitDenied ∧ t.strands = s1.strands := by
  obtain ⟨hx, hop, hst⟩ := hready
  have hid := State.ctx?_id hx
  obtain ⟨t, ht, hn⟩ := halone.works (.encodeAppend c) (encodeAppend c)
  rw [encodeAppend_short hx hop hst hl hw hf hend hlen hshort] at hn
  obtain ⟨⟨y, hy, hstatus⟩, hstrands⟩ := State.appendFail_ends (x := x) (hid ▸ hx1) stAdmitDenied
  rw [hid] at hy
  exact ⟨t, y, ht, (hn.ctx? c).trans hy, hstatus, hn.strands.trans hstrands⟩
end Append

/-! ### Units -/

theorem unit_issued {k : Nat} (halone : Alone s) (hslot : (s.unitThreads x.part).length < s.encSlots x.part) (hunit : s.unitOp x.part = some x)
    (hx : s.ctx? x.id = some x) (hk : x.nextUnit = some k) (hm : x.model = none) (hbeads : s.freeBeads x.part ≠ []) :
    ∃ t y m, exec (.encodeUnitIssue x.part) s = .next t ∧ t.ctx? x.id = some y ∧ y.lastUnit = (s.parts[x.part]).encNext + 1 ∧
      ((y.segs.getD [])[k]?.map (·.st)) = some (.running m) ∧ (m.clu, m.bead) ∈ s.freeBeads x.part := by
  obtain ⟨m, v, r, hmem, hctxs, hissue⟩ := encodeUnitIssue_free hslot hunit hk hm hbeads
  obtain ⟨l, hl, hkl⟩ := OpCtx.nextUnit_segs hk
  obtain ⟨t, ht, hn⟩ := halone.runs (encodeUnitIssue x.part)
  rw [hissue] at hn
  have hv : v.ctx? x.id = some x := by rw [State.ctx?, hctxs]; exact hx
  refine ⟨t, _, m, ht, (hn.ctx? _).trans (State.ctx?_ctxUpd hv (fun _ => rfl)), rfl, ?_, hmem⟩
  rw [hl]
  exact congrArg (Option.map (·.st)) (modify_getElem? (List.getElem?_eq_getElem hkl) _)

theorem unit_ended {k : Nat} {g : EncSeg} {v : Voc} {m : Thread} (hcanon : s.canon) (halone : Alone s) (hx : s.ctx? c = some x)
    (hm : x.model = none) (hf : x.faultSeg = none) (hg : (x.segs.getD [])[k]? = some g) (hv : s.encVoc x = some v) (hrun : g.st = .running m)
    (hidle : (s.thread m).st = .idle) (hjob : (s.thread m).job = none) :
    ∃ t y h, exec (.encodeUnitEnd c k) s = .next t ∧ t.ctx? c = some y ∧ (y.segs.getD [])[k]? = some h ∧ h.st = .ended ∧
      (h.toks, h.dropped) = segTokens v false g.pieces [] ∧
      t.reg64 (rPrtEncBytes x.part) = s.reg64 (rPrtEncBytes x.part) + BitVec.ofNat 64 (g.stop - g.start) := by
  obtain ⟨t, ht, hn⟩ := halone.runs (encodeUnitEnd c k)
  rw [encodeUnitEnd_idle hx hm hf hg hv hrun hidle hjob] at hn
  have hx' := (live_ctx? ((State.bump64_live (s.setThread m {}) (rPrtEncBytes x.part) (g.stop - g.start)).trans (State.setThread_live _ _ _)) c).trans hx
  refine ⟨t, _, _, ht, (hn.ctx? c).trans (State.ctx?_ctxUpd hx' (OpCtx.segUpd_id _ _)), OpCtx.segUpd_segs hg _, rfl, rfl, ?_⟩
  obtain ⟨hlo, hhi⟩ := rPrtEncBytes_note x.part
  have hreg : t.reg64 (rPrtEncBytes x.part) =
      ((s.setThread m {}).bump64 (rPrtEncBytes x.part) (g.stop - g.start)).reg64 (rPrtEncBytes x.part) := by
    rw [State.reg64, hn.2 _ hhi, hn.2 _ hlo, State.reg_ctxUpd, State.reg_ctxUpd, State.reg64]
  rw [hreg, State.reg64_bump64 (State.canon.setThread hcanon).2.2, State.reg64, State.reg_setThread, State.reg_setThread, State.reg64]

/-! ### DECODE -/

section Decode
variable {v : Voc} (halone : Alone s) (hready : ReadyOp s c opDECODE x) (hbefore : s.opBefore x = false) (hv : s.encVoc x = some v)
include halone hready hbefore hv

theorem decode_written (hcanon : s.canon) (hfit : (s.decoded x v).length ≤ leAt x.entry 48 4)
    (hout : leAt x.entry 40 8 + (s.decoded x v).length ≤ 2 ^ 64) :
    ∃ t, exec (.decode c) s = .next t ∧ Ends t c stOk (BitVec.ofNat 64 (s.decoded x v).length) (BitVec.ofNat 32 (leAt x.entry 32 4)) ∧
      t.rdBytes (leAt x.entry 40 8) (s.decoded x v).length = s.decoded x v := by
  obtain ⟨hx, hop, hst⟩ := hready
  obtain ⟨t, ht, hn⟩ := halone.works (.decode c) (decode c)
  rw [decode_fits hx hop hst hv hbefore hfit] at hn
  exact ⟨t, ht, hn.endOk ((live_ctx? (State.wrBytes_live _ _ _) c).trans hx), hn.holds_endOk (State.holds_wrBytes hcanon.1 (by omega))⟩

theorem decode_aborted (hshort : leAt x.entry 48 4 < (s.decoded x v).length) :
    ∃ t y, exec (.decode c) s = .next t ∧ t.ctx? c = some y ∧ y.status = some stAborted := by
  obtain ⟨hx, hop, hst⟩ := hready
  obtain ⟨t, ht, hn⟩ := halone.works (.decode c) (decode c)
  rw [decode_noRoom hx hop hst hv hbefore hshort] at hn
  exact ⟨t, _, ht, (hn.ctx? c).trans (State.ctx?_ctxUpd ((live_ctx? (State.spoil_live _ _ _) c).trans hx) (fun _ => rfl)), rfl⟩
end Decode

/-! ### PREFILL_CHUNKS -/

section Prefill
variable (hcanon : s.canon) (halone : Alone s) (hready : ReadyOp s c opPREFILL x) (hbefore : s.opBefore x = false)
include hcanon halone hready hbefore

theorem prefill_list {n b k a out : Nat} (hn' : n = leAt x.entry 32 4) (hb' : b = leAt x.entry 36 4) (hk' : k = (n + b - 1) / b)
    (ha' : a = leAt x.entry 24 8) (hout' : out = leAt x.entry 40 8) (ha : a ≠ 0) (hb : 0 < b) (hfit : 64 + 32 * k ≤ leAt x.entry 48 4)
    (hout : out + leAt x.entry 48 4 ≤ 2 ^ 64) (hlist : a + 4 * n ≤ 2 ^ 64) :
    ∃ t, exec (.prefillChunks c) s = .next t ∧ Ends t c stOk (BitVec.ofNat 64 (64 + 32 * k)) (BitVec.ofNat 32 k) ∧ t.rdLE out 4 = k ∧
      t.rdLE (out + 4) 4 = n ∧ ∀ i < k, t.rdLE (out + 64 + 32 * i) 4 = i * b ∧
        t.rdLE (out + 64 + 32 * i + 4) 4 = min n ((i + 1) * b) - i * b ∧ t.rdLE (out + 64 + 32 * i + 8) 4 = i ∧
        t.rd8 (out + 64 + 32 * i + 12) = (if i + 1 = k then 1#8 else 0#8) ∧ t.rdLE (out + 64 + 32 * i + 16) 8 = a + 4 * (i * b) := by
  subst hn' hb' hk' ha' hout'
  obtain ⟨hx, hop, hst⟩ := hready
  have hnlt := leAt_lt x.entry 32 4
  have hroom := leAt_lt x.entry 48 4
  obtain ⟨t, ht, hn⟩ := halone.works (.prefillChunks c) (prefillChunks c)
  rw [prefillChunks_list hx hop hst hbefore ha hfit] at hn
  have hsize := chunkDescs_size (leAt x.entry 24 8) (leAt x.entry 32 4) (leAt x.entry 36 4)
  have hcount := chunkDescs_count (leAt x.entry 24 8) (leAt x.entry 32 4) (leAt x.entry 36 4)
  obtain ⟨hdescs, hhead, -⟩ := State.prefilled_holds hcanon.1 (n := leAt x.entry 32 4) (copy := 0) (out := leAt x.entry 40 8)
    (descs := chunkDescs (leAt x.entry 24 8) (leAt x.entry 32 4) (leAt x.entry 36 4)) (by omega)
  obtain ⟨h1, h2⟩ := prefillHeader_reads (hn.holds_endOk hhead) (by omega) hnlt
  refine ⟨t, ht, hn.endOk ((live_ctx? (State.prefilled_live _ _ _ _ _) c).trans hx), h1.trans hcount, h2, fun i hi => ?_⟩
  have hrow := State.holds_flatMap (k := 32) (fun d hd => ?_) (hn.holds_endOk hdescs) i (hcount.symm ▸ hi)
  · simp only [chunkDescs_eq, List.getElem_map, List.getElem_range] at hrow
    exact chunkDesc_reads hrow hb hi hnlt hlist
  · obtain ⟨j, -, rfl⟩ := List.mem_map.mp hd
    exact chunkDesc_length _ _ _ _

theorem prefill_own {l : List Nat} {k copy out : Nat} (ha : leAt x.entry 24 8 = 0) (hh : x.hist = some l)
    (hk' : k = (l.length + leAt x.entry 36 4 - 1) / leAt x.entry 36 4) (hcopy' : copy = up64 (64 + 32 * k)) (hout' : out = leAt x.entry 40 8)
    (hfit : copy + 4 * l.length ≤ leAt x.entry 48 4) (hout : out + leAt x.entry 48 4 ≤ 2 ^ 64) :
    ∃ t, exec (.prefillChunks c) s = .next t ∧ Ends t c stOk (BitVec.ofNat 64 (copy + 4 * l.length)) (BitVec.ofNat 32 k) ∧
      t.rdLE out 4 = k ∧ t.rdLE (out + 4) 4 = l.length ∧ t.rdBytes (out + copy) (4 * l.length) = l.flatMap (leBytes 4) := by
  subst hk' hout'
  obtain ⟨hx, hop, hst⟩ := hready
  have hroom := leAt_lt x.entry 48 4
  obtain ⟨t, ht, hn⟩ := halone.works (.prefillChunks c) (prefillChunks c)
  obtain ⟨a, hdone⟩ := prefillChunks_own hx hop hst hbefore ha hh (hcopy' ▸ hfit)
  rw [hdone, ← hcopy'] at hn
  have hcopy : 64 + 32 * ((l.length + leAt x.entry 36 4 - 1) / leAt x.entry 36 4) ≤ copy := hcopy' ▸ le_up64 _
  have hhist : (l.flatMap (leBytes 4)).length = 4 * l.length := flatMap_length_of (fun _ => leBytes_length _ _) _
  have hsize := chunkDescs_size a l.length (leAt x.entry 36 4)
  have hcount := chunkDescs_count a l.length (leAt x.entry 36 4)
  have hwf : (s.wrBytes (leAt x.entry 40 8 + copy) (l.flatMap (leBytes 4))).memWf = true := State.wrBytes_memWf _ _ hcanon.1
  obtain ⟨-, hhead, hrest⟩ := State.prefilled_holds hwf (n := l.length) (copy := copy) (out := leAt x.entry 40 8)
    (descs := chunkDescs a l.length (leAt x.entry 36 4)) (by omega)
  have htail := hrest _ _ (State.holds_wrBytes hcanon.1 (by omega)) (by omega) (by omega)
  obtain ⟨h1, h2⟩ := prefillHeader_reads (hn.holds_endOk hhead) (by omega) (by omega)
  have hx' := (live_ctx? (State.wrBytes_live s (leAt x.entry 40 8 + copy) (l.flatMap (leBytes 4))) c).trans hx
  refine ⟨t, ht, hn.endOk ((live_ctx? (State.prefilled_live _ _ _ _ _) c).trans hx'), h1.trans hcount, h2, ?_⟩
  rw [← hhist]
  exact hn.holds_endOk htail
end Prefill

/-! ### HASH_BLOCKS -/

theorem hash_first {k : BitVec 256} {len : Nat} {toks : List Nat} {first : List Byte} (hcanon : s.canon) (halone : Alone s)
    (hready : ReadyOp s c opHASH_BLOCKS x) (hbefore : s.opBefore x = false) (hk : x.akey = some k)
    (hroot : (leAt x.entry 37 1).testBit 0 = false) (htab : x.table = none) (hlen : len = hashBlockLen (leAt x.entry 36 1 % 4))
    (htoks : toks = s.rdToks (leAt x.entry 24 8) (leAt x.entry 32 4))
    (hfirst : first = (blake3Keyed (prefixKey k) (List.replicate 16 0#8 ++ leBytes 4 len ++ (toks.take len).flatMap (leBytes 4))).take 16)
    (hblock : len ≤ toks.length) (hout : leAt x.entry 56 8 + 16 * toks.length ≤ 2 ^ 64) :
    ∃ t y, exec (.hashBlocks c) s = .next t ∧ t.ctx? c = some y ∧ y.st = .past ∧ y.status = some stOk ∧
      y.res1 = BitVec.ofNat 32 (toks.length / len) ∧ t.rdBytes (leAt x.entry 56 8) first.length = first := by
  obtain ⟨hx, hop, hst⟩ := hready
  obtain ⟨t, ht, hn⟩ := halone.works (.hashBlocks c) (hashBlocks c)
  rw [hashBlocks_root hx hop hst hbefore hk hroot htab] at hn
  have hpos : 0 < len := hlen ▸ hashBlockLen_pos _
  have hchain : s.rootHashes x k = hashChain (prefixKey k) len toks.length (List.replicate 16 0#8) toks := by
    rw [State.rootHashes, blockHashes, hlen, htoks]
  have hcount : (s.rootHashes x k).length = toks.length / len := hchain ▸ hashChain_count hpos _ _ _ le_rfl
  have hsize : ((s.rootHashes x k).flatMap id).length ≤ 16 * (s.rootHashes x k).length := flatMap_id_le (hashChain_size _ _ _ _ _)
  have hle : toks.length / len ≤ toks.length := Nat.div_le_self _ _
  have hall : t.holds (leAt x.entry 56 8) ((s.rootHashes x k).flatMap id) :=
    hn.holds (State.holds_congr (State.holds_wrBytes hcanon.1 (by omega)) (State.ctxUpd_mem _ _ _))
  obtain ⟨f, hf⟩ : ∃ f, toks.length = f + 1 := ⟨toks.length - 1, by omega⟩
  have hx' := (live_ctx? (State.wrBytes_live s (leAt x.entry 56 8) ((s.rootHashes x k).flatMap id)) c).trans hx
  refine ⟨t, _, ht, (hn.ctx? c).trans (State.ctx?_ctxUpd hx' (fun _ => rfl)), rfl, rfl, congrArg (BitVec.ofNat 32) hcount, ?_⟩
  rw [hchain, hf, hashChain_first hblock, ← hfirst, List.flatMap_cons, State.holds_append] at hall
  exact hall.1
end Ops

/-- Settles O43: each clause is one of the theorems above; what an op leaves in memory is what it wrote last at its place. -/
theorem textOps : Obligations.TextOps := by
  unfold Obligations.TextOps
  intro s c x hcanon halone e p out room
  refine ⟨?encode, ?encodeWaits, ?append, ?appendWaits, ?before, ?slots, ?issue, ?unitEnd, ?decode, ?list, ?notResident, ?own, ?hashes⟩
  case encode =>
    exact fun l v hready hl hv hf hend => ⟨encode_written halone hready hl hv hf hend hcanon, encode_aborted halone hready hl hv hf hend⟩
  case encodeWaits =>
    exact fun l hready hl hf hopen => halone.does rfl (encode_waits hready.1 hl hf hopen)
  case append =>
    intro l w hready hl hw hf hend
    refine ⟨append_committed halone hready hl hw hf hend, append_tooLong halone hready hl hw hf hend, fun s1 hlen hshort hx1 => ?_⟩
    exact append_denied halone hready hl hw hf hend hlen hshort hx1
  case appendWaits =>
    exact fun hready l hl hf hopen => halone.does rfl (encodeAppend_waits hready.1 hl hf hopen)
  case before =>
    exact fun hbefore => ⟨fun h => halone.does rfl (decode_waits h.1 hbefore), fun h => halone.does rfl (prefillChunks_waits h.1 hbefore),
      fun h => halone.does rfl (hashBlocks_waits h.1 hbefore)⟩
  case slots =>
    intro q hfull
    obtain ⟨t, ht, hn⟩ := halone.runs (encodeUnitIssue q)
    rw [encodeUnitIssue_full hfull] at hn
    exact ⟨t, ht, hn⟩
  case issue => exact fun k hslot hunit hx hk hm hbeads => unit_issued halone hslot hunit hx hk hm hbeads
  case unitEnd => exact fun k g v m hx hm hf hg hv hrun hidle hjob => unit_ended hcanon halone hx hm hf hg hv hrun hidle hjob
  case decode =>
    exact fun v hready hbefore hv => ⟨decode_written halone hready hbefore hv hcanon, decode_aborted halone hready hbefore hv⟩
  case list =>
    exact fun hready hbefore ha hb => prefill_list hcanon halone hready hbefore rfl rfl rfl rfl rfl ha hb
  case notResident =>
    exact fun ⟨hx, hop, hst⟩ hbefore ha hh => halone.does rfl (prefillChunks_notResident hx hop hst hbefore ha hh)
  case own =>
    exact fun l hready hbefore ha hh _ => prefill_own hcanon halone hready hbefore ha hh rfl rfl rfl
  case hashes =>
    exact fun k hready hbefore hk hroot htab _ hblock hout => hash_first hcanon halone hready hbefore hk hroot htab rfl rfl rfl hblock hout

end Sys2Proof.Claims
end

