-- ==== Sys2Proof/Proofs/Refill.lean ====
section
/-! PROOF. Sys2Proof/Proofs/Refill.lean: the account table, and what a refill tick adds to each account. -/
namespace Sys2Proof.Machine
open Sys2Proof
variable {s u : State} {p q : Part} {a : Account}

/-! ### One account of a table -/

theorem find?_acctInsert_self (l : List Account) (a : Account) : (acctInsert l a).find? (fun x => x.num == a.num) = some a := by
  induction l with
  | nil => simp [acctInsert]
  | cons b l ih =>
    unfold acctInsert
    split
    · simp
    next hb =>
      split
      · simp
      · rw [List.find?_cons, eq_false_of_ne_true hb, ih]

theorem find?_acctInsert_ne {n : Nat} (h : a.num ≠ n) (l : List Account) :
    (acctInsert l a).find? (fun x => x.num == n) = l.find? (fun x => x.num == n) := by
  have ha : (a.num == n) = false := beq_false_of_ne h
  induction l with
  | nil => simp [acctInsert, h]
  | cons b l ih =>
    unfold acctInsert
    split
    next hb =>
      rw [List.find?_cons, List.find?_cons, ha, beq_iff_eq.mp hb, ha]
    · split
      · rw [List.find?_cons, ha]
      · rw [List.find?_cons, List.find?_cons, ih]

theorem State.setAcct_parts (s : State) (q : Part) (a : Account) :
    (s.setAcct q a).parts = (s.partUpd q (fun x => { x with accts := acctInsert x.accts a })).parts := by
  unfold State.setAcct
  extract_lets s1
  split
  · exact State.wrBytes_parts _ _ _
  · rfl

theorem State.setAcct_accts_self (s : State) (p : Part) (a : Account) :
    ((s.setAcct p a).parts[p]).accts = acctInsert (s.parts[p]).accts a := by
  rw [State.setAcct_parts, State.partUpd_self]

theorem State.setAcct_part_ne (h : q ≠ p) (s : State) (a : Account) : (s.setAcct q a).parts[p] = s.parts[p] := by
  rw [State.setAcct_parts, partUpd_at, if_neg h]

theorem State.acct_congr (h : u.parts[p] = s.parts[p]) (n : Nat) : u.acct p n = s.acct p n := by
  rw [State.acct, State.acct, h]

theorem State.acct_setAcct_self (s : State) (p : Part) (a : Account) : (s.setAcct p a).acct p a.num = a := by
  rw [State.acct, State.setAcct_accts_self, find?_acctInsert_self]

theorem State.acct_setAcct_ne {n : Nat} (h : a.num ≠ n) (s : State) (p : Part) : (s.setAcct p a).acct p n = s.acct p n := by
  rw [State.acct, State.setAcct_accts_self, find?_acctInsert_ne h, State.acct]

/-! ### One refill (R171) -/

@[simp] theorem Account.refill_num (a : Account) : a.refill.num = a.num := by
  unfold Account.refill
  split
  · extract_lets
    split <;> rfl
  · rfl

/-- An account that is set gains the rate with its remainder, clipped at the burst; what BUDGET_SET gave and what is reserved stay. -/
theorem Account.refill_fields (a : Account) :
    a.refill.balance = (if a.set then min ((a.burst : Int) * 256) (a.balance + (((a.rate * 256 + a.rem) / 1000 : Nat) : Int)) else a.balance) ∧
    a.refill.rem = (if a.set then (if (a.burst : Int) * 256 < a.balance + (((a.rate * 256 + a.rem) / 1000 : Nat) : Int) then 0
      else (a.rate * 256 + a.rem) % 1000) else a.rem) ∧
    a.refill.rate = a.rate ∧ a.refill.burst = a.burst ∧ a.refill.set = a.set ∧ a.refill.held = a.held ∧ a.refill.overdraft = a.overdraft := by
  unfold Account.refill
  split
  · extract_lets sum b
    split
    next h => exact ⟨(min_eq_left h.le).symm, rfl, rfl, rfl, rfl, rfl, rfl⟩
    next h => exact ⟨(min_eq_right (not_lt.mp h)).symm, rfl, rfl, rfl, rfl, rfl, rfl⟩
  · exact ⟨rfl, rfl, rfl, rfl, rfl, rfl, rfl⟩

/-! ### A refill tick (R171) -/

/-- The accounts of a list refilled in a partition. -/
def State.refillAll (s : State) (p : Part) (l : List Account) : State := l.foldl (fun s a => s.setAcct p a.refill) s

theorem State.refillAll_part_ne (h : q ≠ p) (s : State) (l : List Account) : (s.refillAll q l).parts[p] = s.parts[p] :=
  foldl_keep (fun s => s.parts[p]) _ (fun s _ => State.setAcct_part_ne h s _) l s

theorem State.acct_refillAll_ne {n : Nat} {l : List Account} (h : n ∉ l.map (·.num)) (s : State) (p : Part) :
    (s.refillAll p l).acct p n = s.acct p n := by
  induction l generalizing s with
  | nil => rfl
  | cons b l ih =>
    obtain ⟨hb, hl⟩ := not_or.mp (mt List.mem_cons.mpr h)
    exact (ih hl _).trans (State.acct_setAcct_ne (by simpa using Ne.symm hb) s p)

/-- Each account is refilled once, as it stood before. -/
theorem State.acct_refillAll {l : List Account} (hl : (l.map (·.num)).Nodup) (ha : a ∈ l) (s : State) (p : Part) :
    (s.refillAll p l).acct p a.num = a.refill := by
  induction l generalizing s with
  | nil => cases ha
  | cons b l ih =>
    obtain ⟨hb, hl⟩ := List.nodup_cons.mp hl
    rcases List.mem_cons.mp ha with rfl | ha
    · have hself := State.acct_setAcct_self s p a.refill
      rw [Account.refill_num] at hself
      exact (State.acct_refillAll_ne hb _ p).trans hself
    · exact ih hl ha _

/-- The partitions of a list refilled, one after the other. -/
def State.refillParts (s : State) (ps : List Part) : State := ps.foldl (fun s p => s.refillAll p (s.parts[p]).accts) s

theorem State.refillParts_part_ne {ps : List Part} (h : p ∉ ps) (s : State) : (s.refillParts ps).parts[p] = s.parts[p] := by
  induction ps generalizing s with
  | nil => rfl
  | cons q ps ih =>
    obtain ⟨hq, hps⟩ := not_or.mp (mt List.mem_cons.mpr h)
    exact (ih hps _).trans (State.refillAll_part_ne (Ne.symm hq) _ _)

theorem State.acct_refillParts {ps : List Part} (hps : ps.Nodup) (hp : p ∈ ps) (hn : ((s.parts[p]).accts.map (·.num)).Nodup)
    (ha : a ∈ (s.parts[p]).accts) : (s.refillParts ps).acct p a.num = a.refill := by
  induction ps generalizing s with
  | nil => cases hp
  | cons q ps ih =>
    obtain ⟨hq, hps⟩ := List.nodup_cons.mp hps
    by_cases he : q = p
    · subst he
      exact (State.acct_congr (State.refillParts_part_ne hq _) _).trans (State.acct_refillAll hn ha s q)
    · have hp : p ∈ ps := (List.mem_cons.mp hp).resolve_left (Ne.symm he)
      have hsame := State.refillAll_part_ne he s (s.parts[q]).accts
      exact ih hps hp (by rw [hsame]; exact hn) (by rw [hsame]; exact ha)

theorem refillTick_idle (h : s.refillDue = false) : refillTick s = s := by
  rw [refillTick, h]
  rfl

theorem refillTick_due (h : s.refillDue = true) :
    refillTick s = ({ s.useTick with refillAt := s.time } : State).refillParts (List.finRange 16) := by
  rw [refillTick, h]
  rfl

theorem State.useTick_parts (s : State) : s.useTick.parts = s.parts := by
  unfold State.useTick
  split
  · rfl
  · split <;> rfl

/-- A tick that is due refills every account of every partition. -/
theorem refillTick_acct (h : s.refillDue = true) (hn : ((s.parts[p]).accts.map (·.num)).Nodup) (ha : a ∈ (s.parts[p]).accts) :
    (refillTick s).acct p a.num = a.refill := by
  rw [refillTick_due h]
  refine State.acct_refillParts (List.nodup_finRange 16) (List.mem_finRange p) ?_ ?_
  · rwa [State.useTick_parts]
  · rwa [State.useTick_parts]

/-- When a tick is due (R171): a secondary takes the primary's (R621). -/
theorem State.refillDue_iff : s.refillDue = true ↔
    (s.role = 2 ∧ ∃ d ∈ s.pair.given, d.kind = 6) ∨ (s.role ≠ 2 ∧ s.time ≠ 0 ∧ s.time % 100000 = 0 ∧ s.refillAt ≠ s.time) := by
  unfold State.refillDue
  rw [← State.role]
  by_cases h : s.role = 2
  · simp [h]
  · simp [h, and_assoc]

end Sys2Proof.Machine
end

