-- ==== Sys2Proof/Proofs/Reclaim.lean ====
section
/-! PROOF. Sys2Proof/Proofs/Reclaim.lean: the reclaim ladder, the drain of a strand in page stall, the placement loop, and the statement on them and
on the refill of accounts. -/
namespace Sys2Proof.Machine
open Sys2Proof
variable {s u s1 : State} {p q : Part} {sid : Word} {t : Strand} {l : List Strand} {n need : Nat}

/-! ### Parks told to a secondary (R621) -/

/-- A park that a rung made is told: the generation of its locket, and the candidate. -/
abbrev State.tellParked (s : State) (p : Part) (t : Strand) (id : DWord) : State :=
  (s.tell 3 p (locketGen id)).tell 8 p (t.session.zeroExtend 64)

theorem State.tell_regs (s : State) (k : Nat) (q : Part) (v : DWord) : (s.tell k q v).regs = s.regs := by
  rw [State.tell, State.tellOp_rest]

theorem State.tell_parts (s : State) (k : Nat) (q : Part) (v : DWord) : (s.tell k q v).parts = s.parts := by
  rw [State.tell, State.tellOp_rest]

theorem State.freePages_congr (hr : u.regs = s.regs) (hp : u.parts = s.parts) (p : Part) : u.freePages p = s.freePages p := by
  rw [State.freePages, State.freePages, State.poolPages, State.poolPages, State.rf, State.rf, State.reg, State.reg, hr, hp]

theorem State.reclaimHi_congr (hr : u.regs = s.regs) (p : Part) : u.reclaimHi p = s.reclaimHi p := by
  rw [State.reclaimHi, State.reclaimHi, State.rf, State.rf, State.reg, State.reg, hr]

theorem State.tellParked_regs (s : State) (p : Part) (t : Strand) (id : DWord) : (s.tellParked p t id).regs = s.regs := by
  rw [State.tellParked, State.tell_regs, State.tell_regs]

theorem State.tellParked_freePages (s : State) (p : Part) (t : Strand) (id : DWord) : (s.tellParked p t id).freePages p = s.freePages p :=
  State.freePages_congr (s.tellParked_regs p t id) (by rw [State.tellParked, State.tell_parts, State.tell_parts]) p

/-! ### Where a walk of the ladder stops (R163) -/

/-- Rung 1 stops at HI; pages that parks in flight will return count. -/
def State.hiMet (p : Part) (s : State) : Bool := s.reclaimHi p ≤ s.freePages p + s.comingPages p
/-- Rung 2 stops at the need. -/
def State.needMet (p : Part) (need : Nat) (s : State) : Bool := need ≤ s.freePages p + s.comingPages p

theorem State.comingPages_settled (h : (s.parts[p]).reclaims = []) : s.comingPages p = 0 := by
  rw [State.comingPages, h]
  rfl

theorem State.hiMet_short (h : (s.parts[p]).reclaims = []) (hlo : s.freePages p < s.reclaimLo p) : s.hiMet p = false := by
  have hhi : s.reclaimLo p ≤ s.reclaimHi p := Nat.min_le_right _ _
  rw [State.hiMet, State.comingPages_settled h]
  exact decide_eq_false (by omega)

theorem State.hiMet_tellParked {id : DWord} (h : s.reclaimHi p ≤ s.freePages p) : (s.tellParked p t id).hiMet p = true := by
  rw [State.hiMet, State.tellParked_freePages, State.reclaimHi_congr (s.tellParked_regs p t id)]
  exact decide_eq_true (by omega)

theorem State.needMet_short (h : (s.parts[p]).reclaims = []) (hs : s.freePages p < need) : s.needMet p need = false := by
  rw [State.needMet, State.comingPages_settled h]
  exact decide_eq_false (by omega)

theorem State.needMet_free (h : need ≤ s.freePages p) : s.needMet p need = true := decide_eq_true (by omega)

theorem State.needMet_tellParked {id : DWord} (h : need ≤ s.freePages p) : (s.tellParked p t id).needMet p need = true :=
  State.needMet_free (by rwa [State.tellParked_freePages])

/-! ### Candidates (R163, R621, R675) -/

theorem mem_insertBy {α : Type} {le : α → α → Bool} {a x : α} {l : List α} (h : x ∈ insertBy le a l) : x = a ∨ x ∈ l := by
  induction l with
  | nil => simpa [insertBy] using h
  | cons b l ih =>
    unfold insertBy at h
    split at h
    · exact List.mem_cons.mp h
    · rcases List.mem_cons.mp h with rfl | h
      · exact .inr List.mem_cons_self
      · exact (ih h).imp_right (List.mem_cons_of_mem b)

theorem mem_of_mem_sortBy {α : Type} {le : α → α → Bool} {x : α} {l : List α} (h : x ∈ sortBy le l) : x ∈ l := by
  induction l with
  | nil => exact h
  | cons a l ih => exact (mem_insertBy h).elim (fun e => e ▸ List.mem_cons_self) fun h => List.mem_cons_of_mem a (ih h)

/-- Candidates are resident strands of the partition. -/
theorem State.candidates_resident (h : t ∈ s.candidates p n) : t ∈ s.strands ∧ t.part = p := by
  unfold State.candidates at h
  split at h
  · obtain ⟨d, -, hd⟩ := List.mem_filterMap.mp h
    exact ⟨List.mem_of_find?_eq_some hd, (State.strand?_some hd).1⟩
  · simpa using (List.mem_filter.mp (mem_of_mem_sortBy h)).imp_right fun h => (Bool.and_eq_true_iff.mp h).1

theorem State.candidates_head (h : s.candidates p n = t :: l) : t.part = p :=
  (State.candidates_resident (h ▸ List.mem_cons_self)).2

/-- A secondary that has been told of none has no candidate. -/
theorem State.candidates_untold (hrole : s.role = 2) (h : ∀ d ∈ s.pair.given, d.kind ≠ 8) (p : Part) (n : Nat) : s.candidates p n = [] := by
  have hnone : s.pair.given.filter (fun d => d.kind == 8 && d.part == p) = [] :=
    List.filter_eq_nil_iff.mpr fun d hd => by simp [h d hd]
  simp [State.candidates, hrole, hnone]

theorem State.useCandidate_writer (h : s.role ≠ 2) (t : Strand) : s.useCandidate t = s := by
  simp [State.useCandidate, h]

/-! ### A walk of the ladder -/

/-- What the ladder makes of the end of a park. -/
def State.afterPark (s : State) (p : Part) (t : Strand) : ParkRes → State
  | .done id _ s1 => s1.tellParked p t id
  | .wait => s.partUpd p (fun x => { x with reclaims := x.reclaims ++ [t.session] })
  | .fail _ => s

section Walk
variable {stop : State → Bool}

theorem reclaimWalk_stopped (h : stop s = true) (l : List Strand) : reclaimWalk stop l s = s := by
  cases l with
  | nil => rfl
  | cons t l => exact if_pos h

variable (hrole : s.role ≠ 2) (hstop : stop s = false) (hp : t.part = p)
include hrole hstop hp

/-- A candidate whose park fails is skipped, one that waits stays in flight, one that ends is told; then the walk goes on. -/
theorem reclaimWalk_goesOn {r : ParkRes} (e : s.storePark t false false (s.parkTerms p) = r) (l : List Strand) :
    reclaimWalk stop (t :: l) s = reclaimWalk stop l (s.afterPark p t r) := by
  subst hp
  rw [reclaimWalk, if_neg (by simp [hstop]), State.useCandidate_writer hrole]
  dsimp only
  rw [e]
  cases r <;> rfl

/-- A candidate whose park gives enough pages is the last. -/
theorem reclaimWalk_last {id : DWord} {len : Nat} (e : s.storePark t false false (s.parkTerms p) = .done id len s1)
    (h : stop (s1.tellParked p t id) = true) (l : List Strand) : reclaimWalk stop (t :: l) s = s1.tellParked p t id :=
  (reclaimWalk_goesOn hrole hstop hp e l).trans (reclaimWalk_stopped h l)

end Walk

/-! ### The rungs, where no park is in flight (R163) -/

theorem State.retryReclaims_settled (h : (s.parts[p]).reclaims = []) : s.retryReclaims p = s := by
  rw [State.retryReclaims, h]
  rfl

section Rungs
variable (hset : (s.parts[p]).reclaims = [])
include hset

/-- The first park in flight. -/
theorem State.firstReclaim (sid : Word) : s.partUpd p (fun x => { x with reclaims := x.reclaims ++ [sid] }) =
    s.partUpd p (fun x => { x with reclaims := [sid] }) := by
  simp [State.partUpd, vset, hset, -Fin.getElem_fin]

theorem reclaimRung1_enough (h : s.reclaimLo p ≤ s.freePages p) : reclaimRung1 p s = s := by
  rw [reclaimRung1, State.retryReclaims_settled hset]
  exact if_neg (Nat.not_lt.mpr h)

theorem reclaimRung1_short (h : s.freePages p < s.reclaimLo p) :
    reclaimRung1 p s = reclaimWalk (State.hiMet p) (s.candidates p (s.idleMin p)) s := by
  rw [reclaimRung1, State.retryReclaims_settled hset]
  exact if_pos h

theorem reclaimRung1_untold (hrole : s.role = 2) (h : ∀ d ∈ s.pair.given, d.kind ≠ 8) : reclaimRung1 p s = s := by
  by_cases hlo : s.freePages p < s.reclaimLo p
  · rw [reclaimRung1_short hset hlo, State.candidates_untold hrole h]
    rfl
  · exact reclaimRung1_enough hset (Nat.not_lt.mp hlo)

/-- Candidates with IDLE_MIN go first. -/
theorem reclaimRung2_walks : reclaimRung2 p need s =
    (let s2 := reclaimWalk (State.needMet p need) (s.candidates p (s.idleMin p)) s
     if s2.needMet p need then s2 else reclaimWalk (State.needMet p need) (s2.candidates p 0) s2) := by
  have hall : ∀ (s : State) (n : Nat), (s.candidates p n).filter (fun t => some t.session != none) = s.candidates p n := fun s n =>
    List.filter_eq_self.mpr fun _ _ => rfl
  rw [reclaimRung2, reclaimFor, State.retryReclaims_settled hset]
  simp only [hall, State.needMet, decide_eq_true_eq]
  rfl

/-- When the first walk meets the need, there is no second one. -/
theorem reclaimRung2_met (e : reclaimWalk (State.needMet p need) (s.candidates p (s.idleMin p)) s = u) (h : u.needMet p need = true) :
    reclaimRung2 p need s = u := by
  rw [reclaimRung2_walks hset, e]
  exact if_pos h

/-- When no strand has been idle for IDLE_MIN, rung 2 goes on without it. -/
theorem reclaimRung2_goesOn (h : s.candidates p (s.idleMin p) = []) (hs : s.needMet p need = false) :
    reclaimRung2 p need s = reclaimWalk (State.needMet p need) (s.candidates p 0) s := by
  rw [reclaimRung2_walks hset, h]
  exact if_neg (by simp [reclaimWalk, hs])

theorem reclaimRung2_untold (hrole : s.role = 2) (h : ∀ d ∈ s.pair.given, d.kind ≠ 8) : reclaimRung2 p need s = s := by
  rw [reclaimRung2_walks hset, State.candidates_untold hrole h]
  simp only [reclaimWalk, State.candidates_untold hrole h, ite_self]

end Rungs

/-! ### Pages taken for a strand in page stall (R166) -/

/-- A page taken is entered in the partition's list of used pages. -/
theorem State.takePage_some {k : Nat} (e : s.takePage p = some (k, u)) :
    u = ({ s with freeCtr := s.freeCtr + 1 } : State).partUpd p (fun x => { x with used := natInsert x.used k }) := by
  unfold State.takePage at e
  split at e
  · cases e
  · extract_lets n used at e
    dsimp only [State.freeBelow] at e
    split at e
    · cases e
      rfl
    · cases e

/-- What a page entered there leaves as it is, pages taken leave as it is. -/
theorem State.takePages_keep {α : Type} (π : State → α)
    (hπ : ∀ (s : State) (k c : Nat), π (({ s with freeCtr := c } : State).partUpd p (fun x => { x with used := natInsert x.used k })) = π s)
    {l : List Nat} (e : s.takePages p n = some (l, u)) : π u = π s := by
  induction n generalizing s l with
  | zero => cases e; rfl
  | succ n ih =>
    unfold State.takePages at e
    split at e
    · cases e
    next e1 =>
      split at e
      · cases e
      next e2 =>
        cases e
        rw [ih e2, State.takePage_some e1, hπ]

theorem State.takePages_mem {l : List Nat} (e : s.takePages p n = some (l, u)) : u.mem = s.mem :=
  State.takePages_keep (·.mem) (fun _ _ _ => rfl) e

theorem State.takePages_reclaims {l : List Nat} (e : s.takePages p n = some (l, u)) : (u.parts[p]).reclaims = (s.parts[p]).reclaims :=
  State.takePages_keep (fun s => (s.parts[p]).reclaims) (fun _ _ _ => by rw [State.partUpd_self]) e

theorem State.takePages_excluded {l : List Nat} (e : s.takePages p n = some (l, u)) (sid : Word) (c : Option Ctx) :
    u.excluded p sid c = s.excluded p sid c := by
  rw [State.excluded, State.excluded, live_ctxs (State.takePages_live e), State.takePages_reclaims e]

/-! ### Page stall after a commit (R165) -/

/-- An event notes its slot in the partition, and changes nothing else there. -/
theorem State.post_part (s : State) (p q : Part) (k : Nat) (d : Dom) (r : Option Ring) (w : Word) (i y : DWord) :
    ∃ x, (s.post p k d r w i y).parts[q] = { s.parts[q] with evqLast := x } := by
  have hparts : ∀ (a : Nat) (b : List Byte) (o : Nat) (v : Word), ((s.wrBytes a b).setReg o v).parts = s.parts := fun a b o v =>
    (State.setReg_parts _ _ _).trans (State.wrBytes_parts _ _ _)
  by_cases h : s.evqRoom p
  · rw [State.post_room h, partUpd_at, hparts]
    split
    next hq => subst hq; exact ⟨_, rfl⟩
    · exact ⟨_, rfl⟩
  · rw [State.post_lost h, State.bump_parts]
    exact ⟨_, rfl⟩

/-- The strands in page stall: those that were and are, in order of entry, then those that entered it. -/
theorem State.evalStall_stall (s : State) (p : Part) : ((s.evalStall p).parts[p]).stall =
    (s.parts[p]).stall.filter (fun sid => s.strands.any (fun t => t.part == p && t.session == sid && t.stalled)) ++
      (s.strands.filter (fun t => t.part == p && t.stalled && !(s.parts[p]).stall.contains t.session)).map (·.session) := by
  have hpost : ∀ (k : Nat) (w : List Word) (y : DWord),
      (((s.partUpd p (fun x => { x with stall := w })).post p k 0 none noSession 0#64 y).parts[p]).stall = w := fun k w y => by
    obtain ⟨x, hx⟩ := State.post_part (s.partUpd p (fun x => { x with stall := w })) p p k 0 none noSession 0#64 y
    rw [hx, State.partUpd_self]
  unfold State.evalStall
  extract_lets
  split
  · exact hpost _ _ _
  · split
    · exact hpost _ _ _
    · rw [State.partUpd_self]

/-- A session whose strand is not in page stall is not listed there. -/
theorem State.evalStall_clear (h : ∀ x ∈ s.strands, x.part = p → x.session = sid → x.stalled = false) :
    sid ∉ ((s.evalStall p).parts[p]).stall := by
  rw [State.evalStall_stall, List.mem_append, not_or]
  constructor
  · intro hin
    obtain ⟨x, hx, hs⟩ := List.any_eq_true.mp (List.mem_filter.mp hin).2
    simp only [Bool.and_eq_true, beq_iff_eq] at hs
    obtain ⟨⟨hp, hsid⟩, hst⟩ := hs
    exact Bool.false_ne_true ((h x hx hp hsid).symm.trans hst)
  · intro hin
    obtain ⟨x, hx, hsid⟩ := List.mem_map.mp hin
    obtain ⟨hx, hs⟩ := List.mem_filter.mp hx
    simp only [Bool.and_eq_true, beq_iff_eq] at hs
    obtain ⟨⟨hp, hst⟩, -⟩ := hs
    exact Bool.false_ne_true ((h x hx hp hsid).symm.trans hst)

/-- A commit that ends a strand's stall takes it off the list. -/
theorem State.commitStrand_clear (hst : t.stalled = false) (s : State) : t.session ∉ ((s.commitStrand t).parts[t.part]).stall := by
  unfold State.commitStrand
  extract_lets s1 s2 s3
  have hs : (s3.writeCommitLine t).strands = s1.strands := by
    simpa [s3, s2, State.writeCommitLine] using live_strands (State.writePages_live s1 t)
  refine State.evalStall_clear fun x hx hp hsid => ?_
  rw [hs] at hx
  obtain ⟨y, -, hy⟩ := List.mem_map.mp hx
  split at hy
  · exact hy ▸ hst
  next hne => exact absurd (by simp [hy, hp, hsid]) hne

/-! ### PAGE_STALL_DRAIN (R166) -/

theorem pageStallDrain_later (h : s.stallNeed p sid ≠ 0) : pageStallDrain p sid s = s := by
  unfold pageStallDrain
  split
  · rfl
  · rw [if_pos (by simp [h])]

theorem pageStallDrain_clear (ht : s.strand? p sid = some t) (h : t.stalled = false) : pageStallDrain p sid s = s := by
  rw [pageStallDrain, ht]
  exact if_pos (by simp [h])

section Drain
variable {new : List Nat} (ht : s.strand? p sid = some t) (hst : t.stalled = true) (hneed : s.stallNeed p sid = 0)
  (htake : s.takePages p t.lacks = some (new, s1))
include ht hst hneed htake

theorem pageStallDrain_takes : pageStallDrain p sid s =
    if s.excluded p sid none then s1.strandUpd p sid (fun _ => { t with sparePages := t.sparePages ++ new })
    else s1.commitStrand ({ t with sparePages := t.sparePages ++ new } : Strand).drained := by
  rw [pageStallDrain, ht]
  dsimp only
  rw [if_neg (by simp [hst, hneed]), htake]
  dsimp only
  rw [State.takePages_excluded htake]

/-- While an op holds exclusion on it, the strand keeps what it took. -/
theorem pageStallDrain_held (hex : s.excluded p sid none = true) :
    pageStallDrain p sid s = s1.strandUpd p sid (fun _ => { t with sparePages := t.sparePages ++ new }) := by
  rw [pageStallDrain_takes ht hst hneed htake, if_pos hex]

/-- Then it drains, and its page stall ends. -/
theorem pageStallDrain_drains (hex : s.excluded p sid none = false) :
    (pageStallDrain p sid s).strand? p sid = some ({ t with sparePages := t.sparePages ++ new } : Strand).drained ∧
    sid ∉ ((pageStallDrain p sid s).parts[p]).stall := by
  rw [pageStallDrain_takes ht hst hneed htake, if_neg (by simp [hex])]
  obtain ⟨hp, hsid⟩ := State.strand?_some ht
  have ht1 : s1.strand? t.part t.session = some t := by rw [live_strand? (State.takePages_live htake), hp, hsid, ht]
  constructor
  · rw [live_strand? (State.commitStrand_live _ _), ← hp, ← hsid]
    exact State.strand?_put (y := ({ t with sparePages := t.sparePages ++ new } : Strand).drained) ht1
  · have hclear := State.commitStrand_clear (t := ({ t with sparePages := t.sparePages ++ new } : Strand).drained) rfl s1
    rwa [← hp, ← hsid]

end Drain

/-! ### The placement loop (R616, R675) -/

theorem assocGet_assocSet_listed {α : Type} [BEq α] [LawfulBEq α] {d : α} (d' : α) {v : α} (hv : v ≠ d) (l : List (Nat × α)) (a : Nat) :
    assocGet d' (assocSet d l a v) a = v := by
  induction l with
  | nil => simp [assocSet, assocGet, hv]
  | cons x l ih =>
    obtain ⟨k, w⟩ := x
    by_cases hk : k = a
    · simp [assocSet, assocGet, hk, hv]
    · by_cases hlt : a < k
      · simp [assocSet, assocGet, hk, hlt, hv]
      · simp [assocSet, assocGet, hk, hlt, ih]

/-- The placement period of the partition has passed. -/
def State.placeDue (s : State) (p : Part) : Prop := assocGet 0 s.lastAt (0x10 + p.val) + max 1 (s.rf (rPrtPlace p) 0 8) * 100000 ≤ s.time

theorem State.periodDue_place (s : State) (p : Part) :
    s.periodDue (0x10 + p.val) (max 1 (s.rf (rPrtPlace p) 0 8) * 100000) = true ↔ s.placeDue p := decide_eq_true_iff

theorem placementPeriod_early (h : ¬s.placeDue p) : placementPeriod p s = s := by
  rw [placementPeriod, Bool.eq_false_iff.mpr (mt (s.periodDue_place p).mp h)]
  rfl

theorem placementPeriod_due (h : s.placeDue p) : placementPeriod p s =
    let s := s.periodMark (0x10 + p.val)
    if s.enabled p && s.rb (rPrtPlace p) 31 then s.placeMoves p (s.placeClusters p) (s.rf (rPrtPlace p) 16 12) else s := by
  rw [placementPeriod, (s.periodDue_place p).mpr h]
  rfl

theorem State.periodMark_at (h : s.time ≠ 0) (k : Nat) : assocGet 0 (s.periodMark k).lastAt k = s.time :=
  assocGet_assocSet_listed 0 h _ _

/-- A period with one move moves the first candidate of the most loaded cluster to the least loaded one. -/
theorem State.placeMoves_one {cs : List Clu} {h l : Clu} {r : List Strand}
    (hh : firstBest (fun a b => s.cluLoad p b < s.cluLoad p a) cs = some h) (hl : firstBest (fun a b => s.cluLoad p a < s.cluLoad p b) cs = some l)
    (hload : (cs.map (s.cluLoad p)).sum * (100 + s.rf (rPrtPlace p) 8 8) < s.cluLoad p h * 100 * cs.length)
    (hc : (s.candidates p (s.idleMin p)).filter (fun t => t.home == h) = t :: r) (hcost : s.cluLoad p l + s.strandCost t < s.cluLoad p h) :
    s.placeMoves p cs 1 = (s.rehome t l).bump (rPrtPlaceCnt p) := by
  rw [State.placeMoves, hh, hl]
  dsimp only
  rw [if_neg (Nat.not_le.mpr hload), hc]
  exact if_neg (Nat.not_le.mpr hcost)

/-- A strand that moves keeps its tokens and its steps. -/
theorem State.strand?_rehome (ht : t ∈ s.strands) (c : Clu) :
    ∃ w, (s.rehome t c).strand? t.part t.session = some w ∧ w.home = c ∧ w.hist = t.hist ∧ w.steps = t.steps := by
  obtain ⟨x, hx⟩ : ∃ x, s.strand? t.part t.session = some x := by
    rw [← Option.isSome_iff_exists, State.strand?, List.find?_isSome]
    exact ⟨t, ht, by simp⟩
  unfold State.rehome
  extract_lets ra y
  refine ⟨y, ?_, rfl, rfl, rfl⟩
  rw [live_strand? (State.wrBytes_live _ _ _)]
  exact State.strand?_put (y := y) hx

theorem State.rehome_regs (s : State) (t : Strand) (c : Clu) : (s.rehome t c).regs = s.regs := by
  unfold State.rehome
  extract_lets ra y
  exact State.wrBytes_regs _ _ _

theorem State.rehome_lastAt (s : State) (t : Strand) (c : Clu) : (s.rehome t c).lastAt = s.lastAt := by
  unfold State.rehome
  extract_lets ra y
  exact State.wrBytes_lastAt _ _ _

theorem rPrtPlaceCnt_note (p : Part) : noteReg (rPrtPlaceCnt p) = false := by revert p; decide

end Sys2Proof.Machine

namespace Sys2Proof.Claims
open Machine
variable {s u : State} {p : Part}

/-- A command of a running member that writes no chip memory does what its effect says, of whatever role the member is. -/
theorem does_quiet {cmd : Instr} {f : State → State} (hrun : s.running = true) (hexec : exec cmd s = run f s) (hf : f s = u) (hm : u.mem = s.mem) :
    Does cmd s u := by
  obtain ⟨t, ht, hn⟩ := run_noted hf hm hrun
  exact ⟨t, hexec.trans ht, hn⟩

/-- So does any command of a member that is no secondary. -/
theorem does_writer {cmd : Instr} {f : State → State} (hrun : s.running = true) (hexec : exec cmd s = run f s) (hrole : s.role ≠ 2) (hf : f s = u) :
    Does cmd s u := by
  obtain ⟨t, ht, hn⟩ := run_writer (f := f) hrun hrole
  exact ⟨t, hexec.trans ht, hf ▸ hn⟩

/-- What any command leaves of strands, partitions, periods and registers, of whatever role the member is. -/
theorem run_leaves (hrun : s.running = true) (f : State → State) : ∃ t, run f s = .next t ∧ t.strands = (f s).strands ∧ t.parts = (f s).parts ∧
    t.lastAt = (f s).lastAt ∧ ∀ o, noteReg o = false → t.reg o = (f s).reg o := by
  refine ⟨_, run_running f hrun, by simp, ?_, ?_, fun o ho => by rw [State.reg_observe ho, State.ownWrites_reg]⟩
  · rw [State.observe_parts, State.ownWrites_rest]
  · rw [State.observe_lastAt, State.ownWrites_rest]

/-- A strand that no op holds exclusion on drains. -/
theorem drained_strand {sid : Word} {t : Strand} {new : List Nat} {s1 : State} (hrun : s.running = true) (ht : s.strand? p sid = some t)
    (hst : t.stalled = true) (hneed : s.stallNeed p sid = 0) (htake : s.takePages p t.lacks = some (new, s1))
    (hex : s.excluded p sid none = false) :
    ∃ u, exec (.pageStallDrain p sid) s = .next u ∧
      u.strand? p sid = some ({ t with sparePages := t.sparePages ++ new } : Strand).drained ∧ sid ∉ (u.parts[p]).stall := by
  obtain ⟨u, hu, hstrands, hparts, -, -⟩ := run_leaves hrun (pageStallDrain p sid)
  obtain ⟨hdrained, hclear⟩ := pageStallDrain_drains ht hst hneed htake hex
  refine ⟨u, hu, ?_, by rwa [hparts]⟩
  rw [State.strand?, hstrands, ← State.strand?, hdrained]

/-- A refill tick that is not due. -/
theorem refill_idle (hrun : s.running = true) (hdue : s.refillDue = false) : Does .refillTick s s :=
  does_quiet (f := fun s => if s.refillDue then (refillTick s).tell 6 0 0#64 else refillTick s) hrun rfl
    ((if_neg (by simp [hdue])).trans (refillTick_idle hdue)) rfl

/-- A refill tick that is due. -/
theorem refilled_accounts (hrun : s.running = true) (hdue : s.refillDue = true) (hn : ((s.parts[p]).accts.map (·.num)).Nodup) :
    ∃ t, exec .refillTick s = .next t ∧ ∀ a ∈ (s.parts[p]).accts, t.acct p a.num = a.refill := by
  obtain ⟨t, ht, -, hparts, -, -⟩ := run_leaves hrun (fun s => if s.refillDue then (refillTick s).tell 6 0 0#64 else refillTick s)
  refine ⟨t, ht, fun a ha => ?_⟩
  rw [State.acct_congr (s := refillTick s) (by rw [hparts, hdue, if_pos rfl, State.tell_parts])]
  exact refillTick_acct hdue hn ha

/-- A period of the placement loop that moves one strand. -/
theorem placed_strand {h l : Clu} {t : Strand} {r : List Strand} (hwf : s.regsWf = true) (hrun : s.running = true) (hdue : s.placeDue p)
    (hen : s.enabled p = true) (hon : s.rb (rPrtPlace p) 31 = true) (hone : s.rf (rPrtPlace p) 16 12 = 1)
    (hh : firstBest (fun a b => s.cluLoad p b < s.cluLoad p a) (s.placeClusters p) = some h)
    (hl : firstBest (fun a b => s.cluLoad p a < s.cluLoad p b) (s.placeClusters p) = some l)
    (hload : ((s.placeClusters p).map (s.cluLoad p)).sum * (100 + s.rf (rPrtPlace p) 8 8) < s.cluLoad p h * 100 * (s.placeClusters p).length)
    (hc : (s.candidates p (s.idleMin p)).filter (fun t => t.home == h) = t :: r) (hcost : s.cluLoad p l + s.strandCost t < s.cluLoad p h) :
    ∃ u w, exec (.placementPeriod p) s = .next u ∧ assocGet 0 u.lastAt (0x10 + p.val) = s.time ∧ u.strand? p t.session = some w ∧
      w.home = l ∧ w.hist = t.hist ∧ w.steps = t.steps ∧ (u.reg (rPrtPlaceCnt p)).toNat = min ((s.reg (rPrtPlaceCnt p)).toNat + 1) 0xFFFFFFFF := by
  have hf : placementPeriod p s = ((s.periodMark (0x10 + p.val)).rehome t l).bump (rPrtPlaceCnt p) := by
    rw [placementPeriod_due hdue]
    refine (if_pos (by rw [Bool.and_eq_true]; exact ⟨hen, hon⟩)).trans ?_
    rw [show (s.periodMark (0x10 + p.val)).rf (rPrtPlace p) 16 12 = 1 from hone]
    exact State.placeMoves_one hh hl hload hc hcost
  have htime : s.time ≠ 0 := by
    have hpos : 1 ≤ max 1 (s.rf (rPrtPlace p) 0 8) := Nat.le_max_left _ _
    unfold State.placeDue at hdue
    omega
  obtain ⟨ht, htp⟩ := State.candidates_resident (List.mem_filter.mp (hc ▸ List.mem_cons_self : t ∈ _)).1
  obtain ⟨w, hw, hhome, hhist, hsteps⟩ := State.strand?_rehome (s := s.periodMark (0x10 + p.val)) ht l
  rw [htp] at hw
  obtain ⟨u, hu, hstrands, -, hlast, hreg⟩ := run_leaves hrun (placementPeriod p)
  rw [hf] at hstrands hlast hreg
  have hregs : ∀ o, ((s.periodMark (0x10 + p.val)).rehome t l).reg o = s.reg o := fun o => by rw [State.reg, State.rehome_regs]; rfl
  refine ⟨u, w, hu, ?_, ?_, hhome, hhist, hsteps, ?_⟩
  · rw [hlast, State.bump_lastAt, State.rehome_lastAt]
    exact State.periodMark_at htime _
  · rw [State.strand?, hstrands, State.bump_strands, ← State.strand?]
    exact hw
  · rw [hreg _ (rPrtPlaceCnt_note p), State.reg_bump (by rw [State.regsWf, State.rehome_regs]; exact hwf), hregs]

/-- Settles O48: each clause is one of the lemmas above; the walk of a rung ends at the first park that gives enough pages. -/
theorem reclaim : Obligations.Reclaim := by
  unfold Obligations.Reclaim
  intro s p hcanon hrun lo idle settled parks told
  refine ⟨?enough, ?untold, ?rung1Parks, ?rung1Single, ?free, ?rung2Parks, ?rung2GoesOn, ?drain, ?later, ?clear, ?noTick, ?untoldTick, ?refill, ?_⟩
  case enough => exact fun hset h => does_quiet hrun rfl (reclaimRung1_enough hset h) rfl
  case untold =>
    exact fun hrole h hset => ⟨does_quiet hrun rfl (reclaimRung1_untold hset hrole h) rfl,
      fun need => does_quiet hrun rfl (reclaimRung2_untold hset hrole h) rfl⟩
  case rung1Parks =>
    intro t l id len s1 hrole hset hlo hc hpark hhi
    refine does_writer hrun rfl hrole ?_
    rw [reclaimRung1_short hset hlo, hc]
    exact reclaimWalk_last hrole (State.hiMet_short hset hlo) (State.candidates_head hc) hpark (State.hiMet_tellParked hhi) l
  case rung1Single =>
    intro t hrole hset hlo hc
    have hstop := State.hiMet_short hset hlo
    have htp := State.candidates_head hc
    constructor
    · intro ⟨st, hpark⟩
      refine does_quiet hrun rfl ?_ rfl
      rw [reclaimRung1_short hset hlo, hc, reclaimWalk_goesOn hrole hstop htp hpark]
      rfl
    · intro hpark
      refine does_quiet hrun rfl ?_ rfl
      rw [reclaimRung1_short hset hlo, hc, reclaimWalk_goesOn hrole hstop htp hpark]
      exact State.firstReclaim hset t.session
  case free =>
    intro need hset h
    have hmet := State.needMet_free h
    exact does_quiet hrun rfl (reclaimRung2_met hset (reclaimWalk_stopped hmet _) hmet) rfl
  case rung2Parks =>
    intro need t l id len s1 hrole hset hs hc hpark henough
    have hmet := State.needMet_tellParked (t := t) (id := id) henough
    refine does_writer hrun rfl hrole (reclaimRung2_met hset ?_ hmet)
    rw [hc]
    exact reclaimWalk_last hrole (State.needMet_short hset hs) (State.candidates_head hc) hpark hmet l
  case rung2GoesOn =>
    intro need t l id len s1 hrole hset hs hnone hc hpark henough
    have hshort := State.needMet_short hset hs
    refine does_writer hrun rfl hrole ?_
    rw [reclaimRung2_goesOn hset hnone hshort, hc]
    exact reclaimWalk_last hrole hshort (State.candidates_head hc) hpark (State.needMet_tellParked henough) l
  case drain =>
    intro sid t new s1 ht hst hneed h k htake
    have hk : t.drainNeed = (h, k) := by simp [Strand.drainNeed, h, k, and_assoc]
    have hlacks : t.lacks = h + k - t.sparePages.length := by rw [Strand.lacks, hk]
    rw [← hlacks] at htake
    have hmem : s1.mem = s.mem := State.takePages_mem htake
    constructor
    · exact fun hex => does_quiet hrun rfl (pageStallDrain_held ht hst hneed htake hex) hmem
    · intro hex
      obtain ⟨u, hu, hw, hclear⟩ := drained_strand hrun ht hst hneed htake hex
      have hk' : ({ t with sparePages := t.sparePages ++ new } : Strand).drainNeed = (h, k) := hk
      rw [Strand.drained, hk'] at hw
      exact ⟨u, _, hu, hw, rfl, rfl, rfl, rfl, rfl, rfl, hclear⟩
  case later => exact fun sid h => does_quiet hrun rfl (pageStallDrain_later h) rfl
  case clear => exact fun sid t ht h => does_quiet hrun rfl (pageStallDrain_clear ht h) rfl
  case noTick =>
    refine fun hrole h => refill_idle hrun (Bool.eq_false_iff.mpr fun hdue => ?_)
    rcases State.refillDue_iff.mp hdue with ⟨hsec, -⟩ | ⟨-, hpos, htick, hnew⟩
    · exact hrole hsec
    · omega
  case untoldTick =>
    refine fun hrole h => refill_idle hrun (Bool.eq_false_iff.mpr fun hdue => ?_)
    rcases State.refillDue_iff.mp hdue with ⟨-, d, hd, hkind⟩ | ⟨hprim, -⟩
    · exact h d hd hkind
    · exact hprim hrole
  case refill =>
    intro hn hdue
    obtain ⟨t, ht, hacct⟩ := refilled_accounts hrun (State.refillDue_iff.mpr hdue) hn
    refine ⟨t, ht, fun a ha => ?_⟩
    rw [hacct a ha]
    exact a.refill_fields
  intro placeDue
  refine ⟨?early, ?off, ?moves⟩
  case early => exact fun h => does_quiet hrun rfl (placementPeriod_early h) rfl
  case off =>
    intro hdue hoff
    refine does_quiet hrun rfl ((placementPeriod_due hdue).trans (if_neg ?_)) rfl
    rw [show (s.periodMark (0x10 + p.val)).rb (rPrtPlace p) 31 = false from hoff, Bool.and_false]
    exact Bool.false_ne_true
  case moves =>
    exact fun h l t r hdue hen hon hone hh hl hload hc hcost => placed_strand hcanon.2.2 hrun hdue hen hon hone hh hl hload hc hcost

end Sys2Proof.Claims
end

