-- ==== Sys2Proof/Proofs/Objects.lean ====
section
/-! PROOF. Sys2Proof/Proofs/Objects.lean: a retire that frees its ID at its commit. -/
namespace Sys2Proof.Machine
open Sys2Proof

/-! ### A retire of an object that nothing refers to (R184) -/

namespace FreedAtRetire

/-- Version 1 of object 2, live. -/
def object : ObjVersion := { part := 0, id := 2#32, ver := 1, kind := 5, keySel := 0, hdr := [], digest := 0#128, sects := [], live := true }

/-- A ready OBJECT_RETIRE of object 2. -/
def op : OpCtx :=
  { id := 0, part := 0, ring := 0, index := 0#32, entry := leBytes 1 opOBJECT_RETIRE ++ List.replicate 23 0#8 ++ leBytes 4 2 ++ List.replicate 36 0#8
    seq := 0, st := .ready, bound := true }

/-- DONE, with that object and its record, and no op, strand, locket or version that refers to it. -/
def held : State :=
  { State.reset.setReg rCfgBootStat 0x80000000#32 with objs := [object], objIds := [{ part := 0, id := 2#32, next := 2, kind := 5 }] }

/-- The same with the retire dispatched: its context, and its mark in the record (R185). -/
def state : State := { held.markObject 0 op.entry with ctxs := [op] }

/-- Object 2 is LIVE, and R185 refuses no retire of it. -/
theorem held_live : held.objState 0 2#32 = 2 ∧ held.retireFault 0 2#32 = none := by decide +kernel

theorem state_canon : state.canon := by unfold State.canon; decide +kernel
theorem state_alone : Claims.Alone state := by unfold Claims.Alone; decide +kernel
theorem state_op : Claims.ReadyOp state 0 opOBJECT_RETIRE op := by unfold Claims.ReadyOp; decide +kernel

/-- The commit frees the only version, and with it the ID: what is left is the mark of the retire in flight. -/
theorem retire_frees : (objectRetire 0 state).objs = [] ∧ (objectRetire 0 state).objState 0 2#32 = 0 ∧
    (objectRetire 0 state).objId? 0 2#32 = some { part := 0, id := 2#32, retireInFlight := true } := by
  decide +kernel

end FreedAtRetire
end Sys2Proof.Machine

namespace Sys2Proof.Claims
open Machine

theorem Noted.objId? {u t : State} (h : Noted u t) (p : Part) (id : Word) : t.objId? p id = u.objId? p id := by
  rw [State.objId?, State.objId?, h.1]

/-- Refutes O44: of an OBJECT_RETIRE the statement says that whatever record its ID has after the commit is marked RETIRING. Where nothing refers to the
ID's versions, the commit frees them and the ID becomes FREE (R184); its record stays until the retire completes (R185, `State.dropId`), and is not
marked RETIRING. The witness is `FreedAtRetire.state`. -/
theorem not_objects : ¬ Obligations.Objects := by
  unfold Obligations.Objects
  intro h
  obtain ⟨-, -, hretire, -⟩ := h FreedAtRetire.state 0 FreedAtRetire.op FreedAtRetire.state_canon FreedAtRetire.state_alone
  obtain ⟨t, -, ht, -, -, -, -, hmark⟩ := hretire FreedAtRetire.state_op
  obtain ⟨t', ht', hn⟩ := FreedAtRetire.state_alone.works (.objectRetire 0) (objectRetire 0)
  have htt : t = t' := by
    have heq := ht.symm.trans ht'
    injection heq
  obtain ⟨-, -, hleft⟩ := FreedAtRetire.retire_frees
  rw [← hn.objId?, ← htt] at hleft
  exact absurd (hmark _ hleft) Bool.false_ne_true

end Sys2Proof.Claims
end

