-- ==== Sys2Proof/Proofs/MaskBatch.lean ====
section
/-! PROOF. Sys2Proof/Proofs/MaskBatch.lean: the slots, items and end of a MASK_BATCH. -/
namespace Sys2Proof.Machine
open Sys2Proof
variable {s t u v : State} {c : Ctx} {x y : OpCtx} {i : BatchItem} {w : Strand} {ms : NodeMasks} {tree : DTree} {a sz : Nat} {form : Bool}

/-! ### Mask slots (R312, R313) -/

theorem State.writeMask_live (s : State) (w : Strand) (a : Nat) (form : Bool) (level node : Nat) (m : Option NodeMask) :
    (s.writeMask w a form level node m).live = s.live := by
  unfold State.writeMask
  extract_lets veff
  cases m with
  | none => exact State.wrBytes_live _ _ _
  | some m => exact (State.wrBytes_live _ _ _).trans (State.wrBytes_live _ _ _)

theorem writeMasks_live (l : List Nat) (n : Nat) (s : State) : (writeMasks w tree a sz form ms l n s).2.2.live = s.live := by
  induction l generalizing n s with
  | nil => rfl
  | cons k l ih =>
    unfold writeMasks
    split
    · rfl
    · exact (ih _ _).trans (State.writeMask_live _ _ _ _ _ _ _)

/-- At most one tag is written for each slot. -/
theorem writeMasks_le (l : List Nat) (n : Nat) (s : State) : (writeMasks w tree a sz form ms l n s).2.1 ≤ n + l.length := by
  induction l generalizing n s with
  | nil => exact Nat.le_refl _
  | cons k l ih =>
    unfold writeMasks
    split
    · exact Nat.le_add_right _ _
    · have hl := ih (n + 1) (s.writeMask w (a + k * sz) form (if k == 0 then 1 else tree.level k) k (assocFind ms k))
      rw [List.length_cons]
      omega

theorem assocFind_mem {α : Type} {l : List (Nat × α)} {k : Nat} {b : α} (h : assocFind l k = some b) : (k, b) ∈ l := by
  induction l with
  | nil => cases h
  | cons z l ih =>
    unfold assocFind at h
    split at h
    next hz =>
      cases h
      rw [← beq_iff_eq.mp hz]
      exact List.mem_cons_self
    · exact List.mem_cons_of_mem _ (ih h)

/-- A slot whose mask has no fault gets its tag, and the next one follows. -/
theorem writeMasks_cons {k : Nat} (h : (assocFind ms k).bind (·.res.fault) = none) (l : List Nat) (n : Nat) (s : State) :
    writeMasks w tree a sz form ms (k :: l) n s = writeMasks w tree a sz form ms l (n + 1)
      (s.writeMask w (a + k * sz) form (if k == 0 then 1 else tree.level k) k (assocFind ms k)) := by
  rw [writeMasks, h]

/-- Without a fault of the check program a tag is written for each slot (R395). -/
theorem writeMasks_all (h : ∀ z ∈ ms, z.2.res.fault = none) (l : List Nat) (n : Nat) (s : State) :
    (writeMasks w tree a sz form ms l n s).1 = stOk ∧ (writeMasks w tree a sz form ms l n s).2.1 = n + l.length := by
  induction l generalizing n s with
  | nil => exact ⟨rfl, rfl⟩
  | cons k l ih =>
    have hk : (assocFind ms k).bind (·.res.fault) = none := by
      cases hm : assocFind ms k with
      | none => rfl
      | some m => exact h _ (assocFind_mem hm)
    rw [writeMasks_cons hk]
    obtain ⟨hst, hn⟩ := ih (n + 1) (s.writeMask w (a + k * sz) form (if k == 0 then 1 else tree.level k) k (assocFind ms k))
    exact ⟨hst, hn.trans (by rw [List.length_cons]; omega)⟩

/-- The parts of a tag that tell its session, its epoch and how many tokens its mask allows (R313). -/
def TagRow (sid epoch allowed : Nat) (b : List Byte) : Prop :=
  ∃ k m f : List Byte, k.length = 12 ∧ m.length = 8 ∧ f.length = 28 ∧
    b = leBytes 4 sid ++ (k ++ (leBytes 8 epoch ++ (m ++ (leBytes 4 allowed ++ f))))

theorem maskTag_row {veff level node allowed ivs len q depth : Nat} {list terminal ovf : Bool} {st : BitVec 8} :
    TagRow w.session.toNat w.epoch.toNat allowed (maskTag w veff level node list terminal ovf st allowed ivs len q depth) := by
  refine ⟨leBytes 1 node ++ leBytes 1 ((if list then 128 else 0) + (if terminal then 64 else 0) + if ovf then 32 else 0) ++
      leBytes 1 st.toNat ++ leBytes 1 0 ++ leBytes 8 (w.steps + BitVec.ofNat 40 (level - 1)).toNat,
    leBytes 4 (w.hist.length + level - 1) ++ leBytes 4 veff,
    leBytes 4 ivs ++ leBytes 4 len ++ leBytes 3 q ++ leBytes 1 0 ++ leBytes 2 depth ++ leBytes 14 0, ?_, ?_, ?_, ?_⟩
  · simp
  · simp
  · simp
  · simp only [maskTag, List.append_assoc]

theorem TagRow.length {sid epoch allowed : Nat} {b : List Byte} (h : TagRow sid epoch allowed b) : b.length = 64 := by
  obtain ⟨k, m, f, hk, hm, hf, rfl⟩ := h
  simp [hk, hm, hf]

/-- A tag in memory reads as its row. -/
theorem TagRow.reads {sid epoch allowed : Nat} {b : List Byte} (h : TagRow sid epoch allowed b) (hs : s.holds a b) (hsid : sid < 2 ^ 32)
    (hepoch : epoch < 2 ^ 64) :
    s.rdLE a 4 = sid ∧ s.rdLE (a + 16) 8 = epoch ∧ (allowed < 2 ^ 32 → s.rdLE (a + 32) 4 = allowed) := by
  obtain ⟨k, m, f, hk, hm, -, rfl⟩ := h
  simp only [State.holds_append, leBytes_length, hk, hm, Nat.add_assoc, Nat.reduceAdd] at hs
  obtain ⟨h0, -, h16, -, h32, -⟩ := hs
  exact ⟨h0.rdLE hsid, h16.rdLE hepoch, fun h => h32.rdLE h⟩

/-- A slot with a mask begins with its tag. -/
theorem State.writeMask_tag (hwf : s.memWf = true) (w : Strand) (a : Nat) (form : Bool) (level node : Nat) (m : NodeMask) :
    ∃ b, TagRow w.session.toNat w.epoch.toNat m.toks.length b ∧ (s.writeMask w a form level node (some m)).holds a b := by
  have hwritten : ∀ (v : State) (b : List Byte), v.memWf = true → TagRow w.session.toNat w.epoch.toNat m.toks.length b →
      ∃ b', TagRow w.session.toNat w.epoch.toNat m.toks.length b' ∧ (v.wrBytes a b).holds a b' := fun v b hv hb =>
    ⟨b, hb, State.holds_wrBytes hv (by rw [hb.length]; decide)⟩
  unfold State.writeMask
  exact hwritten _ _ (State.wrBytes_memWf _ _ hwf) maskTag_row

/-! ### One item (R315) -/

/-- An item of a MASK_BATCH that has ended with a status and its number of tags. -/
def BatchItem.masked (st : BitVec 8) (n : Nat) (i : BatchItem) : BatchItem := { i with phase := .done, status := st, done := n }

/-- The masks of an item, and the state once they have been built: those of its tree, or the one of its strand. -/
def State.itemMasks (s : State) (x : OpCtx) (i : BatchItem) (w : Strand) : NodeMasks × State :=
  if i.isTree then s.forkTree w (s.readTree i.mTree i.mNodes) x.mode
  else
    let (r, s) := s.useRa w x.mode false
    ([(0, ⟨w.config, r.mask, s.allowed w r.mask⟩)], s)

theorem State.itemMasks_tree (h : i.isTree = true) (s : State) (x : OpCtx) (w : Strand) :
    s.itemMasks x i w = s.forkTree w (s.readTree i.mTree i.mNodes) x.mode := if_pos h

theorem State.itemMasks_plain {r : RunAhead} (h : i.isTree = false) (hr : w.ra = some r) (s : State) (x : OpCtx) :
    s.itemMasks x i w = ([(0, ⟨w.config, r.mask, s.allowed w r.mask⟩)], s) := by
  rw [State.itemMasks, h, State.useRa, hr]
  rfl

/-- The masks of an item written to its slots: the status of the item, its number of tags, and the state. -/
def State.writeItem (s : State) (x : OpCtx) (i : BatchItem) (w : Strand) (tree : DTree) (ms : NodeMasks) : BitVec 8 × Nat × State :=
  writeMasks w tree (leAt x.entry 40 8 + i.offset) i.slotSz ((leAt x.entry 36 1).testBit 0) ms (List.range i.slots) 0 s

theorem State.writeItem_live (s : State) (x : OpCtx) (i : BatchItem) (w : Strand) (tree : DTree) (ms : NodeMasks) :
    (s.writeItem x i w tree ms).2.2.live = s.live := writeMasks_live _ _ _

theorem State.writeItem_le (s : State) (x : OpCtx) (i : BatchItem) (w : Strand) (tree : DTree) (ms : NodeMasks) :
    (s.writeItem x i w tree ms).2.1 ≤ i.slots :=
  (writeMasks_le _ _ _).trans (by rw [List.length_range, Nat.zero_add])

theorem State.writeItem_all (h : ∀ z ∈ ms, z.2.res.fault = none) (s : State) (x : OpCtx) (i : BatchItem) (w : Strand) (tree : DTree) :
    (s.writeItem x i w tree ms).1 = stOk ∧ (s.writeItem x i w tree ms).2.1 = i.slots := by
  obtain ⟨hst, hn⟩ := writeMasks_all (w := w) (tree := tree) (a := leAt x.entry 40 8 + i.offset) (sz := i.slotSz)
    (form := (leAt x.entry 36 1).testBit 0) h (List.range i.slots) 0 s
  exact ⟨hst, hn.trans (by rw [List.length_range, Nat.zero_add])⟩

/-- The one slot of a plain item begins with the tag of its mask. -/
theorem State.writeItem_tag {m : NodeMask} (hwf : s.memWf = true) (hslots : i.slots = 1) (hm : m.res.fault = none) (x : OpCtx) (w : Strand)
    (tree : DTree) :
    ∃ b, TagRow w.session.toNat w.epoch.toNat m.toks.length b ∧
      (s.writeItem x i w tree [(0, m)]).2.2.holds (leAt x.entry 40 8 + i.offset) b := by
  have hone : (s.writeItem x i w tree [(0, m)]).2.2 = s.writeMask w (leAt x.entry 40 8 + i.offset + 0 * i.slotSz)
      ((leAt x.entry 36 1).testBit 0) 1 0 (some m) := by
    rw [State.writeItem, hslots, List.range_one, writeMasks_cons (ms := [(0, m)]) (k := 0) hm, writeMasks]
    simp only [assocFind, beq_self_eq_true, if_true]
  rw [hone, Nat.zero_mul]
  exact State.writeMask_tag hwf w _ _ 1 0 m

variable {k lim : Nat}

theorem State.maskItem_absent (h : s.strand? x.part i.session = none) :
    s.maskItem x k i lim = s.itemUpd x.id k (.masked stNotResident 0) := by
  unfold State.maskItem
  rw [h]
  rfl

theorem State.maskItem_faulted {st : BitVec 8} (hw : s.strand? x.part i.session = some w) (hf : s.maskItemFault x i w = some st) :
    s.maskItem x k i lim = s.itemUpd x.id k (.masked st 0) := by
  unfold State.maskItem
  rw [hw]
  dsimp only
  rw [hf]
  rfl

/-- An item without a fault has slots of the size that its mask needs (R312). -/
theorem State.maskItemFault_slotSz (h : s.maskItemFault x i w = none) : i.slotSz = 64 + bitsetLen (s.veff w) := by
  unfold State.maskItemFault at h
  extract_lets exp at h
  split at h
  · cases h
  next hok =>
    simp only [Bool.or_eq_true, bne_iff_ne, not_or, Decidable.not_not] at hok
    obtain ⟨⟨⟨⟨-, hsz⟩, -⟩, -⟩, -⟩ := hok
    exact hsz

/-- An item with room for its tags ends when its masks have been written. -/
theorem State.maskItem_written (hw : s.strand? x.part i.session = some w) (hf : s.maskItemFault x i w = none)
    (hm : s.itemMasks x i w = (ms, u)) (hlim : i.slots ≤ lim) :
    s.maskItem x k i lim = (u.writeItem x i w (s.readTree i.mTree i.mNodes) ms).2.2.itemUpd x.id k
      (.masked (u.writeItem x i w (s.readTree i.mTree i.mNodes) ms).1 (u.writeItem x i w (s.readTree i.mTree i.mNodes) ms).2.1) := by
  have hno : ∀ st : BitVec 8, ¬((st == stOk && Decidable.decide (lim < i.slots)) = true) := fun st => by simp [Nat.not_lt.mpr hlim]
  rw [State.itemMasks] at hm
  unfold State.maskItem
  rw [hw]
  dsimp only
  rw [hf]
  dsimp only
  rw [hm]
  dsimp only
  rw [if_neg (hno _), Nat.min_eq_left hlim]
  rfl

/-- A plain item whose mask has been built ends, and nothing of the ops and strands changes but the item. -/
theorem State.maskItem_plain (htree : i.isTree = false) (hra : ∀ w, s.strand? x.part i.session = some w → w.ra.isSome = true)
    (hlim : i.slots ≤ lim) :
    ∃ st n v, s.maskItem x k i lim = State.itemUpd v x.id k (.masked st n) ∧ v.live = s.live ∧ n ≤ i.slots := by
  cases hw : s.strand? x.part i.session with
  | none => exact ⟨_, _, s, State.maskItem_absent hw, rfl, Nat.zero_le _⟩
  | some w =>
    cases hf : s.maskItemFault x i w with
    | some st => exact ⟨_, _, s, State.maskItem_faulted hw hf, rfl, Nat.zero_le _⟩
    | none =>
      obtain ⟨r, hr⟩ := Option.isSome_iff_exists.mp (hra w hw)
      exact ⟨_, _, _, State.maskItem_written hw hf (State.itemMasks_plain htree hr s x) hlim, State.writeItem_live _ _ _ _ _ _,
        State.writeItem_le _ _ _ _ _ _⟩

/-! ### All items -/

/-- One item more, as far as the tags left allow: what `State.maskItems` does with each. -/
def State.maskNext (x : OpCtx) (r : Nat × State) (a : BatchItem × Nat) : Nat × State :=
  if a.1.phase == .done then r
  else
    let s := r.2.maskItem x a.2 a.1 r.1
    (r.1 - (((s.ctx? x.id).bind (fun y => y.items[a.2]?)).map (·.done) |>.getD 0), s)

theorem State.maskItems_eq (s : State) (x : OpCtx) (lim : Nat) : s.maskItems x lim = (x.items.zipIdx.foldl (State.maskNext x) (lim, s)).2 := rfl

theorem State.ctx?_itemUpd (h : s.ctx? c = some y) (k : Nat) (f : BatchItem → BatchItem) :
    (s.itemUpd c k f).ctx? c = some { y with items := y.items.modify k f } := State.ctx?_ctxUpd h (fun _ => rfl)

/-- The only item of a batch, not yet ended. -/
theorem State.maskItems_single (hi : x.items = [i]) (h : i.phase = .waiting) (s : State) (lim : Nat) : s.maskItems x lim = s.maskItem x 0 i lim := by
  rw [State.maskItems_eq, hi]
  exact congrArg Prod.snd (if_neg (by rw [h]; decide))

/-- Items `ended` of `x` have ended and `rest` are as they were; no strand of `s` has changed. -/
structure MasksBuilt (s : State) (x : OpCtx) (ended rest : List BatchItem) (u : State) : Prop where
  ctx : u.ctx? x.id = some { x with items := ended ++ rest }
  strands : u.strands = s.strands
  done : ∀ j ∈ ended, j.phase = .done

/-- A plain item whose mask has been built. -/
def State.PlainMask (s : State) (x : OpCtx) (i : BatchItem) : Prop :=
  i.isTree = false ∧ ∀ w, s.strand? x.part i.session = some w → w.ra.isSome = true

variable {ended rest : List BatchItem}

theorem MasksBuilt.next (h : MasksBuilt s x ended (i :: rest) u) (hi : s.PlainMask x i) (hlim : i.slots + (rest.map (·.slots)).sum ≤ lim) :
    ∃ j m v, State.maskNext x (lim, u) (i, ended.length) = (m, v) ∧ MasksBuilt s x (ended ++ [j]) rest v ∧ (rest.map (·.slots)).sum ≤ m := by
  obtain ⟨hctx, hstrands, hdone⟩ := h
  obtain ⟨htree, hra⟩ := hi
  have hended : ∀ j : BatchItem, j.phase = .done → ∀ z ∈ ended ++ [j], z.phase = .done := fun j hj z hz => by
    rcases List.mem_append.mp hz with hz | hz
    · exact hdone z hz
    · rw [List.mem_singleton.mp hz, hj]
  by_cases hp : i.phase = .done
  · exact ⟨i, lim, u, if_pos (by rw [hp]; rfl), ⟨by rw [hctx]; simp, hstrands, hended i hp⟩, by omega⟩
  · have hra' : ∀ w, u.strand? x.part i.session = some w → w.ra.isSome = true := fun w hw => by
      rw [State.strand?, hstrands] at hw
      exact hra w hw
    obtain ⟨st, n, v, hitem, hlive, hn⟩ := State.maskItem_plain (k := ended.length) htree hra' (show i.slots ≤ lim by omega)
    have hmod : (ended ++ i :: rest).modify ended.length (.masked st n) = ended ++ [i.masked st n] ++ rest := by
      rw [List.modify_eq_take_cons_drop (by simp)]
      simp
    have hv := State.ctx?_itemUpd ((live_ctx? hlive x.id).trans hctx) ended.length (.masked st n)
    dsimp only at hv
    rw [hmod] at hv
    refine ⟨i.masked st n, lim - n, _, ?_, ⟨hv, (live_strands hlive).trans hstrands, hended _ rfl⟩, by omega⟩
    rw [State.maskNext, if_neg (by simpa using hp)]
    dsimp only
    rw [hitem, hv]
    simp [BatchItem.masked]

theorem MasksBuilt.all (h : MasksBuilt s x ended rest u) (hrest : ∀ i ∈ rest, s.PlainMask x i) (hlim : (rest.map (·.slots)).sum ≤ lim) :
    ∃ l m v, (rest.zipIdx ended.length).foldl (State.maskNext x) (lim, u) = (m, v) ∧ MasksBuilt s x l [] v ∧
      l.length = ended.length + rest.length := by
  induction rest generalizing ended u lim with
  | nil => exact ⟨ended, lim, u, rfl, h, rfl⟩
  | cons i rest ih =>
    obtain ⟨j, m, v, hnext, hv, hm⟩ := h.next (hrest i List.mem_cons_self) hlim
    obtain ⟨l, m', v', hfold, hv', hl⟩ := ih hv (fun i hi => hrest i (List.mem_cons_of_mem _ hi)) hm
    refine ⟨l, m', v', ?_, hv', by rw [hl, List.length_append, List.length_singleton, List.length_cons]; omega⟩
    rw [List.length_append, List.length_singleton] at hfold
    rw [List.zipIdx_cons, List.foldl_cons, hnext, hfold]

/-- A batch of plain items whose masks have been built ends them all. -/
theorem State.maskItems_plain (hx : s.ctx? x.id = some x) (h : ∀ i ∈ x.items, s.PlainMask x i) :
    ∃ l, MasksBuilt s x l [] (s.maskItems x (x.items.map (·.slots)).sum) ∧ l.length = x.items.length := by
  have h0 : MasksBuilt s x [] x.items s := ⟨hx, rfl, fun _ h => absurd h List.not_mem_nil⟩
  obtain ⟨l, m, v, hfold, hv, hl⟩ := h0.all h (Nat.le_refl _)
  refine ⟨l, ?_, hl.trans (Nat.zero_add _)⟩
  rw [State.maskItems_eq]
  exact (congrArg Prod.snd hfold).symm ▸ hv

/-! ### The end of a MASK_BATCH (R312, R316) -/

/-- The index of a MASK_BATCH that ends with a status. -/
def OpCtx.maskIndex (x : OpCtx) (st : BitVec 8) : List Byte :=
  x.items.flatMap (fun i => leBytes 4 i.offset ++ leBytes 1 i.slots ++ leBytes 1 i.done ++
    leBytes 1 (if i.phase == .done then i.status else st).toNat ++ leBytes 9 0)

theorem OpCtx.maskIndex_length (x : OpCtx) (st : BitVec 8) : (x.maskIndex st).length = 16 * x.items.length :=
  flatMap_length_of (fun _ => by simp) _

/-- Its index and header are written, and it has its final status and results. -/
theorem State.endMasks_eq (u : State) (x : OpCtx) (st : BitVec 8) :
    ∃ tl : List Byte, tl.length = 52 ∧ u.endMasks x st = ((u.wrBytes (leAt x.entry 40 8 + 64) (x.maskIndex st)).wrBytes (leAt x.entry 40 8)
      (leBytes 8 (eTag x.entry) ++ (leBytes 4 x.items.length ++ tl))).ctxUpd x.id (fun y => { y with
        st := .past, status := some st, res0 := BitVec.ofNat 64 x.maskEnd, res1 := BitVec.ofNat 32 x.masksDone }) := by
  refine ⟨leBytes 4 x.masksDone ++ leBytes 4 x.maskEnd ++ leBytes 1 st.toNat ++ leBytes 1 (leAt x.entry 36 1 % 2) ++
    leBytes 1 x.part.val ++ leBytes 41 0, by simp, ?_⟩
  rw [State.endMasks]
  simp only [List.append_assoc, OpCtx.maskIndex]

theorem State.endMasks_ctx? (h : u.ctx? x.id = some y) (st : BitVec 8) :
    (u.endMasks x st).ctx? x.id = some { y with
      st := .past, status := some st, res0 := BitVec.ofNat 64 x.maskEnd, res1 := BitVec.ofNat 32 x.masksDone } := by
  obtain ⟨tl, -, hend⟩ := u.endMasks_eq x st
  rw [hend]
  exact State.ctx?_ctxUpd ((live_ctx? ((State.wrBytes_live _ _ _).trans (State.wrBytes_live _ _ _)) _).trans h) (fun _ => rfl)

/-- The header counts the items. -/
theorem State.endMasks_count (hwf : u.memWf = true) (st : BitVec 8) (h : x.items.length < 2 ^ 32) :
    (u.endMasks x st).rdLE (leAt x.entry 40 8 + 8) 4 = x.items.length := by
  obtain ⟨tl, htl, hend⟩ := u.endMasks_eq x st
  have hhdr := State.holds_wrBytes (State.wrBytes_memWf (x.maskIndex st) (leAt x.entry 40 8 + 64) hwf) (a := leAt x.entry 40 8)
    (l := leBytes 8 (eTag x.entry) ++ (leBytes 4 x.items.length ++ tl)) (by simp [htl])
  rw [State.holds_append, State.holds_append, leBytes_length] at hhdr
  obtain ⟨-, hcount, -⟩ := hhdr
  rw [hend]
  exact State.holds.rdLE (State.holds_congr hcount (State.ctxUpd_mem _ _ _)) h

/-- What stands behind the index stays. -/
theorem State.endMasks_holds {b : List Byte} (hwf : u.memWf = true) (st : BitVec 8) (h : u.holds a b)
    (hlo : leAt x.entry 40 8 + 64 + 16 * x.items.length ≤ a) (hhi : a + b.length ≤ 2 ^ 64) : (u.endMasks x st).holds a b := by
  obtain ⟨tl, htl, hend⟩ := u.endMasks_eq x st
  have hidx := x.maskIndex_length st
  have hhdr : (leBytes 8 (eTag x.entry) ++ (leBytes 4 x.items.length ++ tl)).length = 64 := by simp [htl]
  have h1 := h.wrBytes hwf (b := leAt x.entry 40 8 + 64) (m := x.maskIndex st) (by omega) (by omega) (by omega)
  have h2 := h1.wrBytes (State.wrBytes_memWf _ _ hwf) (b := leAt x.entry 40 8)
    (m := leBytes 8 (eTag x.entry) ++ (leBytes 4 x.items.length ++ tl)) (by omega) (by omega) (by omega)
  rw [hend]
  exact State.holds_congr h2 (State.ctxUpd_mem _ _ _)

/-! ### MASK_BATCH (R51, R108) -/

theorem maskBatch_waits (hx : s.ctx? c = some x) (h : s.opBefore x = true) : maskBatch c s = s := by
  unfold maskBatch
  rw [hx]
  exact if_neg (by simp [h])

theorem maskBatch_ends (hx : s.ctx? c = some x) (hop : eOp x.entry = opMASK_BATCH) (hst : x.st = .ready) (hb : s.opBefore x = false)
    (h : (s.maskItems x (x.items.map (·.slots)).sum).ctx? c = some y) :
    maskBatch c s = (s.maskItems x (x.items.map (·.slots)).sum).endMasks y stOk := by
  unfold maskBatch
  rw [hx]
  dsimp only
  rw [if_pos (by simp [hop, hst, hb]), h]

/-- A batch of one item whose masks have been built writes its slots and ends. -/
theorem maskBatch_single (hx : s.ctx? c = some x) (hop : eOp x.entry = opMASK_BATCH) (hst : x.st = .ready) (hb : s.opBefore x = false)
    (hi : x.items = [i]) (hwait : i.phase = .waiting) (hw : s.strand? x.part i.session = some w) (hf : s.maskItemFault x i w = none)
    (hm : s.itemMasks x i w = (ms, u)) (hfault : ∀ z ∈ ms, z.2.res.fault = none) (hu : u.ctx? c = some x)
    (hv : (u.writeItem x i w (s.readTree i.mTree i.mNodes) ms).2.2 = v) :
    maskBatch c s = (v.itemUpd c 0 (.masked stOk i.slots)).endMasks { x with items := [i.masked stOk i.slots] } stOk ∧
    (v.itemUpd c 0 (.masked stOk i.slots)).ctx? c = some { x with items := [i.masked stOk i.slots] } := by
  have hid := State.ctx?_id hx
  obtain ⟨hstatus, hn⟩ := State.writeItem_all hfault u x i w (s.readTree i.mTree i.mNodes)
  have hslots : i.slots ≤ (x.items.map (·.slots)).sum := by simp [hi]
  have hitems := (State.maskItems_single hi hwait s (x.items.map (·.slots)).sum).trans (State.maskItem_written hw hf hm hslots)
  rw [hstatus, hn, hid, hv] at hitems
  have hlive : v.live = u.live := hv ▸ State.writeItem_live u x i w (s.readTree i.mTree i.mNodes) ms
  have hctx := State.ctx?_itemUpd ((live_ctx? hlive c).trans hu) 0 (.masked stOk i.slots)
  rw [hi] at hctx
  have hend := maskBatch_ends hx hop hst hb (hitems ▸ hctx)
  rw [hitems] at hend
  exact ⟨hend, hctx⟩

end Sys2Proof.Machine
end

