-- ==== Sys2Proof/Proofs/Verification.lean ====
section
/-! PROOF. Sys2Proof/Proofs/Verification.lean: SPEC_VERIFY and run-aheads, and the statement on masks, verification and run-ahead. -/
namespace Sys2Proof.Machine
open Sys2Proof
variable {s t u v : State} {c : Ctx} {x y : OpCtx} {p q : Part} {sid : Word} {w : Strand} {tree : DTree} {ms : NodeMasks} {shares : List Clu} {sp : State}

/-! ### The end of a verification that commits nothing (R324) -/

@[simp] theorem State.unreserve_live (s : State) (p : Part) (n units : Nat) : (s.unreserve p n units).live = s.live := by
  unfold State.unreserve
  extract_lets a
  split
  · exact State.setAcct_live _ _ _
  · rfl

theorem State.setAcct_regs (s : State) (p : Part) (a : Account) : (s.setAcct p a).regs = s.regs := by
  unfold State.setAcct
  extract_lets s1
  split
  · exact State.wrBytes_regs _ _ _
  · rfl

theorem State.unreserve_regs (s : State) (p : Part) (n units : Nat) : (s.unreserve p n units).regs = s.regs := by
  unfold State.unreserve
  extract_lets a
  split
  · exact State.setAcct_regs _ _ _
  · rfl

theorem State.specText_rest (s : State) (x : OpCtx) (n : Nat) : (s.specText x n).live = s.live ∧ (s.specText x n).regs = s.regs := by
  unfold State.specText
  extract_lets txt
  split
  · exact ⟨rfl, rfl⟩
  · exact ⟨State.wrBytes_live _ _ _, State.wrBytes_regs _ _ _⟩

/-- The op has its status; its ops and strands but for that, and the registers, are as they were. -/
theorem State.specFail_eq (s : State) (x : OpCtx) (tree : DTree) (st : BitVec 8) :
    ∃ v, s.specFail x tree st = State.ctxUpd v x.id (fun y => { y with st := .past, status := some st, held := 0 }) ∧ v.live = s.live ∧
      v.regs = s.regs := by
  unfold State.specFail
  extract_lets n
  split
  rename_i f1 s1 h1
  split
  rename_i f2 s2 h2
  split
  rename_i f3 s3 h3
  extract_lets t?
  split
  rename_i depth s4 s5 _ steps len _
  obtain ⟨hlive, hregs⟩ := s4.specText_rest x 0
  have hfree : s3.live = s.live ∧ s3.regs = s.regs := by cases h1; cases h2; cases h3; exact ⟨rfl, rfl⟩
  refine ⟨_, rfl, ?_, ?_⟩
  · rw [State.wrBytes_live, hlive, State.unreserve_live, hfree.1]
  · rw [State.wrBytes_regs, hregs, State.unreserve_regs, hfree.2]

theorem State.specFail_ctx? (h : s.ctx? x.id = some y) (tree : DTree) (st : BitVec 8) :
    (s.specFail x tree st).ctx? x.id = some { y with st := .past, status := some st, held := 0 } := by
  obtain ⟨v, hv, hlive, -⟩ := s.specFail_eq x tree st
  rw [hv]
  exact State.ctx?_ctxUpd ((live_ctx? hlive _).trans h) (fun _ => rfl)

theorem State.specFail_strands (s : State) (x : OpCtx) (tree : DTree) (st : BitVec 8) : (s.specFail x tree st).strands = s.strands := by
  obtain ⟨v, hv, hlive, -⟩ := s.specFail_eq x tree st
  rw [hv, State.ctxUpd_strands, live_strands hlive]

theorem State.specFail_reg64 (s : State) (x : OpCtx) (tree : DTree) (st : BitVec 8) (o : Nat) : (s.specFail x tree st).reg64 o = s.reg64 o := by
  obtain ⟨v, hv, -, hregs⟩ := s.specFail_eq x tree st
  rw [hv, State.reg64, State.reg_ctxUpd, State.reg_ctxUpd, State.reg, State.reg, hregs]
  rfl

/-! ### A verification begins (R22, R321) -/

theorem specVerify_waits (hx : s.ctx? c = some x) (h : s.opBefore x = true) : specVerify c s = s := by
  unfold specVerify
  rw [hx]
  exact if_pos (by simp [h])

/-- Too few clusters for the split rows. -/
theorem specVerify_short (hx : s.ctx? c = some x) (h : s.specShares x (s.readTree (leAt x.entry 24 8) (leAt x.entry 32 1)) = none) :
    specVerify c s = s := by
  unfold specVerify
  rw [hx]
  dsimp only
  split
  · rfl
  · rw [h]

theorem State.readTree_congr (h : u.mem = s.mem) (a n : Nat) : u.readTree a n = s.readTree a n := by
  have hb : u.rdBytes = s.rdBytes := by
    funext b m
    simp only [State.rdBytes, State.rd8, h]
  rw [State.readTree, State.readTree, hb]

/-- Clusters picked for a split row take a free value, and change nothing else. -/
theorem State.pickShares_free {row : RowSrc} (h : s.pickShares w row = some (shares, sp)) : ∃ k, sp = { s with freeCtr := k } := by
  unfold State.pickShares at h
  extract_lets n cs at h
  split at h
  · cases h
    exact ⟨_, rfl⟩
  · split at h
    · cases h
    · cases h
      exact ⟨_, rfl⟩

theorem State.specShares_free (h : s.specShares x tree = some (shares, sp)) : ∃ k, sp = { s with freeCtr := k } := by
  unfold State.specShares at h
  split at h
  · exact State.pickShares_free h
  · cases h
    exact ⟨_, rfl⟩

theorem State.specShares_absent (h : s.strand? x.part (eSession x.entry) = none) (tree : DTree) : s.specShares x tree = some ([], s) := by
  rw [State.specShares, h]

/-- The state in which a verification makes its checks: its clusters are taken and its drafts counted. -/
def State.specBegun (sp : State) (c : Ctx) (x : OpCtx) (shares : List Clu) : State :=
  (sp.ctxUpd c (fun y => { y with shares := shares })).bump64 (rPrtSpecDraft x.part) (leAt x.entry 32 1 - 1)

section Begun
variable (hx : s.ctx? c = some x) (hshares : s.specShares x tree = some (shares, sp))
include hx hshares

theorem State.specBegun_ctx? : (sp.specBegun c x shares).ctx? c = some { x with shares := shares } := by
  obtain ⟨k, rfl⟩ := State.specShares_free hshares
  exact (live_ctx? (State.bump64_live _ _ _) c).trans (State.ctx?_ctxUpd (s := { s with freeCtr := k }) hx (fun _ => rfl))

omit hx in
theorem State.specBegun_strands : (sp.specBegun c x shares).strands = s.strands := by
  obtain ⟨k, rfl⟩ := State.specShares_free hshares
  rfl

omit hx in
theorem State.specBegun_strand? (p : Part) (sid : Word) : (sp.specBegun c x shares).strand? p sid = s.strand? p sid := by
  rw [State.strand?, State.strand?, State.specBegun_strands hshares]

omit hx in
/-- The drafts of its tree are counted (R323). -/
theorem State.specBegun_draft (hwf : s.regsWf = true) :
    (sp.specBegun c x shares).reg64 (rPrtSpecDraft x.part) = s.reg64 (rPrtSpecDraft x.part) + BitVec.ofNat 64 (leAt x.entry 32 1 - 1) := by
  obtain ⟨k, rfl⟩ := State.specShares_free hshares
  exact State.reg64_bump64 (s := ({ s with freeCtr := k } : State).ctxUpd c _) hwf _ _
end Begun

/-- What a verification makes of the state in which it makes its checks (R321 to R323). -/
def State.specChecked (s : State) (c : Ctx) (x : OpCtx) (tree : DTree) : State :=
  match s.strand? x.part (eSession x.entry) with
  | none => s.specFail x tree stNotResident
  | some w =>
    match s.specFault x w tree with
    | some st => s.specFail x tree st
    | none =>
      let (ms, s) := s.forkTree w tree x.mode
      match assocFind ms 0 with
      | none => s
      | some m0 =>
        match (ms.map (·.2.res.fault)).find? (·.isSome) with
        | some f => (s.markFault c).specFail x tree (f.getD stBadEntry)
        | none =>
          if m0.toks.isEmpty then (s.countEmpty x.part (emptyStatus m0.res)).specFail x tree (emptyStatus m0.res)
          else
            match State.specWalk x w tree ms 17 0 [] s with
            | .error (st, s) => s.specFail x tree st
            | .ok (path, dead, s) => s.specCommit x w tree ms path dead

theorem specVerify_begun (hx : s.ctx? c = some x) (hop : eOp x.entry = opSPEC_VERIFY) (hst : x.st = .ready) (hb : s.opBefore x = false)
    (htree : s.readTree (leAt x.entry 24 8) (leAt x.entry 32 1) = tree) (hshares : s.specShares x tree = some (shares, sp)) :
    specVerify c s = (sp.specBegun c x shares).specChecked c x tree := by
  have hread : (sp.ctxUpd c (fun y => { y with shares := shares })).readTree (leAt x.entry 24 8) (leAt x.entry 32 1) = tree := by
    obtain ⟨k, rfl⟩ := State.specShares_free hshares
    exact (State.readTree_congr rfl _ _).trans htree
  unfold specVerify
  rw [hx]
  dsimp only
  rw [if_neg (by simp [hop, hst, hb]), htree, hshares]
  dsimp only
  rw [hread]
  rfl

theorem State.specChecked_absent (hw : s.strand? x.part (eSession x.entry) = none) :
    s.specChecked c x tree = s.specFail x tree stNotResident := by
  rw [State.specChecked, hw]

/-- A check of R321 fails. -/
theorem State.specChecked_faulted {st : BitVec 8} (hw : s.strand? x.part (eSession x.entry) = some w) (hf : s.specFault x w tree = some st) :
    s.specChecked c x tree = s.specFail x tree st := by
  rw [State.specChecked, hw]
  dsimp only
  rw [hf]

/-- The checks hold and no mask is empty at the root or has a fault: what the walk accepts is committed (R322, R323). -/
theorem State.specChecked_walked {m0 : NodeMask} {path : List (Nat × Drawn)} {dead : Option (Nat × BitVec 8)} {s1 s2 : State}
    (hw : s.strand? x.part (eSession x.entry) = some w) (hf : s.specFault x w tree = none)
    (hfork : s.forkTree w tree x.mode = (ms, s1)) (hm0 : assocFind ms 0 = some m0) (hfault : ∀ z ∈ ms, z.2.res.fault = none)
    (htoks : m0.toks ≠ []) (hwalk : State.specWalk x w tree ms 17 0 [] s1 = .ok (path, dead, s2)) :
    s.specChecked c x tree = s2.specCommit x w tree ms path dead := by
  have hnone : (ms.map (·.2.res.fault)).find? (·.isSome) = none := by
    rw [List.find?_eq_none]
    intro f hf
    obtain ⟨z, hz, rfl⟩ := List.mem_map.mp hf
    simp [hfault z hz]
  rw [State.specChecked, hw]
  dsimp only
  rw [hf]
  dsimp only
  rw [hfork]
  dsimp only
  rw [hm0]
  dsimp only
  rw [hnone]
  dsimp only
  rw [if_neg (by simpa using htoks), hwalk]

theorem State.specFault_noSpec (h : pSPEC w.params = false) (s : State) (x : OpCtx) (tree : DTree) : s.specFault x w tree = some stBadEntry := by
  rw [State.specFault]
  exact if_pos (by simp [h])

/-! ### The commit of a walk (R323, R324) -/

theorem State.specRecords_live (s : State) (x : OpCtx) (sid : Word) (out : List SpecOut) : (s.specRecords x sid out).live = s.live := by
  unfold State.specRecords
  extract_lets txt
  refine foldl_keep State.live _ (fun u o => ?_) _ _
  dsimp only
  split
  · exact State.wrBytes_live _ _ _
  · exact (State.wrBytes_live _ _ _).trans (State.wrBytes_live _ _ _)

/-- A walk whose tokens all fit is sealed as one commit, and the op returns the new length and the number of tokens. -/
theorem State.specCommit_eq {path : List (Nat × Drawn)} {dead : Option (Nat × BitVec 8)} {voc : Voc} {t' : Strand} {low : Nat} {out : List SpecOut}
    (hv : s.voc x.part w.vocab w.ovl = some voc)
    (ha : State.specApply voc ms.units (s.sd[w.domain]).step.toNat (s.phase w.domain) path w w.stack.length [] s = (t', low, out, .none, u))
    (hout : out ≠ []) :
    ∃ v, s.specCommit x w tree ms path dead = State.ctxUpd v x.id (fun y => { y with
        st := .past, status := some (if x.replayed then stReplayed else stOk), held := 0
        res0 := BitVec.ofNat 64 t'.hist.length, res1 := BitVec.ofNat 32 out.length }) ∧
      ∃ b, v.live = ((u.unreserve x.part x.heldAcct x.held).sealStep { t' with stackLow := low, susp := b } out.length).live := by
  unfold State.specCommit
  rw [hv]
  dsimp only
  rw [ha]
  dsimp only
  rw [if_neg (by simpa using hout)]
  refine ⟨_, rfl, t'.susp || false, ?_⟩
  obtain ⟨htext, -⟩ := State.specText_rest (State.specRecords (State.bump64 _ _ _) x w.session out) x out.length
  rw [State.wrBytes_live, htext, State.specRecords_live, State.bump64_live]
  rfl

theorem State.sealStep_eq (s : State) (w : Strand) (n : Nat) : ∃ units, s.sealStep w n = s.sealCommit w units := ⟨_, rfl⟩

/-- The op has its final status and results, and the strand has its tokens in the other side slot. -/
theorem State.specCommit_ends {path : List (Nat × Drawn)} {dead : Option (Nat × BitVec 8)} {voc : Voc} {t' : Strand} {low : Nat} {out : List SpecOut}
    (hv : s.voc x.part w.vocab w.ovl = some voc)
    (ha : State.specApply voc ms.units (s.sd[w.domain]).step.toNat (s.phase w.domain) path w w.stack.length [] s = (t', low, out, .none, u))
    (hout : out ≠ []) (hx : u.ctx? x.id = some y) (hw : u.strand? t'.part t'.session = some w) :
    (s.specCommit x w tree ms path dead).ctx? x.id = some { y with
      st := .past, status := some (if x.replayed then stReplayed else stOk), held := 0
      res0 := BitVec.ofNat 64 t'.hist.length, res1 := BitVec.ofNat 32 out.length } ∧
    ∃ w', (s.specCommit x w tree ms path dead).strand? t'.part t'.session = some w' ∧ w'.hist = t'.hist ∧ w'.side = !t'.side := by
  obtain ⟨v, hcommit, b, hlive⟩ := State.specCommit_eq (tree := tree) (path := path) (dead := dead) hv ha hout
  have hfree := State.unreserve_live u x.part x.heldAcct x.held
  obtain ⟨units, hseal⟩ := (u.unreserve x.part x.heldAcct x.held).sealStep_eq { t' with stackLow := low, susp := b } out.length
  rw [hseal] at hlive
  have hvx : v.ctx? x.id = some y := by
    rw [live_ctx? hlive, State.ctx?, State.sealCommit_ctxs, ← State.ctx?, live_ctx? hfree, hx]
  have hsealed := State.strand?_sealCommit (t := { t' with stackLow := low, susp := b }) ((live_strand? hfree _ _).trans hw) units
  rw [hcommit]
  exact ⟨State.ctx?_ctxUpd hvx (fun _ => rfl), _, (State.strand?_ctxUpd _ _ _ _ _).trans ((live_strand? hlive _ _).trans hsealed), rfl, rfl⟩

/-! ### A run-ahead (R302 to R305) -/

theorem State.rehomeSession_kept (hw : s.strand? p sid = some w) (h : s.groupOwner (cluGrp w.home) = some p) (k : Option Ctx) :
    s.rehomeSession p sid k = s := by
  obtain ⟨hp, -⟩ := State.strand?_some hw
  rw [State.rehomeSession, hw]
  exact if_pos (by simp [h, hp])

theorem runAhead_absent (h : s.strand? p sid = none) : runAhead p sid s = s := by
  have hre : s.rehomeSession p sid none = s := by rw [State.rehomeSession, h]
  unfold runAhead
  rw [hre]
  dsimp only
  rw [h]

section RunAhead
variable (hw : s.strand? p sid = some w) (hown : s.groupOwner (cluGrp w.home) = some p)
include hw hown

/-- A strand that has its result, is not due one, or has to wait: the run-ahead does nothing. -/
theorem runAhead_idle (h : w.ra.isSome = true ∨ (w.raDue = false ∧ s.raPinned w = false) ∨ s.raMayRun w = false) : runAhead p sid s = s := by
  unfold runAhead
  rw [State.rehomeSession_kept hw hown]
  dsimp only
  rw [hw]
  refine if_pos ?_
  rcases h with h | ⟨h1, h2⟩ | h
  · simp [h]
  · simp [h1, h2]
  · simp [h]

omit hown in
theorem State.raPages_none (hcp : w.cp = none) (hhist : w.needsHist = false) : s.raPages p sid = s := by
  have hstack : s.raStackPages p sid = s := by simp [State.raStackPages, hw, hcp]
  have hpage : s.raHistPage p sid = s := by simp [State.raHistPage, hw, hhist]
  rw [State.raPages, hstack, hpage, ite_self]

/-- A due run-ahead of a strand that needs no page builds the result and stores it. -/
theorem runAhead_due (hra : w.ra = none) (hdue : w.raDue = true) (hmay : s.raMayRun w = true) (hcp : w.cp = none) (hhist : w.needsHist = false) :
    runAhead p sid s = (s.makeRa w ⟨s.rb (rPrtMemCfg p) 31, s.ranges p⟩).2.storeRa w (s.makeRa w ⟨s.rb (rPrtMemCfg p) 31, s.ranges p⟩).1 := by
  unfold runAhead
  rw [State.rehomeSession_kept hw hown]
  dsimp only
  rw [hw]
  dsimp only
  rw [if_neg (by simp [hra, hdue, hmay]), if_pos hdue, State.raPages_none hw hcp hhist]
end RunAhead

/-- Without a CP the result is of the strand's epoch and allows all (R302). -/
theorem State.makeRa_all (hcp : w.cp = none) (s : State) (mode : CallMode) :
    (s.makeRa w mode).1.epoch = w.epoch ∧ (s.makeRa w mode).1.record = 0xFFFFFFFE#32 ∧
      (s.makeRa w mode).1.penalty = penaltyList (pWINDOW w.params) w.hist := by
  have hb : s.buildMask w mode w.config w.hist.length 0 = ({ record := allRecord }, s) := by simp [State.buildMask, State.cpEnv, hcp]
  rw [State.makeRa, hb]
  exact ⟨rfl, rfl, rfl⟩

/-- The eviction of results leaves a strand that has none as it is (R305). -/
theorem evictRa_strand? {k : Clu} {need : Nat} (hw : s.strand? p sid = some w) (hra : w.ra = none) (l : List Strand) :
    (evictRa q k need l s).strand? p sid = some w := by
  induction l generalizing s with
  | nil => exact hw
  | cons z l ih =>
    unfold evictRa
    split
    · exact hw
    · refine ih ?_
      have hsame : { w with ra := none } = w := by rw [← hra]
      rw [State.dropRa, State.strand?_strandUpd, hw]
      · simp [hsame]
      · exact fun _ h1 h2 => ⟨h1, h2⟩

/-- A result stored, or one that finds no room: it is no longer due. -/
theorem State.storeRa_strand? (hw : s.strand? w.part w.session = some w) (hra : w.ra = none) (r : RunAhead) :
    ∃ a, (s.storeRa w r).strand? w.part w.session = some { w with ra := a, raDue := false } ∧ (a = none ∨ a = some r) := by
  unfold State.storeRa
  extract_lets s1
  have h1 : s1.strand? w.part w.session = some w := evictRa_strand? hw hra _
  split
  · refine ⟨some r, ?_, Or.inr rfl⟩
    rw [State.strand?_strandUpd, h1]
    · simp
    · exact fun _ h1 h2 => ⟨h1, h2⟩
  · refine ⟨none, ?_, Or.inl rfl⟩
    rw [State.strand?_strandUpd, h1]
    · simp [← hra]
    · exact fun _ h1 h2 => ⟨h1, h2⟩

end Sys2Proof.Machine

namespace Sys2Proof.Claims
open Machine
variable {s : State} {c : Ctx} {x : OpCtx} {w : Strand}

theorem rPrtSpecDraft_note (p : Part) : noteReg (rPrtSpecDraft p) = false ∧ noteReg (rPrtSpecDraft p + 4) = false := by
  revert p; decide

/-- A command whose work leaves the state `u` does so at once. -/
theorem Alone.doesRun {u : State} {cmd : Instr} {f : State → State} (halone : Alone s) (hexec : exec cmd s = run f s) (hf : f s = u) : Does cmd s u := by
  obtain ⟨t, ht, hn⟩ := halone.runs f
  exact ⟨t, hexec.trans ht, hf ▸ hn⟩

/-! ### MASK_BATCH -/

section Masks
variable (hcanon : s.canon) (halone : Alone s) (hready : ReadyOp s c opMASK_BATCH x) (hb : s.opBefore x = false)
include hcanon halone hready hb

theorem masks_ended (hlen : x.items.length < 2 ^ 32) (hplain : ∀ i ∈ x.items, s.PlainMask x i) :
    ∃ t y, exec (.maskBatch c) s = .next t ∧ t.ctx? c = some y ∧ y.st = .past ∧ y.status = some stOk ∧
      y.items.length = x.items.length ∧ (∀ j ∈ y.items, j.phase = .done) ∧ y.res1 = BitVec.ofNat 32 ((y.items.map (·.done)).sum) ∧
      t.rdLE (leAt x.entry 40 8 + 8) 4 = x.items.length := by
  obtain ⟨hx, hop, hst⟩ := hready
  obtain rfl := State.ctx?_id hx
  obtain ⟨l, ⟨hctx, -, hdone⟩, hl⟩ := State.maskItems_plain hx hplain
  rw [List.append_nil] at hctx
  obtain ⟨t, ht, hn⟩ := halone.works (.maskBatch x.id) (maskBatch x.id)
  rw [maskBatch_ends hx hop hst hb hctx] at hn
  have hwf := (State.canon.maskItems (x := x) (lim := (x.items.map (·.slots)).sum) hcanon).1
  have hcount := State.endMasks_count (x := { x with items := l }) hwf stOk (hl ▸ hlen)
  have hends := State.endMasks_ctx? (x := { x with items := l }) hctx stOk
  exact ⟨t, _, ht, (hn.ctx? _).trans hends, rfl, rfl, hl, hdone, rfl, (hn.rdLE _ _).trans (hcount.trans hl)⟩

variable {i : BatchItem} (hi : x.items = [i]) (hwait : i.phase = .waiting) (hw : s.strand? x.part i.session = some w)
  (hf : s.maskItemFault x i w = none)
include hi hwait hw hf

omit hcanon in
theorem tree_ended {ms : NodeMasks} {s1 : State} (htree : i.isTree = true) (hfork : s.forkTree w (s.readTree i.mTree i.mNodes) x.mode = (ms, s1))
    (hfault : ∀ z ∈ ms, z.2.res.fault = none) (hx1 : s1.ctx? c = some x) :
    ∃ u y j, exec (.maskBatch c) s = .next u ∧ u.ctx? c = some y ∧ y.st = .past ∧ y.items = [j] ∧ j.done = i.slots ∧ j.status = stOk ∧
      y.res1 = BitVec.ofNat 32 i.slots := by
  obtain ⟨hx, hop, hst⟩ := hready
  obtain rfl := State.ctx?_id hx
  obtain ⟨t, ht, hn⟩ := halone.works (.maskBatch x.id) (maskBatch x.id)
  obtain ⟨hend, hctx⟩ := maskBatch_single hx hop hst hb hi hwait hw hf ((State.itemMasks_tree htree s x w).trans hfork) hfault hx1 rfl
  rw [hend] at hn
  exact ⟨t, _, _, ht, (hn.ctx? _).trans (State.endMasks_ctx? (x := { x with items := [i.masked stOk i.slots] }) hctx stOk), rfl, rfl, rfl, rfl, rfl⟩

theorem plain_tagged {r : RunAhead} (htree : i.isTree = false) (hslots : i.slots = 1) (hoff : 80 ≤ i.offset) (hra : w.ra = some r)
    (hfault : r.fault = none) (hroom : leAt x.entry 40 8 + i.offset + i.slotSz ≤ 2 ^ 64) :
    ∃ u y j, exec (.maskBatch c) s = .next u ∧ u.ctx? c = some y ∧ y.items = [j] ∧ j.done = 1 ∧ j.status = stOk ∧
      u.rdLE (leAt x.entry 40 8 + i.offset) 4 = w.session.toNat ∧ u.rdLE (leAt x.entry 40 8 + i.offset + 16) 8 = w.epoch.toNat ∧
      ((s.allowed w r.mask).length < 2 ^ 32 → u.rdLE (leAt x.entry 40 8 + i.offset + 32) 4 = (s.allowed w r.mask).length) := by
  obtain ⟨hx, hop, hst⟩ := hready
  obtain rfl := State.ctx?_id hx
  obtain ⟨t, ht, hn⟩ := halone.works (.maskBatch x.id) (maskBatch x.id)
  have hnofault : ∀ z ∈ [((0 : Nat), (⟨w.config, r.mask, s.allowed w r.mask⟩ : NodeMask))], z.2.res.fault = none := fun z hz => by
    rw [List.mem_singleton.mp hz]
    exact hfault
  obtain ⟨v, hv⟩ : ∃ v, (s.writeItem x i w (s.readTree i.mTree i.mNodes) [(0, ⟨w.config, r.mask, s.allowed w r.mask⟩)]).2.2 = v := ⟨_, rfl⟩
  obtain ⟨hend, hctx⟩ := maskBatch_single hx hop hst hb hi hwait hw hf (State.itemMasks_plain htree hra s x) hnofault hx hv
  rw [hend] at hn
  have hwf : v.memWf = true := hv ▸ (State.canon.writeMasks hcanon).1
  obtain ⟨b, hrow, htag⟩ := State.writeItem_tag (m := ⟨w.config, r.mask, s.allowed w r.mask⟩) hcanon.1 hslots hfault x w
    (s.readTree i.mTree i.mNodes)
  rw [hv] at htag
  have hlen := hrow.length
  have hsz := State.maskItemFault_slotSz hf
  have hkept := State.endMasks_holds (u := v.itemUpd x.id 0 (.masked stOk i.slots)) (x := { x with items := [i.masked stOk i.slots] }) hwf stOk
    (State.holds_congr htag (State.ctxUpd_mem _ _ _)) (by
      change leAt x.entry 40 8 + 64 + 16 * 1 ≤ leAt x.entry 40 8 + i.offset
      omega) (by omega)
  obtain ⟨hsid, hepoch, hcount⟩ := hrow.reads (hn.holds hkept) w.session.isLt w.epoch.isLt
  exact ⟨t, _, _, ht, (hn.ctx? _).trans (State.endMasks_ctx? (x := { x with items := [i.masked stOk i.slots] }) hctx stOk), rfl, hslots, rfl, hsid,
    hepoch, hcount⟩
end Masks

/-! ### SPEC_VERIFY -/

section Verify
variable {tree : DTree} {shares : List Clu} {sp : State} (halone : Alone s) (hready : ReadyOp s c opSPEC_VERIFY x) (hb : s.opBefore x = false)
  (htree : s.readTree (leAt x.entry 24 8) (leAt x.entry 32 1) = tree)
include halone hready hb htree

theorem verify_absent (hcanon : s.canon) (hw : s.strand? x.part (eSession x.entry) = none) :
    ∃ t y, exec (.specVerify c) s = .next t ∧ t.ctx? c = some y ∧ y.st = .past ∧ y.status = some stNotResident ∧ t.strands = s.strands ∧
      t.reg64 (rPrtSpecDraft x.part) = s.reg64 (rPrtSpecDraft x.part) + BitVec.ofNat 64 (leAt x.entry 32 1 - 1) := by
  obtain ⟨hx, hop, hst⟩ := hready
  obtain rfl := State.ctx?_id hx
  have hshares := State.specShares_absent hw tree
  obtain ⟨t, ht, hn⟩ := halone.works (.specVerify x.id) (specVerify x.id)
  rw [specVerify_begun hx hop hst hb htree hshares, State.specChecked_absent ((State.specBegun_strand? hshares _ _).trans hw)] at hn
  obtain ⟨hlo, hhi⟩ := rPrtSpecDraft_note x.part
  have hreg : t.reg64 (rPrtSpecDraft x.part) = (s.specBegun x.id x []).reg64 (rPrtSpecDraft x.part) := by
    rw [← State.specFail_reg64 (s.specBegun x.id x []) x tree stNotResident, State.reg64, hn.2 _ hhi, hn.2 _ hlo, State.reg64]
  exact ⟨t, _, ht, (hn.ctx? _).trans (State.specFail_ctx? (State.specBegun_ctx? hx hshares) tree _), rfl, rfl,
    hn.strands.trans ((State.specFail_strands _ _ _ _).trans (State.specBegun_strands hshares)),
    hreg.trans (State.specBegun_draft hshares hcanon.2.2)⟩

theorem verify_noSpec (hshares : s.specShares x tree = some (shares, sp)) (hw : s.strand? x.part (eSession x.entry) = some w)
    (hspec : pSPEC w.params = false) :
    ∃ u y, exec (.specVerify c) s = .next u ∧ u.ctx? c = some y ∧ y.st = .past ∧ y.status = some stBadEntry ∧ u.strands = s.strands := by
  obtain ⟨hx, hop, hst⟩ := hready
  obtain rfl := State.ctx?_id hx
  obtain ⟨t, ht, hn⟩ := halone.works (.specVerify x.id) (specVerify x.id)
  rw [specVerify_begun hx hop hst hb htree hshares, State.specChecked_faulted ((State.specBegun_strand? hshares _ _).trans hw)
    (State.specFault_noSpec hspec _ x tree)] at hn
  exact ⟨t, _, ht, (hn.ctx? _).trans (State.specFail_ctx? (State.specBegun_ctx? hx hshares) tree _), rfl, rfl,
    hn.strands.trans ((State.specFail_strands _ _ _ _).trans (State.specBegun_strands hshares))⟩

theorem verify_committed {ms : NodeMasks} {m0 : NodeMask} {s1 s2 s3 : State} {path : List (Nat × Drawn)} {dead : Option (Nat × BitVec 8)}
    {voc : Voc} {t' : Strand} {low : Nat} {out : List SpecOut} (hshares : s.specShares x tree = some (shares, sp))
    (hw : s.strand? x.part (eSession x.entry) = some w) (hf : (sp.specBegun c x shares).specFault x w tree = none)
    (hfork : (sp.specBegun c x shares).forkTree w tree x.mode = (ms, s1)) (hm0 : assocFind ms 0 = some m0)
    (hfault : ∀ z ∈ ms, z.2.res.fault = none) (htoks : m0.toks ≠ []) (hwalk : State.specWalk x w tree ms 17 0 [] s1 = .ok (path, dead, s2))
    (hv : s2.voc x.part w.vocab w.ovl = some voc)
    (ha : State.specApply voc ms.units (s2.sd[w.domain]).step.toNat (s2.phase w.domain) path w w.stack.length [] s2 = (t', low, out, .none, s3))
    (hout : out ≠ []) (hx3 : s3.ctx? c = some { x with shares := shares }) (hw3 : s3.strand? x.part (eSession x.entry) = some w)
    (hpart : t'.part = x.part) (hsid : t'.session = eSession x.entry) :
    ∃ u w' y, exec (.specVerify c) s = .next u ∧ u.ctx? c = some y ∧ y.st = .past ∧
      y.status = some (if x.replayed then stReplayed else stOk) ∧ y.res0 = BitVec.ofNat 64 t'.hist.length ∧
      y.res1 = BitVec.ofNat 32 out.length ∧ u.strand? x.part (eSession x.entry) = some w' ∧ w'.hist = t'.hist ∧ w'.side = !t'.side := by
  obtain ⟨hx, hop, hst⟩ := hready
  obtain rfl := State.ctx?_id hx
  obtain ⟨t, ht, hn⟩ := halone.works (.specVerify x.id) (specVerify x.id)
  rw [specVerify_begun hx hop hst hb htree hshares,
    State.specChecked_walked ((State.specBegun_strand? hshares _ _).trans hw) hf hfork hm0 hfault htoks hwalk] at hn
  rw [← hpart, ← hsid] at hw3 ⊢
  obtain ⟨hends, w', hw', hhist, hside⟩ := State.specCommit_ends (tree := tree) (path := path) (dead := dead) hv ha hout hx3 hw3
  exact ⟨t, w', _, ht, (hn.ctx? _).trans hends, rfl, rfl, rfl, rfl, (hn.strand? _ _).trans hw', hhist, hside⟩
end Verify

/-! ### A run-ahead -/

theorem runAhead_result {q : Part} {k : Word} (halone : Alone s) (hw : s.strand? q k = some w) (hown : s.groupOwner (cluGrp w.home) = some q)
    (htakes : s.takes q w.home = true) (hfirst : s.workBefore w (s.raKey w) = false) (hra : w.ra = none) (hdue : w.raDue = true)
    (hhist : w.needsHist = false) (hcp : w.cp = none) :
    ∃ u w', exec (.runAhead q k) s = .next u ∧ u.strand? q k = some w' ∧ w'.raDue = false ∧ w'.hist = w.hist ∧
      ∀ r, w'.ra = some r → r.epoch = w.epoch ∧ r.record = 0xFFFFFFFE#32 ∧ r.penalty = penaltyList (pWINDOW w.params) w.hist := by
  obtain ⟨hq, hk⟩ := State.strand?_some hw
  have hmay : s.raMayRun w = true := by simp [State.raMayRun, hq, htakes, hfirst]
  obtain ⟨t, ht, hn⟩ := halone.runs (runAhead q k)
  rw [runAhead_due hw hown hra hdue hmay hcp hhist] at hn
  generalize hmode : (⟨s.rb (rPrtMemCfg q) 31, s.ranges q⟩ : CallMode) = mode at hn
  have hin : (s.makeRa w mode).2.strand? w.part w.session = some w := by rw [live_strand? (State.makeRa_live hcp s mode), hq, hk, hw]
  obtain ⟨a, hstored, ha⟩ := State.storeRa_strand? hin hra (s.makeRa w mode).1
  rw [hq, hk] at hstored
  refine ⟨t, _, ht, (hn.strand? q k).trans hstored, rfl, rfl, fun r hr => ?_⟩
  rcases ha with rfl | rfl
  · cases hr
  · cases hr
    exact State.makeRa_all hcp s mode

/-- Settles O46: each clause is one of the theorems above. A batch ends its items one after another within the tags that its slots leave; a
verification commits the walk as one step; a run-ahead stores its result or drops it for want of room. -/
theorem masksAndVerification : Obligations.MasksAndVerification := by
  unfold Obligations.MasksAndVerification
  intro s c x hcanon halone e p sid
  refine ⟨?before, ?shares, ?masks, ?treeMasks, ?plainTag, ?absent, ?noSpec, ?commits, ?runs, ?noStrand⟩
  case before =>
    exact fun hb => ⟨fun h => halone.does rfl (maskBatch_waits h.1 hb), fun h => halone.does rfl (specVerify_waits h.1 hb)⟩
  case shares => exact fun hready hnone => halone.does rfl (specVerify_short hready.1 hnone)
  case masks => exact fun hready hb hlen hplain => masks_ended hcanon halone hready hb hlen hplain
  case treeMasks =>
    exact fun i w ms s1 hready hb hi hwait htree hw hf hfork hfault hx1 =>
      tree_ended halone hready hb hi hwait hw hf htree hfork hfault hx1
  case plainTag =>
    exact fun i w r hready hb hi hwait htree hslots hoff hw hf hra hfault hroom =>
      plain_tagged hcanon halone hready hb hi hwait hw hf htree hslots hoff hra hfault hroom
  case absent => exact fun hready hb hw => verify_absent halone hready hb rfl hcanon hw
  case noSpec =>
    intro w hready hb hsome hw hspec
    obtain ⟨⟨shares, sp⟩, hshares⟩ := Option.isSome_iff_exists.mp hsome
    exact verify_noSpec halone hready hb rfl hshares hw hspec
  case commits =>
    intro tree shares sp w ms m0 s1 path dead s2 voc t' low out cut s3 hready hb hshares s0 hw hf hfork hm0 hfault htoks hwalk hv ha hcut hout hx3 hw3
      hpart hsid
    exact verify_committed halone hready hb rfl hshares hw hf hfork hm0 hfault htoks hwalk hv (hcut ▸ ha) hout hx3 hw3 hpart hsid
  case runs =>
    intro q k w hw hown
    obtain ⟨hq, -⟩ := State.strand?_some hw
    refine ⟨fun hwait => halone.doesRun rfl (runAhead_idle hw hown (Or.inr (Or.inr ?_))), fun htakes hfirst hra hdue hhist hcp => ?_,
      fun hra => halone.doesRun rfl (runAhead_idle hw hown (Or.inl hra)),
      fun hdue hpin => halone.doesRun rfl (runAhead_idle hw hown (Or.inr (Or.inl ⟨hdue, hpin⟩)))⟩
    · rcases hwait with h | h
      · simp [State.raMayRun, hq, h]
      · simp [State.raMayRun, h]
    · exact runAhead_result halone hw hown htakes hfirst hra hdue hhist hcp
  case noStrand => exact fun q k hw => halone.doesRun rfl (runAhead_absent hw)

end Sys2Proof.Claims
end

