-- ==== Sys2Proof/Proofs/BeadRules.lean ====
section
/-! PROOF. Sys2Proof/Proofs/BeadRules.lean: what a bead instruction that retires or faults makes of the block, in terms of its effect on its thread
(R383, R394). -/
namespace Sys2Proof.Machine
open Sys2Proof

/-! ### What a call leaves in counters -/

/-- Nothing is counted of a call that read no unwritten line (R414). -/
@[simp] theorem State.noteUninit_zero (s : State) (p : Part) (c : Clu) : s.noteUninit p c 0 = s := rfl

/-- Nothing is counted of a call that read no line of an unplaced section (R222). -/
@[simp] theorem State.noteMiss_zero (s : State) (p : Part) : s.noteMiss p 0 0 = s := rfl

/-! ### Effects that write registers alone -/

/-- `u` stands at the program counter of `t` and has counted as many reads. -/
structure BeadThread.SameTally (t u : BeadThread) : Prop where
  pc : u.pc = t.pc
  uninit : u.uninit = t.uninit
  miss : u.miss = t.miss
  walks : u.walks = t.walks

namespace BeadThread.SameTally
variable (t : BeadThread)

theorem refl : t.SameTally t := ⟨rfl, rfl, rfl, rfl⟩

theorem wx (d : BitVec 5) (w : DWord) : t.SameTally (t.wx d w) := by
  unfold BeadThread.wx
  split
  · exact refl t
  · exact ⟨rfl, rfl, rfl, rfl⟩

theorem wv (d : BitVec 4) (w : Line) : t.SameTally (t.wv d w) := ⟨rfl, rfl, rfl, rfl⟩

theorem wk (d : BitVec 3) (w : DWord) : t.SameTally (t.wk d w) := by
  unfold BeadThread.wk
  split
  · exact refl t
  · exact ⟨rfl, rfl, rfl, rfl⟩

end BeadThread.SameTally
end Sys2Proof.Machine

namespace Sys2Proof.Claims
open Machine
variable {s : State} {n : Thread} {e : BEnv} {op : BOp} {u : BeadThread} {f : BFault} {c : Nat}

/-! ### One instruction of a call -/

/-- A command on a thread in a call is the metered effect of its instruction. -/
theorem InCall.beadRun (h : InCall s n e) (op : BOp) :
    beadRun n op s = s.threadRes n (s.thread n) e (metered e (s.thread n) (op s e (s.thread n))) := by
  obtain ⟨hcall, henv⟩ := h
  simp only [Machine.beadRun, hcall, henv, if_true]

/-- An instruction that is done within the budget, with an effect on registers alone, retires with that effect (R383). -/
theorem InCall.beadRun_done (h : InCall s n e) (hop : op s e (s.thread n) = .ok { u with pc := u.pc + 4 } c) (hu : (s.thread n).SameTally u)
    (hroom : Room s n e c) : Machine.beadRun n op s = retired s n u c := by
  obtain ⟨hpc, huninit, hmiss, hwalks⟩ := hu
  have hbudget : ¬ bCYCLES e.hdr < (s.thread n).count + c := Nat.not_lt.mpr hroom
  rw [h.beadRun, hop]
  simp only [metered, hbudget, if_false, State.threadRes, huninit, hmiss, hwalks, Nat.sub_self, State.noteUninit_zero, State.noteMiss_zero,
    retired, wentTo, hpc]

/-- An instruction that faults ends the call with its fault (R394). -/
theorem InCall.beadRun_fault (h : InCall s n e) (hop : op s e (s.thread n) = .fault f) :
    Machine.beadRun n op s = s.threadFault n (s.thread n) e f := by
  rw [h.beadRun, hop]
  rfl

section
variable {i : Instr} (hexec : exec i s = .next (Machine.beadRun n op s)) (h : InCall s n e)
include hexec h

/-- A command whose instruction writes the scalar register xD alone. -/
theorem exec_wx {d : BitVec 5} {w : DWord} (hop : op s e (s.thread n) = .ok { (s.thread n).wx d w with pc := ((s.thread n).wx d w).pc + 4 } c)
    (hroom : Room s n e c) : exec i s = .next (retired s n ((s.thread n).wx d w) c) := by
  rw [hexec, h.beadRun_done hop (.wx ..) hroom]

/-- A command whose instruction writes the vector register vD alone. -/
theorem exec_wv {d : BitVec 4} {w : Line} (hop : op s e (s.thread n) = .ok { (s.thread n).wv d w with pc := ((s.thread n).wv d w).pc + 4 } c)
    (hroom : Room s n e c) : exec i s = .next (retired s n ((s.thread n).wv d w) c) := by
  rw [hexec, h.beadRun_done hop (.wv ..) hroom]

/-- A command whose instruction faults. -/
theorem exec_fault (hop : op s e (s.thread n) = .fault f) : exec i s = .next (s.threadFault n (s.thread n) e f) := by
  rw [hexec, h.beadRun_fault hop]

end

end Sys2Proof.Claims
end

