-- ==== Sys2Proof/Proofs/Lines.lean ====
section
/-! PROOF. Sys2Proof/Proofs/Lines.lean: the word lanes of a line, its set bits, and the runs of bits that BRUN makes (R368, R379). -/
namespace Sys2Proof.Machine
open Sys2Proof

/-! ### Lanes -/

theorem getLsbD_lane (l : Line) (i k : Nat) : (lane l i).getLsbD k = (decide (k < 32) && l.getLsbD (32 * i + k)) :=
  BitVec.getLsbD_extractLsb' ..

/-- A bit of a line put together from lanes: it comes from the lane that covers it. -/
theorem getLsbD_foldl_lanes (f : Nat → Word) (l : List Nat) (a : Line) (k : Nat) :
    (l.foldl (fun a i => a ||| ((f i).zeroExtend 512 <<< (32 * i))) a).getLsbD k =
      (a.getLsbD k || l.any (fun i => ((f i).zeroExtend 512 <<< (32 * i)).getLsbD k)) := by
  induction l generalizing a with
  | nil => simp
  | cons i l ih => rw [List.foldl_cons, ih, BitVec.getLsbD_or, List.any_cons, Bool.or_assoc]

/-- Lane `j`, moved to its place, covers the bits of lane `i` only where `j` is `i`. -/
theorem getLsbD_placed_lane (w : Word) {i j k : Nat} (hi : i < 16) (hk : k < 32) :
    (w.zeroExtend 512 <<< (32 * j)).getLsbD (32 * i + k) = (decide (j = i) && w.getLsbD k) := by
  rw [BitVec.getLsbD_shiftLeft, BitVec.zeroExtend, BitVec.getLsbD_setWidth]
  rcases Nat.lt_trichotomy j i with h | h | h
  · rw [BitVec.getLsbD_of_ge w _ (by omega)]
    simp [h.ne]
  · subst h
    simp [show 32 * j + k < 512 by omega, show k < 512 by omega]
  · simp [show 32 * i + k < 32 * j by omega, h.ne']

/-- A lane of a line put together from lanes. -/
theorem lane_ofLanes (f : Nat → Word) {i : Nat} (hi : i < 16) : lane (ofLanes f) i = f i := by
  refine BitVec.eq_of_getLsbD_eq fun k hk => ?_
  rw [getLsbD_lane, ofLanes, getLsbD_foldl_lanes, BitVec.getLsbD_zero, Bool.false_or, decide_eq_true hk, Bool.true_and, Bool.eq_iff_iff,
    List.any_eq_true]
  simp only [getLsbD_placed_lane _ hi hk, Bool.and_eq_true, decide_eq_true_eq, List.mem_range]
  exact ⟨fun ⟨j, _, hj, h⟩ => hj ▸ h, fun h => ⟨i, hi, rfl, h⟩⟩

/-- The lanes of a line put together from a list of 16 words are the list. -/
theorem map_lane_ofLanes {l : List Word} (h : l.length = 16) : (List.range 16).map (lane (ofLanes (fun i => l.getD i 0#32))) = l := by
  refine List.ext_getElem (by simp [h]) fun i hi hl => ?_
  rw [List.getElem_map, List.getElem_range, lane_ofLanes _ (h ▸ hl), List.getD_eq_getElem _ _ hl]

/-! ### Set bits -/

/-- Entry `k` of the numbers below `n` with a property has the property, and `k` numbers below it have it. -/
theorem getElem?_filter_range {p : Nat → Bool} {n k m : Nat} (h : ((List.range n).filter p)[k]? = some m) :
    m < n ∧ p m = true ∧ ((List.range m).filter p).length = k := by
  induction n with
  | zero => simp at h
  | succ n ih =>
    rw [List.range_succ, List.filter_append, List.getElem?_append] at h
    split at h
    case isTrue =>
      obtain ⟨hlt, hm⟩ := ih h
      exact ⟨hlt.trans n.lt_succ_self, hm⟩
    case isFalse hk =>
      obtain ⟨hlt, hget⟩ := List.getElem?_eq_some_iff.mp h
      by_cases hp : p n
      · simp only [List.filter_cons_of_pos hp, List.filter_nil, List.length_singleton] at hlt hget
        obtain rfl : n = m := by simpa using hget
        exact ⟨n.lt_succ_self, hp, by omega⟩
      · simp [hp] at hlt

theorem setBits_length_le (a : Line) : (setBits a).length ≤ 512 := (List.length_filter_le ..).trans_eq (List.length_range)

/-- Entry `k` of the set bits is the bit that `k` set bits precede, or the line has no more than `k` of them. -/
theorem setBits_getD (a : Line) (k : Nat) :
    ((setBits a).getD k 512 < 512 ∧ a.getLsbD ((setBits a).getD k 512) = true ∧
      ((List.range ((setBits a).getD k 512)).filter (fun i => a.getLsbD i)).length = k) ∨
    ((setBits a).getD k 512 = 512 ∧ (setBits a).length ≤ k) := by
  rw [List.getD_eq_getElem?_getD]
  cases h : (setBits a)[k]? with
  | some m => exact Or.inl (getElem?_filter_range h)
  | none => exact Or.inr ⟨rfl, List.getElem?_eq_none_iff.mp h⟩

theorem setBits_getD_le (a : Line) (k : Nat) : (setBits a).getD k 512 ≤ 512 := by
  rcases setBits_getD a k with ⟨h, -⟩ | ⟨h, -⟩ <;> omega

/-- The first set bit, or 512 where there is none. -/
theorem setBits_headD (a : Line) :
    ((setBits a).headD 512 < 512 ∧ a.getLsbD ((setBits a).headD 512) = true ∧ ∀ i, i < (setBits a).headD 512 → a.getLsbD i = false) ∨
    ((setBits a).headD 512 = 512 ∧ a = 0#512) := by
  rw [show (setBits a).headD 512 = (setBits a).getD 0 512 by cases setBits a <;> rfl]
  rcases setBits_getD a 0 with ⟨hlt, hset, hbelow⟩ | ⟨h, hnone⟩
  · refine Or.inl ⟨hlt, hset, fun i hi => ?_⟩
    simpa using List.filter_eq_nil_iff.mp (List.length_eq_zero_iff.mp hbelow) i (List.mem_range.mpr hi)
  · refine Or.inr ⟨h, BitVec.eq_of_getLsbD_eq fun i hi => ?_⟩
    simpa using List.filter_eq_nil_iff.mp (List.length_eq_zero_iff.mp (Nat.le_zero.mp hnone)) i (List.mem_range.mpr hi)

theorem setBits_headD_le (a : Line) : (setBits a).headD 512 ≤ 512 := by
  rcases setBits_headD a with ⟨h, -⟩ | ⟨h, -⟩ <;> omega

/-- A run of ones from bit `lo` up to bit `hi`. -/
theorem getLsbD_run {lo hi : Nat} (hle : lo ≤ hi) (hhi : hi ≤ 512) (i : Nat) :
    (BitVec.ofNat 512 (2 ^ hi - 2 ^ lo)).getLsbD i = decide (lo ≤ i ∧ i < hi) := by
  have hfactor : 2 ^ hi - 2 ^ lo = 2 ^ lo * (2 ^ (hi - lo) - 1) := by
    rw [Nat.mul_sub, Nat.mul_one, ← Nat.pow_add, Nat.add_sub_cancel' hle]
  rw [BitVec.getLsbD_ofNat, hfactor, Nat.testBit_two_pow_mul, Nat.testBit_two_pow_sub_one, Bool.eq_iff_iff]
  simp only [Bool.and_eq_true, decide_eq_true_eq]
  omega

end Sys2Proof.Machine
end

