-- ==== Sys2Proof/Proofs/BeadLineUnits.lean ====
section
/-! PROOF. Sys2Proof/Proofs/BeadLineUnits.lean: the reductions of CMP, and the statement on the instructions that work on whole lines. -/
namespace Sys2Proof.Machine
open Sys2Proof

/-! ### The key order of values that are no NaN (R339) -/

section
variable {a b c : Cand} (ha : fpIsNaN a.val = false) (hb : fpIsNaN b.val = false)
include ha hb

theorem candBefore_iff : candBefore a b = true ↔ fpKey b.val < fpKey a.val ∨ fpKey a.val = fpKey b.val ∧ a.tok < b.tok := by
  simp [candBefore, fpLt, fpEq, ha, hb]

theorem candBefore_asymm (h : candBefore a b = true) : candBefore b a = false := by
  rw [candBefore_iff ha hb] at h
  rw [Bool.eq_false_iff, ne_eq, candBefore_iff hb ha]
  omega

/-- What it says of two values that the one does not rank before the other. -/
theorem candBefore_eq_false (h : candBefore a b = false) :
    fpLt b.val a.val = false ∧ (fpEq b.val a.val = true → b.tok ≤ a.tok) := by
  rw [Bool.eq_false_iff, ne_eq, candBefore_iff ha hb] at h
  simp only [fpLt, fpEq, ha, hb, Bool.not_false, Bool.true_and, decide_eq_false_iff_not, beq_iff_eq]
  omega

/-- What does not rank before `b` does not rank before what `b` does not rank before. -/
theorem candBefore_trans (hc : fpIsNaN c.val = false) (hab : candBefore a b = false) (hbc : candBefore b c = false) : candBefore a c = false := by
  rw [Bool.eq_false_iff, ne_eq, candBefore_iff ha hb] at hab
  rw [Bool.eq_false_iff, ne_eq, candBefore_iff hb hc] at hbc
  rw [Bool.eq_false_iff, ne_eq, candBefore_iff ha hc]
  omega

end

theorem candBefore_irrefl {a : Cand} (ha : fpIsNaN a.val = false) : candBefore a a = false := by
  rw [Bool.eq_false_iff, ne_eq, candBefore_iff ha ha]
  omega

/-- Keeping of two indices the one whose candidate ranks first leaves, of a list, one that no other ranks before. -/
theorem foldl_first {key : Nat → Cand} (hkey : ∀ i, fpIsNaN (key i).val = false) (l : List Nat) (m : Nat) :
    let r := l.foldl (fun m i => if candBefore (key i) (key m) then i else m) m
    r ∈ m :: l ∧ ∀ j ∈ m :: l, candBefore (key j) (key r) = false := by
  induction l generalizing m with
  | nil => simpa using candBefore_irrefl (hkey m)
  | cons i l ih =>
    intro r
    have hover : ∀ {j k}, candBefore (key j) (key k) = false → candBefore (key k) (key r) = false → candBefore (key j) (key r) = false :=
      candBefore_trans (hkey _) (hkey _) (hkey _)
    by_cases h : candBefore (key i) (key m) = true
    · obtain ⟨hmem, hfirst⟩ : r ∈ i :: l ∧ ∀ j ∈ i :: l, candBefore (key j) (key r) = false := by
        simpa only [r, List.foldl_cons, if_pos h] using ih i
      have hm := hover (candBefore_asymm (hkey i) (hkey m) h) (hfirst i List.mem_cons_self)
      exact ⟨List.mem_cons_of_mem m hmem, List.forall_mem_cons.mpr ⟨hm, hfirst⟩⟩
    · obtain ⟨hmem, hfirst⟩ : r ∈ m :: l ∧ ∀ j ∈ m :: l, candBefore (key j) (key r) = false := by
        simpa only [r, List.foldl_cons, if_neg h] using ih m
      obtain ⟨hm, hl⟩ := List.forall_mem_cons.mp hfirst
      have hi := hover (Bool.eq_false_iff.mpr h) hm
      exact ⟨List.cons_subset_cons m (List.subset_cons_self i l) hmem, List.forall_mem_cons.mpr ⟨hm, List.forall_mem_cons.mpr ⟨hi, hl⟩⟩⟩

/-! ### The reductions of CMP (R379) -/

/-- Lane `i` of values in `x` and token IDs in `y`, as CMAXK ranks it: a NaN as −∞. -/
def laneCand (x y : Line) (i : Nat) : Cand := ⟨(lane y i).toNat, if fpIsNaN (lane x i) then fpNegInf else lane x i⟩

theorem laneCand_notNaN (x y : Line) (i : Nat) : fpIsNaN (laneCand x y i).val = false := by
  unfold laneCand
  dsimp only
  split
  case isTrue => decide
  case isFalse h => exact Bool.eq_false_iff.mpr h

/-- A lane that is no NaN is ranked by its value and its token. -/
theorem laneCand_eq {x y : Line} {i : Nat} (h : fpIsNaN (lane x i) = false) : laneCand x y i = ⟨(lane y i).toNat, lane x i⟩ := by
  simp [laneCand, h]

/-- The first lane in key order. -/
def firstLane (x y : Line) : Nat := (List.range 16).foldl (fun m i => if candBefore (laneCand x y i) (laneCand x y m) then i else m) 0

/-- CMAXK answers the token and the value of the first lane. -/
theorem bCmaxk_eq (d : BitVec 5) (va vb : BitVec 4) (s : State) (e : BEnv) (t : BeadThread) :
    bCmaxk d va vb s e t =
      bDone (t.wx d (lane (t.rv vb) (firstLane (t.rv va) (t.rv vb)) ++ lane (t.rv va) (firstLane (t.rv va) (t.rv vb)))) := rfl

theorem firstLane_lt (x y : Line) : firstLane x y < 16 := by
  obtain ⟨h, -⟩ := foldl_first (laneCand_notNaN x y) (List.range 16) 0
  rcases List.mem_cons.mp h with h0 | hr
  · rw [firstLane, h0]
    decide
  · exact List.mem_range.mp hr

/-- No lane ranks before the first one. -/
theorem firstLane_first (x y : Line) {j : Nat} (hj : j < 16) : candBefore (laneCand x y j) (laneCand x y (firstLane x y)) = false := by
  obtain ⟨-, h⟩ := foldl_first (laneCand_notNaN x y) (List.range 16) 0
  exact h j (List.mem_cons_of_mem 0 (List.mem_range.mpr hj))

/-- Of lanes that are no NaNs, none has a greater value than the first one, nor the same value and a lower token. -/
theorem firstLane_max {x y : Line} {j : Nat} (hj : j < 16) (hfirst : fpIsNaN (lane x (firstLane x y)) = false) (hother : fpIsNaN (lane x j) = false) :
    fpLt (lane x (firstLane x y)) (lane x j) = false ∧
      (fpEq (lane x (firstLane x y)) (lane x j) = true → (lane y (firstLane x y)).toNat ≤ (lane y j).toNat) := by
  have h := candBefore_eq_false (laneCand_notNaN x y j) (laneCand_notNaN x y _) (firstLane_first x y hj)
  rwa [laneCand_eq hfirst, laneCand_eq hother] at h

/-- What CMINU answers. -/
def minLane (x : Line) : Nat := ((List.range 16).map (fun i => (lane x i).toNat)).foldl min none32

/-- It is the least of the lanes: the bound that the search begins with lies above none of them. -/
theorem minLane_eq (x : Line) : minLane x = ((List.range 16).map (fun i => (lane x i).toNat)).min (by simp) := by
  rw [minLane, List.foldl_min_eq_min (by simp), Nat.min_eq_right]
  obtain ⟨i, -, hi⟩ := List.mem_map.mp (List.min_mem (l := (List.range 16).map (fun i => (lane x i).toNat)) (by simp))
  rw [← hi]
  exact Nat.le_of_lt_succ (lane x i).isLt

theorem minLane_mem (x : Line) : ∃ i, i < 16 ∧ minLane x = (lane x i).toNat := by
  rw [minLane_eq]
  obtain ⟨i, hi, hmin⟩ := List.mem_map.mp (List.min_mem (l := (List.range 16).map (fun i => (lane x i).toNat)) (by simp))
  exact ⟨i, List.mem_range.mp hi, hmin.symm⟩

theorem minLane_le (x : Line) {i : Nat} (hi : i < 16) : minLane x ≤ (lane x i).toNat := by
  rw [minLane_eq]
  exact List.min_le_of_mem (List.mem_map.mpr ⟨i, List.mem_range.mpr hi, rfl⟩)

theorem toNat_ofNat_minLane (x : Line) : (BitVec.ofNat 64 (minLane x)).toNat = minLane x := by
  obtain ⟨i, -, hi⟩ := minLane_mem x
  have hlt := (lane x i).isLt
  rw [BitVec.toNat_ofNat, Nat.mod_eq_of_lt (by omega)]

/-! ### HCOMP, the bit-set unit and their results (R379) -/

/-- A place among the bits of a line, 512 for none, and a number of set bits fit a scalar register. -/
theorem toNat_ofNat_of_le_512 {k : Nat} (h : k ≤ 512) : (BitVec.ofNat 64 k).toNat = k := by
  rw [BitVec.toNat_ofNat, Nat.mod_eq_of_lt (by omega)]

@[simp] theorem b3Compress_length (cv block : List Word) (lo hi len flags : Word) : (b3Compress cv block lo hi len flags).length = 16 := by
  simp [b3Compress]

/-- BRUN from a lower bit to a higher one, neither past the end of the line. -/
theorem bBrun_done {vd : BitVec 4} {a b : BitVec 5} {t : BeadThread} (hle : (t.rx a).toNat ≤ (t.rx b).toNat) (hhi : (t.rx b).toNat ≤ 512)
    (s : State) (e : BEnv) : bBrun vd a b s e t = bDone (t.wv vd (BitVec.ofNat 512 (2 ^ (t.rx b).toNat - 2 ^ (t.rx a).toNat))) := by
  simp [bBrun, hle, hhi]

end Sys2Proof.Machine

namespace Sys2Proof.Claims
open Machine

/-- Settles O14: each instruction against what its result is; CMAXK keeps the first of 16 lanes in the order of R339, and HCOMP puts the words of the
compression into the lanes. -/
theorem beadLineUnits : Obligations.BeadLineUnits := by
  unfold Obligations.BeadLineUnits
  intro s n e d a b vd va vb hcall hroom t x y
  refine ⟨?whole, ?bpop, ?bffs, ?bsel, ?brun, ?cminu, ?cmaxk, ?hcomp⟩
  case whole =>
    simp only [List.forall_mem_cons, List.not_mem_nil, false_implies, implies_true, and_true]
    exact ⟨exec_wv rfl hcall rfl hroom, exec_wv rfl hcall rfl hroom, exec_wv rfl hcall rfl hroom, exec_wv rfl hcall rfl hroom⟩
  case bpop =>
    exact ⟨BitVec.ofNat 64 (setBits x).length, exec_wx rfl hcall rfl hroom, toNat_ofNat_of_le_512 (setBits_length_le x)⟩
  case bffs =>
    refine ⟨BitVec.ofNat 64 ((setBits x).headD 512), exec_wx rfl hcall rfl hroom, ?_⟩
    rw [toNat_ofNat_of_le_512 (setBits_headD_le x)]
    exact setBits_headD x
  case bsel =>
    refine ⟨BitVec.ofNat 64 ((setBits x).getD (t.rx b).toNat 512), exec_wx rfl hcall rfl hroom, ?_⟩
    rw [toNat_ofNat_of_le_512 (setBits_getD_le x _)]
    exact setBits_getD x _
  case brun => exact fun hle hhi => ⟨_, exec_wv rfl hcall (bBrun_done hle hhi s e) hroom, getLsbD_run hle hhi⟩
  case cminu =>
    refine ⟨BitVec.ofNat 64 (minLane x), exec_wx rfl hcall rfl hroom, ?_⟩
    rw [toNat_ofNat_minLane]
    exact ⟨minLane_mem x, fun i => minLane_le x⟩
  case cmaxk =>
    exact ⟨firstLane x y, firstLane_lt x y, exec_wx rfl hcall (bCmaxk_eq d va vb s e t) hroom,
      fun j => firstLane_max⟩
  case hcomp =>
    exact fun hroom7 => ⟨_, exec_wv rfl hcall rfl hroom7, map_lane_ofLanes (b3Compress_length ..)⟩

end Sys2Proof.Claims
end

