-- ==== Sys2Proof/Proofs/BeadRandom.lean ====
section
/-! PROOF. Sys2Proof/Proofs/BeadRandom.lean: the random words of a hook (R354, R388). -/
namespace Sys2Proof.Machine
open Sys2Proof
variable {vd : BitVec 4} {a : BitVec 5} {e : BEnv} {t : BeadThread}

/-- The Philox words of draw `k` at the step and node that x6 and x7 hold (R354, R387). -/
def BeadThread.drawWords (t : BeadThread) (k : Nat) : List Nat :=
  philox t.seed [fld (t.rx 6#5) 0 32, k * 65536 + (t.rx 7#5).toNat % 256 * 256 + fld (t.rx 6#5) 32 8, 0, 0]

/-- RNG of a hook with a draw index in range. -/
theorem bRng_done (hrole : bROLE e.hdr = 3) (hlo : 1 ≤ (t.rx a).toNat) (hhi : (t.rx a).toNat ≤ 65535) (s : State) :
    bRng vd a s e t =
      bDone (t.wv vd (ofLanes (fun i => if i < 4 then BitVec.ofNat 32 ((t.drawWords (t.rx a).toNat).getD i 0) else 0#32))) := by
  have hdraws : (bROLE e.hdr != 3 || (t.rx a).toNat == 0 || decide (65535 < (t.rx a).toNat)) = false := by
    simp [hrole, show ¬ (t.rx a).toNat = 0 by omega, show ¬ 65535 < (t.rx a).toNat by omega]
  simp only [bRng, hdraws]
  rfl

/-- RNG in another role, or with a draw index out of range. -/
theorem bRng_fault (h : bROLE e.hdr ≠ 3 ∨ (t.rx a).toNat = 0 ∨ 65535 < (t.rx a).toNat) (s : State) :
    bRng vd a s e t = .fault ⟨bfCONTRACT, 0, 0#64⟩ := by
  have hrefused : (bROLE e.hdr != 3 || (t.rx a).toNat == 0 || decide (65535 < (t.rx a).toNat)) = true := by
    simpa [or_assoc] using h
  simp only [bRng, hrefused, if_true]

end Sys2Proof.Machine

namespace Sys2Proof.Claims
open Machine

/-- Settles O17: in a hook with a draw index in range the instruction is done, and its lanes are the words of the draw; otherwise it faults. -/
theorem beadRandom : Obligations.BeadRandom := by
  unfold Obligations.BeadRandom
  intro s n e vd a hcall t k
  refine ⟨fun hrole hlo hhi hroom => ?_, fun h => exec_fault rfl hcall (bRng_fault h s)⟩
  exact ⟨_, exec_wv rfl hcall (bRng_done hrole hlo hhi s) hroom, fun i hi => lane_ofLanes _ hi⟩

end Sys2Proof.Claims
end

