-- ==== Sys2Proof/Proofs/BeadWords.lean ====
section
/-! PROOF. Sys2Proof/Proofs/BeadWords.lean: the fields of an instruction word, and the decoder on the words of each format (R375, R376, R379). -/
namespace Sys2Proof.Machine
open Sys2Proof Claims

/-! ### Fields -/

/-- Bits [lo + len - 1:lo] of a word, as a field. -/
theorem extractLsb'_eq_ofNat_fld (w : Word) (lo len : Nat) : w.extractLsb' lo len = BitVec.ofNat len (fld w lo len) :=
  BitVec.eq_of_toNat_eq (by rw [BitVec.extractLsb'_toNat, BitVec.toNat_ofNat, fld, Nat.mod_mod])

theorem fld_eq_div (w : Word) (lo len : Nat) : fld w lo len = w.toNat / 2 ^ lo % 2 ^ len := by rw [fld, Nat.shiftRight_eq_div_pow]

/-- A field of zeros meets its mask in no bit. -/
theorem and_fieldMask {w : Word} {lo len : Nat} (h : fld w lo len = 0) : w &&& BitVec.ofNat 32 ((2 ^ len - 1) <<< lo) = 0#32 := by
  refine BitVec.eq_of_getLsbD_eq fun i hi => ?_
  have hbit := testBit_fld w lo len (i - lo)
  rw [h, Nat.zero_testBit] at hbit
  rw [BitVec.getLsbD_and, BitVec.getLsbD_ofNat, Nat.testBit_shiftLeft, Nat.testBit_two_pow_sub_one, BitVec.getLsbD_zero]
  by_cases hlo : lo ≤ i
  · rw [Nat.add_sub_cancel' hlo] at hbit
    rw [decide_eq_true hi, decide_eq_true (show i ≥ lo from hlo), Bool.true_and, Bool.true_and, Bool.and_comm, ← hbit]
  · simp [hlo]

/-- The fields that a word uses are those of any word of its MAJOR and FN. -/
theorem wordBits_congr {w w' : Word} (hmaj : fld w 26 6 = fld w' 26 6) (hfn : fld w 0 11 = fld w' 0 11) : wordBits w = wordBits w' := by
  have unit : ∀ w : Word, fld w 8 3 = fld w 0 11 / 256 := fun w => by rw [fld_eq_div, fld_eq_div]; omega
  have op : ∀ w : Word, fld w 0 8 = fld w 0 11 % 256 := fun w => by rw [fld_eq_div, fld_eq_div]; omega
  unfold wordBits
  rw [unit, unit, op, op, hmaj, hfn]

theorem wordOk_of {w : Word} {m : Nat} (hm : wordBits w = some m) (hz : w &&& ~~~(BitVec.ofNat 32 m) = 0#32) : wordOk w = true := by
  simp only [wordOk, hm, hz, beq_self_eq_true]

/-- A register number of fewer bits, in a field of 5. -/
theorem toNat_setWidth_5 {u : Nat} (hu : u ≤ 5) (d : BitVec u) : (d.setWidth 5).toNat = d.toNat := BitVec.toNat_setWidth_of_le hu

/-! ### Format A, and U with UNIT and its FN as one number -/

/-- The decoder on the fields of format A. -/
def decodeA (maj fn : Nat) (d a b : BitVec 5) : Option BOp :=
  match maj with
  | 0x01 => some (bAlu fn d a b)
  | 0x0B => some (bFpu fn d a b)
  | 0x1F => some (bJr d a)
  | 0x24 => decodeUnit (fn / 256) (fn % 256) d a b
  | 0x25 => some (if fn == 0 then bGet d a b else bWait a)
  | 0x3F => decodeSys fn d a b
  | _ => none

section
variable {maj fn : Nat} {d a b : BitVec 5} {m : Nat} {op : BOp}

/-- The fields of a word of format A. -/
structure FieldsA (w : Word) (m d a b f : Nat) : Prop where
  maj : fld w 26 6 = m
  d : fld w 21 5 = d
  a : fld w 16 5 = a
  b : fld w 11 5 = b
  fn : fld w 0 11 = f
  unit : fld w 8 3 = f / 256
  op : fld w 0 8 = f % 256

theorem fieldsA (d a b : BitVec 5) (hmaj : maj < 64) (hfn : fn < 2048) :
    FieldsA (wA maj d.toNat a.toNat b.toNat fn) maj d.toNat a.toNat b.toNat fn := by
  have hw : (wA maj d.toNat a.toNat b.toNat fn).toNat = maj * 2 ^ 26 + d.toNat * 2 ^ 21 + a.toNat * 2 ^ 16 + b.toNat * 2 ^ 11 + fn := by
    rw [wA, BitVec.toNat_ofNat, Nat.mod_eq_of_lt]
    omega
  constructor <;> rw [fld_eq_div, hw] <;> omega

/-- A word of format A decodes by its fields, where those that its operation does not use are zero. -/
theorem beadDecode_wA (hmaj : maj < 64) (hfn : fn < 2048) (hm : wordBits (wA maj 0 0 0 fn) = some m)
    (hz : wA maj d.toNat a.toNat b.toNat fn &&& ~~~(BitVec.ofNat 32 m) = 0#32) (hop : decodeA maj fn d a b = some op) :
    beadDecode (wA maj d.toNat a.toNat b.toNat fn) = some op := by
  have hw := fieldsA d a b hmaj hfn
  have hw0 : FieldsA (wA maj 0 0 0 fn) .. := fieldsA 0#5 0#5 0#5 hmaj hfn
  have hbits : wordBits (wA maj d.toNat a.toNat b.toNat fn) = some m := by
    rw [← hm]
    exact wordBits_congr (hw.maj.trans hw0.maj.symm) (hw.fn.trans hw0.fn.symm)
  rw [beadDecode, wordOk_of hbits hz]
  simp only [extractLsb'_eq_ofNat_fld, hw.maj, hw.fn, hw.unit, hw.op, hw.d, hw.a, hw.b, BitVec.ofNat_toNat, BitVec.setWidth_eq, Bool.not_true,
    Bool.false_eq_true, if_false]
  unfold decodeA at hop
  split at hop
  case h_7 => cases hop
  all_goals exact hop

section
variable {u v w : Nat} {d : BitVec u} {a : BitVec v} {b : BitVec w}

/-- A word with three operands uses every field. -/
theorem beadDecode_dab (hop : decodeA maj fn (d.setWidth 5) (a.setWidth 5) (b.setWidth 5) = some op)
    (hm : wordBits (wA maj 0 0 0 fn) = some 0xFFFFFFFF := by decide)
    (hu : u ≤ 5 := by decide) (hv : v ≤ 5 := by decide) (hw : w ≤ 5 := by decide) (hmaj : maj < 64 := by decide)
    (hfn : fn < 2048 := by decide) :
    beadDecode (wA maj d.toNat a.toNat b.toNat fn) = some op := by
  rw [← toNat_setWidth_5 hu d, ← toNat_setWidth_5 hv a, ← toNat_setWidth_5 hw b]
  exact beadDecode_wA hmaj hfn hm BitVec.and_zero hop

/-- A word without the operand B. -/
theorem beadDecode_da (hop : decodeA maj fn (d.setWidth 5) (a.setWidth 5) 0#5 = some op)
    (hm : wordBits (wA maj 0 0 0 fn) = some 0xFFFF07FF := by decide)
    (hu : u ≤ 5 := by decide) (hv : v ≤ 5 := by decide) (hmaj : maj < 64 := by decide) (hfn : fn < 2048 := by decide) :
    beadDecode (wA maj d.toNat a.toNat 0 fn) = some op := by
  rw [← toNat_setWidth_5 hu d, ← toNat_setWidth_5 hv a]
  exact beadDecode_wA (b := 0#5) hmaj hfn hm (and_fieldMask (lo := 11) (len := 5) (fieldsA _ _ 0#5 hmaj hfn).b) hop

end

/-- A word with the operand B alone. -/
theorem beadDecode_b (hop : decodeA maj fn 0#5 0#5 b = some op) (hm : wordBits (wA maj 0 0 0 fn) = some 0xFC00FFFF := by decide)
    (hmaj : maj < 64 := by decide) (hfn : fn < 2048 := by decide) : beadDecode (wA maj 0 0 b.toNat fn) = some op := by
  have hw := fieldsA 0#5 0#5 b hmaj hfn
  refine beadDecode_wA (d := 0#5) (a := 0#5) hmaj hfn hm ?_ hop
  exact (BitVec.and_or_distrib_left ..).trans (congrArg₂ (· ||| ·) (and_fieldMask hw.d) (and_fieldMask hw.a))

/-- A word with the operand A alone. -/
theorem beadDecode_a (hop : decodeA maj fn 0#5 a 0#5 = some op) (hm : wordBits (wA maj 0 0 0 fn) = some 0xFC1F07FF := by decide)
    (hmaj : maj < 64 := by decide) (hfn : fn < 2048 := by decide) : beadDecode (wA maj 0 a.toNat 0 fn) = some op := by
  have hw := fieldsA 0#5 a 0#5 hmaj hfn
  refine beadDecode_wA (d := 0#5) (b := 0#5) hmaj hfn hm ?_ hop
  exact (BitVec.and_or_distrib_left ..).trans (congrArg₂ (· ||| ·) (and_fieldMask hw.d) (and_fieldMask hw.b))

/-- A word with no operand. -/
theorem beadDecode_none (hop : decodeA maj fn 0#5 0#5 0#5 = some op) (hm : wordBits (wA maj 0 0 0 fn) = some 0xFC0007FF := by decide)
    (hmaj : maj < 64 := by decide) (hfn : fn < 2048 := by decide) : beadDecode (wA maj 0 0 0 fn) = some op := by
  have hw := fieldsA 0#5 0#5 0#5 hmaj hfn
  refine beadDecode_wA (d := 0#5) (a := 0#5) (b := 0#5) hmaj hfn hm ?_ hop
  rw [show ~~~BitVec.ofNat 32 0xFC0007FF = 0x3E00000#32 ||| 0x1F0000#32 ||| 0xF800#32 by decide, BitVec.and_or_distrib_left,
    BitVec.and_or_distrib_left]
  exact congrArg₂ (· ||| ·) (congrArg₂ (· ||| ·) (and_fieldMask hw.d) (and_fieldMask hw.a)) (and_fieldMask hw.b)

end

/-! ### Formats I, J and L -/

/-- The MAJOR codes of formats I and J. -/
def majorsI : List Nat := [2, 3, 4, 5, 6, 7, 8, 9, 0x10, 0x11, 0x12, 0x13, 0x14, 0x15, 0x16, 0x17, 0x18, 0x19, 0x1A, 0x1B, 0x1C, 0x1D, 0x22, 0x23]

/-- The decoder on the fields of formats I and J. -/
def decodeI (maj : Nat) (d a : BitVec 5) (imm : BitVec 16) : BOp :=
  if maj ≤ 9 then bAlui maj d a imm
  else if maj ≤ 0x13 then bLd (maj - 0x10) d a imm
  else if maj ≤ 0x17 then bSt (maj - 0x14) d a imm
  else if maj ≤ 0x1D then bBranch maj d a imm
  else if maj = 0x22 then bVld (d.truncate 4) a imm
  else bVst (d.truncate 4) a imm

/-- A word of format I or J decodes by its fields: its operation uses all of them. -/
theorem beadDecode_wI {maj u : Nat} {d : BitVec u} {a : BitVec 5} {imm : BitVec 16} {op : BOp} (hop : decodeI maj (d.setWidth 5) a imm = op)
    (hmaj : maj ∈ majorsI := by decide) (hu : u ≤ 5 := by decide) : beadDecode (wI maj d.toNat a.toNat imm.toNat) = some op := by
  subst hop
  rw [← toNat_setWidth_5 hu d]
  generalize d.setWidth 5 = d
  have hlt : ∀ m ∈ majorsI, m < 64 := by decide
  have hmaj64 := hlt maj hmaj
  have hw : (wI maj d.toNat a.toNat imm.toNat).toNat = maj * 2 ^ 26 + d.toNat * 2 ^ 21 + a.toNat * 2 ^ 16 + imm.toNat := by
    rw [wI, BitVec.toNat_ofNat, Nat.mod_eq_of_lt]
    omega
  have fmaj : fld (wI maj d.toNat a.toNat imm.toNat) 26 6 = maj := by rw [fld_eq_div, hw]; omega
  have fd : fld (wI maj d.toNat a.toNat imm.toNat) 21 5 = d.toNat := by rw [fld_eq_div, hw]; omega
  have fa : fld (wI maj d.toNat a.toNat imm.toNat) 16 5 = a.toNat := by rw [fld_eq_div, hw]; omega
  have fimm : fld (wI maj d.toNat a.toNat imm.toNat) 0 16 = imm.toNat := by rw [fld_eq_div, hw]; omega
  generalize wI maj d.toNat a.toNat imm.toNat = w at *
  have hbits : wordBits w = some 0xFFFFFFFF := by
    unfold wordBits
    rw [fmaj]
    fin_cases hmaj <;> rfl
  rw [beadDecode, wordOk_of hbits BitVec.and_zero]
  simp only [extractLsb'_eq_ofNat_fld, fmaj, fd, fa, fimm, BitVec.ofNat_toNat, BitVec.setWidth_eq]
  fin_cases hmaj <;> rfl

/-- The decoder on the fields of format L. -/
def decodeL (maj : Nat) (d : BitVec 5) (imm : BitVec 21) : BOp := if maj = 0x0A then bLui d imm else bJal d imm

/-- A word of format L decodes by its fields. -/
theorem beadDecode_wL {maj : Nat} {d : BitVec 5} {imm : BitVec 21} {op : BOp} (hop : decodeL maj d imm = op)
    (hmaj : maj ∈ [0x0A, 0x1E] := by decide) :
    beadDecode (wL maj d.toNat imm.toNat) = some op := by
  subst hop
  have hlt : ∀ m ∈ [0x0A, 0x1E], m < 64 := by decide
  have hmaj64 := hlt maj hmaj
  have hw : (wL maj d.toNat imm.toNat).toNat = maj * 2 ^ 26 + d.toNat * 2 ^ 21 + imm.toNat := by
    rw [wL, BitVec.toNat_ofNat, Nat.mod_eq_of_lt]
    omega
  have fmaj : fld (wL maj d.toNat imm.toNat) 26 6 = maj := by rw [fld_eq_div, hw]; omega
  have fd : fld (wL maj d.toNat imm.toNat) 21 5 = d.toNat := by rw [fld_eq_div, hw]; omega
  have fimm : fld (wL maj d.toNat imm.toNat) 0 21 = imm.toNat := by rw [fld_eq_div, hw]; omega
  generalize wL maj d.toNat imm.toNat = w at *
  have hbits : wordBits w = some 0xFFFFFFFF := by
    unfold wordBits
    rw [fmaj]
    fin_cases hmaj <;> rfl
  rw [beadDecode, wordOk_of hbits BitVec.and_zero]
  simp only [extractLsb'_eq_ofNat_fld, fmaj, fd, fimm, BitVec.ofNat_toNat, BitVec.setWidth_eq]
  fin_cases hmaj <;> rfl

/-! ### Format V -/

/-- The fields of a word of format V. -/
structure FieldsV (w : Word) (m vd va vb k f : Nat) : Prop where
  maj : fld w 26 6 = m
  vd : fld w 22 4 = vd
  va : fld w 18 4 = va
  vb : fld w 14 4 = vb
  k : fld w 11 3 = k
  fn : fld w 0 11 = f

section
variable {maj fn m : Nat} {vd va vb : BitVec 4} {k : BitVec 3}

theorem fieldsV (vd va vb : BitVec 4) (k : BitVec 3) (hmaj : maj < 64) (hfn : fn < 2048) :
    FieldsV (wV maj vd.toNat va.toNat vb.toNat k.toNat fn) maj vd.toNat va.toNat vb.toNat k.toNat fn := by
  have hw : (wV maj vd.toNat va.toNat vb.toNat k.toNat fn).toNat =
      maj * 2 ^ 26 + vd.toNat * 2 ^ 22 + va.toNat * 2 ^ 18 + vb.toNat * 2 ^ 14 + k.toNat * 2 ^ 11 + fn := by
    rw [wV, BitVec.toNat_ofNat, Nat.mod_eq_of_lt]
    omega
  constructor <;> rw [fld_eq_div, hw] <;> omega

/-- A word of format V decodes by its fields, where those that its operation does not use are zero. -/
theorem beadDecode_wV (hmaj : maj = 0x20 ∨ maj = 0x21) (hfn : fn < 2048) (hm : wordBits (wV maj 0 0 0 0 fn) = some m)
    (hz : wV maj vd.toNat va.toNat vb.toNat k.toNat fn &&& ~~~(BitVec.ofNat 32 m) = 0#32) :
    beadDecode (wV maj vd.toNat va.toNat vb.toNat k.toNat fn) =
      some (if maj = 0x20 then bValu fn vd va vb k else bVcmp fn (vd.truncate 3) va vb k) := by
  have hw := fieldsV (maj := maj) (fn := fn) vd va vb k (by omega) hfn
  have hw0 : FieldsV (wV maj 0 0 0 0 fn) .. := fieldsV 0#4 0#4 0#4 0#3 (by omega) hfn
  have hbits : wordBits (wV maj vd.toNat va.toNat vb.toNat k.toNat fn) = some m := by
    rw [← hm]
    exact wordBits_congr (hw.maj.trans hw0.maj.symm) (hw.fn.trans hw0.fn.symm)
  rw [beadDecode, wordOk_of hbits hz]
  simp only [extractLsb'_eq_ofNat_fld, hw.maj, hw.fn, hw.vd, hw.va, hw.vb, hw.k, BitVec.ofNat_toNat, BitVec.setWidth_eq]
  rcases hmaj with rfl | rfl <;> rfl

theorem beadDecode_valu (hm : wordBits (wV 0x20 0 0 0 0 fn) = some 0xFFFFFFFF := by decide) (hfn : fn < 2048 := by decide) :
    beadDecode (wV 0x20 vd.toNat va.toNat vb.toNat k.toNat fn) = some (bValu fn vd va vb k) :=
  beadDecode_wV (.inl rfl) hfn hm BitVec.and_zero

theorem beadDecode_valu1 (hm : wordBits (wV 0x20 0 0 0 0 fn) = some 0xFFFC3FFF := by decide) (hfn : fn < 2048 := by decide) :
    beadDecode (wV 0x20 vd.toNat va.toNat 0 k.toNat fn) = some (bValu fn vd va 0#4 k) :=
  beadDecode_wV (vb := 0#4) (.inl rfl) hfn hm (and_fieldMask (lo := 14) (len := 4) (fieldsV vd va 0#4 k (by decide) hfn).vb)

/-- The destination of a comparison is a mask: the upper bit of its field is zero. -/
theorem beadDecode_vcmp {kd : BitVec 3} (hm : wordBits (wV 0x21 0 0 0 0 fn) = some 0xFDFFFFFF := by decide) (hfn : fn < 2048 := by decide) :
    beadDecode (wV 0x21 kd.toNat va.toNat vb.toNat k.toNat fn) = some (bVcmp fn kd va vb k) := by
  have hw : FieldsV (wV 0x21 kd.toNat va.toNat vb.toNat k.toNat fn) .. := fieldsV (kd.setWidth 4) va vb k (by decide) hfn
  have hhigh : fld (wV 0x21 kd.toNat va.toNat vb.toNat k.toNat fn) 25 1 = 0 := by
    have hd : fld (wV 0x21 kd.toNat va.toNat vb.toNat k.toNat fn) 22 4 = kd.toNat := hw.vd
    have hlt := kd.isLt
    rw [fld_eq_div] at hd ⊢
    omega
  have hop := beadDecode_wV (vd := kd.setWidth 4) (va := va) (vb := vb) (k := k) (.inr rfl) hfn hm (and_fieldMask hhigh)
  rwa [if_neg (by decide), show (kd.setWidth 4).truncate 3 = kd by simp] at hop

end
end Sys2Proof.Machine

namespace Sys2Proof.Claims
open Machine

/-- Settles O21: each word is of one of the formats, and the decoder on the fields of that format gives the operation of the row's command. -/
theorem beadWordsAreTheirCommands : Obligations.BeadWordsAreTheirCommands := by
  unfold Obligations.BeadWordsAreTheirCommands
  intro n d a b code vd va vb kd ka kb k imm up
  simp only [List.forall_mem_cons]
  repeat' refine And.intro ?_ ?_
  any_goals exact List.forall_mem_nil _
  -- The commands fix the operations. What is left says that each word decodes to its operation; matched without unfolding, a word is of one format.
  all_goals refine ⟨_, ?_, fun _ => rfl⟩
  any_goals with_reducible exact beadDecode_valu
  any_goals with_reducible exact beadDecode_valu1
  any_goals with_reducible exact beadDecode_vcmp
  any_goals with_reducible refine beadDecode_wI ?_
  any_goals with_reducible refine beadDecode_wL ?_
  any_goals with_reducible refine beadDecode_dab ?_
  any_goals with_reducible refine beadDecode_da ?_
  any_goals with_reducible refine beadDecode_b ?_
  any_goals with_reducible refine beadDecode_a ?_
  any_goals with_reducible refine beadDecode_none ?_
  all_goals simp [decodeA, decodeI, decodeL, decodeUnit, decodeSys]

/-- Settles O22: the words are of the formats V, A, I, J, L and U, with the fields of their instructions. -/
theorem beadWorkedWords : Obligations.BeadWorkedWords := by
  unfold Obligations.BeadWorkedWords
  intro n s
  simp only [List.forall_mem_cons, List.not_mem_nil, false_implies, implies_true, and_true]
  exact ⟨
    ⟨_, beadDecode_valu (vd := 1#4) (va := 1#4) (vb := 2#4) (k := 0#3) (fn := 13), rfl⟩,
    ⟨_, beadDecode_dab (d := 3#5) (a := 1#5) (b := 2#5) (maj := 0x01) (fn := 0) rfl, rfl⟩,
    ⟨_, beadDecode_wI (d := 5#5) (a := 6#5) (imm := 0xFFFF#16) (maj := 0x02) rfl, rfl⟩,
    ⟨_, beadDecode_wI (d := 7#5) (a := 8#5) (imm := 0xFFFE#16) (maj := 0x19) rfl, rfl⟩,
    ⟨_, beadDecode_wL (d := 9#5) (imm := 5#21) (maj := 0x0A) rfl, rfl⟩,
    ⟨_, beadDecode_da (d := 4#5) (a := 3#4) (maj := 0x24) (fn := 0x404) rfl, rfl⟩⟩

end Sys2Proof.Claims
end

