-- ==== Sys2Proof/Proofs/BeadScalars.lean ====
section
/-! PROOF. Sys2Proof/Proofs/BeadScalars.lean: the scalar instructions: ALU, immediates, floating point, branches and jumps (R368, R370, R376). -/
namespace Sys2Proof.Machine
open Sys2Proof

/-! ### Results of the ALU (R370, R376) -/

theorem ofNat_mul_toNat (x y : DWord) : BitVec.ofNat 64 (x.toNat * y.toNat) = x * y := by
  rw [BitVec.ofNat_mul, BitVec.ofNat_toNat, BitVec.ofNat_toNat, BitVec.setWidth_eq, BitVec.setWidth_eq]

theorem ofInt_min_toInt (x y : DWord) : BitVec.ofInt 64 (min x.toInt y.toInt) = if y.slt x then y else x := by
  rw [BitVec.slt_eq_decide]
  simp only [decide_eq_true_eq]
  split
  · rw [min_eq_right (by omega), BitVec.ofInt_toInt]
  · rw [min_eq_left (by omega), BitVec.ofInt_toInt]

theorem ofInt_max_toInt (x y : DWord) : BitVec.ofInt 64 (max x.toInt y.toInt) = if x.slt y then y else x := by
  rw [BitVec.slt_eq_decide]
  simp only [decide_eq_true_eq]
  split
  · rw [max_eq_right (by omega), BitVec.ofInt_toInt]
  · rw [max_eq_left (by omega), BitVec.ofInt_toInt]

theorem ofNat_min_toNat {w : Nat} (x y : BitVec w) : BitVec.ofNat w (min x.toNat y.toNat) = if y.ult x then y else x := by
  rw [BitVec.ult_eq_decide]
  simp only [decide_eq_true_eq]
  split
  · rw [min_eq_right (by omega), BitVec.ofNat_toNat, BitVec.setWidth_eq]
  · rw [min_eq_left (by omega), BitVec.ofNat_toNat, BitVec.setWidth_eq]

theorem ofNat_max_toNat {w : Nat} (x y : BitVec w) : BitVec.ofNat w (max x.toNat y.toNat) = if x.ult y then y else x := by
  rw [BitVec.ult_eq_decide]
  simp only [decide_eq_true_eq]
  split
  · rw [max_eq_right (by omega), BitVec.ofNat_toNat, BitVec.setWidth_eq]
  · rw [max_eq_left (by omega), BitVec.ofNat_toNat, BitVec.setWidth_eq]

theorem flag64_decide (p : Prop) [Decidable p] : flag64 (decide p) = if p then 1#64 else 0#64 := by simp [flag64]

/-- The zeros above the highest set bit, counted from bit 63 down. -/
theorem find?_top_bit (x : DWord) :
    ((List.range 64).find? (fun i => x.getLsbD (63 - i))).getD 64 = if x = 0#64 then 64 else 63 - Nat.log2 x.toNat := by
  split
  case isTrue h =>
    subst h
    rfl
  case isFalse h =>
    have hne : x.toNat ≠ 0 := fun h0 => h (BitVec.eq_of_toNat_eq h0)
    have hlt : Nat.log2 x.toNat < 64 := (Nat.log2_lt hne).mpr x.isLt
    have hfind : (List.range 64).find? (fun i => x.getLsbD (63 - i)) = some (63 - Nat.log2 x.toNat) := by
      rw [List.find?_range_eq_some]
      refine ⟨?_, by simp; omega, fun j hj => ?_⟩
      · rw [show 63 - (63 - Nat.log2 x.toNat) = Nat.log2 x.toNat by omega]
        exact Nat.testBit_log2 hne
      · rw [Bool.not_eq_true']
        exact Nat.testBit_lt_two_pow ((Nat.log2_lt hne).mp (by omega))
    rw [hfind, Option.getD_some]

/-! ### Immediates -/

theorem signExtend_eq_ofInt (imm : BitVec 16) : imm.signExtend 64 = BitVec.ofInt 64 imm.toInt := rfl

theorem slt_signExtend (x : DWord) (imm : BitVec 16) : x.slt (imm.signExtend 64) = decide (x.toInt < imm.toInt) := by
  rw [BitVec.slt_eq_decide, BitVec.toInt_signExtend_of_le (by decide)]

theorem lui_value (up : BitVec 21) : (BitVec.ofNat 32 (up.toNat * 2048)).zeroExtend 64 = BitVec.ofNat 64 (up.toNat * 2048 % 2 ^ 32) := by
  refine BitVec.eq_of_toNat_eq ?_
  simp only [BitVec.toNat_setWidth, BitVec.toNat_ofNat]

/-! ### NaN and equal operands (R370) -/

theorem fp_of_nan {x y : Word} (h : fpIsNaN x = true ∨ fpIsNaN y = true) :
    fpAdd x y = fpNaN ∧ fpSub x y = fpNaN ∧ fpMul x y = fpNaN ∧ fpDiv x y = fpNaN ∧ fpMin x y = fpNaN ∧ fpMax x y = fpNaN := by
  have hor : (fpIsNaN x || fpIsNaN y) = true := by simpa using h
  refine ⟨by simp [fpAdd, hor], ?_, by simp [fpMul, hor], by simp [fpDiv, hor], by simp [fpMin, hor], by simp [fpMax, hor]⟩
  unfold fpSub
  split
  · rfl
  · next hy => simp [fpAdd, h.resolve_right hy]

theorem fp_of_eq {x y : Word} (h : fpEq x y = true) : fpMin x y = x ∧ fpMax x y = x := by
  simp only [fpEq, Bool.and_eq_true, Bool.not_eq_true', beq_iff_eq] at h
  obtain ⟨⟨hx, hy⟩, hkey⟩ := h
  simp [fpMin, fpMax, fpLt, hx, hy, hkey]

end Sys2Proof.Machine

namespace Sys2Proof.Claims
open Machine

section
variable {i : Instr} {s : State} {n : Thread} {e : BEnv} {d a b : BitVec 5} {w : DWord}

/-- An ALU command writes what the ALU answers. -/
theorem exec_bAlu (fn : Nat) (hexec : exec i s = .next (beadRun n (bAlu fn d a b) s)) (h : InCall s n e) (hroom : Room s n e 1)
    (hw : aluFn fn ((s.thread n).rx a) ((s.thread n).rx b) = w) : exec i s = .next (retired s n ((s.thread n).wx d w) 1) :=
  hw ▸ exec_wx hexec h rfl hroom

/-- A command with an immediate writes what the ALU answers. -/
theorem exec_bAlui (maj : Nat) {imm : BitVec 16} (hexec : exec i s = .next (beadRun n (bAlui maj d a imm) s)) (h : InCall s n e)
    (hroom : Room s n e 1)
    (hw : aluiFn maj ((s.thread n).rx a) imm = w) : exec i s = .next (retired s n ((s.thread n).wx d w) 1) :=
  hw ▸ exec_wx hexec h rfl hroom

end

section
variable {s : State} {n : Thread} {e : BEnv} {op : BOp} {u : BeadThread} {pc c : Nat}

/-- An instruction that is done within the budget, with an effect on registers and on the program counter alone. -/
theorem InCall.beadRun_jump (h : InCall s n e) (hop : op s e (s.thread n) = .ok { u with pc := pc } c) (hu : (s.thread n).SameTally u)
    (hroom : Room s n e c) : Machine.beadRun n op s = wentTo s n u pc c := by
  obtain ⟨-, huninit, hmiss, hwalks⟩ := hu
  have hbudget : ¬ bCYCLES e.hdr < (s.thread n).count + c := Nat.not_lt.mpr hroom
  rw [h.beadRun, hop]
  simp only [metered, hbudget, if_false, State.threadRes, huninit, hmiss, hwalks, Nat.sub_self, State.noteUninit_zero, State.noteMiss_zero, wentTo]

/-- A branch goes where its condition says (R375, R376). -/
theorem exec_bBranch (maj : Nat) {i : Instr} {a b : BitVec 5} {off : BitVec 16} {p : Prop}
    (hexec : exec i s = .next (Machine.beadRun n (bBranch maj a b off) s)) (h : InCall s n e) (hroom : Room s n e 1)
    (hp : branchFn maj ((s.thread n).rx a) ((s.thread n).rx b) = true ↔ p) (hpos : 0 ≤ ((s.thread n).pc : Int) + 4 * off.toInt) :
    (p → ∃ pc : Nat, (pc : Int) = (s.thread n).pc + 4 * off.toInt ∧ exec i s = .next (wentTo s n (s.thread n) pc 1)) ∧
    (¬ p → exec i s = .next (retired s n (s.thread n) 1)) := by
  refine ⟨fun htaken => ⟨_, Int.toNat_of_nonneg hpos, ?_⟩, fun hnot => ?_⟩
  · have hop : bBranch maj a b off s e (s.thread n) = .ok { s.thread n with pc := ((s.thread n).pc + 4 * off.toInt).toNat } 1 :=
      if_pos (hp.mpr htaken)
    rw [hexec, h.beadRun_jump hop (.refl _) hroom]
  · have hop : bBranch maj a b off s e (s.thread n) = bDone (s.thread n) := if_neg (hp.not.mpr hnot)
    rw [hexec, h.beadRun_done hop (.refl _) hroom]

end

/-- Settles O1: every result is the ALU function at the FN of the instruction. -/
theorem beadScalarAlu : Obligations.BeadScalarAlu := by
  unfold Obligations.BeadScalarAlu
  intro s n e d a b hcall hroom x y sh
  simp only [List.forall_mem_cons, List.not_mem_nil, false_implies, implies_true, and_true]
  refine ⟨exec_bAlu 0 rfl hcall hroom rfl, exec_bAlu 1 rfl hcall hroom rfl, exec_bAlu 2 rfl hcall hroom rfl, exec_bAlu 3 rfl hcall hroom rfl,
    exec_bAlu 4 rfl hcall hroom rfl, exec_bAlu 5 rfl hcall hroom rfl, exec_bAlu 6 rfl hcall hroom rfl, exec_bAlu 7 rfl hcall hroom rfl,
    exec_bAlu 8 rfl hcall hroom (ofNat_mul_toNat x y).symm, exec_bAlu 9 rfl hcall hroom rfl, exec_bAlu 10 rfl hcall hroom ?divu,
    exec_bAlu 11 rfl hcall hroom ?remu, exec_bAlu 12 rfl hcall hroom (ofInt_min_toInt x y).symm,
    exec_bAlu 13 rfl hcall hroom (ofInt_max_toInt x y).symm, exec_bAlu 14 rfl hcall hroom (ofNat_min_toNat x y).symm,
    exec_bAlu 15 rfl hcall hroom (ofNat_max_toNat x y).symm, exec_bAlu 16 rfl hcall hroom ?seq, exec_bAlu 17 rfl hcall hroom ?slt,
    exec_bAlu 18 rfl hcall hroom ?sltu, exec_bAlu (b := 0#5) 19 rfl hcall hroom rfl, exec_bAlu (b := 0#5) 20 rfl hcall hroom ?clz,
    exec_bAlu (b := 0#5) 21 rfl hcall hroom rfl⟩
  case divu | remu => simp [aluFn, x, y]
  case seq => simp [aluFn, flag64, x, y]
  case slt => rw [← flag64_decide, ← BitVec.slt_eq_decide]; rfl
  case sltu => rw [← flag64_decide, ← BitVec.ult_eq_decide]; rfl
  case clz => simp [aluFn, find?_top_bit, x]

/-- Settles O2: every result is the ALU function at the MAJOR of the instruction. -/
theorem beadImmediates : Obligations.BeadImmediates := by
  unfold Obligations.BeadImmediates
  intro s n e d a imm up hcall hroom x se ze sh
  simp only [List.forall_mem_cons, List.not_mem_nil, false_implies, implies_true, and_true]
  refine ⟨exec_bAlui 2 rfl hcall hroom rfl, exec_bAlui 3 rfl hcall hroom ?andi, exec_bAlui 4 rfl hcall hroom ?ori,
    exec_bAlui 5 rfl hcall hroom ?xori, exec_bAlui 6 rfl hcall hroom rfl, exec_bAlui 7 rfl hcall hroom rfl, exec_bAlui 8 rfl hcall hroom rfl,
    exec_bAlui 9 rfl hcall hroom ?slti,
    lui_value up ▸ exec_wx rfl hcall rfl hroom⟩
  case andi | ori | xori => simp [aluiFn, ze, x]
  case slti => rw [← flag64_decide, ← slt_signExtend]; rfl

/-- Settles O3: each command writes what the floating-point unit answers; NaN and equal operands are the first branches of its functions. -/
theorem beadFloat : Obligations.BeadFloat := by
  unfold Obligations.BeadFloat
  refine ⟨?commands, fun x y => fp_of_nan, fun x y => fp_of_eq, fun x h => by simp [fpToInt, h]⟩
  intro s n e d a b hcall hroom x y
  simp only [List.forall_mem_cons, List.not_mem_nil, false_implies, implies_true, and_true]
  exact ⟨exec_wx rfl hcall rfl hroom, exec_wx rfl hcall rfl hroom, exec_wx rfl hcall rfl hroom, exec_wx rfl hcall rfl hroom,
    exec_wx rfl hcall rfl hroom, exec_wx rfl hcall rfl hroom, exec_wx rfl hcall rfl hroom, exec_wx rfl hcall rfl hroom,
    exec_wx rfl hcall rfl hroom, exec_wx rfl hcall rfl hroom⟩

/-- Settles O8: each condition is the branch function at the MAJOR of the instruction. -/
theorem beadBranches : Obligations.BeadBranches := by
  unfold Obligations.BeadBranches
  intro s n e a b off hcall hroom t x y hpos
  simp only [List.forall_mem_cons, List.not_mem_nil, false_implies, implies_true, and_true]
  refine ⟨exec_bBranch 0x18 rfl hcall hroom ?beq hpos, exec_bBranch 0x19 rfl hcall hroom ?bne hpos, exec_bBranch 0x1A rfl hcall hroom ?blt hpos,
    exec_bBranch 0x1B rfl hcall hroom ?bge hpos, exec_bBranch 0x1C rfl hcall hroom ?bltu hpos, exec_bBranch 0x1D rfl hcall hroom ?bgeu hpos⟩
  case beq | bne => simp [branchFn, x, y, t]
  case blt => simp [branchFn, BitVec.slt_eq_decide, x, y, t]
  case bge => simp [branchFn, BitVec.slt_eq_decide, x, y, t]
  case bltu => simp [branchFn, BitVec.ult_eq_decide, x, y, t]
  case bgeu => simp [branchFn, BitVec.ult_eq_decide, x, y, t]

/-- Settles O9: JAL always jumps; JR first looks whether its target lies in CODE, then whether it is aligned. -/
theorem beadJumps : Obligations.BeadJumps := by
  unfold Obligations.BeadJumps
  intro s n e d a imm hcall t x u
  have hu : (s.thread n).SameTally u := .wx ..
  refine ⟨fun hroom hpos => ⟨_, Int.toNat_of_nonneg hpos, ?jal⟩, fun hroom hin halign => ?jr, fun hout => ?window, fun hin halign => ?align⟩
  case jal =>
    have hop : bJal d imm s e t = .ok { u with pc := ((t.pc : Int) + 4 * imm.toInt).toNat } 1 := by
      rw [bJal, bJump, hu.pc]
    exact congrArg _ (hcall.beadRun_jump hop hu hroom)
  case jr =>
    have hop : bJr d a s e t = .ok { u with pc := x } 1 := by simp [bJr, t, u, x, Nat.not_le.mpr hin, halign]
    exact congrArg _ (hcall.beadRun_jump hop hu hroom)
  case window => exact exec_fault rfl hcall (if_pos hout)
  case align => exact exec_fault rfl hcall (by simp [bJr, t, x, Nat.not_le.mpr hin, halign])

end Sys2Proof.Claims
end

