-- ==== Sys2Proof/Proofs/BeadVectors.lean ====
section
/-! PROOF. Sys2Proof/Proofs/BeadVectors.lean: the register file, the vector instructions under their masks, and the moves (R368, R376, R379). -/
namespace Sys2Proof.Machine
open Sys2Proof
variable {t : BeadThread}

/-! ### The register file (R368) -/

theorem BeadThread.wx_zero (t : BeadThread) (x : DWord) : t.wx 0#5 x = t := rfl
theorem BeadThread.wk_zero (t : BeadThread) (x : DWord) : t.wk 0#3 x = t := rfl

theorem BeadThread.rx_wx (t : BeadThread) (d r : BitVec 5) (x : DWord) :
    (t.wx d x).rx r = if r = 0#5 then 0#64 else if r = d then x else t.rx r := by
  by_cases hr : r = 0#5
  · simp [BeadThread.rx, hr]
  by_cases hd : d = 0#5
  · subst hd
    simp [BeadThread.wx_zero, hr]
  simp only [BeadThread.wx, BeadThread.rx, beq_iff_eq, hr, hd, if_false]
  rw [Fin.getElem_fin, Vector.getElem_set]
  simp only [Fin.getElem_fin, Fin.val_inj, BitVec.toFin_inj, eq_comm]

theorem BeadThread.rv_wv (t : BeadThread) (d r : BitVec 4) (v : Line) : (t.wv d v).rv r = if r = d then v else t.rv r := by
  simp only [BeadThread.wv, BeadThread.rv]
  rw [Fin.getElem_fin, Vector.getElem_set]
  simp only [Fin.getElem_fin, Fin.val_inj, BitVec.toFin_inj, eq_comm]

theorem BeadThread.rk_wk (t : BeadThread) (d r : BitVec 3) (k : DWord) :
    (t.wk d k).rk r = if r = 0#3 then BitVec.allOnes 64 else if r = d then k else t.rk r := by
  by_cases hr : r = 0#3
  · simp [BeadThread.rk, hr]
  by_cases hd : d = 0#3
  · subst hd
    simp [BeadThread.wk_zero, hr]
  simp only [BeadThread.wk, BeadThread.rk, beq_iff_eq, hr, hd, if_false]
  rw [Fin.getElem_fin, Vector.getElem_set]
  simp only [Fin.getElem_fin, Fin.val_inj, BitVec.toFin_inj, eq_comm]

/-! ### Masks from their bits -/

theorem testBit_foldl_bits (f : Nat → Bool) (l : List Nat) (a j : Nat) :
    (l.foldl (fun a t => if f t then a ||| 2 ^ t else a) a).testBit j = (a.testBit j || (decide (j ∈ l) && f j)) := by
  induction l generalizing a with
  | nil => simp
  | cons i l ih =>
    rw [List.foldl_cons, ih]
    by_cases hij : i = j
    · subst hij
      cases h : f i <;> simp
    · have hmem : (j ∈ i :: l) ↔ j ∈ l := by simp [Ne.symm hij]
      cases h : f i <;> simp [hmem, Nat.testBit_two_pow_of_ne hij]

theorem testBit_bitsOf (n : Nat) (f : Nat → Bool) (j : Nat) : (bitsOf n f).testBit j = (decide (j < n) && f j) := by
  simp [bitsOf, testBit_foldl_bits]

theorem getLsbD_maskOf (n : Nat) (f : Nat → Bool) {i : Nat} (hi : i < 64) : (maskOf n f).getLsbD i = (decide (i < n) && f i) := by
  rw [maskOf, BitVec.getLsbD_ofNat, testBit_bitsOf, decide_eq_true hi, Bool.true_and]

end Sys2Proof.Machine

namespace Sys2Proof.Claims
open Machine

section
variable {i : Instr} {s : State} {n : Thread} {e : BEnv} {vd va vb : BitVec 4} {kd k : BitVec 3}

/-- A command whose instruction writes the mask register kD alone. -/
theorem exec_wk {op : BOp} {w : DWord} {c : Nat} (hexec : exec i s = .next (Machine.beadRun n op s)) (h : InCall s n e)
    (hop : op s e (s.thread n) = .ok { (s.thread n).wk kd w with pc := ((s.thread n).wk kd w).pc + 4 } c) (hroom : Room s n e c) :
    exec i s = .next (retired s n ((s.thread n).wk kd w) c) := by
  rw [hexec, h.beadRun_done hop (.wk ..) hroom]

/-- A vector ALU command, lane by lane under its mask. -/
theorem exec_bValu (fn : Nat) {f : Nat → Word} (hexec : exec i s = .next (Machine.beadRun n (bValu fn vd va vb k) s)) (h : InCall s n e)
    (hroom : Room s n e 1) (hf : ∀ i, valuFn fn i ((s.thread n).rv va) ((s.thread n).rv vb) = f i) :
    ∃ w, exec i s = .next (retired s n ((s.thread n).wv vd w) 1) ∧
      ∀ i, i < 16 → lane w i = if ((s.thread n).rk k).getLsbD i then f i else lane ((s.thread n).rv vd) i :=
  ⟨_, exec_wv hexec h rfl hroom, fun i hi => by rw [lane_ofLanes _ hi, hf]⟩

/-- A vector comparison of `lanes` lanes, bit by bit under its mask. -/
theorem exec_bVcmp (fn lanes : Nat) {f : Nat → Bool} (hexec : exec i s = .next (Machine.beadRun n (bVcmp fn kd va vb k) s)) (h : InCall s n e)
    (hroom : Room s n e 1)
    (hop : bVcmp fn kd va vb k s e (s.thread n) = bDone ((s.thread n).wk kd
      (maskOf lanes (fun i => if ((s.thread n).rk k).getLsbD i then f i else ((s.thread n).rk kd).getLsbD i)))) :
    ∃ w : DWord, exec i s = .next (retired s n ((s.thread n).wk kd w) 1) ∧ ∀ i, i < 64 → w.getLsbD i =
      (decide (i < lanes) && if true && !((s.thread n).rk k).getLsbD i then ((s.thread n).rk kd).getLsbD i else f i) := by
  refine ⟨_, exec_wk hexec h hop hroom, fun i hi => ?_⟩
  rw [getLsbD_maskOf _ _ hi]
  cases ((s.thread n).rk k).getLsbD i <;> rfl

/-- CGEF and CEQU, lane by lane. -/
theorem exec_bCmp (eq : Bool) {f : Nat → Bool} (hexec : exec i s = .next (Machine.beadRun n (bCmp eq kd va vb) s)) (h : InCall s n e)
    (hroom : Room s n e 1) (hop : bCmp eq kd va vb s e (s.thread n) = bDone ((s.thread n).wk kd (maskOf 16 f))) :
    ∃ w : DWord, exec i s = .next (retired s n ((s.thread n).wk kd w) 1) ∧ ∀ i, i < 64 → w.getLsbD i =
      (decide (i < 16) && if false && !((s.thread n).rk k).getLsbD i then ((s.thread n).rk kd).getLsbD i else f i) :=
  ⟨_, exec_wk hexec h hop hroom, fun _ hi => getLsbD_maskOf _ _ hi⟩

end

/-- Two fields of a word are equal when their bits are. -/
theorem extractLsb'_beq_iff {w : Nat} (x y : BitVec w) (start len : Nat) :
    (x.extractLsb' start len == y.extractLsb' start len) = true ↔ ∀ j < len, x.getLsbD (start + j) = y.getLsbD (start + j) := by
  rw [beq_iff_eq]
  constructor
  · intro heq j hj
    have := congrArg (·.getLsbD j) heq
    simpa [BitVec.getLsbD_extractLsb', hj] using this
  · intro hbits
    refine BitVec.eq_of_getLsbD_eq fun j hj => ?_
    rw [BitVec.getLsbD_extractLsb', BitVec.getLsbD_extractLsb', hbits j hj]

/-- Settles O10: each lane is the lane function at the FN of the instruction. -/
theorem beadVectorAlu : Obligations.BeadVectorAlu := by
  unfold Obligations.BeadVectorAlu
  intro s n e vd va vb k hcall hroom t x y
  simp only [List.forall_mem_cons, List.not_mem_nil, false_implies, implies_true, and_true]
  exact ⟨exec_bValu 0 rfl hcall hroom fun _ => rfl, exec_bValu 1 rfl hcall hroom fun _ => rfl, exec_bValu 2 rfl hcall hroom fun _ => rfl,
    exec_bValu 3 rfl hcall hroom fun _ => rfl, exec_bValu 4 rfl hcall hroom fun _ => rfl, exec_bValu 5 rfl hcall hroom fun _ => rfl,
    exec_bValu 6 rfl hcall hroom fun _ => rfl, exec_bValu 7 rfl hcall hroom fun i => (ofNat_min_toNat (x i) (y i)).symm,
    exec_bValu 8 rfl hcall hroom fun i => (ofNat_max_toNat (x i) (y i)).symm, exec_bValu 9 rfl hcall hroom fun _ => rfl,
    exec_bValu 10 rfl hcall hroom fun _ => rfl, exec_bValu 11 rfl hcall hroom fun _ => rfl, exec_bValu 12 rfl hcall hroom fun _ => rfl,
    exec_bValu 13 rfl hcall hroom fun _ => rfl, exec_bValu 14 rfl hcall hroom fun _ => rfl, exec_bValu 15 rfl hcall hroom fun _ => rfl,
    exec_bValu 16 rfl hcall hroom fun _ => rfl, exec_bValu 17 rfl hcall hroom fun _ => rfl, exec_bValu 18 rfl hcall hroom fun _ => rfl⟩

/-- Settles O11: a comparison puts its answers under the mask into kD; CGEF and CEQU have no mask. -/
theorem beadVectorCompare : Obligations.BeadVectorCompare := by
  unfold Obligations.BeadVectorCompare
  intro s n e kd va vb k hcall hroom t x y
  simp only [List.forall_mem_cons, List.not_mem_nil, false_implies, implies_true, and_true]
  refine ⟨exec_bVcmp 0 16 rfl hcall hroom rfl, exec_bVcmp 1 16 rfl hcall hroom rfl, exec_bVcmp 2 16 rfl hcall hroom rfl,
    exec_bVcmp 3 16 rfl hcall hroom ?vilt, exec_bVcmp 4 16 rfl hcall hroom ?viltu, exec_bVcmp 5 16 rfl hcall hroom rfl,
    exec_bVcmp 6 64 rfl hcall hroom rfl, exec_bCmp false rfl hcall hroom rfl, exec_bCmp true rfl hcall hroom rfl⟩
  case vilt => simp only [← BitVec.slt_eq_decide]; rfl
  case viltu => simp only [← BitVec.ult_eq_decide]; rfl

/-- Settles O16: each command writes one register, or none. -/
theorem beadMoves : Obligations.BeadMoves := by
  unfold Obligations.BeadMoves
  intro s n e d a b vd va kd ka kb hcall hroom t
  exact ⟨congrArg _ (hcall.beadRun_done rfl (.refl _) hroom), ⟨_, exec_wv rfl hcall rfl hroom, fun i hi => lane_ofLanes _ hi⟩,
    exec_wx rfl hcall rfl hroom, exec_wk rfl hcall rfl hroom, exec_wx rfl hcall rfl hroom, exec_wk rfl hcall rfl hroom,
    exec_wk rfl hcall rfl hroom, exec_wk rfl hcall rfl hroom⟩

/-- Settles O20: reads after writes of one register each, and the bits that a mask governs of VMOV and of VBEQ. -/
theorem beadRegisterFile : Obligations.BeadRegisterFile := by
  unfold Obligations.BeadRegisterFile
  refine ⟨fun t d r vd vr kd kr x k v => ⟨t.rx_wx d r x, ?x0, t.rv_wv vd vr v, t.rk_wk kd kr k, ?k0⟩, ?masks⟩
  case x0 => rintro rfl; exact t.wx_zero x
  case k0 => rintro rfl; exact t.wk_zero k
  case masks =>
    intro s n e vd va vb kd k hcall hroom t
    refine ⟨?vmov, ?vbeq⟩
    case vmov =>
      obtain ⟨w, hexec, hlane⟩ := exec_bValu (i := .vmov n vd va k) (vb := 0#4) 16 rfl hcall hroom fun _ => rfl
      refine ⟨w, hexec, fun i j hi hj => ?_⟩
      have hbit : ∀ l : Line, (lane l i).getLsbD j = l.getLsbD (32 * i + j) := fun l => by rw [getLsbD_lane, decide_eq_true hj, Bool.true_and]
      rw [← hbit, ← hbit, ← hbit, hlane i hi]
      split <;> rfl
    case vbeq =>
      obtain ⟨w, hexec, hbit⟩ := exec_bVcmp (i := .vbeq n kd va vb k) 6 64 rfl hcall hroom rfl
      refine ⟨w, hexec, fun i hi => ?_⟩
      rw [hbit i hi, decide_eq_true hi, Bool.true_and, Bool.true_and]
      cases (t.rk k).getLsbD i
      · rfl
      · simp only [if_true]
        exact extractLsb'_beq_iff _ _ _ _

end Sys2Proof.Claims
end

