-- ==== Sys2Proof/Proofs/BeadCounts.lean ====
section
/-! PROOF. Sys2Proof/Proofs/BeadCounts.lean: what counts and latches of a bead thread change: registers and the free-value counter (R222, R398,
R414). -/
namespace Sys2Proof.Machine
open Sys2Proof

/-! ### Changes of registers alone -/

/-- `u` is `s` but for registers that satisfy `P` and the free-value counter. -/
structure RegsAt (P : Nat → Prop) (s u : State) : Prop where
  frame : u = { s with regs := u.regs, freeCtr := u.freeCtr }
  reg : ∀ o, ¬ P o → u.reg o = s.reg o

namespace RegsAt
variable {P Q : Nat → Prop} {s t u : State}

theorem refl (s : State) : RegsAt P s s := ⟨rfl, fun _ _ => rfl⟩

theorem trans (h : RegsAt P s t) (k : RegsAt P t u) : RegsAt P s u :=
  ⟨by rw [k.frame, h.frame], fun o ho => (k.reg o ho).trans (h.reg o ho)⟩

theorem mono (h : RegsAt P s u) (hPQ : ∀ o, P o → Q o) : RegsAt Q s u := ⟨h.frame, fun o ho => h.reg o (mt (hPQ o) ho)⟩

/-- The threads stand. -/
theorem thread (h : RegsAt P s u) (m : Thread) : u.thread m = s.thread m := by rw [h.frame]; rfl

theorem setReg {o : Nat} (ho : P o) (v : Word) : RegsAt P s (s.setReg o v) :=
  ⟨rfl, fun _ h => State.reg_setReg_ne (by rintro rfl; exact h ho)⟩

theorem setReg64 {o : Nat} (ho : P o) (ho4 : P (o + 4)) (v : DWord) : RegsAt P s (s.setReg64 o v) := (setReg ho _).trans (setReg ho4 _)

theorem bumpBy {o : Nat} (ho : P o) (lo len n : Nat) : RegsAt P s (s.bumpBy o lo len n) := setReg ho _

theorem freeBelow (n : Nat) : RegsAt P s (s.freeBelow n).2 := ⟨rfl, fun _ _ => rfl⟩

theorem ite {c : Prop} [Decidable c] (ht : RegsAt P s t) (hu : RegsAt P s u) : RegsAt P s (if c then t else u) := by
  split
  · exact ht
  · exact hu

theorem foldl {α : Type} {f : State → α → State} {l : List α} (hf : ∀ s, ∀ a ∈ l, RegsAt P s (f s a)) (s : State) :
    RegsAt P s (l.foldl f s) := by
  induction l generalizing s with
  | nil => exact refl s
  | cons a l ih => exact (hf s a List.mem_cons_self).trans (ih (fun s b hb => hf s b (List.mem_cons_of_mem a hb)) _)

end RegsAt

/-! ### The counts of a call -/

/-- The loupe's event counters (R667). -/
def isCntReg (o : Nat) : Prop := ∃ i < 8, o = rLpeCnt i ∨ o = rLpeCnt i + 4
/-- The registers that count lines of a partition read from the backing (R222, R667). -/
def isMissReg (p : Part) (o : Nat) : Prop := isCntReg o ∨ o = rPrtVgsMiss p ∨ o = rPrtVgsMiss p + 4
/-- The registers that count reads of unwritten lines (R414). -/
def isUninitReg (p : Part) (c : Clu) (o : Nat) : Prop := o = rPrtUninitCnt p ∨ o = rCluUninitCnt c ∨ o = rCluUninitLast c
/-- The registers that count and latch faults (R398 to R400, R429), those of an uninitialised read apart. -/
def isFaultReg (p : Part) (o : Nat) : Prop :=
  o = rPrtBeadFaultCnt p ∨ o = rPrtPoisonCnt p ∨ o = rPrtBeadFault p ∨ o = rPrtBeadFaultPc p ∨ o = rPrtBeadFaultAddr p ∨
    o = rPrtBeadFaultAddr p + 4 ∨ o = rPrtBeadFaultProg p
/-- All that a call of a partition, on a bead of a cluster, counts and latches. -/
def isCallReg (p : Part) (c : Clu) (o : Nat) : Prop := isFaultReg p o ∨ isUninitReg p c o ∨ isMissReg p o

theorem regsAt_count (s : State) (ev : Nat) (p : Option Part) (g : Option Grp) (k : Nat) : RegsAt isCntReg s (s.count ev p g k) :=
  .foldl (fun s i hi => .ite
    (.setReg64 ⟨i, List.mem_range.mp hi, .inl rfl⟩ ⟨i, List.mem_range.mp hi, .inr rfl⟩ _) (.refl s)) s

theorem regsAt_missLines (s : State) (p : Part) (k : Nat) : RegsAt (isMissReg p) s (s.missLines p k) :=
  .trans (.setReg64 (.inr (.inl rfl)) (.inr (.inr rfl)) _) ((regsAt_count _ _ _ _ _).mono fun _ => .inl)

theorem regsAt_noteMiss (s : State) (p : Part) (m w : Nat) : RegsAt (isMissReg p) s (s.noteMiss p m w) :=
  have hmiss : RegsAt (isMissReg p) s (if m == 0 then s else s.missLines p m) := .ite (.refl s) (regsAt_missLines s p m)
  .ite hmiss ((hmiss.trans (.freeBelow (2 ^ 20))).trans (regsAt_missLines _ p _))

theorem regsAt_noteUninit (s : State) (p : Part) (c : Clu) (n : Nat) : RegsAt (isUninitReg p c) s (s.noteUninit p c n) :=
  have hcounts : RegsAt (isUninitReg p c) s ((s.bumpBy (rPrtUninitCnt p) 0 32 n).bumpBy (rCluUninitCnt c) 0 32 n) :=
    .trans (.bumpBy (.inl rfl) _ _ _) (.bumpBy (.inr (.inl rfl)) _ _ _)
  .ite (.refl s) (.ite hcounts ((hcounts.trans (.freeBelow 16384)).trans (.setReg (.inr (.inr rfl)) _)))

theorem regsAt_endCall (s : State) (c : Clu) (t : BeadThread) : RegsAt (isCallReg t.part c) s (s.endCall c t) :=
  .trans ((regsAt_noteUninit s t.part c _).mono fun _ h => .inr (.inl h)) ((regsAt_noteMiss _ t.part _ _).mono fun _ h => .inr (.inr h))

theorem regsAt_latchFault (s : State) (p : Part) (c : Clu) (e : BEnv) (f : BFault) (pc : Nat) :
    RegsAt (isCallReg p c) s (s.latchFault p c e f pc) :=
  have hcnt : RegsAt (isCallReg p c) s (s.bump (rPrtBeadFaultCnt p)) := .bumpBy (.inl (.inl rfl)) _ _ _
  have hpoison := hcnt.trans (.ite (c := (f.cause == bfPOISON) = true) (.bumpBy (.inl (.inr (.inl rfl))) 0 32 1) (.refl _))
  have huninit := hpoison.trans (.ite (c := (f.cause == bfUNINIT) = true)
    ((regsAt_noteUninit _ p c 1).mono fun _ h => .inr (.inl h)) (.refl _))
  .ite huninit ((((huninit.trans (.setReg (.inl (.inr (.inr (.inl rfl)))) _)).trans
    (.setReg (.inl (.inr (.inr (.inr (.inl rfl))))) _)).trans
    (.setReg64 (.inl (.inr (.inr (.inr (.inr (.inl rfl)))))) (.inl (.inr (.inr (.inr (.inr (.inr (.inl rfl))))))) _)).trans
    (.setReg (.inl (.inr (.inr (.inr (.inr (.inr (.inr rfl))))))) _))

/-! ### Putting a thread back -/

theorem State.find?_setThread (s : State) (n m : Thread) (t : BeadThread) : (s.setThread n t).threads.find? (fun x => x.1 == m) =
    if m = n then (if t = {} then none else some (n, t)) else s.threads.find? (fun x => x.1 == m) := by
  have hrest : (s.threads.filter (fun x => x.1 != n)).find? (fun x => x.1 == m) =
      if m = n then none else s.threads.find? (fun x => x.1 == m) := by
    rw [List.find?_filter]
    split
    case isTrue heq => subst heq; exact List.find?_eq_none.mpr fun x _ => by by_cases hx : x.1 = m <;> simp [hx]
    case isFalse hne =>
      congr 1
      funext x
      by_cases hx : x.1 = m
      · simp [hx, hne]
      · simp [hx]
  have hthreads : (s.setThread n t).threads =
      if t = {} then s.threads.filter (fun x => x.1 != n) else (n, t) :: s.threads.filter (fun x => x.1 != n) := by
    simp only [State.setThread, beq_iff_eq]
  rw [hthreads]
  split
  case isTrue ht => simpa [ht] using hrest
  case isFalse ht =>
    rw [List.find?_cons, hrest]
    by_cases hm : m = n
    · simp [hm]
    · simp [hm, beq_false_of_ne (Ne.symm hm)]

theorem State.thread_setThread (s : State) (n : Thread) (t : BeadThread) : (s.setThread n t).thread n = t := by
  rw [State.thread, s.find?_setThread, if_pos rfl]
  split
  case isTrue h => exact h.symm
  case isFalse => rfl

theorem State.thread_setThread_ne (s : State) {n m : Thread} (h : m ≠ n) (t : BeadThread) : (s.setThread n t).thread m = s.thread m := by
  rw [State.thread, s.find?_setThread, if_neg h]
  rfl

end Sys2Proof.Machine
end

