-- ==== Sys2Proof/Proofs/BeadMemory.lean ====
section
/-! PROOF. Sys2Proof/Proofs/BeadMemory.lean: the windows of a thread, and the loads and stores through them (R371, R373, R376, R383). -/
namespace Sys2Proof.Machine
open Sys2Proof
variable {s : State} {e : BEnv} {t u : BeadThread} {a : DWord} {k : Nat} {f : BFault} {bs : List Byte} {c : Nat}

/-! ### Windows (R371) -/

theorem getLsbD_63 (a : DWord) : a.getLsbD 63 = decide (2 ^ 63 ≤ a.toNat) := by
  rw [BitVec.getLsbD, Nat.testBit_eq_decide_div_mod_eq]
  have := a.isLt
  congr 1
  rw [eq_iff_iff]
  omega

/-- A write through a window reaches LOCAL, CALL or WORK alone. -/
theorem findWin_write {w : Win} (h : findWin e t a k true = some w) :
    (∃ o, w = .loc o) ∨ (∃ o p, w = .call o p) ∨ ∃ o, w = .work o := by
  unfold findWin at h
  simp only [Bool.not_true, Bool.false_and, Bool.false_eq_true, if_false, if_true, Bool.true_and] at h
  split at h
  case isTrue => cases h
  split at h
  case isTrue => exact .inl ⟨_, (Option.some.inj h).symm⟩
  split at h
  case isTrue =>
    split at h
    next p _ =>
      split at h
      · cases h
      · exact .inr (.inl ⟨_, p, (Option.some.inj h).symm⟩)
    next => cases h
  split at h
  case isTrue => exact .inr (.inr ⟨_, (Option.some.inj h).symm⟩)
  case isFalse => cases h

/-! ### Loads (R373) -/

/-- The effective address as a sum of naturals and integers. -/
theorem bAddr_eq (t : BeadThread) (a : BitVec 5) (imm : BitVec 16) (scale : Nat) :
    bAddr t a imm scale = t.rx a + BitVec.ofInt 64 (imm.toInt * scale) := by
  rw [bAddr, signExtend_eq_ofInt, BitVec.ofInt_mul, BitVec.ofInt_natCast]

theorem bLoad_none (h : findWin e t a k false = none) : bLoad s e t a k = .error ⟨bfWINDOW, 0, a⟩ := by
  simp only [bLoad, h]

theorem bLoad_misaligned {w : Win} (h : findWin e t a k false = some w) (hk : a.toNat % k ≠ 0) :
    bLoad s e t a k = .error ⟨bfALIGN, 0, a⟩ := by
  simp only [bLoad, h, bne_iff_ne, ne_eq, hk, not_false_eq_true, if_true]

section
variable {o : Nat} (hk : a.toNat % k = 0)
include hk

theorem bLoad_loc (h : findWin e t a k false = some (.loc o)) : bLoad s e t a k = .ok (cellRead 0#8 t.local4k o k, t, 0) := by
  simp only [bLoad, h, hk, bne_self_eq_false, Bool.false_eq_true, if_false]

theorem bLoad_call {p : CallPart} (h : findWin e t a k false = some (.call o p)) :
    bLoad s e t a k = .ok (cellRead 0#8 t.callMem o k, t, 0) := by
  simp only [bLoad, h, hk, bne_self_eq_false, Bool.false_eq_true, if_false]

theorem bLoad_obj (h : findWin e t a k false = some (.obj o)) : bLoad s e t a k = bLine s e t a k ((e.data.drop o).take k) := by
  simp only [bLoad, h, hk, bne_self_eq_false, Bool.false_eq_true, if_false, winBytes]

theorem bLoad_voc {b : List Byte} (h : findWin e t a k false = some (.voc b o)) : bLoad s e t a k = bLine s e t a k ((b.drop o).take k) := by
  simp only [bLoad, h, hk, bne_self_eq_false, Bool.false_eq_true, if_false, winBytes]

theorem bLoad_mem {x : Nat} (h : findWin e t a k false = some (.mem x)) : bLoad s e t a k = .ok (s.rdBytes x k, t, 32) := by
  simp only [bLoad, h, hk, bne_self_eq_false, Bool.false_eq_true, if_false, winBytes]

section
variable (h : findWin e t a k false = some (.work o))
include h

theorem bLoad_work_poison (hp : t.poison.contains (o / 64) = true) : bLoad s e t a k = .error ⟨bfPOISON, 0, a⟩ := by
  simp only [bLoad, h, hk, bne_self_eq_false, Bool.false_eq_true, if_false, hp, if_true]

variable (hp : t.poison.contains (o / 64) = false) (hg : t.gets = [])
include hp hg

theorem bLoad_work_written (ht : t.workTags.contains (o / 64) = true) : bLoad s e t a k = .ok (cellRead 0#8 t.work o k, t, 0) := by
  simp only [bLoad, h, hk, bne_self_eq_false, Bool.false_eq_true, if_false, hp, hg, ht, Bool.not_true, Bool.false_and, BeadThread.getsOver,
    List.foldl_nil]

theorem bLoad_work_unwritten (ht : t.workTags.contains (o / 64) = false) (hs : t.strict = false) :
    bLoad s e t a k = .ok (List.replicate k 0#8, { t with uninit := t.uninit + 1 }, 0) := by
  simp only [bLoad, h, hk, bne_self_eq_false, Bool.false_eq_true, if_false, hp, hg, ht, hs, List.any_nil, Bool.not_false, Bool.and_self, if_true]

theorem bLoad_work_strict (ht : t.workTags.contains (o / 64) = false) (hs : t.strict = true) :
    bLoad s e t a k = .error ⟨bfUNINIT, 0, a⟩ := by
  simp only [bLoad, h, hk, bne_self_eq_false, Bool.false_eq_true, if_false, hp, hg, ht, hs, List.any_nil, Bool.not_false, Bool.and_self, if_true]

end
end

theorem bLine_poisoned (h : s.linePoisoned e t a.toNat = true) : bLine s e t a k bs = .error ⟨bfPOISON, 0, a⟩ := if_pos h

theorem bLine_clean (h : s.linePoisoned e t a.toNat = false) :
    bLine s e t a k bs = .ok (bs, { t with miss := t.miss + s.linesMissed e t a.toNat k }, 8) := by
  simp only [bLine, h, Bool.false_eq_true, if_false]

theorem leNat_zeros (n : Nat) : leNat (List.replicate n 0#8) = 0 := by
  induction n with
  | zero => rfl
  | succ n ih => rw [List.replicate_succ, leNat, ih]; rfl

/-- Where a load of `k` bytes puts them: a line into vD, less into xD. -/
def BeadThread.loaded (t : BeadThread) (k : Nat) (d : BitVec 5) (vd : BitVec 4) (bs : List Byte) : BeadThread :=
  if k = 64 then t.wv vd (BitVec.ofNat 512 (leNat bs)) else t.wx d (BitVec.ofNat 64 (leNat bs))

theorem BeadThread.SameTally.loaded (t : BeadThread) (k : Nat) (d : BitVec 5) (vd : BitVec 4) (bs : List Byte) :
    t.SameTally (t.loaded k d vd bs) := by
  unfold BeadThread.loaded
  split
  · exact .wv t vd _
  · exact .wx t d _

theorem BeadThread.loaded_counts (t : BeadThread) (x y k : Nat) (d : BitVec 5) (vd : BitVec 4) (bs : List Byte) :
    { t with uninit := x, miss := y }.loaded k d vd bs = { t.loaded k d vd bs with uninit := x, miss := y } := by
  unfold BeadThread.loaded BeadThread.wx
  split
  · rfl
  · split <;> rfl

/-- `op` loads `k` bytes from `ea`. -/
def LoadsFrom (op : BOp) (ea : DWord) (k : Nat) (d : BitVec 5) (vd : BitVec 4) (s : State) (e : BEnv) (t : BeadThread) : Prop :=
  (∀ f, bLoad s e t ea k = .error f → op s e t = .fault f) ∧
    ∀ bs u c, bLoad s e t ea k = .ok (bs, u, c) → op s e t = bDone (u.loaded k d vd bs) c

theorem bLd_loads (j : Nat) (hj : 2 ^ j ≠ 64) (d a : BitVec 5) (vd : BitVec 4) (imm : BitVec 16) (s : State) (e : BEnv) (t : BeadThread) :
    LoadsFrom (bLd j d a imm) (t.rx a + BitVec.ofInt 64 (imm.toInt * (1 : Nat))) (2 ^ j) d vd s e t := by
  rw [← bAddr_eq]
  refine ⟨fun f h => ?_, fun bs u c h => ?_⟩
  · simp only [bLd, h]
  · simp only [bLd, h, BeadThread.loaded, hj, if_false]

theorem bVld_loads (vd : BitVec 4) (a d : BitVec 5) (imm : BitVec 16) (s : State) (e : BEnv) (t : BeadThread) :
    LoadsFrom (bVld vd a imm) (t.rx a + BitVec.ofInt 64 (imm.toInt * (64 : Nat))) 64 d vd s e t := by
  rw [← bAddr_eq]
  refine ⟨fun f h => ?_, fun bs u c h => ?_⟩
  · simp only [bVld, h]
  · simp only [bVld, h, BeadThread.loaded, if_true]

/-! ### Stores (R373) -/

theorem bStore_none (h : findWin e t a bs.length true = none) : bStore e t a bs = .error ⟨bfWINDOW, 0, a⟩ := by
  simp only [bStore, h]

theorem bStore_misaligned {w : Win} (h : findWin e t a bs.length true = some w) (hk : a.toNat % bs.length ≠ 0) :
    bStore e t a bs = .error ⟨bfALIGN, 0, a⟩ := by
  simp only [bStore, h, bne_iff_ne, ne_eq, hk, not_false_eq_true, if_true]

section
variable {o : Nat} (hk : a.toNat % bs.length = 0)
include hk

theorem bStore_loc (h : findWin e t a bs.length true = some (.loc o)) :
    bStore e t a bs = .ok { t with local4k := cellWrite 0#8 t.local4k o bs } := by
  simp only [bStore, h, hk, bne_self_eq_false, Bool.false_eq_true, if_false]

theorem bStore_call {p : CallPart} (h : findWin e t a bs.length true = some (.call o p)) :
    bStore e t a bs = .ok { t with callMem := cellWrite 0#8 t.callMem o bs } := by
  simp only [bStore, h, hk, bne_self_eq_false, Bool.false_eq_true, if_false]

theorem bStore_work (h : findWin e t a bs.length true = some (.work o)) : bStore e t a bs = .ok (t.putWork o bs) := by
  simp only [bStore, h, hk, bne_self_eq_false, Bool.false_eq_true, if_false]

end

/-- `op` stores bytes from `ea` upward. -/
def StoresTo (op : BOp) (ea : DWord) (bs : List Byte) (s : State) (e : BEnv) (t : BeadThread) : Prop :=
  (∀ f, bStore e t ea bs = .error f → op s e t = .fault f) ∧ ∀ u, bStore e t ea bs = .ok u → op s e t = bDone u

theorem bSt_stores (j : Nat) (d a : BitVec 5) (imm : BitVec 16) (s : State) (e : BEnv) (t : BeadThread) :
    StoresTo (bSt j d a imm) (t.rx a + BitVec.ofInt 64 (imm.toInt * (1 : Nat))) (leBytes (2 ^ j) (t.rx d).toNat) s e t := by
  rw [← bAddr_eq]
  refine ⟨fun f h => ?_, fun u h => ?_⟩
  · simp only [bSt, h]
  · simp only [bSt, h]

theorem bVst_stores (vd : BitVec 4) (a : BitVec 5) (imm : BitVec 16) (s : State) (e : BEnv) (t : BeadThread) :
    StoresTo (bVst vd a imm) (t.rx a + BitVec.ofInt 64 (imm.toInt * (64 : Nat))) (leBytes 64 (t.rv vd).toNat) s e t := by
  rw [← bAddr_eq]
  refine ⟨fun f h => ?_, fun u h => ?_⟩
  · simp only [bVst, h]
  · simp only [bVst, h]

end Sys2Proof.Machine

namespace Sys2Proof.Claims
open Machine
variable {s : State} {n : Thread} {e : BEnv} {op : BOp} {u : BeadThread} {f : BFault} {c : Nat}

/-- An instruction that is done within the budget: its thread goes on, and what it read is counted (R222, R383, R414). -/
theorem InCall.beadRun_ok (h : InCall s n e) (hop : op s e (s.thread n) = .ok u c) (hroom : Room s n e c) :
    Machine.beadRun n op s =
      ((s.noteUninit (s.thread n).part n.clu (u.uninit - (s.thread n).uninit)).noteMiss (s.thread n).part (u.miss - (s.thread n).miss)
        (u.walks - (s.thread n).walks)).setThread n
        { u with count := (s.thread n).count + c, st := .running, uninit := (s.thread n).uninit, miss := (s.thread n).miss,
                 walks := (s.thread n).walks } := by
  rw [h.beadRun, hop]
  simp only [metered, Nat.not_lt.mpr hroom, if_false, State.threadRes]

/-- One that writes registers alone, but for `x` reads of unwritten lines and `y` of the backing, retires with these counted. -/
theorem InCall.beadRun_counted {x y : Nat} (h : InCall s n e)
    (hop : op s e (s.thread n) = .ok { u with pc := u.pc + 4, uninit := u.uninit + x, miss := u.miss + y } c) (hu : (s.thread n).SameTally u)
    (hroom : Room s n e c) :
    Machine.beadRun n op s = retired ((s.noteUninit (s.thread n).part n.clu x).noteMiss (s.thread n).part y 0) n u c := by
  obtain ⟨hpc, huninit, hmiss, hwalks⟩ := hu
  have hthread : ((s.noteUninit (s.thread n).part n.clu x).noteMiss (s.thread n).part y 0).thread n = s.thread n :=
    ((regsAt_noteMiss _ _ _ _).thread n).trans ((regsAt_noteUninit _ _ _ _).thread n)
  rw [h.beadRun_ok hop hroom]
  simp only [huninit, hmiss, hwalks, hpc, Nat.add_sub_cancel_left, Nat.sub_self, retired, wentTo, hthread]

/-- Settles O4: the tests of `findWin`, in turn. -/
theorem beadWindowMap : Obligations.BeadWindowMap := by
  unfold Obligations.BeadWindowMap
  intro e t a k wr hk ha
  have hlow : a.getLsbD 63 = false := by rw [getLsbD_63]; exact decide_eq_false (by omega)
  refine ⟨fun h => ?loc, fun h1 h2 => ?out, fun h1 h2 => ?work, fun h1 h2 h3 => ?obj, fun h1 h2 => ?objWrite, fun i hi => ?mem⟩
  case mem =>
    have hi' : i.toNat = 2 ^ 63 + a.toNat := by
      rw [hi, BitVec.toNat_add, BitVec.toNat_ofNat]
      omega
    have hhigh : i.getLsbD 63 = true := by rw [getLsbD_63]; exact decide_eq_true (by omega)
    have hoff : i.toNat % 9223372036854775808 = a.toNat := by omega
    simp [findWin, hhigh, hoff]
  all_goals simp only [findWin, hlow, Bool.false_eq_true, if_false]
  case loc => exact if_pos h
  case out => simp (disch := omega) [if_neg]
  case work => simp [show ¬ a.toNat + k ≤ 4096 by omega, show ¬ a.toNat < 33554432 by omega, h1, h2]
  case obj =>
    simp [show ¬ a.toNat + k ≤ 4096 by omega, show ¬ a.toNat < 33554432 by omega,
      show ¬ a.toNat + k ≤ 33554432 + bWORK e.hdr by omega, h2, h3]
  case objWrite =>
    simp [show ¬ a.toNat + k ≤ 4096 by omega, show ¬ a.toNat < 33554432 by omega,
      show ¬ a.toNat + k ≤ 33554432 + bWORK e.hdr by omega]

/-! ### Loads -/

section
variable {i : Instr} {ea : DWord} {k : Nat} {d : BitVec 5} {vd : BitVec 4} {bs : List Byte}
  (hexec : exec i s = .next (Machine.beadRun n op s)) (h : InCall s n e) (hload : LoadsFrom op ea k d vd s e (s.thread n))
include hexec h hload

theorem exec_load_fault (hbytes : bLoad s e (s.thread n) ea k = .error f) : exec i s = .next (s.threadFault n (s.thread n) e f) := by
  rw [hexec, h.beadRun_fault (hload.1 f hbytes)]

theorem exec_load_read (hbytes : bLoad s e (s.thread n) ea k = .ok (bs, s.thread n, c)) (hroom : Room s n e (1 + c)) :
    exec i s = .next (retired s n ((s.thread n).loaded k d vd bs) (1 + c)) := by
  rw [hexec, h.beadRun_done (hload.2 bs _ c hbytes) (.loaded ..) hroom]

theorem exec_load_counted {x y : Nat} (hbytes : bLoad s e (s.thread n) ea k =
      .ok (bs, { s.thread n with uninit := (s.thread n).uninit + x, miss := (s.thread n).miss + y }, c)) (hroom : Room s n e (1 + c)) :
    exec i s = .next (retired ((s.noteUninit (s.thread n).part n.clu x).noteMiss (s.thread n).part y 0) n
      ((s.thread n).loaded k d vd bs) (1 + c)) := by
  have hop := hload.2 bs _ c hbytes
  have hu := BeadThread.SameTally.loaded (s.thread n) k d vd bs
  rw [BeadThread.loaded_counts, ← hu.uninit, ← hu.miss] at hop
  rw [hexec, h.beadRun_counted hop hu hroom]

end

/-- Settles O5: the cases of `bLoad`, window by window. -/
theorem beadLoads : Obligations.BeadLoads := by
  unfold Obligations.BeadLoads
  intro s n e d a vd imm hcall t q hq k ea gotIn got line
  have hgot : ∀ s u bs c, gotIn s u bs c = retired s n (u.loaded k d vd bs) c := by
    intro s u bs c
    simp only [gotIn, BeadThread.loaded]
    split <;> rfl
  obtain ⟨op, hexec, hload⟩ : ∃ op, exec q.1 s = .next (beadRun n op s) ∧ LoadsFrom op ea k d vd s e t := by
    simp only [List.mem_cons, List.not_mem_nil, or_false] at hq
    rcases hq with rfl | rfl | rfl | rfl | rfl
    · exact ⟨_, rfl, bLd_loads 0 (by decide) d a vd imm s e t⟩
    · exact ⟨_, rfl, bLd_loads 1 (by decide) d a vd imm s e t⟩
    · exact ⟨_, rfl, bLd_loads 2 (by decide) d a vd imm s e t⟩
    · exact ⟨_, rfl, bLd_loads 3 (by decide) d a vd imm s e t⟩
    · exact ⟨_, rfl, bVld_loads vd a d imm s e t⟩
  have hline : ∀ bs, bLoad s e t ea k = bLine s e t ea k bs → line bs := fun bs hbytes =>
    ⟨fun hp => exec_load_fault hexec hcall hload (hbytes.trans (bLine_poisoned hp)), fun hp hroom => by
      rw [hgot]
      exact exec_load_counted (x := 0) hexec hcall hload (hbytes.trans (bLine_clean hp)) hroom⟩
  have hread : ∀ bs c, bLoad s e t ea k = .ok (bs, t, c) → Room s n e (1 + c) → exec q.1 s = .next (got t bs (1 + c)) := by
    intro bs c hbytes hroom
    rw [show got = gotIn s from rfl, hgot]
    exact exec_load_read hexec hcall hload hbytes hroom
  cases hwin : findWin e t ea k false with
  | none => exact exec_load_fault hexec hcall hload (bLoad_none hwin)
  | some w =>
    by_cases hk : ea.toNat % k = 0
    case neg =>
      simp only [ne_eq, hk, not_false_eq_true, if_true]
      exact exec_load_fault hexec hcall hload (bLoad_misaligned hwin hk)
    case pos =>
      simp only [ne_eq, hk, not_true_eq_false, if_false]
      cases w with
      | loc o => exact hread _ 0 (bLoad_loc hk hwin)
      | call o p => exact hread _ 0 (bLoad_call hk hwin)
      | obj o => exact hline _ (bLoad_obj hk hwin)
      | voc b o => exact hline _ (bLoad_voc hk hwin)
      | mem x => exact hread _ 32 (bLoad_mem hk hwin)
      | work o =>
        refine ⟨fun hp => ?poison, fun hp hg ht hroom => ?written, fun hp hg ht hs hroom => ?unwritten, fun hp hg ht hs => ?strict⟩
        case poison => exact exec_load_fault hexec hcall hload (bLoad_work_poison hk hwin hp)
        case written => exact hread _ 0 (bLoad_work_written hk hwin hp hg ht) hroom
        case unwritten =>
          have hzero := exec_load_counted (x := 1) (y := 0) hexec hcall hload (bLoad_work_unwritten hk hwin hp hg ht hs) hroom
          rw [hzero, State.noteMiss_zero, BeadThread.loaded, leNat_zeros]
          split <;> rfl
        case strict => exact exec_load_fault hexec hcall hload (bLoad_work_strict hk hwin hp hg ht hs)

/-! ### Stores -/

section
variable {i : Instr} {ea : DWord} {bs : List Byte} (hexec : exec i s = .next (Machine.beadRun n op s)) (h : InCall s n e)
  (hstore : StoresTo op ea bs s e (s.thread n))
include hexec h hstore

theorem exec_store_fault (hbytes : bStore e (s.thread n) ea bs = .error f) : exec i s = .next (s.threadFault n (s.thread n) e f) := by
  rw [hexec, h.beadRun_fault (hstore.1 f hbytes)]

theorem exec_store (hbytes : bStore e (s.thread n) ea bs = .ok u) (hu : (s.thread n).SameTally u) (hroom : Room s n e 1) :
    exec i s = .next (retired s n u 1) := by
  rw [hexec, h.beadRun_done (hstore.2 u hbytes) hu hroom]

end

/-- Settles O7: the cases of `bStore`; a window that is read alone takes no store. -/
theorem beadStores : Obligations.BeadStores := by
  unfold Obligations.BeadStores
  intro s n e d a vd imm hcall t q hq k ea bs
  obtain ⟨hlen, op, hexec, hstore⟩ : bs.length = k ∧ ∃ op, exec q.1 s = .next (beadRun n op s) ∧ StoresTo op ea bs s e t := by
    simp only [List.mem_cons, List.not_mem_nil, or_false] at hq
    rcases hq with rfl | rfl | rfl | rfl | rfl
    · exact ⟨leBytes_length .., _, rfl, bSt_stores 0 d a imm s e t⟩
    · exact ⟨leBytes_length .., _, rfl, bSt_stores 1 d a imm s e t⟩
    · exact ⟨leBytes_length .., _, rfl, bSt_stores 2 d a imm s e t⟩
    · exact ⟨leBytes_length .., _, rfl, bSt_stores 3 d a imm s e t⟩
    · exact ⟨leBytes_length .., _, rfl, bVst_stores vd a imm s e t⟩
  have hwinOf : ∀ {r}, findWin e t ea k true = r → findWin e t ea bs.length true = r := fun h => hlen ▸ h
  cases hwin : findWin e t ea k true with
  | none => exact exec_store_fault hexec hcall hstore (bStore_none (hwinOf hwin))
  | some w =>
    by_cases hk : ea.toNat % k = 0
    case neg =>
      simp only [ne_eq, hk, not_false_eq_true, if_true]
      exact exec_store_fault hexec hcall hstore (bStore_misaligned (hwinOf hwin) (hlen ▸ hk))
    case pos =>
      have hk' : ea.toNat % bs.length = 0 := hlen ▸ hk
      simp only [ne_eq, hk, not_true_eq_false, if_false]
      obtain ⟨o, rfl⟩ | ⟨o, p, rfl⟩ | ⟨o, rfl⟩ := findWin_write hwin
      · exact exec_store hexec hcall hstore (bStore_loc hk' (hwinOf hwin)) ⟨rfl, rfl, rfl, rfl⟩
      · exact exec_store hexec hcall hstore (bStore_call hk' (hwinOf hwin)) ⟨rfl, rfl, rfl, rfl⟩
      · exact exec_store hexec hcall hstore (bStore_work hk' (hwinOf hwin)) ⟨rfl, rfl, rfl, rfl⟩

/-! ### A map of LOCAL that lists an address twice -/

/-- A program with a budget of 2. -/
def smallProg : ObjVersion :=
  { part := 0, id := 1#32, ver := 1, kind := 5, keySel := 0, hdr := List.replicate 40 0#8 ++ leBytes 4 2, digest := 0#128, sects := [], live := true }

/-- A thread in a call of it whose map of LOCAL lists byte 0 with 1, and again with 2. -/
def listedTwice : BeadThread := { prog := some ⟨1#32, 1⟩, st := .running, local4k := [(0, 1#8), (0, 2#8)] }

/-- The block with that thread. -/
def listedTwiceState : State := { State.reset with objs := [smallProg], threads := [(⟨0, 0, 0⟩, listedTwice)] }

/-- Refutes O6. Where a thread's map of LOCAL lists byte 0 twice, STB of x0 to byte 0 takes away the first entry alone, and LDB then reads
the second: 2, not the 0 that was stored. -/
theorem not_beadStoreThenLoad : ¬ Obligations.BeadStoreThenLoad := by
  unfold Obligations.BeadStoreThenLoad
  intro h
  obtain ⟨u, v, hstore, hload, -, hv⟩ := h listedTwiceState ⟨0, 0, 0⟩ ⟨1#32, smallProg.hdr, [], [], none, false⟩ 0#5 1#5 0#5 0#4 0#4 0#16
    (by unfold InCall; decide) (by unfold Room; decide) _ List.mem_cons_self (by decide) (by decide)
  have hread : (match exec (.stb ⟨0, 0, 0⟩ 0#5 0#5 0#16) listedTwiceState with
      | .next u => (match exec (.ldb ⟨0, 0, 0⟩ 1#5 0#5 0#16) u with | .next v => (v.thread ⟨0, 0, 0⟩).rx 1#5 | _ => 0#64)
      | _ => 0#64) = 2#64 := by decide
  have hzero : (v.thread ⟨0, 0, 0⟩).rx 1#5 = 0#64 := by
    rw [hv, if_neg (by decide), retired, wentTo, State.thread_setThread]
    exact (u.thread ⟨0, 0, 0⟩).rx_wx 1#5 1#5 _
  rw [hstore] at hread
  simp only [hload, hzero] at hread
  exact absurd hread (by decide)

end Sys2Proof.Claims
end

