-- ==== Sys2Proof/Proofs/BeadCalls.lean ====
section
/-! PROOF. Sys2Proof/Proofs/BeadCalls.lean: how a call ends, how it waits, and how its GETs complete (R376, R383, R385, R386, R394). -/
namespace Sys2Proof.Machine
open Sys2Proof
variable {s : State} {e : BEnv} {t : BeadThread} {f : BFault} {n : Thread}

/-! ### The ends of a call -/

/-- A fault leaves its thread faulted, with no GET in flight. -/
theorem State.thread_threadFault (s : State) (n : Thread) (t : BeadThread) (e : BEnv) (f : BFault) :
    (s.threadFault n t e f).thread n = { t with st := .faulted f.cause, gets := [] } := State.thread_setThread ..

/-- No instruction is decoded at the program counter (R394). -/
theorem beadFetch_illegal (h : e.code.length ≤ t.pc ∨ beadDecode (codeWord e.code t.pc) = none) :
    beadFetch s e t = .fault ⟨bfILLEGAL, 0, 0#64⟩ := by
  unfold beadFetch
  split
  case isTrue => rfl
  case isFalse hpc => rw [h.resolve_left hpc]

/-- The instruction at the program counter does not fit the budget (R383). -/
theorem beadFetch_spent {op : BOp} (hpc : t.pc < e.code.length) (hop : beadDecode (codeWord e.code t.pc) = some op)
    (h : (∃ u c, op s e t = .ok u c ∧ bCYCLES e.hdr < t.count + c) ∨ ∃ u k, op s e t = .exit u k ∧ bCYCLES e.hdr < t.count + 1) :
    beadFetch s e t = .fault ⟨bfBUDGET, 0, 0#64⟩ := by
  unfold beadFetch
  rw [if_neg (Nat.not_le.mpr hpc), hop]
  obtain ⟨u, c, hres, hcost⟩ | ⟨u, k, hres, hcost⟩ := h
  · simp only [hres, metered, hcost, if_true]
  · simp only [hres, metered, hcost, if_true]

section
variable {k : BitVec 5}

theorem State.threadExit_call (s : State) (hjob : t.job = none) : s.threadExit n t e k = s.setThread n { t with st := .exited k, gets := [] } := by
  simp only [State.threadExit, hjob]

variable {j : UnitJob} {b : Bound} (hjob : t.job = some j) (hprog : t.prog = some b)
include hjob hprog

theorem State.threadExit_last (s : State) (hleft : j.left = []) : s.threadExit n t e k = s.setThread n { t with st := .exited k } := by
  simp only [State.threadExit, hjob, hprog, hleft]

variable {us : List Nat} {rest : List (List Nat)} (hleft : j.left = us :: rest)
include hleft

theorem State.threadExit_broken (s : State) (hmodel : modelExit j.size us.length t k = none) :
    s.threadExit n t e k = s.threadFault n t e (contractFault k) := by
  simp only [State.threadExit, hjob, hprog, hleft, hmodel]

/-- The tokens of the piece are kept; the thread has exited after the last piece, and is in the next piece's call before. -/
theorem State.thread_threadExit_kept (s : State) {l : List Nat} (hmodel : modelExit j.size us.length t k = some l) :
    ((s.threadExit n t e k).thread n).job = some { j with left := rest, toks := j.toks ++ [l] } ∧
      ((s.threadExit n t e k).thread n).st = if rest = [] then .exited k else .running := by
  cases rest with
  | nil => simp only [State.threadExit, hjob, hprog, hleft, hmodel, State.thread_setThread, if_true, and_self]
  | cons us' rest => simp only [State.threadExit, hjob, hprog, hleft, hmodel, State.thread_setThread, reduceCtorEq, if_false, true_and]; rfl

end

/-! ### Tags of GETs (R385) -/

/-- Of the four tags one is free while fewer than four GETs are in flight. -/
theorem exists_free_tag {l : List GetOp} (h : l.length < 4) : ∃ tag : Fin 4, ∀ g ∈ l, g.tag ≠ tag := by
  by_contra hall
  push Not at hall
  have huniv : (l.map (·.tag)).toFinset = Finset.univ :=
    Finset.eq_univ_of_forall fun tag => by obtain ⟨g, hg, rfl⟩ := hall tag; simpa using ⟨g, hg, rfl⟩
  have hcard := (l.map (·.tag)).toFinset_card_le
  rw [huniv, Finset.card_univ, Fintype.card_fin, List.length_map] at hcard
  omega

/-- Whatever free value chooses among them, a tag that GET takes is free. -/
theorem getD_free_tag {l : List GetOp} (h : l.length < 4) (k : Nat) :
    ∀ g ∈ l, g.tag ≠ ((List.finRange 4).filter (fun g => !l.any (fun h => h.tag == g))).getD
      (k % ((List.finRange 4).filter (fun g => !l.any (fun h => h.tag == g))).length) 0 := by
  set free := (List.finRange 4).filter (fun g => !l.any (fun h => h.tag == g)) with hfree
  obtain ⟨tag, htag⟩ := exists_free_tag h
  have hmem : tag ∈ free := by simpa [hfree] using htag
  have hlt : k % free.length < free.length := Nat.mod_lt _ (List.length_pos_of_mem hmem)
  have hget : free.getD (k % free.length) 0 ∈ free := by
    rw [List.getD_eq_getElem _ _ hlt]
    exact List.getElem_mem hlt
  have hnone : ∀ g ∈ l, g.tag ≠ free.getD (k % free.length) 0 := by
    rw [hfree, List.mem_filter] at hget
    simpa using hget.2
  exact hnone

section
variable {d a b : BitVec 5} {o : Nat} {w : Win} (hdst : findWin e t (t.rx a) (t.rx d).toNat true = some (.work o))
  (hsrc : findWin e t (t.rx b) (t.rx d).toNat false = some w) (hw : (∃ o, w = .obj o) ∨ (∃ l o, w = .voc l o) ∨ ∃ x, w = .mem x)
  (hpos : (t.rx d).toNat ≠ 0) (hlines : (t.rx d).toNat % 64 = 0) (hmax : (t.rx d).toNat ≤ 16384)
include hdst hsrc hw hpos hlines hmax

/-- GET with a tag free: it is in flight, and counts one for each line. -/
theorem bGet_issued (hroom : t.gets.length < 4) : ∃ tag : Fin 4, (∀ g ∈ t.gets, g.tag ≠ tag) ∧ bGet d a b s e t =
    bDone ({ t with fc := t.fc + 1, gets := t.gets ++ [GetOp.mk tag o (t.rx b).toNat (t.rx d).toNat] }.wx d (BitVec.ofNat 64 tag.val))
      ((t.rx d).toNat / 64) := by
  have hrange : ((t.rx d).toNat == 0 || (t.rx d).toNat % 64 != 0 || decide (16384 < (t.rx d).toNat)) = false := by simp [hpos, hlines, hmax]
  refine ⟨_, getD_free_tag hroom t.free.1, ?_⟩
  obtain ⟨o, rfl⟩ | ⟨l, o, rfl⟩ | ⟨x, rfl⟩ := hw <;>
    simp only [bGet, hrange, Bool.false_eq_true, if_false, hdst, hsrc, Nat.not_le.mpr hroom] <;> rfl

/-- A fifth GET waits. -/
theorem bGet_full (hfull : 4 ≤ t.gets.length) : bGet d a b s e t = .stall none := by
  have hrange : ((t.rx d).toNat == 0 || (t.rx d).toNat % 64 != 0 || decide (16384 < (t.rx d).toNat)) = false := by simp [hpos, hlines, hmax]
  obtain ⟨o, rfl⟩ | ⟨l, o, rfl⟩ | ⟨x, rfl⟩ := hw <;>
    simp only [bGet, hrange, Bool.false_eq_true, if_false, hdst, hsrc, hfull, if_true]

end

theorem bWait_free {a : BitVec 5} (h : ∀ g ∈ t.gets, g.tag.val ≠ (t.rx a).toNat) : bWait a s e t = bDone t := by
  have hnone : t.gets.find? (fun g => g.tag.val == (t.rx a).toNat) = none := List.find?_eq_none.mpr fun g hg => by simpa using h g hg
  simp only [bWait, hnone]

theorem bWait_stall {a : BitVec 5} {g : GetOp} (hg : g ∈ t.gets) (htag : g.tag.val = (t.rx a).toNat) : bWait a s e t = .stall (some g.tag) := by
  cases hfind : t.gets.find? (fun g => g.tag.val == (t.rx a).toNat) with
  | none => exact absurd htag (by simpa using List.find?_eq_none.mp hfind g hg)
  | some g' =>
    have htag' : g'.tag.val = (t.rx a).toNat := by simpa using List.find?_some hfind
    simp only [bWait, hfind, Fin.ext (htag'.trans htag.symm)]

theorem BeadThread.finishGet_st {tag : Fin 4} : (t.finishGet s e tag).st = t.st := by
  unfold BeadThread.finishGet
  split <;> rfl

/-- The GET of a tag completes: its data are in WORK. -/
theorem BeadThread.finishGet_eq {tag : Fin 4} {g : GetOp} {w : Win} (hfind : t.gets.find? (fun h => h.tag == tag) = some g)
    (hwin : findWin e t (BitVec.ofNat 64 g.src) g.len false = some w) :
    t.finishGet s e tag = { t.putWork g.dst (winBytes s e w g.len) with
      gets := t.gets.filter (fun h => h.tag != tag), miss := t.miss + s.linesMissed e t g.src g.len
      poison := (s.getPoison e t g).foldl natInsert (t.putWork g.dst (winBytes s e w g.len)).poison } := by
  simp only [BeadThread.finishGet, hfind, hwin]

end Sys2Proof.Machine

namespace Sys2Proof.Claims
open Machine
variable {s : State} {n : Thread} {e : BEnv} {op : BOp} {u : BeadThread} {f : BFault} {c : Nat}

/-! ### The ends of a call -/

theorem InCall.prog (h : InCall s n e) : ∃ b, (s.thread n).prog = some b := by
  obtain ⟨-, hbind⟩ := h
  obtain ⟨b, hprog, -⟩ := Option.bind_eq_some_iff.mp hbind
  exact ⟨b, hprog⟩

theorem InCall.exec_exit (h : InCall s n e) (code : BitVec 5) (hroom : Room s n e 1) :
    exec (.exit n code) s = .next (s.threadExit n { s.thread n with count := (s.thread n).count + 1 } e code) := by
  rw [show exec (.exit n code) s = .next (Machine.beadRun n (bExit code) s) from rfl, h.beadRun, bExit]
  simp only [metered, Nat.not_lt.mpr hroom, if_false, State.threadRes]

theorem InCall.exec_exit_spent (h : InCall s n e) (code : BitVec 5) (hroom : ¬ Room s n e 1) :
    exec (.exit n code) s = .next (s.threadFault n (s.thread n) e ⟨bfBUDGET, 0, 0#64⟩) := by
  rw [show exec (.exit n code) s = .next (Machine.beadRun n (bExit code) s) from rfl, h.beadRun, bExit]
  simp only [metered, Nat.not_le.mp hroom, if_true, State.threadRes]

/-- CALL_BUDGET_FAULT and ILLEGAL_INSTRUCTION, by the fault that the next instruction would be. -/
theorem InCall.callBudgetFault_eq (h : InCall s n e) (hf : beadFetch s e (s.thread n) = .fault f) :
    exec (.callBudgetFault n) s = .next (if f.cause == bfBUDGET then s.threadFault n (s.thread n) e f else s) := by
  obtain ⟨hcall, henv⟩ := h
  show Host.Outcome.next (callBudgetFault n s) = _
  simp only [callBudgetFault, hcall, henv, hf, if_true]

theorem InCall.illegalInstruction_eq (h : InCall s n e) (hf : beadFetch s e (s.thread n) = .fault f) :
    exec (.illegalInstruction n) s = .next (if f.cause == bfILLEGAL then s.threadFault n (s.thread n) e f else s) := by
  obtain ⟨hcall, henv⟩ := h
  show Host.Outcome.next (illegalInstruction n s) = _
  simp only [illegalInstruction, hcall, henv, hf, if_true]

/-- Settles O18: EXIT by the job of its thread, and the faults by what stands at the program counter. -/
theorem beadCallEnds : Obligations.BeadCallEnds := by
  unfold Obligations.BeadCallEnds
  intro s n code t
  refine ⟨fun hout => ?outside, ?inside⟩
  case outside =>
    have hrun : ∀ op, beadRun n op s = s := fun op => if_neg (by rw [hout]; exact Bool.false_ne_true)
    exact ⟨congrArg _ (hrun _), congrArg _ (hrun _), congrArg _ (if_neg (by rw [hout]; exact Bool.false_ne_true)),
      congrArg _ (if_neg (by rw [hout]; exact Bool.false_ne_true))⟩
  intro e hcall faults word none_ spent
  have hfaults : ∀ {i f}, exec i s = .next (s.threadFault n t e f) → faults i f := fun h =>
    ⟨_, h, rfl, by rw [State.thread_threadFault]⟩
  obtain ⟨b, hprog⟩ := hcall.prog
  refine ⟨fun hroom => ?exit, fun hroom => hfaults (hcall.exec_exit_spent code hroom), ?trap, fun hnone => ?illegal, fun hspent => ?spent⟩
  case exit =>
    let u : BeadThread := { t with count := t.count + 1 }
    have hexit : exec (.exit n code) s = .next (s.threadExit n u e code) := hcall.exec_exit code hroom
    refine ⟨fun hjob => ?call, fun j hjob hleft => ?last, fun j us rest hjob hleft => ⟨fun hbroken => ?broken, fun l hkept => ?kept⟩⟩
    case call => exact hexit.trans (congrArg _ (s.threadExit_call (t := u) hjob))
    case last => exact hexit.trans (congrArg _ (s.threadExit_last (t := u) hjob hprog hleft))
    case broken =>
      refine ⟨_, hexit, ?_⟩
      rw [s.threadExit_broken (t := u) hjob hprog hleft hbroken, State.thread_threadFault]
      rfl
    case kept => exact ⟨_, hexit, s.thread_threadExit_kept (t := u) hjob hprog hleft hkept⟩
  case trap => exact hfaults (exec_fault rfl hcall rfl)
  case illegal =>
    have hf := beadFetch_illegal (s := s) hnone
    exact ⟨hfaults (hcall.illegalInstruction_eq hf), hcall.callBudgetFault_eq hf⟩
  case spent =>
    obtain ⟨op, hpc, hop, hres⟩ := hspent
    have hf := beadFetch_spent hpc hop hres
    exact ⟨hfaults (hcall.callBudgetFault_eq hf), hcall.illegalInstruction_eq hf⟩

/-! ### GETs -/

/-- An instruction that waits leaves its thread waiting. -/
theorem InCall.beadRun_stall (h : InCall s n e) {g : Option (Fin 4)} (hop : op s e (s.thread n) = .stall g) :
    Machine.beadRun n op s = s.setThread n { s.thread n with st := .waiting g } := by
  rw [h.beadRun, hop]
  rfl

/-- GET_COMPLETE of a GET in flight: its lines of the backing are counted, and a thread that waits for it goes on (R222, R385). -/
theorem InCall.exec_getComplete (h : InCall s n e) {tag : Fin 4} (hflight : (s.thread n).gets.any (fun g => g.tag == tag) = true) :
    ∃ st, exec (.getComplete n tag) s =
        .next ((s.noteMiss (s.thread n).part (((s.thread n).finishGet s e tag).miss - (s.thread n).miss) 0).setThread n
          { (s.thread n).finishGet s e tag with miss := (s.thread n).miss, st := st }) ∧
      ((s.thread n).st = .waiting (some tag) → st = .running) := by
  obtain ⟨-, henv⟩ := h
  have heq : exec (.getComplete n tag) s = .next (getComplete n tag s) := rfl
  rw [heq]
  simp only [getComplete, henv, hflight, if_true]
  rw [← BeadThread.finishGet_st (s := s) (e := e) (t := s.thread n) (tag := tag)]
  split
  next g hst =>
    by_cases htag : (g == tag) = true
    · exact ⟨.running, by rw [if_pos htag], fun _ => rfl⟩
    · exact ⟨_, by rw [if_neg htag], fun hwait => absurd (by rw [hst] at hwait; cases hwait; exact beq_self_eq_true _) htag⟩
  next => exact ⟨.running, rfl, fun _ => rfl⟩
  next hother _ => exact ⟨_, rfl, fun hwait => absurd hwait (hother _)⟩

/-- Settles O15: GET by the GETs in flight, the waits by their tags, and the completion of a GET. -/
theorem beadDma : Obligations.BeadDma := by
  unfold Obligations.BeadDma
  intro s n e d a b hcall t k
  refine ⟨fun o w hdst hsrc hkind hpos hlines hmax => ?get, fun hroom hfree => ?waitFree, fun g hg htag => ?waitStall,
    fun hroom hnone => ?fenceFree, fun hsome => ?fenceStall, fun g w hfind hwin => ?complete⟩
  case get =>
    have hw : (∃ o, w = .obj o) ∨ (∃ l o, w = .voc l o) ∨ ∃ x, w = .mem x := by cases w <;> simp_all
    refine ⟨fun hfree hroom => ?_, fun hfull => congrArg _ (hcall.beadRun_stall (bGet_full hdst hsrc hw hpos hlines hmax hfull))⟩
    obtain ⟨tag, htag, hop⟩ := bGet_issued (s := s) hdst hsrc hw hpos hlines hmax hfree
    obtain ⟨hpc, huninit, hmiss, hwalks⟩ := BeadThread.SameTally.wx
      { t with fc := t.fc + 1, gets := t.gets ++ [GetOp.mk tag o (t.rx b).toNat k] } d (BitVec.ofNat 64 tag.val)
    exact ⟨tag, htag, congrArg _ (hcall.beadRun_done hop ⟨hpc, huninit, hmiss, hwalks⟩ hroom)⟩
  case waitFree => exact congrArg _ (hcall.beadRun_done (bWait_free hfree) (.refl t) hroom)
  case waitStall => exact congrArg _ (hcall.beadRun_stall (bWait_stall hg htag))
  case fenceFree =>
    have hop : bFence s e t = bDone t := by simp only [bFence, hnone, List.isEmpty_nil, if_true]
    exact congrArg _ (hcall.beadRun_done hop (.refl t) hroom)
  case fenceStall =>
    have hop : bFence s e t = .stall none := by simp [bFence, hsome]
    exact congrArg _ (hcall.beadRun_stall hop)
  case complete =>
    have hflight : t.gets.any (fun h => h.tag == g.tag) = true :=
      List.any_eq_true.mpr ⟨g, List.mem_of_find?_eq_some hfind, beq_self_eq_true _⟩
    obtain ⟨st, hexec, hst⟩ := hcall.exec_getComplete hflight
    rw [BeadThread.finishGet_eq hfind hwin, Nat.add_sub_cancel_left] at hexec
    refine ⟨_, hexec, ?_⟩
    rw [State.thread_setThread]
    exact ⟨rfl, fun h hh => by simpa using (List.mem_filter.mp hh).2, rfl, rfl, rfl, rfl, hst⟩

end Sys2Proof.Claims
end

