-- ==== Sys2Proof/Proofs/BeadFrame.lean ====
section
/-! PROOF. Sys2Proof/Proofs/BeadFrame.lean: what a command of a bead thread leaves unchanged (R369, R371, R372, R398, R414). -/
namespace Sys2Proof.Machine
open Sys2Proof Claims
variable {s u : State} {n : Thread} {e : BEnv} {t : BeadThread} {f : BFault} {k : BitVec 5}

/-! ### Instructions that end no call -/

/-- The instruction is no EXIT. -/
def BRes.GoesOn (r : BRes) : Prop := ∀ t k, r ≠ .exit t k

namespace BRes.GoesOn
variable {d a b : BitVec 5} {vd : BitVec 4} {imm : BitVec 16} {up : BitVec 21} {j : Nat}

theorem done (t : BeadThread) (more : Nat) : (bDone t more).GoesOn := nofun
theorem jump (t : BeadThread) (by_ : Int) : (bJump t by_).GoesOn := nofun
theorem fault (f : BFault) : (BRes.fault f).GoesOn := nofun
theorem stall (g : Option (Fin 4)) : (BRes.stall g).GoesOn := nofun

theorem ite {c : Prop} [Decidable c] {r q : BRes} (hr : r.GoesOn) (hq : q.GoesOn) : (if c then r else q).GoesOn := by
  split
  · exact hr
  · exact hq

theorem table {o : Nat} {go : BeadThread → BRes} (hgo : ∀ t, (go t).GoesOn) : (bTable s e t o go).GoesOn :=
  .ite (.ite (hgo _) (.fault _)) (hgo _)

theorem ld : (bLd j d a imm s e t).GoesOn := by
  unfold bLd
  split
  · exact .fault _
  · exact .done _ _

theorem st : (bSt j d a imm s e t).GoesOn := by
  unfold bSt
  split
  · exact .fault _
  · exact .done _ _

theorem vld : (bVld vd a imm s e t).GoesOn := by
  unfold bVld
  split
  · exact .fault _
  · exact .done _ _

theorem vst : (bVst vd a imm s e t).GoesOn := by
  unfold bVst
  split
  · exact .fault _
  · exact .done _ _

theorem branch : (bBranch j a b imm s e t).GoesOn := .ite (.jump _ _) (.done _ _)

theorem jr : (bJr d a s e t).GoesOn := .ite (.fault _) (.ite (.fault _) nofun)

theorem tstep : (bTstep d a b s e t).GoesOn := by
  unfold bTstep
  split
  · exact .ite (.table fun _ => .done _ _) (.fault _)
  · exact .fault _

theorem ttok : (bTtok d a s e t).GoesOn := by
  unfold bTtok
  split
  · exact .ite (.table fun _ => .done _ _) (.fault _)
  · exact .fault _

theorem troot : (bTroot d a s e t).GoesOn := by
  unfold bTroot
  split
  · exact .table fun _ => .done _ _
  · exact .fault _

theorem dstep : (bDstep d a b s e t).GoesOn := by
  unfold bDstep
  split
  · exact .fault _
  · exact .ite (.table fun _ => .done _ _) (.fault _)

theorem tbase : (bTbase a s e t).GoesOn := by
  unfold bTbase
  split
  · exact .done _ _
  · exact .fault _

theorem dbase : (bDbase a s e t).GoesOn := by
  unfold bDbase
  split
  · exact .done _ _
  · exact .fault _

theorem mprobe : (bMprobe d a b s e t).GoesOn := by
  unfold bMprobe
  split
  · exact .fault _
  · exact .table fun _ => .done _ _

theorem udec : (bUdec d a b s e t).GoesOn := .ite (.done _ _) (.done _ _)

theorem unorm : (bUnorm d a s e t).GoesOn := by
  unfold bUnorm
  split
  · exact .fault _
  · exact .ite (.table fun _ => .done _ _) (.done _ _)

theorem uclass : (bUclass d a s e t).GoesOn := by
  unfold bUclass
  split
  · exact .fault _
  · exact .ite (.table fun _ => .done _ _) (.fault _)

theorem uenc : (bUenc d a s e t).GoesOn := .ite (.done _ _) (.done _ _)

theorem brun : (bBrun vd a b s e t).GoesOn := .ite (.done _ _) (.done _ _)

theorem get : (bGet d a b s e t).GoesOn := by
  unfold bGet
  refine .ite (.fault _) ?_
  split
  · split
    · exact .ite (.stall _) (.done _ _)
    · exact .ite (.stall _) (.done _ _)
    · exact .ite (.stall _) (.done _ _)
    · exact .fault _
  · exact .fault _
  · exact .fault _

theorem wait : (bWait a s e t).GoesOn := by
  unfold bWait
  split
  · exact .stall _
  · exact .done _ _

theorem fence : (bFence s e t).GoesOn := .ite (.done _ _) (.stall _)

theorem rng : (bRng vd a s e t).GoesOn := .ite (.fault _) (.done _ _)

end BRes.GoesOn

/-! ### The frame of a thread's command -/

/-- `u` is `s` but for thread `n` and what its call counts and latches. -/
structure BeadFrame (n : Thread) (s u : State) : Prop where
  frame : u = { s with regs := u.regs, threads := u.threads, freeCtr := u.freeCtr }
  thread : ∀ m, m ≠ n → u.thread m = s.thread m
  reg : ∀ o, ¬ isCallReg (s.thread n).part n.clu o → u.reg o = s.reg o

namespace BeadFrame

theorem refl (n : Thread) (s : State) : BeadFrame n s s := ⟨rfl, fun _ _ => rfl, fun _ _ => rfl⟩

/-- What a call counts, and then its thread put back. -/
theorem setThread {v : State} (h : RegsAt (isCallReg (s.thread n).part n.clu) s v) (t : BeadThread) : BeadFrame n s (v.setThread n t) where
  frame := by rw [h.frame]; rfl
  thread m hm := (v.thread_setThread_ne hm t).trans (h.thread m)
  reg o ho := (v.reg_setThread n t o).trans (h.reg o ho)

theorem ite {c : Prop} [Decidable c] {u v : State} (hu : BeadFrame n s u) (hv : BeadFrame n s v) : BeadFrame n s (if c then u else v) := by
  split
  · exact hu
  · exact hv

variable (ht : t.part = (s.thread n).part)
include ht

theorem threadFault : BeadFrame n s (s.threadFault n t e f) :=
  .setThread (ht ▸ (regsAt_endCall s n.clu t).trans (regsAt_latchFault _ t.part n.clu e f t.pc)) _

theorem threadExit : BeadFrame n s (s.threadExit n t e k) := by
  unfold State.threadExit
  split
  · split
    · exact .setThread (.refl s) _
    · split
      · exact threadFault ht
      · split
        · exact .setThread (ht ▸ regsAt_endCall s n.clu t) _
        · exact .setThread (ht ▸ regsAt_endCall s n.clu t) _
  · exact .setThread (.refl s) _

omit ht

/-- An instruction's result, metered: what it read is counted in the thread's own partition; no instruction but EXIT ends a call. -/
theorem threadRes {r : BRes} (hr : ∀ u k, r = .exit u k → u.part = (s.thread n).part) :
    BeadFrame n s (s.threadRes n (s.thread n) e (metered e (s.thread n) r)) := by
  have hcounts : ∀ x y z, RegsAt (isCallReg (s.thread n).part n.clu) s
      ((s.noteUninit (s.thread n).part n.clu x).noteMiss (s.thread n).part y z) := fun x y z =>
    .trans ((regsAt_noteUninit _ _ _ _).mono fun _ h => .inr (.inl h)) ((regsAt_noteMiss _ _ _ _).mono fun _ h => .inr (.inr h))
  cases r with
  | ok u c =>
    simp only [metered]
    split
    · exact threadFault rfl
    · exact .setThread (hcounts _ _ _) _
  | fault f => exact threadFault rfl
  | exit u k =>
    simp only [metered]
    split
    · exact threadFault rfl
    · exact threadExit (hr u k rfl)
  | stall g => exact .setThread (.refl s) _

theorem beadRun {op : BOp} (hop : ∀ s e t u k, op s e t = .exit u k → u.part = t.part) : BeadFrame n s (beadRun n op s) := by
  unfold Machine.beadRun
  refine .ite ?_ (.refl n s)
  split
  · exact .threadRes (hop _ _ _)
  · exact .refl n s

theorem callBudgetFault : BeadFrame n s (callBudgetFault n s) := by
  unfold Machine.callBudgetFault
  refine .ite ?_ (.refl n s)
  split
  · split
    · exact .ite (.threadFault rfl) (.refl n s)
    · exact .refl n s
  · exact .refl n s

theorem illegalInstruction : BeadFrame n s (illegalInstruction n s) := by
  unfold Machine.illegalInstruction
  refine .ite ?_ (.refl n s)
  split
  · split
    · exact .ite (.threadFault rfl) (.refl n s)
    · exact .refl n s
  · exact .refl n s

theorem getComplete {tag : Fin 4} : BeadFrame n s (getComplete n tag s) := by
  unfold Machine.getComplete
  dsimp only
  split
  · exact .ite (.setThread ((regsAt_noteMiss _ _ _ _).mono fun _ h => .inr (.inr h)) _) (.refl n s)
  · exact .refl n s

end BeadFrame

/-- A command that goes on with the frame of its thread. -/
def Framed (n : Thread) (s : State) (o : Host.Outcome State Fault Refusal) : Prop := ∃ u, o = .next u ∧ BeadFrame n s u

theorem Framed.next (h : BeadFrame n s u) : Framed n s (next u) := ⟨u, rfl, h⟩

theorem Framed.run {m : Thread} {op : BOp} (h : some m = some n) (hop : ∀ s e t, (op s e t).GoesOn) :
    Framed n s (Machine.next (beadRun m op s)) := by
  cases h
  exact .next (.beadRun fun s e t u k h => absurd h (hop s e t u k))

/-- Every command of a thread: an instruction of R376 or R379, or an event of its call. -/
theorem exec_framed {i : Instr} (h : beadOf i = some n) (s : State) : Framed n s (exec i s) := by
  cases i with
  | add | sub | and | or | xor | shl | shr | sar | mul | mulhu | divu | remu | mins | maxs | minu | maxu | seq | slt | sltu | popc | clz
  | ctz | addi | andi | ori | xori | shli | shri | sari | slti | lui | fadd | fsub | fmul | fdiv | fmin | fmax | flt | feq | fcvtif | fcvtfi
  | vaddw | vsubw | vand | vor | vxor | vshlw | vshrw | vminuw | vmaxuw | vfadd | vfsub | vfmul | vfmin | vfmax | vcvtif | vcvtfi | vmov
  | vbcast | vpermw | vflt | vfle | vfeq | vilt | viltu | vieq | vbeq | mhash | hcomp | band | bor | bandn | bxor | bpop | bffs | bsel
  | cmaxk | cminu | cgef | cequ | nop | vfill | vext | kfromx | ktox | kand | kor | kandn =>
    exact .run h fun _ _ _ => by exact .done _ _
  | ldb | ldh | ldw | ldd => exact .run h fun _ _ _ => by exact .ld
  | stb | sth | stw | std => exact .run h fun _ _ _ => by exact .st
  | beq | bne | blt | bge | bltu | bgeu => exact .run h fun _ _ _ => by exact .branch
  | jal => exact .run h fun _ _ _ => by exact .jump _ _
  | jr => exact .run h fun _ _ _ => by exact .jr
  | vld => exact .run h fun _ _ _ => by exact .vld
  | vst => exact .run h fun _ _ _ => by exact .vst
  | tstep => exact .run h fun _ _ _ => by exact .tstep
  | ttok => exact .run h fun _ _ _ => by exact .ttok
  | troot => exact .run h fun _ _ _ => by exact .troot
  | dstep => exact .run h fun _ _ _ => by exact .dstep
  | tbase => exact .run h fun _ _ _ => by exact .tbase
  | dbase => exact .run h fun _ _ _ => by exact .dbase
  | mprobe => exact .run h fun _ _ _ => by exact .mprobe
  | udec => exact .run h fun _ _ _ => by exact .udec
  | unorm => exact .run h fun _ _ _ => by exact .unorm
  | uclass => exact .run h fun _ _ _ => by exact .uclass
  | uenc => exact .run h fun _ _ _ => by exact .uenc
  | brun => exact .run h fun _ _ _ => by exact .brun
  | get => exact .run h fun _ _ _ => by exact .get
  | wait => exact .run h fun _ _ _ => by exact .wait
  | trap => exact .run h fun _ _ _ => by exact .fault _
  | rng => exact .run h fun _ _ _ => by exact .rng
  | fence => exact .run h fun _ _ _ => by exact .fence
  | exit =>
    cases h
    exact .next (.beadRun fun _ _ _ _ _ h => by cases h; rfl)
  | callBudgetFault =>
    cases h
    exact .next .callBudgetFault
  | illegalInstruction =>
    cases h
    exact .next .illegalInstruction
  | getComplete =>
    cases h
    exact .next .getComplete
  | _ => cases h

end Sys2Proof.Machine

namespace Sys2Proof.Claims
open Machine

/-- Settles O23: the frame of `BeadFrame`, with the registers of a call as the statement lists them. -/
theorem beadCommandFrame : Obligations.BeadCommandFrame := by
  unfold Obligations.BeadCommandFrame
  intro i n s h
  obtain ⟨u, hexec, hframe, hthread, hreg⟩ := exec_framed h s
  refine ⟨u, hexec, hframe, hthread, fun o ho hcnt => hreg o ?_⟩
  simp only [List.mem_cons, List.not_mem_nil, or_false, not_or] at ho
  rintro (hfault | huninit | hcount | hmiss)
  · simp only [isFaultReg, ho, or_self] at hfault
  · simp only [isUninitReg, ho, or_self] at huninit
  · obtain ⟨j, hj, hlpe⟩ := hcount
    exact hlpe.elim (hcnt j hj).1 (hcnt j hj).2
  · simp only [ho, or_self] at hmiss

end Sys2Proof.Claims
end

