-- ==== Sys2Proof/Proofs/StepAnswers.lean ====
section
/-! PROOF. Sys2Proof/Proofs/StepAnswers.lean: every command and every tick ends in a next state (R394, R434, R579). -/
namespace Sys2Proof.Machine
open Sys2Proof

/-- The outcome is a next state. -/
def Answers (o : Host.Outcome State Fault Refusal) : Prop := ∃ t, o = .next t

theorem next_answers (s : State) : Answers (next s) := ⟨s, rfl⟩

theorem run_answers (f : State → State) (s : State) : Answers (run f s) := by
  unfold run
  split
  · exact ⟨_, rfl⟩
  · exact ⟨_, rfl⟩

theorem runAon_answers (f : State → State) (s : State) : Answers (runAon f s) := by
  unfold runAon
  split
  · exact ⟨_, rfl⟩
  · exact ⟨_, rfl⟩

theorem runWrite_answers (off : Nat) (v : Word) (f : State → State) (s : State) : Answers (runWrite off v f s) := run_answers _ _

theorem doorbell_answers (v : SentWord) (off : Nat) (f : State → State) (s : State) : Answers (doorbell v off f s) := by
  unfold doorbell
  split
  · exact ⟨_, rfl⟩
  · exact runWrite_answers _ _ _ _

theorem execFuseTempSample_answers (tempC : BitVec 8) (marginal : List (Fin 256)) (s : State) : Answers (execFuseTempSample tempC marginal s) := by
  unfold execFuseTempSample
  split
  · exact run_answers _ _
  · exact ⟨_, rfl⟩

theorem execOpDispatch_answers (r : Ring) (s : State) : Answers (execOpDispatch r s) := run_answers _ _
theorem execOpReady_answers (c : Ctx) (s : State) : Answers (execOpReady c s) := run_answers _ _
theorem execRefillTick_answers (s : State) : Answers (execRefillTick s) := run_answers _ _
theorem execJournalPageProgram_answers (j : JournalRun) (s : State) : Answers (execJournalPageProgram j s) := run_answers _ _
theorem execDomainOffRequest_answers (d : Fin 73) (s : State) : Answers (execDomainOffRequest d s) := run_answers _ _
theorem execDomainWake_answers (d : Fin 73) (s : State) : Answers (execDomainWake d s) := run_answers _ _
theorem unitRequest_answers (u : Nat) (s : State) : Answers (run (State.unitRequest · u) s) := run_answers _ _

/-- Each command of R579 to R594 and of the AON domain, each that a running block alone takes, and each of a bead answers. -/
theorem exec_answers (i : Instr) (s : State) : Answers (exec i s) := by
  cases i with
  | powerOnReset | hostWarmReset | softReset | fwWatchdogExpiry | bootSequence | bootResume | pairingTimeout | callBudgetFault | pairLoRead
  | pairHiRead | counterReadClear | fuseAdvance | flashPortRead | flashPortProgram | flashPortErase4k | flashPortErase64k | flashPortDone
  | chainSendReset | chainReplyTimeout | enum | reset | ack | nack | pairDigest | badFrame | tokenLo | tokenHi | tapReset | bypass | idcode
  | csrAcc | dbgStatus | fuseBlowDone | reservedFrameType | flashPortBadOp | illegalInstruction | getComplete =>
    exact next_answers _
  | recoveryRebuild | deadlineReached | logitsReadyPoint | sqFetch | coalTimerExpiry | completionWrite | sessionOpen
  | sessionClose | encode | encodeAppend | decode | stepBatch | maskBatch | specVerify | prefillChunks | hashBlocks | park | revive
  | locketExport | locketImport | objectLoad | objectRetire | budgetSet | clasp | abort | cancel | rollback | query | runAhead | stepRowStart
  | extensionPass | drawPass | stepCommit | pageStallDrain | reclaimRung1 | reclaimRung2 | encodeUnitIssue | encodeUnitEnd
  | objStatRead | bankDrainDone | patrolScrub | vgsLineReload | fabricResponse | fabricTimeout | genDone | loadAsset | withdrawAsset
  | restorePark | rotatePark | rekeyRewrite | warmMovePressure | warmMoveAge | stripeProgram | flashReadDone
  | flashProgramDone | flashEraseDone | dieTimeout | zqCalibration | trackerJournal | scrubBlock | collection | staticLevelling
  | journalCompaction | indexRebuild | unitResetCtrl
  | unitResetTakeEffect | domainWakeDone | governorInterval | capTick | vsegAck | vsegAckTimeout
  | thermalSample | placementPeriod | heartbeatSend | heartbeatMiss | compareRecord | compareTimeout | selftestTimeout | isolateAckTimeout
  | traceRecordWrite | vsegAckLowered | badKeyCommand =>
    exact run_answers _ _
  | sdEnable | sdDisable | cqHeadWrite | ringEnable | ringDisable | ringFlush | logitsReadyDoorbell | evqEnable | evqHeadWrite
  | bankOwnerWrite | genCommit | genDiscard | channelOnline | channelOffline | channelFormat | traceEnable | marker | cntRun | cntClear =>
    exact runWrite_answers _ _ _ _
  | stepBeatEdge | beatStuckDetect | beatRelease | beatWatchdogExpiry | syntheticBeat | pairLoWrite | pairHiWrite | registerWrite
  | heartbeat | mismatch | selftest | isolate | isolateAck | csrAccDone | beatLevelFall =>
    exact runAon_answers _ _
  | sqDoorbell | pushWord | pushCommit =>
    exact doorbell_answers _ _ _ _
  | opDispatch => exact execOpDispatch_answers _ _
  | opReady => exact execOpReady_answers _ _
  | refillTick => exact execRefillTick_answers _
  | journalPageProgram => exact execJournalPageProgram_answers _ _
  | domainOffRequest => exact execDomainOffRequest_answers _ _
  | domainWake => exact execDomainWake_answers _ _
  | unitResetCluster | unitResetVgs | unitResetPrk | unitResetCrypto | unitResetFab => exact unitRequest_answers _ _
  | fuseTempSample => exact execFuseTempSample_answers _ _ _
  | add | sub | and | or | xor | shl | shr | sar | mul | mulhu | divu | remu | mins | maxs | minu | maxu | seq | slt | sltu | popc | clz | ctz | addi
  | andi | ori | xori | shli | shri | sari | slti | lui | fadd | fsub | fmul | fdiv | fmin | fmax | flt | feq | fcvtif | fcvtfi | ldb | ldh | ldw
  | ldd | stb | sth | stw | std | beq | bne | blt | bge | bltu | bgeu | jal | jr | vaddw | vsubw | vand | vor | vxor | vshlw | vshrw | vminuw
  | vmaxuw | vfadd | vfsub | vfmul | vfmin | vfmax | vcvtif | vcvtfi | vmov | vbcast | vpermw | vflt | vfle | vfeq | vilt | viltu | vieq | vbeq | vld
  | vst | tstep | ttok | troot | dstep | tbase | dbase | mprobe | mhash | udec | unorm | uclass | uenc | hcomp | band | bor | bandn | bxor | bpop
  | bffs | bsel | brun | cmaxk | cminu | cgef | cequ | get | wait | nop | exit | trap | rng | fence | vfill | vext | kfromx | ktox | kand | kor
  | kandn =>
    exact next_answers _

theorem step_answers (s : State) : Answers (step s) := by
  unfold step
  split
  · exact ⟨_, rfl⟩
  · exact exec_answers _ _

end Sys2Proof.Machine

namespace Sys2Proof.Claims
open Machine

/-- Settles O27: a step is a tick, or a command, and each answers. -/
theorem everyStepAnswers : Obligations.EveryStepAnswers := by
  unfold Obligations.EveryStepAnswers SafeStep
  exact step_answers

end Sys2Proof.Claims
end

