-- ==== Sys2Proof/Proofs/BeadFaults.lean ====
section
/-! PROOF. Sys2Proof/Proofs/BeadFaults.lean: what a fault counts and latches, and how the registers of faults read (R398 to R400, R414, R429). -/
namespace Sys2Proof.Machine
open Sys2Proof
variable {s : State} {p : Part} {c : Clu} {e : BEnv} {f : BFault} {pc : Nat}

/-! ### Counts of a fault -/

/-- The counts that a fault adds to (R398, R414, R429). -/
def State.countFault (s : State) (p : Part) (c : Clu) (f : BFault) : State :=
  let v := s.bump (rPrtBeadFaultCnt p)
  let v := if f.cause == bfPOISON then v.bump (rPrtPoisonCnt p) else v
  if f.cause == bfUNINIT then v.noteUninit p c 1 else v

/-- The registers that the first fault leaves (R399, R400). -/
def State.latchRegs (s : State) (p : Part) (e : BEnv) (f : BFault) (pc : Nat) : State :=
  (((s.setReg (rPrtBeadFault p) (BitVec.ofNat 32
    (2 ^ 31 + bROLE e.hdr % 8 * 2 ^ 28 + f.cause * 2 ^ 24 + f.code * 2 ^ 19 + (faultStatus f.cause).toNat * 256))).setReg
    (rPrtBeadFaultPc p) (BitVec.ofNat 32 pc)).setReg64 (rPrtBeadFaultAddr p) f.addr).setReg (rPrtBeadFaultProg p) e.id

theorem State.latchFault_eq (s : State) : s.latchFault p c e f pc =
    if (s.countFault p c f).rb (rPrtBeadFault p) 31 then s.countFault p c f else (s.countFault p c f).latchRegs p e f pc := rfl

/-- The registers of `latchRegs`. -/
def isLatchReg (p : Part) (o : Nat) : Prop :=
  o = rPrtBeadFault p ∨ o = rPrtBeadFaultPc p ∨ o = rPrtBeadFaultAddr p ∨ o = rPrtBeadFaultAddr p + 4 ∨ o = rPrtBeadFaultProg p
/-- The registers of `countFault`. -/
def isFaultCountReg (p : Part) (c : Clu) (o : Nat) : Prop := o = rPrtBeadFaultCnt p ∨ o = rPrtPoisonCnt p ∨ isUninitReg p c o

theorem regsAt_latchRegs (s : State) : RegsAt (isLatchReg p) s (s.latchRegs p e f pc) :=
  (((RegsAt.setReg (.inl rfl) _).trans (.setReg (.inr (.inl rfl)) _)).trans
    (.setReg64 (.inr (.inr (.inl rfl))) (.inr (.inr (.inr (.inl rfl)))) _)).trans (.setReg (.inr (.inr (.inr (.inr rfl)))) _)

theorem regsAt_countFault (s : State) : RegsAt (isFaultCountReg p c) s (s.countFault p c f) :=
  have hcnt : RegsAt (isFaultCountReg p c) s (s.bump (rPrtBeadFaultCnt p)) := .bumpBy (.inl rfl) _ _ _
  have hpoison := hcnt.trans (.ite (c := (f.cause == bfPOISON) = true) (.bumpBy (.inr (.inl rfl)) 0 32 1) (.refl _))
  hpoison.trans (.ite ((regsAt_noteUninit _ p c 1).mono fun _ h => .inr (.inr h)) (.refl _))

/-- The counts stand apart from what is latched. -/
theorem not_isFaultCountReg_of_isLatchReg {o : Nat} (h : isLatchReg p o) : ¬ isFaultCountReg p c o := by
  have := p.isLt
  unfold isLatchReg rPrtBeadFault rPrtBeadFaultPc rPrtBeadFaultAddr rPrtBeadFaultProg at h
  unfold isFaultCountReg isUninitReg rPrtBeadFaultCnt rPrtPoisonCnt rPrtUninitCnt rCluUninitCnt rCluUninitLast
  omega

theorem State.countFault_canon (h : s.canon) : (s.countFault p c f).canon :=
  .ite (.noteUninit (.ite (.bump (.bump h)) (.bump h))) (.ite (.bump (.bump h)) (.bump h))

/-- `o` counts one more, up to all ones. -/
def State.countUp (s : State) (o : Nat) : Nat := min ((s.reg o).toNat + 1) 0xFFFFFFFF

/-- What an uninitialised read counts and latches of its cluster (R414). -/
def State.noteCluUninit (s : State) (p : Part) (c : Clu) : State :=
  let v := s.bump (rCluUninitCnt c)
  if v.rb (rCluUninitLast c) 31 then v
  else (v.freeBelow 16384).2.setReg (rCluUninitLast c) (BitVec.ofNat 32 (2 ^ 31 + p.val * 2 ^ 24 + (v.freeBelow 16384).1 * 1024))

theorem State.noteUninit_one (s : State) : s.noteUninit p c 1 = (s.bump (rPrtUninitCnt p)).noteCluUninit p c := rfl

theorem regsAt_noteCluUninit (s : State) : RegsAt (fun o => o = rCluUninitCnt c ∨ o = rCluUninitLast c) s (s.noteCluUninit p c) :=
  have hcnt : RegsAt (fun o => o = rCluUninitCnt c ∨ o = rCluUninitLast c) s (s.bump (rCluUninitCnt c)) := .bumpBy (.inl rfl) _ _ _
  .ite hcnt ((hcnt.trans (.freeBelow 16384)).trans (.setReg (.inr rfl) _))

section
variable (s p c)

/-- The registers of a partition that count its faults are three, and none of them is one of a cluster. -/
theorem faultCounts_apart : rPrtPoisonCnt p ≠ rPrtBeadFaultCnt p ∧
    rPrtUninitCnt p ≠ rPrtBeadFaultCnt p ∧ rPrtUninitCnt p ≠ rPrtPoisonCnt p ∧
    ¬ isUninitReg p c (rPrtBeadFaultCnt p) ∧ ¬ isUninitReg p c (rPrtPoisonCnt p) ∧
    ¬ (rPrtUninitCnt p = rCluUninitCnt c ∨ rPrtUninitCnt p = rCluUninitLast c) := by
  have := p.isLt
  unfold isUninitReg rPrtBeadFaultCnt rPrtPoisonCnt rPrtUninitCnt rCluUninitCnt rCluUninitLast
  omega

end

section
variable (h : s.canon)
include h

theorem State.countFault_cnt : ((s.countFault p c f).reg (rPrtBeadFaultCnt p)).toNat = s.countUp (rPrtBeadFaultCnt p) := by
  obtain ⟨hpc, -, -, hu, -, -⟩ := faultCounts_apart p c
  have hcnt : ((s.bump (rPrtBeadFaultCnt p)).reg (rPrtBeadFaultCnt p)).toNat = s.countUp (rPrtBeadFaultCnt p) := State.reg_bump h.2.2
  simp only [State.countFault]
  split <;> split <;> simp only [(regsAt_noteUninit _ p c 1).reg _ hu, State.reg_bump_ne _ hpc.symm, hcnt]

theorem State.countFault_poison : ((s.countFault p c f).reg (rPrtPoisonCnt p)).toNat =
    if f.cause = bfPOISON then s.countUp (rPrtPoisonCnt p) else (s.reg (rPrtPoisonCnt p)).toNat := by
  obtain ⟨hpc, -, -, -, hu, -⟩ := faultCounts_apart p c
  have hcnt : (s.bump (rPrtBeadFaultCnt p)).reg (rPrtPoisonCnt p) = s.reg (rPrtPoisonCnt p) := State.reg_bump_ne _ hpc
  have hup : (((s.bump (rPrtBeadFaultCnt p)).bump (rPrtPoisonCnt p)).reg (rPrtPoisonCnt p)).toNat = s.countUp (rPrtPoisonCnt p) := by
    rw [State.reg_bump (State.canon.bump h).2.2, hcnt, State.countUp]
  simp only [State.countFault, beq_iff_eq]
  split <;> split <;> simp only [(regsAt_noteUninit _ p c 1).reg _ hu, hup, hcnt]

theorem State.countFault_uninit : ((s.countFault p c f).reg (rPrtUninitCnt p)).toNat =
    if f.cause = bfUNINIT then s.countUp (rPrtUninitCnt p) else (s.reg (rPrtUninitCnt p)).toNat := by
  obtain ⟨-, huc, hup, -, -, hclu⟩ := faultCounts_apart p c
  have hcnt : (s.bump (rPrtBeadFaultCnt p)).reg (rPrtUninitCnt p) = s.reg (rPrtUninitCnt p) := State.reg_bump_ne _ huc
  by_cases hf : f.cause = bfUNINIT
  · simp only [State.countFault, beq_iff_eq, hf, if_true, State.noteUninit_one, show ¬ bfUNINIT = bfPOISON by decide, if_false]
    rw [(regsAt_noteCluUninit _).reg _ hclu, State.reg_bump (State.canon.bump h).2.2, hcnt, State.countUp]
  · simp only [State.countFault, beq_iff_eq, hf, if_false]
    split <;> simp only [State.reg_bump_ne _ hup, hcnt]

end

/-! ### Latched registers -/

/-- The five offsets that a first fault latches are apart. -/
theorem latchRegs_apart (p : Part) : rPrtBeadFault p ≠ rPrtBeadFaultPc p ∧
    (rPrtBeadFault p ≠ rPrtBeadFaultAddr p ∧ rPrtBeadFault p ≠ rPrtBeadFaultAddr p + 4) ∧ rPrtBeadFault p ≠ rPrtBeadFaultProg p ∧
    (rPrtBeadFaultPc p ≠ rPrtBeadFaultAddr p ∧ rPrtBeadFaultPc p ≠ rPrtBeadFaultAddr p + 4) ∧ rPrtBeadFaultPc p ≠ rPrtBeadFaultProg p ∧
    rPrtBeadFaultAddr p ≠ rPrtBeadFaultProg p ∧ rPrtBeadFaultAddr p + 4 ≠ rPrtBeadFaultProg p := by
  unfold rPrtBeadFault rPrtBeadFaultPc rPrtBeadFaultAddr rPrtBeadFaultProg
  omega

/-- The first fault's registers, as it leaves them. -/
theorem State.latchRegs_values (h : s.regsWf = true) (hrole : bROLE e.hdr < 8) (hcause : f.cause < 16) (hcode : f.code < 32) :
    ((s.latchRegs p e f pc).reg (rPrtBeadFault p)).toNat =
      2 ^ 31 + bROLE e.hdr * 2 ^ 28 + f.cause * 2 ^ 24 + f.code * 2 ^ 19 + (faultStatus f.cause).toNat * 2 ^ 8 ∧
    (s.latchRegs p e f pc).reg (rPrtBeadFaultPc p) = BitVec.ofNat 32 pc ∧ (s.latchRegs p e f pc).reg64 (rPrtBeadFaultAddr p) = f.addr ∧
    (s.latchRegs p e f pc).reg (rPrtBeadFaultProg p) = e.id := by
  obtain ⟨hfp, ⟨hfa, hfa4⟩, hfg, ⟨hpa, hpa4⟩, hpg, hag, hag4⟩ := latchRegs_apart p
  have hstatus := (faultStatus f.cause).isLt
  have h1 := State.setReg_regsWf (rPrtBeadFault p) (BitVec.ofNat 32
    (2 ^ 31 + bROLE e.hdr % 8 * 2 ^ 28 + f.cause * 2 ^ 24 + f.code * 2 ^ 19 + (faultStatus f.cause).toNat * 256)) h
  have h2 := State.setReg_regsWf (rPrtBeadFaultPc p) (BitVec.ofNat 32 pc) h1
  refine ⟨?fault, ?pc, ?addr, ?prog⟩
  case fault =>
    rw [State.latchRegs, State.reg_setReg_ne hfg, State.reg_setReg64_ne hfa hfa4, State.reg_setReg_ne hfp, State.reg_setReg _ _ h,
      BitVec.toNat_ofNat, Nat.mod_eq_of_lt hrole]
    omega
  case pc => rw [State.latchRegs, State.reg_setReg_ne hpg, State.reg_setReg64_ne hpa hpa4, State.reg_setReg _ _ h1]
  case addr =>
    rw [State.latchRegs, State.reg64, State.reg_setReg_ne hag4, State.reg_setReg_ne hag]
    exact State.reg64_setReg64 h2 _ _
  case prog => exact State.reg_setReg _ _ (State.setReg_regsWf _ _ (State.setReg_regsWf _ _ h2))

/-! ### The registers of faults, read and written (R398) -/

/-- The row of PRT_BEAD_FAULT_CNT: all of it RC, 0 at reset. -/
theorem regRow?_rPrtBeadFaultCnt (p : Part) : ∃ r, regRow? (rPrtBeadFaultCnt p) = some r ∧ r.half = 0 ∧ r.rc = 0xFFFFFFFF ∧
    r.wo = 0 ∧ r.rst = 0 := by
  revert p; decide

/-- The row of PRT_BEAD_FAULT_PROG: read only, 0 at reset. -/
theorem regRow?_rPrtBeadFaultProg (p : Part) : ∃ r, regRow? (rPrtBeadFaultProg p) = some r ∧ r.half = 0 ∧ r.rw = 0 ∧ r.w1c = 0 ∧
    r.rst = 0 := by
  revert p; decide

/-- A register shows its reset value in the reset state. -/
theorem reset_reg_faultRegs (p : Part) : State.reset.reg (rPrtBeadFaultCnt p) = 0#32 ∧ State.reset.reg (rPrtBeadFaultProg p) = 0#32 := by
  have hreset : ∀ {o r}, regRow? o = some r → r.rst = 0 → State.reset.reg o = 0#32 := fun {o r} hr hrst => by
    show regReset o = 0#32
    simp only [regReset, hr, hrst]
  obtain ⟨_, hcnt, -, -, -, hcnt0⟩ := regRow?_rPrtBeadFaultCnt p
  obtain ⟨_, hprog, -, -, -, hprog0⟩ := regRow?_rPrtBeadFaultProg p
  exact ⟨hreset hcnt hcnt0, hreset hprog hprog0⟩

theorem csrWin_faultRegs (p : Part) : csrWin (rPrtBeadFaultCnt p) = .part p 0x61C ∧ csrWin (rPrtBeadFaultProg p) = .part p 0x618 ∧
    (BitVec.ofNat 25 (rPrtBeadFaultCnt p)).toNat = rPrtBeadFaultCnt p ∧ (BitVec.ofNat 25 (rPrtBeadFaultProg p)).toNat = rPrtBeadFaultProg p ∧
    noteReg (rPrtBeadFaultProg p) = false := by
  revert p; decide

theorem and_fullWord (w : Word) : w &&& 0xFFFFFFFF#32 = w := BitVec.and_allOnes

section
variable (hrun : s.running = true)
include hrun

/-- A register of a partition's window answers while the block runs. -/
theorem part_answers {o w : Nat} (hw : csrWin o = .part p w) : s.csrOpen o = true ∧ s.cluDark o = false := by
  simp only [State.running, Bool.and_eq_true, Bool.not_eq_true'] at hrun
  exact ⟨by simp [State.csrOpen, hrun], by simp [State.cluDark, hw]⟩

/-- A read of the count gives it, and clears it. -/
theorem csrRead_rPrtBeadFaultCnt : csrRead (rPrtBeadFaultCnt p) s =
    (s.setReg (rPrtBeadFaultCnt p) 0#32).answer (s.reg (rPrtBeadFaultCnt p)) := by
  obtain ⟨hw, -⟩ := csrWin_faultRegs p
  obtain ⟨hopen, hdark⟩ := part_answers hrun hw
  obtain ⟨r, hr, hhalf, hrc, hwo, -⟩ := regRow?_rPrtBeadFaultCnt p
  have h4 : rPrtBeadFaultCnt p % 4 = 0 := by unfold rPrtBeadFaultCnt; omega
  have hview : s.view (rPrtBeadFaultCnt p) = s.reg (rPrtBeadFaultCnt p) := by simp [State.view, hw, State.viewPart]
  simp [csrRead, h4, hopen, hdark, hr, hhalf, hw, State.readClear, hrc, hwo, hview, and_fullWord]

/-- A write to the program's register leaves it. -/
theorem reg_csrWrite_rPrtBeadFaultProg (hcanon : s.canon) (v : Word) :
    (csrWrite (rPrtBeadFaultProg p) v s).reg (rPrtBeadFaultProg p) = s.reg (rPrtBeadFaultProg p) := by
  obtain ⟨-, hw, -⟩ := csrWin_faultRegs p
  obtain ⟨hopen, hdark⟩ := part_answers hrun hw
  obtain ⟨r, hr, hhalf, hrw, hw1c, -⟩ := regRow?_rPrtBeadFaultProg p
  have h4 : rPrtBeadFaultProg p % 4 = 0 := by unfold rPrtBeadFaultProg; omega
  have hboot : (rPrtBeadFaultProg p == rCfgBootCtrl) = false := beq_false_of_ne (by unfold rPrtBeadFaultProg rCfgBootCtrl; omega)
  have hfrozen : ∀ u : State, u.frozen (rPrtBeadFaultProg p) = false := fun u => by simp [State.frozen, hw]
  have hplain : csrWrite (rPrtBeadFaultProg p) v s =
      (s.forwardWrite (rPrtBeadFaultProg p) v).plainWrite r (rPrtBeadFaultProg p) v := by
    simp [csrWrite, csrWriteWith, h4, hopen, hdark, hr, hboot, State.regWrite, hhalf, hfrozen, State.writeOne, hw, State.writePart, State.plain]
  have hwf : (((s.forwardWrite (rPrtBeadFaultProg p) v).sidNote (rPrtBeadFaultProg p)).noteOld (rPrtBeadFaultProg p)).regsWf = true :=
    (State.canon.noteOld (.sidNote (.forwardWrite hcanon))).2.2
  rw [hplain, State.plainWrite, State.reg_setReg _ _ hwf, State.reg_forwardWrite, hrw, hw1c]
  simp [and_fullWord]

end
end Sys2Proof.Machine

namespace Sys2Proof.Claims
open Machine

/-- Settles O19: the counts, the registers that the first fault latches, the thread, and the accesses to the count and to the program's register. -/
theorem beadFaultLatches : Obligations.BeadFaultLatches := by
  unfold Obligations.BeadFaultLatches
  intro s n t e f hcanon huninit hmiss hwalks hcause hcode hrole p u up
  have hend : s.endCall n.clu t = s := by rw [State.endCall, huninit, hmiss, hwalks, State.noteUninit_zero, State.noteMiss_zero]
  have hu : u = (s.latchFault p n.clu e f t.pc).setThread n { t with st := .faulted f.cause, gets := [] } := by
    simp only [u, State.threadFault, hend, p]
  have hreg : ∀ o, u.reg o = (s.latchFault p n.clu e f t.pc).reg o := fun o => by rw [hu, State.reg_setThread]
  have hlatched : ∀ o, isLatchReg p o → (s.countFault p n.clu f).reg o = s.reg o := fun o ho =>
    (regsAt_countFault s).reg o (not_isFaultCountReg_of_isLatchReg ho)
  have hcounted : ∀ o, ¬ isLatchReg p o → u.reg o = (s.countFault p n.clu f).reg o := fun o ho => by
    rw [hreg, State.latchFault_eq]
    split
    · rfl
    · exact (regsAt_latchRegs _).reg o ho
  have hrb : (s.countFault p n.clu f).rb (rPrtBeadFault p) 31 = s.rb (rPrtBeadFault p) 31 := by
    rw [State.rb, State.rb, hlatched _ (.inl rfl)]
  have hapart : ∀ {o}, isFaultCountReg p n.clu o → ¬ isLatchReg p o := fun h h' => not_isFaultCountReg_of_isLatchReg h' h
  refine ⟨?cnt, ?poison, ?uninit, fun hfirst => ?first, fun hlater o ho => ?later, ?thread, ?frame, ?cntReset, ?progReset, fun hrun => ?read,
    fun hrun v src => ?write⟩
  case cnt => rw [hcounted _ (hapart (.inl rfl))]; exact State.countFault_cnt hcanon
  case poison => rw [hcounted _ (hapart (.inr (.inl rfl)))]; exact State.countFault_poison hcanon
  case uninit => rw [hcounted _ (hapart (.inr (.inr (.inl rfl))))]; exact State.countFault_uninit hcanon
  case first =>
    have hregs : ∀ o, u.reg o = ((s.countFault p n.clu f).latchRegs p e f t.pc).reg o := fun o => by
      rw [hreg, State.latchFault_eq, hrb, hfirst, if_neg Bool.false_ne_true]
    have hvalues := State.latchRegs_values (p := p) (pc := t.pc) (State.countFault_canon (p := p) (c := n.clu) (f := f) hcanon).2.2 hrole hcause hcode
    simpa only [State.reg64, hregs] using hvalues
  case later =>
    rw [hreg, State.latchFault_eq, hrb, hlater, if_pos rfl]
    refine (regsAt_countFault s).reg o ?_
    simp only [List.mem_cons, List.not_mem_nil, or_false, not_or] at ho
    simp only [isFaultCountReg, isUninitReg, ho, or_self, not_false_eq_true]
  case thread => rw [hu, State.thread_setThread]
  case frame => rw [hu, (regsAt_latchFault s p n.clu e f t.pc).frame]; rfl
  case cntReset => exact (reset_reg_faultRegs p).1
  case progReset => exact (reset_reg_faultRegs p).2
  case read =>
    obtain ⟨-, -, hoff, -, -⟩ := csrWin_faultRegs p
    have hplace : 0x100000 + 0x10000 * p.val + 0x61C = rPrtBeadFaultCnt p := by unfold rPrtBeadFaultCnt; omega
    have hread : registerRead (BitVec.ofNat 25 (0x100000 + 0x10000 * p.val + 0x61C)) 4 s =
        (s.setReg (rPrtBeadFaultCnt p) 0#32).answer (s.reg (rPrtBeadFaultCnt p)) := by
      rw [hplace, registerRead, hoff]
      exact csrRead_rPrtBeadFaultCnt hrun
    exact ⟨_, congrArg Host.Outcome.next hread, rfl, State.reg_setReg _ _ hcanon.2.2⟩
  case write =>
    obtain ⟨-, -, -, hoff, hnote⟩ := csrWin_faultRegs p
    have hplace : 0x100000 + 0x10000 * p.val + 0x618 = rPrtBeadFaultProg p := by unfold rPrtBeadFaultProg; omega
    refine ⟨_, runAon_running _ hrun, ?_⟩
    rw [State.reg_observe hnote, State.ownWrites_reg, hplace, registerWrite, hoff]
    split
    case isTrue h => exact absurd h (by decide)
    case isFalse =>
      split
      · rfl
      · exact reg_csrWrite_rPrtBeadFaultProg hrun hcanon v

end Sys2Proof.Claims
end

