-- ==== Sys2Proof/Proofs/BeadTables.lean ====
section
/-! PROOF. Sys2Proof/Proofs/BeadTables.lean: the units that walk tables: tries, DFAs, merges, normalisation (R378 to R382). -/
namespace Sys2Proof.Machine
open Sys2Proof
variable {s : State} {e : BEnv} {t u : BeadThread} {d a b : BitVec 5} {sec : List Byte} {o : Nat}

/-! ### Walks (R220, R394) -/

theorem BeadThread.wx_walks (u : BeadThread) (y : Nat) (d : BitVec 5) (x : DWord) : { u with walks := y }.wx d x = { u.wx d x with walks := y } := by
  unfold BeadThread.wx
  split <;> rfl

/-- A walk of a section without a poisoned line, whose result goes to xD. -/
theorem bTable_clean {x : DWord} {c : Nat} (h : s.sectPoisoned e u o = false) : bTable s e u o (fun v => bDone (v.wx d x) c) =
    .ok { u.wx d x with pc := (u.wx d x).pc + 4, walks := u.walks + min 1 (s.linesMissed e u o 1) } (1 + c) := by
  simp only [bTable, h, Bool.false_eq_true, if_false, bDone, BeadThread.wx_walks]

/-! ### Tries (R378, R380) -/

theorem bTstep_inside {v : Voc} (hv : e.voc = some v) (hs : trieBytes e t = some sec) (hin : nodeInside sec (t.rx a).toNat = true)
    (hclean : s.sectPoisoned e t (t.trieBase.getD 0 + (t.rx a).toNat) = false) :
    bTstep d a b s e t = bTable s e t (t.trieBase.getD 0 + (t.rx a).toNat)
      (fun u => bDone (u.wx d (orOnes (trieStep sec (t.rx a).toNat ((t.rx b).toNat % 256)))) 8) := by
  simp only [bTstep, hv, hs, hin, if_true, bTable, hclean, Bool.false_eq_true, if_false]
  rfl

theorem bTstep_outside {v : Voc} (hv : e.voc = some v) (hs : trieBytes e t = some sec) (hin : nodeInside sec (t.rx a).toNat = false) :
    bTstep d a b s e t = .fault ⟨bfWINDOW, 0, BitVec.ofNat 64 (t.trieBase.getD 0 + (t.rx a).toNat)⟩ := by
  simp only [bTstep, hv, hs, hin, Bool.false_eq_true, if_false]

theorem bTstep_none (hv : e.voc = none) : bTstep d a b s e t = .fault ⟨bfWINDOW, 0, BitVec.ofNat 64 (t.trieBase.getD 0)⟩ := by
  simp only [bTstep, hv]

theorem bTtok_inside {v : Voc} (hv : e.voc = some v) (hs : trieBytes e t = some sec) (hin : (t.rx a).toNat + 16 ≤ sec.length) :
    bTtok d a s e t = bTable s e t (t.trieBase.getD 0 + (t.rx a).toNat) (fun u => bDone (u.wx d (BitVec.ofNat 64
      (if trieTok sec (t.rx a).toNat ≠ none32 ∧ v.live (trieTok sec (t.rx a).toNat) = true then trieTok sec (t.rx a).toNat else none32)))) := by
  simp only [bTtok, hv, hs, hin, if_true, Bool.and_eq_true, bne_iff_ne]

theorem bTtok_none (hv : e.voc = none) : bTtok d a s e t = .fault ⟨bfWINDOW, 0, BitVec.ofNat 64 (t.trieBase.getD 0)⟩ := by
  simp only [bTtok, hv]

/-- Roots other than 0 and 1 do not exist. -/
theorem trieRoot_value (sec : List Byte) (x : Nat) : (if trieRoot sec x == none32 then BitVec.allOnes 64 else BitVec.ofNat 64 (trieRoot sec x)) =
    if x < 2 ∧ leAt sec (4 * x) 4 ≠ none32 then BitVec.ofNat 64 (leAt sec (4 * x) 4) else BitVec.allOnes 64 := by
  by_cases hx : x < 2 <;> by_cases hr : leAt sec (4 * x) 4 = none32 <;> simp [trieRoot, hx, hr]

theorem bTroot_some (hs : trieBytes e t = some sec) : bTroot d a s e t = bTable s e t (t.trieBase.getD 0) (fun u => bDone (u.wx d
    (if (t.rx a).toNat < 2 ∧ leAt sec (4 * (t.rx a).toNat) 4 ≠ none32 then BitVec.ofNat 64 (leAt sec (4 * (t.rx a).toNat) 4)
      else BitVec.allOnes 64))) := by
  simp only [bTroot, hs, trieRoot_value]

theorem bTbase_some (h : baseBytes e t (t.rx a).toNat = some sec) : bTbase a s e t = bDone { t with trieBase := some (t.rx a).toNat } := by
  simp only [bTbase, h]
theorem bTbase_none (h : baseBytes e t (t.rx a).toNat = none) : bTbase a s e t = .fault ⟨bfWINDOW, 0, t.rx a⟩ := by simp only [bTbase, h]
theorem bDbase_some (h : baseBytes e t (t.rx a).toNat = some sec) : bDbase a s e t = bDone { t with dfaBase := some (t.rx a).toNat } := by
  simp only [bDbase, h]
theorem bDbase_none (h : baseBytes e t (t.rx a).toNat = none) : bDbase a s e t = .fault ⟨bfWINDOW, 0, t.rx a⟩ := by simp only [bDbase, h]

/-! ### DFAs (R378, R379) -/

/-- What DSTEP gives: the next state, and above it the word that says how that state accepts; DEAD has none. -/
def dstepValue (sec : List Byte) (st u k : Nat) : Nat :=
  let n := dfaNext sec st (dfaClass sec u)
  n + 65536 * (if n == 0xFFFF then k % 65536 else dfaAttr sec n)

theorem dstepValue_fields (sec : List Byte) (st u k : Nat) : dstepValue sec st u k < 2 ^ 32 ∧
    dstepValue sec st u k % 2 ^ 16 = dfaNext sec st (dfaClass sec u) ∧
    (dfaNext sec st (dfaClass sec u) ≠ 0xFFFF → dstepValue sec st u k / 2 ^ 16 = dfaAttr sec (dfaNext sec st (dfaClass sec u))) := by
  have hnext : dfaNext sec st (dfaClass sec u) < 65536 := leAt_lt _ _ 2
  have hattr : ∀ n, dfaAttr sec n < 65536 := fun n => leAt_lt _ _ 2
  have := hattr (dfaNext sec st (dfaClass sec u))
  unfold dstepValue
  simp only [beq_iff_eq]
  split
  · omega
  · omega

theorem bDstep_inside (hs : t.dfaBase.bind (baseBytes e t) = some sec)
    (hu : (t.rx b).toNat % 2 ^ 32 < 0x110000 ∨ rawUnit ≤ (t.rx b).toNat % 2 ^ 32)
    (hin : leAt sec 16 4 + 2 * ((t.rx a).toNat * dfaClasses sec + dfaClass sec ((t.rx b).toNat % 2 ^ 32)) + 2 ≤ sec.length) :
    bDstep d a b s e t = bTable s e { t with fc := t.fc + 1 } (t.dfaBase.getD 0)
      (fun u => bDone (u.wx d (BitVec.ofNat 64 (dstepValue sec (t.rx a).toNat ((t.rx b).toNat % 2 ^ 32) t.free.1)))) := by
  have hunit : (decide (rawUnit ≤ (t.rx b).toNat % 2 ^ 32) || decide ((t.rx b).toNat % 2 ^ 32 < 0x110000)) = true := by
    simpa only [Bool.or_eq_true, decide_eq_true_eq] using hu.symm
  simp only [bDstep, hs, hin, hunit, decide_true, Bool.and_self, if_true]
  rfl

theorem bUclass_unit (hs : t.dfaBase.bind (baseBytes e t) = some sec)
    (hu : (t.rx a).toNat % 2 ^ 32 < 0x110000 ∨ rawUnit ≤ (t.rx a).toNat % 2 ^ 32) :
    bUclass d a s e t = bTable s e t (t.dfaBase.getD 0) (fun u => bDone (u.wx d (BitVec.ofNat 64 (dfaClass sec ((t.rx a).toNat % 2 ^ 32))))) := by
  have hunit : (decide (rawUnit ≤ (t.rx a).toNat % 2 ^ 32) || decide ((t.rx a).toNat % 2 ^ 32 < 0x110000)) = true := by
    simpa only [Bool.or_eq_true, decide_eq_true_eq] using hu.symm
  simp only [bUclass, hs, hunit, if_true]

theorem bDstep_none (h : t.dfaBase = none) : bDstep d a b s e t = .fault ⟨bfWINDOW, 0, 0#64⟩ := by simp [bDstep, h]
theorem bUclass_none (h : t.dfaBase = none) : bUclass d a s e t = .fault ⟨bfWINDOW, 0, 0#64⟩ := by simp [bUclass, h]

end Sys2Proof.Machine

namespace Sys2Proof.Claims
open Machine
variable {s : State} {n : Thread} {e : BEnv} {op : BOp} {u : BeadThread} {f : BFault} {c o : Nat} {d : BitVec 5} {x : DWord} {i : Instr}

/-- An instruction that walks a section without a poisoned line and writes xD: its walk of an unplaced section is counted (R222). -/
theorem exec_walk (hexec : exec i s = .next (Machine.beadRun n op s)) (h : InCall s n e)
    (hop : op s e (s.thread n) = bTable s e u o (fun v => bDone (v.wx d x) c)) (hu : (s.thread n).SameTally u)
    (hlines : s.linesMissed e u o 1 = s.linesMissed e (s.thread n) o 1) (hclean : s.sectPoisoned e u o = false) (hroom : Room s n e (1 + c)) :
    exec i s = .next (retired (walked s e (s.thread n) o) n (u.wx d x) (1 + c)) := by
  obtain ⟨hpc, huninit, hmiss, hwalks⟩ := hu
  obtain ⟨hpc', huninit', hmiss', hwalks'⟩ := BeadThread.SameTally.wx u d x
  have hthread : (walked s e (s.thread n) o).thread n = s.thread n := (regsAt_noteMiss _ _ _ _).thread n
  rw [bTable_clean hclean] at hop
  rw [hexec, h.beadRun_ok hop hroom]
  simp only [huninit', huninit, hmiss', hmiss, hwalks, hpc', hpc, hlines, Nat.sub_self, State.noteUninit_zero, Nat.add_sub_cancel_left,
    retired, wentTo, hthread, hwalks']
  rfl

/-- Settles O12: each unit by what its base and its section hold. -/
theorem beadTrieUnits : Obligations.BeadTrieUnits := by
  unfold Obligations.BeadTrieUnits
  intro s n e d a b hcall t x y base dfa
  refine ⟨fun v sec hv hs => ⟨fun hin hclean hroom => ?tstep, fun hout => ?outside, fun hin hclean hroom => ?ttok⟩,
    fun sec hs hclean hroom => ?troot, fun hv => ⟨?tstepNone, ?ttokNone⟩, fun sec hs hroom => ⟨?tbase, ?dbase⟩,
    fun hs => ⟨?tbaseNone, ?dbaseNone⟩, fun sec hdfa hs hclean hroom => ⟨?dstep, ?uclass⟩, fun hdfa => ⟨?dstepNone, ?uclassNone⟩⟩
  case tstep => exact exec_walk rfl hcall (bTstep_inside hv hs hin hclean) (.refl t) rfl hclean hroom
  case outside => exact exec_fault rfl hcall (bTstep_outside hv hs hout)
  case ttok => exact exec_walk rfl hcall (bTtok_inside hv hs hin) (.refl t) rfl hclean hroom
  case troot => exact exec_walk rfl hcall (bTroot_some hs) (.refl t) rfl hclean hroom
  case tstepNone => exact exec_fault rfl hcall (bTstep_none hv)
  case ttokNone => exact exec_fault rfl hcall (bTtok_none hv)
  case tbase => exact congrArg _ (hcall.beadRun_done (bTbase_some hs) ⟨rfl, rfl, rfl, rfl⟩ hroom)
  case dbase => exact congrArg _ (hcall.beadRun_done (bDbase_some hs) ⟨rfl, rfl, rfl, rfl⟩ hroom)
  case tbaseNone => exact exec_fault rfl hcall (bTbase_none hs)
  case dbaseNone => exact exec_fault rfl hcall (bDbase_none hs)
  case dstep =>
    rintro u rfl hu hin
    have hbytes : t.dfaBase.bind (baseBytes e t) = some sec := by rw [hdfa]; exact hs
    obtain ⟨hlt, hnext, hattr⟩ := dstepValue_fields sec x (y % 2 ^ 32) t.free.1
    have hexec := exec_walk (i := .dstep n d a b) rfl hcall (bDstep_inside hbytes hu hin) ⟨rfl, rfl, rfl, rfl⟩ rfl hclean hroom
    refine ⟨_, hexec, ?_⟩
    rw [BitVec.toNat_ofNat, Nat.mod_eq_of_lt (hlt.trans (by decide))]
    exact ⟨hnext, hlt, hattr⟩
  case uclass =>
    rintro u rfl hu
    have hbytes : t.dfaBase.bind (baseBytes e t) = some sec := by rw [hdfa]; exact hs
    exact exec_walk rfl hcall (bUclass_unit hbytes hu) (.refl t) rfl hclean hroom
  case dstepNone => exact exec_fault rfl hcall (bDstep_none hdfa)
  case uclassNone => exact exec_fault rfl hcall (bUclass_none hdfa)

end Sys2Proof.Claims
end

