-- ==== Sys2Proof/Proofs/BeadText.lean ====
section
/-! PROOF. Sys2Proof/Proofs/BeadText.lean: the merge and UTF units: the merge hash, and decoding of what encoding gives (R378, R381, R382). -/
namespace Sys2Proof.Machine
open Sys2Proof
variable {s : State} {e : BEnv} {t : BeadThread} {d a b : BitVec 5}

/-! ### The merge hash (R381) -/

/-- A word turned left by 13 bits is the sum of its two parts. -/
theorem toNat_rotateLeft_13 (y : Word) : (y.rotateLeft 13).toNat = y.toNat * 2 ^ 13 % 2 ^ 32 + y.toNat / 2 ^ 19 := by
  have hlt := y.isLt
  have hhigh : y.toNat * 2 ^ 13 % 2 ^ 32 = (y.toNat % 2 ^ 19) <<< 13 := by rw [Nat.shiftLeft_eq]; omega
  rw [hhigh, Nat.shiftLeft_add_eq_or_of_lt (by omega), ← hhigh, BitVec.toNat_rotateLeft, Nat.shiftLeft_eq, Nat.shiftRight_eq_div_pow]

theorem toNat_xor_ushiftRight (w : Word) (k : Nat) : (w ^^^ (w >>> k)).toNat = w.toNat ^^^ w.toNat / 2 ^ k := by
  rw [BitVec.toNat_xor, BitVec.toNat_ushiftRight, Nat.shiftRight_eq_div_pow]

/-- The merge hash step by step, as R381 writes it in naturals. -/
theorem mergeHash_toNat (l r : Word) {p q h h' : Nat} (hp : p = l.toNat * 0x9E3779B1 % 2 ^ 32) (hq : q = r.toNat * 0x85EBCA77 % 2 ^ 32)
    (hh : h = p ^^^ (q * 2 ^ 13 % 2 ^ 32 + q / 2 ^ 19)) (hh' : h' = (h ^^^ h / 2 ^ 16) * 0x2C1B3C6D % 2 ^ 32) :
    (mergeHash l r).toNat = h' ^^^ h' / 2 ^ 15 := by
  have hx : (l * 0x9E3779B1#32).toNat = p := by rw [BitVec.toNat_mul, hp, BitVec.toNat_ofNat]
  have hy : (r * 0x85EBCA77#32).toNat = q := by rw [BitVec.toNat_mul, hq, BitVec.toNat_ofNat]
  have hmix : ((l * 0x9E3779B1#32) ^^^ ((r * 0x85EBCA77#32).rotateLeft 13)).toNat = h := by
    rw [BitVec.toNat_xor, toNat_rotateLeft_13, hx, hy, hh]
  rw [mergeHash, toNat_xor_ushiftRight, BitVec.toNat_mul, toNat_xor_ushiftRight, hmix, BitVec.toNat_ofNat, hh']

/-! ### UTF-8 (R382) -/

section
variable {n f k acc lo hi : Nat} {b : Byte} {bs : List Byte}

theorem utfCont_next (hk : k ≠ n) (hlo : lo ≤ b.toNat) (hhi : b.toNat ≤ hi) :
    utfCont n (f + 1) k acc lo hi (b :: bs) = utfCont n f (k + 1) (acc * 64 + b.toNat % 64) 0x80 0xBF bs := by
  simp only [utfCont, beq_eq_false_iff_ne.mpr hk, hlo, hhi, decide_true, Bool.and_self, if_true, Bool.false_eq_true, if_false]

theorem utfCont_whole : utfCont n (f + 1) n acc lo hi bs = .ok acc n := by
  simp only [utfCont, beq_self_eq_true, if_true]

theorem utfFront_lead (hb : 0x80 ≤ b.toNat) (hlead : utfLead b.toNat = some (n, lo, hi)) :
    utfFront (b :: bs) = utfCont n 4 1 (b.toNat % 2 ^ (7 - n)) lo hi bs := by
  simp only [utfFront, Nat.not_lt.mpr hb, if_false, hlead]

end

theorem utfLead_two {b : Nat} (h1 : 0xC2 ≤ b) (h2 : b ≤ 0xDF) : utfLead b = some (2, 0x80, 0xBF) := by
  simp [utfLead, h1, h2]

theorem utfLead_three {b : Nat} (h1 : 0xE0 ≤ b) (h2 : b ≤ 0xEF) :
    utfLead b = some (3, if b = 0xE0 then 0xA0 else 0x80, if b = 0xED then 0x9F else 0xBF) := by
  unfold utfLead
  rw [if_neg (by simp; omega)]
  by_cases hE0 : b = 0xE0
  · simp [hE0]
  by_cases hED : b = 0xED
  · simp [hED]
  · simp [hE0, hED, h2, show 0xE1 ≤ b by omega]

theorem utfLead_four {b : Nat} (h1 : 0xF0 ≤ b) (h2 : b ≤ 0xF4) :
    utfLead b = some (4, if b = 0xF0 then 0x90 else 0x80, if b = 0xF4 then 0x8F else 0xBF) := by
  unfold utfLead
  rw [if_neg (by simp; omega), if_neg (by simp; omega), if_neg (by simp; omega), if_neg (by simp; omega)]
  by_cases hF0 : b = 0xF0
  · simp [hF0]
  by_cases hF4 : b = 0xF4
  · simp [hF4]
  · simp [hF0, hF4, show 0xF1 ≤ b by omega, show b ≤ 0xF3 by omega]

theorem toNat_ofNat_byte {v : Nat} (h : v < 256) : (BitVec.ofNat 8 (v % 256)).toNat = v := by rw [BitVec.toNat_ofNat]; omega

theorem utfEnc_length_pos (c : Nat) : 0 < (utfEnc c).length := by
  unfold utfEnc
  split
  · exact Nat.one_pos
  split
  · exact Nat.two_pos
  split
  · exact Nat.succ_pos _
  · exact Nat.succ_pos _

/-- Decoding gives back each Unicode scalar value that was encoded, whatever follows. -/
theorem utfFront_utfEnc {c : Nat} (h : isScalar c = true) (r : List Byte) : utfFront (utfEnc c ++ r) = .ok c (utfEnc c).length := by
  obtain ⟨hmax, hsur⟩ : c ≤ 0x10FFFF ∧ ¬ (0xD800 ≤ c ∧ c ≤ 0xDFFF) := by simpa [isScalar, imp_iff_not_or, not_and_or] using h
  unfold utfEnc
  split
  case isTrue h1 =>
    have hb := toNat_ofNat_byte (v := c) (by omega)
    simp only [leBytes, List.singleton_append, utfFront, hb, h1, if_true, List.length_singleton]
  split
  case isTrue h1 h2 =>
    have hb0 := toNat_ofNat_byte (v := 0xC0 + c / 64) (by omega)
    have hb1 := toNat_ofNat_byte (v := 0x80 + c % 64) (by omega)
    simp only [leBytes, List.cons_append, List.nil_append, List.length_cons, List.length_nil]
    rw [utfFront_lead (by omega) (by rw [hb0]; exact utfLead_two (by omega) (by omega)), utfCont_next (by decide) (by omega) (by omega),
      utfCont_whole, hb0, hb1]
    congr 1
    omega
  split
  case isTrue h1 h2 h3 =>
    have hb0 := toNat_ofNat_byte (v := 0xE0 + c / 4096) (by omega)
    have hb1 := toNat_ofNat_byte (v := 0x80 + c / 64 % 64) (by omega)
    have hb2 := toNat_ofNat_byte (v := 0x80 + c % 64) (by omega)
    simp only [leBytes, List.cons_append, List.nil_append, List.length_cons, List.length_nil]
    rw [utfFront_lead (by omega) (by rw [hb0]; exact utfLead_three (by omega) (by omega)),
      utfCont_next (by decide) (by split <;> omega) (by split <;> omega), utfCont_next (by decide) (by omega) (by omega),
      utfCont_whole, hb0, hb1, hb2]
    congr 1
    omega
  case isFalse h1 h2 h3 =>
    have hb0 := toNat_ofNat_byte (v := 0xF0 + c / 262144) (by omega)
    have hb1 := toNat_ofNat_byte (v := 0x80 + c / 4096 % 64) (by omega)
    have hb2 := toNat_ofNat_byte (v := 0x80 + c / 64 % 64) (by omega)
    have hb3 := toNat_ofNat_byte (v := 0x80 + c % 64) (by omega)
    simp only [leBytes, List.cons_append, List.nil_append, List.length_cons, List.length_nil]
    rw [utfFront_lead (by omega) (by rw [hb0]; exact utfLead_four (by omega) (by omega)),
      utfCont_next (by decide) (by split <;> omega) (by split <;> omega), utfCont_next (by decide) (by omega) (by omega),
      utfCont_next (by decide) (by omega) (by omega), utfCont_whole, hb0, hb1, hb2, hb3]
    congr 1
    omega

/-- The bytes of a number begin with those that its low end spells. -/
theorem leBytes_prefix : ∀ (l : List Byte) (m v : Nat), v % 256 ^ l.length = leNat l →
    leBytes (l.length + m) v = l ++ leBytes m (v / 256 ^ l.length)
  | [], m, v, _ => by rw [List.length_nil, Nat.zero_add, Nat.pow_zero, Nat.div_one, List.nil_append]
  | b :: l, m, v, h => by
    have hb := b.isLt
    rw [List.length_cons, Nat.pow_succ', Nat.mod_mul, leNat] at h
    have hbyte : BitVec.ofNat 8 (v % 256) = b := by
      refine BitVec.eq_of_toNat_eq ?_
      rw [BitVec.toNat_ofNat]
      omega
    have hrest : v / 256 % 256 ^ l.length = leNat l := by omega
    rw [List.length_cons, Nat.succ_add_eq_add_succ, Nat.add_succ, leBytes, hbyte, leBytes_prefix l m _ hrest, Nat.pow_succ', Nat.div_div_eq_div_mul]
    rfl

/-! ### The units (R379, R382) -/

theorem bMprobe_some {v : Voc} (hv : e.voc = some v) : bMprobe d a b s e t =
    bTable s e t (vocabAddr (if e.set then 0xF else secMerges)) (fun u => bDone (u.wx d
      (match v.merge (t.rx a).toNat (t.rx b).toNat with
        | some m => BitVec.ofNat 64 (m.rank * 2 ^ 32 + m.result) | none => BitVec.allOnes 64)) 8) := by
  simp only [bMprobe, hv]
  cases v.merge (t.rx a).toNat (t.rx b).toNat <;> rfl

theorem bMprobe_none (hv : e.voc = none) : bMprobe d a b s e t = .fault ⟨bfWINDOW, 0, 0#64⟩ := by simp only [bMprobe, hv]

theorem bUdec_whole {c : Nat} (hc : isScalar c = true) (hx : (t.rx a).toNat % 2 ^ (8 * (utfEnc c).length) = leNat (utfEnc c))
    (hlen : (utfEnc c).length ≤ (t.rx b).toNat) (hmax : (t.rx b).toNat ≤ 8) :
    bUdec d a b s e t = bDone (t.wx d (BitVec.ofNat 64 (c + (utfEnc c).length * 2 ^ 32))) := by
  have hpos := utfEnc_length_pos c
  have hcount : (decide (1 ≤ (t.rx b).toNat) && decide ((t.rx b).toNat ≤ 8)) = true := by
    rw [Bool.and_eq_true, decide_eq_true_eq, decide_eq_true_eq]
    omega
  rw [Nat.pow_mul] at hx
  have hbytes := leBytes_prefix (utfEnc c) ((t.rx b).toNat - (utfEnc c).length) (t.rx a).toNat hx
  rw [Nat.add_sub_cancel' hlen] at hbytes
  simp only [bUdec, hcount, if_true, hbytes, utfFront_utfEnc hc]

theorem bUenc_scalar (hc : isScalar (t.rx a).toNat = true) :
    bUenc d a s e t = bDone (t.wx d (BitVec.ofNat 64 (leNat (utfEnc (t.rx a).toNat) + (utfEnc (t.rx a).toNat).length * 2 ^ 60))) := by
  simp only [bUenc, hc, if_true]

theorem bUnorm_some {v : Voc} {sec : List Byte} (hv : e.voc = some v) (hs : sect? v.base secNorm = some sec) (hx : (t.rx a).toNat < 0x110000) :
    bUnorm d a s e t = bTable s e t (vocabAddr secNorm) (fun u => bDone (u.wx d (BitVec.ofNat 64 (normRec sec (t.rx a).toNat)))) := by
  simp only [bUnorm, hv, Option.bind_some, hs, hx, if_true]

theorem bUnorm_none (hv : e.voc = none) : bUnorm d a s e t = .fault ⟨bfWINDOW, 0, BitVec.ofNat 64 (vocabAddr secNorm)⟩ := by
  simp only [bUnorm, hv, Option.bind_none]

end Sys2Proof.Machine

namespace Sys2Proof.Claims
open Machine

/-- Settles O13: each unit by its table, and UDEC by decoding what encoding gives. -/
theorem beadTextUnits : Obligations.BeadTextUnits := by
  unfold Obligations.BeadTextUnits
  intro s n e d a b hcall t x y merges
  refine ⟨fun v hv hclean hroom => ?mprobe, fun hv => ?mprobeNone, fun hroom => ?mhash, fun c k hc hk hx hlen hmax hroom => ?udec,
    fun hc hroom => ?uenc, fun v sec hv hs hx hclean hroom => ?unorm, fun hv => ?unormNone⟩
  case mprobe => exact exec_walk rfl hcall (bMprobe_some hv) (.refl t) rfl hclean hroom
  case mprobeNone => exact exec_fault rfl hcall (bMprobe_none hv)
  case mhash =>
    refine ⟨_, exec_wx rfl hcall rfl hroom, fun l r p q h h' hl hr hp hq hh hh' => ?_⟩
    have hleft : l = ((t.rx a).truncate 32).toNat := by rw [hl, BitVec.toNat_setWidth]
    have hright : r = ((t.rx b).truncate 32).toNat := by rw [hr, BitVec.toNat_setWidth]
    have hhash := mergeHash_toNat _ _ (hleft ▸ hp) (hright ▸ hq) hh hh'
    have hlt := (mergeHash ((t.rx a).truncate 32) ((t.rx b).truncate 32)).isLt
    rw [BitVec.zeroExtend, BitVec.toNat_setWidth, Nat.mod_eq_of_lt (by omega), hhash]
  case udec =>
    subst hk
    exact exec_wx rfl hcall (bUdec_whole hc hx hlen hmax) hroom
  case uenc => exact exec_wx rfl hcall (bUenc_scalar hc) hroom
  case unorm => exact exec_walk rfl hcall (bUnorm_some hv hs hx) (.refl t) rfl hclean hroom
  case unormNone => exact exec_fault rfl hcall (bUnorm_none hv)

end Sys2Proof.Claims
end

