-- ==== Sys2Proof/Proofs/OnChip.lean ====
section
/-! PROOF. Sys2Proof/Proofs/OnChip.lean: a drained bank that was its partition's last one waits while a queued op needs a run-ahead result of the
cluster (R305, R408). -/
namespace Sys2Proof.Claims
open Machine

/-- What a command of a running block answers, in a member that is no secondary, is its effect but for what was noted. -/
theorem noted_of_exec {s t : State} {cmd : Instr} {f : State → State} (hexec : exec cmd s = run f s) (hrun : s.running = true) (hrole : s.role ≠ 2)
    (ht : exec cmd s = .next t) : Noted (f s) t := by
  obtain ⟨u, hu, hn⟩ := run_writer (f := f) hrun hrole
  have htu : t = u := Host.Outcome.next.inj (ht.symm.trans (hexec.trans hu))
  rwa [htu]

end Sys2Proof.Claims

namespace Sys2Proof.Machine
open Sys2Proof

/-! ### The last bank of a partition, with a result that a queued step needs -/

namespace LastBank

/-- A strand of session 1, at home on cluster 0, with a run-ahead result. -/
def strand : Strand :=
  { part := 0, session := 1#32, slot := 0, domain := 0, home := 0, account := 0, vocab := ⟨2#32, 1⟩, ra := some {} }

/-- A queued STEP_BATCH with an item of that session. -/
def batch : OpCtx :=
  { id := 0, part := 0, ring := 0, index := 0#32, entry := leBytes 64 opSTEP_BATCH, seq := 0, bound := true, items := [{ session := 1#32 }] }

/-- DONE, partition 0 with cluster 0 in service and its bank 0. -/
def owned : State :=
  { [(rCfgBootStat, 0x80000000#32), (rPrtCfgCtrlMir 0, 0x80000000#32), (rPrtCfgGroupsMir 0, 1#32), (rGlbCluMap, 1#32), (rPwrDomStat, 1#32),
      (rCluBankOwn 0 0, 0#32)].foldl (fun s r => s.setReg r.1 r.2) State.reset with
    strands := [strand], ctxs := [batch], nextSeq := 1 }

/-- The bank on its way to FREE: what a write of FREE to its OWNER leaves. -/
def state : State := bankOwnerWrite 0 0 0x10#32 owned

theorem state_canon : state.canon := by unfold State.canon; decide +kernel
theorem state_running : state.running = true := by decide +kernel
theorem state_role : state.role ≠ 2 := by decide +kernel

/-- The bank is in HANDOVER and drains towards FREE. -/
theorem state_owner : state.rf (rCluBankOwn 0 0) 0 5 = 0x1F := by decide +kernel
theorem state_hand : (state.scratch[(0 : Clu)]).hand.find? (fun h => h.1 == 0) = some (0, 0x10) := by decide +kernel

/-- The partition owns no bank of the cluster any more, and the queued step still needs the result there. -/
theorem state_pinned : (state.banklessRa 0).any state.raPinned = true := by decide +kernel

/-- So a use is left in the bank, and the drain is not over (R305, R408). -/
theorem drain_waits : bankDrainDone 0 0 state = state := by
  simp only [bankDrainDone, Fin.val_zero, state_hand, state_pinned, if_true]

end LastBank
end Sys2Proof.Machine

namespace Sys2Proof.Claims
open Machine

/-- Refutes O50: of BANK_DRAIN_DONE for a bank that drains, the statement says that the bank takes its new owner, without asking whether a run-ahead
result is left that must not be evicted. Of a partition's last bank in a cluster, the result of a strand with an op queued or ready is such a use
(R305), and the bank waits for it (R408, `State.banklessRa`, `State.raPinned`). The witness is `LastBank.state`, which BANK_OWNER_WRITE makes of a
bank in use: it stays in HANDOVER. -/
theorem not_onChip : ¬ Obligations.OnChip := by
  unfold Obligations.OnChip
  intro h
  obtain ⟨-, drain, -⟩ := h LastBank.state LastBank.state_canon LastBank.state_running
  obtain ⟨t, ht, howner, -⟩ := (drain 0 0).1 0x10 LastBank.state_hand (by decide)
  have hn : Noted (bankDrainDone 0 0 LastBank.state) t := noted_of_exec rfl LastBank.state_running LastBank.state_role ht
  rw [LastBank.drain_waits] at hn
  rw [hn.rf (by decide), Fin.val_zero, Fin.val_zero, LastBank.state_owner] at howner
  exact absurd howner (by decide)

end Sys2Proof.Claims
end

