-- ==== Sys2Proof/Proofs/UnitsAndDomains.lean ====
section
/-! PROOF. Sys2Proof/Proofs/UnitsAndDomains.lean: a wake of a domain that has no request bit still ends a sleep that waits (R602, R603). -/
namespace Sys2Proof.Machine
open Sys2Proof

/-! ### A sleep of the control complex

The control complex can not be requested off (R601, R602), so no run begins a sleep of it; a state in canonical form, which is all that O56
asks, may list one. -/

namespace ControlAsleep

/-- DONE, with a sleep of the control complex, domain 68, that waits for accesses in flight. -/
def state : State := { State.reset.setReg rCfgBootStat 0x80000000#32 with sleeping := [68] }

theorem state_canon : state.canon := by unfold State.canon; decide +kernel
theorem state_running : state.running = true := by decide +kernel
theorem state_role : state.role ≠ 2 := by decide +kernel

/-- The control complex has no request bit. -/
theorem offBit_control : offBit 68 = none := by decide

/-- A wake ends the sleep, request bit or none. -/
theorem wake_ends_sleep : (domainWake 68 (state.forwardDom 68 false)).sleeping = [] := by decide +kernel

end ControlAsleep
end Sys2Proof.Machine

namespace Sys2Proof.Claims
open Machine

theorem Noted.sleeping {u t : State} (h : Noted u t) : t.sleeping = u.sleeping := by rw [h.1]

/-- Refutes O56: of a DOMAIN_WAKE of a domain without a request bit the statement says that it changes nothing, but it takes the domain from the sleeps
that wait, as every wake does (`domainWake`). The witness is `ControlAsleep.state`, which is canonical, though no run reaches it: a sleep begins with
an off request, and the control complex has none. -/
theorem not_unitsAndDomains : ¬ Obligations.UnitsAndDomains := by
  unfold Obligations.UnitsAndDomains
  intro h
  obtain ⟨-, -, -, -, -, -, -, -, -, -, -, -, -, -, domains, -⟩ := h ControlAsleep.state ControlAsleep.state_canon ControlAsleep.state_running
  obtain ⟨noBit, -⟩ := domains 68
  obtain ⟨-, t, ht, hsame⟩ := noBit ControlAsleep.offBit_control
  have hdone : Noted (domainWake 68 (ControlAsleep.state.forwardDom 68 false)) t :=
    noted_of_exec (f := fun s => domainWake 68 (s.forwardDom 68 false)) rfl ControlAsleep.state_running ControlAsleep.state_role ht
  have hkept : t.sleeping = [68] := hsame.sleeping
  rw [hdone.sleeping, ControlAsleep.wake_ends_sleep] at hkept
  exact absurd hkept (by decide)

end Sys2Proof.Claims
end

