-- ==== Sys2Proof/Proofs/ParkMedia.lean ====
section
/-! PROOF. Sys2Proof/Proofs/ParkMedia.lean: a good read of a copy repairs the other copy of a pinned locket, which the waiting op has found
unreadable (R453, R459). -/
namespace Sys2Proof.Machine
open Sys2Proof

/-! ### Jobs of a die, and a copy placed on one die -/

theorem takeJob_cons {f : FlashJob → Bool} {j : FlashJob} (h : f j = true) (l : List FlashJob) : takeJob f (j :: l) = some (j, l) := if_pos h

/-- Where one die of the channel is allowed, the copy lands there, whatever a free value chooses. -/
theorem State.placeChan_single {s : State} {c : Chan} {avoid : List (Fin 8)} {d : Fin 8}
    (hd : (s.chans[c]).usable.filter (fun d => !avoid.contains d) = [d]) (reloc : Bool) (lid : DWord) (copy : Nat) (img : List Byte) :
    s.placeChan c avoid reloc lid copy img = ({ s with freeCtr := s.freeCtr + 1 } : State).placeOn c d reloc lid copy img := by
  have hpick : ∀ k, [d][(k + 0) % 1]? = some d := fun k => by rw [Nat.mod_one]; rfl
  simp only [State.placeChan, State.freeBelow, hd, List.isEmpty_cons, Bool.false_eq_true, if_false, List.length_singleton, List.range_one,
    List.findSome?_singleton, hpick]

/-- What the loupe counts changes no locket. -/
theorem State.count_lockets (s : State) (ev : Nat) (p : Option Part) (g : Option Grp) (k : Nat) : (s.count ev p g k).lockets = s.lockets := by
  refine foldl_keep (·.lockets) _ (fun s n => ?_) _ _
  split
  · exact State.bump64_lockets _ _ _
  · rfl

theorem chanOp_lockets (c : Chan) (d : Fin 8) (ev : Nat) (f : State → State) (s : State) : (chanOp c d ev f s).lockets = (f s).lockets := by
  unfold chanOp
  extract_lets t
  split
  · rfl
  · exact State.count_lockets _ _ _ _ _

/-! ### A pinned locket with an unreadable copy

Copy 1 was read first, while copy 0 could not be reached, and has been found unreadable; the op now reads copy 0. -/

namespace TwinUnreadable
-- Facts on the witness are evaluated one after the other: in parallel they take too much memory.
set_option Elab.async false

/-- The copies of the locket: copy 0 on die 0, in block 5, and copy 1 on die 1, in block 7. -/
def copy0 : ColdCopy := { copy := 0, chan := 0, die := 0, block := 5, page := 0, plane := 0, sector := 0, count := 1, todo := [], durable := true }
def copy1 : ColdCopy := { copy0 with copy := 1, die := 1, block := 7 }

/-- A pinned locket of session 1 in the cold park. -/
def locket : Locket :=
  { part := 0, session := 1#32, id := 1#64, gen := 1#64, epoch := 1#32, image := leBytes 64 1, body := [], pages := 3, binds := [], pinned := true
    cold := [copy0, copy1] }

/-- The read of copy 0, at rung 0. -/
def read0 : FlashJob := .read 0 1#32 copy0 0 [0] {}

/-- The codeword that holds the sector of copy 0 (R478). -/
def word : Codeword := { payload := locket.image, mdata := codewordMeta none 0 locket.image }

def info : DieInfo := ⟨7, true, true, 16384, 2048, 1, 256, 100, 8, []⟩

/-- Die 0 holds copy 0 and reads it; die 1 has the block of copy 1, and a free one. -/
def die0 : FlashDie :=
  { info := some info, usable := true, blocks := [⟨5, 0, .data, 0, 0, 0, 0, 0⟩], pages := [⟨5, 0, 0, 0, [word]⟩], jobs := [read0] }
def die1 : FlashDie :=
  { info := some info, usable := true, blocks := [⟨7, 0, .data, 0, 0, 0, 0, 0⟩, ⟨8, 0, .free, 0, 0, 0, 0, 0⟩] }

/-- A REVIVE of session 1 that has found copy 1 unreadable and waits for the read of copy 0. -/
def op : OpCtx :=
  { id := 0, part := 0, ring := 0, index := 1#32, entry := 0x0C#8 :: List.replicate 3 0#8 ++ leBytes 4 1 ++ List.replicate 56 0#8, seq := 0
    st := .ready, reading := true, badCold := [1] }

/-- DONE, partition 0 enabled with flash channel 0 and its two dies, the locket, and the op. -/
def state : State :=
  { [(rCfgBootStat, 0x80000000#32), (rPrtCfgCtrlMir 0, 0x80000000#32), (rPrtCfgChannelsMir 0, 1#32)].foldl (fun s r => s.setReg r.1 r.2) State.reset with
    chans := vset State.reset.chans 0 (fun x => { x with online := true, dies := (x.dies.set 0 die0).set 1 die1 })
    lockets := [locket]
    ctxs := [op]
    indexOk := true }

theorem state_canon : state.canon := by unfold State.canon; decide +kernel
theorem state_running : state.running = true := by decide +kernel
theorem state_role : state.role ≠ 2 := by decide +kernel
theorem state_jobs : ((state.chans[(0 : Chan)]).dies[(0 : Fin 8)]).jobs = [read0] := by decide +kernel
theorem state_serves : state.readWaits (state.chans[(0 : Chan)]).dies[(0 : Fin 8)] = false := by decide +kernel
theorem state_locket : state.lockets.find? (fun l => l.part == 0 && l.session == 1#32) = some locket := by decide +kernel
theorem state_image : state.coldImage locket copy0 = some locket.image := by decide +kernel
theorem state_good : ∀ i ∈ [0], state.cwGood copy0 (state.stripePlanes copy0) i = true := by decide +kernel

/-- The state once the read has ended and the tracker has counted its codeword. -/
def ended : State :=
  let s := state.endJob 0 0 [] 0
  s.track 0 0 {} (ageBin (s.ageOf 0 0 5)) ⟨some 0, 0, 0⟩

theorem ended_online : ended.onlineOf 0 = [0] := by decide +kernel
theorem ended_dies : (ended.chans[(0 : Chan)]).usable.filter (fun d => !([0] : List (Fin 8)).contains d) = [1] := by decide +kernel
theorem ended_tried : ended.coldTried locket = [1] := by decide +kernel
theorem ended_image : (ended.coldImage locket copy0).isSome = true := by decide +kernel
theorem ended_place : (({ ended with freeCtr := ended.freeCtr + 1 } : State).placeOn 0 1 true 1#64 1 locket.image).map (·.2.lockets) = some [locket] := by
  decide +kernel

/-- The codeword decodes at rung 0: the read repairs copy 1 and gives copy 0 to the op. -/
theorem read_repairs : flashReadDone 0 0 [⟨some 0, 0, 0⟩] state = (ended.repairTwin locket copy1).readDelivered 0 1#32 (some 0) := by
  unfold flashReadDone
  extract_lets die susp
  have hjobs : die.jobs = [read0] := state_jobs
  rw [hjobs, takeJob_cons rfl, read0]
  dsimp -zeta only
  rw [if_neg (by rw [state_serves]; decide)]
  extract_lets copy s1 bin planes res good fails s2 s3 s4
  have hs1 : s1 = state.endJob 0 0 [] 0 := by
    unfold s1 susp
    rw [FlashDie.busyOp, hjobs]
    rfl
  have hlocket : s1.lockets.find? (fun l => l.part == 0 && l.session == 1#32) = some locket := by rw [hs1]; decide +kernel
  have hgood : good (0, ⟨some 0, 0, 0⟩) = true := by
    unfold good planes
    rw [hs1]
    decide +kernel
  have hres : res = [(0, ⟨some 0, 0, 0⟩)] := rfl
  have hfails : fails = [] := by
    unfold fails
    rw [hres, List.filter_singleton, hgood]
    rfl
  have hs2 : s2 = ended := by
    have htracked : s2 = s1.track 0 0 {} bin ⟨some 0, 0, 0⟩ := by
      unfold s2
      rw [hres]
      exact if_pos hgood
    rw [htracked]
    unfold bin
    rw [hs1]
    rfl
  have hs4 : s4 = ended := by
    unfold s4 s3
    rw [hfails, hs2]
    rfl
  obtain ⟨img, himg⟩ := Option.isSome_iff_exists.mp ended_image
  rw [hlocket, hfails]
  dsimp only
  rw [hs4, himg, ended_tried]
  rfl

/-- The new copy 1 finds its place on die 1, away from copy 0. -/
theorem repair_placed : ∃ n u, ended.placeFor locket copy1 true locket.image = some (n, u) ∧ u.lockets = [locket] := by
  obtain ⟨⟨n, u⟩, hplace, hu⟩ := Option.map_eq_some_iff.mp ended_place
  refine ⟨n, u, ?_, hu⟩
  unfold State.placeFor
  extract_lets twins cs apart near
  have hnear : near = [0] := by
    unfold near apart cs
    rw [show ended.onlineOf locket.part = [0] from ended_online]
    rfl
  rw [hnear]
  exact (State.placeChan_single ended_dies true 1#64 1 locket.image).trans hplace

/-- The repair enters it with the locket. -/
theorem repair_lockets : (ended.repairTwin locket copy1).lockets ≠ [locket] := by
  obtain ⟨n, u, hplace, hu⟩ := repair_placed
  unfold State.repairTwin
  rw [if_neg (by decide), hplace]
  dsimp only [State.locketUpd]
  rw [hu]
  intro h
  have hcold : locket.cold ++ [{ n with moved := true, repair := true }] = locket.cold := congrArg Locket.cold (List.cons.inj h).1
  simp at hcold

end TwinUnreadable
end Sys2Proof.Machine

namespace Sys2Proof.Claims
open Machine

/-- Refutes O53: of a read of copy 0 whose codewords all decode the statement says that it leaves every locket as it is, but where the waiting op has
found the other copy of a pinned locket unreadable, the read also rewrites that copy, and the new copy is entered with the locket (R453,
`State.repairTwin`). In the witness, `TwinUnreadable.state`, a REVIVE that could not reach copy 0 at first has found copy 1 unreadable. -/
theorem not_movesAndFlash : ¬ Obligations.MovesAndFlash := by
  unfold Obligations.MovesAndFlash
  intro h
  obtain ⟨-, -, dies⟩ := h TwinUnreadable.state TwinUnreadable.state_canon TwinUnreadable.state_running
  obtain ⟨-, -, -, -, good⟩ := dies 0 0
  obtain ⟨u, hu, -, hsame, -⟩ := good 0 1#32 [0] {} [] TwinUnreadable.locket TwinUnreadable.copy0 _ TwinUnreadable.state_jobs rfl
    TwinUnreadable.state_serves TwinUnreadable.state_locket TwinUnreadable.state_image TwinUnreadable.state_good
  have hdone : Noted (chanOp 0 0 0x0E (flashReadDone 0 0 [⟨some 0, 0, 0⟩]) TwinUnreadable.state) u :=
    noted_of_exec rfl TwinUnreadable.state_running TwinUnreadable.state_role hu
  rw [hdone.lockets, chanOp_lockets, TwinUnreadable.read_repairs] at hsame
  exact TwinUnreadable.repair_lockets hsame

end Sys2Proof.Claims
end

