-- ==== Sys2Proof/Proofs/Lockets.lean ====
section
/-! PROOF. Sys2Proof/Proofs/Lockets.lean: the admission of a REVIVE parks an idle strand (R163, R174), and what that park writes to the warm park
may be the bytes that the revive then reads as its warm copy (R451, R459). -/
namespace Sys2Proof.Machine
open Sys2Proof
variable {s s1 t u : State} {p : Part} {c : Ctx} {x : OpCtx}

/-! ### A place in the warm park (R451) -/

/-- The places where a warm copy of `n` bytes fits. -/
def State.warmCands (s : State) (taken : List (Nat × Nat)) (n : Nat) : List Nat :=
  let base := s.warmArea.1
  let ex := s.warmExtents ++ taken
  (base :: ex.map (·.2)).filter (fun a => base ≤ a && a + n ≤ base + s.warmArea.2 && ex.all (fun e => a + n ≤ e.1 || e.2 ≤ a))

/-- The only place is taken, whatever a free value chooses. -/
theorem State.warmAlloc_only {taken : List (Nat × Nat)} {n a : Nat} (h : s.warmCands taken n = [a]) :
    s.warmAlloc taken n = some (a, { s with freeCtr := s.freeCtr + 1 }) := by
  have hpick : ∀ k, [a][k % 1]? = some a := fun k => by rw [Nat.mod_one]; rfl
  unfold State.warmCands at h
  unfold State.warmAlloc
  dsimp only [State.freeBelow] at h ⊢
  rw [h]
  exact congrArg _ (hpick _)

theorem State.warmPlaces_only {n a : Nat} (h : s.warmCands [] n = [a]) :
    s.warmPlaces n 1 [] = some ([a], { s with freeCtr := s.freeCtr + 1 }) := by
  rw [State.warmPlaces, State.warmAlloc_only h]
  rfl

/-! ### What admission looks at (R174) -/

/-- Registers, step domains, ops, strands, objects, and partitions. -/
def State.admission (s : State) :
    List (Nat × Word) × Vector StepDomain 4 × List OpCtx × List Strand × List ObjVersion × Vector PartState 16 :=
  (s.regs, s.sd, s.ctxs, s.strands, s.objs, s.parts)

theorem State.admitCheck_congr (h : u.admission = s.admission) (p : Part) (d : Dom) (pages cost : Nat) :
    u.admitCheck p d pages cost = s.admitCheck p d pages cost := by
  simp only [State.admission, Prod.mk.injEq] at h
  obtain ⟨hr, hd, hc, ht, ho, hp⟩ := h
  obtain ⟨⟩ := u
  obtain ⟨⟩ := s
  dsimp only at hr hd hc ht ho hp
  subst hr hd hc ht ho hp
  rfl

theorem State.wrBytes_admission (s : State) (a : Nat) (l : List Byte) : (s.wrBytes a l).admission = s.admission := by
  simp [State.admission]

theorem State.tell_admission (s : State) (k : Nat) (p : Part) (v : DWord) : (s.tell k p v).admission = s.admission := by
  rw [State.tell, State.tellOp_rest]
  rfl

/-! ### What a park leaves where nothing is in page stall -/

theorem State.partUpd_of_fixed {f : PartState → PartState} (h : f (s.parts[p]) = s.parts[p]) : s.partUpd p f = s := by
  have hparts : vset s.parts p f = s.parts := by
    rw [vset, h]
    exact Vector.set_getElem_self p.isLt
  rw [State.partUpd, hparts]

/-- Page stall is as it was where there is none and no strand would enter it (R165). -/
theorem State.evalStall_none (hs : (s.parts[p]).stall = []) (hn : ∀ x ∈ s.strands, x.stalled = false) : s.evalStall p = s := by
  have hfresh : s.strands.filter (fun t => t.part == p && t.stalled && !([] : List Word).contains t.session) = [] :=
    List.filter_eq_nil_iff.mpr fun x hx => by simp [hn x hx]
  unfold State.evalStall
  dsimp only
  rw [hs, hfresh]
  exact State.partUpd_of_fixed (congrArg (fun l => { s.parts[p] with stall := l }) hs.symm)

theorem State.jAppendAll_mem (s : State) (p : Part) (r : JRecord) : (s.jAppendAll p r).mem = s.mem :=
  foldl_keep (·.mem) (fun s c => s.jAppend c { r with part := p }) (fun _ _ => rfl) _ _

theorem State.jAppendAll_admission (s : State) (p : Part) (r : JRecord) : (s.jAppendAll p r).admission = s.admission :=
  foldl_keep State.admission (fun s c => s.jAppend c { r with part := p }) (fun _ _ => rfl) _ _

theorem State.raiseGen_mem (s : State) (p : Part) (g : DWord) (past : Bool) : (s.raiseGen p g past).mem = s.mem := by
  cases past
  · rfl
  · exact State.jAppendAll_mem _ _ _

theorem State.raiseGen_admission (s : State) (p : Part) (g : DWord) (past : Bool) :
    (s.raiseGen p g past).admission = (s.partUpd p (fun x => { x with gen := g })).admission := by
  cases past
  · rfl
  · exact State.jAppendAll_admission _ _ _

/-- A member in no pair takes the counter's next value (R443). -/
theorem State.nextGen_unpaired (h : s.paired = false) (p : Part) : ∃ u, s.nextGen p = ((s.parts[p]).gen + 1#64, u) ∧ u.mem = s.mem ∧
    u.admission = (s.partUpd p (fun x => { x with gen := (s.parts[p]).gen + 1#64 })).admission := by
  rw [State.nextGen, assigned_of_unpaired h]
  exact ⟨_, rfl, State.raiseGen_mem _ _ _ _, State.raiseGen_admission _ _ _ _⟩

/-- The image of a strand's warm locket of generation `g`. -/
def State.parkImage (s : State) (t : Strand) (key : KeySlot) (pin : Bool) (g : DWord) : List Byte :=
  sealBody key pin (locketId t.part g) g t.session t.part t.admitPages (s.locketBody t)

/-- The locket of that image in the places `addrs`. -/
def State.parkLocket (s : State) (t : Strand) (key : KeySlot) (pin : Bool) (g : DWord) (addrs : List Nat) (time seq : Nat) : Locket :=
  { part := t.part, session := t.session, id := locketId t.part g, gen := g, epoch := key.epoch, image := s.parkImage t key pin g
    body := s.locketBody t, pages := t.admitPages, binds := t.holds, pinned := pin, warm := addrs
    parkedAt := time, seq, domain := t.domain, histLen := t.hist.length }

/-- The image in each of its places. -/
def State.wrPlaces (s : State) (addrs : List Nat) (img : List Byte) : State := addrs.foldl (fun s a => s.wrBytes a img) s

/-- A park that finds its places writes the image there, adds the locket and releases the strand. -/
theorem State.storePark_stores {t : Strand} {pin cold : Bool} {k : ParkTerms} {key : KeySlot} {addrs : List Nat} {g : DWord} {s2 : State}
    (hf : s.parkFault t.part cold k = .ok key) (hroom : s.warmRoom t.part ((if pin then 2 else 1) * (64 + (s.locketBody t).length)) = true)
    (hplaces : s.warmPlaces (64 + (s.locketBody t).length) (if pin then 2 else 1) [] = some (addrs, s1)) (hgen : s1.nextGen t.part = (g, s2))
    (hu : s2.wrPlaces addrs (s.parkImage t key pin g) = u) :
    s.storePark t pin cold k = .done (locketId t.part g) (64 + (s.locketBody t).length)
      (((u.partUpd t.part (fun y => { y with parkSeq := y.parkSeq + 1 })).addLocket
        (s.parkLocket t key pin g addrs u.time ((u.parts[t.part]).parkSeq))).releaseStrand t) := by
  subst hu
  unfold State.storePark
  dsimp only
  rw [hf]
  dsimp only
  rw [hroom, hplaces]
  dsimp only
  rw [hgen]
  rfl

theorem State.admission_parts (h : u.admission = s.admission) : u.parts = s.parts := congrArg (·.2.2.2.2.2) h
theorem State.admission_strands (h : u.admission = s.admission) : u.strands = s.strands := congrArg (·.2.2.2.1) h
theorem State.admission_regs (h : u.admission = s.admission) : u.regs = s.regs := congrArg (·.1) h

theorem State.partUpd_admission (h : u.admission = s.admission) (p : Part) (f : PartState → PartState) :
    (u.partUpd p f).admission = (s.partUpd p f).admission := by
  simp only [State.admission, State.partUpd, Prod.mk.injEq] at h ⊢
  obtain ⟨hr, hd, hc, ht, ho, hp⟩ := h
  exact ⟨hr, hd, hc, ht, ho, congrArg (vset · p f) hp⟩

theorem State.strandDel_admission (h : u.admission = s.admission) (p : Part) (sid : Word) :
    (u.strandDel p sid).admission = (s.strandDel p sid).admission := by
  simp only [State.admission, State.strandDel, Prod.mk.injEq] at h ⊢
  obtain ⟨hr, hd, hc, ht, ho, hp⟩ := h
  exact ⟨hr, hd, hc, congrArg (List.filter _) ht, ho, hp⟩

/-- What a strand gives back at its release, before page stall is looked at again. -/
def State.givesBack (s : State) (t : Strand) : State := (s.strandDel t.part t.session).freePageList t.part t.pages

theorem State.givesBack_admission (h : u.admission = s.admission) (t : Strand) : (u.givesBack t).admission = (s.givesBack t).admission :=
  State.partUpd_admission (State.strandDel_admission h _ _) _ _

/-- A release that leaves no page stall changes nothing more. -/
theorem State.releaseStrand_unstalled {t : Strand} (h : u.admission = s.admission) (hs : ((s.givesBack t).parts[t.part]).stall = [])
    (hn : ∀ y ∈ (s.givesBack t).strands, y.stalled = false) : u.releaseStrand t = u.givesBack t := by
  have hg := State.givesBack_admission h t
  refine State.evalStall_none ?_ ?_
  · rw [← hs, ← State.admission_parts hg]
    rfl
  · rwa [← State.admission_strands hg] at hn

theorem State.wrBytes_mem_congr (h : u.mem = s.mem) (l : List Byte) (a : Nat) : (u.wrBytes a l).mem = (s.wrBytes a l).mem := by
  induction l generalizing s u a with
  | nil => exact h
  | cons b l ih => exact ih (by rw [State.wr8, State.wr8, h]) (a + 1)

theorem State.tell_mem (s : State) (k : Nat) (q : Part) (v : DWord) : (s.tell k q v).mem = s.mem := by
  rw [State.tell, State.tellOp_rest]

theorem State.tellParked_admission (s : State) (p : Part) (t : Strand) (id : DWord) : (s.tellParked p t id).admission = s.admission := by
  rw [State.tellParked, State.tell_admission, State.tell_admission]

theorem State.tellParked_mem (s : State) (p : Part) (t : Strand) (id : DWord) : (s.tellParked p t id).mem = s.mem := by
  rw [State.tellParked, State.tell_mem, State.tell_mem]

theorem State.addLocket_admission (s : State) (l : Locket) : (s.addLocket l).admission = s.admission := rfl

theorem State.addLocket_mem (s : State) (l : Locket) : (s.addLocket l).mem = s.mem := rfl
theorem State.givesBack_mem (s : State) (t : Strand) : (s.givesBack t).mem = s.mem := rfl

/-- What a park takes from the state that admission looks at: a generation, a number in the sequence of parks, and what the strand gives back. -/
def State.takesPark (s : State) (t : Strand) : State :=
  ((s.partUpd t.part (fun y => { y with gen := (s.parts[t.part]).gen + 1#64 })).partUpd t.part
    (fun y => { y with parkSeq := y.parkSeq + 1 })).givesBack t

/-- A park of a member in no pair with one place in the warm park writes its image there; page stall stays empty. -/
theorem State.storePark_only {t : Strand} {k : ParkTerms} {key : KeySlot} {a : Nat} (hf : s.parkFault t.part false k = .ok key)
    (hroom : s.warmRoom t.part (1 * (64 + (s.locketBody t).length)) = true) (hc : s.warmCands [] (64 + (s.locketBody t).length) = [a])
    (hp : s.paired = false) (hs : ((s.takesPark t).parts[t.part]).stall = []) (hn : ∀ y ∈ (s.takesPark t).strands, y.stalled = false) :
    ∃ id len u, s.storePark t false false k = .done id len u ∧
      u.mem = (s.wrBytes a (s.parkImage t key false ((s.parts[t.part]).gen + 1#64))).mem ∧ u.admission = (s.takesPark t).admission := by
  obtain ⟨s2, hgen, hmem, hadm⟩ := State.nextGen_unpaired (s := { s with freeCtr := s.freeCtr + 1 }) hp t.part
  dsimp only at hgen hmem
  have hpark := State.storePark_stores (pin := false) (cold := false) hf hroom (State.warmPlaces_only hc) hgen rfl
  rw [State.wrPlaces, List.foldl_cons, List.foldl_nil] at hpark
  have himage := State.wrBytes_mem_congr hmem (s.parkImage t key false ((s.parts[t.part]).gen + 1#64)) a
  have hw := State.wrBytes_admission s2 a (s.parkImage t key false ((s.parts[t.part]).gen + 1#64))
  have hseq := State.partUpd_admission (hw.trans hadm) t.part (fun y => { y with parkSeq := y.parkSeq + 1 })
  have hlocket := fun l => (State.addLocket_admission _ l).trans hseq
  rw [State.releaseStrand_unstalled (hlocket _) hs hn] at hpark
  exact ⟨_, _, _, hpark, (State.givesBack_mem _ t).trans ((State.addLocket_mem _ _).trans ((State.partUpd_mem _ _ _).trans himage)),
    State.givesBack_admission (hlocket _) t⟩

/-! ### Admission where pages are short (R163, R174) -/

/-- What rung 2 leaves is what admission then looks at. -/
theorem State.admitSession_short {d : Dom} {pages cost : Nat} (hst : (s.parts[p]).stall = [])
    (hs : s.freePages p < pages + s.rf (rPrtAdmitCfg p) 0 16)
    (hr : reclaimFor p (pages + s.rf (rPrtAdmitCfg p) 0 16) none s = u) (h : u.admitCheck p d pages cost = none) (hp : pages ≤ u.freePages p) :
    ∃ slot l t, s.admitSession p d pages cost = .ok slot l t ∧ t.mem = u.mem := by
  obtain ⟨l, t, hl⟩ := takePages_of_free p pages (u.takeSlot p).2 hp
  refine ⟨(u.takeSlot p).1, l, t, ?_, (State.takePages_mem hl).trans rfl⟩
  unfold State.admitSession
  dsimp only
  rw [if_pos (by rw [hst]; simp [hs]), hr, h]
  dsimp only
  rw [hl]

/-! ### A revive whose copies are all unreadable (R459) -/

theorem State.ctx?_markLost {l : Locket} {y : OpCtx} (h : s.ctx? c = some y) (tier : Nat) : ∃ z, (s.markLost l tier).ctx? c = some z := by
  unfold State.markLost
  split
  · exact ⟨y, h⟩
  · extract_lets s2 s3 s4
    have h3 : s3.ctx? c = some y := by
      unfold s3
      split
      · rw [live_ctx? (foldl_keep (·.live) _ (fun s k => s.jAppend_live k _) _ _)]
        exact h
      · exact h
    rw [live_ctx? (State.post_live ..), live_ctx? (State.bump_live ..)]
    exact State.parksDone_ctx? h3 _ _

theorem State.readLocket_lost {l : Locket} (hw : s.goodWarm x l = []) (hc : l.cold = []) (hr : x.reading = false) (hk : x.readOk = none) :
    s.readLocket x l = .lost (if l.isWarm then 0 else 1) := by
  have hcold : s.coldNext l x.badCold = none := by
    rw [State.coldNext, hc]
    rfl
  unfold State.readLocket
  dsimp only
  rw [hw, hk, hr, hcold]
  rfl

theorem State.reviveRead_lost {l : Locket} {b : LocketBody} {v : Bound} {slot tier : Nat} (h : s.readLocket x l = .lost tier) :
    s.reviveRead x l b v slot = ((s.unadmit x).markLost l tier).endWith x stSessionLost := by
  rw [State.reviveRead, h]

/-- The op in a REVIVE that finds no readable copy ends with SESSION_LOST. -/
theorem State.reviveRead_status {l : Locket} {b : LocketBody} {v : Bound} {slot tier : Nat} {y : OpCtx} (h : s.readLocket x l = .lost tier)
    (hx : s.ctx? x.id = some y) : ∃ z, (s.reviveRead x l b v slot).ctx? x.id = some z ∧ z.status = some stSessionLost := by
  rw [State.reviveRead_lost h]
  have hun : (s.unadmit x).ctx? x.id = some { y with pages := [], slot := none } :=
    State.ctx?_ctxUpd (s := s.freePageList x.part x.pages) hx fun _ => rfl
  obtain ⟨z, hz⟩ := State.ctx?_markLost hun tier
  exact ⟨_, State.ctx?_ctxUpd hz fun _ => rfl, rfl⟩

/-- An admitted REVIVE goes on to its read. -/
theorem revive_admitted {l : Locket} {b : LocketBody} {v : Bound} {slot cost : Nat} {pages : List Nat} (hr : s.readyOp c opREVIVE = some x)
    (ha : x.aborting = false) (hf : s.reviveFault x = .ok (l, b, v)) (hn : x.slot = none)
    (hcost : ∀ n, s.stepCost x.part (b.bound 2) (b.bound 3) n = cost) (e : s.admitSession x.part l.domain l.pages cost = .ok slot pages s1) :
    revive c s =
      (s1.ctxUpd c (fun y => { y with slot := some slot, pages := pages })).reviveRead { x with slot := some slot, pages := pages } l b v slot := by
  unfold revive
  rw [hr]
  dsimp only
  rw [ha, if_neg (by decide), hf]
  dsimp only
  rw [hn]
  dsimp only
  rw [hcost, e]

/-! ### A warm copy that the wrap of addresses hides from the warm park

The places of the warm park are compared as numbers (`State.warmExtents`), while chip memory is addressed modulo 2^64 (`State.rd8`). -/

namespace AliasedCopy
-- Facts on the witness are evaluated one after the other: in parallel they take too much memory.
set_option Elab.async false

/-- A vocabulary without tokens. -/
def voc : ObjVersion := { part := 0, id := 2#32, ver := 1, kind := 1, keySel := 0, hdr := [], digest := 0#128, sects := [], live := true }

/-- The resident strand of session 2, without tokens and idle. -/
def strand : Strand :=
  { part := 0, session := 2#32, slot := 0, domain := 0, home := 0, account := 0, vocab := ⟨2#32, 1⟩, dirPage := 0, sidePage := 1 }

/-- Slot A holds the key of epoch 1, which the selector names. -/
def key : KeySlot := .of 1#32 0#512
def slots : PartState := { slotA := some key, sel := some false, selCrc := selCrcOf (some false), used := [0, 1] }

/-- DONE; partition 0 enabled, with cluster group 0, 3 pool pages of which the strand holds 2, no reserve of pages, 4 strand slots, 16 units of warm
share, and the warm park from 2 MiB upward. -/
def base : State :=
  { [(rCfgBootStat, 0x80000000#32), (rPrtCfgCtrlMir 0, 0x80000000#32), (rPrtCfgGroupsMir 0, 1#32), (rGlbCluMap, 0xF#32), (rPrtPoolCfg 0, 3#32),
      (rPrtStrandCfg 0, 4#32), (rPrtParkWarm 0, 16#32), (rPrkWarmBase, 0x200000#32), (rPrkWarmCfg, 1#32), (rPrtReclaim 0, 0#32),
      (rPrtAdmitCfg 0, 0x4B100000#32)].foldl (fun s r => s.setReg r.1 r.2) State.reset with
    sd := vset State.reset.sd 0 (fun x => { x with st := .beat })
    parts := vset State.reset.parts 0 (fun _ => slots)
    objs := [voc]
    strands := [strand] }

/-- The locket of session 1. Its warm copy is listed at 2^64 above the place 0x200000 that it takes. -/
def locket : Locket :=
  { part := 0, session := 1#32, id := 1#64, gen := 1#64, epoch := 1#32, image := [2#8], body := base.locketBody strand, pages := 2, binds := []
    warm := [2 ^ 64 + 0x200000] }

/-- A ready REVIVE of session 1. -/
def op : OpCtx :=
  { id := 0, part := 0, ring := 0, index := 1#32, entry := 0x0C#8 :: List.replicate 3 0#8 ++ leBytes 4 1 ++ List.replicate 56 0#8, seq := 0
    st := .ready }

/-- The locket and the op beside that; the byte of the image stands in chip memory. -/
def state : State := { base with lockets := [locket], ctxs := [op], mem := [(0x200000, 2#8)] }

theorem state_canon : state.canon := by unfold State.canon; decide +kernel
theorem state_alone : Claims.Alone state := by unfold Claims.Alone; decide +kernel
theorem state_op : Claims.ReadyOp state 0 opREVIVE op := by unfold Claims.ReadyOp; decide +kernel

/-- The revive's checks pass, whatever else the body holds. -/
def passes : Bool :=
  match state.reviveFault op with
  | .ok (l, b, _) => l == locket && b.bound 2 == none && b.bound 3 == none
  | .error _ => false
theorem state_passes : passes = true := by decide +kernel

theorem state_copy : ∃ a ∈ locket.warm, state.rdBytes a locket.image.length = locket.image ∧ a ∉ op.badWarm := by decide +kernel
theorem state_idle : state.candidates 0 (state.idleMin 0) = [strand] := by decide +kernel
theorem state_pages : state.freePages 0 = 1 := by decide +kernel
theorem state_terms : (state.parkTerms 0).key = some key ∧ (state.parkTerms 0).roForce = false ∧ (state.parts[(0 : Part)]).worn = false := by
  decide +kernel
theorem state_room : state.warmRoom 0 (1 * (64 + (state.locketBody strand).length)) = true := by decide +kernel

/-- The image of the strand's locket. -/
def image : List Byte := state.parkImage strand key false 1#64
theorem image_length : image.length ≤ 2 ^ 64 := by decide +kernel
theorem image_head : image.head? = some 1#8 := by decide +kernel

theorem state_cands : state.warmCands [] (64 + (state.locketBody strand).length) = [0x200000] := by decide +kernel
theorem state_unpaired : state.paired = false := by decide +kernel

/-- What admission finds once the strand is parked. -/
theorem takesPark_unstalled : ((state.takesPark strand).parts[(0 : Part)]).stall = [] := by decide +kernel
theorem takesPark_strands : (state.takesPark strand).strands = [] := by decide +kernel
theorem takesPark_pages : (state.takesPark strand).freePages 0 = 3 := by decide +kernel
theorem takesPark_admits : (state.takesPark strand).admitCheck 0 0 2 4000 = none := by decide +kernel
theorem state_reserve : state.rf (rPrtAdmitCfg (0 : Part)) 0 16 = 0 := by decide +kernel
theorem state_calm : (state.parts[(0 : Part)]).stall = [] ∧ (state.parts[(0 : Part)]).reclaims = [] ∧ (state.parts[(0 : Part)]).gen = 0#64 := by
  decide +kernel
theorem state_role : state.role ≠ 2 := by decide +kernel

theorem state_parkFault : state.parkFault 0 false (state.parkTerms 0) = .ok key := by
  obtain ⟨hkey, hro, hworn⟩ := state_terms
  simp only [State.parkFault, hkey, hro, hworn, Bool.false_and, Bool.or_self, Bool.false_eq_true, if_false]

/-- The strand parks: its image goes to the only place. -/
theorem strand_parks : ∃ id len u, state.storePark strand false false (state.parkTerms 0) = .done id len u ∧
    u.mem = (state.wrBytes 0x200000 image).mem ∧ u.admission = (state.takesPark strand).admission := by
  obtain ⟨-, -, hgen⟩ := state_calm
  obtain ⟨id, len, u, hpark, hmem, hadm⟩ := State.storePark_only (t := strand) state_parkFault state_room state_cands state_unpaired
    takesPark_unstalled (fun y hy => by rw [takesPark_strands] at hy; cases hy)
  rw [show (state.parts[strand.part]).gen = 0#64 from hgen] at hmem
  exact ⟨id, len, u, hpark, hmem, hadm⟩

/-- Admission of the revive parks the strand and then finds its pages. -/
theorem op_admitted : ∃ slot pages u, state.admitSession 0 0 2 4000 = .ok slot pages u ∧ u.mem = (state.wrBytes 0x200000 image).mem := by
  obtain ⟨hcalm, hset, -⟩ := state_calm
  obtain ⟨id, len, v, hpark, hmem, hadm⟩ := strand_parks
  set w := v.tellParked 0 strand id
  have hwadm : w.admission = (state.takesPark strand).admission := (State.tellParked_admission v 0 strand id).trans hadm
  have hpages : w.freePages 0 = 3 :=
    (State.freePages_congr (State.admission_regs hwadm) (State.admission_parts hwadm) 0).trans takesPark_pages
  have hneed : 2 + state.rf (rPrtAdmitCfg (0 : Part)) 0 16 = 2 := by rw [state_reserve]
  have hshort : state.freePages 0 < 2 := by rw [state_pages]; decide
  have hmet : w.needMet 0 2 = true := State.needMet_free (by rw [hpages]; decide)
  have hreclaim : reclaimFor 0 2 none state = w := by
    refine reclaimRung2_met hset ?_ hmet
    rw [state_idle]
    exact reclaimWalk_last state_role (State.needMet_short hset hshort) rfl hpark hmet []
  obtain ⟨slot, pages, u, hok, hu⟩ := State.admitSession_short (d := 0) (pages := 2) (cost := 4000) hcalm (by rw [hneed]; exact hshort)
    (by rw [hneed]; exact hreclaim) ((State.admitCheck_congr hwadm 0 0 2 4000).trans takesPark_admits) (by rw [hpages]; decide)
  exact ⟨slot, pages, u, hok, hu.trans ((State.tellParked_mem v 0 strand id).trans hmem)⟩

/-- The strand's image stands where the copy was. -/
theorem copy_overwritten {u : State} (h : u.mem = (state.wrBytes 0x200000 image).mem) : u.rd8 (2 ^ 64 + 0x200000) = 1#8 := by
  have hpos : 0 < image.length := by
    cases hi : image with
    | nil => exact absurd (hi ▸ image_head) (by decide)
    | cons b l => exact Nat.succ_pos _
  have hread := State.rd8_wrBytes_in image 0x200000 0 hpos state_canon.1 image_length
  have hhead : image[0] = 1#8 := by
    rw [List.getElem_zero]
    exact Option.some.inj ((List.head?_eq_some_head _).symm.trans image_head)
  rw [State.rd8, h, ← hhead, ← hread]
  rfl

/-- So no copy of the locket is readable. -/
theorem copy_lost {u : State} (h : u.mem = (state.wrBytes 0x200000 image).mem) (x : OpCtx) : u.goodWarm x locket = [] := by
  have hread : u.warmReadable locket (2 ^ 64 + 0x200000) = false := by
    rw [State.warmReadable]
    change ([u.rd8 (2 ^ 64 + 0x200000)] == [2#8]) = false
    rw [copy_overwritten h]
    decide
  rw [State.goodWarm]
  change List.filter _ [2 ^ 64 + 0x200000] = []
  rw [List.filter_singleton, hread]
  rfl

/-- The checks of the revive pass, with a body that binds no CP and no hook. -/
theorem op_reviveFault : ∃ b v, state.reviveFault op = .ok (locket, b, v) ∧ b.bound 2 = none ∧ b.bound 3 = none := by
  have hpass := state_passes
  unfold passes at hpass
  split at hpass
  next l b v hf =>
    obtain ⟨⟨hl, hcp⟩, hhook⟩ := by simpa only [Bool.and_eq_true, beq_iff_eq] using hpass
    exact ⟨b, v, hl ▸ hf, hcp, hhook⟩
  next => cases hpass

/-- The admitted revive finds no copy, and ends with SESSION_LOST. -/
theorem op_past {b : LocketBody} {v : Bound} {slot : Nat} {pages : List Nat} {u : State} (hf : state.reviveFault op = .ok (locket, b, v))
    (hcost : ∀ n, state.stepCost 0 (b.bound 2) (b.bound 3) n = 4000) (hadmit : state.admitSession 0 0 2 4000 = .ok slot pages u)
    (hmem : u.mem = (state.wrBytes 0x200000 image).mem) : ∃ z, (revive 0 state).ctx? 0 = some z ∧ z.status = some stSessionLost := by
  obtain ⟨hop, hrevive, hready⟩ := state_op
  rw [revive_admitted (State.readyOp_of hop hrevive hready) rfl hf rfl hcost hadmit]
  have hctx : u.ctx? 0 = some op := ((State.admitSession_parked hadmit).ctx? 0).trans hop
  exact State.reviveRead_status (State.readLocket_lost (copy_lost hmem _) rfl rfl rfl) (State.ctx?_ctxUpd hctx fun _ => rfl)

end AliasedCopy
end Sys2Proof.Machine

namespace Sys2Proof.Claims
open Machine
/-- Refutes O47: of an admitted REVIVE the statement says that it ends with OK where a warm copy is readable before the command, but the copy is read
after admission, which parks an idle strand when pages are short (R163, R174), and that park writes chip memory. In the witness,
`AliasedCopy.state`, the new locket takes the bytes of the copy, which is listed 2^64 above them, and the revive ends with SESSION_LOST. The state is
canonical, though no run reaches it: every copy that a park places lies in the warm park. -/
theorem not_locketOps : ¬ Obligations.LocketOps := by
  unfold Obligations.LocketOps
  intro h
  obtain ⟨-, -, -, -, -, -, -, -, admitted, -⟩ := h AliasedCopy.state 0 AliasedCopy.op AliasedCopy.state_canon AliasedCopy.state_alone
  obtain ⟨b, v, hf, hcp, hhook⟩ := AliasedCopy.op_reviveFault
  have hcost : ∀ n, AliasedCopy.state.stepCost 0 (b.bound 2) (b.bound 3) n = 4000 := fun n => by rw [hcp, hhook]; rfl
  obtain ⟨slot, pages, u, hadmit, hmem⟩ := AliasedCopy.op_admitted
  obtain ⟨t, -, ht, ⟨y, hy, -, hok, -⟩, -⟩ := admitted AliasedCopy.locket b v slot pages u AliasedCopy.state_op rfl hf rfl
    ((congrArg (AliasedCopy.state.admitSession 0 0 2) (hcost _)).trans hadmit) AliasedCopy.state_copy
  obtain ⟨t', ht', hdone⟩ := AliasedCopy.state_alone.works (.revive 0) (revive 0)
  obtain ⟨z, hz, hlost⟩ := AliasedCopy.op_past hf hcost hadmit hmem
  have htt : t = t' := Host.Outcome.next.inj (ht.symm.trans ht')
  have hyz : some y = some z := hy.symm.trans (htt ▸ (hdone.ctx? 0).trans hz)
  rw [Option.some.inj hyz, hlost] at hok
  exact absurd hok (by decide)

end Sys2Proof.Claims
end
